-- ==== Sys2Proof/Word.lean ====
section
/-!
DEFINITION. The word types of the Ordar 880 model and its smallest enumerations (R4, R5, R6).
Bit vectors hold what the manual treats as bits; counts, positions and indices are `Nat`.
-/
namespace Sys2Proof

/-- A byte. -/
abbrev Byte := BitVec 8
/-- A 32-bit word: an FP32 or INT32 value, a word of core memory. -/
abbrev W32 := BitVec 32
/-- A 64-bit word: a Chamois scalar, a Chamois or DMA instruction. -/
abbrev W64 := BitVec 64
/-- A 128-bit Eland instruction word (R126). -/
abbrev W128 := BitVec 128
/-- A 64-byte line; byte k is bits [8k+7:8k] (R6, R112). -/
abbrev Line := BitVec 512

/-- The two needles of an Eland core (R118). -/
inductive Needle where
  | fore
  | back
  deriving DecidableEq, Repr

/-- The other needle of the core. -/
def Needle.other : Needle → Needle
  | .fore => .back
  | .back => .fore

/-- 0 for the fore-needle, 1 for the back-needle: the NEEDLE code of a fault record (R226). -/
def Needle.code : Needle → Nat
  | .fore => 0
  | .back => 1

/-- The two directions of the Round (R23, R87). -/
inductive Dir where
  | cw
  | ccw
  deriving DecidableEq, Repr

/-- The DIR field of MMA and TAKE (R136, R149): 0 clockwise, 1 counter-clockwise. -/
def Dir.ofBit : Nat → Dir
  | 0 => .cw
  | _ => .ccw

end Sys2Proof
end

