-- ==== Sys2Proof/Syntax.lean ====
section
/-!
DEFINITION. The commands of the block: one constructor of `Instr` for each row of the opcode table, with the
operands the row needs. An instruction of a needle, of a Chamois core or of a DMA channel is the command that the
unit issues it; its operand is the unit and, for cores, the instruction word itself. An event carries the unit it
happens at, and whatever comes from outside the device: a frame, a pin level, a sensor reading.
-/
namespace Sys2Proof

/-- The Ethernet side of a frame: the MAC address of the other end, and the VID and PCP of its tag; VID 0 is an untagged frame.
An answer takes that of the request (R449, R451). -/
structure Eth where
  mac : Nat := 0
  vid : Nat := 0
  pcp : Nat := 0
  deriving DecidableEq, Repr

/-- The source of an SPP datagram: IPv6 (or IPv4-mapped) address and UDP port (R416, R432), with the result of the
UDP checksum and the frame's Ethernet side. -/
structure SppSrc where
  ip    : Nat
  port  : Nat
  udpOk : Bool
  eth   : Eth := {}
  deriving DecidableEq, Repr

/-- An SPP message: the 24-byte header of R417, the body as sent and the 32-byte TAG. -/
structure SppMsg where
  version : Nat
  type    : Nat
  session : Nat
  seq     : Nat
  reqId   : Nat
  length  : Nat
  status  : Nat
  count   : Nat
  rsv     : Nat
  body    : List Byte
  tag     : List Byte
  deriving DecidableEq, Repr

/-- A host memory service message as received: R456's header fields, the payload, and the sender. `rsv0` is bits
[231:225], `rsv1` byte 9; `eth` is the other end's, also in a message sent. -/
structure HmsFrame where
  srcIp   : Nat
  srcPort : Nat
  version : Nat
  op      : Nat
  status  : Nat
  rsv0    : Nat
  restart : Nat
  seq     : Nat
  region  : Nat
  rsv1    : Nat
  offset  : Nat
  count   : Nat
  offset2 : Nat
  length  : Nat
  crc     : Nat
  payload : List Byte
  eth     : Eth := {}
  deriving DecidableEq, Repr

/-- A herd frame as received (R315): the header fields, the payload, the stamp of its last byte in PTP nanoseconds
(R330), the port's UDP check and the CE mark (R313). `rsv` joins the reserved fields. -/
structure HerdFrame where
  version     : Nat
  type        : Nat
  last        : Nat
  twinCopy    : Nat
  econ        : Nat
  cvc         : Nat
  herdId      : Nat
  srcSeat     : Nat
  dstSeat     : Nat
  hop         : Nat
  collSeq     : Nat
  window      : Nat
  chunk       : Nat
  blocks      : Nat
  blockOffset : Nat
  promoted    : Nat
  rsv         : Nat
  digest      : Nat
  payload     : List Byte
  stamp       : Nat
  udpOk       : Bool
  ce          : Bool
  deriving DecidableEq, Repr

/-- What the power-up self-tests of R389 find, in the order of the table: each list names failing units. -/
structure SelfTest where
  array      : List Nat := []   -- Eland cores failing the array known-answer test
  vector     : List Nat := []   -- Chamois cores failing the vector known-answer test
  coreMem    : List Nat := []   -- bits of 0201h whose core memory fails
  accMem     : List Nat := []   -- Eland cores whose accumulator memory fails
  stop       : List Nat := []   -- Round stops failing active
  bypass     : Bool := false       -- some stop fails in bypass
  router     : List Nat := []   -- mesh positions whose router or one of whose links fails
  syncNode   : List Nat := []   -- mesh positions whose sync node fails
  stashOrRound : Bool := false     -- top-of-stash cache or Round buffers fail
  staging    : Bool := false       -- collective staging SRAM fails
  hbm        : List Nat := []   -- stacks that fail
  lanes      : List Nat := []   -- SerDes lanes 36i + l that fail
  hbmRepairs : List Nat := []   -- rows repaired in HS0 to HS7
  sramRepairs : Nat := 0
  durationMs : Nat := 0
  roundTripPs : Nat := 0       -- measured for 0930h.01
  deriving DecidableEq, Repr

/-- The source of data that arrives at a port F: an operation tag of the core, or a stream context. -/
inductive PortFSrc where
  | op (tag : Nat)
  | stream (ctx : Nat)
  deriving DecidableEq, Repr

/-- Kinds of frame that no protocol accepts or that fail a check (R407, R449). -/
inductive DropReason where
  | notAccepted
  | fec
  | fcs
  | macsec
  deriving DecidableEq, Repr

/-- A PTP message, as R455 uses it: what kind it is and the offset the servo computes from it. -/
inductive PtpMsg where
  | announce
  | sync (offsetNs : Int)
  | other
  deriving DecidableEq, Repr

/-- One command or event: the rows of the opcode table, in the table's order. -/
inductive Instr where
  -- Eland instructions (R126 to R152): core, needle, instruction word
  | nop (c : Nat) (n : Needle) (w : W128)
  | halt (c : Nat) (n : Needle) (w : W128)
  | loop (c : Nat) (n : Needle) (w : W128)
  | pick (c : Nat) (n : Needle) (w : W128)
  | part (c : Nat) (n : Needle) (w : W128)
  | stepI (c : Nat) (n : Needle) (w : W128)
  | setb (c : Nat) (n : Needle) (w : W128)
  | tpos (c : Nat) (n : Needle) (w : W128)
  | sync (c : Nat) (n : Needle) (w : W128)
  | signal (c : Nat) (n : Needle) (w : W128)
  | mma (c : Nat) (n : Needle) (w : W128)
  | accrd (c : Nat) (n : Needle) (w : W128)
  | act (c : Nat) (n : Needle) (w : W128)
  | dact (c : Nat) (n : Needle) (w : W128)
  | cvt (c : Nat) (n : Needle) (w : W128)
  | amax (c : Nat) (n : Needle) (w : W128)
  | spush (c : Nat) (n : Needle) (w : W128)
  | spop (c : Nat) (n : Needle) (w : W128)
  | inj (c : Nat) (n : Needle) (w : W128)
  | take (c : Nat) (n : Needle) (w : W128)
  | tld (c : Nat) (n : Needle) (w : W128)
  | tst (c : Nat) (n : Needle) (w : W128)
  | put (c : Nat) (n : Needle) (w : W128)
  | get (c : Nat) (n : Needle) (w : W128)
  | rsend (c : Nat) (n : Needle) (w : W128)
  -- Chamois instructions (R182, R183): core number 0 to 23, instruction word
  | cNop (c : Nat) (w : W64)
  | cHalt (c : Nat) (w : W64)
  | cLoop (c : Nat) (w : W64)
  | cStep (c : Nat) (w : W64)
  | cSync (c : Nat) (w : W64)
  | cSignal (c : Nat) (w : W64)
  | add (c : Nat) (w : W64)
  | sub (c : Nat) (w : W64)
  | and (c : Nat) (w : W64)
  | or (c : Nat) (w : W64)
  | xor (c : Nat) (w : W64)
  | shl (c : Nat) (w : W64)
  | shr (c : Nat) (w : W64)
  | sra (c : Nat) (w : W64)
  | mul (c : Nat) (w : W64)
  | slt (c : Nat) (w : W64)
  | sltu (c : Nat) (w : W64)
  | addi (c : Nat) (w : W64)
  | li (c : Nat) (w : W64)
  | lih (c : Nat) (w : W64)
  | fadd (c : Nat) (w : W64)
  | fmul (c : Nat) (w : W64)
  | vadd (c : Nat) (w : W64)
  | vsub (c : Nat) (w : W64)
  | vmul (c : Nat) (w : W64)
  | vfma (c : Nat) (w : W64)
  | vmac (c : Nat) (w : W64)
  | vsmd (c : Nat) (w : W64)
  | vmax (c : Nat) (w : W64)
  | vmin (c : Nat) (w : W64)
  | vabs (c : Nat) (w : W64)
  | vneg (c : Nat) (w : W64)
  | vdiv (c : Nat) (w : W64)
  | vsqrt (c : Nat) (w : W64)
  | vrsqrt (c : Nat) (w : W64)
  | vfn (c : Nat) (w : W64)
  | vcmp (c : Nat) (w : W64)
  | vsel (c : Nat) (w : W64)
  | viadd (c : Nat) (w : W64)
  | visub (c : Nat) (w : W64)
  | vimul (c : Nat) (w : W64)
  | vand (c : Nat) (w : W64)
  | vor (c : Nat) (w : W64)
  | vxor (c : Nat) (w : W64)
  | vshl (c : Nat) (w : W64)
  | vshr (c : Nat) (w : W64)
  | vicmp (c : Nat) (w : W64)
  | vcvtfi (c : Nat) (w : W64)
  | vcvtif (c : Nat) (w : W64)
  | vbcast (c : Nat) (w : W64)
  | vlane (c : Nat) (w : W64)
  | vrsum (c : Nat) (w : W64)
  | vrmax (c : Nat) (w : W64)
  | pand (c : Nat) (w : W64)
  | por (c : Nat) (w : W64)
  | pxor (c : Nat) (w : W64)
  | pnot (c : Nat) (w : W64)
  | vld (c : Nat) (w : W64)
  | vst (c : Nat) (w : W64)
  | lds (c : Nat) (w : W64)
  | sts (c : Nat) (w : W64)
  | trd (c : Nat) (w : W64)
  | twr (c : Nat) (w : W64)
  | sfacc (c : Nat) (w : W64)
  | ngath (c : Nat) (w : W64)
  | nscat (c : Nat) (w : W64)
  | mld (c : Nat) (w : W64)
  | mst (c : Nat) (w : W64)
  | mput (c : Nat) (w : W64)
  | mget (c : Nat) (w : W64)
  | mrsend (c : Nat) (w : W64)
  | cpush (c : Nat) (w : W64)
  | cpop (c : Nat) (w : W64)
  -- Events inside the cores; `u` is a unit number of R227 (Eland 0 to 35, Chamois 64 to 87)
  | instructionDecode (u : Nat) (n : Needle)
  | waitQueueEntry (u : Nat) (n : Needle)
  | engineIdle (c m h : Nat)                       -- engine m of core c, half h
  | accrdHoldRelease (c m : Nat)                   -- read path of engine m
  | roundBeatSend (stop : Nat)
  | roundBeatArrive (d : Dir) (stop e : Nat)       -- e: engines already passed at the stop, 4 = leaving it
  | roundBeatTake (d : Dir) (stop : Nat)
  | takeQueueDrain (d : Dir) (stop : Nat)
  | injectionQueueFill (stop : Nat)
  | portFLineWrite (u : Nat) (src : PortFSrc)
  | meshTransferComplete (u tag : Nat)
  | stashPushComplete (u tag : Nat)
  -- The sync network (R249, R250); `p` is a mesh position, `d` a domain
  | incr (p tok : Nat)
  | stallReq (d : Nat)
  | freeze (d : Nat)
  | resumeOk (d u : Nat)
  | resume (d : Nat)
  | pickReport (d c : Nat)
  | pickChoice (d : Nat)
  | fault (d : Nat)
  | stop (d : Nat)
  | start (d : Nat)
  | stallTimeout (d : Nat)
  | domainDone (d : Nat)
  -- Commands through the dictionary
  | load (d : Nat)
  | run (d : Nat)
  | loadRun (d : Nat)
  | abort (d : Nat)
  | release (d : Nat)
  | nanClear (arg : Nat)
  | monClear (arg : Nat)
  | monTensorWrite (v : Nat)
  | nanPolicyWrite (v : Nat)
  | gradFloorWrite (v : Nat)
  | rngStepWrite (strand v : Nat)
  | stashDomainWrite (strand v : Nat)
  | faultAck (v : Nat)
  | ptFlush (v : Nat)
  | haltResume (slot : Nat)
  | haltFail (slot : Nat)
  | dmaStart (arg : Nat)                           -- the channel is the one 0730h.01 selects
  -- DMA (R276 to R281); `ch` is a channel, its instruction is the word at its program counter
  | dmaTriggerRun (ch : Nat)
  | dmaTriggerTime (ch : Nat)
  | dmaTriggerCtc (ch : Nat)
  | dmaTriggerChannel (ch : Nat)
  | dmaNop (ch : Nat)
  | dmaHalt (ch : Nat)
  | dmaLoop (ch : Nat)
  | endloop (ch : Nat)
  | wait (ch : Nat)
  | dmaSignal (ch : Nat)
  | timer (ch : Nat)
  | crcstore (ch : Nat)
  | move (ch : Nat)
  | move2d (ch : Nat)
  | dmaTimerExpiry (ch : Nat)
  | dmaTransferComplete (ch : Nat)
  -- Streams (R259 to R274); `x` is a stream context
  | windowCurrent (x : Nat)
  | windowRelease (x : Nat)
  | windowCheck (x : Nat)
  | streamRequestIssue (x : Nat)
  | windowFilled (x p : Nat)
  | storeWindowAcknowledged (x : Nat)
  | streamWait (x : Nat)
  -- Memory
  | hbmRequestService (s : Nat)
  | hbmRefresh (s bank : Nat)
  | scrub (s : Nat)
  | stackTemperatureRead (s : Nat) (eighths : Int)
  -- The mesh (R233 to R247)
  | meshWrite (p : Nat)
  | meshReadRequest (p : Nat)
  | meshReadResponse (p : Nat)
  | meshAcknowledge (p : Nat)
  | meshReduction (p t : Nat)
  | meshMulticastWrite (p : Nat)
  | meshStash (p : Nat)
  | flitCrcFail (p dir : Nat)                      -- dir 0 North, 1 East, 2 South, 3 West
  -- Clocks, power and thermal control
  | stretch (zone : Nat)
  | marginShortfall (zone size : Nat)              -- size 1 = 25 %, 2 = 50 %, 3 = 100 %
  | crossingRecentre (za zb : Nat)
  | freq (zone : Nat)
  | frequencySwitch
  | targetMhzWrite (v : Nat)
  | serviceClockWrite (sub v : Nat)
  | regulatorStepSettled
  | regulatorStepTimeout
  | stretchMarginUpdate (slow : Bool)              -- false: end of a millisecond; true: end of 100 ms
  | powerWindowEnd
  | thermalReading (readings : List (Nat × Option Int))   -- sensor code and reading in 1/8 °C, if valid
  | thermalTrip (sensor : Nat)
  -- Start-up
  | pwrOkRise
  | pwrOkFall
  | resetLLow (us : Nat)                           -- microseconds RESET_L has been low
  | resetLRelease (t : SelfTest)
  | functionReady (bit : Nat) (ok : Bool) (ms : Nat)
  | startWarm (arg : Nat)
  | testAck (arg : Nat)
  -- Security
  | attestGenerate (arg : Nat)
  | attestSigned
  | hostkeySlotWrite (slot : Nat) (key : List Byte)
  | updateData (v : List Byte)
  | updateVerify (arg : Nat)
  -- SPP
  | open1 (src : SppSrc) (m : SppMsg)
  | open3 (src : SppSrc) (m : SppMsg)
  | open3Timeout (slot : Nat)
  | access (src : SppSrc) (m : SppMsg)
  | registerWrite (key : Nat) (v : List Byte)      -- key = index × 256 + sub; the value in wire order
  | subscribe (src : SppSrc) (m : SppMsg)
  | unsubscribe (src : SppSrc) (m : SppMsg)
  | close (src : SppSrc) (m : SppMsg)
  | keepalive (src : SppSrc) (m : SppMsg)
  | sessionClose (arg : Nat)
  | sessionIdleTimeout (slot : Nat)
  | notify (sub : Nat)
  | versionSelectedWrite (v : Nat)
  -- Parameter writes with behaviour of their own
  | treeConfigWrite (t sub v : Nat)
  | mcastMembersWrite (d g v : Nat)
  | cvcConfigWrite (c sub : Nat) (v : List Byte)
  | registryEntryWrite (v : List Byte)
  | dataStepWrite (strand v : Nat)
  | resumeStepWrite (strand v : Nat)
  | portModeWrite (port v : Nat)                   -- port 0 to 15 fabric, 16 host
  | sealRequest (v : List Byte)
  | sealExecute (arg : Nat)
  | recordGenerate (arg : Nat)
  -- The Gauge die
  | periodicRecord
  | gaugeSample (raw : List (Option (W32 × W32)))  -- nine rails: raw voltage and current as F32; none = out of range
  | gaugeCommit
  | vddIodFall
  -- Snapshots
  | snapshotPoint (d : Nat)
  | snapshotDrainEnd (d : Nat)
  | snapshotPageCopy (d e page : Nat)              -- registry entry e, page within the entry
  | snapshotMirrorWrite (d : Nat)
  | snapshotComplete (d : Nat)
  | snapshotTimeout (d : Nat)
  -- Host memory service messages received at a port (0 to 15 fabric, 16 host)
  | page (port : Nat) (f : HmsFrame)
  | mirror (port : Nat) (f : HmsFrame)
  | refresh (port : Nat) (f : HmsFrame)
  | record (port : Nat) (f : HmsFrame)
  | read (port : Nat) (f : HmsFrame)
  | write (port : Nat) (f : HmsFrame)
  | data (port : Nat) (f : HmsFrame)
  | ack (port : Nat) (f : HmsFrame)
  | nak (port : Nat) (f : HmsFrame)
  | hmsResendTimeout (flow : Nat)
  -- Collectives
  | collectiveStart (c : Nat)
  | collectiveHopSend (c : Nat)
  | herdFrame (port : Nat) (f : HerdFrame)
  | windowClose (c : Nat)
  | windowGraceClose (c : Nat)
  | collectiveComplete (c : Nat)
  -- Ethernet ports
  | pfcFrame (port prio quanta : Nat)
  | arpRequest (port ip : Nat) (asker : Eth)       -- address asked for, and who asks
  | neighbourSolicitation (port ip : Nat) (asker : Eth)
  | linkLoss (port : Nat)
  | retrainAttemptEnd (port : Nat) (ok : Bool)
  | periodicRetrain (port : Nat) (ok : Bool)
  | ptpMessage (port domain : Nat) (m : PtpMsg)
  | ptp1ppsEdge
  | ptpHoldover
  -- Completions
  | recordSigned
  | updateWriteComplete
  | updateVerifyComplete
  | pfcPauseExpiry (port prio : Nat)
  | linkTrainingEnd (port : Nat) (ok : Bool)
  | discardedFrame (port : Nat) (why : DropReason)
  | boundaryScan (tms tdi trst : Bool) (pins : Nat)
  | regulatorTelemetryRead (readings : List (Nat × Nat))  -- nine rails: mV and A
  deriving DecidableEq, Repr

end Sys2Proof
end

