-- ==== Sys2Proof/Decode.lean ====
section
/-!
DEFINITION. Commands from table words. The command table gives no row any bits: a command comes to the block whole, from
outside, and no word spells one. Instruction words of cores and channels are read field by field in
Machine/Operands.lean.
-/
namespace Sys2Proof

/-- The command that a table word spells: none, since no row has bits. -/
def decodeTableWord (_nbits _w : Nat) : Option Instr := none

end Sys2Proof
end

