-- ==== Sys2Proof/Machine/Store.lean ====
section
/-!
DEFINITION. Sparse plain data in one canonical form: a list of key and value pairs, keys strictly rising, no pair
equal to the default that an unlisted key reads as. Memory, the parameter dictionary and every bank of like units
are such stores, so that equal contents are equal data.
-/
namespace Sys2Proof.Machine

/-- A sparse store: pairs in rising key order. -/
abbrev SMap (V : Type) := List (Nat × V)

/-- The value at a key; `d` where nothing is listed. -/
def SMap.get {V : Type} (d : V) : SMap V → Nat → V
  | [], _ => d
  | (k', v) :: r, k => if k' = k then v else SMap.get d r k

/-- Put a pair in its place, replacing the pair of the same key. -/
def SMap.ins {V : Type} (k : Nat) (v : V) : SMap V → SMap V
  | [] => [(k, v)]
  | (k', v') :: r =>
    if k = k' then (k, v) :: r
    else if k < k' then (k, v) :: (k', v') :: r
    else (k', v') :: SMap.ins k v r

/-- Drop the pair of a key. -/
def SMap.del {V : Type} (k : Nat) : SMap V → SMap V
  | [] => []
  | (k', v') :: r => if k' = k then SMap.del k r else (k', v') :: SMap.del k r

/-- Write a value, keeping the canonical form: writing the default removes the pair. -/
def SMap.set {V : Type} [DecidableEq V] (d : V) (m : SMap V) (k : Nat) (v : V) : SMap V :=
  if v = d then SMap.del k m else SMap.ins k v m

/-- The canonical form from a lower bound on: keys at least `lo` and strictly rising, no default listed. -/
def SMap.wfFrom {V : Type} [DecidableEq V] (d : V) : Nat → SMap V → Bool
  | _, [] => true
  | lo, (k, v) :: r => decide (lo ≤ k) && decide (v ≠ d) && SMap.wfFrom d (k + 1) r

/-- The canonical form. -/
def SMap.wf {V : Type} [DecidableEq V] (d : V) (m : SMap V) : Bool := SMap.wfFrom d 0 m

/-- Update the value at a key. -/
def SMap.upd {V : Type} [DecidableEq V] (d : V) (m : SMap V) (k : Nat) (f : V → V) : SMap V := SMap.set d m k (f (SMap.get d m k))

/-- The pair in front, unless it is of the default. -/
def SMap.put {V : Type} [DecidableEq V] (d : V) (k : Nat) (v : V) (m : SMap V) : SMap V := if v = d then m else (k, v) :: m

/-- Update the values at rising keys, in one pass; `acc` holds the pairs passed, last first. -/
def SMap.updGo {V : Type} [DecidableEq V] (d : V) (f : V → V) : List Nat → SMap V → SMap V → SMap V
  | [], m, acc => acc.reverse ++ m
  | k :: ks, m, acc =>
    let acc := (m.takeWhile fun x => decide (x.1 < k)).reverse ++ acc
    match m.dropWhile fun x => decide (x.1 < k) with
    | [] => SMap.updGo d f ks [] (SMap.put d k (f d) acc)
    | (k', v) :: r =>
      if k' = k then SMap.updGo d f ks r (SMap.put d k (f v) acc)
      else SMap.updGo d f ks ((k', v) :: r) (SMap.put d k (f d) acc)

/-- Update the values at rising keys. -/
def SMap.updAll {V : Type} [DecidableEq V] (d : V) (f : V → V) (ks : List Nat) (m : SMap V) : SMap V :=
  SMap.updGo d f ks m []

/-- Sum of a list of counts. -/
def sumNat (l : List Nat) : Nat := l.foldl (· + ·) 0

/-- Replace the entry at an index of a list, if there is one. -/
def listSet {α : Type} : List α → Nat → α → List α
  | [], _, _ => []
  | _ :: r, 0, v => v :: r
  | x :: r, n + 1, v => x :: listSet r n v

/-- The first entry of a list that meets a test, and the list without it. -/
def takeFirst {α : Type} (p : α → Bool) : List α → Option (α × List α)
  | [] => none
  | x :: r => if p x then some (x, r) else
    match takeFirst p r with
    | none => none
    | some (y, r') => some (y, x :: r')

/-- Bits [hi:lo] of a number (R5). -/
def bits (n hi lo : Nat) : Nat := (n >>> lo) % 2 ^ (hi + 1 - lo)

/-- Bit i of a number. -/
def bit (n i : Nat) : Bool := n.testBit i

/-- A number of `w` bits read as two's complement. -/
def sext (w n : Nat) : Int := if n % 2 ^ w < 2 ^ (w - 1) then (n % 2 ^ w : Nat) else (n % 2 ^ w : Nat) - (2 ^ w : Nat)

/-- An integer taken modulo 2^w. -/
def wrap (w : Nat) (i : Int) : Nat := (i % (2 ^ w : Nat)).toNat

/-- Bytes, least significant first, as a number (R6). -/
def leNat : List Byte → Nat
  | [] => 0
  | b :: r => b.toNat + 256 * leNat r

/-- The `n` low bytes of a number, least significant first (R6). -/
def leBytes : Nat → Nat → List Byte
  | 0, _ => []
  | n + 1, v => BitVec.ofNat 8 v :: leBytes n (v / 256)

/-- Bytes, most significant first, as a number (R6: payloads over UDP). -/
def beNat (l : List Byte) : Nat := l.foldl (fun a b => a * 256 + b.toNat) 0

/-- The `n` low bytes of a number, most significant first. -/
def beBytes (n v : Nat) : List Byte := (leBytes n v).reverse

/-- ceil(a / b). -/
def ceilDiv (a b : Nat) : Nat := (a + b - 1) / b

/-- A count that stops at its largest value of `w` bits. -/
def satAdd (w a b : Nat) : Nat := min (a + b) (2 ^ w - 1)

end Sys2Proof.Machine
end

