-- ==== Sys2Proof/Machine/Code.lean ====
section
/-!
DEFINITION. The Reed-Solomon code over GF(2^8) that protects every HBM sector and SRAM line (R295), and the pattern that
marks stored poison (R298).
-/
namespace Sys2Proof.Machine

/-- `a` times α = 02h under the field polynomial 11Dh (R295). -/
def gfDouble (a : Nat) : Nat := if 128 ≤ a then (2 * a) ^^^ 0x11D else 2 * a

/-- The product of two field elements, over the lowest `n` bits of `b`. -/
def gfMulBits (a b : Nat) : Nat → Nat
  | 0 => 0
  | n + 1 => (if b.testBit 0 then a else 0) ^^^ gfMulBits (gfDouble a) (b / 2) n

/-- The product of two field elements. -/
def gfMul (a b : Nat) : Nat := gfMulBits a b 8

/-- α to the power `n`. -/
def gfAlpha : Nat → Nat
  | 0 => 1
  | n + 1 => gfDouble (gfAlpha n)

/-- A polynomial, highest degree first, times x − c. -/
def polyTimes (c : Nat) (p : List Nat) : List Nat := List.zipWith (· ^^^ ·) (p ++ [0]) (0 :: p.map (gfMul c))

/-- The generator polynomial with `r` check bytes, highest degree first: the product of x − α^i for i = 0 to r − 1 (R295). -/
def rsGenerator (r : Nat) : List Nat := (List.range r).foldl (fun p i => polyTimes (gfAlpha i) p) [1]

/-- One step of the division by the generator: the remainder, highest degree first, takes the next coefficient. -/
def rsStep (gen rem : List Nat) (b : Nat) : List Nat :=
  let f := rem.headD 0 ^^^ b
  List.zipWith (· ^^^ ·) (rem.drop 1 ++ [0]) ((gen.drop 1).map (gfMul f))

/-- The `r` check bytes of data, in ascending degree order (R295). -/
def rsCheck (r : Nat) (data : List Nat) : List Nat :=
  (data.foldl (rsStep (rsGenerator r)) (List.replicate r 0)).reverse

/-- The value of a codeword, data then check bytes, at a field element. -/
def rsEval (a : Nat) (data check : List Nat) : Nat :=
  (data ++ check.reverse).foldl (fun v c => gfMul v a ^^^ c) 0

/-- The syndromes of a codeword: all zero for a valid one. -/
def rsSyndromes (data check : List Nat) : List Nat :=
  (List.range check.length).map fun i => rsEval (gfAlpha i) data check

/-- The pattern over the check bytes of stored poison: 9E37_79B9_7F4A_7C15h, or its bytes 0 to 3 (R298). -/
def poisonPattern : List Nat := [0x9E, 0x37, 0x79, 0xB9, 0x7F, 0x4A, 0x7C, 0x15]

/-- The check bytes as they are stored with data, poisoned or not (R298). -/
def storedCheck (r : Nat) (poison : Bool) (data : List Nat) : List Nat :=
  if poison then List.zipWith (· ^^^ ·) (rsCheck r data) poisonPattern else rsCheck r data

/-- What a read of a codeword finds (R296 to R298). -/
inductive Found where
  | right
  | corrected
  | beyond
  | wrong               -- corrected to wrong data
  deriving DecidableEq, Repr

/-- What a read finds in a codeword of data or of stored poison with `n` wrong bytes; `draw` decides beyond the limits of the
table of R295: an HBM sector (`r` = 8) within 6 byte errors, an SRAM line within 2. Poison is recognised with at most one byte
corrected (R298). -/
def findIn (r : Nat) (pattern : Bool) (n draw : Nat) : Found :=
  if n == 0 then .right
  else if n ≤ (if pattern then 1 else 2) then .corrected
  else if r == 8 && n ≤ 6 then .beyond
  else if draw == 0 then .right else if draw == 1 then .wrong else .beyond

end Sys2Proof.Machine
end

