-- ==== Sys2Proof/Machine/Fp.lean ====
section
/-!
DEFINITION. Real values of floating-point data and the operations of "Arithmetic and summation order" on them:
exact products (R59), add (R60), rounding to a grid (R53, R54) and the FP32 operations that round an exact result
once (R185).
-/
namespace Sys2Proof.Machine

/-- A decoded value: a NaN, an infinity of a sign, or the finite value ±m × 2^e, zeros keeping their sign (R33, R34). -/
inductive FV where
  | nan
  | inf (neg : Bool)
  | fin (neg : Bool) (m : Nat) (e : Int)
  deriving DecidableEq, Repr

/-- +0. -/
def FV.zero : FV := .fin false 0 0
/-- 1.0. -/
def FV.one : FV := .fin false 1 0

def FV.isNaN : FV → Bool
  | .nan => true
  | _ => false

def FV.isInf : FV → Bool
  | .inf _ => true
  | _ => false

def FV.isZero : FV → Bool
  | .fin _ 0 _ => true
  | _ => false

/-- The sign: true for negative values, −0 included. -/
def FV.neg : FV → Bool
  | .nan => false
  | .inf s => s
  | .fin s _ _ => s

/-- Sign cleared (R185 VABS). -/
def FV.abs : FV → FV
  | .nan => .nan
  | .inf _ => .inf false
  | .fin _ m e => .fin false m e

/-- Sign inverted (R185 VNEG, and −b of R164). -/
def FV.negate : FV → FV
  | .nan => .nan
  | .inf s => .inf (!s)
  | .fin s m e => .fin (!s) m e

/-- The finite value as an integer multiple of 2^q, for q ≤ e. -/
def FV.scaled (s : Bool) (m : Nat) (e q : Int) : Int :=
  let a : Int := (m * 2 ^ (e - q).toNat : Nat)
  if s then -a else a

/-- The order of two finite magnitudes. -/
def FV.magLt (m₁ : Nat) (e₁ : Int) (m₂ : Nat) (e₂ : Int) : Bool :=
  let q := min e₁ e₂
  decide (m₁ * 2 ^ (e₁ - q).toNat < m₂ * 2 ^ (e₂ - q).toNat)

/-- The rounding modes of R50, with the 16-bit draw of R54 for SR. -/
inductive RMode where
  | rne
  | rtz
  | sr (r : Nat)
  deriving DecidableEq, Repr

/-- The exponent of the grid step at a nonzero magnitude m × 2^e, for a mantissa of `prec` bits and a smallest step
2^qmin (R53). -/
def gridExp (prec : Nat) (qmin : Int) (m : Nat) (e : Int) : Int :=
  max ((Nat.log2 m : Int) + e - ((prec : Int) - 1)) qmin

/-- Round the magnitude m × 2^e to a multiple of 2^q, answering the multiple (R53, R54). -/
def roundQ (mode : RMode) (m : Nat) (e q : Int) : Nat :=
  if q ≤ e then m * 2 ^ (e - q).toNat
  else
    let d := (q - e).toNat
    let lo := m >>> d
    let rem := m % 2 ^ d
    match mode with
    | .rtz => lo
    | .rne => if 2 ^ d < 2 * rem || (2 * rem == 2 ^ d && lo % 2 == 1) then lo + 1 else lo
    | .sr r => if rem == 0 then lo else if 65536 ≤ rem * 65536 / 2 ^ d + r then lo + 1 else lo

/-- FP32: 24 mantissa bits, smallest step 2^−149 (R32). -/
def f32Prec : Nat := 24
def f32Qmin : Int := -149

/-- The FP32 value of an exact value: rounded once by RNE, beyond the range the infinity of its sign (R51 stage 2,
R60). -/
def roundF32 : FV → FV
  | .nan => .nan
  | .inf s => .inf s
  | .fin s 0 _ => .fin s 0 0
  | .fin s m e =>
    let q := gridExp f32Prec f32Qmin m e
    let k := roundQ .rne m e q
    if k == 0 then .fin s 0 0
    else if 128 ≤ (Nat.log2 k : Int) + q then .inf s
    else .fin s k q

/-- The fields of a binary interchange layout: mantissa width, exponent bias (R32). -/
def encodeFinite (mb : Nat) (bias : Int) (k : Nat) (q : Int) : Nat :=
  if k == 0 then 0
  else
    let l := Nat.log2 k
    let e := (l : Int) + q + bias
    if 1 ≤ e then
      let f := if l ≤ mb then k * 2 ^ (mb - l) else k >>> (l - mb)
      e.toNat * 2 ^ mb + (f - 2 ^ mb)
    else
      let qmin : Int := 1 - bias - mb
      if qmin ≤ q then k * 2 ^ (q - qmin).toNat else k >>> (qmin - q).toNat

/-- An FP32 value as its 32 bits; a NaN as the canonical NaN 7FC0_0000h (R34). The value must lie on the FP32 grid. -/
def f32Bits : FV → Nat
  | .nan => 0x7FC00000
  | .inf s => (if s then 0x80000000 else 0) + 0x7F800000
  | .fin s m e => (if s then 0x80000000 else 0) + encodeFinite 23 127 m e

/-- The value of a float element with `eb` exponent bits, `mb` mantissa bits and a bias, infinities and NaNs aside
(R33). -/
def decodeFinite (eb mb : Nat) (bias : Int) (n : Nat) : FV :=
  let s := bit n (eb + mb)
  let e := bits n (eb + mb - 1) mb
  let m := n % 2 ^ mb
  if e == 0 then .fin s m (1 - bias - mb) else .fin s (2 ^ mb + m) (e - bias - mb)

/-- The value of 32 bits as FP32 (R32, R33). -/
def f32Of (n : Nat) : FV :=
  if bits n 30 23 == 0xFF then (if n % 2 ^ 23 == 0 then .inf (bit n 31) else .nan)
  else decodeFinite 8 23 127 n

/-- A value as an FP32 word. -/
def toW32 (v : FV) : W32 := BitVec.ofNat 32 (f32Bits v)

/-- An FP32 word's value. -/
def ofW32 (w : W32) : FV := f32Of w.toNat

/-! ### Products and sums -/

/-- The exact product of two decoded values (R59). -/
def mulExact : FV → FV → FV
  | .nan, _ => .nan
  | _, .nan => .nan
  | .inf s, .inf t => .inf (s != t)
  | .inf s, .fin t m _ => if m == 0 then .nan else .inf (s != t)
  | .fin s m _, .inf t => if m == 0 then .nan else .inf (s != t)
  | .fin s m e, .fin t n f => .fin (s != t) (m * n) (e + f)

/-- 1 when a product of operands that are not NaN is a NaN: ±0 × ±Infinity (R59, 0D30h.02). -/
def mulMade : FV → FV → Nat
  | .inf _, .fin _ 0 _ => 1
  | .fin _ 0 _, .inf _ => 1
  | _, _ => 0

/-- The FP32 product, rounded once by RNE. -/
def mulF32 (x y : FV) : FV := roundF32 (mulExact x y)

/-- The exact sum of two finite values; an exact zero is −0 only when both operands are −0 (R60). -/
def addFin (s : Bool) (m : Nat) (e : Int) (t : Bool) (n : Nat) (f : Int) : FV :=
  let q := min e f
  let a := FV.scaled s m e q + FV.scaled t n f q
  if a == 0 then .fin (m == 0 && n == 0 && s && t) 0 0
  else .fin (decide (a < 0)) a.natAbs q

/-- The sum of two present operands before its rounding. -/
def addExact : FV → FV → FV
  | .nan, _ => .nan
  | _, .nan => .nan
  | .inf s, .inf t => if s == t then .inf s else .nan
  | .inf s, .fin _ _ _ => .inf s
  | .fin _ _ _, .inf t => .inf t
  | .fin s m e, .fin t n f => addFin s m e t n f

/-- add(x, y) of two present operands (R60). -/
def addFV (x y : FV) : FV := roundF32 (addExact x y)

/-- add(x, y) of R60; `none` is an absent operand. -/
def addOpt : Option FV → Option FV → Option FV
  | none, y => y
  | x, none => x
  | some x, some y => some (addFV x y)

/-- 1 when a sum generates a NaN: opposite infinities (R60, 0D30h.02). -/
def addMade : Option FV → Option FV → Nat
  | some (.inf s), some (.inf t) => if s == t then 0 else 1
  | _, _ => 0

/-! ### Comparison -/

/-- x < y for values that are not NaN, +0 and −0 equal. -/
def ltFV : FV → FV → Bool
  | .nan, _ => false
  | _, .nan => false
  | .inf s, .inf t => s && !t
  | .inf s, .fin _ _ _ => s
  | .fin _ _ _, .inf t => !t
  | .fin s m e, .fin t n f =>
    let q := min e f
    decide (FV.scaled s m e q < FV.scaled t n f q)

/-- x = y for values that are not NaN, +0 equal to −0 (R188). -/
def eqFV (x y : FV) : Bool := !x.isNaN && !y.isNaN && !ltFV x y && !ltFV y x

/-- The larger operand, −0 ordered below +0, canonical NaN where either is NaN (R187). -/
def maxFV (x y : FV) : FV :=
  if x.isNaN || y.isNaN then .nan
  else if ltFV x y then y else if ltFV y x then x
  else if x.neg then y else x

/-- The smaller operand (R187). -/
def minFV (x y : FV) : FV :=
  if x.isNaN || y.isNaN then .nan
  else if ltFV x y then x else if ltFV y x then y
  else if x.neg then x else y

/-! ### Exact quotients and roots, rounded once

Each answers a value with extra low bits whose last bit is sticky, so that one rounding of it is the rounding of the
exact result. -/

/-- num / den × 2^e with at least 64 significant bits and a sticky last bit. -/
def quotSticky (s : Bool) (num den : Nat) (e : Int) : FV :=
  if num == 0 || den == 0 then .fin s 0 0
  else
    let sh := 66 + Nat.log2 den - Nat.log2 num
    let n := num * 2 ^ sh
    let k := n / den
    .fin s (2 * k + (if n % den == 0 then 0 else 1)) (e - sh - 1)

/-- floor(√n), one result bit at a time from bit `i` down. -/
def isqrtGo (n : Nat) : Nat → Nat → Nat
  | 0, r => r
  | i + 1, r =>
    let t := r + 2 ^ i
    isqrtGo n i (if t * t ≤ n then t else r)

/-- floor(√n). -/
def isqrt (n : Nat) : Nat := isqrtGo n (Nat.log2 n / 2 + 1) 0

/-- √(m × 2^e) with a sticky last bit. -/
def sqrtSticky (m : Nat) (e : Int) : FV :=
  let odd := e % 2 != 0
  let m₁ := if odd then 2 * m else m
  let e₁ := if odd then e - 1 else e
  let n := m₁ * 2 ^ 128
  let r := isqrt n
  .fin false (2 * r + (if r * r == n then 0 else 1)) (e₁ / 2 - 64 - 1)

/-- 1 / √(m × 2^e) with a sticky last bit. -/
def rsqrtSticky (m : Nat) (e : Int) : FV :=
  let odd := e % 2 != 0
  let m₁ := if odd then 2 * m else m
  let e₁ := if odd then e - 1 else e
  let t := 2 * (Nat.log2 m₁ + 66)
  let n := 2 ^ t / m₁
  let r := isqrt n
  .fin false (2 * r + (if r * r * m₁ == 2 ^ t then 0 else 1)) (-(e₁ / 2) - ((t / 2 : Nat) : Int) - 1)

/-- va / vb under R185, before its rounding. -/
def divFV : FV → FV → FV
  | .nan, _ => .nan
  | _, .nan => .nan
  | .inf _, .inf _ => .nan
  | .inf s, .fin t _ _ => .inf (s != t)
  | .fin s _ _, .inf t => .fin (s != t) 0 0
  | .fin s m e, .fin t n f =>
    if n == 0 then (if m == 0 then .nan else .inf (s != t))
    else if m == 0 then .fin (s != t) 0 0
    else quotSticky (s != t) m n (e - f)

/-- √va under R185, before its rounding. -/
def sqrtFV : FV → FV
  | .nan => .nan
  | .inf s => if s then .nan else .inf false
  | .fin s m e => if m == 0 then .fin s 0 0 else if s then .nan else sqrtSticky m e

/-- 1 / √va under R185, before its rounding. -/
def rsqrtFV : FV → FV
  | .nan => .nan
  | .inf s => if s then .nan else .fin false 0 0
  | .fin s m e => if m == 0 then .inf s else if s then .nan else rsqrtSticky m e

/-- BF16 of an exact value by RNE: 8 mantissa bits, the exponents of FP32 (R186). -/
def roundBf16 : FV → FV
  | .nan => .nan
  | .inf s => .inf s
  | .fin s 0 _ => .fin s 0 0
  | .fin s m e =>
    let q := gridExp 8 (-133) m e
    let k := roundQ .rne m e q
    if k == 0 then .fin s 0 0
    else if 128 ≤ (Nat.log2 k : Int) + q then .inf s
    else .fin s k q

end Sys2Proof.Machine
end

