-- ==== Sys2Proof/Machine/Formats.lean ====
section
/-!
DEFINITION. The 23 number formats of "Number formats": their table (R30, R47, R49, R167), the decoding of an element
of a tile image (R31 to R46, R467) and the conversion of FP32 values into elements and blocks (R50 to R57, R468).
A tile image is read through `rd`, the byte at an offset of the image, and `pz`, its poison mark.
-/
namespace Sys2Proof.Machine

/-- The three classes of R30. -/
inductive FmtClass where
  | float
  | integer
  | scaled
  deriving DecidableEq, Repr

/-- A format code of R30 that is assigned: 00h to 16h. -/
def fmtValid (f : Nat) : Bool := decide (f ≤ 0x16)

/-- The class of a format code (R30). -/
def fmtClass (f : Nat) : FmtClass :=
  if f ≤ 0x08 then .float else if f ≤ 0x0D then .integer else .scaled

/-- The dot width g of a format (R30); 0 for FP32, which no MMA takes. -/
def fmtG : Nat → Nat
  | 0x01 => 1
  | 0x02 => 2 | 0x03 => 2 | 0x16 => 2
  | 0x08 => 8 | 0x0A => 8 | 0x12 => 8 | 0x14 => 8
  | 0x0B => 16 | 0x0C => 16 | 0x15 => 16
  | 0x0D => 32
  | 0x00 => 0
  | _ => 4

/-- The stored bits of one element, the trit formats aside (R30, R32). -/
def eltBits : Nat → Nat
  | 0x00 => 32 | 0x01 => 32
  | 0x02 => 16 | 0x03 => 16 | 0x16 => 16
  | 0x06 => 6 | 0x07 => 6 | 0x10 => 6 | 0x11 => 6
  | 0x08 => 4 | 0x0A => 4 | 0x12 => 4 | 0x14 => 4
  | 0x0B => 2
  | 0x0D => 1
  | _ => 8

/-- The bytes of a tile image (R47). -/
def imageBytes : Nat → Nat
  | 0x00 => 16384 | 0x01 => 16384
  | 0x02 => 8192 | 0x03 => 8192
  | 0x06 => 3072 | 0x07 => 3072
  | 0x08 => 2048 | 0x0A => 2048
  | 0x0B => 1024
  | 0x0C => 832
  | 0x0D => 512
  | 0x0E => 4224 | 0x0F => 4224 | 0x13 => 4224
  | 0x10 => 3200 | 0x11 => 3200
  | 0x12 => 2176
  | 0x14 => 2560
  | 0x15 => 1152
  | 0x16 => 8256
  | _ => 4096

/-- The lines of a tile image. -/
def imageLines (f : Nat) : Nat := imageBytes f / 64

/-- The gradient width of R167. -/
def gradWidth : Nat → Nat
  | 0x00 => 32
  | 0x01 => 20
  | 0x02 => 16 | 0x03 => 16 | 0x16 => 16
  | 0x06 => 6 | 0x07 => 6 | 0x10 => 6 | 0x11 => 6
  | 0x08 => 4 | 0x0A => 4 | 0x12 => 4 | 0x14 => 4
  | 0x0B => 2 | 0x0C => 2 | 0x15 => 2
  | 0x0D => 1
  | _ => 8

/-- The MX formats, codes 0Eh to 13h (R41). -/
def fmtMx (f : Nat) : Bool := decide (0x0E ≤ f) && decide (f ≤ 0x13)

/-- The formats with stitch markers (R42, R43). -/
def fmtMarked (f : Nat) : Bool := f == 0x14 || f == 0x15

/-- The lane width on the Round (R101). -/
def laneBits : Nat → Nat
  | 0x0C => 2 | 0x15 => 2
  | f => eltBits f

/-- log2 of the largest beat depth of a format (R101). -/
def maxDepthLog (f : Nat) : Nat := Nat.log2 (fmtG f)

/-- The lead cycles of a tile's metadata on the Round (R102). -/
def metaLead (f : Nat) : Nat :=
  if fmtMx f then 2 else if f == 0x16 then 1 else if f == 0x14 then 7 else if f == 0x15 then 4 else 0

/-! ### Decoding -/

/-- Bits [off + w − 1 : off] of an image, for w up to 32. -/
def readBits (rd : Nat → Byte) (off w : Nat) : Nat :=
  let b := off / 8
  let n := (rd b).toNat + 2 ^ 8 * (rd (b + 1)).toNat + 2 ^ 16 * (rd (b + 2)).toNat + 2 ^ 24 * (rd (b + 3)).toNat
  (n >>> (off % 8)) % 2 ^ w

/-- Trit j of a TERN byte (R37), five zeros for 243 to 255 (R38). -/
def tritOf (b : Nat) (j : Nat) : Int := if 243 ≤ b then 0 else (b / 3 ^ j % 3 : Nat) - 1

/-- The integer value i as a real value; 0 is +0. -/
def intFV (i : Int) : FV := .fin (decide (i < 0)) i.natAbs 0

/-- The value of an E8M0 scale: 2^(v − 127), or NaN for FFh (R40). -/
def e8m0 (v : Nat) : FV := if v == 0xFF then .nan else .fin false 1 ((v : Int) - 127)

/-- The value of an element's bits, before any block scale (R32 to R41). -/
def eltValue (f n : Nat) : FV :=
  match f with
  | 0x00 => f32Of n
  | 0x01 => if bits n 30 23 == 0xFF && n % 2 ^ 23 != 0 then .nan else f32Of (n / 2 ^ 12 * 2 ^ 12)
  | 0x02 => f32Of (n * 2 ^ 16)
  | 0x03 | 0x16 =>
    if bits n 14 10 == 0x1F then (if n % 2 ^ 10 == 0 then .inf (bit n 15) else .nan) else decodeFinite 5 10 15 n
  | 0x04 | 0x0E => if n % 2 ^ 7 == 0x7F then .nan else decodeFinite 4 3 7 n
  | 0x05 | 0x0F =>
    if bits n 6 2 == 0x1F then (if n % 4 == 0 then .inf (bit n 7) else .nan) else decodeFinite 5 2 15 n
  | 0x06 | 0x10 => decodeFinite 3 2 3 n
  | 0x07 | 0x11 => decodeFinite 2 3 1 n
  | 0x08 | 0x12 | 0x14 => decodeFinite 2 1 1 n
  | 0x09 => intFV (sext 8 n)
  | 0x0A => intFV (sext 4 n)
  | 0x0B => intFV (sext 2 n)
  | 0x0D => if n == 0 then FV.one else .fin true 1 0
  | 0x13 =>
    match intFV (sext 8 n) with
    | .fin s m e => .fin s m (e - 6)
    | v => v
  | _ => .nan

/-- A value times 2^(v − 127); a scale of FFh makes it NaN (R41, R46). -/
def applyScale (v : Nat) (x : FV) : FV :=
  if v == 0xFF then .nan
  else match x with
    | .fin s m e => .fin s m (e + ((v : Int) - 127))
    | x => x

/-- The byte offset of the block that holds row i: a ZM4 row's block, or a ZMT row pair's (R47). -/
def blockOff (f i : Nat) : Nat := if f == 0x14 then 40 * i else 36 * (i / 2)

/-- The marker of a ZM4 or ZMT block at element index `x`, if one applies: marker 0 first (R42 to R45). -/
def markerAt (f : Nat) (rd : Nat → Byte) (b x : Nat) : Option FV :=
  let flags := (rd (b + (if f == 0x14 then 33 else 28))).toNat
  let p0 := b + (if f == 0x14 then 34 else 29)
  let w := if f == 0x14 then 64 else 128
  let pos (o : Nat) : Nat := (rd o).toNat % w
  let val (o : Nat) : FV := f32Of (((rd (o + 1)).toNat + 256 * (rd (o + 2)).toNat) * 2 ^ 16)
  if bit flags 0 && pos p0 == x then some (val p0)
  else if bit flags 1 && pos (p0 + 3) == x then some (val (p0 + 3))
  else none

/-- The stored code of element (i, j) of an image: its bits, or for a trit format the digit t + 1 (R31 to R37, R47). -/
def codeAt (f : Nat) (rd : Nat → Byte) (i j : Nat) : Nat :=
  match f with
  | 0x0C => (tritOf (rd (13 * i + j / 5)).toNat (j % 5) + 1).toNat
  | 0x14 => readBits rd (8 * (40 * i) + 4 * j) 4
  | 0x15 =>
    let x := i % 2 * 64 + j
    (tritOf (rd (36 * (i / 2) + x / 5)).toNat (x % 5) + 1).toNat
  | _ => readBits rd (eltBits f * (64 * i + j)) (eltBits f)

/-- The value of a trit digit; 3 is never sent and reads as zero (R101). -/
def digitInt (d : Nat) : Int := if d == 0 then -1 else if d == 2 then 1 else 0

/-- The decoded value of the element stored at (i, j) with a given code, its block's scale and markers read at their
places in the image (R31 to R47). -/
def decodeCode (f : Nat) (rd : Nat → Byte) (code i j : Nat) : FV :=
  match f with
  | 0x0C => intFV (digitInt code)
  | 0x14 =>
    let b := 40 * i
    let v := (rd (b + 32)).toNat
    if v == 0xFF then .nan
    else match markerAt f rd b j with
      | some m => m
      | none => applyScale v (eltValue f code)
  | 0x15 =>
    let b := 36 * (i / 2)
    let x := i % 2 * 64 + j
    let sc := f32Of (((rd (b + 26)).toNat + 256 * (rd (b + 27)).toNat) * 2 ^ 16)
    if sc.isNaN || sc.isInf then .nan
    else match markerAt f rd b x with
      | some m => m
      | none => if digitInt code == 0 then FV.zero else mulExact (intFV (digitInt code)) sc
  | _ =>
    let v := eltValue f code
    if fmtMx f then applyScale (rd (8 * eltBits f * 64 + 2 * i + j / 32)).toNat v
    else if f == 0x16 then applyScale (rd (8192 + i)).toNat v
    else v

/-- The decoded value of element (i, j) of a tile image. -/
def decodeAt (f : Nat) (rd : Nat → Byte) (i j : Nat) : FV := decodeCode f rd (codeAt f rd i j) i j

/-- Whether a poison mark covers a bit of element (i, j), of the scale its decoding uses, or of its block's FLAGS,
position or value bytes (R467). -/
def poisonAt (f : Nat) (pz : Nat → Bool) (i j : Nat) : Bool :=
  match f with
  | 0x0C => pz (13 * i + j / 5)
  | 0x14 => pz (40 * i + j / 2) || (List.range 8).any fun k => pz (40 * i + 32 + k)
  | 0x15 =>
    pz (36 * (i / 2) + (i % 2 * 64 + j) / 5) || (List.range 9).any fun k => pz (36 * (i / 2) + 26 + k)
  | _ =>
    let w := eltBits f
    let o := w * (64 * i + j)
    (List.range ((o + w - 1) / 8 - o / 8 + 1)).any (fun k => pz (o / 8 + k)) ||
      (if fmtMx f then pz (8 * w * 64 + 2 * i + j / 32) else if f == 0x16 then pz (8192 + i) else false)

/-- A decoded element with its poison mark (R75, R467). -/
structure PV where
  v : FV
  p : Bool
  deriving DecidableEq, Repr

/-- Element (i, j) of an image, its exact decoded value and its poison. -/
def elemAt (f : Nat) (rd : Nat → Byte) (pz : Nat → Bool) (i j : Nat) : PV :=
  ⟨decodeAt f rd i j, poisonAt f pz i j⟩

/-- Row i of an image. -/
def rowAt (f : Nat) (rd : Nat → Byte) (pz : Nat → Bool) (i : Nat) : List PV :=
  (List.range 64).map fun j => elemAt f rd pz i j

/-- The trit bytes of value 243 to 255 that a decode of row i reads, each once; a ZMT block counts with its even
row (R38). -/
def ternInvalidRow (f : Nat) (rd : Nat → Byte) (i : Nat) : Nat :=
  if f == 0x0C then ((List.range 13).filter fun k => decide (243 ≤ (rd (13 * i + k)).toNat)).length
  else if f == 0x15 && i % 2 == 0 then
    ((List.range 26).filter fun k => decide (243 ≤ (rd (36 * (i / 2) + k)).toNat)).length
  else 0

/-- 1 when the block decoded with row i has both markers valid at one position (R45). -/
def conflictRow (f : Nat) (rd : Nat → Byte) (i : Nat) : Nat :=
  if f == 0x14 || (f == 0x15 && i % 2 == 0) then
    let b := blockOff f i
    let flags := (rd (b + (if f == 0x14 then 33 else 28))).toNat
    let p := b + (if f == 0x14 then 34 else 29)
    let w := if f == 0x14 then 64 else 128
    if bit flags 0 && bit flags 1 && (rd p).toNat % w == (rd (p + 3)).toNat % w then 1 else 0
  else 0

/-- Stage 2 of R51: the value expressed in FP32. -/
def stage2 (x : FV) : FV := roundF32 x

/-! ### Conversion of one element (R52 to R54) -/

/-- The grid and the limits of a float element format (R32). -/
structure EltGrid where
  prec : Nat
  qmin : Int
  mb   : Nat
  bias : Int
  maxM : Nat
  maxE : Int
  deriving DecidableEq, Repr

/-- The grid of the float element of a format code, block formats included; MXINT8 has the integer grid of step
2^−6 with its magnitudes up to 127 (R41). -/
def eltGrid (f : Nat) : EltGrid :=
  match f with
  | 0x00 => ⟨24, -149, 23, 127, 2 ^ 24 - 1, 104⟩
  | 0x01 => ⟨12, -137, 11, 127, 2 ^ 12 - 1, 116⟩
  | 0x02 => ⟨8, -133, 7, 127, 2 ^ 8 - 1, 120⟩
  | 0x03 | 0x16 => ⟨11, -24, 10, 15, 2047, 5⟩
  | 0x04 | 0x0E => ⟨4, -9, 3, 7, 7, 6⟩
  | 0x05 | 0x0F => ⟨3, -16, 2, 15, 7, 13⟩
  | 0x06 | 0x10 => ⟨3, -4, 2, 3, 7, 2⟩
  | 0x07 | 0x11 => ⟨4, -3, 3, 1, 15, -1⟩
  | _ => ⟨2, -1, 1, 1, 3, 1⟩

/-- The result of a conversion: the element's bits, saturations counted, NaNs lost, NaN blocks. -/
structure Conv where
  code : Nat
  sat  : Nat
  lost : Nat
  deriving DecidableEq, Repr

/-- Magnitude a exceeds magnitude b. -/
def exceeds (m : Nat) (e : Int) (mm : Nat) (ee : Int) : Bool := FV.magLt mm ee m e

/-- A finite magnitude rounded on a float element's extended grid: the multiple and its step, or none when the value
is beyond Max under R52. -/
def roundElt (g : EltGrid) (mode : RMode) (m : Nat) (e : Int) : Option (Nat × Int) :=
  match mode with
  | .sr _ =>
    if exceeds m e g.maxM g.maxE then none
    else let q := gridExp g.prec g.qmin m e; some (roundQ mode m e q, q)
  | _ =>
    let q := gridExp g.prec g.qmin m e
    let k := roundQ mode m e q
    if exceeds k q g.maxM g.maxE then none else some (k, q)

/-- A finite value rounded to an integer and held to a range; none where it is beyond the limit of its sign (R52,
R53). -/
def roundInt (mode : RMode) (m : Nat) (e : Int) (limit : Nat) : Option Nat :=
  match mode with
  | .sr _ => if exceeds m e limit 0 then none else some (roundQ mode m e 0)
  | _ => let k := roundQ mode m e 0; if limit < k then none else some k

/-- Bits of a signed integer of `w` bits from sign and magnitude. -/
def intCode (w : Nat) (s : Bool) (k : Nat) : Nat := if s then (2 ^ w - k) % 2 ^ w else k

/-- Sign bit of a float element of `w` bits. -/
def signBit (w : Nat) (s : Bool) : Nat := if s then 2 ^ (w - 1) else 0

/-- The conversion of an FP32 value to an element format, codes 00h to 0Dh (R52). -/
def convElt (f : Nat) (mode : RMode) (x : FV) : Conv :=
  match f with
  | 0x00 => ⟨f32Bits x, 0, 0⟩
  | 0x01 | 0x02 | 0x03 =>
    let g := eltGrid f
    let w := if f == 0x01 then 20 else 16
    let up := if f == 0x01 then 2 ^ 12 else 1
    let inf := if f == 0x01 then 0x7F800 else if f == 0x02 then 0x7F80 else 0x7C00
    let nan := if f == 0x01 then 0x7FC00 else if f == 0x02 then 0x7FC0 else 0x7E00
    match x with
    | .nan => ⟨nan * up, 0, 0⟩
    | .inf s => ⟨(signBit w s + inf) * up, 0, 0⟩
    | .fin s 0 _ => ⟨signBit w s * up, 0, 0⟩
    | .fin s m e =>
      match roundElt g mode m e with
      | some (k, q) => ⟨(signBit w s + encodeFinite g.mb g.bias k q) * up, 0, 0⟩
      | none =>
        if mode == .rne then ⟨(signBit w s + inf) * up, 0, 0⟩
        else ⟨(signBit w s + encodeFinite g.mb g.bias g.maxM g.maxE) * up, 0, 0⟩
  | 0x04 | 0x05 | 0x06 | 0x07 | 0x08 =>
    let g := eltGrid f
    let w := eltBits f
    let mx := encodeFinite g.mb g.bias g.maxM g.maxE
    match x with
    | .nan => if f == 0x04 then ⟨0x7F, 0, 0⟩ else if f == 0x05 then ⟨0x7E, 0, 0⟩ else ⟨0, 0, 1⟩
    | .inf s => if f == 0x05 then ⟨signBit w s + 0x7C, 0, 0⟩ else ⟨signBit w s + mx, 1, 0⟩
    | .fin s 0 _ => ⟨signBit w s, 0, 0⟩
    | .fin s m e =>
      match roundElt g mode m e with
      | some (k, q) => ⟨signBit w s + encodeFinite g.mb g.bias k q, 0, 0⟩
      | none => ⟨signBit w s + mx, 1, 0⟩
  | 0x09 | 0x0A | 0x0B =>
    let w := eltBits f
    let lim (s : Bool) : Nat := if s then 2 ^ (w - 1) else 2 ^ (w - 1) - 1
    match x with
    | .nan => ⟨0, 0, 1⟩
    | .inf s => ⟨intCode w s (lim s), 1, 0⟩
    | .fin s m e =>
      match roundInt mode m e (lim s) with
      | some k => ⟨intCode w s k, 0, 0⟩
      | none => ⟨intCode w s (lim s), 1, 0⟩
  | 0x0C =>
    match x with
    | .nan => ⟨1, 0, 1⟩
    | .inf s => ⟨if s then 0 else 2, 0, 0⟩
    | .fin s m e =>
      match roundInt mode m e 1 with
      | some k => ⟨if k == 0 then 1 else if s then 0 else 2, 0, 0⟩
      | none => ⟨if s then 0 else 2, 0, 0⟩
  | _ =>
    match x with
    | .nan => ⟨0, 0, 1⟩
    | .inf s => ⟨if s then 1 else 0, 0, 0⟩
    | .fin s m _ => ⟨if s && m != 0 then 1 else 0, 0, 0⟩

/-! ### Encoding a block (R55 to R57) -/

/-- A rounding mode for each element of a block: RMODE of R50 with the draw of R54 where it is SR. -/
def modeFor (rmode : Nat) (draw : Nat → Nat) (i : Nat) : RMode :=
  if rmode == 0 then .rne else if rmode == 1 then .rtz else .sr (draw i)

/-- The result of encoding a block. -/
structure Block where
  codes : List Nat
  scale : Nat
  flags : Nat
  m0    : Nat × Nat
  m1    : Nat × Nat
  sat   : Nat
  nanBlock : Nat
  poison : Bool
  deriving DecidableEq, Repr

/-- x ranks before y among markers: NaNs, then infinities, then larger magnitudes (R56). -/
def ranksBefore : FV → FV → Bool
  | .nan, .nan => false
  | .nan, _ => true
  | _, .nan => false
  | .inf _, .inf _ => false
  | .inf _, _ => true
  | _, .inf _ => false
  | .fin _ m e, .fin _ n f => FV.magLt n f m e

/-- The index of the first-ranked element among those of a list that are not ±0 and not excluded; ties go to the
lower index (R56). -/
def topMarker (xs : List FV) (excl : List Nat) : Option Nat :=
  ((List.range xs.length).foldl (fun (best : Option Nat) i =>
    let x := xs.getD i FV.zero
    if x.isZero || excl.contains i then best
    else match best with
      | none => some i
      | some b => if ranksBefore x (xs.getD b FV.zero) then some i else best) none)

/-- choose_markers(x, m) of R56: the element indices in rank order. -/
def chooseMarkers (xs : List FV) (m : Nat) : List Nat :=
  match m with
  | 0 => []
  | _ =>
    match topMarker xs [] with
    | none => []
    | some a =>
      if m == 1 then [a]
      else match topMarker xs [a] with
        | none => [a]
        | some b => [a, b]

/-- A value as BF16 bits by RNE, NaN as 7FC0h (R56). -/
def bf16Bits (x : FV) : Nat := (convElt 0x02 .rne x).code

/-- The marker fields of a block: position and BF16 value, zero when unused (R44, R56). -/
def markerField (xs : List FV) (mark : List Nat) (k : Nat) : Nat × Nat :=
  match mark[k]? with
  | none => (0, 0)
  | some i => (i, bf16Bits (xs.getD i FV.zero))

/-- EMAX of R55. -/
def emax (f : Nat) : Int :=
  match f with
  | 0x0E => 8 | 0x0F => 15 | 0x10 => 4 | 0x11 => 2 | 0x12 => 2 | 0x14 => 2 | 0x13 => 0 | _ => 15

/-- The largest finite magnitude of the elements at `rest`, as mantissa and exponent. -/
def blockAmax (xs : List FV) (rest : List Nat) : Nat × Int :=
  rest.foldl (fun a i =>
    match xs.getD i FV.zero with
    | .fin _ m e => if FV.magLt a.1 a.2 m e then (m, e) else a
    | _ => a) (0, 0)

/-- One scaled element of R55: its bits and whether it saturated. -/
def convScaled (f : Nat) (mode : RMode) (scale : Nat) (x : FV) : Nat × Bool :=
  let q := match x with
    | .fin s m e => FV.fin s m (e - ((scale : Int) - 127))
    | x => x
  match f, q with
  | 0x13, .fin s m e =>
    let lim := if s then 128 else 127
    match roundInt mode m (e + 6) lim with
    | some k => (intCode 8 s k, false)
    | none => (intCode 8 s lim, true)
  | 0x13, .inf s => (intCode 8 s (if s then 128 else 127), true)
  | _, .fin s m e =>
    let w := eltBits f
    let g := eltGrid f
    if m == 0 then (signBit w s, false)
    else match roundElt g mode m e with
      | some (k, q) => (signBit w s + encodeFinite g.mb g.bias k q, false)
      | none => (signBit w s + encodeFinite g.mb g.bias g.maxM g.maxE, true)
  | _, .inf s =>
    let w := eltBits f
    let g := eltGrid f
    if f == 0x0F then (signBit w s + 0x7C, false)
    else if f == 0x16 then (signBit w s + 0x7C00, false)
    else (signBit w s + encodeFinite g.mb g.bias g.maxM g.maxE, true)
  | _, .nan => (0, false)

/-- Encode an MX, SF16 or ZM4 block from its FP32 inputs (R55, R468). -/
def encodeBlock (f rmode marks : Nat) (draw : Nat → Nat) (inp : List PV) : Block :=
  let xs := inp.map (·.v)
  let mark := if f == 0x14 then chooseMarkers xs marks else []
  let rest := (List.range xs.length).filter fun i => !mark.contains i
  let mf := (if 0 < mark.length then 1 else 0) + (if 1 < mark.length then 2 else 0)
  let poison := inp.any (·.p)
  if rest.any fun i => (xs.getD i FV.zero).isNaN then
    ⟨xs.map fun _ => 0, 0xFF, mf, markerField xs mark 0, markerField xs mark 1, 0, 1, poison⟩
  else
    let a := blockAmax xs rest
    let scale : Nat :=
      if a.1 == 0 then 0x7F
      else (max 0 (min 254 ((Nat.log2 a.1 : Int) + a.2 - emax f + 127))).toNat
    let cs := (List.range xs.length).map fun i =>
      if mark.contains i then (0, false) else convScaled f (modeFor rmode draw i) scale (xs.getD i FV.zero)
    let sat := (cs.filter (·.2)).length
    ⟨cs.map (·.1), scale, mf + (if 0 < sat then 4 else 0), markerField xs mark 0, markerField xs mark 1, sat, 0, poison⟩

/-- Encode a ZMT block from its 128 FP32 inputs (R57, R468); codes are digits t + 1. -/
def encodeZmt (rmode marks : Nat) (draw : Nat → Nat) (inp : List PV) : Block :=
  let xs := inp.map (·.v)
  let mark := chooseMarkers xs marks
  let rest := (List.range xs.length).filter fun i => !mark.contains i
  let mf := (if 0 < mark.length then 1 else 0) + (if 1 < mark.length then 2 else 0)
  let poison := inp.any (·.p)
  let isFin (x : FV) : Bool := !x.isNaN && !x.isInf
  if rest.any fun i => (xs.getD i FV.zero).isNaN then
    ⟨xs.map fun _ => 1, 0x7FC0, mf, markerField xs mark 0, markerField xs mark 1, 0, 1, poison⟩
  else
    let fs := rest.filter fun i => isFin (xs.getD i FV.zero)
    let sum := fs.foldl (fun a i => addFV a (xs.getD i FV.zero).abs) FV.zero
    let s : FV :=
      if fs.isEmpty || sum.isZero then FV.one
      else if sum.isInf then .fin false 255 120
      else
        let b := roundBf16 (roundF32 (divFV sum (intFV fs.length)))
        if b.isZero then .fin false 1 (-133) else b
    let cs := (List.range xs.length).map fun i =>
      if mark.contains i then (1, false)
      else match xs.getD i FV.zero with
        | .inf sg => ((if sg then 0 else 2), true)
        | x => ((convElt 0x0C (modeFor rmode draw i) (roundF32 (divFV x s))).code, false)
    let sat := (cs.filter (·.2)).length
    ⟨cs.map (·.1), bf16Bits s, mf + (if 0 < sat then 4 else 0), markerField xs mark 0, markerField xs mark 1, sat, 0,
      poison⟩

/-! ### Bytes of rows and blocks -/

/-- A byte of an image with its poison mark. -/
abbrev PByte := Byte × Bool

/-- The bytes of elements of `w` bits packed from the least significant end (R31); a byte is poisoned when an element
with a bit in it is. -/
def packElems (w : Nat) (es : List (Nat × Bool)) : List PByte :=
  let n := (List.range es.length).foldl (fun a i => a + (es.getD i (0, false)).1 * 2 ^ (w * i)) 0
  (List.range (es.length * w / 8)).map fun b =>
    (BitVec.ofNat 8 (n >>> (8 * b)),
      ((List.range es.length).any fun i =>
        decide (w * i / 8 ≤ b) && decide (b ≤ (w * i + w - 1) / 8) && (es.getD i (0, false)).2))

/-- The byte of up to five trit digits, padding written as the zero trit (R37, R44, R47). -/
def tritByte (ds : List Nat) : Nat :=
  (List.range 5).foldl (fun a j => a + ds.getD j 1 * 3 ^ j) 0

/-- The bytes of a run of trit digits, five to a byte. -/
def packTrits (es : List (Nat × Bool)) : List PByte :=
  (List.range (ceilDiv es.length 5)).map fun b =>
    let g := (es.drop (5 * b)).take 5
    (BitVec.ofNat 8 (tritByte (g.map (·.1))), g.any (·.2))

/-- The 40 bytes of a ZM4 block (R42). -/
def zm4Bytes (b : Block) : List PByte :=
  (packElems 4 (b.codes.map fun c => (c, b.poison))) ++
    ([b.scale, b.flags, b.m0.1, b.m0.2 % 256, b.m0.2 / 256, b.m1.1, b.m1.2 % 256, b.m1.2 / 256].map fun n =>
      (BitVec.ofNat 8 n, b.poison))

/-- The 36 bytes of a ZMT block (R43). -/
def zmtBytes (b : Block) : List PByte :=
  (packTrits (b.codes.map fun c => (c, b.poison))) ++
    ([b.scale % 256, b.scale / 256, b.flags, b.m0.1, b.m0.2 % 256, b.m0.2 / 256, b.m1.1, b.m1.2 % 256, b.m1.2 / 256,
      0].map fun n => (BitVec.ofNat 8 n, b.poison))

/-- What writing rows of a tile image amounts to: runs of bytes at image offsets, and the events counted. -/
structure RowOut where
  runs : List (Nat × List PByte)
  sat  : Nat
  lost : Nat
  nanBlock : Nat
  deriving DecidableEq, Repr

/-- The TERN digits of row i now in an image, for a write that covers part of a byte. -/
def oldDigits (rd : Nat → Byte) (i : Nat) : List Nat :=
  (List.range 64).map fun j => (tritOf (rd (13 * i + j / 5)).toNat (j % 5) + 1).toNat

/-- Convert row i from FP32 inputs into a tile image: columns c0 to c0 + n − 1 of it, n the inputs' number (R52, R55,
R141). A ZMT row pair is encoded with its even row from 128 inputs (R140). -/
def encodeRow (f rmode marks : Nat) (draw : Nat → Nat) (rd : Nat → Byte) (i c0 : Nat) (inp : List PV) : RowOut :=
  if f == 0x14 then
    let b := encodeBlock f rmode marks draw inp
    ⟨[(40 * i, zm4Bytes b)], b.sat, 0, b.nanBlock⟩
  else if f == 0x15 then
    let b := encodeZmt rmode marks draw inp
    ⟨[(36 * (i / 2), zmtBytes b)], b.sat, 0, b.nanBlock⟩
  else if f == 0x16 then
    let b := encodeBlock f rmode 0 draw inp
    ⟨[(128 * i, packElems 16 (b.codes.map fun c => (c, b.poison))), (8192 + i, [(BitVec.ofNat 8 b.scale, b.poison)])],
      b.sat, 0, b.nanBlock⟩
  else if fmtMx f then
    let w := eltBits f
    let bs := (List.range (inp.length / 32)).map fun k =>
      encodeBlock f rmode 0 (fun x => draw (32 * k + x)) ((inp.drop (32 * k)).take 32)
    let es := bs.flatMap fun b => b.codes.map fun c => (c, b.poison)
    ⟨(w * (64 * i + c0) / 8, packElems w es) ::
        ((List.range bs.length).map fun k =>
          let b := bs.getD k ⟨[], 0, 0, (0, 0), (0, 0), 0, 0, false⟩
          (8 * w * 64 + 2 * i + c0 / 32 + k, [(BitVec.ofNat 8 b.scale, b.poison)])),
      sumNat (bs.map (·.sat)), 0, sumNat (bs.map (·.nanBlock))⟩
  else
    let cs := (List.range inp.length).map fun k =>
      convElt f (modeFor rmode draw k) (inp.getD k ⟨FV.zero, false⟩).v
    let es := (List.range inp.length).map fun k =>
      ((cs.getD k ⟨0, 0, 0⟩).code, (inp.getD k ⟨FV.zero, false⟩).p)
    let run :=
      if f == 0x0C then
        let old := (oldDigits rd i).map fun d => (d, false)
        let row := old.take c0 ++ es ++ old.drop (c0 + es.length)
        let lo := c0 / 5
        let hi := (c0 + es.length - 1) / 5
        (13 * i + lo, ((packTrits row).drop lo).take (hi + 1 - lo))
      else (eltBits f * (64 * i + c0) / 8, packElems (eltBits f) es)
    ⟨[run], sumNat (cs.map (·.sat)), sumNat (cs.map (·.lost)), 0⟩

/-- Byte runs of the image that row i lies in, its scales included. -/
def rowRuns (f i : Nat) : List (Nat × Nat) :=
  if f == 0x0C then [(13 * i, 13)]
  else if f == 0x14 then [(40 * i, 40)]
  else if f == 0x15 then [(36 * (i / 2), 36)]
  else
    let w := eltBits f
    (8 * w * i, 8 * w) :: (if fmtMx f then [(8 * w * 64 + 2 * i, 2)] else if f == 0x16 then [(8192 + i, 1)] else [])

/-- The lines that byte runs of an image at a line touch. -/
def runLines (line : Nat) (rs : List (Nat × Nat)) : List Nat :=
  rs.flatMap fun r => (List.range ((r.1 + r.2 - 1) / 64 - r.1 / 64 + 1)).map fun k => line + r.1 / 64 + k

end Sys2Proof.Machine
end

