-- ==== Sys2Proof/Config.lean ====
section
/-!
DEFINITION. What one unit of the device fixes and what the manual leaves open: opaque constants, of which no proof can
know a value. A claim about them is a claim for every value.
-/
namespace Sys2Proof

/-- A value the manual leaves open, drawn fresh for each use: the state counts the draws. -/
opaque Config.freeValue : Nat → Nat

/-- The 16-bit CRC of a flit over its data and control lanes; the manual gives no polynomial (R234). -/
opaque Config.flitCrc (data ctrl : Nat) : BitVec 16

/-- SERIAL of the configuration blob, trailing zero bytes removed: the ASCII bytes of 0000h.05 (R401). -/
opaque Config.serial : List Byte

/-- The per-unit value of the parameter of key index × 256 + sub, where the tables say "per unit" and no rule computes it. -/
opaque Config.perUnit : Nat → Nat

/-- VDD_CMP in millivolts of entry n of the unit's voltage table 0320h.02 (R373). -/
opaque Config.avsTable : Nat → Nat

/-- The bytes of the device key chain: the public device key, its certificate chain and the like, by what is asked for
(R402, R404, R442). -/
opaque Config.unitBytes : Nat → List Byte

/-- ECDSA P-521 with SHA-512: does the signature verify the message under the public key (R398, R405)? -/
opaque Config.ecdsaVerify (pub msg sig : List Byte) : Bool

/-- Is the byte string an uncompressed point of P-521 (R405)? -/
opaque Config.ecPoint : List Byte → Bool

/-- ECDSA signature of the message under a named key of the unit, at a draw number (R404, R405, R437). -/
opaque Config.ecdsaSign (key draw : Nat) (msg : List Byte) : List Byte

/-- The public point of the ephemeral key of a draw number (R405). -/
opaque Config.ecPublic : Nat → List Byte

/-- The ECDH secret of the ephemeral key of a draw number and a peer's point (R405). -/
opaque Config.ecdh (draw : Nat) (peer : List Byte) : List Byte

/-- The bytes of a draw of the device's random generator. -/
opaque Config.random (draw n : Nat) : List Byte

/-- The bytes of the flash as the unit was made and provisioned, by flash address (R396). -/
opaque Config.flash : Nat → Nat

/-- The length of the TAP's instruction register, and the instruction that a code selects: 0 BYPASS, 1 SAMPLE/PRELOAD,
2 EXTEST, 3 IDCODE (R465). -/
opaque Config.irLength : Nat
opaque Config.irDecode : Nat → Nat

/-- Whether the flash can be read, and whether the ROM reconstructs the PUF secret (R400, R402). -/
opaque Config.flashReadable : Bool
opaque Config.pufOk : Bool

/-- Whether the key of a certificate chain's first certificate is the given public key (R441). -/
opaque Config.certFor (chain pub : List Byte) : Bool

end Sys2Proof
end

