-- ==== Sys2Proof/Machine/Hash.lean ====
section
/-!
DEFINITION. The bit-exact functions that the manual names by their standard or defines itself: the CRCs of R281,
Philox4x32-10 (R79, R337), SHA-512 and HMAC-SHA-512 (R220, R397, R405).
-/
namespace Sys2Proof.Machine

/-! ### CRCs of R281 -/

/-- Eight steps of the reflected CRC-32C register; 82F6_3B78h is 1EDC_6F41h reflected. -/
def crc32cStep : Nat → Nat → Nat
  | 0, c => c
  | n + 1, c => crc32cStep n (if c % 2 == 1 then c / 2 ^^^ 0x82F63B78 else c / 2)

/-- The CRC-32C register after a byte. -/
def crc32cByte (c : Nat) (b : Byte) : Nat := crc32cStep 8 (c ^^^ b.toNat)

/-- The running CRC-32C register over bytes, before the final XOR. -/
def crc32cRun (c : Nat) (l : List Byte) : Nat := l.foldl crc32cByte c

/-- The register at a reset. -/
def crc32cInit : Nat := 0xFFFFFFFF

/-- The finished CRC-32C. -/
def crc32c (l : List Byte) : Nat := crc32cRun crc32cInit l ^^^ 0xFFFFFFFF

/-- Eight steps of the CRC-64 register. -/
def crc64Step : Nat → Nat → Nat
  | 0, c => c
  | n + 1, c =>
    crc64Step n (if c.testBit 63 then (c * 2) % 2 ^ 64 ^^^ 0x42F0E1EBA9EA3693 else (c * 2) % 2 ^ 64)

/-- The CRC-64 register after a byte. -/
def crc64Byte (c : Nat) (b : Byte) : Nat := crc64Step 8 (c ^^^ (b.toNat * 2 ^ 56))

/-- The CRC-64 over bytes from a register; its initial value is 0 and it has no final XOR. -/
def crc64Run (c : Nat) (l : List Byte) : Nat := l.foldl crc64Byte c

/-! ### Philox4x32-10 -/

/-- The state of Philox: counter words c0 to c3. -/
structure Ctr where
  c0 : Nat
  c1 : Nat
  c2 : Nat
  c3 : Nat
  deriving DecidableEq, Repr

/-- One round with key words k0 and k1. -/
def philoxRound (k0 k1 : Nat) (c : Ctr) : Ctr :=
  let p0 := 0xD2511F53 * c.c0
  let p1 := 0xCD9E8D57 * c.c2
  ⟨(p1 / 2 ^ 32) ^^^ c.c1 ^^^ k0, p1 % 2 ^ 32, (p0 / 2 ^ 32) ^^^ c.c3 ^^^ k1, p0 % 2 ^ 32⟩

/-- Rounds with the key bumped between them. -/
def philoxGo : Nat → Nat → Nat → Ctr → Ctr
  | 0, _, _, c => c
  | n + 1, k0, k1, c => philoxGo n ((k0 + 0x9E3779B9) % 2 ^ 32) ((k1 + 0xBB67AE85) % 2 ^ 32) (philoxRound k0 k1 c)

/-- Philox4x32-10: the words x0 to x3. -/
def philox (k0 k1 : Nat) (c : Ctr) : Ctr := philoxGo 10 k0 k1 c

/-- Word i of the output. -/
def Ctr.word (c : Ctr) (i : Nat) : Nat :=
  match i with
  | 0 => c.c0
  | 1 => c.c1
  | 2 => c.c2
  | _ => c.c3

/-- The SR draw of element E (R79). -/
def srDraw (seed dev tensor strand step e : Nat) : Nat :=
  let k0 := seed % 2 ^ 32 ^^^ dev
  let k1 := seed / 2 ^ 32 % 2 ^ 32
  let c : Ctr := ⟨bits e 34 3, tensor % 2 ^ 20 * 2 ^ 12 + strand % 8 * 2 ^ 9, step % 2 ^ 32, bits step 47 32⟩
  let w := (philox k0 k1 c).word (e % 8 / 2)
  if e % 2 == 0 then w % 2 ^ 16 else w / 2 ^ 16

/-! ### SHA-512 (FIPS 180-4) -/

def shaK1 : List Nat :=
  [0x428A2F98D728AE22, 0x7137449123EF65CD, 0xB5C0FBCFEC4D3B2F, 0xE9B5DBA58189DBBC,
   0x3956C25BF348B538, 0x59F111F1B605D019, 0x923F82A4AF194F9B, 0xAB1C5ED5DA6D8118,
   0xD807AA98A3030242, 0x12835B0145706FBE, 0x243185BE4EE4B28C, 0x550C7DC3D5FFB4E2,
   0x72BE5D74F27B896F, 0x80DEB1FE3B1696B1, 0x9BDC06A725C71235, 0xC19BF174CF692694,
   0xE49B69C19EF14AD2, 0xEFBE4786384F25E3, 0x0FC19DC68B8CD5B5, 0x240CA1CC77AC9C65,
   0x2DE92C6F592B0275, 0x4A7484AA6EA6E483, 0x5CB0A9DCBD41FBD4, 0x76F988DA831153B5,
   0x983E5152EE66DFAB, 0xA831C66D2DB43210, 0xB00327C898FB213F, 0xBF597FC7BEEF0EE4,
   0xC6E00BF33DA88FC2, 0xD5A79147930AA725, 0x06CA6351E003826F, 0x142929670A0E6E70,
   0x27B70A8546D22FFC, 0x2E1B21385C26C926, 0x4D2C6DFC5AC42AED, 0x53380D139D95B3DF,
   0x650A73548BAF63DE, 0x766A0ABB3C77B2A8, 0x81C2C92E47EDAEE6, 0x92722C851482353B]

def shaK2 : List Nat :=
  [0xA2BFE8A14CF10364, 0xA81A664BBC423001, 0xC24B8B70D0F89791, 0xC76C51A30654BE30,
   0xD192E819D6EF5218, 0xD69906245565A910, 0xF40E35855771202A, 0x106AA07032BBD1B8,
   0x19A4C116B8D2D0C8, 0x1E376C085141AB53, 0x2748774CDF8EEB99, 0x34B0BCB5E19B48A8,
   0x391C0CB3C5C95A63, 0x4ED8AA4AE3418ACB, 0x5B9CCA4F7763E373, 0x682E6FF3D6B2B8A3,
   0x748F82EE5DEFB2FC, 0x78A5636F43172F60, 0x84C87814A1F0AB72, 0x8CC702081A6439EC,
   0x90BEFFFA23631E28, 0xA4506CEBDE82BDE9, 0xBEF9A3F7B2C67915, 0xC67178F2E372532B,
   0xCA273ECEEA26619C, 0xD186B8C721C0C207, 0xEADA7DD6CDE0EB1E, 0xF57D4F7FEE6ED178,
   0x06F067AA72176FBA, 0x0A637DC5A2C898A6, 0x113F9804BEF90DAE, 0x1B710B35131C471B,
   0x28DB77F523047D84, 0x32CAAB7B40C72493, 0x3C9EBE0A15C9BEBC, 0x431D67C49C100D4C,
   0x4CC5D4BECB3E42B6, 0x597F299CFC657E2A, 0x5FCB6FAB3AD6FAEC, 0x6C44198C4A475817]

def shaH0 : List Nat :=
  [0x6A09E667F3BCC908, 0xBB67AE8584CAA73B, 0x3C6EF372FE94F82B, 0xA54FF53A5F1D36F1,
   0x510E527FADE682D1, 0x9B05688C2B3E6C1F, 0x1F83D9ABFB41BD6B, 0x5BE0CD19137E2179]

def rotr64 (n x : Nat) : Nat := x / 2 ^ n + x % 2 ^ n * 2 ^ (64 - n)

/-- The message schedule, newest word first: `n` further words. -/
def shaExpand : Nat → List Nat → List Nat
  | 0, w => w
  | n + 1, w =>
    let w2 := w.getD 1 0
    let w15 := w.getD 14 0
    let s0 := rotr64 1 w15 ^^^ rotr64 8 w15 ^^^ (w15 / 2 ^ 7)
    let s1 := rotr64 19 w2 ^^^ rotr64 61 w2 ^^^ (w2 / 2 ^ 6)
    shaExpand n (((s1 + w.getD 6 0 + s0 + w.getD 15 0) % 2 ^ 64) :: w)

/-- The eight working words. -/
structure ShaW where
  a : Nat
  b : Nat
  c : Nat
  d : Nat
  e : Nat
  f : Nat
  g : Nat
  h : Nat
  deriving DecidableEq, Repr

/-- One round with round constant plus schedule word `kw`. -/
def shaRound (s : ShaW) (kw : Nat) : ShaW :=
  let s1 := rotr64 14 s.e ^^^ rotr64 18 s.e ^^^ rotr64 41 s.e
  let ch := (s.e &&& s.f) ^^^ ((2 ^ 64 - 1 - s.e) &&& s.g)
  let t1 := s.h + s1 + ch + kw
  let s0 := rotr64 28 s.a ^^^ rotr64 34 s.a ^^^ rotr64 39 s.a
  let mj := (s.a &&& s.b) ^^^ (s.a &&& s.c) ^^^ (s.b &&& s.c)
  ⟨(t1 + s0 + mj) % 2 ^ 64, s.a, s.b, s.c, (s.d + t1) % 2 ^ 64, s.e, s.f, s.g⟩

/-- The compression of one block of 16 words. -/
def shaBlock (h : ShaW) (ws : List Nat) : ShaW :=
  let w := (shaExpand 64 ws.reverse).reverse
  let r := ((shaK1 ++ shaK2).zip w).foldl (fun s p => shaRound s (p.1 + p.2)) h
  let m := 2 ^ 64
  ⟨(h.a + r.a) % m, (h.b + r.b) % m, (h.c + r.c) % m, (h.d + r.d) % m,
    (h.e + r.e) % m, (h.f + r.f) % m, (h.g + r.g) % m, (h.h + r.h) % m⟩

/-- Groups of `k` entries. -/
def chunksOf {α : Type} (k : Nat) : Nat → List α → List (List α)
  | 0, _ => []
  | n + 1, l => l.take k :: chunksOf k n (l.drop k)

/-- The padded message. -/
def shaPad (m : List Byte) : List Byte :=
  let n := m.length
  let z := (239 - n % 128) % 128
  m ++ [0x80#8] ++ List.replicate z 0#8 ++ beBytes 16 (8 * n)

/-- SHA-512 of a byte string: 64 bytes. -/
def sha512 (m : List Byte) : List Byte :=
  let p := shaPad m
  let h0 : ShaW := ⟨shaH0.getD 0 0, shaH0.getD 1 0, shaH0.getD 2 0, shaH0.getD 3 0,
    shaH0.getD 4 0, shaH0.getD 5 0, shaH0.getD 6 0, shaH0.getD 7 0⟩
  let r := (chunksOf 128 (p.length / 128) p).foldl
    (fun h b => shaBlock h ((chunksOf 8 16 b).map beNat)) h0
  [r.a, r.b, r.c, r.d, r.e, r.f, r.g, r.h].flatMap (beBytes 8)

/-- HMAC-SHA-512. -/
def hmac512 (key m : List Byte) : List Byte :=
  let k0 := if 128 < key.length then sha512 key else key
  let k := k0 ++ List.replicate (128 - k0.length) 0#8
  sha512 ((k.map (· ^^^ 0x5C#8)) ++ sha512 ((k.map (· ^^^ 0x36#8)) ++ m))

/-- HKDF-SHA-512 (extract and expand), `n` blocks of 64 bytes. -/
def hkdfExpand (prk info : List Byte) : Nat → Nat → List Byte → List Byte
  | 0, _, _ => []
  | n + 1, i, t =>
    let t' := hmac512 prk (t ++ info ++ [BitVec.ofNat 8 i])
    t' ++ hkdfExpand prk info n (i + 1) t'

/-- HKDF with SHA-512: `n` bytes. -/
def hkdf (salt ikm info : List Byte) (n : Nat) : List Byte :=
  (hkdfExpand (hmac512 salt ikm) info (ceilDiv n 64) 1 []).take n

/-- The ASCII bytes of a text. -/
def ascii (s : String) : List Byte := s.toList.map fun c => BitVec.ofNat 8 c.toNat

end Sys2Proof.Machine
end

