-- ==== Sys2Proof/Machine/Params.lean ====
section
/-!
DEFINITION. The parameter dictionary as data: the tables of the parameters (R82, R230 to R232, R258, R282, R309, R338,
R357, R379, R393, R409, R429 to R432, R445, R459) with type, access, wire size and default. A parameter's key is
index × 256 + sub. Values are numbers; a BLOB or STR is the number whose bytes, least significant first, are its bytes.
-/
namespace Sys2Proof.Machine

/-- The value types (R411). -/
inductive PType where
  | bool | u8 | u16 | u32 | u64 | i32 | i64 | f32 | enum | bitset | str | blob | time | key | cmd
  deriving DecidableEq, Repr

/-- The type codes on the wire (R411). -/
def PType.code : PType → Nat
  | .bool => 1 | .u8 => 2 | .u16 => 3 | .u32 => 4 | .u64 => 5 | .i32 => 6 | .i64 => 7 | .f32 => 8 | .enum => 9
  | .bitset => 10 | .str => 11 | .blob => 12 | .time => 13 | .key => 14 | .cmd => 15

/-- The access codes (R412). -/
inductive PAccess where
  | ro | rw | wo | rws | cmd | sealed
  deriving DecidableEq, Repr

/-- One row of a parameter table: it covers indices `lo` to `hi` and subs `s0` to `s1`. `len` is the fixed wire size in
bytes, 0 where the size varies. -/
structure PRow where
  lo : Nat
  hi : Nat
  s0 : Nat
  s1 : Nat
  ty : PType
  acc : PAccess
  len : Nat
  dflt : Nat
  deriving DecidableEq, Repr

/-- The parameters of indices 0000h to 00FFh. -/
def rows00 : List PRow := [
  ⟨0x0000, 0x0000, 0, 0, .u8, .ro, 1, 7⟩,  -- identity.highest
  ⟨0x0000, 0x0000, 1, 1, .u16, .ro, 2, 0x5a46⟩,  -- identity.vendor
  ⟨0x0000, 0x0000, 2, 2, .u16, .ro, 2, 2176⟩,  -- identity.device
  ⟨0x0000, 0x0000, 3, 3, .enum, .ro, 1, 1⟩,  -- identity.stepping
  ⟨0x0000, 0x0000, 4, 4, .enum, .ro, 1, 0⟩,  -- identity.grade
  ⟨0x0000, 0x0000, 5, 5, .str, .ro, 0, 0⟩,  -- identity.serial
  ⟨0x0000, 0x0000, 6, 6, .u32, .ro, 4, 0⟩,  -- identity.fw_svn
  ⟨0x0000, 0x0000, 7, 7, .u8, .ro, 1, 0⟩,  -- identity.rom_version
  ⟨0x0001, 0x0001, 0, 0, .u8, .ro, 1, 1⟩,  -- version.count
  ⟨0x0001, 0x0001, 1, 1, .u16, .ro, 2, 256⟩,  -- version.supported
  ⟨0x0002, 0x0002, 0, 0, .u16, .rw, 2, 256⟩,  -- version.selected
  ⟨0x0003, 0x0003, 0, 0, .u8, .ro, 1, 1⟩,  -- spp.versions_count
  ⟨0x0003, 0x0003, 1, 1, .u8, .ro, 1, 1⟩  -- spp.version
]

/-- The parameters of indices 0100h to 01FFh. -/
def rows01 : List PRow := [
  ⟨0x0100, 0x0100, 1, 1, .u16, .rws, 2, 4880⟩,  -- spp.udp_port
  ⟨0x0100, 0x0100, 2, 2, .u8, .ro, 1, 8⟩,  -- spp.max_sessions
  ⟨0x0100, 0x0100, 3, 3, .u8, .ro, 1, 0⟩,  -- spp.open_sessions
  ⟨0x0100, 0x0100, 4, 4, .u16, .rw, 2, 30⟩,  -- spp.idle_timeout_s
  ⟨0x0100, 0x0100, 5, 5, .u16, .rw, 2, 8192⟩,  -- spp.max_body
  ⟨0x0100, 0x0100, 6, 6, .u64, .ro, 8, 0⟩,  -- spp.opens
  ⟨0x0100, 0x0100, 7, 7, .u64, .ro, 8, 0⟩,  -- spp.opens_refused
  ⟨0x0101, 0x0101, 1, 8, .blob, .ro, 32, 0⟩,  -- session.info
  ⟨0x0102, 0x0102, 1, 1, .cmd, .cmd, 8, 0⟩,  -- session.close
  ⟨0x0102, 0x0102, 2, 2, .u16, .ro, 2, 0⟩,  -- session.own
  ⟨0x0103, 0x0103, 1, 1, .u16, .ro, 2, 0⟩,  -- sub.count
  ⟨0x0103, 0x0103, 2, 2, .u16, .ro, 2, 256⟩,  -- sub.max
  ⟨0x0103, 0x0103, 3, 3, .u8, .ro, 1, 64⟩  -- sub.per_session
]

/-- The parameters of indices 0200h to 02FFh. -/
def rows02 : List PRow := [
  ⟨0x0200, 0x0200, 0, 0, .u64, .ro, 8, 0⟩,  -- config.identity
  ⟨0x0201, 0x0201, 0, 0, .bitset, .ro, 8, 0⟩,  -- config.fence_map
  ⟨0x0202, 0x0202, 0, 0, .bitset, .ro, 8, 0⟩,  -- config.factory_fence
  ⟨0x0203, 0x0203, 0, 0, .u8, .ro, 1, 32⟩,  -- config.ramp
  ⟨0x0204, 0x0204, 0, 0, .u16, .ro, 2, 0⟩,  -- config.round_circuit
  ⟨0x0205, 0x0205, 0, 0, .u64, .ro, 8, 0⟩,  -- config.legacy_identity
  ⟨0x0206, 0x0206, 0, 0, .bool, .ro, 1, 0⟩  -- config.legacy_support
]

/-- The parameters of indices 0300h to 03FFh. -/
def rows03 : List PRow := [
  ⟨0x0300, 0x0300, 1, 1, .u16, .ro, 2, 1800⟩,  -- clk.nominal_mhz
  ⟨0x0300, 0x0300, 2, 2, .u16, .ro, 2, 900⟩,  -- clk.min_mhz
  ⟨0x0300, 0x0300, 3, 3, .u16, .ro, 2, 2000⟩,  -- clk.max_mhz
  ⟨0x0300, 0x0300, 4, 4, .u16, .ro, 2, 25⟩,  -- clk.step_mhz
  ⟨0x0310, 0x0310, 1, 1, .u16, .rw, 2, 1800⟩,  -- clk.target_mhz
  ⟨0x0311, 0x0311, 1, 1, .u16, .ro, 2, 1800⟩,  -- clk.announced
  ⟨0x0311, 0x0311, 2, 2, .u64, .ro, 8, 0⟩,  -- clk.switch_ctc
  ⟨0x0311, 0x0311, 3, 3, .u16, .ro, 2, 1800⟩,  -- clk.now_mhz
  ⟨0x0311, 0x0311, 4, 4, .u32, .ro, 4, 0⟩,  -- clk.switches
  ⟨0x0311, 0x0311, 5, 5, .enum, .ro, 1, 1⟩,  -- clk.limit_reason
  ⟨0x0312, 0x0312, 1, 1, .u16, .rw, 2, 1600⟩,  -- clk.mesh_mhz
  ⟨0x0312, 0x0312, 2, 2, .u16, .rw, 2, 1600⟩,  -- clk.hbm_mhz
  ⟨0x0312, 0x0312, 3, 3, .u16, .rw, 2, 1500⟩,  -- clk.iod_mhz
  ⟨0x0313, 0x0313, 1, 16, .u64, .ro, 8, 0⟩,  -- clk.zone_stretches
  ⟨0x0314, 0x0314, 1, 1, .u64, .ro, 8, 0⟩,  -- clk.stretch_25
  ⟨0x0314, 0x0314, 2, 2, .u64, .ro, 8, 0⟩,  -- clk.stretch_50
  ⟨0x0314, 0x0314, 3, 3, .u64, .ro, 8, 0⟩,  -- clk.stretch_100
  ⟨0x0314, 0x0314, 4, 4, .u64, .ro, 8, 0⟩,  -- clk.recentres
  ⟨0x0320, 0x0320, 1, 1, .u16, .ro, 2, 0⟩,  -- avs.cmp_mv
  ⟨0x0320, 0x0320, 2, 2, .blob, .ro, 90, 0⟩,  -- avs.table
  ⟨0x0320, 0x0320, 3, 3, .u16, .rw, 2, 64⟩,  -- avs.stretch_rate
  ⟨0x0320, 0x0320, 4, 4, .u8, .ro, 1, 0⟩,  -- avs.margin_mv
  ⟨0x0320, 0x0320, 5, 5, .u32, .ro, 4, 0⟩,  -- avs.timeouts
  ⟨0x0330, 0x0330, 1, 1, .u16, .rw, 2, 1600⟩,  -- pwr.limit_w
  ⟨0x0330, 0x0330, 2, 2, .u16, .rw, 2, 10⟩,  -- pwr.window_ms
  ⟨0x0330, 0x0330, 3, 3, .u16, .ro, 2, 0⟩,  -- pwr.package_w
  ⟨0x0330, 0x0330, 4, 4, .u16, .rw, 2, 1900⟩,  -- pwr.cmp_limit_a
  ⟨0x0330, 0x0330, 5, 5, .blob, .ro, 36, 0⟩,  -- pwr.rails
  ⟨0x0340, 0x0340, 1, 1, .u8, .rw, 1, 95⟩,  -- therm.alert_c
  ⟨0x0340, 0x0340, 2, 2, .u8, .rw, 1, 100⟩,  -- therm.throttle_c
  ⟨0x0340, 0x0340, 3, 3, .u8, .ro, 1, 110⟩,  -- therm.trip_c
  ⟨0x0340, 0x0340, 4, 4, .i32, .ro, 4, 0⟩,  -- therm.max
  ⟨0x0340, 0x0340, 5, 5, .blob, .ro, 66, 0⟩,  -- therm.sensors
  ⟨0x0340, 0x0340, 6, 6, .u64, .ro, 8, 0⟩  -- therm.throttle_us
]

/-- The parameters of indices 0400h to 04FFh. -/
def rows04 : List PRow := [
  ⟨0x0400, 0x0400, 1, 1, .bitset, .ro, 8, 0⟩,  -- ready.summary
  ⟨0x0400, 0x0400, 2, 2, .bitset, .ro, 8, 0⟩,  -- ready.failed
  ⟨0x0400, 0x0400, 3, 3, .enum, .ro, 1, 1⟩,  -- start.kind
  ⟨0x0400, 0x0400, 4, 4, .enum, .ro, 1, 1⟩,  -- start.cause
  ⟨0x0400, 0x0400, 5, 5, .u32, .ro, 4, 1⟩,  -- start.count
  ⟨0x0401, 0x0401, 1, 40, .u32, .ro, 4, 0xffffffff⟩,  -- ready.time_ms
  ⟨0x0402, 0x0402, 0, 0, .cmd, .cmd, 8, 0⟩,  -- start.warm
  ⟨0x0410, 0x0410, 1, 1, .enum, .ro, 1, 0⟩,  -- test.result
  ⟨0x0410, 0x0410, 2, 2, .bitset, .ro, 8, 0⟩,  -- test.field_fence
  ⟨0x0410, 0x0410, 3, 3, .blob, .ro, 60, 0⟩,  -- test.core_cause
  ⟨0x0410, 0x0410, 4, 4, .blob, .ro, 32, 0⟩,  -- test.hbm_repairs
  ⟨0x0410, 0x0410, 5, 5, .u32, .ro, 4, 0⟩,  -- test.sram_repairs
  ⟨0x0410, 0x0410, 6, 6, .blob, .ro, 9, 0⟩,  -- test.lanes_failed
  ⟨0x0410, 0x0410, 7, 7, .u32, .ro, 4, 0⟩,  -- test.duration_ms
  ⟨0x0410, 0x0410, 8, 8, .cmd, .cmd, 8, 0⟩  -- test.ack
]

/-- The parameters of indices 0500h to 05FFh. -/
def rows05 : List PRow := [
  ⟨0x0500, 0x0500, 1, 3, .enum, .ro, 1, 0⟩,  -- boot.bank
  ⟨0x0500, 0x0500, 4, 4, .enum, .ro, 1, 0⟩,  -- boot.fail
  ⟨0x0500, 0x0500, 5, 5, .bitset, .ro, 8, 0⟩,  -- boot.bank_a_rejected
  ⟨0x0501, 0x0501, 1, 3, .u32, .ro, 4, 0⟩,  -- svn.counter
  ⟨0x0501, 0x0501, 4, 4, .u8, .ro, 1, 0⟩,  -- svn.revoked
  ⟨0x0502, 0x0502, 1, 3, .blob, .ro, 64, 0⟩,  -- meas.stage
  ⟨0x0503, 0x0503, 1, 1, .blob, .ro, 133, 0⟩,  -- id.public_key
  ⟨0x0503, 0x0503, 2, 2, .blob, .ro, 0, 0⟩,  -- id.certificate
  ⟨0x0504, 0x0504, 1, 1, .u64, .ro, 8, 0⟩,  -- spp.rejected
  ⟨0x0510, 0x0510, 1, 1, .blob, .rw, 64, 0⟩,  -- attest.nonce
  ⟨0x0510, 0x0510, 2, 2, .cmd, .cmd, 8, 0⟩,  -- attest.generate
  ⟨0x0510, 0x0510, 3, 3, .blob, .ro, 1024, 0⟩,  -- attest.report
  ⟨0x0510, 0x0510, 4, 4, .bool, .ro, 1, 0⟩,  -- attest.busy
  ⟨0x0520, 0x0520, 1, 4, .blob, .rws, 133, 0⟩,  -- hostkey.slot
  ⟨0x0530, 0x0530, 1, 1, .enum, .rw, 1, 0⟩,  -- macsec.mode
  ⟨0x0530, 0x0530, 2, 2, .enum, .rw, 1, 0⟩,  -- macsec.cipher
  ⟨0x0530, 0x0530, 3, 4, .blob, .rw, 8, 0⟩,  -- macsec.sci
  ⟨0x0530, 0x0530, 5, 6, .key, .wo, 0, 0⟩,  -- macsec.sak
  ⟨0x0530, 0x0530, 7, 7, .u8, .rw, 1, 0⟩,  -- macsec.tx_an
  ⟨0x0530, 0x0530, 8, 8, .u64, .ro, 8, 0⟩,  -- macsec.tx_pn
  ⟨0x0530, 0x0530, 10, 10, .bool, .ro, 1, 0⟩,  -- macsec.pn_low
  ⟨0x0530, 0x0530, 11, 11, .u64, .ro, 8, 0⟩,  -- macsec.dropped
  ⟨0x0540, 0x0540, 1, 1, .enum, .rw, 1, 0⟩,  -- update.bank
  ⟨0x0540, 0x0540, 2, 2, .blob, .wo, 0, 0⟩,  -- update.data
  ⟨0x0540, 0x0540, 3, 3, .cmd, .cmd, 8, 0⟩,  -- update.verify
  ⟨0x0540, 0x0540, 4, 4, .enum, .ro, 1, 0⟩  -- update.result
]

/-- The parameters of indices 0600h to 06FFh. -/
def rows06 : List PRow := [
  ⟨0x0600, 0x0607, 1, 1, .u64, .rw, 8, 0⟩,  -- domain.image
  ⟨0x0600, 0x0607, 2, 2, .bitset, .rw, 8, 0⟩,  -- domain.core_set
  ⟨0x0600, 0x0607, 3, 3, .cmd, .cmd, 8, 0⟩,  -- domain.start
  ⟨0x0600, 0x0607, 4, 4, .enum, .ro, 1, 0⟩,  -- domain.state
  ⟨0x0600, 0x0607, 5, 5, .u64, .ro, 8, 0⟩,  -- domain.dcc
  ⟨0x0600, 0x0607, 6, 6, .bool, .rw, 1, 0⟩,  -- domain.legacy_lat
  ⟨0x0600, 0x0607, 7, 7, .u16, .rw, 2, 0⟩,  -- domain.stream_base
  ⟨0x0600, 0x0607, 8, 8, .u16, .rw, 2, 0⟩,  -- domain.stream_count
  ⟨0x0600, 0x0607, 9, 9, .u16, .rw, 2, 0⟩,  -- domain.dma_base
  ⟨0x0600, 0x0607, 10, 10, .u16, .rw, 2, 0⟩,  -- domain.dma_count
  ⟨0x0600, 0x0607, 11, 11, .u8, .rw, 1, 0⟩,  -- domain.tree_base
  ⟨0x0600, 0x0607, 12, 12, .u8, .rw, 1, 0⟩,  -- domain.tree_count
  ⟨0x0600, 0x0607, 13, 13, .u64, .rw, 8, 0⟩,  -- domain.vbase
  ⟨0x0600, 0x0607, 14, 14, .u64, .ro, 8, 0⟩,  -- domain.start_ctc
  ⟨0x0600, 0x0607, 15, 15, .u64, .ro, 8, 0⟩,  -- domain.stall_ticks
  ⟨0x0600, 0x0607, 16, 16, .u32, .ro, 4, 0⟩,  -- domain.stalls
  ⟨0x0600, 0x0607, 17, 17, .u16, .ro, 2, 0xffff⟩,  -- domain.fault_seq
  ⟨0x0620, 0x0620, 0, 0, .u32, .rw, 4, 100⟩,  -- stall.limit
  ⟨0x0621, 0x0621, 0, 0, .u8, .ro, 1, 64⟩,  -- stall.horizon
  ⟨0x0622, 0x0622, 0, 0, .u64, .ro, 8, 0⟩,  -- ctc.value
  ⟨0x0640, 0x0647, 1, 64, .u64, .rw, 8, 0⟩  -- domain.patch
]

/-- The parameters of indices 0700h to 07FFh. -/
def rows07 : List PRow := [
  ⟨0x0700, 0x0700, 1, 1, .u16, .ro, 2, 4096⟩,  -- op.tags
  ⟨0x0700, 0x0700, 2, 2, .u16, .ro, 2, 0⟩,  -- op.pool_free
  ⟨0x0701, 0x0701, 1, 64, .u8, .rw, 1, 0⟩,  -- op.quota
  ⟨0x0702, 0x0702, 1, 1, .u16, .ro, 2, 0⟩,  -- stream.active
  ⟨0x0702, 0x0702, 2, 2, .u64, .ro, 8, 0⟩,  -- stream.late
  ⟨0x0702, 0x0702, 3, 3, .u16, .ro, 2, 1⟩,  -- stream.wait_limit
  ⟨0x0710, 0x0710, 1, 1, .u8, .ro, 1, 0⟩,  -- halt.outstanding
  ⟨0x0710, 0x0710, 2, 2, .u8, .rw, 1, 0⟩,  -- halt.select
  ⟨0x0710, 0x0710, 3, 3, .blob, .ro, 32, 0⟩,  -- halt.record
  ⟨0x0710, 0x0710, 4, 4, .cmd, .cmd, 8, 0⟩,  -- halt.resume
  ⟨0x0710, 0x0710, 5, 5, .u64, .ro, 8, 0⟩,  -- halt.total
  ⟨0x0720, 0x0720, 1, 1, .u16, .rw, 2, 0⟩,  -- stream.select
  ⟨0x0720, 0x0720, 2, 2, .blob, .ro, 64, 0⟩,  -- stream.descriptor
  ⟨0x0720, 0x0720, 3, 3, .enum, .ro, 1, 0⟩,  -- stream.state
  ⟨0x0720, 0x0720, 4, 4, .u32, .ro, 4, 0⟩,  -- stream.moved
  ⟨0x0720, 0x0720, 5, 5, .u32, .ro, 4, 0⟩,  -- stream.consumer
  ⟨0x0730, 0x0730, 1, 1, .u8, .rw, 1, 0⟩,  -- dma.select
  ⟨0x0730, 0x0730, 2, 2, .enum, .rw, 1, 0⟩,  -- dma.trigger
  ⟨0x0730, 0x0730, 3, 3, .u8, .rw, 1, 0⟩,  -- dma.trigger_ch
  ⟨0x0730, 0x0730, 4, 4, .u64, .rw, 8, 0⟩,  -- dma.trigger_time
  ⟨0x0730, 0x0730, 5, 5, .cmd, .cmd, 8, 0⟩,  -- dma.start
  ⟨0x0730, 0x0730, 6, 6, .enum, .ro, 1, 0⟩,  -- dma.state
  ⟨0x0730, 0x0730, 7, 7, .u16, .ro, 2, 0⟩,  -- dma.pc
  ⟨0x0730, 0x0730, 8, 8, .u32, .ro, 4, 0xffffffff⟩,  -- dma.crc32c
  ⟨0x0730, 0x0730, 9, 9, .u64, .ro, 8, 0⟩,  -- dma.crc64
  ⟨0x0730, 0x0730, 10, 10, .u64, .ro, 8, 0⟩,  -- dma.bytes
  ⟨0x0730, 0x0730, 11, 11, .u8, .ro, 1, 0⟩,  -- dma.pending
  ⟨0x0730, 0x0730, 12, 12, .u32, .ro, 4, 0⟩  -- dma.timer_late
]

/-- The parameters of indices 0800h to 08FFh. -/
def rows08 : List PRow := [
  ⟨0x0800, 0x0800, 1, 1, .u64, .ro, 8, 0x8000000000⟩,  -- mem.hbm_raw
  ⟨0x0800, 0x0800, 2, 2, .u64, .ro, 8, 0x7800000000⟩,  -- mem.hbm_usable
  ⟨0x0800, 0x0800, 3, 3, .u32, .ro, 4, 0x200000⟩,  -- mem.page_size
  ⟨0x0803, 0x0803, 1, 8, .u8, .rw, 1, 32⟩,  -- mem.page_buffer
  ⟨0x0805, 0x0805, 0, 0, .u16, .rw, 2, 24⟩,  -- mem.scrub_hours
  ⟨0x0806, 0x0806, 1, 1, .u64, .ro, 8, 0⟩,  -- mem.narrow_reads
  ⟨0x0806, 0x0806, 2, 2, .u64, .ro, 8, 0⟩,  -- mem.narrow_writes
  ⟨0x0806, 0x0806, 3, 3, .u64, .ro, 8, 0⟩,  -- mem.cache_hits
  ⟨0x0810, 0x0810, 1, 8, .u64, .rw, 8, 0⟩,  -- mem.pt_root
  ⟨0x0812, 0x0812, 0, 0, .cmd, .cmd, 8, 0⟩,  -- mem.pt_flush
  ⟨0x0813, 0x0813, 0, 0, .u64, .ro, 8, 0⟩,  -- mem.walks
  ⟨0x0820, 0x0828, 1, 1, .u16, .rw, 2, 0⟩,  -- reg.rate
  ⟨0x0820, 0x0828, 2, 2, .u32, .rw, 4, 0x10000⟩,  -- reg.depth
  ⟨0x0820, 0x0828, 3, 3, .bool, .rw, 1, 1⟩,  -- reg.borrow
  ⟨0x0820, 0x0828, 4, 4, .u64, .ro, 8, 0⟩,  -- reg.charged
  ⟨0x0820, 0x0828, 5, 5, .u64, .ro, 8, 0⟩,  -- reg.borrowed
  ⟨0x0820, 0x0828, 6, 6, .u64, .ro, 8, 0⟩,  -- reg.waited
  ⟨0x0830, 0x0837, 1, 1, .i32, .ro, 4, 0⟩,  -- hbm.temp
  ⟨0x0830, 0x0837, 2, 2, .enum, .ro, 1, 0⟩,  -- hbm.throttle
  ⟨0x0830, 0x0837, 3, 3, .u64, .ro, 8, 0⟩,  -- hbm.throttle_us
  ⟨0x0830, 0x0837, 4, 4, .u64, .ro, 8, 0⟩,  -- hbm.corrected
  ⟨0x0830, 0x0837, 5, 5, .u64, .ro, 8, 0⟩,  -- hbm.uncorrectable
  ⟨0x0830, 0x0837, 6, 6, .enum, .ro, 1, 0⟩,  -- hbm.refresh_rate
  ⟨0x0838, 0x0838, 1, 3, .u8, .rw, 1, 0⟩,  -- hbm.throttle_temp
  ⟨0x0850, 0x0850, 1, 8, .u64, .rw, 8, 0⟩,  -- mem.stash_base
  ⟨0x0851, 0x0851, 1, 8, .u64, .rw, 8, 0⟩,  -- mem.stash_size
  ⟨0x0852, 0x0852, 1, 8, .u32, .ro, 4, 0⟩,  -- mem.stash_entries
  ⟨0x0853, 0x0853, 1, 8, .u8, .rw, 1, 255⟩  -- mem.stash_domain
]

/-- The parameters of indices 0900h to 09FFh. -/
def rows09 : List PRow := [
  ⟨0x0900, 0x0900, 1, 1, .bitset, .ro, 8, 0⟩,  -- mesh.router_failed
  ⟨0x0900, 0x0900, 2, 2, .bitset, .ro, 8, 0⟩,  -- mesh.sync_failed
  ⟨0x0901, 0x0901, 1, 64, .blob, .ro, 64, 0⟩,  -- mesh.detour
  ⟨0x0902, 0x0902, 1, 1, .u64, .ro, 8, 0⟩,  -- mesh.flit_retries
  ⟨0x0902, 0x0902, 2, 2, .blob, .ro, 32, 0⟩,  -- mesh.dead_links
  ⟨0x0902, 0x0902, 3, 3, .u64, .ro, 8, 0⟩,  -- mesh.discarded
  ⟨0x0902, 0x0902, 4, 4, .u64, .ro, 8, 0⟩,  -- mesh.fork_waits
  ⟨0x0910, 0x091F, 1, 1, .u8, .rw, 1, 255⟩,  -- tree.root
  ⟨0x0910, 0x091F, 2, 2, .bitset, .rw, 8, 0⟩,  -- tree.members
  ⟨0x0910, 0x091F, 3, 3, .u32, .rw, 4, 0⟩,  -- tree.line
  ⟨0x0910, 0x091F, 4, 4, .u32, .rw, 4, 0⟩,  -- tree.alt_line
  ⟨0x0910, 0x091F, 5, 5, .u8, .rw, 1, 255⟩,  -- tree.token
  ⟨0x0910, 0x091F, 6, 6, .u32, .ro, 4, 0⟩,  -- tree.rounds
  ⟨0x0920, 0x0927, 1, 4, .bitset, .rw, 8, 0⟩,  -- mcast.members
  ⟨0x0930, 0x0930, 1, 1, .u32, .ro, 4, 0⟩,  -- sync.round_trip
  ⟨0x0930, 0x0930, 2, 2, .u16, .ro, 2, 28⟩,  -- sync.bound
  ⟨0x0930, 0x0930, 3, 3, .u64, .ro, 8, 0⟩  -- sync.transfers
]

/-- The parameters of indices 0A00h to 0AFFh. -/
def rows0A : List PRow := [
  ⟨0x0A00, 0x0A00, 1, 1, .u16, .ro, 2, 9216⟩,  -- port.max_frame
  ⟨0x0A01, 0x0A01, 1, 1, .enum, .rws, 1, 0⟩,  -- port.mode
  ⟨0x0A01, 0x0A01, 2, 2, .enum, .rws, 1, 0⟩,  -- port.phy
  ⟨0x0A01, 0x0A01, 3, 3, .blob, .rws, 6, 0⟩,  -- port.mac
  ⟨0x0A01, 0x0A01, 4, 4, .blob, .rws, 4, 0⟩,  -- port.ipv4
  ⟨0x0A01, 0x0A01, 5, 5, .blob, .rws, 16, 0⟩,  -- port.ipv6
  ⟨0x0A01, 0x0A01, 6, 6, .u16, .rws, 2, 0⟩,  -- port.vlan
  ⟨0x0A01, 0x0A01, 7, 7, .u8, .rw, 1, 0⟩,  -- port.pfc_mask
  ⟨0x0A01, 0x0A01, 8, 8, .u16, .rw, 2, 512⟩,  -- port.pfc_xoff_kib
  ⟨0x0A01, 0x0A01, 9, 9, .u8, .rws, 1, 0⟩,  -- port.tx_invert
  ⟨0x0A01, 0x0A01, 10, 10, .enum, .ro, 1, 0⟩,  -- port.link
  ⟨0x0A01, 0x0A01, 11, 11, .u8, .rw, 1, 3⟩,  -- port.retrains
  ⟨0x0A01, 0x0A01, 12, 12, .u32, .ro, 4, 0⟩,  -- port.link_losses
  ⟨0x0A01, 0x0A01, 13, 13, .u64, .ro, 8, 0⟩,  -- port.rx_frames
  ⟨0x0A01, 0x0A01, 14, 14, .u64, .ro, 8, 0⟩,  -- port.tx_frames
  ⟨0x0A01, 0x0A01, 15, 15, .u64, .ro, 8, 0⟩,  -- port.rx_dropped
  ⟨0x0A01, 0x0A01, 16, 16, .u64, .ro, 8, 0⟩,  -- port.fec_corrected
  ⟨0x0A01, 0x0A01, 17, 17, .u64, .ro, 8, 0⟩,  -- port.fec_uncorrectable
  ⟨0x0A01, 0x0A01, 18, 18, .u64, .ro, 8, 0⟩,  -- port.pause_rx
  ⟨0x0A01, 0x0A01, 19, 19, .u64, .ro, 8, 0⟩,  -- port.pause_tx
  ⟨0x0A10, 0x0A1F, 1, 1, .enum, .rws, 1, 0⟩,  -- port.mode
  ⟨0x0A10, 0x0A1F, 2, 2, .enum, .rws, 1, 0⟩,  -- port.phy
  ⟨0x0A10, 0x0A1F, 3, 3, .blob, .rws, 6, 0⟩,  -- port.mac
  ⟨0x0A10, 0x0A1F, 4, 4, .blob, .rws, 4, 0⟩,  -- port.ipv4
  ⟨0x0A10, 0x0A1F, 5, 5, .blob, .rws, 16, 0⟩,  -- port.ipv6
  ⟨0x0A10, 0x0A1F, 6, 6, .u16, .rws, 2, 0⟩,  -- port.vlan
  ⟨0x0A10, 0x0A1F, 7, 7, .u8, .rw, 1, 0⟩,  -- port.pfc_mask
  ⟨0x0A10, 0x0A1F, 8, 8, .u16, .rw, 2, 512⟩,  -- port.pfc_xoff_kib
  ⟨0x0A10, 0x0A1F, 9, 9, .u8, .rws, 1, 0⟩,  -- port.tx_invert
  ⟨0x0A10, 0x0A1F, 10, 10, .enum, .ro, 1, 0⟩,  -- port.link
  ⟨0x0A10, 0x0A1F, 11, 11, .u8, .rw, 1, 3⟩,  -- port.retrains
  ⟨0x0A10, 0x0A1F, 12, 12, .u32, .ro, 4, 0⟩,  -- port.link_losses
  ⟨0x0A10, 0x0A1F, 13, 13, .u64, .ro, 8, 0⟩,  -- port.rx_frames
  ⟨0x0A10, 0x0A1F, 14, 14, .u64, .ro, 8, 0⟩,  -- port.tx_frames
  ⟨0x0A10, 0x0A1F, 15, 15, .u64, .ro, 8, 0⟩,  -- port.rx_dropped
  ⟨0x0A10, 0x0A1F, 16, 16, .u64, .ro, 8, 0⟩,  -- port.fec_corrected
  ⟨0x0A10, 0x0A1F, 17, 17, .u64, .ro, 8, 0⟩,  -- port.fec_uncorrectable
  ⟨0x0A10, 0x0A1F, 18, 18, .u64, .ro, 8, 0⟩,  -- port.pause_rx
  ⟨0x0A10, 0x0A1F, 19, 19, .u64, .ro, 8, 0⟩,  -- port.pause_tx
  ⟨0x0A30, 0x0A30, 1, 1, .enum, .rws, 1, 0⟩,  -- ptp.source
  ⟨0x0A30, 0x0A30, 2, 2, .u8, .rws, 1, 16⟩,  -- ptp.port
  ⟨0x0A30, 0x0A30, 3, 3, .u8, .rws, 1, 0⟩,  -- ptp.domain
  ⟨0x0A30, 0x0A30, 4, 4, .time, .ro, 10, 0⟩,  -- ptp.time
  ⟨0x0A30, 0x0A30, 5, 5, .u64, .rw, 8, 0⟩,  -- ptp.next_second
  ⟨0x0A30, 0x0A30, 6, 6, .i64, .ro, 8, 0⟩,  -- ptp.offset_ns
  ⟨0x0A30, 0x0A30, 7, 7, .enum, .ro, 1, 0⟩,  -- ptp.state
  ⟨0x0A30, 0x0A30, 8, 8, .u32, .ro, 4, 0⟩,  -- ptp.steps
  ⟨0x0A30, 0x0A30, 9, 9, .u32, .ro, 4, 0⟩,  -- ptp.pps_ignored
  ⟨0x0A40, 0x0A40, 1, 1, .u16, .rws, 2, 4884⟩,  -- hms.udp_port
  ⟨0x0A40, 0x0A40, 2, 2, .blob, .rws, 16, 0⟩,  -- hms.host_ip
  ⟨0x0A40, 0x0A40, 3, 3, .blob, .rws, 6, 0⟩,  -- hms.host_mac
  ⟨0x0A40, 0x0A40, 4, 4, .u16, .rws, 2, 0⟩,  -- hms.vlan
  ⟨0x0A40, 0x0A40, 5, 5, .u8, .rws, 1, 0⟩,  -- hms.priority
  ⟨0x0A40, 0x0A40, 6, 6, .u16, .rw, 2, 200⟩,  -- hms.rto_us
  ⟨0x0A40, 0x0A40, 7, 7, .u8, .rw, 1, 16⟩,  -- hms.max_resends
  ⟨0x0A40, 0x0A40, 8, 8, .u64, .ro, 8, 0⟩,  -- hms.resends
  ⟨0x0A40, 0x0A40, 9, 9, .u64, .ro, 8, 0⟩,  -- hms.naks
  ⟨0x0A40, 0x0A40, 10, 10, .u64, .ro, 8, 0⟩  -- hms.crc_drops
]

/-- The parameters of indices 0B00h to 0BFFh. -/
def rows0B : List PRow := [
  ⟨0x0B00, 0x0B00, 1, 1, .u16, .rw, 2, 0⟩,  -- herd.id
  ⟨0x0B00, 0x0B00, 2, 2, .u16, .rw, 2, 0⟩,  -- herd.seat
  ⟨0x0B00, 0x0B00, 3, 3, .enum, .rw, 1, 0⟩,  -- herd.twin
  ⟨0x0B00, 0x0B00, 4, 4, .u16, .rw, 2, 4882⟩,  -- herd.udp_port
  ⟨0x0B00, 0x0B00, 5, 5, .u16, .rw, 2, 8192⟩,  -- herd.payload
  ⟨0x0B00, 0x0B00, 6, 6, .u8, .ro, 1, 1⟩,  -- herd.version
  ⟨0x0B00, 0x0B00, 7, 7, .u64, .rw, 8, 0⟩,  -- herd.origin
  ⟨0x0B00, 0x0B00, 8, 8, .u64, .rw, 8, 0⟩,  -- herd.lr_seed
  ⟨0x0B01, 0x0B01, 1, 1, .u64, .ro, 8, 0⟩,  -- herd.discarded
  ⟨0x0B01, 0x0B01, 2, 2, .enum, .ro, 1, 0⟩,  -- herd.discard_reason
  ⟨0x0B01, 0x0B01, 3, 3, .u64, .ro, 8, 0⟩,  -- herd.ce_marks
  ⟨0x0B10, 0x0B1F, 1, 1, .u8, .rw, 1, 255⟩,  -- cvc.domain
  ⟨0x0B10, 0x0B1F, 2, 2, .u8, .rw, 1, 0⟩,  -- cvc.engine
  ⟨0x0B10, 0x0B1F, 3, 3, .enum, .rw, 1, 0⟩,  -- cvc.topology
  ⟨0x0B10, 0x0B1F, 4, 4, .u16, .rw, 2, 1⟩,  -- cvc.size
  ⟨0x0B10, 0x0B1F, 5, 5, .u16, .rw, 2, 0⟩,  -- cvc.position
  ⟨0x0B10, 0x0B1F, 6, 6, .u8, .rw, 1, 255⟩,  -- cvc.next
  ⟨0x0B10, 0x0B1F, 7, 7, .u8, .rw, 1, 255⟩,  -- cvc.prev
  ⟨0x0B10, 0x0B1F, 8, 8, .blob, .rw, 8, 0xffffffffffffffff⟩,  -- cvc.children
  ⟨0x0B10, 0x0B1F, 9, 9, .u16, .rw, 2, 0⟩,  -- cvc.tree_depth
  ⟨0x0B10, 0x0B1F, 10, 10, .u16, .rw, 2, 0⟩,  -- cvc.node_depth
  ⟨0x0B10, 0x0B1F, 11, 11, .u8, .rw, 1, 0⟩,  -- cvc.priority
  ⟨0x0B10, 0x0B1F, 12, 12, .enum, .rw, 1, 0⟩,  -- cvc.wire
  ⟨0x0B10, 0x0B1F, 13, 13, .u8, .rw, 1, 4⟩,  -- cvc.headroom
  ⟨0x0B10, 0x0B1F, 14, 14, .u32, .rw, 4, 0⟩,  -- cvc.promote_limit
  ⟨0x0B10, 0x0B1F, 15, 15, .u32, .rw, 4, 0x3d090⟩,  -- cvc.window_ns
  ⟨0x0B10, 0x0B1F, 16, 16, .u32, .rw, 4, 4096⟩,  -- cvc.staging_kib
  ⟨0x0B10, 0x0B1F, 17, 17, .u64, .rw, 8, 0⟩,  -- cvc.desc_base
  ⟨0x0B10, 0x0B1F, 18, 18, .u16, .rw, 2, 0⟩,  -- cvc.desc_count
  ⟨0x0B10, 0x0B1F, 19, 19, .u64, .rw, 8, 0⟩,  -- cvc.step_dcc
  ⟨0x0B10, 0x0B1F, 20, 20, .u32, .rw, 4, 0⟩,  -- cvc.step_windows
  ⟨0x0B10, 0x0B1F, 21, 21, .u32, .rw, 4, 0⟩,  -- cvc.iterations
  ⟨0x0B20, 0x0B2F, 1, 1, .enum, .ro, 1, 0⟩,  -- cvc.state
  ⟨0x0B20, 0x0B2F, 2, 2, .u32, .ro, 4, 0⟩,  -- cvc.seq
  ⟨0x0B20, 0x0B2F, 3, 3, .u64, .ro, 8, 0⟩,  -- cvc.sent
  ⟨0x0B20, 0x0B2F, 4, 4, .u64, .ro, 8, 0⟩,  -- cvc.taken
  ⟨0x0B20, 0x0B2F, 5, 5, .u64, .ro, 8, 0⟩,  -- cvc.late
  ⟨0x0B20, 0x0B2F, 6, 6, .u64, .ro, 8, 0⟩,  -- cvc.substituted
  ⟨0x0B20, 0x0B2F, 7, 7, .u64, .ro, 8, 0⟩,  -- cvc.promotions
  ⟨0x0B20, 0x0B2F, 8, 8, .u64, .ro, 8, 0⟩,  -- cvc.nan_sent
  ⟨0x0B20, 0x0B2F, 9, 9, .u64, .ro, 8, 0⟩,  -- cvc.nan_taken
  ⟨0x0B20, 0x0B2F, 10, 10, .u64, .ro, 8, 0⟩,  -- cvc.nan_result
  ⟨0x0B20, 0x0B2F, 11, 11, .u64, .ro, 8, 0⟩,  -- cvc.digest_checks
  ⟨0x0B20, 0x0B2F, 12, 12, .i64, .ro, 8, 0x7fffffffffffffff⟩,  -- cvc.min_slack
  ⟨0x0B40, 0x0BBF, 1, 1, .u16, .rw, 2, 0⟩,  -- peer.seat
  ⟨0x0B40, 0x0BBF, 2, 2, .u8, .rw, 1, 0⟩,  -- peer.port
  ⟨0x0B40, 0x0BBF, 3, 3, .u16, .rw, 2, 0⟩,  -- peer.vlan
  ⟨0x0B40, 0x0BBF, 4, 4, .blob, .rw, 16, 0⟩,  -- peer.ip
  ⟨0x0B40, 0x0BBF, 5, 5, .blob, .rw, 6, 0⟩,  -- peer.mac
  ⟨0x0B40, 0x0BBF, 6, 6, .blob, .rw, 16, 0⟩,  -- peer.twin_ip
  ⟨0x0B40, 0x0BBF, 7, 7, .blob, .rw, 6, 0⟩,  -- peer.twin_mac
  ⟨0x0B40, 0x0BBF, 8, 8, .bool, .rw, 1, 0⟩  -- peer.twinned
]

/-- The parameters of indices 0C00h to 0CFFh. -/
def rows0C : List PRow := [
  ⟨0x0C00, 0x0C00, 1, 1, .u64, .rw, 8, 0x4000000⟩,  -- snap.mirror_size
  ⟨0x0C00, 0x0C00, 2, 2, .u8, .rw, 1, 50⟩,  -- snap.mirror_pct
  ⟨0x0C00, 0x0C00, 3, 3, .u32, .rw, 4, 1000⟩,  -- snap.timeout_ms
  ⟨0x0C00, 0x0C00, 4, 4, .u8, .rw, 1, 0⟩,  -- snap.priority
  ⟨0x0C08, 0x0C0F, 1, 1, .u64, .rw, 8, 0⟩,  -- snap.first_dcc
  ⟨0x0C08, 0x0C0F, 2, 2, .u64, .rw, 8, 0⟩,  -- snap.period_dcc
  ⟨0x0C08, 0x0C0F, 3, 3, .u8, .rw, 1, 255⟩,  -- snap.peer
  ⟨0x0C08, 0x0C0F, 4, 4, .u8, .rw, 1, 0⟩,  -- snap.region
  ⟨0x0C08, 0x0C0F, 5, 5, .u32, .rw, 4, 0⟩,  -- snap.rec_off
  ⟨0x0C08, 0x0C0F, 6, 6, .bool, .rw, 1, 0⟩,  -- snap.hold
  ⟨0x0C08, 0x0C0F, 7, 7, .enum, .ro, 1, 0⟩,  -- snap.state
  ⟨0x0C08, 0x0C0F, 8, 8, .u32, .rw, 4, 0⟩,  -- snap.seq
  ⟨0x0C08, 0x0C0F, 9, 9, .u32, .ro, 4, 0xffffffff⟩,  -- snap.complete
  ⟨0x0C08, 0x0C0F, 10, 10, .blob, .ro, 128, 0⟩,  -- snap.record
  ⟨0x0C08, 0x0C0F, 11, 11, .u32, .ro, 4, 0⟩,  -- snap.failed
  ⟨0x0C08, 0x0C0F, 12, 12, .u32, .ro, 4, 0⟩,  -- snap.skipped
  ⟨0x0C08, 0x0C0F, 13, 13, .u64, .ro, 8, 0⟩,  -- snap.pages_sent
  ⟨0x0C08, 0x0C0F, 14, 14, .u64, .ro, 8, 0⟩,  -- snap.mirror_bytes
  ⟨0x0C10, 0x0C10, 1, 8, .u64, .rw, 8, 0⟩,  -- snap.data_step
  ⟨0x0C20, 0x0C20, 1, 8, .u64, .rw, 8, 0xffffffffffffffff⟩,  -- resume.step
  ⟨0x0C30, 0x0C30, 1, 1, .u16, .rw, 2, 0⟩,  -- reg.select
  ⟨0x0C30, 0x0C30, 2, 2, .blob, .rw, 32, 0⟩,  -- reg.entry
  ⟨0x0C30, 0x0C30, 3, 3, .u16, .ro, 2, 0⟩,  -- reg.valid
  ⟨0x0C40, 0x0C4F, 1, 1, .bool, .rw, 1, 0⟩,  -- rx.enable
  ⟨0x0C40, 0x0C4F, 2, 2, .u64, .rw, 8, 0⟩,  -- rx.base
  ⟨0x0C40, 0x0C4F, 3, 3, .u64, .rw, 8, 0⟩,  -- rx.size
  ⟨0x0C40, 0x0C4F, 4, 4, .u64, .ro, 8, 0⟩,  -- rx.ops
  ⟨0x0C40, 0x0C4F, 5, 5, .u64, .ro, 8, 0⟩  -- rx.refused
]

/-- The parameters of indices 0D00h to 0DFFh. -/
def rows0D : List PRow := [
  ⟨0x0D10, 0x0D10, 0, 0, .enum, .rw, 1, 5⟩,  -- numeric.grad_floor
  ⟨0x0D20, 0x0D20, 0, 0, .enum, .rw, 1, 0⟩,  -- numeric.nan_policy
  ⟨0x0D30, 0x0D30, 1, 1, .u64, .ro, 8, 0⟩,  -- numeric.nan_in
  ⟨0x0D30, 0x0D30, 2, 2, .u64, .ro, 8, 0⟩,  -- numeric.nan_made
  ⟨0x0D30, 0x0D30, 3, 3, .u64, .ro, 8, 0⟩,  -- numeric.nan_out
  ⟨0x0D30, 0x0D30, 4, 4, .u8, .ro, 1, 255⟩,  -- numeric.nan_first_domain
  ⟨0x0D30, 0x0D30, 5, 5, .u64, .ro, 8, 0⟩,  -- numeric.nan_first_dcc
  ⟨0x0D30, 0x0D30, 6, 6, .u16, .ro, 2, 0xffff⟩,  -- numeric.nan_first_unit
  ⟨0x0D30, 0x0D30, 7, 7, .cmd, .cmd, 8, 0⟩,  -- numeric.nan_clear
  ⟨0x0D40, 0x0D40, 1, 1, .u64, .ro, 8, 0⟩,  -- numeric.tern_invalid
  ⟨0x0D40, 0x0D40, 2, 2, .u64, .ro, 8, 0⟩,  -- numeric.marker_conflict
  ⟨0x0D40, 0x0D40, 3, 3, .u64, .ro, 8, 0⟩,  -- numeric.nan_lost
  ⟨0x0D40, 0x0D40, 4, 4, .u64, .ro, 8, 0⟩,  -- numeric.nan_block
  ⟨0x0D40, 0x0D40, 5, 5, .u64, .ro, 8, 0⟩,  -- numeric.int_sat
  ⟨0x0D40, 0x0D40, 6, 6, .u64, .ro, 8, 0⟩,  -- numeric.lapsed
  ⟨0x0D40, 0x0D40, 7, 7, .u64, .ro, 8, 0⟩,  -- numeric.sat_other
  ⟨0x0D50, 0x0D50, 1, 1, .u64, .rw, 8, 0⟩,  -- numeric.rng_seed
  ⟨0x0D50, 0x0D50, 2, 2, .u32, .rw, 4, 0⟩,  -- numeric.rng_device
  ⟨0x0D51, 0x0D51, 1, 8, .u64, .rw, 8, 0⟩,  -- numeric.rng_step
  ⟨0x0D60, 0x0D60, 1, 1, .u8, .rw, 1, 0⟩,  -- numeric.mon_select
  ⟨0x0D60, 0x0D60, 2, 2, .u32, .rw, 4, 0xffffffff⟩,  -- numeric.mon_tensor
  ⟨0x0D60, 0x0D60, 3, 3, .u64, .ro, 8, 0⟩,  -- numeric.mon_sat
  ⟨0x0D60, 0x0D60, 4, 4, .blob, .ro, 64, 0⟩,  -- numeric.mon_amax
  ⟨0x0D60, 0x0D60, 5, 5, .cmd, .cmd, 8, 0⟩  -- numeric.mon_clear
]

/-- The parameters of indices 0E00h to 0EFFh. -/
def rows0E : List PRow := [
  ⟨0x0E00, 0x0E00, 1, 1, .u32, .ro, 4, 0⟩,  -- fault.written
  ⟨0x0E00, 0x0E00, 2, 2, .u16, .ro, 2, 0⟩,  -- fault.next_seq
  ⟨0x0E00, 0x0E00, 3, 3, .u8, .ro, 1, 0⟩,  -- fault.unacked
  ⟨0x0E00, 0x0E00, 4, 4, .cmd, .cmd, 8, 0⟩,  -- fault.ack
  ⟨0x0E00, 0x0E00, 5, 5, .u32, .ro, 4, 0⟩,  -- fault.lost
  ⟨0x0E01, 0x0E01, 1, 64, .blob, .ro, 64, 0⟩,  -- fault.record
  ⟨0x0E10, 0x0E10, 1, 1, .u64, .ro, 8, 0⟩,  -- error.uncorrectable
  ⟨0x0E10, 0x0E10, 2, 2, .u64, .ro, 8, 0⟩,  -- error.link
  ⟨0x0E10, 0x0E10, 3, 3, .u64, .ro, 8, 0⟩,  -- error.seal
  ⟨0x0E10, 0x0E10, 4, 4, .u64, .ro, 8, 0⟩,  -- error.suppressed
  ⟨0x0E10, 0x0E10, 5, 5, .u64, .ro, 8, 0⟩,  -- error.hbm_corrected
  ⟨0x0E10, 0x0E10, 6, 6, .u64, .ro, 8, 0⟩  -- error.sram_corrected
]

/-- The parameters of indices 1000h to 10FFh. -/
def rows10 : List PRow := [
  ⟨0x1000, 0x1000, 1, 1, .blob, .ro, 64, 0⟩,  -- gauge.lr_id
  ⟨0x1000, 0x1000, 2, 2, .u32, .ro, 4, 0⟩,  -- gauge.svn
  ⟨0x1000, 0x1000, 3, 3, .u64, .ro, 8, 0⟩,  -- gauge.ms
  ⟨0x1001, 0x1001, 1, 1, .blob, .ro, 133, 0⟩,  -- gauge.sign_key
  ⟨0x1001, 0x1001, 2, 2, .blob, .ro, 0, 0⟩,  -- gauge.certificate
  ⟨0x1010, 0x1010, 1, 1, .u64, .ro, 8, 0⟩,  -- meter.energy_mj
  ⟨0x1010, 0x1010, 2, 2, .u32, .ro, 4, 0⟩,  -- meter.power_w
  ⟨0x1011, 0x1011, 1, 9, .u64, .ro, 8, 0⟩,  -- meter.rail_mj
  ⟨0x1020, 0x1020, 1, 1, .blob, .rw, 64, 0⟩,  -- record.nonce
  ⟨0x1020, 0x1020, 2, 2, .cmd, .cmd, 8, 0⟩,  -- record.generate
  ⟨0x1020, 0x1020, 3, 3, .blob, .ro, 512, 0⟩,  -- record.last
  ⟨0x1020, 0x1020, 4, 4, .bool, .ro, 1, 0⟩,  -- record.busy
  ⟨0x1020, 0x1020, 5, 5, .u32, .rw, 4, 900⟩,  -- record.interval_s
  ⟨0x1020, 0x1020, 6, 6, .u64, .ro, 8, 0⟩,  -- record.seq
  ⟨0x1021, 0x1021, 1, 64, .blob, .ro, 512, 0⟩,  -- record.history
  ⟨0x1030, 0x1030, 1, 1, .blob, .ro, 32, 0⟩,  -- seal.challenge
  ⟨0x1030, 0x1030, 2, 2, .blob, .wo, 0, 0⟩,  -- seal.request
  ⟨0x1030, 0x1030, 3, 3, .cmd, .cmd, 8, 0⟩,  -- seal.execute
  ⟨0x1030, 0x1030, 4, 4, .blob, .sealed, 133, 0⟩,  -- seal.authority
  ⟨0x1030, 0x1030, 5, 5, .u32, .ro, 4, 0⟩,  -- seal.count
  ⟨0x1030, 0x1030, 6, 6, .u64, .ro, 8, 0⟩,  -- seal.refused
  ⟨0x1031, 0x1031, 1, 1, .blob, .sealed, 144, 0⟩,  -- calib.table
  ⟨0x1032, 0x1032, 1, 1, .u8, .rw, 1, 0⟩,  -- audit.select
  ⟨0x1032, 0x1032, 2, 2, .blob, .ro, 0, 0⟩,  -- audit.entry
  ⟨0x1032, 0x1032, 3, 3, .u16, .ro, 2, 0⟩  -- audit.count
]

/-- The rows of the group that an index lies in. -/
def rowsOf (index : Nat) : List PRow :=
  match index / 256 with
  | 0x00 => rows00
  | 0x01 => rows01
  | 0x02 => rows02
  | 0x03 => rows03
  | 0x04 => rows04
  | 0x05 => rows05
  | 0x06 => rows06
  | 0x07 => rows07
  | 0x08 => rows08
  | 0x09 => rows09
  | 0x0A => rows0A
  | 0x0B => rows0B
  | 0x0C => rows0C
  | 0x0D => rows0D
  | 0x0E => rows0E
  | 0x10 => rows10
  | _ => []

/-- The row of a parameter, if the dictionary defines it. -/
def paramRow (key : Nat) : Option PRow :=
  (rowsOf (key / 256)).find? fun r =>
    decide (r.lo ≤ key / 256) && decide (key / 256 ≤ r.hi) && decide (r.s0 ≤ key % 256) && decide (key % 256 ≤ r.s1)

/-- The mesh positions of the Eland cores, in the order of the stops (R19, R20, R23). -/
def elandPos (n : Nat) : Nat :=
  if n ≤ 5 then 8 + (n + 1)
  else if n ≤ 10 then 16 + (12 - n)
  else if n ≤ 15 then 24 + (n - 9)
  else if n ≤ 20 then 32 + (22 - n)
  else if n ≤ 25 then 40 + (n - 19)
  else if n ≤ 30 then 48 + (32 - n)
  else 8 * (37 - n) + 1

/-- The mesh positions of the Chamois cores, clockwise from (1, 0) (R20). -/
def chamoisPos (n : Nat) : Nat :=
  if n ≤ 5 then n + 1
  else if n ≤ 11 then 8 * (n - 5) + 7
  else if n ≤ 17 then 56 + (18 - n)
  else 8 * (24 - n)

/-- The corner positions, which hold no core (R21). -/
def isCorner (p : Nat) : Bool := p == 0 || p == 7 || p == 56 || p == 63

/-- The unit number (R227) of the core at a position: an Eland core n, a Chamois core 40h + n. -/
def unitAt (p : Nat) : Option Nat :=
  match (List.range 36).find? fun n => elandPos n == p with
  | some n => some n
  | none => ((List.range 24).find? fun n => chamoisPos n == p).map (0x40 + ·)

/-- The position of a core unit. -/
def posOf (u : Nat) : Nat := if u < 0x40 then elandPos u else chamoisPos (u - 0x40)

/-- Whether a unit number names a core. -/
def isCoreUnit (u : Nat) : Bool := decide (u < 36) || (decide (0x40 ≤ u) && decide (u < 0x58))

/-- The bit of a core unit in the layout of 0201h. -/
def coreBit (u : Nat) : Nat := if u < 0x40 then u else 36 + (u - 0x40)

/-- The core unit of a bit of 0201h. -/
def bitUnit (b : Nat) : Nat := if b < 36 then b else 0x40 + (b - 36)

/-- The configuration identity of a stepping, grade and fence map (R220). -/
def identityOf (stepping grade fence : Nat) : Nat :=
  leNat ((sha512 (BitVec.ofNat 8 stepping :: BitVec.ofNat 8 grade :: leBytes 8 fence)).take 8)

/-- The default of a parameter: its table's value, or what its rule computes (R79, R82, R220, R258, R270, R304, R459). -/
def paramDefault (key : Nat) : Nat :=
  let idx := key / 256
  let sub := key % 256
  match key with
  | 0x000004 => 1
  | 0x000005 => leNat Config.serial
  | 0x020000 => identityOf 1 1 0
  | 0x020100 => 0
  | 0x020200 => 0
  | 0x020400 => 144
  | 0x020500 => identityOf 0 1 0
  | 0x020600 => 1
  | 0x090001 => 0
  | 0x090002 => 0
  | 0x0D5002 => leNat ((sha512 Config.serial).take 4)
  | 0x083801 => 95
  | 0x083802 => 100
  | 0x083803 => 105
  | 0x070002 => 4096 - (36 * 48 + 24 * 32)
  | 0x0A0101 => 2
  | 0x103203 => Config.perUnit key % 257
  | _ =>
    if idx == 0x0701 then (match unitAt (sub - 1) with | some u => if u < 0x40 then 48 else 32 | none => 0)
    else if idx == 0x0901 then 0
    else if idx == 0x0828 && sub == 1 then 32
    else if decide (0x0820 ≤ idx) && decide (idx < 0x0828) && sub == 1 then 124
    else if decide (0x0A10 ≤ idx) && decide (idx ≤ 0x0A1F) && sub == 1 then 1
    else if (idx == 0x0A01 || (decide (0x0A10 ≤ idx) && decide (idx ≤ 0x0A1F))) && sub == 3 then
      leNat ((2#8 :: (sha512 Config.serial).take 4) ++ [BitVec.ofNat 8 (if idx == 0x0A01 then 0x10 else idx - 0x0A10)])
    else if idx == 0x0320 && sub == 2 then
      leNat ((List.range 45).flatMap fun n => leBytes 2 (Config.avsTable n))
    else if idx == 0x0320 && sub == 1 then Config.avsTable 36
    else if (idx == 0x0501) || (idx == 0x0503) || (decide (0x1000 ≤ idx) && decide (idx ≤ 0x1021) && !(idx == 0x1020) &&
        !(key == 0x101002)) || key == 0x102006 || key == 0x103001 || key == 0x103004 || key == 0x103005 ||
        key == 0x103101 || key == 0x103203 || key == 0x000006 || key == 0x000007 || key == 0x093001 ||
        key == 0x034004 || key == 0x034005 || (decide (0x0830 ≤ idx) && decide (idx < 0x0838) && sub == 1) then
      (match paramRow key with
      | some r => Config.perUnit key % 2 ^ (8 * r.len)
      | none => 0)
    else match paramRow key with
      | some r => r.dflt
      | none => 0

end Sys2Proof.Machine
end

