-- ==== Sys2Proof/Machine/State.lean ====
section
/-!
DEFINITION. The state of the device as plain data: every register, memory, queue and mode that the manual gives it,
the queue of commands that wait, and the state right after reset. Banks of like units are sparse stores whose unlisted
entries are the unit's reset state, so that equal states are equal data.
-/
namespace Sys2Proof.Machine

/-- Reasons a command stops the model with a fault. -/
inductive Fault where
  /-- Raised by an event that names a unit the device does not have (R17, R20, R203, R227, R259, R275). Safe: the model
  stops where the hardware has nothing to name. A dictionary write to a parameter that no table defines is no such case: it
  draws status 01h (R425). -/
  | noSuchUnit
  deriving DecidableEq, Repr

/-- Reasons a command has no meaning. -/
inductive Refusal where
  /-- Raised by the dispatcher alone, for a command that has no meaning yet. Safe. -/
  | notModelled (mnemonic : String)
  /-- Raised by a meaning whose operands are not those of its row (WellFormed.lean): the issue of an instruction word of
  another opcode, a frame or message of another kind, a list of readings of another length. Safe: no such command. -/
  | illFormed
  /-- Raised by an event that cannot occur in the state it is named in (a beat where none travels, an issue by a needle
  that is not active). Safe: the hardware takes no such step. -/
  | notEnabled (what : String)
  deriving DecidableEq, Repr

/-! ### Faults and records -/

/-- A fault or error that a unit has raised, as R226 records it: what the record needs beyond the log itself. -/
structure Raised where
  code    : Nat
  dom     : Option Nat
  dcc     : Nat
  ctc     : Nat
  ptp     : Nat
  unit    : Nat
  needle  : Nat := 3
  engine  : Nat := 0
  half    : Nat := 0
  offset  : Nat := 0xFFFFFFFF
  handle  : Nat := 0
  detail0 : Nat := 0
  detail1 : Nat := 0
  deriving DecidableEq, Repr

/-- A line of data with its 16 word poison marks. -/
abbrev PLine := Line × Nat

/-! ### Eland cores -/

/-- The state of a needle (R122). -/
inductive NState where
  | halted
  | parked
  | active
  deriving DecidableEq, Repr

/-- The readiness condition a PICK carries (R123, R129). -/
structure PickCond where
  tokEn  : Bool := false
  tok    : Nat := 0
  count  : Nat := 0
  strEn  : Bool := false
  stream : Nat := 0
  deriving DecidableEq, Repr

/-- A LOOP in progress (R129): the instructions of its body, how many of them have passed in this iteration, the
iterations left after it, and the base steps. -/
structure LoopSt where
  body : Nat
  pos  : Nat
  left : Nat
  s1   : Nat
  s2   : Nat
  s3   : Nat
  deriving DecidableEq, Repr

/-- An instruction as it was fetched: its number, and the first poisoned word that covered it (R121). -/
structure Fetched where
  word   : Nat := 0
  poison : Option Nat := none
  deriving DecidableEq, Repr

/-- An instruction that has passed its decode point (R120), with what it reserved there: `key` is the slot that its stall
requests name, `slot` the slot in which it issues, which later holds move; `owed` says that a reservation of it still
fails. -/
structure Decoded where
  word   : Nat
  idx    : Nat
  slot   : Nat
  tag    : Option Nat
  push   : Bool
  poison : Option Nat := none
  key    : Nat := slot
  owed   : Bool := false
  deriving DecidableEq, Repr

/-- A needle: its place in its section, base registers (18 bits), position register (24 bits each), current strand,
loop, loop buffer and the instructions decoded and not yet issued (R118 to R123, R143). -/
structure NeedleSt where
  code     : Bool := false
  st       : NState := .halted
  cond     : PickCond := {}
  pc       : Nat := 0
  b1       : Nat := 0
  b2       : Nat := 0
  b3       : Nat := 0
  width    : Nat := 0
  row      : Nat := 0
  col      : Nat := 0
  strand   : Nat := 0
  loop     : Option LoopSt := none
  nextSlot : Nat := 0
  dpc      : Nat := 0
  dloop    : Option LoopSt := none
  d1       : Nat := 0                     -- base registers as the decode point sees them
  d2       : Nat := 0
  d3       : Nat := 0
  loopBuf  : SMap Fetched := []
  dslot    : Nat := 0
  decFrom  : Option Nat := none            -- the CTC from which it decodes, that of its choice under R123; none while it must not
  decoded  : List Decoded := []
  held     : Option Nat := none
  deriving DecidableEq, Repr

/-- A row that a unit has taken and will write: its number, the DCC of the write, the values to be converted and, for a
push, the values that are pushed (R139, R140, R146). -/
structure UnitRow where
  row  : Nat
  at_  : Nat
  ys   : List PV
  xs   : List PV := []
  deriving DecidableEq, Repr

/-- An instruction of the element unit, queued or in progress, with what its issue latched: effective lines, position
register, strand and step, the NaN policy in force; the DCC at which it reads its next row, rows read and not yet written,
and AMAX's result so far (R110, R131, R132, R143 to R146). -/
structure ElemJob where
  word   : Nat
  needle : Nat
  dom    : Nat
  offset : Nat
  src    : Nat
  src2   : Nat
  dst    : Nat
  width  : Nat
  row    : Nat
  col    : Nat
  strand : Nat
  step   : Nat
  pol    : Nat
  issued : Nat
  start  : Option Nat := none          -- DCC at which its first row counts as issued; none while it is queued
  next   : Nat := 0                    -- rows read, over all tiles
  rows   : List UnitRow := []
  amax   : Nat := 0
  bad    : Bool := false
  deriving DecidableEq, Repr

/-- An Eland core: needles, the tile partition FORE_TILES, token counters, the lines whose PRESENT bit is 0, push slots
held, picks made, and the domains of its needles (R110, R116, R118, R130, R134, R160, R204). -/
structure Eland where
  fore      : NeedleSt := {}
  back      : NeedleSt := {}
  foreTiles : Nat := 0xFFFF
  tokens    : SMap Nat := []
  absent    : SMap Bool := []
  pushes    : Nat := 0
  reported  : Nat := 0                          -- picks reported to the root
  pickDue   : Option Nat := none                -- a pick issued and not yet answered: the slot it governs
  answers   : List Needle := []                 -- choices that came before their pick issued
  elems     : List ElemJob := []                -- the element unit's instructions, oldest first (R110)
  domF      : Option Nat := none
  domB      : Option Nat := none
  shared    : Bool := false
  deriving DecidableEq, Repr

/-! ### Engines -/

/-- An MMA queued or in progress on an engine or half (R86, R136, R137). -/
structure Mma where
  id      : Nat
  needle  : Nat
  dom     : Nat
  tile    : Nat
  cont    : Bool
  close   : Bool
  fmtA    : Nat
  fmtB    : Nat
  dir     : Dir
  k       : Nat
  g       : Nat
  m1      : Nat
  n1      : Nat
  aLine   : Nat
  aStride : Nat
  got     : Nat
  opened  : Bool
  lead    : Bool
  offset  : Nat
  word    : Nat
  entry   : Nat := 0                      -- DCC before which its first chunk does not enter (R86, R87, R91)
  issued  : Nat := 0                      -- DCC of its issue
  latch   : SMap (Option PByte) := []     -- scales and markers of its first A image, by byte offset (R86)
  deriving DecidableEq, Repr

/-- An accumulator read, queued or in progress, with what its issue latched (R88, R138 to R141); then the rows taken, the
class and closing of its tile as its first row found them, rows not yet written and the source rows of a push. -/
structure AccRead where
  id     : Nat
  needle : Nat
  dom    : Nat
  tile   : Nat
  half   : Nat
  word   : Nat
  dst    : Nat
  aux    : Nat
  width  : Nat
  row    : Nat
  col    : Nat
  step   : Nat
  dstep  : Nat
  tag    : Option Nat
  offset : Nat
  pol    : Nat                              -- the NaN policy in force at its issue (R74)
  issued : Nat := 0
  start  : Option Nat := none               -- DCC at which it counts as issued; none while it is queued
  isInt  : Bool := false
  taken  : Nat := 0                         -- rows taken
  lastAt : Option Nat := none               -- DCC of the last row taken
  rows   : List UnitRow := []
  even   : List PV := []                    -- pushed values of an even row whose pair is still to come
  pushed : List (Nat × List PByte) := []    -- bytes of the pushed image formed so far
  deriving DecidableEq, Repr

/-- A B metadata store of two banks: the bank in use and the bank being filled (R102). -/
structure Banks where
  cur  : List (Byte × Bool) := []
  next : List (Byte × Bool) := []
  deriving DecidableEq, Repr

/-- A beat or metadata bubble on the Round: its control lane, data lane and metadata lane (R100 to R102), and where it
is: direction, stop, how many engines of the stop it has passed (4 = about to leave), and the DCC of its domain at which it
reaches that place (R99). `starts` names the MMAs of the stop that it has started (R87). -/
structure Beat where
  dir   : Dir
  stop  : Nat
  eng   : Nat
  dom   : Nat
  fmt   : Nat
  trans : Bool
  first : Bool
  last  : Bool
  metaV : Bool
  hops  : Nat
  beat  : Nat
  depth : Nat
  pcol  : Nat
  valid : Bool
  data  : Nat
  md    : List (Byte × Bool)
  at_   : Nat := 0
  starts : List Nat := []
  deriving DecidableEq, Repr

/-- What a wavefront does in the cells it reaches: opens their elements, pushes a chunk, or closes (R65, R84, R86). -/
inductive WKind where
  | enter
  | chunk
  | close
  deriving DecidableEq, Repr

/-- A wavefront of an MMA in the array, over rows 0 to `m1` and columns 0 to `n1` of its part: a chunk with its A rows, B
beat and metadata bank as they enter; `at_` is the DCC at which the first cell pushes, opens or closes, `done` the diagonals
that have (R84, R86). -/
structure Wave where
  kind : WKind
  op   : Mma
  at_  : Nat
  m1   : Nat
  n1   : Nat
  done : Nat := 0
  c    : Nat := 0                         -- number of the chunk
  rows : List (List PV) := []
  beat : Option Beat := none
  bank : List (Byte × Bool) := []
  deriving DecidableEq, Repr

/-- The lines of one A tile image of an MMA in a staging buffer, absent where they are not yet read (R114). -/
structure Span where
  id    : Nat
  k     : Nat                             -- span of 64 k
  first : Nat                             -- core-memory line of the image
  lines : List (Option PLine)
  deriving DecidableEq, Repr

/-- One engine, or half 1 of a split engine: its MMAs in order, the waves in its array, its staging buffer, cast-on and
bind-off (R84, R90 to R92, R114). -/
structure EngPart where
  ops    : List Mma := []
  waves  : List Wave := []
  stage  : List Span := []
  idle   : Bool := true
  free   : Nat := 0                       -- DCC from which the next MMA's first chunk may enter (R86)
  busy   : Nat := 0                       -- the DCC after its last push or close, 0 before any (R90)
  rampAt : Nat := 0                       -- DCC at which its bind-off began (R92)
  banks  : Banks := {}                    -- its two B metadata banks (R102)
  deriving DecidableEq, Repr

/-- An engine of a core: the partition register of R95, its halves, and the reads of its read path, oldest first; `p0` is
the whole engine while not split (R110). -/
structure Engine where
  part  : Nat := 0
  p0    : EngPart := {}
  p1    : EngPart := {}
  reads : List AccRead := []
  deriving DecidableEq, Repr

/-- The arithmetic state of an accumulator tile of an engine or half: the fields of its state word (R63, R65), the
saturations of the open cascade and the class that issue checks use. -/
structure TileSt where
  isOpen  : Bool := false
  isInt   : Bool := false
  lapsed  : Bool := false
  top     : Bool := false
  intSat  : Bool := false
  chunks  : Nat := 0
  newSat  : Nat := 0                    -- elements first marked saturated in this cascade (R70)
  issInt  : Bool := false               -- class of the last NEW issued to the tile (R128)
  byCont  : Bool := false               -- a CONT on closed values opened the cascade (R65)
  deriving DecidableEq, Repr

/-- What one element of an accumulator tile holds beside its array words: whether it is in the open cascade, whether its
top partial T is present, whether a NEW opened it and nothing has been pushed since, its chunk count n, levels 0 to 3
with poison marks, and its saturation mark (R63, R64, R70, R97). -/
structure Cell where
  inCas : Bool := false
  hasT  : Bool := false
  fresh : Bool := false
  n     : Nat := 0
  l0    : W32 := 0
  l1    : W32 := 0
  l2    : W32 := 0
  l3    : W32 := 0
  pz    : Nat := 0
  sat   : Bool := false
  deriving DecidableEq, Repr

/-! ### The Round -/

/-- The injection runs of a stop: one INJ with what it has read and sent (R102 to R106, R149, R150). -/
structure InjRun where
  dom    : Nat
  needle : Nat
  offset : Nat
  cw     : Bool
  ccw    : Bool
  trans  : Bool
  fmt    : Nat
  depth  : Nat
  hops   : Nat
  src    : Nat
  stride : Nat
  count  : Nat
  filled : Nat          -- lines read into the queue so far, over all tiles
  lines  : List (Line × Nat)   -- lines of the queue, oldest first, with 16 word poison marks
  tile   : Nat          -- tile being sent
  sent   : Nat          -- data beats sent of that tile
  lead   : Nat          -- metadata bubbles still to send before the tile's first data beat
  readyAt : Nat         -- DCC of the earliest first beat
  deriving DecidableEq, Repr

/-- A TAKE in progress (R105, R149, R150). -/
structure TakeOp where
  dom    : Nat
  needle : Nat
  offset : Nat
  dst    : Nat
  stride : Nat
  count  : Nat
  tile   : Nat
  inTile : Bool
  deriving DecidableEq, Repr

/-- A beat in a take queue: where its tile goes and its metadata (R105). -/
structure TakenBeat where
  beat : Beat
  dst  : Nat
  bank : List (Byte × Bool)
  needle : Nat := 3
  offset : Nat := 0xFFFFFFFF
  deriving DecidableEq, Repr

/-- The take unit of a stop and direction: TAKEs in order, metadata banks by domain, take queue (R106). -/
structure TakeUnit where
  ops   : List TakeOp := []
  banks : SMap Banks := []
  queue : List TakenBeat := []
  deriving DecidableEq, Repr

/-! ### Chamois cores -/

/-- A scalar register with its poison mark (R176). -/
structure SReg where
  v : W64 := 0
  p : Bool := false
  deriving DecidableEq, Repr

/-- A vector register: 128 lanes of 32 bits, lane i in bits [32i+31:32i], and a poison mark per lane (R176). -/
structure VReg where
  v : BitVec 4096 := 0
  p : W128 := 0
  deriving DecidableEq, Repr

/-- A predicate register: 128 bits and a poison mark per bit (R176). -/
structure PReg where
  v : W128 := 0
  p : W128 := 0
  deriving DecidableEq, Repr

/-- A register result: the lanes or bits that a mask names are written, and the others keep what they hold (R177,
R185). -/
inductive CWrite where
  | s (r : Nat) (x : SReg)
  | v (r : Nat) (mask : W128) (x : VReg)
  | p (r : Nat) (mask : W128) (x : PReg)
  deriving DecidableEq, Repr

/-- What a Chamois instruction does to memory in cycles of its own (R177, R201). -/
inductive CKind where
  | vld
  | lds
  | store
  | trd
  | twr
  | sfacc
  | mesh
  deriving DecidableEq, Repr

/-- The memory accesses of a Chamois instruction that lie ahead, with what its issue latched: its kind, the DCC of the next
access, accesses made and in all, its word and place in the image, its tag, the first lines or byte addresses it accesses, its
lanes, the lanes it has read, the bytes it will write, and its conversion key with the step and the NaN policy in force
(R177, R192 to R196, R199, R201). -/
structure CJob where
  kind   : CKind
  at_    : Nat
  pos    : Nat := 0
  count  : Nat
  word   : Nat
  offset : Nat
  tag    : Nat := 0
  addrs  : List Nat
  vals   : List (Nat × Bool) := []
  lanes  : List (Nat × Bool) := []
  runs   : List (Nat × List (Byte × Bool)) := []
  strand : Nat := 0
  tensor : Nat := 0
  step   : Nat := 0
  width  : Nat := 0
  base   : Nat := 0
  pol    : Nat := 0
  deriving DecidableEq, Repr

/-- A LOOP level of a Chamois core (R181). -/
structure CLoop where
  body : Nat
  pos  : Nat
  left : Nat
  deriving DecidableEq, Repr

/-- A Chamois core: registers, results in flight, sequencer, tokens (R174 to R181). -/
structure Cham where
  code     : Bool := false
  halted   : Bool := true
  s        : SMap SReg := []
  v        : SMap VReg := []
  p        : SMap PReg := []
  inFlight : List (Nat × CWrite) := []     -- results with the DCC at which they become visible, oldest issue first
  jobs     : List CJob := []               -- memory accesses ahead, oldest issue first
  loopBuf  : SMap Fetched := []
  tokens   : SMap Nat := []
  pushes   : Nat := 0
  pc       : Nat := 0
  loops    : List CLoop := []
  nextSlot : Nat := 0
  dpc      : Nat := 0
  dloops   : List CLoop := []
  dslot    : Nat := 0
  decoded  : List Decoded := []
  held     : Option Nat := none
  quarter  : Nat := 0                      -- first DCC at which the quarter-rate unit takes an operation
  block    : Nat := 0                      -- first DCC at which the block unit takes a column-mode operation
  dom      : Option Nat := none
  deriving DecidableEq, Repr

/-! ### Domains and the sync network -/

/-- The state of a domain (R217). -/
inductive DState where
  | empty | loading | loaded | running | pageHalt | done | faulted | aborted
  deriving DecidableEq, Repr

/-- The ENUM code of 0600h.04 (R217). -/
def DState.code : DState → Nat
  | .empty => 0 | .loading => 1 | .loaded => 2 | .running => 3 | .pageHalt => 4 | .done => 5 | .faulted => 6 | .aborted => 7

/-- A condition checked at the stall horizon (R209). -/
inductive Cond where
  | present (u line : Nat)
  | token (u tok count : Nat)
  | window (x n : Nat)
  | windowAt (x n p : Nat)
  | drained (x n : Nat)
  | tag (u : Nat)
  | push (u : Nat)
  | pick
  | crossing (a b : Nat)
  deriving DecidableEq, Repr

/-- A stall request: the slot D + 64 it keeps from issuing, who raised it, and the condition (R208, R228). -/
structure StallReq where
  slot   : Nat
  unit   : Nat
  needle : Nat
  offset : Nat
  cond   : Cond
  seen   : Bool := false     -- the STALL_REQ message has reached the root
  deriving DecidableEq, Repr

/-- A section of a loaded image, kept to name image offsets in records (R213, R226). -/
structure Section where
  kind : Nat
  pos  : Nat
  line : Nat
  size : Nat
  off  : Nat
  deriving DecidableEq, Repr

/-- A readiness report of a core for its nth pick (R123). -/
structure PickRep where
  core : Nat
  nth  : Nat
  fore : Bool
  back : Bool
  deriving DecidableEq, Repr

/-- A schedule domain (R203, R206, R208, R217). -/
structure Domain where
  st         : DState := .empty
  dcc        : Nat := 0
  started    : Bool := false
  t0         : Option Nat := none
  startCtc   : Nat := 0
  stallTicks : Nat := 0
  stalls     : Nat := 0
  reqs       : List StallReq := []
  freezeAt   : Option Nat := none      -- D + 64 of the FREEZE in force or announced
  stalled    : Bool := false
  stallCtc   : Nat := 0
  stallNs    : Nat := 0
  resumeOk   : List Nat := []          -- units that have reported RESUME_OK for this stall
  resumeAt   : Option Nat := none
  stopDue    : Bool := false
  faultSeq   : Nat := 0xFFFF
  granted    : Bool := false           -- a load has given it the grants of R203
  cores      : Nat := 0
  strands    : Nat := 0
  arc        : Nat := 0                -- stops of the domain's arc, bit n = stop n (R107)
  sections   : List Section := []
  image      : Nat := 0                -- 0600h.01 at LOAD
  measure    : List Byte := []
  reports    : List PickRep := []
  nth        : Nat := 0                -- picks the root has answered
  choice     : Option Needle := none   -- PICK_CHOICE on its way
  finished   : Option Nat := none      -- DCC at which its last core finished (R217)
  serves     : Nat := 0                -- sync-tree nodes that serve the domain since RUN, bit n = position n (R249)
  deriving DecidableEq, Repr

/-- An INCR message on its way (R249, R250): target position, counter, amount, the position that sent it and its domain. -/
structure Incr where
  pos : Nat
  tok : Nat
  amt : Nat
  src : Nat
  dom : Nat
  deriving DecidableEq, Repr

/-! ### Mesh transfers -/

/-- The kinds of operation that hold an operation tag of a core (R111, R152, R160, R199). -/
inductive XKind where
  | tld | tst | put | get | rsend | spush | spop | accPush | ngath | nscat
  deriving DecidableEq, Repr

/-- An operation of a mesh unit in flight. `total` and `done` count lines, granules or entries; `va` is the first
virtual byte address, `loc` the first local line (byte address on the narrow path). -/
structure Xfer where
  unit   : Nat
  needle : Nat
  tag    : Nat
  dom    : Nat
  kind   : XKind
  total  : Nat
  sent   : Nat
  done   : Nat
  va     : Nat
  loc    : Nat
  tgt    : Nat                          -- target position of PUT and GET, tree of RSEND, strand of the Stash
  rline  : Nat
  tok    : Option (Nat × Nat)           -- position and counter incremented at completion
  grans  : List (Nat × Nat)             -- narrow path: granules still to do, virtual and local byte address
  data   : List PLine                   -- lines still to send of a write
  halted : Option Nat
  word   : Nat
  offset : Nat
  born   : Nat
  deriving DecidableEq, Repr

/-- Who waits for the answer of a packet. -/
inductive Owner where
  | op (unit tag : Nat)
  | stream (x win : Nat)
  | dma (ch : Nat)
  | none
  deriving DecidableEq, Repr

/-- A packet on the mesh (R235): its type, ends, virtual channel, and what it carries. `line` is the first destination
line in a core, `pa` the physical byte address of a memory access, `off` the line offset within its transfer, `group` its
multicast group, `leg` and `via` the state of its route (R239). A request of up to 4 KiB and its answer are one entry
(R268). -/
structure Packet where
  ty    : Nat
  src   : Nat
  dst   : Nat
  vc    : Nat
  dom   : Nat
  owner : Owner
  line  : Nat
  pa    : Nat
  va    : Nat
  off   : Nat
  n     : Nat
  data  : List PLine
  tok   : Option (Nat × Nat)
  dead  : Nat
  born  : Nat                           -- CTC at which its operation started (R347)
  members : List Nat                    -- multicast: members still to be reached
  group : Nat := 0
  leg   : Bool := false
  via   : Option Nat := none
  pte   : Nat := 0                      -- the page-table entry that translated it (R289)
  deriving DecidableEq, Repr

/-- Data that waits to be written through port F of a core (R113): source, line, data. -/
structure Arrival where
  unit  : Nat
  owner : Owner
  line  : Nat
  data  : PLine
  deriving DecidableEq, Repr

/-- A request at an HBM stack (R268, R269, R291, R292): its partition, DEADLINE and packet. -/
structure HbmReq where
  part   : Nat
  dead   : Nat
  ctx    : Nat
  narrow : Bool
  waited : Bool
  pkt    : Packet
  deriving DecidableEq, Repr

/-- A reduction flit of one round on one input of a router (R243): two lines, the upper one perhaps absent, or the end
of a contribution. -/
structure RedFlit where
  tree  : Nat
  pos   : Nat
  port  : Nat             -- 0 West, 1 North, 2 East, 3 South, 4 Local
  round : Nat
  n     : Nat
  lower : Option PLine
  upper : Option PLine
  last  : Bool            -- no flit of the round follows
  vc    : Nat := 2        -- its virtual channel (R236)
  deriving DecidableEq, Repr

/-! ### The Stash -/

/-- A Stash entry (R157): its header fields, its image, whether it is cached, and its push order over all lanes. -/
structure Entry where
  tag   : Nat
  fmt   : Nat
  lines : Nat
  step  : Nat
  index : Nat
  off   : Nat             -- slice offset P_n
  img   : List PLine
  cached : Bool
  ord   : Nat
  deriving DecidableEq, Repr

/-- A Stash message between a core and the controller: an entry pushed, or a pop of `count` entries. -/
structure StashMsg where
  unit   : Nat
  needle : Nat
  tagNo  : Nat
  dom    : Nat
  strand : Nat
  isPop  : Bool
  tag    : Nat
  fmt    : Nat
  step   : Nat
  count  : Nat
  line   : Nat
  img    : List PLine
  offset : Nat
  ready  : Bool := true    -- the image is complete (R159)
  vc     : Nat := 0        -- its virtual channel: pushes and pop requests on VC 0 (R236)
  deriving DecidableEq, Repr

/-! ### Streams and DMA -/

/-- A stream context (R260 to R266): descriptor, state of 0720h.03, domain, consumer index, the windows current and not
yet released with the DCC at which they became so, the last window that became current, windows released, the next
request's window and line, lines written or acknowledged by window × 64 + position, windows filled by position, windows
moved, the next window to check, the halt slot held. -/
structure Stream where
  desc     : Nat := 0
  st       : Nat := 0
  dom      : Nat := 0
  c        : Nat := 0
  cur      : List (Nat × Nat) := []
  lastCur  : Option (Nat × Nat) := none
  released : Nat := 0
  reqWin   : Nat := 0
  reqOff   : Nat := 0
  got      : SMap Nat := []
  filled   : SMap Nat := []
  moved    : Nat := 0
  checked  : Nat := 0
  halt     : Option Nat := none
  since    : Nat := 0                    -- when its requests, releases or moves last changed, in ns (R274)
  deriving DecidableEq, Repr

/-- A DMA transfer in flight (R279): source and destination operand values, rows, row size and strides, whether it feeds
the CRCs, its instruction and start, the answers of the host or of cores still to come, the host data read so far by chunk,
and whether its writes have been sent. -/
structure DmaXfer where
  id    : Nat
  src   : Nat
  dst   : Nat
  rows  : Nat
  bytes : Nat
  sStr  : Int
  dStr  : Int
  crc   : Bool
  pc    : Nat
  word  : Nat
  born  : Nat
  wait  : Nat := 0
  parts : SMap (List Byte) := []
  wrote : Bool := false
  edged : Bool := false                 -- the host has been asked for the lines that it will write in part
  deriving DecidableEq, Repr

/-- A DMA channel (R275, R276, R279). -/
structure Dma where
  st      : Nat := 0
  prog    : SMap Nat := []
  pc      : Nat := 0
  loops   : List (Nat × Nat) := []      -- word after the LOOP, iterations left
  ev      : Nat := 0
  timer   : Nat := 0
  tBase   : Nat := 0
  armed   : Bool := false               -- the timer of the WAIT in progress has fired
  timing  : Bool := false               -- the WAIT in progress waits for its timer
  c32     : Nat := 0xFFFFFFFF
  c64     : Nat := 0
  p32     : Bool := false
  p64     : Bool := false
  bytes   : Nat := 0
  pend    : Nat := 0
  late    : Nat := 0
  trig    : Nat := 0
  trigCh  : Nat := 0
  trigAt  : Nat := 0
  trigHit : Bool := false               -- the time of trigger 02h or 03h has been reached
  haltHit : Nat := 0                    -- HALTs of the trigger channel not yet taken
  runHit  : Bool := false
  xfers   : List DmaXfer := []
  halt    : Option Nat := none
  dom     : Nat := 0
  deriving DecidableEq, Repr

/-- The requester of a page-absent halt (R271, R272). -/
inductive Requester where
  | stream (x : Nat)
  | op (unit tag : Nat)
  | dma (ch : Nat)
  deriving DecidableEq, Repr

/-- A halt slot of 0710h (R271, R272). -/
structure Halt where
  dcc  : Nat
  seq  : Nat
  code : Nat
  dom  : Nat
  write : Bool
  ctx  : Nat
  prog : Nat
  unit : Nat
  va   : Nat
  who  : Requester
  word : Nat
  offset : Nat
  deriving DecidableEq, Repr

/-! ### Memory -/

/-- A token bucket of a partition at a stack (R304): tokens in eighths of a byte below its depth, and when it was last
filled. -/
structure Bucket where
  spent : Nat := 0
  atNs  : Nat := 0
  deriving DecidableEq, Repr

/-- A cached second-level entry (R289): domain, VA[47:21], entry. -/
structure TlbEntry where
  dom : Nat
  vpn : Nat
  pte : Nat
  deriving DecidableEq, Repr

/-! ### Clocks, start-up, security, dictionary, Gauge -/

/-- A stretch that the clock class of the sync network carries (R364, R365): origin zone, origin CTC, size (1 = 25 %,
2 = 50 %, 3 = 100 %). -/
structure StretchMsg where
  zone : Nat
  ctc  : Nat
  size : Nat
  deriving DecidableEq, Repr

/-- The phase of a frequency switch (R369). -/
inductive SwPhase where
  | none
  | raiseSrm
  | raiseCmp
  | announced
  | lowerCmp
  | lowerSrm
  deriving DecidableEq, Repr

/-- Clocks, voltages and thermal control (R358 to R378): caps in MHz, the switch in progress, requested voltages in mV,
the generators in use, stretches on their way, crossings in lock-step, sensors and the causes of ALERT_L. -/
structure Clk where
  runs      : Bool := true               -- the compute clocks run
  powerCap  : Nat := 2000
  currCap   : Nat := 2000
  thermCap  : Nat := 2000
  phase     : SwPhase := .none
  newF      : Nat := 1800
  genB      : Bool := false              -- generator B drives the zones
  freqSeen  : Nat := 0                   -- zones that hold the FREQ message, bit n = CZn
  srmMv     : Nat := 0                   -- VDD_SRM last requested; 0 = that of the table
  marginTo  : Option Nat := none         -- a margin step requested and not yet settled
  quietMs   : Nat := 0
  inMs      : SMap Nat := []             -- stretches of each zone in this millisecond
  lastShort : SMap Nat := []             -- CTC + 1 of the last stretch a zone originated
  stretches : List (StretchMsg × Nat) := []   -- with the zones that have applied them, bit n = CZn
  lockstep  : List (Nat × Nat) := []
  service   : List (Nat × Nat × Nat) := []    -- changes of a service clock waiting for their edge: sub, MHz, nanoseconds
  serviceNow : SMap Nat := []            -- service clocks in force by sub of 0312h, in MHz; 0 = the nominal one
  readings  : SMap Int := []             -- last valid reading of a sensor, in 1/8 °C
  invalid   : SMap Nat := []             -- readings in a row that a sensor has given none
  cool      : Nat := 0                   -- readings in a row below the throttle temperature − 3 °C
  alertTherm : Bool := false
  alertAvs  : Bool := false
  tripped   : Bool := false
  thermtrip : Bool := false              -- THERMTRIP_L is asserted
  telemetry : List (Nat × Nat) := []     -- last mV and A of each rail
  powerSum  : Nat := 0                   -- sums over the window, in mW and A, and its samples
  currSum   : Nat := 0
  samples   : Nat := 0
  deriving DecidableEq, Repr

/-- Start-up (R380 to R392): pins, kinds of start and the causes of FAULT_L and ALERT_L. -/
structure Boot where
  pwrOk     : Bool := true
  resetLow  : Bool := false              -- RESET_L has been low for 100 µs
  released  : Nat := 1                   -- releases of RESET_L since PWR_OK rose
  reached   : Bool := false              -- a start since then set CONFIG, MESH and every HBM bit
  startNs   : Nat := 0                   -- time of the release
  byCmd     : Bool := false              -- the reset in progress came from 0402h
  tests     : SelfTest := {}             -- what the self-tests find in the start in progress, if they run
  alertTest : Bool := false
  faultLow  : Bool := false              -- BOOT or HOST failed: FAULT_L low until PWR_OK falls
  deriving DecidableEq, Repr

/-- Attestation, MACsec and flash (R394 to R408). -/
structure Sec where
  attest   : Option (List Byte) := none  -- bytes 0 to 887 of the report being signed
  flash    : SMap Nat := []              -- flash bytes written: value + 1; 0 = as the flash was
  updating : Nat := 0                    -- 0 none, 1 a write, 2 a verification in progress
  updBuf   : List Byte := []
  updBank  : Nat := 0                     -- the bank that is written or verified (R408)
  keys     : SMap Nat := []              -- MACsec keys of association numbers 0 and 1, key + 1
  fresh    : Nat := 0                    -- bit a: the key of association number a is newly installed
  deriving DecidableEq, Repr

/-- A kept response (R424): the request's number, type and body, and the answer. -/
structure Kept where
  req    : Nat
  type   : Nat
  body   : List Byte
  answer : SppMsg
  deriving DecidableEq, Repr

/-- A session slot (R405, R419, R420, R432). -/
structure Session where
  st      : Nat := 0                     -- 0 free, 1 opening, 2 open unauthenticated, 3 open authenticated
  sn      : Nat := 0
  ip      : Nat := 0
  port    : Nat := 0
  slot    : Nat := 0xFF
  rx      : Nat := 0                     -- last host sequence number accepted
  tx      : Nat := 0                     -- last device sequence number used
  keyIn   : List Byte := []
  keyOut  : List Byte := []
  trans   : List Byte := []              -- T ‖ SIG_R ‖ SIG_S
  lastNs  : Nat := 0
  eth     : Eth := {}                    -- of the last message accepted (R449)
  kept    : List Kept := []              -- newest first
  deriving DecidableEq, Repr

/-- A subscription (R427). -/
structure Subscr where
  slot   : Nat
  key    : Nat
  mode   : Nat
  period : Nat
  nextNs : Nat
  last   : Option (List Byte)
  deriving DecidableEq, Repr

/-- A write of mem.pt_flush not yet answered (R289): its argument, the translations dropped (domain and VA[47:21]), and the
session's slot, its number, the request and the response to send; none of them for a write outside any session. -/
structure FlushDue where
  arg    : Nat
  keys   : List (Nat × Nat)
  answer : Option (Nat × Nat × SppMsg × SppMsg) := none
  deriving DecidableEq, Repr

/-- The dictionary server (R416 to R427). -/
structure Spp where
  slots   : SMap Session := []
  freed   : List Nat := []               -- the last 16 session numbers freed, newest first
  subs    : SMap (Option Subscr) := []
  own     : Nat := 0                     -- session number of the message being handled
  unauth  : Bool := false                -- that session was opened without a signature
  after   : List Instr := []             -- writes of the message that take effect after its response
  maxBody : Nat := 8192                  -- spp.max_body in force for what is sent now
  flush   : List FlushDue := []          -- flushes of translations not yet answered
  deriving DecidableEq, Repr

/-- A record that the Gauge die is signing: its KIND and bytes 0 to 255 (R437). -/
structure GRecord where
  kind : Nat
  body : List Byte
  deriving DecidableEq, Repr

/-- The Gauge die (R433 to R445). Accumulators count 2^−596 µJ exactly, rails 0 to 8 and the package at 9. -/
structure Gauge where
  acc        : SMap Int := []
  committed  : SMap Int := []
  lastP      : SMap Int := []            -- last valid power of a rail, in 2^−596 W
  us         : Nat := 0                  -- microseconds the die has been powered since reset
  winStart   : Int := 0                  -- package accumulator at the start of the last 10 ms
  power      : Bool := false             -- power interrupted since the previous record
  sense      : Bool := false             -- sense fault since the previous record
  signing    : Option GRecord := none
  after      : List Nat := []            -- kinds of records that wait until busy clears
  periodNext : Nat := 900000000          -- µs of Gauge time at which the next periodic record falls due
  keyNo      : Nat := 0                  -- number of the metrology signing key, counted from manufacture
  cert       : Option (List Byte) := none -- the certificate chain installed since; none = that of manufacture
  request    : List Byte := []           -- seal.request as written
  audit      : SMap Nat := []            -- audit entries written since, by number
  off        : Bool := false             -- VDD_IOD has fallen and no start has begun since
  deriving DecidableEq, Repr

/-! ### Ports, the host memory service and herds -/

/-- Who waits for the answer of a host memory service request (R456). `part` is the chunk of its transfer. -/
inductive HOwner where
  | dma (ch id part : Nat)
  | page (dom entry page : Nat)
  | mirror (dom entry : Nat) (pkt : Option Packet)
  | refresh (dom : Nat)
  | record (dom state : Nat)
  | dropped
  deriving DecidableEq, Repr

/-- A request of a flow. -/
structure HReq where
  who   : HOwner
  frame : HmsFrame
  at_   : Nat := 0        -- when it was first sent, in ns
  deriving DecidableEq, Repr

/-- A flow of which the device is the sender (R457). Flow 0 goes to the host, flow 1 + e to peer entry e. -/
structure HFlow where
  next    : Nat := 0
  restart : Bool := true
  unacked : List HReq := []              -- oldest first
  waiting : List HReq := []
  rounds  : Nat := 0                     -- resends without an advance
  sentNs  : Nat := 0                     -- when the ACK last advanced, or the last resend
  deriving DecidableEq, Repr

/-- A flow of which the device is the receiver (R457). -/
structure HRecv where
  port   : Nat
  ip     : Nat
  udp    : Nat
  expect : Nat
  held   : List HmsFrame := []
  deriving DecidableEq, Repr

/-- An Ethernet port beside its parameters (R452, R453): the pauses in force by priority, as nanoseconds at which they
end, and the training attempts since the loss. -/
structure PortSt where
  pause    : SMap Nat := []
  attempts : Nat := 0
  failed   : Bool := false
  deriving DecidableEq, Repr

/-- The test access port of R465 under IEEE 1149.1: controller state (0 Test-Logic-Reset, 1 Run-Test/Idle, 2 to 8 the
data column and 9 to 15 the instruction column in the order select, capture, shift, exit 1, pause, exit 2, update), the
instruction (0 BYPASS, 1 SAMPLE/PRELOAD, 2 EXTEST, 3 IDCODE), the shift register, the boundary update latch and TDO. -/
structure Tap where
  st    : Nat := 0
  ir    : Nat := 3
  shift : Nat := 0
  latch : Nat := 0
  tdo   : Bool := false
  deriving DecidableEq, Repr

/-- The ports, the PTP servo (R455) and the host memory service. -/
structure Ports where
  port   : SMap PortSt := []
  flows  : SMap HFlow := []
  recv   : List HRecv := []
  good   : Nat := 0                      -- consecutive offsets within ±50 ns
  slew   : Int := 0                      -- offset still to be removed by slewing
  slewNs : Nat := 0                      -- when the slew was last brought up to date
  syncNs : Nat := 0                      -- time of the last Sync
  edge   : Option Nat := none            -- time at which the next 1PPS edge is expected, in ns
  secDue : Bool := false                 -- ptp.next_second has been written and not yet used
  master : Bool := false                 -- an Announce has been received
  tap    : Tap := {}
  deriving DecidableEq, Repr

/-- A block of 64 elements as it travels (R317): promoted blocks and FP32 mode hold FP32 bits, scaled ones FP16 bits.
`pz` marks poisoned elements. -/
structure WBlock where
  promoted : Bool
  scale    : Nat
  vals     : List Nat
  pz       : Nat
  deriving DecidableEq, Repr

/-- A block of a running sum: FP32 bits with poison marks, the scale it keeps and whether it is promoted (R322, R326). -/
structure SBlock where
  promoted : Bool := false
  scale    : Nat := 0
  vals     : List (Nat × Bool) := []
  deriving DecidableEq, Repr

/-- A copy of a contribution that is arriving or held (R325, R330, R331). -/
structure HeldCopy where
  seq    : Nat
  hop    : Nat
  seat   : Nat
  chunk  : Nat
  twin   : Bool
  port   : Nat
  frames : List HerdFrame
  stamp  : Nat                           -- the largest stamp of its frames
  whole  : Bool                          -- complete, its digest checked
  deriving DecidableEq, Repr

/-- A CVC's engine work (R319 to R336). -/
structure Coll where
  st     : Nat := 0                      -- 0B20h.01
  iter   : Nat := 0
  idx    : Nat := 0
  desc   : Nat := 0
  run    : Bool := false                 -- a collective has started and is not complete
  born   : Nat := 0                      -- CTC at its start
  src    : SMap SBlock := []             -- the position's own blocks
  sum    : SMap SBlock := []             -- the running sum, by block
  fin    : SMap WBlock := []             -- final blocks, by block
  promos : Nat := 0
  sent   : List Nat := []                -- hops sent
  took   : List (Nat × Nat) := []        -- hop and sending peer entry of the copies taken
  closed : List Nat := []                -- hops whose window has closed
  graced : List Nat := []                -- hops whose grace has closed
  copies : List HeldCopy := []
  aside  : List (Nat × Nat × Nat × Nat × Bool) := []   -- sequence, hop, seat, chunk, twin flag of copies taken or set aside
  kids   : SMap (List (Nat × WBlock)) := []      -- what a tree node has taken from its children, by peer entry
  paused : List (Nat × Nat) := []        -- ports and priorities paused for staging
  freeAt : Nat := 0                      -- DCC at which the previous collective was complete
  deriving DecidableEq, Repr

/-- The collective engines, by CVC. -/
structure Herd where
  coll : SMap Coll := []
  deriving DecidableEq, Repr

/-- Frames and messages that the device sends. A herd frame names its port, destination addresses, VID and PCP of its tag, ECN code
and UDP port; `udpOk` of the frame says that its checksum is right (R313, R314). Every other frame names the Ethernet side of its
destination (R449, R451). -/
inductive Out where
  | spp (ip port : Nat) (eth : Eth) (m : SppMsg)
  | herd (port ip mac vlan prio ecn udp : Nat) (f : HerdFrame)
  | hms (port ip udp : Nat) (f : HmsFrame)
  | arpReply (port ip : Nat) (eth : Eth)
  | neighbourAdvert (port ip : Nat) (eth : Eth)
  | pfc (port prio quanta : Nat)
  deriving DecidableEq, Repr

/-! ### Snapshots -/

/-- A registry entry (R341), its fields apart, with the written-page marks of R344 and the pages copied for the snapshot
in progress. `full` makes its next snapshot FULL (R342, R345). -/
structure RegEntry where
  valid    : Bool := false
  dom      : Nat := 0
  method   : Nat := 2
  inEffect : Nat := 3
  strand   : Nat := 0
  tensor   : Nat := 0
  vpage    : Nat := 0
  pages    : Nat := 0
  remote   : Nat := 0
  dirtyLast : Nat := 0
  dirtyMax : Nat := 0
  complete : Nat := 0xFFFFFFFF
  copied   : Nat := 0
  full     : Bool := true
  dirty    : SMap Bool := []
  sent     : SMap Bool := []
  acks     : SMap Nat := []     -- frames of a page acknowledged, by page
  deriving DecidableEq, Repr

/-- A write to a managed page that its stack holds (R348, R349). -/
structure HeldWrite where
  dom    : Nat
  entry  : Nat
  page   : Nat
  pa     : Nat
  va     : Nat
  data   : List (Byte × Bool)
  mirror : Bool             -- held under R349 until the snapshot in progress is complete
  pkt    : Option Packet
  deriving DecidableEq, Repr

/-- A mirrored write that waits to be sent: entry, snapshot it belongs to, byte offset within the entry, data (R349). -/
structure MirrorWrite where
  entry : Nat
  k     : Nat
  off   : Nat
  pa    : Nat
  data  : List (Byte × Bool)
  pkt   : Option Packet
  deriving DecidableEq, Repr

/-- The snapshot work of a domain (R346 to R353). `phase`: 0 none in progress, 1 draining, 2 copying, 3 the STATE = 01h
record is sent. -/
structure SnapDom where
  phase   : Nat := 0
  k       : Nat := 0
  point   : Nat := 0          -- points passed since RUN
  taken   : Bool := false     -- a point has been taken since RUN
  bad     : Bool := false     -- the previous snapshot failed or was abandoned
  atCtc   : Nat := 0
  atPtp   : Nat := 0
  atDcc   : Nat := 0
  record  : Nat := 0
  mirrors : List MirrorWrite := []
  out     : Nat := 0          -- requests sent and not acknowledged
  alert   : Bool := false
  deriving DecidableEq, Repr

/-- Snapshot state: registry, work by domain, held writes. -/
structure Snap where
  reg   : SMap RegEntry := []
  doms  : SMap SnapDom := []
  held  : List HeldWrite := []
  deriving DecidableEq, Repr

/-- A monitor slot (R169 to R172): tensor in the form of 0D60h.02, saturations, history newest first, current-step amax
as FP32 bits and the strand it is bound to. -/
structure Monitor where
  tensor : Nat := 0xFFFFFFFF
  sat    : Nat := 0
  hist   : List Nat := List.replicate 16 0
  now    : Nat := 0
  strand : Option Nat := none
  deriving DecidableEq, Repr

/-- The state of the device. -/
structure State where
  /-- The commands that wait, first in, first out. -/
  pending : List Instr
  /-- The CTC (R205). -/
  ctc     : Nat
  /-- Nanoseconds of REFCLK-derived time, and the fraction of one that ticks have left, in units of 1/f(MHz) ns × 1000. -/
  ns      : Nat
  nsFrac  : Nat
  /-- PTP time in nanoseconds (R454). -/
  ptp     : Nat
  /-- Memory over device physical addresses (R285): unlisted bytes read zero. -/
  mem     : List Host.Cell
  /-- Stored poison, by the base address of its granule (R298). -/
  poison  : SMap Bool
  /-- Wrong bytes of stored codewords, by base address (of a memory outside the physical map, by `bufferKey`): byte of the
  codeword, check bytes after the data, and what it is off by (R295). -/
  errs    : SMap (List (Nat × Nat))
  /-- Parameters of the dictionary whose value is stored, by index × 256 + sub; unlisted ones read their default. -/
  par     : SMap Nat
  /-- Values of numeric.nan_policy and numeric.grad_floor in force, and the tick at which the written ones take effect. -/
  nanPol  : Nat
  nanPolAt : Option Nat
  floor   : Nat
  floorAt : Option Nat
  mons    : SMap Monitor
  elands  : SMap Eland
  engines : SMap Engine
  tiles   : SMap TileSt
  cells   : SMap Cell
  chams   : SMap Cham
  doms    : SMap Domain
  /-- Link phase tables (R107), by 2 × stop + (0 clockwise, 1 counter-clockwise): the 32-bit table. -/
  phases  : SMap Nat
  beats   : List Beat
  injs    : SMap (List InjRun)
  takes   : SMap TakeUnit
  nextId  : Nat
  incrs   : List Incr
  raised  : List Raised
  /-- The log (R229): by SEQ mod 64, whether a record is unacknowledged (0: it is not; 1: kind 00h; 2: kind 01h), and its
  SEQ. -/
  unacked : SMap Nat
  logSeq  : SMap Nat
  xfers   : List Xfer
  packets : List Packet
  arrivals : List Arrival
  /-- Lines that port F has written in this tick, by core unit and line, with what they held before (R113). -/
  fLines  : List (Nat × Nat × PLine)
  /-- Token counters from which this tick has subtracted, by core unit × 64 + counter: the count with this tick's increments
  and without its subtractions, and what was subtracted (R134). -/
  tokSubs : SMap (Nat × Nat)
  hbmq    : SMap (List HbmReq)
  red     : List RedFlit
  /-- Consecutive failed attempts on a link, by 4 × position + direction (R241). -/
  linkFails : SMap Nat
  redSent : SMap Nat                 -- rounds begun, by tree × 64 + member position
  lanes   : SMap (List Entry)        -- by strand × 64 + position, bottom first
  depth   : SMap (List Nat)          -- LINES of the entries of a lane as its core counts them, top first
  stashQ  : List StashMsg
  stashOrd : Nat
  streams : SMap Stream
  dmas    : SMap Dma
  halts   : SMap (Option Halt)
  haltSeq : Nat
  haltWait : List Halt               -- requesters that wait for a halt slot, oldest first (R271)
  buckets : SMap Bucket
  tlb     : List TlbEntry
  cache   : List Nat                 -- cached sectors of the stack caches, most recently used first
  scrubAt : SMap Nat
  thrAt   : SMap (Nat × Nat)         -- by stack: nanoseconds at a throttle level above 0 up to its last report, and its time
  /-- Count of values drawn where the manual leaves one open: the model's own field. -/
  draws   : Nat
  clk     : Clk
  boot    : Boot
  sec     : Sec
  spp     : Spp
  gauge   : Gauge
  ports   : Ports
  herd    : Herd
  snap    : Snap
  /-- Frames and messages the device has sent, newest first. -/
  outbox  : List Out
  /-- The SPP status of the last dictionary write command: 00h applied. -/
  wstatus : Nat
  deriving DecidableEq, Repr

/-- The state right after reset. -/
def State.reset : State where
  pending := []
  ctc := 0
  ns := 0
  nsFrac := 0
  ptp := 0
  mem := []
  poison := []
  errs := []
  par := []
  nanPol := 0
  nanPolAt := none
  floor := 5
  floorAt := none
  mons := []
  elands := []
  engines := []
  tiles := []
  cells := []
  chams := []
  doms := []
  phases := []
  beats := []
  injs := []
  takes := []
  nextId := 0
  incrs := []
  raised := []
  unacked := []
  logSeq := []
  xfers := []
  packets := []
  arrivals := []
  fLines := []
  tokSubs := []
  hbmq := []
  red := []
  linkFails := []
  redSent := []
  lanes := []
  depth := []
  stashQ := []
  stashOrd := 0
  streams := []
  dmas := []
  halts := []
  haltSeq := 0
  haltWait := []
  buckets := []
  tlb := []
  cache := []
  scrubAt := []
  thrAt := []
  draws := 0
  clk := {}
  boot := {}
  sec := {}
  spp := {}
  gauge := {}
  ports := {}
  herd := {}
  snap := {}
  outbox := []
  wstatus := 0

end Sys2Proof.Machine
end

