-- ==== Sys2Proof/Machine/Ops.lean ====
section
/-!
DEFINITION. The shared operations on the state: parameters and counters, units, memory with poison, time, faults,
numeric counters and messages. Every meaning is written over these.
-/
namespace Sys2Proof.Machine

/-! ### Parameters -/

/-- The stored or default value of a parameter. -/
def getP (s : State) (key : Nat) : Nat := SMap.get (paramDefault key) s.par key

/-- Store a parameter's value. -/
def setP (s : State) (key v : Nat) : State := { s with par := SMap.set (paramDefault key) s.par key v }

/-- The largest value of a counter: all ones of its wire size (R82, R232, R258, R282, R309, R338, R357, R459). -/
def counterMax (key : Nat) : Nat :=
  match paramRow key with
  | some r => 2 ^ (8 * r.len) - 1
  | none => 2 ^ 64 - 1

/-- Add to a counter, which stops at its largest value. -/
def incP (s : State) (key n : Nat) : State := setP s key (min (getP s key + n) (counterMax key))

/-- The key of index + offset, sub. -/
def pk (index sub : Nat) : Nat := index * 256 + sub

/-! ### Units -/

def getE (s : State) (c : Nat) : Eland := SMap.get {} s.elands c
def setE (s : State) (c : Nat) (e : Eland) : State := { s with elands := SMap.set {} s.elands c e }
def getN (e : Eland) : Needle → NeedleSt
  | .fore => e.fore
  | .back => e.back
def setN (e : Eland) (n : Needle) (x : NeedleSt) : Eland :=
  match n with
  | .fore => { e with fore := x }
  | .back => { e with back := x }
/-- Update one needle of a core. -/
def updN (s : State) (c : Nat) (n : Needle) (f : NeedleSt → NeedleSt) : State :=
  let e := getE s c
  setE s c (setN e n (f (getN e n)))
/-- The domain a needle runs in (R204). -/
def domN (e : Eland) : Needle → Option Nat
  | .fore => e.domF
  | .back => e.domB

def getC (s : State) (c : Nat) : Cham := SMap.get {} s.chams c
def setC (s : State) (c : Nat) (x : Cham) : State := { s with chams := SMap.set {} s.chams c x }
def getD (s : State) (d : Nat) : Domain := SMap.get {} s.doms d
def setD (s : State) (d : Nat) (x : Domain) : State := { s with doms := SMap.set {} s.doms d x }
def getEng (s : State) (e : Nat) : Engine := SMap.get {} s.engines e
def setEng (s : State) (e : Nat) (x : Engine) : State := { s with engines := SMap.set {} s.engines e x }
def getPart (x : Engine) (h : Nat) : EngPart := if h == 0 then x.p0 else x.p1
def setPart (x : Engine) (h : Nat) (p : EngPart) : Engine := if h == 0 then { x with p0 := p } else { x with p1 := p }
def getTile (s : State) (k : Nat) : TileSt := SMap.get {} s.tiles k
def setTile (s : State) (k : Nat) (t : TileSt) : State := { s with tiles := SMap.set {} s.tiles k t }
def getCell (s : State) (k : Nat) : Cell := SMap.get {} s.cells k
def setCell (s : State) (k : Nat) (c : Cell) : State := { s with cells := SMap.set {} s.cells k c }
def getStream (s : State) (x : Nat) : Stream := SMap.get {} s.streams x
def setStream (s : State) (x : Nat) (v : Stream) : State := { s with streams := SMap.set {} s.streams x v }
def getDma (s : State) (ch : Nat) : Dma := SMap.get {} s.dmas ch
def setDma (s : State) (ch : Nat) (v : Dma) : State := { s with dmas := SMap.set {} s.dmas ch v }
def getInj (s : State) (st : Nat) : List InjRun := SMap.get [] s.injs st
def setInj (s : State) (st : Nat) (v : List InjRun) : State := { s with injs := SMap.set [] s.injs st v }
def Dir.bit : Dir → Nat
  | .cw => 0
  | .ccw => 1
def getTake (s : State) (d : Dir) (st : Nat) : TakeUnit := SMap.get {} s.takes (2 * st + Dir.bit d)
def setTake (s : State) (d : Dir) (st : Nat) (v : TakeUnit) : State :=
  { s with takes := SMap.set {} s.takes (2 * st + Dir.bit d) v }
def getMon (s : State) (m : Nat) : Monitor := SMap.get {} s.mons m
def setMon (s : State) (m : Nat) (v : Monitor) : State := { s with mons := SMap.set {} s.mons m v }

/-- Whether a core is fenced: its bit of 0201h (R202, R255). -/
def fenced (s : State) (u : Nat) : Bool := bit (getP s (pk 0x0201 0)) (coreBit u)

/-- The token counters of a core unit. -/
def getTok (s : State) (u t : Nat) : Nat :=
  if u < 0x40 then SMap.get 0 (getE s u).tokens t else SMap.get 0 (getC s (u - 0x40)).tokens t
def setTok (s : State) (u t v : Nat) : State :=
  if u < 0x40 then
    let e := getE s u
    setE s u { e with tokens := SMap.set 0 e.tokens t v }
  else
    let c := getC s (u - 0x40)
    setC s (u - 0x40) { c with tokens := SMap.set 0 c.tokens t v }
/-- Add to a token counter, which stops at FFFFh; what this tick has subtracted from it comes after (R134). -/
def addTok (s : State) (u t n : Nat) : State :=
  match s.tokSubs.find? fun x => x.1 == u * 64 + t with
  | some (_, v, k) =>
    let v := min (v + n) 0xFFFF
    setTok { s with tokSubs := SMap.set (0, 0) s.tokSubs (u * 64 + t) (v, k) } u t (v - k)
  | none => setTok s u t (min (getTok s u t + n) 0xFFFF)
/-- Subtract from a token counter; 0 where it holds less (R134, DEDUCED). -/
def subTok (s : State) (u t n : Nat) : State :=
  if n == 0 then s else
  let (v, k) := match s.tokSubs.find? fun x => x.1 == u * 64 + t with
    | some y => y.2
    | none => (getTok s u t, 0)
  setTok { s with tokSubs := SMap.set (0, 0) s.tokSubs (u * 64 + t) (v, k + n) } u t (v - (k + n))

/-- Lines of core memory of a core unit (R112, R175). -/
def coreLines (u : Nat) : Nat := if u < 0x40 then 0x30000 else 0x20000

/-- PRESENT of an Eland line (R116). -/
def present (s : State) (u line : Nat) : Bool :=
  if u < 0x40 then !(SMap.get false (getE s u).absent line) else true
/-- Set or clear a PRESENT bit; Chamois memory has none (R116, R175). -/
def setPresent (s : State) (u line : Nat) (v : Bool) : State :=
  if u < 0x40 then
    let e := getE s u
    setE s u { e with absent := SMap.set false e.absent line (!v) }
  else s

/-! ### Physical memory (R285, R298, R299) -/

/-- First address after the HBM range. -/
def hbmEnd : Nat := 0x007800000000
/-- The core-memory window of a position. -/
def coreBase (p : Nat) : Nat := 0x010000000000 + p * 0x01000000
/-- The accumulator window of engine m of En: index 4n + m. -/
def accBase (e : Nat) : Nat := 0x010100000000 + (e / 4) * 0x01000000 + (e % 4) * 0x00400000
/-- The page buffer of a stack. -/
def pageBuf (st : Nat) : Nat := 0x010200000000 + st * 0x08000000
/-- The staging SRAM of an I/O die. -/
def stagingBase (i : Nat) : Nat := 0x010300000000 + i * 0x04000000

/-- The regions of the physical map. -/
inductive Region where
  | hbm
  | core (p off : Nat)
  | acc (e off : Nat)
  | page (st off : Nat)
  | staging (i off : Nat)
  | reserved
  deriving DecidableEq, Repr

/-- Where a physical address lies (R285); an unbacked part of a window is reserved. -/
def regionOf (s : State) (pa : Nat) : Region :=
  if pa < hbmEnd then .hbm
  else if pa < 0x010000000000 then .reserved
  else if pa < 0x010040000000 then
    let p := (pa - 0x010000000000) / 0x01000000
    let off := pa % 0x01000000
    match unitAt p with
    | some u => if off < 64 * coreLines u then .core p off else .reserved
    | none => .reserved
  else if pa < 0x010100000000 then .reserved
  else if pa < 0x010124000000 then
    let n := (pa - 0x010100000000) / 0x01000000
    let m := pa % 0x01000000 / 0x00400000
    let off := pa % 0x00400000
    if off < 0x240080 then .acc (4 * n + m) off else .reserved
  else if pa < 0x010200000000 then .reserved
  else if pa < 0x010240000000 then
    let st := (pa - 0x010200000000) / 0x08000000
    let off := pa % 0x08000000
    if off < getP s (pk 0x0803 (st + 1)) * 0x100000 then .page st off else .reserved
  else if pa < 0x010300000000 then .reserved
  else if pa < 0x010308000000 then .staging ((pa - 0x010300000000) / 0x04000000) (pa % 0x04000000)
  else .reserved

/-- The poison granule of an address: HBM sector, core or accumulator word, SRAM line (R298). -/
def granule (pa : Nat) : Nat :=
  if pa < hbmEnd then 128 else if pa < 0x010200000000 then 4 else 64

/-- Memory is in its canonical form: addresses strictly rising, no byte listed that equals what an unlisted address
reads as, which is zero (R308). -/
def Memory.wf (m : List Host.Cell) : Bool := SMap.wf 0 m

/-- The byte at a physical address. -/
def readByte (s : State) (pa : Nat) : Byte := SMap.get 0 s.mem pa
/-- The poison mark that covers a physical address. -/
def poisoned (s : State) (pa : Nat) : Bool := SMap.get false s.poison (pa / granule pa * granule pa)

/-- Store bytes at consecutive addresses. -/
def storeBytes : List Host.Cell → Nat → List Byte → List Host.Cell
  | m, _, [] => m
  | m, pa, b :: r => storeBytes (SMap.set 0 m pa b) (pa + 1) r

/-- The poison marks after bytes with marks are written from an address on: a granule that takes a poisoned byte is
poisoned, one covered whole by clean bytes is clean, another keeps its mark (R299). -/
def markPoison (pz : SMap Bool) (pa : Nat) (bs : List Bool) : SMap Bool :=
  let g := granule pa
  let lo := pa / g
  let hi := (pa + bs.length - 1) / g
  if bs.isEmpty then pz else
  (List.range (hi + 1 - lo)).foldl (fun m i =>
    let b := (lo + i) * g
    let from_ := max b pa
    let to_ := min (b + g) (pa + bs.length)
    let any := ((bs.drop (from_ - pa)).take (to_ - from_)).any id
    let v := any || (decide (to_ - from_ < g) && SMap.get false m b)
    SMap.set false m b v) pz

/-- Data bytes of a codeword: an HBM sector or an SRAM line (R295). -/
def codeSize (pa : Nat) : Nat := if pa < hbmEnd then 128 else 64

/-- The wrong bytes that stay after `n` bytes from an address on are written: a codeword covered whole is encoded anew, of
another those bytes are right (R295). -/
def dropErrs (errs : SMap (List (Nat × Nat))) (pa n : Nat) : SMap (List (Nat × Nat)) :=
  if errs.isEmpty || n == 0 then errs else
  let g := codeSize pa
  (List.range ((pa + n - 1) / g + 1 - pa / g)).foldl (fun m i =>
    let base := (pa / g + i) * g
    let whole := decide (pa ≤ base) && decide (base + g ≤ pa + n)
    SMap.upd [] m base fun l => if whole then [] else l.filter fun e => !(decide (pa ≤ base + e.1) && decide (base + e.1 < min (pa + n) (base + g)))) errs

/-- Write bytes with poison marks at a physical address. -/
def writeP (s : State) (pa : Nat) (bs : List (Byte × Bool)) : State :=
  { s with mem := storeBytes s.mem pa (bs.map (·.1)), poison := markPoison s.poison pa (bs.map (·.2))
           errs := dropErrs s.errs pa bs.length }

/-- Read bytes with poison marks. -/
def readP (s : State) (pa n : Nat) : List (Byte × Bool) :=
  (List.range n).map fun i => (readByte s (pa + i), poisoned s (pa + i))

/-- The bytes of a line. -/
def lineBytes (l : Line) : List Byte := leBytes 64 l.toNat
/-- A line from its bytes. -/
def lineOf (bs : List Byte) : Line := BitVec.ofNat 512 (leNat bs)

/-- A line and its 16 word marks, from bytes with marks. -/
def plineOf (bs : List (Byte × Bool)) : PLine :=
  (lineOf (bs.map (·.1)),
    (List.range 16).foldl (fun a w => if ((bs.drop (4 * w)).take 4).any (·.2) then a + 2 ^ w else a) 0)
/-- A byte of an image held as lines. -/
def linesRd (ls : List PLine) : Nat → Byte := fun i => BitVec.ofNat 8 ((ls.getD (i / 64) (0, 0)).1.toNat >>> (8 * (i % 64)))
/-- Its poison mark. -/
def linesPz (ls : List PLine) : Nat → Bool := fun i => bit (ls.getD (i / 64) (0, 0)).2 (i % 64 / 4)
/-- The bytes with marks of a line. -/
def plineBytes (l : PLine) : List (Byte × Bool) :=
  (List.range 64).map fun i => (BitVec.ofNat 8 (l.1.toNat >>> (8 * i)), bit l.2 (i / 4))

/-- A line of memory that keeps one mark per line: a poisoned word poisons all of it (R298, R299). -/
def oneMark (l : PLine) : PLine := (l.1, if l.2 == 0 then 0 else 0xFFFF)

/-- Read a line at a physical address. -/
def readLine (s : State) (pa : Nat) : PLine := plineOf (readP s pa 64)
/-- Write a line at a physical address. -/
def writeLine (s : State) (pa : Nat) (l : PLine) : State := writeP s pa (plineBytes l)

/-- The physical address of a byte of a core unit's memory. -/
def corePa (u byte : Nat) : Nat := coreBase (posOf u) + byte
/-- Line n of a core's memory. -/
def coreLine (s : State) (u n : Nat) : PLine := readLine s (corePa u (64 * n))
/-- Write line n of a core's memory. -/
def setCoreLine (s : State) (u n : Nat) (l : PLine) : State := writeLine s (corePa u (64 * n)) l
/-- A byte of core memory from a line on, as the decoders of formats read it. -/
def coreRd (s : State) (u line : Nat) : Nat → Byte := fun i => readByte s (corePa u (64 * line + i))
/-- Its poison. -/
def corePz (s : State) (u line : Nat) : Nat → Bool := fun i => poisoned s (corePa u (64 * line + i))
/-- Lines of core memory from one on. -/
def coreLinesFrom (s : State) (u line n : Nat) : List PLine := (List.range n).map fun i => coreLine s u (line + i)
/-- A line as a port E access of this tick reads it: what port F writes in the same tick it does not see (R113). -/
def lineE (s : State) (u n : Nat) : PLine :=
  match s.fLines.find? fun x => x.1 == u && x.2.1 == n with
  | some x => x.2.2
  | none => coreLine s u n
/-- Lines as port E reads them. -/
def linesE (s : State) (u line n : Nat) : List PLine := (List.range n).map fun i => lineE s u (line + i)
/-- Whether port F has written a line in this tick. -/
def writtenF (s : State) (u n : Nat) : Bool := s.fLines.any fun x => x.1 == u && x.2.1 == n
/-- Write a line through port F: what it held before stays visible to port E in this tick, and what port E writes in this
tick does not replace it (R113). -/
def portF (s : State) (u n : Nat) (l : PLine) : State :=
  setCoreLine { s with fLines := if writtenF s u n then s.fLines else s.fLines ++ [(u, n, coreLine s u n)] } u n l
/-- Write lines of core memory. -/
def setCoreLines (s : State) (u line : Nat) (ls : List PLine) : State :=
  ((List.range ls.length).zip ls).foldl (fun s x => setCoreLine s u (line + x.1) x.2) s
/-- The window address of the first poisoned word of lines, in order, as port E reads them (R301). -/
def firstPoison (s : State) (u line n : Nat) : Option Nat :=
  ((List.range (16 * n)).find? fun w => bit (lineE s u (line + w / 16)).2 (w % 16)).map fun w => corePa u (64 * line + 4 * w)

/-- An instruction's number from its bytes in core memory (R6, R118). -/
def fetchWord (s : State) (u size idx : Nat) : Nat :=
  leNat ((List.range size).map fun i => readByte s (corePa u (size * idx + i)))
/-- The first poisoned word that covers the instruction (R121, R175). -/
def fetchPoison (s : State) (u size idx : Nat) : Option Nat :=
  ((List.range (size / 4)).find? fun w => poisoned s (corePa u (size * idx + 4 * w))).map
    fun w => corePa u (size * idx + 4 * w)

/-- An instruction as a fetch finds it (R121). -/
def fetched (s : State) (u size idx : Nat) : Fetched := ⟨fetchWord s u size idx, fetchPoison s u size idx⟩

/-! ### Time (R205, R206) -/

/-- A domain is running: RUNNING or PAGE_HALT (R217). -/
def DState.runs : DState → Bool
  | .running => true
  | .pageHalt => true
  | _ => false

/-- What `k` ticks that last `t` ns do to a domain whose slot 0 has come: the DCC advances but for a stall, whose ticks and
time are counted (R206, R208, R211). -/
def countTicks (k t : Nat) (d : Domain) : Domain :=
  let room := if d.stalled then 0 else
    match d.freezeAt with
    | some f => min k (f - d.dcc)
    | none => k
  let held := decide (room < k)
  let begins := held && !d.stalled
  { d with
    dcc := d.dcc + room
    stallTicks := d.stallTicks + (k - room)
    stalled := d.stalled || held
    stalls := if begins then min (d.stalls + 1) 0xFFFFFFFF else d.stalls
    stallCtc := if begins then d.startCtc + d.dcc + room + d.stallTicks else d.stallCtc
    stallNs := if held && d.st == .running then (if begins then 0 else d.stallNs) + t * (k - room) / max 1 k
      else d.stallNs }

/-- Where the domain freezes next, by the requests that have reached the root: at the smallest slot asked for (R208). -/
def nextFreeze (dd : Domain) : Option Nat :=
  match (dd.reqs.filter (·.seen)).map (·.slot) with
  | [] => none
  | x :: r => some (max (r.foldl min x) dd.dcc)

/-- The domain goes on at its resume tick; a later slot's open condition freezes it again (R208). -/
def resumed (d : Domain) : Domain :=
  { d with stalled := false, freezeAt := nextFreeze d, resumeAt := none, resumeOk := [], stallNs := 0 }

/-- What `k` ticks from a CTC on do to a domain that is started or that starts at once, with the resume that falls into
them (R208). -/
def runTicks (ctc k t : Nat) (d : Domain) : Domain :=
  match d.resumeAt with
  | some r =>
    if r ≤ ctc + k then countTicks (ctc + k - r) (t * (ctc + k - r) / max 1 k) (resumed (countTicks (r - ctc) (t * (r - ctc) / max 1 k) d))
    else countTicks k t d
  | none => countTicks k t d

/-- What `k` ticks from a CTC on do to a domain: slot 0 comes at T0, and from then on it counts (R206, R207). -/
def tickDomain (ctc k t : Nat) (d : Domain) : Domain :=
  if !d.st.runs then d
  else if d.started then runTicks ctc k t d
  else if ctc + k < d.startCtc then d
  else runTicks d.startCtc (ctc + k - d.startCtc) (t * (ctc + k - d.startCtc) / max 1 k) { d with started := true }

/-- The compute frequency in force, in MHz (R369). -/
def freqMhz (s : State) : Nat := getP s (pk 0x0311 3)

/-! ### Faults (R222 to R229) -/

/-- The image offset of the instruction at byte `byte` of a core's memory, in a code section of kind `kind` at that
position (R213, R226). -/
def imageOffset (d : Domain) (kind p byte : Nat) : Nat :=
  match d.sections.find? fun x => x.kind == kind && x.pos == p && decide (64 * x.line ≤ byte) &&
      decide (byte < 64 * x.line + x.size) with
  | some x => x.off + (byte - 64 * x.line)
  | none => 0xFFFFFFFF

/-- Bits [37:6] of the image address (R226). -/
def imageHandle (d : Domain) : Nat := bits d.image 37 6

/-- A fault or error as its unit raises it now. -/
def mkRaised (s : State) (code d unit : Nat) : Raised :=
  { code := code, dom := some d, dcc := (getD s d).dcc, ctc := s.ctc, ptp := s.ptp, unit := unit,
    handle := imageHandle (getD s d) }

/-- The 80-bit TIME number of PTP nanoseconds (R411). -/
def timeOf (ns : Nat) : Nat := (ns / 1000000000) % 2 ^ 48 * 2 ^ 32 + ns % 1000000000

/-- The 512-bit record of R226. -/
def recordOf (r : Raised) (kind seq : Nat) : Nat :=
  r.dcc % 2 ^ 64 + timeOf r.ptp * 2 ^ 64 + seq * 2 ^ 144 + r.code * 2 ^ 160 + kind * 2 ^ 168 +
    (match r.dom with | some d => d | none => 8) * 2 ^ 176 + r.needle * 2 ^ 184 + r.engine * 2 ^ 186 + r.half * 2 ^ 188 +
    r.unit * 2 ^ 192 + r.offset * 2 ^ 224 + r.handle * 2 ^ 256 + r.detail0 % 2 ^ 64 * 2 ^ 320 +
    r.detail1 % 2 ^ 64 * 2 ^ 384 + r.ctc % 2 ^ 64 * 2 ^ 448

/-- Write a record to the log: place SEQ mod 64, counting the record, the SEQ and an unacknowledged record lost
(R229, R232); a domain that it names remembers its SEQ (R231). -/
def writeRecord (s : State) (r : Raised) (kind : Nat) : State :=
  let seq := getP s (pk 0x0E00 2)
  let slot := seq % 64
  let lost := decide (SMap.get 0 s.unacked slot ≠ 0)
  let s := incP s (pk 0x0E00 1) 1
  let s := setP s (pk 0x0E00 2) ((seq + 1) % 0x10000)
  let s := if lost then incP s (pk 0x0E00 5) 1 else s
  let s := setP s (pk 0x0E01 (slot + 1)) (recordOf r kind seq)
  let s := { s with unacked := SMap.set 0 s.unacked slot (kind + 1), logSeq := SMap.set 0 s.logSeq slot seq }
  match r.dom with
  | some d => setD s d { getD s d with faultSeq := seq }
  | none => s

/-- A domain in which a fault can be raised (R223). -/
def DState.faultable : DState → Bool
  | .loading => true
  | .running => true
  | .pageHalt => true
  | _ => false

/-- Raise a fault: it waits for the FAULT message; of a domain in another state it writes no record and counts in
0E10h.04 (R223). -/
def raise (s : State) (r : Raised) : State :=
  match r.dom with
  | some d => if (getD s d).st.faultable then { s with raised := s.raised ++ [r] } else incP s (pk 0x0E10 4) 1
  | none => writeRecord s r 0

/-- A domain whose transfers no longer write core memory (R224). -/
def stopped (s : State) (d : Nat) : Bool :=
  match (getD s d).st with
  | .faulted => true
  | .aborted => true
  | .empty => true
  | _ => false

/-- A domain with a fault, recorded or still on its way to the root: its engines and its Round beats stop in the cycle of
the fault (R97, R108). -/
def failing (s : State) (d : Nat) : Bool := stopped s d || s.raised.any fun r => r.dom == some d

/-- A domain whose units stand still: it is stalled or has a fault (R97, R108, R210). -/
def frozen (s : State) (d : Nat) : Bool := (getD s d).stalled || failing s d

/-- Log an error, which halts nothing (R222). -/
def logError (s : State) (r : Raised) (counter : Nat) : State := incP (writeRecord s r 1) counter 1

/-! ### Numeric counters (R58, R73, R82, R169 to R171) -/

/-- Count NaN events of kind `sub` (1 in, 2 made, 3 out); the first since the last clear is recorded (R73). -/
def countNan (s : State) (sub n d unit : Nat) : State :=
  if n == 0 then s else
  let first := getP s (pk 0x0D30 1) == 0 && getP s (pk 0x0D30 2) == 0 && getP s (pk 0x0D30 3) == 0
  let s := incP s (pk 0x0D30 sub) n
  if first then
    setP (setP (setP s (pk 0x0D30 4) d) (pk 0x0D30 5) (getD s d).dcc) (pk 0x0D30 6) unit
  else s

/-- The NaN policy in force (R74). -/
def nanPolicy (s : State) : Nat :=
  match s.nanPolAt with
  | some t => if t ≤ s.ctc then getP s (pk 0x0D20 0) else s.nanPol
  | none => s.nanPol
/-- The gradient floor in force (R168). -/
def gradFloor (s : State) : Nat :=
  match s.floorAt with
  | some t => if t ≤ s.ctc then getP s (pk 0x0D10 0) else s.floor
  | none => s.floor
/-- A gradient format passes the floor (R167). -/
def floorOk (s : State) (f : Nat) : Bool := decide (gradWidth (gradFloor s) ≤ gradWidth f)

/-- The monitor slot that holds a tensor (R169). -/
def monOf (s : State) (tensor : Nat) : Option Nat :=
  (s.mons.find? fun x => x.2.tensor == tensor).map (·.1)

/-- Count saturations of a tensor's conversions, in its monitor slot or else in numeric.sat_other (R169). -/
def countSat (s : State) (tensor n : Nat) : State :=
  if n == 0 then s else
  match monOf s tensor with
  | some m => let x := getMon s m; setMon s m { x with sat := satAdd 64 x.sat n }
  | none => incP s (pk 0x0D40 7) n

/-- The larger of two FP32 magnitudes given by their bits. -/
def maxBits (a b : Nat) : Nat := max (a % 2 ^ 31) (b % 2 ^ 31)

/-- Fold source magnitudes into the current-step amax of a tensor's slot and bind it (R170, R171). NaNs, infinities and
poisoned values are not folded. -/
def foldAmax (s : State) (tensor : Nat) (strand : Option Nat) (xs : List PV) : State :=
  match monOf s tensor with
  | none => s
  | some m =>
    let ok := xs.filter fun x => !x.p && !x.v.isNaN && !x.v.isInf
    if ok.isEmpty then s else
    let x := getMon s m
    let a := ok.foldl (fun a v => maxBits a (f32Bits v.v.abs)) x.now
    setMon s m { x with now := a, strand := match x.strand with | some b => some b | none => strand }

/-- Advance the history of the slots bound to a strand (R171). -/
def advanceMons (s : State) (strand : Nat) : State :=
  { s with mons := s.mons.map fun x =>
      if x.2.strand == some strand then
        (x.1, { x.2 with hist := (x.2.now :: x.2.hist).take 16, now := 0, strand := none })
      else x }

/-- A 64-bit step of a strand: random-stream 0D51h.s, data 0C10h.s. -/
def rngStep (s : State) (strand : Nat) : Nat := getP s (pk 0x0D51 (strand + 1))
def dataStep (s : State) (strand : Nat) : Nat := getP s (pk 0x0C10 (strand + 1))

/-- The draw of an element of a conversion (R79). -/
def drawOf (s : State) (tensor strand step e : Nat) : Nat :=
  srDraw (getP s (pk 0x0D50 1)) (getP s (pk 0x0D50 2)) tensor strand step e

/-- A free value of `w` bits: the next draw. -/
def freeBits (s : State) (w : Nat) : Nat × State :=
  (Config.freeValue s.draws % 2 ^ w, { s with draws := s.draws + 1 })

/-! ### Results of Chamois instructions (R177) -/

/-- Put a result into its register; s0 and p0 discard it (R176). -/
def applyCWrite (c : Cham) : CWrite → Cham
  | .s r x => if r == 0 then c else { c with s := SMap.set {} c.s r x }
  | .v r m x =>
    let old := SMap.get {} c.v r
    let wide := (List.range 128).foldl (fun (a : BitVec 4096) i =>
      if m.toNat.testBit i then a ||| BitVec.ofNat 4096 (0xFFFFFFFF <<< (32 * i)) else a) 0
    { c with v := SMap.set {} c.v r ⟨(old.v &&& ~~~wide) ||| (x.v &&& wide), (old.p &&& ~~~m) ||| (x.p &&& m)⟩ }
  | .p r m x =>
    let old := SMap.get {} c.p r
    if r == 0 then c
    else { c with p := SMap.set {} c.p r ⟨(old.v &&& ~~~m) ||| (x.v &&& m), (old.p &&& ~~~m) ||| (x.p &&& m)⟩ }

/-- Insert by time, after entries of the same time: order of visibility, then of issue. -/
def insByTime {α : Type} (x : Nat × α) : List (Nat × α) → List (Nat × α)
  | [] => [x]
  | y :: r => if x.1 < y.1 then x :: y :: r else y :: insByTime x r

/-- The results of a core that are visible at a DCC reach their registers: by time, then by issue (R177). -/
def settleRegs (dcc : Nat) (c : Cham) : Cham :=
  let due := (c.inFlight.filter fun w => decide (w.1 ≤ dcc)).foldl (fun l w => insByTime w l) []
  due.foldl (fun c w => applyCWrite c w.2) { c with inFlight := c.inFlight.filter fun w => !decide (w.1 ≤ dcc) }

/-! ### Operation tags and messages -/

/-- The tags held now, by mesh units, pushes and decoded instructions. -/
def tagsHeld (s : State) : List Nat :=
  s.xfers.map (·.tag) ++
    (s.elands.flatMap fun x => (x.2.fore.decoded ++ x.2.back.decoded).filterMap (·.tag)) ++
    (s.chams.flatMap fun x => x.2.decoded.filterMap (·.tag))

/-- Tags a core unit holds for a domain (R111, R204, R270). -/
def tagsOfCore (s : State) (u d : Nat) : Nat :=
  (s.xfers.filter fun x => x.unit == u && x.dom == d).length +
    (if u < 0x40 then
      let e := getE s u
      let f (n : Needle) := if domN e n == some d then ((getN e n).decoded.filterMap (·.tag)).length else 0
      f .fore + f .back
    else ((getC s (u - 0x40)).decoded.filterMap (·.tag)).length)

/-- The quota of a core unit for a domain: half of op.quota on a shared core (R270). -/
def quotaOf (s : State) (u : Nat) : Nat :=
  let q := getP s (pk 0x0701 (posOf u + 1))
  if decide (u < 0x40) && (getE s u).shared then q / 2 else q

/-- The lowest tag that nothing holds. -/
def freeTag (s : State) : Nat :=
  let held := tagsHeld s
  ((List.range 4096).find? fun t => !held.contains t).getD 4095

/-- Reserve a tag for a core, if its quota allows (R111). -/
def reserveTag (s : State) (u d : Nat) : Option Nat :=
  if tagsOfCore s u d < quotaOf s u then some (freeTag s) else none

/-- The messages with one more increment: it merges into the sender's last one to the target when that is for the same
counter, with the sum limited to FFFFh (R249, R254). -/
def mergeIncr (m : Incr) : List Incr → List Incr
  | [] => [m]
  | x :: r =>
    if x.src == m.src && x.pos == m.pos && !(r.any fun y => y.src == m.src && y.pos == m.pos) then
      (if x.tok == m.tok && x.dom == m.dom then { x with amt := min (x.amt + m.amt) 0xFFFF } :: r else x :: (r ++ [m]))
    else x :: mergeIncr m r

/-- Send an INCR over the sync network, from a position for a domain (R249, R250). -/
def sendIncr (s : State) (src dom p t n : Nat) : State := { s with incrs := mergeIncr ⟨p, t, n, src, dom⟩ s.incrs }

/-- A fresh identifier. -/
def freshId (s : State) : Nat × State := (s.nextId, { s with nextId := s.nextId + 1 })

/-- Whether a position is in a domain's core set (R135, R203). -/
def inCoreSet (s : State) (d p : Nat) : Bool :=
  match unitAt p with
  | some u => bit (getD s d).cores (coreBit u)
  | none => false

/-- Whether the domain owns the strand (R154). -/
def ownsStrand (s : State) (d strand : Nat) : Bool := getP s (pk 0x0853 (strand + 1)) == d

end Sys2Proof.Machine
end

