-- ==== Sys2Proof/Machine/Operands.lean ====
section
/-!
DEFINITION. The fields of instruction words: Eland (R126 to R151), Chamois (R182, R183) and DMA (R277, R278), as numbers,
and the opcodes assigned.
-/
namespace Sys2Proof.Machine

/-- Opcode field of every instruction word. -/
def opcodeOf (w : Nat) : Nat := w % 256

/-- The assigned Eland opcodes (R127). -/
def elandOps : List Nat :=
  [0x00, 0x01, 0x02, 0x03, 0x04, 0x05, 0x06, 0x07, 0x08, 0x09, 0x10, 0x14, 0x18, 0x19, 0x1C, 0x1D, 0x20, 0x21, 0x24, 0x25,
    0x28, 0x29, 0x2C, 0x30, 0x31]

/-- The assigned Chamois opcodes (R183). -/
def chamoisOps : List Nat :=
  [0x00, 0x01, 0x02, 0x05, 0x08, 0x09] ++ (List.range 16).map (0x10 + ·) ++ (List.range 16).map (0x20 + ·) ++
    (List.range 15).map (0x30 + ·) ++ [0x40, 0x41, 0x42, 0x43, 0x48, 0x49, 0x4A, 0x4B, 0x50, 0x51, 0x52, 0x58, 0x59] ++
    [0x60, 0x61, 0x62, 0x63, 0x64, 0x68, 0x69]

/-- The assigned DMA opcodes (R277). -/
def dmaOps : List Nat := [0x00, 0x01, 0x02, 0x03, 0x04, 0x05, 0x06, 0x07, 0x10, 0x11]

/-! ### Eland header and sequencing (R126, R129, R133) -/

def fBsel (w : Nat) : Nat := bits w 17 16
def fGap (w : Nat) : Nat := bits w 15 8

def pickStreamEn (w : Nat) : Bool := bit w 56
def pickStream (w : Nat) : Nat := bits w 55 41
def pickTokenEn (w : Nat) : Bool := bit w 40
def pickCount (w : Nat) : Nat := bits w 39 24
def pickToken (w : Nat) : Nat := bits w 23 18
/-- The condition a PICK carries (R129). -/
def pickCondOf (w : Nat) : PickCond :=
  { tokEn := pickTokenEn w, tok := pickToken w, count := pickCount w, strEn := pickStreamEn w, stream := pickStream w }

def loopStep3 (w : Nat) : Nat := bits w 88 73
def loopStep2 (w : Nat) : Nat := bits w 72 57
def loopStep1 (w : Nat) : Nat := bits w 56 41
def loopCount (w : Nat) : Nat := bits w 40 25
def loopBody (w : Nat) : Nat := bits w 24 18

def partTiles (w : Nat) : Nat := bits w 33 18
def stepData (w : Nat) : Bool := bit w 22
def stepRng (w : Nat) : Bool := bit w 21
def stepStrand (w : Nat) : Nat := bits w 20 18
def setbValue (w : Nat) : Nat := bits w 35 18
def tposCol (w : Nat) : Nat := bits w 89 66
def tposRow (w : Nat) : Nat := bits w 65 42
def tposWidth (w : Nat) : Nat := bits w 41 18
def syncCount (w : Nat) : Nat := bits w 39 24
def syncToken (w : Nat) : Nat := bits w 23 18
def signalIncr (w : Nat) : Nat := bits w 45 30
def signalToken (w : Nat) : Nat := bits w 29 24
def signalPos (w : Nat) : Nat := 8 * bits w 23 21 + bits w 20 18

/-! ### MMA and ACCRD (R136, R138) -/

def mmaStride (w : Nat) : Nat := bits w 106 91
def mmaALine (w : Nat) : Nat := bits w 90 73
def mmaN1 (w : Nat) : Nat := bits w 72 67
def mmaM1 (w : Nat) : Nat := bits w 66 61
def mmaK (w : Nat) : Nat := bits w 60 43
def mmaDir (w : Nat) : Dir := Dir.ofBit (bits w 42 42)
def mmaGradB (w : Nat) : Bool := bit w 41
def mmaGradA (w : Nat) : Bool := bit w 40
def mmaFmtB (w : Nat) : Nat := bits w 39 35
def mmaFmtA (w : Nat) : Nat := bits w 34 30
def mmaClose (w : Nat) : Bool := bit w 29
def mmaCont (w : Nat) : Bool := bit w 28
def mmaTile (w : Nat) : Nat := bits w 27 24
def mmaHalf (w : Nat) : Nat := bits w 23 22
def mmaEng (w : Nat) : Nat := bits w 21 18

def accOperand (w : Nat) : Nat := bits w 125 122
def accLayer (w : Nat) : Nat := bits w 121 110
def accAux (w : Nat) : Nat := bits w 109 92
def accDst (w : Nat) : Nat := bits w 91 74
def accTensor (w : Nat) : Nat := bits w 73 54
def accStrand (w : Nat) : Nat := bits w 53 51
def accFmtS (w : Nat) : Nat := bits w 50 46
def accPushSrc (w : Nat) : Bool := bit w 45
def accPush (w : Nat) : Bool := bit w 44
def accGrad (w : Nat) : Bool := bit w 43
def accFunc (w : Nat) : Nat := bits w 42 39
def accMarks (w : Nat) : Nat := bits w 38 37
def accRmode (w : Nat) : Nat := bits w 36 35
def accFmtD (w : Nat) : Nat := bits w 34 30
def accColScale (w : Nat) : Bool := bit w 29
def accRowScale (w : Nat) : Bool := bit w 28
def accBias (w : Nat) : Bool := bit w 27
def accClose (w : Nat) : Bool := bit w 26
def accTile (w : Nat) : Nat := bits w 25 22
def accHalf (w : Nat) : Nat := bits w 21 20
def accEng (w : Nat) : Nat := bits w 19 18

/-! ### Element unit (R143 to R145) -/

def elCount (w : Nat) : Nat := bits w 100 93
def elDst (w : Nat) : Nat := bits w 92 75
def elSrc (w : Nat) : Nat := bits w 74 57
def elTensor (w : Nat) : Nat := bits w 56 37
def elGrad (w : Nat) : Bool := bit w 36
def elFunc (w : Nat) : Nat := bits w 35 32
def elMarks (w : Nat) : Nat := bits w 31 30
def elRmode (w : Nat) : Nat := bits w 29 28
def elFmtY (w : Nat) : Nat := bits w 27 23
def elFmtX (w : Nat) : Nat := bits w 22 18

def daCount (w : Nat) : Nat := bits w 123 116
def daD (w : Nat) : Nat := bits w 115 98
def daS (w : Nat) : Nat := bits w 97 80
def daG (w : Nat) : Nat := bits w 79 62
def daTensor (w : Nat) : Nat := bits w 61 42
def daGrad (w : Nat) : Bool := bit w 41
def daFunc (w : Nat) : Nat := bits w 40 37
def daMarks (w : Nat) : Nat := bits w 36 35
def daRmode (w : Nat) : Nat := bits w 34 33
def daFmtD (w : Nat) : Nat := bits w 32 28
def daFmtS (w : Nat) : Nat := bits w 27 23
def daFmtG (w : Nat) : Nat := bits w 22 18

def amCount (w : Nat) : Nat := bits w 87 80
def amDst (w : Nat) : Nat := bits w 79 62
def amSrc (w : Nat) : Nat := bits w 61 44
def amTensor (w : Nat) : Nat := bits w 43 24
def amMon (w : Nat) : Bool := bit w 23
def amFmt (w : Nat) : Nat := bits w 22 18

/-! ### Stash, Round, memory and mesh (R147, R149, R151) -/

def spCount (w : Nat) : Nat := bits w 67 60
def spLine (w : Nat) : Nat := bits w 59 42
def spFmt (w : Nat) : Nat := bits w 41 37
/-- The tag LAYER × 16 + OPERAND of an SPUSH or SPOP. -/
def spTag (w : Nat) : Nat := bits w 32 21 * 16 + bits w 36 33
def spStrand (w : Nat) : Nat := bits w 20 18

def injStride (w : Nat) : Nat := bits w 80 65
def injCount (w : Nat) : Nat := bits w 64 53
def injSrc (w : Nat) : Nat := bits w 52 35
def injHops (w : Nat) : Nat := bits w 34 29
def injDepth (w : Nat) : Nat := bits w 28 26
def injFmt (w : Nat) : Nat := bits w 25 21
def injTrans (w : Nat) : Bool := bit w 20
def injCcw (w : Nat) : Bool := bit w 19
def injCw (w : Nat) : Bool := bit w 18
def takeStride (w : Nat) : Nat := bits w 64 49
def takeDst (w : Nat) : Nat := bits w 48 31
def takeCount (w : Nat) : Nat := bits w 30 19
def takeDir (w : Nat) : Dir := Dir.ofBit (bits w 18 18)

def tlTokenEn (w : Nat) : Bool := bit w 102
def tlToken (w : Nat) : Nat := bits w 101 96
def tlLines (w : Nat) : Nat := bits w 95 78
def tlVline (w : Nat) : Nat := bits w 77 36
def tlLocal (w : Nat) : Nat := bits w 35 18
def puTokenEn (w : Nat) : Bool := bit w 84
def puToken (w : Nat) : Nat := bits w 83 78
def puLines (w : Nat) : Nat := bits w 77 60
def puRemote (w : Nat) : Nat := bits w 59 42
def puLocal (w : Nat) : Nat := bits w 41 24
def puPos (w : Nat) : Nat := 8 * bits w 23 21 + bits w 20 18
def rsLines (w : Nat) : Nat := bits w 57 40
def rsSrc (w : Nat) : Nat := bits w 39 22
def rsTree (w : Nat) : Nat := bits w 21 18

/-- The first bit above the fields of an Eland opcode; the bits from there up are reserved (R129 to R151). -/
def elandTop : Nat → Nat
  | 0x00 => 18 | 0x01 => 18 | 0x02 => 89 | 0x03 => 57 | 0x04 => 34 | 0x05 => 23 | 0x06 => 36 | 0x07 => 90
  | 0x08 => 40 | 0x09 => 46 | 0x10 => 107 | 0x14 => 126 | 0x18 => 101 | 0x19 => 124 | 0x1C => 68 | 0x1D => 68
  | 0x20 => 81 | 0x21 => 65 | 0x24 => 103 | 0x25 => 103 | 0x28 => 85 | 0x29 => 85 | 0x2C => 58 | 0x30 => 101
  | 0x31 => 88
  | _ => 128

/-- Whether the opcode has a local line-address field, so that BSEL names a base (R126). -/
def elandLocal (op : Nat) : Bool := decide (0x10 ≤ op)

/-- The reserved fields and BSEL encodings of an Eland word (R8, R126): true = a violation. -/
def elandReserved (w : Nat) : Bool :=
  let op := opcodeOf w
  decide (w >>> elandTop op ≠ 0) ||
    (if op == 0x06 then fBsel w == 0 else !elandLocal op && decide (fBsel w ≠ 0))

/-! ### Chamois fields (R182) -/

def cvS (w : Nat) : Nat := bits w 54 49
def cvPB (w : Nat) : Nat := bits w 48 46
def cvPA (w : Nat) : Nat := bits w 45 43
def cvPD (w : Nat) : Nat := bits w 42 40
def cvCond (w : Nat) : Nat := bits w 39 37
def cvAux (w : Nat) : Nat := bits w 35 32
def cvPK (w : Nat) : Bool := bit w 31
def cvPred (w : Nat) : Nat := bits w 30 28
def cvVC (w : Nat) : Nat := bits w 27 23
def cvVB (w : Nat) : Nat := bits w 22 18
def cvVA (w : Nat) : Nat := bits w 17 13
def cvVD (w : Nat) : Nat := bits w 12 8

def csImm (w : Nat) : Int := sext 38 (w >>> 26)
def csSB (w : Nat) : Nat := bits w 25 20
def csSA (w : Nat) : Nat := bits w 19 14
def csSD (w : Nat) : Nat := bits w 13 8

def cmPred (w : Nat) : Nat := bits w 39 37
def cmOff (w : Nat) : Int := sext 17 (w >>> 20)
def cmReg (w : Nat) : Nat := bits w 19 14
def cmSB (w : Nat) : Nat := bits w 13 8

def cbRK (w : Nat) : Nat := bits w 57 53
def cbMarks (w : Nat) : Nat := bits w 52 51
def cbRmode (w : Nat) : Nat := bits w 50 49
def cbSS (w : Nat) : Nat := bits w 48 43
def cbCols (w : Nat) : Bool := bit w 42
def cbIdx (w : Nat) : Nat := bits w 41 36
def cbFmt (w : Nat) : Nat := bits w 35 31
def cbOff (w : Nat) : Nat := bits w 30 19
def cbSB (w : Nat) : Nat := bits w 18 13
def cbV (w : Nat) : Nat := bits w 12 8

def cnSkip (w : Nat) : Bool := bit w 51
def cnToken (w : Nat) : Nat := bits w 50 45
def cnTokenEn (w : Nat) : Bool := bit w 44
def cnGran1 (w : Nat) : Nat := bits w 43 38
def cnCount1 (w : Nat) : Nat := bits w 37 31
def cnSL (w : Nat) : Nat := bits w 30 25
def cnSS (w : Nat) : Nat := bits w 24 19
def cnSB (w : Nat) : Nat := bits w 18 13
def cnVI (w : Nat) : Nat := bits w 12 8

def ctTree (w : Nat) : Nat := bits w 42 39
def ctPos (w : Nat) : Nat := 8 * bits w 38 36 + bits w 35 33
def ctToken (w : Nat) : Nat := bits w 32 27
def ctTokenEn (w : Nat) : Bool := bit w 26
def ctSN (w : Nat) : Nat := bits w 25 20
def ctSR (w : Nat) : Nat := bits w 19 14
def ctSL (w : Nat) : Nat := bits w 13 8

def ckToken (w : Nat) : Nat := bits w 42 37
def ckTokenEn (w : Nat) : Bool := bit w 36
def ckCount (w : Nat) : Nat := bits w 35 28
def ckSK (w : Nat) : Nat := bits w 27 22
def ckFmt (w : Nat) : Nat := bits w 21 17
def ckStrand (w : Nat) : Nat := bits w 16 14
def ckSL (w : Nat) : Nat := bits w 13 8

def ccNopCount (w : Nat) : Nat := bits w 23 8
def ccLoopBody (w : Nat) : Nat := bits w 33 24
def ccLoopCount (w : Nat) : Nat := bits w 23 8
def ccStepData (w : Nat) : Bool := bit w 12
def ccStepRng (w : Nat) : Bool := bit w 11
def ccStepStrand (w : Nat) : Nat := bits w 10 8
def ccStream (w : Nat) : Nat := bits w 46 32
def ccStreamEn (w : Nat) : Bool := bit w 31
def ccTokenEn (w : Nat) : Bool := bit w 30
def ccCount (w : Nat) : Nat := bits w 29 14
def ccToken (w : Nat) : Nat := bits w 13 8
def ccSigPos (w : Nat) : Nat := 8 * bits w 35 33 + bits w 32 30
def ccSigIncr (w : Nat) : Nat := bits w 29 14
def ccSigToken (w : Nat) : Nat := bits w 13 8

/-! ### DMA fields (R277, R278) -/

def dmLoopCount (w : Nat) : Nat := bits w 39 8
def dmWaitCount (w : Nat) : Nat := bits w 31 16
def dmWaitEvent (w : Nat) : Bool := bit w 8
def dmSigIncr (w : Nat) : Nat := bits w 47 32
def dmSigToken (w : Nat) : Nat := bits w 29 24
def dmSigId (w : Nat) : Nat := bits w 23 16
def dmSigTgt (w : Nat) : Bool := bit w 8
def dmOpidx (w : Nat) : Nat := bits w 23 16
def dmTimerRel (w : Nat) : Bool := bit w 9
def dmTimerBase (w : Nat) : Nat := bits w 8 8
def dmCrcReset (w : Nat) : Bool := bit w 10
def dmCrcInc (w : Nat) : Bool := bit w 9
def dmCrcPoly (w : Nat) : Bool := bit w 8
def dmMvCrc (w : Nat) : Bool := bit w 58
def dmMvIncD (w : Nat) : Bool := bit w 57
def dmMvIncS (w : Nat) : Bool := bit w 56
def dmMvLen (w : Nat) : Nat := bits w 55 24
def dmMvDst (w : Nat) : Nat := bits w 23 16
def dmMvSrc (w : Nat) : Nat := bits w 15 8
def dm2Crc (w : Nat) : Bool := bit w 62
def dm2IncD (w : Nat) : Bool := bit w 61
def dm2IncS (w : Nat) : Bool := bit w 60
def dm2Bytes (w : Nat) : Nat := bits w 59 40
def dm2Rows (w : Nat) : Nat := bits w 39 24

/-- Reserved fields and encodings of a DMA word (R277): true = a violation. -/
def dmaReserved (w : Nat) : Bool :=
  match opcodeOf w with
  | 0x00 | 0x01 | 0x03 => decide (w >>> 8 ≠ 0)
  | 0x02 => decide (w >>> 40 ≠ 0) || dmLoopCount w == 0
  | 0x04 => decide (w >>> 32 ≠ 0) || decide (bits w 15 9 ≠ 0) || (!dmWaitEvent w && decide (dmWaitCount w ≠ 0))
  | 0x05 => decide (w >>> 48 ≠ 0) || decide (bits w 31 30 ≠ 0) || decide (bits w 15 9 ≠ 0) ||
      (dmSigTgt w && decide (dmSigToken w ≠ 0)) || (!dmSigTgt w && decide (63 < dmSigId w))
  | 0x06 => decide (w >>> 24 ≠ 0) || decide (bits w 15 10 ≠ 0)
  | 0x07 => decide (w >>> 24 ≠ 0) || decide (bits w 15 11 ≠ 0)
  | 0x10 => decide (w >>> 59 ≠ 0)
  | 0x11 => bit w 63 || dm2Bytes w == 0 || dm2Rows w == 0
  | _ => true

end Sys2Proof.Machine
end

