-- ==== Sys2Proof/Machine/Memory.lean ====
section
/-!
DEFINITION. The memory system (R283 to R309): translation, windows, writes with the snapshot rules of managed pages,
regulators, and the events of the stacks. Every device virtual access of the model goes through `translate`.
-/
namespace Sys2Proof.Machine

/-! ### Stacks: charges and buckets (R286, R291, R304) -/

/-- The stack of a physical address (R286). -/
def stackOf (pa : Nat) : Nat := bits pa 14 12

/-- The position at which a stack attaches (R22). -/
def stackPos (st : Nat) : Nat :=
  match st with
  | 0 => chamoisPos 23 | 1 => chamoisPos 22 | 2 => chamoisPos 19 | 3 => chamoisPos 18
  | 4 => chamoisPos 6 | 5 => chamoisPos 7 | 6 => chamoisPos 10 | _ => chamoisPos 11

/-- charge(B) of a long-burst part (R291). -/
def charge (b : Nat) : Nat := 256 * ceilDiv b 256 + 160

/-- The throttle factor of a stack in quarters (R306). -/
def throttleQ (s : State) (st : Nat) : Nat := 4 - getP s (pk (0x0830 + st) 2)

/-- Bring a bucket to the present: RATE × 2.5 GB/s × factor since it was last filled, in eighths of a byte (R304). -/
def refill (s : State) (st q : Nat) : Bucket :=
  let b := SMap.get {} s.buckets (9 * st + q)
  let gain := getP s (pk (0x0820 + q) 1) * 5 * throttleQ s st * (s.ns - b.atNs)
  ⟨b.spent - gain, s.ns⟩

/-- The tokens of a partition at a stack, in eighths of a byte. -/
def tokens8 (s : State) (st q : Nat) : Nat := 8 * getP s (pk (0x0820 + q) 2) - (refill s st q).spent

/-- Deduct a charge; a bucket that holds less owes the rest. -/
def deduct (s : State) (st q c : Nat) : State :=
  let b := refill s st q
  incP { s with buckets := SMap.set {} s.buckets (9 * st + q) ⟨b.spent + 8 * c, s.ns⟩ } (pk (0x0820 + q) 4) c

/-- Write a regulator's RATE or DEPTH: its buckets keep their tokens up to the new DEPTH (R304, R305). -/
def writeRegulator (s : State) (q sub v : Nat) : State :=
  let old := 8 * getP s (pk (0x0820 + q) 2)
  let now := (List.range 8).map fun st => (refill s st q).spent
  let s := setP s (pk (0x0820 + q) sub) v
  let new := 8 * getP s (pk (0x0820 + q) 2)
  ((List.range 8).zip now).foldl (fun s x =>
    { s with buckets := SMap.set {} s.buckets (9 * x.1 + q) ⟨x.2 + new - old, s.ns⟩ }) s

/-! ### Codes (R283, R295 to R298, R302) -/

/-- The stack that holds an address of the HBM range or of a page buffer. -/
def stackAt (pa : Nat) : Nat := if pa < hbmEnd then stackOf pa else (pa - 0x010200000000) / 0x08000000 % 8

/-- An address is served by a stack: HBM and page buffers. -/
def atStack (s : State) (pa : Nat) : Bool :=
  match regionOf s pa with
  | .hbm => true
  | .page _ _ => true
  | _ => false

/-- The UNIT and the memory code of error 10h for a memory (R297, R302). -/
def memoryUnit (s : State) (pa : Nat) : Nat × Nat :=
  match regionOf s pa with
  | .hbm => (0xA0 + stackOf pa, stackOf pa)
  | .page st _ => (0xA0 + st, 8 + st)
  | .core p _ => ((unitAt p).getD 0xFFFF, 0x10 + p)
  | .acc e _ => (e / 4, 0x50 + e / 4)
  | .staging i _ => (0x80 + 2 * i, 0x80 + i)
  | .reserved => (0xFFFF, 0x89)

/-- Poison is kept in the check bytes of a codeword, and not in mark bits of its words (R298). -/
def patternKept (pa : Nat) : Bool := granule pa == codeSize pa

/-- Check bytes of a codeword (R295). -/
def codeChecks (pa : Nat) : Nat := if pa < hbmEnd then 8 else 4

/-- Data bytes with their errors: what the memory returns before its decoder. -/
def rawBytes (es : List (Nat × Nat)) (bs : List Byte) : List Byte :=
  ((List.range bs.length).zip bs).map fun x => es.foldl (fun b e => if e.1 == x.1 then b ^^^ BitVec.ofNat 8 e.2 else b) x.2

/-- A codeword as it is stored: data and check bytes with their errors (R295, R298). -/
def codeword (s : State) (base : Nat) : List Nat :=
  let data := (List.range (codeSize base)).map fun i => (readByte s (base + i)).toNat
  let all := data ++ storedCheck (codeChecks base) (patternKept base && poisoned s base) data
  (rawBytes (SMap.get [] s.errs base) (all.map (BitVec.ofNat 8))).map (·.toNat)

/-- Sectors of a stack: 60 GiB of 128 bytes (R283). -/
def stackSectors : Nat := 60 * 2 ^ 30 / 128

/-- The physical address of a stack's sector n, row groups in order (R286). -/
def sectorPa (st n : Nat) : Nat :=
  let off := 128 * n
  off / 4096 * 2 ^ 15 + st * 4096 + off % 4096

/-- Row group `g` of a stack as its core dies hold it: 15 sectors, their check bytes, 8 reserved bytes (R283). -/
def rowGroup (s : State) (st g : Nat) : List Nat :=
  let words := (List.range 15).map fun j => codeword s (sectorPa st (15 * g + j))
  words.flatMap (·.take 128) ++ words.flatMap (·.drop 128) ++ List.replicate 8 0

/-- Bytes of the value that a decoder beyond its limits may return. -/
def freeBytes (s : State) (n : Nat) : List Byte × State :=
  let (v, s) := freeBits s (8 * n)
  (leBytes n v, s)

/-- Log error 10h of a memory: its UNIT, code and address; `d` is none for reads of no domain (R297). -/
def logUncorrectable (s : State) (unit code pa : Nat) (d : Option Nat) : State :=
  logError s { code := 0x10, dom := d, dcc := (match d with | some d => (getD s d).dcc | none => 0), ctc := s.ctc, ptp := s.ptp,
               unit := unit, handle := (match d with | some d => imageHandle (getD s d) | none => 0),
               detail0 := pa, detail1 := code } (pk 0x0E10 1)

/-- Count a correction (R296). -/
def countCorrected (s : State) (base : Nat) : State :=
  if base < hbmEnd then incP (incP s (pk 0x0E10 5) 1) (pk (0x0830 + stackOf base) 4) 1 else incP s (pk 0x0E10 6) 1

/-- Read a codeword through its decoder: a correctable error is corrected, written back and counted; beyond correction the
data stands as read and poisoned, and is logged; beyond the limits of the code the outcome is open (R295 to R297). -/
def checkSector (s : State) (base : Nat) (d : Option Nat) : State :=
  let es := SMap.get [] s.errs base
  if es.isEmpty then s else
  let g := codeSize base
  let bs := (List.range g).map fun i => readByte s (base + i)
  let stored := patternKept base && poisoned s base
  let (draw, s) := if (if base < hbmEnd then 6 else 2) < es.length then freeBits s 2 else (2, s)
  let s := { s with errs := SMap.set [] s.errs base [] }
  match findIn (codeChecks base) stored es.length draw with
  | .right => { s with mem := storeBytes s.mem base (rawBytes es bs) }
  | .corrected => countCorrected s base
  | .wrong =>
    let (bs, s) := freeBytes s g
    countCorrected { s with mem := storeBytes s.mem base bs } base
  | .beyond =>
    let s := writeP s base ((rawBytes es bs).map fun b => (b, true))
    let s := if base < hbmEnd then incP s (pk (0x0830 + stackOf base) 5) 1 else s
    let u := memoryUnit s base
    logUncorrectable s u.1 u.2 base d

/-- Check every codeword that an access touches. -/
def checkRange (s : State) (pa n : Nat) (d : Option Nat) : State :=
  if s.errs.isEmpty || n == 0 then s else
  let g := codeSize pa
  (List.range ((pa + n - 1) / g + 1 - pa / g)).foldl (fun s i => checkSector s ((pa / g + i) * g) d) s

/-- Check the HBM sectors of which a write covers a part (R291, R292). -/
def checkEdges (s : State) (pa n : Nat) (d : Option Nat) : State :=
  if s.errs.isEmpty || n == 0 || !decide (pa < hbmEnd) then s else
  let s := if pa % 128 == 0 then s else checkSector s (pa / 128 * 128) d
  if (pa + n) % 128 == 0 then s else checkSector s ((pa + n) / 128 * 128) d

/-- Check lines of a core's memory that a domain's unit reads (R296, R300). -/
def checkLines (s : State) (u line n d : Nat) : State := checkRange s (corePa u (64 * line)) (64 * n) (some d)

/-- In place of a physical address: the line that a buffer outside the map reads next, by UNIT and place (R307). -/
def bufferKey (unit place : Nat) : Nat := 2 ^ 48 + 64 * (2 ^ 16 * place + unit)

/-- Read a line of a buffer outside the physical map: the top-of-stash cache (code 88h) or the Round buffers (89h), whose
DETAIL0 is open (R297, R302). -/
def checkBuffer (s : State) (unit place code : Nat) (d : Option Nat) (l : PLine) : PLine × State :=
  let base := bufferKey unit place
  let es := SMap.get [] s.errs base
  if es.isEmpty then (l, s) else
  let raw := lineOf (rawBytes es (lineBytes l.1))
  let (draw, s) := if 2 < es.length then freeBits s 2 else (2, s)
  let s := { s with errs := SMap.set [] s.errs base [] }
  match findIn 4 (l.2 ≠ 0) es.length draw with
  | .right => ((raw, l.2), s)
  | .corrected => (l, countCorrected s base)
  | .wrong =>
    let (bs, s) := freeBytes s 64
    ((lineOf bs, l.2), countCorrected s base)
  | .beyond =>
    let (pa, s) := freeBits s 48
    ((raw, 0xFFFF), logUncorrectable s unit code pa d)

/-- Lines of such a buffer are read, from a place on: the lines as they are found, each with one mark (R296, R298). -/
def readBuffer (s : State) (unit place code d : Nat) (ls : List PLine) : List PLine × State :=
  if s.errs.isEmpty then (ls, s) else
  ((List.range ls.length).zip ls).foldl (fun a x =>
    let (l, t) := checkBuffer a.2 unit (place + x.1) code (some d) x.2
    (a.1 ++ [oneMark l], t)) ([], s)

/-! ### Entries of page tables (R288) -/

/-- A first-level entry is usable: VALID, reserved bits zero (R288). -/
def pte1Ok (e : Nat) : Bool := bit e 0 && bits e 15 1 == 0 && bits e 63 48 == 0
/-- A second-level entry exists: VALID, reserved bits zero (R288). -/
def pte2Ok (e : Nat) : Bool := bit e 0 && bits e 20 5 == 0 && bits e 63 48 == 0
def ptePresent (e : Nat) : Bool := bit e 1
def pteWrite (e : Nat) : Bool := bit e 2
def pteShadow (e : Nat) : Bool := bit e 3
def pteMirror (e : Nat) : Bool := bit e 4
def pteFrame (e : Nat) : Nat := bits e 47 21 * 2 ^ 21

/-- Whether the domain owns the columns of an accumulator byte offset (R95, R290). -/
def ownsAcc (s : State) (d e off : Nat) : Bool :=
  let r := (getEng s e).part
  let half := if bit r 31 && decide (128 ≤ off % 256) then 1 else 0
  if half == 1 then bit r 7 && bits r 10 8 == d else bit r 3 && bits r 6 4 == d

/-- The lines of a shared core that a domain owns (R204). -/
def ownsLine (s : State) (d u line : Nat) : Bool :=
  if decide (u < 0x40) && (getE s u).shared then
    if (getE s u).domF == some d then decide (line < 0x18000) else decide (0x18000 ≤ line)
  else true

/-- Whether an access of the domain to a physical address is allowed (R285, R290). -/
def accessOk (s : State) (d pa : Nat) (write : Bool) : Bool :=
  match regionOf s pa with
  | .hbm => true
  | .core p off =>
    match unitAt p with
    | some u => inCoreSet s d p && ownsLine s d u (off / 64)
    | none => false
  | .acc e off =>
    if off < 0x240000 then ownsAcc s d e off && (!write || !(getD s d).st.runs)
    else !write && (bit (getEng s e).part 3 && bits (getEng s e).part 6 4 == d ||
      bit (getEng s e).part 7 && bits (getEng s e).part 10 8 == d)
  | .page _ _ => true
  | .staging _ _ => true
  | .reserved => false

/-- How many of `n` bytes from an address on an access of the domain may touch (R285, R290). -/
def runOk (s : State) (d pa n : Nat) (write : Bool) : Nat :=
  if pa + n ≤ hbmEnd then n
  else
    let ok := ((List.range ((pa + n - 1) / 64 + 1 - pa / 64)).takeWhile fun i => accessOk s d (max pa ((pa / 64 + i) * 64)) write).length
    min n ((pa / 64 + ok) * 64 - pa)

/-- The registry entry of a domain that covers a virtual page (R343). -/
def regCover (s : State) (d vpage : Nat) : Option (Nat × RegEntry) :=
  s.snap.reg.find? fun x => x.2.valid && x.2.dom == d && decide (x.2.vpage ≤ vpage) &&
    decide (vpage < x.2.vpage + x.2.pages)

/-! ### Windows (R93, R94, R290) -/

/-- The state word of a tile (R63). -/
def stateWord (t : TileSt) : Nat :=
  (if t.isOpen then 2 ^ 31 else 0) + (if t.isInt then 2 ^ 30 else 0) + (if t.lapsed then 2 ^ 29 else 0) +
    (if t.top then 2 ^ 28 else 0) + (if t.intSat then 2 ^ 27 else 0) + min t.chunks 8191

/-- The key of a tile: engine, half, tile index. -/
def tileKey (e h t : Nat) : Nat := (2 * e + h) * 16 + t
/-- The key of an element: engine, tile index, row, column of the whole engine. -/
def cellKey (e t i j : Nat) : Nat := ((e * 16 + t) * 64 + i) * 64 + j

/-- A byte of an engine's status block (R94): words 16 to 31 are half 1's, zero while the engine is not split. -/
def statusByte (s : State) (e off : Nat) : Byte :=
  let w := off / 4
  let v := if w < 16 then stateWord (getTile s (tileKey e 0 w))
    else if bit (getEng s e).part 31 then stateWord (getTile s (tileKey e 1 (w - 16))) else 0
  BitVec.ofNat 8 (v >>> (8 * (off % 4)))

/-- Read bytes at a physical address, the status block included. -/
def readPhys (s : State) (pa n : Nat) : List (Byte × Bool) :=
  (List.range n).map fun i =>
    match regionOf s (pa + i) with
    | .acc e off => if off < 0x240000 then (readByte s (pa + i), poisoned s (pa + i)) else (statusByte s e (off - 0x240000), false)
    | _ => (readByte s (pa + i), poisoned s (pa + i))

/-- Write one word of an accumulator array. A word written to an open element of a tile with TOP_VALID = 1 becomes its
T; with TOP_VALID = 0 the stored bits change and the arithmetic ignores them (R93). -/
def writeAccWord (s : State) (pa e off : Nat) (bs : List (Byte × Bool)) : State :=
  let s := writeP s pa bs
  if 0x40000 ≤ off then s
  else
    let t := off / 0x4000
    let j := off % 256 / 4
    let h := if bit (getEng s e).part 31 && decide (32 ≤ j) then 1 else 0
    let ts := getTile s (tileKey e h t)
    let k := cellKey e t (off % 0x4000 / 256) j
    let c := getCell s k
    if ts.isOpen && ts.top && c.inCas then setCell s k { c with hasT := true } else s

/-- Write bytes at a physical address, word by word in accumulator memory; the status block keeps. -/
def writePhys (s : State) (pa : Nat) (bs : List (Byte × Bool)) : State :=
  match regionOf s pa with
  | .acc e off =>
    (List.range ((bs.length + 3) / 4)).foldl (fun s w =>
      if 0x240000 ≤ off + 4 * w then s else writeAccWord s (pa + 4 * w) e (off + 4 * w) ((bs.drop (4 * w)).take 4)) s
  | _ => writeP s pa bs

/-! ### Writes to managed pages (R343, R344, R348, R349) -/

def getReg (s : State) (e : Nat) : RegEntry := SMap.get {} s.snap.reg e
def setReg (s : State) (e : Nat) (v : RegEntry) : State :=
  { s with snap := { s.snap with reg := SMap.set {} s.snap.reg e v } }
def getSnapD (s : State) (d : Nat) : SnapDom := SMap.get {} s.snap.doms d
def setSnapD (s : State) (d : Nat) (v : SnapDom) : State :=
  { s with snap := { s.snap with doms := SMap.set {} s.snap.doms d v } }

/-- The method that AUTO or METHOD chooses for an entry, FULL cases apart: 0 SHADOW, 1 MIRROR (R345). -/
def chosenMethod (s : State) (r : RegEntry) : Nat :=
  if r.method ≤ 1 then r.method
  else if r.pages * 2 ^ 21 < getP s (pk 0x0C00 1) then 1
  else if getP s (pk 0x0C00 2) * r.pages < 100 * r.dirtyMax then 1 else 0

/-- The entry is expected to be under MIRROR at the domain's next point: its writes are mirrored into the live slot
(R345, R349). After a failure, and before the first point of a run, the next snapshot is FULL. -/
def expectsMirror (s : State) (r : RegEntry) : Bool :=
  let sd := getSnapD s r.dom
  sd.taken && !sd.bad && !r.full && chosenMethod s r == 1

/-- The whole granules that cover a write, as they stand after it: physical address and bytes. -/
def mirrorData (s : State) (pa n : Nat) : Nat × List (Byte × Bool) :=
  let lo := pa / 32 * 32
  (lo, readPhys s lo ((pa + n + 31) / 32 * 32 - lo))

/-- Store a write that its stack has accepted, with its virtual address. A write to a managed page marks the page
written. While a snapshot of the domain is in progress, a write that belongs after the point is held at an uncopied page
(R348), or until the snapshot is complete when it will be mirrored (R349); a write of a mirrored entry completes once its
mirror is sent. The answer is whether the write completed. -/
def acceptWrite (s : State) (d va pa pte born : Nat) (bs : List (Byte × Bool)) (pkt : Option Packet) : Bool × State :=
  if !(pteShadow pte || pteMirror pte) then (true, writePhys s pa bs)
  else match regCover s d (va / 2 ^ 21) with
    | none => (true, writePhys s pa bs)
    | some (e, r) =>
      let page := va / 2 ^ 21 - r.vpage
      let sd := getSnapD s d
      let after := decide (sd.phase ≠ 0) && decide (sd.atCtc ≤ born)
      let hold (m : Bool) : Bool × State :=
        (false, { s with snap := { s.snap with held := s.snap.held ++ [⟨d, e, page, pa, va, bs, m, pkt⟩] } })
      if after && (r.inEffect == 0 || r.inEffect == 2) && !(SMap.get false r.sent page) then hold false
      else if after && (r.inEffect == 1 || expectsMirror s r) then hold true
      else
        let s := setReg s e { r with dirty := SMap.set false r.dirty page true }
        let s := writePhys s pa bs
        if (if sd.phase ≠ 0 then r.inEffect == 1 else expectsMirror s r) then
          let (lo, data) := mirrorData s pa bs.length
          let k := if sd.phase ≠ 0 then sd.k else getP s (pk (0x0C08 + d) 8)
          (false, setSnapD s d { sd with
            mirrors := sd.mirrors ++ [⟨e, k, page * 2 ^ 21 + va / 32 * 32 % 2 ^ 21, lo, data, pkt⟩] })
        else (true, s)

/-! ### The stack cache (R294) -/

/-- Sectors of a stack's cache: what the page buffer leaves of 128 MiB (R294). -/
def cacheSectors (s : State) (st : Nat) : Nat := (128 - getP s (pk 0x0803 (st + 1))) * 8192

/-- A narrow read touches its sector in the stack cache: most recently used first, the least recently used replaced
(R294). -/
def touchCache (s : State) (pa : Nat) : State :=
  let sec := pa / 128
  let st := stackOf pa
  let mine := sec :: (s.cache.filter fun x => stackOf (128 * x) == st && x ≠ sec)
  { s with cache := mine.take (cacheSectors s st) ++ s.cache.filter fun x => stackOf (128 * x) ≠ st }

/-- The cached sectors that still fit after the page buffer of a stack has changed (R294). -/
def trimCache (s : State) (st : Nat) : State :=
  { s with cache := (s.cache.filter fun x => stackOf (128 * x) == st).take (cacheSectors s st) ++
             s.cache.filter fun x => stackOf (128 * x) ≠ st }

/-! ### Service at the stacks (R269, R291 to R297, R304) -/

/-- The charge of a request. -/
def reqCharge (s : State) (r : HbmReq) : Nat :=
  if r.narrow then (if r.pkt.ty == 0 then 256 else if s.cache.contains (r.pkt.pa / 128) then 32 else 128)
  else charge (64 * r.pkt.n)

/-- The order of service among admitted requests: DEADLINE, then stream context (R269). -/
def reqBefore (a b : HbmReq) : Bool := decide (a.dead < b.dead) || (a.dead == b.dead && decide (a.ctx < b.ctx))

/-- The first of a list under an order. -/
def minBy {α : Type} (lt : α → α → Bool) : List α → Option α
  | [] => none
  | x :: r => match minBy lt r with
    | none => some x
    | some y => if lt y x then some y else some x

/-- Remove the first entry equal to `x`. -/
def eraseFirst {α : Type} [DecidableEq α] (x : α) : List α → List α
  | [] => []
  | y :: r => if x = y then r else y :: eraseFirst x r

/-- The VIA router of a pair, from the route table of the source (R239). -/
def viaOf (s : State) (src dst : Nat) : Option Nat :=
  let e := bits (getP s (pk 0x0901 (src + 1))) (8 * dst + 7) (8 * dst)
  if bit e 7 then some (e % 64) else none

/-- A packet as it leaves its source: its route table entry gives VIA (R239). -/
def sendPacket (s : State) (p : Packet) : State := 
  { s with packets := s.packets ++ [{ p with leg := false, via := viaOf s p.src p.dst }] }

/-- The answer to a read request: a response to the requester, or for a multicast fill a multicast write that starts at
the answering router (R235, R246, R267). -/
def replyTo (p : Packet) (vc : Nat) (data : List PLine) : Packet :=
  if p.members.isEmpty then { p with ty := 2, src := p.dst, dst := p.src, vc := vc, data := data, tok := none }
  else { p with ty := 5, src := p.dst, dst := p.dst, vc := 3, data := data, tok := none }

/-- The virtual channel of a response: stream fills return on VC 4 (R236, R269). -/
def replyVc (p : Packet) : Nat :=
  match p.owner with
  | .stream _ _ => 4
  | _ => 1

/-- The requests at a stack, in the order in which they reached it. -/
def queueAt (s : State) (st : Nat) : List HbmReq := SMap.get [] s.hbmq st

/-- A narrow read goes through the stack cache: a miss reads its sector with the check bytes (R292, R294). -/
def narrowRead (s : State) (pa : Nat) (d : Option Nat) : State :=
  let hit := s.cache.contains (pa / 128)
  let s := incP s (pk 0x0806 1) 1
  touchCache (if hit then incP s (pk 0x0806 3) 1 else checkSector s (pa / 128 * 128) d) pa

/-- Serve a request of a stack: a write is stored and acknowledged, a read answered (R269, R291 to R293). -/
def serveReq (s : State) (st : Nat) (r : HbmReq) : State :=
  let s := { s with hbmq := SMap.set [] s.hbmq st (eraseFirst r (queueAt s st)) }
  let p := r.pkt
  let dom := if r.part < 8 then some r.part else none
  if p.ty == 0 then
    let bs := (p.data.flatMap plineBytes).take (if r.narrow then 32 else 64 * p.n)
    let s := checkEdges s p.pa bs.length dom
    let s := if r.narrow then incP s (pk 0x0806 2) 1 else s
    let (done, s) := acceptWrite s p.dom p.va p.pa p.pte p.born bs (some p)
    if done then
      sendPacket s { p with ty := 3, src := p.dst, dst := p.src, vc := 1, data := [] }
    else s
  else
    let s := if r.narrow then narrowRead s p.pa dom else checkRange s p.pa (64 * p.n) dom
    let data := if r.narrow then [plineOf (readPhys s p.pa 32 ++ List.replicate 32 (0, false))]
      else (List.range p.n).map fun i => plineOf (readPhys s (p.pa + 64 * i) 64)
    sendPacket s (replyTo p (replyVc p) data)

/-- Sectors that an access of `n` bytes touches lie in a request's (R293). -/
def touches (pa n : Nat) (r : HbmReq) : Bool :=
  let m := if r.narrow then 32 else 64 * r.pkt.n
  decide (pa / 128 ≤ (r.pkt.pa + m - 1) / 128) && decide (r.pkt.pa / 128 ≤ (pa + n - 1) / 128)

/-- The requests of a queue before which no older access to one of their sectors comes (R198, R293). -/
def unblocked : List HbmReq → List HbmReq → List HbmReq
  | _, [] => []
  | seen, r :: q =>
    (if seen.any (touches r.pkt.pa (if r.narrow then 32 else 64 * r.pkt.n)) then [] else [r]) ++ unblocked (r :: seen) q

/-- The bucket of a request's partition holds its charge (R304). -/
def admissible (s : State) (st : Nat) (r : HbmReq) : Bool := decide (8 * reqCharge s r ≤ tokens8 s st r.part)

/-- Requests that find their bucket short wait for tokens (R304). -/
def noteWaits (s : State) (st : Nat) : State :=
  let q := queueAt s st
  let short (r : HbmReq) : Bool := !admissible s st r
  let t := q.foldl (fun t r => if short r && !r.waited then incP t (pk (0x0820 + r.part) 6) 1 else t) s
  { t with hbmq := SMap.set [] t.hbmq st (q.map fun r => if short r then { r with waited := true } else r) }

/-- Admit an access of `c` bytes to a stack: against its bucket, else by borrowing while no waiting request can be admitted,
else when its tokens have come (R304). -/
def chargeNow (s : State) (st q c : Nat) : State :=
  if 8 * c ≤ tokens8 s st q then deduct s st q c
  else if getP s (pk (0x0820 + q) 3) == 1 && !((queueAt s st).any (admissible s st)) then incP s (pk (0x0820 + q) 5) c
  else deduct (incP s (pk (0x0820 + q) 6) 1) st q c

/-- Serve the oldest request of a stack that meets a test, and again, at most so often. -/
def serveWhile (st : Nat) (test : State → HbmReq → Bool) : Nat → State → State
  | 0, s => s
  | n + 1, s =>
    match (queueAt s st).find? (test s) with
    | none => s
    | some r => serveWhile st test n (serveReq (chargeNow s st r.part (reqCharge s r)) st r)

/-- What comes before an access of `n` bytes that reaches its stack now and is served at once: the accesses to its sectors
that reached the stack before (R293) and the admitted requests of smaller DEADLINE (R269). -/
def serveAhead (s : State) (pa n dead : Nat) : State :=
  let st := stackAt pa
  let k := (queueAt s st).length
  if k == 0 then s else
  serveWhile st (fun s r => admissible s st r && decide (r.dead < dead) && (unblocked [] (queueAt s st)).contains r) k
    (serveWhile st (fun _ r => touches pa n r) k s)

/-- An access over the long-burst path in blocks of at most 4 KiB: each is charged to a partition in whole lines; a read, and
a write of a part of a sector, reads the sectors with their codes; `born` is the CTC at issue (R269, R286, R291, R297, R304). -/
def chargeRange (s : State) (q pa n : Nat) (d : Option Nat) (write : Bool) (born : Nat) : State :=
  if n == 0 then s else
  let s := if !atStack s pa then s else
    (List.range ((pa + n - 1) / 4096 + 1 - pa / 4096)).foldl (fun s i =>
      let lo := max pa ((pa / 4096 + i) * 4096)
      let hi := min (pa + n) ((pa / 4096 + i + 1) * 4096)
      chargeNow (serveAhead s lo (hi - lo) (born + 2 ^ 20)) (stackAt lo) q (charge (64 * ((hi + 63) / 64 - lo / 64)))) s
  if write then checkEdges s pa n d else checkRange s pa n d

/-! ### Translation (R287 to R289) -/

/-- The outcome of a translation (R288). -/
inductive Xl where
  | bad
  | absent
  | ok (pa pte : Nat)
  deriving DecidableEq, Repr

/-- An 8-byte table entry in the HBM range, or none where it is poisoned or lies elsewhere. -/
def readPte (s : State) (pa : Nat) : Option Nat :=
  if hbmEnd ≤ pa then none
  else
    let bs := readP s pa 8
    if bs.any (·.2) then none else some (leNat (bs.map (·.1)))

/-- The entry of an address by a walk of the tables, without the cache: none where it does not exist. -/
def walkPte (s : State) (d va : Nat) : Option Nat :=
  let root := getP s (pk 0x0810 (d + 1))
  match readPte s (root + 8 * bits va 47 34) with
  | none => none
  | some e1 =>
    if !pte1Ok e1 then none
    else match readPte s (bits e1 47 16 * 2 ^ 16 + 8 * bits va 33 21) with
      | none => none
      | some e2 => if pte2Ok e2 then some e2 else none

/-- The cached entry of an address (R289). -/
def cachedPte (s : State) (d va : Nat) : Option Nat :=
  (s.tlb.find? fun x => x.dom == d && x.vpn == va / 2 ^ 21).map (·.pte)

/-- A narrow read of the walker or of collective metadata: it reaches its stack behind the accesses to its sector, is charged
to a partition and goes through the stack cache (R289, R292, R293, R304). -/
def chargeWalk (s : State) (q pa : Nat) : State :=
  if hbmEnd ≤ pa then s else
  let s := serveAhead s pa 8 (s.ctc + 2 ^ 20)
  narrowRead (chargeNow s (stackOf pa) q (if s.cache.contains (pa / 128) then 32 else 128)) pa (some q)

/-- The address of the second-level entry of an address, where its table exists. -/
def pte2Addr (s : State) (d va : Nat) : Option Nat :=
  match readPte s (getP s (pk 0x0810 (d + 1)) + 8 * bits va 47 34) with
  | some e1 => if pte1Ok e1 then some (bits e1 47 16 * 2 ^ 16 + 8 * bits va 33 21) else none
  | none => none

/-- The entry of an address through the translation cache of 8,192 entries (R289): a miss walks, reading one granule a
level, and caches an entry that is valid and present. -/
def lookupPte (s : State) (d va : Nat) : Option Nat × State :=
  match cachedPte s d va with
  | some e => (some e, s)
  | none =>
    let s := chargeWalk (incP s (pk 0x0813 0) 1) d (getP s (pk 0x0810 (d + 1)) + 8 * bits va 47 34)
    let s := match pte2Addr s d va with
      | some a => chargeWalk s d a
      | none => s
    match walkPte s d va with
    | none => (none, s)
    | some e =>
      (some e, if ptePresent e then { s with tlb := (⟨d, va / 2 ^ 21, e⟩ :: s.tlb).take 8192 } else s)

/-- Translate an address of a domain (R287, R288, R290, R343). A write to a managed page needs a registry entry and a
frame in the HBM range. -/
def translate (s : State) (d va : Nat) (write : Bool) : Xl × State :=
  if 2 ^ 48 ≤ va then (.bad, s) else
  match lookupPte s d va with
  | (none, s) => (.bad, s)
  | (some e, s) =>
    if !ptePresent e then (.absent, s)
    else
      let pa := pteFrame e + va % 2 ^ 21
      let managed := pteShadow e || pteMirror e
      if write && !pteWrite e && !pteShadow e then (.bad, s)
      else if write && managed && ((regCover s d (va / 2 ^ 21)).isNone || decide (hbmEnd ≤ pa)) then (.bad, s)
      else if !accessOk s d pa write then (.bad, s)
      else (.ok pa e, s)

/-- The result of a whole access to virtual memory. -/
inductive VRes where
  | ok
  | bad (va : Nat)
  | absent (va : Nat)
  deriving DecidableEq, Repr

/-- Read `n` bytes of a domain's virtual memory, in pieces that stay within a page, by an operation that started at `born`: at
most `fuel` pieces. -/
def vread (s : State) (d va born n : Nat) : Nat → VRes × List (Byte × Bool) × State
  | 0 => (.ok, [], s)
  | fuel + 1 =>
    if n == 0 then (.ok, [], s)
    else
      match translate s d va false with
      | (.bad, s) => (.bad va, [], s)
      | (.absent, s) => (.absent va, [], s)
      | (.ok pa _, s) =>
        let k := runOk s d pa (min n (2 ^ 21 - va % 2 ^ 21)) false
        let s := chargeRange s d pa k (some d) false born
        let bs := readPhys s pa k
        let (r, rest, s) := vread s d (va + k) born (n - k) fuel
        (r, bs ++ rest, s)

/-- Write bytes of a domain's virtual memory, page by page, by an operation that started at `born`. -/
def vwrite (s : State) (d va born : Nat) (bs : List (Byte × Bool)) : Nat → VRes × State
  | 0 => (.ok, s)
  | fuel + 1 =>
    if bs.isEmpty then (.ok, s)
    else
      match translate s d va true with
      | (.bad, s) => (.bad va, s)
      | (.absent, s) => (.absent va, s)
      | (.ok pa pte, s) =>
        let k := runOk s d pa (min bs.length (2 ^ 21 - va % 2 ^ 21)) true
        let (_, s) := acceptWrite (chargeRange s d pa k (some d) true born) d va pa pte born (bs.take k) none
        vwrite s d (va + k) born (bs.drop k) fuel

/-- Pieces of a run of bytes: the pages it can touch, and one that may not be touched. -/
def vfuel (n : Nat) : Nat := n / 2 ^ 21 + 3

/-! ### Page-absent halts (R271, R272) -/

/-- The lowest free halt slot. -/
def freeHalt (s : State) : Option Nat := (List.range 64).find? fun i => (SMap.get none s.halts i).isNone

/-- Write a halt record into a slot: it carries the domain's DCC and the next SEQ, and the domain is in PAGE_HALT (R271,
R272). -/
def placeHalt (s : State) (i : Nat) (h : Halt) : State :=
  let h := { h with dcc := (getD s h.dom).dcc, seq := s.haltSeq }
  let s := { s with halts := SMap.set none s.halts i (some h), haltSeq := (s.haltSeq + 1) % 0x10000 }
  let s := incP s (pk 0x0710 5) 1
  let dd := getD s h.dom
  if dd.st == .running then setD s h.dom { dd with st := .pageHalt } else s

/-- In place of a slot: its requester waits for one. -/
def noSlot : Nat := 64

/-- Halt a requester of a domain in the lowest free slot; with no slot free it waits for one (R271, R272). The answer names
the slot. -/
def takeHalt (s : State) (d : Nat) (who : Requester) (write : Bool) (ctx prog unit va word offset : Nat) : Nat × State :=
  let h : Halt := ⟨0, 0, 1, d, write, ctx, prog, unit, va, who, word, offset⟩
  match freeHalt s with
  | none => (noSlot, { s with haltWait := s.haltWait ++ [h] })
  | some i => (i, placeHalt s i h)

/-- The requester still waits for a slot. -/
def stillWaits (s : State) : Requester → Bool
  | .stream x => (getStream s x).st == 2 && (getStream s x).halt == some noSlot
  | .op u tag => s.xfers.any fun x => x.unit == u && x.tag == tag && x.halted == some noSlot
  | .dma ch => (getDma s ch).st == 4 && (getDma s ch).halt == some noSlot

/-- The slot that a waiting requester has been given. -/
def holdSlot (s : State) (i : Nat) : Requester → State
  | .stream x => setStream s x { getStream s x with halt := some i }
  | .op u tag => { s with xfers := s.xfers.map fun x => if x.unit == u && x.tag == tag then { x with halted := some i } else x }
  | .dma ch => setDma s ch { getDma s ch with halt := some i }

/-- Free slots go to those of a list that still wait, in order; the others wait on. -/
def grantTo : List Halt → State → State
  | [], s => { s with haltWait := [] }
  | h :: r, s =>
    if !stillWaits s h.who then grantTo r s
    else match freeHalt s with
      | none => { s with haltWait := h :: r }
      | some i => grantTo r (holdSlot (placeHalt s i h) i h.who)

/-- Each freed slot goes to the requester that has waited longest (R271, DEDUCED). -/
def grantHalts (s : State) : State := grantTo s.haltWait s

/-- Free a halt slot; the domain leaves PAGE_HALT with its last one (R211, R271). -/
def dropHalt (s : State) (i : Nat) : State :=
  match SMap.get none s.halts i with
  | none => s
  | some h =>
    let s := { s with halts := SMap.set none s.halts i none }
    let left := s.halts.any fun x => match x.2 with | some y => y.dom == h.dom | none => false
    let dd := getD s h.dom
    if !left && dd.st == .pageHalt then setD s h.dom { dd with st := .running } else s

/-! ### Events of the stacks (R269, R300, R303, R304, R306) -/

/-- HBM_REQUEST_SERVICE: the stack admits what its regulators allow, else one that may borrow, and serves the admitted
request of smallest DEADLINE; the others that find their bucket short wait for tokens (R269, R304). -/
def execHbmRequestService (st : Nat) (s : State) : Host.Outcome State Fault Refusal :=
  if 8 ≤ st then .fault .noSuchUnit
  else if (queueAt s st).isEmpty then .refused (.notEnabled "no request waits at the stack")
  else
    let s := noteWaits s st
    let q := unblocked [] (queueAt s st)
    match minBy reqBefore (q.filter (admissible s st)) with
    | some r => .next (serveReq (deduct s st r.part (reqCharge s r)) st r)
    | none =>
      match minBy reqBefore (q.filter fun r => getP s (pk (0x0820 + r.part) 3) == 1) with
      | some r => .next (serveReq (incP s (pk (0x0820 + r.part) 5) (reqCharge s r)) st r)
      | none => .next s

/-- HBM_REFRESH: a refresh of a bank delays requests only (R303), so the state keeps. -/
def execHbmRefresh (st _bank : Nat) (s : State) : Host.Outcome State Fault Refusal :=
  if 8 ≤ st then .fault .noSuchUnit else .next s

/-- SCRUB: the stack reads its next sector, oldest first, charged to partition 8; off while mem.scrub_hours is 0
(R300). -/
def execScrub (st : Nat) (s : State) : Host.Outcome State Fault Refusal :=
  if 8 ≤ st then .fault .noSuchUnit
  else if getP s (pk 0x0805 0) == 0 then .next s
  else
    let n := SMap.get 0 s.scrubAt st
    let s := chargeNow s st 8 (charge 128)
    let s := checkSector s (sectorPa st n) none
    .next { s with scrubAt := SMap.set 0 s.scrubAt st ((n + 1) % stackSectors) }

/-- The throttle level after a report (R306): it rises to each threshold reached, and falls only 3 °C below. -/
def throttleLevel (t1 t2 t3 : Nat) (level : Nat) (eighths : Int) : Nat :=
  let up := if (8 * t3 : Nat) ≤ eighths then 3 else if (8 * t2 : Nat) ≤ eighths then 2
    else if (8 * t1 : Nat) ≤ eighths then 1 else 0
  let down := if eighths ≤ (8 * t1 : Nat) - 24 then 0 else if eighths ≤ (8 * t2 : Nat) - 24 then 1
    else if eighths ≤ (8 * t3 : Nat) - 24 then 2 else 3
  if level < up then up else min level down

/-- Nanoseconds that a stack has spent at a throttle level above 0 (R309). -/
def throttledNs (s : State) (st : Nat) : Nat :=
  let x := SMap.get (0, 0) s.thrAt st
  x.1 + if getP s (pk (0x0830 + st) 2) == 0 then 0 else s.ns - x.2

/-- STACK_TEMPERATURE_READ: the report is published, the throttle level follows (R306), refresh doubles above 85 °C
(R303). -/
def execStackTemperatureRead (st : Nat) (eighths : Int) (s : State) : Host.Outcome State Fault Refusal :=
  if 8 ≤ st then .fault .noSuchUnit else
  let lvl := throttleLevel (getP s (pk 0x0838 1)) (getP s (pk 0x0838 2)) (getP s (pk 0x0838 3))
    (getP s (pk (0x0830 + st) 2)) eighths
  let s := { s with thrAt := SMap.set (0, 0) s.thrAt st (throttledNs s st, s.ns) }
  let s := setP s (pk (0x0830 + st) 1) (wrap 32 eighths)
  let s := setP s (pk (0x0830 + st) 6) (if 8 * 85 < eighths then 1 else 0)
  -- bring the buckets to the present at the old rate before the factor changes
  let s := (List.range 9).foldl (fun s q => { s with buckets := SMap.set {} s.buckets (9 * st + q) (refill s st q) }) s
  .next (setP s (pk (0x0830 + st) 2) lvl)

end Sys2Proof.Machine
end

