-- ==== Sys2Proof/Machine/Trans.lean ====
section
/-!
DEFINITION. The activations of R142 and the derivatives of R144 and R164 that are computed exactly and rounded once.
A real function is evaluated in fixed point with 512 fraction bits and a sticky last bit, then rounded once to FP32;
the result is the exact rounding wherever the exact value is further than about 2^-300 from a rounding boundary.
-/
namespace Sys2Proof.Machine

/-- Fraction bits of the fixed-point evaluation. -/
def fxP : Nat := 512

/-- 1.0 in fixed point. -/
def fxOne : Int := (2 ^ fxP : Nat)

/-- Fixed-point product, rounded toward minus infinity. -/
def fxMul (a b : Int) : Int := a * b / fxOne

/-- Fixed-point quotient. -/
def fxDiv (a b : Int) : Int := if b == 0 then 0 else a * fxOne / b

/-- A finite value in fixed point. -/
def fxOf (s : Bool) (m : Nat) (e : Int) : Int :=
  let sh := e + fxP
  let a : Int := if 0 ≤ sh then (m * 2 ^ sh.toNat : Nat) else (m / 2 ^ (-sh).toNat : Nat)
  if s then -a else a

/-- Σ t_k with t_{k+1} = t_k × x / (k + 1): the exponential series, `n` terms. -/
def fxExpSeries (x : Int) : Nat → Nat → Int → Int
  | 0, _, _ => 0
  | n + 1, k, t => t + fxExpSeries x n (k + 1) (fxMul t x / ((k : Int) + 1))

/-- 2 Σ (1/3)^(2k+1) / (2k+1) = ln 2. -/
def fxLn2Series : Nat → Nat → Int → Int
  | 0, _, _ => 0
  | n + 1, k, t => t / (2 * (k : Int) + 1) + fxLn2Series n (k + 1) (t / 9)

/-- ln 2. -/
def fxLn2 : Int := 2 * fxLn2Series 180 0 (fxOne / 3)

/-- e^x for a fixed-point x. -/
def fxExp (x : Int) : Int :=
  let k := x / fxLn2
  let r := x - k * fxLn2
  let y := fxExpSeries r 140 0 fxOne
  if 0 ≤ k then y * (2 ^ k.toNat : Nat) else y / (2 ^ (-k).toNat : Nat)

/-- Σ (−1)^k (1/q)^(2k+1) / (2k+1) = arctan(1/q). -/
def fxAtanInv (q : Int) : Nat → Nat → Int → Int
  | 0, _, _ => 0
  | n + 1, k, t => (if k % 2 == 0 then t / (2 * (k : Int) + 1) else -(t / (2 * (k : Int) + 1))) +
      fxAtanInv q n (k + 1) (t / (q * q))

/-- π by Machin's formula. -/
def fxPi : Int := 16 * fxAtanInv 5 120 0 (fxOne / 5) - 4 * fxAtanInv 239 40 0 (fxOne / 239)

/-- φ(x) = e^(−x²/2) / √(2π). -/
def fxPhi (x : Int) : Int :=
  fxDiv (fxExp (-(fxMul x x) / 2)) (isqrt ((2 * fxPi * fxOne).toNat) : Nat)

/-- Σ x^(2k+1) / (1·3·…·(2k+1)). -/
def fxNormSeries (x2 : Int) : Nat → Nat → Int → Int
  | 0, _, _ => 0
  | n + 1, k, t => t + fxNormSeries x2 n (k + 1) (fxMul t x2 / (2 * (k : Int) + 3))

/-- Φ(x), the standard normal distribution function, for |x| up to 16. -/
def fxNorm (x : Int) : Int := fxOne / 2 + fxMul (fxPhi x) (fxNormSeries (fxMul x x) 900 0 x)

/-- σ(x) = 1 / (1 + e^−x). -/
def fxSigmoid (x : Int) : Int := fxDiv fxOne (fxOne + fxExp (-x))

/-- A fixed-point value, known not to be exact, rounded once to FP32. -/
def fxRound (v : Int) (negIfZero : Bool) : FV :=
  if v == 0 then .fin negIfZero 0 0
  else roundF32 (.fin (decide (v < 0)) (2 * v.natAbs + 1) (-(fxP : Int) - 1))

/-- The magnitude of a finite value is at least 2^k. -/
def magGe (m : Nat) (e : Int) (k : Int) : Bool := m != 0 && decide (k ≤ (Nat.log2 m : Int) + e)

/-- The codes of FUNC that R142 assigns. -/
def funcValid (f : Nat) : Bool := decide (f ≤ 6)

/-- f(x) of R142, rounded once to FP32. -/
def activation (f : Nat) (x : FV) : FV :=
  match f, x with
  | 0, x => x
  | _, .nan => .nan
  | 1, .inf s => if s then FV.zero else .inf false
  | 1, .fin s m e => if s || m == 0 then FV.zero else .fin s m e
  | 2, .inf s => if s then FV.zero else FV.one
  | 2, .fin s m e =>
    if m == 0 then .fin false 1 (-1)
    else if magGe m e 8 then (if s then FV.zero else FV.one)
    else fxRound (fxSigmoid (fxOf s m e)) false
  | 3, .inf s => .fin s 1 0
  | 3, .fin s m e =>
    if m == 0 then .fin s 0 0
    else if magGe m e 6 then .fin s 1 0
    else if magGe m e (-60) then
      let a := fxExp (2 * fxOf false m e)
      let t := fxDiv (a - fxOne) (a + fxOne)
      fxRound (if s then -t else t) s
    else .fin s m e
  | 4, .inf s => if s then FV.zero else .inf false
  | 4, .fin s m e =>
    if m == 0 then FV.one
    else if magGe m e 8 then (if s then FV.zero else .inf false)
    else fxRound (fxExp (fxOf s m e)) false
  | 5, .inf s => if s then .fin true 0 0 else .inf false
  | 5, .fin s m e =>
    if m == 0 then .fin s 0 0
    else if magGe m e 4 then (if s then .fin true 0 0 else .fin s m e)
    else
      let x := fxOf s m e
      fxRound (fxMul x (fxNorm x)) s
  | 6, .inf s => if s then .fin true 0 0 else .inf false
  | 6, .fin s m e =>
    if m == 0 then .fin s 0 0
    else if magGe m e 8 then (if s then .fin true 0 0 else .fin s m e)
    else
      let x := fxOf s m e
      fxRound (fxMul x (fxSigmoid x)) s
  | _, x => x

/-- d of R144 for a saved value s: the derivative that DACT multiplies by, with the cases of R164. -/
def derivative (f : Nat) (s : FV) : FV :=
  match f, s with
  | 0, _ => FV.one
  | _, .nan => .nan
  | 1, .inf n => if n then FV.zero else FV.one
  | 1, .fin n m _ => if n || m == 0 then FV.zero else FV.one
  | 2, y => mulF32 y (addFV FV.one y.negate)
  | 3, y => addFV FV.one (mulF32 y y).negate
  | 4, y => y
  | 5, .inf n => if n then .fin true 0 0 else FV.one
  | 5, .fin n m e =>
    if m == 0 then .fin false 1 (-1)
    else if magGe m e 4 then (if n then .fin true 0 0 else FV.one)
    else
      let x := fxOf n m e
      fxRound (fxNorm x + fxMul x (fxPhi x)) n
  | 6, .inf n => if n then .fin true 0 0 else FV.one
  | 6, .fin n m e =>
    if m == 0 then .fin false 1 (-1)
    else if magGe m e 8 then (if n then .fin true 0 0 else FV.one)
    else
      let x := fxOf n m e
      let g := fxSigmoid x
      fxRound (fxMul g (fxOne + fxMul x (fxOne - g))) n
  | _, _ => FV.one

end Sys2Proof.Machine
end

