-- ==== Sys2Proof/Machine/Accum.lean ====
section
/-!
DEFINITION. The arithmetic of the matrix engines: products, chunk tree, cascade and closes (R59 to R77), the operands of a
chunk (R101, R102, R137) and what an accumulator read makes of a row (R66, R71, R138 to R142).
-/
namespace Sys2Proof.Machine

/-! ### Elements with poison -/

/-- The value of a stored word with its mark. -/
def wordPV (s : State) (pa : Nat) : PV :=
  ⟨f32Of (leNat ((List.range 4).map fun i => readByte s (pa + i))), poisoned s pa⟩
/-- The stored bits of a word. -/
def wordBits (s : State) (pa : Nat) : Nat := leNat ((List.range 4).map fun i => readByte s (pa + i))
/-- Store a word with a mark. -/
def putWord (s : State) (pa n : Nat) (p : Bool) : State := writeP s pa ((leBytes 4 n).map fun b => (b, p))
/-- Clear or set the mark of a word. -/
def markWord (s : State) (pa : Nat) (p : Bool) : State := { s with poison := SMap.set false s.poison pa p }

/-- add(x, y) with poison (R60, R75). -/
def addPV (x y : PV) : PV := ⟨addFV x.v y.v, x.p || y.p⟩
/-- add on operands that may be absent. -/
def addOptPV : Option PV → Option PV → Option PV
  | none, y => y
  | x, none => x
  | some x, some y => some (addPV x y)
/-- NaNs that a sum generates. -/
def madeAdd : Option PV → Option PV → Nat
  | some x, some y => addMade (some x.v) (some y.v)
  | _, _ => 0

/-! ### The chunk tree (R61) -/

/-- One level of the tree: sums of neighbours, and the NaNs generated. -/
def treeLevel : List (Option PV) → List (Option PV) × Nat
  | a :: b :: r =>
    let (t, m) := treeLevel r
    (addOptPV a b :: t, m + madeAdd a b)
  | l => (l, 0)

/-- All levels of a tree of 2^n leaves, and the NaNs generated. -/
def treeSum : Nat → List (Option PV) → Option PV × Nat
  | 0, l => (l.headD none, 0)
  | n + 1, l =>
    let (t, m) := treeLevel l
    let (x, m') := treeSum n t
    (x, m + m')

/-- The sum of one chunk from its operand pairs, lanes past them absent: rounded to FP32, with the NaNs generated. -/
def chunkSum (g : Nat) (ps : List (PV × PV)) : PV × Nat :=
  let leaves := ps.map fun q => some (⟨mulExact q.1.v q.2.v, q.1.p || q.2.p⟩ : PV)
  let made := sumNat (ps.map fun q => mulMade q.1.v q.2.v)
  let (x, m) := treeSum (Nat.log2 g) (leaves ++ List.replicate (g - ps.length) none)
  match x with
  | some x => (⟨roundF32 x.v, x.p⟩, made + m)
  | none => (⟨FV.zero, false⟩, made + m)

/-- The integer of a decoded integer-class element. -/
def fvInt : FV → Int
  | .fin s m e => FV.scaled s m e 0
  | _ => 0

/-- The exact integer sum of a chunk (R70). -/
def chunkInt (ps : List (PV × PV)) : Int := ps.foldl (fun a q => a + fvInt q.1.v * fvInt q.2.v) 0

/-! ### Elements of a tile (R63, R64, R93) -/

/-- An element of an accumulator tile: engine, half code (0 whole or half 0, 1 half 1), tile index, row and column. -/
structure El where
  e : Nat
  h : Nat
  t : Nat
  i : Nat
  j : Nat

def El.tile (x : El) : Nat := tileKey x.e x.h x.t
def El.key (x : El) : Nat := cellKey x.e x.t x.i x.j
/-- The word of the output array. -/
def El.top (x : El) : Nat := accBase x.e + 0x4000 * x.t + 4 * (64 * x.i + x.j)
/-- The word of cascade level 4 to 11. -/
def El.level (x : El) (l : Nat) : Nat := accBase x.e + 0x40000 + 0x4000 * (8 * x.t + l - 4) + 4 * (64 * x.i + x.j)

/-- The value in a cascade level. -/
def levelAt (s : State) (x : El) (l : Nat) : PV :=
  let c := getCell s x.key
  match l with
  | 0 => ⟨ofW32 c.l0, bit c.pz 0⟩
  | 1 => ⟨ofW32 c.l1, bit c.pz 1⟩
  | 2 => ⟨ofW32 c.l2, bit c.pz 2⟩
  | 3 => ⟨ofW32 c.l3, bit c.pz 3⟩
  | l => wordPV s (x.level l)

/-- Put a bit of a small mask. -/
def setBit (n i : Nat) (b : Bool) : Nat := if bit n i then (if b then n else n - 2 ^ i) else if b then n + 2 ^ i else n

/-- Fill a cascade level. -/
def setLevel (s : State) (x : El) (l : Nat) (v : PV) : State :=
  let c := getCell s x.key
  let c' := { c with pz := setBit c.pz l v.p }
  match l with
  | 0 => setCell s x.key { c' with l0 := toW32 v.v }
  | 1 => setCell s x.key { c' with l1 := toW32 v.v }
  | 2 => setCell s x.key { c' with l2 := toW32 v.v }
  | 3 => setCell s x.key { c' with l3 := toW32 v.v }
  | l => putWord s (x.level l) (f32Bits v.v) v.p

/-- Whether level L of an element is occupied (R63). -/
def occupied (c : Cell) (l : Nat) : Bool := decide (c.n < 4096) && bit c.n l

/-- The carry of a push through the occupied levels from `l` on: where it comes to rest (12 = past level 11), its value
and the NaNs generated. -/
def carryUp (s : State) (x : El) (c : Cell) : Nat → Nat → PV → Nat × PV × Nat
  | 0, l, v => (l, v, 0)
  | k + 1, l, v =>
    if occupied c l then
      let y := levelAt s x l
      let (l', v', m) := carryUp s x c k (l + 1) (addPV y v)
      (l', v', m + madeAdd (some y) (some v))
    else (l, v, 0)

/-- T of an element, if present. -/
def topOf (s : State) (x : El) : Option PV := if (getCell s x.key).hasT then some (wordPV s x.top) else none

/-- Replace T, with the mark TOP_VALID of the tile. -/
def setTop (s : State) (x : El) (v : PV) : State :=
  let s := putWord s x.top (f32Bits v.v) v.p
  let s := setCell s x.key { getCell s x.key with hasT := true }
  setTile s x.tile { getTile s x.tile with top := true }

/-- Drop the poison marks that a fault left, once a NEW has reached the element (R97). -/
def freshen (s : State) (x : El) : State :=
  let c := getCell s x.key
  if c.fresh then
    let s := (List.range 8).foldl (fun s l => markWord s (x.level (l + 4)) false) (markWord s x.top false)
    setCell s x.key { c with fresh := false }
  else s

/-- push(s) of R64, with the counts of R63 and the lapse of R69; the NaNs generated are counted by the caller. -/
def pushEl (s : State) (x : El) (v : PV) : State × Nat :=
  let s := freshen s x
  let c := getCell s x.key
  let (s, made) :=
    if c.n < 4096 then
      let (l, v', m) := carryUp s x c 12 0 v
      if l < 12 then (setLevel s x l v', m)
      else
        let t := topOf s x
        (setTop s x ((addOptPV t (some v')).getD v'), m + madeAdd t (some v'))
    else
      let t := topOf s x
      let s := setTop s x ((addOptPV t (some v)).getD v)
      (setTile s x.tile { getTile s x.tile with lapsed := true }, madeAdd t (some v))
  let s := setCell s x.key { getCell s x.key with n := c.n + 1 }
  let ts := getTile s x.tile
  (setTile s x.tile { ts with chunks := min (max ts.chunks (c.n + 1)) 8191 }, made)

/-- Add a chunk sum to an INT32 element, saturating (R70). The running sum is the element's T in its output word, so
TOP_VALID is 1 from the first chunk on (R93, DEDUCED). -/
def pushInt (s : State) (x : El) (v : Int) (p : Bool) : State :=
  let s := freshen s x
  let c := getCell s x.key
  let s := setCell s x.key { c with n := c.n + 1, hasT := true }
  let ts := getTile s x.tile
  let s := setTile s x.tile { ts with chunks := min (max ts.chunks (c.n + 1)) 8191, top := true }
  if c.sat then (if p then markWord s x.top true else s)
  else
    let y := (if c.hasT then sext 32 (wordBits s x.top) else 0) + v
    let pz := (c.hasT && poisoned s x.top) || p
    if y < -(2 ^ 31) || 2 ^ 31 ≤ y then
      let s := putWord s x.top (if y < 0 then 0x80000000 else 0x7FFFFFFF) pz
      let s := setCell s x.key { getCell s x.key with sat := true }
      let ts := getTile s x.tile
      setTile s x.tile { ts with intSat := true, newSat := ts.newSat + 1 }
    else putWord s x.top (wrap 32 y) pz

/-- The value that a close of an element of float class would give now, and the NaNs generated (R64, R66). -/
def closeVal (s : State) (x : El) : PV × Nat :=
  let c := getCell s x.key
  let (acc, m) := (List.range 12).foldl (fun (a : Option PV × Nat) l =>
    if occupied c l then
      let y := levelAt s x l
      (addOptPV (some y) a.1, a.2 + madeAdd (some y) a.1)
    else a) (none, 0)
  let t := topOf s x
  match addOptPV t acc with
  | some v => (⟨v.v, v.p || (c.fresh && poisoned s x.top)⟩, m + madeAdd t acc)
  | none => (⟨FV.zero, c.fresh && poisoned s x.top⟩, m)

/-- Open an element for an MMA. CONT leaves an element of the open cascade as it is. One that is not in it starts as the
opening of the cascade left it: at T = V where a CONT opened the tile, with T absent where a NEW did; a NEW empties it (R65,
R77). -/
def openEl (s : State) (x : El) (cont fromV isInt : Bool) : State :=
  if cont && (getCell s x.key).inCas then s
  else if cont && fromV then
    let c := getCell s x.key
    let s := setCell s x.key { inCas := true, hasT := true, sat := c.sat }
    setTile s x.tile { getTile s x.tile with top := true }
  else
    let s := setCell s x.key { inCas := true, fresh := true }
    if isInt then { s with mem := storeBytes s.mem x.top (leBytes 4 0) } else s

/-- Close one element: its value becomes the result, counted when NaN (R64, R73). An integer value stays in place, 0 where
nothing was added. -/
def closeEl (s : State) (x : El) (isInt : Bool) (d unit : Nat) : State :=
  let c := getCell s x.key
  let s :=
    if isInt then (if c.hasT then freshen s x else putWord (freshen s x) x.top 0 false)
    else
      let (v, m) := closeVal s x
      let v := if c.fresh then ⟨v.v, false⟩ else v
      let s := freshen s x
      -- values that no chunk has joined stay bit for bit (R76)
      let s := if c.n == 0 && c.hasT then s else putWord s x.top (f32Bits v.v) v.p
      countNan (countNan s 2 m d unit) 3 (if v.v.isNaN then 1 else 0) d unit
  setCell s x.key { sat := c.sat }

/-- The elements of diagonal k of an area: rows 0 to m, columns 0 to n from the first of the part on (R86, R96). -/
def diagEls (e h t c0 m n k : Nat) : List El :=
  (List.range (m + 1)).filterMap fun i => if i ≤ k && k - i ≤ n then some ⟨e, h, t, i, c0 + (k - i)⟩ else none

/-- The flags of a tile once every element of its open cascade is closed: OPEN, TOP_VALID and CHUNKS clear, lapses and
saturations are counted (R64, R69, R70). -/
def closeFlags (s : State) (k : Nat) : State :=
  let ts := getTile s k
  let s := if !ts.isInt && ts.lapsed then incP s (pk 0x0D40 6) 1 else s
  let s := if ts.isInt && 0 < ts.newSat then incP s (pk 0x0D40 5) ts.newSat else s
  setTile s k { ts with isOpen := false, top := false, chunks := 0, newSat := 0 }

/-! ### B operand from beats (R101, R102) -/

/-- Image byte offsets of the metadata of a format, from the bytes of a metadata bank (R102). -/
def bankRd (f : Nat) (bank : List (Byte × Bool)) : Nat → Byte := fun off =>
  let k := if f == 0x14 then off / 40 * 8 + (off % 40 - 32)
    else if f == 0x15 then off / 36 * 10 + (off % 36 - 26)
    else if f == 0x16 then off - 8192
    else off - 8 * eltBits f * 64
  (bank.getD k (0, false)).1

/-- The code of k offset `dd` in column field `j` of a beat (R101). -/
def laneCode (b : Beat) (dd j : Nat) : Nat :=
  let w := laneBits b.fmt
  (b.data >>> (32 * j + w * dd)) % 2 ^ w

/-- The B element of a beat at k offset `dd`, column `j`. -/
def beatEl (b : Beat) (bank : List (Byte × Bool)) (dd j : Nat) : PV :=
  let k := b.beat * 2 ^ b.depth + dd
  let (r, c) := if b.trans then (j, k) else (k, j)
  ⟨decodeCode b.fmt (bankRd b.fmt bank) (laneCode b dd j) r c, bit b.pcol j || bank.any (·.2)⟩

/-- Blocks decoded with a beat that have both markers valid at one position (R45, 0D40h.02). -/
def beatConflicts (b : Beat) (bank : List (Byte × Bool)) : Nat :=
  if !fmtMarked b.fmt then 0
  else if b.trans then (if b.first then sumNat ((List.range 64).map fun i => conflictRow b.fmt (bankRd b.fmt bank) i) else 0)
  else sumNat ((List.range (2 ^ b.depth)).map fun dd => conflictRow b.fmt (bankRd b.fmt bank) (b.beat * 2 ^ b.depth + dd))

/-! ### Chunks of an MMA -/

/-- Chunks of an MMA: ceil(K / g) (R61). -/
def mmaChunks (op : Mma) : Nat := ceilDiv op.k op.g

/-- Spans of 64 k of an MMA, each with its own A tile image (R114, R137). -/
def mmaSpans (op : Mma) : Nat := ceilDiv op.k 64

/-- The first line of the A tile image of span q (R137). -/
def spanLine (op : Mma) (q : Nat) : Nat := op.aLine + q * op.aStride

/-- Both operands of an MMA are of integer class. -/
def mmaInt (op : Mma) : Bool := fmtClass op.fmtA == .integer

/-- The image offsets of a format's metadata sequence (R102). -/
def metaOffsets (f : Nat) : List Nat :=
  if fmtMx f then (List.range 128).map (8 * eltBits f * 64 + ·)
  else if f == 0x16 then (List.range 64).map (8192 + ·)
  else if f == 0x14 then (List.range 512).map fun k => 40 * (k / 8) + 32 + k % 8
  else if f == 0x15 then (List.range 320).map fun k => 36 * (k / 10) + 26 + k % 10
  else []

/-- Open the tile of an MMA (R65): NEW or CONT. -/
def openTile (s : State) (k : Nat) (op : Mma) : State :=
  let ts := getTile s k
  if op.cont then
    (if ts.isOpen then s else setTile s k { ts with isOpen := true, chunks := 0, newSat := 0, byCont := true })
  else setTile s k { ts with isOpen := true, isInt := mmaInt op, lapsed := false, top := false, intSat := false,
                             chunks := 0, newSat := 0, byCont := false }

/-- Push a chunk into one element: its operand pairs, its sum, and the NaNs it generates (R59 to R64, R70, R84). -/
def pushChunk (s : State) (op : Mma) (u : Nat) (x : El) (ps : List (PV × PV)) : State :=
  if mmaInt op then pushInt s x (chunkInt ps) (ps.any fun q => q.1.p || q.2.p)
  else
    let (v, m1) := chunkSum op.g ps
    let (s, m2) := pushEl s x v
    countNan s 2 (m1 + m2) op.dom u

/-- The NaNs among the B elements that a chunk of an MMA reads: its columns from `j0` on (R59). -/
def chunkNansB (op : Mma) (b : Beat) (bank : List (Byte × Bool)) (j0 c : Nat) : Nat :=
  sumNat ((List.range (op.n1 + 1)).map fun j =>
    ((List.range (min op.g (op.k - c * op.g))).filter fun dd => (beatEl b bank dd (j0 + j)).v.isNaN).length)

/-! ### Accumulator reads (R138 to R142) -/

/-- The value of an element that a read of a tile of that class takes (R66): integer values converted by RNE (R71). -/
def readEl (s : State) (isInt : Bool) (x : El) : PV :=
  let c := getCell s x.key
  if isInt then
    (if c.inCas && !c.hasT then ⟨FV.zero, false⟩ else ⟨roundF32 (intFV (sext 32 (wordBits s x.top))), poisoned s x.top⟩)
  else if c.inCas then (closeVal s x).1
  else wordPV s x.top

/-- The NaNs that the adds of such a read generate (R60, R66). -/
def readMade (s : State) (isInt : Bool) (x : El) : Nat :=
  if !isInt && (getCell s x.key).inCas then (closeVal s x).2 else 0

/-- Write the runs of converted rows into a core's memory. -/
def writeRuns (s : State) (u line : Nat) (rs : List (Nat × List PByte)) : State :=
  rs.foldl (fun s r => writeP s (corePa u (64 * line + r.1)) r.2) s

/-- What converting row i of a tile gives, or the ZMT row pair that begins with it (R140): `c0` is the first column and
`draw` the draw of a row and column. -/
def rowOut (f rmode marks : Nat) (draw : Nat → Nat → Nat) (rd : Nat → Byte) (c0 i : Nat) (vals : List PV) : RowOut :=
  if f == 0x15 then encodeRow f rmode marks (fun x => draw (i + x / 64) (x % 64)) rd i 0 vals
  else encodeRow f rmode marks (fun x => draw i (c0 + x)) rd i c0 vals

/-- Count what conversions gave: saturations of the tensor, NaNs lost, NaN blocks (R52, R55, R169). -/
def countConv (s : State) (tensor : Nat) (os : List RowOut) : State :=
  let s := countSat s tensor (sumNat (os.map (·.sat)))
  let s := incP s (pk 0x0D40 3) (sumNat (os.map (·.lost)))
  incP s (pk 0x0D40 4) (sumNat (os.map (·.nanBlock)))

/-- The element index of R132. -/
def elemIndex (width row col i j : Nat) : Nat := (row + i) * width + col + j

/-- The columns of a row, or of a row pair, whose values are NaN: row offset and column (R52). -/
def nanAt (vals : List PV) : Nat × Nat :=
  match (List.range vals.length).find? fun j => (vals.getD j ⟨FV.zero, false⟩).v.isNaN with
  | some j => (j / 64, j % 64)
  | none => (0, 0)

/-- ROW and COL after a destination tile of a tensor of that width; a ROW past 24 bits wraps (R132, DESIGN CHOICE). -/
def nextPos (width : Nat) (p : Nat × Nat) : Nat × Nat :=
  if width ≤ p.2 + 64 then ((p.1 + 64) % 2 ^ 24, 0) else (p.1, p.2 + 64)

/-- ROW and COL of tile n from those of the first (R132). -/
def tilePos (width : Nat) : Nat → Nat × Nat → Nat × Nat
  | 0, p => p
  | n + 1, p => tilePos width n (nextPos width p)

/-- The position register after n destination tiles (R132). -/
def nextTiles (n : Nat) (x : NeedleSt) : NeedleSt :=
  let p := tilePos x.width n (x.row, x.col)
  { x with row := p.1, col := p.2 }

/-- The stages 1 to 3 of R139 for one element: v, x and y, with the NaNs generated. -/
def accStages (s : State) (u : Nat) (r : AccRead) (x : El) : PV × PV × Nat :=
  let w := r.word
  let v := readEl s r.isInt x
  let m0 := readMade s r.isInt x
  let aux (line j : Nat) : PV := wordPV s (corePa u (64 * (r.aux + line) + 4 * j))
  let isInt := r.isInt
  let mul (a : PV) (b : PV) : PV := ⟨mulF32 a.v b.v, a.p || b.p⟩
  let rs := aux 4 x.i
  let cs := aux 8 x.j
  let (v, m1) := if isInt && accRowScale w then (mul v rs, mulMade v.v rs.v) else (v, 0)
  let (v, m2) := if isInt && accColScale w then (mul v cs, mulMade v.v cs.v) else (v, 0)
  let b := aux 0 x.j
  let (xv, m3) := if accBias w then (addPV v b, addMade (some v.v) (some b.v)) else (v, 0)
  (xv, ⟨activation (accFunc w) xv.v, xv.p⟩, m0 + m1 + m2 + m3)

/-- The window address of the first poisoned word behind element (i, j) of a read: its own element, else its bias or
scale word (R301). -/
def accPoisonAt (s : State) (u : Nat) (r : AccRead) (x : El) : Nat :=
  let aux (line j : Nat) : Nat := corePa u (64 * (r.aux + line) + 4 * j)
  if (readEl s r.isInt x).p then x.top
  else if accRowScale r.word && poisoned s (aux 4 x.i) then aux 4 x.i
  else if accColScale r.word && poisoned s (aux 8 x.j) then aux 8 x.j
  else aux 0 x.j

/-- A fault of a read or MMA on an engine, with what its record names (R226). -/
def engFault (s : State) (code d u needle m half off d0 d1 : Nat) : Raised :=
  { mkRaised s code d u with needle := needle, engine := m, half := half, offset := off, detail0 := d0, detail1 := d1 }

/-- Complete the image of a push from its runs, unwritten bytes zero. -/
def imageOf (f : Nat) (rs : List (Nat × List PByte)) : List PLine :=
  let m := rs.foldl (fun m r => ((List.range r.2.length).zip r.2).foldl
    (fun m x => SMap.set (0, false) m (r.1 + x.1) x.2) m) ([] : SMap PByte)
  (List.range (imageLines f)).map fun l => plineOf ((List.range 64).map fun i => SMap.get (0, false) m (64 * l + i))

/-! ### Rows of a tile (R66, R88, R96) -/

/-- The columns of a half of a row: all of them, or 32. -/
def halfCols (half : Nat) : List Nat :=
  match half with
  | 1 => List.range 32
  | 2 => (List.range 32).map (32 + ·)
  | _ => List.range 64

/-- The half index of a HALF field. -/
def halfIdx (half : Nat) : Nat := if half == 2 then 1 else 0

end Sys2Proof.Machine
end

