-- ==== Sys2Proof/Machine/Transfers.lean ====
section
/-!
DEFINITION. What a mesh unit sends (R151, R152, R158 to R160, R197 to R199, R238 to R240): routes, the packets and flits of
a transfer as its lines come, pushes, the narrow path and the pool of operation tags (R270).
-/
namespace Sys2Proof.Machine

/-! ### Routes (R238 to R240) -/

/-- The router after `p` on the X-first way to `d`. -/
def xFirst (p d : Nat) : Nat :=
  if p % 8 < d % 8 then p + 1 else if d % 8 < p % 8 then p - 1 else if p < d then p + 8 else p - 8

/-- The routers after `p` on the X-first route to `d`. -/
def xPath (d : Nat) : Nat → Nat → List Nat
  | 0, _ => []
  | n + 1, p => if p == d then [] else xFirst p d :: xPath d n (xFirst p d)

/-- The routers after the source on the route of a pair. -/
def route (s : State) (src dst : Nat) : List Nat :=
  match viaOf s src dst with
  | some v => xPath v 14 src ++ xPath dst 14 v
  | none => xPath dst 14 src

/-- The routers of a route, source first. -/
def routeFrom (s : State) (src dst : Nat) : List Nat := src :: route s src dst

/-- What follows an entry in a list. -/
def nextIn (p : Nat) : List Nat → Option Nat
  | a :: b :: r => if a == p then some b else nextIn p (b :: r)
  | _ => none

/-- The port of router `p` that faces its neighbour `q`: 0 West, 1 North, 2 East, 3 South. -/
def portOf (p q : Nat) : Nat := if q + 1 == p then 0 else if q + 8 == p then 1 else if q == p + 1 then 2 else 3

/-- The direction code of 0902h.02 for the link from `p` to `q`: 0 North, 1 East, 2 South, 3 West. -/
def linkDir (p q : Nat) : Nat := if q + 8 == p then 0 else if q == p + 1 then 1 else if q == p + 8 then 2 else 3

/-- Consecutive pairs of a list. -/
def pairsOf : List Nat → List (Nat × Nat)
  | a :: b :: r => (a, b) :: pairsOf (b :: r)
  | _ => []

/-! ### Transfers between core memory and device memory (R151, R152) -/

/-- The position at which an address of the physical map is served: stacks at their tiles (R22), core and accumulator
windows at their core, staging SRAM at the bridge of its I/O die. -/
def posAt (s : State) (pa : Nat) : Nat :=
  match regionOf s pa with
  | .hbm => stackPos (stackAt pa)
  | .page _ _ => stackPos (stackAt pa)
  | .core p _ => p
  | .acc e _ => elandPos (e / 4)
  | .staging i _ => if i == 0 then 0 else 7
  | .reserved => 0

/-- Update the operation of a unit that holds a tag. -/
def updXfer (s : State) (u tag : Nat) (f : Xfer → Xfer) : State :=
  { s with xfers := s.xfers.map fun x => if x.unit == u && x.tag == tag then f x else x }

/-- The operation of a unit that holds a tag. -/
def findXfer (s : State) (u tag : Nat) : Option Xfer := s.xfers.find? fun x => x.unit == u && x.tag == tag

/-- An operation writes device memory. -/
def xWrites (k : XKind) : Bool := k == .tst || k == .nscat

/-- Fault 12h of a transfer at an address (R152, R228). -/
def xferFault (s : State) (x : Xfer) (va : Nat) : State :=
  raise s { mkRaised s 0x12 x.dom x.unit with
    needle := x.needle, offset := x.offset, detail0 := va, detail1 := x.word % 2 ^ 64 }

/-- Lines of the next request of a transfer: within a 4 KiB block, `rest` at most (R268, R286, R291). -/
def packetLines (va rest : Nat) : Nat := min rest ((4096 - va % 4096) / 64)

/-- The narrow accesses of a core's NGATH or NSCAT. -/
def narrowPkt (s : State) (p : Packet) : Bool :=
  match p.owner with
  | .op u tag => match findXfer s u tag with
    | some x => x.kind == .ngath || x.kind == .nscat
    | none => false
  | _ => false

/-- A transfer's next request can go: it is not halted, and the lines of a write have been read. -/
def canSend (x : Xfer) (k : Nat) : Bool := decide (x.sent < x.total) && x.halted.isNone && (!xWrites x.kind || decide (k ≤ x.data.length))

/-- Send the packets of a TLD or TST from where it stands, until it is sent, halted or waits for lines (R152, R271). -/
def pump (u tag : Nat) : Nat → State → State
  | 0, s => s
  | n + 1, s =>
    match findXfer s u tag with
    | none => s
    | some x =>
      let va := x.va + 64 * x.sent
      let k := packetLines va (x.total - x.sent)
      if !canSend x k then s
      else
        let wr := xWrites x.kind
        match translate s x.dom va wr with
        | (.bad, s) => xferFault s x va
        | (.absent, s) =>
          let (slot, s) := takeHalt s x.dom (.op u tag) wr 0x7FFF x.done u va x.word x.offset
          updXfer s u tag fun x => { x with halted := some slot }
        | (.ok pa pte, s) =>
          -- a line that may not be accessed ends the request: the next one faults
          let k := runOk s x.dom pa (64 * k) wr / 64
          let p : Packet :=
            { ty := if wr then 0 else 1, src := posOf u, dst := posAt s pa, vc := 0, dom := x.dom, owner := .op u tag,
              line := x.loc + x.sent, pa := pa, va := va, off := x.sent, n := k, data := if wr then x.data.take k else [],
              tok := none, dead := s.ctc + 2 ^ 20, born := x.born, members := [], pte := pte }
          pump u tag n (updXfer (sendPacket s p) u tag fun x => { x with sent := x.sent + k, data := x.data.drop k })

/-- Send the packets of a PUT or GET, of at most 32 lines, as far as its lines have been read (R152, R235). A PUT's token goes
with its last packet (R253). -/
def pumpCore (u tag : Nat) : Nat → State → State
  | 0, s => s
  | n + 1, s =>
    match findXfer s u tag with
    | none => s
    | some x =>
      let k := min 32 (x.total - x.sent)
      let put := x.kind == .put
      if x.total ≤ x.sent || (put && decide (x.data.length < k)) then s
      else
        let p : Packet :=
          { ty := if put then 0 else 1, src := posOf u, dst := x.tgt, vc := 0, dom := x.dom, owner := .op u tag,
            line := x.loc + x.sent, pa := coreBase x.tgt + 64 * (x.rline + x.sent), va := 0, off := x.sent, n := k,
            data := if put then x.data.take k else [], tok := if put && decide (x.total ≤ x.sent + k) then x.tok else none,
            dead := 0, born := x.born, members := [] }
        pumpCore u tag n (updXfer (sendPacket s p) u tag fun x => { x with sent := x.sent + k, data := x.data.drop k })

/-- Send the flits of an RSEND, two lines each, as far as its lines have been read (R234, R243). -/
def pumpRed (u tag : Nat) : Nat → State → State
  | 0, s => s
  | n + 1, s =>
    match findXfer s u tag with
    | none => s
    | some x =>
      let k := min 2 (x.total - x.sent)
      if x.total ≤ x.sent || decide (x.data.length < k) then s
      else
        let f : RedFlit := ⟨x.tgt, posOf u, 4, x.rline, x.sent / 2, x.data[0]?, if k == 2 then x.data[1]? else none,
          decide (x.total ≤ x.sent + k), 2⟩
        pumpRed u tag n (updXfer { s with red := s.red ++ [f] } u tag fun x =>
          { x with sent := x.sent + k, data := x.data.drop k })

/-! ### Answers to DMA transfers -/

/-- A part of a DMA transfer has been answered: a piece of host data, or an acknowledged or delivered write (R279). -/
def dmaAnswered (s : State) (ch id part : Nat) (bs : Option (List Byte)) : State :=
  let x := getDma s ch
  setDma s ch { x with xfers := x.xfers.map fun t =>
    if t.id == id then { t with wait := t.wait - 1, parts := match bs with
      | some b => SMap.set [] t.parts part b
      | none => t.parts } else t }

/-! ### The pool of operation tags (R270) -/

/-- Whether a packet is a stream request or a narrow access on its way, or the answer to one: it holds a tag of the pool. -/
def poolPkt (s : State) (k : Packet) : Bool :=
  match k.owner with
  | .stream _ _ => true
  | .op _ _ => narrowPkt s k
  | _ => false

/-- The packets on their way, those that wait at a stack included. -/
def allPackets (s : State) : List Packet := s.packets ++ s.hbmq.flatMap fun x => x.2.map (·.pkt)

/-- The requests that hold a tag of the pool; the copies of a multicast hold one. -/
def poolRequests (s : State) : List (Owner × Nat) :=
  (((allPackets s).filter fun k => poolPkt s k).map fun k => (k.owner, k.off)).eraseDups

/-- Pool tags in use: stream requests, narrow accesses and DMA transfers in flight. A spill or refill of the Stash is one step
of the model and holds none between commands. -/
def poolUsed (s : State) : Nat := (poolRequests s).length + sumNat (s.dmas.map fun x => x.2.xfers.length)

/-- Tags that the quotas leave to the pool. -/
def poolSize (s : State) : Nat := 4096 - sumNat ((List.range 64).map fun p => getP s (pk 0x0701 (p + 1)))

/-- The pool has a tag for another requester. -/
def poolFree (s : State) : Bool := decide (poolUsed s < poolSize s)

/-! ### The narrow path (R197, R198) -/

/-- An earlier instruction of the core still has to access the granule: its access comes first (R198). -/
def granuleHeld (s : State) (x : Xfer) (va : Nat) : Bool :=
  (s.xfers.takeWhile fun y => !(y.unit == x.unit && y.tag == x.tag)).any fun y =>
    y.unit == x.unit && y.dom == x.dom && y.grans.any fun g => g.1 == va

/-- Send the granule accesses of an NGATH or NSCAT from where it stands, until it is sent, halted, or waits for a granule to be
read, for an earlier access or for a tag of the pool (R198, R270, R271). -/
def pumpNarrow (u tag : Nat) : Nat → State → State
  | 0, s => s
  | n + 1, s =>
    match findXfer s u tag with
    | none => s
    | some x =>
      match x.grans with
      | [] => s
      | (va, byte) :: rest =>
        let wr := x.kind == .nscat
        if x.halted.isSome || (wr && x.data.isEmpty) || granuleHeld s x va || !poolFree s then s
        else
          match translate s x.dom va wr with
          | (.bad, s) => xferFault s x va
          | (.absent, s) =>
            let (slot, s) := takeHalt s x.dom (.op u tag) wr 0x7FFF x.done u va x.word x.offset
            updXfer s u tag fun x => { x with halted := some slot }
          | (.ok pa pte, s) =>
            -- the narrow path reaches HBM alone (R290, R292)
            if hbmEnd ≤ pa then xferFault s x va
            else
              let p : Packet :=
                { ty := if wr then 0 else 1, src := posOf u, dst := posAt s pa, vc := 0, dom := x.dom,
                  owner := .op u tag, line := 0, pa := pa, va := va, off := byte, n := 1,
                  data := if wr then x.data.take 1 else [], tok := none, dead := s.ctc + 2 ^ 20, born := x.born,
                  members := [], pte := pte }
              pumpNarrow u tag n (updXfer (sendPacket s p) u tag fun x =>
                { x with sent := x.sent + 1, grans := rest, data := x.data.drop 1 })

/-- Narrow accesses that waited go on, oldest instruction first. -/
def pumpWaiting (s : State) : State :=
  (s.xfers.filter fun x => !x.grans.isEmpty && x.halted.isNone).foldl
    (fun s x => pumpNarrow x.unit x.tag (x.grans.length + 1) s) s

/-! ### Starting transfers -/

/-- A TLD, TST, MLD or MST as it starts: it holds its tag until it completes. -/
def longXfer (s : State) (u needle tag d : Nat) (kind : XKind) (va line n : Nat) (tok : Option (Nat × Nat)) (w off : Nat) :
    Xfer :=
  ⟨u, needle, tag, d, kind, n, 0, 0, va, line, 0, 0, tok, [], [], none, w, off, s.ctc⟩

/-- A PUT or GET, MPUT or MGET as it starts (R152). -/
def coreXfer (s : State) (u needle tag d : Nat) (put : Bool) (tgt line rline n : Nat) (tok : Option Nat) (w off : Nat) : Xfer :=
  ⟨u, needle, tag, d, if put then .put else .get, n, 0, 0, 0, line, tgt, rline,
    tok.map fun t => (if put then tgt else posOf u, t), [], [], none, w, off, s.ctc⟩

/-- Add an operation to those in flight. -/
def addXfer (s : State) (x : Xfer) : State := { s with xfers := s.xfers ++ [x] }

/-- Send what an operation has ready, by its kind. -/
def pumpXfer (u tag n : Nat) (s : State) : State :=
  match findXfer s u tag with
  | none => s
  | some x =>
    match x.kind with
    | .tld | .tst => pump u tag n s
    | .put | .get => pumpCore u tag n s
    | .rsend => pumpRed u tag n s
    | .ngath | .nscat => pumpNarrow u tag n s
    | .spush | .spop | .accPush => s

/-- Start an operation whose lines, if it writes any, have been read. -/
def startXfer (s : State) (x : Xfer) (data : List PLine) : State :=
  pumpXfer x.unit x.tag (x.total + 1) (addXfer s { x with data := data })

/-- The members and root of a tree (R242). -/
def treeRoot (s : State) (t : Nat) : Nat := getP s (pk (0x0910 + t) 1)
def treeMembers (s : State) (t : Nat) : Nat := getP s (pk (0x0910 + t) 2)

/-- An RSEND of the core is allowed on the tree (R245). -/
def treeOk (s : State) (u t : Nat) : Bool := treeRoot s t ≠ 0xFF && bit (treeMembers s t) (posOf u)

/-- An RSEND or MRSEND as it starts: its round is the member's next (R244). -/
def redXfer (s : State) (u needle tag d t line n w off : Nat) : Xfer × State :=
  let p := posOf u
  let k := SMap.get 0 s.redSent (t * 64 + p)
  (⟨u, needle, tag, d, .rsend, n, 0, 0, 0, line, t, k, none, [], [], none, w, off, s.ctc⟩,
    { s with redSent := SMap.set 0 s.redSent (t * 64 + p) (k + 1) })

/-- A transfer's line count is reserved (R151). -/
def linesBad (n : Nat) : Bool := n == 0 || decide (196608 < n)

/-- The last line of a target range lies beyond the target's core memory, or the position holds no core (R152). -/
def targetBad (p line n : Nat) : Bool :=
  match unitAt p with
  | some u => decide (coreLines u < line + n)
  | none => true

def tokOf (en : Bool) (t : Nat) : Option Nat := if en then some t else none


/-! ### Pushes (R158 to R160) -/

/-- Bytes of a slice below the entries of a lane (R158): its LINES, top first. -/
def laneEnd (ls : List Nat) : Nat := sumNat (ls.map fun l => 64 * (l + 1))

/-- The slice of a lane, in bytes (R158). -/
def sliceSize (s : State) (strand : Nat) : Nat := getP s (pk 0x0851 (strand + 1)) / 64

def getDepth (s : State) (strand p : Nat) : List Nat := SMap.get [] s.depth (strand * 64 + p)
def setDepth (s : State) (strand p : Nat) (l : List Nat) : State := { s with depth := SMap.set [] s.depth (strand * 64 + p) l }

/-- The slice check of a push of `n` images of `lines` lines: where it would end, if beyond the slice (R158). -/
def stashFull (s : State) (u strand lines n : Nat) : Option (Nat × Nat) :=
  let stop := laneEnd (getDepth s strand (posOf u)) + n * 64 * (lines + 1)
  if sliceSize s strand < stop then some (strand + posOf u * 2 ^ 8 + stop * 2 ^ 16, sliceSize s strand) else none

/-- Note pushed entries in the core's own depth of its lane. -/
def notePush (s : State) (u strand lines n : Nat) : State :=
  setDepth s strand (posOf u) (List.replicate n lines ++ getDepth s strand (posOf u))

/-- A push begins: it holds its tag and its push slot, and its entries, whose images are still to come, take their place
in the lane's order (R155, R159, R160). -/
def beginPush (s : State) (u needle d tag strand etag fmt dstep word off n : Nat) (kind : XKind) : State :=
  let x : Xfer := ⟨u, needle, tag, d, kind, n, 0, 0, 0, 0, strand, 0, none, [], [], none, word, off, s.ctc⟩
  let m : StashMsg := ⟨u, needle, tag, d, strand, false, etag, fmt, dstep, 1, 0, [], off, false, 0⟩
  { s with xfers := s.xfers ++ [x], stashQ := s.stashQ ++ List.replicate n m }

/-- Complete the first entry of a push whose image is still to come (R159). -/
def fillEntry (u tag : Nat) (img : List PLine) : List StashMsg → List StashMsg
  | [] => []
  | m :: r => if m.unit == u && m.tagNo == tag && !m.isPop && !m.ready then { m with img := img, ready := true } :: r
    else m :: fillEntry u tag img r

/-- An image of a push is complete and leaves the core. -/
def pushImage (s : State) (u tag : Nat) (img : List PLine) : State :=
  updXfer { s with stashQ := fillEntry u tag img s.stashQ } u tag fun x => { x with sent := x.sent + 1 }

/-- A push that failed keeps no entry: what it had under way is gone, and it holds its tag no more (R141, R148). -/
def dropPush (s : State) (u tag : Nat) : State :=
  { s with stashQ := s.stashQ.filter fun m => !(m.unit == u && m.tagNo == tag && !m.isPop)
           xfers := s.xfers.filter fun x => !(x.unit == u && x.tag == tag && (x.kind == .spush || x.kind == .accPush)) }

/-- Send the entries of a push whose lines have been read (R159). -/
def pumpPush (u tag size : Nat) : Nat → State → State
  | 0, s => s
  | n + 1, s =>
    match findXfer s u tag with
    | none => s
    | some x =>
      if x.total ≤ x.sent || decide (x.data.length < size) then s
      else pumpPush u tag size n (updXfer (pushImage s u tag (x.data.take size)) u tag fun x => { x with data := x.data.drop size })

end Sys2Proof.Machine
end

