-- ==== Sys2Proof/Machine/Jobs.lean ====
section
/-!
DEFINITION. The memory accesses of a Chamois core cycle by cycle (R177, R179, R180, R192 to R201): which lines each touches,
the order of the units at a bank's port E, and what each access does.
-/
namespace Sys2Proof.Machine

/-! ### Lanes (R176) -/

/-- The bits of lane i of a vector register. -/
def laneBitsOf (v : VReg) (i : Nat) : Nat := (v.v.toNat >>> (32 * i)) % 2 ^ 32
/-- Lane i as an FP32 value with its poison mark. -/
def lanePV (v : VReg) (i : Nat) : PV := ⟨f32Of (laneBitsOf v i), v.p.toNat.testBit i⟩
/-- A vector register from the bits and marks of its 128 lanes. -/
def ofLanes (l : List (Nat × Bool)) : VReg :=
  let f (a : Nat × Nat × Nat) (x : Nat × Bool) : Nat × Nat × Nat :=
    (a.1 + 1, a.2.1 + (x.1 % 2 ^ 32) <<< (32 * a.1), a.2.2 + if x.2 then 2 ^ a.1 else 0)
  let r := l.foldl f (0, 0, 0)
  ⟨BitVec.ofNat 4096 r.2.1, BitVec.ofNat 128 r.2.2⟩
/-- The bits and mark of a value that a unit has expressed in FP32. -/
def laneOf (x : PV) : Nat × Bool := (f32Bits x.v, x.p)
/-- A lane's value. -/
def pvOf (x : Nat × Bool) : PV := ⟨f32Of x.1, x.2⟩

/-- Give a result a time at which it is visible: `lat` cycles from now (R177). -/
def result (s : State) (c d lat : Nat) (w : CWrite) : State :=
  let x := getC s c
  setC s c { x with inFlight := x.inFlight ++ [((getD s d).dcc + lat, w)] }

/-! ### Tile images by row and column (R47, R193) -/

/-- Byte runs of the image that element (i, j) lies in, its scale and its block's markers included. -/
def elemRuns (f i j : Nat) : List (Nat × Nat) :=
  if f == 0x0C then [(13 * i + j / 5, 1)]
  else if f == 0x14 then [(40 * i + j / 2, 1), (40 * i + 32, 8)]
  else if f == 0x15 then [(36 * (i / 2) + (i % 2 * 64 + j) / 5, 1), (36 * (i / 2) + 26, 9)]
  else
    let w := eltBits f
    let o := w * (64 * i + j)
    (o / 8, (o + w - 1) / 8 - o / 8 + 1) ::
      (if fmtMx f then [(8 * w * 64 + 2 * i + j / 32, 1)] else if f == 0x16 then [(8192 + i, 1)] else [])

/-- Trit bytes of value 243 and up that decoding element (i, j) alone meets (R38). -/
def tritElem (f : Nat) (rd : Nat → Byte) (i j : Nat) : Nat :=
  let off := if f == 0x0C then some (13 * i + j / 5)
    else if f == 0x15 then some (36 * (i / 2) + (64 * (i % 2) + j) / 5) else none
  match off with
  | some o => if 243 ≤ (rd o).toNat then 1 else 0
  | none => 0

/-! ### The accesses of a job (R192 to R201) -/

/-- A job works by columns. -/
def CJob.cols (j : CJob) : Bool := cbCols j.word

/-- The tile image and the row of lane i in column mode (R193). -/
def CJob.laneAt (j : CJob) (i : Nat) : Nat × Nat := (j.addrs.getD (i / 64) 0, i % 64)

/-- The lanes that access `pos` of a column-mode operation moves: eight in each of its 16 cycles (R201). -/
def colLanes (pos : Nat) : List Nat := (List.range 8).map (8 * pos + ·)

/-- The lines that the next access of a job touches. -/
def CJob.lines (j : CJob) : List Nat :=
  let f := cbFmt j.word
  let a := j.addrs.headD 0
  let column := (colLanes j.pos).flatMap fun i => runLines (j.laneAt i).1 (elemRuns f (j.laneAt i).2 (cbIdx j.word))
  let row (k : Nat) := runLines a (rowRuns f (2 * cbIdx j.word + k))
  match j.kind with
  | .vld => (List.range 8).map (a + ·)
  | .lds => [a / 64]
  | .store => j.runs.map fun r => r.1 / 64
  | .trd => if j.cols then column else row j.pos
  | .twr => if j.cols then column else row 0 ++ row 1
  | .sfacc => if j.pos < 2 then row j.pos else row 0 ++ row 1
  | .mesh => [if opcodeOf j.word == 0x59 then j.addrs.getD j.pos 0 / 64 else a + j.pos]

/-- The class of a job's requests at a bank: loads and stores, the block unit, then the mesh unit (R180). -/
def CKind.class : CKind → Nat
  | .vld | .lds | .store => 0
  | .trd | .twr | .sfacc => 1
  | .mesh => 2

/-- The element index of lane i (R194). -/
def laneIndex (width base : Nat) (cols : Bool) (i : Nat) : Nat :=
  if cols then base + i * width else base + i / 64 * width + i % 64

/-- The draw of lane i of a TWR or SFACC (R79, R194). -/
def CJob.draw (s : State) (j : CJob) (i : Nat) : Nat :=
  drawOf s j.tensor j.strand j.step (laneIndex j.width j.base j.cols i)

/-- Write `n` bits at a bit offset of an image: the run of bytes that covers them, the others kept. -/
def bitRun (rd : Nat → Byte) (bitOff n v : Nat) (p : Bool) : Nat × List (Byte × Bool) :=
  let lo := bitOff / 8
  let hi := (bitOff + n - 1) / 8
  let old := leNat ((List.range (hi + 1 - lo)).map fun i => rd (lo + i))
  let sh := bitOff % 8
  let keep := old - (old >>> sh) % 2 ^ n * 2 ^ sh
  (lo, (leBytes (hi + 1 - lo) (keep + v % 2 ^ n * 2 ^ sh)).map fun y => (y, p))

/-- One element of a column converted and put at (row, col) of an image (R195): a TERN byte keeps its other trits. -/
def elemOut (f rmode draw : Nat) (rd : Nat → Byte) (row col : Nat) (x : PV) : RowOut :=
  if f == 0x0C then encodeRow f rmode 0 (fun _ => draw) rd row col [x]
  else
    let c := convElt f (modeFor rmode (fun _ => draw) 0) x.v
    ⟨[bitRun rd (eltBits f * (64 * row + col)) (eltBits f) c.code x.p], c.sat, c.lost, 0⟩

/-- A row pair converted into an image: the rows of lanes 0 to 63 and 64 to 127, or the one ZMT block (R195). -/
def pairOut (f rmode marks : Nat) (draw : Nat → Nat) (i : Nat) (xs : List PV) : List RowOut :=
  if f == 0x15 then [encodeRow f rmode marks draw (fun _ => 0) (2 * i) 0 xs]
  else [encodeRow f rmode marks draw (fun _ => 0) (2 * i) 0 (xs.take 64),
    encodeRow f rmode marks (fun y => draw (64 + y)) (fun _ => 0) (2 * i + 1) 0 (xs.drop 64)]

/-- What a TWR's conversions of some lanes give, with the line of the image of each; `rd` reads an image. -/
def twrOut (s : State) (j : CJob) (rd : Nat → Nat → Byte) (ls : List Nat) : List (Nat × RowOut) :=
  let f := cbFmt j.word
  let rm := cbRmode j.word
  if j.cols then
    ls.map fun i => ((j.laneAt i).1,
      elemOut f rm (j.draw s i) (rd (j.laneAt i).1) (j.laneAt i).2 (cbIdx j.word) (pvOf (j.vals.getD i (0, false))))
  else (pairOut f rm (cbMarks j.word) (j.draw s) (cbIdx j.word) (j.vals.map pvOf)).map fun o => (j.addrs.headD 0, o)

/-- The sums of an SFACC: the stored elements expressed in FP32 plus the lanes (R51, R173, R196). -/
def sfaccSums (j : CJob) : List PV :=
  (List.range 128).map fun i =>
    let a := pvOf (j.lanes.getD i (0, false))
    let b := pvOf (j.vals.getD i (0, false))
    ⟨addFV a.v b.v, a.p || b.p⟩

/-- The rows that an SFACC encodes again. -/
def sfaccOut (s : State) (j : CJob) : List RowOut := pairOut 0x16 (cbRmode j.word) 0 (j.draw s) (cbIdx j.word) (sfaccSums j)

/-- A fault of a Chamois instruction, with what its record names (R226, R228). -/
def chamFault (s : State) (c d off code d0 d1 : Nat) : Raised :=
  { mkRaised s code d (0x40 + c) with needle := 2, offset := off, detail0 := d0, detail1 := d1 }

/-- A TRD or SFACC reads lanes: their values in FP32, with what their decoding counts (R38, R45, R51, R193). -/
def readLanes (s : State) (u : Nat) (j : CJob) : State × CJob :=
  let f := cbFmt j.word
  let col := cbIdx j.word
  let rd (l : Nat) := coreRd s u l
  let ps : List (Nat × Nat × Nat) :=
    if j.cols then (colLanes j.pos).map fun i => ((j.laneAt i).1, (j.laneAt i).2, col)
    else (List.range 64).map fun k => (j.addrs.headD 0, 2 * col + j.pos, k)
  let l := j.addrs.headD 0
  let trits := if j.cols then sumNat (ps.map fun p => tritElem f (rd p.1) p.2.1 p.2.2)
    else ternInvalidRow f (rd l) (2 * col + j.pos)
  let clash := if j.cols then sumNat (ps.map fun p => conflictRow f (rd p.1) p.2.1) else conflictRow f (rd l) (2 * col + j.pos)
  let xs := ps.map fun p => elemAt f (rd p.1) (corePz s u p.1) p.2.1 p.2.2
  let s := incP (incP s (pk 0x0D40 1) trits) (pk 0x0D40 2) clash
  (s, { j with lanes := j.lanes ++ xs.map fun x => laneOf ⟨stage2 x.v, x.p⟩ })

/-- Write runs of an image at a line. -/
def writeOuts (s : State) (u : Nat) (os : List (Nat × RowOut)) : State :=
  os.foldl (fun s o => writeRuns s u o.1 o.2.runs) s

/-- The job after an access, its next one a number of cycles on; none after its last. -/
def CJob.after (j : CJob) (dcc gap : Nat) : Option CJob :=
  if j.pos + 1 < j.count then some { j with pos := j.pos + 1, at_ := dcc + gap } else none

/-- An SFACC has read its second row: NaNs count, a lost NaN under policy 01h faults and nothing is written, else the
conversions count (R52, R196, R200). -/
def sfaccRead (s : State) (c d dcc : Nat) (j : CJob) : State × Option CJob :=
  let u := 0x40 + c
  let os := sfaccOut s j
  let old (i : Nat) : FV := (pvOf (j.lanes.getD i (0, false))).v
  let new (i : Nat) : FV := (pvOf (j.vals.getD i (0, false))).v
  let made := sumNat ((List.range 128).map fun i => addMade (some (old i)) (some (new i)))
  let s := countNan s 1 (((List.range 128).filter fun i => (new i).isNaN).length) d u
  let s := countNan s 2 made d u
  if j.pol == 1 && os.any fun o => 0 < o.lost then
    let bad := (List.range 128).find? fun i => ((sfaccSums j).getD i ⟨FV.zero, false⟩).v.isNaN
    (raise s (chamFault s c d j.offset 0x14 (laneIndex j.width j.base false (bad.getD 0)) 0), none)
  else (countConv s j.tensor os, j.after dcc 12)

/-- A mesh-unit read of one line, or of one granule of an NSCAT: it joins the operation's data, which sends what it can; a
poisoned word of a CPUSH faults, and the Stash keeps no tile of it (R197, R199, R201). -/
def meshRead (s : State) (c d dcc : Nat) (j : CJob) : State × Option CJob :=
  let u := 0x40 + c
  let line := j.lines.headD 0
  let l := lineE s u line
  let op := opcodeOf j.word
  if op == 0x59 then
    let half := plineOf (((plineBytes l).drop (j.addrs.getD j.pos 0 % 64)).take 32 ++ List.replicate 32 (0, false))
    (pumpXfer u j.tag (j.count + 1) (updXfer s u j.tag fun x => { x with data := x.data ++ [half] }), j.after dcc 1)
  else if op == 0x68 then
    match firstPoison s u line 1 with
    | some pa => (raise (dropPush s u j.tag) (chamFault s c d j.offset 0x0B pa 1), none)
    | none =>
      (pumpPush u j.tag (imageLines (ckFmt j.word)) 2 (updXfer s u j.tag fun x => { x with data := x.data ++ [l] }),
        j.after dcc 1)
  else (pumpXfer u j.tag (j.count + 1) (updXfer s u j.tag fun x => { x with data := x.data ++ [l] }), j.after dcc 1)

/-- The job's next access reads memory (R296). -/
def CJob.reads (j : CJob) : Bool := !(j.kind == .store || j.kind == .twr || (j.kind == .sfacc && decide (2 ≤ j.pos)))

/-- The access of a job that has its banks: what it does to the machine, and the job after it. -/
def doJob (s : State) (c d dcc : Nat) (j : CJob) : State × Option CJob :=
  let u := 0x40 + c
  let s := if j.reads then j.lines.foldl (fun s l => checkLines s u l 1 d) s else s
  match j.kind with
  | .vld =>
    let bs := readP s (corePa u (64 * j.addrs.headD 0)) 512
    let v := ofLanes ((List.range 128).map fun i =>
      let q := (bs.drop (4 * i)).take 4
      (leNat (q.map (·.1)), q.any (·.2)))
    (result s c d 4 (.v (cmReg j.word % 32) (BitVec.allOnes 128) v), none)
  | .lds =>
    let bs := readP s (corePa u (j.addrs.headD 0)) 8
    (result s c d 3 (.s (cmReg j.word) ⟨BitVec.ofNat 64 (leNat (bs.map (·.1))), bs.any (·.2)⟩), none)
  | .store => (j.runs.foldl (fun s r => writeP s (corePa u r.1) r.2) s, none)
  | .trd =>
    let (s, j) := readLanes s u j
    if j.pos + 1 < j.count then (s, j.after dcc 1)
    else (result s c d (if j.cols then 8 else 6) (.v (cbV j.word) (BitVec.allOnes 128) (ofLanes j.lanes)), none)
  | .twr =>
    let ls := if j.cols then colLanes j.pos else List.range 128
    let s' := writeOuts s u (twrOut s j (fun l => coreRd s u l) ls)
    (foldAmax s' j.tensor (some j.strand) (ls.map fun i => pvOf (j.vals.getD i (0, false))), j.after dcc 1)
  | .sfacc =>
    if j.pos < 2 then
      let (s, j) := readLanes s u j
      if j.pos == 1 then sfaccRead s c d dcc j else (s, j.after dcc 1)
    else
      let s' := writeOuts s u ((sfaccOut s j).map fun o => (j.addrs.headD 0, o))
      (foldAmax s' j.tensor (some j.strand) (sfaccSums j), none)
  | .mesh => meshRead s c d dcc j

/-! ### Banks (R175, R180) -/

/-- The banks that a job's next access needs. -/
def CJob.banks (j : CJob) : List Nat := j.lines.map (· % 16)

/-- The requests of a core in a cycle, with their places among its jobs, in the order in which a bank serves them: by unit,
within one by issue; the mesh unit reads for one instruction at a time, the oldest (R180, R201). -/
def requests (dcc : Nat) (js : List CJob) : List (Nat × CJob) :=
  let l := (List.range js.length).zip js
  let of (k : Nat) : List (Nat × CJob) := l.filter fun x => x.2.kind.class == k
  (of 0 ++ of 1 ++ (of 2).take 1).filter fun x => decide (x.2.at_ ≤ dcc)

/-- What serving a cycle's requests leaves: the machine, by place the job that goes on, whether a load, store or block-unit
request lost a bank, and whether a column-mode operation did. -/
structure Served where
  s    : State
  out  : List (Nat × Option CJob) := []
  lost : Bool := false
  col  : Bool := false

/-- Serve the requests of a cycle: a request whose banks are free makes its access, another waits (R180). -/
def serve (c d dcc : Nat) : List (Nat × CJob) → List Nat → Served → Served
  | [], _, a => a
  | (i, j) :: r, used, a =>
    let bs := j.banks
    if bs.any used.contains then
      serve c d dcc r used { a with
        out := (i, some { j with at_ := dcc + 1 }) :: a.out
        lost := a.lost || decide (j.kind.class < 2)
        col := a.col || (j.kind.class == 1 && j.cols) }
    else
      let (s, k) := doJob a.s c d dcc j
      serve c d dcc r (bs ++ used) { a with s := s, out := (i, k) :: a.out }

/-- A cycle in which a request lost a bank holds issue: what is still to issue comes one cycle later (R179). -/
def holdCham (dcc k : Nat) (x : Cham) : Cham :=
  { x with nextSlot := max x.nextSlot dcc + k, dslot := x.dslot + k
           decoded := x.decoded.map fun y => { y with slot := y.slot + k } }

/-- The jobs of a core after a cycle. -/
def jobsAfter (out : List (Nat × Option CJob)) (js : List CJob) : List CJob :=
  ((List.range js.length).zip js).flatMap fun x =>
    match out.find? fun o => o.1 == x.1 with
    | some o => o.2.toList
    | none => [x.2]

/-- One cycle of the memory accesses of a Chamois core (R180). -/
def jobsCycle (s : State) (c d dcc : Nat) : State :=
  let js := (getC s c).jobs
  let rs := requests dcc js
  if rs.isEmpty then s else
  let a := serve c d dcc rs [] { s := s }
  let x := getC a.s c
  let x := { x with jobs := jobsAfter a.out js, block := if a.col then x.block + 1 else x.block }
  setC a.s c (if a.lost then holdCham dcc 1 x else x)

end Sys2Proof.Machine
end

