-- ==== Sys2Proof/Machine/Units.lean ====
section
/-!
DEFINITION. What the units of an Eland core do cycle by cycle: the staging of A (R86, R114), the wavefronts of MMAs in an
array (R84 to R88, R96, R97), accumulator reads row by row (R88, R138 to R141) and the element unit (R143 to R146). Each
function here does the work of one cycle of one unit.
-/
namespace Sys2Proof.Machine

/-! ### Staging of A (R86, R114) -/

/-- Update a part of an engine. -/
def updPart (s : State) (e h : Nat) (f : EngPart → EngPart) : State :=
  let x := getEng s e
  setEng s e (setPart x h (f (getPart x h)))

/-- The span that the next chunk of an MMA takes from. -/
def nextSpan (op : Mma) : Nat := op.got * op.g / 64

/-- The span of a chunk in the array. -/
def Wave.span (w : Wave) : Nat := w.c * w.op.g / 64

/-- A chunk has rows of A that are still to enter. -/
def Wave.entering (w : Wave) : Bool := w.kind == .chunk && decide (w.rows.length ≤ w.m1)

/-- An MMA of a part still takes from a span. -/
def spanAhead (p : EngPart) (id q : Nat) : Bool := p.ops.any fun o => o.id == id && decide (nextSpan o ≤ q)

/-- Lines that an engine's staging buffer holds (R114); each half of a split engine has half of it (DESIGN CHOICE). -/
def stageLines (split : Bool) : Nat := if split then 256 else 512

/-- The lines of spans that a staging buffer lacks, in order: MMA, span, place in the image. -/
def missing (stage : List Span) (x : Mma × Nat) : List (Mma × Nat × Nat) :=
  match stage.find? fun y => y.id == x.1.id && y.k == x.2 with
  | some y => ((List.range y.lines.length).filter fun i => (y.lines.getD i none).isNone).map fun i => (x.1, x.2, i)
  | none => (List.range (imageLines x.1.fmtA)).map fun i => (x.1, x.2, i)

/-- The spans of a part's MMAs issued before a cycle, in reading order (R114). -/
def spansOf (p : EngPart) (dcc : Nat) : List (Mma × Nat) :=
  (p.ops.filter fun o => decide (o.issued < dcc)).flatMap fun o =>
    (List.range (min 65 (mmaSpans o - nextSpan o))).map fun i => (o, nextSpan o + i)

/-- The first spans whose lines fit in the buffer together. -/
def roomFor : Nat → List (Mma × Nat) → List (Mma × Nat × Nat)
  | _, [] => []
  | n, x :: r =>
    let l := (List.range (imageLines x.1.fmtA)).map fun i => (x.1, x.2, i)
    if n ≤ l.length then l.take n else l ++ roomFor (n - l.length) r

/-- The lines that a part may read now: those of chunks that are entering, then those for which the buffer has room. A line
leaves the buffer when the last chunk that takes from it enters the array (R114). -/
def wanted (p : EngPart) (split : Bool) (dcc : Nat) : List (Mma × Nat × Nat) :=
  ((p.waves.filter fun w => w.entering && !spanAhead p w.op.id w.span).flatMap fun w => missing p.stage (w.op, w.span)) ++
    (roomFor (stageLines split) (spansOf p dcc)).filter fun x =>
      match p.stage.find? fun y => y.id == x.1.id && y.k == x.2.1 with
      | some y => (y.lines.getD x.2.2 none).isNone
      | none => true

/-- Put a line into a staging buffer. -/
def putStage (st : List Span) (op : Mma) (q i : Nat) (l : PLine) : List Span :=
  if st.any fun y => y.id == op.id && y.k == q then
    st.map fun y => if y.id == op.id && y.k == q then { y with lines := y.lines.set i (some l) } else y
  else st ++ [⟨op.id, q, spanLine op q, (List.replicate (imageLines op.fmtA) none).set i (some l)⟩]

/-- Engine m reaches the bank of a line in this cycle, in its even or its odd phase (R114). -/
def reaches (s : State) (m line : Nat) : Bool := (s.ctc + line % 32) % 8 / 2 == m

/-- A cycle of an A address generator: of each bank that the engine reaches and `used` does not name, the first line that the
part wants (R114). -/
def stageLine (u m : Nat) (a : State × EngPart × List Nat) (x : Mma × Nat × Nat) : State × EngPart × List Nat :=
  let (s, p, used) := a
  let line := spanLine x.1 x.2.1 + x.2.2
  if reaches s m line && !used.contains (line % 32) then
    let s := checkLines s u line 1 x.1.dom
    (s, { p with stage := putStage p.stage x.1 x.2.1 x.2.2 (coreLine s u line) }, (line % 32) :: used)
  else a

def stagePart (u m : Nat) (split : Bool) (dcc : Nat) (used : List Nat) (p : EngPart) (s : State) : State × EngPart × List Nat :=
  (wanted p split dcc).foldl (stageLine u m) (s, p, used)

/-- An MMA latches the block scales and markers of its first A image in this cycle (R86). -/
def latches (dcc : Nat) (o : Mma) : Bool := o.latch.isEmpty && decide (0 < o.k) && decide (o.issued + 2 ≤ dcc)

/-- The lines that hold an MMA's block scales and markers are read (R296). -/
def checkLatch (u dcc : Nat) (s : State) (o : Mma) : State :=
  if !s.errs.isEmpty && latches dcc o then
    (((metaOffsets o.fmtA).map (· / 64)).eraseDups).foldl (fun s k => checkLines s u (o.aLine + k) 1 o.dom) s
  else s

/-- The block scales and markers of an MMA's first A image are latched one or two cycles after issue (R86). -/
def latchOp (s : State) (u dcc : Nat) (o : Mma) : Mma :=
  if latches dcc o then
    { o with latch := (metaOffsets o.fmtA).map fun off =>
        (off, some (readByte s (corePa u (64 * o.aLine + off)), poisoned s (corePa u (64 * o.aLine + off)))) }
  else o

/-- A byte of the A image of span q as an MMA takes it: latched, staged, or read as it enters. -/
def aByte (s : State) (u : Nat) (stage : List Span) (op : Mma) (q off : Nat) : PByte :=
  let pa := corePa u (64 * spanLine op q + off)
  match (if q == 0 then SMap.get none op.latch off else none) with
  | some b => b
  | none =>
    match (stage.find? fun y => y.id == op.id && y.k == q).bind fun y => y.lines.getD (off / 64) none with
    | some l => (linesRd [l] (off % 64), linesPz [l] (off % 64))
    | none => (readByte s pa, poisoned s pa)

/-- Row i of A enters with a chunk (R83, R86): its elements, its NaNs counted by the first engine (R59), and its trit bytes and
markers where the chunk begins a span: every engine decodes them (R38, R45). -/
def enterRow (s : State) (u : Nat) (stage : List Span) (w : Wave) : State × Wave :=
  let op := w.op
  let i := w.rows.length
  let s := if s.errs.isEmpty || stage.any fun y => y.id == op.id && y.k == w.span then s
    else checkLines s u (spanLine op w.span) (imageLines op.fmtA) op.dom
  let rd := fun off => (aByte s u stage op w.span off).1
  let pz := fun off => (aByte s u stage op w.span off).2
  let row := (List.range (min op.g (op.k - w.c * op.g))).map fun dd => elemAt op.fmtA rd pz i ((w.c * op.g + dd) % 64)
  let s := if op.lead then countNan s 1 ((row.filter fun v => v.v.isNaN).length) op.dom u else s
  let s := if w.c * op.g % 64 == 0 then
      incP (incP s (pk 0x0D40 1) (ternInvalidRow op.fmtA rd i)) (pk 0x0D40 2) (conflictRow op.fmtA rd i)
    else s
  (s, { w with rows := w.rows ++ [row] })

/-- Row i of a chunk enters i cycles after its first row (R86). -/
def rowDue (w : Wave) (dcc : Nat) : Bool := w.entering && decide (w.at_ + w.rows.length ≤ dcc + 2 + Nat.log2 w.op.g)

/-- The rows of A that enter in a cycle. -/
def enterRows (u dcc : Nat) (stage : List Span) : List Wave → State → State × List Wave
  | [], s => (s, [])
  | w :: r, s =>
    let (s, w) := if rowDue w dcc then enterRow s u stage w else (s, w)
    let (s, r) := enterRows u dcc stage r s
    (s, w :: r)

/-- The spans that are still taken from. -/
def keepStage (p : EngPart) : List Span :=
  p.stage.filter fun y => spanAhead p y.id y.k || p.waves.any fun w => w.entering && w.op.id == y.id && w.span == y.k

/-! ### Wavefronts (R84 to R88, R96) -/

/-- A read that was issued before an MMA still has to take a row of the wave's next diagonal, or to close the tile (R88). -/
def readFirst (h : Nat) (w : Wave) (r : AccRead) : Bool :=
  r.tile == w.op.tile && halfIdx r.half == h && decide (r.id < w.op.id) &&
    decide (if accClose r.word then r.taken < 64 else r.taken ≤ min w.m1 w.done)

/-- An earlier wave of the tile has not passed the wave's next diagonal; the waves of a later MMA follow without waiting for
the whole tile only where it continues an open cascade (R65, R88). -/
def waveFirst (w v : Wave) : Bool :=
  v.op.tile == w.op.tile && !(decide (w.done < v.done) && (v.op.id == w.op.id || (w.op.cont && !v.op.close)))

/-- What a wave does in one cell (R64, R65, R84). -/
def waveCell (u : Nat) (w : Wave) (s : State) (x : El) : State :=
  let ts := getTile s x.tile
  match w.kind with
  | .enter => openEl s x w.op.cont ts.byCont (mmaInt w.op)
  | .chunk =>
    let s := if w.c == 0 then openEl s x w.op.cont ts.byCont (mmaInt w.op) else s
    match w.beat with
    | none => s
    | some b =>
      pushChunk s w.op u x ((List.range (min w.op.g (w.op.k - w.c * w.op.g))).map fun dd =>
        ((w.rows.getD x.i []).getD dd ⟨.nan, false⟩, beatEl b w.bank dd x.j))
  | .close => if (getCell s x.key).inCas then closeEl s x ts.isInt w.op.dom u else s

/-- One diagonal of a wave (R86): the tile opens with the first, its flags change with the last of a close. -/
def waveDiag (u e h c0 : Nat) (w : Wave) (s : State) : State :=
  let k := tileKey e h w.op.tile
  let s := if w.done == 0 && (w.kind == .enter || (w.kind == .chunk && w.c == 0)) then openTile s k w.op else s
  let s := (diagEls e h w.op.tile c0 w.m1 w.n1 w.done).foldl (waveCell u w) s
  if w.kind == .close && w.done == w.m1 + w.n1 then closeFlags s k else s

/-- The diagonals of a wave that are due: its first cell acts at `at_`, each diagonal one cycle after the one before. -/
def stepWave (u e h c0 dcc : Nat) (reads : List AccRead) (before : List Wave) : Nat → Wave → State → State × Wave
  | 0, w, s => (s, w)
  | n + 1, w, s =>
    if w.m1 + w.n1 < w.done || dcc < w.at_ + w.done || reads.any (readFirst h w) || before.any (waveFirst w) then (s, w)
    else stepWave u e h c0 dcc reads before n { w with done := w.done + 1 } (waveDiag u e h c0 w s)

/-- The waves of a part in one cycle, oldest first; those that have reached their last cell are gone. -/
def stepWaves (u e h c0 dcc : Nat) (reads : List AccRead) : List Wave → List Wave → State → State × List Wave
  | before, [], s => (s, before.reverse.filter fun w => decide (w.done ≤ w.m1 + w.n1))
  | before, w :: r, s =>
    let (s, w) := stepWave u e h c0 dcc reads before 128 w s
    stepWaves u e h c0 dcc reads (w :: before) r s

/-- The domain of a part of an engine, if it is assigned (R95). -/
def partDom (part h : Nat) : Option Nat :=
  if h == 0 then (if bit part 3 then some (bits part 6 4) else none)
  else if bit part 31 && bit part 7 then some (bits part 10 8) else none

/-- One cycle of an engine part whose domain is at a DCC; `used` are the banks that the other half has read. -/
def cyclePart (u m h dcc : Nat) (used : List Nat) (s : State) : State × List Nat :=
  let e := 4 * u + m
  let x := getEng s e
  let split := bit x.part 31
  let p := getPart x h
  let (s, p, used) := stagePart u m split dcc used p s
  let s := p.ops.foldl (checkLatch u dcc) s
  let p := { p with ops := p.ops.map (latchOp s u dcc) }
  let (s, ws) := enterRows u dcc p.stage p.waves s
  let p := { p with waves := ws }
  let p := { p with stage := keepStage p }
  let (s, ws) := stepWaves u e h (if h == 1 then 32 else 0) dcc x.reads [] p.waves s
  (setEng s e (setPart (getEng s e) h { p with waves := ws }), used)

/-! ### Accumulator reads (R88, R138 to R141) -/

/-- Whether row i of a tile waits for an MMA issued before a read (R88). -/
def rowPending (p : EngPart) (r : AccRead) (i : Nat) : Bool :=
  (p.ops.any fun o => o.tile == r.tile && decide (o.id < r.id)) ||
    p.waves.any fun w => w.op.tile == r.tile && decide (w.op.id < r.id) && decide (i ≤ w.m1) && decide (w.done ≤ i + w.n1)

/-- A read takes its next row in a cycle: two cycles and i after its start, one row a cycle, once earlier MMAs have completed
the row (R88, R96). -/
def takesRow (p : EngPart) (dcc : Nat) (r : AccRead) : Bool :=
  match r.start with
  | none => false
  | some t => decide (r.taken < 64) && decide (t + 2 + r.taken ≤ dcc) && !rowPending p r r.taken

/-- The bias and scale words that an accumulator read takes are read (R139, R296). -/
def checkAux (s : State) (u : Nat) (r : AccRead) : State :=
  let f (on : Bool) (k : Nat) (s : State) : State := if on then checkLines s u (r.aux + k) 4 r.dom else s
  f (r.isInt && accColScale r.word) 8 (f (r.isInt && accRowScale r.word) 4 (f (accBias r.word) 0 s))

/-- A read takes its next row: a read that closes closes the row first (R66, R139). -/
def takeRow (s : State) (u e dcc : Nat) (r : AccRead) : State × AccRead :=
  let h := halfIdx r.half
  let k := tileKey e h r.tile
  let i := r.taken
  let r := if i == 0 then { r with isInt := (getTile s k).isInt } else r
  let s := checkAux s u r
  let s := checkRange s (El.top ⟨e, h, r.tile, i, (halfCols r.half).headD 0⟩) (4 * (halfCols r.half).length) (some r.dom)
  let els : List El := (halfCols r.half).map fun j => ⟨e, h, r.tile, i, j⟩
  let s := if accClose r.word then
      els.foldl (fun s x => if (getCell s x.key).inCas then closeEl s x r.isInt r.dom u else s) s else s
  let s := if accClose r.word && i == 63 && (getTile s k).isOpen then closeFlags s k else s
  let st := els.map fun x => accStages s u r x
  let s := countNan s 2 (sumNat (st.map (·.2.2))) r.dom u
  let s := countNan s 1 ((st.filter fun v => v.1.v.isNaN).length) r.dom u
  (s, { r with taken := i + 1, lastAt := some dcc, rows := r.rows ++ [⟨i, dcc + 10, st.map (·.2.1), st.map (·.1)⟩] })

/-- The rows that a unit writes next, if they are due: one, or a ZMT pair with its odd row (R140, R146). -/
def dueRows (zmt : Bool) (dcc : Nat) : List UnitRow → Option (List UnitRow × List UnitRow)
  | [] => none
  | a :: r =>
    if !zmt then (if a.at_ ≤ dcc then some ([a], r) else none)
    else match r with
      | [] => none
      | b :: r => if b.at_ ≤ dcc then some ([a, b], r) else none

/-- What the rows that a read writes add to its push: bytes of the image, counts, and the even row kept for its pair (R139). -/
def pushRows (r : AccRead) (rows : List UnitRow) : AccRead × List RowOut :=
  rows.foldl (fun a row =>
    let w := r.word
    let vals := if accPushSrc w then row.xs else row.ys
    let c0 := if r.half == 2 then 32 else 0
    if accFmtS w == 0x15 then
      (if row.row % 2 == 0 then ({ a.1 with even := vals }, a.2)
       else
        let o := rowOut 0x15 0 (accMarks w) (fun _ _ => 0) (fun _ => 0) 0 (row.row - 1) (a.1.even ++ vals)
        ({ a.1 with even := [], pushed := a.1.pushed ++ o.runs }, a.2 ++ [o]))
    else
      let o := rowOut (accFmtS w) 0 (accMarks w) (fun _ _ => 0) (fun _ => 0) c0 row.row vals
      ({ a.1 with pushed := a.1.pushed ++ o.runs }, a.2 ++ [o])) (r, [])

/-- A conversion that loses a NaN while numeric.nan_policy was 01h at issue (R74). -/
def losesNan (pol : Nat) (os : List RowOut) : Bool := pol == 1 && os.any fun o => 0 < o.lost

/-- The element index of the first NaN of rows that begin with row i of a tile at (row, col) (R132, R228). -/
def nanIndex (width row col c0 i : Nat) (vals : List PV) : Nat :=
  let (di, j) := nanAt vals
  elemIndex width row col (i + di) (c0 + j)

/-- A read ends with a fault: what its push had under way is gone (R74, R141). -/
def failRead (s : State) (u m : Nat) (r : AccRead) (code d0 d1 : Nat) : State × Option AccRead :=
  let s := if accPush r.word then dropPush s u (r.tag.getD 0) else s
  (raise s (engFault s code r.dom u r.needle m r.half r.offset d0 d1), none)

/-- Write the rows of a read that are due: conversion, amax fold and the copy pushed; a poisoned element of a push, and a NaN
lost under policy 01h, end the read at its row (R74, R139 to R141, R169, R170). -/
def writeRows (s : State) (u m : Nat) (r : AccRead) (rows rest : List UnitRow) : State × Option AccRead :=
  let w := r.word
  let c0 := if r.half == 2 then 32 else 0
  let i := (rows.head?.map (·.row)).getD 0
  let ys := rows.flatMap (·.ys)
  let pushed := if accPushSrc w then rows.flatMap (·.xs) else ys
  let draw (i j : Nat) : Nat := drawOf s (accTensor w) (accStrand w) r.step (elemIndex r.width r.row r.col i j)
  let o := rowOut (accFmtD w) (accRmode w) (accMarks w) draw (coreRd s u r.dst) c0 i ys
  let (r', ps) := if accPush w then pushRows r rows else (r, [])
  match (if accPush w then (List.range pushed.length).find? fun j => (pushed.getD j ⟨FV.zero, false⟩).p else none) with
  | some j =>
    let n := (halfCols r.half).length
    let x : El := ⟨4 * u + m, halfIdx r.half, r.tile, i + j / n, c0 + j % n⟩
    failRead s u m r 0x0B (accPoisonAt s u r x) 1
  | none =>
    if losesNan r.pol [o] then failRead s u m r 0x14 (nanIndex r.width r.row r.col c0 i ys) 0
    else if losesNan r.pol ps then failRead s u m r 0x14 (nanIndex r.width r.row r.col c0 i pushed) 0
    else
      let s := writeRuns s u r.dst o.runs
      let s := countConv s (accTensor w) [o]
      let s := foldAmax s (accTensor w) (some (accStrand w)) ys
      let s := countConv s (accTensor w) ps
      if r.taken == 64 && rest.isEmpty then
        (if accPush w then pushImage s u (r.tag.getD 0) (imageOf (accFmtS w) r'.pushed) else s, none)
      else (s, some { r' with rows := rest })

/-- A unit of a core starts operations of a domain in this tick: on a shared core the lower domain's in ticks of even CTC
(R204). -/
def startsNow (s : State) (u d : Nat) : Bool :=
  let e := getE s u
  !e.shared || s.ctc % 2 == (if e.domF == some d then 0 else 1)

/-- One cycle of a read: its next row is taken if it can be, and rows that are due are written. -/
def cycleRead (u m dcc : Nat) (r : AccRead) (s : State) : State × Option AccRead :=
  let e := 4 * u + m
  let (s, r) := if takesRow (getPart (getEng s e) (halfIdx r.half)) dcc r then takeRow s u e dcc r else (s, r)
  match dueRows (accFmtD r.word == 0x15) dcc r.rows with
  | some (rows, rest) => writeRows s u m r rows rest
  | none => (s, some r)

/-- One cycle of the reads of a domain on an engine, oldest first: a read starts in the cycle in which the one before it has
taken its last row, as R146 has it for the element unit (R88, R110, DEDUCED). -/
def cycleReads (u m d dcc : Nat) : List AccRead → List AccRead → State → State × List AccRead
  | done, [], s => (s, done.reverse)
  | done, r :: rest, s =>
    if r.dom ≠ d then cycleReads u m d dcc (r :: done) rest s
    else if r.start.isNone && startsNow s u d && (done.all fun y => y.dom ≠ d || y.taken == 64) then
      cycleReads u m d dcc ({ r with start := some dcc } :: done) rest s
    else
      let (s, r) := cycleRead u m dcc r s
      cycleReads u m d dcc (r.toList ++ done) rest s

/-- One cycle of the reads of a domain on engine m. -/
def readsCycle (u m d dcc : Nat) (s : State) : State :=
  let e := 4 * u + m
  let (s, rs) := cycleReads u m d dcc [] (getEng s e).reads s
  setEng s e { getEng s e with reads := rs }

/-! ### The element unit (R143 to R146) -/

/-- Tiles of an element instruction. -/
def elemCount (w : Nat) : Nat :=
  match opcodeOf w with
  | 0x19 => daCount w
  | 0x31 => amCount w
  | _ => elCount w

/-- The destination format of an element instruction; AMAX writes no tile. -/
def elemFmt (w : Nat) : Nat := if opcodeOf w == 0x19 then daFmtD w else elFmtY w
/-- The tensor of an element instruction. -/
def elemTensor (w : Nat) : Nat :=
  match opcodeOf w with
  | 0x19 => daTensor w
  | 0x31 => amTensor w
  | _ => elTensor w
def elemRmode (w : Nat) : Nat := if opcodeOf w == 0x19 then daRmode w else elRmode w
def elemMarks (w : Nat) : Nat := if opcodeOf w == 0x19 then daMarks w else elMarks w

/-- Rows of an element instruction, over all its tiles. -/
def elemRows (j : ElemJob) : Nat := 64 * elemCount j.word

/-- Read row i of the tile image at a line (R296). -/
def checkRow (s : State) (u d line f i : Nat) : State :=
  if s.errs.isEmpty then s else (runLines line (rowRuns f i)).foldl (fun s k => checkLines s u k 1 d) s

/-- Row i of the tile image at a line, decoded: trit bytes, marker conflicts and NaN inputs are counted (R38, R45, R59). -/
def decodeRow (s : State) (u d line f i : Nat) : State × List PV :=
  let s := checkRow s u d line f i
  let row := rowAt f (coreRd s u line) (corePz s u line) i
  let s := incP s (pk 0x0D40 1) (ternInvalidRow f (coreRd s u line) i)
  let s := incP s (pk 0x0D40 2) (conflictRow f (coreRd s u line) i)
  (countNan s 1 ((row.filter fun v => v.v.isNaN).length) d u, row)

/-- The magnitude that AMAX takes of an element: finite values beyond FP32 as the largest one, NaNs and infinities
skipped (R145). -/
def amaxOf (v : FV) : Nat :=
  match v with
  | .fin _ _ _ => min (f32Bits (stage2 v).abs) 0x7F7FFFFF
  | _ => 0

/-- The row of dX from rows of dY and the saved tile, with the NaNs generated (R144, R164). -/
def dactRow (func : Nat) (gs ss : List PV) : List (PV × Nat) :=
  (List.range gs.length).map fun k =>
    let g := gs.getD k ⟨FV.zero, false⟩
    let y := ss.getD k ⟨FV.one, false⟩
    let dv := derivative func (stage2 y.v)
    let gv := stage2 g.v
    (⟨mulF32 gv dv, g.p || y.p⟩, mulMade gv dv)

/-- The element unit reads the next row of an instruction and computes it (R143 to R145). -/
def readElem (s : State) (u dcc : Nat) (j : ElemJob) : State × ElemJob :=
  let w := j.word
  let n := j.next / 64
  let i := j.next % 64
  let next (ys : List PV) : ElemJob := { j with next := j.next + 1, rows := j.rows ++ [⟨j.next, dcc + 10, ys, []⟩] }
  match opcodeOf w with
  | 0x31 =>
    let (s, row) := decodeRow s u j.dom (j.src + n * imageLines (amFmt w)) (amFmt w) i
    (s, { j with next := j.next + 1, amax := row.foldl (fun a v => max a (amaxOf v.v)) j.amax,
                 bad := j.bad || row.any (·.p) })
  | 0x19 =>
    let (s, gs) := decodeRow s u j.dom (j.src + n * imageLines (daFmtG w)) (daFmtG w) i
    let (s, ss) := if daFunc w == 0 then (s, []) else decodeRow s u j.dom (j.src2 + n * imageLines (daFmtS w)) (daFmtS w) i
    let ps := dactRow (daFunc w) gs ss
    (countNan s 2 (sumNat (ps.map (·.2))) j.dom u, next (ps.map (·.1)))
  | op =>
    let (s, row) := decodeRow s u j.dom (j.src + n * imageLines (elFmtX w)) (elFmtX w) i
    (s, next (row.map fun v => ⟨activation (if op == 0x18 then elFunc w else 0) (stage2 v.v), v.p⟩))

/-- A fault of the element unit (R226, R228). -/
def elemFault (s : State) (u : Nat) (j : ElemJob) (code d0 : Nat) : Raised :=
  { mkRaised s code j.dom u with needle := j.needle, offset := j.offset, detail0 := d0 }

/-- Write the rows of an element instruction that are due (R132, R143, R146, R170); a NaN lost under policy 01h ends it
(R74). -/
def writeElem (s : State) (u : Nat) (j : ElemJob) (rows rest : List UnitRow) : State × Option ElemJob :=
  let w := j.word
  let at_ := (rows.head?.map (·.row)).getD 0
  let n := at_ / 64
  let i := at_ % 64
  let ys := rows.flatMap (·.ys)
  let pos := tilePos j.width n (j.row, j.col)
  let draw (i k : Nat) : Nat := drawOf s (elemTensor w) j.strand j.step (elemIndex j.width pos.1 pos.2 i k)
  let line := j.dst + n * imageLines (elemFmt w)
  let o := rowOut (elemFmt w) (elemRmode w) (elemMarks w) draw (coreRd s u line) 0 i ys
  if losesNan j.pol [o] then (raise s (elemFault s u j 0x14 (nanIndex j.width pos.1 pos.2 0 i ys)), none)
  else
    let s := writeRuns s u line o.runs
    let s := countConv s (elemTensor w) [o]
    let s := foldAmax s (elemTensor w) (some j.strand) ys
    (s, if j.next == elemRows j && rest.isEmpty then none else some { j with rows := rest })

/-- Write AMAX's result and fold it (R145, R146, R170). -/
def writeAmax (s : State) (u : Nat) (j : ElemJob) : State :=
  let s := setCoreLine s u j.dst (BitVec.ofNat 512 j.amax, if j.bad then 1 else 0)
  if amMon j.word then foldAmax s (amTensor j.word) (some j.strand) [⟨f32Of j.amax, j.bad⟩] else s

/-- One cycle of an element instruction in progress: row n is read at its start + 2 + n (R146). -/
def cycleElem (u dcc : Nat) (j : ElemJob) (s : State) : State × Option ElemJob :=
  match j.start with
  | none => (s, some j)
  | some t =>
    let (s, j) := if decide (j.next < elemRows j) && decide (t + 2 + j.next ≤ dcc) then readElem s u dcc j else (s, j)
    if opcodeOf j.word == 0x31 then
      (if t + 10 + elemRows j ≤ dcc then (writeAmax s u j, none) else (s, some j))
    else match dueRows (elemFmt j.word == 0x15) dcc j.rows with
      | some (rows, rest) => writeElem s u j rows rest
      | none => (s, some j)

/-- One cycle of a domain's element instructions, oldest first: a queued one starts in the cycle in which the one before it has
read its last row (R146). -/
def cycleElems (u d dcc : Nat) : List ElemJob → List ElemJob → State → State × List ElemJob
  | done, [], s => (s, done.reverse)
  | done, j :: rest, s =>
    if j.dom ≠ d then cycleElems u d dcc (j :: done) rest s
    else if j.start.isNone && startsNow s u d && (done.all fun y => y.dom ≠ d || y.next == elemRows y) then
      cycleElems u d dcc ({ j with start := some dcc } :: done) rest s
    else
      let (s, j) := cycleElem u dcc j s
      cycleElems u d dcc (j.toList ++ done) rest s

/-- One cycle of a domain's work in an element unit. -/
def elemsCycle (u d dcc : Nat) (s : State) : State :=
  let (s, js) := cycleElems u d dcc [] (getE s u).elems s
  setE s u { getE s u with elems := js }

end Sys2Proof.Machine
end

