-- ==== Sys2Proof/Machine/Time.lean ====
section
/-!
DEFINITION. Time (R177, R201, R205, R206, R210): what every unit of a domain does in one tick, and how the model's time moves
on to a CTC or a DCC.
-/
namespace Sys2Proof.Machine

/-! ### One tick -/

/-- Changes of service clocks whose edge has come (R360). -/
def settleClocks (s : State) : State :=
  if s.clk.service.isEmpty then s
  else
    let due := s.clk.service.filter fun w => decide (w.2.2 ≤ s.ns)
    { s with clk := { s.clk with
      service := s.clk.service.filter fun w => !(decide (w.2.2 ≤ s.ns))
      serviceNow := due.foldl (fun m w => SMap.set 0 m w.1 w.2.1) s.clk.serviceNow } }

/-- Time alone passes: thousandths of a tick of the compute period, with PTP time. -/
def addTime (milli : Nat) (s : State) : State :=
  let f := max 1 (freqMhz s)
  let total := s.nsFrac + milli
  settleClocks { s with ns := s.ns + total / f, nsFrac := total % f, ptp := s.ptp + total / f }

/-- The counters of `k` ticks: CTC, DCCs and stalls, and time; what port F wrote and what tokens a tick took are past (R113, R134,
R205, R206). -/
def count (k : Nat) (s : State) : State :=
  let f := max 1 (freqMhz s)
  addTime (k * 1000) { s with
    ctc := s.ctc + k
    fLines := if k == 0 then s.fLines else []
    tokSubs := if k == 0 then s.tokSubs else []
    doms := s.doms.map fun x => (x.1, tickDomain s.ctc k ((s.nsFrac + k * 1000) / f) x.2) }

/-- The engine parts of a domain in a cycle: staging, rows of A, waves; a domain with a fault has none (R97). -/
def engineCycle (moved : List Nat) (s : State) (e : Nat) : State :=
  let go (h : Nat) (a : State × List Nat) : State × List Nat :=
    match partDom (getEng a.1 e).part h with
    | some d => if moved.contains d && !failing a.1 d then cyclePart (e / 4) (e % 4) h (getD a.1 d).dcc a.2 a.1 else a
    | none => a
  (go 1 (go 0 (s, []))).1

/-- The accumulator reads of an engine in a cycle (R88). -/
def engineReads (moved : List Nat) (s : State) (e : Nat) : State :=
  ((getEng s e).reads.map (·.dom)).eraseDups.foldl (fun s d =>
    if moved.contains d && !failing s d then readsCycle (e / 4) (e % 4) d (getD s d).dcc s else s) s

/-- The element unit of a core in a cycle (R146). -/
def elementCycle (moved : List Nat) (s : State) (c : Nat) : State :=
  ((getE s c).elems.map (·.dom)).eraseDups.foldl (fun s d =>
    if moved.contains d then elemsCycle c d (getD s d).dcc s else s) s

/-- A Chamois core in a cycle: results become visible, then memory is accessed (R177, R180). -/
def chamCycle (moved : List Nat) (s : State) (c : Nat) : State :=
  match (getC s c).dom with
  | some d => if moved.contains d then jobsCycle (setC s c (settleRegs (getD s d).dcc (getC s c))) c d (getD s d).dcc else s
  | none => s

/-- Whether an engine has work under way. -/
def Engine.busyNow (x : Engine) : Bool :=
  !x.p0.ops.isEmpty || !x.p0.waves.isEmpty || !x.p1.ops.isEmpty || !x.p1.waves.isEmpty

/-- The domains whose DCC has advanced (R206). -/
def movedDoms (old new : SMap Domain) : List Nat :=
  (new.filter fun x => decide ((SMap.get {} old x.1).dcc < x.2.dcc)).map (·.1)

/-- One tick of the compute clock: the units of the domains whose DCC advances do one cycle's work (R205, R206, R210). -/
def tick (s : State) : State :=
  let t := count 1 s
  let moved := movedDoms s.doms t.doms
  if moved.isEmpty then t else
  let t := ((t.engines.filter fun x => x.2.busyNow).map (·.1)).foldl (engineCycle moved) t
  let t := ((t.engines.filter fun x => !x.2.reads.isEmpty).map (·.1)).foldl (engineReads moved) t
  let t := ((t.elands.filter fun x => !x.2.elems.isEmpty).map (·.1)).foldl (elementCycle moved) t
  ((t.chams.filter fun x => !(x.2.inFlight.isEmpty && x.2.jobs.isEmpty)).map (·.1)).foldl (chamCycle moved) t

/-! ### Time moves on -/

/-- A part does nothing until a beat arrives: no wave, and what its MMAs read of A is latched and staged. -/
def EngPart.waits (x : Engine) (p : EngPart) : Bool :=
  p.waves.isEmpty && (p.ops.all fun o => o.k == 0 || !o.latch.isEmpty || (metaOffsets o.fmtA).isEmpty) &&
    (wanted p (bit x.part 31) (2 ^ 64)).isEmpty

/-- No unit of a domain does anything by itself but let results become visible. -/
def quiet (s : State) : Bool :=
  (s.engines.all fun x => x.2.reads.isEmpty && EngPart.waits x.2 x.2.p0 && EngPart.waits x.2 x.2.p1) &&
    (s.elands.all fun x => x.2.elems.isEmpty) && s.chams.all fun x => x.2.jobs.isEmpty

/-- Results of the Chamois cores up to the present DCC of their domains. -/
def settleChams (s : State) : State :=
  { s with chams := s.chams.map fun x =>
      match x.2.dom with
      | some d => if x.2.inFlight.isEmpty then x else (x.1, settleRegs (getD s d).dcc x.2)
      | none => x }

/-- `k` ticks in which nothing but the counters and the Chamois registers changes. -/
def leap (k : Nat) (s : State) : State := settleChams (count k s)

/-- Time moves on by `k` ticks of the compute clock. -/
def advanceTicks : Nat → State → State
  | 0, s => s
  | k + 1, s => if quiet s then leap (k + 1) s else advanceTicks k (tick s)

/-- Advance time by `k` ticks of the compute clock; while the compute clocks are stopped, only time passes (R378, R382). -/
def advance (k : Nat) (s : State) : State :=
  if s.clk.runs then advanceTicks k s else addTime (k * 1000) s

/-- Advance to a CTC, if it lies ahead. -/
def toCtc (t : Nat) (s : State) : State := advance (t - s.ctc) s

/-- The ticks until a domain that is not stalled reaches a DCC: slot 0 comes at T0 (R207). -/
def ticksTo (s : State) (d t : Nat) : Nat :=
  let dd := getD s d
  if dd.started then t - dd.dcc else dd.startCtc + t - s.ctc

/-- Advance until a domain's DCC is at least `t`; none when a stall keeps it from getting there. -/
def toDcc (d t : Nat) (s : State) : Option State :=
  let s' := advance (ticksTo s d t) s
  if t ≤ (getD s' d).dcc then some s' else none

end Sys2Proof.Machine
end

