-- ==== Sys2Proof/Machine/Sched.lean ====
section
/-!
DEFINITION. The stall horizon (R208 to R211) and the token messages (R134, R249, R250), with what a stream window's
presence means to a consumer (R263, R264).
-/
namespace Sys2Proof.Machine

/-! ### Stream descriptors and window presence (R260, R263, R264) -/

def sdKind (d : Nat) : Nat := bits d 1 0
def sdMode (d : Nat) : Nat := bits d 2 2
def sdMcast (d : Nat) : Bool := bit d 3
def sdMgroup (d : Nat) : Nat := bits d 5 4
def sdTokenEn (d : Nat) : Bool := bit d 6
def sdToken (d : Nat) : Nat := bits d 13 8
def sdCore (d : Nat) : Nat := bits d 21 16
def sdNwin (d : Nat) : Nat := bits d 27 24 + 1
def sdRing (d : Nat) : Nat := bits d 49 32
def sdWinLines (d : Nat) : Nat := bits d 79 64
def sdRunLines (d : Nat) : Nat := if bits d 95 80 == 0 then sdWinLines d else bits d 95 80
def sdInner (d : Nat) : Int := sext 32 (bits d 127 96)
def sdVline (d : Nat) : Nat := bits d 169 128
def sdC0 (d : Nat) : Nat := bits d 207 192
def sdC1 (d : Nat) : Nat := bits d 223 208
def sdStride0 (d : Nat) : Int := sext 32 (bits d 255 224)
def sdStride1 (d : Nat) : Int := sext 32 (bits d 287 256)
def sdStride2 (d : Nat) : Int := sext 32 (bits d 319 288)
def sdTotal (d : Nat) : Nat := bits d 351 320
def sdFirst (d : Nat) : Nat := bits d 399 352
def sdPeriod (d : Nat) : Nat := bits d 423 400
def sdHold (d : Nat) : Nat := bits d 447 424
def sdSrc (d : Nat) : Nat := bits d 462 448
def sdReleaser (d : Nat) : Nat := bits d 478 464
def sdRelEn (d : Nat) : Bool := bit d 479
def sdTensor (d : Nat) : Nat := bits d 499 480

/-- The positions that a stream's windows are written at: CORE, or every member of its group (R266, R267). -/
def streamDests (s : State) (x : Stream) : List Nat :=
  if sdMcast x.desc then
    let m := getP s (pk (0x0920 + x.dom) (sdMgroup x.desc + 1))
    (List.range 64).filter fun p => bit m p
  else [sdCore x.desc]

/-- Window n of a stream is present at a position: a LOAD or RELAY window when every line has been written there, a
STORE window when it has been drained and acknowledged (R264). -/
def windowPresent (x : Stream) (n p : Nat) : Bool :=
  if sdKind x.desc == 1 then decide (n < x.moved)
  else SMap.get 0 x.got (n * 64 + p) == sdWinLines x.desc

/-- A stream's window is present wherever its check looks (R265). -/
def windowReady (s : State) (x : Stream) (n : Nat) : Bool :=
  if sdKind x.desc == 1 then decide (n < x.moved) else (streamDests s x).all fun p => windowPresent x n p

/-- The stream condition of a PICK or SYNC for window n at a position: the window is present there; of a STORE stream the ring
slot of window n has been drained, which window n − NWIN was the last to fill (R264). -/
def slotPresent (x : Stream) (n p : Nat) : Bool :=
  if sdKind x.desc == 1 then decide (n < x.moved + sdNwin x.desc) else windowPresent x n p

/-- Window c of a CONDITION stream becomes current in a slot, and c increments: once, whatever number of cores take it there;
a TIMED stream advances nothing (R263, R264, R267). -/
def takeWindow (s : State) (i dcc : Nat) : State :=
  let x := getStream s i
  if sdMode x.desc == 1 && (x.lastCur.map (·.2)) ≠ some dcc then
    setStream s i { x with c := x.c + 1, cur := x.cur ++ [(x.c, dcc)], lastCur := some (x.c, dcc) }
  else s

/-- The stream condition of a PICK or SYNC at a position (R264). -/
def streamCond (s : State) (i p : Nat) : Bool :=
  let x := getStream s i
  slotPresent x x.c p

/-- The stream names the position's core or a group that it is in (R264). -/
def streamAt (s : State) (i p : Nat) : Bool :=
  let x := getStream s i
  x.st ≠ 0 && (sdCore x.desc == p || (streamDests s x).contains p)

/-! ### Stall requests (R208, R209) -/

/-- Push slots of a core for a domain: four, two on a shared core (R160, R204). -/
def pushSlots (s : State) (u : Nat) : Nat := if decide (u < 0x40) && (getE s u).shared then 2 else 4
/-- Push slots held, by pushes in flight and decoded (R160). -/
def pushesHeld (s : State) (u d : Nat) : Nat :=
  (s.xfers.filter fun x => x.unit == u && x.dom == d && (x.kind == .spush || x.kind == .accPush)).length +
    (if u < 0x40 then
      let e := getE s u
      let f (n : Needle) := if domN e n == some d then ((getN e n).decoded.filter fun y => y.push && !y.owed).length else 0
      f .fore + f .back
    else ((getC s (u - 0x40)).decoded.filter fun y => y.push && !y.owed).length)

/-- Reserve what a decoded instruction needs: an operation tag, and a push slot with it for a push (R111, R120, R160, R178). -/
def reserve (s : State) (u d : Nat) (push : Bool) : Option Nat :=
  if push && decide (pushSlots s u ≤ pushesHeld s u d) then none else reserveTag s u d

/-- The decoded instructions of a stall request's needle or core. -/
def decodedOf (s : State) (u needle : Nat) : List Decoded :=
  if u < 0x40 then (getN (getE s u) (if needle == 1 then .back else .fore)).decoded else (getC s (u - 0x40)).decoded
/-- Replace them. -/
def setDecoded (s : State) (u needle : Nat) (l : List Decoded) : State :=
  if u < 0x40 then updN s u (if needle == 1 then .back else .fore) fun x => { x with decoded := l }
  else setC s (u - 0x40) { getC s (u - 0x40) with decoded := l }

/-- Give its reservation to a decoded instruction that a stall request names; none while it still cannot be made (R120). -/
def settleOwed (s : State) (d u needle key : Nat) : Option State :=
  let l := decodedOf s u needle
  match l.find? fun y => y.key == key && y.owed with
  | none => some s
  | some y =>
    (reserve s u d y.push).map fun t =>
      setDecoded s u needle (l.map fun z => if z.key == key && z.owed then { z with tag := some t, owed := false } else z)

/-- Whether a condition holds now (R209). -/
def condHolds (s : State) (d : Nat) : Cond → Bool
  | .present u line => present s u line
  | .token u t n => decide (n ≤ getTok s u t)
  | .window x n => windowReady s (getStream s x) n
  | .windowAt x n p => slotPresent (getStream s x) n p
  | .drained x n => decide (n < (getStream s x).moved)
  | .tag u => decide (tagsOfCore s u d < quotaOf s u)
  | .push u => decide (pushesHeld s u d < pushSlots s u)
  | .pick => false
  | .crossing _ _ => false

/-- The Eland cores of a domain that report picks: those with a needle not halted, shared cores aside (R123, R204). -/
def reporting (s : State) (d : Nat) : List Nat :=
  (List.range 36).filter fun c =>
    let e := getE s c
    bit (getD s d).cores c && !e.shared && e.domF == some d && !(e.fore.st == .halted && e.back.st == .halted)

/-- The core that keeps a pick open: the first that has not reported, else the first whose fore-needle is not ready (R123,
R124, R228, DEDUCED). -/
def pickCore (s : State) (d : Nat) : Nat :=
  let rs := (getD s d).reports
  match (reporting s d).find? fun c => !rs.any fun r => r.core == c with
  | some c => c
  | none => ((rs.find? fun r => !r.fore).map (·.core)).getD 0

/-- The cause code of fault 08h and the item it names; a pick's is `pickCore` (R228). -/
def condCause : Cond → Nat × Nat
  | .window x _ => (1, x)
  | .windowAt x _ _ => (1, x)
  | .drained x _ => (1, x)
  | .present _ l => (2, l)
  | .token _ t _ => (3, t)
  | .pick => (4, 0)
  | .tag u => (5, u)
  | .push u => (6, u)
  | .crossing a _ => (7, a)

/-- Meet the condition of a stall request: a reservation is made now, another condition must hold (R120, R208). -/
def meetCond (s : State) (d : Nat) (r : StallReq) : Option State :=
  match r.cond with
  | .tag _ => settleOwed s d r.unit r.needle r.slot
  | .push _ => settleOwed s d r.unit r.needle r.slot
  | k => if condHolds s d k then some s else none

/-- Meet what can be met of some requests, and the ones that stay open. -/
def meetAll (s : State) (d : Nat) (rs : List StallReq) : State × List StallReq :=
  rs.foldl (fun a r =>
    match meetCond a.1 d r with
    | some s => (s, a.2)
    | none => (a.1, a.2 ++ [r])) (s, [])

/-- Raise a stall request; its STALL_REQ message is on its way (R208). -/
def requestStall (s : State) (d : Nat) (r : StallReq) : State :=
  let dd := getD s d
  if dd.reqs.contains r then s else setD s d { dd with reqs := dd.reqs ++ [r] }

/-- The domain takes stalls that end in phase: it owns fewer than eight phases on some link of its arc, or has a shared
core (R108, R204). -/
def phased (s : State) (d : Nat) : Bool :=
  let dd := getD s d
  let owned (k : Nat) : Nat :=
    ((List.range 8).filter fun p => bit (SMap.get 0 s.phases k) (4 * p + 3) && bits (SMap.get 0 s.phases k) (4 * p + 2) (4 * p) == d).length
  ((List.range 72).any fun k => bit dd.arc (k / 2) && decide (0 < owned k) && decide (owned k < 8)) ||
    ((List.range 36).any fun c => bit dd.cores c && (getE s c).shared)

/-- The first tick from `t` on that meets the phase rule of a stall begun at `b` (R108, R204). -/
def inPhase (ph : Bool) (t b : Nat) : Nat := if ph then t + (b % 8 + 8 - t % 8) % 8 else t

/-- STALL_REQ: the oldest request on its way reaches the root, which keeps the smallest slot D + 64 (R208, R249). A check
of slots 0 to 63 fails at a DCC below 0, and names its slot the same way (R207, DEDUCED). -/
def execStallReq (d : Nat) (s : State) : Host.Outcome State Fault Refusal :=
  if 8 ≤ d then .fault .noSuchUnit else
  let dd := getD s d
  match takeFirst (fun r : StallReq => !r.seen) dd.reqs with
  | none => .refused (.notEnabled "no stall request on its way")
  | some (r, rest) =>
    let f := match dd.freezeAt with
      | some f => min f r.slot
      | none => r.slot
    let s := incP s (pk 0x0930 3) 2
    let dd := getD s d
    .next (setD s d { dd with reqs := rest ++ [{ r with seen := true }],
                              freezeAt := if dd.stalled then dd.freezeAt else some (max f dd.dcc) })

/-- FREEZE: the broadcast reaches the cores; time moves on to the tick in which the DCC holds D + 64, and from there on the domain
stands still (R208, R210). -/
def execFreeze (d : Nat) (s : State) : Host.Outcome State Fault Refusal :=
  if 8 ≤ d then .fault .noSuchUnit else
  match (getD s d).freezeAt with
  | none => .refused (.notEnabled "no freeze is due")
  | some f =>
    let s := if (getD s d).stalled then s else advance (ticksTo s d f) s
    .next (incP s (pk 0x0930 3) 2)

/-- A request that the freeze in force or announced waits for: one of a slot up to D + 64 (R208). -/
def dueReq (dd : Domain) (r : StallReq) : Bool :=
  match dd.freezeAt with
  | some f => decide (r.slot ≤ f)
  | none => true

/-- The root announces a resume once no condition of a slot up to D + 64 is open: no stall at all when the resume tick comes
in time, else the first tick 64 or more ahead that meets the phase rule. Later slots' conditions that hold by then cause no
stall either (R208). -/
def announceResume (s : State) (d : Nat) : State :=
  let dd := getD s d
  if dd.reqs.any (dueReq dd) then s
  else match dd.freezeAt with
    | none => s
    | some f =>
      let b := if dd.stalled then dd.stallCtc else if dd.started then s.ctc + (f - dd.dcc) else dd.startCtc + f
      let r := inPhase (phased s d) (s.ctc + 64) b
      let (s, open_) := meetAll s d dd.reqs
      let dd := { dd with reqs := open_ }
      if !dd.stalled && decide (r ≤ b) then setD s d { dd with freezeAt := nextFreeze dd, resumeOk := [] }
      else setD s d { dd with resumeAt := some r }

/-- RESUME_OK: a unit reports that its conditions for slots up to D + 64 hold; the root announces the resume tick once all
hold (R208, R250). -/
def execResumeOk (d u : Nat) (s : State) : Host.Outcome State Fault Refusal :=
  if 8 ≤ d then .fault .noSuchUnit else
  let dd := getD s d
  let mine (r : StallReq) : Bool := r.unit == u && dueReq dd r
  if !dd.reqs.any mine then .refused (.notEnabled "the unit has no open condition")
  else match meetAll s d (dd.reqs.filter mine) with
    | (_, _ :: _) => .refused (.notEnabled "a condition of the unit does not hold")
    | (s, []) =>
      let s := setD s d { dd with reqs := dd.reqs.filter (fun r => !mine r), resumeOk := u :: dd.resumeOk }
      .next (announceResume (incP s (pk 0x0930 3) 1) d)

/-- RESUME: the broadcast reaches the cores; time moves on to the announced tick, in which the domain goes on unless a later
slot's condition is open (R208). -/
def execResume (d : Nat) (s : State) : Host.Outcome State Fault Refusal :=
  if 8 ≤ d then .fault .noSuchUnit else
  match (getD s d).resumeAt with
  | none => .refused (.notEnabled "no resume is announced")
  | some r => .next (incP (toCtc r s) (pk 0x0930 3) 2)

/-- A started domain stands: it is stalled, or its DCC has the value of the freeze, so that the next tick stalls it (R208). -/
def standing (dd : Domain) : Bool :=
  dd.stalled || (dd.started && (match dd.freezeAt with | some f => decide (f ≤ dd.dcc) | none => false))

/-- STALL_TIMEOUT: a single stall has lasted longer than stall.limit: fault 08h, naming the oldest unmet condition
and the instruction that waits for it (R211, R226, R228, DEDUCED). The model's time moves on to the limit; a stall that its
resume ends before has no such fault. -/
def execStallTimeout (d : Nat) (s : State) : Host.Outcome State Fault Refusal :=
  if 8 ≤ d then .fault .noSuchUnit else
  let dd := getD s d
  if !standing dd || dd.st ≠ .running then .refused (.notEnabled "the domain is not stalled")
  else
    let limit := getP s (pk 0x0620 0) * 1000000
    let f := freqMhz s
    let q := dd.reqs.find? fun r => !condHolds s d r.cond
    let s := advance (ceilDiv ((limit + 1 - dd.stallNs) * f) 1000) s
    if !(getD s d).stalled then .refused (.notEnabled "the stall ends before the limit")
    else
    let (cause, item) := match q with
      | some r => if r.cond == Cond.pick then (4, pickCore s d) else condCause r.cond
      | none => (0, 0)
    let (item, s) := if cause == 7 then freeBits s 64 else (item, s)
    .next (raise s { mkRaised s 8 d 0x91 with
      needle := (match q with | some r => r.needle | none => 3)
      offset := (match q with | some r => r.offset | none => 0xFFFFFFFF)
      detail0 := cause, detail1 := item })

/-- The domains a core unit belongs to. -/
def domsOf (s : State) (u : Nat) : List Nat :=
  if u < 0x40 then (match (getE s u).domF with | some d => [d] | none => []) ++
      (match (getE s u).domB with | some d => [d] | none => [])
  else match (getC s (u - 0x40)).dom with
    | some d => [d]
    | none => []

/-- A core keeps its memory and token counters: every domain it belongs to has stopped (R224). -/
def coreKept (s : State) (u : Nat) : Bool :=
  let ds := domsOf s u
  !ds.isEmpty && ds.all fun d => (getD s d).st == .faulted || (getD s d).st == .aborted

/-- The root node (7,7) carries what passes from a position to another, X first (R249). -/
def throughRoot (src dst : Nat) : Bool := (src :: xPath dst 14 src).contains 63

/-- INCR: an increment on its way to a position's counter arrives, after those that its sender sent to that position before
(R134, R249, R254). -/
def execIncr (p t : Nat) (s : State) : Host.Outcome State Fault Refusal :=
  match unitAt p with
  | none => .fault .noSuchUnit
  | some u =>
    match takeFirst (fun m : Incr => m.pos == p && m.tok == t && (s.incrs.find? fun y => y.src == m.src && y.pos == p) == some m)
        s.incrs with
    | none => .refused (.notEnabled "no increment on its way")
    | some (m, rest) =>
      let s := { s with incrs := rest }
      let s := if throughRoot m.src p then incP s (pk 0x0930 3) 2 else s
      .next (if coreKept s u then s else addTok s u t m.amt)

/-! ### Cores that have finished (R122, R129, R181, R217) -/

/-- Every core of the domain has finished (R129, R181). -/
def coresFinished (s : State) (d : Nat) : Bool :=
  (s.elands.all fun x =>
    (x.2.domF ≠ some d || x.2.fore.st == .halted) && (x.2.domB ≠ some d || x.2.back.st == .halted)) &&
  (s.chams.all fun x => x.2.dom ≠ some d || x.2.halted)

/-- Note the DCC at which the last core of a domain finished. -/
def noteFinished (s : State) (d : Nat) : State :=
  let dd := getD s d
  if coresFinished s d && dd.finished.isNone then setD s d { dd with finished := some dd.dcc } else s

/-! ### The horizon (R120, R178, R207, R265) -/

/-- Time moves on to 64 slots before a slot: for slots 0 to 63 into the 64 ticks before T0; none when a stall keeps the domain
from getting there. -/
def toHorizon (s : State) (d slot : Nat) : Option State :=
  if 64 ≤ slot then toDcc d (slot - 64) s
  else if (getD s d).started then some s
  else some (toCtc ((getD s d).startCtc + slot - 64) s)

/-- The point 64 slots before a slot has passed. -/
def horizonPast (s : State) (d slot : Nat) : Bool :=
  let dd := getD s d
  if dd.started then decide (slot < dd.dcc + 64) else decide (dd.startCtc + slot < s.ctc + 64)

/-- Whether a domain issues now: running, started, not stalled and not at a freeze (R206, R208). -/
def issuing (d : Domain) : Bool :=
  d.st.runs && d.started && !d.stalled && (match d.freezeAt with | some f => decide (d.dcc < f) | none => true)

/-- The point 64 slots before a slot has been reached. -/
def horizonMet (s : State) (d slot : Nat) : Bool :=
  let dd := getD s d
  if dd.started then decide (slot ≤ dd.dcc + 64) else decide (dd.startCtc + slot ≤ s.ctc + 64)

/-- Whether a domain's cores decode now: it issues, or its slot 0 is at most 64 ticks ahead (R207, R210). -/
def decoding (s : State) (d : Nat) : Bool :=
  let dd := getD s d
  issuing dd || (dd.st.runs && !dd.started && decide (dd.startCtc ≤ s.ctc + 64))

end Sys2Proof.Machine
end

