-- ==== Sys2Proof/Machine/Eland.lean ====
section
/-!
DEFINITION. The Eland sequencer (R118 to R135): decode, issue, holds, loops, picks and tokens, and the meanings of the
sequencing instructions.
-/
namespace Sys2Proof.Machine

/-! ### What an instruction reads, fills and reserves (R116, R120) -/

/-- Lines of `n` tiles of a format, one image after another or `stride` lines apart. -/
def tileLines (line fmt n stride : Nat) : List (Nat × Nat) :=
  if stride == 0 || stride == imageLines fmt then [(line, n * imageLines fmt)]
  else (List.range n).map fun i => (line + i * stride, imageLines fmt)

/-- An effective line address: the field plus b[BSEL], b0 zero (R119). -/
def lineEA (b1 b2 b3 w field : Nat) : Nat :=
  field + (match fBsel w with | 0 => 0 | 1 => b1 | 2 => b2 | _ => b3)

/-- The lines an instruction reads through port E, by base registers (R120). -/
def linesRead (b1 b2 b3 w : Nat) : List (Nat × Nat) :=
  let ea := lineEA b1 b2 b3 w
  match opcodeOf w with
  | 0x10 => (List.range (ceilDiv (mmaK w) 64)).map fun k => (ea (mmaALine w) + k * mmaStride w, imageLines (mmaFmtA w))
  | 0x14 =>
    (if accBias w then [(ea (accAux w), 4)] else []) ++ (if accRowScale w then [(ea (accAux w) + 4, 4)] else []) ++
      (if accColScale w then [(ea (accAux w) + 8, 4)] else [])
  | 0x18 => tileLines (ea (elSrc w)) (elFmtX w) (elCount w) 0
  | 0x30 => tileLines (ea (elSrc w)) (elFmtX w) (elCount w) 0
  | 0x19 => tileLines (ea (daG w)) (daFmtG w) (daCount w) 0 ++
      (if daFunc w == 0 then [] else tileLines (ea (daS w)) (daFmtS w) (daCount w) 0)
  | 0x31 => tileLines (ea (amSrc w)) (amFmt w) (amCount w) 0
  | 0x1C => tileLines (ea (spLine w)) (spFmt w) (spCount w) 0
  | 0x20 => tileLines (ea (injSrc w)) (injFmt w) (injCount w) (injStride w)
  | 0x25 => [(ea (tlLocal w), tlLines w)]
  | 0x28 => [(ea (puLocal w), puLines w)]
  | 0x2C => [(ea (rsSrc w), rsLines w)]
  | _ => []

/-- The lines whose PRESENT bits a TLD, GET or SPOP clears at decode (R116). -/
def linesFilled (b1 b2 b3 w : Nat) : List (Nat × Nat) :=
  let ea := lineEA b1 b2 b3 w
  match opcodeOf w with
  | 0x24 => [(ea (tlLocal w), tlLines w)]
  | 0x29 => [(ea (puLocal w), puLines w)]
  | 0x1D => tileLines (ea (spLine w)) (spFmt w) (spCount w) 0
  | _ => []

/-- The lines an instruction writes itself, destinations of fills included (R128 check 5). A TAKE names no format: its tiles
are at least the 8 lines of the smallest tile image. -/
def linesWritten (b1 b2 b3 w : Nat) : List (Nat × Nat) :=
  let ea := lineEA b1 b2 b3 w
  match opcodeOf w with
  | 0x14 => [(ea (accDst w), imageLines (accFmtD w))]
  | 0x18 => tileLines (ea (elDst w)) (elFmtY w) (elCount w) 0
  | 0x30 => tileLines (ea (elDst w)) (elFmtY w) (elCount w) 0
  | 0x19 => tileLines (ea (daD w)) (daFmtD w) (daCount w) 0
  | 0x31 => [(ea (amDst w), 1)]
  | 0x21 => (List.range (takeCount w)).map fun k => (ea (takeDst w) + k * (if takeStride w == 0 then 8 else takeStride w), 8)
  | _ => linesFilled b1 b2 b3 w

/-- A line range reaches 3_0000h (R112, R128 check 5). -/
def rangeBad (x : Nat × Nat) : Bool := decide (0 < x.2) && decide (0x30000 < x.1 + x.2) || decide (0x30000 ≤ x.1)

/-- The opcode holds an operation tag of the mesh unit (R111). -/
def isMeshOp (op : Nat) : Bool := [0x1C, 0x1D, 0x24, 0x25, 0x28, 0x29, 0x2C].contains op
/-- The instruction is a push of R160. -/
def isPush (w : Nat) : Bool := opcodeOf w == 0x1C || (opcodeOf w == 0x14 && accPush w)

/-- Clear the PRESENT bits of line ranges. -/
def clearPresent (s : State) (c : Nat) (rs : List (Nat × Nat)) : State :=
  rs.foldl (fun s r => (List.range r.2).foldl (fun s i => setPresent s c (r.1 + i) false) s) s

/-- The lines of the ranges that are not present. -/
def absentLines (s : State) (c : Nat) (rs : List (Nat × Nat)) : List Nat :=
  rs.flatMap fun r => ((List.range r.2).map (r.1 + ·)).filter fun l => !present s c l

/-- The conditions of an instruction that do not hold (R120). -/
def decodeConds (s : State) (c b1 b2 b3 w : Nat) : List Cond :=
  ((absentLines s c (linesRead b1 b2 b3 w)).map fun l => Cond.present c l) ++
    (if opcodeOf w == 0x08 && decide (getTok s c (syncToken w) < syncCount w) then [.token c (syncToken w) (syncCount w)] else [])

/-! ### Needle control -/

/-- Add a signed line step of 16 bits to a base register, modulo 2^18 (R129). -/
def stepBase (b st : Nat) : Nat := wrap 18 ((b : Int) + sext 16 st)

/-- Where a needle goes after the instruction at `pc` that is no LOOP: the next one, or back to the body's first with the
bases stepped (R129). -/
def advLoop (pc : Nat) (l : Option LoopSt) (b : Nat × Nat × Nat) : Nat × Option LoopSt × (Nat × Nat × Nat) :=
  match l with
  | none => (pc + 1, none, b)
  | some l =>
    if l.pos + 1 < l.body then (pc + 1, some { l with pos := l.pos + 1 }, b)
    else
      let b := (stepBase b.1 l.s1, stepBase b.2.1 l.s2, stepBase b.2.2 l.s3)
      if l.left == 0 then (pc + 1, none, b)
      else (pc + 1 - l.body, some { l with pos := 0, left := l.left - 1 }, b)

/-- The loop that a LOOP opens. -/
def openLoop (w : Nat) : LoopSt := ⟨loopBody w, 0, loopCount w - 1, loopStep1 w, loopStep2 w, loopStep3 w⟩

/-- Ticks between slots of a needle: two on a shared core (R204). -/
def slotTicks (e : Eland) : Nat := if e.shared then 2 else 1

/-- What an instruction's effect answers: a state, a full unit queue (R111), or the fault of an issue check (R128). -/
inductive Eff where
  | ok (s : State)
  | full
  | fault (code : Nat)
  | faultD (code d0 d1 : Nat)

/-- An instruction at its issue. -/
structure Ctx where
  c    : Nat
  n    : Needle
  d    : Nat
  w    : Nat
  off  : Nat
  tag  : Nat
  b1   : Nat
  b2   : Nat
  b3   : Nat

/-- The effective address of a line field of the instruction. -/
def Ctx.ea (x : Ctx) (field : Nat) : Nat := lineEA x.b1 x.b2 x.b3 x.w field

/-- The first check of a list that fails gives its fault (R128). -/
def firstFault : List (Bool × Nat) → Option Nat
  | [] => none
  | (true, f) :: _ => some f
  | (false, _) :: r => firstFault r

/-- Check 5 over an instruction's ranges. -/
def Ctx.addrBad (x : Ctx) : Bool :=
  ((linesRead x.b1 x.b2 x.b3 x.w) ++ (linesWritten x.b1 x.b2 x.b3 x.w)).any rangeBad

/-- A fault of an Eland instruction, with what its record names (R226, R228). -/
def elandFault (s : State) (x : Ctx) (code d0 d1 : Nat) : Raised :=
  { mkRaised s code x.d x.c with needle := x.n.code, offset := x.off, detail0 := d0, detail1 := d1 }

/-- The fault of an issue check names the instruction bits (R228). -/
def issueFault (s : State) (x : Ctx) (code : Nat) : State :=
  raise s (elandFault s x code (x.w % 2 ^ 64) (x.w / 2 ^ 64))

/-- Decoded instructions whose issue a hold moves (R120). -/
def laterBy (h : Nat) (l : List Decoded) : List Decoded := l.map fun y => { y with slot := y.slot + h }

/-- After an issue at `slot`: the needle's place and next slot, and the decode entry gone; slots by which it came later than
decoded move everything behind it (R118, R120, R129). -/
def advanceNeedle (e : Eland) (x : NeedleSt) (w slot : Nat) : NeedleSt :=
  let (pc, l, b) := if opcodeOf w == 0x02 then (x.pc + 1, some (openLoop w), (x.b1, x.b2, x.b3))
    else advLoop x.pc x.loop (x.b1, x.b2, x.b3)
  let h := slot - x.nextSlot
  { x with pc := pc, loop := l, b1 := b.1, b2 := b.2.1, b3 := b.2.2, nextSlot := slot + slotTicks e * (fGap w + 1),
           held := none, decoded := laterBy h (x.decoded.drop 1), dslot := x.dslot + h }

/-- The tick at which a needle issues: its next slot, and on a shared core a tick of its parity (R118, R204). -/
def atSlot (s : State) (c : Nat) (n : Needle) (d slot : Nat) : Option State :=
  match toDcc d slot s with
  | none => none
  | some s =>
    if (getE s c).shared && decide (s.ctc % 2 ≠ n.code) then some (advance 1 s) else some s

/-- Take what the condition of a chosen needle takes, in the chosen slot, its first: COUNT from its counter, and the window of
a CONDITION stream (R123, R263). -/
def consumeCond (s : State) (c d : Nat) (n : Needle) : State :=
  let k := (getN (getE s c) n).cond
  let s := if k.tokEn then subTok s c k.tok k.count else s
  let s := if k.strEn then takeWindow s k.stream (getD s d).dcc else s
  updN s c n fun x => { x with cond := {} }

/-- The first check of R128, and check 2 on reserved fields. -/
def earlyFault (e : Eland) (x : NeedleSt) (w : Nat) : Option Nat :=
  let op := opcodeOf w
  if !elandOps.contains op || (x.loop.isSome && (op == 0x02 || op == 0x03 || op == 0x01)) ||
      (e.shared && (op == 0x03 || op == 0x04)) then some 1
  else if elandReserved w then some 2 else none

/-- A stall request of a decoded instruction is open (R120, R208). -/
def openReq (d : Domain) (u needle key : Nat) : Bool := d.reqs.any fun r => r.unit == u && r.needle == needle && r.slot == key

/-- The instruction of a needle at its slot, with its decode entry: faults of the fetch, the checks, its effect. `fx` is the
instruction's own checks 2 to 5 and effect. -/
def issueAt (s : State) (c : Nat) (n : Needle) (d w : Nat) (y : Decoded) (fx : Ctx → State → Eff) : State :=
  let s := consumeCond s c d n
  let e := getE s c
  let x := getN e n
  let slot := (getD s d).dcc
  let cx : Ctx := ⟨c, n, d, w, imageOffset (getD s d) n.code (posOf c) (16 * x.pc), y.tag.getD 0, x.b1, x.b2, x.b3⟩
  -- faults of the fetch come before the checks (R121)
  if 0x30000 ≤ x.pc / 4 then raise s { elandFault s cx 0x12 (x.pc / 4) 0 with offset := 0xFFFFFFFF }
  else match y.poison with
  | some pa => raise s (elandFault s cx 0x0B pa 5)
  | none =>
    match earlyFault e x w with
    | some f => issueFault s cx f
    | none =>
      -- the entry's reservation passes to the operation, and back where a full queue holds the needle
      let s' := updN s c n fun z => { z with decoded := { y with tag := none, push := false } :: z.decoded.drop 1 }
      match fx cx s' with
      | .ok s => updN s c n fun z => advanceNeedle (getE s c) z w slot
      | .full => updN s' c n fun z => { z with held := some w, decoded := y :: z.decoded.drop 1 }
      | .fault f => issueFault s' cx f
      | .faultD f d0 d1 => raise s' (elandFault s' cx f d0 d1)

/-- Issue an Eland instruction: the needle is active, has decoded it and is at its slot. A word of another opcode than the
command's is ill-formed; a word of no opcode takes fault 01h. -/
def issueE (op c : Nat) (n : Needle) (word : W128) (fx : Ctx → State → Eff) (s : State) :
    Host.Outcome State Fault Refusal :=
  let w := word.toNat
  if 36 ≤ c then .fault .noSuchUnit
  else if opcodeOf w ≠ op && elandOps.contains (opcodeOf w) then .refused .illFormed
  else
    let x := getN (getE s c) n
    match domN (getE s c) n, x.decoded.head? with
    | some d, some y =>
      if x.st ≠ .active || y.word ≠ w then .refused (.notEnabled "the needle has not decoded the instruction")
      else if x.held.isSome then .refused (.notEnabled "the needle is held by a full queue")
      else if y.owed || openReq (getD s d) c n.code y.key then .refused (.notEnabled "a condition of the instruction is open")
      else match atSlot s c n d x.nextSlot with
        | none => .refused (.notEnabled "the domain is stalled")
        | some s =>
          if !issuing (getD s d) then .refused (.notEnabled "the domain does not run")
          else .next (issueAt s c n d w y fx)
    | _, _ => .refused (.notEnabled "the needle has decoded no instruction")

/-! ### Picks (R122 to R124) -/

/-- A parked needle's condition holds on its core (R123). -/
def condReady (s : State) (c : Nat) (k : PickCond) : Bool :=
  (!k.tokEn || decide (k.count ≤ getTok s c k.tok)) && (!k.strEn || streamCond s k.stream (posOf c))

/-- Make a needle the active one from a slot on. -/
def activate (s : State) (c : Nat) (n : Needle) (slot : Nat) : State :=
  updN s c n fun x => { x with st := .active, nextSlot := slot }

/-- The active needle has parked or halted at a pick whose slot is `slot`: the choice applies if it has come (R123). -/
def pickIssued (s : State) (c slot : Nat) : State :=
  let e := getE s c
  match e.answers with
  | a :: rest => activate (setE s c { e with answers := rest }) c a slot
  | [] => setE s c { e with pickDue := some slot }

/-- PICK parks its needle with the condition it carries; the choice governs slot P + 1 + GAP (R123, R129). A stream that
the core does not take part in raises fault 12h (R264). -/
def fxPick (x : Ctx) (s : State) : Eff :=
  if pickStreamEn x.w && !streamAt s (pickStream x.w) (posOf x.c) then .fault 0x12
  else
    let slot := (getD s x.d).dcc + fGap x.w + 1
    let s := updN s x.c x.n fun y => { y with st := .parked, cond := pickCondOf x.w }
    .ok (pickIssued s x.c slot)

/-- HALT halts its needle; with the other needle parked it is a pick with GAP = 0 (R129). -/
def fxHalt (x : Ctx) (s : State) : Eff :=
  let s := updN s x.c x.n fun y => { y with st := .halted, cond := {} }
  let e := getE s x.c
  if (getN e x.n.other).st == .parked && !e.shared then .ok (pickIssued s x.c ((getD s x.d).dcc + 1)) else .ok (noteFinished s x.d)

/-- LOOP: a body of 1 to 64 instructions, COUNT from 1 (R129). -/
def fxLoop (x : Ctx) (s : State) : Eff :=
  if loopBody x.w == 0 || decide (64 < loopBody x.w) || loopCount x.w == 0 then .fault 2 else .ok s

/-- Tile indices with an MMA or ACCRD queued or in progress on the core (R130). -/
def busyTiles (s : State) (c : Nat) : List Nat :=
  (List.range 4).flatMap fun m =>
    let e := getEng s (4 * c + m)
    (e.p0.ops ++ e.p1.ops).map (·.tile) ++ (e.p0.waves ++ e.p1.waves).map (·.op.tile) ++ e.reads.map (·.tile)

/-- PART gives tile indices to the needles from the next slot on, unless one in use would change owner (R130). -/
def fxPart (x : Ctx) (s : State) : Eff :=
  let e := getE s x.c
  if (busyTiles s x.c).any fun t => bit e.foreTiles t != bit (partTiles x.w) t then .fault 6
  else .ok (setE s x.c { e with foreTiles := partTiles x.w })

/-- Advance the steps of a strand (R131, R171, R344). -/
def advanceSteps (s : State) (strand : Nat) (data rng : Bool) : State :=
  let s := if rng then setP s (pk 0x0D51 (strand + 1)) ((rngStep s strand + 1) % 2 ^ 48) else s
  if data then
    let s := setP s (pk 0x0C10 (strand + 1)) ((dataStep s strand + 1) % 2 ^ 48)
    let s := advanceMons s strand
    { s with snap := { s.snap with reg := s.snap.reg.map fun r =>
        if r.2.valid && r.2.strand == strand then
          (r.1, { r.2 with dirtyLast := r.2.dirty.length, dirtyMax := max r.2.dirtyMax r.2.dirty.length, dirty := [] })
        else r } }
  else s

/-- STEP advances the strand's steps and becomes the needle's current strand (R131, R143). -/
def fxStep (x : Ctx) (s : State) : Eff :=
  let s := updN s x.c x.n fun y => { y with strand := stepStrand x.w }
  .ok (advanceSteps s (stepStrand x.w) (stepData x.w) (stepRng x.w))

/-- SETB writes b[BSEL] (R129). -/
def fxSetb (x : Ctx) (s : State) : Eff :=
  .ok (updN s x.c x.n fun y =>
    match fBsel x.w with
    | 1 => { y with b1 := setbValue x.w }
    | 2 => { y with b2 := setbValue x.w }
    | 3 => { y with b3 := setbValue x.w }
    | _ => y)

/-- TPOS sets the position register; WIDTH is a multiple of 64 from 64 up (R129). -/
def fxTpos (x : Ctx) (s : State) : Eff :=
  if tposWidth x.w == 0 || decide (tposWidth x.w % 64 ≠ 0) then .fault 2
  else .ok (updN s x.c x.n fun y => { y with width := tposWidth x.w, row := tposRow x.w, col := tposCol x.w })

/-- SYNC subtracts COUNT at issue; its condition was met at decode (R134). -/
def fxSync (x : Ctx) (s : State) : Eff := .ok (subTok s x.c (syncToken x.w) (syncCount x.w))

/-- SIGNAL sends INCR to the target's counter (R134, R250). -/
def fxSignal (x : Ctx) (s : State) : Eff := .ok (sendIncr s (posOf x.c) x.d (signalPos x.w) (signalToken x.w) (signalIncr x.w))

def execNop (c : Nat) (n : Needle) (w : W128) (s : State) : Host.Outcome State Fault Refusal :=
  issueE 0x00 c n w (fun _ s => .ok s) s
def execHalt (c : Nat) (n : Needle) (w : W128) (s : State) : Host.Outcome State Fault Refusal :=
  issueE 0x01 c n w fxHalt s
def execLoop (c : Nat) (n : Needle) (w : W128) (s : State) : Host.Outcome State Fault Refusal :=
  issueE 0x02 c n w fxLoop s
def execPick (c : Nat) (n : Needle) (w : W128) (s : State) : Host.Outcome State Fault Refusal :=
  issueE 0x03 c n w fxPick s
def execPart (c : Nat) (n : Needle) (w : W128) (s : State) : Host.Outcome State Fault Refusal :=
  issueE 0x04 c n w fxPart s
def execStep (c : Nat) (n : Needle) (w : W128) (s : State) : Host.Outcome State Fault Refusal :=
  issueE 0x05 c n w fxStep s
def execSetb (c : Nat) (n : Needle) (w : W128) (s : State) : Host.Outcome State Fault Refusal :=
  issueE 0x06 c n w fxSetb s
def execTpos (c : Nat) (n : Needle) (w : W128) (s : State) : Host.Outcome State Fault Refusal :=
  issueE 0x07 c n w fxTpos s
def execSync (c : Nat) (n : Needle) (w : W128) (s : State) : Host.Outcome State Fault Refusal :=
  issueE 0x08 c n w fxSync s
def execSignal (c : Nat) (n : Needle) (w : W128) (s : State) : Host.Outcome State Fault Refusal :=
  issueE 0x09 c n w fxSignal s

/-! ### Picks at the root -/

/-- Readiness of a needle on its core at a pick; the active needle's is that of the PICK it has decoded or issued, and a
halted needle is never ready (R122, R123). -/
def needleReady (s : State) (c : Nat) (n : Needle) : Bool :=
  let x := getN (getE s c) n
  match x.st with
  | .halted => false
  | .parked => condReady s c x.cond
  | .active =>
    match x.decoded.find? fun y => opcodeOf y.word == 0x03 with
    | some y => condReady s c (pickCondOf y.word)
    | none => false

/-- The slot that the core's open pick governs; none once the root has answered it. -/
def pickSlot (s : State) (c : Nat) : Option Nat :=
  let e := getE s c
  match e.pickDue with
  | some slot => some slot
  | none =>
    let f (n : Needle) : Option Nat :=
      let x := getN e n
      if x.st == .active then
        (x.decoded.find? fun y => opcodeOf y.word == 0x03 ||
            (opcodeOf y.word == 0x01 && (getN e n.other).st == .parked)).map fun y =>
          y.slot + (if opcodeOf y.word == 0x03 then fGap y.word else 0) + 1
      else none
    if !e.answers.isEmpty then none
    else match f .fore with
      | some k => some k
      | none => f .back

/-- The needle of a core's open pick and the place of its PICK or HALT in the program (R124). -/
def pickPlace (e : Eland) : Needle × Nat :=
  let n : Needle := if e.fore.st == .active then .fore
    else if e.back.st == .active then .back
    else if e.back.nextSlot ≤ e.fore.nextSlot then .fore else .back
  let x := getN e n
  (n, match x.decoded.find? fun y => opcodeOf y.word == 0x03 || opcodeOf y.word == 0x01 with
    | some y => y.idx
    | none => x.pc - 1)

/-- PICK_REPORT: at the decode point of the slot that a pick governs, a core's readiness bits reach the root; with every report
in, the root chooses a needle that is ready everywhere, the fore-needle first, or the domain stalls (R123, R124). A later report
of the same pick replaces the core's bits: the root evaluates again. -/
def execPickReport (d c : Nat) (s : State) : Host.Outcome State Fault Refusal :=
  if 8 ≤ d || 36 ≤ c then .fault .noSuchUnit else
  match pickSlot s c with
  | none => .refused (.notEnabled "the core has no pick to report")
  | some slot =>
    if !(reporting s d).contains c || (getD s d).choice.isSome then
      .refused (.notEnabled "the core takes no part in a pick now")
    else match (if horizonMet s d slot then some s else toHorizon s d slot) with
    | none => .refused (.notEnabled "the domain is stalled")
    | some s =>
      let dd := getD s d
      let rep : PickRep := ⟨c, dd.nth + 1, needleReady s c .fore, needleReady s c .back⟩
      let reps := dd.reports.filter (fun r => r.core ≠ c) ++ [rep]
      let s := incP (setD s d { dd with reports := reps }) (pk 0x0930 3) 1
      let all := (reporting s d).all fun k => reps.any fun r => r.core == k
      let dd := getD s d
      if all && reps.all (·.fore) then .next (setD s d { dd with choice := some .fore })
      else if all && reps.all (·.back) then .next (setD s d { dd with choice := some .back })
      else
        let first := (reps.head?.map (·.core)).getD c
        let (n, idx) := pickPlace (getE s first)
        .next (if dd.reqs.any fun r => r.cond == .pick && r.slot == slot then s else requestStall s d
          { slot := slot, unit := first, needle := n.code, offset := imageOffset dd n.code (posOf first) (16 * idx), cond := .pick })

/-- A core learns which needle becomes active in the slot that its pick governs: the needle decodes from now on, and is active
once the pick has issued (R120, R123). -/
def choose (s : State) (c : Nat) (n : Needle) : State :=
  match pickSlot s c with
  | none => s
  | some slot =>
    let s := updN s c n fun x => { x with dslot := slot, decFrom := some s.ctc }
    let e := getE s c
    match e.pickDue with
    | some slot => activate (setE s c { e with pickDue := none }) c n slot
    | none => setE s c { e with answers := e.answers ++ [n] }

/-- PICK_CHOICE: the broadcast tells every reporting core which needle becomes active (R123). The open pick's stall request is
met. -/
def execPickChoice (d : Nat) (s : State) : Host.Outcome State Fault Refusal :=
  if 8 ≤ d then .fault .noSuchUnit else
  let dd := getD s d
  match dd.choice with
  | none => .refused (.notEnabled "no choice is on its way")
  | some n =>
    let cores := reporting s d
    let s := setD s d { dd with choice := none, reports := [], nth := dd.nth + 1,
                                reqs := dd.reqs.filter fun r => r.cond ≠ .pick }
    let s := cores.foldl (fun s c => choose s c n) s
    .next (announceResume (incP s (pk 0x0930 3) 1) d)

/-! ### Decode (R116, R120, R121) -/

/-- The instruction that a needle decodes next: from its loop buffer on later iterations, else from core memory (R121). -/
def nextFetched (s : State) (c : Nat) (x : NeedleSt) : Fetched :=
  match x.dloop with
  | some l => match x.loopBuf.find? fun y => y.1 == l.pos with
    | some y => y.2
    | none => fetched s c 16 x.dpc
  | none => fetched s c 16 x.dpc

/-- The instruction decoded next is read from core memory. -/
def fetches (x : NeedleSt) : Bool :=
  match x.dloop with
  | some l => (x.loopBuf.find? fun y => y.1 == l.pos).isNone
  | none => true

/-- Where decode goes after a word, with the decode point's view of the bases and the loop buffer; after a PICK or HALT it waits
for a choice. -/
def advanceDecode (e : Eland) (x : NeedleSt) (f : Fetched) : NeedleSt :=
  let w := f.word
  let op := opcodeOf w
  let buf := match x.dloop with
    | some l => SMap.ins l.pos f x.loopBuf
    | none => if op == 0x02 then [] else x.loopBuf
  let (b1, b2, b3) := if op == 0x06 then
      (match fBsel w with
       | 1 => (setbValue w, x.d2, x.d3)
       | 2 => (x.d1, setbValue w, x.d3)
       | _ => (x.d1, x.d2, setbValue w))
    else (x.d1, x.d2, x.d3)
  let (pc, l, b) := if op == 0x02 then (x.dpc + 1, some (openLoop w), (b1, b2, b3))
    else advLoop x.dpc x.dloop (b1, b2, b3)
  { x with dpc := pc, dloop := l, d1 := b.1, d2 := b.2.1, d3 := b.2.2, loopBuf := buf,
           dslot := x.dslot + slotTicks e * (fGap w + 1), decFrom := if op == 0x01 || op == 0x03 then none else x.decFrom }

/-- The decode of a needle's next instruction: PRESENT bits of fills cleared, tag and push slot reserved, conditions checked;
each failure raises a stall request that names the slot. What is fetched from beyond core memory or from a poisoned word has no
effect (R120, R121, R208). -/
def decodeNext (s : State) (c : Nat) (n : Needle) (d : Nat) : State :=
  let x := getN (getE s c) n
  let s := if fetches x then checkRange s (corePa c (16 * x.dpc)) 16 (some d) else s
  let f := nextFetched s c x
  let w := f.word
  let slot := x.dslot
  let dd := getD s d
  let off := imageOffset dd n.code (posOf c) (16 * x.dpc)
  let add (y : Decoded) (s : State) : State :=
    updN s c n fun x => { advanceDecode (getE s c) x f with decoded := x.decoded ++ [y] }
  if decide (0x30000 ≤ x.dpc / 4) || f.poison.isSome then
    add { word := w, idx := x.dpc, slot := slot, tag := none, push := false, poison := f.poison } s
  else
    let s := clearPresent s c (linesFilled x.d1 x.d2 x.d3 w)
    let need := isMeshOp (opcodeOf w) || isPush w
    let tag := if need then reserve s c d (isPush w) else none
    let owed := need && tag.isNone
    let conds := (if owed && isPush w && decide (pushSlots s c ≤ pushesHeld s c d) then [Cond.push c] else []) ++
      (if owed && !decide (tagsOfCore s c d < quotaOf s c) then [.tag c] else []) ++ decodeConds s c x.d1 x.d2 x.d3 w
    conds.foldl (fun s k => requestStall s d { slot := slot, unit := c, needle := n.code, offset := off, cond := k })
      (add { word := w, idx := x.dpc, slot := slot, tag := tag, push := isPush w, owed := owed } s)

/-- INSTRUCTION_DECODE of an Eland needle: exactly 64 slots before the instruction's slot, time moving on to that point; for the
slots that a choice has come too late for, in the tick of the choice (R120, R123, DEDUCED). -/
def decodeEland (s : State) (c : Nat) (n : Needle) : Host.Outcome State Fault Refusal :=
  let x := getN (getE s c) n
  match domN (getE s c) n, x.decFrom with
  | some d, some from_ =>
    if !(getD s d).st.runs then .refused (.notEnabled "the domain does not run")
    else if from_ == s.ctc && horizonMet s d x.dslot then .next (decodeNext s c n d)
    else if horizonPast s d x.dslot then .refused (.notEnabled "the decode point has passed")
    else if x.held.isSome && decide (x.nextSlot + 64 < x.dslot) then .refused (.notEnabled "the needle is held by a full queue")
    else match toHorizon s d x.dslot with
      | none => .refused (.notEnabled "the domain is stalled")
      | some s => if decoding s d then .next (decodeNext s c n d) else .refused (.notEnabled "the domain does not decode")
  | _, _ => .refused (.notEnabled "the needle does not decode")

end Sys2Proof.Machine
end

