-- ==== Sys2Proof/Machine/Engines.lean ====
section
/-!
DEFINITION. MMAs and accumulator reads of an Eland core (R86 to R92, R136 to R141): how a Round beat enters an engine's queue
as a wavefront, the entry cycles, and the issue of MMA and ACCRD.
-/
namespace Sys2Proof.Machine

/-! ### Entry and wavefronts (R86, R87) -/

/-- The domain runs by the latencies of stepping A0 (R109). -/
def oldLatency (s : State) (d : Nat) : Bool := getP s (pk (0x0600 + d) 6) == 1 || getP s (pk 0 3) == 0

/-- Cycles from the last push of an element to its close (R76, R109). -/
def closeLatency (s : State) (d : Nat) : Nat := if oldLatency s d then 8 else 6

/-- Cycles from the last chunk's entry at cell (0, 0), or E without chunks, to the last push or close of an MMA (R86). -/
def tailCycles (s : State) (op : Mma) : Nat :=
  (if op.k == 0 then 0 else 2 + Nat.log2 op.g) + (if op.close then closeLatency s op.dom else 0) +
    (if op.k == 0 && !op.close then 0 else op.m1 + op.n1)

/-- A part whose MMA entered its last chunk at a DCC: the next may enter one later, and pushes and closes go on over the
named area (R86, R90). -/
def partDone (s : State) (op : Mma) (last : Nat) (p : EngPart) : EngPart :=
  { p with free := last + 1, busy := max p.busy (last + tailCycles s op + 1) }

/-- The named engines of an MMA, in beat order (R87). -/
def mmaEngines (w : Nat) : List Nat :=
  let l := (List.range 4).filter fun m => bit (mmaEng w) m
  match mmaDir w with
  | .cw => l
  | .ccw => l.reverse

/-- The rows and columns that the open cascade of an MMA's tile reaches, as the last of each: its own, those of its waves, and
of the elements in it (R65). -/
def cascadeArea (s : State) (e h : Nat) (op : Mma) : Nat × Nat :=
  let p := getPart (getEng s e) h
  let c0 := if h == 1 then 32 else 0
  let split := bit (getEng s e).part 31
  let a := (p.waves.filter fun w => w.op.tile == op.tile).foldl (fun a w => (max a.1 w.m1, max a.2 w.n1)) (op.m1, op.n1)
  (s.cells.filter fun x => x.2.inCas).foldl (fun a x =>
    let k := x.1
    let j := k % 64
    if k / 4096 == cellKey e op.tile 0 0 / 4096 && decide (c0 ≤ j) && (!split || decide (j < c0 + 32)) then
      (max a.1 (k / 64 % 64), max a.2 (j - c0))
    else a) a

/-- The wave of an MMA's close: each element a close latency after its last push, or after its entry where there is no chunk
(R76, R86). -/
def closeWave (s : State) (e h : Nat) (op : Mma) (last : Nat) : List Wave :=
  if op.close then
    let (m, n) := cascadeArea s e h op
    [{ kind := .close, op := op, at_ := last + closeLatency s op.dom, m1 := m, n1 := n }]
  else []

/-- An MMA without chunks enters an engine at a cycle: its elements open, and close if it closes (R76, R86). -/
def enterEmpty (u h t : Nat) (op : Mma) (s : State) (m : Nat) : State :=
  let e := 4 * u + m
  match (getPart (getEng s e) h).ops with
  | [] => s
  | op' :: rest =>
    let at_ := t + (mmaEngines op.word).idxOf m
    let ws : List Wave := { kind := .enter, op := op', at_ := at_, m1 := op.m1, n1 := op.n1 } :: closeWave s e h op' at_
    updPart s e h fun p => partDone s op' at_ { p with ops := rest, waves := p.waves ++ ws }

/-- The entry cycle of the first engine of an MMA without chunks, once the MMA is in front of every engine it names: each
engine enters as far behind the first as it stands in beat order, and none before its own entry (R87). -/
def emptyEntry (s : State) (u h : Nat) (op : Mma) : Option Nat :=
  let es := mmaEngines op.word
  let parts := es.map fun m => getPart (getEng s (4 * u + m)) h
  if parts.all fun p => (p.ops.head?.map (·.id)) == some op.id then
    some ((es.zip parts).foldl (fun a x =>
      max a (max ((x.2.ops.head?.map (·.entry)).getD 0) x.2.free - es.idxOf x.1)) 0)
  else none

/-- The first MMA without chunks that can run on a core's half h, with its entry cycle. -/
def nextEmpty (s : State) (u h : Nat) : Option (Mma × Nat) :=
  ((List.range 4).filterMap fun m => match (getPart (getEng s (4 * u + m)) h).ops with
    | op :: _ => if op.k == 0 then (emptyEntry s u h op).map fun t => (op, t) else none
    | [] => none).head?

/-- The MMAs without chunks that have come to the front of every engine they name enter (R76, R86, R87). -/
def settle (u h : Nat) : Nat → State → State
  | 0, s => s
  | n + 1, s =>
    match nextEmpty s u h with
    | none => s
    | some (op, t) => settle u h n ((mmaEngines op.word).foldl (enterEmpty u h t op) s)

/-! ### Beats at an engine (R89, R100 to R102, R137) -/

/-- Bits [63:0] of a beat's control lane (R100). -/
def beatCtrl (b : Beat) : Nat :=
  b.depth * 2 ^ 26 + b.beat * 2 ^ 19 + b.hops * 2 ^ 13 + (if b.metaV then 2 ^ 12 else 0) + (if b.last then 2 ^ 11 else 0) +
    (if b.first then 2 ^ 10 else 0) + (if b.trans then 2 ^ 9 else 0) + b.fmt * 16 + b.dom * 2 + (if b.valid then 1 else 0)

/-- What a beat does to metadata banks (R102): the first beat of a tile switches, metadata fills the other bank. -/
def stepBanks (k : Banks) (b : Beat) : Banks :=
  let k := if b.valid && b.first then ⟨k.next, []⟩ else k
  if b.metaV then { k with next := k.next ++ b.md } else k

/-- The next stop in a direction (R23). -/
def nextStop (stop : Nat) : Dir → Nat
  | .cw => (stop + 1) % 36
  | .ccw => (stop + 35) % 36

/-- Cycles in which a beat crosses a stop (R98). -/
def crossing (s : State) (stop : Nat) : Nat := if fenced s stop then 5 else 4

/-- The DCC at which a beat that leaves stop `st` at `leave` enters a later stop of its way, if it gets there (R99, R100,
R107). -/
def entersAt (s : State) (dom : Nat) (dir : Dir) (stop : Nat) : Nat → Nat → Nat → Nat → Option Nat
  | 0, _, _, _ => none
  | n + 1, st, hops, leave =>
    let nx := nextStop st dir
    if hops ≤ 1 || !bit (getD s dom).arc nx then none
    else if nx == stop then some leave
    else entersAt s dom dir stop n nx (hops - 1) (leave + crossing s nx)

/-- The DCC at which a beat on its way enters a stop, or entered the stop it is at. -/
def beatEnters (s : State) (b : Beat) (stop : Nat) : Option Nat :=
  if b.stop == stop then some (b.at_ - b.eng) else entersAt s b.dom b.dir stop 36 b.stop b.hops (b.at_ + (4 - b.eng))

/-- The place of engine m on the way through a stop (R99). -/
def engineAt (m : Nat) : Dir → Nat
  | .cw => m
  | .ccw => 3 - m

/-- The DCC at which a beat will reach engine m of a stop, unless it has passed it. -/
def beatReaches (s : State) (b : Beat) (stop m : Nat) : Option Nat :=
  let i := engineAt m b.dir
  if b.stop == stop then (if b.eng ≤ i then some (b.at_ + (i - b.eng)) else none)
  else (beatEnters s b stop).map (· + i)

/-- Whether the other engines that an MMA names can enter its first chunk by this beat: the MMAs before it there will have
entered theirs by the beats that reach them first (R86, R87). -/
def othersReady (s : State) (u m h : Nat) (op : Mma) (b : Beat) : Bool :=
  let es := mmaEngines op.word
  es.all fun k => k == m ||
    (let q := getPart (getEng s (4 * u + k)) h
     let by_ := b.at_ + es.idxOf k
     let ahead := q.ops.takeWhile fun o => o.id ≠ op.id
     (!ahead.isEmpty || decide (q.free ≤ by_)) &&
       [Dir.cw, Dir.ccw].all fun dir =>
         decide (sumNat ((ahead.filter fun o => o.dir == dir).map fun o => mmaChunks o - o.got) ≤
           (s.beats.filter fun y => y.dom == op.dom && y.dir == dir && y.valid &&
             (match beatReaches s y u k with
              | some t => decide (t < by_)
              | none => false)).length))

/-- Whether a beat is the first that an MMA at the front of a part consumes: on the first engine it names no beat before the
entry cycle that all its engines share, on the others the beat that started it there (R86, R87, R137). -/
def startsOn (s : State) (u m h : Nat) (op : Mma) (b : Beat) : Bool :=
  if op.lead then
    decide (op.entry ≤ b.at_) && decide ((getPart (getEng s (4 * u + m)) h).free ≤ b.at_) && othersReady s u m h op b
  else b.starts.contains op.id

/-- The rows of A that are due enter with a chunk. -/
def enterDue (u dcc : Nat) (stage : List Span) : Nat → Wave → State → State × Wave
  | 0, w, s => (s, w)
  | n + 1, w, s =>
    if rowDue w dcc then
      let (s, w) := enterRow s u stage w
      enterDue u dcc stage n w s
    else (s, w)

/-- The chunk that a beat brings into an engine part: B's NaNs are counted by the first engine and its marker conflicts by
each, and the first row of A enters with it (R45, R59, R84, R86). -/
def chunkWave (s : State) (u e h : Nat) (op : Mma) (b : Beat) : State × Wave :=
  let p := getPart (getEng s e) h
  let j0 := if h == 1 then 32 else 0
  let w : Wave := { kind := .chunk, op := op, at_ := b.at_ + 2 + Nat.log2 op.g, m1 := op.m1, n1 := op.n1, c := op.got,
                    beat := some b, bank := p.banks.cur }
  let s := if op.lead then countNan s 1 (chunkNansB op b p.banks.cur j0 op.got) op.dom u else s
  let s := incP s (pk 0x0D40 2) (beatConflicts b p.banks.cur)
  enterDue u (getD s b.dom).dcc p.stage 64 w s

/-- A beat reaches an engine part of its domain: metadata, then the MMA in progress takes a chunk (R89, R102, R137). -/
def partBeat (s : State) (u m h : Nat) (b : Beat) : State :=
  let e := 4 * u + m
  let s := updPart s e h fun p => { p with banks := stepBanks p.banks b }
  let x := getEng s e
  let p := getPart x h
  match p.ops with
  | [] => s
  | op :: rest =>
    if !b.valid || op.dir ≠ b.dir || (!op.opened && !startsOn s u m h op b) then s
    else if b.fmt ≠ op.fmtB || b.depth ≠ Nat.log2 op.g then
      raise (updPart s e h fun p => { p with ops := rest })
        (engFault s 0x03 op.dom u op.needle m (if bit x.part 31 then h + 1 else 0) op.offset (beatCtrl b) 0)
    else
      let (s, w) := chunkWave s u e h op b
      let op := { op with opened := true, got := op.got + 1 }
      if op.got == mmaChunks op then
        let ws := w :: closeWave s e h op w.at_
        settle u h 20 (updPart s e h fun p => partDone s op b.at_ { p with ops := rest, waves := p.waves ++ ws })
      else updPart s e h fun p => { p with ops := op :: rest, waves := p.waves ++ [w] }

/-- A beat at engine m of a stop: each part of its domain takes it (R96). -/
def engineBeat (s : State) (u m : Nat) (b : Beat) : State :=
  let x := getEng s (4 * u + m)
  let s := if partDom x.part 0 == some b.dom then partBeat s u m 0 b else s
  if partDom x.part 1 == some b.dom then partBeat s u m 1 b else s

/-- The MMAs that a beat starts at engine m as the first engine they name. -/
def engineStarts (s : State) (u m : Nat) (b : Beat) : List Nat :=
  (List.range 2).flatMap fun h =>
    let x := getEng s (4 * u + m)
    match (getPart x h).ops with
    | [] => []
    | op :: _ =>
      if partDom x.part h == some b.dom && b.valid && op.dir == b.dir && !op.opened && op.lead && startsOn s u m h op b then
        [op.id] else []

/-! ### MMA and ACCRD at issue -/

/-- The DCC at which an engine part goes idle, if it has worked (R90). -/
def idleFrom (p : EngPart) : Nat := if p.idle then p.rampAt else p.busy + 64

/-- Cycles from issue to the entry cycle that a part alone would have: 3, or later where a column group is to be enabled
first (R86, R91, R92). -/
def entryAlone (s : State) (p : EngPart) (groups issue : Nat) : Nat :=
  let step := getP s (pk 0x0203 0) / 8
  ((List.range groups).filter fun q => p.ops.isEmpty && (p.busy == 0 || decide (idleFrom p + q * step ≤ issue))).foldl
    (fun a q => max a ((q + 1) * step - 8 * q)) 3

/-- The entry cycle of the first engine of an MMA issued at a DCC: the largest that its engines need (R87). -/
def entryShared (s : State) (c h : Nat) (es : List Nat) (issue : Nat) : Nat :=
  (es.map fun m =>
    let x := getEng s (4 * c + m)
    issue + entryAlone s (getPart x h) (if bit x.part 31 then 4 else 8) issue - es.idxOf m).foldl max 0

/-- HALF names a part that the domain owns (R95, R96, R137): 0 whole, 1 and 2 the halves. -/
def ownsHalf (s : State) (e half d : Nat) : Bool :=
  let r := (getEng s e).part
  if half == 0 then !bit r 31 && partDom r 0 == some d
  else bit r 31 && partDom r (half - 1) == some d

/-- The tile index belongs to the needle; on a shared core every index does (R130). -/
def ownsTile (s : State) (c : Nat) (n : Needle) (t : Nat) : Bool :=
  let e := getE s c
  e.shared || (bit e.foreTiles t == (n == .fore))

/-- A format pair that R48 permits. -/
def pairOk (a b : Nat) : Bool :=
  a ≠ 0 && b ≠ 0 && ((fmtClass a == .integer) == (fmtClass b == .integer))

/-- MMAs that wait in a part's queue. -/
def queuedOps (p : EngPart) : Nat := (p.ops.filter fun o => !o.opened).length

/-- Places of an engine's or half's MMA queue for the domain that owns it: on a shared core half of a whole engine's (R110, R204,
DEDUCED). -/
def mmaPlaces (s : State) (c m : Nat) : Nat := if (getE s c).shared && !bit (getEng s (4 * c + m)).part 31 then 2 else 4

/-- Checks 2 to 5 of an MMA (R128, R136, R137). -/
def mmaCheck (x : Ctx) (s : State) : Option Nat :=
  let w := x.w
  let es := mmaEngines w
  let h := halfIdx (mmaHalf w)
  let isInt := fmtClass (mmaFmtA w) == .integer
  firstFault [
    (!fmtValid (mmaFmtA w) || !fmtValid (mmaFmtB w) || mmaHalf w == 3 || mmaEng w == 0 ||
      (decide (mmaHalf w ≠ 0) && bit (mmaN1 w) 5), 2),
    (!pairOk (mmaFmtA w) (mmaFmtB w) || (mmaGradA w && !floorOk s (mmaFmtA w)) || (mmaGradB w && !floorOk s (mmaFmtB w)) ||
      (mmaCont w && es.any fun m => (getTile s (tileKey (4 * x.c + m) h (mmaTile w))).issInt ≠ isInt), 3),
    ((es.any fun m => !ownsHalf s (4 * x.c + m) (mmaHalf w) x.d) || !ownsTile s x.c x.n (mmaTile w), 6),
    (x.addrBad, 0x12)]

/-- MMA: queued on every engine it names; the first of them counts operand NaNs (R86, R110, R137). -/
def fxMma (x : Ctx) (s : State) : Eff :=
  let w := x.w
  match mmaCheck x s with
  | some f => .fault f
  | none =>
    let h := halfIdx (mmaHalf w)
    let es := mmaEngines w
    if es.any fun m => mmaPlaces s x.c m ≤ queuedOps (getPart (getEng s (4 * x.c + m)) h) then .full
    else
      let (id, s) := freshId s
      let first := entryShared s x.c h es (getD s x.d).dcc
      .ok (settle x.c h 20 (es.foldl (fun s m =>
        let e := 4 * x.c + m
        let op : Mma :=
          { id := id, needle := x.n.code, dom := x.d, tile := mmaTile w, cont := mmaCont w, close := mmaClose w,
            fmtA := mmaFmtA w, fmtB := mmaFmtB w, dir := mmaDir w, k := mmaK w,
            g := min (fmtG (mmaFmtA w)) (fmtG (mmaFmtB w)), m1 := mmaM1 w, n1 := mmaN1 w, aLine := x.ea (mmaALine w),
            aStride := mmaStride w, got := 0, opened := false, lead := es.head? == some m, offset := x.off, word := w,
            entry := first + es.idxOf m, issued := (getD s x.d).dcc }
        let k := tileKey e h (mmaTile w)
        let s := if mmaCont w then s else
          setTile s k { getTile s k with issInt := fmtClass (mmaFmtA w) == .integer }
        updPart s e h fun p => { p with ops := p.ops ++ [op], idle := false }) s))

def execMma (c : Nat) (n : Needle) (w : W128) (s : State) : Host.Outcome State Fault Refusal :=
  issueE 0x10 c n w fxMma s

/-- A reserved MARKS encoding for the marked formats named (R138). -/
def marksBad (marks : Nat) (fs : List Nat) : Bool := marks == 3 || (decide (marks ≠ 0) && !fs.any fmtMarked)

/-- Checks 2 to 5 of an ACCRD, with the strand check of R154. -/
def accCheck (x : Ctx) (s : State) : Option Nat :=
  let w := x.w
  let e := 4 * x.c + accEng w
  let isInt := (getTile s (tileKey e (halfIdx (accHalf w)) (accTile w))).issInt
  let spans (f : Nat) : Bool := f == 0x14 || f == 0x15 || f == 0x16
  firstFault [
    (!fmtValid (accFmtD w) || !fmtValid (accFmtS w) || accRmode w == 3 || !funcValid (accFunc w) || accHalf w == 3 ||
      marksBad (accMarks w) [accFmtD w, accFmtS w] || (!isInt && (accRowScale w || accColScale w)), 2),
    ((accGrad w && !floorOk s (accFmtD w)) || (decide (accHalf w ≠ 0) && (spans (accFmtD w) || spans (accFmtS w))), 3),
    (!ownsHalf s e (accHalf w) x.d || !ownsTile s x.c x.n (accTile w), 6),
    (x.addrBad || (accPush w && !ownsStrand s x.d (accStrand w)), 0x12)]

/-- Reads of a domain that wait in an engine's read queue. -/
def queuedReads (x : Engine) (d : Nat) : Nat := (x.reads.filter fun r => r.dom == d && r.start.isNone).length

/-- Places of an engine's read queue for a domain (R110, R204). -/
def readPlaces (s : State) (c : Nat) : Nat := if (getE s c).shared then 1 else 2

/-- ACCRD: queued behind the reads of its engine; it counts as issued at once where every earlier one has taken its last row.
With a push, the entry takes its place on the lane now (R88, R110, R139, R155, R160). -/
def fxAccrd (x : Ctx) (s : State) : Eff :=
  let w := x.w
  match accCheck x s with
  | some f => .fault f
  | none =>
    match (if accPush w then stashFull s x.c (accStrand w) (imageLines (accFmtS w)) 1 else none) with
    | some (a, b) => .faultD 5 a b
    | none =>
      let e := 4 * x.c + accEng w
      let now := (getD s x.d).dcc
      let go := (getEng s e).reads.all fun r => r.dom ≠ x.d || r.taken == 64
      if !go && decide (readPlaces s x.c ≤ queuedReads (getEng s e) x.d) then .full
      else
        let (id, s) := freshId s
        let y := getN (getE s x.c) x.n
        let r : AccRead :=
          { id := id, needle := x.n.code, dom := x.d, tile := accTile w, half := accHalf w, word := w,
            dst := x.ea (accDst w), aux := x.ea (accAux w), width := y.width, row := y.row, col := y.col,
            step := rngStep s (accStrand w), dstep := dataStep s (accStrand w),
            tag := if accPush w then some x.tag else none, offset := x.off, pol := nanPolicy s, issued := now,
            start := if go then some now else none }
        let s := updN s x.c x.n (nextTiles 1)
        let s := if accPush w then
            beginPush (notePush s x.c (accStrand w) (imageLines (accFmtS w)) 1) x.c x.n.code x.d x.tag (accStrand w)
              (accLayer w * 16 + accOperand w) (accFmtS w) r.dstep w x.off 1 .accPush
          else s
        .ok (setEng s e { getEng s e with reads := (getEng s e).reads ++ [r] })

def execAccrd (c : Nat) (n : Needle) (w : W128) (s : State) : Host.Outcome State Fault Refusal :=
  issueE 0x14 c n w fxAccrd s

/-- The cycle at which the oldest MMA that a read's next row waits for completes it, if that MMA has entered its chunks:
its last wave reaches the last column of the row (R88). -/
def holdEnds (p : EngPart) (r : AccRead) : Option Nat :=
  if p.ops.any fun o => o.tile == r.tile && decide (o.id < r.id) then none
  else some (((p.waves.filter fun w => w.op.tile == r.tile && decide (w.op.id < r.id) && decide (r.taken ≤ w.m1)).map
    fun w => w.at_ + r.taken + w.n1).foldl max 0)

/-- The first read of an engine that an earlier MMA holds (R88). -/
def heldRead (x : Engine) (dcc : Nat → Nat) : Option AccRead :=
  x.reads.find? fun r => match r.start with
    | some t => decide (r.taken < 64) && decide (t + 2 + r.taken ≤ dcc r.dom + 1) && rowPending (getPart x (halfIdx r.half)) r r.taken
    | none => false

/-- ACCRD_HOLD_RELEASE: the earlier MMAs of a held read's tile complete its next row; time moves on to the cycle in which they
do, and the read takes the row (R88). -/
def execAccrdHoldRelease (c m : Nat) (s : State) : Host.Outcome State Fault Refusal :=
  if 36 ≤ c || 4 ≤ m then .fault .noSuchUnit
  else
    let x := getEng s (4 * c + m)
    match heldRead x fun d => (getD s d).dcc with
    | none => .refused (.notEnabled "no read is held")
    | some r => match holdEnds (getPart x (halfIdx r.half)) r with
      | none => .refused (.notEnabled "an MMA before the read has chunks to come")
      | some t => match toDcc r.dom (max t ((getD s r.dom).dcc + 1)) s with
        | none => .refused (.notEnabled "the domain is stalled")
        | some s => .next s

/-- Time moves on to a DCC of a domain, where there is one and it runs. -/
def whenRuns (s : State) (d : Option Nat) (t : Nat) : Option State :=
  match d with
  | some d => if (getD s d).st.runs then toDcc d t s else some s
  | none => some s

/-- ENGINE_IDLE: 64 free cycles have passed; the engine or half is idle and its bind-off begins (R90, R92). -/
def execEngineIdle (c m h : Nat) (s : State) : Host.Outcome State Fault Refusal :=
  if 36 ≤ c || 4 ≤ m || 2 ≤ h then .fault .noSuchUnit
  else
    let e := 4 * c + m
    let x := getEng s e
    let p := getPart x h
    if h == 1 && !bit x.part 31 then .refused (.notEnabled "the engine is not split")
    else if !p.ops.isEmpty then .refused (.notEnabled "an MMA is queued or in progress")
    else if p.idle then .refused (.notEnabled "the engine is idle")
    else match whenRuns s (partDom x.part h) (p.busy + 64) with
      | none => .refused (.notEnabled "the domain is stalled")
      | some s => .next (updPart s e h fun p => { p with idle := true, rampAt := p.busy + 64 })

end Sys2Proof.Machine
end

