-- ==== Sys2Proof/Machine/Elem.lean ====
section
/-!
DEFINITION. The issue of the element unit's instructions (R110, R143 to R146): ACT, CVT, DACT and AMAX. What the unit does with
them in its cycles stands in Units.lean.
-/
namespace Sys2Proof.Machine

/-- Instructions of a domain that wait in a core's element unit. -/
def queuedElems (e : Eland) (d : Nat) : Nat := (e.elems.filter fun j => j.dom == d && j.start.isNone).length

/-- Places of the element unit's queue for a domain (R110, R204). -/
def elemPlaces (e : Eland) : Nat := if e.shared then 2 else 4

/-- Queue an instruction on the element unit, with what its issue latches; it starts at once where every earlier one has read
its last row, and the position register passes its tiles (R110, R111, R131, R132, R143, R146). -/
def startElem (x : Ctx) (src src2 dst tiles : Nat) (s : State) : Eff :=
  let e := getE s x.c
  let now := (getD s x.d).dcc
  let go := e.elems.all fun j => j.dom ≠ x.d || j.next == elemRows j
  if !go && decide (elemPlaces e ≤ queuedElems e x.d) then .full
  else
    let y := getN e x.n
    let j : ElemJob :=
      { word := x.w, needle := x.n.code, dom := x.d, offset := x.off, src := src, src2 := src2, dst := dst,
        width := y.width, row := y.row, col := y.col, strand := y.strand, step := rngStep s y.strand, pol := nanPolicy s,
        issued := now, start := if go then some now else none }
    .ok (updN (setE s x.c { e with elems := e.elems ++ [j] }) x.c x.n (nextTiles tiles))

/-- Checks 2 to 5 of ACT and CVT; `cvt` reserves FUNC. -/
def elCheck (x : Ctx) (s : State) (cvt : Bool) : Option Nat :=
  let w := x.w
  firstFault [
    (elCount w == 0 || !fmtValid (elFmtX w) || !fmtValid (elFmtY w) || elRmode w == 3 ||
      marksBad (elMarks w) [elFmtY w] || (if cvt then decide (elFunc w ≠ 0) else !funcValid (elFunc w)), 2),
    (elGrad w && !floorOk s (elFmtY w), 3),
    (x.addrBad, 0x12)]

/-- ACT or CVT (R143). -/
def fxConvert (cvt : Bool) (x : Ctx) (s : State) : Eff :=
  match elCheck x s cvt with
  | some f => .fault f
  | none => startElem x (x.ea (elSrc x.w)) 0 (x.ea (elDst x.w)) (elCount x.w) s

/-- Checks 2 to 5 of DACT. -/
def dactCheck (x : Ctx) (s : State) : Option Nat :=
  let w := x.w
  firstFault [
    (daCount w == 0 || !fmtValid (daFmtG w) || !fmtValid (daFmtS w) || !fmtValid (daFmtD w) || daRmode w == 3 ||
      !funcValid (daFunc w) || marksBad (daMarks w) [daFmtD w], 2),
    (daGrad w && !floorOk s (daFmtD w), 3),
    (x.addrBad, 0x12)]

/-- DACT (R144, R164). -/
def fxDact (x : Ctx) (s : State) : Eff :=
  match dactCheck x s with
  | some f => .fault f
  | none => startElem x (x.ea (daG x.w)) (x.ea (daS x.w)) (x.ea (daD x.w)) (daCount x.w) s

/-- AMAX; its result is no tile (R132, R145). -/
def fxAmax (x : Ctx) (s : State) : Eff :=
  match firstFault [(amCount x.w == 0 || !fmtValid (amFmt x.w), 2), (x.addrBad, 0x12)] with
  | some f => .fault f
  | none => startElem x (x.ea (amSrc x.w)) 0 (x.ea (amDst x.w)) 0 s

def execAct (c : Nat) (n : Needle) (w : W128) (s : State) : Host.Outcome State Fault Refusal :=
  issueE 0x18 c n w (fxConvert false) s
def execDact (c : Nat) (n : Needle) (w : W128) (s : State) : Host.Outcome State Fault Refusal :=
  issueE 0x19 c n w fxDact s
def execCvt (c : Nat) (n : Needle) (w : W128) (s : State) : Host.Outcome State Fault Refusal :=
  issueE 0x30 c n w (fxConvert true) s
def execAmax (c : Nat) (n : Needle) (w : W128) (s : State) : Host.Outcome State Fault Refusal :=
  issueE 0x31 c n w fxAmax s

end Sys2Proof.Machine
end

