-- ==== Sys2Proof/Machine/Stash.lean ====
section
/-!
DEFINITION. The Stash (R154 to R163): SPUSH and SPOP of an Eland core, and the controller with its cache, its spill
region and the messages of the cores.
-/
namespace Sys2Proof.Machine

/-! ### The controller -/

def getLane (s : State) (strand p : Nat) : List Entry := SMap.get [] s.lanes (strand * 64 + p)
def setLane (s : State) (strand p : Nat) (l : List Entry) : State :=
  { s with lanes := SMap.set [] s.lanes (strand * 64 + p) l }

/-- Empty every lane of a strand (R156). -/
def emptyStrand (s : State) (strand : Nat) : State :=
  { s with lanes := s.lanes.filter fun x => x.1 / 64 ≠ strand, depth := s.depth.filter fun x => x.1 / 64 ≠ strand }

/-- The header line of an entry (R157). -/
def stashHeader (strand p : Nat) (e : Entry) : Nat :=
  e.tag + strand * 2 ^ 16 + e.fmt * 2 ^ 21 + p * 2 ^ 26 + e.lines * 2 ^ 32 + e.index * 2 ^ 64 + e.step * 2 ^ 96

/-- Lines of the top-of-stash cache (R162). -/
def cacheLines : Nat := 48 * 2 ^ 20 / 64

/-- Lines an entry takes in the cache, header included. -/
def entryLines (e : Entry) : Nat := e.lines + 1

/-- Lines of the cache in use. -/
def cacheUsed (s : State) : Nat := sumNat (s.lanes.map fun x => sumNat ((x.2.filter (·.cached)).map entryLines))

/-- The cached entry pushed first, by lane and place in it. -/
def oldestCached (s : State) : Option (Nat × Entry) :=
  minBy (fun a b => decide (a.2.ord < b.2.ord)) (s.lanes.flatMap fun x => (x.2.filter (·.cached)).map fun e => (x.1, e))

/-- The virtual address of an entry (R158). -/
def entryVa (s : State) (lane : Nat) (e : Entry) : Nat :=
  getP s (pk 0x0850 (lane / 64 + 1)) + lane % 64 * (getP s (pk 0x0851 (lane / 64 + 1)) / 64) + e.off

/-- The domain that owns a strand (R154). -/
def strandDom (s : State) (strand : Nat) : Nat := getP s (pk 0x0853 (strand + 1))

/-- Fault 12h of a spill or refill (R163). -/
def stashFault (s : State) (d va : Nat) : State :=
  raise s { mkRaised s 0x12 d 0x90 with detail0 := va, detail1 := 0xFFFFFFFF }

/-- Replace an entry of a lane. -/
def putEntry (s : State) (lane : Nat) (e e' : Entry) : State :=
  { s with lanes := SMap.set [] s.lanes lane ((SMap.get [] s.lanes lane).map fun x => if x.ord == e.ord then e' else x) }

/-- Spill one entry to its place: header and image, in the owning domain's address space (R162, R163). -/
def spill (s : State) (lane : Nat) (e : Entry) : State :=
  let d := strandDom s (lane / 64)
  let va := entryVa s lane e
  let (img, s) := readBuffer s 0x90 (2 ^ 16 * e.ord) 0x88 d e.img
  let bs := (leBytes 64 (stashHeader (lane / 64) (lane % 64) e)).map (fun b => (b, false)) ++ img.flatMap plineBytes
  match vwrite s d va s.ctc bs (vfuel bs.length) with
  | (.ok, s) => putEntry s lane e { e with cached := false, img := [] }
  | (.bad a, s) => stashFault (putEntry s lane e { e with cached := false, img := [] }) d a
  | (.absent a, s) => stashFault (putEntry s lane e { e with cached := false, img := [] }) d a

/-- Spill cached entries, oldest push first, until `n` lines are free (R162). -/
def makeRoom (n : Nat) : Nat → State → State
  | 0, s => s
  | k + 1, s =>
    if cacheUsed s + n ≤ cacheLines then s
    else match oldestCached s with
      | none => s
      | some (lane, e) => makeRoom n k (spill s lane e)

/-- The image of an entry: cached, or read from its place in HBM (R162). -/
def entryImg (s : State) (lane : Nat) (e : Entry) : List PLine × State :=
  if e.cached then readBuffer s 0x90 (2 ^ 16 * e.ord) 0x88 (strandDom s (lane / 64)) e.img
  else
    let d := strandDom s (lane / 64)
    let va := entryVa s lane e + 64
    match vread s d va s.ctc (64 * e.lines) (vfuel (64 * e.lines)) with
    | (.ok, bs, s) => ((List.range e.lines).map fun i => plineOf ((bs.drop (64 * i)).take 64), s)
    | (.bad a, _, s) => (List.replicate e.lines (0, 0), stashFault s d a)
    | (.absent a, _, s) => (List.replicate e.lines (0, 0), stashFault s d a)

/-- Read the highest spilled entry of a lane back into the cache when it fits (R162). -/
def refillLane (s : State) (lane : Nat) : State :=
  match ((SMap.get [] s.lanes lane).filter fun e => !e.cached).getLast? with
  | none => s
  | some e =>
    if cacheLines < cacheUsed s + entryLines e then s
    else
      let (img, s) := entryImg s lane e
      putEntry s lane e { e with cached := true, img := img.map oneMark }

/-- Push an entry onto its lane (R157, R162). -/
def pushEntry (s : State) (m : StashMsg) : State :=
  let p := posOf m.unit
  let s := makeRoom (m.img.length + 1) (s.stashOrd + 1) s
  let l := getLane s m.strand p
  let off := match l.getLast? with
    | some e => e.off + 64 * (e.lines + 1)
    | none => 0
  let e : Entry := ⟨m.tag, m.fmt, m.img.length, m.step, l.length, off, m.img.map oneMark, true, s.stashOrd⟩
  let s := setLane { s with stashOrd := s.stashOrd + 1 } m.strand p (l ++ [e])
  { s with xfers := s.xfers.map fun x => if x.unit == m.unit && x.tag == m.tagNo then { x with done := x.done + 1 } else x }

/-- The entries of a pop, top first, or the header bits of the first that does not match (R148, R161, R228). -/
def popCheck (strand p tag fmt : Nat) : Nat → List Entry → Option Nat
  | 0, _ => none
  | _ + 1, [] => some (2 ^ 64 - 1)
  | n + 1, e :: r => if e.tag == tag && e.fmt == fmt then popCheck strand p tag fmt n r
    else some (stashHeader strand p e % 2 ^ 64)

/-- Deliver popped entries, top first, each to its tile position, with a refill after each (R148, R161, R162). -/
def popEntries (m : StashMsg) : Nat → State → State
  | 0, s => s
  | n + 1, s =>
    let p := posOf m.unit
    let lane := m.strand * 64 + p
    match (getLane s m.strand p).getLast? with
    | none => s
    | some e =>
      let (img, s) := entryImg s lane e
      let s := setLane s m.strand p (getLane s m.strand p).dropLast
      let base := m.line + n * imageLines m.fmt
      let as : List Arrival := (List.range img.length).map fun i =>
        ⟨m.unit, .op m.unit m.tagNo, base + i, img.getD i (0, 0)⟩
      let s := refillLane { s with arrivals := s.arrivals ++ as } lane
      popEntries m n s

/-- A Stash message is the next of its lane to be applied (R155): it is complete, and its core has sent none for the strand
before it. -/
def stashNext (q : List StashMsg) (m : StashMsg) : Bool :=
  m.ready && (q.find? fun y => y.unit == m.unit && y.strand == m.strand) == some m

/-- MESH_STASH: the oldest Stash message of the core at a position that is next on its lane reaches its end: a pushed entry takes
its place on the lane, or a pop is checked and its tiles are sent (R155, R159, R161). -/
def execMeshStash (p : Nat) (s : State) : Host.Outcome State Fault Refusal :=
  match unitAt p with
  | none => .fault .noSuchUnit
  | some u =>
    match takeFirst (fun m : StashMsg => m.unit == u && stashNext s.stashQ m) s.stashQ with
    | none => .refused (.notEnabled "no Stash message of the core is complete")
    | some (m, rest) =>
      let s := { s with stashQ := rest }
      if strandDom s m.strand ≠ m.dom then
        .next s
      else if !m.isPop then .next (pushEntry s m)
      else match popCheck m.strand p m.tag m.fmt m.count (getLane s m.strand p).reverse with
        | some found =>
          .next (raise s { mkRaised s 4 m.dom m.unit with
            needle := m.needle, offset := m.offset, detail0 := m.tag + m.fmt * 2 ^ 16, detail1 := found })
        | none => .next (popEntries m m.count s)

/-- STASH_PUSH_COMPLETE: the last entry of a push has reached the controller; its push slot and tag are free (R160). -/
def execStashPushComplete (u tag : Nat) (s : State) : Host.Outcome State Fault Refusal :=
  if !isCoreUnit u then .fault .noSuchUnit
  else match takeFirst (fun x : Xfer => x.unit == u && x.tag == tag && (x.kind == .spush || x.kind == .accPush)) s.xfers with
    | none => .refused (.notEnabled "no push holds the tag")
    | some (x, rest) =>
      if x.done ≠ x.total then .refused (.notEnabled "an entry of the push is on its way")
      else
        let s := { s with xfers := rest }
        .next (match x.tok with
          | some (p, t) => sendIncr s (posOf u) x.dom p t 1
          | none => s)

/-! ### SPUSH and SPOP -/

/-- Checks 2 to 5 of SPUSH and SPOP, with the strand check of R154. -/
def spCheck (x : Ctx) (s : State) : Option Nat :=
  firstFault [
    (spCount x.w == 0 || !fmtValid (spFmt x.w), 2),
    (x.addrBad || !ownsStrand s x.d (spStrand x.w), 0x12)]

/-- Push tiles of core memory onto a lane: the poison check of the boundary, then the entries, whose images are read now (R141,
R148, R158, R159, R301). -/
def pushTiles (s : State) (u needle d tag strand etag fmt count line w off : Nat) : State :=
  let n := imageLines fmt
  let s := checkLines s u line (n * count) d
  match firstPoison s u line (n * count) with
  | some pa => raise s { mkRaised s 0x0B d u with needle := needle, offset := off, detail0 := pa, detail1 := 1 }
  | none =>
    (List.range count).foldl (fun s i => pushImage s u tag (linesE s u (line + i * n) n))
      (beginPush (notePush s u strand n count) u needle d tag strand etag fmt (dataStep s strand) w off count .spush)

/-- SPUSH (R147, R148, R158). -/
def fxSpush (x : Ctx) (s : State) : Eff :=
  let w := x.w
  match spCheck x s with
  | some f => .fault f
  | none =>
    match stashFull s x.c (spStrand w) (imageLines (spFmt w)) (spCount w) with
    | some (a, b) => .faultD 5 a b
    | none => .ok (pushTiles s x.c x.n.code x.d x.tag (spStrand w) (spTag w) (spFmt w) (spCount w) (x.ea (spLine w)) w x.off)

/-- Ask the controller for a pop; the operation holds its tag (R148, R161). -/
def popTiles (s : State) (u needle d tag strand etag fmt count line w off : Nat) (tok : Option (Nat × Nat)) : State :=
  let n := count * imageLines fmt
  let x : Xfer := ⟨u, needle, tag, d, .spop, n, n, 0, 0, line, strand, 0, tok, [], [], none, w, off, s.ctc⟩
  let m : StashMsg := ⟨u, needle, tag, d, strand, true, etag, fmt, 0, count, line, [], off, true, 0⟩
  let s := setDepth s strand (posOf u) ((getDepth s strand (posOf u)).drop count)
  { s with xfers := s.xfers ++ [x], stashQ := s.stashQ ++ [m] }

/-- SPOP (R147, R148, R161). -/
def fxSpop (x : Ctx) (s : State) : Eff :=
  let w := x.w
  match spCheck x s with
  | some f => .fault f
  | none => .ok (popTiles s x.c x.n.code x.d x.tag (spStrand w) (spTag w) (spFmt w) (spCount w) (x.ea (spLine w)) w x.off none)

def execSpush (c : Nat) (n : Needle) (w : W128) (s : State) : Host.Outcome State Fault Refusal :=
  issueE 0x1C c n w fxSpush s
def execSpop (c : Nat) (n : Needle) (w : W128) (s : State) : Host.Outcome State Fault Refusal :=
  issueE 0x1D c n w fxSpop s

end Sys2Proof.Machine
end

