-- ==== Sys2Proof/Machine/Round.lean ====
section
/-!
DEFINITION. The Round (R98 to R108): INJ and TAKE (R149, R150), beats with their metadata, their way past engines and
stops, and the queues of injection and take units.
-/
namespace Sys2Proof.Machine

/-! ### Links and phases (R107) -/

/-- The link phase table leaving a stop in a direction. -/
def phaseTable (s : State) (stop : Nat) (d : Dir) : Nat := SMap.get 0 s.phases (2 * stop + Dir.bit d)

/-- The domain may enter a link at a CTC (R107). -/
def phaseOk (table dom ctc : Nat) : Bool :=
  let p := ctc % 8
  bit table (4 * p + 3) && bits table (4 * p + 2) (4 * p) == dom

/-- Cycles that a beat waits at a DCC until it may enter a link in every table named (R107). -/
def phaseWait (s : State) (tables : List Nat) (dom at_ : Nat) : Option Nat :=
  let ctc := s.ctc + at_ - (getD s dom).dcc
  (List.range 8).find? fun k => tables.all fun t => phaseOk t dom (ctc + k)

/-! ### INJ -/

/-- Checks 2 to 5 of INJ (R128, R149, R150): FP32 has no lane layout. -/
def injCheck (x : Ctx) (s : State) : Option Nat :=
  let w := x.w
  let _ := s
  firstFault [
    (!fmtValid (injFmt w) || injCount w == 0 || injHops w == 0 || decide (36 < injHops w) || (!injCw w && !injCcw w), 2),
    (injFmt w == 0 || decide (maxDepthLog (injFmt w) < injDepth w), 3),
    (x.addrBad, 0x12)]

/-- Latency from issue to the first beat of a run (R103, R109). -/
def injLatency (s : State) (d : Nat) (trans : Bool) : Nat :=
  if trans then (if oldLatency s d then 8 else 6) else if oldLatency s d then 5 else 4

/-- Entries of a unit queue for a domain: half of them on a shared core (R204). -/
def unitQueue (s : State) (c n : Nat) : Nat := if (getE s c).shared then n / 2 else n

/-- INJ joins its stop's queue (R110, R149). -/
def fxInj (x : Ctx) (s : State) : Eff :=
  let w := x.w
  match injCheck x s with
  | some f => .fault f
  | none =>
    let q := getInj s x.c
    if unitQueue s x.c 4 ≤ (q.filter fun r => r.dom == x.d && r.filled == 0).length then .full
    else
      let r : InjRun :=
        { dom := x.d, needle := x.n.code, offset := x.off, cw := injCw w, ccw := injCcw w, trans := injTrans w,
          fmt := injFmt w, depth := injDepth w, hops := injHops w, src := x.ea (injSrc w), stride := injStride w,
          count := injCount w, filled := 0, lines := [], tile := 0, sent := 0, lead := metaLead (injFmt w),
          readyAt := (getD s x.d).dcc + injLatency s x.d (injTrans w) }
      .ok (setInj s x.c (q ++ [r]))

def execInj (c : Nat) (n : Needle) (w : W128) (s : State) : Host.Outcome State Fault Refusal :=
  issueE 0x20 c n w fxInj s

/-- Lines from one tile to the next: STRIDE, or the tile-image size when it is 0 (R149). -/
def tileStep (stride fmt : Nat) : Nat := if stride == 0 then imageLines fmt else stride

/-- Lines that an injection queue holds (R106); on a shared core each domain has half of it (R204, DEDUCED). -/
def injQueueLines : Nat := 512 * 1024 / 64

/-- The first run of a domain at a stop with lines still to read, and where it stands. -/
def nextFill (d : Nat) : List InjRun → Option (List InjRun × InjRun × List InjRun)
  | [] => none
  | r :: rest =>
    if r.dom == d && decide (r.filled < r.count * imageLines r.fmt) then some ([], r, rest)
    else match nextFill d rest with
      | some (a, x, b) => some (r :: a, x, b)
      | none => none

/-- The core-memory line that a run reads next. -/
def fillLine (r : InjRun) : Nat :=
  r.src + r.filled / imageLines r.fmt * tileStep r.stride r.fmt + r.filled % imageLines r.fmt

/-- The domains that have runs at a stop, in the order of their first. -/
def runDoms (q : List InjRun) : List Nat := (q.map (·.dom)).eraseDups

/-- A domain's runs at a stop may be read on: they have lines to read, their part of the queue has room, and the domain's
units do not stand still (R106, R210). -/
def canFill (s : State) (stop d : Nat) : Bool :=
  let q := getInj s stop
  !frozen s d && (nextFill d q).isSome &&
    decide (sumNat ((q.filter fun r => r.dom == d).map fun r => r.lines.length) < unitQueue s stop injQueueLines)

/-- Port E of the line's bank serves the domain in this tick on a shared core: the lower-numbered domain where (CTC + b) mod 4
is 1, the other where it is 3 (R204). -/
def bankTurn (s : State) (stop d : Nat) : Bool :=
  match nextFill d (getInj s stop) with
  | none => false
  | some (_, r, _) => (s.ctc + fillLine r % 32) % 4 == (if (getE s stop).domF == some d then 1 else 3)

/-- The domain whose next line an injection unit reads. -/
def fillDom (s : State) (stop : Nat) : Option Nat :=
  let l := (runDoms (getInj s stop)).filter fun d => canFill s stop d
  match l.find? fun d => bankTurn s stop d with
  | some d => some d
  | none => l.head?

/-- INJECTION_QUEUE_FILL: the injection unit reads the next line into its queue, which has room (R106). -/
def execInjectionQueueFill (stop : Nat) (s : State) : Host.Outcome State Fault Refusal :=
  if 36 ≤ stop then .fault .noSuchUnit
  else match fillDom s stop with
    | none => .refused (.notEnabled "no tile image to read, or no room")
    | some d => match nextFill d (getInj s stop) with
      | none => .refused (.notEnabled "no tile image to read")
      | some (a, r, b) =>
        let s := checkLines s stop (fillLine r) 1 d
        .next (setInj s stop (a ++ { r with filled := r.filled + 1, lines := r.lines ++ [oneMark (lineE s stop (fillLine r))] } :: b))

/-! ### Beats -/

/-- The metadata bytes of lead slot `n` of a tile: 80 bytes of its sequence (R102). -/
def metaSlot (f : Nat) (ls : List PLine) (n : Nat) : List (Byte × Bool) :=
  ((metaOffsets f).drop (80 * n)).take 80 |>.map fun o => (linesRd ls o, linesPz ls o)

/-- The lines of the run's tile that lies `k` tiles after the one being sent. -/
def runTile (r : InjRun) (k : Nat) : List PLine := (r.lines.drop (k * imageLines r.fmt)).take (imageLines r.fmt)

/-- Beats per tile: 64 / depth (R101). -/
def beatsOf (r : InjRun) : Nat := 64 / 2 ^ r.depth

/-- Lead slots of the next tile that ride on the beats of its predecessor (R102). -/
def rideSlots (r : InjRun) : Nat := min (metaLead r.fmt) (beatsOf r)

/-- The stored place of k index `k`, column field `j` (R103). -/
def storedAt (trans : Bool) (k j : Nat) : Nat × Nat := if trans then (j, k) else (k, j)

/-- The data lane of beat `b` of a tile (R101, R103). -/
def laneData (r : InjRun) (ls : List PLine) (b : Nat) : Nat :=
  let dep := 2 ^ r.depth
  let w := laneBits r.fmt
  sumNat ((List.range 64).map fun j => sumNat ((List.range dep).map fun dd =>
    let p := storedAt r.trans (b * dep + dd) j
    codeAt r.fmt (linesRd ls) p.1 p.2 * 2 ^ (32 * j + w * dd)))

/-- POISON_COL of beat `b` of a tile (R104). -/
def poisonCols (r : InjRun) (ls : List PLine) (b : Nat) : Nat :=
  let dep := 2 ^ r.depth
  sumNat ((List.range 64).map fun j =>
    if (List.range dep).any fun dd =>
      (let p := storedAt r.trans (b * dep + dd) j
       poisonAt r.fmt (linesPz ls) p.1 p.2) then 2 ^ j else 0)

/-- The next beat of a run: a metadata bubble before a tile, or data beat `sent` of it with the metadata of the next
tile riding on the last of them (R102, R103). -/
def runBeat (r : InjRun) (stop : Nat) (dir : Dir) (at_ : Nat) : Beat :=
  let base : Beat :=
    { dir := dir, stop := stop, eng := 0, dom := r.dom, fmt := r.fmt, trans := r.trans, first := false, last := false,
      metaV := true, hops := r.hops, beat := 0, depth := r.depth, pcol := 0, valid := false, data := 0, md := [],
      at_ := at_ }
  if 0 < r.lead then { base with md := metaSlot r.fmt (runTile r 0) (metaLead r.fmt - r.lead) }
  else
    let ls := runTile r 0
    let n := beatsOf r
    let rides := decide (r.tile + 1 < r.count) && decide (0 < rideSlots r) && decide (n - rideSlots r ≤ r.sent)
    { base with
      valid := true, first := r.sent == 0, last := r.sent + 1 == n, beat := r.sent, metaV := rides
      pcol := poisonCols r ls r.sent, data := laneData r ls r.sent
      md := if rides then metaSlot r.fmt (runTile r 1) (r.sent - (n - rideSlots r)) else [] }

/-- The run after its next beat; none when that was its last. -/
def runStep (r : InjRun) : Option InjRun :=
  if 0 < r.lead then some { r with lead := r.lead - 1 }
  else if r.sent + 1 < beatsOf r then some { r with sent := r.sent + 1 }
  else if r.tile + 1 < r.count then
    some { r with sent := 0, tile := r.tile + 1, lead := metaLead r.fmt - rideSlots r, lines := r.lines.drop (imageLines r.fmt) }
  else none

/-- Tiles of the run whose lines its next beat needs. -/
def tilesNeeded (r : InjRun) : Nat :=
  if r.lead == 0 && decide (r.tile + 1 < r.count) && decide (0 < rideSlots r) && decide (beatsOf r - rideSlots r ≤ r.sent)
  then 2 else 1

/-- Cycles from a DCC until a beat of the domain may be sent from a stop: the links it is sent to are in a phase of the
domain when it would enter them, after crossing the stop, and no beat of the domain passes the stop then (R104, R107,
DEDUCED). -/
def sendWait (s : State) (stop dom at_ : Nat) (dirs : List Dir) : Option Nat :=
  let passing := (s.beats.filter fun y => y.dom == dom && dirs.contains y.dir).filterMap fun y => beatEnters s y stop
  (List.range (8 * (2 * s.beats.length + 1))).find? fun k =>
    !passing.contains (at_ + k) &&
      dirs.all fun dir => phaseOk (phaseTable s stop dir) dom (s.ctc + at_ - (getD s dom).dcc + k + crossing s stop)

/-- The directions of a run (R103). -/
def runDirs (r : InjRun) : List Dir := (if r.cw then [.cw] else []) ++ (if r.ccw then [.ccw] else [])

/-- The first run of a domain at a stop, and what stands before and behind it. -/
def firstRun (d : Nat) : List InjRun → Option (List InjRun × InjRun × List InjRun)
  | [] => none
  | r :: rest =>
    if r.dom == d then some ([], r, rest)
    else match firstRun d rest with
      | some (a, x, b) => some (r :: a, x, b)
      | none => none

/-- The next run of the domain starts no sooner than a DCC (R103). -/
def startNext (d next : Nat) : List InjRun → List InjRun
  | [] => []
  | r :: rest => if r.dom == d then { r with readyAt := max r.readyAt next } :: rest else r :: startNext d next rest

/-- What is left of a run and the runs behind it after a beat of it was sent in the cycle before a DCC. -/
def afterSend (r : InjRun) (rest : List InjRun) (next : Nat) : List InjRun :=
  match runStep r with
  | some r => { r with readyAt := next } :: rest
  | none => startNext r.dom next rest

/-- When a domain's first run at a stop can send its next beat: cycles from its DCC on, if its lines are read and the domain
owns a phase (R104). -/
def sendAt (s : State) (stop d : Nat) : Option Nat :=
  match firstRun d (getInj s stop) with
  | none => none
  | some (_, r, _) =>
    if frozen s d || decide (r.lines.length < tilesNeeded r * imageLines r.fmt) then none
    else
      let soonest := max r.readyAt (getD s d).dcc
      (sendWait s stop d soonest (runDirs r)).map fun k => soonest + k - (getD s d).dcc

/-- The domain whose beat an injection unit sends next: the one that can send first, each domain of a shared core from its own
half of the queue (R104, R204). -/
def sendDom (s : State) (stop : Nat) : Option (Nat × Nat) :=
  ((runDoms (getInj s stop)).filterMap fun d => (sendAt s stop d).map fun k => (d, k)).foldl
    (fun a x => match a with
      | some y => if x.2 < y.2 then some x else a
      | none => some x) none

/-- ROUND_BEAT_SEND: the injection unit sends the next beat of the oldest run of a domain, in the first cycle that R104
allows (R103, R104). -/
def execRoundBeatSend (stop : Nat) (s : State) : Host.Outcome State Fault Refusal :=
  if 36 ≤ stop then .fault .noSuchUnit
  else match sendDom s stop with
    | none => .refused (.notEnabled "no injection run can send a beat")
    | some (d, k) => match firstRun d (getInj s stop) with
      | none => .refused (.notEnabled "no injection runs")
      | some (a, r, rest) =>
        let at_ := (getD s d).dcc + k
        match toDcc d at_ s with
        | none => .refused (.notEnabled "the domain is stalled")
        | some s =>
          let (ls, s) := readBuffer s stop 0 0x89 d r.lines
          let r := { r with lines := ls }
          let s := if r.lead == 0 && r.sent == 0 then
              incP s (pk 0x0D40 1) (sumNat ((List.range 64).map fun i => ternInvalidRow r.fmt (linesRd (runTile r 0)) i))
            else s
          .next (setInj { s with beats := s.beats ++ (runDirs r).map fun dir => runBeat r stop dir at_ } stop
            (a ++ afterSend r rest (at_ + 1)))

/-! ### TAKE -/

/-- Checks of TAKE (R128, R149). -/
def takeCheck (x : Ctx) : Option Nat := firstFault [(takeCount x.w == 0, 2), (x.addrBad, 0x12)]

/-- TAKE joins its direction's queue (R110, R149). -/
def fxTake (x : Ctx) (s : State) : Eff :=
  let w := x.w
  match takeCheck x with
  | some f => .fault f
  | none =>
    let t := getTake s (takeDir w) x.c
    if unitQueue s x.c 4 ≤ (t.ops.filter fun o => o.dom == x.d && o.tile == 0 && !o.inTile).length then .full
    else
      .ok (setTake s (takeDir w) x.c { t with ops := t.ops ++
        [⟨x.d, x.n.code, x.off, x.ea (takeDst w), takeStride w, takeCount w, 0, false⟩] })

def execTake (c : Nat) (n : Needle) (w : W128) (s : State) : Host.Outcome State Fault Refusal :=
  issueE 0x21 c n w fxTake s

/-- Bytes that a beat takes in a take queue: its data lane. -/
def takenBytes : Nat := 256
/-- Beats in the take queue of a stop, which both directions share (R106). -/
def takenBeats (s : State) (stop : Nat) : Nat := (getTake s .cw stop).queue.length + (getTake s .ccw stop).queue.length
/-- Bytes of a take queue (R106). -/
def takeQueueBytes : Nat := 256 * 1024

/-- The TAKE that a leaving beat belongs to, with the others (R150). -/
def takeFor (t : TakeUnit) (b : Beat) : Option (TakeOp × List TakeOp × List TakeOp) :=
  let before := t.ops.takeWhile fun o => o.dom ≠ b.dom
  match t.ops.drop before.length with
  | o :: rest => if b.valid && (o.inTile || b.first) then some (o, before, rest) else none
  | [] => none

/-- A fault of a take unit (R150, R228). -/
def takeFault (s : State) (stop : Nat) (o : TakeOp) (code d0 d1 : Nat) : State :=
  raise s { mkRaised s code o.dom stop with needle := o.needle, offset := o.offset, detail0 := d0, detail1 := d1 }

/-- A beat leaves a stop past its take unit: metadata banks follow it, and a TAKE in progress copies it (R105, R150). -/
def takeBeat (s : State) (stop : Nat) (b : Beat) : State :=
  let t := getTake s b.dir stop
  let banks := SMap.set {} t.banks b.dom (stepBanks (SMap.get {} t.banks b.dom) b)
  let t := { t with banks := banks }
  match takeFor t b with
  | none => setTake s b.dir stop t
  | some (o, before, rest) =>
    if b.first && b.trans && 0x0E ≤ b.fmt then
      takeFault (setTake s b.dir stop { t with ops := before ++ rest }) stop o 3 (beatCtrl b) 0
    else if takeQueueBytes < (t.queue.length + 1) * takenBytes then
      takeFault (setTake s b.dir stop t) stop o 0x17 (beatCtrl b) (t.queue.length * takenBytes)
    else
      let dst := o.dst + o.tile * tileStep o.stride b.fmt
      let x : TakenBeat := ⟨b, dst, if b.first then (SMap.get {} banks b.dom).cur else [], o.needle, o.offset⟩
      let o := { o with inTile := !b.last, tile := if b.last then o.tile + 1 else o.tile }
      let mid := if o.tile == o.count then [] else [o]
      setTake s b.dir stop { t with ops := before ++ mid ++ rest, queue := t.queue ++ [x] }

/-- A beat in its next place after leaving a stop: HOPS counts down, and it is removed at 0 or at the end of its
domain's arc (R100, R107). A bypassed stop has no engines (R98, R99). -/
def moveOn (s : State) (b : Beat) : Option Beat :=
  let n := nextStop b.stop b.dir
  if b.hops ≤ 1 || !bit (getD s b.dom).arc n then none
  else some { b with hops := b.hops - 1, stop := n, starts := []
                     eng := if fenced s n then 4 else 0, at_ := if fenced s n then b.at_ + 5 else b.at_ }

/-- A beat leaves its stop, in a phase of its domain (R105, R107). -/
def leaveBeat (s : State) (b : Beat) (others : List Beat) : Option State :=
  let s := { s with beats := others }
  match moveOn s b with
  | none => some (if fenced s b.stop then s else takeBeat s b.stop b)
  | some b' =>
    match phaseWait s [phaseTable s b.stop b.dir] b.dom b.at_ with
    | none => none
    | some k =>
      let s := if fenced s b.stop then s else takeBeat s b.stop b
      some { s with beats := s.beats ++ [{ b' with at_ := b'.at_ + k }] }

/-- The oldest beat at a place, when its domain is not stalled (R108). -/
def beatAt (s : State) (d : Dir) (stop e : Nat) : Option (Beat × List Beat) :=
  takeFirst (fun b : Beat => b.dir == d && b.stop == stop && b.eng == e && !(getD s b.dom).stalled) s.beats

/-- A beat leaves its stop at its cycle; one of a domain with a fault is removed (R105, R107, R108). -/
def leaveAt (b : Beat) (others : List Beat) (s : State) : Host.Outcome State Fault Refusal :=
  match toDcc b.dom b.at_ s with
  | none => .refused (.notEnabled "the domain is stalled")
  | some s =>
    if failing s b.dom then .next { s with beats := others }
    else match leaveBeat s b others with
      | some s => .next s
      | none => .refused (.notEnabled "the domain owns no phase of the link")

/-- A beat reaches the next engine of its stop at its cycle and feeds it; one of a domain with a fault is removed (R99, R108,
R137). -/
def passEngine (m stop : Nat) (b : Beat) (others : List Beat) (s : State) : Host.Outcome State Fault Refusal :=
  match toDcc b.dom b.at_ s with
  | none => .refused (.notEnabled "the domain is stalled")
  | some s =>
    if failing s b.dom then .next { s with beats := others }
    else
      .next (engineBeat { s with beats := others ++
        [{ b with eng := b.eng + 1, at_ := b.at_ + 1, starts := b.starts ++ engineStarts s stop m b }] } stop m b)

/-- ROUND_BEAT_ARRIVE: a beat that has passed `e` engines of the stop reaches the next one and feeds it, or leaves the
stop, at its cycle (R99, R100, R137). A beat of a domain with a fault is removed, and nothing is delivered from it (R108). -/
def execRoundBeatArrive (d : Dir) (stop e : Nat) (s : State) : Host.Outcome State Fault Refusal :=
  if 36 ≤ stop || 5 ≤ e then .fault .noSuchUnit
  else match beatAt s d stop e with
    | none => .refused (.notEnabled "no beat is there")
    | some (b, others) => if e < 4 then passEngine (engineAt e d) stop b others s else leaveAt b others s

/-- ROUND_BEAT_TAKE: the take unit copies a beat that leaves the stop (R105, R150). -/
def execRoundBeatTake (d : Dir) (stop : Nat) (s : State) : Host.Outcome State Fault Refusal :=
  if 36 ≤ stop then .fault .noSuchUnit
  else match beatAt s d stop 4 with
    | none => .refused (.notEnabled "no beat leaves the stop")
    | some (b, others) =>
      if (takeFor (getTake s d stop) b).isNone then .refused (.notEnabled "no TAKE wants the beat") else leaveAt b others s

/-- The digits now in a ZMT block of an image. -/
def oldZmt (rd : Nat → Byte) (b : Nat) : List (Nat × Bool) :=
  (List.range 128).map fun x => ((tritOf (rd (36 * b + x / 5)).toNat (x % 5) + 1).toNat, false)

/-- The runs of bytes that row k of a taken tile makes of its image (R47, R150). -/
def takenRow (f : Nat) (rd : Nat → Byte) (k : Nat) (es : List (Nat × Bool)) : List (Nat × List PByte) :=
  if f == 0x14 then [(40 * k, packElems 4 es)]
  else if f == 0x0C then [(13 * k, packTrits es)]
  else if f == 0x15 then
    let old := oldZmt rd (k / 2)
    if k % 2 == 0 then [(36 * (k / 2), (packTrits (es ++ old.drop 64)).take 13)]
    else [(36 * (k / 2) + 12, (packTrits (old.take 64 ++ es)).drop 12)]
  else [(eltBits f * 8 * k, packElems (eltBits f) es)]

/-- Write bytes of a tile image from an offset of it on. The words that begin at byte `own` or later take their marks from this
write, but for those with a metadata byte in them; a tile that is clean thus clears the marks of all its words (R150, R299). -/
def writeTaken (s : State) (stop dst : Nat) (held : List Nat) (own off : Nat) (bs : List PByte) : State :=
  let first := (own + 3) / 4
  let s := ((List.range ((off + bs.length + 3) / 4 - first)).filter fun w => !held.contains (first + w)).foldl
    (fun s w => markWord s (corePa stop (64 * dst + 4 * (first + w))) false) s
  writeP s (corePa stop (64 * dst + off)) bs

/-- The rows of a taken beat: the metadata with the first, then row by row (R105, R150). -/
def drainBeat (s : State) (stop : Nat) (x : TakenBeat) : State :=
  let b := x.beat
  let dep := 2 ^ b.depth
  let offs := metaOffsets b.fmt
  let held := (offs.map (· / 4)).eraseDups
  let s := if x.bank.isEmpty then s else held.foldl (fun s w => markWord s (corePa stop (64 * x.dst + 4 * w)) false) s
  let s := (List.range (min offs.length x.bank.length)).foldl (fun s i =>
    writeP s (corePa stop (64 * x.dst + offs.getD i 0)) [x.bank.getD i (0, false)]) s
  (List.range dep).foldl (fun s dd =>
    let k := b.beat * dep + dd
    let es := (List.range 64).map fun j => (laneCode b dd j, bit b.pcol j)
    (takenRow b.fmt (coreRd s stop x.dst) k es).foldl (fun s r =>
      writeTaken s stop x.dst held (r.1 + (if b.fmt == 0x15 then k % 2 else 0)) r.1 r.2) s) s

/-- The oldest taken beat whose domain's units do not stand still (R210). -/
def nextTaken (s : State) (q : List TakenBeat) : Option (TakenBeat × List TakenBeat) :=
  takeFirst (fun x : TakenBeat => !frozen s x.beat.dom) q

/-- A write through port E leaves alone the lines that port F has written in this tick (R113). -/
def underF (s : State) (u : Nat) (f : State → State) : State :=
  let kept := (s.fLines.filter fun x => x.1 == u).map fun x => (x.2.1, coreLine s u x.2.1)
  kept.foldl (fun t x => setCoreLine t u x.1 x.2) (f s)

/-- TAKE_QUEUE_DRAIN: the oldest taken beat is written into core memory through port E (R105, R106). A tile image that runs
past line 2_FFFFh faults here, where its format is known (R112, DEDUCED). -/
def execTakeQueueDrain (d : Dir) (stop : Nat) (s : State) : Host.Outcome State Fault Refusal :=
  if 36 ≤ stop then .fault .noSuchUnit
  else
    let t := getTake s d stop
    match nextTaken s t.queue with
    | none => .refused (.notEnabled "the take queue is empty")
    | some (x, rest) =>
      let s := setTake s d stop { t with queue := rest }
      if 0x30000 < x.dst + imageLines x.beat.fmt then
        .next (raise s { mkRaised s 0x12 x.beat.dom stop with
          needle := x.needle, offset := x.offset, detail0 := beatCtrl x.beat })
      else .next (underF s stop fun s => drainBeat s stop x)

end Sys2Proof.Machine
end

