-- ==== Sys2Proof/Machine/Mesh.lean ====
section
/-!
DEFINITION. The mesh (R233 to R254): flits, the transfers of Eland mesh units (R151, R152), packets at their destinations,
reduction trees, multicast, port F and the completion of transfers.
-/
namespace Sys2Proof.Machine

/-! ### Flits (R234, R235) -/

/-- A flit: a data lane of two 64-byte lines, a control lane of 128 bits and the CRC over both (R234). -/
structure Flit where
  data : BitVec 1024
  ctrl : BitVec 128
  crc  : BitVec 16
  deriving DecidableEq, Repr

/-- The fields of a head flit's control lane beside POISON (R235). -/
structure FlitHead where
  tag   : Nat
  line  : Nat
  token : Option Nat
  group : Nat
  leg   : Bool
  src   : Nat
  dst   : Nat
  type  : Nat
  dom   : Nat
  deriving DecidableEq, Repr

/-- A flit of a packet of `len` flits: `n` is its number, its lines are `lo` and perhaps `up`; in a body flit the fields of the
head are reserved (R235). -/
def flitOf (h : FlitHead) (vc n len : Nat) (lo : PLine) (up : Option PLine) : Flit :=
  let u := up.getD (0, 0)
  let data := lo.1.toNat + 2 ^ 512 * u.1.toNat
  let head :=
    if n ≠ 0 then 0
    else h.tag % 2 ^ 12 * 2 ^ 60 + h.line % 2 ^ 18 * 2 ^ 42 + h.token.getD 0 % 64 * 2 ^ 36 +
      (if h.token.isSome then 2 ^ 35 else 0) + h.group % 32 * 2 ^ 30 + (len - 1) % 16 * 2 ^ 26 + (if h.leg then 2 ^ 25 else 0) +
      h.src % 64 * 2 ^ 19 + h.dst % 64 * 2 ^ 13 + h.type % 8 * 2 ^ 10 + h.dom % 8 * 2 ^ 7
  let ctrl := (lo.2 % 2 ^ 16 + 2 ^ 16 * (u.2 % 2 ^ 16)) * 2 ^ 96 + head + (if up.isSome then 2 ^ 6 else 0) + vc % 8 * 2 ^ 3 +
    (if n + 1 == len then 2 ^ 2 else 0) + (if n == 0 then 2 else 0) + 1
  ⟨BitVec.ofNat 1024 data, BitVec.ofNat 128 ctrl, Config.flitCrc data ctrl⟩

/-- A flit passes the check of a receiving router (R241). -/
def Flit.passes (f : Flit) : Bool := f.crc == Config.flitCrc f.data.toNat f.ctrl.toNat

/-- The flits of up to 32 lines, two lines each (R234, R235). -/
def flitsOf (h : FlitHead) (vc : Nat) (ls : List PLine) : List Flit :=
  let len := max 1 (ceilDiv ls.length 2)
  (List.range len).map fun n => flitOf h vc n len (ls.getD (2 * n) (0, 0)) ls[2 * n + 1]?

/-- The operation tag that a packet's flits carry: that of its unit's operation; the pool does not number its tags in the model. -/
def Owner.tag : Owner → Nat
  | .op _ t => t
  | _ => 0

/-- The flits of a packet: a read request carries its address, an acknowledge nothing; what a request of up to 4 KiB carries
goes as packets of at most 2 KiB, of which the last completes the transfer (R235, R253, R268). -/
def Packet.flits (p : Packet) : List Flit :=
  let h (i : Nat) (last : Bool) : FlitHead :=
    ⟨p.owner.tag, p.line + 32 * i, if last then p.tok.map (·.2) else none, p.group, p.leg, p.src, p.dst, p.ty, p.dom⟩
  if p.ty == 1 then flitsOf (h 0 true) p.vc [(BitVec.ofNat 512 (p.pa % 2 ^ 64), 0)]
  else if p.ty == 3 then flitsOf (h 0 true) p.vc []
  else
    let k := max 1 (ceilDiv p.data.length 32)
    (List.range k).flatMap fun i => flitsOf (h i (i + 1 == k)) p.vc ((p.data.drop (32 * i)).take 32)

/-- The flit of a reduction: a packet of its own, TYPE 100b (R235, R243). -/
def RedFlit.flit (f : RedFlit) (src : Nat) : Flit :=
  flitOf ⟨0, 0, none, f.tree, false, src, 0, 4, 0⟩ f.vc 0 1 (f.lower.getD (0, 0)) f.upper

/-- The flits of a Stash message, TYPE 110b: the entry that a push brings, or the request of a pop; `dst` is the controller's
position (R235, R236). -/
def StashMsg.flits (m : StashMsg) (dst : Nat) : List Flit :=
  let h : FlitHead := ⟨m.tagNo, m.line, none, 0, false, posOf m.unit, dst, 6, m.dom⟩
  (List.range (max 1 (ceilDiv m.img.length 32))).flatMap fun i => flitsOf h m.vc ((m.img.drop (32 * i)).take 32)

/-- A flit has crossed a link: the link's run of failed attempts ends (R241). -/
def crossedLink (s : State) (p q : Nat) : State := { s with linkFails := SMap.set 0 s.linkFails (4 * p + linkDir p q) 0 }

/-- A packet has crossed the links of its route (R241). -/
def crossed (s : State) (src dst : Nat) : State := (pairsOf (routeFrom s src dst)).foldl (fun s l => crossedLink s l.1 l.2) s

/-- FLIT_CRC_FAIL: a flit on the link leaving router `p` fails its check and is resent; after 1,024 failed attempts in
a row the link is marked dead (R241). -/
def execFlitCrcFail (p dir : Nat) (s : State) : Host.Outcome State Fault Refusal :=
  if 64 ≤ p || 4 ≤ dir then .fault .noSuchUnit
  else
    let q := match dir with
      | 0 => decide (8 ≤ p) | 1 => decide (p % 8 < 7) | 2 => decide (p < 56) | _ => decide (0 < p % 8)
    if !q then .fault .noSuchUnit
    else
      let k := 4 * p + dir
      let n := SMap.get 0 s.linkFails k + 1
      let s := incP { s with linkFails := SMap.set 0 s.linkFails k n } (pk 0x0902 1) 1
      .next (if 1024 ≤ n && !bit (getP s (pk 0x0902 2)) k then setP s (pk 0x0902 2) (getP s (pk 0x0902 2) + 2 ^ k) else s)

/-! ### The mesh unit of an Eland core (R151, R152) -/

/-- TLD and TST (R151, R152): a TST's lines are read at its issue. -/
def fxLong (kind : XKind) (x : Ctx) (s : State) : Eff :=
  let w := x.w
  match firstFault [(linesBad (tlLines w), 2), (x.addrBad, 0x12)] with
  | some f => .fault f
  | none =>
    let s := if kind == .tst then checkLines s x.c (x.ea (tlLocal w)) (tlLines w) x.d else s
    .ok (startXfer s (longXfer s x.c x.n.code x.tag x.d kind (64 * tlVline w) (x.ea (tlLocal w)) (tlLines w)
      ((tokOf (tlTokenEn w) (tlToken w)).map fun t => (posOf x.c, t)) w x.off)
      (if kind == .tst then linesE s x.c (x.ea (tlLocal w)) (tlLines w) else []))

/-- PUT and GET (R151, R152). -/
def fxCore (put : Bool) (x : Ctx) (s : State) : Eff :=
  let w := x.w
  match firstFault [(linesBad (puLines w), 2), (x.addrBad || targetBad (puPos w) (puRemote w) (puLines w), 0x12)] with
  | some f => .fault f
  | none =>
    let s := if put then checkLines s x.c (x.ea (puLocal w)) (puLines w) x.d else s
    .ok (startXfer s (coreXfer s x.c x.n.code x.tag x.d put (puPos w) (x.ea (puLocal w)) (puRemote w) (puLines w)
      (tokOf (puTokenEn w) (puToken w)) w x.off)
      (if put then linesE s x.c (x.ea (puLocal w)) (puLines w) else []))

/-- RSEND (R151, R152, R245). -/
def fxRsend (x : Ctx) (s : State) : Eff :=
  let w := x.w
  match firstFault [(linesBad (rsLines w), 2), (x.addrBad || !treeOk s x.c (rsTree w), 0x12)] with
  | some f => .fault f
  | none =>
    let s := checkLines s x.c (x.ea (rsSrc w)) (rsLines w) x.d
    let (y, t) := redXfer s x.c x.n.code x.tag x.d (rsTree w) (x.ea (rsSrc w)) (rsLines w) w x.off
    .ok (startXfer t y (linesE s x.c (x.ea (rsSrc w)) (rsLines w)))

def execTld (c : Nat) (n : Needle) (w : W128) (s : State) : Host.Outcome State Fault Refusal :=
  issueE 0x24 c n w (fxLong .tld) s
def execTst (c : Nat) (n : Needle) (w : W128) (s : State) : Host.Outcome State Fault Refusal :=
  issueE 0x25 c n w (fxLong .tst) s
def execPut (c : Nat) (n : Needle) (w : W128) (s : State) : Host.Outcome State Fault Refusal :=
  issueE 0x28 c n w (fxCore true) s
def execGet (c : Nat) (n : Needle) (w : W128) (s : State) : Host.Outcome State Fault Refusal :=
  issueE 0x29 c n w (fxCore false) s
def execRsend (c : Nat) (n : Needle) (w : W128) (s : State) : Host.Outcome State Fault Refusal :=
  issueE 0x2C c n w fxRsend s

/-! ### Packets at their destinations -/

/-- A stack takes a packet into its queue, for the domain's partition (R269, R292, R304). -/
def enqueueReq (s : State) (p : Packet) : State :=
  let st := stackAt p.pa
  let ctx := match p.owner with | .stream x _ => x | _ => 32768
  let r : HbmReq := ⟨p.dom, p.dead, ctx, narrowPkt s p, false, p⟩
  { s with hbmq := SMap.set [] s.hbmq st (queueAt s st ++ [r]) }

/-- The core of a position is fenced (R255). -/
def posFenced (s : State) (p : Nat) : Bool :=
  match unitAt p with
  | some u => fenced s u
  | none => false

/-- The first packet of a list that meets a test and before which no other goes from its source to its destination on its
virtual channel, and the rest (R254). -/
def firstInOrder (ok : Packet → Bool) : List Packet → List Packet → Option (Packet × List Packet)
  | _, [] => none
  | seen, k :: r =>
    if ok k && !(seen.any fun j => j.src == k.src && j.dst == k.dst && j.vc == k.vc) then some (k, seen.reverse ++ r)
    else firstInOrder ok (k :: seen) r

/-- The packet of a type that is next to arrive at a position, having passed its VIA (R239, R254), and the others. -/
def packetAt (s : State) (ty p : Nat) : Option (Packet × List Packet) :=
  (firstInOrder (fun k => k.ty == ty && k.dst == p) [] s.packets).map fun x =>
    ({ x.1 with leg := x.1.leg || x.1.via.isSome && ty ≠ 5 }, x.2)

/-- The answer of a packet: response or acknowledge (R236). -/
def answer (p : Packet) (ty vc : Nat) (data : List PLine) : Packet :=
  { p with ty := ty, src := p.dst, dst := p.src, vc := vc, data := data, tok := none }

/-- Write lines through port F of a core, one after another (R113). -/
def portFLines (s : State) (u line : Nat) (ls : List PLine) : State :=
  ((List.range ls.length).zip ls).foldl (fun s x => portF s u (line + x.1) x.2) s

/-- Write bytes through port F of a core: the lines they lie in keep their other bytes (R113, R197). -/
def portFBytes (s : State) (u byte : Nat) (bs : List (Byte × Bool)) : State :=
  if bs.isEmpty then s else
  let l0 := byte / 64
  let n := (byte + bs.length - 1) / 64 + 1 - l0
  let pre := readP s (corePa u (64 * l0)) (byte % 64)
  let post := readP s (corePa u (byte + bs.length)) (64 * n - byte % 64 - bs.length)
  let all := pre ++ bs ++ post
  portFLines s u l0 ((List.range n).map fun i => plineOf ((all.drop (64 * i)).take 64))

/-- Store a write that has reached the memory of a tile: in core memory through port F, in an accumulator window or staging SRAM
as a window write (R253, R290). -/
def storeAt (s : State) (pa : Nat) (ls : List PLine) : State :=
  match regionOf s pa with
  | .core p off => (match unitAt p with
    | some u => portFLines s u (off / 64) ls
    | none => s)
  | _ => writePhys s pa (ls.flatMap plineBytes)

/-- MESH_WRITE: a write packet reaches its destination: a stack queues it, a core takes it through port F, a fenced core
discards it (R235, R253, R255). -/
def execMeshWrite (p : Nat) (s : State) : Host.Outcome State Fault Refusal :=
  if 64 ≤ p then .fault .noSuchUnit
  else match packetAt s 0 p with
    | none => .refused (.notEnabled "no write packet is on its way to the position")
    | some (k, rest) =>
      let s := crossed { s with packets := rest } k.src p
      if atStack s k.pa then .next (enqueueReq s k)
      else
        let ack := answer k 3 1 []
        if posFenced s p then .next (incP (sendPacket s ack) (pk 0x0902 3) 1)
        else if stopped s k.dom then .next (sendPacket s ack)
        else
          let s := storeAt s k.pa k.data
          let s := match k.tok with
            | some (q, t) => sendIncr s k.src k.dom q t 1
            | none => s
          .next (sendPacket s ack)

/-- Lines whose every word is poisoned: what a fenced core answers (R255). -/
def poisonLines (n : Nat) : List PLine := List.replicate n (0, 0xFFFF)

/-- MESH_READ_REQUEST: a read request reaches its destination: a stack queues it, a core or window answers it
(R235, R255, R290). -/
def execMeshReadRequest (p : Nat) (s : State) : Host.Outcome State Fault Refusal :=
  if 64 ≤ p then .fault .noSuchUnit
  else match packetAt s 1 p with
    | none => .refused (.notEnabled "no read request is on its way to the position")
    | some (k, rest) =>
      let s := crossed { s with packets := rest } k.src p
      if atStack s k.pa then .next (enqueueReq s k)
      else if posFenced s p then .next (sendPacket s (replyTo k (replyVc k) (poisonLines k.n)))
      else
        let s := checkRange s k.pa (64 * k.n) (some k.dom)
        .next (sendPacket s (replyTo k (replyVc k) ((List.range k.n).map fun i => plineOf (readPhys s (k.pa + 64 * i) 64))))

/-- Lines of a response or multicast that wait at a core's port F (R113). -/
def arrive (s : State) (u : Nat) (k : Packet) : State :=
  { s with arrivals := s.arrivals ++ (List.range k.data.length).map fun i => ⟨u, k.owner, k.line + i, k.data.getD i (0, 0)⟩ }

/-- What a response delivers to its owner: lines for port F, or a granule of a gather (R113, R197). -/
def deliver (s : State) (k : Packet) : State :=
  match k.owner with
  | .op u tag =>
    match findXfer s u tag with
    | none => s
    | some x =>
      if x.kind == .ngath then
        let s := if stopped s x.dom then s else portFBytes s u k.off ((plineBytes (k.data.headD (0, 0))).take 32)
        updXfer s u tag fun x => { x with done := x.done + 1 }
      else arrive s u k
  | .stream _ _ =>
    match unitAt k.dst with
    | some u => arrive s u k
    | none => s
  | _ => s

/-- MESH_READ_RESPONSE: a response reaches the requester (R235); narrow accesses that waited may go (R198, R270). -/
def execMeshReadResponse (p : Nat) (s : State) : Host.Outcome State Fault Refusal :=
  if 64 ≤ p then .fault .noSuchUnit
  else match packetAt s 2 p with
    | none => .refused (.notEnabled "no response is on its way to the position")
    | some (k, rest) => .next (pumpWaiting (deliver (crossed { s with packets := rest } k.src p) k))

/-- What an acknowledge tells the sender of a write (R152, R266). -/
def acknowledged (s : State) (p : Nat) (k : Packet) : State :=
  match k.owner with
  | .op u tag => updXfer s u tag fun x => { x with done := x.done + (if x.kind == .nscat then 1 else k.n) }
  | .stream x win =>
    let y := getStream s x
    setStream s x { y with got := SMap.upd 0 y.got (win * 64 + p) (· + k.n) }
  | .dma ch => dmaAnswered s ch k.off 0 none
  | .none => s

/-- MESH_ACKNOWLEDGE: an acknowledge reaches the sender of a write (R235, R266). -/
def execMeshAcknowledge (p : Nat) (s : State) : Host.Outcome State Fault Refusal :=
  if 64 ≤ p then .fault .noSuchUnit
  else match packetAt s 3 p with
    | none => .refused (.notEnabled "no acknowledge is on its way to the position")
    | some (k, rest) => .next (pumpWaiting (acknowledged (crossed { s with packets := rest } k.src p) p k))

/-- Write a line that waits at port F, if its owner's domain still runs: an operation of a stopped domain finishes without
its write (R113, R116, R224, R266). -/
def portFWrite (s : State) (a : Arrival) : State :=
  match a.owner with
  | .op u tag =>
    match findXfer s u tag with
    | none => s
    | some x =>
      let s := if stopped s x.dom then s
        else
          let s := portF s a.unit a.line a.data
          if x.kind == .tld || x.kind == .get || x.kind == .spop then setPresent s a.unit a.line true else s
      updXfer s u tag fun x => { x with done := x.done + 1 }
  | .stream x win =>
    let y := getStream s x
    if y.st ≠ 1 && y.st ≠ 2 || stopped s y.dom then s
    else
      let s := setPresent (portF s a.unit a.line a.data) a.unit a.line true
      let y := getStream s x
      setStream s x { y with got := SMap.upd 0 y.got (win * 64 + posOf a.unit) (· + 1) }
  | _ => s

/-- The owner of an arrival matches a source. -/
def fromSrc (u : Nat) (src : PortFSrc) (a : Arrival) : Bool :=
  a.unit == u && (match src, a.owner with
    | .op tag, .op _ t => t == tag
    | .stream ctx, .stream x _ => x == ctx
    | _, _ => false)

/-- PORT_F_LINE_WRITE: the oldest line of a source that waits at a core's port F is written (R113, R116). -/
def execPortFLineWrite (u : Nat) (src : PortFSrc) (s : State) : Host.Outcome State Fault Refusal :=
  if !isCoreUnit u then .fault .noSuchUnit
  else match takeFirst (fromSrc u src) s.arrivals with
    | none => .refused (.notEnabled "no line of the source waits")
    | some (a, rest) => .next (portFWrite { s with arrivals := rest } a)

/-- MESH_TRANSFER_COMPLETE: the last line of an operation is written or acknowledged: its tag is free and its token is sent; that
of a PUT went with its last packet (R152, R253). -/
def execMeshTransferComplete (u tag : Nat) (s : State) : Host.Outcome State Fault Refusal :=
  if !isCoreUnit u then .fault .noSuchUnit
  else match takeFirst (fun x : Xfer => x.unit == u && x.tag == tag && !(x.kind == .spush || x.kind == .accPush)) s.xfers with
    | none => .refused (.notEnabled "no transfer holds the tag")
    | some (x, rest) =>
      if x.done < x.total then .refused (.notEnabled "the transfer has lines on their way")
      else
        let s := pumpWaiting { s with xfers := rest }
        .next (match x.tok with
          | some (p, t) => if x.kind == .put then s else sendIncr s (posOf u) x.dom p t 1
          | none => s)

/-! ### Reduction (R242 to R244) -/

/-- The member positions of a bit set. -/
def positionsOf (m : Nat) : List Nat := (List.range 64).filter fun p => bit m p

/-- The domain that holds a tree in its range of 0600h.0B to 0Ch (R242). -/
def treeHolder (s : State) (t : Nat) : Option Nat :=
  (List.range 8).find? fun d => (getD s d).st ≠ .empty && decide (getP s (pk (0x0600 + d) 0x0B) ≤ t) &&
    decide (t < getP s (pk (0x0600 + d) 0x0B) + getP s (pk (0x0600 + d) 0x0C))

/-- The router that follows `p` on a tree: where the members' routes through it go (R242). -/
def treeNext (s : State) (t p : Nat) : Option Nat :=
  ((positionsOf (treeMembers s t)).filterMap fun m => nextIn p (routeFrom s m (treeRoot s t))).head?

/-- The expected inputs of a router on a tree, in the order West, North, East, South, Local (R243). -/
def expected (s : State) (t p : Nat) : List Nat :=
  let ms := positionsOf (treeMembers s t)
  (List.range 5).filter fun port =>
    if port == 4 then ms.contains p
    else ms.any fun m => (pairsOf (routeFrom s m (treeRoot s t))).any fun l => l.2 == p && portOf p l.1 == port

/-- One line of a combined flit: its words added in port order, absent inputs passed over (R243). -/
def combineLines (ls : List (Option PLine)) : Option PLine :=
  match ls.filterMap id with
  | [] => none
  | present =>
    some ((List.range 16).foldl (fun (a : PLine) w =>
      let word (l : PLine) : PV := ⟨f32Of ((l.1.toNat >>> (32 * w)) % 2 ^ 32), bit l.2 w⟩
      let raw (l : PLine) : Nat := (l.1.toNat >>> (32 * w)) % 2 ^ 32
      let (n, p) := match present with
        | [l] => (raw l, bit l.2 w)
        | l :: r => let v := r.foldl (fun a l => addPV a (word l)) (word l); (f32Bits v.v, v.p)
        | [] => (0, false)
      (a.1 ||| BitVec.ofNat 512 (n <<< (32 * w)), a.2 + if p then 2 ^ w else 0)) (0, 0))

/-- The flit that a port of a router offers for flit `n` of a round, or the end of its contribution. -/
def offered (s : State) (t p port k n : Nat) : Option RedFlit :=
  s.red.find? fun f => f.tree == t && f.pos == p && f.port == port && f.round == k && (f.lower.isNone || f.n == n)

/-- Land a combined flit of a round at the tree's root, unless the domain that holds the tree is stopped (R224, R244). -/
def landRed (s : State) (t root k n : Nat) (lo up : Option PLine) (last : Bool) : State :=
  let base := getP s (pk (0x0910 + t) (if k % 2 == 0 then 3 else 4))
  let holder := treeHolder s t
  let dead := match holder with
    | some d => stopped s d
    | none => true
  match unitAt root with
  | none => s
  | some u =>
    let put (s : State) (i : Nat) : Option PLine → State
      | some l => if dead then s else portF s u (base + i) l
      | none => s
    let s := put (put s (2 * n) lo) (2 * n + 1) up
    if last then
      let s := incP s (pk (0x0910 + t) 6) 1
      let tok := getP s (pk (0x0910 + t) 5)
      let s := if tok == 0xFF then s else sendIncr s root (holder.getD 0) root tok 1
      { s with xfers := s.xfers.map fun x =>
          if x.kind == .rsend && x.tgt == t && x.rline == k then { x with done := x.total } else x }
    else s

/-- MESH_REDUCTION: router `p` combines its next flit of tree `t`, once every expected input has supplied it or has
ended, and sends it on or lands it (R243, R244). -/
def execMeshReduction (p t : Nat) (s : State) : Host.Outcome State Fault Refusal :=
  if 64 ≤ p || 16 ≤ t then .fault .noSuchUnit
  else
    let mine := s.red.filter fun f => f.tree == t && f.pos == p && f.lower.isSome
    match minBy (fun (a b : RedFlit) => decide (a.round < b.round) || (a.round == b.round && decide (a.n < b.n))) mine with
    | none => .refused (.notEnabled "no flit of the tree waits at the router")
    | some f0 =>
      let k := f0.round
      let n := f0.n
      let ports := expected s t p
      let offers := ports.map fun port => offered s t p port k n
      if offers.any (·.isNone) then .refused (.notEnabled "an expected input has not supplied its flit")
      else
        let fs := offers.filterMap id
        let lo := combineLines (fs.map (·.lower))
        let up := combineLines (fs.map (·.upper))
        let last := fs.all (·.last)
        let used (f : RedFlit) : Bool := f.tree == t && f.pos == p && f.round == k && (f.lower.isNone || f.n == n)
        let kept := s.red.filter fun f => !used f
        let ends := if last then [] else (fs.filter (·.last)).map fun f => { f with lower := none, upper := none }
        let s := { s with red := kept ++ ends }
        if p == treeRoot s t then .next (landRed s t p k n lo up last)
        else match treeNext s t p with
          | none => .refused (.notEnabled "the router is not on the tree")
          | some q =>
            .next (crossedLink { s with red := s.red ++ [⟨t, q, portOf q p, k, n, lo, up, last, 2⟩] } p q)

/-! ### Multicast (R246, R247) -/

/-- Write a multicast packet in a member: a fill's lines wait at port F, those of a DMA transfer are written (R246, R267, R279). -/
def mcastDeliver (s : State) (k : Packet) (p : Nat) : State :=
  match unitAt p, k.owner with
  | none, _ => s
  | some u, .dma ch =>
    let s := if fenced s u then incP s (pk 0x0902 3) 1 else if stopped s k.dom then s else portFLines s u k.line k.data
    dmaAnswered s ch k.off 0 none
  | some u, _ => if fenced s u then incP s (pk 0x0902 3) 1 else arrive s u k

/-- How a copy for a member goes on from router `p`: its next hop, its leg from there and its VIA (R239, R247). -/
def memberHop (s : State) (k : Packet) (p m : Nat) : Option (Nat × Bool × Option Nat) :=
  let via := viaOf s k.src m
  let leg := k.leg || via == some p
  let next := match via with
    | some v => if leg then m else v
    | none => m
  if p == m && (leg || via.isNone) then none else some (xFirst p next, leg, via)

/-- The branches of a multicast packet at a router: copies that share their next hop, leg and VIA go as one, with the members
reached through it (R247). -/
def branches (s : State) (k : Packet) (p : Nat) (ms : List Nat) : List ((Nat × Bool × Option Nat) × List Nat) :=
  let hops := ms.filterMap fun m => (memberHop s k p m).map fun h => (h, m)
  (hops.map (·.1)).eraseDups.map fun h => (h, (hops.filter fun x => x.1 == h).map (·.2))

/-- The members of a multicast packet that have been reached at router `p`. -/
def reachedAt (s : State) (k : Packet) (p : Nat) : Bool := k.members.contains p && (memberHop s k p p).isNone

/-- MESH_MULTICAST_WRITE: a multicast packet at a router is written there when its tile is a member that it has reached, and goes
on along every branch at once (R247). -/
def execMeshMulticastWrite (p : Nat) (s : State) : Host.Outcome State Fault Refusal :=
  if 64 ≤ p then .fault .noSuchUnit
  else match packetAt s 5 p with
    | none => .refused (.notEnabled "no multicast packet is at the router")
    | some (k, rest) =>
      let s := { s with packets := rest }
      let here := reachedAt s k p
      let s := if here then mcastDeliver s k p else s
      let bs := branches s k p (k.members.filter fun m => !(here && m == p))
      let s := bs.foldl (fun s b => crossedLink s p b.1.1) s
      .next { s with packets := s.packets ++ bs.map fun b => { k with dst := b.1.1, leg := b.1.2.1, via := b.1.2.2, members := b.2 } }

end Sys2Proof.Machine
end

