-- ==== Sys2Proof/Machine/Streams.lean ====
section
/-!
DEFINITION. Streams (R259 to R269, R274): the windows of a context, their needs, checks, requests, fills and releases,
and the mutual waits of contexts.
-/
namespace Sys2Proof.Machine

/-- Stream contexts of the device (R259). -/
def numStreams : Nat := 32768

/-! ### The lines of a window (R261) -/

/-- The first memory line of window n, before its runs: bits [47:6] of a virtual address, modulo 2^42. -/
def windowBase (d n : Nat) : Nat :=
  let w0 := n % sdC0 d
  let w1 := n / sdC0 d % sdC1 d
  let w2 := n / (sdC0 d * sdC1 d)
  wrap 42 ((sdVline d : Int) + w0 * sdStride0 d + w1 * sdStride1 d + w2 * sdStride2 d)

/-- The memory line of line l of window n. -/
def windowLine (d n l : Nat) : Nat :=
  wrap 42 ((windowBase d n : Int) + (l / sdRunLines d : Nat) * sdInner d + (l % sdRunLines d : Nat))

/-- The ring line of line l of window n. -/
def ringLine (d n l : Nat) : Nat := sdRing d + n % sdNwin d * sdWinLines d + l

/-! ### Needs and deadlines (R263, R265, R268) -/

/-- The DCC at which window n of a TIMED stream is needed, or becomes eligible for draining (R263, R265). -/
def windowNeed (d n : Nat) : Nat := sdFirst d + n * sdPeriod d

/-- The DCC at which the presence of window n, or for STORE its drain, is needed (R265). -/
def checkNeed (d n : Nat) : Nat := if sdKind d == 1 then windowNeed d (n + sdNwin d) else windowNeed d n

/-- `due` of R268 for a request of window n. -/
def windowDue (x : Stream) (n : Nat) : Nat :=
  let d := x.desc
  if sdKind d == 1 then windowNeed d (n + sdNwin d)
  else if sdMode d == 0 then windowNeed d n
  else match x.lastCur with
    | some (k, t) => if k < n then t + (n - k) * sdPeriod d else windowNeed d n
    | none => windowNeed d n

/-- The DEADLINE of a request of window n: CTC + due − 64 − DCC, taken modulo 2^64 (R268). -/
def deadlineOf (s : State) (x : Stream) (n : Nat) : Nat :=
  let dd := getD s x.dom
  wrap 64 ((s.ctc : Int) + windowDue x n - 64 - (if dd.started then dd.dcc else 0 : Nat))

/-- A context that moves windows: active in a domain that runs. -/
def streamRuns (s : State) (x : Stream) : Bool := x.st == 1 && (getD s x.dom).st.runs

/-! ### Events of the fetch engine -/

/-- A stream whose requests, releases or moves change now (R274). -/
def changeStream (s : State) (i : Nat) (x : Stream) : State := setStream s i { x with since := s.ns }

/-- WINDOW_CURRENT: window c of a TIMED stream becomes current at its DCC, and c increments (R263). -/
def execWindowCurrent (i : Nat) (s : State) : Host.Outcome State Fault Refusal :=
  if numStreams ≤ i then .fault .noSuchUnit else
  let x := getStream s i
  if !(x.st == 1 || x.st == 2 || x.st == 3) || !(getD s x.dom).st.runs then
    .refused (.notEnabled "the stream does not run")
  else if sdMode x.desc ≠ 0 || sdTotal x.desc ≤ x.c then .refused (.notEnabled "no window becomes current at a DCC")
  else match toDcc x.dom (windowNeed x.desc x.c) s with
    | none => .refused (.notEnabled "the domain is stalled")
    | some s =>
      let now := (getD s x.dom).dcc
      .next (setStream s i { x with c := x.c + 1, cur := x.cur ++ [(x.c, now)], lastCur := some (x.c, now) })

/-- Clear the PRESENT bits of the lines of a ring slot at every position the stream fills (R266). -/
def clearSlot (s : State) (x : Stream) (n : Nat) : State :=
  if sdKind x.desc == 1 then s
  else (streamDests s x).foldl (fun s p =>
    match unitAt p with
    | some u => clearPresent s u [(ringLine x.desc n 0, sdWinLines x.desc)]
    | none => s) s

/-- WINDOW_RELEASE: the next window in order is released: HOLD slots after it became current, or once RELEASER has moved
it (R263, R266). -/
def execWindowRelease (i : Nat) (s : State) : Host.Outcome State Fault Refusal :=
  if numStreams ≤ i then .fault .noSuchUnit else
  let x := getStream s i
  let n := x.released
  let done (s : State) : Host.Outcome State Fault Refusal :=
    .next (changeStream (clearSlot s x n) i { x with released := n + 1, cur := x.cur.filter fun w => w.1 ≠ n })
  if x.st == 0 || x.st == 4 || sdTotal x.desc ≤ n then .refused (.notEnabled "the stream has no window to release")
  else if sdRelEn x.desc then
    (if n < (getStream s (sdReleaser x.desc)).moved then done s
     else .refused (.notEnabled "the releaser has not moved the window"))
  else match x.cur.find? fun w => w.1 == n with
    | none => .refused (.notEnabled "the window has not become current")
    | some w =>
      match toDcc x.dom (w.2 + sdHold x.desc) s with
      | none => .refused (.notEnabled "the domain is stalled")
      | some s => done s

/-- WINDOW_CHECK: the check of a TIMED stream's next window, 64 slots before its need, for the first slots before T0; a failed
check is counted and raises a stall request (R207, R208, R265). -/
def execWindowCheck (i : Nat) (s : State) : Host.Outcome State Fault Refusal :=
  if numStreams ≤ i then .fault .noSuchUnit else
  let x := getStream s i
  let n := x.checked
  if x.st == 0 || x.st == 4 || !(getD s x.dom).st.runs then .refused (.notEnabled "the stream does not run")
  else if sdMode x.desc ≠ 0 || sdTotal x.desc ≤ n then .refused (.notEnabled "the stream has no window to check")
  else
    let need := checkNeed x.desc n
    match toHorizon s x.dom need with
    | none => .refused (.notEnabled "the domain is stalled")
    | some s =>
      let c : Cond := if sdKind x.desc == 1 then .drained i n else .window i n
      let ok := condHolds s x.dom c
      let s := setStream s i { x with checked := n + 1 }
      if ok then .next s
      else .next (requestStall (incP s (pk 0x0702 2) 1) x.dom
        { slot := need, unit := (unitAt (sdCore x.desc)).getD 0, needle := 3, offset := 0xFFFFFFFF, cond := c })

/-! ### Requests (R261, R266 to R268, R271) -/

/-- Lines of the next request: within the window, the run and up to 4 KiB, in device memory of one 4 KiB block and so one page
(R268, R286). -/
def requestLines (d n l : Nat) : Nat :=
  let run := sdRunLines d - l % sdRunLines d
  let rest := min run (sdWinLines d - l)
  if sdKind d == 2 then min 64 rest else packetLines (64 * windowLine d n l) rest

/-- The stream after a request of `k` lines. -/
def advanceRequest (x : Stream) (k : Nat) : Stream :=
  if sdWinLines x.desc ≤ x.reqOff + k then { x with reqWin := x.reqWin + 1, reqOff := 0 }
  else { x with reqOff := x.reqOff + k }

/-- Members of a multicast fill; none for a unicast one. -/
def fillMembers (s : State) (x : Stream) : List Nat :=
  if sdMcast x.desc && sdKind x.desc ≠ 1 then streamDests s x else []

/-- The start that a STORE window's write counts from: the DCC at which it became eligible, before the point of a snapshot
in progress or not (R347). -/
def storeBorn (s : State) (x : Stream) (n : Nat) : Nat :=
  let sd := getSnapD s x.dom
  if sd.phase ≠ 0 && decide (windowNeed x.desc n < sd.atDcc) then 0 else s.ctc

/-- Pool tags that the fetch engine of a position holds (R270). -/
def engineTags (s : State) (p : Nat) : Nat :=
  ((poolRequests s).filter fun r => match r.1 with
    | .stream x _ => sdCore (getStream s x).desc == p
    | _ => false).length

/-- A fetch engine may take another tag: it holds fewer than 64 and the pool has one (R270). -/
def engineFree (s : State) (p : Nat) : Bool := decide (engineTags s p < 64) && poolFree s

/-- A request of `k` lines of a stream from where it stands, with the DEADLINE of R268. -/
def streamPacket (s : State) (i k ty dst pa va pte : Nat) (data : List PLine) : Packet :=
  let x := getStream s i
  { ty := ty, src := sdCore x.desc, dst := dst, vc := 0, dom := x.dom, owner := .stream i x.reqWin,
    line := ringLine x.desc x.reqWin x.reqOff, pa := pa, va := va, off := x.reqOff, n := k, data := data, tok := none,
    dead := deadlineOf s x x.reqWin, born := storeBorn s x x.reqWin,
    members := if ty == 1 then fillMembers s x else [],
    group := if ty == 1 && sdMcast x.desc then 4 * x.dom + sdMgroup x.desc else 0, pte := pte }

/-- Send a request of `k` lines and move on. -/
def sendRequest (s : State) (i k : Nat) (p : Packet) : State :=
  changeStream (sendPacket s p) i (advanceRequest (getStream s i) k)

/-- The next request of a RELAY: a read of the source ring. -/
def relayRequest (s : State) (i : Nat) : State :=
  let x := getStream s i
  let src := getStream s (sdSrc x.desc)
  let k := requestLines x.desc x.reqWin x.reqOff
  let p := sdCore src.desc
  sendRequest s i k (streamPacket s i k 1 p (coreBase p + 64 * ringLine src.desc x.reqWin x.reqOff) 0 0 [])

/-- The next request of a LOAD or STORE: a read of device memory, or a write of drained lines; an absent page halts the stream, an
address that may not be accessed raises fault 12h (R268, R271, R287, R290). -/
def memoryRequest (s : State) (i : Nat) : State :=
  let x := getStream s i
  let u := (unitAt (sdCore x.desc)).getD 0
  let wr := sdKind x.desc == 1
  let va := 64 * windowLine x.desc x.reqWin x.reqOff
  match translate s x.dom va wr with
  | (.bad, s) => raise s { mkRaised s 0x12 x.dom u with detail0 := va, detail1 := i }
  | (.absent, s) =>
    let (slot, s) := takeHalt s x.dom (.stream i) wr i x.reqWin u va 0 0xFFFFFFFF
    setStream s i { getStream s i with st := 2, halt := some slot }
  | (.ok pa pte, s) =>
    let k := runOk s x.dom pa (64 * requestLines x.desc x.reqWin x.reqOff) wr / 64
    let s := if wr then checkLines s u (ringLine x.desc x.reqWin x.reqOff) k x.dom else s
    sendRequest s i k (streamPacket s i k (if wr then 0 else 1) (posAt s pa) pa va pte
      (if wr then linesE s u (ringLine x.desc x.reqWin x.reqOff) k else []))

/-- STREAM_REQUEST_ISSUE: the fetch engine issues its next request once it is eligible and a tag is free: a read of device memory
(LOAD) or of the source ring (RELAY), or a write of drained lines (STORE), whose window becomes eligible at its DCC (R265, R266,
R268, R270). -/
def execStreamRequestIssue (i : Nat) (s : State) : Host.Outcome State Fault Refusal :=
  if numStreams ≤ i then .fault .noSuchUnit else
  let x := getStream s i
  let d := x.desc
  let n := x.reqWin
  let src := getStream s (sdSrc d)
  if !streamRuns s x then .refused (.notEnabled "the stream is not active")
  else if sdTotal d ≤ n then .refused (.notEnabled "every window has been requested")
  else if !engineFree s (sdCore d) then .refused (.notEnabled "no operation tag is free")
  else if sdKind d == 1 then
    (match toDcc x.dom (windowNeed d n) s with
    | none => .refused (.notEnabled "the window is not eligible")
    | some s => .next (memoryRequest s i))
  else if x.released + sdNwin d ≤ n then .refused (.notEnabled "the ring slot is not free")
  else if sdKind d ≠ 2 then .next (memoryRequest s i)
  else if !windowPresent src n (sdCore src.desc) then .refused (.notEnabled "the source window is absent")
  else .next (relayRequest s i)

/-! ### Windows moved (R264, R266) -/

/-- The windows moved of a stream whose destinations have been filled as `filled` says. -/
def movedOf (s : State) (x : Stream) : Nat :=
  match (streamDests s x).map fun p => SMap.get 0 x.filled p with
  | [] => 0
  | a :: r => r.foldl min a

/-- A stream that has moved its last window is done. -/
def finishStream (x : Stream) : Stream := if sdTotal x.desc ≤ x.moved && x.st == 1 then { x with st := 3 } else x

/-- WINDOW_FILLED: the last line of a LOAD or RELAY window is written at a position: the window is present there and its
token is incremented (R264, R266). -/
def execWindowFilled (i p : Nat) (s : State) : Host.Outcome State Fault Refusal :=
  if numStreams ≤ i || 64 ≤ p then .fault .noSuchUnit else
  let x := getStream s i
  let n := SMap.get 0 x.filled p
  if !(x.st == 1 || x.st == 2) || sdKind x.desc == 1 || !(streamDests s x).contains p then
    .refused (.notEnabled "the stream fills no ring at the position")
  else if !windowPresent x n p then .refused (.notEnabled "the window has lines on their way")
  else
    let x := { x with filled := SMap.set 0 x.filled p (n + 1) }
    let x := finishStream { x with moved := movedOf s x }
    let s := changeStream s i x
    .next (if sdTokenEn x.desc then sendIncr s p x.dom p (sdToken x.desc) 1 else s)

/-- STORE_WINDOW_ACKNOWLEDGED: every line of a STORE window is written at its stack: the slot is drained and the token of
CORE is incremented (R264, R266). -/
def execStoreWindowAcknowledged (i : Nat) (s : State) : Host.Outcome State Fault Refusal :=
  if numStreams ≤ i then .fault .noSuchUnit else
  let x := getStream s i
  let p := sdCore x.desc
  if !(x.st == 1 || x.st == 2) || sdKind x.desc ≠ 1 then .refused (.notEnabled "the stream drains no ring")
  else if SMap.get 0 x.got (x.moved * 64 + p) ≠ sdWinLines x.desc then
    .refused (.notEnabled "the window has lines without an acknowledge")
  else
    let s := changeStream s i (finishStream { x with moved := x.moved + 1 })
    .next (if sdTokenEn x.desc then sendIncr s p x.dom p (sdToken x.desc) 1 else s)

/-! ### Mutual waits (R274) -/

/-- The stream that a stream waits for: its SRC where only the source window is missing, its RELEASER where a slot of its
own is unreleased (R274). -/
def waitsFor (s : State) (i : Nat) : List Nat :=
  let x := getStream s i
  let d := x.desc
  let n := x.reqWin
  if !streamRuns s x || sdTotal d ≤ n then []
  else
    let slot := decide (n < x.released + sdNwin d)
    let src := getStream s (sdSrc d)
    (if sdKind d == 2 && !windowPresent src n (sdCore src.desc) && slot then [sdSrc d] else []) ++
      (if !slot && sdRelEn d && sdKind d ≠ 1 then [sdReleaser d] else [])

/-- The streams reached by waits from a list of streams. -/
def waitClosure (s : State) : Nat → List Nat → List Nat
  | 0, l => l
  | n + 1, l =>
    let next := (l.flatMap (waitsFor s)).filter fun y => !l.contains y
    if next.isEmpty then l else waitClosure s n (l ++ next)

/-- The streams that a stream reaches by one wait or more. -/
def reachesOf (s : State) (i : Nat) : List Nat := waitClosure s s.streams.length (waitsFor s i)

/-- When a cycle of streams formed: none of its members has changed since (R274). -/
def cycleNs (s : State) (cycle : List Nat) : Nat := cycle.foldl (fun t y => max t (getStream s y).since) 0

/-- STREAM_WAIT: a cycle of waits through the stream has persisted for 0702h.03 milliseconds: fault 07h names the cycle's lowest
context and the one it waits for (R274). The model's time moves on to that moment. -/
def execStreamWait (i : Nat) (s : State) : Host.Outcome State Fault Refusal :=
  if numStreams ≤ i then .fault .noSuchUnit else
  let r := reachesOf s i
  if !r.contains i then .refused (.notEnabled "the stream is on no cycle of waits")
  else
    let cycle := r.filter fun y => (reachesOf s y).contains i
    let low := cycle.foldl min i
    let waited := ((waitsFor s low).filter fun y => cycle.contains y).headD 0
    let x := getStream s low
    let left := cycleNs s cycle + getP s (pk 0x0702 3) * 1000000 - s.ns
    let s := advance (ceilDiv (left * freqMhz s) 1000) s
    .next (raise s { mkRaised s 7 x.dom ((unitAt (sdCore x.desc)).getD 0) with detail0 := low, detail1 := waited })

end Sys2Proof.Machine
end

