-- ==== Sys2Proof/Machine/Chamois.lean ====
section
/-!
DEFINITION. Chamois cores (R174 to R184, R191): registers, decode and issue, control flow and the scalar instructions.
-/
namespace Sys2Proof.Machine

/-! ### Registers (R176) -/

/-- Scalar register r as an instruction sees it; s0 reads as zero. -/
def readS (x : Cham) (r : Nat) : SReg := if r == 0 then {} else SMap.get {} x.s r
/-- Vector register r. -/
def readV (x : Cham) (r : Nat) : VReg := SMap.get {} x.v r
/-- Predicate register r; p0 reads as all ones. -/
def readPr (x : Cham) (r : Nat) : PReg := if r == 0 then ⟨BitVec.allOnes 128, 0⟩ else SMap.get {} x.p r

/-! ### Reserved fields (R182, R184) -/

/-- A field's bits. -/
def fieldMask (hi lo : Nat) : Nat := 2 ^ (hi + 1) - 2 ^ lo

def mVD : Nat := fieldMask 12 8
def mVA : Nat := fieldMask 17 13
def mVB : Nat := fieldMask 22 18
def mVC : Nat := fieldMask 27 23
def mPred : Nat := fieldMask 30 28
def mPK : Nat := fieldMask 31 31
def mAux : Nat := fieldMask 35 32
def mCond : Nat := fieldMask 39 37
def mPD : Nat := fieldMask 42 40
def mPA : Nat := fieldMask 45 43
def mPB : Nat := fieldMask 48 46
def mVS : Nat := fieldMask 54 49
def mSD : Nat := fieldMask 13 8
def mSA : Nat := fieldMask 19 14
def mSB : Nat := fieldMask 25 20
def mImm : Nat := fieldMask 63 26

/-- The bits that an opcode uses beside its opcode field. -/
def usedBits (op : Nat) : Nat :=
  match op with
  | 0x00 => fieldMask 23 8
  | 0x01 => 0
  | 0x02 => fieldMask 33 8
  | 0x05 => fieldMask 12 8
  | 0x08 => fieldMask 46 8
  | 0x09 => fieldMask 35 8
  | 0x1B => mSD ||| mSA ||| mImm
  | 0x1C => mSD ||| mImm
  | 0x1D => mSD ||| mImm
  | 0x20 | 0x21 | 0x22 | 0x26 | 0x27 | 0x2F => mVD ||| mVA ||| mVB ||| mPred ||| mPK
  | 0x23 => mVD ||| mVA ||| mVB ||| mVC ||| mPred ||| mPK
  | 0x24 | 0x25 => mVD ||| mVA ||| mVB ||| mVC ||| mPred
  | 0x28 | 0x29 => mVD ||| mVA ||| mPred ||| mPK
  | 0x2A => mVD ||| mVA ||| mVB ||| mPred
  | 0x2B | 0x2C => mVD ||| mVA ||| mPred
  | 0x2D => mVD ||| mVA ||| mPred ||| mAux
  | 0x2E | 0x38 => mPD ||| mVA ||| mVB ||| mPred ||| mCond
  | 0x30 | 0x31 | 0x32 | 0x33 | 0x34 | 0x35 | 0x36 | 0x37 => mVD ||| mVA ||| mVB ||| mPred
  | 0x39 => mVD ||| mVA ||| mPred ||| mAux
  | 0x3A => mVD ||| mVA ||| mPred
  | 0x3B => mVD ||| mVS ||| mPred
  | 0x3C => mVD ||| mPred
  | 0x3D | 0x3E => mVS ||| mVA ||| mPred
  | 0x40 | 0x41 | 0x42 => mPD ||| mPA ||| mPB
  | 0x43 => mPD ||| mPA
  | 0x48 => fieldMask 36 20 ||| fieldMask 18 8
  | 0x49 => fieldMask 39 20 ||| fieldMask 18 8
  | 0x4A | 0x4B => fieldMask 36 8
  | 0x50 => fieldMask 48 8
  | 0x51 => fieldMask 57 8
  | 0x52 => fieldMask 57 53 ||| fieldMask 50 49 ||| fieldMask 41 8
  | 0x58 | 0x59 => fieldMask 51 8
  | 0x60 | 0x61 => fieldMask 32 8
  | 0x62 | 0x63 => fieldMask 38 8
  | 0x64 => fieldMask 42 39 ||| fieldMask 32 20 ||| fieldMask 13 8
  | 0x68 => fieldMask 35 8
  | 0x69 => fieldMask 42 8
  | _ => if 0x10 ≤ op && op ≤ 0x1F then mSD ||| mSA ||| mSB else 0

/-- A reserved bit or a reserved encoding of the word is nonzero (R182, R184 check 2). -/
def chamReserved (w : Nat) : Bool :=
  let op := opcodeOf w
  decide (w % 2 ^ 64 &&& (2 ^ 64 - 1 - (usedBits op ||| 0xFF)) ≠ 0) ||
    (match op with
     | 0x02 => ccLoopBody w == 0 || ccLoopCount w == 0
     | 0x2D => !funcValid (cvAux w)
     | 0x2E => cvCond w == 7
     | 0x38 => cvCond w == 7 || cvCond w == 6
     | 0x39 => decide (1 < cvAux w)
     | 0x50 => !fmtValid (cbFmt w) || (!cbCols w && decide (31 < cbIdx w))
     | 0x51 => !fmtValid (cbFmt w) || (!cbCols w && decide (31 < cbIdx w)) || cbRmode w == 3 || marksBad (cbMarks w) [cbFmt w]
     | 0x52 => !fmtValid (cbFmt w) || decide (31 < cbIdx w) || cbRmode w == 3
     | 0x68 | 0x69 => ckCount w == 0 || !fmtValid (ckFmt w)
     | _ => false)

/-! ### Control flow (R181) -/

/-- Where the sequencer goes after the instruction at `pc` that is no LOOP, by the number of open levels. A loop that
ends moves its outer loop past its body. -/
def advLoopsN (pc : Nat) : Nat → List CLoop → Nat × List CLoop
  | 0, ls => (pc + 1, ls)
  | _ + 1, [] => (pc + 1, [])
  | n + 1, l :: r =>
    if l.pos + 1 < l.body then (pc + 1, { l with pos := l.pos + 1 } :: r)
    else if l.left ≠ 0 then (pc + 1 - l.body, { l with pos := 0, left := l.left - 1 } :: r)
    else match r with
      | [] => (pc + 1, [])
      | o :: r' => advLoopsN pc n ({ o with pos := o.pos + l.body } :: r')

def advLoops (pc : Nat) (ls : List CLoop) : Nat × List CLoop := advLoopsN pc ls.length ls

/-- Where it goes after an instruction. -/
def nextC (w pc : Nat) (ls : List CLoop) : Nat × List CLoop :=
  if opcodeOf w == 0x02 then (pc + 1, ⟨ccLoopBody w, 0, ccLoopCount w - 1⟩ :: ls) else advLoops pc ls

/-- Check 1 of R184: the opcode, and the LOOP rules of R181. -/
def nestBad (w : Nat) (ls : List CLoop) : Bool :=
  !chamoisOps.contains (opcodeOf w) || (opcodeOf w == 0x01 && !ls.isEmpty) ||
    (opcodeOf w == 0x02 && (decide (4 ≤ ls.length) ||
      (match ls with
       | [] => false
       | o :: _ => decide (o.body < o.pos + 1 + ccLoopBody w))))

/-! ### Decode and issue (R178, R184) -/

/-- The opcodes that hold an operation tag. -/
def isChamMesh (op : Nat) : Bool :=
  [0x58, 0x59, 0x60, 0x61, 0x62, 0x63, 0x64, 0x68, 0x69].contains op

/-- The conditions of a SYNC that do not hold; windows of the stream that earlier SYNCs still to issue will take are passed over
(R178, R182, R264). -/
def syncConds (s : State) (c w : Nat) : List Cond :=
  let u := 0x40 + c
  if opcodeOf w ≠ 0x08 then [] else
  (if ccTokenEn w && decide (getTok s u (ccToken w) < ccCount w) then [Cond.token u (ccToken w) (ccCount w)] else []) ++
    (if ccStreamEn w then
      let x := getStream s (ccStream w)
      let ahead := ((getC s c).decoded.filter fun y => opcodeOf y.word == 0x08 && ccStreamEn y.word && ccStream y.word == ccStream w).length
      let n := x.c + (if sdMode x.desc == 1 then ahead else 0)
      if slotPresent x n (posOf u) then [] else [.windowAt (ccStream w) n (posOf u)]
    else [])

/-- The instruction that the core decodes next: from its loop buffer inside a loop that has passed it, else from core memory
(R121, R175). -/
def nextFetchedC (s : State) (c : Nat) (x : Cham) : Fetched :=
  match (if x.dloops.isEmpty then none else x.loopBuf.find? fun y => y.1 == x.dpc) with
  | some y => y.2
  | none => fetched s (0x40 + c) 8 x.dpc

/-- Cycles that an instruction occupies: a NOP's COUNT more than one (R182). -/
def slotsOf (w : Nat) : Nat := 1 + (if opcodeOf w == 0x00 then ccNopCount w else 0)

/-- Where decode goes after an instruction, with the loop buffer. -/
def advanceDecodeC (x : Cham) (f : Fetched) : Cham :=
  let (pc, ls) := nextC f.word x.dpc x.dloops
  let buf := if !x.dloops.isEmpty then SMap.ins x.dpc f x.loopBuf else if opcodeOf f.word == 0x02 then [] else x.loopBuf
  { x with dpc := pc, dloops := ls, loopBuf := buf, dslot := x.dslot + slotsOf f.word }

/-- The decode of a core's next instruction: its reservations and a SYNC's conditions; each failure raises a stall request that
names the slot. What is fetched from beyond core memory or from a poisoned word has no effect (R121, R178, R208). -/
def decodeNextC (s : State) (c d : Nat) : State :=
  let x := getC s c
  let u := 0x40 + c
  let s := if x.dloops.isEmpty || (x.loopBuf.find? fun y => y.1 == x.dpc).isNone then checkRange s (corePa u (8 * x.dpc)) 8 (some d) else s
  let f := nextFetchedC s c x
  let w := f.word
  let slot := x.dslot
  let dd := getD s d
  let add (y : Decoded) (s : State) : State := setC s c { advanceDecodeC (getC s c) f with decoded := (getC s c).decoded ++ [y] }
  if decide (0x20000 ≤ x.dpc / 8) || f.poison.isSome then
    add { word := w, idx := x.dpc, slot := slot, tag := none, push := false, poison := f.poison } s
  else
    let need := isChamMesh (opcodeOf w)
    let push := opcodeOf w == 0x68
    let tag := if need then reserve s u d push else none
    let owed := need && tag.isNone
    let conds := (if owed && push && decide (pushSlots s u ≤ pushesHeld s u d) then [Cond.push u] else []) ++
      (if owed && !decide (tagsOfCore s u d < quotaOf s u) then [.tag u] else []) ++ syncConds s c w
    conds.foldl (fun s k => requestStall s d
        { slot := slot, unit := u, needle := 2, offset := imageOffset dd 2 (posOf u) (8 * x.dpc), cond := k })
      (add { word := w, idx := x.dpc, slot := slot, tag := tag, push := push, owed := owed } s)

/-- INSTRUCTION_DECODE of a Chamois core: exactly 64 cycles before the instruction's slot, time moving on to that point; nothing
follows a HALT (R178). -/
def decodeChamois (s : State) (c : Nat) : Host.Outcome State Fault Refusal :=
  let x := getC s c
  match x.dom with
  | none => .refused (.notEnabled "the core belongs to no domain")
  | some d =>
    if x.halted || !(getD s d).st.runs || x.decoded.any fun y => opcodeOf y.word == 0x01 then
      .refused (.notEnabled "the core does not decode")
    else if horizonPast s d x.dslot then .refused (.notEnabled "the decode point has passed")
    else match toHorizon s d x.dslot with
      | none => .refused (.notEnabled "the domain is stalled")
      | some s => if decoding s d then .next (decodeNextC s c d) else .refused (.notEnabled "the domain does not decode")

/-- A Chamois instruction at its issue. -/
structure CCtx where
  c   : Nat
  d   : Nat
  w   : Nat
  off : Nat
  tag : Nat

/-- The unit number of the core. -/
def CCtx.u (x : CCtx) : Nat := 0x40 + x.c

/-- What a Chamois instruction's own checks and effect answer; a fault of its values keeps what it has counted. -/
inductive CEff where
  | ok (s : State)
  | fault (code : Nat)
  | faultD (code d0 d1 : Nat) (s : State)
  | poison

/-- The row pair that an SFACC names: its first line and IDX. -/
def sfaccPair (x : Cham) (w : Nat) : Nat × Nat := ((readS x (cbSB w)).v.toNat + cbOff w, cbIdx w)

/-- An instruction is held in a cycle: the quarter-rate unit or, for a column-mode operation, the block unit is not free, or an
SFACC on its row pair has not yet written (R179). -/
def chamHeld (x : Cham) (dcc w : Nat) : Bool :=
  let op := opcodeOf w
  if 0x2A ≤ op && op ≤ 0x2D then decide (dcc < x.quarter)
  else if (op == 0x50 || op == 0x51) && cbCols w then decide (dcc < x.block)
  else op == 0x52 && x.jobs.any fun j => j.kind == .sfacc && (j.addrs.headD 0, cbIdx j.word) == sfaccPair x w

/-- Time moves on while the core holds an instruction, at most `n` ticks. -/
def holdIssue (c d w : Nat) : Nat → State → State
  | 0, s => s
  | n + 1, s => if chamHeld (getC s c) (getD s d).dcc w then holdIssue c d w n (advance 1 s) else s

/-- Ticks within which every hold ends: the longest chain of memory accesses that an SFACC can wait behind is far shorter. -/
def holdTicks : Nat := 4096

/-- After an issue at `slot`: the sequencer's place, and the decode entry gone; cycles by which it came later than decoded move
everything behind it, and the units it occupies are taken (R179). -/
def advanceCham (x : Cham) (w slot : Nat) : Cham :=
  let (pc, ls) := nextC w x.pc x.loops
  let h := slot - x.nextSlot
  let op := opcodeOf w
  { x with pc := pc, loops := ls, decoded := laterBy h (x.decoded.drop 1), held := none, dslot := x.dslot + h,
           nextSlot := slot + slotsOf w
           quarter := if 0x2A ≤ op && op ≤ 0x2D then slot + 4 else x.quarter
           block := if (op == 0x50 || op == 0x51) && cbCols w then slot + 16 else x.block }

/-- The instruction of a core at its slot, with its decode entry: faults of the fetch, the checks of R184 in order, its effect. -/
def issueAtC (s : State) (c d w : Nat) (y : Decoded) (fx : CCtx → State → CEff) : State :=
  let x := getC s c
  let slot := (getD s d).dcc
  let off := imageOffset (getD s d) 2 (posOf (0x40 + c)) (8 * x.pc)
  if 0x20000 ≤ x.pc / 8 then raise s (chamFault s c d 0xFFFFFFFF 0x12 (x.pc / 8) 0)
  else match y.poison with
  | some pa => raise s (chamFault s c d off 0x0B pa 5)
  | none =>
    if nestBad w x.loops then raise s (chamFault s c d off 1 w 0)
    else if chamReserved w then raise s (chamFault s c d off 2 w 0)
    else
      -- the entry's reservation passes to the operation
      let s' := setC s c { x with decoded := { y with tag := none, push := false } :: x.decoded.drop 1 }
      match fx ⟨c, d, w, off, y.tag.getD 0⟩ s' with
      | .ok s => setC s c (advanceCham (getC s c) w slot)
      | .fault f => raise s' (chamFault s' c d off f w 0)
      | .faultD f d0 d1 s => raise s (chamFault s c d off f d0 d1)
      | .poison =>
        -- the record of a poisoned register has no address: what it holds is open (R184, R228)
        let (a, s) := freeBits s' 64
        let (b, s) := freeBits s 64
        raise s (chamFault s c d off 0x0B a b)

/-- Issue a Chamois instruction: the core has decoded it and is at its slot, after the holds of R179. A word of another opcode than
the command's is ill-formed; a word of no opcode takes fault 01h. -/
def issueC (op c : Nat) (word : W64) (fx : CCtx → State → CEff) (s : State) : Host.Outcome State Fault Refusal :=
  let w := word.toNat
  if 24 ≤ c then .fault .noSuchUnit
  else if opcodeOf w ≠ op && chamoisOps.contains (opcodeOf w) then .refused .illFormed
  else
    let x := getC s c
    match x.dom, x.decoded.head? with
    | some d, some y =>
      if x.halted || y.word ≠ w then .refused (.notEnabled "the core has not decoded the instruction")
      else if y.owed || openReq (getD s d) (0x40 + c) 2 y.key then .refused (.notEnabled "a condition of the instruction is open")
      else match toDcc d x.nextSlot s with
        | none => .refused (.notEnabled "the domain is stalled")
        | some s =>
          let s := holdIssue c d w holdTicks s
          if !issuing (getD s d) || chamHeld (getC s c) (getD s d).dcc w then .refused (.notEnabled "the domain does not run")
          else .next (issueAtC s c d w y fx)
    | _, _ => .refused (.notEnabled "the core has decoded no instruction")

/-! ### Control instructions (R182) -/

/-- Chamois NOP. -/
def execCNop (c : Nat) (w : W64) (s : State) : Host.Outcome State Fault Refusal :=
  issueC 0x00 c w (fun _ s => .ok s) s
/-- Chamois HALT: the core issues nothing more (R181). -/
def execCHalt (c : Nat) (w : W64) (s : State) : Host.Outcome State Fault Refusal :=
  issueC 0x01 c w (fun x s => .ok (noteFinished (setC s x.c { getC s x.c with halted := true }) x.d)) s
/-- Chamois LOOP (R181). -/
def execCLoop (c : Nat) (w : W64) (s : State) : Host.Outcome State Fault Refusal :=
  issueC 0x02 c w (fun _ s => .ok s) s
/-- Chamois STEP (R131). -/
def execCStep (c : Nat) (w : W64) (s : State) : Host.Outcome State Fault Refusal :=
  issueC 0x05 c w (fun x s => .ok (advanceSteps s (ccStepStrand x.w) (ccStepData x.w) (ccStepRng x.w))) s

/-- Chamois SYNC: COUNT is subtracted at issue and a CONDITION stream's window taken; a stream that the core does not
take part in raises fault 12h (R134, R263, R264). -/
def fxCSync (x : CCtx) (s : State) : CEff :=
  if ccStreamEn x.w && !streamAt s (ccStream x.w) (posOf x.u) then .fault 0x12
  else
    let s := if ccTokenEn x.w then subTok s x.u (ccToken x.w) (ccCount x.w) else s
    .ok (if ccStreamEn x.w then takeWindow s (ccStream x.w) (getD s x.d).dcc else s)

def execCSync (c : Nat) (w : W64) (s : State) : Host.Outcome State Fault Refusal := issueC 0x08 c w fxCSync s
/-- Chamois SIGNAL (R134). -/
def execCSignal (c : Nat) (w : W64) (s : State) : Host.Outcome State Fault Refusal :=
  issueC 0x09 c w (fun x s => .ok (sendIncr s (posOf x.u) x.d (ccSigPos x.w) (ccSigToken x.w) (ccSigIncr x.w))) s

/-! ### Scalar instructions (R191, R201) -/

/-- A scalar operation of s[SA] and s[SB] with its latency; a poisoned source poisons the result (R200). -/
def scalarOp (op lat c : Nat) (w : W64) (f : W64 → W64 → W64) (s : State) : Host.Outcome State Fault Refusal :=
  issueC op c w (fun x s =>
    let r := getC s x.c
    let a := readS r (csSA x.w)
    let b := readS r (csSB x.w)
    .ok (result s x.c x.d lat (.s (csSD x.w) ⟨f a.v b.v, a.p || b.p⟩))) s

def execAdd (c : Nat) (w : W64) (s : State) : Host.Outcome State Fault Refusal := scalarOp 0x10 1 c w (· + ·) s
def execSub (c : Nat) (w : W64) (s : State) : Host.Outcome State Fault Refusal := scalarOp 0x11 1 c w (· - ·) s
def execAnd (c : Nat) (w : W64) (s : State) : Host.Outcome State Fault Refusal := scalarOp 0x12 1 c w (· &&& ·) s
def execOr (c : Nat) (w : W64) (s : State) : Host.Outcome State Fault Refusal := scalarOp 0x13 1 c w (· ||| ·) s
def execXor (c : Nat) (w : W64) (s : State) : Host.Outcome State Fault Refusal := scalarOp 0x14 1 c w (· ^^^ ·) s
def execShl (c : Nat) (w : W64) (s : State) : Host.Outcome State Fault Refusal :=
  scalarOp 0x15 1 c w (fun a b => a <<< (b.toNat % 64)) s
def execShr (c : Nat) (w : W64) (s : State) : Host.Outcome State Fault Refusal :=
  scalarOp 0x16 1 c w (fun a b => a >>> (b.toNat % 64)) s
def execSra (c : Nat) (w : W64) (s : State) : Host.Outcome State Fault Refusal :=
  scalarOp 0x17 1 c w (fun a b => a.sshiftRight (b.toNat % 64)) s
def execMul (c : Nat) (w : W64) (s : State) : Host.Outcome State Fault Refusal := scalarOp 0x18 3 c w (· * ·) s
def execSlt (c : Nat) (w : W64) (s : State) : Host.Outcome State Fault Refusal :=
  scalarOp 0x19 1 c w (fun a b => if a.slt b then 1 else 0) s
def execSltu (c : Nat) (w : W64) (s : State) : Host.Outcome State Fault Refusal :=
  scalarOp 0x1A 1 c w (fun a b => if a.ult b then 1 else 0) s

/-- ADDI adds the sign-extended immediate. -/
def execAddi (c : Nat) (w : W64) (s : State) : Host.Outcome State Fault Refusal :=
  issueC 0x1B c w (fun x s =>
    let a := readS (getC s x.c) (csSA x.w)
    .ok (result s x.c x.d 1 (.s (csSD x.w) ⟨a.v + BitVec.ofInt 64 (csImm x.w), a.p⟩))) s
/-- LI writes the sign-extended immediate. -/
def execLi (c : Nat) (w : W64) (s : State) : Host.Outcome State Fault Refusal :=
  issueC 0x1C c w (fun x s => .ok (result s x.c x.d 1 (.s (csSD x.w) ⟨BitVec.ofInt 64 (csImm x.w), false⟩))) s
/-- LIH replaces bits [63:32] of SD with IMM[31:0]. -/
def execLih (c : Nat) (w : W64) (s : State) : Host.Outcome State Fault Refusal :=
  issueC 0x1D c w (fun x s =>
    let a := readS (getC s x.c) (csSD x.w)
    .ok (result s x.c x.d 1 (.s (csSD x.w)
      ⟨BitVec.ofNat 64 (a.v.toNat % 2 ^ 32 + wrap 32 (csImm x.w) * 2 ^ 32), a.p⟩))) s

/-- FADD and FMUL work on bits [31:0] as FP32 and zero-extend the result; NaN operands and a NaN that they generate count (R59,
R60, R82). -/
def scalarFp (op c : Nat) (w : W64) (f : FV → FV → FV) (made : FV → FV → Nat) (s : State) :
    Host.Outcome State Fault Refusal :=
  issueC op c w (fun x s =>
    let r := getC s x.c
    let a := readS r (csSA x.w)
    let b := readS r (csSB x.w)
    let av := f32Of (a.v.toNat % 2 ^ 32)
    let bv := f32Of (b.v.toNat % 2 ^ 32)
    let s := countNan s 1 ([av, bv].filter fun v => v.isNaN).length x.d x.u
    let s := countNan s 2 (made av bv) x.d x.u
    .ok (result s x.c x.d 4 (.s (csSD x.w) ⟨BitVec.ofNat 64 (f32Bits (f av bv)), a.p || b.p⟩))) s

def execFadd (c : Nat) (w : W64) (s : State) : Host.Outcome State Fault Refusal :=
  scalarFp 0x1E c w addFV (fun a b => addMade (some a) (some b)) s
def execFmul (c : Nat) (w : W64) (s : State) : Host.Outcome State Fault Refusal := scalarFp 0x1F c w mulF32 mulMade s

end Sys2Proof.Machine
end

