-- ==== Sys2Proof/Machine/ChamVec.lean ====
section
/-!
DEFINITION. The vector unit of a Chamois core (R185 to R190, R200): lanes under a predicate, packed BF16, compares,
reductions and the predicate operations.
-/
namespace Sys2Proof.Machine

/-- What one lane of a vector operation gives: its bits, its poison, the NaN operands it counts and the NaNs it makes. -/
structure LaneOut where
  bits : Nat
  p    : Bool
  nin  : Nat := 0
  made : Nat := 0

/-- A lane takes part where its predicate bit is 1 (R185). -/
def takesPart (pr : PReg) (i : Nat) : Bool := pr.v.toNat.testBit i

/-- A vector operation into v[VD]: the participating lanes are written, poisoned where an operand or the predicate bit is
poisoned, and count their NaNs (R185, R200). -/
def vecOp (op lat c : Nat) (w : W64) (f : Cham → Nat → Nat → LaneOut) (s : State) : Host.Outcome State Fault Refusal :=
  issueC op c w (fun x s =>
    let r := getC s x.c
    let pr := readPr r (cvPred x.w)
    let outs := (List.range 128).map fun i =>
      if takesPart pr i then f r x.w i else ({ bits := 0, p := false } : LaneOut)
    let s := countNan s 1 (sumNat (outs.map (·.nin))) x.d x.u
    let s := countNan s 2 (sumNat (outs.map (·.made))) x.d x.u
    let v := ofLanes (outs.map fun o => (o.bits, o.p))
    .ok (result s x.c x.d lat (.v (cvVD x.w) pr.v ⟨v.v, v.p ||| pr.p⟩))) s

/-- A BF16 element of a lane: 0 the low half, 1 the high half (R186). -/
def halfFV (n h : Nat) : FV := f32Of ((n >>> (16 * h)) % 2 ^ 16 * 2 ^ 16)
/-- The bits of an exact value rounded once to BF16. -/
def halfBits (v : FV) : Nat := f32Bits (roundBf16 v) >>> 16

/-- NaN operands among values. -/
def nanCount (l : List FV) : Nat := (l.filter fun v => v.isNaN).length

/-- A floating-point lane operation on operand bits: `f` is the exact result, rounded once to FP32, or with PK = 1 to
BF16 for each half (R185, R186). -/
def fpLane (pk : Bool) (f : List FV → FV) (made : List FV → Nat) (ops : List Nat) (p : Bool) : LaneOut :=
  if pk then
    let lo := ops.map fun n => halfFV n 0
    let hi := ops.map fun n => halfFV n 1
    { bits := halfBits (f lo) + halfBits (f hi) * 2 ^ 16, p := p, nin := nanCount lo + nanCount hi,
      made := made lo + made hi }
  else
    let vs := ops.map f32Of
    { bits := f32Bits (roundF32 (f vs)), p := p, nin := nanCount vs, made := made vs }

/-- Operand a, b, c of a list. -/
def opA (l : List FV) : FV := l.getD 0 FV.zero
def opB (l : List FV) : FV := l.getD 1 FV.zero
def opC (l : List FV) : FV := l.getD 2 FV.zero

/-- One source operand. -/
def unaryFp (op lat c : Nat) (w : W64) (f : FV → FV) (made : FV → Nat) (s : State) : Host.Outcome State Fault Refusal :=
  vecOp op lat c w (fun r w i =>
    let a := readV r (cvVA w)
    fpLane (cvPK w) (fun l => f (opA l)) (fun l => made (opA l)) [laneBitsOf a i] (a.p.toNat.testBit i)) s

/-- Two source operands. -/
def binaryFp (op lat c : Nat) (w : W64) (f : FV → FV → FV) (made : FV → FV → Nat) (s : State) :
    Host.Outcome State Fault Refusal :=
  vecOp op lat c w (fun r w i =>
    let a := readV r (cvVA w)
    let b := readV r (cvVB w)
    fpLane (cvPK w) (fun l => f (opA l) (opB l)) (fun l => made (opA l) (opB l)) [laneBitsOf a i, laneBitsOf b i]
      (a.p.toNat.testBit i || b.p.toNat.testBit i)) s

/-- Three source operands. -/
def ternaryFp (op lat c : Nat) (w : W64) (f : FV → FV → FV → FV) (made : FV → FV → FV → Nat) (s : State) :
    Host.Outcome State Fault Refusal :=
  vecOp op lat c w (fun r w i =>
    let a := readV r (cvVA w)
    let b := readV r (cvVB w)
    let d := readV r (cvVC w)
    fpLane (cvPK w) (fun l => f (opA l) (opB l) (opC l)) (fun l => made (opA l) (opB l) (opC l))
      [laneBitsOf a i, laneBitsOf b i, laneBitsOf d i]
      (a.p.toNat.testBit i || b.p.toNat.testBit i || d.p.toNat.testBit i)) s

def made2 (a b : FV) : Nat := addMade (some a) (some b)

def execVadd (c : Nat) (w : W64) (s : State) : Host.Outcome State Fault Refusal := binaryFp 0x20 4 c w addExact made2 s
def execVsub (c : Nat) (w : W64) (s : State) : Host.Outcome State Fault Refusal :=
  binaryFp 0x21 4 c w (fun a b => addExact a b.negate) (fun a b => made2 a b.negate) s
def execVmul (c : Nat) (w : W64) (s : State) : Host.Outcome State Fault Refusal := binaryFp 0x22 4 c w mulExact mulMade s
/-- VFMA: add of the exact product and vc, one rounding. -/
def execVfma (c : Nat) (w : W64) (s : State) : Host.Outcome State Fault Refusal :=
  ternaryFp 0x23 4 c w (fun a b d => addExact (mulExact a b) d) (fun a b d => mulMade a b + made2 (mulExact a b) d) s
/-- VMAC: the product is rounded first. -/
def execVmac (c : Nat) (w : W64) (s : State) : Host.Outcome State Fault Refusal :=
  ternaryFp 0x24 8 c w (fun a b d => addExact d (mulF32 a b)) (fun a b d => mulMade a b + made2 d (mulF32 a b)) s
/-- VSMD: va × add(vb, −vc). -/
def execVsmd (c : Nat) (w : W64) (s : State) : Host.Outcome State Fault Refusal :=
  ternaryFp 0x25 8 c w (fun a b d => mulExact a (addFV b d.negate))
    (fun a b d => made2 b d.negate + mulMade a (addFV b d.negate)) s
def execVmax (c : Nat) (w : W64) (s : State) : Host.Outcome State Fault Refusal :=
  binaryFp 0x26 4 c w maxFV (fun _ _ => 0) s
def execVmin (c : Nat) (w : W64) (s : State) : Host.Outcome State Fault Refusal :=
  binaryFp 0x27 4 c w minFV (fun _ _ => 0) s
def execVabs (c : Nat) (w : W64) (s : State) : Host.Outcome State Fault Refusal :=
  unaryFp 0x28 4 c w FV.abs (fun _ => 0) s
def execVneg (c : Nat) (w : W64) (s : State) : Host.Outcome State Fault Refusal :=
  unaryFp 0x29 4 c w FV.negate (fun _ => 0) s

/-- A result that is NaN though no operand was: 0D30h.02 (R185). -/
def madeNan (ops : List FV) (r : FV) : Nat := if r.isNaN && !(ops.any (·.isNaN)) then 1 else 0

def execVdiv (c : Nat) (w : W64) (s : State) : Host.Outcome State Fault Refusal :=
  binaryFp 0x2A 16 c w divFV (fun a b => madeNan [a, b] (divFV a b)) s
def execVsqrt (c : Nat) (w : W64) (s : State) : Host.Outcome State Fault Refusal :=
  unaryFp 0x2B 16 c w sqrtFV (fun a => madeNan [a] (sqrtFV a)) s
def execVrsqrt (c : Nat) (w : W64) (s : State) : Host.Outcome State Fault Refusal :=
  unaryFp 0x2C 16 c w rsqrtFV (fun a => madeNan [a] (rsqrtFV a)) s
/-- VFN: the activation that AUX names (R142). -/
def execVfn (c : Nat) (w : W64) (s : State) : Host.Outcome State Fault Refusal :=
  unaryFp 0x2D 16 c w (activation (cvAux w.toNat)) (fun _ => 0) s

/-! ### Compares and selection (R188, R185) -/

/-- A compare into p[PD]: a poisoned lane writes 0 and a poison mark; `nin` counts a lane's NaN operands (R185, R188, R200). -/
def cmpOp (op c : Nat) (w : W64) (f : Nat → Nat → Nat → Bool) (nin : Nat → Nat → Nat) (s : State) : Host.Outcome State Fault Refusal :=
  issueC op c w (fun x s =>
    let r := getC s x.c
    let pr := readPr r (cvPred x.w)
    let a := readV r (cvVA x.w)
    let b := readV r (cvVB x.w)
    let pz := a.p ||| b.p
    let lanes := (List.range 128).filter (takesPart pr)
    let s := countNan s 1 (sumNat (lanes.map fun i => nin (laneBitsOf a i) (laneBitsOf b i))) x.d x.u
    let v := (List.range 128).foldl (fun (n : Nat) i =>
      if !pz.toNat.testBit i && f (cvCond x.w) (laneBitsOf a i) (laneBitsOf b i) then n + 2 ^ i else n) 0
    .ok (result s x.c x.d 2 (.p (cvPD x.w) pr.v ⟨BitVec.ofNat 128 v, pz ||| pr.p⟩))) s

/-- The floating-point comparisons (R188). -/
def fpCompare (cond a b : Nat) : Bool :=
  let x := f32Of a
  let y := f32Of b
  let un := x.isNaN || y.isNaN
  match cond with
  | 0 => eqFV x y
  | 1 => un || !eqFV x y
  | 2 => ltFV x y
  | 3 => !un && !ltFV y x
  | 4 => ltFV y x
  | 5 => !un && !ltFV x y
  | _ => un

/-- The integer comparisons (R188). -/
def intCompare (cond a b : Nat) : Bool :=
  let x := sext 32 a
  let y := sext 32 b
  match cond with
  | 0 => decide (x = y)
  | 1 => decide (x ≠ y)
  | 2 => decide (x < y)
  | 3 => decide (x ≤ y)
  | 4 => decide (y < x)
  | _ => decide (y ≤ x)

def execVcmp (c : Nat) (w : W64) (s : State) : Host.Outcome State Fault Refusal := 
  cmpOp 0x2E c w fpCompare (fun a b => nanCount [f32Of a, f32Of b]) s
def execVicmp (c : Nat) (w : W64) (s : State) : Host.Outcome State Fault Refusal := 
  cmpOp 0x38 c w intCompare (fun _ _ => 0) s

/-- VSEL writes every lane: va where the predicate bit is 1, vb where it is 0 (R185). -/
def execVsel (c : Nat) (w : W64) (s : State) : Host.Outcome State Fault Refusal :=
  issueC 0x2F c w (fun x s =>
    let r := getC s x.c
    let pr := readPr r (cvPred x.w)
    let a := readV r (cvVA x.w)
    let b := readV r (cvVB x.w)
    let v := ofLanes ((List.range 128).map fun i =>
      let y := if takesPart pr i then a else b
      (laneBitsOf y i, y.p.toNat.testBit i || pr.p.toNat.testBit i))
    .ok (result s x.c x.d 4 (.v (cvVD x.w) (BitVec.allOnes 128) v))) s

/-! ### Integer lanes (R190) -/

/-- An INT32 lane operation modulo 2^32. -/
def intOp (op c : Nat) (w : W64) (f : W32 → W32 → W32) (s : State) : Host.Outcome State Fault Refusal :=
  vecOp op 4 c w (fun r w i =>
    let a := readV r (cvVA w)
    let b := readV r (cvVB w)
    { bits := (f (BitVec.ofNat 32 (laneBitsOf a i)) (BitVec.ofNat 32 (laneBitsOf b i))).toNat,
      p := a.p.toNat.testBit i || b.p.toNat.testBit i }) s

def execViadd (c : Nat) (w : W64) (s : State) : Host.Outcome State Fault Refusal := intOp 0x30 c w (· + ·) s
def execVisub (c : Nat) (w : W64) (s : State) : Host.Outcome State Fault Refusal := intOp 0x31 c w (· - ·) s
def execVimul (c : Nat) (w : W64) (s : State) : Host.Outcome State Fault Refusal := intOp 0x32 c w (· * ·) s
def execVand (c : Nat) (w : W64) (s : State) : Host.Outcome State Fault Refusal := intOp 0x33 c w (· &&& ·) s
def execVor (c : Nat) (w : W64) (s : State) : Host.Outcome State Fault Refusal := intOp 0x34 c w (· ||| ·) s
def execVxor (c : Nat) (w : W64) (s : State) : Host.Outcome State Fault Refusal := intOp 0x35 c w (· ^^^ ·) s
def execVshl (c : Nat) (w : W64) (s : State) : Host.Outcome State Fault Refusal :=
  intOp 0x36 c w (fun a b => a <<< (b.toNat % 32)) s
def execVshr (c : Nat) (w : W64) (s : State) : Host.Outcome State Fault Refusal :=
  intOp 0x37 c w (fun a b => a >>> (b.toNat % 32)) s

/-- FP32 to INT32, saturating; NaN gives 0 (R190). -/
def toInt32 (rtz : Bool) (v : FV) : Nat :=
  match v with
  | .nan => 0
  | .inf s => if s then 2 ^ 31 else 2 ^ 31 - 1
  | .fin s m e =>
    let k := roundQ (if rtz then .rtz else .rne) m e 0
    if s then wrap 32 (-(min k (2 ^ 31) : Nat)) else min k (2 ^ 31 - 1)

/-- VCVTFI: a NaN gives 0 and is counted lost, or raises fault 14h under numeric.nan_policy 01h and nothing is written
(R190, R200). -/
def execVcvtfi (c : Nat) (w : W64) (s : State) : Host.Outcome State Fault Refusal :=
  issueC 0x39 c w (fun x s =>
    let r := getC s x.c
    let pr := readPr r (cvPred x.w)
    let a := readV r (cvVA x.w)
    let nans := (List.range 128).filter fun i => takesPart pr i && (lanePV a i).v.isNaN
    let s := countNan s 1 nans.length x.d x.u
    if nanPolicy s == 1 && !nans.isEmpty then .faultD 0x14 (nans.headD 0) 0 s
    else
      let s := incP s (pk 0x0D40 3) nans.length
      let v := ofLanes ((List.range 128).map fun i => (toInt32 (cvAux x.w == 1) (lanePV a i).v, (lanePV a i).p))
      .ok (result s x.c x.d 4 (.v (cvVD x.w) pr.v ⟨v.v, v.p ||| pr.p⟩))) s

/-- VCVTIF: INT32 to FP32 by RNE. -/
def execVcvtif (c : Nat) (w : W64) (s : State) : Host.Outcome State Fault Refusal :=
  vecOp 0x3A 4 c w (fun r w i =>
    let a := readV r (cvVA w)
    { bits := f32Bits (roundF32 (intFV (sext 32 (laneBitsOf a i)))), p := a.p.toNat.testBit i }) s

/-- VBCAST writes s[S][31:0] into each participating lane. -/
def execVbcast (c : Nat) (w : W64) (s : State) : Host.Outcome State Fault Refusal :=
  vecOp 0x3B 4 c w (fun r w _ =>
    let a := readS r (cvS w)
    { bits := a.v.toNat % 2 ^ 32, p := a.p }) s

/-- VLANE writes the lane number. -/
def execVlane (c : Nat) (w : W64) (s : State) : Host.Outcome State Fault Refusal :=
  vecOp 0x3C 4 c w (fun _ _ i => { bits := i, p := false }) s

/-! ### Reductions (R189) -/

/-- One level of a balanced tree: node m combines nodes 2m and 2m + 1; `f` also gives the NaNs made. -/
def redLevel (f : Option FV → Option FV → Option FV × Nat) : List (Option FV) → List (Option FV) × Nat
  | a :: b :: r =>
    let (x, n) := f a b
    let (xs, m) := redLevel f r
    (x :: xs, n + m)
  | l => (l, 0)

/-- The seven levels over 128 lanes. -/
def redFold (f : Option FV → Option FV → Option FV × Nat) : Nat → List (Option FV) → Option FV × Nat
  | 0, l => (l.headD none, 0)
  | k + 1, l =>
    let (l', n) := redLevel f l
    let (x, m) := redFold f k l'
    (x, n + m)

/-- A reduction of the participating lanes of va into s[S]. -/
def reduceOp (op c : Nat) (w : W64) (f : Option FV → Option FV → Option FV × Nat) (empty : FV) (s : State) :
    Host.Outcome State Fault Refusal :=
  issueC op c w (fun x s =>
    let r := getC s x.c
    let pr := readPr r (cvPred x.w)
    let a := readV r (cvVA x.w)
    let leaves := (List.range 128).map fun i => if takesPart pr i then some (lanePV a i).v else none
    let (v, made) := redFold f 7 leaves
    let s := countNan s 1 (nanCount (leaves.filterMap id)) x.d x.u
    let s := countNan s 2 made x.d x.u
    let p := decide ((a.p &&& pr.v) ≠ 0) || decide (pr.p ≠ 0)
    .ok (result s x.c x.d 10 (.s (cvS x.w) ⟨BitVec.ofNat 64 (f32Bits (v.getD empty)), p⟩))) s

def execVrsum (c : Nat) (w : W64) (s : State) : Host.Outcome State Fault Refusal :=
  reduceOp 0x3D c w (fun a b => (addOpt a b, addMade a b)) FV.zero s
def execVrmax (c : Nat) (w : W64) (s : State) : Host.Outcome State Fault Refusal :=
  reduceOp 0x3E c w (fun a b => (match a, b with
    | none, y => y
    | x, none => x
    | some x, some y => some (maxFV x y), 0)) (.inf true) s

/-! ### Predicates (R188) -/

/-- A predicate operation: bit by bit, not predicated. -/
def predOp (op c : Nat) (w : W64) (f : W128 → W128 → W128) (two : Bool) (s : State) : Host.Outcome State Fault Refusal :=
  issueC op c w (fun x s =>
    let r := getC s x.c
    let a := readPr r (cvPA x.w)
    let b := readPr r (cvPB x.w)
    .ok (result s x.c x.d 2 (.p (cvPD x.w) (BitVec.allOnes 128) ⟨f a.v b.v, if two then a.p ||| b.p else a.p⟩))) s

def execPand (c : Nat) (w : W64) (s : State) : Host.Outcome State Fault Refusal := predOp 0x40 c w (· &&& ·) true s
def execPor (c : Nat) (w : W64) (s : State) : Host.Outcome State Fault Refusal := predOp 0x41 c w (· ||| ·) true s
def execPxor (c : Nat) (w : W64) (s : State) : Host.Outcome State Fault Refusal := predOp 0x42 c w (· ^^^ ·) true s
def execPnot (c : Nat) (w : W64) (s : State) : Host.Outcome State Fault Refusal :=
  predOp 0x43 c w (fun a _ => ~~~a) false s

end Sys2Proof.Machine
end

