-- ==== Sys2Proof/Machine/ChamMem.lean ====
section
/-!
DEFINITION. The issue of a Chamois core's memory instructions: loads and stores (R192), the block unit (R193 to R196), the narrow
path (R197, R198), transfers and the Stash (R199). The cycles of their accesses stand in Jobs.lean.
-/
namespace Sys2Proof.Machine

/-- Lines of Chamois core memory (R175). -/
def chamLines : Nat := 0x20000
/-- Bytes of it. -/
def chamBytes : Nat := 64 * chamLines

/-- Queue the accesses of an instruction: `count` of them, the first `lat` cycles after issue (R201). -/
def addJob (x : CCtx) (kind : CKind) (lat count : Nat) (addrs : List Nat) (f : CJob → CJob) (s : State) : State :=
  let r := getC s x.c
  let j : CJob := { kind := kind, at_ := (getD s x.d).dcc + lat, count := count, word := x.w, offset := x.off, tag := x.tag,
                    addrs := addrs, pol := nanPolicy s }
  setC s x.c { r with jobs := r.jobs ++ [f j] }

/-! ### Loads and stores (R192) -/

/-- A base register plus a signed offset, modulo 2^64. -/
def baseOff (b : SReg) (off : Int) : Nat := wrap 64 ((b.v.toNat : Int) + off)

/-- The lines of VLD and VST, with the checks of R184. -/
def lineAddr (x : CCtx) (s : State) (k : Nat → CEff) : CEff :=
  let b := readS (getC s x.c) (cmSB x.w)
  let ea := baseOff b (cmOff x.w)
  if b.p then .poison else if chamLines < ea + 8 then .fault 0x12 else k ea

/-- The byte address of LDS and STS, with the checks of R184. -/
def scalarAddr (x : CCtx) (s : State) (k : Nat → CEff) : CEff :=
  let b := readS (getC s x.c) (cmSB x.w)
  let a := baseOff b (8 * cmOff x.w)
  if b.p then .poison else if a % 8 ≠ 0 || chamBytes < a + 8 then .fault 0x12 else k a

/-- VLD: lines EA to EA + 7 with their marks, in the cycle after issue. -/
def fxVld (x : CCtx) (s : State) : CEff := lineAddr x s fun ea => .ok (addJob x .vld 1 1 [ea] id s)

/-- VST: the lanes that its predicate selects, two cycles after issue. A lane under a poisoned predicate bit is written
poisoned (R200). -/
def fxVst (x : CCtx) (s : State) : CEff :=
  lineAddr x s fun ea =>
    let r := getC s x.c
    let v := readV r (cmReg x.w % 32)
    let pr := readPr r (cmPred x.w)
    let runs := ((List.range 128).filter (takesPart pr)).map fun i =>
      (64 * ea + 4 * i, (leBytes 4 (laneBitsOf v i)).map fun y => (y, v.p.toNat.testBit i || pr.p.toNat.testBit i))
    .ok (addJob x .store 2 1 [] (fun j => { j with runs := runs }) s)

/-- LDS: a 64-bit little-endian word, in the cycle after issue. -/
def fxLds (x : CCtx) (s : State) : CEff := scalarAddr x s fun a => .ok (addJob x .lds 1 1 [a] id s)

/-- STS, two cycles after issue. -/
def fxSts (x : CCtx) (s : State) : CEff :=
  scalarAddr x s fun a =>
    let v := readS (getC s x.c) (cmReg x.w)
    .ok (addJob x .store 2 1 [] (fun j => { j with runs := [(a, (leBytes 8 v.v.toNat).map fun y => (y, v.p))] }) s)

def execVld (c : Nat) (w : W64) (s : State) : Host.Outcome State Fault Refusal := issueC 0x48 c w fxVld s
def execVst (c : Nat) (w : W64) (s : State) : Host.Outcome State Fault Refusal := issueC 0x49 c w fxVst s
def execLds (c : Nat) (w : W64) (s : State) : Host.Outcome State Fault Refusal := issueC 0x4A c w fxLds s
def execSts (c : Nat) (w : W64) (s : State) : Host.Outcome State Fault Refusal := issueC 0x4B c w fxSts s

/-! ### The block unit (R193 to R196) -/

/-- The first lines of the tile images of a block-unit instruction: one in row mode, two in column mode; none when a
register is poisoned. -/
def tileLinesC (x : CCtx) (s : State) : Option (List Nat) :=
  let r := getC s x.c
  let b := readS r (cbSB x.w)
  let st := readS r (cbSS x.w)
  if b.p || (cbCols x.w && st.p) then none
  else
    let l := b.v.toNat + cbOff x.w
    some (if cbCols x.w then [l, wrap 64 ((l : Int) + st.v.toNat)] else [l])

/-- An image leaves core memory. -/
def imageBad (f : Nat) (ls : List Nat) : Bool := ls.any fun l => decide (chamLines < l + imageLines f)

/-- TRD: a row pair in two cycles, or a column of two tiles in sixteen (R193, R201). -/
def fxTrd (x : CCtx) (s : State) : CEff :=
  match tileLinesC x s with
  | none => .poison
  | some ls =>
    if imageBad (cbFmt x.w) ls then .fault 0x12 else .ok (addJob x .trd 1 (if cbCols x.w then 16 else 2) ls id s)

/-- The conversion key of TWR and SFACC (R194). -/
structure CKey where
  grad   : Bool
  strand : Nat
  tensor : Nat
  width  : Nat
  base   : Nat
  bad    : Bool
  p      : Bool

def keyOf (x : CCtx) (s : State) : CKey :=
  let r := getC s x.c
  let a := readS r (2 * cbRK x.w)
  let b := readS r (2 * cbRK x.w + 1)
  let n := a.v.toNat
  let m := b.v.toNat
  { grad := bit n 23, strand := bits n 22 20, tensor := bits n 19 0, width := bits m 58 35, base := bits m 34 0,
    bad := decide (bits n 63 24 ≠ 0) || decide (bits m 63 59 ≠ 0), p := a.p || b.p }

/-- What a TWR or SFACC latches at issue: its key with the strand's RNG step, and its lanes (R131, R194). -/
def latchKey (s : State) (k : CKey) (v : VReg) (j : CJob) : CJob :=
  { j with tensor := k.tensor, strand := k.strand, step := rngStep s k.strand, width := k.width, base := k.base,
           vals := (List.range 128).map fun i => (laneBitsOf v i, v.p.toNat.testBit i) }

/-- The NaNs among the lanes, and the first lane that holds one. -/
def nanLanes (v : VReg) : List Nat := (List.range 128).filter fun i => (lanePV v i).v.isNaN

/-- TWR: the lanes converted into a row pair ten cycles after issue, or into a column of two tiles from then on. Its conversions
are counted at issue, and a NaN that one would lose under policy 01h faults there (R52, R195, R200, R201). -/
def fxTwr (x : CCtx) (s : State) : CEff :=
  let f := cbFmt x.w
  let k := keyOf x s
  let cols := cbCols x.w
  if k.bad then .fault 2
  else if (cols && decide (0x0E ≤ f)) || (k.grad && !floorOk s f) then .fault 3
  else match tileLinesC x s with
  | none => .poison
  | some ls =>
    if k.p then .poison
    else if imageBad f ls then .fault 0x12
    else
      let v := readV (getC s x.c) (cbV x.w)
      let s := countNan s 1 (nanLanes v).length x.d x.u
      let latch (j : CJob) : CJob := latchKey s k v j
      let j := latch { kind := .twr, at_ := 0, count := 0, word := x.w, offset := x.off, addrs := ls }
      let outs := (twrOut s j (fun _ _ => 0) (List.range 128)).map (·.2)
      if losesNan (nanPolicy s) outs then .faultD 0x14 (laneIndex k.width k.base cols ((nanLanes v).headD 0)) 0 s
      else .ok (addJob x .twr 10 (if cols then 16 else 1) ls latch (countConv s k.tensor outs))

/-- SFACC: the row pair is read in the first two cycles, the lanes are added, and the blocks are encoded again, fourteen cycles
after issue (R173, R196, R201). Format B has no predicate, so every lane takes part. -/
def fxSfacc (x : CCtx) (s : State) : CEff :=
  let k := keyOf x s
  if k.bad then .fault 2
  else if cbFmt x.w ≠ 0x16 || (k.grad && !floorOk s 0x16) then .fault 3
  else match tileLinesC x s with
  | none => .poison
  | some ls =>
    if k.p then .poison
    else if imageBad 0x16 ls then .fault 0x12
    else .ok (addJob x .sfacc 1 3 ls (latchKey s k (readV (getC s x.c) (cbV x.w))) s)

def execTrd (c : Nat) (w : W64) (s : State) : Host.Outcome State Fault Refusal := issueC 0x50 c w fxTrd s
def execTwr (c : Nat) (w : W64) (s : State) : Host.Outcome State Fault Refusal := issueC 0x51 c w fxTwr s
def execSfacc (c : Nat) (w : W64) (s : State) : Host.Outcome State Fault Refusal := issueC 0x52 c w fxSfacc s

/-! ### The narrow path (R197, R198) -/

/-- The granules of an NGATH or NSCAT: virtual and local byte addresses, by lane, then granule (R197). -/
def granulesOf (w : Nat) (vi : VReg) (sb st sl : Nat) : List (Nat × Nat) :=
  let g := cnGran1 w + 1
  (List.range (cnCount1 w + 1)).flatMap fun i =>
    let ix := laneBitsOf vi i
    if cnSkip w && bit ix 31 then []
    else (List.range g).map fun j => ((sb + ix * st + 32 * j) % 2 ^ 48, sl + 32 * (i * g + j))

/-- Queue the mesh unit's reads of an operation that sends what it reads, if there are any (R201). -/
def meshJob (x : CCtx) (count : Nat) (addrs : List Nat) (s : State) : State :=
  if count == 0 then s else addJob x .mesh 1 count addrs id s

/-- NGATH and NSCAT (R197). -/
def fxNarrow (kind : XKind) (x : CCtx) (s : State) : CEff :=
  let w := x.w
  let r := getC s x.c
  let sb := readS r (cnSB w)
  let st := readS r (cnSS w)
  let sl := readS r (cnSL w)
  if sb.p || st.p || sl.p then .poison
  else if sb.v.toNat % 32 ≠ 0 || st.v.toNat % 32 ≠ 0 || sl.v.toNat % 32 ≠ 0 ||
      chamBytes < sl.v.toNat + 32 * ((cnCount1 w + 1) * (cnGran1 w + 1)) then .fault 0x12
  else
    let gs := granulesOf w (readV r (cnVI w)) sb.v.toNat st.v.toNat sl.v.toNat
    let t : Option (Nat × Nat) := (tokOf (cnTokenEn w) (cnToken w)).map fun t => (posOf x.u, t)
    let f : Xfer := ⟨x.u, 2, x.tag, x.d, kind, gs.length, 0, 0, 0, 0, 0, 0, t, gs, [], none, w, x.off, s.ctc⟩
    .ok (if kind == .nscat then meshJob x gs.length (gs.map (·.2)) (addXfer s f) else startXfer s f [])

def execNgath (c : Nat) (w : W64) (s : State) : Host.Outcome State Fault Refusal := issueC 0x58 c w (fxNarrow .ngath) s
def execNscat (c : Nat) (w : W64) (s : State) : Host.Outcome State Fault Refusal := issueC 0x59 c w (fxNarrow .nscat) s

/-! ### Transfers (R199) -/

/-- The registers of a transfer: its local line, its remote line or address where it has one, and its length; a poisoned one of
them is a fault, and so is a length of 0 (R184). -/
def transferRegs (x : CCtx) (s : State) (sr : Bool) (k : Nat → Nat → Nat → CEff) : CEff :=
  let r := getC s x.c
  let sl := readS r (ctSL x.w)
  let rr := readS r (ctSR x.w)
  let sn := readS r (ctSN x.w)
  if sl.p || sn.p || (sr && rr.p) then .poison
  else if sn.v.toNat == 0 then .fault 2
  else k sl.v.toNat rr.v.toNat sn.v.toNat

/-- The local range of a transfer leaves the core's memory. -/
def localBad (line n : Nat) : Bool := decide (chamLines < line + n)

/-- MLD and MST: device addresses are multiples of 64. -/
def fxMlong (kind : XKind) (x : CCtx) (s : State) : CEff :=
  transferRegs x s true fun sl va n =>
    if localBad sl n || va % 64 ≠ 0 then .fault 0x12
    else
      let f := longXfer s x.u 2 x.tag x.d kind va sl n ((tokOf (ctTokenEn x.w) (ctToken x.w)).map fun t => (posOf x.u, t)) x.w x.off
      .ok (if kind == .tst then meshJob x n [sl] (addXfer s f) else startXfer s f [])

/-- MPUT and MGET. -/
def fxMcore (put : Bool) (x : CCtx) (s : State) : CEff :=
  transferRegs x s true fun sl rl n =>
    if localBad sl n || targetBad (ctPos x.w) rl n then .fault 0x12
    else
      let f := coreXfer s x.u 2 x.tag x.d put (ctPos x.w) sl rl n (tokOf (ctTokenEn x.w) (ctToken x.w)) x.w x.off
      .ok (if put then meshJob x n [sl] (addXfer s f) else startXfer s f [])

/-- MRSEND. -/
def fxMrsend (x : CCtx) (s : State) : CEff :=
  transferRegs x s false fun sl _ n =>
    if localBad sl n || !treeOk s x.u (ctTree x.w) then .fault 0x12
    else
      let (f, s) := redXfer s x.u 2 x.tag x.d (ctTree x.w) sl n x.w x.off
      .ok (meshJob x n [sl] (addXfer s { f with tok := (tokOf (ctTokenEn x.w) (ctToken x.w)).map fun t => (posOf x.u, t) }))

def execMld (c : Nat) (w : W64) (s : State) : Host.Outcome State Fault Refusal := issueC 0x60 c w (fxMlong .tld) s
def execMst (c : Nat) (w : W64) (s : State) : Host.Outcome State Fault Refusal := issueC 0x61 c w (fxMlong .tst) s
def execMput (c : Nat) (w : W64) (s : State) : Host.Outcome State Fault Refusal := issueC 0x62 c w (fxMcore true) s
def execMget (c : Nat) (w : W64) (s : State) : Host.Outcome State Fault Refusal := issueC 0x63 c w (fxMcore false) s
def execMrsend (c : Nat) (w : W64) (s : State) : Host.Outcome State Fault Refusal := issueC 0x64 c w fxMrsend s

/-! ### The Stash (R199) -/

/-- The registers of CPUSH and CPOP, with the checks of R184. -/
def stashRegs (x : CCtx) (s : State) (k : Nat → Nat → CEff) : CEff :=
  let r := getC s x.c
  let sl := readS r (ckSL x.w)
  let sk := readS r (ckSK x.w)
  if 2 ^ 16 ≤ sk.v.toNat then .fault 2
  else if sl.p || sk.p then .poison
  else if localBad sl.v.toNat (ckCount x.w * imageLines (ckFmt x.w)) || !ownsStrand s x.d (ckStrand x.w) then .fault 0x12
  else k sl.v.toNat sk.v.toNat

/-- CPUSH: its entries take their places on the lane, and their images follow as the mesh unit reads their lines. -/
def fxCpush (x : CCtx) (s : State) : CEff :=
  stashRegs x s fun sl sk =>
    let st := ckStrand x.w
    let n := imageLines (ckFmt x.w)
    match stashFull s x.u st n (ckCount x.w) with
    | some (a, b) => .faultD 5 a b s
    | none =>
      .ok (meshJob x (ckCount x.w * n) [sl] (beginPush (notePush s x.u st n (ckCount x.w)) x.u 2 x.d x.tag st sk (ckFmt x.w)
        (dataStep s st) x.w x.off (ckCount x.w) .spush))

/-- CPOP: its token is added when its last tile is written. -/
def fxCpop (x : CCtx) (s : State) : CEff :=
  stashRegs x s fun sl sk =>
    .ok (popTiles s x.u 2 x.d x.tag (ckStrand x.w) sk (ckFmt x.w) (ckCount x.w) sl x.w x.off
      ((tokOf (ckTokenEn x.w) (ckToken x.w)).map fun t => (posOf x.u, t)))

def execCpush (c : Nat) (w : W64) (s : State) : Host.Outcome State Fault Refusal := issueC 0x68 c w fxCpush s
def execCpop (c : Nat) (w : W64) (s : State) : Host.Outcome State Fault Refusal := issueC 0x69 c w fxCpop s

end Sys2Proof.Machine
end

