-- ==== Sys2Proof/Machine/Flags.lean ====
section
/-!
DEFINITION. The flags of the block that are computed from its state: readiness (R385, R387), the open-drain pins FAULT_L,
ALERT_L and THERMTRIP_L (R229, R377, R378, R388, R464), and the state conditions that writes are checked against.
The block has no processor's flags; its per-unit status lives in the fields of State.
-/
namespace Sys2Proof.Machine

/-- Bits of 0400h.01 (R385). -/
def bBoot : Nat := 0
def bHost : Nat := 1
def bGauge : Nat := 2
def bPtp : Nat := 3
def bConfig : Nat := 4
def bMesh : Nat := 5
def bDma : Nat := 6
def bColl : Nat := 7
def bLoad : Nat := 8
def bHbm (st : Nat) : Nat := 16 + st
def bPort (n : Nat) : Nat := 24 + n

/-- A readiness bit is set (R385). -/
def isReady (s : State) (b : Nat) : Bool := bit (getP s (pk 0x0400 1)) b
/-- A function has failed in this start (R385). -/
def isFailed (s : State) (b : Nat) : Bool := bit (getP s (pk 0x0400 2)) b
/-- Every HBM bit is set. -/
def allHbm (s : State) : Bool := (List.range 8).all fun st => isReady s (bHbm st)

/-- The bit that governs writes to an index is set (R387). -/
def gateOk (s : State) (key : Nat) : Bool :=
  let i := key / 256
  let g := i / 256
  if g == 6 then isReady s bLoad
  else if g == 7 then (if i == 0x0730 then isReady s bDma else isReady s bLoad)
  else if g == 8 then allHbm s
  else if g == 9 then isReady s bMesh
  else if 0x0A10 ≤ i && i ≤ 0x0A1F then isReady s (bPort (i - 0x0A10))
  else if g == 0xB then isReady s bColl
  else if g == 0x10 then isReady s bGauge
  else isReady s bHost

/-- FAULT_L is driven low: before BOOT, after BOOT or HOST has failed, or with a fault record unacknowledged (R229, R386,
R388). -/
def faultLow (s : State) : Bool := !isReady s bBoot || s.boot.faultLow || s.unacked.any fun x => x.2 == 1

/-- ALERT_L is asserted: the OR of its causes (R241, R352, R374, R377, R392). -/
def alertLow (s : State) : Bool :=
  s.clk.alertTherm || s.clk.alertAvs || s.boot.alertTest || decide (getP s (pk 0x0902 2) ≠ 0) ||
    s.snap.doms.any fun x => x.2.alert

/-- THERMTRIP_L is asserted (R378). -/
def thermtripLow (s : State) : Bool := s.clk.thermtrip

/-- A domain is RUNNING or in PAGE_HALT. -/
def domRuns (s : State) (d : Nat) : Bool := decide (d < 8) && (getD s d).st.runs

/-- Every domain is EMPTY. -/
def allEmpty (s : State) : Bool := (List.range 8).all fun d => (getD s d).st == .empty

/-- The result of a dictionary write: its status, and the state where the status is 00h (R425). -/
def wrote (s : State) (st : Nat) (s' : State) : State :=
  if st == 0 then { s' with wstatus := 0 } else { s with wstatus := st }

/-- A write to a parameter that no table defines draws 01h, one to the sub 00h of a record or to another read-only sub 02h
(R410, R412, R425). -/
def noParam (s : State) (readOnly : Bool) : State := { s with wstatus := if readOnly then 2 else 1 }

/-- A write under the readiness of its group: `f` gives its status and its effect; a value that passes its other checks
draws 05h while the function is not ready (R387, R425). -/
def gated (s : State) (key : Nat) (f : State → Nat × State) : State :=
  let (st, s') := f s
  wrote s (if st == 0 && !gateOk s key then 5 else st) s'

end Sys2Proof.Machine
end

