-- ==== Sys2Proof/Machine/Hms.lean ====
section
/-!
DEFINITION. Sending on a port, and the host memory service (R456, R457): the frames, the flows of which the device is the
sender, and the requests that it serves into its receive regions (R350).
-/
namespace Sys2Proof.Machine

/-! ### Ports -/

/-- The host port's number in commands; fabric port Pn is n (R446). -/
def hostPort : Nat := 16

/-- The key of a port parameter (R459). -/
def portKey (port sub : Nat) : Nat := if port == hostPort then pk 0x0A01 sub else pk (0x0A10 + port) sub

/-- The UNIT of a port (R227, R446). -/
def portUnit (port : Nat) : Nat := if port == hostPort then 0x300 else 0x310 + port

/-- The port number of a peer entry's or of ptp.port's code. -/
def portOfCode (v : Nat) : Nat := if v == 0x10 then hostPort else v

def getPort (s : State) (p : Nat) : PortSt := SMap.get {} s.ports.port p
def setPort (s : State) (p : Nat) (v : PortSt) : State :=
  { s with ports := { s.ports with port := SMap.set {} s.ports.port p v } }
def getFlow (s : State) (fl : Nat) : HFlow := SMap.get {} s.ports.flows fl
def setFlow (s : State) (fl : Nat) (v : HFlow) : State :=
  { s with ports := { s.ports with flows := SMap.set {} s.ports.flows fl v } }

/-- The largest packet number of the MACsec cipher suite in force (R407). -/
def pnLimit (s : State) : Nat := if getP s (pk 0x0530 2) == 1 then 2 ^ 64 - 1 else 2 ^ 32 - 1

/-- A frame takes a MACsec packet number on the host port in modes 01h and 02h; with the range exhausted nothing is sent
(R407). -/
def takePn (s : State) : Option State :=
  if getP s (pk 0x0530 1) == 0 then some s
  else
    let n := getP s (pk 0x0530 8)
    if pnLimit s < n then none
    else
      let s := setP s (pk 0x0530 8) (n + 1)
      some (if 3 * (pnLimit s + 1) < 4 * (n + 1) then setP s (pk 0x0530 0x0A) 1 else s)

/-- Send a frame on a port: one sent while the link is down is dropped and counted (R453). -/
def emit (s : State) (port : Nat) (o : Out) : State :=
  if getP s (portKey port 0x0A) ≠ 2 then incP s (portKey port 0x0F) 1
  else
    let go (s : State) : State := incP { s with outbox := o :: s.outbox } (portKey port 0x0E) 1
    if port == hostPort then
      match takePn s with
      | some s => go s
      | none => incP s (portKey port 0x0F) 1
    else go s

/-- Send a PFC frame (R452, R459). -/
def sendPfc (s : State) (port prio quanta : Nat) : State :=
  emit (if getP s (portKey port 0x0A) == 2 then incP s (portKey port 0x13) 1 else s) port (.pfc port prio quanta)

/-- The IP header of every frame sent: TTL or hop limit 64, DSCP 0, DF; the ECN code is ECT(0) in herd and host memory service
frames, Not-ECT in every other (R450). -/
def ipTtl : Nat := 64
def ipDscp : Nat := 0
def Out.ecn : Out → Nat
  | .herd _ _ _ _ _ e _ _ => e
  | .hms _ _ _ _ => 2
  | .spp _ _ _ _ => 0
  | .arpReply _ _ _ => 0
  | .neighbourAdvert _ _ _ => 0
  | .pfc _ _ _ => 0

/-! ### Host memory service messages (R456) -/

/-- Bytes 0 to 27 of the header. -/
def hmsHeader (f : HmsFrame) : List Byte :=
  beBytes 1 f.version ++ beBytes 1 f.op ++ beBytes 1 f.status ++ beBytes 1 (f.rsv0 * 2 + f.restart) ++ beBytes 4 f.seq ++
    beBytes 1 f.region ++ beBytes 1 f.rsv1 ++ beBytes 6 f.offset ++ beBytes 4 f.count ++ beBytes 6 f.offset2 ++
    beBytes 2 f.length

/-- The CRC of a message. -/
def hmsCrc (f : HmsFrame) : Nat := crc32c (hmsHeader f ++ f.payload)

/-- A message of the device, its CRC not yet set. -/
def hmsMsg (op region offset count offset2 : Nat) (payload : List Byte) : HmsFrame :=
  { srcIp := 0, srcPort := 0, version := 1, op := op, status := 0, rsv0 := 0, restart := 0, seq := 0, region := region,
    rsv1 := 0, offset := offset, count := count, offset2 := offset2, length := payload.length, crc := 0,
    payload := payload }

def hmsSeal (f : HmsFrame) : HmsFrame := { f with crc := hmsCrc f }

/-- Where a flow goes: port, address, UDP port (R350, R456). -/
def flowDst (s : State) (fl : Nat) : Nat × Nat × Nat :=
  if fl == 0 then (hostPort, getP s (pk 0x0A40 2), getP s (pk 0x0A40 1))
  else (portOfCode (getP s (pk (0x0B40 + (fl - 1)) 2)), getP s (pk (0x0B40 + (fl - 1)) 4), getP s (pk 0x0A40 1))

/-- The priority of a flow's frames (R451). -/
def flowPrio (s : State) (fl : Nat) : Nat := if fl == 0 then getP s (pk 0x0A40 5) else getP s (pk 0x0C00 4)

/-- The destination MAC, VID and PCP of a flow's frames (R449 to R451). -/
def flowEth (s : State) (fl : Nat) : Eth :=
  if fl == 0 then ⟨getP s (pk 0x0A40 3), getP s (pk 0x0A40 4), flowPrio s fl⟩
  else ⟨getP s (pk (0x0B40 + (fl - 1)) 5), getP s (pk (0x0B40 + (fl - 1)) 3), flowPrio s fl⟩

/-- Send a request of a flow as a frame. -/
def emitReq (s : State) (fl : Nat) (r : HReq) : State :=
  let (port, ip, udp) := flowDst s fl
  emit s port (.hms port ip udp { r.frame with eth := flowEth s fl })

/-- Sending on a priority of a port is paused (R452). -/
def isPaused (s : State) (port prio : Nat) : Bool := decide (s.ns < SMap.get 0 (getPort s port).pause prio)

/-- Send waiting requests while at most 256 are unacknowledged; the first of a flow carries RESTART; a paused
priority keeps them waiting (R452, R457). -/
def pumpFlow (fl : Nat) : Nat → State → State
  | 0, s => s
  | n + 1, s =>
    let f := getFlow s fl
    match f.waiting with
    | [] => s
    | r :: rest =>
      if 256 ≤ f.unacked.length || isPaused s (flowDst s fl).1 (flowPrio s fl) then s
      else
        let fr := hmsSeal { r.frame with seq := f.next, restart := if f.restart then 1 else 0 }
        let r := { r with frame := fr, at_ := s.ns }
        let s := setFlow s fl { f with
          waiting := rest, unacked := f.unacked ++ [r], next := (f.next + 1) % 2 ^ 32, restart := false,
          sentNs := if f.unacked.isEmpty then s.ns else f.sentNs }
        pumpFlow fl n (emitReq s fl r)

/-- Give requests to a flow. -/
def sendReqs (s : State) (fl : Nat) (rs : List HReq) : State :=
  let f := getFlow s fl
  pumpFlow fl (f.waiting.length + rs.length) (setFlow s fl { f with waiting := f.waiting ++ rs })

/-! ### The receive regions (R350) -/

def rxKey (r sub : Nat) : Nat := pk (0x0C40 + r) sub

/-- A message is malformed (R456): a wrong version, a reserved or unused field set, a payload of the wrong shape. -/
def hmsMalformed (f : HmsFrame) : Bool :=
  f.version ≠ 1 || f.status ≠ 0 || f.rsv0 ≠ 0 || f.rsv1 ≠ 0 || f.length ≠ f.payload.length || decide (8192 < f.length) ||
    (match f.op with
     | 1 => decide (f.count < 64) || decide (8192 < f.count) || f.length ≠ 0 || f.offset2 ≠ 0
     | 2 | 3 => f.length == 0 || decide (f.length % 64 ≠ 0) || decide (f.offset % 64 ≠ 0) || f.count ≠ 0 || f.offset2 ≠ 0
     | 4 => f.length == 0 || decide (f.length % 32 ≠ 0) || decide (f.offset % 32 ≠ 0) || f.count ≠ 0 || f.offset2 ≠ 0
     | 5 => f.length ≠ 0
     | 6 => f.length ≠ 128 || decide (f.offset % 128 ≠ 0) || f.count ≠ 0 || f.offset2 ≠ 0
     | _ => true)

/-- The byte ranges of the region that a request touches. -/
def hmsRanges (f : HmsFrame) : List (Nat × Nat) :=
  if f.op == 5 then [(f.offset, f.count * 2 ^ 21), (f.offset2, f.count * 2 ^ 21)] else [(f.offset, f.length)]

/-- The NAK status of a request, 0 where it is applied (R350, R456): READ and WRITE are the driver's side only. -/
def hmsRefuse (s : State) (f : HmsFrame) : Nat :=
  if hmsMalformed f then 4
  else if f.op == 1 || f.op == 2 then 3
  else if 16 ≤ f.region || getP s (rxKey f.region 1) ≠ 1 then 1
  else if (hmsRanges f).any fun r => decide (getP s (rxKey f.region 3) < r.1 + r.2) then 2
  else 0

/-- Apply a request to its region, charged to partition 8; REFRESH reads every source page before it writes (R350). -/
def hmsApply (s : State) (f : HmsFrame) : State :=
  let base := getP s (rxKey f.region 2)
  let s :=
    if f.op == 5 then
      let n := f.count * 2 ^ 21
      let s := chargeRange s 8 (base + f.offset) n none false s.ctc
      let bs := readP s (base + f.offset) n
      writeP (chargeRange s 8 (base + f.offset2) n none true s.ctc) (base + f.offset2) bs
    else
      writeP (chargeRange s 8 (base + f.offset) f.length none true s.ctc) (base + f.offset) (f.payload.map fun b => (b, false))
  incP s (rxKey f.region 4) 1

/-- Send an answer to a request's sender, on the port it came from, with its VID and PCP (R449). -/
def hmsAnswer (s : State) (port : Nat) (f : HmsFrame) (op seq status : Nat) : State :=
  emit s port (.hms port f.srcIp f.srcPort (hmsSeal { hmsMsg op 0 0 0 0 [] with seq := seq, status := status, eth := f.eth }))

/-- Take one request in order: applied, or refused with a NAK and counted; it counts as applied either way (R350, R457). -/
def hmsTake (s : State) (port : Nat) (f : HmsFrame) : State :=
  match hmsRefuse s f with
  | 0 => hmsApply s f
  | st =>
    let s := if (st == 1 || st == 2) && decide (f.region < 16) then incP s (rxKey f.region 5) 1 else s
    hmsAnswer s port f 0x83 f.seq st

/-- A flow's receiver entry. -/
def findRecv (s : State) (port ip udp : Nat) : HRecv :=
  (s.ports.recv.find? fun r => r.port == port && r.ip == ip && r.udp == udp).getD ⟨port, ip, udp, 0, []⟩

def setRecv (s : State) (r : HRecv) : State :=
  { s with ports := { s.ports with
      recv := (s.ports.recv.filter fun x => !(x.port == r.port && x.ip == r.ip && x.udp == r.udp)) ++ [r] } }

/-- Apply held requests while the next expected one is held. -/
def hmsDrain (port ip udp : Nat) : Nat → State → State
  | 0, s => s
  | n + 1, s =>
    let r := findRecv s port ip udp
    match r.held.find? fun f => f.seq == r.expect with
    | none => s
    | some f =>
      let s := setRecv s { r with expect := (r.expect + 1) % 2 ^ 32, held := r.held.filter fun g => g.seq ≠ f.seq }
      hmsDrain port ip udp n (hmsTake s port f)

/-- Receive a request (R457): in order it is applied with those held behind it, ahead it is held, up to 256 of them, and
below the expected SEQ it is not applied. Each but a held one draws an ACK that names the next SEQ expected. -/
def hmsReceive (s : State) (port : Nat) (f : HmsFrame) : State :=
  let r := findRecv s port f.srcIp f.srcPort
  let r := if f.restart == 1 then { r with expect := f.seq, held := [] } else r
  let ahead := wrap 32 ((f.seq : Int) - r.expect)
  let ack (s : State) : State := hmsAnswer s port f 0x82 (findRecv s port f.srcIp f.srcPort).expect 0
  if ahead == 0 then
    let s := setRecv s { r with expect := (r.expect + 1) % 2 ^ 32 }
    ack (hmsDrain port f.srcIp f.srcPort (r.held.length + 1) (hmsTake s port f))
  else if 2 ^ 31 ≤ ahead then
    -- below the expected SEQ: a READ would draw its DATA, and this device serves none
    let s := setRecv s r
    if f.op == 1 then ack (hmsAnswer s port f 0x83 f.seq (hmsRefuse s f)) else ack s
  else if 256 < ahead || 256 ≤ r.held.length || r.held.any fun g => g.seq == f.seq then setRecv s r
  else setRecv s { r with held := r.held ++ [f] }

/-- A request frame at a port: the CRC check comes first (R456). -/
def hmsFrameIn (op port : Nat) (f : HmsFrame) (s : State) : Host.Outcome State Fault Refusal :=
  if 17 ≤ port then .fault .noSuchUnit
  else if f.op ≠ op then .refused .illFormed
  else
    let s := incP s (portKey port 0x0D) 1
    if hmsCrc f ≠ f.crc then .next (incP s (pk 0x0A40 0x0A) 1)
    else .next (hmsReceive s port f)

/-- PAGE: a piece of a page for a receive region (R350). -/
def execPage (port : Nat) (f : HmsFrame) (s : State) : Host.Outcome State Fault Refusal := hmsFrameIn 3 port f s
/-- MIRROR: lines or granules for a receive region (R350). -/
def execMirror (port : Nat) (f : HmsFrame) (s : State) : Host.Outcome State Fault Refusal := hmsFrameIn 4 port f s
/-- REFRESH: a copy within a receive region (R350). -/
def execRefresh (port : Nat) (f : HmsFrame) (s : State) : Host.Outcome State Fault Refusal := hmsFrameIn 5 port f s
/-- RECORD: a snapshot record for a receive region (R350). -/
def execRecord (port : Nat) (f : HmsFrame) (s : State) : Host.Outcome State Fault Refusal := hmsFrameIn 6 port f s
/-- READ: the driver's side serves it; a device answers NAK 03h (R456). -/
def execRead (port : Nat) (f : HmsFrame) (s : State) : Host.Outcome State Fault Refusal := hmsFrameIn 1 port f s
/-- WRITE: the driver's side serves it; a device answers NAK 03h (R456). -/
def execWrite (port : Nat) (f : HmsFrame) (s : State) : Host.Outcome State Fault Refusal := hmsFrameIn 2 port f s

end Sys2Proof.Machine
end

