-- ==== Sys2Proof/Machine/Dma.lean ====
section
/-!
DEFINITION. DMA channels (R275 to R281): starts and triggers, the instructions, transfers and the running CRCs.
-/
namespace Sys2Proof.Machine

/-! ### Channels and starts (R275, R276) -/

def numDma : Nat := 256

/-- Operand i of a channel: word 256 + i (R275). -/
def dmaOperand (x : Dma) (i : Nat) : Nat := SMap.get 0 x.prog (256 + i)
def setDmaOperand (x : Dma) (i v : Nat) : Dma := { x with prog := SMap.set 0 x.prog (256 + i) (v % 2 ^ 64) }

/-- A fault of a channel (R280, R228). -/
def dmaFault (s : State) (ch code d0 d1 : Nat) : State :=
  raise s { mkRaised s code (getDma s ch).dom (0x200 + ch) with detail0 := d0, detail1 := d1 }

/-- Fault 0Fh names the instruction (R280). -/
def dmaProgFault (s : State) (ch pc w : Nat) : State := dmaFault s ch 0x0F pc w

/-- A channel at the beginning of a run: CRCs reset, word 0 next, operands kept (R276). -/
def freshRun (x : Dma) : Dma :=
  { x with st := 2, pc := 0, loops := [], c32 := crc32cInit, c64 := 0, p32 := false, p64 := false, bytes := 0,
           armed := false, timing := false }

/-- A start of a channel: taken while the domain runs; one that arrives during a run is pending (R276). An unloaded or
stopped channel takes none. -/
def startDma (s : State) (ch : Nat) : State :=
  let x := getDma s ch
  if !(getD s x.dom).st.runs then s
  else if x.st == 1 then setDma s ch (freshRun x)
  else if x.st == 2 || x.st == 3 || x.st == 4 then setDma s ch { x with pend := min (x.pend + 1) 255 }
  else s

/-- The channel that 0730h.01 selects. -/
def dmaSelect (s : State) : Nat := getP s (pk 0x0730 1)

/-- DMA_START: a write to 0730h.05 starts the selected channel; the argument is not used and must be zero (R276, R411). -/
def execDmaStart (arg : Nat) (s : State) : Host.Outcome State Fault Refusal :=
  .next (gated s (pk 0x0730 5) fun s => if arg ≠ 0 then (4, s) else (0, startDma s (dmaSelect s)))

/-- DMA_TRIGGER_RUN: T0 of the domain's RUN starts a channel of trigger 01h (R276). -/
def execDmaTriggerRun (ch : Nat) (s : State) : Host.Outcome State Fault Refusal :=
  if numDma ≤ ch then .fault .noSuchUnit else
  let x := getDma s ch
  if x.trig ≠ 1 || !x.runHit then .refused (.notEnabled "no RUN has begun for the channel")
  else .next (startDma (setDma s ch { x with runHit := false }) ch)

/-- Ticks until PTP time reaches a value. -/
def ptpTicks (s : State) (t : Nat) : Nat := ceilDiv ((t - s.ptp) * freqMhz s) 1000

/-- DMA_TRIGGER_TIME: PTP time reaches the trigger time of a channel of trigger 02h (R276). -/
def execDmaTriggerTime (ch : Nat) (s : State) : Host.Outcome State Fault Refusal :=
  if numDma ≤ ch then .fault .noSuchUnit else
  let x := getDma s ch
  if x.trig ≠ 2 || x.trigHit then .refused (.notEnabled "the channel waits for no PTP time")
  else
    let s := advance (ptpTicks s x.trigAt) s
    .next (startDma (setDma s ch { x with trigHit := true }) ch)

/-- DMA_TRIGGER_CTC: the CTC reaches the trigger time of a channel of trigger 03h (R276). -/
def execDmaTriggerCtc (ch : Nat) (s : State) : Host.Outcome State Fault Refusal :=
  if numDma ≤ ch then .fault .noSuchUnit else
  let x := getDma s ch
  if x.trig ≠ 3 || x.trigHit then .refused (.notEnabled "the channel waits for no CTC")
  else
    let s := toCtc x.trigAt s
    .next (startDma (setDma s ch { x with trigHit := true }) ch)

/-- DMA_TRIGGER_CHANNEL: a HALT of the trigger channel starts a channel of trigger 04h (R276). -/
def execDmaTriggerChannel (ch : Nat) (s : State) : Host.Outcome State Fault Refusal :=
  if numDma ≤ ch then .fault .noSuchUnit else
  let x := getDma s ch
  if x.trig ≠ 4 || x.haltHit == 0 then .refused (.notEnabled "the trigger channel has not halted")
  else .next (startDma (setDma s ch { x with haltHit := x.haltHit - 1 }) ch)

/-! ### Issue (R277, R279, R280) -/

/-- Issue the instruction at a channel's program counter: a reserved word, or a program counter beyond word 255, raises
fault 0Fh; `fx` is the instruction's effect on the word, the channel being running. -/
def issueDma (op ch : Nat) (fx : Nat → Dma → State → State) (s : State) : Host.Outcome State Fault Refusal :=
  if numDma ≤ ch then .fault .noSuchUnit else
  let x := getDma s ch
  if !(x.st == 2 || x.st == 3) || !(getD s x.dom).st.runs then .refused (.notEnabled "the channel does not run")
  else if 255 < x.pc then .next (dmaProgFault s ch x.pc 0)
  else
    let w := SMap.get 0 x.prog x.pc
    if opcodeOf w ≠ op && dmaOps.contains (opcodeOf w) then .refused (.notEnabled "another instruction is next")
    else if dmaReserved w then .next (dmaProgFault s ch x.pc w)
    else .next (fx w { x with st := 2 } s)

/-- The channel waits at its instruction (R279). -/
def dmaWait (s : State) (ch : Nat) (x : Dma) : State := setDma s ch { x with st := 3 }

/-- DMA NOP. -/
def execDmaNop (ch : Nat) (s : State) : Host.Outcome State Fault Refusal :=
  issueDma 0x00 ch (fun _ x s => setDma s ch { x with pc := x.pc + 1 }) s

/-- The end of a run: idle, the channels that it triggers told, a pending start taken (R276, R279). -/
def endRun (s : State) (ch : Nat) (x : Dma) : State :=
  let s := setDma s ch { x with st := 1 }
  let s := { s with dmas := s.dmas.map fun y =>
      if y.2.trig == 4 && y.2.trigCh == ch then (y.1, { y.2 with haltHit := y.2.haltHit + 1 }) else y }
  let x := getDma s ch
  if x.pend == 0 then s else setDma s ch (freshRun { x with pend := x.pend - 1 })

/-- DMA HALT waits for earlier transfers, then ends the run. -/
def execDmaHalt (ch : Nat) (s : State) : Host.Outcome State Fault Refusal :=
  issueDma 0x01 ch (fun _ x s => if x.xfers.isEmpty then endRun s ch { x with pc := x.pc + 1 } else dmaWait s ch x) s

/-- DMA LOOP: at most four levels. -/
def execDmaLoop (ch : Nat) (s : State) : Host.Outcome State Fault Refusal :=
  issueDma 0x02 ch (fun w x s =>
    if 4 ≤ x.loops.length then dmaProgFault s ch x.pc w
    else setDma s ch { x with loops := (x.pc + 1, dmLoopCount w - 1) :: x.loops, pc := x.pc + 1 }) s

/-- ENDLOOP returns to the instruction after its LOOP until COUNT iterations have run. -/
def execEndloop (ch : Nat) (s : State) : Host.Outcome State Fault Refusal :=
  issueDma 0x03 ch (fun w x s =>
    match x.loops with
    | [] => dmaProgFault s ch x.pc w
    | (p, left) :: r =>
      if left == 0 then setDma s ch { x with loops := r, pc := x.pc + 1 }
      else setDma s ch { x with loops := (p, left - 1) :: r, pc := p }) s

/-- The clock that a channel's timer uses: PTP nanoseconds or CTC. -/
def dmaNow (s : State) (x : Dma) : Nat := if x.tBase == 0 then s.ptp else s.ctc

/-- A WAIT on the timer: it waits until T, or goes on at once, counted, when T had passed before it began to wait (R279). -/
def waitTimer (s : State) (ch : Nat) (x : Dma) : State :=
  let on := { x with armed := false, timing := false, pc := x.pc + 1 }
  if x.armed then setDma s ch on
  else if dmaNow s x < x.timer then dmaWait s ch { x with timing := true }
  else setDma s ch { on with late := if x.timer < dmaNow s x && !x.timing then satAdd 32 x.late 1 else x.late }

/-- WAIT: after earlier transfers, on the timer or on the event counter (R279). -/
def execWait (ch : Nat) (s : State) : Host.Outcome State Fault Refusal :=
  issueDma 0x04 ch (fun w x s =>
    if !x.xfers.isEmpty then dmaWait s ch x
    else if dmWaitEvent w then
      (if dmWaitCount w ≤ x.ev then setDma s ch { x with ev := x.ev - dmWaitCount w, pc := x.pc + 1 } else dmaWait s ch x)
    else waitTimer s ch x) s

/-- DMA_TIMER_EXPIRY: the timer that a WAIT waits for fires (R279). -/
def execDmaTimerExpiry (ch : Nat) (s : State) : Host.Outcome State Fault Refusal :=
  if numDma ≤ ch then .fault .noSuchUnit else
  let x := getDma s ch
  let w := SMap.get 0 x.prog x.pc
  if x.st ≠ 3 || opcodeOf w ≠ 0x04 || dmWaitEvent w || x.armed || !x.timing then
    .refused (.notEnabled "the channel waits for no timer")
  else
    let s := if x.tBase == 0 then advance (ptpTicks s x.timer) s else toCtc x.timer s
    .next (setDma s ch { getDma s ch with armed := true })

/-- The position of the bridge of a channel's I/O die (R254, R275). -/
def dmaPos (ch : Nat) : Nat := if ch < 128 then 0 else 7

/-- The domain owns a channel: its grant 0600h.09 and .0A (R275). -/
def ownsChannel (s : State) (d ch : Nat) : Bool :=
  let base := getP s (pk (0x0600 + d) 9)
  decide (base ≤ ch) && decide (ch < base + getP s (pk (0x0600 + d) 0x0A))

/-- SIGNAL: after earlier transfers, to a core's token counter or a channel's event counter. -/
def execDmaSignal (ch : Nat) (s : State) : Host.Outcome State Fault Refusal :=
  issueDma 0x05 ch (fun w x s =>
    if !x.xfers.isEmpty then dmaWait s ch x
    else
      let ok := if dmSigTgt w then ownsChannel s x.dom (dmSigId w) else inCoreSet s x.dom (dmSigId w)
      if !ok then dmaProgFault s ch x.pc w
      else
        let s := setDma s ch { x with pc := x.pc + 1 }
        if dmSigTgt w then
          let y := getDma s (dmSigId w)
          setDma s (dmSigId w) { y with ev := min (y.ev + dmSigIncr w) 0xFFFF }
        else sendIncr s (dmaPos ch) x.dom (dmSigId w) (dmSigToken w) (dmSigIncr w)) s

/-- TIMER sets T and its clock; it waits for nothing. -/
def execTimer (ch : Nat) (s : State) : Host.Outcome State Fault Refusal :=
  issueDma 0x06 ch (fun w x s =>
    setDma s ch { x with
      timer := ((if dmTimerRel w then x.timer else 0) + dmaOperand x (dmOpidx w)) % 2 ^ 64,
      tBase := dmTimerBase w, armed := false, pc := x.pc + 1 }) s

/-! ### Address operands (R278, R280) -/

def opSpace (o : Nat) : Nat := bits o 63 60
def opVa (o : Nat) : Nat := bits o 47 0
def opRegion (o : Nat) : Nat := bits o 55 48
def opMcast (o : Nat) : Bool := bit o 59
def opGroup (o : Nat) : Nat := bits o 58 57
def opPos (o : Nat) : Nat := bits o 53 48
def opOff (o : Nat) : Nat := bits o 23 0

/-- The address of row r of an operand: its address field plus r strides. -/
def rowAddr (o : Nat) (stride : Int) (r : Nat) : Int :=
  ((if opSpace o == 2 then opOff o else opVa o : Nat) : Int) + r * stride

/-- The positions that a space 2h operand names. -/
def opPositions (s : State) (d o : Nat) : List Nat :=
  if opMcast o then positionsOf (getP s (pk (0x0920 + d) (opGroup o + 1))) else [opPos o]

/-- A core-memory row is usable: aligned, whole lines, inside the core's memory and the domain's lines. -/
def coreRowOk (s : State) (d p bytes : Nat) (a : Int) : Bool :=
  match unitAt p with
  | none => false
  | some u =>
    decide (0 ≤ a) && decide (a % 64 = 0) && decide (bytes % 64 = 0) && decide (a + bytes ≤ 64 * coreLines u) &&
      (List.range (bytes / 64)).all fun i => ownsLine s d u (a.toNat / 64 + i)

/-- The checks of an operand of a transfer of `rows` rows (R278, R280). -/
def operandOk (s : State) (d o rows bytes : Nat) (stride : Int) (dest : Bool) : Bool :=
  match opSpace o with
  | 0 => bits o 59 48 == 0
  | 1 => bits o 59 56 == 0
  | 2 =>
    bits o 56 54 == 0 && bits o 47 24 == 0 && (dest || !opMcast o) &&
      (opPositions s d o).all fun p =>
        inCoreSet s d p && !posFenced s p && (List.range rows).all fun r => coreRowOk s d p bytes (rowAddr o stride r)
  | _ => false

/-- Source and destination of a transfer lie in the same space and overlap (R280). -/
def rowsOverlap (s : State) (d : Nat) (x : DmaXfer) : Bool :=
  let meet := (List.range x.rows).any fun i => (List.range x.rows).any fun j =>
    let a := rowAddr x.src x.sStr i
    let b := rowAddr x.dst x.dStr j
    decide (a < b + x.bytes) && decide (b < a + x.bytes)
  opSpace x.src == opSpace x.dst &&
    (match opSpace x.src with
     | 1 => opRegion x.src == opRegion x.dst
     | 2 => (opPositions s d x.dst).contains (opPos x.src)
     | _ => true) && meet

/-! ### Host memory (R278, R456) -/

/-- A host transfer's requests in pieces of at most 8,192 bytes. -/
def hostPieces (lo hi : Nat) : List (Nat × Nat) :=
  (List.range (ceilDiv (hi - lo) 8192)).map fun k => (lo + 8192 * k, min 8192 (hi - (lo + 8192 * k)))

/-- The whole lines that hold a row: bounds. -/
def lineBounds (a : Int) (bytes : Nat) : Nat × Nat :=
  let lo := wrap 48 a
  (lo / 64 * 64, ceilDiv (lo + bytes) 64 * 64)

/-- READ requests of a host source, with their part numbers: row × 2^20 + piece. -/
def hostReads (ch : Nat) (x : DmaXfer) : List HReq :=
  (List.range x.rows).flatMap fun r =>
    let (lo, hi) := lineBounds (rowAddr x.src x.sStr r) x.bytes
    let ps := hostPieces lo hi
    (List.range ps.length).map fun k =>
      let p := ps.getD k (0, 0)
      { who := .dma ch x.id (r * 2 ^ 20 + k), frame := hmsMsg 1 (opRegion x.src) p.1 p.2 0 [] }

/-- The part number of a line of a host destination that is covered in part. -/
def edgePart (line : Nat) : Nat := 2 ^ 50 + line / 64

/-- The lines of a host destination that a row covers in part. -/
def edgeLines (x : DmaXfer) : List Nat :=
  ((List.range x.rows).flatMap fun r =>
    let a := wrap 48 (rowAddr x.dst x.dStr r)
    let b := a + x.bytes
    if x.bytes == 0 then []
    else (if a % 64 ≠ 0 then [a / 64 * 64] else []) ++ (if b % 64 ≠ 0 then [b / 64 * 64] else [])).eraseDups

/-- READ requests of the lines of a host destination that are covered in part: WRITE carries whole lines (R456). -/
def hostEdges (ch : Nat) (x : DmaXfer) : List HReq :=
  (edgeLines x).map fun line => { who := .dma ch x.id (edgePart line), frame := hmsMsg 1 (opRegion x.dst) line 64 0 [] }

/-- The bytes of a row read from the host, from the parts that have come. -/
def hostRow (x : DmaXfer) (r : Nat) : List (Byte × Bool) :=
  let a := rowAddr x.src x.sStr r
  let (lo, hi) := lineBounds a x.bytes
  let n := (hostPieces lo hi).length
  let bs := (List.range n).flatMap fun k => SMap.get [] x.parts (r * 2 ^ 20 + k)
  ((bs.drop (wrap 48 a - lo)).take x.bytes).map fun b => (b, false)

/-- A byte of a line of a host destination once row `r` has been written: of the last row that covers it, else as it was read. -/
def destByte (x : DmaXfer) (data : List (Byte × Bool)) (r a : Nat) : Byte :=
  match (List.range (r + 1)).reverse.find? fun i =>
    let lo := wrap 48 (rowAddr x.dst x.dStr i)
    decide (lo ≤ a) && decide (a < lo + x.bytes) with
  | some i => (data.getD (i * x.bytes + (a - wrap 48 (rowAddr x.dst x.dStr i))) (0, false)).1
  | none => (SMap.get [] x.parts (edgePart (a / 64 * 64))).getD (a % 64) 0

/-- WRITE requests of row `r` of a host destination, up to an address: whole lines, of which the bytes outside the row are as they
stand (R456). -/
def rowWrites (ch : Nat) (x : DmaXfer) (data : List (Byte × Bool)) (r upTo : Nat) : List HReq :=
  let a := wrap 48 (rowAddr x.dst x.dStr r)
  let (lo, hi) := lineBounds (rowAddr x.dst x.dStr r) x.bytes
  let row := ((data.drop (r * x.bytes)).take x.bytes).map (·.1)
  let head := (List.range (a - lo)).map fun i => destByte x data r (lo + i)
  let tail := (List.range (hi - (a + x.bytes))).map fun i => destByte x data r (a + x.bytes + i)
  let whole := head ++ row ++ tail
  if x.bytes == 0 then [] else
  (hostPieces lo (min hi upTo)).map fun p =>
    { who := .dma ch x.id (2 ^ 49), frame := hmsMsg 2 (opRegion x.dst) p.1 0 0 ((whole.drop (p.1 - lo)).take p.2) }

/-- WRITE requests of a host destination, row after row. -/
def hostWrites (ch : Nat) (x : DmaXfer) (data : List (Byte × Bool)) : List HReq :=
  (List.range x.rows).flatMap fun r => rowWrites ch x data r (2 ^ 49)

/-! ### Moving the data (R279, R281) -/

/-- A marker in place of a source operand: the transfer is a CRCSTORE, its data part 0. -/
def crcSource : Nat := 2 ^ 64

/-- What reading or writing a transfer's device side gives. -/
inductive DmaRes where
  | ok (data : List (Byte × Bool))
  | bad (va : Nat)
  | absent (va done : Nat)

/-- Read rows of device virtual memory. -/
def readRows (x : DmaXfer) (d : Nat) : List Nat → List (Byte × Bool) → State → DmaRes × State
  | [], acc, s => (.ok acc, s)
  | r :: rest, acc, s =>
    let a := wrap 64 (rowAddr x.src x.sStr r)
    match vread s d a x.born x.bytes (vfuel x.bytes) with
    | (.ok, bs, s) => readRows x d rest (acc ++ bs) s
    | (.bad va, _, s) => (.bad va, s)
    | (.absent va, _, s) => (.absent va (r * x.bytes + (va - a)), s)

/-- The source bytes of a transfer. -/
def dmaSource (x : DmaXfer) (d : Nat) (s : State) : DmaRes × State :=
  if x.src == crcSource then
    let bs := SMap.get [] x.parts 0
    let pz := SMap.get [] x.parts 1
    (.ok (bs.map fun b => (b, !pz.isEmpty)), s)
  else match opSpace x.src with
    | 1 => (.ok ((List.range x.rows).flatMap (hostRow x)), s)
    | 2 =>
      let u := (unitAt (opPos x.src)).getD 0
      let at_ (r : Nat) : Nat := corePa u (rowAddr x.src x.sStr r).toNat
      let s := (List.range x.rows).foldl (fun s r => checkRange s (at_ r) x.bytes (some d)) s
      (.ok ((List.range x.rows).flatMap fun r => readP s (at_ r) x.bytes), s)
    | _ => readRows x d (List.range x.rows) [] s

/-- Write rows of device virtual memory. -/
def storeRows (x : DmaXfer) (d : Nat) (data : List (Byte × Bool)) : List Nat → State → DmaRes × State
  | [], s => (.ok data, s)
  | r :: rest, s =>
    let a := wrap 64 (rowAddr x.dst x.dStr r)
    match vwrite s d a x.born ((data.drop (r * x.bytes)).take x.bytes) (vfuel x.bytes) with
    | (.ok, s) => storeRows x d data rest s
    | (.bad va, s) => (.bad va, s)
    | (.absent va, s) => (.absent va (r * x.bytes + (va - a)), s)

/-- The packets of a transfer to core memory, from the channel's bridge: writes on VC 5, or multicast writes to every member of the
group (R236, R246, R278). -/
def corePkts (s : State) (x : DmaXfer) (ch d : Nat) (data : List (Byte × Bool)) : List Packet :=
  let ls := (List.range x.rows).flatMap fun r =>
    let n := x.bytes / 64
    (List.range (ceilDiv n 32)).map fun i =>
      ((rowAddr x.dst x.dStr r).toNat / 64 + 32 * i,
        (List.range (min 32 (n - 32 * i))).map fun j => plineOf ((data.drop (r * x.bytes + 64 * (32 * i + j))).take 64))
  let p := opPos x.dst
  ls.map fun l =>
    if opMcast x.dst then
      { ty := 5, src := dmaPos ch, dst := dmaPos ch, vc := 3, dom := d, owner := .dma ch, line := l.1, pa := 0, va := 0, off := x.id,
        n := l.2.length, data := l.2, tok := none, dead := 0, born := x.born, members := opPositions s d x.dst,
        group := 4 * d + opGroup x.dst }
    else
      { ty := 0, src := dmaPos ch, dst := p, vc := 5, dom := d, owner := .dma ch, line := l.1, pa := coreBase p + 64 * l.1, va := 0,
        off := x.id, n := l.2.length, data := l.2, tok := none, dead := 0, born := x.born, members := [] }

/-- Feed bytes to both running CRCs; a poisoned byte poisons them (R281). -/
def absorb (x : Dma) (data : List (Byte × Bool)) : Dma :=
  let bs := data.map (·.1)
  let p := data.any (·.2)
  { x with c32 := crc32cRun x.c32 bs, c64 := crc64Run x.c64 bs, p32 := x.p32 || p, p64 := x.p64 || p }

/-- Halt a channel at an absent page, or let it wait for a slot (R271, R272). -/
def dmaAbsent (s : State) (ch : Nat) (t : DmaXfer) (wr : Bool) (va done : Nat) : State :=
  let x := getDma s ch
  let (slot, s) := takeHalt s x.dom (.dma ch) wr t.pc done (0x200 + ch) va t.word 0xFFFFFFFF
  setDma s ch { x with st := 4, halt := some slot }

/-- The physical address of byte i of a transfer's source, to the word (R301). -/
def sourcePa (s : State) (d : Nat) (t : DmaXfer) (i : Nat) : Nat :=
  let a := rowAddr t.src t.sStr (i / max 1 t.bytes) + (i % max 1 t.bytes : Nat)
  let pa := if opSpace t.src == 2 then corePa ((unitAt (opPos t.src)).getD 0) a.toNat
    else match (translate s d (wrap 64 a) false).1 with
      | .ok pa _ => pa
      | _ => 0
  pa / 4 * 4

/-- A transfer whose writes have been sent waits for `n` answers. -/
def dmaSent (s : State) (ch : Nat) (t : DmaXfer) (n : Nat) (data : List (Byte × Bool)) : State :=
  let x := getDma s ch
  let x := if t.crc then absorb x data else x
  setDma s ch { x with
    xfers := x.xfers.map fun y => if y.id == t.id then { t with wrote := true, wait := n, parts := [] } else y }

/-- Send a transfer's data to the host. Poisoned data is refused with fault 0Bh; the lines before the first poisoned one, in the
order of R279, have left (R301). -/
def dmaToHost (s : State) (ch : Nat) (t : DmaXfer) (data : List (Byte × Bool)) : State :=
  match (List.range data.length).find? fun i => (data.getD i (0, false)).2 with
  | none =>
    let rs := hostWrites ch t data
    sendReqs (dmaSent s ch t rs.length data) 0 rs
  | some i =>
    let r := i / max 1 t.bytes
    let a := wrap 48 (rowAddr t.dst t.dStr r) + i % max 1 t.bytes
    let s := sendReqs s 0 (((List.range r).flatMap fun k => rowWrites ch t data k (2 ^ 49)) ++ rowWrites ch t data r (a / 64 * 64))
    let (addr, s) := if t.src == crcSource then freeBits s 64 else (sourcePa s (getDma s ch).dom t i, s)
    dmaFault s ch 0x0B addr 2

/-- Send a transfer's data to the memory of one core or of a group. -/
def dmaToCore (s : State) (ch : Nat) (t : DmaXfer) (d : Nat) (data : List (Byte × Bool)) : State :=
  let ps := corePkts s t ch d data
  let n := if opMcast t.dst then ps.length * (opPositions s d t.dst).length else ps.length
  ps.foldl sendPacket (dmaSent s ch t n data)

/-- The oldest transfer of a channel asks the host for the lines that it will write in part: what came before it has been
written. -/
def headEdges (s : State) (ch : Nat) : State :=
  let x := getDma s ch
  match x.xfers with
  | [] => s
  | t :: rest =>
    if t.edged || opSpace t.dst ≠ 1 then s
    else
      let rs := hostEdges ch t
      sendReqs (setDma s ch { x with xfers := { t with edged := true, wait := t.wait + rs.length } :: rest }) 0 rs

/-- Move the oldest transfer of a channel on: its data reaches device memory and it is complete, or leaves for the host or for
cores. -/
def dmaMove (s : State) (ch : Nat) (t : DmaXfer) : State :=
  let x := getDma s ch
  match dmaSource t x.dom s with
  | (.bad va, s) => dmaFault s ch 0x12 va t.word
  | (.absent va n, s) => dmaAbsent s ch t false va n
  | (.ok data, s) =>
    if opSpace t.dst == 1 then dmaToHost s ch t data
    else if opSpace t.dst == 2 then dmaToCore s ch t x.dom data
    else match storeRows t x.dom data (List.range t.rows) s with
      | (.bad va, s) => dmaFault s ch 0x12 va t.word
      | (.absent va n, s) => dmaAbsent s ch t true va n
      | (.ok _, s) =>
        let x := getDma s ch
        let x := if t.crc then absorb x data else x
        headEdges (setDma s ch { x with xfers := x.xfers.drop 1, bytes := satAdd 64 x.bytes (if t.src == crcSource then 0 else data.length) }) ch

/-- Move a transfer that was in flight when its domain became DONE; one that would halt or fault ends unmoved
(R276, DESIGN CHOICE). -/
def dmaLast (s : State) (ch : Nat) (t : DmaXfer) : State :=
  let u := dmaMove s ch t
  if (getDma u ch).st == 5 && u.raised.length == s.raised.length then u
  else headEdges (setDma s ch { getDma s ch with xfers := (getDma s ch).xfers.drop 1 }) ch

/-- DMA_TRANSFER_COMPLETE: the oldest transfer of a channel, whose host data has come, is moved, or its
writes have been answered (R279). Transfers move in order, so the CRCs absorb their bytes in order. -/
def execDmaTransferComplete (ch : Nat) (s : State) : Host.Outcome State Fault Refusal :=
  if numDma ≤ ch then .fault .noSuchUnit else
  let x := getDma s ch
  match x.xfers with
  | [] => .refused (.notEnabled "the channel has no transfer in flight")
  | t :: rest =>
    let last := x.st == 5 && (getD s x.dom).st == .done
    if !last && (!(x.st == 2 || x.st == 3) || !(getD s x.dom).st.runs) then .refused (.notEnabled "the channel does not run")
    else if t.wait ≠ 0 then .refused (.notEnabled "an answer to the transfer is still to come")
    else if t.wrote then .next (headEdges (setDma s ch { x with
      xfers := rest, bytes := satAdd 64 x.bytes (if t.src == crcSource then 0 else t.rows * t.bytes) }) ch)
    else .next (if last then dmaLast s ch t else dmaMove s ch t)

/-- Put a transfer in flight and ask the host for what it needs of it. -/
def dmaLaunch (s : State) (ch : Nat) (x : Dma) (t : DmaXfer) : State :=
  let reads := if t.src ≠ crcSource && opSpace t.src == 1 then hostReads ch t else []
  let s := setDma s ch { x with xfers := x.xfers ++ [{ t with wait := reads.length }], pc := x.pc + 1 }
  headEdges (sendReqs s 0 reads) ch

/-- A MOVE or MOVE2D: at most eight in flight, each with a tag of the pool (R270), the checks of R280, then its requests issue; increments are added to the
operands after it. -/
def dmaTransfer (ch : Nat) (x : Dma) (w src dst rows bytes : Nat) (sStr dStr : Int) (incS incD crc : Bool)
    (addS addD : Int) (idxBad : Bool) (s : State) : State :=
  if 8 ≤ x.xfers.length || !poolFree s then dmaWait s ch x
  else
    let so := dmaOperand x src
    let d_o := dmaOperand x dst
    let (id, s) := freshId s
    let t : DmaXfer := { id := id, src := so, dst := d_o, rows := rows, bytes := bytes, sStr := sStr, dStr := dStr, crc := crc,
                         pc := x.pc, word := w, born := s.ctc }
    if idxBad || !operandOk s x.dom so rows bytes sStr false || !operandOk s x.dom d_o rows bytes dStr true ||
        rowsOverlap s x.dom t then dmaProgFault s ch x.pc w
    else
      let x := if incS then setDmaOperand x src (wrap 64 ((so : Int) + addS)) else x
      let x := if incD then setDmaOperand x dst (wrap 64 ((dmaOperand x dst : Int) + addD)) else x
      dmaLaunch s ch x t

/-- MOVE. -/
def execMove (ch : Nat) (s : State) : Host.Outcome State Fault Refusal :=
  issueDma 0x10 ch (fun w x s =>
    let n := dmMvLen w
    dmaTransfer ch x w (dmMvSrc w) (dmMvDst w) 1 n 0 0 (dmMvIncS w) (dmMvIncD w) (dmMvCrc w) n n false s) s

/-- MOVE2D: the strides are operands SRC + 1 and DST + 1. -/
def execMove2d (ch : Nat) (s : State) : Host.Outcome State Fault Refusal :=
  issueDma 0x11 ch (fun w x s =>
    let src := dmMvSrc w
    let dst := dmMvDst w
    let sStr := sext 64 (dmaOperand x (src + 1))
    let dStr := sext 64 (dmaOperand x (dst + 1))
    let rows := dm2Rows w
    dmaTransfer ch x w src dst rows (dm2Bytes w) sStr dStr (dm2IncS w) (dm2IncD w) (dm2Crc w) (rows * sStr) (rows * dStr)
      (decide (255 < src + 1) || decide (255 < dst + 1)) s) s

/-- CRCSTORE: after earlier transfers, 8 bytes of a finished CRC go to an address operand (R281). -/
def execCrcstore (ch : Nat) (s : State) : Host.Outcome State Fault Refusal :=
  issueDma 0x07 ch (fun w x s =>
    if !x.xfers.isEmpty then dmaWait s ch x
    else
      let o := dmaOperand x (dmOpidx w)
      let v := if dmCrcPoly w then x.c64 else x.c32 ^^^ 0xFFFFFFFF
      let p := if dmCrcPoly w then x.p64 else x.p32
      let (id, s) := freshId s
      let t : DmaXfer := { id := id, src := crcSource, dst := o, rows := 1, bytes := 8, sStr := 0, dStr := 0, crc := false,
                           pc := x.pc, word := w, born := s.ctc,
                           parts := SMap.set [] (SMap.set [] [] 0 (leBytes 8 v)) 1 (if p then [1] else []) }
      if !operandOk s x.dom o 1 8 0 true then dmaProgFault s ch x.pc w
      else
        let x := if dmCrcInc w then setDmaOperand x (dmOpidx w) (o + 8) else x
        let x := if dmCrcReset w then
            (if dmCrcPoly w then { x with c64 := 0, p64 := false } else { x with c32 := crc32cInit, p32 := false })
          else x
        dmaLaunch s ch x t) s

end Sys2Proof.Machine
end

