-- ==== Sys2Proof/Machine/Snapshot.lean ====
section
/-!
DEFINITION. Snapshots: points, the drain, page copies, mirrored writes, completion, failure and abandonment, and the
tensor registry (R340 to R355).
-/
namespace Sys2Proof.Machine

/-- The key of a parameter of 0C08h + d. -/
def snapKey (d sub : Nat) : Nat := pk (0x0C08 + d) sub

/-- The flow and region of a domain's neighbouring memory (R340, R350). -/
def snapFlow (s : State) (d : Nat) : Nat := 1 + getP s (snapKey d 3)
/-- The port its traffic leaves by. -/
def snapPort (s : State) (d : Nat) : Nat := (flowDst s (snapFlow s d)).1

/-- The valid registry entries of a domain. -/
def entriesOf (s : State) (d : Nat) : List Nat := (s.snap.reg.filter fun x => x.2.valid && x.2.dom == d).map (·.1)

/-- Whether a request belongs to the snapshots of a domain. -/
def snapOwner (d : Nat) : HOwner → Bool
  | .page k _ _ => k == d
  | .mirror k _ _ => k == d
  | .refresh k => k == d
  | .record k _ => k == d
  | _ => false

/-- Send snapshot operations of a domain; each one waits for its acknowledge. -/
def sendSnap (s : State) (d : Nat) (rs : List HReq) : State :=
  let x := getSnapD s d
  sendReqs (setSnapD s d { x with out := x.out + rs.length }) (snapFlow s d) rs

/-- The packet of a held or mirrored write is acknowledged: the write is complete. -/
def ackWrite (s : State) (pkt : Option Packet) : State :=
  match pkt with
  | none => s
  | some p => sendPacket s { p with ty := 3, src := p.dst, dst := p.src, vc := 1, data := [] }

/-- Take held writes out of the queue and let their stack take them again, in order (R348, R349). -/
def releaseHeld (s : State) (which : HeldWrite → Bool) (born : Nat) : State :=
  let go := s.snap.held.filter which
  let s := { s with snap := { s.snap with held := s.snap.held.filter fun h => !which h } }
  go.foldl (fun s h =>
    let (done, s) := acceptWrite s h.dom h.va h.pa 0x19 born h.data h.pkt
    if done then ackWrite s h.pkt else s) s

/-- End a snapshot without completion: nothing further is sent; held writes are performed and mirrors dropped, so that
every write completes (R352, R353). -/
def endSnap (s : State) (d : Nat) : State :=
  let x := getSnapD s d
  let drop (r : HReq) : HReq := if snapOwner d r.who then { r with who := .dropped } else r
  let s := { s with ports := { s.ports with
    flows := s.ports.flows.map fun f => (f.1, { f.2 with
      unacked := f.2.unacked.map drop, waiting := f.2.waiting.filter fun r => !snapOwner d r.who }) } }
  let pkts := x.mirrors.map (·.pkt)
  let s := setSnapD s d { x with phase := 0, bad := true, mirrors := [], out := 0 }
  let s := pkts.foldl ackWrite s
  releaseHeld s (fun h => h.dom == d) s.ctc

/-- The snapshot in progress, or the mirroring for the next one, fails: counted, ALERT_L until the next snapshot
completes (R352). -/
def failSnap (s : State) (d : Nat) : State :=
  let s := setP (incP (endSnap s d) (snapKey d 0xB) 1) (snapKey d 7) 4
  setSnapD s d { getSnapD s d with alert := true }

/-- Abandon the domain's snapshot in progress (R353). -/
def abandonSnap (s : State) (d : Nat) : State :=
  let x := getSnapD s d
  if x.phase == 0 && x.mirrors.isEmpty && x.out == 0 then s
  else if x.phase == 0 then endSnap s d
  else setP (endSnap s d) (snapKey d 7) 5

/-- Poisoned data meets the copy boundary: fault 0Bh with code 04h and the sending port's UNIT; the snapshot is abandoned
(R301, R353). -/
def snapPoison (s : State) (d pa : Nat) : State :=
  abandonSnap (raise s { mkRaised s 0x0B d (portUnit (snapPort s d)) with detail0 := pa, detail1 := 4 }) d

/-- The record of R351 with STATE = 00h, at the present point of a domain. -/
def snapRecord (s : State) (d k dcc : Nat) : Nat :=
  let own := (List.range 8).filter fun t => ownsStrand s d t
  k % 2 ^ 32 + d * 2 ^ 32 + sumNat (own.map fun t => 2 ^ (40 + t)) + dcc % 2 ^ 64 * 2 ^ 64 + timeOf s.ptp * 2 ^ 128 +
    getP s (pk 0x0B00 2) % 2 ^ 12 * 2 ^ 208 + getP s (pk 0x0D50 2) * 2 ^ 224 +
    sumNat (own.map fun t => dataStep s t * 2 ^ (256 + 48 * t)) + sumNat (own.map fun t => rngStep s t * 2 ^ (640 + 48 * t))

/-- The RECORD operation of a domain's snapshot with a STATE (R351). -/
def recordReq (s : State) (d state : Nat) : HReq :=
  let x := getSnapD s d
  { who := .record d state
    frame := hmsMsg 6 (getP s (snapKey d 4)) (getP s (snapKey d 5) + 128 * (x.k % 2)) 0 0
      (leBytes 128 (x.record + state * 2 ^ 48)) }

/-- The method of an entry for the snapshot that a point begins (R345). -/
def methodAt (s : State) (r : RegEntry) (first bad : Bool) : Nat :=
  if r.full || first || bad then 2 else chosenMethod s r

/-- SNAPSHOT_POINT: at the domain's next point a snapshot begins, every valid entry takes its method in effect, and the
STATE = 00h record is sent; or the point is skipped (R345, R346, R351). -/
def execSnapshotPoint (d : Nat) (s : State) : Host.Outcome State Fault Refusal :=
  if 8 ≤ d then .fault .noSuchUnit else
  let x := getSnapD s d
  let period := getP s (snapKey d 2)
  let p := getP s (snapKey d 1) + x.point * period
  if period == 0 then .refused (.notEnabled "the domain has no snapshot points")
  else if !domRuns s d then .refused (.notEnabled "the domain does not run")
  else match toDcc d p s with
    | none => .refused (.notEnabled "the domain is stalled")
    | some s =>
      let s := setSnapD s d { x with point := x.point + 1 }
      if getP s (snapKey d 6) == 1 || x.phase ≠ 0 || getP s (snapKey d 3) == 0xFF then .next (incP s (snapKey d 0xC) 1)
      else
        let k := getP s (snapKey d 8)
        let s := (entriesOf s d).foldl (fun s e =>
          let r := getReg s e
          setReg s e { r with inEffect := methodAt s r (!x.taken) x.bad, full := false, dirtyMax := 0, copied := 0, sent := [],
                              acks := [] }) s
        let s := setSnapD s d { getSnapD s d with
          phase := 1, k := k, taken := true, bad := false, atCtc := s.ctc, atPtp := s.ptp, atDcc := p,
          record := snapRecord s d k p }
        let s := setP (setP s (snapKey d 8) ((k + 1) % 2 ^ 32)) (snapKey d 7) 1
        .next (sendSnap s d [recordReq s d 0])

/-- Every write of the domain that belongs before the point has completed (R347). -/
def drained (s : State) (d : Nat) : Bool :=
  let x := getSnapD s d
  let early (p : Packet) : Bool := p.ty == 0 && p.dom == d && decide (p.born < x.atCtc)
  (s.xfers.all fun y => y.dom ≠ d || !xWrites y.kind || decide (x.atCtc ≤ y.born)) &&
  (s.packets.all fun p => !early p) && (s.hbmq.all fun q => q.2.all fun r => !early r.pkt) &&
  (s.streams.all fun y => y.2.dom ≠ d || y.2.st == 0 || sdKind y.2.desc ≠ 1 || decide (sdTotal y.2.desc ≤ y.2.moved) ||
    decide (x.atDcc ≤ windowNeed y.2.desc y.2.moved)) &&
  (s.dmas.all fun y => y.2.dom ≠ d || y.2.xfers.all fun t => decide (x.atCtc ≤ t.born)) &&
  (s.herd.coll.all fun y => getP s (pk (0x0B10 + y.1) 1) ≠ d || !y.2.run || decide (x.atCtc ≤ y.2.born))

/-- SNAPSHOT_DRAIN_END: copying for the snapshot begins (R347). -/
def execSnapshotDrainEnd (d : Nat) (s : State) : Host.Outcome State Fault Refusal :=
  if 8 ≤ d then .fault .noSuchUnit else
  let x := getSnapD s d
  if x.phase ≠ 1 then .refused (.notEnabled "no snapshot is draining")
  else if !drained s d then .refused (.notEnabled "a write that belongs before the point is in progress")
  else .next (setP (setSnapD s d { x with phase := 2 }) (snapKey d 7) 2)

/-- The byte offset of the live slot of snapshot k of an entry in the receive region (R341). -/
def slotOff (r : RegEntry) (k : Nat) : Nat := (r.remote + k % 2 * r.pages) * 2 ^ 21

/-- The PAGE messages of one page copy, 256 of 8,192 bytes (R350, R456). -/
def pageReqs (s : State) (d e page : Nat) (bs : List Byte) : List HReq :=
  let r := getReg s e
  let off := slotOff r (getSnapD s d).k + page * 2 ^ 21
  (List.range 256).map fun i =>
    { who := .page d e page, frame := hmsMsg 3 (getP s (snapKey d 4)) (off + 8192 * i) 0 0 ((bs.drop (8192 * i)).take 8192) }

/-- SNAPSHOT_PAGE_COPY: an uncopied page of an entry under SHADOW or FULL is read and sent to its slot, by the sweep or
ahead of a held write; writes held at the page go on (R348). A page with no entry, or absent, raises fault 12h. -/
def execSnapshotPageCopy (d e page : Nat) (s : State) : Host.Outcome State Fault Refusal :=
  if 8 ≤ d || 1024 ≤ e then .fault .noSuchUnit else
  let x := getSnapD s d
  let r := getReg s e
  if x.phase ≠ 2 then .refused (.notEnabled "no snapshot is copying")
  else if !(r.valid && r.dom == d && (r.inEffect == 0 || r.inEffect == 2)) then
    .refused (.notEnabled "the entry is not copied by pages")
  else if r.pages ≤ page || SMap.get false r.sent page then .refused (.notEnabled "the page needs no copy")
  else
    let va := (r.vpage + page) * 2 ^ 21
    match vread s d va s.ctc (2 ^ 21) (vfuel (2 ^ 21)) with
    | (.ok, bs, s) =>
      match (List.range bs.length).find? fun i => (bs.getD i (0, false)).2 with
      | some i =>
        let pa := match (translate s d va false).1 with
          | .ok pa _ => pa + i / 4 * 4
          | _ => 0
        .next (snapPoison s d pa)
      | none =>
        let s := setReg s e { getReg s e with sent := SMap.set false r.sent page true }
        let s := incP s (snapKey d 0xD) 1
        let s := sendSnap s d (pageReqs s d e page (bs.map (·.1)))
        .next (releaseHeld s (fun h => h.dom == d && h.entry == e && h.page == page && !h.mirror) s.ctc)
    | (_, _, s) => .next (raise s { mkRaised s 0x12 d (portUnit (snapPort s d)) with detail0 := va })

/-- The MIRROR messages of one write, at most 8,192 bytes each (R349, R456). -/
def mirrorReqs (s : State) (d : Nat) (m : MirrorWrite) : List HReq :=
  let r := getReg s m.entry
  let off := slotOff r m.k + m.off
  let bs := m.data.map (·.1)
  (List.range (ceilDiv bs.length 8192)).map fun i =>
    { who := .mirror d m.entry none
      frame := hmsMsg 4 (getP s (snapKey d 4)) (off + 8192 * i) 0 0 ((bs.drop (8192 * i)).take 8192) }

/-- SNAPSHOT_MIRROR_WRITE: the oldest write that waits for its mirror is sent into its slot and completes (R349). -/
def execSnapshotMirrorWrite (d : Nat) (s : State) : Host.Outcome State Fault Refusal :=
  if 8 ≤ d then .fault .noSuchUnit else
  let x := getSnapD s d
  match x.mirrors with
  | [] => .refused (.notEnabled "no write waits for its mirror")
  | m :: rest =>
    match (List.range m.data.length).find? fun i => (m.data.getD i (0, false)).2 with
    | some i => .next (snapPoison s d (m.pa + i / 4 * 4))
    | none =>
      let s := setSnapD s d { x with mirrors := rest }
      let s := incP s (snapKey d 0xE) m.data.length
      .next (ackWrite (sendSnap s d (mirrorReqs s d m)) m.pkt)

/-- Every valid entry of the domain is complete: its page copies or mirrors have been acknowledged (R351). -/
def entriesDone (s : State) (d : Nat) : Bool :=
  let x := getSnapD s d
  x.out == 0 && x.mirrors.isEmpty && (entriesOf s d).all fun e =>
    let r := getReg s e
    r.inEffect == 1 || r.copied == r.pages

/-- SNAPSHOT_COMPLETE: every entry is complete: the STATE = 01h record is sent; its acknowledge completes the snapshot
(R351). -/
def execSnapshotComplete (d : Nat) (s : State) : Host.Outcome State Fault Refusal :=
  if 8 ≤ d then .fault .noSuchUnit else
  let x := getSnapD s d
  if x.phase ≠ 2 then .refused (.notEnabled "no snapshot is copying")
  else if !entriesDone s d then .refused (.notEnabled "an entry is not complete")
  else .next (sendSnap (setSnapD s d { x with phase := 3 }) d [recordReq s d 1])

/-- The STATE = 01h record is acknowledged: the snapshot is complete. Entries expected under MIRROR at the next point are
refreshed, then the writes held for them go on (R349, R351). -/
def completeSnap (s : State) (d : Nat) : State :=
  let x := getSnapD s d
  let es := entriesOf s d
  let s := es.foldl (fun s e => setReg s e { getReg s e with complete := x.k }) s
  let s := setP (setP (setP s (snapKey d 9) x.k) (snapKey d 0xA) (x.record + 2 ^ 48)) (snapKey d 7) 3
  let s := setSnapD s d { getSnapD s d with phase := 0, alert := false }
  let s := sendSnap s d ((es.filter fun e => expectsMirror s (getReg s e)).map fun e =>
    let r := getReg s e
    { who := .refresh d, frame := hmsMsg 5 (getP s (snapKey d 4)) (slotOff r x.k) r.pages (slotOff r (x.k + 1)) [] })
  releaseHeld s (fun h => h.dom == d) s.ctc

/-- A snapshot operation of a domain is acknowledged (R351). -/
def snapAcked (s : State) (who : HOwner) : State :=
  let less (s : State) (d : Nat) : State := let x := getSnapD s d; setSnapD s d { x with out := x.out - 1 }
  match who with
  | .page d e page =>
    let r := getReg s e
    let n := SMap.get 0 r.acks page + 1
    let s := setReg s e { r with acks := SMap.set 0 r.acks page n, copied := if n == 256 then r.copied + 1 else r.copied }
    less s d
  | .mirror d _ _ => less s d
  | .refresh d => less s d
  | .record d st => if st == 1 && (getSnapD s d).phase == 3 then completeSnap (less s d) d else less s d
  | _ => s

/-- The oldest operation of a domain that is sent and not acknowledged: when it was sent. -/
def oldestSnap (s : State) (d : Nat) : Option Nat :=
  ((s.ports.flows.flatMap fun f => f.2.unacked).filter fun r => snapOwner d r.who).foldl (fun a r =>
    match a with
    | none => some r.at_
    | some t => some (min t r.at_)) none

/-- Advance until nanosecond `t`, if it lies ahead. -/
def toNs (t : Nat) (s : State) : State := advance (ceilDiv ((t - s.ns) * freqMhz s) 1000) s

/-- SNAPSHOT_TIMEOUT: an operation has not been acknowledged within snap.timeout_ms: the snapshot fails (R352). -/
def execSnapshotTimeout (d : Nat) (s : State) : Host.Outcome State Fault Refusal :=
  if 8 ≤ d then .fault .noSuchUnit else
  match oldestSnap s d with
  | none => .refused (.notEnabled "no snapshot operation is on its way")
  | some t => .next (failSnap (toNs (t + getP s (pk 0x0C00 3) * 1000000) s) d)

/-! ### The registry and the steps (R341, R342, R355, R356) -/

/-- The 32-byte entry of R341. -/
def regWord (r : RegEntry) : Nat :=
  (if r.valid then 1 else 0) + r.dom * 2 + r.method * 2 ^ 4 + r.inEffect * 2 ^ 6 + r.strand * 2 ^ 8 + r.tensor * 2 ^ 12 +
    r.vpage * 2 ^ 32 + r.pages * 2 ^ 64 + r.remote * 2 ^ 88 + r.dirtyLast * 2 ^ 128 + r.dirtyMax * 2 ^ 152 +
    r.complete * 2 ^ 192 + r.copied * 2 ^ 224

/-- The reserved fields and encodings of an entry word. -/
def regReserved (v : Nat) : Bool :=
  decide (bits v 255 248 ≠ 0) || decide (bits v 191 176 ≠ 0) || decide (bits v 127 112 ≠ 0) || decide (bits v 63 59 ≠ 0) ||
    bit v 11 || bits v 5 4 == 3 || (bit v 0 && bits v 87 64 == 0)

/-- reg.entry: the selected entry is written, unless R342 refuses; RO fields keep their values. -/
def writeRegistry (s : State) (bs : List Byte) : Nat × State :=
  let v := leNat bs
  let e := getP s (pk 0x0C30 1)
  let r := getReg s e
  let d := bits v 3 1
  let vpage := bits v 58 32
  let pages := bits v 87 64
  let clash := (entriesOf s d).any fun k => k ≠ e &&
    decide (vpage < (getReg s k).vpage + (getReg s k).pages) && decide ((getReg s k).vpage < vpage + pages)
  if domRuns s d || domRuns s r.dom || regReserved v || (bit v 0 && clash) then (5, s)
  else
    let valid := bit v 0
    let fresh := (valid && !r.valid) || decide (vpage ≠ r.vpage) || decide (pages ≠ r.pages)
    let r := { r with valid := valid, dom := d, method := bits v 5 4, strand := bits v 10 8, tensor := bits v 31 12,
                      vpage := vpage, pages := pages, remote := bits v 111 88, full := r.full || fresh }
    (0, setReg s e r)

/-- REGISTRY_ENTRY_WRITE (R342). -/
def execRegistryEntryWrite (v : List Byte) (s : State) : Host.Outcome State Fault Refusal :=
  if v.length ≠ 32 then .next { s with wstatus := 3 } else .next (gated s (pk 0x0C30 2) fun s => writeRegistry s v)

/-- A domain that owns the strand is RUNNING or in PAGE_HALT. -/
def strandRuns (s : State) (strand : Nat) : Bool := domRuns s (getP s (pk 0x0853 (strand + 1)))

/-- A step of a strand is written: not while its domain runs, at most 2^48 − 1 (R79, R355). -/
def writeStep (index : Nat) (s : State) (strand v : Nat) : Nat × State :=
  if 2 ^ 48 ≤ v then (4, s) else if strandRuns s strand then (5, s) else (0, setP s (pk index (strand + 1)) v)

/-- DATA_STEP_WRITE (R355). -/
def execDataStepWrite (strand v : Nat) (s : State) : Host.Outcome State Fault Refusal :=
  .next (if 8 ≤ strand then noParam s false else gated s (pk 0x0C10 (strand + 1)) fun s => writeStep 0x0C10 s strand v)

/-- resume.step of a strand: FFFF_FFFF_FFFF_FFFFh, or at most 2^48 − 1 (R356). -/
def writeResume (s : State) (strand v : Nat) : Nat × State :=
  if 2 ^ 48 ≤ v && v ≠ 0xFFFFFFFFFFFFFFFF then (4, s) else (0, setP s (pk 0x0C20 (strand + 1)) v)

/-- RESUME_STEP_WRITE (R356). -/
def execResumeStepWrite (strand v : Nat) (s : State) : Host.Outcome State Fault Refusal :=
  .next (if 8 ≤ strand then noParam s false else gated s (pk 0x0C20 (strand + 1)) fun s => writeResume s strand v)

end Sys2Proof.Machine
end

