-- ==== Sys2Proof/Machine/Domain.lean ====
section
/-!
DEFINITION. How a schedule domain ends: the FAULT and STOP messages, ABORT, RELEASE, DONE, the acknowledgement of fault
records, and what a stop does to every unit of the domain (R97, R108, R156, R217, R222 to R229, R336).
-/
namespace Sys2Proof.Machine

/-- The collective work of a CVC. -/
def getColl (s : State) (c : Nat) : Coll := SMap.get {} s.herd.coll c
def setColl (s : State) (c : Nat) (v : Coll) : State :=
  { s with herd := { s.herd with coll := SMap.set {} s.herd.coll c v } }
/-- The CVCs of a domain (R312). -/
def cvcsOf (s : State) (d : Nat) : List Nat := (List.range 16).filter fun c => getP s (pk (0x0B10 + c) 1) == d

/-- Release the pauses that the CVC's full staging asserts, but for those that another full CVC keeps (R313, R333). -/
def releasePauses (s : State) (c : Nat) : State :=
  let x := getColl s c
  let kept (q : Nat × Nat) : Bool := s.herd.coll.any fun y => y.1 ≠ c && y.2.paused.contains q
  (x.paused.filter fun q => !kept q).foldl (fun s q => sendPfc s q.1 q.2 0) (setColl s c { x with paused := [] })

/-- Abandon the collectives of a CVC: nothing further is sent, its staging is free, it reads ABANDONED (R336). -/
def abandonColl (s : State) (c : Nat) : State := setColl (releasePauses s c) c { st := 4 }

/-- The places 0 to n - 1 of an engine part, rows of 64 columns: all of them, or those of half h of a split engine. -/
def partPlaces (split : Bool) (h n : Nat) : List Nat := (List.range n).filter fun w => !split || decide (w % 64 / 32 = h)

/-- The output array holds +0 for an open element whose T was absent (R97). -/
def zeroAbsent (s : State) (split : Bool) (e h : Nat) : State :=
  (s.cells.filter fun x => x.1 / 65536 == e && (!split || x.1 % 64 / 32 == h) && x.2.inCas && !x.2.hasT).foldl
    (fun s x => { s with mem := storeBytes s.mem (accBase e + 4 * (x.1 % 65536)) (leBytes 4 0) }) s

/-- Poison every element of an engine part: its words in the output array and in levels 4 to 11, words 0 to 8FFFFh of
accumulator memory with its levels 0 to 3; no element is open (R93, R97). -/
def poisonCells (s : State) (split : Bool) (e h : Nat) : State :=
  let s := zeroAbsent s split e h
  { s with
    poison := SMap.updAll false (fun _ => true) ((partPlaces split h 0x90000).map fun w => accBase e + 4 * w) s.poison
    cells := SMap.updAll {} (fun c => { c with inCas := false, hasT := false, fresh := false, n := 0, pz := 15 })
      ((partPlaces split h 0x10000).map (cellKey e 0 0 0 + ·)) s.cells }

/-- The reads of an engine that are not of its part h. -/
def readsElse (x : Engine) (h : Nat) : List AccRead := x.reads.filter fun r => bit x.part 31 && halfIdx r.half ≠ h

/-- Stop an engine part of a domain (R97): its MMAs push nothing further, every element of its 16 tiles is poisoned, the
state words read OPEN = 0 with CHUNKS = 0. -/
def poisonPart (s : State) (e h : Nat) : State :=
  let s := poisonCells s (bit (getEng s e).part 31) e h
  let s := (List.range 16).foldl (fun s t =>
    setTile s (tileKey e h t) { getTile s (tileKey e h t) with isOpen := false, top := false, chunks := 0, newSat := 0 }) s
  let x := getEng s e
  let b := if h == 0 then 14 else 15
  setEng s e (setPart { x with part := if bit x.part b then x.part else x.part + 2 ^ b, reads := readsElse x h } h
    { getPart x h with ops := [], waves := [], stage := [], idle := true })

/-- The engine parts that a domain owns (R95). -/
def partsOf (s : State) (d : Nat) : List (Nat × Nat) :=
  (List.range 144).flatMap fun e =>
    ((List.range 2).filter fun h =>
      let p := (getEng s e).part
      if h == 0 then bit p 3 && bits p 6 4 == d else bit p 31 && bit p 7 && bits p 10 8 == d).map fun h => (e, h)

/-- A needle issues and decodes nothing more. -/
def haltNeedle (x : NeedleSt) : NeedleSt := { x with st := .halted, decoded := [], held := none, decFrom := none }

/-- The domain's cores stop issuing; what their element units and Chamois cores would still do in later cycles is not done
(R224). -/
def stopCores (s : State) (d : Nat) : State :=
  { s with
    elands := s.elands.map fun x =>
      let e := x.2
      let e := if e.domF == some d then { e with fore := haltNeedle e.fore } else e
      let e := if e.domB == some d then { e with back := haltNeedle e.back } else e
      let e := if e.domF == some d || e.domB == some d then { e with pickDue := none, answers := [] } else e
      (x.1, { e with elems := e.elems.filter fun j => j.dom ≠ d })
    chams := s.chams.map fun x =>
      (x.1, if x.2.dom == some d then { x.2 with halted := true, inFlight := [], jobs := [], decoded := [], held := none }
        else x.2) }

/-- A take unit without a domain's TAKEs, banks and beats. -/
def stopTake (d : Nat) (x : TakeUnit) : TakeUnit :=
  { ops := x.ops.filter (fun o => o.dom ≠ d), banks := x.banks.filter (fun b => b.1 ≠ d),
    queue := x.queue.filter (fun q => q.beat.dom ≠ d) }

/-- The domain's Round traffic is removed and nothing is delivered from it (R108). -/
def stopRound (s : State) (d : Nat) : State :=
  { s with
    beats := s.beats.filter fun b => b.dom ≠ d
    injs := (s.injs.map fun x => (x.1, x.2.filter fun r => r.dom ≠ d)).filter fun x => !x.2.isEmpty
    takes := (s.takes.map fun x => (x.1, stopTake d x.2)).filter fun x => decide (x.2 ≠ {}) }

/-- The strands a domain owns (R154). -/
def strandsOf (s : State) (d : Nat) : List Nat := (List.range 8).filter fun t => ownsStrand s d t

/-- The domain's stream contexts and DMA channels stop; its halt slots are free (R224, R273). -/
def stopService (s : State) (d : Nat) : State :=
  { s with
    streams := s.streams.map fun x => (x.1, if x.2.dom == d && x.2.st ≠ 0 then { x.2 with st := 4, halt := none } else x.2)
    dmas := s.dmas.map fun x =>
      (x.1, if x.2.dom == d && x.2.st ≠ 0 then { x.2 with st := 5, pend := 0, xfers := [], halt := none } else x.2)
    xfers := (s.xfers.filter fun x => !(x.dom == d && (x.halted.isSome || x.kind == .spush || x.kind == .spop || x.kind == .accPush)))
    stashQ := s.stashQ.filter fun m => m.dom ≠ d
    halts := s.halts.filter fun x => match x.2 with
      | some h => h.dom ≠ d
      | none => false
    haltWait := s.haltWait.filter fun h => h.dom ≠ d
    red := s.red.filter fun r => !(decide (getP s (pk (0x0600 + d) 0xB) ≤ r.tree) &&
      decide (r.tree < getP s (pk (0x0600 + d) 0xB) + getP s (pk (0x0600 + d) 0xC))) }

/-- What leaves the units of a domain as it ends: issue, Round beats, streams, channels, halts, collectives and a snapshot
(R108, R224, R273, R336, R353). -/
def clearUnits (s : State) (d : Nat) : State :=
  let s := (cvcsOf s d).foldl abandonColl (grantHalts (stopService (stopRound (stopCores s d) d) d))
  let s := abandonSnap s d
  let dd := getD s d
  setD s d { dd with reqs := [], freezeAt := none, stalled := false, resumeOk := [], resumeAt := none, reports := [],
                     choice := none, stopDue := false }

/-- What a fault or ABORT does to every unit of a domain: its engine parts are poisoned and its Stash lanes emptied too
(R97, R156, R224). -/
def stopUnits (s : State) (d : Nat) : State :=
  clearUnits ((strandsOf s d).foldl emptyStrand ((partsOf s d).foldl (fun s p => poisonPart s p.1 p.2) s)) d

/-- A fault of the same tick comes before another: lower UNIT, then lower code (R225). -/
def raisedBefore (a b : Raised) : Bool :=
  decide (a.ctc < b.ctc) || (a.ctc == b.ctc && (decide (a.unit < b.unit) || (a.unit == b.unit && decide (a.code < b.code))))

/-- Record the faults raised for a domain: one record, the others counted (R223, R225). The domain goes FAULTED. -/
def recordFaults (s : State) (d : Nat) : State :=
  let (mine, rest) := s.raised.partition fun r => r.dom == some d
  let s := { s with raised := rest }
  match minBy raisedBefore mine with
  | none => s
  | some r =>
    if !(getD s d).st.faultable then incP s (pk 0x0E10 4) mine.length
    else
      let s := incP (writeRecord s r 0) (pk 0x0E10 4) (mine.length - 1)
      setD s d { getD s d with st := .faulted, stopDue := true }

/-- The tick of the first fault raised for a domain. -/
def firstRaised (s : State) (d : Nat) : Option Nat :=
  (minBy raisedBefore (s.raised.filter fun r => r.dom == some d)).map (·.ctc)

/-- FAULT: the fault report reaches the root, which answers with STOP. Faults of lower domains in the same tick are
recorded first (R222 to R225, R250). -/
def execFault (d : Nat) (s : State) : Host.Outcome State Fault Refusal :=
  if 8 ≤ d then .fault .noSuchUnit else
  match firstRaised s d with
  | none => .refused (.notEnabled "no fault is raised for the domain")
  | some t =>
    let s := ((List.range d).filter fun k => firstRaised s k == some t).foldl recordFaults s
    .next (incP (recordFaults s d) (pk 0x0930 3) 1)

/-- STOP: the broadcast stops every unit of the domain; faults raised meanwhile are counted (R224, R225). -/
def execStop (d : Nat) (s : State) : Host.Outcome State Fault Refusal :=
  if 8 ≤ d then .fault .noSuchUnit else
  if !(getD s d).stopDue then .refused (.notEnabled "no stop is on its way")
  else .next (incP (recordFaults (stopUnits s d) d) (pk 0x0930 3) 1)

/-- START: the broadcast of T0 reaches every core before T0; the domain's slot 0 comes at T0 when no stall intervenes, and the
count of ticks itself brings it (R206, R207, R250). -/
def execStart (d : Nat) (s : State) : Host.Outcome State Fault Refusal :=
  if 8 ≤ d then .fault .noSuchUnit else
  let dd := getD s d
  match dd.t0 with
  | none => .refused (.notEnabled "no start is announced")
  | some t =>
    if !dd.st.runs then .refused (.notEnabled "the domain does not run")
    else if t < s.ctc then .refused (.notEnabled "the start tick has passed")
    else .next (incP (setD s d { dd with t0 := none }) (pk 0x0930 3) 2)

/-- Every core of the domain has finished and every operation that one issued is complete (R217). -/
def coresDone (s : State) (d : Nat) : Bool :=
  let part (p : EngPart) : Bool := p.ops.all (fun o => o.dom ≠ d) && p.waves.all fun w => w.op.dom ≠ d
  coresFinished s d &&
  (s.elands.all fun x => x.2.elems.all fun j => j.dom ≠ d) &&
  (s.chams.all fun x => x.2.dom ≠ some d || (x.2.inFlight.isEmpty && x.2.jobs.isEmpty)) &&
  (s.engines.all fun x => part x.2.p0 && part x.2.p1 && x.2.reads.all fun o => o.dom ≠ d) &&
  (s.injs.all fun x => x.2.all fun r => r.dom ≠ d) &&
  (s.takes.all fun x => x.2.ops.all (fun o => o.dom ≠ d) && x.2.queue.all (fun q => q.beat.dom ≠ d)) &&
  (s.beats.all fun b => b.dom ≠ d) && (s.xfers.all fun x => x.dom ≠ d) && (s.stashQ.all fun m => m.dom ≠ d)

/-- The domain leaves RUNNING: its channels read STOPPED and their pending starts are discarded (R276). -/
def stopChannels (s : State) (d : Nat) : State :=
  { s with dmas := s.dmas.map fun x => (x.1, if x.2.dom == d && x.2.st ≠ 0 then { x.2 with st := 5, pend := 0 } else x.2) }

/-- DOMAIN_DONE: every core has finished, every operation has completed, every collective that had started is complete;
the CVCs read DONE and the DMA channels STOPPED (R217, R276, R336). -/
def execDomainDone (d : Nat) (s : State) : Host.Outcome State Fault Refusal :=
  if 8 ≤ d then .fault .noSuchUnit else
  if !((getD s d).st == .running && (getD s d).started) then .refused (.notEnabled "the domain is not running")
  else if !coresDone s d || (cvcsOf s d).any fun c => (getColl s c).run then .refused (.notEnabled "work of the domain is left")
  else
    let s := (cvcsOf s d).foldl (fun s c => if (getColl s c).st == 0 then s else setColl (releasePauses s c) c { getColl s c with st := 3, copies := [] }) s
    let s := stopChannels s d
    .next (setD s d { getD s d with st := .done, reqs := [], freezeAt := none, stalled := false, resumeAt := none })

/-! ### Commands of 0600h.03 (R217) -/

/-- The key of domain.start of a domain. -/
def domainCmd (d : Nat) : Nat := pk (0x0600 + d) 3

/-- ABORT: the domain stops as for a fault, without a record (R217). -/
def abortDomain (s : State) (d : Nat) : Nat × State :=
  let st := (getD s d).st
  if !(st == .loading || st.runs) then (5, s)
  else (0, stopUnits (setD s d { getD s d with st := .aborted }) d)

def execAbort (d : Nat) (s : State) : Host.Outcome State Fault Refusal :=
  .next (if 8 ≤ d then noParam s false else gated s (domainCmd d) fun s => abortDomain s d)

/-- Clear a span of physical memory: the bytes and marks of the addresses from `lo` to `hi` are gone. -/
def clearSpan (s : State) (lo hi : Nat) : State :=
  let out (k : Nat) : Bool := decide (k < lo) || decide (hi ≤ k)
  { s with mem := s.mem.filter fun x => out x.1, poison := s.poison.filter fun x => out x.1, errs := s.errs.filter fun x => out x.1 }

/-- The lines of a core's memory that a domain has: all of it, or its half of a shared core (R204). -/
def ownLines (s : State) (d u : Nat) : Nat × Nat :=
  if decide (u < 0x40) && (getE s u).shared then
    (if (getE s u).domF == some d then (0, 0x18000) else (0x18000, 0x30000))
  else (0, coreLines u)

/-- Free a domain's grants on one core and clear its memory there; the other domain of a shared core keeps its share
(R203, R217). -/
def releaseCore (d : Nat) (s : State) (u : Nat) : State :=
  let (lo, hi) := ownLines s d u
  let s := clearSpan s (corePa u (64 * lo)) (corePa u (64 * hi))
  if u < 0x40 then
    let e := getE s u
    if e.shared then
      let absent := e.absent.filter fun x => decide (x.1 < lo) || decide (hi ≤ x.1)
      if e.domF == some d then
        setE s u (if e.domB.isNone then {} else { e with fore := {}, domF := none, absent := absent })
      else setE s u (if e.domF.isNone then {} else { e with back := {}, domB := none, absent := absent })
    else setE s u {}
  else setC s (u - 0x40) {}

/-- Free an engine part: its ASSIGNED and DOMAIN fields clear; the poison marks stay (R95, R97). SPLIT clears with the
last half. -/
def releasePart (s : State) (p : Nat × Nat) : State :=
  let x := getEng s p.1
  let r := x.part
  let r := if p.2 == 0 then r - bits r 6 3 * 8 else r - bits r 10 7 * 128
  let r := if bit r 31 && !bit r 3 && !bit r 7 && !bit r 15 then r - 2 ^ 31 else r
  setEng s p.1 (setPart { x with part := r, reads := readsElse x p.2 } p.2 {})

/-- The trees of a domain have no root and no members any more (R242). -/
def freeTrees (s : State) (d : Nat) : State :=
  (List.range (getP s (pk (0x0600 + d) 0xC))).foldl (fun s k =>
    let t := getP s (pk (0x0600 + d) 0xB) + k
    setP (setP s (pk (0x0910 + t) 1) 0xFF) (pk (0x0910 + t) 2) 0) s

/-- The four multicast sets of a domain are empty (R246). -/
def freeGroups (s : State) (d : Nat) : State :=
  (List.range 4).foldl (fun s m => setP s (pk (0x0920 + d) (m + 1)) 0) s

/-- RELEASE frees every grant of R203 and clears the domain's core memories; what the domain still had in flight, but for
HBM writes accepted, is dropped (R217). -/
def freeGrants (s : State) (d : Nat) : State :=
  let dd := getD s d
  let cores := ((List.range 60).filter fun b => bit dd.cores b).map bitUnit
  let s := cores.foldl (releaseCore d) s
  let s := (partsOf s d).foldl releasePart s
  let s := { s with
    phases := (s.phases.map fun x => (x.1, (List.range 8).foldl (fun t p =>
      if bit t (4 * p + 3) && bits t (4 * p + 2) (4 * p) == d then t - bits t (4 * p + 3) (4 * p) * 2 ^ (4 * p) else t) x.2)).filter
        fun x => x.2 ≠ 0
    streams := s.streams.filter fun x => !(x.2.dom == d && (x.2.st ≠ 0 || x.2.desc ≠ 0))
    dmas := (s.dmas.map fun x => (x.1, if x.2.dom == d then
      { trig := x.2.trig, trigCh := x.2.trigCh, trigAt := x.2.trigAt } else x.2)).filter fun x => decide (x.2 ≠ {})
    xfers := s.xfers.filter fun x => x.dom ≠ d
    packets := s.packets.filter fun p => p.dom ≠ d
    arrivals := s.arrivals.filter fun a => !(cores.contains a.unit && domsOf s a.unit == [])
    incrs := s.incrs.filter fun m => match unitAt m.pos with
      | some u => !(cores.contains u && domsOf s u == [])
      | none => true
    hbmq := (s.hbmq.map fun x => (x.1, x.2.filter fun r => !(r.part == d && decide (r.pkt.ty ≠ 0)))).filter
      fun x => !x.2.isEmpty }
  let s := (cvcsOf s d).foldl abandonColl s
  let s := freeGroups (freeTrees s d) d
  let s := (entriesOf s d).foldl (fun s e => setReg s e { getReg s e with valid := false }) s
  setD s d { faultSeq := dd.faultSeq, startCtc := dd.startCtc, dcc := dd.dcc, stallTicks := dd.stallTicks,
             stalls := dd.stalls, measure := dd.measure }

/-- RELEASE (R217). Engine parts and Stash lanes of a domain that has not faulted keep what they hold (R97, R156); a stop
still on its way takes place. -/
def releaseDomain (s : State) (d : Nat) : Nat × State :=
  match (getD s d).st with
  | .loaded | .done | .faulted | .aborted => (0, freeGrants (if (getD s d).stopDue then stopUnits s d else clearUnits s d) d)
  | _ => (5, s)

def execRelease (d : Nat) (s : State) : Host.Outcome State Fault Refusal :=
  .next (if 8 ≤ d then noParam s false else gated s (domainCmd d) fun s => releaseDomain s d)

/-! ### Acknowledging records (R229) -/

/-- fault.ack: the records whose SEQ is n or one of the 63 values before it are acknowledged. -/
def ackRecords (s : State) (v : Nat) : Nat × State :=
  if 0x10000 ≤ v then (4, s)
  else (0, { s with unacked := s.unacked.filter fun x => decide (64 ≤ (v + 0x10000 - SMap.get 0 s.logSeq x.1) % 0x10000) })

/-- FAULT_ACK (R229). -/
def execFaultAck (v : Nat) (s : State) : Host.Outcome State Fault Refusal :=
  .next (gated s (pk 0x0E00 4) fun s => ackRecords s v)

end Sys2Proof.Machine
end

