-- ==== Sys2Proof/Machine/Client.lean ====
section
/-!
DEFINITION. The device as client of the host memory service: the answers to its requests, resends and giving up
(R456 to R458), and what the loss of a port does to the domains that use it (R453).
-/
namespace Sys2Proof.Machine

/-! ### The domains that use a port (R453) -/

/-- A peer entry names the port. -/
def peerOnPort (s : State) (e port : Nat) : Bool :=
  decide (e < 128) && portOfCode (getP s (pk (0x0B40 + e) 2)) == port

/-- A DMA channel of the domain has a request on its way or waiting on the port. -/
def dmaOnPort (s : State) (d port : Nat) : Bool :=
  s.ports.flows.any fun f => (flowDst s f.1).1 == port && (f.2.unacked ++ f.2.waiting).any fun r =>
    match r.who with
    | .dma ch _ _ => (getDma s ch).dom == d && (getDma s ch).st ≠ 0
    | _ => false

/-- The peer entries a CVC names: next, prev and the eight children, FFh being none (R312). -/
def cvcPeers (s : State) (c : Nat) : List Nat :=
  let k (sub : Nat) : Nat := getP s (pk (0x0B10 + c) sub)
  ([k 6, k 7] ++ (List.range 8).map fun i => bits (k 8) (8 * i + 7) (8 * i)).filter (· ≠ 0xFF)

/-- A CVC of the domain names a peer entry on the port (R453). -/
def cvcOnPort (s : State) (d port : Nat) : Bool := (cvcsOf s d).any fun c => (cvcPeers s c).any fun e => peerOnPort s e port

/-- The domain uses the port (R453). -/
def usesPort (s : State) (d port : Nat) : Bool :=
  domRuns s d && (cvcOnPort s d port || dmaOnPort s d port || peerOnPort s (getP s (snapKey d 3)) port)

/-- Code 11h: a fault for every domain that uses the port, an error, once, when none does; snapshots to a peer on the
port fail (R222, R352, R453). -/
def portLost (s : State) (port tries : Nat) : State :=
  let u := portUnit port
  let ds := (List.range 8).filter fun d => usesPort s d port
  let s' := ds.foldl (fun s d => raise s { mkRaised s 0x11 d u with detail0 := u, detail1 := tries }) s
  let s' := if ds.isEmpty then
      logError s' { mkRaised s' 0x11 0 u with dom := none, dcc := 0, handle := 0, detail0 := u, detail1 := tries } (pk 0x0E10 2)
    else s'
  ((List.range 8).filter fun d => (getSnapD s' d).phase ≠ 0 && peerOnPort s' (getP s' (snapKey d 3)) port).foldl failSnap s'

/-! ### Answers (R457, R458) -/

/-- The flow that an answer belongs to: the host's on the host port, or that of a peer entry with the address. -/
def flowOf (s : State) (port : Nat) (f : HmsFrame) : Option Nat :=
  if port == hostPort && f.srcIp == getP s (pk 0x0A40 2) then some 0
  else ((List.range 128).find? fun e => peerOnPort s e port && getP s (pk (0x0B40 + e) 4) == f.srcIp).map (· + 1)

/-- An answer frame of the client: a failed CRC is counted, an ill-formed message or one of no flow is discarded. -/
def answerIn (op port : Nat) (f : HmsFrame) (fx : Nat → State → State) (s : State) : Host.Outcome State Fault Refusal :=
  if 17 ≤ port then .fault .noSuchUnit
  else if f.op ≠ op then .refused .illFormed
  else
    let s := incP s (portKey port 0x0D) 1
    if hmsCrc f ≠ f.crc then .next (incP s (pk 0x0A40 0x0A) 1)
    else if f.version ≠ 1 || f.rsv0 ≠ 0 || f.rsv1 ≠ 0 || f.length ≠ f.payload.length then .next (incP s (portKey port 0x0F) 1)
    else match flowOf s port f with
      | none => .next (incP s (portKey port 0x0F) 1)
      | some fl => .next (fx fl s)

/-- A request is complete: its owner learns of it. -/
def reqDone (s : State) (r : HReq) (bs : Option (List Byte)) : State :=
  match r.who with
  | .dma ch id part => dmaAnswered s ch id part bs
  | .dropped => s
  | who => snapAcked s who

/-- Take requests off a flow; the flow has advanced, and sends what waits. -/
def flowAdvance (s : State) (fl : Nat) (keep : HReq → Bool) : State :=
  let f := getFlow s fl
  let s := setFlow s fl { f with unacked := f.unacked.filter keep, rounds := 0, sentNs := s.ns }
  pumpFlow fl f.waiting.length s

/-- DATA: the bytes of a READ reach the requester (R457). -/
def execData (port : Nat) (f : HmsFrame) (s : State) : Host.Outcome State Fault Refusal :=
  answerIn 0x81 port f (fun fl s =>
    match (getFlow s fl).unacked.find? fun r => r.frame.op == 1 && r.frame.seq == f.seq && r.frame.count == f.length with
    | none => s
    | some r => reqDone (flowAdvance s fl fun q => !(q.frame.op == 1 && q.frame.seq == f.seq)) r (some f.payload)) s

/-- A request below the next expected SEQ of an ACK: within half the number range before it. -/
def seqBelow (q n : Nat) : Bool := decide ((n + 2 ^ 32 - q) % 2 ^ 32 - 1 < 2 ^ 31) && q % 2 ^ 32 ≠ n % 2 ^ 32

/-- ACK: every request below the SEQ it names is applied; a READ stays until its DATA comes (R457). -/
def execAck (port : Nat) (f : HmsFrame) (s : State) : Host.Outcome State Fault Refusal :=
  answerIn 0x82 port f (fun fl s =>
    let acked (r : HReq) : Bool := r.frame.op ≠ 1 && seqBelow r.frame.seq f.seq
    let done := (getFlow s fl).unacked.filter acked
    if done.isEmpty then s
    else done.foldl (fun s r => reqDone s r none) (flowAdvance s fl fun r => !acked r)) s

/-- NAK: the request is refused: fault 0Fh of the channel, or the snapshot fails (R458). -/
def execNak (port : Nat) (f : HmsFrame) (s : State) : Host.Outcome State Fault Refusal :=
  answerIn 0x83 port f (fun fl s =>
    let s := incP s (pk 0x0A40 9) 1
    match (getFlow s fl).unacked.find? fun r => r.frame.seq == f.seq with
    | none => s
    | some r =>
      let s := flowAdvance s fl fun q => q.frame.seq ≠ f.seq
      match r.who with
      | .dma ch id _ =>
        (match (getDma s ch).xfers.find? fun t => t.id == id with
          | some t => dmaProgFault s ch t.pc t.word
          | none => s)
      | .page d _ _ => failSnap s d
      | .mirror d _ _ => failSnap s d
      | .refresh d => failSnap s d
      | .record d _ => failSnap s d
      | .dropped => s) s

/-- The sender gives up on a flow: its next request restarts it; DMA traffic is a lost link, snapshots fail (R458). -/
def giveUp (s : State) (fl rounds : Nat) : State :=
  let f := getFlow s fl
  let all := f.unacked ++ f.waiting
  let port := (flowDst s fl).1
  let dma := all.any fun r => match r.who with
    | .dma _ _ _ => true
    | _ => false
  let s' := if dma then portLost s port rounds else s
  let s' := ((List.range 8).filter fun d => all.any fun r => snapOwner d r.who).foldl (fun s d =>
    if (getSnapD s d).phase == 0 && (getSnapD s d).out == 0 then s else failSnap s d) s'
  let f' := getFlow s' fl
  setFlow s' fl { f' with unacked := [], waiting := [], rounds := 0, restart := true }

/-- HMS_RESEND_TIMEOUT: the ACK of a flow has not advanced for hms.rto_us: every unacknowledged request is resent from
the oldest, or the sender gives up after hms.max_resends (R457, R458). -/
def execHmsResendTimeout (fl : Nat) (s : State) : Host.Outcome State Fault Refusal :=
  if 129 ≤ fl then .fault .noSuchUnit else
  let f := getFlow s fl
  if f.unacked.isEmpty then .refused (.notEnabled "the flow has nothing unacknowledged")
  else
    let s := toNs (f.sentNs + getP s (pk 0x0A40 6) * 1000) s
    if getP s (pk 0x0A40 7) ≤ f.rounds then .next (giveUp s fl f.rounds)
    else
      let s := f.unacked.foldl (fun s r => emitReq s fl r) s
      let s := incP s (pk 0x0A40 8) f.unacked.length
      .next (setFlow s fl { f with rounds := f.rounds + 1, sentNs := s.ns })

end Sys2Proof.Machine
end

