-- ==== Sys2Proof/Machine/Package.lean ====
section
/-!
DEFINITION. The package and the board (R370, R446, R460 to R466): the names and places of the lands, what each land carries,
the lanes of the ports, the board signals and the rails. These are fixed facts of the part: no command changes them.
-/
namespace Sys2Proof.Machine

/-! ### Lanes (R446) -/

/-- The lane of a port's lane l, as the I/O die and its lane; port 16 is the host port, whose lanes H4 to H7 lie on IO1. -/
def portLane (port l : Nat) : Option (Nat × Nat) :=
  if port == 16 then (if l < 4 then some (0, l) else if l < 8 then some (1, 28 + l) else none)
  else if 4 ≤ l then none
  else if port < 8 then some (0, 4 + 4 * port + l)
  else if port < 16 then some (1, 4 * (port - 8) + l)
  else none

/-! ### Rails (R370, R466) -/

/-- The nine rails, in the order of R370. -/
inductive Rail where
  | vddCmp | vddSrm | vddIod | vddSds | vddhSds | vddHbm | vddqHbm | vppHbm | v1p8Aux
  deriving DecidableEq, Repr

/-- How far a rail may lie from its value: in mV, or in percent. -/
inductive Band where
  | mv (n : Nat)
  | percent (n : Nat)
  deriving DecidableEq, Repr

/-- What the board must hold for a rail: its range in mV, the largest current in A, band, ripple and absolute maximum in mV, and
the PMBus address of its regulator. -/
structure RailSpec where
  rail   : Rail
  loMv   : Nat
  hiMv   : Nat
  maxA   : Nat
  band   : Band
  ripple : Nat
  absMv  : Nat
  pmbus  : Nat
  deriving DecidableEq, Repr

/-- The tables of R370 and R466. -/
def railSpecs : List RailSpec := [
  ⟨.vddCmp, 600, 900, 1900, .mv 10, 10, 1000, 0x40⟩,
  ⟨.vddSrm, 750, 900, 260, .mv 10, 10, 1000, 0x41⟩,
  ⟨.vddIod, 750, 750, 180, .percent 3, 15, 900, 0x42⟩,
  ⟨.vddSds, 900, 900, 60, .percent 2, 5, 1050, 0x43⟩,
  ⟨.vddhSds, 1200, 1200, 12, .percent 3, 10, 1400, 0x44⟩,
  ⟨.vddHbm, 1050, 1050, 120, .percent 3, 15, 1250, 0x45⟩,
  ⟨.vddqHbm, 700, 700, 95, .percent 3, 10, 850, 0x46⟩,
  ⟨.vppHbm, 1800, 1800, 8, .percent 5, 30, 2100, 0x47⟩,
  ⟨.v1p8Aux, 1800, 1800, 4, .percent 5, 30, 2100, 0x48⟩]

/-- A voltage at the lands, in mV, lies in the band of a rail that is to be at `want` mV (R466). -/
def RailSpec.holds (r : RailSpec) (want mv : Nat) : Bool :=
  match r.band with
  | .mv n => decide (want ≤ mv + n) && decide (mv ≤ want + n)
  | .percent n => decide (want * (100 - n) ≤ 100 * mv) && decide (100 * mv ≤ want * (100 + n))

/-- The board's own defaults until the device takes the rails over (R380, R466). -/
def boardDefaultMv : Rail → Option Nat
  | .vddSrm => some 800
  | .vddCmp => some 750
  | _ => none

/-! ### Board signals (R464) -/

/-- The direction of a board signal. -/
inductive PinDir where
  | inp | out | both | openDrain
  deriving DecidableEq, Repr

/-- The signals n = 0 to 21 of R464; REFCLK stands apart. -/
def boardSignals : List (String × PinDir) := [
  ("PTP_1PPS", .inp), ("QSPI_CLK", .out), ("QSPI_CS_L", .out), ("QSPI_IO0", .both), ("QSPI_IO1", .both), ("QSPI_IO2", .both),
  ("QSPI_IO3", .both), ("PMB_CLK", .out), ("PMB_DATA", .both), ("AVS_CLK", .out), ("AVS_MDATA", .out), ("AVS_SDATA", .inp),
  ("TCK", .inp), ("TMS", .inp), ("TDI", .inp), ("TDO", .out), ("TRST_L", .inp), ("PWR_OK", .inp), ("RESET_L", .inp),
  ("FAULT_L", .openDrain), ("ALERT_L", .openDrain), ("THERMTRIP_L", .openDrain)]

/-- Cells of the boundary register: one for each control signal of R464, signal 0 nearest TDO (R465). -/
def boundaryCells : Nat := boardSignals.length

/-! ### Lands (R460 to R463) -/

/-- The nineteen row letters. -/
def rowLetters : List Char := ['A', 'B', 'C', 'D', 'E', 'F', 'G', 'H', 'J', 'K', 'L', 'M', 'N', 'P', 'T', 'U', 'V', 'W', 'Y']

/-- The name of a row, index 1 to 92. -/
def rowName (r : Nat) : String :=
  let c (n : Nat) : Char := rowLetters.getD n 'A'
  let last := c ((r - 1) % 19)
  if r ≤ 19 then String.ofList [last] else String.ofList [c ((r - 1) / 19 - 1), last]

/-- The name of a land. -/
def landName (r c : Nat) : String := rowName r ++ toString c

/-- A position of the 92 × 92 grid that carries a land: neither in the keep-out nor one of the five at a corner (R460). -/
def hasLand (r c : Nat) : Bool :=
  let edge (x : Nat) : Nat := min (x - 1) (92 - x)
  decide (1 ≤ r) && decide (r ≤ 92) && decide (1 ≤ c) && decide (c ≤ 92) &&
    !(decide (38 ≤ r) && decide (r ≤ 55) && decide (38 ≤ c) && decide (c ≤ 55)) &&
    !((edge r == 0 && decide (edge c ≤ 2)) || (edge c == 0 && decide (edge r ≤ 2)))

/-- What a land carries. -/
inductive Land where
  | rail (r : Rail)
  | vss
  | lane (io k : Nat) (rx neg : Bool)     -- a wire of lane k of an I/O die
  | refclk (neg : Bool)
  | signal (n : Nat)
  deriving DecidableEq, Repr

/-- The land of a lane's wire (R462). -/
def laneLand (io k : Nat) (rx neg : Bool) : Nat × Nat :=
  ((if k < 18 then (if rx then 3 else 1) else (if rx then 8 else 6)),
    (if io == 0 then 5 else 53) + 2 * (k % 18) + (if neg then 1 else 0))

/-- The land of a control signal (R463). -/
def signalLand (n : Nat) : Nat × Nat := (91, 12 + 2 * n)

/-- The lane wire at a position of the SerDes region. -/
def laneAt (r c : Nat) : Option Land :=
  let row : Option (Nat × Bool) := match r with
    | 1 => some (0, false)
    | 3 => some (0, true)
    | 6 => some (18, false)
    | 8 => some (18, true)
    | _ => none
  match row with
  | none => none
  | some (k, rx) =>
    if 5 ≤ c && c ≤ 40 then some (.lane 0 (k + (c - 5) / 2) rx ((c - 5) % 2 == 1))
    else if 53 ≤ c && c ≤ 88 then some (.lane 1 (k + (c - 53) / 2) rx ((c - 53) % 2 == 1))
    else none

/-- The rail of a power region at a position (R461). -/
def railAt (r c : Nat) : Rail :=
  if r ≤ 13 then (if r == 13 then .vddhSds else .vddSds)
  else if c ≤ 14 || 79 ≤ c then (if r ≤ 15 then .vppHbm else if r ≤ 47 then .vddqHbm else .vddHbm)
  else if r ≤ 20 then .vddIod
  else if r ≤ 30 then .vddSrm
  else .vddCmp

/-- What the land at a position carries; none where there is no land (R461 to R463). -/
def landAt (r c : Nat) : Option Land :=
  if !hasLand r c then none
  else if r ≤ 9 then some ((laneAt r c).getD .vss)
  else if r ≤ 88 then some (if (r + c) % 2 == 0 then .rail (railAt r c) else .vss)
  else if r == 89 && 12 ≤ c && c ≤ 26 && c % 2 == 0 then some (.rail .v1p8Aux)
  else if r == 91 && 12 ≤ c && c ≤ 54 && c % 2 == 0 then some (.signal ((c - 12) / 2))
  else if r == 92 && (c == 8 || c == 9) then some (.refclk (c == 9))
  else some .vss

/-- The lands that meet a test. -/
def landCount (p : Land → Bool) : Nat :=
  ((List.range 92).map fun r => ((List.range 92).filter fun c => (landAt (r + 1) (c + 1)).any p).length).foldl (· + ·) 0

end Sys2Proof.Machine
end

