-- ==== Sys2Proof/Machine/Ports.lean ====
section
/-!
DEFINITION. The Ethernet ports: flow control, address resolution, links and training, discarded frames, the PTP clock
and its servo, port modes, and the test access port (R446 to R455, R459, R465).
-/
namespace Sys2Proof.Machine

/-- A frame is accepted at a port. -/
def rxOk (s : State) (port : Nat) : State := incP s (portKey port 0x0D) 1
/-- A frame is discarded at a port. -/
def rxDrop (s : State) (port : Nat) : State := incP s (portKey port 0x0F) 1

/-! ### Priority flow control (R452) -/

/-- Requests of the flows that leave by a port go on. -/
def pumpPort (s : State) (port : Nat) : State :=
  ((s.ports.flows.map (·.1)).filter fun fl => (flowDst s fl).1 == port).foldl (fun s fl =>
    pumpFlow fl (getFlow s fl).waiting.length s) s

/-- Nanoseconds that a pause of `q` quanta lasts: 512 bit times each, at 800 Gb/s or 1.6 Tb/s. -/
def pauseNs (s : State) (port q : Nat) : Nat := ceilDiv (q * 512) (if getP s (portKey port 1) == 2 then 1600 else 800)

/-- PFC_FRAME: a pause for a priority of the mask stops sending on it for the quanta given, and 0 quanta end it; one
outside the mask is discarded and counted (R452). -/
def execPfcFrame (port prio quanta : Nat) (s : State) : Host.Outcome State Fault Refusal :=
  if 17 ≤ port || 8 ≤ prio then .fault .noSuchUnit
  else
    let s := incP s (portKey port 0x12) 1
    if !bit (getP s (portKey port 7)) prio then .next (rxDrop s port)
    else
      let s := rxOk s port
      let x := getPort s port
      let s := setPort s port { x with pause := SMap.set 0 x.pause prio (if quanta == 0 then 0 else s.ns + pauseNs s port quanta) }
      .next (if quanta == 0 then pumpPort s port else s)

/-- PFC_PAUSE_EXPIRY: the quanta of a pause run out: the port sends frames of the priority again (R452). -/
def execPfcPauseExpiry (port prio : Nat) (s : State) : Host.Outcome State Fault Refusal :=
  if 17 ≤ port || 8 ≤ prio then .fault .noSuchUnit
  else
    let x := getPort s port
    let t := SMap.get 0 x.pause prio
    if t == 0 then .refused (.notEnabled "the priority is not paused")
    else
      let s := toNs t s
      .next (pumpPort (setPort s port { x with pause := SMap.set 0 x.pause prio 0 }) port)

/-! ### Addresses (R449) -/

/-- ARP_REQUEST: one for the port's IPv4 address is answered, another discarded (R449). -/
def execArpRequest (port ip : Nat) (asker : Eth) (s : State) : Host.Outcome State Fault Refusal :=
  if 17 ≤ port then .fault .noSuchUnit
  else if ip ≠ 0 && ip == getP s (portKey port 4) then .next (emit (rxOk s port) port (.arpReply port ip asker))
  else .next (rxDrop s port)

/-- The IPv6 link-local address of a MAC, by modified EUI-64, as a 16-byte BLOB's number (R449). -/
def linkLocal (mac : Nat) : Nat :=
  let m (i : Nat) : Byte := BitVec.ofNat 8 (mac >>> (8 * i))
  leNat ([0xFE#8, 0x80#8] ++ List.replicate 6 0#8 ++ [m 0 ^^^ 2#8, m 1, m 2, 0xFF#8, 0xFE#8, m 3, m 4, m 5])

/-- NEIGHBOUR_SOLICITATION: one for an address of the port is answered, another discarded (R449). -/
def execNeighbourSolicitation (port ip : Nat) (asker : Eth) (s : State) : Host.Outcome State Fault Refusal :=
  if 17 ≤ port then .fault .noSuchUnit
  else if ip == linkLocal (getP s (portKey port 3)) || (ip ≠ 0 && ip == getP s (portKey port 5)) then
    .next (emit (rxOk s port) port (.neighbourAdvert port ip asker))
  else .next (rxDrop s port)

/-- DISCARDED_FRAME: a frame that no protocol accepts or that fails a check is counted (R407, R449). -/
def execDiscardedFrame (port : Nat) (why : DropReason) (s : State) : Host.Outcome State Fault Refusal :=
  if 17 ≤ port then .fault .noSuchUnit
  else match why with
    | .notAccepted => .next (rxDrop s port)
    | .fcs => .next (rxDrop s port)
    | .fec => .next (incP (rxDrop s port) (portKey port 0x11) 1)
    | .macsec =>
      if port == hostPort && getP s (pk 0x0530 1) ≠ 0 then .next (incP (rxDrop s port) (pk 0x0530 0xB) 1)
      else .refused (.notEnabled "the port runs no MACsec")

/-! ### Links (R447, R453) -/

/-- The value of port.link. -/
def linkOf (s : State) (port : Nat) : Nat := getP s (portKey port 0xA)
def setLink (s : State) (port v : Nat) : State := setP s (portKey port 0xA) v

/-- A port comes up: its readiness bit, once its start-up is over, and its waiting requests (R385, R453). -/
def linkUp (s : State) (port : Nat) : State := pumpPort (setLink s port 2) port

/-- LINK_LOSS: the PCS has lost alignment for 1 ms: the port retrains (R453). -/
def execLinkLoss (port : Nat) (s : State) : Host.Outcome State Fault Refusal :=
  if 17 ≤ port then .fault .noSuchUnit
  else if linkOf s port ≠ 2 then .refused (.notEnabled "the link is not up")
  else
    let s := incP (setLink s port 1) (portKey port 0xC) 1
    .next (setPort s port { getPort s port with attempts := 1 })

/-- RETRAIN_ATTEMPT_END: an attempt brings the link up, or fails; after the last one port.link reads 03h and code 11h is
raised (R453). -/
def execRetrainAttemptEnd (port : Nat) (ok : Bool) (s : State) : Host.Outcome State Fault Refusal :=
  if 17 ≤ port then .fault .noSuchUnit
  else
    let x := getPort s port
    if linkOf s port ≠ 1 || x.attempts == 0 then .refused (.notEnabled "the port is not retraining")
    else if ok then .next (linkUp (setPort s port { x with attempts := 0 }) port)
    else if x.attempts < getP s (portKey port 0xB) then .next (setPort s port { x with attempts := x.attempts + 1 })
    else .next (portLost (setLink (setPort s port { x with attempts := 0 }) port 3) port x.attempts)

/-- PERIODIC_RETRAIN: a failed port tries every 10 s until it links, with no record (R453). -/
def execPeriodicRetrain (port : Nat) (ok : Bool) (s : State) : Host.Outcome State Fault Refusal :=
  if 17 ≤ port then .fault .noSuchUnit
  else if linkOf s port ≠ 3 then .refused (.notEnabled "the link has not failed")
  else .next (if ok then linkUp s port else s)

/-- LINK_TRAINING_END: the first training after a start or a mode change brings the link up or leaves it down
(R447). -/
def execLinkTrainingEnd (port : Nat) (ok : Bool) (s : State) : Host.Outcome State Fault Refusal :=
  if 17 ≤ port then .fault .noSuchUnit
  else if linkOf s port ≠ 1 || (getPort s port).attempts ≠ 0 then .refused (.notEnabled "the port is not in its first training")
  else .next (if ok then linkUp s port else setLink s port 0)

/-- port.mode of a port: 02h on the host port alone; not while a domain uses a fabric port. The link drops and trains
anew in the new mode (R459). -/
def writePortMode (s : State) (port v : Nat) : Nat × State :=
  if 3 ≤ v || (v == 2 && port ≠ hostPort) then (4, s)
  else if port ≠ hostPort && (List.range 8).any fun d => usesPort s d port then (5, s)
  else
    let old := getP s (portKey port 1)
    let s := setP s (portKey port 1) v
    (0, if v == old then s
      else setLink (setPort s port { getPort s port with attempts := 0, failed := false }) port (if v == 0 then 0 else 1))

/-- PORT_MODE_WRITE (R459). -/
def execPortModeWrite (port v : Nat) (s : State) : Host.Outcome State Fault Refusal :=
  .next (if 17 ≤ port then noParam s false else gated s (portKey port 1) fun s => writePortMode s port v)

/-! ### The PTP clock (R454, R455) -/

/-- Remove what slewing at 50 ppm has had time to remove of the last offset (R455). -/
def slewNow (s : State) : State :=
  let x := s.ports
  let room : Int := ((s.ns - x.slewNs) * 50 / 1000000 : Nat)
  let step : Int := if 0 ≤ x.slew then min x.slew room else max x.slew (-room)
  { s with ptp := (s.ptp - step).toNat, ports := { x with slew := x.slew - step, slewNs := s.ns } }

/-- A measured offset: at most 1 ms is slewed, a larger one steps the clock and is counted (R455). -/
def applyOffset (s : State) (off : Int) : State :=
  let s := slewNow s
  let s := setP s (pk 0x0A30 6) (wrap 64 off)
  if off.natAbs ≤ 1000000 then { s with ports := { s.ports with slew := off } }
  else incP { s with ptp := (s.ptp - off).toNat, ports := { s.ports with slew := 0 } } (pk 0x0A30 8) 1

/-- The servo of source 01h: locked after 16 consecutive offsets within ±50 ns (R455). -/
def ptpSync (s : State) (off : Int) : State :=
  let s := applyOffset s off
  let good := if off.natAbs ≤ 50 then s.ports.good + 1 else 0
  let st := if 16 ≤ good then 2 else if off.natAbs ≤ 50 && getP s (pk 0x0A30 7) == 2 then 2 else 1
  setP { s with ports := { s.ports with good := min good 16, syncNs := s.ns } } (pk 0x0A30 7) st

/-- PTP_MESSAGE: on ptp.port a message of ptp.domain drives the slave clock; on another port it is discarded (R449,
R455). -/
def execPtpMessage (port domain : Nat) (m : PtpMsg) (s : State) : Host.Outcome State Fault Refusal :=
  if 17 ≤ port then .fault .noSuchUnit
  else if portOfCode (getP s (pk 0x0A30 2)) ≠ port then .next (rxDrop s port)
  else
    let s := rxOk s port
    if getP s (pk 0x0A30 1) ≠ 1 || domain ≠ getP s (pk 0x0A30 3) then .next s
    else match m with
      | .announce => .next { s with ports := { s.ports with master := true } }
      | .sync off => .next (if s.ports.master then ptpSync s off else s)
      | .other => .next s

/-- PTP_1PPS_EDGE: under source 02h a rising edge is a second boundary; the first one after a write of ptp.next_second
sets the seconds; one more than 100 µs off its time is ignored and counted (R455). -/
def execPtp1ppsEdge (s : State) : Host.Outcome State Fault Refusal :=
  if getP s (pk 0x0A30 1) ≠ 2 then .next s
  else
    let s := slewNow s
    if s.ports.secDue then
      let t := getP s (pk 0x0A30 5) * 1000000000
      let s := applyOffset s ((s.ptp : Int) - t)
      .next { s with ports := { s.ports with secDue := false, edge := some (t + 1000000000) } }
    else
      let near := (s.ptp + 500000000) / 1000000000 * 1000000000
      match s.ports.edge with
      | some _ =>
        let off : Int := (s.ptp : Int) - near
        if 100000 < off.natAbs then .next (incP s (pk 0x0A30 9) 1)
        else
          let s := applyOffset s off
          .next { s with ports := { s.ports with edge := some (near + 1000000000) } }
      | none =>
        let s := applyOffset s ((s.ptp : Int) - near)
        .next { s with ports := { s.ports with edge := some (near + 1000000000) } }

/-- PTP_HOLDOVER: no Sync has arrived for 3 s: holdover, the frequency kept (R455). -/
def execPtpHoldover (s : State) : Host.Outcome State Fault Refusal :=
  if getP s (pk 0x0A30 1) ≠ 1 || !(getP s (pk 0x0A30 7) == 1 || getP s (pk 0x0A30 7) == 2) then
    .refused (.notEnabled "the clock follows no PTP master")
  else
    let s := toNs (s.ports.syncNs + 3000000000) s
    .next (setP { s with ports := { s.ports with good := 0 } } (pk 0x0A30 7) 3)

/-! ### The test access port (R465) -/

/-- The next state of the IEEE 1149.1 controller. -/
def tapNext (st : Nat) (tms : Bool) : Nat :=
  match st with
  | 0 => if tms then 0 else 1
  | 1 => if tms then 2 else 1
  | 2 => if tms then 9 else 3
  | 3 => if tms then 5 else 4
  | 4 => if tms then 5 else 4
  | 5 => if tms then 8 else 6
  | 6 => if tms then 7 else 6
  | 7 => if tms then 8 else 4
  | 8 => if tms then 2 else 1
  | 9 => if tms then 0 else 10
  | 10 => if tms then 12 else 11
  | 11 => if tms then 12 else 11
  | 12 => if tms then 15 else 13
  | 13 => if tms then 14 else 13
  | 14 => if tms then 15 else 11
  | _ => if tms then 2 else 1

/-- IDCODE: stepping in bits [31:28], 0880h, 0B5Fh (R465). -/
def idcode (s : State) : Nat := getP s (pk 0 3) * 2 ^ 28 + 0x0880 * 2 ^ 12 + 0x0B5F

/-- The length of the data register that an instruction selects. -/
def drLength (ir : Nat) : Nat :=
  match ir with
  | 0 => 1
  | 3 => 32
  | _ => boundaryCells

/-- What Capture-DR loads: IDCODE, the levels of the control lands, or the bypass register's 0. -/
def drCapture (s : State) (ir pins : Nat) : Nat :=
  match ir with
  | 0 => 0
  | 3 => idcode s
  | _ => pins % 2 ^ boundaryCells

/-- A clock of the TAP: the action of the state it is in, then the next state (R465). -/
def tapClock (s : State) (tms tdi : Bool) (pins : Nat) : Tap :=
  let t := s.ports.tap
  let push (len : Nat) : Nat := t.shift / 2 + (if tdi then 2 ^ (len - 1) else 0)
  let t := match t.st with
    | 3 => { t with shift := drCapture s t.ir pins }
    | 4 => { t with tdo := bit t.shift 0, shift := push (drLength t.ir) }
    | 8 => if t.ir == 1 || t.ir == 2 then { t with latch := t.shift } else t
    | 10 => { t with shift := 1 }
    | 11 => { t with tdo := bit t.shift 0, shift := push Config.irLength }
    | 15 => { t with ir := Config.irDecode t.shift % 4 }
    | _ => t
  let t := { t with st := tapNext t.st tms }
  if t.st == 0 then { t with ir := 3 } else t

/-- BOUNDARY_SCAN: a rising edge of TCK with the levels of TMS and TDI, or TRST_L asserted (`trst`), which resets the
TAP; `pins` gives the levels at the control lands. Nothing else of the device changes (R465). -/
def execBoundaryScan (tms tdi trst : Bool) (pins : Nat) (s : State) : Host.Outcome State Fault Refusal :=
  .next { s with ports := { s.ports with tap := if trst then { st := 0, ir := 3, latch := s.ports.tap.latch } else tapClock s tms tdi pins } }

end Sys2Proof.Machine
end

