-- ==== Sys2Proof/Machine/Wire.lean ====
section
/-!
DEFINITION. The wire of the collectives: blocks and their encodings, economy mode and promotion, frames, digests
(R314 to R318, R326 to R328), and the source and destination tensors of a collective (R320, R321).
-/
namespace Sys2Proof.Machine

/-! ### Blocks (R317, R326, R327) -/

/-- The default of a store of blocks. -/
def noBlock : WBlock := ⟨false, 0, [], 0⟩

/-- decode: the FP32 bits of a block's elements, with poison marks; `promoted` blocks hold FP32 bits (R317). -/
def decodeBlock (w : WBlock) : List (Nat × Bool) :=
  (List.range w.vals.length).map fun i =>
    let n := w.vals.getD i 0
    (if w.promoted then f32Bits (f32Of n) else f32Bits (roundF32 (applyScale w.scale (eltValue 3 n))), bit w.pz i)

/-- The poison marks of a block as bits. -/
def marksOf (vs : List (Nat × Bool)) : Nat :=
  (List.range vs.length).foldl (fun a i => if (vs.getD i (0, false)).2 then a + 2 ^ i else a) 0

/-- A block that holds FP32 bits. -/
def fullBlock (vs : List (Nat × Bool)) : WBlock := ⟨true, 0, vs.map (·.1), marksOf vs⟩

/-- The scale that an originator chooses for its own values (R326). -/
def ownScale (h : Nat) (vs : List (Nat × Bool)) : Nat :=
  let a := vs.foldl (fun (a : FV) x =>
    let v := (f32Of x.1).abs
    if v.isNaN || v.isInf then a else maxFV a v) FV.zero
  let e : Int := match a with
    | .fin _ m q => if m == 0 then 0 else (Nat.log2 m : Int) + q
    | _ => 0
  (max 0 (min 254 (e - 15 + (h : Int) + 127))).toNat

/-- A value divided by 2^(SCALE − 127). -/
def unscale (scale : Nat) (x : FV) : FV :=
  match x with
  | .fin s m e => .fin s m (e + (127 - (scale : Int)))
  | x => x

/-- The block leaves the range of its scale: a finite element reaches 65,520 × 2^(SCALE − 127) (R327). -/
def overflows (scale : Nat) (vs : List (Nat × Bool)) : Bool :=
  vs.any fun x => match unscale scale (f32Of x.1) with
    | .fin _ m e => !(FV.magLt m e 65520 0)
    | _ => false

/-- enc(S): the block for the wire, and whether this is its promotion (R322, R326, R327). -/
def encBlock (econ : Bool) (b : SBlock) : WBlock × Bool :=
  if !econ then (fullBlock b.vals, false)
  else if b.promoted then (fullBlock b.vals, false)
  else if overflows b.scale b.vals then (fullBlock b.vals, true)
  else (⟨false, b.scale, b.vals.map fun x => (convElt 3 .rne (unscale b.scale (f32Of x.1))).code, marksOf b.vals⟩, false)

/-- add, element by element, of FP32 bits with poison marks (R60, R75). -/
def addVals (xs ys : List (Nat × Bool)) : List (Nat × Bool) :=
  (xs.zip ys).map fun z => (f32Bits (addFV (f32Of z.1.1) (f32Of z.2.1)), z.1.2 || z.2.2)

/-- The NaNs that those adds generate (R60). -/
def addValsMade (xs ys : List (Nat × Bool)) : Nat :=
  sumNat ((xs.zip ys).map fun z => addMade (some (f32Of z.1.1)) (some (f32Of z.2.1)))

/-- NaN elements among FP32 bits. -/
def nansIn (vs : List (Nat × Bool)) : Nat := (vs.filter fun x => (f32Of x.1).isNaN).length

/-- A block of the running sum after a ring or chain hop: add(decode(in), x), keeping the scale and kind received. -/
def stepBlock (w : WBlock) (x : SBlock) : SBlock := ⟨w.promoted, w.scale, addVals (decodeBlock w) x.vals⟩

/-! ### Payloads and frames (R314, R315, R317) -/

/-- The bytes of a block. -/
def blockBytes (econ : Bool) (w : WBlock) : List Byte :=
  if !econ then (decodeBlock w).flatMap fun x => beBytes 4 x.1
  else if w.promoted then [1#8, 0#8] ++ w.vals.flatMap (beBytes 4)
  else [0#8, BitVec.ofNat 8 w.scale] ++ w.vals.flatMap (beBytes 2)

/-- Numbers of `k` bytes, most significant first. -/
def beNats (k : Nat) (bs : List Byte) : List Nat := (chunksOf k (bs.length / k) bs).map beNat

/-- The blocks of a payload, at most `n` of them; none where the layout is malformed (R317). -/
def parseBlocks (econ : Bool) : Nat → List Byte → Option (List WBlock)
  | 0, bs => if bs.isEmpty then some [] else none
  | n + 1, bs =>
    let full := if econ then 258 else 256
    let kind := (bs.headD 0).toNat
    let second := (bs.getD 1 0).toNat
    if econ && kind == 0 then
      if bs.length < 130 || second == 0xFF then none
      else (parseBlocks econ n (bs.drop 130)).map (⟨false, second, beNats 2 ((bs.drop 2).take 128), 0⟩ :: ·)
    else if econ && (kind ≠ 1 || second ≠ 0) then none
    else if bs.length < full then none
    else (parseBlocks econ n (bs.drop full)).map (⟨true, 0, beNats 4 ((bs.drop (full - 256)).take 256), 0⟩ :: ·)

/-- Blocks of kind 01h. -/
def promotedIn (econ : Bool) (ws : List WBlock) : Nat := if econ then (ws.filter (·.promoted)).length else 0

/-- Bytes 4 to 21 of a header (R328). -/
def digestHead (f : HerdFrame) : List Byte :=
  beBytes 2 f.herdId ++ beBytes 2 f.srcSeat ++ beBytes 2 f.dstSeat ++ beBytes 2 f.hop ++ beBytes 4 f.collSeq ++
    beBytes 4 f.window ++ beBytes 2 f.chunk

/-- The digest of a contribution: its LAST frame's header bytes, then its payload (R328). -/
def digestOf (last : HerdFrame) (payload : List Byte) : Nat := crc64Run (crc64Run 0 (digestHead last)) payload

/-- Whole blocks grouped into frames of at most `room` bytes: each frame is filled before the next one begins, and a gap
in the block numbers begins a new one (R315). -/
def fillFrames (room : Nat) : List (Nat × WBlock × List Byte) → List (Nat × WBlock × List Byte) →
    List (List (Nat × WBlock × List Byte))
  | g, [] => if g.isEmpty then [] else [g]
  | g, x :: rest =>
    match g.getLast? with
    | none => fillFrames room [x] rest
    | some y =>
      if x.1 == y.1 + 1 && decide (sumNat (g.map (·.2.2.length)) + x.2.2.length ≤ room) then fillFrames room (g ++ [x]) rest
      else g :: fillFrames room [x] rest

/-- The frames of a contribution, made from one that carries its header fields; block numbers count from where BLOCK_OFFSET
does. The last frame carries LAST and the digest (R315, R328). -/
def framesOf (econ : Bool) (room : Nat) (head : HerdFrame) (bs : List (Nat × WBlock)) : List HerdFrame :=
  let groups := fillFrames room [] (bs.map fun b => (b.1, b.2, blockBytes econ b.2))
  let groups := if groups.isEmpty then [[]] else groups
  let payload := groups.flatMap fun g => g.flatMap (·.2.2)
  (List.range groups.length).map fun i =>
    let g := groups.getD i []
    let last := i + 1 == groups.length
    { head with
      last := if last then 1 else 0
      blocks := g.length
      blockOffset := (g.head?.map (·.1)).getD 0
      promoted := promotedIn econ (g.map (·.2.1))
      payload := g.flatMap (·.2.2)
      digest := if last then digestOf head payload else 0 }

/-! ### Tensors in memory (R320, R321) -/

/-- Bytes of a tensor of `n` blocks as tile images (R47). -/
def tensorBytes (fmt n : Nat) : Nat :=
  if fmt == 0x16 then ceilDiv n 64 * imageBytes 0x16 else n * (imageBytes fmt / 64)

/-- The runs of image bytes that rows r0 to r1 − 1 of a tile occupy. -/
def spanRuns (fmt r0 r1 : Nat) : List (Nat × Nat) :=
  let w := eltBits fmt * 8
  (w * r0, w * (r1 - r0)) :: (if fmt == 0x16 then [(8192 + r0, r1 - r0)] else [])

/-- Read runs of bytes of virtual memory at a base: the bytes found, by offset. -/
def readRuns (d base : Nat) : List (Nat × Nat) → State → SMap (Byte × Bool) × State
  | [], s => ([], s)
  | r :: rs, s =>
    let (_, bs, s) := vread s d (base + r.1) s.ctc r.2 (vfuel r.2)
    let (more, s) := readRuns d base rs s
    ((List.range bs.length).map (fun i => (r.1 + i, bs.getD i (0, false))) ++ more, s)

/-- The blocks lo to hi − 1 of a tensor, decoded to FP32 (R51 stage 2), with poison marks, tile by tile. -/
def readBlocks (d fmt base lo hi : Nat) : Nat → State → List (Nat × List (Nat × Bool)) × State
  | 0, s => ([], s)
  | n + 1, s =>
    if hi ≤ lo then ([], s)
    else
      let t := lo / 64
      let r1 := min 64 (hi - 64 * t)
      let (img, s) := readRuns d (base + t * imageBytes fmt) (spanRuns fmt (lo % 64) r1) s
      let rd (i : Nat) : Byte := (SMap.get (0, false) img i).1
      let pz (i : Nat) : Bool := (SMap.get (0, false) img i).2
      let rows := (List.range (r1 - lo % 64)).map fun k =>
        (lo + k, (rowAt fmt rd pz (lo % 64 + k)).map fun x => (f32Bits (stage2 x.v), x.p))
      let (more, s) := readBlocks d fmt base (64 * t + r1) hi n s
      (rows ++ more, s)

/-- Join runs that follow each other. -/
def joinRuns : List (Nat × List PByte) → List (Nat × List PByte)
  | [] => []
  | r :: rs =>
    match joinRuns rs with
    | [] => [r]
    | q :: qs => if r.1 + r.2.length == q.1 then (r.1, r.2 ++ q.2) :: qs else r :: q :: qs

/-- Write runs of bytes to a domain's virtual memory. -/
def putRuns (d base born : Nat) : List (Nat × List PByte) → State → Option Nat × State
  | [], s => (none, s)
  | r :: rs, s =>
    match vwrite s d (base + r.1) born r.2 (vfuel r.2.length) with
    | (.ok, s) => putRuns d base born rs s
    | (.bad va, s) => (some va, s)
    | (.absent va, s) => (some va, s)

/-- Write blocks of FP32 elements to a tensor, converting by RNE; saturations and NaN blocks are counted (R321). The
answer is an address that could not be written. -/
def writeBlocks (d fmt base born : Nat) (bs : List (Nat × List (Nat × Bool))) (s : State) : Option Nat × State :=
  let outs := bs.map fun b =>
    (b.1, encodeRow fmt 0 0 (fun _ => 0) (fun _ => 0) (b.1 % 64) 0 (b.2.map fun x => ⟨f32Of x.1, x.2⟩))
  let s := incP s (pk 0x0D40 7) (sumNat (outs.map (·.2.sat)))
  let s := incP s (pk 0x0D40 4) (sumNat (outs.map (·.2.nanBlock)))
  let runs := outs.flatMap fun o => o.2.runs.map fun r => (o.1 / 64 * imageBytes fmt + r.1, r.2)
  let data := runs.filter fun r => !(fmt == 0x16 && decide (8192 ≤ r.1 % imageBytes 0x16))
  let scales := runs.filter fun r => fmt == 0x16 && decide (8192 ≤ r.1 % imageBytes 0x16)
  putRuns d base born (joinRuns data ++ joinRuns scales) s

/-- A page of a range that a domain cannot reach. -/
def pageBad (d base n : Nat) (write : Bool) (s : State) : Bool × State :=
  (List.range ((base + n - 1) / 2 ^ 21 + 1 - base / 2 ^ 21)).foldl (fun (a : Bool × State) i =>
    match translate a.2 d (max base ((base / 2 ^ 21 + i) * 2 ^ 21)) write with
    | (.ok _ _, s) => (a.1, s)
    | (_, s) => (true, s)) (false, s)

end Sys2Proof.Machine
end

