-- ==== Sys2Proof/Machine/Herd.lean ====
section
/-!
DEFINITION. The collective engines (R310 to R337): the hops of rings, chains and trees, the start of a collective, its
sends, the frames it takes, its windows and its end.
-/
namespace Sys2Proof.Machine

/-! ### A CVC's configuration (R312, R338) -/

/-- What a CVC's configuration says. -/
structure Cvc where
  dom   : Nat
  unit  : Nat
  topo  : Nat
  n     : Nat
  p     : Nat
  next  : Nat
  prev  : Nat
  kids  : List Nat
  td    : Nat
  nd    : Nat
  prio  : Nat
  econ  : Bool
  room  : Nat
  limit : Nat
  wNs   : Nat
  deriving DecidableEq, Repr

def cvcKey (c sub : Nat) : Nat := pk (0x0B10 + c) sub
def cvcStat (c sub : Nat) : Nat := pk (0x0B20 + c) sub

def cvcCfg (s : State) (c : Nat) : Cvc :=
  let k (sub : Nat) : Nat := getP s (cvcKey c sub)
  { dom := k 1, unit := 0x80 + k 2, topo := k 3, n := k 4, p := k 5, next := k 6, prev := k 7,
    kids := ((List.range 8).map fun i => bits (k 8) (8 * i + 7) (8 * i)).filter (· ≠ 0xFF),
    td := k 9, nd := k 0xA, prio := k 0xB, econ := k 0xC == 1, room := k 0xD, limit := k 0xE, wNs := k 0xF }

/-- The seat of a peer entry; an entry that does not exist has none. -/
def seatOf (s : State) (e : Nat) : Option Nat := if e < 128 then some (getP s (pk (0x0B40 + e) 1)) else none

/-- COLL_SEQ of the current collective (R319). -/
def curSeq (s : State) (c : Nat) : Nat :=
  let x := getColl s c
  (x.iter * getP s (cvcKey c 0x12) + x.idx) % 2 ^ 32

/-! ### Descriptors (R320) -/

def cdStart (d : Nat) : Nat := bits d 511 448
def cdWindow (d : Nat) : Nat := bits d 447 416
def cdBlocks (d : Nat) : Nat := bits d 415 384 / 64
def cdDst (d : Nat) : Nat := bits d 383 336
def cdSrc (d : Nat) : Nat := bits d 335 288
def cdToken (d : Nat) : Nat := bits d 31 26
def cdPos (d : Nat) : Nat := bits d 25 20
def cdTokenEn (d : Nat) : Bool := bit d 19
def cdDstFmt (d : Nat) : Nat := bits d 18 14
def cdSrcFmt (d : Nat) : Nat := bits d 13 9
def cdOp (d : Nat) : Nat := bits d 1 0

/-- A format of a source or destination. -/
def collFmt (f : Nat) : Bool := f == 0 || f == 2 || f == 0x16

/-! ### Hops (R318, R322 to R325) -/

/-- The blocks of chunk k of `l` blocks over `n` positions (R318). -/
def chunkBlocks (n l k : Nat) : List Nat :=
  let b := ceilDiv l n
  (List.range (min ((k + 1) * b) l - min (k * b) l)).map (k * b + ·)

/-- A hop that a position sends: to which peer entries, which chunk, whether final values, and which copies it waits
for, by hop and peer entry. -/
structure SendLeg where
  hop   : Nat
  peers : List Nat
  chunk : Nat
  final : Bool
  needs : List (Nat × Nat)
  deriving DecidableEq, Repr

/-- A copy that a position takes: its hop, sender and chunk. -/
structure TakeLeg where
  hop   : Nat
  peer  : Nat
  chunk : Nat
  deriving DecidableEq, Repr

/-- The first gather hop of a ring. -/
def gatherBase (x : Cvc) (op : Nat) : Nat := if op == 2 then 0 else x.n - 1

/-- The hops that a position sends, in order (R322 to R324). -/
def sendLegs (x : Cvc) (op : Nat) : List SendLeg :=
  if x.n ≤ 1 || op == 3 then []
  else if x.topo == 0 then
    let reduce := if op == 2 then [] else (List.range (x.n - 1)).map fun h =>
      ⟨h, [x.next], (x.p + 2 * x.n - 1 - h) % x.n, false, if h == 0 then [] else [(h - 1, x.prev)]⟩
    let g0 := gatherBase x op
    let gather := if op == 1 then [] else (List.range (x.n - 1)).map fun g =>
      ⟨g0 + g, [x.next], (x.p + x.n - g) % x.n, true, if g0 + g == 0 then [] else [(g0 + g - 1, x.prev)]⟩
    reduce ++ gather
  else if x.topo == 1 then
    let last := x.n - 1
    (if x.p < last then [⟨x.p, [x.next], 0, op == 2, if x.p == 0 then [] else [(x.p - 1, x.prev)]⟩] else []) ++
      (if 0 < x.p then
        [⟨2 * last - x.p, [x.prev], 0, true, [if x.p == last then (last - 1, x.prev) else (2 * last - x.p - 1, x.next)]⟩]
        else [])
  else
    let up := x.kids.map fun e => (x.td - x.nd - 1, e)
    (if 0 < x.nd then [⟨x.td - x.nd, [x.next], 0, op == 2, up⟩] else []) ++
      (if x.kids.isEmpty then []
        else [⟨x.td + x.nd, x.kids, 0, true, if x.nd == 0 then up else [(x.td + x.nd - 1, x.next)]⟩])

/-- The copies that a position takes, in the order of their hops (R322 to R324). -/
def takeLegs (x : Cvc) (op : Nat) : List TakeLeg :=
  if x.n ≤ 1 || op == 3 then []
  else if x.topo == 0 then
    let reduce := if op == 2 then [] else (List.range (x.n - 1)).map fun h =>
      ⟨h, x.prev, (x.p + 2 * x.n - 2 - h) % x.n⟩
    let gather := if op == 1 then [] else (List.range (x.n - 1)).map fun g =>
      ⟨gatherBase x op + g, x.prev, (x.p + x.n - 1 - g) % x.n⟩
    reduce ++ gather
  else if x.topo == 1 then
    let last := x.n - 1
    (if 0 < x.p then [⟨x.p - 1, x.prev, 0⟩] else []) ++
      (if x.p < last then [⟨2 * last - x.p - 1, x.next, 0⟩] else [])
  else
    (x.kids.map fun e => ⟨x.td - x.nd - 1, e, 0⟩) ++ (if 0 < x.nd then [⟨x.td + x.nd - 1, x.next, 0⟩] else [])

/-- The neighbours from which the topology lets a hop come, whatever the operation (R316, R322 to R324). -/
def hopPeers (x : Cvc) (hop : Nat) : List Nat :=
  if x.topo == 0 then (if hop + 2 < 2 * x.n then [x.prev] else [])
  else ((takeLegs x 0).filter fun l => l.hop == hop).map (·.peer)

/-- The blocks a copy brings, where the configuration says; which chunks a subtree's copy brings, it does not (R322 to R324). -/
def legBlocks (x : Cvc) (op l : Nat) (t : TakeLeg) : Option (List Nat) :=
  if x.topo == 0 then some (chunkBlocks x.n l t.chunk)
  else if op ≠ 2 then some (List.range l)
  else if x.topo == 1 then
    some (if t.hop < x.n - 1 then (List.range (t.hop + 1)).flatMap (chunkBlocks x.n l) else List.range l)
  else if t.peer == x.next && 0 < x.nd then some (List.range l) else none

/-- BLOCK_OFFSET counts from the first block of the chunk on a ring, of the tensor otherwise (R315). -/
def legBase (x : Cvc) (l chunk : Nat) : Nat := if x.topo == 0 then chunk * ceilDiv l x.n else 0

/-! ### Faults and results -/

/-- A fault of the CVC's engine (R320, R327, R329, R331, R334, R335). -/
def collFault (s : State) (c code d0 d1 : Nat) : State :=
  let x := cvcCfg s c
  raise s { mkRaised s code x.dom x.unit with detail0 := d0, detail1 := d1 }

/-- DETAIL0 of a seat and a CVC (R329). -/
def seatDetail (seat c : Nat) : Nat := seat % 0x1000 + c * 0x10000

/-- A fault at a descriptor's start: its DETAILs are stated for no code of these, and are free values (R228, R320). -/
def descFault (s : State) (c code : Nat) : State :=
  let (a, s) := freeBits s 64
  let (b, s) := freeBits s 64
  collFault s c code a b

/-- Write decode(w) of final blocks to DST, as the operation asks; NaN elements are counted (R321, R334). -/
def writeFinal (s : State) (c : Nat) (bs : List (Nat × WBlock)) : State :=
  let x := cvcCfg s c
  let k := getColl s c
  let l := cdBlocks k.desc
  let own := chunkBlocks x.n l x.p
  let bs := (if cdOp k.desc == 1 then bs.filter fun b => own.contains b.1 else bs).map fun b => (b.1, decodeBlock b.2)
  let s := incP s (cvcStat c 0xA) (sumNat (bs.map fun b => nansIn b.2))
  match writeBlocks x.dom (cdDstFmt k.desc) (cdDst k.desc) k.born bs s with
  | (none, s) => s
  | (some _, s) => descFault s c 0x12

/-- Count promotions, and fault beyond the limit (R327). -/
def countPromos (s : State) (c n : Nat) : State :=
  if n == 0 then s
  else
    let x := cvcCfg s c
    let k := getColl s c
    let s := setColl (incP s (cvcStat c 7) n) c { k with promos := k.promos + n }
    if x.limit ≠ 0 && decide (x.limit < k.promos + n) then collFault s c 0x0E (k.promos + n) x.limit else s

/-- enc of blocks of the running sum (R322, R327). -/
def encSum (s : State) (c : Nat) (bs : List Nat) : List (Nat × WBlock) × State :=
  let x := cvcCfg s c
  let k := getColl s c
  let out := bs.map fun b => (b, encBlock x.econ (SMap.get {} k.sum b))
  (out.map fun o => (o.1, o.2.1), countPromos s c (out.filter (·.2.2)).length)

/-- Blocks become final: they are kept as w for the gather hops. -/
def keepFinal (s : State) (c : Nat) (bs : List (Nat × WBlock)) : State :=
  let k := getColl s c
  setColl s c { k with fin := bs.foldl (fun m b => SMap.set noBlock m b.1 b.2) k.fin }

/-- w := enc(S) for blocks whose sum is complete; decode(w) is written (R322 to R325). -/
def finalise (s : State) (c : Nat) (bs : List Nat) : State :=
  let (ws, s) := encSum s c bs
  writeFinal (keepFinal s c ws) c ws

def setSum (s : State) (c : Nat) (bs : List (Nat × SBlock)) : State :=
  let k := getColl s c
  setColl s c { k with sum := bs.foldl (fun m b => SMap.set {} m b.1 b.2) k.sum }

/-- A tree node's sum over its children in ascending position, with the NaNs generated (R60, R324, R326, R327). -/
def combineBlock (econ : Bool) (own : SBlock) (ins : List WBlock) : SBlock × Nat :=
  let scaled := (ins.filter fun w => !w.promoted).map (·.scale)
  let (vals, made) := ins.foldl (fun (a : List (Nat × Bool) × Nat) w =>
    (addVals a.1 (decodeBlock w), a.2 + addValsMade a.1 (decodeBlock w))) (own.vals, 0)
  ({ promoted := econ && ins.any (·.promoted), scale := scaled.foldl max own.scale, vals := vals }, made)

/-- Every child's copy of a tree node has been taken: the node's sum, or the chunks of its subtree (R324). -/
def combineKids (s : State) (c : Nat) : State :=
  let x := cvcCfg s c
  let k := getColl s c
  let l := cdBlocks k.desc
  if cdOp k.desc == 2 then
    let s := keepFinal s c (x.kids.flatMap fun e => SMap.get [] k.kids e)
    if x.nd == 0 then writeFinal s c (getColl s c).fin else s
  else
    let bs := (List.range l).map fun b =>
      let ins := x.kids.filterMap fun e => ((SMap.get [] k.kids e).find? fun w => w.1 == b).map (·.2)
      (b, combineBlock x.econ (SMap.get {} k.src b) ins)
    let s := countNan s 2 (sumNat (bs.map (·.2.2))) x.dom x.unit
    let bs := bs.map fun b => (b.1, b.2.1)
    let s := countPromos (setSum s c bs) c (bs.filter (·.2.promoted)).length
    if x.nd == 0 then finalise s c (List.range l) else s

/-- What a position does with the blocks of a copy it has taken (R322 to R324). -/
def useBlocks (s : State) (c : Nat) (t : TakeLeg) (ws : List (Nat × WBlock)) : State :=
  let x := cvcCfg s c
  let k := getColl s c
  let op := cdOp k.desc
  let l := cdBlocks k.desc
  let add := ws.map fun w => (w.1, stepBlock w.2 (SMap.get {} k.src w.1))
  let made := sumNat (ws.map fun w => addValsMade (decodeBlock w.2) (SMap.get {} k.src w.1).vals)
  let summed (s : State) : State := setSum (countNan s 2 made x.dom x.unit) c add
  if x.topo == 0 then
    if op ≠ 2 && decide (t.hop < x.n - 1) then
      let s := summed s
      if t.hop + 2 == x.n then finalise s c (chunkBlocks x.n l x.p) else s
    else writeFinal (keepFinal s c ws) c ws
  else if x.topo == 1 then
    if t.hop < x.n - 1 then
      if op == 2 then
        let s := keepFinal s c ws
        if x.p + 1 == x.n then writeFinal s c (getColl s c).fin else s
      else
        let s := summed s
        if x.p + 1 == x.n then finalise s c (List.range l) else s
    else writeFinal (keepFinal s c ws) c ws
  else if t.peer == x.next && 0 < x.nd then writeFinal (keepFinal s c ws) c ws
  else
    let s := setColl s c { k with kids := SMap.set [] k.kids t.peer ws }
    if x.kids.all fun e => k.took.contains (x.td - x.nd - 1, e) || e == t.peer then combineKids s c else s

/-! ### Copies (R325, R329 to R331, R334) -/

/-- The frames of a copy in ascending BLOCK_OFFSET. -/
def sortFrames (fs : List HerdFrame) : List HerdFrame :=
  (fs.map fun f => (f.blockOffset, f)).foldl (fun l f => insByTime f l) [] |>.map (·.2)

/-- The blocks of a copy, numbered in the tensor. -/
def copyBlocks (base : Nat) (k : HeldCopy) : List (Nat × WBlock) :=
  (sortFrames k.frames).flatMap fun f =>
    let ws := (parseBlocks (f.econ == 1) f.blocks f.payload).getD []
    (List.range ws.length).map fun i => (base + f.blockOffset + i, ws.getD i noBlock)

/-- Block numbers that leave no gap but between whole chunks of `b` blocks, of a tensor of `l` blocks: what the chunks of a
subtree in ascending order give (R318, R324). -/
def wholeChunks (b l : Nat) : List Nat → Bool
  | [] => true
  | n :: r => go n r && n % b == 0
where
  go (n : Nat) : List Nat → Bool
    | [] => (n + 1) % b == 0 || n + 1 == l
    | m :: r => (m == n + 1 || ((n + 1) % b == 0 && m % b == 0 && decide (n < m))) && go m r

/-- A copy is complete: its LAST frame and every block that the hop brings are held (R315, R330). Of the chunks of a subtree, which
the configuration does not name, a missing chunk as a whole shows in the digest alone (DEDUCED). -/
def copyDone (x : Cvc) (op l : Nat) (t : TakeLeg) (k : HeldCopy) : Bool :=
  k.frames.any (·.last == 1) &&
    match legBlocks x op l t with
    | none => wholeChunks (ceilDiv l x.n) l ((copyBlocks (legBase x l t.chunk) k).map (·.1))
    | some bs => bs.all fun b => (copyBlocks (legBase x l t.chunk) k).any fun w => w.1 == b

/-- Where the window of a hop of the running collective closes, and its index (R319, R330). -/
def windowOf (s : State) (c hop : Nat) : Nat :=
  let k := getColl s c
  (cdWindow k.desc + k.iter * getP s (cvcKey c 0x14) + hop) % 2 ^ 32
def closeOf (s : State) (c hop : Nat) : Nat :=
  getP s (pk 0x0B00 7) + (windowOf s c hop + 1) * (cvcCfg s c).wNs

/-- The same copy. -/
def sameCopy (a b : HeldCopy) : Bool :=
  a.seq == b.seq && a.hop == b.hop && a.seat == b.seat && a.chunk == b.chunk && a.twin == b.twin

/-- Bytes of the copies a CVC holds in staging (R333). -/
def stagedBytes (k : Coll) : Nat := sumNat (k.copies.map fun y => sumNat (y.frames.map (·.payload.length)))

/-- Pauses end once the allotment has room again (R333). -/
def freeStaging (s : State) (c : Nat) : State :=
  if stagedBytes (getColl s c) < getP s (cvcKey c 0x10) * 1024 then releasePauses s c else s

/-- A copy leaves staging, taken or set aside; a later frame of it is a duplicate (R316, R331). -/
def dropCopy (s : State) (c : Nat) (k : HeldCopy) : State :=
  let x := getColl s c
  freeStaging (setColl s c { x with copies := x.copies.filter fun y => !sameCopy y k,
                                    aside := (k.seq, k.hop, k.seat, k.chunk, k.twin) :: x.aside }) c

/-- The smaller of two I64 values as stored. -/
def minI64 (a b : Nat) : Nat := if sext 64 b < sext 64 a then b else a

/-- Take a copy: counted, its slack noted, its blocks used; under policy 01h a NaN in it is a fault and nothing is used
(R325, R331, R332, R334). -/
def takeCopy (s : State) (c : Nat) (t : TakeLeg) (k : HeldCopy) : State :=
  let x := cvcCfg s c
  let d := getColl s c
  let l := cdBlocks d.desc
  let ws := copyBlocks (legBase x l t.chunk) k
  let ws := match legBlocks x (cdOp d.desc) l t with
    | some bs => ws.filter fun w => bs.contains w.1
    | none => ws
  let nans := sumNat (ws.map fun w => nansIn (decodeBlock w.2))
  let s := incP (dropCopy s c k) (cvcStat c 4) 1
  let s := incP s (cvcStat c 9) nans
  let s := setP s (cvcStat c 0xC) (minI64 (getP s (cvcStat c 0xC)) (wrap 64 ((closeOf s c t.hop : Int) - k.stamp)))
  if 0 < nans && nanPolicy s == 1 then collFault s c 0x14 k.seat 0
  else
    let s := useBlocks s c t ws
    let d := getColl s c
    setColl s c { d with took := (t.hop, t.peer) :: d.took }

/-- A copy becomes whole: its digest is checked, and a mismatch is a fault before any block is used (R329). -/
def checkCopy (s : State) (c : Nat) (t : TakeLeg) (k : HeldCopy) : State :=
  let x := cvcCfg s c
  let d := getColl s c
  if k.whole || !copyDone x (cdOp d.desc) (cdBlocks d.desc) t k then s
  else
    let s := incP s (cvcStat c 0xB) 1
    match k.frames.find? (·.last == 1) with
    | none => s
    | some f =>
      if digestOf f ((sortFrames k.frames).flatMap (·.payload)) == f.digest then
        let d := getColl s c
        setColl s c { d with copies := d.copies.map fun y => if sameCopy y k then { y with whole := true } else y }
      else collFault (dropCopy s c k) c 0x0C (seatDetail k.seat c) f.digest

/-- The sending seat of a hop is twinned (R331). -/
def peerTwinned (s : State) (e : Nat) : Bool := getP s (pk (0x0B40 + e) 8) ≠ 0

/-- The selection of R331 for one hop and sender: the primary if on time; after the close the twin copy of a twinned
seat, or the late primary of another, up to close + W. What is whole and not wanted is set aside. -/
def selectCopy (s : State) (c : Nat) (t : TakeLeg) : State :=
  let seq := curSeq s c
  let mine (s : State) : List HeldCopy := (getColl s c).copies.filter fun k =>
    k.seq == seq && k.hop == t.hop && some k.seat == seatOf s t.peer && k.chunk == t.chunk
  let s := (mine s).foldl (fun s k => checkCopy s c t k) s
  let whole := (mine s).filter (·.whole)
  let close := closeOf s c t.hop
  let grace := close + (cvcCfg s c).wNs
  let d := getColl s c
  let closed := d.closed.contains t.hop
  let s :=
    if d.took.contains (t.hop, t.peer) || d.graced.contains t.hop then s
    else match whole.find? fun k => !k.twin && decide (k.stamp < close) with
      | some k => takeCopy s c t k
      | none =>
        if !closed then s
        else if peerTwinned s t.peer then
          match whole.find? fun k => k.twin && decide (k.stamp < grace) with
          | some k => takeCopy (incP s (cvcStat c 6) 1) c t k
          | none => s
        else
          match whole.find? fun k => !k.twin && decide (k.stamp < grace) with
          | some k => takeCopy s c t k
          | none => s
  let took := (getColl s c).took.contains (t.hop, t.peer)
  ((mine s).filter fun k => k.whole && (took || (closed && (!k.twin || decide (grace ≤ k.stamp))))).foldl (fun s k => dropCopy s c k) s

/-- Look at every copy held for the running collective. -/
def selectAll (s : State) (c : Nat) : State :=
  (takeLegs (cvcCfg s c) (cdOp (getColl s c).desc)).foldl (fun s t => selectCopy s c t) s

/-! ### Start and completion (R319 to R321, R337) -/

/-- The position of the I/O die that serves a collective engine: engines 0 and 1 at (0,0), 2 and 3 at (7,0) (R254, R312). -/
def bridgeOf (unit : Nat) : Nat := if unit < 0x82 then 0 else 7

/-- The collective is complete: the token moves, and the next one is current (R319, R321). -/
def endColl (s : State) (c : Nat) (ran : Bool) : State :=
  let k := getColl s c
  let n := getP s (cvcKey c 0x12)
  let its := getP s (cvcKey c 0x15)
  let (iter, idx) := if k.idx + 1 < n then (k.iter, k.idx + 1) else (k.iter + 1, 0)
  let seq := (k.iter * n + k.idx) % 2 ^ 32
  let s := if ran && cdTokenEn k.desc then sendIncr s (bridgeOf (cvcCfg s c).unit) (cvcCfg s c).dom (cdPos k.desc) (cdToken k.desc) 1 else s
  let s := setColl s c { st := if its ≠ 0 && decide (its ≤ iter) then 3 else 1, iter := iter, idx := idx,
                         copies := k.copies.filter fun y => y.seq ≠ seq, aside := k.aside.filter fun a => a.1 ≠ seq,
                         paused := k.paused, freeAt := (getD s (cvcCfg s c).dom).dcc }
  freeStaging (setP s (cvcStat c 2) (curSeq s c)) c

/-- The element k of a QINIT: an I32 word of Philox times 2^−31, rounded to FP32 (R337). -/
def qinitElem (seed i c k : Nat) : Nat :=
  let v := sext 32 ((philox (seed % 2 ^ 32) (seed / 2 ^ 32 % 2 ^ 32) ⟨k / 4 % 2 ^ 32, i, c, 0⟩).word (k % 4))
  f32Bits (roundF32 (match intFV v with
    | .fin s m e => .fin s m (e - 31)
    | v => v))

/-- QINIT writes its values (R337). -/
def runQinit (s : State) (c : Nat) : State :=
  let x := cvcCfg s c
  let k := getColl s c
  let seed := getP s (pk 0x0B00 8)
  let bs := (List.range (cdBlocks k.desc)).map fun b =>
    (b, (List.range 64).map fun j => (qinitElem seed k.idx c (64 * b + j), false))
  match writeBlocks x.dom 0 (cdDst k.desc) k.born bs s with
  | (none, s) => s
  | (some _, s) => descFault s c 0x12

/-- Read the source: its blocks with the scale each would choose; NaN elements are counted (R321, R326, R334). -/
def loadSource (s : State) (c : Nat) : State :=
  let x := cvcCfg s c
  let k := getColl s c
  let l := cdBlocks k.desc
  let own := chunkBlocks x.n l x.p
  let (lo, hi) := if cdOp k.desc == 2 then (own.headD 0, own.headD 0 + own.length) else (0, l)
  let (bs, s) := readBlocks x.dom (cdSrcFmt k.desc) (cdSrc k.desc) lo hi (l / 64 + 2) s
  let s := countNan s 1 (sumNat (bs.map fun b => nansIn b.2)) x.dom x.unit
  let k := getColl s c
  setColl s c { k with src := bs.foldl (fun m b =>
    SMap.set {} m b.1 { vals := b.2, scale := if x.econ then ownScale x.room b.2 else 0 }) [] }

/-- What a position forms from its own source at the start (R322 to R324). -/
def originate (s : State) (c : Nat) : State :=
  let x := cvcCfg s c
  let k := getColl s c
  let op := cdOp k.desc
  let l := cdBlocks k.desc
  let own := chunkBlocks x.n l x.p
  let from_ (bs : List Nat) : State := setSum s c (bs.map fun b => (b, SMap.get {} k.src b))
  if x.n ≤ 1 then finalise (from_ (List.range l)) c (List.range l)
  else if op == 2 then
    let (ws, s) := encSum (from_ own) c own
    let s := keepFinal s c ws
    if x.topo == 0 then writeFinal s c ws
    else if x.topo == 2 && x.kids.isEmpty then combineKids s c
    else s
  else if x.topo == 0 then from_ (chunkBlocks x.n l ((x.p + x.n - 1) % x.n))
  else if x.topo == 1 then (if x.p == 0 then from_ (List.range l) else s)
  else if x.kids.isEmpty then combineKids s c
  else s

/-- The narrow read of a 64-byte descriptor: two granules of HBM, the one memory that the narrow path reaches (R290, R292, R319). -/
def readDesc (s : State) (d va : Nat) : Option Nat × State :=
  match translate s d va false with
  | (.ok pa _, s) =>
    if hbmEnd ≤ pa then (none, s)
    else
      let s := chargeWalk (chargeWalk s d pa) d (pa + 32)
      (some (leNat ((readPhys s pa 64).map (·.1))), s)
  | (_, s) => (none, s)

/-- The fault that a descriptor raises at its start (R320). -/
def descCheck (s : State) (x : Cvc) (d : Nat) : Option Nat × State :=
  let n := tensorBytes (cdDstFmt d) (cdBlocks d)
  if bits d 287 32 ≠ 0 || bits d 8 2 ≠ 0 then (some 2, s)
  else if (if cdOp d == 3 then cdDstFmt d ≠ 0 else !(collFmt (cdDstFmt d) && collFmt (cdSrcFmt d))) then (some 3, s)
  else if !inCoreSet s x.dom (cdPos d) then (some 0x12, s)
  else
    let (b1, s) := pageBad x.dom (cdDst d) n true s
    let (b2, s) := if cdOp d == 3 then (false, s)
      else pageBad x.dom (cdSrc d) (tensorBytes (cdSrcFmt d) (cdBlocks d)) false s
    (if b1 || b2 then some 0x12 else none, s)

/-- The collective runs from here on. -/
def beginColl (s : State) (c desc : Nat) : State :=
  let k := getColl s c
  let s := setColl s c { k with st := 2, desc := desc, run := true, born := s.ctc }
  let s := setP s (cvcStat c 2) (curSeq s c)
  if cdOp desc == 3 then (if k.iter == 0 then runQinit s c else endColl s c false)
  else
    let s := originate (loadSource s c) c
    if (cvcCfg s c).n ≤ 1 then endColl s c true else selectAll s c

/-- Every core of the domain had finished before a DCC: a collective that it holds back never starts (R217). -/
def finishedBefore (s : State) (d t : Nat) : Bool :=
  match (getD s d).finished with
  | some f => decide (f < t)
  | none => false

/-- COLLECTIVE_START: the next collective of a CVC starts once its DCC is reached and the previous one is complete, unless
every core had finished by then (R217, R319). -/
def execCollectiveStart (c : Nat) (s : State) : Host.Outcome State Fault Refusal :=
  if 16 ≤ c then .fault .noSuchUnit
  else
    let x := cvcCfg s c
    let k := getColl s c
    if !domRuns s x.dom || !(getD s x.dom).started then .refused (.notEnabled "the CVC's domain does not run")
    else if k.st ≠ 1 || k.run then .refused (.notEnabled "the CVC does not wait for a start")
    else
      match readDesc s x.dom (getP s (cvcKey c 0x11) + 64 * k.idx) with
      | (none, s) => .next (descFault s c 0x12)
      | (some desc, s) =>
        let at_ := max (cdStart desc + k.iter * getP s (cvcKey c 0x13)) k.freeAt
        if finishedBefore s x.dom at_ then .refused (.notEnabled "every core of the domain has finished")
        else match toDcc x.dom at_ s with
        | none => .refused (.notEnabled "the DCC stands still before START_DCC")
        | some s =>
          match descCheck s x desc with
          | (some code, s) => .next (descFault s c code)
          | (none, s) => .next (beginColl s c desc)

/-- Every hop of the running collective is sent and taken. -/
def collDone (s : State) (c : Nat) : Bool :=
  let x := cvcCfg s c
  let k := getColl s c
  k.run && (sendLegs x (cdOp k.desc)).all (fun l => k.sent.contains l.hop) &&
    (takeLegs x (cdOp k.desc)).all fun t => k.took.contains (t.hop, t.peer)

/-- COLLECTIVE_COMPLETE: every destination write is acknowledged: the token moves (R321). -/
def execCollectiveComplete (c : Nat) (s : State) : Host.Outcome State Fault Refusal :=
  if 16 ≤ c then .fault .noSuchUnit
  else if !collDone s c then .refused (.notEnabled "the collective is not complete")
  else .next (selectAll (endColl s c true) c)

/-! ### Sending (R313, R315, R322 to R324, R331, R334, R335) -/

/-- The blocks of a hop that a position sends. -/
def sendBlocks (s : State) (c : Nat) (g : SendLeg) : List (Nat × WBlock) × State :=
  let x := cvcCfg s c
  let k := getColl s c
  let l := cdBlocks k.desc
  let bs := if x.topo == 0 then chunkBlocks x.n l g.chunk else List.range l
  if !g.final then encSum s c bs
  else if x.topo == 0 then (bs.map fun b => (b, SMap.get noBlock k.fin b), s)
  else (k.fin, s)

/-- The device physical address of the first poisoned word of a source element, where it can still be found (R301). -/
def sourceWord (s : State) (c b j : Nat) : Option Nat :=
  let x := cvcCfg s c
  let k := getColl s c
  let f := cdSrcFmt k.desc
  let at_ (off : Nat) : Option Nat :=
    match translate s x.dom (cdSrc k.desc + b / 64 * imageBytes f + off) false with
    | (.ok pa _, _) => if poisoned s pa then some (pa / 4 * 4) else none
    | _ => none
  match at_ (eltBits f / 8 * (64 * (b % 64) + j)) with
  | some a => some a
  | none => if f == 0x16 then at_ (8192 + b % 64) else none

/-- The frames of a contribution go to both addresses of each peer entry that is twinned, tagged with the VID of the entry and the
CVC's priority, ECT(0), to UDP port herd.udp_port (R313, R314, R331). -/
def emitHop (s : State) (c : Nat) (g : SendLeg) (bs : List (Nat × WBlock)) : State :=
  let x := cvcCfg s c
  let k := getColl s c
  let base := legBase x (cdBlocks k.desc) g.chunk
  g.peers.foldl (fun s e =>
    let p (sub : Nat) : Nat := getP s (pk (0x0B40 + e) sub)
    let head : HerdFrame :=
      { version := 1, type := if g.final then 2 else 1, last := 0, twinCopy := if getP s (pk 0x0B00 3) == 2 then 1 else 0,
        econ := if x.econ then 1 else 0, cvc := c, herdId := getP s (pk 0x0B00 1), srcSeat := getP s (pk 0x0B00 2),
        dstSeat := p 1, hop := g.hop, collSeq := curSeq s c, window := windowOf s c g.hop, chunk := g.chunk, blocks := 0,
        blockOffset := 0, promoted := 0, rsv := 0, digest := 0, payload := [], stamp := 0, udpOk := true, ce := false }
    let fs := framesOf x.econ (getP s (pk 0x0B00 5)) head (bs.map fun b => (b.1 - base, b.2))
    let port := portOfCode (p 2)
    let go (ip mac : Nat) (s : State) : State :=
      fs.foldl (fun s f => emit s port (.herd port ip mac (p 3) x.prio 2 (getP s (pk 0x0B00 4)) f)) s
    let s := go (p 4) (p 5) s
    if p 8 ≠ 0 then go (p 6) (p 7) s else s) s

/-- COLLECTIVE_HOP_SEND: the next hop whose inputs are complete is sent, unless it holds poison or, under policy 01h, a
NaN (R322 to R325, R334, R335). -/
def execCollectiveHopSend (c : Nat) (s : State) : Host.Outcome State Fault Refusal :=
  if 16 ≤ c then .fault .noSuchUnit
  else
    let x := cvcCfg s c
    let k := getColl s c
    let ready (g : SendLeg) : Bool := !k.sent.contains g.hop && g.needs.all k.took.contains
    match if k.run then (sendLegs x (cdOp k.desc)).find? ready else none with
    | none => .refused (.notEnabled "no hop is ready to be sent")
    | some g =>
      if g.peers.any fun e => isPaused s (portOfCode (getP s (pk (0x0B40 + e) 2))) x.prio then
        .refused (.notEnabled "the CVC's priority is paused")
      else
        let (bs, s) := sendBlocks s c g
        let dec := bs.map fun b => (b.1, decodeBlock b.2)
        match dec.find? fun b => b.2.any (·.2) with
        | some b =>
          let j := ((List.range 64).find? fun j => (b.2.getD j (0, false)).2).getD 0
          match sourceWord s c b.1 j with
          | some a => .next (collFault s c 0x0B a 3)
          | none => let (a, s) := freeBits s 64; .next (collFault s c 0x0B a 3)
        | none =>
          let nans := sumNat (dec.map fun b => nansIn b.2)
          if 0 < nans && nanPolicy s == 1 then .next (collFault s c 0x14 (getP s (pk 0x0B00 2)) 0)
          else
            let s := incP (incP (emitHop s c g bs) (cvcStat c 3) 1) (cvcStat c 8) nans
            let k := getColl s c
            .next (setColl s c { k with sent := g.hop :: k.sent })

/-! ### Receiving (R316, R333) -/

/-- A block layout that does not match BLOCKS and PROMOTED (R316, R317). -/
def layoutBad (f : HerdFrame) : Bool :=
  match parseBlocks (f.econ == 1) f.blocks f.payload with
  | none => true
  | some ws => promotedIn (f.econ == 1) ws ≠ f.promoted

/-- The reason for which a frame is discarded, 0 for none (R316, R336). -/
def discardReason (s : State) (f : HerdFrame) : Nat :=
  let c := f.cvc
  let x := cvcCfg s c
  let k := getColl s c
  let cur := curSeq s c
  let twin := f.twinCopy == 1
  if f.version ≠ 1 || (f.type ≠ 1 && f.type ≠ 2) then 1
  else if f.herdId ≠ getP s (pk 0x0B00 1) then 2
  else if f.dstSeat ≠ getP s (pk 0x0B00 2) then 3
  else if x.dom == 0xFF then 4
  else if !(hopPeers x f.hop).any (fun e => seatOf s e == some f.srcSeat) then 3
  else if !domRuns s x.dom || k.st == 0 || k.st == 3 || k.st == 4 then 4
  else if f.collSeq ≠ cur && f.collSeq ≠ (cur + 1) % 2 ^ 32 then 5
  else if (k.copies.any fun y => y.seq == f.collSeq && y.hop == f.hop && y.seat == f.srcSeat && y.chunk == f.chunk &&
      y.twin == twin && y.frames.any fun g => g.blockOffset == f.blockOffset) ||
      k.aside.contains (f.collSeq, f.hop, f.srcSeat, f.chunk, twin) then 6
  else if f.rsv ≠ 0 || !f.udpOk || layoutBad f then 7
  else 0

/-- A frame joins its copy in staging. -/
def stageFrame (s : State) (port : Nat) (f : HerdFrame) : State :=
  let c := f.cvc
  let k := getColl s c
  let copy : HeldCopy := ⟨f.collSeq, f.hop, f.srcSeat, f.chunk, f.twinCopy == 1, port, [f], f.stamp, false⟩
  if k.copies.any (sameCopy copy) then
    let join (y : HeldCopy) : HeldCopy :=
      if sameCopy copy y then { y with frames := y.frames ++ [f], stamp := max y.stamp f.stamp } else y
    setColl s c { k with copies := k.copies.map join }
  else setColl s c { k with copies := k.copies ++ [copy] }

/-- A full allotment pauses the CVC's priority at the receiving port (R313, R333). -/
def pauseStaging (s : State) (port c : Nat) : State :=
  let k := getColl s c
  let p := getP s (cvcKey c 0xB)
  if stagedBytes k < getP s (cvcKey c 0x10) * 1024 || k.paused.contains (port, p) then s
  else sendPfc (setColl s c { k with paused := (port, p) :: k.paused }) port p 0xFFFF

/-- HERD_FRAME: a frame is discarded for a reason, or staged; a copy that it completes has its digest checked and may be
taken (R316, R329 to R331, R333). -/
def execHerdFrame (port : Nat) (f : HerdFrame) (s : State) : Host.Outcome State Fault Refusal :=
  if 17 ≤ port || 16 ≤ f.cvc then .fault .noSuchUnit
  else
    let s := rxOk s port
    let s := if f.ce then incP s (pk 0x0B01 3) 1 else s
    let why := discardReason s f
    if why ≠ 0 then .next (setP (incP s (pk 0x0B01 1) 1) (pk 0x0B01 2) why)
    else
      let s := stageFrame s port f
      let s := if (getColl s f.cvc).run && f.collSeq == curSeq s f.cvc then selectAll s f.cvc else s
      .next (pauseStaging s port f.cvc)

/-! ### Windows (R330, R331) -/

/-- Advance until a PTP time, if it lies ahead. -/
def toPtp (t : Nat) (s : State) : State := toNs (s.ns + (t - s.ptp)) s

/-- The hops that the running collective takes. -/
def takeHops (s : State) (c : Nat) : List Nat :=
  ((takeLegs (cvcCfg s c) (cdOp (getColl s c).desc)).map (·.hop)).eraseDups

/-- The first hop whose window has not closed. -/
def nextClose (s : State) (c : Nat) : Option Nat :=
  if !(getColl s c).run then none
  else minBy (fun a b => decide (a < b)) ((takeHops s c).filter fun h => !(getColl s c).closed.contains h)

/-- WINDOW_CLOSE: a primary not on time is late; the twin copy of a twinned seat, or a late primary, is taken from now on
(R331). -/
def execWindowClose (c : Nat) (s : State) : Host.Outcome State Fault Refusal :=
  if 16 ≤ c then .fault .noSuchUnit
  else match nextClose s c with
    | none => .refused (.notEnabled "no window is open")
    | some h =>
      let s := toPtp (closeOf s c h) s
      let k := getColl s c
      let late := (takeLegs (cvcCfg s c) (cdOp k.desc)).filter fun t => t.hop == h && !k.took.contains (t.hop, t.peer)
      let s := incP (setColl s c { k with closed := h :: k.closed }) (cvcStat c 5) late.length
      .next (selectAll s c)

/-- The first hop whose window has closed and whose grace has not. -/
def nextGrace (s : State) (c : Nat) : Option Nat :=
  let k := getColl s c
  if !k.run then none
  else minBy (fun a b => decide (a < b)) ((takeHops s c).filter fun h => k.closed.contains h && !k.graced.contains h)

/-- WINDOW_GRACE_CLOSE: at close + W a contribution that no copy has brought is missing: fault 0Dh (R331). -/
def execWindowGraceClose (c : Nat) (s : State) : Host.Outcome State Fault Refusal :=
  if 16 ≤ c then .fault .noSuchUnit
  else match nextGrace s c with
    | none => .refused (.notEnabled "no grace period runs")
    | some h =>
      let s := toPtp (closeOf s c h + (cvcCfg s c).wNs) s
      let k := getColl s c
      let missing := (takeLegs (cvcCfg s c) (cdOp k.desc)).filter fun t => t.hop == h && !k.took.contains (t.hop, t.peer)
      let s := setColl s c { k with graced := h :: k.graced }
      .next (missing.foldl (fun s t =>
        collFault s c 0x0D (seatDetail ((seatOf s t.peer).getD 0) c) (windowOf s c h)) s)

end Sys2Proof.Machine
end

