-- ==== Sys2Proof/Machine/Clock.lean ====
section
/-!
DEFINITION. Clocks, voltages, power and temperature (R358 to R379): stretches and crossings, frequency switches, the
stretch margin, the power and thermal caps, and the thermal trip.
-/
namespace Sys2Proof.Machine

/-! ### Zones (R358) -/

/-- The clock zone of a mesh position. -/
def zoneOf (p : Nat) : Nat := p / 8 / 2 * 4 + p % 8 / 2

/-- Two zones share an edge of the 4 × 4 grid. -/
def zonesMeet (a b : Nat) : Bool :=
  decide (a < 16) && decide (b < 16) &&
    ((a / 4 == b / 4 && (a + 1 == b || b + 1 == a)) || (a % 4 == b % 4 && (a + 4 == b || b + 4 == a)))

/-- The neighbours of a zone. -/
def zoneNeighbours (z : Nat) : List Nat := (List.range 16).filter (zonesMeet z)

/-! ### Frequency (R368, R369, R373, R374) -/

/-- VDD_CMP of a frequency, without margin, in mV (R373). -/
def tableMv (f : Nat) : Nat := Config.avsTable ((f - 900) / 25)

/-- The stretch margin m. -/
def marginMv (s : State) : Nat := getP s (pk 0x0320 4)

/-- VDD_SRM for a VDD_CMP: 50 mV above it within 750 to 900 mV (R374). -/
def srmFor (cmp : Nat) : Nat := max 750 (min 900 (cmp + 50))

/-- Request VDD_SRM, or VDD_CMP, for a frequency. -/
def requestSrm (s : State) (f : Nat) : State := { s with clk := { s.clk with srmMv := srmFor (tableMv f + marginMv s) } }
def requestCmp (s : State) (f : Nat) : State := setP s (pk 0x0320 1) (tableMv f + marginMv s)

/-- The frequency the caps and the target allow, and which of them governs: the target where several are equal. -/
def limitOf (s : State) : Nat × Nat :=
  let t := getP s (pk 0x0310 1)
  let f := min (min t s.clk.powerCap) (min s.clk.currCap s.clk.thermCap)
  (f, if f == t then 1 else if f == s.clk.powerCap then 2 else if f == s.clk.currCap then 3 else 4)

/-- Announce a switch: the switch CTC is the first multiple of 4,096 at least 8,192 ticks ahead (R369). -/
def announce (s : State) (f : Nat) : State :=
  let s := setP (setP s (pk 0x0311 1) f) (pk 0x0311 2) (ceilDiv (s.ctc + 8192) 4096 * 4096)
  incP { s with clk := { s.clk with phase := .announced, newF := f, freqSeen := 0 } } (pk 0x0930 3) 2

/-- Bring the frequency to its limit: a switch begins unless one is in progress (R368, R369). -/
def govern (s : State) : State :=
  let (f, why) := limitOf s
  let s := setP s (pk 0x0311 5) why
  if s.clk.phase ≠ .none || f == freqMhz s || !s.clk.runs then s
  else if freqMhz s < f then requestSrm { s with clk := { s.clk with phase := .raiseSrm, newF := f } } f
  else announce s f

/-- TARGET_MHZ_WRITE: 900 to 2,000 MHz in steps of 25 (R368). -/
def writeTarget (s : State) (v : Nat) : Nat × State :=
  if v < 900 || 2000 < v || v % 25 ≠ 0 then (4, s) else (0, govern (setP s (pk 0x0310 1) v))

def execTargetMhzWrite (v : Nat) (s : State) : Host.Outcome State Fault Refusal :=
  .next (gated s (pk 0x0310 1) fun s => writeTarget s v)

/-- FREQ: the announcement reaches a zone, which locks its idle generator (R359, R365, R369). -/
def execFreq (zone : Nat) (s : State) : Host.Outcome State Fault Refusal :=
  if 16 ≤ zone then .fault .noSuchUnit
  else if s.clk.phase ≠ .announced || bit s.clk.freqSeen zone then .refused (.notEnabled "no FREQ message is on its way to the zone")
  else .next { s with clk := { s.clk with freqSeen := s.clk.freqSeen + 2 ^ zone } }

/-- FREQUENCY_SWITCH: at the switch CTC every zone hands its clock to the newly locked generator; after a fall VDD_CMP is
lowered next (R369). -/
def execFrequencySwitch (s : State) : Host.Outcome State Fault Refusal :=
  if s.clk.phase ≠ .announced || s.clk.freqSeen ≠ 0xFFFF || !s.clk.runs then .refused (.notEnabled "no switch is announced to every zone")
  else
    let s := toCtc (getP s (pk 0x0311 2)) s
    let f := s.clk.newF
    let old := freqMhz s
    let fell := decide (f < old)
    let s := incP (setP s (pk 0x0311 3) f) (pk 0x0311 4) 1
    let s := { s with nsFrac := s.nsFrac * f / max 1 old, clk := { s.clk with genB := !s.clk.genB, phase := if fell then .lowerCmp else .none } }
    .next (if fell then requestCmp s f else govern s)

/-- SERVICE_CLOCK_WRITE: a change takes effect at the first REFCLK edge at least 2 µs later, or after a change of the same
setting that waits (R360). -/
def writeService (s : State) (sub v : Nat) : Nat × State :=
  let ok := match sub with
    | 1 => decide (800 ≤ v) && decide (v ≤ 1600) && v % 100 == 0
    | 2 => decide (800 ≤ v) && decide (v ≤ 1600) && v % 200 == 0
    | _ => decide (1000 ≤ v) && decide (v ≤ 1500) && v % 100 == 0
  if !ok then (4, s)
  else
    let after := (s.clk.service.filter fun w => w.1 == sub).foldl (fun a w => max a (w.2.2 + 10)) 0
    let due := max (ceilDiv (s.ns + 2000) 10 * 10) after
    let s := setP s (pk 0x0312 sub) v
    (0, { s with clk := { s.clk with service := s.clk.service ++ [(sub, v, due)] } })

def execServiceClockWrite (sub v : Nat) (s : State) : Host.Outcome State Fault Refusal :=
  .next (if sub == 0 || 3 < sub then noParam s (sub == 0) else gated s (pk 0x0312 sub) fun s => writeService s sub v)

/-- A voltage step succeeds: the alert of a step that failed ends (R374). -/
def stepOk (s : State) : State := { s with clk := { s.clk with alertAvs := false } }

/-- REGULATOR_STEP_SETTLED: the change of voltage goes on: a margin step is done, a rise raises VDD_CMP after VDD_SRM and is
then announced, a fall lowers VDD_SRM after VDD_CMP and then ends (R369, R374). -/
def execRegulatorStepSettled (s : State) : Host.Outcome State Fault Refusal :=
  let c := s.clk
  if c.marginTo.isSome then .next { stepOk s with clk := { c with marginTo := none, alertAvs := false } }
  else match c.phase with
    | .raiseSrm => .next (requestCmp { stepOk s with clk := { c with phase := .raiseCmp, alertAvs := false } } c.newF)
    | .raiseCmp => .next (announce (stepOk s) c.newF)
    | .lowerCmp => .next (requestSrm { stepOk s with clk := { c with phase := .lowerSrm, alertAvs := false } } c.newF)
    | .lowerSrm => .next (govern { stepOk s with clk := { c with phase := .none, alertAvs := false } })
    | .none => .refused (.notEnabled "no voltage step is requested")
    | .announced => .refused (.notEnabled "no voltage step is requested")

/-- REGULATOR_STEP_TIMEOUT: the change is abandoned: the lower frequency and the margin before it stay, the time-out is
counted and ALERT_L asserted (R374). -/
def execRegulatorStepTimeout (s : State) : Host.Outcome State Fault Refusal :=
  let c := s.clk
  let late (c : Clk) (s : State) : State := incP { s with clk := { c with alertAvs := true } } (pk 0x0320 5) 1
  match c.marginTo with
  | some m => .next (late { c with marginTo := none } (setP s (pk 0x0320 4) m))
  | none =>
    if c.phase == .none || c.phase == .announced then .refused (.notEnabled "no voltage step is requested")
    else .next (late { c with phase := .none } s)

/-- The frequencies that VDD_CMP and VDD_SRM are set for: the rails of a rise are ahead of the clock, SRM first; after a fall SRM
stays until CMP is down (R369). -/
def railFreqs (s : State) : Nat × Option Nat :=
  let f := freqMhz s
  let up := max f s.clk.newF
  match s.clk.phase with
  | .none => (f, some f)
  | .raiseSrm => (f, some up)
  | .raiseCmp => (up, some up)
  | .announced => (up, some up)
  | .lowerCmp => (f, none)
  | .lowerSrm => (f, some f)

/-- A margin step: VDD_CMP and VDD_SRM follow m, also while a switch is in progress (R369, R374). -/
def setMargin (s : State) (m : Nat) : State :=
  let old := marginMv s
  if m == old then s
  else
    let s := setP s (pk 0x0320 4) m
    let (cmp, srm) := railFreqs s
    let s := requestCmp { s with clk := { s.clk with marginTo := some old } } cmp
    match srm with
    | some f => requestSrm s f
    | none => s

/-- STRETCH_MARGIN_UPDATE: after a millisecond in which a zone passed the rate m rises by 5 mV, after 100 ms in which none
did it falls by 5 mV (R374). -/
def execStretchMarginUpdate (slow : Bool) (s : State) : Host.Outcome State Fault Refusal :=
  let c := s.clk
  if slow then
    if c.quietMs < 100 then .refused (.notEnabled "a zone has passed the rate within 100 ms")
    else .next (setMargin { s with clk := { c with quietMs := 0 } } (marginMv s - 5))
  else
    let busy := c.inMs.any fun z => decide (getP s (pk 0x0320 3) < z.2)
    let s := { s with clk := { c with inMs := [], quietMs := if busy then 0 else c.quietMs + 1 } }
    .next (if busy then setMargin s (min 40 (marginMv s + 5)) else s)

/-! ### Stretches and crossings (R361 to R367) -/

/-- The sum of the stretches that a zone has applied and that not every zone has, in quarters of a period. -/
def stretched (s : State) (z : Nat) : Nat :=
  sumNat ((s.clk.stretches.filter fun m => bit m.2 z).map fun m => if m.1.size == 3 then 4 else m.1.size)

/-- The skew of a crossing as outstanding stretches make it, in quarters of a period (R361). -/
def skewOf (s : State) (a b : Nat) : Int := (stretched s a : Int) - (stretched s b : Int)

/-- A crossing in one name. -/
def crossOf (a b : Nat) : Nat × Nat := (min a b, max a b)

/-- The domains that hold a phase on the Round links between two zones in this cycle (R107, R366). -/
def crossDoms (s : State) (a b : Nat) : List Nat :=
  let links := (List.range 72).filter fun k =>
    let from_ := elandPos (k / 2)
    let to_ := elandPos (nextStop (k / 2) (if k % 2 == 0 then .cw else .ccw))
    crossOf (zoneOf from_) (zoneOf to_) == crossOf a b
  (List.range 8).filter fun d => domRuns s d && links.any fun k => phaseOk (SMap.get 0 s.phases k) d s.ctc

/-- Lock-step begins: the affected domains are asked to stall (R366). -/
def lockCross (s : State) (a b : Nat) : State :=
  let x := crossOf a b
  let s := { s with clk := { s.clk with lockstep := s.clk.lockstep ++ [x] } }
  (crossDoms s a b).foldl (fun s d =>
    requestStall s d ⟨(getD s d).dcc + 64, 0xFFFF, 3, 0xFFFFFFFF, .crossing x.1 x.2, false⟩) s

/-- Crossings of a zone that a stretch has brought to a skew of two periods enter lock-step (R366). -/
def checkSkew (s : State) (z : Nat) : State :=
  (zoneNeighbours z).foldl (fun s n =>
    if decide (8 ≤ (skewOf s z n).natAbs) && !s.clk.lockstep.contains (crossOf z n) then lockCross s z n else s) s

/-- Zones that have applied a stretch, after zone `z` applies it: a zone in lock-step with it does so too (R366). -/
def applyIn (s : State) (z mask : Nat) : Nat :=
  let put (m z : Nat) : Nat := if bit m z then m else m + 2 ^ z
  (zoneNeighbours z).foldl (fun m n => if s.clk.lockstep.contains (crossOf z n) then put m n else m) (put mask z)

/-- MARGIN_SHORTFALL: the zone stretches its next period; one that persists into 8 cycles of its last stretch is met at
their end by 100 % (R363, R364, R367). -/
def execMarginShortfall (zone size : Nat) (s : State) : Host.Outcome State Fault Refusal :=
  if 16 ≤ zone || size == 0 || 3 < size then .fault .noSuchUnit
  else if !s.clk.runs then .refused (.notEnabled "the compute clocks are stopped")
  else
    let last := SMap.get 0 s.clk.lastShort zone
    let soon := last ≠ 0 && decide (s.ctc + 1 < last + 8)
    let s := if soon then toCtc (last + 7) s else s
    let size := if soon then 3 else size
    let s := addTime (if size == 3 then 1000 else 250 * size) s
    let s := incP (incP s (pk 0x0313 (zone + 1)) 1) (pk 0x0314 size) 1
    let mask := applyIn s zone 0
    let c := s.clk
    .next (checkSkew { s with clk := { c with
      inMs := SMap.upd 0 c.inMs zone (· + 1)
      lastShort := SMap.set 0 c.lastShort zone (s.ctc + 1)
      stretches := c.stretches ++ [(⟨zone, s.ctc, size⟩, mask)] } } zone)

/-- STRETCH: the oldest stretch that a neighbour has applied and this zone has not reaches it; it is applied once and
passed on (R364, R365). -/
def execStretch (zone : Nat) (s : State) : Host.Outcome State Fault Refusal :=
  if 16 ≤ zone then .fault .noSuchUnit
  else
    match takeFirst (fun m : StretchMsg × Nat => !bit m.2 zone && (zoneNeighbours zone).any (bit m.2)) s.clk.stretches with
    | none => .refused (.notEnabled "no STRETCH message is on its way to the zone")
    | some (m, _) =>
      let mask := applyIn s zone m.2
      let put (x : StretchMsg × Nat) : StretchMsg × Nat := if x == m then (m.1, mask) else x
      let s := { s with clk := { s.clk with
        stretches := (s.clk.stretches.map put).filter fun x => x.2 ≠ 0xFFFF } }
      .next (checkSkew (if zone == 15 then incP s (pk 0x0930 3) 1 else s) zone)

/-- CROSSING_RECENTRE: a crossing whose skew reaches ±2 enters lock-step and asks the affected domains to stall; once they
stand still it re-centres, reports its condition met, and lock-step ends (R366). -/
def execCrossingRecentre (a b : Nat) (s : State) : Host.Outcome State Fault Refusal :=
  if !zonesMeet a b then .fault .noSuchUnit
  else
    let x := crossOf a b
    let s := if s.clk.lockstep.contains x then s else lockCross s a b
    let mine (r : StallReq) : Bool := r.cond == .crossing x.1 x.2
    let ds := (List.range 8).filter fun d => (getD s d).reqs.any mine
    if !(ds.all fun d => (getD s d).stalled) then .next s
    else
      let s := { s with clk := { s.clk with lockstep := s.clk.lockstep.filter (· ≠ x) } }
      .next (ds.foldl (fun s d => announceResume (setD s d { getD s d with reqs := (getD s d).reqs.filter fun r => !mine r }) d)
        (incP s (pk 0x0314 4) 1))

/-! ### Power (R371, R375) -/

/-- The nine rails' readings as the bytes of 0330h.05. -/
def railBytes (rs : List (Nat × Nat)) : List Byte := rs.flatMap fun r => leBytes 2 r.1 ++ leBytes 2 r.2

/-- REGULATOR_TELEMETRY_READ: READ_VOUT and READ_IOUT of every rail feed pwr.rails and the averages (R371, R375). -/
def execRegulatorTelemetryRead (rs : List (Nat × Nat)) (s : State) : Host.Outcome State Fault Refusal :=
  if rs.length ≠ 9 then .refused .illFormed
  else
    let c := s.clk
    .next (setP { s with clk := { c with
      telemetry := rs
      powerSum := c.powerSum + sumNat (rs.map fun r => r.1 * r.2)
      currSum := c.currSum + (rs.headD (0, 0)).2
      samples := c.samples + 1 } } (pk 0x0330 5) (leNat (railBytes rs)))

/-- A cap after a window in which `sum` over `n` samples met `limit` times `unit`. -/
def capAfter (cap sum n limit : Nat) : Nat :=
  if limit * n < sum then max 900 (cap - 100)
  else if sum * 100 < limit * n * 95 then min 2000 (cap + 25)
  else cap

/-- POWER_WINDOW_END: the averages of the window move the power cap and the current cap (R375). -/
def execPowerWindowEnd (s : State) : Host.Outcome State Fault Refusal :=
  let c := s.clk
  if c.samples == 0 then .refused (.notEnabled "no telemetry has been read in the window")
  else
    let s := setP s (pk 0x0330 3) (min 0xFFFF (c.powerSum / (1000 * c.samples)))
    .next (govern { s with clk := { c with
      powerCap := capAfter c.powerCap c.powerSum c.samples (1000 * getP s (pk 0x0330 1))
      currCap := capAfter c.currCap c.currSum c.samples (getP s (pk 0x0330 4))
      powerSum := 0, currSum := 0, samples := 0 } })

/-! ### Temperature (R376 to R378) -/

/-- The sensors of the junction readings: codes 00h to 11h and 20h. -/
def junctions : List Nat := List.range 18 ++ [0x20]

/-- The reading of a sensor in 1/8 °C as 0340h.05 holds it, a stack's as 0830h.01 reports it. -/
def sensorOf (s : State) (n : Nat) : Int :=
  if 0x18 ≤ n && n ≤ 0x1F then sext 32 (getP s (pk (0x0830 + (n - 0x18)) 1))
  else sext 16 (getP s (pk 0x0340 5) >>> (16 * n))

/-- The bytes of 0340h.05. -/
def sensorBytes (rd : Nat → Int) : List Byte :=
  (List.range 33).flatMap fun n => leBytes 2 (if 0x12 ≤ n && n ≤ 0x17 then 0x8000 else wrap 16 (rd n))

/-- One sensor's reading; after 10 ms without a valid one it is taken to read the trip temperature (R376). -/
def readSensor (s : State) (r : Nat × Option Int) : State :=
  let c := s.clk
  match r.2 with
  | some t => { s with clk := { c with readings := SMap.set 0 c.readings r.1 t, invalid := SMap.set 0 c.invalid r.1 0 } }
  | none =>
    let n := SMap.get 0 c.invalid r.1 + 1
    { s with clk := { c with
      invalid := SMap.set 0 c.invalid r.1 n
      readings := if 100 ≤ n then SMap.set 0 c.readings r.1 880 else c.readings } }

/-- The highest junction reading sets ALERT_L and the thermal cap (R377). -/
def thermalCap (s : State) (hi : Int) : State :=
  let c := s.clk
  let alert : Int := 8 * getP s (pk 0x0340 1)
  let thr : Int := 8 * getP s (pk 0x0340 2)
  let c := { c with alertTherm := if alert ≤ hi then true else if hi ≤ alert - 24 then false else c.alertTherm }
  let c :=
    if thr ≤ hi then { c with thermCap := max 900 (c.thermCap - 100), cool := 0 }
    else if hi < thr - 24 then
      (if c.cool + 1 == 100 then { c with thermCap := min 2000 (c.thermCap + 25), cool := 0 } else { c with cool := c.cool + 1 })
    else { c with cool := 0 }
  govern { s with clk := c }

/-- THERMAL_READING: the sensors' readings of 100 µs are kept; the highest junction reading acts (R376, R377). -/
def execThermalReading (rs : List (Nat × Option Int)) (s : State) : Host.Outcome State Fault Refusal :=
  if !(rs.all fun r => junctions.contains r.1) then .fault .noSuchUnit
  else
    let s := if s.clk.thermCap < 2000 then incP s (pk 0x0340 6) 100 else s
    let s := rs.foldl readSensor s
    let seen (n : Nat) : Int :=
      if rs.any (fun r => r.1 == n) && (s.clk.readings.any fun x => x.1 == n) then SMap.get 0 s.clk.readings n else sensorOf s n
    let s := setP s (pk 0x0340 5) (leNat (sensorBytes seen))
    let hi := junctions.foldl (fun (a : Int) n => max a (sensorOf s n)) (sensorOf s 0)
    .next (thermalCap (setP s (pk 0x0340 4) (wrap 32 hi)) hi)

/-- The record of fault 15h. -/
def tripRaised (s : State) (dom : Option Nat) (sensor : Nat) (t : Int) : Raised :=
  match dom with
  | some d => { mkRaised s 0x15 d 0xFFFF with detail0 := sensor, detail1 := wrap 64 t }
  | none => { mkRaised s 0x15 0 0xFFFF with dom := none, dcc := 0, handle := 0, detail0 := sensor, detail1 := wrap 64 t }

/-- THERMAL_TRIP: a reading at or above 110 °C: every running domain takes fault 15h, the compute clocks stop, THERMTRIP_L
is asserted (R378). -/
def execThermalTrip (sensor : Nat) (s : State) : Host.Outcome State Fault Refusal :=
  if !(junctions.contains sensor || (0x18 ≤ sensor && sensor ≤ 0x1F)) then .fault .noSuchUnit
  else
    let t := sensorOf s sensor
    if t < 880 || s.clk.tripped then .refused (.notEnabled "the sensor reads below the trip temperature")
    else
      let ds := (List.range 8).filter (domRuns s)
      let s' := ds.foldl (fun s d =>
        let s := writeRecord s (tripRaised s (some d) sensor t) 0
        setD s d { getD s d with st := .faulted, stopDue := true }) s
      let s' := if ds.isEmpty then writeRecord s' (tripRaised s' none sensor t) 0 else s'
      .next { s' with clk := { s'.clk with runs := false, tripped := true, thermtrip := true } }

end Sys2Proof.Machine
end

