-- ==== Sys2Proof/Machine/Loader.lean ====
section
/-!
DEFINITION. Loading and starting a domain: the image's header, sections, relocations and patches, the checks of the
loader in their order, placement, and the start of a run (R203, R204, R207, R212 to R219, R262, R275, R356).
-/
namespace Sys2Proof.Machine

/-- A refusal of a load: fault code, DETAIL0, DETAIL1, and the image offset concerned (R218, R226, R228). -/
structure LoadFault where
  code : Nat
  d0   : Nat
  d1   : Nat := 0
  off  : Nat := 0xFFFFFFFF
  deriving DecidableEq, Repr

/-- The image as read: its bytes with poison marks. -/
abbrev Image := List (Byte × Bool)

/-- A number of `n` bytes at an offset of the image; bytes past its end are zero. -/
def imgNat (m : Image) (off n : Nat) : Nat := leNat (((m.drop off).take n).map (·.1))

/-- The header as one number (R212). -/
def imgHeader (m : Image) : Nat := imgNat m 0 256

def hdSize (h : Nat) : Nat := bits h 127 96
def hdConfig (h : Nat) : Nat := bits h 191 128
def hdCores (h : Nat) : Nat := bits h 255 192
def hdSecOff (h : Nat) : Nat := bits h 287 256
def hdSecCount (h : Nat) : Nat := bits h 303 288
def hdRelCount (h : Nat) : Nat := bits h 319 304
def hdRelOff (h : Nat) : Nat := bits h 351 320
def hdPatOff (h : Nat) : Nat := bits h 383 352
def hdPatCount (h : Nat) : Nat := bits h 399 384
def hdStreams (h : Nat) : Nat := bits h 415 400
def hdTrees (h : Nat) : Nat := bits h 431 424
def hdStrands (h : Nat) : Nat := bits h 439 432
def hdRamp (h : Nat) : Nat := bits h 447 440
def hdCircuit (h : Nat) : Nat := bits h 463 448
def hdDma (h : Nat) : Nat := bits h 479 464
/-- The engine-map code of ME m of core n. -/
def hdEngine (h n m : Nat) : Nat := bits h (512 + 8 * n + 2 * m + 1) (512 + 8 * n + 2 * m)
/-- The phase mask of the link leaving stop n in a direction. -/
def hdPhase (h n : Nat) : Dir → Nat
  | .cw => bits h (832 + 8 * n + 7) (832 + 8 * n)
  | .ccw => bits h (1120 + 8 * n + 7) (1120 + 8 * n)

/-- An entry of a table of `size`-byte entries. -/
def tableEntry (m : Image) (off size i : Nat) : Nat := imgNat m (off + size * i) size

/-- A section entry with the offset of its table entry (R213). -/
structure SecEntry where
  at_  : Nat
  kind : Nat
  pos  : Nat
  line : Nat
  size : Nat
  off  : Nat
  rsv  : Nat
  deriving DecidableEq, Repr

def sections (m : Image) : List SecEntry :=
  let h := imgHeader m
  (List.range (hdSecCount h)).map fun i =>
    let e := tableEntry m (hdSecOff h) 16 i
    ⟨hdSecOff h + 16 * i, bits e 111 104, bits e 103 96, bits e 95 64, bits e 63 32, bits e 31 0, bits e 127 112⟩

/-- A relocation or patch entry: its table offset, the field, and CLASS or SLOT (R214, R215). -/
structure FieldEntry where
  at_   : Nat
  off   : Nat
  lsb   : Nat
  width : Nat
  sel   : Nat
  rsv   : Nat
  deriving DecidableEq, Repr

def fieldEntries (m : Image) (off n : Nat) : List FieldEntry :=
  (List.range n).map fun i =>
    let e := tableEntry m off 8 i
    ⟨off + 8 * i, bits e 31 0, bits e 39 32, bits e 47 40, bits e 55 48, bits e 63 56⟩

def relocs (m : Image) : List FieldEntry := let h := imgHeader m; fieldEntries m (hdRelOff h) (hdRelCount h)
def patches (m : Image) : List FieldEntry := let h := imgHeader m; fieldEntries m (hdPatOff h) (hdPatCount h)

/-- The value of a field. -/
def fieldGet (m : Image) (f : FieldEntry) : Nat := imgNat m f.off 24 / 2 ^ f.lsb % 2 ^ f.width

/-- The image with a field replaced; the marks stay. -/
def fieldPut (m : Image) (f : FieldEntry) (v : Nat) : Image :=
  let n := (f.lsb + f.width + 7) / 8
  let old := imgNat m f.off n
  let new := old - fieldGet m f * 2 ^ f.lsb + v % 2 ^ f.width * 2 ^ f.lsb
  m.take f.off ++ ((leBytes n new).zip ((m.drop f.off).map (·.2))) ++ m.drop (f.off + n)

/-- The base that a relocation class adds and the range of its result, both ends included (R214). -/
def relocBase (s : State) (d cls : Nat) : Nat × Nat × Nat :=
  let p (sub : Nat) : Nat := getP s (pk (0x0600 + d) sub)
  match cls with
  | 0 => (p 7, p 7, p 7 + p 8)
  | 1 => (p 9, p 9, p 9 + p 0xA)
  | 2 => (p 0xB, p 0xB, p 0xB + p 0xC)
  | 3 => (bits (p 0xD) 47 6, 0, 2 ^ 42)
  | _ => (p 0xD, 0, 2 ^ 48)

/-- The relocated value lies in its range and fits its width (R214). -/
def relocOk (s : State) (d : Nat) (m : Image) (f : FieldEntry) : Bool :=
  let (b, lo, hi) := relocBase s d f.sel
  let v := fieldGet m f + b
  decide (lo ≤ v) && decide (v < hi) && decide (v < 2 ^ f.width)

/-- The patch value of a slot (R215). -/
def patchValue (s : State) (d slot : Nat) : Nat := getP s (pk (0x0640 + d) (slot + 1))

/-- Every relocation first, then every patch, in table order (R215). -/
def linked (s : State) (d : Nat) (m : Image) : Image :=
  let ok (f : FieldEntry) : Bool := decide (f.lsb ≤ 127) && decide (1 ≤ f.width) && decide (f.width ≤ 64)
  let r := (relocs m).foldl (fun (x : Image) f => if ok f then fieldPut x f (fieldGet x f + (relocBase s d f.sel).1) else x) m
  (patches m).foldl (fun (x : Image) f => if ok f then fieldPut x f (patchValue s d f.sel) else x) r

/-! ### The checks of R218 -/

/-- The first refusal of a list of checks: a condition and its refusal. -/
def firstRefusal : List (Bool × LoadFault) → Option LoadFault
  | [] => none
  | (b, f) :: r => if b then some f else firstRefusal r

/-- The stream descriptors of a section, with their contexts within the grant and image offsets, from the linked
image. -/
def secDescs (m : Image) (x : SecEntry) : List (Nat × Nat × Nat) :=
  if x.kind ≠ 4 then [] else
  (List.range (x.size / 64)).map fun i => (x.line + i, imgNat m (x.off + 64 * i) 64, x.off + 64 * i)

/-- Reserved fields, encodings and values out of range of a descriptor (R260, R261). A context with TOTAL = 0 is unused:
its reserved fields alone are checked. -/
def descReserved (d : Nat) : Bool :=
  decide (d >>> 500 ≠ 0) || bit d 463 || decide (bits d 191 170 ≠ 0) || decide (bits d 63 50 ≠ 0) ||
    decide (bits d 31 28 ≠ 0) || decide (bits d 23 22 ≠ 0) || decide (bits d 15 14 ≠ 0) || bit d 7 ||
    (decide (sdTotal d ≠ 0) && (sdKind d == 3 || sdNwin d == 1 || (sdKind d == 1 && sdMode d == 1) ||
      (decide (sdKind d ≠ 2) && decide (sdSrc d ≠ 0)) || (sdKind d == 1 && decide (sdHold d ≠ 0)) || sdWinLines d == 0 ||
      sdPeriod d == 0 || (decide (sdKind d ≠ 2) && (sdC0 d == 0 || sdC1 d == 0))))

/-- Check 1: reserved fields and encodings (R218). -/
def checkReserved (m lk : Image) : Option LoadFault :=
  let h := imgHeader m
  let hdr := [(1536, 512, 192), (800, 32, 100), (480, 32, 60), (416, 8, 52), (252, 4, 24), (80, 16, 10)].map fun (lo, w, off) =>
    let v := h / 2 ^ lo % 2 ^ w
    (decide (v ≠ 0), ({ code := 2, d0 := v, off := off } : LoadFault))
  let sec := (sections m).flatMap fun x =>
    [(decide (x.rsv ≠ 0), ({ code := 2, d0 := x.rsv, off := x.at_ } : LoadFault)),
     (decide (5 < x.kind), { code := 2, d0 := x.kind, off := x.at_ })]
  let rel := (relocs m).flatMap fun x =>
    [(decide (x.rsv ≠ 0), ({ code := 2, d0 := x.rsv, off := x.at_ } : LoadFault)),
     (decide (4 < x.sel), { code := 2, d0 := x.sel, off := x.at_ })]
  let pat := (patches m).flatMap fun x =>
    [(decide (x.rsv ≠ 0), ({ code := 2, d0 := x.rsv, off := x.at_ } : LoadFault)),
     (decide (63 < x.sel), { code := 2, d0 := x.sel, off := x.at_ })]
  let desc := (sections m).flatMap fun x => (secDescs lk x).map fun (_, dd, off) =>
    (descReserved dd, ({ code := 2, d0 := dd, off := off } : LoadFault))
  firstRefusal (hdr ++ sec ++ rel ++ pat ++ desc)

/-- Check 2: the steppings (R219). -/
def checkStepping (s : State) (d h : Nat) : Option LoadFault :=
  let im := bits h 71 64
  let dev := getP s (pk 0x0000 3)
  let leg := getP s (pk (0x0600 + d) 6)
  if (im == 0 && dev == 0 && leg == 0) || (im == 0 && dev == 1 && leg == 1) || (im == 1 && dev == 1 && leg == 0) then none
  else some { code := 0x0A, d0 := im, d1 := dev + 256 * leg, off := 8 }

/-- Checks 3 and 4: what the image was compiled for (R218). -/
def checkTarget (s : State) (d h : Nat) : Option LoadFault :=
  let f (reason v want off : Nat) : Bool × LoadFault := (decide (v ≠ want), { code := 9, d0 := reason, d1 := want, off := off })
  firstRefusal [
    f 1 (bits h 31 0) 0x4E445246 0, f 1 (bits h 47 32) 1 4, f 1 (bits h 63 48) (getP s (pk 0x0002 0)) 6,
    f 2 (hdConfig h) (if getP s (pk (0x0600 + d) 6) == 1 then getP s (pk 0x0205 0) else getP s (pk 0x0200 0)) 16,
    f 3 (bits h 79 72) (getP s (pk 0x0000 4)) 9, f 3 (hdRamp h) (getP s (pk 0x0203 0)) 55,
    f 3 (hdCircuit h) (getP s (pk 0x0204 0)) 56]

/-- The other domains that hold a core: those not EMPTY whose core set names it (R203). -/
def holders (s : State) (d b : Nat) : List Nat :=
  (List.range 8).filter fun k => k ≠ d && (getD s k).st ≠ .empty && bit (getD s k).cores b

/-- The lines of a core that domain d has beside domain k (R204). -/
def sharedLines (d k : Nat) : Nat × Nat := if d < k then (0, 0x18000) else (0x18000, 0x30000)
/-- The code section kind a domain runs on a core that it shares with domain k. -/
def sharedKind (d k : Nat) : Nat := if d < k then 0 else 1

/-- Whether domain k, which holds Eland core b, leaves it to be shared with d: its sections keep to its lines and its
needle, and the needle of d is free (R204). -/
def shareable (s : State) (d k b : Nat) : Bool :=
  let e := getE s b
  let (lo, hi) := sharedLines k d
  (if k < d then e.domF == some k && (!e.shared || e.domB.isNone) else e.domB == some k && (!e.shared || e.domF.isNone)) &&
    (getD s k).sections.all fun x => x.pos ≠ elandPos b || decide (3 < x.kind) ||
      (decide (lo ≤ x.line) && decide (x.line + x.size / 64 ≤ hi) && (x.kind == 3 || x.kind == sharedKind k d))

/-- An image of d holds code of the needle that another domain k has on Eland core b (R204). -/
def wrongNeedle (d k b : Nat) (ss : List SecEntry) : Bool :=
  ss.any fun x => x.pos == elandPos b && decide (x.kind ≤ 1) && x.kind ≠ sharedKind d k

/-- A core's overlap with other domains that R204 does not allow. -/
def coreClash (s : State) (d b : Nat) (ss : List SecEntry) : Bool :=
  match holders s d b with
  | [] => false
  | [k] => decide (36 ≤ b) || !shareable s d k b || wrongNeedle d k b ss
  | _ => true

/-- An engine-map code that cannot be granted (R95, R218). -/
def engineClash (s : State) (h n m : Nat) : Bool :=
  let c := hdEngine h n m
  let p := (getEng s (4 * n + m)).part
  if c == 0 then false
  else fenced s n || !bit (hdCores h) n ||
    (if c == 1 then bit p 3 || bit p 7
     else if c == 2 then bit p 3
     else if bit p 31 then bit p 7 else bit p 3)

/-- A phase claimed on a link that belongs to another domain (R107, R218). -/
def phaseClash (s : State) (d h n : Nat) (dir : Dir) : Bool :=
  let t := SMap.get 0 s.phases (2 * n + Dir.bit dir)
  (List.range 8).any fun p => bit (hdPhase h n dir) p && bit t (4 * p + 3) && decide (bits t (4 * p + 2) (4 * p) ≠ d)

/-- Check 5: cores, engines, phases and strands (R218). -/
def checkGrants (s : State) (d h : Nat) (ss : List SecEntry) : Option LoadFault :=
  let set := getP s (pk (0x0600 + d) 2)
  let r (n : Nat) (b : Bool) (d1 off : Nat) : Bool × LoadFault := (b, { code := 9, d0 := n, d1 := d1, off := off })
  let cores := (List.range 60).filter fun b => bit (hdCores h) b
  firstRefusal ([
      r 4 (decide (hdCores h ≠ set)) set 24,
      r 5 (cores.any fun b => bit (getP s (pk 0x0201 0)) b) (getP s (pk 0x0201 0)) 24,
      r 6 (cores.any fun b => coreClash s d b ss) 0 24] ++
    ((List.range 36).flatMap fun n => (List.range 4).map fun m =>
      r 7 (engineClash s h n m) (getEng s (4 * n + m)).part (64 + n)) ++
    ((List.range 36).map fun n => r 8 (phaseClash s d h n .cw) (SMap.get 0 s.phases (2 * n)) (104 + n)) ++
    ((List.range 36).map fun n => r 8 (phaseClash s d h n .ccw) (SMap.get 0 s.phases (2 * n + 1)) (140 + n)) ++
    ((List.range 8).map fun t => r 9 (bit (hdStrands h) t && !ownsStrand s d t) (getP s (pk 0x0853 (t + 1))) 54))

/-- Two ranges given by first value and count have a value in common; an empty range has none. -/
def meets (a b : Nat × Nat) : Bool :=
  decide (0 < a.2) && decide (0 < b.2) && decide (a.1 < b.1 + b.2) && decide (b.1 < a.1 + a.2)

/-- A grant of contexts, channels or trees meets that of another domain that is not EMPTY (R203); a refused load grants
nothing (R218). -/
def grantClash (s : State) (d base count : Nat) : Bool :=
  let g (k : Nat) : Nat × Nat := (getP s (pk (0x0600 + k) base), getP s (pk (0x0600 + k) count))
  (List.range 8).any fun k => k ≠ d && (getD s k).st ≠ .empty && (getD s k).granted && meets (g d) (g k)

/-- The core unit of a section and whether it may hold a section of the kind. -/
def secUnit (x : SecEntry) : Option Nat :=
  match unitAt x.pos with
  | none => none
  | some u => if (x.kind == 0 || x.kind == 1) && decide (0x40 ≤ u) then none
      else if x.kind == 2 && decide (u < 0x40) then none else some u

/-- The other domain that shares a core with d, if any. -/
def sharer (s : State) (d u : Nat) : Option Nat := if u < 36 then (holders s d u).head? else none

/-- The lines of a core that a load of d may fill. -/
def loadLines (s : State) (d u : Nat) : Nat × Nat :=
  match sharer s d u with
  | some k => sharedLines d k
  | none => (0, coreLines u)

/-- Whether a section breaks the layout of the image (R218 reason 0Bh). -/
def secBroken (s : State) (d h : Nat) (x : SecEntry) : Bool :=
  decide (x.size % 64 ≠ 0) || decide (x.off % 64 ≠ 0) || decide (hdSize h < x.off + x.size) ||
    (if x.kind ≤ 3 then
      match secUnit x with
      | none => true
      | some u =>
        let (lo, hi) := loadLines s d u
        !bit (hdCores h) (coreBit u) || decide (x.line < lo) || decide (hi < x.line + x.size / 64)
    else x.kind == 5 && decide (4096 < x.size))

/-- Two sections that cannot stand together: overlapping lines, contexts or channel, or code of one needle or core. -/
def secsClash (x y : SecEntry) : Bool :=
  if x.kind ≤ 3 && y.kind ≤ 3 then
    x.pos == y.pos && (meets (x.line, x.size / 64) (y.line, y.size / 64) || (x.kind == y.kind && x.kind ≠ 3))
  else if x.kind == 4 && y.kind == 4 then meets (x.line, x.size / 64) (y.line, y.size / 64)
  else x.kind == 5 && y.kind == 5 && x.line == y.line

/-- The members of a list that clash with an earlier one. -/
def clashes {α : Type} (f : α → α → Bool) : List α → List α → List α
  | _, [] => []
  | seen, x :: r => (if seen.any fun y => f y x then [x] else []) ++ clashes f (x :: seen) r

/-- A table past the end of the image or out of alignment (R212, R218). -/
def tableBroken (h off size n : Nat) : Bool := decide (off % 8 ≠ 0) || (decide (0 < n) && decide (hdSize h < off + size * n))

/-- A relocation or patch entry out of its form (R218 reason 0Bh). -/
def fieldBroken (h : Nat) (f : FieldEntry) : Bool :=
  decide (127 < f.lsb) || f.width == 0 || decide (64 < f.width) || decide (hdSize h < f.off + (f.lsb + f.width + 7) / 8)

/-- A descriptor in use: context within the grant, descriptor, image offset. -/
def usedDescs (m lk : Image) : List (Nat × Nat × Nat) :=
  ((sections m).flatMap fun x => secDescs lk x).filter fun x => sdTotal x.2.1 ≠ 0

/-- The positions a descriptor's rings lie at (R260). -/
def descCores (s : State) (d dd : Nat) : List Nat :=
  if sdMcast dd && sdKind dd ≠ 1 then positionsOf (getP s (pk (0x0920 + d) (sdMgroup dd + 1))) else [sdCore dd]

/-- The rings of a descriptor: position, first line, lines. -/
def descRings (s : State) (d : Nat) (x : Nat × Nat × Nat) : List (Nat × Nat × Nat) :=
  (descCores s d x.2.1).map fun p => (p, sdRing x.2.1, sdNwin x.2.1 * sdWinLines x.2.1)

/-- Active contexts that other domains have on the fetch engine at a position (R259). -/
def otherContexts (s : State) (d p : Nat) : Nat :=
  (s.streams.filter fun x => x.2.dom ≠ d && x.2.st ≠ 0 && sdCore x.2.desc == p).length

/-- A descriptor breaks the grant, the rules of relays and releasers, or the size of a fetch engine (R259, R261, R262 reason
0Ah). -/
def descGrant (s : State) (d : Nat) (all : List (Nat × Nat × Nat)) (x : Nat × Nat × Nat) : Bool :=
  let base := getP s (pk (0x0600 + d) 7)
  let count := getP s (pk (0x0600 + d) 8)
  let dd := x.2.1
  let ctx := base + x.1
  let inGrant (n : Nat) : Bool := decide (base ≤ n) && decide (n < base + count)
  (sdKind dd == 2 && !inGrant (sdSrc dd)) || (sdRelEn dd && !inGrant (sdReleaser dd)) ||
    (all.any fun y => sdKind y.2.1 == 2 && sdSrc y.2.1 == ctx && !(sdRelEn dd && sdReleaser dd == base + y.1)) ||
    (sdKind dd == 2 && (decide (sdVline dd ≠ 0) || decide (bits dd 127 80 ≠ 0) || decide (sdC0 dd ≠ 0) || decide (sdC1 dd ≠ 0) ||
      decide (bits dd 319 224 ≠ 0) || !(all.any fun y => base + y.1 == sdSrc dd && sdWinLines y.2.1 == sdWinLines dd))) ||
    decide (256 < (all.filter fun y => sdCore y.2.1 == sdCore dd).length + otherContexts s d (sdCore dd))

/-- A ring outside its core's memory or share (R262 reason 0Bh); a position without a core is reason 0Ch. -/
def ringBroken (s : State) (d : Nat) (r : Nat × Nat × Nat) : Bool :=
  match unitAt r.1 with
  | none => false
  | some u =>
    let (lo, hi) := loadLines s d u
    decide (r.2.1 < lo) || decide (hi < r.2.1 + r.2.2)

/-- The position that an instruction names as SIGNAL, PUT, GET, MPUT or MGET target (R135, R182, R280). -/
def targetOf (kind w : Nat) : Option Nat :=
  if kind ≤ 1 then
    if opcodeOf w == 0x09 then some (signalPos w)
    else if opcodeOf w == 0x28 || opcodeOf w == 0x29 then some (puPos w) else none
  else if kind == 2 then
    if opcodeOf w == 0x09 then some (ccSigPos w)
    else if opcodeOf w == 0x62 || opcodeOf w == 0x63 then some (ctPos w) else none
  else if kind == 5 then
    if opcodeOf w == 0x05 && !dmSigTgt w then some (dmSigId w) else none
  else none

/-- The instructions of a section that name targets, with their image offsets. -/
def secTargets (lk : Image) (x : SecEntry) : List (Nat × Nat × Nat) :=
  let size := if x.kind ≤ 1 then 16 else 8
  let n := if x.kind == 5 then min (x.size / 8) 256 else if x.kind ≤ 2 then x.size / size else 0
  (List.range n).filterMap fun i =>
    (targetOf x.kind (imgNat lk (x.off + size * i) size)).map fun p => (p, imgNat lk (x.off + size * i) size, x.off + size * i)

/-- Whether a position is a core of the core set of the header. -/
def inSet (h p : Nat) : Bool :=
  match unitAt p with
  | some u => bit (hdCores h) (coreBit u)
  | none => false

/-- Check 6: counts, layout, targets and patch values, by reason (R218, R262). -/
def checkLayout (s : State) (d : Nat) (m lk : Image) : Option LoadFault :=
  let h := imgHeader m
  let p (sub : Nat) : Nat := getP s (pk (0x0600 + d) sub)
  let r (n : Nat) (b : Bool) (d1 off : Nat) : Bool × LoadFault := (b, { code := 9, d0 := n, d1 := d1, off := off })
  let ss := sections m
  let used := usedDescs m lk
  let rings := used.flatMap fun x => (descRings s d x).map fun g => (g, x.2.2)
  let relocated := (relocs m).foldl (fun (a : Image × List (Bool × LoadFault)) f =>
    let bad := !fieldBroken h f && !relocOk s d a.1 f
    (if fieldBroken h f then a.1 else fieldPut a.1 f (fieldGet a.1 f + (relocBase s d f.sel).1),
      a.2 ++ [r 0xA bad (relocBase s d f.sel).1 f.at_])) (m, [])
  firstRefusal (
    [r 0xA (decide (p 8 < hdStreams h) || grantClash s d 7 8) (p 8) 50,
     r 0xA (decide (p 0xA < hdDma h) || grantClash s d 9 0xA) (p 0xA) 58,
     r 0xA (decide (p 0xC < hdTrees h) || grantClash s d 0xB 0xC) (p 0xC) 53] ++
    relocated.2 ++
    (ss.map fun x => r 0xA ((x.kind == 4 && decide (p 8 < x.line + x.size / 64)) || (x.kind == 5 && decide (p 0xA ≤ x.line)))
      (if x.kind == 4 then p 8 else p 0xA) x.at_) ++
    (used.map fun x => r 0xA (descGrant s d used x) (p 8) x.2.2) ++
    [r 0xB (decide (hdSize h % 64 ≠ 0) || decide (hdSize h < 256)) 0 12,
     r 0xB (tableBroken h (hdSecOff h) 16 (hdSecCount h)) 0 32,
     r 0xB (tableBroken h (hdRelOff h) 8 (hdRelCount h)) 0 40,
     r 0xB (tableBroken h (hdPatOff h) 8 (hdPatCount h)) 0 44] ++
    ((relocs m ++ patches m).map fun f => r 0xB (fieldBroken h f) 0 f.at_) ++
    (ss.map fun x => r 0xB (secBroken s d h x) 0 x.at_) ++
    ((clashes secsClash [] ss).map fun x => r 0xB true 0 x.at_) ++
    (rings.map fun g => r 0xB (ringBroken s d g.1) 0 g.2) ++
    ((clashes (fun a b : (Nat × Nat × Nat) × Nat => a.1.1 == b.1.1 && meets a.1.2 b.1.2) [] rings).map fun g => r 0xB true 0 g.2) ++
    (ss.flatMap fun x => (secTargets lk x).map fun t => r 0xC (!inSet h t.1) (p 2) t.2.2) ++
    (used.map fun x => r 0xC (!((sdCore x.2.1 :: descCores s d x.2.1).all fun q => inSet h q)) (p 2) x.2.2) ++
    ((patches m).map fun f => r 0xD (decide (2 ^ f.width ≤ patchValue s d f.sel)) (patchValue s d f.sel) f.at_))

/-- All checks in their order; `lk` is the linked image. -/
def checkImage (s : State) (d : Nat) (m lk : Image) : Option LoadFault :=
  let h := imgHeader m
  match checkReserved m lk with
  | some f => some f
  | none => match checkStepping s d h with
    | some f => some f
    | none => match checkTarget s d h with
      | some f => some f
      | none => match checkGrants s d h (sections m) with
        | some f => some f
        | none => checkLayout s d m lk

/-! ### Placement -/

/-- The partition register after an engine-map code gives a part to a domain: a whole engine clears SPLIT and both poison
bits, a half sets SPLIT and clears its own (R95, R97). -/
def assignPart (r c d : Nat) : Nat :=
  if c == 1 then 8 + 16 * d
  else
    let r := if bit r 31 then r else r + 2 ^ 31
    if c == 2 then r - bits r 14 14 * 2 ^ 14 - bits r 6 3 * 8 + 8 + 16 * d
    else r - bits r 15 15 * 2 ^ 15 - bits r 10 7 * 128 + 128 + 256 * d

/-- Write the partition registers (R95, R218). -/
def placeEngines (s : State) (d h : Nat) : State :=
  (List.range 144).foldl (fun s e =>
    let c := hdEngine h (e / 4) (e % 4)
    if c == 0 then s
    else
      let x := getEng s e
      let x := { x with part := assignPart x.part c d }
      setEng s e (if c == 1 then { x with p0 := {}, p1 := {} } else setPart x (c - 2) {})) s

/-- Write the phase tables (R107, R218). -/
def placePhases (s : State) (d h : Nat) : State :=
  (List.range 72).foldl (fun s k =>
    let mask := hdPhase h (k / 2) (if k % 2 == 0 then .cw else .ccw)
    let t := (List.range 8).foldl (fun t p =>
      if bit mask p then t - bits t (4 * p + 3) (4 * p) * 2 ^ (4 * p) + (8 + d) * 2 ^ (4 * p) else t) (SMap.get 0 s.phases k)
    { s with phases := SMap.set 0 s.phases k t }) s

/-- The stops of the domain's arc: those of its engines and both ends of the links it claims (R107). -/
def arcOf (h : Nat) : Nat :=
  (List.range 36).foldl (fun a n =>
    let prev := (n + 35) % 36
    let next := (n + 1) % 36
    let here := (List.range 4).any fun m => decide (hdEngine h n m ≠ 0)
    if here || decide (hdPhase h n .cw ≠ 0) || decide (hdPhase h n .ccw ≠ 0) || decide (hdPhase h prev .cw ≠ 0) ||
      decide (hdPhase h next .ccw ≠ 0) then a + 2 ^ n else a) 0

/-- Give the domain a core: alone, or beside the domain that it is shared with (R204, R213). -/
def placeCore (s : State) (d u : Nat) : State :=
  if 0x40 ≤ u then setC s (u - 0x40) { getC s (u - 0x40) with dom := some d }
  else
    let e := getE s u
    match sharer s d u with
    | none => setE s u { e with domF := some d, domB := some d, shared := false }
    | some k => setE s u { e with domF := some (min d k), domB := some (max d k), shared := true }

/-- Place one section; lines written are present (R116, R213, R262, R275). -/
def placeSection (lk : Image) (d : Nat) (s : State) (x : SecEntry) : State :=
  let data := (lk.drop x.off).take x.size
  if x.kind ≤ 3 then
    match unitAt x.pos with
    | none => s
    | some u =>
      let s := writeP s (corePa u (64 * x.line)) data
      let s := (List.range (x.size / 64)).foldl (fun s i => setPresent s u (x.line + i) true) s
      if x.kind == 2 then setC s (u - 0x40) { getC s (u - 0x40) with code := true, pc := 8 * x.line }
      else if x.kind ≤ 1 then updN s u (if x.kind == 0 then .fore else .back) fun n => { n with code := true, pc := 4 * x.line }
      else s
  else if x.kind == 4 then
    let base := getP s (pk (0x0600 + d) 7)
    (secDescs lk x).foldl (fun s t =>
      setStream s (base + t.1) { desc := t.2.1, st := if sdTotal t.2.1 == 0 then 0 else 1, dom := d }) s
  else
    let ch := getP s (pk (0x0600 + d) 9) + x.line
    let prog := (List.range (x.size / 8)).foldl (fun p i => SMap.set 0 p i (imgNat lk (x.off + 8 * i) 8)) []
    let old := getDma s ch
    setDma s ch { st := 1, prog := prog, dom := d, trig := old.trig, trigCh := old.trigCh, trigAt := old.trigAt }

/-- Place a checked image: partition registers, phase tables, sections relocated and patched, and the measurement of the
image as it was read (R218). -/
def placeImage (s : State) (d : Nat) (m lk : Image) : State :=
  let h := imgHeader m
  let s := placePhases (placeEngines s d h) d h
  let s := (((List.range 60).filter fun b => bit (hdCores h) b).map bitUnit).foldl (fun s u => placeCore s d u) s
  let s := (sections m).foldl (placeSection lk d) s
  let dd := getD s d
  setD s d { dd with st := .loaded, granted := true, cores := hdCores h, strands := hdStrands h, arc := arcOf h,
                     sections := (sections m).map fun x => ⟨x.kind, x.pos, x.line, x.size, x.off⟩,
                     measure := sha512 (m.map (·.1)) }

/-- A refused load writes its record and leaves the domain FAULTED, its strands' lanes empty (R156, R218, R222, R226). -/
def refuseLoad (s : State) (d : Nat) (f : LoadFault) : State :=
  let r := { mkRaised s f.code d 0x92 with offset := f.off, detail0 := f.d0, detail1 := f.d1, dcc := 0 }
  let s := (strandsOf s d).foldl emptyStrand (writeRecord s r 0)
  setD s d { getD s d with st := .faulted }

/-- A load of domain d (R218): the image is read in the domain's space, checked, and placed or refused. A page absent or
unmapped refuses it with fault 12h. -/
def loadImage (s : State) (d : Nat) : State :=
  let at_ := getP s (pk (0x0600 + d) 1)
  let dd := getD s d
  let s := setD s d { dd with st := .loading, image := at_, faultSeq := 0xFFFF, dcc := 0 }
  match vread s d at_ s.ctc 256 (vfuel 256) with
  | (.bad va, _, s) => refuseLoad s d { code := 0x12, d0 := va }
  | (.absent va, _, s) => refuseLoad s d { code := 0x12, d0 := va }
  | (.ok, hd, s) =>
    let rest := hdSize (imgHeader hd) - 256
    match vread s d (at_ + 256) s.ctc rest (vfuel rest) with
    | (.bad va, _, s) => refuseLoad s d { code := 0x12, d0 := va }
    | (.absent va, _, s) => refuseLoad s d { code := 0x12, d0 := va }
    | (.ok, body, s) =>
      let m : Image := hd ++ body
      let lk := linked s d m
      match checkImage s d m lk with
      | some f => refuseLoad s d f
      | none => placeImage s d m lk

/-- LOAD: valid in EMPTY, while the compute clocks run (R217, R378). -/
def loadDomain (s : State) (d : Nat) : Nat × State :=
  if (getD s d).st ≠ .empty || !s.clk.runs then (5, s) else (0, loadImage s d)

def execLoad (d : Nat) (s : State) : Host.Outcome State Fault Refusal :=
  .next (if 8 ≤ d then noParam s false else gated s (domainCmd d) fun s => loadDomain s d)

/-! ### RUN (R119, R122, R207, R356) -/

/-- A needle at domain start (R119, R122): the fore-needle is active if it has code, the back-needle otherwise, from its first
slot on; the other one with code is parked with an empty condition. -/
def needleStart (x : NeedleSt) (act : Bool) (slot : Nat) : NeedleSt :=
  { code := x.code, pc := x.pc, dpc := x.pc, st := if !x.code then .halted else if act then .active else .parked,
    nextSlot := slot, dslot := slot, decFrom := if x.code && act then some 0 else none }

/-- An Eland core at domain start; on a shared core each domain starts its own needle, the back-needle in the first tick of odd
CTC, and the token counters are zero as on any core (R119, R130, R204, DEDUCED). -/
def elandStart (d : Nat) (e : Eland) : Eland :=
  if e.shared then
    let e := if e.domF == some d then { e with fore := needleStart e.fore true 0, tokens := [] } else e
    if e.domB == some d then { e with back := needleStart e.back true 1, tokens := [] } else e
  else if e.domF == some d then
    { e with fore := needleStart e.fore true 0, back := needleStart e.back (!e.fore.code) 0, foreTiles := 0xFFFF, tokens := [],
             pushes := 0, reported := 0, pickDue := none, answers := [] }
  else e

/-- A Chamois core at domain start: registers and tokens zero (R176). -/
def chamStart (d : Nat) (c : Cham) : Cham :=
  if c.dom == some d then { code := c.code, halted := !c.code, pc := c.pc, dpc := c.pc, dom := c.dom } else c

/-- The first strand of the domain whose armed resume step does not match, with its steps (R356). -/
def resumeMismatch (s : State) (d : Nat) : Option Nat :=
  (strandsOf s d).find? fun t =>
    let r := getP s (pk 0x0C20 (t + 1))
    r ≠ 0xFFFFFFFFFFFFFFFF && (decide (dataStep s t ≠ r) || decide (rngStep s t ≠ r))

/-- The resume check of RUN: fault 13h on a mismatch; every checked resume step is disarmed (R356). -/
def resumeCheck (s : State) (d : Nat) : State :=
  let bad := resumeMismatch s d
  let s' := (strandsOf s d).foldl (fun s t => setP s (pk 0x0C20 (t + 1)) 0xFFFFFFFFFFFFFFFF) s
  match bad with
  | none => s'
  | some t =>
    let r := { mkRaised s 0x13 d 0x92 with dcc := 0, detail0 := dataStep s t + t * 2 ^ 48, detail1 := rngStep s t }
    let s' := writeRecord s' r 0
    setD s' d { getD s' d with st := .faulted, stopDue := true }

/-- The sync nodes between a position and the root (7,7): its own, then each node's parent (R249). -/
def syncPath : Nat → Nat → List Nat
  | 0, p => [p]
  | n + 1, p => if p == 63 then [p] else p :: syncPath n (if p % 8 < 7 then p + 1 else p + 8)

/-- The sync nodes that serve a core set, bit n = position n: those on the way from its cores to the root (R249). -/
def servingNodes (cores : Nat) : Nat :=
  (List.range 60).foldl (fun a b => if bit cores b then (syncPath 14 (posOf (bitUnit b))).foldl (fun a p => a ||| 2 ^ p) a else a) 0

/-- The cores of a domain at DCC 0, its streams and its DMA channels at RUN. -/
def startCores (s : State) (d : Nat) : State :=
  { s with elands := s.elands.map fun x => (x.1, elandStart d x.2), chams := s.chams.map fun x => (x.1, chamStart d x.2),
           streams := s.streams.map fun x => (x.1, if x.2.dom == d && x.2.st ≠ 0 then { x.2 with since := s.ns } else x.2)
           dmas := s.dmas.map fun x => (x.1, if x.2.dom == d && x.2.st ≠ 0 then { x.2 with runHit := true } else x.2) }

/-- RUN: T0 is the first multiple of 64 of the CTC at least 256 ticks ahead (R207). -/
def runDomain (s : State) (d : Nat) : Nat × State :=
  if (getD s d).st ≠ .loaded || !s.clk.runs then (5, s)
  else
    let t0 := ceilDiv (s.ctc + 256) 64 * 64
    let dd := getD s d
    let s := setD s d { dd with st := .running, dcc := 0, started := false, t0 := some t0, startCtc := t0, stallTicks := 0,
                                stalls := 0, reqs := [], freezeAt := none, stalled := false, resumeAt := none, reports := [],
                                resumeOk := [], nth := 0, finished := none, choice := none, serves := servingNodes dd.cores }
    let s := noteFinished (startCores s d) d
    let s := (cvcsOf s d).foldl (fun s c =>
      if getP s (pk (0x0B10 + c) 0x12) == 0 then s else setColl (setP s (pk (0x0B20 + c) 2) 0) c { st := 1 }) s
    let s := setSnapD s d { getSnapD s d with point := 0, taken := false }
    (0, resumeCheck s d)

def execRun (d : Nat) (s : State) : Host.Outcome State Fault Refusal :=
  .next (if 8 ≤ d then noParam s false else gated s (domainCmd d) fun s => runDomain s d)

/-- LOAD_RUN: a load, then a run if it succeeds (R217). -/
def loadRunDomain (s : State) (d : Nat) : Nat × State :=
  match loadDomain s d with
  | (0, s) => if (getD s d).st == .loaded then (0, (runDomain s d).2) else (0, s)
  | r => r

def execLoadRun (d : Nat) (s : State) : Host.Outcome State Fault Refusal :=
  .next (if 8 ≤ d then noParam s false else gated s (domainCmd d) fun s => loadRunDomain s d)

end Sys2Proof.Machine
end

