-- ==== Sys2Proof/Machine/Halts.lean ====
section
/-!
DEFINITION. Resuming and failing page-absent halts (R271 to R273) and dropping cached translations (R289).
-/
namespace Sys2Proof.Machine

/-- The requester of a freed slot goes on from its halted access (R273). -/
def resumeWho (s : State) : Requester → State
  | .stream x => let y := getStream s x; setStream s x (if y.st == 2 then { y with st := 1, halt := none } else y)
  | .op u tag =>
    let s := updXfer s u tag fun x => { x with halted := none }
    match findXfer s u tag with
    | some x => pumpXfer u tag (x.total + 1) s
    | none => s
  | .dma ch => let y := getDma s ch; setDma s ch (if y.st == 4 then { y with st := 2, halt := none } else y)

/-- halt.resume of a slot: the slot is free, or the next requester's that waits; the resumed one reissues its access; a free
slot draws a conflict (R271, R273). -/
def haltResume (s : State) (slot : Nat) : Nat × State :=
  if 64 ≤ slot then (4, s)
  else match SMap.get none s.halts slot with
    | none => (5, s)
    | some h => (0, resumeWho (grantHalts (dropHalt s slot)) h.who)

/-- HALT_RESUME (R273). -/
def execHaltResume (slot : Nat) (s : State) : Host.Outcome State Fault Refusal :=
  .next (gated s (pk 0x0710 4) fun s => haltResume s slot)

/-- The fault 12h of a failed halt (R228, R273). -/
def haltFault (s : State) (h : Halt) : Raised :=
  let r := { mkRaised s 0x12 h.dom h.unit with detail0 := h.va }
  match h.who with
  | .stream x => { r with detail1 := x }
  | .dma _ => { r with detail1 := h.word }
  | .op u tag => { r with
      needle := (match findXfer s u tag with | some x => x.needle | none => 3)
      offset := h.offset, detail1 := h.word % 2 ^ 64 }

/-- halt.resume with bit 8 = 1: the domain takes fault 12h (R273). -/
def haltFail (s : State) (slot : Nat) : Nat × State :=
  if 64 ≤ slot then (4, s)
  else match SMap.get none s.halts slot with
    | none => (5, s)
    | some h => (0, raise s (haltFault s h))

/-- HALT_FAIL (R273). -/
def execHaltFail (slot : Nat) (s : State) : Host.Outcome State Fault Refusal :=
  .next (gated s (pk 0x0710 4) fun s => haltFail s slot)

/-- The domain for which data waits at a core's port F, where a memory access brought it. -/
def arrivalDom (s : State) (a : Arrival) : Option Nat :=
  match a.owner with
  | .op u tag => (findXfer s u tag).map (·.dom)
  | .stream x _ => some (getStream s x).dom
  | _ => none

/-- Accesses translated through one of some dropped entries are on their way (R289). -/
def keysBusy (s : State) (keys : List (Nat × Nat)) : Bool :=
  (allPackets s).any (fun p => p.pte ≠ 0 && keys.contains (p.dom, p.va / 2 ^ 21)) ||
    s.arrivals.any fun a => keys.any fun k => arrivalDom s a == some k.1

/-- mem.pt_flush: every cached entry of the named domain, or of all for FFh, is dropped; while accesses translated through one
are on their way, the answer is owed (R289). -/
def ptFlush (s : State) (v : Nat) : Nat × State :=
  if v ≠ 0xFF && decide (8 ≤ v) then (4, s)
  else
    let (out, rest) := s.tlb.partition fun t => v == 0xFF || t.dom == v
    let keys := out.map fun t => (t.dom, t.vpn)
    let spp := s.spp
    (0, { s with tlb := rest, spp := if keysBusy s keys then { spp with flush := spp.flush ++ [⟨v, keys, none⟩] } else spp })

end Sys2Proof.Machine
end

