-- ==== Sys2Proof/Machine/Writes.lean ====
section
/-!
DEFINITION. Writes of parameters that other chapters govern: numeric controls (R73, R74, R80, R168, R172), the Stash
(R156), trees and multicast groups (R242, R246), CVCs and peer entries (R312, R333, R338), domains and the memory system
(R217, R270, R294, R305, R309), and the checks of those that only store a value (R413, R425).
-/
namespace Sys2Proof.Machine

/-! ### Numeric controls -/

/-- numeric.nan_clear: the NaN counters and the first event return to their defaults (R73, R82). -/
def clearNans (s : State) (arg : Nat) : Nat × State :=
  if arg ≠ 0 then (4, s)
  else (0, [1, 2, 3, 4, 5, 6].foldl (fun s k => setP s (pk 0x0D30 k) (paramDefault (pk 0x0D30 k))) s)

def execNanClear (arg : Nat) (s : State) : Host.Outcome State Fault Refusal :=
  .next (gated s (pk 0x0D30 7) fun s => clearNans s arg)

/-- The selected monitor slot. -/
def monSelected (s : State) : Nat := getP s (pk 0x0D60 1)

/-- numeric.mon_clear: saturations, history and current step of the selected slot are cleared (R172). -/
def clearMon (s : State) (arg : Nat) : Nat × State :=
  if arg ≠ 0 then (4, s) else (0, setMon s (monSelected s) { tensor := (getMon s (monSelected s)).tensor })

def execMonClear (arg : Nat) (s : State) : Host.Outcome State Fault Refusal :=
  .next (gated s (pk 0x0D60 5) fun s => clearMon s arg)

/-- numeric.mon_tensor: the selected slot takes a tensor that no other slot holds, and is cleared (R82, R172). -/
def writeMonTensor (s : State) (v : Nat) : Nat × State :=
  if v ≠ 0xFFFFFFFF && 2 ^ 20 ≤ v then (6, s)
  else if v ≠ 0xFFFFFFFF && s.mons.any fun x => x.1 ≠ monSelected s && x.2.tensor == v then (5, s)
  else (0, setMon s (monSelected s) { tensor := v })

def execMonTensorWrite (v : Nat) (s : State) : Host.Outcome State Fault Refusal :=
  .next (gated s (pk 0x0D60 2) fun s => writeMonTensor s v)

/-- The first CTC multiple of 4,096 strictly after this tick (R74, R168). -/
def nextEpoch (s : State) : Nat := (s.ctc / 4096 + 1) * 4096

/-- numeric.nan_policy: in force from the next multiple of 4,096 (R74). -/
def writeNanPolicy (s : State) (v : Nat) : Nat × State :=
  if 2 ≤ v then (4, s)
  else (0, setP { s with nanPol := nanPolicy s, nanPolAt := some (nextEpoch s) } (pk 0x0D20 0) v)

def execNanPolicyWrite (v : Nat) (s : State) : Host.Outcome State Fault Refusal :=
  .next (gated s (pk 0x0D20 0) fun s => writeNanPolicy s v)

/-- numeric.grad_floor: a format code, in force from the next multiple of 4,096 (R167, R168). -/
def writeGradFloor (s : State) (v : Nat) : Nat × State :=
  if !fmtValid v then (4, s)
  else (0, setP { s with floor := gradFloor s, floorAt := some (nextEpoch s) } (pk 0x0D10 0) v)

def execGradFloorWrite (v : Nat) (s : State) : Host.Outcome State Fault Refusal :=
  .next (gated s (pk 0x0D10 0) fun s => writeGradFloor s v)

/-- RNG_STEP_WRITE: at most 2^48 − 1, and not while the strand's domain runs (R80). -/
def execRngStepWrite (strand v : Nat) (s : State) : Host.Outcome State Fault Refusal :=
  .next (if 8 ≤ strand then noParam s false else gated s (pk 0x0D51 (strand + 1)) fun s => writeStep 0x0D51 s strand v)

/-- mem.stash_domain: a domain or none; the strand's lanes are emptied (R156). -/
def writeStashDomain (s : State) (strand v : Nat) : Nat × State :=
  if 8 ≤ v && v ≠ 0xFF then (4, s) else (0, setP (emptyStrand s strand) (pk 0x0853 (strand + 1)) v)

def execStashDomainWrite (strand v : Nat) (s : State) : Host.Outcome State Fault Refusal :=
  .next (if 8 ≤ strand then noParam s false else gated s (pk 0x0853 (strand + 1)) fun s => writeStashDomain s strand v)

/-! ### Trees and multicast groups (R242, R246) -/

/-- The core set of a domain as mesh positions, fenced cores aside. -/
def livePositions (s : State) (d : Nat) : List Nat :=
  (List.range 64).filter fun p => inCoreSet s d p && match unitAt p with
    | some u => !fenced s u
    | none => false

/-- The LOADED domain whose grant holds a tree (R203, R242). -/
def treeDom (s : State) (t : Nat) : Option Nat :=
  (List.range 8).find? fun d => (getD s d).st == .loaded && decide (getP s (pk (0x0600 + d) 0xB) ≤ t) &&
    decide (t < getP s (pk (0x0600 + d) 0xB) + getP s (pk (0x0600 + d) 0xC))

/-- The positions of a bit set. -/
def setBits (v : Nat) : List Nat := (List.range 64).filter (bit v)

/-- The routes of members to a root join: every router has one outgoing direction (R242). -/
def treeJoins (s : State) (members : List Nat) (root : Nat) : Bool :=
  let hops := members.flatMap fun m => pairsOf (routeFrom s m root)
  hops.all fun a => hops.all fun b => a.1 ≠ b.1 || a.2 == b.2

/-- The configuration of tree t meets R242 for its domain. -/
def treeFits (s : State) (d t : Nat) : Bool :=
  let root := getP s (pk (0x0910 + t) 1)
  let members := setBits (getP s (pk (0x0910 + t) 2))
  let live := livePositions s d
  members.all live.contains && (root == 0xFF ||
    (inCoreSet s d root && treeJoins s members root && match unitAt root with
      | none => false
      | some u =>
        let (lo, hi) := ownLines s d u
        [3, 4].all fun k => decide (lo ≤ getP s (pk (0x0910 + t) k)) && decide (getP s (pk (0x0910 + t) k) < hi)))

/-- A write to a tree: only while its domain is LOADED; rounds count anew from it, from 0 (R242, R244, R258). -/
def writeTree (s : State) (t sub v : Nat) : Nat × State :=
  if (sub == 1 && 64 ≤ v && v ≠ 0xFF) || (sub == 5 && 64 ≤ v && v ≠ 0xFF) then (4, s)
  else match treeDom s t with
    | none => (5, s)
    | some d =>
      let s' := setP s (pk (0x0910 + t) sub) v
      if !treeFits s' d t then (5, s)
      else (0, { setP s' (pk (0x0910 + t) 6) 0 with red := s'.red.filter (fun r => r.tree ≠ t), redSent := s'.redSent.filter fun x => x.1 / 64 ≠ t })

/-- TREE_CONFIG_WRITE (R242). -/
def execTreeConfigWrite (t sub v : Nat) (s : State) : Host.Outcome State Fault Refusal :=
  .next (if 16 ≤ t || sub == 0 || 6 ≤ sub then noParam s (decide (t < 16) && (sub == 0 || sub == 6))
    else gated s (pk (0x0910 + t) sub) fun s => writeTree s t sub v)

/-- The members of a multicast group: cores of the LOADED domain that are not fenced (R246). -/
def writeMcast (s : State) (d g v : Nat) : Nat × State :=
  if (getD s d).st ≠ .loaded || !((setBits v).all (livePositions s d).contains) then (5, s)
  else (0, setP s (pk (0x0920 + d) (g + 1)) v)

/-- MCAST_MEMBERS_WRITE (R246). -/
def execMcastMembersWrite (d g v : Nat) (s : State) : Host.Outcome State Fault Refusal :=
  .next (if 8 ≤ d || 4 ≤ g then noParam s false else gated s (pk (0x0920 + d) (g + 1)) fun s => writeMcast s d g v)

/-! ### CVCs and peers (R312, R333, R338) -/

/-- A peer entry's port lies on the die of an engine: P00 to P07 and the host port with engines 0 and 1, P08 to P15 with
engines 2 and 3 (R312). -/
def peerOnDie (s : State) (eng e : Nat) : Bool :=
  let p := getP s (pk (0x0B40 + e) 2)
  if eng < 2 then decide (p < 8) || p == 0x10 else decide (8 ≤ p) && decide (p < 16)

/-- Every peer entry that a CVC names lies on its engine's die. -/
def cvcPeersOk (s : State) (c : Nat) : Bool := (cvcPeers s c).all fun e => peerOnDie s (getP s (cvcKey c 2)) e

/-- Staging allotted on a die, in KiB, over the CVCs that an engine of it serves (R312, R333). -/
def stagingSum (s : State) (die : Nat) : Nat :=
  sumNat (((List.range 16).filter fun c => getP s (cvcKey c 2) / 2 == die).map fun c => getP s (cvcKey c 0x10))

/-- The values a CVC parameter takes (R338). -/
def cvcRange (s : State) (c sub v : Nat) : Bool :=
  match sub with
  | 1 => decide (v < 8) || v == 0xFF
  | 2 => decide (v < 4)
  | 3 => decide (v < 3)
  | 4 => decide (1 ≤ v) && decide (v ≤ 4096)
  | 5 => decide (v < getP s (cvcKey c 4))
  | 6 | 7 => decide (v < 128) || v == 0xFF
  | 8 => (List.range 8).all fun i => decide (bits v (8 * i + 7) (8 * i) < 128) || bits v (8 * i + 7) (8 * i) == 0xFF
  | 0xB => decide (v < 8)
  | 0xC => decide (v < 2)
  | 0xD => decide (v < 16)
  | 0xF => decide (10000 ≤ v) && decide (v ≤ 1000000000)
  | 0x11 => v % 64 == 0 && decide (v < 2 ^ 48)
  | 0x12 => decide (v ≤ 256)
  | _ => true

/-- A write to a CVC's configuration: only while the domains it names before and after do not run; its peers keep to its
engine's die, its position to its size, and the staging of a die to 65,536 KiB (R312, R333). -/
def writeCvc (s : State) (c sub v : Nat) : Nat × State :=
  if !cvcRange s c sub v then (4, s)
  else
    let s' := setP s (cvcKey c sub) v
    if domRuns s (getP s (cvcKey c 1)) || domRuns s (getP s' (cvcKey c 1)) || !cvcPeersOk s' c ||
        decide (getP s' (cvcKey c 4) ≤ getP s' (cvcKey c 5)) ||
        decide (65536 < stagingSum s' 0) || decide (65536 < stagingSum s' 1) then (5, s)
    else (0, s')

/-- CVC_CONFIG_WRITE: the value as it travels, a BLOB's bytes for the children (R312). -/
def execCvcConfigWrite (c sub : Nat) (v : List Byte) (s : State) : Host.Outcome State Fault Refusal :=
  .next (match (if 16 ≤ c || 0x15 < sub then none else paramRow (cvcKey c sub)) with
    | none => noParam s (decide (c < 16) && sub == 0)
    | some r =>
      if v.length ≠ r.len then { s with wstatus := 3 }
      else gated s (cvcKey c sub) fun s => writeCvc s c sub (if sub == 8 then leNat v else beNat v))

/-- A peer entry: not while a running domain's CVC names it, and on the die of every engine whose CVC names it (R312,
R338). -/
def writePeer (s : State) (e sub v : Nat) : Nat × State :=
  let named := (List.range 16).filter fun c => (cvcPeers s c).contains e
  if (sub == 1 && 4096 ≤ v) || (sub == 2 && 0x10 < v) || (sub == 3 && 4094 < v) || (sub == 8 && 1 < v) then (4, s)
  else
    let s' := setP s (pk (0x0B40 + e) sub) v
    if named.any (fun c => domRuns s (getP s (cvcKey c 1))) || !(named.all (cvcPeersOk s')) then (5, s) else (0, s')

/-! ### Domains (R217) -/

/-- A grant parameter: base below its limit, base + count within it (R203, R217). -/
def grantRange (s : State) (d sub v : Nat) : Option Nat :=
  let k (n : Nat) : Nat := getP s (pk (0x0600 + d) n)
  let pair (limit base count : Nat) : Option Nat :=
    if sub == base then (if limit ≤ v then some 4 else if limit < v + k count then some 5 else none)
    else if limit < v then some 4 else if limit < k base + v then some 5 else none
  if sub == 7 || sub == 8 then pair 32768 7 8
  else if sub == 9 || sub == 0xA then pair 256 9 0xA
  else if sub == 0xB || sub == 0xC then pair 16 0xB 0xC
  else none

/-- A parameter of 0600h + d beside domain.start: only in state EMPTY (R217). -/
def writeDomainParam (s : State) (d sub v : Nat) : Nat × State :=
  let bad : Nat :=
    if sub == 1 && (v % 64 ≠ 0 || 2 ^ 48 ≤ v) then 4
    else if sub == 2 && 2 ^ 60 ≤ v then 6
    else if sub == 6 && 1 < v then 4
    else if sub == 0xD && (v % 2 ^ 21 ≠ 0 || 2 ^ 48 ≤ v) then 4
    else (grantRange s d sub v).getD 0
  if bad == 4 || bad == 6 then (bad, s)
  else if bad == 5 || (getD s d).st ≠ .empty then (5, s)
  else (0, setP s (pk (0x0600 + d) sub) v)

/-! ### Streams, DMA and memory -/

/-- The domain whose grant holds a DMA channel (R203). -/
def dmaOwner (s : State) (ch : Nat) : Option Nat :=
  (List.range 8).find? fun d => decide (getP s (pk (0x0600 + d) 9) ≤ ch) &&
    decide (ch < getP s (pk (0x0600 + d) 9) + getP s (pk (0x0600 + d) 0xA))

/-- A channel's trigger parameters, of the selected channel, only while it is IDLE; trigger 04h keeps to the channels of
one domain (R276). -/
def writeTrigger (s : State) (sub v : Nat) : Nat × State :=
  let ch := getP s (pk 0x0730 1)
  let x := getDma s ch
  let y := if sub == 2 then { x with trig := v } else if sub == 3 then { x with trigCh := v }
    else { x with trigAt := v, trigHit := false }
  if sub == 2 && 4 < v then (4, s)
  else if x.st ≠ 1 || (y.trig == 4 && dmaOwner s ch ≠ dmaOwner s y.trigCh) then (5, s)
  else (0, setDma s ch y)

/-- op.quota of a position: every domain EMPTY, the quotas at most 3,072 together (R270). -/
def writeQuota (s : State) (sub v : Nat) : Nat × State :=
  let s' := setP s (pk 0x0701 sub) v
  if !allEmpty s || decide (3072 < sumNat ((List.range 64).map fun p => getP s' (pk 0x0701 (p + 1)))) then (5, s) else (0, s')

/-- A regulator's rate, depth or borrow bit (R304, R305). -/
def regulatorWrite (s : State) (q sub v : Nat) : Nat × State :=
  let s' := setP s (pk (0x0820 + q) sub) v
  if (sub == 1 && decide (1024 < sumNat ((List.range 9).map fun k => getP s' (pk (0x0820 + k) 1)))) ||
      (sub == 2 && (v < 4096 || 1048576 < v)) || (sub == 3 && 1 < v) then (4, s)
  else (0, if sub == 1 || sub == 2 then writeRegulator s q sub v else s')

/-- A throttle threshold: the three rise within 70 to 105 °C (R306). -/
def writeThrottle (s : State) (sub v : Nat) : Nat × State :=
  let s' := setP s (pk 0x0838 sub) v
  let t (k : Nat) : Nat := getP s' (pk 0x0838 k)
  if 70 ≤ t 1 && t 1 < t 2 && t 2 < t 3 && t 3 ≤ 105 then (0, s') else (4, s)

/-- A receive region: base and size in whole 2 MiB pages; enabled regions lie in the HBM range and apart (R350, R357). -/
def writeRegion (s : State) (r sub v : Nat) : Nat × State :=
  if (sub == 1 && 1 < v) || (sub == 2 && (v % 2 ^ 21 ≠ 0 || hbmEnd ≤ v)) || (sub == 3 && v % 2 ^ 21 ≠ 0) then (4, s)
  else
    let s' := setP s (rxKey r sub) v
    let on (k : Nat) : Bool := getP s' (rxKey k 1) ≠ 0
    let span (k : Nat) : Nat × Nat := (getP s' (rxKey k 2), getP s' (rxKey k 3))
    if on r && (decide (hbmEnd < (span r).1 + (span r).2) ||
        (List.range 16).any fun k => k ≠ r && on k && meets (span r) (span k)) then (5, s)
    else (0, s')

/-- A snapshot parameter of a domain (R357). -/
def writeSnapParam (s : State) (d sub v : Nat) : Nat × State :=
  if (sub == 3 && 128 ≤ v && v ≠ 0xFF) || (sub == 4 && 16 ≤ v) || (sub == 5 && v % 128 ≠ 0) || (sub == 6 && 1 < v) then (4, s)
  else if sub ≠ 6 && domRuns s d then (5, s)
  else (0, setP s (snapKey d sub) v)

/-! ### Parameters that only store a value (R413) -/

/-- The range that the owning chapter gives a parameter without a rule of its own. -/
def rangeOk (key v : Nat) : Bool :=
  let idx := key / 256
  let sub := key % 256
  let within (lo hi : Nat) : Bool := decide (lo ≤ v) && decide (v ≤ hi)
  let port := idx == 0x0A01 || (decide (0x0A10 ≤ idx) && decide (idx ≤ 0x0A1F))
  if port then
    (match sub with
      | 2 => within 0 1
      | 6 => within 0 4094
      | 8 => within 64 1536
      | 0xB => within 1 15
      | _ => true)
  else match key with
    | 0x010001 => within 1024 65535
    | 0x010004 => within 1 3600
    | 0x010005 => within 1024 8192 && v % 4 == 0
    | 0x032003 => within 1 1000
    | 0x033001 => within 400 1600
    | 0x033002 => within 2 1000
    | 0x033004 => within 200 1900
    | 0x053002 => within 0 1
    | 0x054001 => within 0 5
    | 0x062000 => within 1 60000
    | 0x071002 => within 0 63
    | 0x072001 => within 0 32767
    | 0x0A3002 => within 0 0x10
    | 0x0A4001 => within 1024 65535
    | 0x0A4004 => within 0 4094
    | 0x0A4005 => within 0 7
    | 0x0A4006 => within 20 10000
    | 0x0A4007 => within 1 255
    | 0x0B0002 => within 0 4095
    | 0x0B0003 => within 0 2
    | 0x0B0005 => v == 1024 || v == 4096 || v == 8192
    | 0x0C0002 => within 0 100
    | 0x0C0003 => within 1 60000
    | 0x0C0004 => within 0 7
    | 0x0C3001 => within 0 1023
    | 0x102005 => v == 0 || within 60 86400
    | _ => true

/-- Store a value that lies in its range. -/
def writePlain (s : State) (key v : Nat) : Nat × State := if rangeOk key v then (0, setP s key v) else (4, s)

/-- The thresholds of R377: 70 ≤ alert ≤ throttle ≤ 105 °C. -/
def writeThermal (s : State) (sub v : Nat) : Nat × State :=
  let s' := setP s (pk 0x0340 sub) v
  if 70 ≤ getP s' (pk 0x0340 1) && getP s' (pk 0x0340 1) ≤ getP s' (pk 0x0340 2) && getP s' (pk 0x0340 2) ≤ 105 then (0, s')
  else (4, s)

/-- ptp.source: acquisition begins again from the new reference; ptp.next_second is due at the next edge (R455). -/
def writePtp (s : State) (sub v : Nat) : Nat × State :=
  if (sub == 1 && 2 < v) || (sub == 2 && 0x10 < v) then (4, s)
  else
    let s' := setP s (pk 0x0A30 sub) v
    (0, if sub == 1 then
        setP { s' with ports := { s'.ports with good := 0, edge := none, master := false } } (pk 0x0A30 7) (if v == 0 then 0 else 1)
      else if sub == 5 then { s' with ports := { s'.ports with secDue := true } } else s')

end Sys2Proof.Machine
end

