-- ==== Sys2Proof/Machine/Security.lean ====
section
/-!
DEFINITION. Boot integrity, identity and attestation (R394 to R409): the flash and its signed objects, the attestation
report, host key slots, MACsec settings and flash update.
-/
namespace Sys2Proof.Machine

/-! ### Flash (R396) -/

/-- A byte of the flash: as written since, or as the unit was provisioned. -/
def flashByte (s : State) (a : Nat) : Byte :=
  let v := SMap.get 0 s.sec.flash a
  BitVec.ofNat 8 (if v == 0 then Config.flash a else v - 1)

/-- Bytes of the flash from an address on. -/
def flashBytes (s : State) (a n : Nat) : List Byte := (List.range n).map fun i => flashByte s (a + i)

/-- A byte string cut or padded with zeros to a length. -/
def fitBytes (n : Nat) (l : List Byte) : List Byte := (l ++ List.replicate n 0#8).take n

/-- The objects are 0 firmware, 1 configuration blob, 2 Gauge firmware; the banks 0 A, 1 B. -/
def bankBase (obj bank : Nat) : Nat :=
  match obj with
  | 0 => bank * 0x01000000
  | 1 => 0x02000000 + bank * 0x00100000
  | _ => 0x02200000 + bank * 0x00100000
def bankSize (obj : Nat) : Nat := if obj == 0 then 0x01000000 else 0x00100000

/-! ### Signed objects (R397, R398, R401) -/

/-- The header of a bank. -/
def bankHeader (s : State) (obj bank : Nat) : List Byte := flashBytes s (bankBase obj bank) 512
/-- A field of a header, by its first byte and size. -/
def hdrField (h : List Byte) (off n : Nat) : Nat := leNat ((h.drop off).take n)
def hdrSvn (h : List Byte) : Nat := hdrField h 8 4
def hdrKey (h : List Byte) : Nat := hdrField h 7 1
def hdrRevoke (h : List Byte) : Nat := hdrField h 16 1
def hdrSize (h : List Byte) : Nat := hdrField h 12 4

/-- The payload of a bank. -/
def bankPayload (s : State) (obj bank : Nat) : List Byte :=
  flashBytes s (bankBase obj bank + 512) (min (hdrSize (bankHeader s obj bank)) (bankSize obj - 512))

/-- The public key of the boot ROM that verifies an object: vendor keys 0 to 3, or metrology keys 0 to 3 (R394). -/
def romKey (obj k : Nat) : List Byte := Config.unitBytes ((if obj == 2 then 0x10 else 0) + k)

/-- The revocation mask bit of a key of an object's family. -/
def revokeBit (obj k : Nat) : Nat := if obj == 2 then 4 + k else k

/-- Fields of the blob (R401). -/
def blobField (b : List Byte) (off n : Nat) : Nat := leNat ((b.drop off).take n)
def blobGrade (b : List Byte) : Nat := blobField b 3 1
def blobRamp (b : List Byte) : Nat := blobField b 4 1
def blobFence (b : List Byte) : Nat := blobField b 8 8

/-- Set bits among the bits lo to hi − 1. -/
def countBits (v lo hi : Nat) : Nat := ((List.range (hi - lo)).filter fun i => bit v (lo + i)).length

/-- The checks of the blob (R401). -/
def blobOk (s : State) (b : List Byte) : Bool :=
  let f := blobFence b
  b.length == 128 && blobField b 0 2 == 1 && blobField b 5 3 == 0 && blobField b 112 16 == 0 &&
    blobField b 2 1 == getP s (pk 0 3) && (blobRamp b == 16 || blobRamp b == 32 || blobRamp b == 64) &&
    ((blobGrade b == 1 && f == 0) ||
      (blobGrade b == 2 && countBits f 0 36 == 4 && countBits f 36 64 == 0)) &&
    (b.drop 48).take 64 == sha512 (fitBytes 133 (leBytes 133 (getP s (pk 0x0503 1))))

/-- The first check of R398 that a bank fails; 0 when it passes. -/
def verifyBank (s : State) (obj bank : Nat) : Nat :=
  let h := bankHeader s obj bank
  let k := hdrKey h
  let rev := hdrRevoke h
  let revOk := if obj == 0 then decide (rev < 16) else if obj == 1 then rev == 0 else rev % 16 == 0
  if h.take 4 ≠ [0x5A#8, 0x53#8, 0x49#8, 0x47#8] || hdrField h 4 2 ≠ 1 || hdrField h 6 1 ≠ obj + 1 || hdrField h 17 47 ≠ 0 ||
      hdrField h 260 252 ≠ 0 || !revOk then 1
  else if 4 ≤ k || bit (getP s (pk 0x0501 4)) (revokeBit obj k) || bit rev (revokeBit obj k) then 2
  else if hdrSvn h < getP s (pk 0x0501 (obj + 1)) || hdrSvn h == 0xFFFFFFFF then 3
  else if !Config.ecdsaVerify (romKey obj k) (h.take 128) ((h.drop 128).take 132) then 4
  else if hdrSize h == 0 || bankSize obj - 512 < hdrSize h || sha512 (bankPayload s obj bank) ≠ (h.drop 64).take 64 then 5
  else if obj == 1 && !blobOk s (bankPayload s obj bank) then 6
  else 0

/-- The bank that an object boots from: A, or B where A is rejected (R398). -/
def bootBank (s : State) (obj : Nat) : Option Nat := if verifyBank s obj 0 == 0 then some 0 else if verifyBank s obj 1 == 0 then some 1 else none

/-- The first cause that fails the boot, in the order of R400; 0 when every object is verified. -/
def bootFail (s : State) : Nat :=
  if !Config.pufOk then 5
  else if !Config.flashReadable then 1
  else if (bootBank s 2).isNone then 4
  else if (bootBank s 0).isNone then 2
  else if (bootBank s 1).isNone then 3
  else 0

/-- The measurement of a header: SHA-512 of its bytes 0 to 127 (R397). -/
def measureOf (h : List Byte) : List Byte := sha512 (h.take 128)

/-- What a verified boot records: banks, rejected banks A, measurements, anti-rollback counters and revocations (R399,
R400). -/
def recordBoot (s : State) : State :=
  let rejected := sumNat ((List.range 3).map fun o => if verifyBank s o 0 == 0 then 0 else 2 ^ o)
  let s := setP s (pk 0x0500 5) rejected
  let mask := getP s (pk 0x0501 4)
  let heads := (List.range 3).map fun o => (o, (bootBank s o).getD 0, bankHeader s o ((bootBank s o).getD 0))
  let s := heads.foldl (fun s x =>
    let s := setP (setP s (pk 0x0500 (x.1 + 1)) x.2.1) (pk 0x0502 (x.1 + 1)) (leNat (measureOf x.2.2))
    setP s (pk 0x0501 (x.1 + 1)) (max (getP s (pk 0x0501 (x.1 + 1))) (hdrSvn x.2.2))) s
  setP s (pk 0x0501 4) (heads.foldl (fun m x => if x.1 == 1 then m else m ||| hdrRevoke x.2.2) mask)

/-! ### Attestation (R404) -/

/-- A parameter's value as `n` bytes, least significant first. -/
def parBytes (s : State) (key n : Nat) : List Byte := leBytes n (getP s key)

/-- SERIAL zero-padded to 32 bytes. -/
def serial32 (s : State) : List Byte := parBytes s (pk 0 5) 32

/-- Bytes 0 to 887 of the report. -/
def attestBody (s : State) : List Byte :=
  let zeros (n : Nat) : List Byte := List.replicate n 0#8
  let dom (d : Nat) : Domain := getD s d
  [0x5A#8, 0x41#8, 0x54#8, 0x54#8] ++ leBytes 2 1 ++ zeros 1 ++ parBytes s (pk 0 7) 1 ++ parBytes s (pk 0x0200 0) 8 ++
    parBytes s (pk 0x0201 0) 8 ++ parBytes s (pk 0 1) 2 ++ parBytes s (pk 0 2) 2 ++ parBytes s (pk 0 3) 1 ++
    parBytes s (pk 0 4) 1 ++ zeros 2 ++ serial32 s ++ parBytes s (pk 0x0510 1) 64 ++ parBytes s (pk 0x0502 1) 64 ++
    parBytes s (pk 0x0502 2) 64 ++ parBytes s (pk 0x0502 3) 64 ++ parBytes s (pk 0x0501 1) 4 ++ parBytes s (pk 0x0501 2) 4 ++
    parBytes s (pk 0x0501 3) 4 ++ parBytes s (pk 0x0501 4) 1 ++ zeros 3 ++ leBytes 10 (timeOf s.ptp) ++ zeros 6 ++
    ((List.range 8).flatMap fun d =>
      if (dom d).st == .empty || (dom d).st == .loading then zeros 64 else fitBytes 64 (dom d).measure) ++
    ((List.range 8).map fun d => BitVec.ofNat 8 (dom d).st.code) ++ zeros 16

/-- attest.generate: the report of this tick waits for its signature (R404). -/
def attestGenerate (s : State) (arg : Nat) : Nat × State :=
  if arg ≠ 0 then (4, s)
  else if s.sec.attest.isSome then (5, s)
  else (0, setP { s with sec := { s.sec with attest := some (attestBody s) } } (pk 0x0510 4) 1)

def execAttestGenerate (arg : Nat) (s : State) : Host.Outcome State Fault Refusal :=
  .next (gated s (pk 0x0510 2) fun s => attestGenerate s arg)

/-- The key numbers of the unit's own keys: 0 the device key; the metrology signing key of each generation follows. -/
def deviceKey : Nat := 0

/-- A signature of 132 bytes: SIG_R, SIG_S. -/
def signBytes (key : Nat) (msg : List Byte) : List Byte := fitBytes 132 (Config.ecdsaSign key 0 msg)

/-- ATTEST_SIGNED: the report is complete and attest.busy clears (R404). -/
def execAttestSigned (s : State) : Host.Outcome State Fault Refusal :=
  match s.sec.attest with
  | none => .refused (.notEnabled "no report is being signed")
  | some b =>
    .next (setP (setP { s with sec := { s.sec with attest := none } } (pk 0x0510 3)
      (leNat (b ++ signBytes deviceKey b ++ List.replicate 4 0#8))) (pk 0x0510 4) 0)

/-! ### Sessions end, and host keys (R406, R420) -/

def getSession (s : State) (k : Nat) : Session := SMap.get {} s.spp.slots k
def setSession (s : State) (k : Nat) (x : Session) : State := { s with spp := { s.spp with slots := SMap.set {} s.spp.slots k x } }

/-- A session closes: its slot is free, its subscriptions end, its kept responses are dropped (R420). -/
def closeSlot (s : State) (k : Nat) : State :=
  let x := getSession s k
  if x.st == 0 then s
  else
    let s := setSession s k {}
    { s with spp := { s.spp with
      freed := (x.sn :: s.spp.freed).take 16
      subs := s.spp.subs.filter fun y => match y.2 with
        | some z => z.slot ≠ k
        | none => false } }

/-- The session slots that meet a test. -/
def slotsWhere (s : State) (p : Session → Bool) : List Nat := (List.range 8).filter fun k => p (getSession s k)

/-- A key of a host slot is set; the sessions of the previous key close, and with the first key those opened without a
signature (R406). -/
def writeHostKey (s : State) (slot : Nat) (key : List Byte) : Nat × State :=
  let none' := (List.range 4).all fun k => getP s (pk 0x0520 (k + 1)) == 0
  let old := getP s (pk 0x0520 (slot + 1)) ≠ 0
  let v := leNat key
  let s := setP s (pk 0x0520 (slot + 1)) v
  let gone := slotsWhere s fun x => x.st == 3 && x.slot == slot && old || (none' && v ≠ 0 && x.st == 2)
  (0, gone.foldl closeSlot s)

/-- HOSTKEY_SLOT_WRITE (R406). -/
def execHostkeySlotWrite (slot : Nat) (key : List Byte) (s : State) : Host.Outcome State Fault Refusal :=
  .next (if 4 ≤ slot then noParam s false
    else if key.length ≠ 133 then { s with wstatus := 3 }
    else gated s (pk 0x0520 (slot + 1)) fun s => writeHostKey s slot key)

/-! ### MACsec settings (R407) -/

/-- A key is installed for an association number. -/
def hasKey (s : State) (an : Nat) : Bool := SMap.get 0 s.sec.keys an ≠ 0

/-- The transmit association begins anew when it names a newly installed key: packet number 1, macsec.pn_low clear. -/
def startAssoc (s : State) (an : Nat) : State :=
  if bit s.sec.fresh an then
    setP (setP { s with sec := { s.sec with fresh := s.sec.fresh - 2 ^ an } } (pk 0x0530 8) 1) (pk 0x0530 0xA) 0
  else s

/-- A write of 0530h.01 to .07, the value as a number, a key as its bytes (R407, R409). -/
def writeMacsec (s : State) (sub : Nat) (bs : List Byte) : Nat × State :=
  match sub with
  | 1 =>
    let v := beNat bs
    let an := getP s (pk 0x0530 7)
    if 2 < v then (4, s)
    else if v ≠ 0 && !hasKey s an then (5, s)
    else (0, setP (if v ≠ 0 then startAssoc s an else s) (pk 0x0530 1) v)
  | 2 => if 1 < beNat bs then (4, s) else (0, setP s (pk 0x0530 2) (beNat bs))
  | 5 | 6 =>
    let an := sub - 5
    if bs.length ≠ (if getP s (pk 0x0530 2) == 1 then 48 else 32) then (4, s)
    else (0, { s with sec := { s.sec with
      keys := SMap.set 0 s.sec.keys an (beNat bs + 1)
      fresh := if bit s.sec.fresh an then s.sec.fresh else s.sec.fresh + 2 ^ an } })
  | 7 => if 1 < beNat bs then (4, s) else (0, setP (startAssoc s (beNat bs)) (pk 0x0530 7) (beNat bs))
  | _ => (0, setP s (pk 0x0530 sub) (leNat bs))

/-! ### Flash update (R408) -/

/-- The bank that 0540h.01 names is one from which the device booted at this start. -/
def bankInUse (s : State) (v : Nat) : Bool := getP s (pk 0x0500 (v / 2 + 1)) == v % 2

/-- update.bank: a bank other than those booted from. -/
def writeUpdateBank (s : State) (v : Nat) : Nat × State :=
  if 5 < v then (4, s) else if bankInUse s v then (5, s) else (0, setP s (pk 0x0540 1) v)

/-- update.data: a 4-byte offset, then up to 4 KiB, which begin to be written to the named bank. -/
def updateData (s : State) (v : List Byte) : Nat × State :=
  let bank := getP s (pk 0x0540 1)
  if v.length < 4 || bankSize (bank / 2) < leNat (v.take 4) + (v.length - 4) then (4, s)
  else if s.sec.updating ≠ 0 || bankInUse s bank then (5, s)
  else (0, { s with sec := { s.sec with updating := 1, updBuf := v, updBank := bank } })

/-- UPDATE_DATA (R408). -/
def execUpdateData (v : List Byte) (s : State) : Host.Outcome State Fault Refusal :=
  if 4100 < v.length then .next { s with wstatus := 3 }
  else .next (gated s (pk 0x0540 2) fun s => updateData s v)

/-- UPDATE_WRITE_COMPLETE: the bytes stand in the bank, and another write or verification may begin (R408). -/
def execUpdateWriteComplete (s : State) : Host.Outcome State Fault Refusal :=
  if s.sec.updating ≠ 1 then .refused (.notEnabled "no flash write is in progress")
  else
    let bank := s.sec.updBank
    let base := bankBase (bank / 2) (bank % 2) + leNat (s.sec.updBuf.take 4)
    let bs := s.sec.updBuf.drop 4
    let flash := ((List.range bs.length).zip bs).foldl (fun m x => SMap.set 0 m (base + x.1) (x.2.toNat + 1)) s.sec.flash
    .next { s with sec := { s.sec with updating := 0, updBuf := [], updBank := 0, flash := flash } }

/-- update.verify: the named bank begins to be verified. -/
def updateVerify (s : State) (arg : Nat) : Nat × State :=
  if arg ≠ 0 then (4, s)
  else if s.sec.updating ≠ 0 || bankInUse s (getP s (pk 0x0540 1)) then (5, s)
  else (0, { s with sec := { s.sec with updating := 2, updBank := getP s (pk 0x0540 1) } })

/-- UPDATE_VERIFY (R408). -/
def execUpdateVerify (arg : Nat) (s : State) : Host.Outcome State Fault Refusal :=
  .next (gated s (pk 0x0540 3) fun s => updateVerify s arg)

/-- UPDATE_VERIFY_COMPLETE: the outcome of the checks of R398; no counter changes (R408). -/
def execUpdateVerifyComplete (s : State) : Host.Outcome State Fault Refusal :=
  if s.sec.updating ≠ 2 then .refused (.notEnabled "no verification is in progress")
  else
    let r := verifyBank s (s.sec.updBank / 2) (s.sec.updBank % 2)
    .next (setP { s with sec := { s.sec with updating := 0, updBank := 0 } } (pk 0x0540 4) (if r == 0 then 1 else 0x10 + r))

end Sys2Proof.Machine
end

