-- ==== Sys2Proof/Machine/Gauge.lean ====
section
/-!
DEFINITION. The Gauge die and energy metering (R433 to R445): samples, accumulators, signed records, the seal and the
audit trail.
-/
namespace Sys2Proof.Machine

/-! ### Measurement (R433 to R436) -/

/-- A finite F32 as a multiple of 2^−149. -/
def f32Fix (b : Nat) : Option Int :=
  let e := bits b 30 23
  if e == 255 then none
  else
    let m : Int := (if e == 0 then bits b 22 0 else 2 ^ 23 + bits b 22 0 : Nat) * (2 ^ (max e 1 - 1) : Nat)
    some (if bit b 31 then -m else m)

/-- Calibration coefficient i of the table: four F32 a rail, voltage gain and offset, current gain and offset (R434). -/
def calib (s : State) (i : Nat) : Nat := bits (getP s (pk 0x1031 1)) (32 * i + 31) (32 * i)

/-- gain × raw + offset, as a multiple of 2^−298 (R434). -/
def calibrated (gain off raw : Nat) : Option Int :=
  match f32Fix gain, f32Fix off, f32Fix raw with
  | some g, some o, some r => some (g * r + o * (2 ^ 149 : Nat))
  | _, _, _ => none

/-- The power of a rail in a sample, in 2^−596 W; none where a channel is out of range. -/
def railPower (s : State) (rail : Nat) (raw : Option (W32 × W32)) : Option Int :=
  match raw with
  | none => none
  | some (v, i) =>
    match calibrated (calib s (4 * rail)) (calib s (4 * rail + 1)) v.toNat,
        calibrated (calib s (4 * rail + 2)) (calib s (4 * rail + 3)) i.toNat with
    | some x, some y => some (x * y)
    | _, _ => none

/-- The energy of 2^−596 µJ that one sample of 2 µs adds to a rail and to the package. -/
def addEnergy (s : State) (rail : Nat) (raw : Option (W32 × W32)) : State :=
  let g := s.gauge
  let (p, ok) := match railPower s rail raw with
    | some p => (p, true)
    | none => (SMap.get 0 g.lastP rail, false)
  let acc := SMap.set 0 g.acc rail (SMap.get 0 g.acc rail + 2 * p)
  { s with gauge := { g with
    acc := SMap.set 0 acc 9 (SMap.get 0 acc 9 + 2 * p)
    lastP := SMap.set 0 g.lastP rail p
    sense := g.sense || !ok } }

/-- The Gauge die runs (R386, R436). -/
def gaugeRuns (s : State) : Bool := isReady s bGauge && !s.gauge.off

/-- GAUGE_SAMPLE: voltage and current of the nine rails (R433). -/
def execGaugeSample (raw : List (Option (W32 × W32))) (s : State) : Host.Outcome State Fault Refusal :=
  if raw.length ≠ 9 then .refused .illFormed
  else if !gaugeRuns s then .refused (.notEnabled "the Gauge die does not run")
  else
    let s := ((List.range 9).zip raw).foldl (fun s x => addEnergy s x.1 x.2) s
    .next { s with gauge := { s.gauge with us := s.gauge.us + 2 } }

/-- One mJ in units of an accumulator. -/
def mjUnit : Int := (1000 * 2 ^ 596 : Nat)

/-- An energy register in mJ: what the unit held before, and what has accumulated since (R435, R436). -/
def energyOf (s : State) (rail : Nat) : Nat :=
  let base := if rail == 9 then getP s (pk 0x1010 1) else getP s (pk 0x1011 (rail + 1))
  ((base * mjUnit + SMap.get 0 s.gauge.acc rail) / mjUnit).toNat % 2 ^ 64

/-- GAUGE_MS: milliseconds powered since manufacture (R437). -/
def gaugeMs (s : State) : Nat := getP s (pk 0x1000 3) + s.gauge.us / 1000

/-- GAUGE_COMMIT: the accumulators are committed to MRAM, and the power of the last 10 ms is shown (R436, R445). -/
def execGaugeCommit (s : State) : Host.Outcome State Fault Refusal :=
  if !gaugeRuns s then .refused (.notEnabled "the Gauge die does not run")
  else
    let g := s.gauge
    let now := SMap.get 0 g.acc 9
    let w := ((now - g.winStart) / (10000 * 2 ^ 596 : Nat)).toNat
    .next (setP { s with gauge := { g with committed := g.acc, winStart := now } } (pk 0x1010 2) (min w 0xFFFFFFFF))

/-- VDD_IOD_FALL: the final commit from hold-up; the next record tells of the interruption (R436). -/
def execVddIodFall (s : State) : Host.Outcome State Fault Refusal :=
  .next { s with gauge := { s.gauge with
    committed := s.gauge.acc, power := true, off := true, signing := none, after := [] } }

/-! ### Records (R437, R438) -/

/-- The newest record of the die. -/
def newestRecord (s : State) : Nat := getP s (pk 0x1021 (getP s (pk 0x1020 6) % 64 + 1))

/-- Bytes 0 to 255 of a record, all taken in this tick (R437). -/
def recordBody (s : State) (kind : Nat) : List Byte :=
  let e := energyOf s 9
  let prev := bits (newestRecord s) 191 128
  let status := (if s.gauge.power then 1 else 0) + (if s.gauge.sense then 2 else 0)
  let zeros (n : Nat) : List Byte := List.replicate n 0#8
  [0x5A#8, 0x4D#8, 0x45#8, 0x54#8] ++ leBytes 2 1 ++ leBytes 1 kind ++ leBytes 1 status ++
    leBytes 8 (getP s (pk 0x1020 6) + 1) ++ leBytes 8 e ++ leBytes 8 (e + 2 ^ 64 - prev) ++
    leBytes 10 (if isReady s bPtp then timeOf s.ptp else 0) ++ zeros 2 ++ parBytes s (pk 0x1030 5) 4 ++
    leBytes 8 (gaugeMs s) ++ (if kind == 1 then parBytes s (pk 0x1020 1) 64 else zeros 64) ++ parBytes s (pk 0x1000 1) 64 ++
    serial32 s ++ zeros 40

/-- Begin a record: its fields are taken now and record.busy is set; while busy, it waits. -/
def makeRecord (s : State) (kind : Nat) : State :=
  if s.gauge.signing.isSome then { s with gauge := { s.gauge with after := s.gauge.after ++ [kind] } }
  else
    let b := recordBody s kind
    setP { s with gauge := { s.gauge with signing := some ⟨kind, b⟩, power := false, sense := false } } (pk 0x1020 4) 1

/-- record.generate: a KIND 01h record (R438). -/
def recordGenerate (s : State) (arg : Nat) : Nat × State :=
  if arg ≠ 0 then (4, s) else if s.gauge.signing.isSome then (5, s) else (0, makeRecord s 1)

/-- RECORD_GENERATE. -/
def execRecordGenerate (arg : Nat) (s : State) : Host.Outcome State Fault Refusal :=
  .next (gated s (pk 0x1020 2) fun s => recordGenerate s arg)

/-- record.interval_s: the next periodic record falls due one interval from now (R445). -/
def writeInterval (s : State) (v : Nat) : Nat × State :=
  if v ≠ 0 && (v < 60 || 86400 < v) then (4, s)
  else (0, setP { s with gauge := { s.gauge with periodNext := s.gauge.us + v * 1000000 } } (pk 0x1020 5) v)

/-- PERIODIC_RECORD: Gauge time reaches the moment at which a KIND 02h record falls due (R438, R445). -/
def execPeriodicRecord (s : State) : Host.Outcome State Fault Refusal :=
  let v := getP s (pk 0x1020 5)
  if !gaugeRuns s || v == 0 then .refused (.notEnabled "no periodic record falls due")
  else
    let g := s.gauge
    .next (makeRecord { s with gauge := { g with us := max g.us g.periodNext, periodNext := g.periodNext + v * 1000000 } } 2)

/-- The metrology signing key in use: keys 1 on, counted from manufacture. -/
def signKey (s : State) : Nat := 1 + s.gauge.keyNo

/-- RECORD_SIGNED: the record stands in its place of the last 64 and in record.last; busy clears, and a record that waited
is made (R438). -/
def execRecordSigned (s : State) : Host.Outcome State Fault Refusal :=
  match s.gauge.signing with
  | none => .refused (.notEnabled "no record is being signed")
  | some r =>
    let n := getP s (pk 0x1020 6) + 1
    let v := leNat (fitBytes 512 (r.body ++ signBytes (signKey s) r.body))
    let s := setP (setP (setP (setP s (pk 0x1021 (n % 64 + 1)) v) (pk 0x1020 3) v) (pk 0x1020 6) n) (pk 0x1020 4) 0
    let s := { s with gauge := { s.gauge with signing := none } }
    match s.gauge.after with
    | [] => .next s
    | k :: rest => .next (makeRecord { s with gauge := { s.gauge with after := rest } } k)

/-! ### The seal (R439 to R443) -/

/-- The certificate chain of the signing key. -/
def gaugeCert (s : State) : List Byte :=
  match s.gauge.cert with
  | some c => c
  | none => Config.unitBytes 0x20

/-- An entry of the audit trail; zeros beyond the last (R443). -/
def auditEntry (s : State) (n : Nat) : Nat :=
  if getP s (pk 0x1032 3) ≤ n then 0
  else
    let v := SMap.get 0 s.gauge.audit n
    if v == 0 then leNat (fitBytes 64 (Config.unitBytes (0x200 + n))) else v

/-- The first 8 bytes of SHA-512 of a value. -/
def valueId (v : List Byte) : Nat := leNat ((sha512 v).take 8)

/-- Count a seal break and write its audit entry with an outcome (R441, R443). -/
def addAudit (s : State) (kind outcome : Nat) (old new : List Byte) : State :=
  let n := getP s (pk 0x1032 3)
  let s := incP s (pk 0x1030 5) 1
  let e := getP s (pk 0x1030 5) + kind * 2 ^ 32 + outcome * 2 ^ 40 + gaugeMs s * 2 ^ 64 +
    (if isReady s bPtp then timeOf s.ptp else 0) * 2 ^ 128 + energyOf s 9 * 2 ^ 256 + valueId old * 2 ^ 320 + valueId new * 2 ^ 384
  setP { s with gauge := { s.gauge with audit := SMap.set 0 s.gauge.audit n e } } (pk 0x1032 3) (n + 1)

/-- The parts of a seal-break command (R440). -/
def sealCmd (b : List Byte) : Nat := blobField b 4 1
def sealSize (b : List Byte) : Nat := blobField b 12 4
def sealPayload (b : List Byte) : List Byte := b.drop 264

/-- The payload size that a command asks for. -/
def sealSizeOk (cmd n : Nat) : Bool :=
  match cmd with
  | 1 => n == 144
  | 2 => n == 133
  | 3 => n == 0
  | 4 => decide (1 ≤ n) && decide (n ≤ 4096)
  | _ => false

/-- A payload that may be installed: finite coefficients with gains of 0.5 to 2.0, a point, a certificate of the current
signing key (R441). -/
def sealPayloadOk (s : State) (cmd : Nat) (p : List Byte) : Bool :=
  match cmd with
  | 1 => (List.range 36).all fun i =>
      match f32Fix (blobField p (4 * i) 4) with
      | none => false
      | some x => i % 2 == 1 || (decide ((2 ^ 148 : Nat) ≤ x) && decide (x ≤ (2 ^ 150 : Nat)))
  | 2 => Config.ecPoint p
  | 4 => Config.certFor p (parBytes s (pk 0x1001 1) 133)
  | _ => true

/-- The first check of R441 that a command fails; 0 when it passes. -/
def sealCheck (s : State) (b : List Byte) : Nat :=
  if b.take 4 ≠ [0x5A#8, 0x53#8, 0x42#8, 0x4B#8] || blobField b 5 3 ≠ 0 || blobField b 48 16 ≠ 0 || blobField b 260 4 ≠ 0 ||
      !sealSizeOk (sealCmd b) (sealSize b) || b.length ≠ 264 + sealSize b then 1
  else if 256 ≤ getP s (pk 0x1032 3) then 2
  else if blobField b 8 4 ≠ getP s (pk 0x1030 5) then 3
  else if (b.drop 16).take 32 ≠ parBytes s (pk 0x1030 1) 32 then 4
  else if !Config.ecdsaVerify (parBytes s (pk 0x1030 4) 133) (b.take 128) ((b.drop 128).take 132) then 5
  else if sha512 (sealPayload b) ≠ (b.drop 64).take 64 then 6
  else if !sealPayloadOk s (sealCmd b) (sealPayload b) then 7
  else 0

/-- What a command replaces, the state with it replaced, and what stands there then (R441). -/
def sealApply (s : State) (cmd : Nat) (p : List Byte) : List Byte × State × List Byte :=
  match cmd with
  | 1 => (parBytes s (pk 0x1031 1) 144, setP s (pk 0x1031 1) (leNat p), p)
  | 2 => (parBytes s (pk 0x1030 4) 133, setP s (pk 0x1030 4) (leNat p), p)
  | 3 =>
    let key := fitBytes 133 (Config.ecPublic s.draws)
    (parBytes s (pk 0x1001 1) 133,
      setP { s with draws := s.draws + 1, gauge := { s.gauge with keyNo := s.gauge.keyNo + 1, cert := some [] } }
        (pk 0x1001 1) (leNat key), key)
  | _ => (gaugeCert s, { s with gauge := { s.gauge with cert := some p } }, p)

/-- seal.request: the command is kept until it is executed (R440). -/
def writeSealRequest (s : State) (v : List Byte) : Nat × State := (0, { s with gauge := { s.gauge with request := v } })

/-- SEAL_REQUEST. -/
def execSealRequest (v : List Byte) (s : State) : Host.Outcome State Fault Refusal :=
  if 65536 < v.length then .next { s with wstatus := 3 }
  else .next (gated s (pk 0x1030 2) fun s => writeSealRequest s v)

/-- An error or fault of no domain. -/
def noDomain (s : State) (code unit d0 d1 : Nat) : Raised :=
  { code := code, dom := none, dcc := 0, ctc := s.ctc, ptp := s.ptp, unit := unit, detail0 := d0, detail1 := d1 }

/-- seal.execute: the checks of R441 in order; a command that passes is counted, entered, applied and recorded. -/
def sealExecute (s : State) (arg : Nat) : Nat × State :=
  if arg ≠ 0 then (4, s)
  else if s.gauge.signing.isSome then (5, s)
  else
    let b := s.gauge.request
    let r := sealCheck s b
    if r ≠ 0 then (0, incP (logError s (noDomain s 0x16 0x0400 (sealCmd b) r) (pk 0x0E10 3)) (pk 0x1030 6) 1)
    else
      let (old, applied, new) := sealApply s (sealCmd b) (sealPayload b)
      let s := addAudit applied (sealCmd b) 1 old new
      let s := setP { s with draws := s.draws + 1 } (pk 0x1030 1) (leNat (fitBytes 32 (Config.random s.draws 32)))
      (0, makeRecord s 3)

/-- SEAL_EXECUTE. -/
def execSealExecute (arg : Nat) (s : State) : Host.Outcome State Fault Refusal :=
  .next (gated s (pk 0x1030 3) fun s => sealExecute s arg)

/-- The Gauge firmware that has booted: a measurement that differs from the stored one is a seal break; with the trail full
it does not start (R444). -/
def gaugeBoot (s : State) : Option State :=
  let new := getP s (pk 0x0502 3)
  let old := getP s (pk 0x1000 1)
  if new == old then some s
  else if 256 ≤ getP s (pk 0x1032 3) then none
  else some (setP (addAudit s 0x10 1 (leBytes 64 old) (leBytes 64 new)) (pk 0x1000 1) new)

end Sys2Proof.Machine
end

