-- ==== Sys2Proof/Machine/Sequencer.lean ====
section
/-!
DEFINITION. The sequencer's own events: the decode of the next instruction (R120, R178) and the issue of an instruction
that a full unit queue has held (R111).
-/
namespace Sys2Proof.Machine

/-- INSTRUCTION_DECODE: a needle of an Eland core (unit 0 to 23h) or a Chamois core (unit 40h to 57h) decodes its next
instruction, 64 slots before its issue (R120, R178). -/
def execInstructionDecode (u : Nat) (n : Needle) (s : State) : Host.Outcome State Fault Refusal :=
  if u < 36 then decodeEland s u n
  else if 0x40 ≤ u && u < 0x58 then decodeChamois s (u - 0x40)
  else .fault .noSuchUnit

/-- Issue a held word again: the engines, the Round stop and the element unit have queues that can be full (R110). -/
def reissue (c : Nat) (n : Needle) (w : Nat) (s : State) : Host.Outcome State Fault Refusal :=
  match opcodeOf w with
  | 0x10 => issueE 0x10 c n (BitVec.ofNat 128 w) fxMma s
  | 0x14 => issueE 0x14 c n (BitVec.ofNat 128 w) fxAccrd s
  | 0x18 => issueE 0x18 c n (BitVec.ofNat 128 w) (fxConvert false) s
  | 0x19 => issueE 0x19 c n (BitVec.ofNat 128 w) fxDact s
  | 0x20 => issueE 0x20 c n (BitVec.ofNat 128 w) fxInj s
  | 0x30 => issueE 0x30 c n (BitVec.ofNat 128 w) (fxConvert true) s
  | 0x31 => issueE 0x31 c n (BitVec.ofNat 128 w) fxAmax s
  | _ => issueE 0x21 c n (BitVec.ofNat 128 w) fxTake s

/-- WAIT_QUEUE_ENTRY: the instruction at the head of a held needle tries its unit queue again: it issues once an entry is free, and
the needle goes on from that slot; while none is, a slot of the needle passes (R111). Chamois units have no queue that holds an
issue (R179). -/
def execWaitQueueEntry (u : Nat) (n : Needle) (s : State) : Host.Outcome State Fault Refusal :=
  if !isCoreUnit u then .fault .noSuchUnit
  else if 36 ≤ u then .refused (.notEnabled "a Chamois core waits for no unit queue")
  else match (getN (getE s u) n).held with
    | none => .refused (.notEnabled "the needle is not held by a full queue")
    | some w =>
      match reissue u n w (updN s u n fun x => { x with held := none }) with
      | .next t => .next (if (getN (getE t u) n).held.isSome then advance (slotTicks (getE t u)) t else t)
      | r => r

end Sys2Proof.Machine
end

