-- ==== Sys2Proof/Machine/Startup.lean ====
section
/-!
DEFINITION. Start-up, readiness and self-test (R380 to R393): power and reset pins, what each kind of start keeps, the
readiness bits, and what the self-tests fence and fail.
-/
namespace Sys2Proof.Machine

/-! ### What a start keeps (R384) -/

/-- A parameter kept by every start: RWS values in the flash store, and what lies in the MRAM of the Gauge die (R399, R412,
R445). -/
def keptAlways (key : Nat) : Bool :=
  let i := key / 256
  let sub := key % 256
  (match paramRow key with
    | some r => r.acc == .rws
    | none => false) ||
    key == 0x000003 || i == 0x0501 || i == 0x1000 || i == 0x1001 || i == 0x1021 || i == 0x1031 || key == 0x102006 || key == 0x103203 ||
    (i == 0x1030 && (sub == 1 || sub == 4 || sub == 5))

/-- A counter of the 0800h group, which only a cold start clears (R309). -/
def memCounter (key : Nat) : Bool :=
  let i := key / 256
  let sub := key % 256
  i == 0x0806 || i == 0x0813 || (decide (0x0820 ≤ i) && decide (i ≤ 0x0828) && decide (4 ≤ sub)) ||
    (decide (0x0830 ≤ i) && decide (i ≤ 0x0837) && decide (3 ≤ sub) && decide (sub ≤ 5))

/-- A parameter that a warm start keeps beside those (R229, R258, R282, R309, R384, R393). -/
def keptWarm (key : Nat) : Bool :=
  let i := key / 256
  i == 0x0E00 || i == 0x0E01 || i == 0x0E10 || i == 0x0410 || i / 256 == 0x02 || key == 0x000004 || key == 0x000005 ||
    (i / 256 == 0x09 && !(key == 0x090201 || key == 0x090203 || key == 0x090204)) || key == 0x071005 || key == 0x040005 ||
    memCounter key

/-- The Gauge die as a start leaves it: MRAM is kept, and after a fall of VDD_IOD the accumulators stand as committed
(R436, R445). -/
def startGauge (g : Gauge) : Gauge :=
  let acc := if g.off then g.committed else g.acc
  { g with
    acc := acc, winStart := SMap.get 0 acc 9, lastP := [], signing := none, after := [], request := [], off := false
    periodNext := g.us + 900000000 }

/-- The device at the beginning of a start: every function as after reset, but for what this kind of start keeps. -/
def startState (cold : Bool) (s : State) : State :=
  let r := State.reset
  { r with
    pending := s.pending, ns := s.ns, nsFrac := s.nsFrac, draws := s.draws, nextId := s.nextId, outbox := s.outbox
    wstatus := s.wstatus
    par := s.par.filter fun x => keptAlways x.1 || (!cold && keptWarm x.1)
    mem := if cold then [] else s.mem.filter fun x => decide (x.1 < hbmEnd)
    poison := if cold then [] else s.poison.filter fun x => decide (x.1 < hbmEnd)
    errs := if cold then [] else s.errs.filter fun x => decide (x.1 < hbmEnd)
    unacked := if cold then [] else s.unacked
    logSeq := if cold then [] else s.logSeq
    haltSeq := if cold then 0 else s.haltSeq
    scrubAt := if cold then [] else s.scrubAt
    thrAt := if cold then [] else s.thrAt.map fun x => (x.1, (throttledNs s x.1, s.ns))
    boot := { s.boot with alertTest := !cold && s.boot.alertTest }
    sec := { r.sec with flash := s.sec.flash }
    gauge := startGauge s.gauge
    ports := { r.ports with tap := s.ports.tap, slewNs := s.ns, syncNs := s.ns } }

/-! ### Power and reset (R380 to R383) -/

/-- The compute clocks, domains, engines and ports stop; only the Gauge die works on (R382). -/
def quiesce (s : State) : State :=
  let s := (List.range 8).foldl abandonSnap s
  let ready := getP s (pk 0x0400 1) &&& 4
  let g := s.gauge
  let s := startState false s
  setP { s with gauge := g, clk := { s.clk with runs := false } } (pk 0x0400 1) ready

/-- PWR_OK_RISE: power is good and RESET_L is held low: the next release is the first since (R380, R383). -/
def execPwrOkRise (s : State) : Host.Outcome State Fault Refusal :=
  if s.boot.pwrOk then .refused (.notEnabled "PWR_OK is already high")
  else .next { s with boot := { s.boot with pwrOk := true, resetLow := true, released := 0, reached := false, byCmd := false } }

/-- PWR_OK_FALL: every compute clock stops, the contents of HBM are lost, FAULT_L of R388 and THERMTRIP_L end (R378, R381,
R388). -/
def execPwrOkFall (s : State) : Host.Outcome State Fault Refusal :=
  if !s.boot.pwrOk then .refused (.notEnabled "PWR_OK is already low")
  else
    let s := quiesce s
    let g := s.gauge
    let ready := getP s (pk 0x0400 1)
    let s := startState true s
    .next (setP { s with
      gauge := g
      clk := { s.clk with runs := false }
      boot := { s.boot with pwrOk := false, resetLow := true, released := 0, reached := false, faultLow := false, byCmd := false } }
      (pk 0x0400 1) ready)

/-- RESET_L_LOW: low for 100 µs or longer while PWR_OK is high is a reset; a shorter pulse and one during a thermal trip are
ignored (R382). -/
def execResetLLow (us : Nat) (s : State) : Host.Outcome State Fault Refusal :=
  if us < 100 || !s.boot.pwrOk || s.clk.thermtrip then .next s
  else
    let s := quiesce s
    .next { s with boot := { s.boot with resetLow := true, byCmd := false } }

/-- A release of RESET_L begins a start of this kind for this cause; `t` is what its self-tests find if they run. -/
def beginStart (cold : Bool) (cause : Nat) (t : SelfTest) (s : State) : State :=
  let count := if s.boot.released == 0 then 1 else min (getP s (pk 0x0400 5) + 1) 0xFFFFFFFF
  let s := startState cold s
  let s := setP (setP (setP s (pk 0x0400 3) (if cold then 1 else 2)) (pk 0x0400 4) cause) (pk 0x0400 5) count
  let s := if getP s (pk 0x0A30 1) == 0 then s else setP s (pk 0x0A30 7) 1
  { s with boot := { s.boot with
      resetLow := false, released := s.boot.released + 1, startNs := s.ns, byCmd := false, tests := t } }

/-- RESET_L_RELEASE: cold when it is the first since PWR_OK rose or no start has reached readiness since, else warm
(R383). -/
def execResetLRelease (t : SelfTest) (s : State) : Host.Outcome State Fault Refusal :=
  let b := s.boot
  if !b.pwrOk || !b.resetLow then .refused (.notEnabled "RESET_L is not held low with power good")
  else if b.released == 0 then .next (beginStart true 1 t s)
  else if !b.reached then .next (beginStart true 4 t s)
  else .next (beginStart false (if b.byCmd then 3 else 2) t s)

/-- start.warm: the response is sent first, and 10 ms later a reset as by RESET_L begins, which ends at once (R383). -/
def startWarm (s : State) (arg : Nat) : Nat × State :=
  if arg ≠ 1 then (4, s)
  else
    let s := toNs (s.ns + 10000000) s
    if s.clk.thermtrip then (0, s)
    else
      let s := quiesce s
      (0, { s with boot := { s.boot with resetLow := true, byCmd := true } })

/-- START_WARM. -/
def execStartWarm (arg : Nat) (s : State) : Host.Outcome State Fault Refusal :=
  .next (gated s (pk 0x0402 0) fun s => startWarm s arg)

/-- test.ack ends the assertion of ALERT_L after the tests (R392). -/
def testAck (s : State) (arg : Nat) : Nat × State :=
  if arg ≠ 0 then (4, s) else (0, { s with boot := { s.boot with alertTest := false } })

/-- TEST_ACK. -/
def execTestAck (arg : Nat) (s : State) : Host.Outcome State Fault Refusal :=
  .next (gated s (pk 0x0410 8) fun s => testAck s arg)

/-! ### Route tables (R240) -/

/-- The X-first route from one router to another crosses no failed one. -/
def pathLive (failed p q : Nat) : Bool := (xPath q 14 p).all fun r => !bit failed r

/-- Hops of an X-first route. -/
def hopsOf (p q : Nat) : Nat := (max (p % 8) (q % 8) - min (p % 8) (q % 8)) + (max (p / 8) (q / 8) - min (p / 8) (q / 8))

/-- The table entry of a pair of live routers; none where it has no route. -/
def routeEntry (failed p q : Nat) : Option Nat :=
  if pathLive failed p q then some 0
  else
    let ok := (List.range 64).filter fun i => i ≠ p && i ≠ q && !bit failed i && pathLive failed p i && pathLive failed i q
    (minBy (fun a b => decide (hopsOf p a + hopsOf a q < hopsOf p b + hopsOf b q)) ok).map (0x80 + ·)

/-- Both routers of a pair are live and differ. -/
def livePair (failed p q : Nat) : Bool := p ≠ q && !bit failed p && !bit failed q

/-- The route table of a router as its 64 bytes. -/
def routeTable (failed p : Nat) : Nat :=
  leNat ((List.range 64).map fun q => BitVec.ofNat 8 (if livePair failed p q then (routeEntry failed p q).getD 0 else 0))

/-- A case of R257: a corner or an HBM attachment router or a sync node has failed, or a live pair has no route. -/
def meshBroken (s : State) : Bool :=
  let failed := getP s (pk 0x0900 1)
  ([0, 7, 56, 63].any (bit failed)) || ((List.range 8).any fun st => bit failed (stackPos st)) ||
    decide (getP s (pk 0x0900 2) ≠ 0) ||
    (decide (failed ≠ 0) && (List.range 64).any fun p => (List.range 64).any fun q =>
      livePair failed p q && (routeEntry failed p q).isNone)

/-! ### Self-tests (R389 to R392) -/

/-- A set of numbers as bits. -/
def bitsOf (l : List Nat) : Nat := l.foldl (fun a n => if bit a n then a else a + 2 ^ n) 0

/-- The cause byte of 0410h.03 for a core that the tests find failing; 0 when it passes. -/
def coreCause (t : SelfTest) (b : Nat) : Nat :=
  if b < 36 && t.array.contains b then 1
  else if 36 ≤ b && t.vector.contains (b - 36) then 2
  else if t.coreMem.contains b then 3
  else if b < 36 && t.accMem.contains b then 4
  else if t.router.contains (posOf (bitUnit b)) then 5
  else if b < 36 && t.stop.contains b then 6
  else 0

/-- The port of a SerDes lane 36i + l: 16 for the host port (R446). -/
def lanePort (k : Nat) : Nat :=
  if k < 36 then (if k < 4 then hostPort else (k - 4) / 4) else if 32 ≤ k - 36 then hostPort else 8 + (k - 36) / 4

/-- A function that the tests of a cold start fail (R389). -/
def testFails (t : SelfTest) (b : Nat) : Bool :=
  if b == bLoad then t.stashOrRound || t.bypass
  else if b == bColl then t.staging
  else if b == bHost then t.lanes.any fun k => lanePort k == hostPort
  else if 16 ≤ b && b < 24 then t.hbm.contains (b - 16)
  else if 24 ≤ b then t.lanes.any fun k => lanePort k == b - 24
  else false

/-- The tests have ended: their results are shown, and ALERT_L is asserted unless all passed (R392). -/
def testResult (s : State) (v : Nat) : State :=
  let s := setP s (pk 0x0410 1) v
  if v == 1 then s else { s with boot := { s.boot with alertTest := true } }

/-- CONFIG of a cold start: the fence map, the identities, the circuit latency and the route tables are formed from the
blob and the tests, and the tests' results are shown (R98, R220, R240, R391, R393). -/
def formConfig (s : State) : State :=
  let t := s.boot.tests
  let factory := getP s (pk 0x0202 0)
  let causes := (List.range 60).map fun b => if bit factory b then 0xFF else coreCause t b
  let field := bitsOf ((List.range 60).filter fun b => !bit factory b && coreCause t b ≠ 0)
  let fence := factory ||| field
  let failed := bitsOf t.router
  let s := setP (setP (setP s (pk 0x0201 0) fence) (pk 0x0900 1) failed) (pk 0x0900 2) (bitsOf t.syncNode)
  let s := setP (setP s (pk 0x0200 0) (identityOf (getP s (pk 0 3)) (getP s (pk 0 4)) fence)) (pk 0x0205 0)
    (if getP s (pk 0 3) == 0 then 0 else identityOf 0 (getP s (pk 0 4)) fence)
  let s := setP s (pk 0x0206 0) (min 1 (getP s (pk 0 3)))
  let s := setP (setP s (pk 0x0204 0) (144 + countBits fence 0 36)) (pk 0x0930 1) t.roundTripPs
  let s := if failed == 0 then s else (List.range 64).foldl (fun s p => setP s (pk 0x0901 (p + 1)) (routeTable failed p)) s
  let s := setP (setP s (pk 0x0410 2) field) (pk 0x0410 3) (leNat (causes.map fun c => BitVec.ofNat 8 c))
  let s := setP (setP s (pk 0x0410 4) (leNat (fitBytes 32 (t.hbmRepairs.flatMap (leBytes 4))))) (pk 0x0410 5) t.sramRepairs
  let s := setP (setP s (pk 0x0410 6) (bitsOf t.lanes)) (pk 0x0410 7) t.durationMs
  testResult s (if field == 0 && getP s (pk 0x0400 2) == 0 then 1 else 2)

/-! ### Readiness (R385 to R388) -/

/-- The functions that a readiness bit requires (R386). -/
def requires (b : Nat) : List Nat :=
  let hbm := (List.range 8).map bHbm
  if b == bBoot then []
  else if b == bMesh then [bConfig]
  else if b == bDma then bMesh :: hbm
  else if b == bColl then [bMesh]
  else if b == bLoad then bConfig :: bMesh :: bDma :: hbm
  else [bBoot]

/-- The bits of the layout of 0400h (R385). -/
def readyBit (b : Nat) : Bool := decide (b ≤ 8) || (decide (16 ≤ b) && decide (b < 40))

/-- This start runs the self-tests. -/
def isCold (s : State) : Bool := getP s (pk 0x0400 3) == 1

/-- A port whose MAC has never been written takes the default address of the serial's hash (R459). -/
def macDefault (hash : List Byte) (s : State) (idx : Nat) : State :=
  if s.par.any (fun x => x.1 == pk idx 3) then s
  else setP s (pk idx 3) (leNat (2#8 :: hash.take 4 ++ [BitVec.ofNat 8 (if idx == 0x0A01 then 0x10 else idx - 0x0A10)]))

/-- The defaults that SERIAL gives: the device word of the draws and the ports' MAC addresses (R82, R459). -/
def serialDefaults (s : State) (hash : List Byte) : State :=
  (0x0A01 :: (List.range 16).map (0x0A10 + ·)).foldl (macDefault hash) (setP s (pk 0x0D50 2) (leNat (hash.take 4)))

/-- Verified objects take effect: the blob's grade, ramp, serial and fences, and the firmware's SVN (R230, R400, R401,
R430). A warm start whose blob differs from that in force goes on as a cold start (R383). -/
def bootDone (s : State) : State :=
  let blob := bankPayload s 1 ((bootBank s 1).getD 0)
  let changed := getP s (pk 0 4) ≠ blobGrade blob || getP s (pk 0x0203 0) ≠ blobRamp blob || getP s (pk 0x0202 0) ≠ blobFence blob
  let s := if !isCold s && changed then
      let count := getP s (pk 0x0400 5)
      setP (setP (startState true s) (pk 0x0400 4) 5) (pk 0x0400 5) count
    else s
  let s := recordBoot s
  let s := setP (setP (setP s (pk 0 4) (blobGrade blob)) (pk 0x0203 0) (blobRamp blob)) (pk 0x0202 0) (blobFence blob)
  let serial := (((blob.drop 16).take 32).reverse.dropWhile (· == 0#8)).reverse
  serialDefaults (setP (setP s (pk 0 5) (leNat serial)) (pk 0 6) (hdrSvn (bankHeader s 0 (getP s (pk 0x0500 1))))) (sha512 serial)

/-- A function cannot become ready in this start; a failed BOOT or HOST drives FAULT_L low for good (R385, R388). -/
def failBit (s : State) (b : Nat) : State :=
  let s := setP s (pk 0x0400 2) (getP s (pk 0x0400 2) + 2 ^ b)
  let s := if b == bBoot then setP s (pk 0x0500 4) (bootFail s) else s
  if b == bBoot || b == bHost then
    let s := { s with boot := { s.boot with faultLow := true } }
    if isCold s then testResult s 3 else s
  else if isCold s && getP s (pk 0x0410 1) == 1 then testResult s 2
  else s

/-- What a function does on becoming ready, beside its bit: none where it cannot after all. -/
def onReady (s : State) (b : Nat) : Option State :=
  if b == bBoot then some (bootDone s)
  else if b == bGauge then (gaugeBoot s).map fun s => setP s (pk 0x1000 2) (hdrSvn (bankHeader s 2 (getP s (pk 0x0500 3))))
  else if b == bConfig then some (if isCold s then formConfig s else s)
  else if b == bHost then some (if getP s (portKey hostPort 1) == 0 then s else setLink s hostPort 1)
  else if 24 ≤ b then some (if getP s (portKey (b - 24) 1) == 0 then s else setLink s (b - 24) 1)
  else some s

/-- The function can become ready: no BOOT or HOST failure bars it, no test has failed it, the functions it requires are
ready (R386, R388, R389, R257). -/
def canReady (s : State) (b : Nat) (ok : Bool) : Bool :=
  if b == bBoot then bootFail s == 0
  else ok && (requires b).all (isReady s) && !(isCold s && testFails s.boot.tests b) && !(b == bMesh && meshBroken s) &&
    !(b ≠ bGauge && isFailed s bHost)

/-- A function becomes ready, at `ms` milliseconds of this start. -/
def setReady (s : State) (b : Nat) : State :=
  let s := setP s (pk 0x0400 1) (getP s (pk 0x0400 1) + 2 ^ b)
  let s := setP s (pk 0x0401 (b + 1)) (min ((s.ns - s.boot.startNs) / 1000000) 0xFFFFFFFF)
  let s := if isReady s bConfig && isReady s bMesh && allHbm s then { s with boot := { s.boot with reached := true } } else s
  if b == bGauge then makeRecord s 4 else s

/-- FUNCTION_READY: a function reports that it is ready, or that it cannot become so in this start (R385 to R391). It waits
for the functions it requires; BOOT is what verification finds. -/
def execFunctionReady (b : Nat) (ok : Bool) (ms : Nat) (s : State) : Host.Outcome State Fault Refusal :=
  if !readyBit b then .fault .noSuchUnit
  else if s.boot.resetLow || isReady s b || isFailed s b then .refused (.notEnabled "the function has reported in this start")
  else if !((requires b).all fun r => isReady s r || isFailed s r) then .refused (.notEnabled "a function it requires has not reported")
  else
    let s := toNs (s.boot.startNs + ms * 1000000) s
    if canReady s b ok then
      match onReady s b with
      | some s' => .next (setReady s' b)
      | none => .next (failBit s b)
    else .next (failBit s b)

end Sys2Proof.Machine
end

