-- ==== Sys2Proof/Machine/Spp.lean ====
section
/-!
DEFINITION. The dictionary server (R410 to R432): reads and writes of parameters, sessions, SPP messages and their items,
subscriptions.
-/
namespace Sys2Proof.Machine

/-! ### Parameters as the server sees them (R410 to R413) -/

/-- The parameter of a key: a table row, or sub 00h of a record, which holds the highest sub (R410). -/
def findParam (key : Nat) : Option PRow :=
  match paramRow key with
  | some r => some r
  | none =>
    if key % 256 == 0 then
      let rs := (rowsOf (key / 256)).filter fun r => decide (r.lo ≤ key / 256) && decide (key / 256 ≤ r.hi)
      if rs.isEmpty then none else some ⟨key / 256, key / 256, 0, 0, .u8, .ro, 1, rs.foldl (fun a r => max a r.s1) 0⟩
    else none

/-- A parameter whose value is bytes. -/
def PType.isBytes : PType → Bool
  | .str => true
  | .blob => true
  | .key => true
  | _ => false

/-- Access that a read needs, and a write through SPP (R412). -/
def PAccess.readable : PAccess → Bool
  | .wo => false
  | .cmd => false
  | _ => true
def PAccess.writable : PAccess → Bool
  | .ro => false
  | .sealed => false
  | _ => true

/-- A session record of 0101h (R432). -/
def sessionRecord (x : Session) : Nat :=
  if x.st == 0 then 0
  else x.sn + x.st * 2 ^ 16 + x.slot * 2 ^ 24 + leNat (beBytes 16 x.ip) * 2 ^ 32 + x.port * 2 ^ 160 + x.rx * 2 ^ 192

/-- REQUESTER of a halt record (R272). -/
def requesterCode (s : State) (h : Halt) : Nat :=
  match h.who with
  | .stream _ => if h.write then 2 else 1
  | .dma _ => 7
  | .op u tag =>
    match s.xfers.find? fun x => x.unit == u && x.tag == tag with
    | some x => if x.kind == .ngath then 5 else if x.kind == .nscat then 6 else if h.write then 4 else 3
    | none => if h.write then 4 else 3

/-- The halt record of a slot; zeros for a free one (R272). -/
def haltRecord (s : State) (slot : Nat) : Nat :=
  match SMap.get none s.halts slot with
  | none => 0
  | some h =>
    h.va % 2 ^ 48 + h.unit * 2 ^ 48 + h.prog % 2 ^ 32 * 2 ^ 64 + h.ctx % 2 ^ 15 * 2 ^ 96 + (if h.write then 2 ^ 111 else 0) +
      h.dom * 2 ^ 112 + requesterCode s h * 2 ^ 120 + slot * 2 ^ 128 + h.code * 2 ^ 136 + h.seq * 2 ^ 144 + h.dcc % 2 ^ 64 * 2 ^ 192

/-- Values that are not stored but read from the state (R209, R217, R272, R282, R309, R338, R357, R431, R445). -/
def liveParam (s : State) (key : Nat) : Option Nat :=
  let i := key / 256
  let sub := key % 256
  let monitor := getMon s (getP s (pk 0x0D60 1))
  let stream := getStream s (getP s (pk 0x0720 1))
  let dma := getDma s (getP s (pk 0x0730 1))
  if decide (0x0600 ≤ i) && decide (i ≤ 0x0607) then
    let d := getD s (i - 0x0600)
    (match sub with
      | 4 => some d.st.code
      | 5 => some d.dcc
      | 0xE => some d.startCtc
      | 0xF => some (min d.stallTicks (2 ^ 64 - 1))
      | 0x10 => some d.stalls
      | 0x11 => some d.faultSeq
      | _ => none)
  else match i with
    | 0x0100 => if sub == 3 then some (slotsWhere s fun x => x.st ≠ 0).length else none
    | 0x0101 => some (sessionRecord (getSession s (sub - 1)))
    | 0x0102 => if sub == 2 then some s.spp.own else none
    | 0x0103 => if sub == 1 then some (s.spp.subs.filter fun x => x.2.isSome).length else none
    | 0x0622 => some (s.ctc % 2 ^ 64)
    | 0x0700 =>
      if sub == 2 then some (poolSize s - poolUsed s) else none
    | 0x0702 => if sub == 1 then some (s.streams.filter fun x => x.2.st == 1).length else none
    | 0x0710 =>
      (match sub with
        | 1 => some (s.halts.filter fun x => x.2.isSome).length
        | 3 => some (haltRecord s (getP s (pk 0x0710 2)))
        | _ => none)
    | 0x0720 =>
      (match sub with
        | 2 => some stream.desc
        | 3 => some stream.st
        | 4 => some stream.moved
        | 5 => some stream.c
        | _ => none)
    | 0x0730 =>
      (match sub with
        | 2 => some dma.trig
        | 3 => some dma.trigCh
        | 4 => some dma.trigAt
        | 6 => some dma.st
        | 7 => some dma.pc
        | 8 => some dma.c32
        | 9 => some dma.c64
        | 0xA => some (min dma.bytes (2 ^ 64 - 1))
        | 0xB => some dma.pend
        | 0xC => some (min dma.late (2 ^ 32 - 1))
        | _ => none)
    | 0x0852 => some (sumNat ((s.lanes.filter fun x => x.1 / 64 == sub - 1).map fun x => x.2.length))
    | 0x0A30 => if sub == 4 then some (timeOf s.ptp) else none
    | 0x0C30 =>
      (match sub with
        | 2 => some (regWord (getReg s (getP s (pk 0x0C30 1))))
        | 3 => some (s.snap.reg.filter fun x => x.2.valid).length
        | _ => none)
    | 0x0D60 =>
      (match sub with
        | 2 => some monitor.tensor
        | 3 => some monitor.sat
        | 4 => some (leNat (monitor.hist.flatMap (leBytes 4)))
        | _ => none)
    | 0x0E00 => if sub == 3 then some (s.unacked.filter fun x => x.2 == 1).length else none
    | 0x1000 => if sub == 3 then some (gaugeMs s) else none
    | 0x1010 => if sub == 1 then some (energyOf s 9) else none
    | 0x1011 => some (energyOf s (sub - 1))
    | _ =>
      if decide (0x0B20 ≤ i) && decide (i ≤ 0x0B2F) && sub == 1 then some (getColl s (i - 0x0B20)).st
      else if decide (0x0830 ≤ i) && decide (i ≤ 0x0837) && sub == 3 then some (throttledNs s (i - 0x0830) / 1000)
      else none

/-- A parameter's current value; the default while its function is not ready (R387, R413). The domains' values and those of
the Gauge die are current throughout. -/
def readParam (s : State) (r : PRow) (key : Nat) : Nat :=
  if (paramRow key).isNone then r.dflt
  else if !gateOk s key && key / 65536 ≠ 6 && key / 65536 ≠ 0x10 then paramDefault key
  else (liveParam s key).getD (getP s key)

/-- A chain of certificates in the flash, to its end (R396). -/
def flashChain (s : State) : Nat → Nat → List Byte
  | 0, _ => []
  | fuel + 1, at_ =>
    let n := leNat (flashBytes s (0x02400000 + at_) 4)
    if n == 0 || 0x10000 < at_ + 4 + n then flashBytes s (0x02400000 + at_) 4
    else flashBytes s (0x02400000 + at_) (4 + n) ++ flashChain s fuel (at_ + 4 + n)

/-- A number's bytes, least significant first, without trailing zeros. -/
def natBytes : Nat → Nat → List Byte
  | 0, _ => []
  | fuel + 1, v => if v == 0 then [] else BitVec.ofNat 8 v :: natBytes fuel (v / 256)

/-- A parameter's value as it travels (R411). -/
def wireValue (s : State) (r : PRow) (key : Nat) : List Byte :=
  match key with
  | 0x000005 => natBytes 256 (readParam s r key)
  | 0x050302 => flashChain s 16 0
  | 0x100102 => gaugeCert s
  | 0x103202 => leBytes 64 (auditEntry s (getP s (pk 0x1032 1)))
  | _ => if r.ty.isBytes then leBytes r.len (readParam s r key) else beBytes r.len (readParam s r key)

/-! ### Writes (R413, R425) -/

/-- version.selected: a version that 0001h lists, with every domain EMPTY (R428). -/
def writeVersion (s : State) (v : Nat) : Nat × State :=
  if v ≠ getP s (pk 1 1) then (4, s) else if !allEmpty s then (5, s) else (0, setP s (pk 2 0) v)

/-- VERSION_SELECTED_WRITE (R428). -/
def execVersionSelectedWrite (v : Nat) (s : State) : Host.Outcome State Fault Refusal :=
  .next (gated s (pk 2 0) fun s => writeVersion s v)

/-- The slot of the open session that a number names. -/
def openSlot (s : State) (sn : Nat) : Option Nat := (slotsWhere s fun x => decide (2 ≤ x.st) && x.sn == sn).head?

/-- session.close: an open session's number; it closes (R431). -/
def sessionClose (s : State) (arg : Nat) : Nat × State :=
  match openSlot s arg with
  | none => (4, s)
  | some k => (0, closeSlot s k)

/-- SESSION_CLOSE (R431). -/
def execSessionClose (arg : Nat) (s : State) : Host.Outcome State Fault Refusal :=
  .next (gated s (pk 0x0102 1) fun s => sessionClose s arg)

/-- Keep an effect until the response has been sent. -/
def later (s : State) (i : Instr) : State := { s with spp := { s.spp with after := s.spp.after ++ [i] } }

/-- The effects that follow a response: a host key, the end of a session, a port's mode, a warm start (R383, R406, R431,
R459). -/
def runLater (s : State) : Instr → State
  | .hostkeySlotWrite slot key => (writeHostKey s slot key).2
  | .sessionClose arg => (sessionClose s arg).2
  | .portModeWrite port v => (writePortMode s port v).2
  | .startWarm arg => (startWarm s arg).2
  | _ => s

/-- The response has been sent: what waited for it takes effect, a new spp.max_body too (R431). -/
def afterResponse (s : State) : State :=
  let due := s.spp.after
  let s := { s with spp := { s.spp with after := [], maxBody := getP s (pk 0x0100 5) } }
  due.foldl runLater s

/-- domain.start: the five commands (R217). -/
def domainCommand (s : State) (d v : Nat) : Nat × State :=
  match v with
  | 1 => loadDomain s d
  | 2 => runDomain s d
  | 3 => loadRunDomain s d
  | 4 => abortDomain s d
  | 5 => releaseDomain s d
  | _ => (4, s)

/-- halt.resume: bits [7:0] the slot, bit [8] fail, other bits zero (R273, R411). -/
def haltCommand (s : State) (v : Nat) : Nat × State :=
  if 0x200 ≤ v then (4, s) else if bit v 8 then haltFail s (v % 256) else haltResume s v

/-- A port record: the mode after the response; a fabric port has no lanes 4 to 7 (R8, R459). -/
def writePort (s : State) (port sub v key : Nat) : Nat × State :=
  if sub == 1 then ((writePortMode s port v).1, later s (.portModeWrite port v))
  else if sub == 9 && port ≠ hostPort && 16 ≤ v then (6, s)
  else writePlain s key v

/-- Parameters of the memory system that state a condition (R156, R294, R309). -/
def writeMemory (s : State) (i sub v : Nat) : Nat × State :=
  let k := pk i sub
  match i with
  | 0x0803 => if 128 < v || v % 16 ≠ 0 then (4, s) else if !allEmpty s then (5, s)
    else (0, (List.range 8).foldl trimCache (setP s k v))
  | 0x0810 => if v % 0x20000 ≠ 0 || hbmEnd ≤ v then (4, s) else if domRuns s (sub - 1) then (5, s) else (0, setP s k v)
  | 0x0850 =>
    if v % 2 ^ 21 ≠ 0 || 2 ^ 48 ≤ v then (4, s) else if strandRuns s (sub - 1) then (5, s) else (0, setP s k v)
  | 0x0851 => if v % 2 ^ 27 ≠ 0 then (4, s) else (0, setP s k v)
  | 0x0853 => writeStashDomain s (sub - 1) v
  | 0x0812 => ptFlush s v
  | 0x0838 => writeThrottle s sub v
  | _ => if decide (0x0820 ≤ i) && decide (i ≤ 0x0828) then regulatorWrite s (i - 0x0820) sub v else writePlain s k v

/-- A write of a parameter, its value as it travels: the first status of R425 from the reserved fields on, and the state
that it leaves. -/
def writeParam (s : State) (key : Nat) (bs : List Byte) : Nat × State :=
  let i := key / 256
  let sub := key % 256
  let r := (paramRow key).getD ⟨0, 0, 0, 0, .u8, .ro, 1, 0⟩
  let v := if r.ty.isBytes then leNat bs else beNat bs
  if r.ty == .bool && 1 < v then (4, s)
  else if decide (0x0600 ≤ i) && decide (i ≤ 0x0607) then
    (if sub == 3 then domainCommand s (i - 0x0600) v else writeDomainParam s (i - 0x0600) sub v)
  else if decide (0x0640 ≤ i) && decide (i ≤ 0x0647) then
    (if (getD s (i - 0x0640)).st == .empty then (0, setP s key v) else (5, s))
  else if decide (0x0910 ≤ i) && decide (i ≤ 0x091F) then writeTree s (i - 0x0910) sub v
  else if decide (0x0920 ≤ i) && decide (i ≤ 0x0927) then writeMcast s (i - 0x0920) (sub - 1) v
  else if decide (0x0A10 ≤ i) && decide (i ≤ 0x0A1F) then writePort s (i - 0x0A10) sub v key
  else if decide (0x0B10 ≤ i) && decide (i ≤ 0x0B1F) then writeCvc s (i - 0x0B10) sub v
  else if decide (0x0B40 ≤ i) && decide (i ≤ 0x0BBF) then writePeer s (i - 0x0B40) sub v
  else if decide (0x0C08 ≤ i) && decide (i ≤ 0x0C0F) then writeSnapParam s (i - 0x0C08) sub v
  else if decide (0x0C40 ≤ i) && decide (i ≤ 0x0C4F) then writeRegion s (i - 0x0C40) sub v
  else if i / 256 == 0x08 then writeMemory s i sub v
  else match i with
    | 0x0002 => writeVersion s v
    | 0x0102 => if (openSlot s v).isNone then (4, s) else (0, later s (.sessionClose v))
    | 0x0310 => writeTarget s v
    | 0x0312 => writeService s sub v
    | 0x0340 => writeThermal s sub v
    | 0x0402 => if v ≠ 1 then (4, s) else (0, later s (.startWarm 1))
    | 0x0410 => testAck s v
    | 0x0510 => if sub == 2 then attestGenerate s v else if s.sec.attest.isSome then (5, s) else (0, setP s key v)
    | 0x0520 => (0, later s (.hostkeySlotWrite (sub - 1) bs))
    | 0x0530 => writeMacsec s sub bs
    | 0x0540 => if sub == 1 then writeUpdateBank s v else if sub == 2 then updateData s bs else updateVerify s v
    | 0x0701 => writeQuota s sub v
    | 0x0710 => if sub == 4 then haltCommand s v else writePlain s key v
    | 0x0730 =>
      if sub == 1 then (0, setP s key v)
      else if sub == 5 then (if v ≠ 0 then (4, s) else (0, startDma s (dmaSelect s)))
      else writeTrigger s sub v
    | 0x0A01 => writePort s hostPort sub v key
    | 0x0A30 => writePtp s sub v
    | 0x0C10 => writeStep 0x0C10 s (sub - 1) v
    | 0x0C20 => writeResume s (sub - 1) v
    | 0x0C30 => if sub == 2 then writeRegistry s bs else writePlain s key v
    | 0x0D10 => writeGradFloor s v
    | 0x0D20 => writeNanPolicy s v
    | 0x0D30 => clearNans s v
    | 0x0D51 => writeStep 0x0D51 s (sub - 1) v
    | 0x0D60 => if sub == 2 then writeMonTensor s v else if sub == 5 then clearMon s v else (0, setP s key v)
    | 0x0E00 => ackRecords s v
    | 0x1020 => if sub == 2 then recordGenerate s v else if sub == 5 then writeInterval s v else (0, setP s key v)
    | 0x1030 => if sub == 2 then writeSealRequest s bs else sealExecute s v
    | _ => writePlain s key v

/-- The length of a written value fits its type (R421, R425). -/
def writeLenOk (r : PRow) (key n : Nat) : Bool :=
  if r.len ≠ 0 then n == r.len
  else if r.ty == .key then decide (1 ≤ n) && decide (n ≤ 256)
  else if key == 0x054002 then decide (n ≤ 4100)
  else decide (n ≤ 65536)

/-- The status of a write and the state it leaves, once its parameter, access and type have passed (R387, R425). -/
def checkedWrite (s : State) (key : Nat) (bs : List Byte) : Nat × State :=
  let (st, s') := writeParam s key bs
  if st ≠ 0 then (st, s) else if !gateOk s key then (5, s) else (0, s')

/-- REGISTER_WRITE: a write to a parameter outside any message, by an authenticated host; what a response would precede
follows at once (R412, R413, R425). -/
def execRegisterWrite (key : Nat) (bs : List Byte) (s : State) : Host.Outcome State Fault Refusal :=
  if 0x800000 ≤ key then .next { s with wstatus := 2 }
  else match findParam key with
    | none => .next { s with wstatus := 1 }
    | some r =>
      if !r.acc.writable then .next { s with wstatus := 2 }
      else if !writeLenOk r key bs.length then .next { s with wstatus := 3 }
      else
        let (st, s') := checkedWrite s key bs
        .next (wrote s st (afterResponse s'))

/-! ### Messages (R416, R417) -/

/-- The 24-byte header of a message. -/
def sppHeader (m : SppMsg) : List Byte :=
  beBytes 1 m.version ++ beBytes 1 m.type ++ beBytes 2 m.session ++ beBytes 8 m.seq ++ beBytes 4 m.reqId ++
    beBytes 2 m.length ++ beBytes 1 m.status ++ beBytes 1 m.count ++ beBytes 4 m.rsv

/-- The tag of a message under a key (R405). -/
def sppTag (key : List Byte) (m : SppMsg) : List Byte := (hmac512 key (sppHeader m ++ m.body)).take 32

/-- A message of the device before its number and tag. -/
def sppAnswer (type session reqId status count : Nat) (body : List Byte) : SppMsg :=
  ⟨1, type, session, 0, reqId, body.length, status, count, 0, body, List.replicate 32 0#8⟩

/-- Send a message of a session under its next number and its tag (R405). -/
def sendSession (s : State) (k : Nat) (m : SppMsg) : State :=
  let x := getSession s k
  let m := { m with session := x.sn, seq := x.tx + 1 }
  let s := setSession s k { x with tx := x.tx + 1 }
  emit s hostPort (.spp x.ip x.port x.eth { m with tag := sppTag x.keyOut m })

/-- The dictionary server receives datagrams: HOST is ready and the host port's link is up (R382, R386, R416). -/
def serving (s : State) : Bool := isReady s bHost && linkOf s hostPort == 2 && !s.boot.resetLow

/-- Count a message discarded without a reply (R405, R420). -/
def rejectMsg (s : State) : State := incP s (pk 0x0504 1) 1

/-- The header of a message is malformed (R426). -/
def malformed (s : State) (m : SppMsg) : Bool :=
  m.length ≠ m.body.length || m.length % 4 ≠ 0 || decide (s.spp.maxBody < m.length) || m.rsv ≠ 0 || m.status ≠ 0 ||
    decide (64 < m.count)

/-! ### Opening a session (R405, R419) -/

/-- The lowest session number that no session holds and that is not among the last 16 freed. -/
def freshSn (s : State) : Nat :=
  ((List.range 0xFFFE).find? fun n =>
    !(s.spp.freed.contains (n + 1)) && (slotsWhere s fun x => x.st ≠ 0 && x.sn == n + 1).isEmpty).getD 0 + 1

/-- Send an OPEN2, which carries no tag. -/
def sendOpen2 (s : State) (src : SppSrc) (m : SppMsg) : State := emit s hostPort (.spp src.ip src.port src.eth m)

/-- An OPEN1: refused with its status, or OPEN2 under a new session (R405, R419). -/
def openSession (s : State) (src : SppSrc) (m : SppMsg) : State :=
  let s := incP s (pk 0x0100 6) 1
  let refuse (s : State) (st : Nat) (body : List Byte) : State := sendOpen2 s src (sppAnswer 2 0 m.reqId st 0 body)
  let qh := m.body.take 133
  let nh := (m.body.drop 133).take 32
  if m.version ≠ 1 then refuse s 0x14 []
  else if malformed s m || m.body.length ≠ 168 || m.count ≠ 0 || m.session ≠ 0 || m.seq ≠ 0 || (m.body.drop 165).any (· ≠ 0#8) then
    refuse s 0x10 []
  else match (slotsWhere s fun x => x.st == 0).head? with
    | none => refuse (incP s (pk 0x0100 7) 1) 0x20 (List.replicate 300 0#8)
    | some k =>
      if !Config.ecPoint qh then refuse s 0x10 []
      else
        let n := s.draws
        let sn := freshSn s
        let qd := fitBytes 133 (Config.ecPublic n)
        let nd := fitBytes 32 (Config.random (n + 1) 32)
        let t := qh ++ nh ++ qd ++ nd ++ beBytes 2 sn
        let sig := signBytes deviceKey t
        let keys := hkdf (nh ++ nd) (fitBytes 66 (Config.ecdh n qh)) (ascii "ZF880 SPP v1" ++ beBytes 2 sn) 128
        let s := setSession { s with draws := n + 2 } k
          { st := 1, sn := sn, ip := src.ip, port := src.port, keyIn := keys.take 64, keyOut := keys.drop 64,
            trans := t ++ sig, lastNs := s.ns, eth := src.eth }
        sendOpen2 s src (sppAnswer 2 sn m.reqId 0 0 (qd ++ nd ++ sig ++ List.replicate 3 0#8))

/-- OPEN1 (R416, R419). -/
def execOpen1 (src : SppSrc) (m : SppMsg) (s : State) : Host.Outcome State Fault Refusal :=
  if m.type ≠ 1 then .refused .illFormed
  else if !serving s then .next s
  else if !src.udpOk then .next (rxDrop s hostPort)
  else .next (openSession (rxOk s hostPort) src m)

/-- The host's answer proves a key of a slot, or there is no key to prove (R405, R419). -/
def openProof (s : State) (x : Session) (body : List Byte) : Bool :=
  let slot := beNat (body.take 1)
  let sig := (body.drop 2).take 132
  let keyOf (n : Nat) : Nat := getP s (pk 0x0520 (n + 1))
  if slot == 0xFF then ((List.range 4).all fun n => keyOf n == 0) && sig.all (· == 0#8)
  else decide (slot < 4) && keyOf slot ≠ 0 && Config.ecdsaVerify (leBytes 133 (keyOf slot)) x.trans sig

/-- An OPEN3 that has passed its tag: the session opens, or is refused and freed (R419). -/
def openDone (s : State) (k : Nat) (m : SppMsg) : State :=
  let ack (st : Nat) : SppMsg := sppAnswer 4 0 m.reqId st 0 []
  if m.version ≠ 1 then sendSession s k (ack 0x14)
  else if malformed s m || m.count ≠ 0 || m.body.length ≠ 136 || beNat ((m.body.drop 1).take 1) ≠ 0 || (m.body.drop 134).any (· ≠ 0#8) then
    sendSession s k (ack 0x10)
  else if openProof s (getSession s k) m.body then
    let slot := beNat (m.body.take 1)
    sendSession (setSession s k { getSession s k with st := if slot == 0xFF then 2 else 3, slot := slot }) k (ack 0)
  else closeSlot (sendSession (incP s (pk 0x0100 7) 1) k (ack 0x21)) k

/-- The session of a message that passes its source, tag and number (R405, R420); an opening session takes an OPEN3 alone,
an open one every other type. -/
def acceptedSlot (s : State) (src : SppSrc) (m : SppMsg) : Option Nat :=
  match (slotsWhere s fun x => x.st ≠ 0 && x.sn == m.session).head? with
  | none => none
  | some k =>
    let x := getSession s k
    if x.ip == src.ip && x.port == src.port && m.tag == sppTag x.keyIn m && decide (x.rx < m.seq) && m.seq < 2 ^ 64 &&
        (x.st == 1) == (m.type == 3) && m.type ≠ 2 then some k else none

/-- Numbers that reach all ones close their session (R405). -/
def closeWorn (s : State) (k : Nat) : State :=
  let x := getSession s k
  if x.st ≠ 0 && (2 ^ 64 - 1 ≤ x.rx || 2 ^ 64 - 1 ≤ x.tx) then closeSlot s k else s

/-- A session message: discarded and counted, or accepted and handled by `f` (R405, R413, R420). -/
def sessionMsg (s : State) (src : SppSrc) (m : SppMsg) (f : State → Nat → State) : State :=
  if !serving s then s
  else if !src.udpOk then rxDrop s hostPort
  else
    let s := rxOk s hostPort
    match acceptedSlot s src m with
    | none => rejectMsg s
    | some k =>
      let x := getSession s k
      let s := setSession s k { x with rx := m.seq, lastNs := s.ns, eth := src.eth }
      let s := f { s with spp := { s.spp with own := x.sn, unauth := x.st == 2 } } k
      let s := afterResponse { s with spp := { s.spp with own := 0, unauth := false } }
      closeWorn s k

/-- OPEN3 (R419). -/
def execOpen3 (src : SppSrc) (m : SppMsg) (s : State) : Host.Outcome State Fault Refusal :=
  if m.type ≠ 3 then .refused .illFormed else .next (sessionMsg s src m fun s k => openDone s k m)

/-- OPEN3_TIMEOUT: 5 s after OPEN2 the slot is freed (R419). -/
def execOpen3Timeout (k : Nat) (s : State) : Host.Outcome State Fault Refusal :=
  if 8 ≤ k then .fault .noSuchUnit
  else if (getSession s k).st ≠ 1 then .refused (.notEnabled "the slot holds no opening session")
  else .next (closeSlot (toNs ((getSession s k).lastNs + 5000000000) s) k)

/-- SESSION_IDLE_TIMEOUT: no message accepted for spp.idle_timeout_s (R420). -/
def execSessionIdleTimeout (k : Nat) (s : State) : Host.Outcome State Fault Refusal :=
  if 8 ≤ k then .fault .noSuchUnit
  else if (getSession s k).st < 2 then .refused (.notEnabled "the slot holds no open session")
  else .next (closeSlot (toNs ((getSession s k).lastNs + getP s (pk 0x0100 4) * 1000000000) s) k)

/-! ### ACCESS (R421 to R425) -/

/-- An item of an ACCESS request or response. -/
structure Item where
  index  : Nat
  sub    : Nat
  op     : Nat
  type   : Nat
  more   : Bool
  status : Nat
  length : Nat
  offset : Nat
  value  : List Byte
  deriving DecidableEq, Repr

/-- A length as padded. -/
def padded (n : Nat) : Nat := ceilDiv n 4 * 4

/-- The items of a body, COUNT of them and nothing beside; none where they do not match, or a field that is zero in a
request is not. -/
def parseItems : Nat → List Byte → Option (List Item)
  | 0, body => if body.isEmpty then some [] else none
  | n + 1, body =>
    if body.length < 12 then none
    else
      let f (off k : Nat) : Nat := beNat ((body.drop off).take k)
      let len := f 6 2
      let op := f 3 1 % 4
      let k := if op == 2 then len else 0
      let rest := body.drop 12
      if f 3 1 / 4 ≠ 0 || f 5 1 ≠ 0 || rest.length < padded k then none
      else (parseItems n (rest.drop (padded k))).map fun l =>
        ⟨f 0 2, f 2 1, op, f 4 1, false, 0, len, f 8 4, rest.take k⟩ :: l

/-- The bytes of a response item. -/
def itemBytes (x : Item) : List Byte :=
  beBytes 2 x.index ++ beBytes 1 x.sub ++ beBytes 1 (x.op + if x.more then 128 else 0) ++ beBytes 1 x.type ++
    beBytes 1 x.status ++ beBytes 2 x.value.length ++ beBytes 4 x.offset ++ fitBytes (padded x.value.length) x.value

/-- An item's key. -/
def Item.key (x : Item) : Nat := pk x.index x.sub

/-- Checks 1 to 3 of R425, the same for every item; the parameter where they pass. -/
def itemParam (s : State) (x : Item) : Nat × Option PRow :=
  if 0x8000 ≤ x.index then (2, none)
  else match findParam x.key with
    | none => (1, none)
    | some r =>
      if (x.op == 1 && !r.acc.readable) || (x.op == 2 && (!r.acc.writable || (s.spp.unauth && x.index ≠ 0x0520))) then (2, none)
      else if !(x.op == 1 || x.op == 2) || x.type ≠ r.ty.code then (3, none)
      else if x.op == 2 && (!writeLenOk r x.key x.length || x.offset ≠ 0) then (3, none)
      else if x.op == 1 && !r.ty.isBytes && (x.offset ≠ 0 || (x.length ≠ 0 && x.length < r.len)) then (3, none)
      else (0, some r)

/-- A read item served from a state (R421). -/
def serveItem (s : State) (r : PRow) (x : Item) : Item :=
  let all := wireValue s r x.key
  let rest := all.drop x.offset
  let v := if r.ty.isBytes && x.length ≠ 0 then rest.take x.length else rest
  { x with value := v, more := r.ty.isBytes && decide (v.length < rest.length), status := 0 }

/-- Handle the items in order: each sees what the earlier writes leave. The answers, whether every write passed, and the
state after them (R422). -/
def runItems (last : Bool → Bool) : List Item → Bool → State → List (Item × Nat × Option PRow) × Bool × State
  | [], ok, s => ([], ok, s)
  | x :: rest, ok, s =>
    let (st, r) := itemParam s x
    match r with
    | none =>
      let (l, ok', s') := runItems last rest (ok && x.op ≠ 2) s
      (({ x with value := [] }, st, none) :: l, ok', s')
    | some row =>
      if x.op == 1 then
        let (l, ok', s') := runItems last rest ok s
        ((serveItem s row x, 0, some row) :: l, ok', s')
      else
        let (st, s1) := checkedWrite s x.key x.value
        let st := if st == 0 && row.ty == .cmd && !last rest.isEmpty then 5 else st
        let (l, ok', s') := runItems last rest (ok && st == 0) (if st == 0 then s1 else s)
        (({ x with value := [] }, st, some row) :: l, ok', s')

/-- A CMD write of the message. -/
def isCmdItem (x : Item) : Bool := x.op == 2 && match findParam x.key with
  | some r => r.ty == .cmd
  | none => false

/-- Bytes that items take in a response. -/
def itemsSize (l : List Item) : Nat := sumNat (l.map fun x => 12 + padded x.value.length)

/-- Shorten the last BLOB and STR reads until the items fit, and set MORE (R423). -/
def shorten (limit : Nat) : List (Item × Bool) → Nat → List Item
  | [], _ => []
  | (x, bytes) :: rest, excess =>
    -- the list is in reverse order: the last item first
    if excess == 0 || !bytes || x.value.isEmpty then x :: shorten limit rest excess
    else
      let keep := padded x.value.length - min (padded x.value.length) (padded excess)
      let y := { x with value := x.value.take keep, more := true }
      y :: shorten limit rest (excess - (padded x.value.length - padded y.value.length))

/-- The items that a response repeats, cut to the limit; none where the fixed sizes alone do not fit (R423). -/
def fitItems (limit : Nat) (l : List (Item × Bool)) : Option (List Item) :=
  let fixed := sumNat (l.map fun x => 12 + if x.2 then 0 else padded x.1.value.length)
  if limit < fixed then none
  else some (shorten limit l.reverse (itemsSize (l.map (·.1)) - limit)).reverse

/-- An ACCESS as a whole: the response's status, items and the state (R422, R423). -/
def accessItems (s : State) (items : List Item) : Nat × List Item × State :=
  let oneCmd := (items.filter isCmdItem).length ≤ 1
  let (res, ok, s') := runItems (fun isLast => isLast && oneCmd) items true s
  let done : List (Item × Bool) := res.map fun x =>
    let bytes := match x.2.2 with
      | some r => r.ty.isBytes && x.1.op == 1
      | none => false
    if x.1.op == 1 && !ok then
      (match x.2.2 with
        | some r => (serveItem s r x.1, bytes)
        | none => ({ x.1 with status := x.2.1 }, bytes))
    else if x.1.op == 2 && !ok && x.2.1 == 0 then ({ x.1 with status := 7 }, bytes)
    else ({ x.1 with status := x.2.1 }, bytes)
  match fitItems s.spp.maxBody done with
  | none => (0x13, [], s)
  | some l => (0, l, if ok then s' else s)

/-! ### Requests of an open session (R418, R424, R426) -/

/-- Remember a response: the last 64 of the session (R424). -/
def keepAnswer (s : State) (k : Nat) (m a : SppMsg) : State :=
  let x := getSession s k
  if x.st == 0 then s
  else setSession s k { x with kept := (⟨m.reqId, m.type, m.body, a⟩ :: x.kept).take 64 }

/-- A request whose response a flush still delays (R289). -/
def unanswered (s : State) (k : Nat) (m : SppMsg) : Bool :=
  s.spp.flush.any fun f => match f.answer with
    | some (j, _, q, _) => j == k && q.reqId == m.reqId
    | none => false

/-- Send the response of a request and keep it, or leave it to the flush that the request has begun (R289, R424). -/
def respond (s s' : State) (k : Nat) (m a : SppMsg) : State :=
  if s'.spp.flush.length ≤ s.spp.flush.length then keepAnswer (sendSession s' k a) k m a
  else { s' with spp := { s'.spp with
    flush := s'.spp.flush.map fun f => if f.answer.isNone then { f with answer := some (k, (getSession s k).sn, m, a) } else f } }

/-- A request: a kept response again, 12h for another request of that number, or `f`'s status, count, body and state
(R424, R426). -/
def request (s : State) (k : Nat) (m : SppMsg) (known : Bool) (f : State → Nat × Nat × List Byte × State) : State :=
  if unanswered s k m then s else
  match (getSession s k).kept.find? fun y => y.req == m.reqId with
  | some y =>
    if y.type == m.type && y.body == m.body then sendSession s k y.answer
    else sendSession s k (sppAnswer 0x80 0 m.reqId 0x12 0 [])
  | none =>
    let (a, s') :=
      if m.version ≠ 1 then (sppAnswer 0x80 0 m.reqId 0x14 0 [], s)
      else if !known then (sppAnswer 0x80 0 m.reqId 0x11 0 [], s)
      else if malformed s m then (sppAnswer 0x80 0 m.reqId 0x10 0 [], s)
      else
        let (st, n, body, s') := f s
        if st ≠ 0 then (sppAnswer 0x80 0 m.reqId st 0 [], s) else (sppAnswer 0x80 0 m.reqId 0 n body, s')
    respond s s' k m a

/-- PT_FLUSH: the write of mem.pt_flush; where its answer is owed, the next PT_FLUSH of that argument is the answer, once the
accesses translated through the dropped entries have completed (R289). -/
def execPtFlush (v : Nat) (s : State) : Host.Outcome State Fault Refusal :=
  match takeFirst (fun f : FlushDue => f.arg == v) s.spp.flush with
  | none =>
    let s' := gated s (pk 0x0812 0) fun s => ptFlush s v
    .next (if s'.spp.flush == s.spp.flush then s' else { s' with wstatus := s.wstatus })
  | some (f, rest) =>
    if keysBusy s f.keys then .refused (.notEnabled "an access translated through a dropped entry is on its way")
    else
      let s := { s with spp := { s.spp with flush := rest } }
      .next (match f.answer with
        | none => { s with wstatus := 0 }
        | some (k, sn, m, a) => if (getSession s k).sn == sn && (getSession s k).st ≠ 0 then keepAnswer (sendSession s k a) k m a else s)

/-- The types that another command carries. -/
def knownType (t : Nat) : Bool := [1, 3, 0x13, 0x14, 0x15, 0x16].contains t

/-- ACCESS; a message of an unknown type is answered here too (R418, R422). -/
def execAccess (src : SppSrc) (m : SppMsg) (s : State) : Host.Outcome State Fault Refusal :=
  if knownType m.type then .refused .illFormed
  else .next (sessionMsg s src m fun s k => request s k m (m.type == 0x10) fun s =>
    match parseItems m.count m.body with
    | none => (0x10, 0, [], s)
    | some items =>
      let (st, l, s') := accessItems s items
      (st, l.length, l.flatMap itemBytes, s'))

/-- CLOSE: the session closes after the response (R418, R420). -/
def execClose (src : SppSrc) (m : SppMsg) (s : State) : Host.Outcome State Fault Refusal :=
  if m.type ≠ 0x15 then .refused .illFormed
  else .next (sessionMsg s src m fun s k => request s k m true fun s =>
    if m.body ≠ [] || m.count ≠ 0 then (0x10, 0, [], s) else (0, 0, [], later s (.sessionClose m.session)))

/-- KEEPALIVE (R418, R420). -/
def execKeepalive (src : SppSrc) (m : SppMsg) (s : State) : Host.Outcome State Fault Refusal :=
  if m.type ≠ 0x16 then .refused .illFormed
  else .next (sessionMsg s src m fun s k => request s k m true fun s =>
    if m.body ≠ [] || m.count ≠ 0 then (0x10, 0, [], s) else (0, 0, [], s))

/-! ### Subscriptions (R427) -/

/-- The subscription of a number. -/
def getSub (s : State) (n : Nat) : Option Subscr := SMap.get none s.spp.subs n
def setSub (s : State) (n : Nat) (v : Option Subscr) : State := { s with spp := { s.spp with subs := SMap.set none s.spp.subs n v } }

/-- Take a sample now: sent in mode 01h, and in mode 02h where it differs from the last one sent. -/
def sampleSub (s : State) (n : Nat) : State :=
  match getSub s n with
  | none => s
  | some u =>
    match findParam u.key with
    | none => s
    | some r =>
      let own := s.spp.own
      let s := { s with spp := { s.spp with own := (getSession s u.slot).sn } }
      let v := wireValue s r u.key
      let s := { s with spp := { s.spp with own := own } }
      let s' := setSub s n (some { u with last := some v, nextNs := u.nextNs + u.period * 1000000 })
      if u.mode == 2 && u.last == some v then s'
      else
        let item : Item := ⟨u.key / 256, u.key % 256, 1, r.ty.code, false, 0, v.length, 0, v⟩
        sendSession s' u.slot (sppAnswer 0x81 0 n 0 1 (beBytes 10 (timeOf s.ptp) ++ [0#8, 0#8] ++ itemBytes item))

/-- Subscriptions of a session. -/
def subsOf (s : State) (k : Nat) : Nat :=
  (s.spp.subs.filter fun x => match x.2 with
    | some u => u.slot == k
    | none => false).length

/-- The status of a subscription entry (R425, R427). -/
def subStatus (s : State) (k : Nat) (e : List Byte) : Nat :=
  let f (off n : Nat) : Nat := beNat ((e.drop off).take n)
  let key := pk (f 0 2) (f 2 1)
  if 0x8000 ≤ f 0 2 then 2
  else match findParam key with
    | none => 1
    | some r =>
      if !r.acc.readable then 2
      else if f 6 6 ≠ 0 then 6
      else if !(f 3 1 == 1 || f 3 1 == 2) || f 4 2 == 0 || 60000 < f 4 2 ||
          s.spp.maxBody < 24 + padded (wireValue s r key).length then 4
      else if 64 ≤ subsOf s k || 256 ≤ (s.spp.subs.filter fun x => x.2.isSome).length then 5
      else 0

/-- Handle subscription entries in order: the response's entries, the numbers accepted, the state. -/
def addSubs (k : Nat) : List (List Byte) → State → List Byte × List Nat × State
  | [], s => ([], [], s)
  | e :: rest, s =>
    let st := subStatus s k e
    let n := ((List.range 256).find? fun n => (getSub s n).isNone).getD 0
    let f (off m : Nat) : Nat := beNat ((e.drop off).take m)
    let s1 := if st == 0 then setSub s n (some ⟨k, pk (f 0 2) (f 2 1), f 3 1, f 4 2, s.ns, none⟩) else s
    let (b, l, s2) := addSubs k rest s1
    (e.take 6 ++ beBytes 1 (if st == 0 then n else 0) ++ beBytes 1 st ++ List.replicate 4 0#8 ++ b,
      if st == 0 then n :: l else l, s2)

/-- SUBSCRIBE: the entries are accepted or refused one by one, and each accepted one is sampled after the response
(R427). -/
def execSubscribe (src : SppSrc) (m : SppMsg) (s : State) : Host.Outcome State Fault Refusal :=
  if m.type ≠ 0x13 then .refused .illFormed
  else .next (sessionMsg s src m fun s k =>
    let fresh := ((getSession s k).kept.find? fun y => y.req == m.reqId).isNone
    let held (s : State) : List Nat := (s.spp.subs.filter fun x => x.2.isSome).map (·.1)
    let s' := request s k m true fun s =>
      if m.body.length ≠ 12 * m.count then (0x10, 0, [], s)
      else
        let (b, _, s') := addSubs k (chunksOf 12 m.count m.body) s
        (0, m.count, b, s')
    if fresh then ((held s').filter fun n => !(held s).contains n).foldl sampleSub s' else s')

/-- UNSUBSCRIBE: the named subscriptions of the session end (R418, R427). -/
def execUnsubscribe (src : SppSrc) (m : SppMsg) (s : State) : Host.Outcome State Fault Refusal :=
  if m.type ≠ 0x14 then .refused .illFormed
  else .next (sessionMsg s src m fun s k => request s k m true fun s =>
    let ws := (chunksOf 4 m.count m.body).map beNat
    if m.body.length ≠ 4 * m.count || ws.any fun w => 256 ≤ w then (0x10, 0, [], s)
    else (0, 0, [], ws.foldl (fun s n =>
      match getSub s n with
      | some u => if u.slot == k then setSub s n none else s
      | none => s) s))

/-- NOTIFY: a subscription's period has passed, and the device samples it again (R427). -/
def execNotify (n : Nat) (s : State) : Host.Outcome State Fault Refusal :=
  match getSub s n with
  | none => .refused (.notEnabled "no such subscription")
  | some u => .next (closeWorn (sampleSub (toNs u.nextNs s) n) u.slot)

end Sys2Proof.Machine
end

