-- ==== Sys2Proof/Machine/Dispatch.lean ====
section
/-!
DEFINITION. The dispatcher: one arm for each command, a direct call of its meaning.
-/
namespace Sys2Proof.Machine

/-- The effect of a command on everything but the queue. -/
def exec (i : Instr) (s : State) : Host.Outcome State Fault Refusal :=
  match i with
  | .nop c n w => Sys2Proof.Machine.execNop c n w s
  | .halt c n w => Sys2Proof.Machine.execHalt c n w s
  | .loop c n w => Sys2Proof.Machine.execLoop c n w s
  | .pick c n w => Sys2Proof.Machine.execPick c n w s
  | .part c n w => Sys2Proof.Machine.execPart c n w s
  | .stepI c n w => Sys2Proof.Machine.execStep c n w s
  | .setb c n w => Sys2Proof.Machine.execSetb c n w s
  | .tpos c n w => Sys2Proof.Machine.execTpos c n w s
  | .sync c n w => Sys2Proof.Machine.execSync c n w s
  | .signal c n w => Sys2Proof.Machine.execSignal c n w s
  | .mma c n w => Sys2Proof.Machine.execMma c n w s
  | .accrd c n w => Sys2Proof.Machine.execAccrd c n w s
  | .act c n w => Sys2Proof.Machine.execAct c n w s
  | .dact c n w => Sys2Proof.Machine.execDact c n w s
  | .cvt c n w => Sys2Proof.Machine.execCvt c n w s
  | .amax c n w => Sys2Proof.Machine.execAmax c n w s
  | .spush c n w => Sys2Proof.Machine.execSpush c n w s
  | .spop c n w => Sys2Proof.Machine.execSpop c n w s
  | .inj c n w => Sys2Proof.Machine.execInj c n w s
  | .take c n w => Sys2Proof.Machine.execTake c n w s
  | .tld c n w => Sys2Proof.Machine.execTld c n w s
  | .tst c n w => Sys2Proof.Machine.execTst c n w s
  | .put c n w => Sys2Proof.Machine.execPut c n w s
  | .get c n w => Sys2Proof.Machine.execGet c n w s
  | .rsend c n w => Sys2Proof.Machine.execRsend c n w s
  | .cNop c w => Sys2Proof.Machine.execCNop c w s
  | .cHalt c w => Sys2Proof.Machine.execCHalt c w s
  | .cLoop c w => Sys2Proof.Machine.execCLoop c w s
  | .cStep c w => Sys2Proof.Machine.execCStep c w s
  | .cSync c w => Sys2Proof.Machine.execCSync c w s
  | .cSignal c w => Sys2Proof.Machine.execCSignal c w s
  | .add c w => Sys2Proof.Machine.execAdd c w s
  | .sub c w => Sys2Proof.Machine.execSub c w s
  | .and c w => Sys2Proof.Machine.execAnd c w s
  | .or c w => Sys2Proof.Machine.execOr c w s
  | .xor c w => Sys2Proof.Machine.execXor c w s
  | .shl c w => Sys2Proof.Machine.execShl c w s
  | .shr c w => Sys2Proof.Machine.execShr c w s
  | .sra c w => Sys2Proof.Machine.execSra c w s
  | .mul c w => Sys2Proof.Machine.execMul c w s
  | .slt c w => Sys2Proof.Machine.execSlt c w s
  | .sltu c w => Sys2Proof.Machine.execSltu c w s
  | .addi c w => Sys2Proof.Machine.execAddi c w s
  | .li c w => Sys2Proof.Machine.execLi c w s
  | .lih c w => Sys2Proof.Machine.execLih c w s
  | .fadd c w => Sys2Proof.Machine.execFadd c w s
  | .fmul c w => Sys2Proof.Machine.execFmul c w s
  | .vadd c w => Sys2Proof.Machine.execVadd c w s
  | .vsub c w => Sys2Proof.Machine.execVsub c w s
  | .vmul c w => Sys2Proof.Machine.execVmul c w s
  | .vfma c w => Sys2Proof.Machine.execVfma c w s
  | .vmac c w => Sys2Proof.Machine.execVmac c w s
  | .vsmd c w => Sys2Proof.Machine.execVsmd c w s
  | .vmax c w => Sys2Proof.Machine.execVmax c w s
  | .vmin c w => Sys2Proof.Machine.execVmin c w s
  | .vabs c w => Sys2Proof.Machine.execVabs c w s
  | .vneg c w => Sys2Proof.Machine.execVneg c w s
  | .vdiv c w => Sys2Proof.Machine.execVdiv c w s
  | .vsqrt c w => Sys2Proof.Machine.execVsqrt c w s
  | .vrsqrt c w => Sys2Proof.Machine.execVrsqrt c w s
  | .vfn c w => Sys2Proof.Machine.execVfn c w s
  | .vcmp c w => Sys2Proof.Machine.execVcmp c w s
  | .vsel c w => Sys2Proof.Machine.execVsel c w s
  | .viadd c w => Sys2Proof.Machine.execViadd c w s
  | .visub c w => Sys2Proof.Machine.execVisub c w s
  | .vimul c w => Sys2Proof.Machine.execVimul c w s
  | .vand c w => Sys2Proof.Machine.execVand c w s
  | .vor c w => Sys2Proof.Machine.execVor c w s
  | .vxor c w => Sys2Proof.Machine.execVxor c w s
  | .vshl c w => Sys2Proof.Machine.execVshl c w s
  | .vshr c w => Sys2Proof.Machine.execVshr c w s
  | .vicmp c w => Sys2Proof.Machine.execVicmp c w s
  | .vcvtfi c w => Sys2Proof.Machine.execVcvtfi c w s
  | .vcvtif c w => Sys2Proof.Machine.execVcvtif c w s
  | .vbcast c w => Sys2Proof.Machine.execVbcast c w s
  | .vlane c w => Sys2Proof.Machine.execVlane c w s
  | .vrsum c w => Sys2Proof.Machine.execVrsum c w s
  | .vrmax c w => Sys2Proof.Machine.execVrmax c w s
  | .pand c w => Sys2Proof.Machine.execPand c w s
  | .por c w => Sys2Proof.Machine.execPor c w s
  | .pxor c w => Sys2Proof.Machine.execPxor c w s
  | .pnot c w => Sys2Proof.Machine.execPnot c w s
  | .vld c w => Sys2Proof.Machine.execVld c w s
  | .vst c w => Sys2Proof.Machine.execVst c w s
  | .lds c w => Sys2Proof.Machine.execLds c w s
  | .sts c w => Sys2Proof.Machine.execSts c w s
  | .trd c w => Sys2Proof.Machine.execTrd c w s
  | .twr c w => Sys2Proof.Machine.execTwr c w s
  | .sfacc c w => Sys2Proof.Machine.execSfacc c w s
  | .ngath c w => Sys2Proof.Machine.execNgath c w s
  | .nscat c w => Sys2Proof.Machine.execNscat c w s
  | .mld c w => Sys2Proof.Machine.execMld c w s
  | .mst c w => Sys2Proof.Machine.execMst c w s
  | .mput c w => Sys2Proof.Machine.execMput c w s
  | .mget c w => Sys2Proof.Machine.execMget c w s
  | .mrsend c w => Sys2Proof.Machine.execMrsend c w s
  | .cpush c w => Sys2Proof.Machine.execCpush c w s
  | .cpop c w => Sys2Proof.Machine.execCpop c w s
  | .instructionDecode u n => Sys2Proof.Machine.execInstructionDecode u n s
  | .waitQueueEntry u n => Sys2Proof.Machine.execWaitQueueEntry u n s
  | .engineIdle c m h => Sys2Proof.Machine.execEngineIdle c m h s
  | .accrdHoldRelease c m => Sys2Proof.Machine.execAccrdHoldRelease c m s
  | .roundBeatSend stop => Sys2Proof.Machine.execRoundBeatSend stop s
  | .roundBeatArrive d stop e => Sys2Proof.Machine.execRoundBeatArrive d stop e s
  | .roundBeatTake d stop => Sys2Proof.Machine.execRoundBeatTake d stop s
  | .takeQueueDrain d stop => Sys2Proof.Machine.execTakeQueueDrain d stop s
  | .injectionQueueFill stop => Sys2Proof.Machine.execInjectionQueueFill stop s
  | .portFLineWrite u src => Sys2Proof.Machine.execPortFLineWrite u src s
  | .meshTransferComplete u tag => Sys2Proof.Machine.execMeshTransferComplete u tag s
  | .stashPushComplete u tag => Sys2Proof.Machine.execStashPushComplete u tag s
  | .incr p tok => Sys2Proof.Machine.execIncr p tok s
  | .stallReq d => Sys2Proof.Machine.execStallReq d s
  | .freeze d => Sys2Proof.Machine.execFreeze d s
  | .resumeOk d u => Sys2Proof.Machine.execResumeOk d u s
  | .resume d => Sys2Proof.Machine.execResume d s
  | .pickReport d c => Sys2Proof.Machine.execPickReport d c s
  | .pickChoice d => Sys2Proof.Machine.execPickChoice d s
  | .fault d => Sys2Proof.Machine.execFault d s
  | .stop d => Sys2Proof.Machine.execStop d s
  | .start d => Sys2Proof.Machine.execStart d s
  | .stallTimeout d => Sys2Proof.Machine.execStallTimeout d s
  | .domainDone d => Sys2Proof.Machine.execDomainDone d s
  | .load d => Sys2Proof.Machine.execLoad d s
  | .run d => Sys2Proof.Machine.execRun d s
  | .loadRun d => Sys2Proof.Machine.execLoadRun d s
  | .abort d => Sys2Proof.Machine.execAbort d s
  | .release d => Sys2Proof.Machine.execRelease d s
  | .nanClear arg => Sys2Proof.Machine.execNanClear arg s
  | .monClear arg => Sys2Proof.Machine.execMonClear arg s
  | .monTensorWrite v => Sys2Proof.Machine.execMonTensorWrite v s
  | .nanPolicyWrite v => Sys2Proof.Machine.execNanPolicyWrite v s
  | .gradFloorWrite v => Sys2Proof.Machine.execGradFloorWrite v s
  | .rngStepWrite strand v => Sys2Proof.Machine.execRngStepWrite strand v s
  | .stashDomainWrite strand v => Sys2Proof.Machine.execStashDomainWrite strand v s
  | .faultAck v => Sys2Proof.Machine.execFaultAck v s
  | .ptFlush v => Sys2Proof.Machine.execPtFlush v s
  | .haltResume slot => Sys2Proof.Machine.execHaltResume slot s
  | .haltFail slot => Sys2Proof.Machine.execHaltFail slot s
  | .dmaStart arg => Sys2Proof.Machine.execDmaStart arg s
  | .dmaTriggerRun ch => Sys2Proof.Machine.execDmaTriggerRun ch s
  | .dmaTriggerTime ch => Sys2Proof.Machine.execDmaTriggerTime ch s
  | .dmaTriggerCtc ch => Sys2Proof.Machine.execDmaTriggerCtc ch s
  | .dmaTriggerChannel ch => Sys2Proof.Machine.execDmaTriggerChannel ch s
  | .dmaNop ch => Sys2Proof.Machine.execDmaNop ch s
  | .dmaHalt ch => Sys2Proof.Machine.execDmaHalt ch s
  | .dmaLoop ch => Sys2Proof.Machine.execDmaLoop ch s
  | .endloop ch => Sys2Proof.Machine.execEndloop ch s
  | .wait ch => Sys2Proof.Machine.execWait ch s
  | .dmaSignal ch => Sys2Proof.Machine.execDmaSignal ch s
  | .timer ch => Sys2Proof.Machine.execTimer ch s
  | .crcstore ch => Sys2Proof.Machine.execCrcstore ch s
  | .move ch => Sys2Proof.Machine.execMove ch s
  | .move2d ch => Sys2Proof.Machine.execMove2d ch s
  | .dmaTimerExpiry ch => Sys2Proof.Machine.execDmaTimerExpiry ch s
  | .dmaTransferComplete ch => Sys2Proof.Machine.execDmaTransferComplete ch s
  | .windowCurrent x => Sys2Proof.Machine.execWindowCurrent x s
  | .windowRelease x => Sys2Proof.Machine.execWindowRelease x s
  | .windowCheck x => Sys2Proof.Machine.execWindowCheck x s
  | .streamRequestIssue x => Sys2Proof.Machine.execStreamRequestIssue x s
  | .windowFilled x p => Sys2Proof.Machine.execWindowFilled x p s
  | .storeWindowAcknowledged x => Sys2Proof.Machine.execStoreWindowAcknowledged x s
  | .streamWait x => Sys2Proof.Machine.execStreamWait x s
  | .hbmRequestService st => Sys2Proof.Machine.execHbmRequestService st s
  | .hbmRefresh st bank => Sys2Proof.Machine.execHbmRefresh st bank s
  | .scrub st => Sys2Proof.Machine.execScrub st s
  | .stackTemperatureRead st eighths => Sys2Proof.Machine.execStackTemperatureRead st eighths s
  | .meshWrite p => Sys2Proof.Machine.execMeshWrite p s
  | .meshReadRequest p => Sys2Proof.Machine.execMeshReadRequest p s
  | .meshReadResponse p => Sys2Proof.Machine.execMeshReadResponse p s
  | .meshAcknowledge p => Sys2Proof.Machine.execMeshAcknowledge p s
  | .meshReduction p t => Sys2Proof.Machine.execMeshReduction p t s
  | .meshMulticastWrite p => Sys2Proof.Machine.execMeshMulticastWrite p s
  | .meshStash p => Sys2Proof.Machine.execMeshStash p s
  | .flitCrcFail p dir => Sys2Proof.Machine.execFlitCrcFail p dir s
  | .stretch zone => Sys2Proof.Machine.execStretch zone s
  | .marginShortfall zone size => Sys2Proof.Machine.execMarginShortfall zone size s
  | .crossingRecentre za zb => Sys2Proof.Machine.execCrossingRecentre za zb s
  | .freq zone => Sys2Proof.Machine.execFreq zone s
  | .frequencySwitch => Sys2Proof.Machine.execFrequencySwitch s
  | .targetMhzWrite v => Sys2Proof.Machine.execTargetMhzWrite v s
  | .serviceClockWrite sub v => Sys2Proof.Machine.execServiceClockWrite sub v s
  | .regulatorStepSettled => Sys2Proof.Machine.execRegulatorStepSettled s
  | .regulatorStepTimeout => Sys2Proof.Machine.execRegulatorStepTimeout s
  | .stretchMarginUpdate slow => Sys2Proof.Machine.execStretchMarginUpdate slow s
  | .powerWindowEnd => Sys2Proof.Machine.execPowerWindowEnd s
  | .thermalReading readings => Sys2Proof.Machine.execThermalReading readings s
  | .thermalTrip sensor => Sys2Proof.Machine.execThermalTrip sensor s
  | .pwrOkRise => Sys2Proof.Machine.execPwrOkRise s
  | .pwrOkFall => Sys2Proof.Machine.execPwrOkFall s
  | .resetLLow us => Sys2Proof.Machine.execResetLLow us s
  | .resetLRelease t => Sys2Proof.Machine.execResetLRelease t s
  | .functionReady bit ok ms => Sys2Proof.Machine.execFunctionReady bit ok ms s
  | .startWarm arg => Sys2Proof.Machine.execStartWarm arg s
  | .testAck arg => Sys2Proof.Machine.execTestAck arg s
  | .attestGenerate arg => Sys2Proof.Machine.execAttestGenerate arg s
  | .attestSigned => Sys2Proof.Machine.execAttestSigned s
  | .hostkeySlotWrite slot key => Sys2Proof.Machine.execHostkeySlotWrite slot key s
  | .updateData v => Sys2Proof.Machine.execUpdateData v s
  | .updateVerify arg => Sys2Proof.Machine.execUpdateVerify arg s
  | .open1 src m => Sys2Proof.Machine.execOpen1 src m s
  | .open3 src m => Sys2Proof.Machine.execOpen3 src m s
  | .open3Timeout slot => Sys2Proof.Machine.execOpen3Timeout slot s
  | .access src m => Sys2Proof.Machine.execAccess src m s
  | .registerWrite key v => Sys2Proof.Machine.execRegisterWrite key v s
  | .subscribe src m => Sys2Proof.Machine.execSubscribe src m s
  | .unsubscribe src m => Sys2Proof.Machine.execUnsubscribe src m s
  | .close src m => Sys2Proof.Machine.execClose src m s
  | .keepalive src m => Sys2Proof.Machine.execKeepalive src m s
  | .sessionClose arg => Sys2Proof.Machine.execSessionClose arg s
  | .sessionIdleTimeout slot => Sys2Proof.Machine.execSessionIdleTimeout slot s
  | .notify sub => Sys2Proof.Machine.execNotify sub s
  | .versionSelectedWrite v => Sys2Proof.Machine.execVersionSelectedWrite v s
  | .treeConfigWrite t sub v => Sys2Proof.Machine.execTreeConfigWrite t sub v s
  | .mcastMembersWrite d g v => Sys2Proof.Machine.execMcastMembersWrite d g v s
  | .cvcConfigWrite c sub v => Sys2Proof.Machine.execCvcConfigWrite c sub v s
  | .registryEntryWrite v => Sys2Proof.Machine.execRegistryEntryWrite v s
  | .dataStepWrite strand v => Sys2Proof.Machine.execDataStepWrite strand v s
  | .resumeStepWrite strand v => Sys2Proof.Machine.execResumeStepWrite strand v s
  | .portModeWrite port v => Sys2Proof.Machine.execPortModeWrite port v s
  | .sealRequest v => Sys2Proof.Machine.execSealRequest v s
  | .sealExecute arg => Sys2Proof.Machine.execSealExecute arg s
  | .recordGenerate arg => Sys2Proof.Machine.execRecordGenerate arg s
  | .periodicRecord => Sys2Proof.Machine.execPeriodicRecord s
  | .gaugeSample raw => Sys2Proof.Machine.execGaugeSample raw s
  | .gaugeCommit => Sys2Proof.Machine.execGaugeCommit s
  | .vddIodFall => Sys2Proof.Machine.execVddIodFall s
  | .snapshotPoint d => Sys2Proof.Machine.execSnapshotPoint d s
  | .snapshotDrainEnd d => Sys2Proof.Machine.execSnapshotDrainEnd d s
  | .snapshotPageCopy d e page => Sys2Proof.Machine.execSnapshotPageCopy d e page s
  | .snapshotMirrorWrite d => Sys2Proof.Machine.execSnapshotMirrorWrite d s
  | .snapshotComplete d => Sys2Proof.Machine.execSnapshotComplete d s
  | .snapshotTimeout d => Sys2Proof.Machine.execSnapshotTimeout d s
  | .page port f => Sys2Proof.Machine.execPage port f s
  | .mirror port f => Sys2Proof.Machine.execMirror port f s
  | .refresh port f => Sys2Proof.Machine.execRefresh port f s
  | .record port f => Sys2Proof.Machine.execRecord port f s
  | .read port f => Sys2Proof.Machine.execRead port f s
  | .write port f => Sys2Proof.Machine.execWrite port f s
  | .data port f => Sys2Proof.Machine.execData port f s
  | .ack port f => Sys2Proof.Machine.execAck port f s
  | .nak port f => Sys2Proof.Machine.execNak port f s
  | .hmsResendTimeout flow => Sys2Proof.Machine.execHmsResendTimeout flow s
  | .collectiveStart c => Sys2Proof.Machine.execCollectiveStart c s
  | .collectiveHopSend c => Sys2Proof.Machine.execCollectiveHopSend c s
  | .herdFrame port f => Sys2Proof.Machine.execHerdFrame port f s
  | .windowClose c => Sys2Proof.Machine.execWindowClose c s
  | .windowGraceClose c => Sys2Proof.Machine.execWindowGraceClose c s
  | .collectiveComplete c => Sys2Proof.Machine.execCollectiveComplete c s
  | .pfcFrame port prio quanta => Sys2Proof.Machine.execPfcFrame port prio quanta s
  | .arpRequest port ip asker => Sys2Proof.Machine.execArpRequest port ip asker s
  | .neighbourSolicitation port ip asker => Sys2Proof.Machine.execNeighbourSolicitation port ip asker s
  | .linkLoss port => Sys2Proof.Machine.execLinkLoss port s
  | .retrainAttemptEnd port ok => Sys2Proof.Machine.execRetrainAttemptEnd port ok s
  | .periodicRetrain port ok => Sys2Proof.Machine.execPeriodicRetrain port ok s
  | .ptpMessage port domain m => Sys2Proof.Machine.execPtpMessage port domain m s
  | .ptp1ppsEdge => Sys2Proof.Machine.execPtp1ppsEdge s
  | .ptpHoldover => Sys2Proof.Machine.execPtpHoldover s
  | .recordSigned => Sys2Proof.Machine.execRecordSigned s
  | .updateWriteComplete => Sys2Proof.Machine.execUpdateWriteComplete s
  | .updateVerifyComplete => Sys2Proof.Machine.execUpdateVerifyComplete s
  | .pfcPauseExpiry port prio => Sys2Proof.Machine.execPfcPauseExpiry port prio s
  | .linkTrainingEnd port ok => Sys2Proof.Machine.execLinkTrainingEnd port ok s
  | .discardedFrame port why => Sys2Proof.Machine.execDiscardedFrame port why s
  | .boundaryScan tms tdi trst pins => Sys2Proof.Machine.execBoundaryScan tms tdi trst pins s
  | .regulatorTelemetryRead readings => Sys2Proof.Machine.execRegulatorTelemetryRead readings s

end Sys2Proof.Machine
end

