-- ==== Sys2Proof/Safety.lean ====
section
/-!
DEFINITION. What the claims about the machine are stated in: the canonical form that every reachable state has, outcomes
that complete, and what a command leaves alone.
-/
namespace Sys2Proof

open Machine

/-- The outcome is a next state. -/
def Completes (o : Host.Outcome State Fault Refusal) : Prop := ∃ t, o = .next t

/-- Stored bytes and stored poison are in their canonical form (R285, R298). -/
def StoresWf (s : State) : Prop := Memory.wf s.mem = true ∧ SMap.wf false s.poison = true

/-- Every byte of memory reads as before (R285). -/
def SameMemory (s t : State) : Prop := ∀ a, readByte t a = readByte s a

/-- Every byte of memory outside `n` bytes from `pa` on reads as before. -/
def SameMemoryBut (pa n : Nat) (s t : State) : Prop := ∀ a, a < pa ∨ pa + n ≤ a → readByte t a = readByte s a

/-- Every parameter but those of a list reads as before. -/
def SameParamsBut (keys : List Nat) (s t : State) : Prop := ∀ k, k ∉ keys → getP t k = getP s k

/-- The states differ in nothing but the Eland core `c`: its registers, needles, tokens and PRESENT bits. -/
def OnlyEland (c : Nat) (s t : State) : Prop :=
  t = { s with elands := t.elands } ∧ ∀ k, k ≠ c → getE t k = getE s k

/-- The states differ in nothing but the Chamois core `c`: its registers, results in flight, tokens and place. -/
def OnlyCham (c : Nat) (s t : State) : Prop := t = { s with chams := t.chams } ∧ ∀ k, k ≠ c → getC t k = getC s k

/-! ### The turn of an instruction -/

/-- An Eland needle's turn to issue the word `w`: the core and its needle exist, belong to a domain and are active; the
word is the oldest decoded one, with its reservation made and its conditions met; time has passed to the needle's slot, and
what a chosen needle's condition takes is taken; the domain issues there, the fetch is clean, and the first two checks of
R128 pass (R118 to R123). Answers the instruction at its issue, its slot, and the state in which its own checks and effect
begin, where the decode entry's reservation has passed to it. -/
def elandTurn (c : Nat) (n : Needle) (word : W128) (s : State) : Option (Ctx × Nat × State) :=
  let w := word.toNat
  if 36 ≤ c then none
  else match domN (getE s c) n, (getN (getE s c) n).decoded.head? with
  | some d, some y =>
    let x := getN (getE s c) n
    if x.st ≠ .active || y.word ≠ w || x.held.isSome || y.owed || openReq (getD s d) c n.code y.key then none
    else match atSlot s c n d x.nextSlot with
    | none => none
    | some s =>
      if !issuing (getD s d) then none else
      let s := consumeCond s c d n
      let e := getE s c
      let x := getN e n
      if 0x30000 ≤ x.pc / 4 || y.poison.isSome || (earlyFault e x w).isSome then none
      else some (⟨c, n, d, w, imageOffset (getD s d) n.code (posOf c) (16 * x.pc), y.tag.getD 0, x.b1, x.b2, x.b3⟩, (getD s d).dcc,
        updN s c n fun z => { z with decoded := { y with tag := none, push := false } :: z.decoded.drop 1 })
  | _, _ => none

/-- The state after an Eland instruction whose effect left `u` and that issued at `slot`: the needle goes on (R118,
R129). -/
def elandDone (x : Ctx) (slot : Nat) (u : State) : State :=
  updN u x.c x.n fun y => advanceNeedle (getE u x.c) y x.w slot

/-- A Chamois core's turn to issue the word `w`: the core exists, belongs to a domain and has not halted; the word is the
oldest decoded one, with its reservation made and its conditions met; time has passed to its slot and beyond its holds; the
domain issues there, the fetch is clean, and checks 1 and 2 of R184 pass (R178, R179, R184). -/
def chamTurn (c : Nat) (word : W64) (s : State) : Option (CCtx × Nat × State) :=
  let w := word.toNat
  if 24 ≤ c then none
  else match (getC s c).dom, (getC s c).decoded.head? with
  | some d, some y =>
    let x := getC s c
    if x.halted || y.word ≠ w || y.owed || openReq (getD s d) (0x40 + c) 2 y.key then none
    else match toDcc d x.nextSlot s with
    | none => none
    | some s =>
      let s := holdIssue c d w holdTicks s
      let x := getC s c
      if !issuing (getD s d) || chamHeld x (getD s d).dcc w || 0x20000 ≤ x.pc / 8 || y.poison.isSome ||
          nestBad w x.loops || chamReserved w then none
      else some (⟨c, d, w, imageOffset (getD s d) 2 (posOf (0x40 + c)) (8 * x.pc), y.tag.getD 0⟩, (getD s d).dcc,
        setC s c { x with decoded := { y with tag := none, push := false } :: x.decoded.drop 1 })
  | _, _ => none

/-- The state after a Chamois instruction whose effect left `u` and that issued at `slot`: the sequencer goes on
(R181). -/
def chamDone (x : CCtx) (slot : Nat) (u : State) : State := setC u x.c (advanceCham (getC u x.c) x.w slot)

/-- Lane i of a source register of an instruction at its turn, as its 32 bits. -/
def laneIn (t : State) (x : CCtx) (r i : Nat) : Nat := laneBitsOf (readV (getC t x.c) r) i

/-- A poison mark on lane i of a source register. -/
def markIn (t : State) (x : CCtx) (r i : Nat) : Bool := (readV (getC t x.c) r).p.toNat.testBit i

/-- The effect of the instruction `x` from `t` on ends in `u` with one result, on its way to v[VD]: visible `lat` cycles
after the issue, in the lanes that the predicate selects, with the bits and poison marks given; a poisoned predicate bit
poisons its lane (R185, R200). Memory, the other cores and every other register of this core are as before. -/
def VectorResult (x : CCtx) (lat : Nat) (bits : Nat → Nat) (p : Nat → Bool) (t u : State) : Prop :=
  let pr := readPr (getC t x.c) (cvPred x.w)
  ∃ v : VReg,
    getC u x.c = { getC t x.c with
      inFlight := (getC t x.c).inFlight ++ [((getD t x.d).dcc + lat, .v (cvVD x.w) pr.v v)] } ∧
    (∀ i, i < 128 → pr.v.toNat.testBit i = true →
      laneBitsOf v i = bits i ∧ v.p.toNat.testBit i = (p i || pr.p.toNat.testBit i)) ∧
    (∀ k, k ≠ x.c → getC u k = getC t k) ∧ SameMemory t u ∧ u.elands = t.elands ∧ u.doms = t.doms

/-- `P` holds of every Eland instruction of an opcode at its turn: core, needle, word, state before, instruction, slot
and the state in which its effect begins. -/
def ElandAt (op : Nat) (P : Nat → Needle → W128 → State → Ctx → Nat → State → Prop) : Prop :=
  ∀ (c : Nat) (n : Needle) (w : W128) (s : State) (x : Ctx) (slot : Nat) (t : State),
    opcodeOf w.toNat = op → elandTurn c n w s = some (x, slot, t) → P c n w s x slot t

/-- `P` holds of every Chamois instruction of an opcode at its turn. -/
def ChamAt (op : Nat) (P : Nat → W64 → State → CCtx → Nat → State → Prop) : Prop :=
  ∀ (c : Nat) (w : W64) (s : State) (x : CCtx) (slot : Nat) (t : State),
    opcodeOf w.toNat = op → chamTurn c w s = some (x, slot, t) → P c w s x slot t

/-- A message of the session in slot `k` that the server handles anew: it is received whole and accepted, its header is
well formed, its request number is not one of a kept response nor of one that a flush delays, nothing waits for an earlier
response, and no number of the session reaches all ones (R289, R405, R416, R420, R424, R426). -/
def FreshRequest (s : State) (src : SppSrc) (m : SppMsg) (k : Nat) : Prop :=
  serving s = true ∧ src.udpOk = true ∧ acceptedSlot s src m = some k ∧ m.version = 1 ∧ malformed s m = false ∧
    (∀ y ∈ (getSession s k).kept, y.req ≠ m.reqId) ∧ unanswered s k m = false ∧ s.spp.after = [] ∧ m.seq < 2 ^ 64 - 1 ∧
    (getSession s k).tx + 1 < 2 ^ 64 - 1

/-- The session after a request that it answered with `a`. -/
def answered (s : State) (m a : SppMsg) (k : Nat) : Session :=
  let x := getSession s k
  { x with rx := m.seq, lastNs := s.ns, tx := x.tx + 1, kept := (⟨m.reqId, m.type, m.body, a⟩ :: x.kept).take 64 }

/-- The key of the parameter that a command writes, where the command is a write under the readiness of a function. -/
def gateKey : Instr → Option Nat
  | .load d => some (domainCmd d)
  | .run d => some (domainCmd d)
  | .loadRun d => some (domainCmd d)
  | .abort d => some (domainCmd d)
  | .release d => some (domainCmd d)
  | .faultAck _ => some (pk 0x0E00 4)
  | .ptFlush _ => some (pk 0x0812 0)
  | .haltResume _ => some (pk 0x0710 4)
  | .haltFail _ => some (pk 0x0710 4)
  | .dmaStart _ => some (pk 0x0730 5)
  | .nanClear _ => some (pk 0x0D30 7)
  | .monClear _ => some (pk 0x0D60 5)
  | .monTensorWrite _ => some (pk 0x0D60 2)
  | .nanPolicyWrite _ => some (pk 0x0D20 0)
  | .gradFloorWrite _ => some (pk 0x0D10 0)
  | .rngStepWrite strand _ => some (pk 0x0D51 (strand + 1))
  | .stashDomainWrite strand _ => some (pk 0x0853 (strand + 1))
  | .treeConfigWrite t sub _ => some (pk (0x0910 + t) sub)
  | .mcastMembersWrite d g _ => some (pk (0x0920 + d) (g + 1))
  | .cvcConfigWrite c sub _ => some (cvcKey c sub)
  | .registryEntryWrite _ => some (pk 0x0C30 2)
  | .dataStepWrite strand _ => some (pk 0x0C10 (strand + 1))
  | .resumeStepWrite strand _ => some (pk 0x0C20 (strand + 1))
  | .portModeWrite port _ => some (portKey port 1)
  | .targetMhzWrite _ => some (pk 0x0310 1)
  | .serviceClockWrite sub _ => some (pk 0x0312 sub)
  | .startWarm _ => some (pk 0x0402 0)
  | .testAck _ => some (pk 0x0410 8)
  | .attestGenerate _ => some (pk 0x0510 2)
  | .hostkeySlotWrite slot _ => some (pk 0x0520 (slot + 1))
  | .updateData _ => some (pk 0x0540 2)
  | .updateVerify _ => some (pk 0x0540 3)
  | .recordGenerate _ => some (pk 0x1020 2)
  | .sealRequest _ => some (pk 0x1030 2)
  | .sealExecute _ => some (pk 0x1030 3)
  | .versionSelectedWrite _ => some (pk 2 0)
  | .sessionClose _ => some (pk 0x0102 1)
  | _ => none

end Sys2Proof
end

