-- ==== Sys2Proof/WellFormed.lean ====
section
/-!
DEFINITION. Well-formed commands: units that the device has, words that the issuing row can carry, values that fit the
width in which they travel. A word whose opcode is assigned to no row may come to any row, and draws fault 01h there.
-/
namespace Sys2Proof
open Sys2Proof.Machine

/-- A number that fits `k` bits. -/
def fits (k v : Nat) : Bool := decide (v < 2 ^ k)

/-- An integer that fits `k` bits in two's complement. -/
def fitsI (k : Nat) (i : Int) : Bool := decide (-(2 ^ (k - 1) : Int) ≤ i) && decide (i < (2 ^ (k - 1) : Int))

/-- A word that the row of opcode `op` may issue: its own, or one of an opcode that no row has (R127, R183). -/
def wordFor (assigned : List Nat) (op w : Nat) : Bool := opcodeOf w == op || !assigned.contains (opcodeOf w)

/-- The source of a port F write: a tag, or a stream context. -/
def srcWf : PortFSrc → Bool
  | .op tag => decide (tag < 4096)
  | .stream ctx => decide (ctx < 32768)

/-- The value of a tree parameter fits its type (R258). -/
def treeFieldFits (sub v : Nat) : Bool := fits (if sub == 2 then 64 else if sub == 3 || sub == 4 then 32 else 8) v

/-- The Ethernet side of a frame: VIDs are 0 to 4,094 (R451, R459). -/
def Eth.wf (x : Eth) : Bool := fits 48 x.mac && decide (x.vid < 4095) && fits 3 x.pcp

/-- A source address and port. -/
def SppSrc.wf (x : SppSrc) : Bool := fits 128 x.ip && fits 16 x.port && x.eth.wf

/-- A message whose header fields fit their widths, with a TAG of 32 bytes (R417). -/
def SppMsg.wf (m : SppMsg) : Bool :=
  fits 8 m.version && fits 8 m.type && fits 16 m.session && fits 64 m.seq && fits 32 m.reqId && fits 16 m.length &&
    fits 8 m.status && fits 8 m.count && fits 32 m.rsv && m.tag.length == 32

/-- A host memory service message whose header fields fit their widths (R456). -/
def HmsFrame.wf (f : HmsFrame) : Bool :=
  fits 128 f.srcIp && fits 16 f.srcPort && fits 8 f.version && fits 8 f.op && fits 8 f.status && fits 7 f.rsv0 &&
    fits 1 f.restart && fits 32 f.seq && fits 8 f.region && fits 8 f.rsv1 && fits 48 f.offset && fits 32 f.count &&
    fits 48 f.offset2 && fits 16 f.length && fits 32 f.crc && f.eth.wf

/-- A herd frame whose header fields fit their widths (R315). -/
def HerdFrame.wf (f : HerdFrame) : Bool :=
  fits 8 f.version && fits 8 f.type && fits 1 f.last && fits 1 f.twinCopy && fits 1 f.econ && fits 4 f.cvc &&
    fits 16 f.herdId && fits 12 f.srcSeat && fits 12 f.dstSeat && fits 16 f.hop && fits 32 f.collSeq && fits 32 f.window &&
    fits 16 f.chunk && fits 16 f.blocks && fits 32 f.blockOffset && fits 16 f.promoted && fits 64 f.digest

/-- Self-test results that name units of the device (R389). -/
def SelfTest.wf (t : SelfTest) : Bool :=
  (t.array.all (· < 36)) && (t.vector.all (· < 24)) && (t.coreMem.all (· < 60)) && (t.accMem.all (· < 36)) &&
    (t.stop.all (· < 36)) && (t.router.all (· < 64)) && (t.syncNode.all (· < 64)) && (t.hbm.all (· < 8)) &&
    (t.lanes.all (· < 72)) && (t.hbmRepairs.all (fits 32)) && fits 32 t.sramRepairs && fits 32 t.durationMs &&
    fits 32 t.roundTripPs

/-- A command is well formed. -/
def Instr.wf : Instr → Bool
  | .nop c _ w => decide (c < 36) && wordFor elandOps 0x00 w.toNat
  | .halt c _ w => decide (c < 36) && wordFor elandOps 0x01 w.toNat
  | .loop c _ w => decide (c < 36) && wordFor elandOps 0x02 w.toNat
  | .pick c _ w => decide (c < 36) && wordFor elandOps 0x03 w.toNat
  | .part c _ w => decide (c < 36) && wordFor elandOps 0x04 w.toNat
  | .stepI c _ w => decide (c < 36) && wordFor elandOps 0x05 w.toNat
  | .setb c _ w => decide (c < 36) && wordFor elandOps 0x06 w.toNat
  | .tpos c _ w => decide (c < 36) && wordFor elandOps 0x07 w.toNat
  | .sync c _ w => decide (c < 36) && wordFor elandOps 0x08 w.toNat
  | .signal c _ w => decide (c < 36) && wordFor elandOps 0x09 w.toNat
  | .mma c _ w => decide (c < 36) && wordFor elandOps 0x10 w.toNat
  | .accrd c _ w => decide (c < 36) && wordFor elandOps 0x14 w.toNat
  | .act c _ w => decide (c < 36) && wordFor elandOps 0x18 w.toNat
  | .dact c _ w => decide (c < 36) && wordFor elandOps 0x19 w.toNat
  | .cvt c _ w => decide (c < 36) && wordFor elandOps 0x30 w.toNat
  | .amax c _ w => decide (c < 36) && wordFor elandOps 0x31 w.toNat
  | .spush c _ w => decide (c < 36) && wordFor elandOps 0x1C w.toNat
  | .spop c _ w => decide (c < 36) && wordFor elandOps 0x1D w.toNat
  | .inj c _ w => decide (c < 36) && wordFor elandOps 0x20 w.toNat
  | .take c _ w => decide (c < 36) && wordFor elandOps 0x21 w.toNat
  | .tld c _ w => decide (c < 36) && wordFor elandOps 0x24 w.toNat
  | .tst c _ w => decide (c < 36) && wordFor elandOps 0x25 w.toNat
  | .put c _ w => decide (c < 36) && wordFor elandOps 0x28 w.toNat
  | .get c _ w => decide (c < 36) && wordFor elandOps 0x29 w.toNat
  | .rsend c _ w => decide (c < 36) && wordFor elandOps 0x2C w.toNat
  | .cNop c w => decide (c < 24) && wordFor chamoisOps 0x00 w.toNat
  | .cHalt c w => decide (c < 24) && wordFor chamoisOps 0x01 w.toNat
  | .cLoop c w => decide (c < 24) && wordFor chamoisOps 0x02 w.toNat
  | .cStep c w => decide (c < 24) && wordFor chamoisOps 0x05 w.toNat
  | .cSync c w => decide (c < 24) && wordFor chamoisOps 0x08 w.toNat
  | .cSignal c w => decide (c < 24) && wordFor chamoisOps 0x09 w.toNat
  | .add c w => decide (c < 24) && wordFor chamoisOps 0x10 w.toNat
  | .sub c w => decide (c < 24) && wordFor chamoisOps 0x11 w.toNat
  | .and c w => decide (c < 24) && wordFor chamoisOps 0x12 w.toNat
  | .or c w => decide (c < 24) && wordFor chamoisOps 0x13 w.toNat
  | .xor c w => decide (c < 24) && wordFor chamoisOps 0x14 w.toNat
  | .shl c w => decide (c < 24) && wordFor chamoisOps 0x15 w.toNat
  | .shr c w => decide (c < 24) && wordFor chamoisOps 0x16 w.toNat
  | .sra c w => decide (c < 24) && wordFor chamoisOps 0x17 w.toNat
  | .mul c w => decide (c < 24) && wordFor chamoisOps 0x18 w.toNat
  | .slt c w => decide (c < 24) && wordFor chamoisOps 0x19 w.toNat
  | .sltu c w => decide (c < 24) && wordFor chamoisOps 0x1A w.toNat
  | .addi c w => decide (c < 24) && wordFor chamoisOps 0x1B w.toNat
  | .li c w => decide (c < 24) && wordFor chamoisOps 0x1C w.toNat
  | .lih c w => decide (c < 24) && wordFor chamoisOps 0x1D w.toNat
  | .fadd c w => decide (c < 24) && wordFor chamoisOps 0x1E w.toNat
  | .fmul c w => decide (c < 24) && wordFor chamoisOps 0x1F w.toNat
  | .vadd c w => decide (c < 24) && wordFor chamoisOps 0x20 w.toNat
  | .vsub c w => decide (c < 24) && wordFor chamoisOps 0x21 w.toNat
  | .vmul c w => decide (c < 24) && wordFor chamoisOps 0x22 w.toNat
  | .vfma c w => decide (c < 24) && wordFor chamoisOps 0x23 w.toNat
  | .vmac c w => decide (c < 24) && wordFor chamoisOps 0x24 w.toNat
  | .vsmd c w => decide (c < 24) && wordFor chamoisOps 0x25 w.toNat
  | .vmax c w => decide (c < 24) && wordFor chamoisOps 0x26 w.toNat
  | .vmin c w => decide (c < 24) && wordFor chamoisOps 0x27 w.toNat
  | .vabs c w => decide (c < 24) && wordFor chamoisOps 0x28 w.toNat
  | .vneg c w => decide (c < 24) && wordFor chamoisOps 0x29 w.toNat
  | .vdiv c w => decide (c < 24) && wordFor chamoisOps 0x2A w.toNat
  | .vsqrt c w => decide (c < 24) && wordFor chamoisOps 0x2B w.toNat
  | .vrsqrt c w => decide (c < 24) && wordFor chamoisOps 0x2C w.toNat
  | .vfn c w => decide (c < 24) && wordFor chamoisOps 0x2D w.toNat
  | .vcmp c w => decide (c < 24) && wordFor chamoisOps 0x2E w.toNat
  | .vsel c w => decide (c < 24) && wordFor chamoisOps 0x2F w.toNat
  | .viadd c w => decide (c < 24) && wordFor chamoisOps 0x30 w.toNat
  | .visub c w => decide (c < 24) && wordFor chamoisOps 0x31 w.toNat
  | .vimul c w => decide (c < 24) && wordFor chamoisOps 0x32 w.toNat
  | .vand c w => decide (c < 24) && wordFor chamoisOps 0x33 w.toNat
  | .vor c w => decide (c < 24) && wordFor chamoisOps 0x34 w.toNat
  | .vxor c w => decide (c < 24) && wordFor chamoisOps 0x35 w.toNat
  | .vshl c w => decide (c < 24) && wordFor chamoisOps 0x36 w.toNat
  | .vshr c w => decide (c < 24) && wordFor chamoisOps 0x37 w.toNat
  | .vicmp c w => decide (c < 24) && wordFor chamoisOps 0x38 w.toNat
  | .vcvtfi c w => decide (c < 24) && wordFor chamoisOps 0x39 w.toNat
  | .vcvtif c w => decide (c < 24) && wordFor chamoisOps 0x3A w.toNat
  | .vbcast c w => decide (c < 24) && wordFor chamoisOps 0x3B w.toNat
  | .vlane c w => decide (c < 24) && wordFor chamoisOps 0x3C w.toNat
  | .vrsum c w => decide (c < 24) && wordFor chamoisOps 0x3D w.toNat
  | .vrmax c w => decide (c < 24) && wordFor chamoisOps 0x3E w.toNat
  | .pand c w => decide (c < 24) && wordFor chamoisOps 0x40 w.toNat
  | .por c w => decide (c < 24) && wordFor chamoisOps 0x41 w.toNat
  | .pxor c w => decide (c < 24) && wordFor chamoisOps 0x42 w.toNat
  | .pnot c w => decide (c < 24) && wordFor chamoisOps 0x43 w.toNat
  | .vld c w => decide (c < 24) && wordFor chamoisOps 0x48 w.toNat
  | .vst c w => decide (c < 24) && wordFor chamoisOps 0x49 w.toNat
  | .lds c w => decide (c < 24) && wordFor chamoisOps 0x4A w.toNat
  | .sts c w => decide (c < 24) && wordFor chamoisOps 0x4B w.toNat
  | .trd c w => decide (c < 24) && wordFor chamoisOps 0x50 w.toNat
  | .twr c w => decide (c < 24) && wordFor chamoisOps 0x51 w.toNat
  | .sfacc c w => decide (c < 24) && wordFor chamoisOps 0x52 w.toNat
  | .ngath c w => decide (c < 24) && wordFor chamoisOps 0x58 w.toNat
  | .nscat c w => decide (c < 24) && wordFor chamoisOps 0x59 w.toNat
  | .mld c w => decide (c < 24) && wordFor chamoisOps 0x60 w.toNat
  | .mst c w => decide (c < 24) && wordFor chamoisOps 0x61 w.toNat
  | .mput c w => decide (c < 24) && wordFor chamoisOps 0x62 w.toNat
  | .mget c w => decide (c < 24) && wordFor chamoisOps 0x63 w.toNat
  | .mrsend c w => decide (c < 24) && wordFor chamoisOps 0x64 w.toNat
  | .cpush c w => decide (c < 24) && wordFor chamoisOps 0x68 w.toNat
  | .cpop c w => decide (c < 24) && wordFor chamoisOps 0x69 w.toNat
  | .instructionDecode u _ => isCoreUnit u
  | .waitQueueEntry u _ => isCoreUnit u
  | .engineIdle c m h => decide (c < 36) && decide (m < 4) && decide (h < 2)
  | .accrdHoldRelease c m => decide (c < 36) && decide (m < 4)
  | .roundBeatSend stop0 => decide (stop0 < 36)
  | .roundBeatArrive _ stop0 e => decide (stop0 < 36) && decide (e < 5)
  | .roundBeatTake _ stop0 => decide (stop0 < 36)
  | .takeQueueDrain _ stop0 => decide (stop0 < 36)
  | .injectionQueueFill stop0 => decide (stop0 < 36)
  | .portFLineWrite u src => isCoreUnit u && srcWf src
  | .meshTransferComplete u tag => isCoreUnit u && decide (tag < 4096)
  | .stashPushComplete u tag => isCoreUnit u && decide (tag < 4096)
  | .incr p tok => decide (p < 64) && decide (tok < 64)
  | .stallReq d => decide (d < 8)
  | .freeze d => decide (d < 8)
  | .resumeOk d u => decide (d < 8) && isCoreUnit u
  | .resume d => decide (d < 8)
  | .pickReport d c => decide (d < 8) && decide (c < 36)
  | .pickChoice d => decide (d < 8)
  | .fault d => decide (d < 8)
  | .stop d => decide (d < 8)
  | .start d => decide (d < 8)
  | .stallTimeout d => decide (d < 8)
  | .domainDone d => decide (d < 8)
  | .load d => decide (d < 8)
  | .run d => decide (d < 8)
  | .loadRun d => decide (d < 8)
  | .abort d => decide (d < 8)
  | .release d => decide (d < 8)
  | .nanClear arg => fits 64 arg
  | .monClear arg => fits 64 arg
  | .monTensorWrite v => fits 32 v
  | .nanPolicyWrite v => fits 8 v
  | .gradFloorWrite v => fits 8 v
  | .rngStepWrite strand v => decide (strand < 8) && fits 64 v
  | .stashDomainWrite strand v => decide (strand < 8) && fits 8 v
  | .faultAck v => fits 64 v
  | .ptFlush v => fits 64 v
  | .haltResume slot => decide (slot < 256)
  | .haltFail slot => decide (slot < 256)
  | .dmaStart arg => fits 64 arg
  | .dmaTriggerRun ch => decide (ch < 256)
  | .dmaTriggerTime ch => decide (ch < 256)
  | .dmaTriggerCtc ch => decide (ch < 256)
  | .dmaTriggerChannel ch => decide (ch < 256)
  | .dmaNop ch => decide (ch < 256)
  | .dmaHalt ch => decide (ch < 256)
  | .dmaLoop ch => decide (ch < 256)
  | .endloop ch => decide (ch < 256)
  | .wait ch => decide (ch < 256)
  | .dmaSignal ch => decide (ch < 256)
  | .timer ch => decide (ch < 256)
  | .crcstore ch => decide (ch < 256)
  | .move ch => decide (ch < 256)
  | .move2d ch => decide (ch < 256)
  | .dmaTimerExpiry ch => decide (ch < 256)
  | .dmaTransferComplete ch => decide (ch < 256)
  | .windowCurrent x => decide (x < 32768)
  | .windowRelease x => decide (x < 32768)
  | .windowCheck x => decide (x < 32768)
  | .streamRequestIssue x => decide (x < 32768)
  | .windowFilled x p => decide (x < 32768) && decide (p < 64)
  | .storeWindowAcknowledged x => decide (x < 32768)
  | .streamWait x => decide (x < 32768)
  | .hbmRequestService st => decide (st < 8)
  | .hbmRefresh st _ => decide (st < 8)
  | .scrub st => decide (st < 8)
  | .stackTemperatureRead st eighths => decide (st < 8) && fitsI 32 eighths
  | .meshWrite p => decide (p < 64)
  | .meshReadRequest p => decide (p < 64)
  | .meshReadResponse p => decide (p < 64)
  | .meshAcknowledge p => decide (p < 64)
  | .meshReduction p t => decide (p < 64) && decide (t < 16)
  | .meshMulticastWrite p => decide (p < 64)
  | .meshStash p => decide (p < 64)
  | .flitCrcFail p dir => decide (p < 64) && decide (dir < 4)
  | .stretch zone => decide (zone < 16)
  | .marginShortfall zone size => decide (zone < 16) && decide (0 < size) && decide (size < 4)
  | .crossingRecentre za zb => decide (za < 16) && decide (zb < 16)
  | .freq zone => decide (zone < 16)
  | .frequencySwitch => true
  | .targetMhzWrite v => fits 16 v
  | .serviceClockWrite sub0 v => decide (0 < sub0) && decide (sub0 < 4) && fits 16 v
  | .regulatorStepSettled => true
  | .regulatorStepTimeout => true
  | .stretchMarginUpdate _ => true
  | .powerWindowEnd => true
  | .thermalReading readings => readings.all fun r => decide (r.1 < 33)
  | .thermalTrip sensor => decide (sensor < 33)
  | .pwrOkRise => true
  | .pwrOkFall => true
  | .resetLLow _ => true
  | .resetLRelease t => t.wf
  | .functionReady bit _ ms => fits 32 ms && decide (bit < 40)
  | .startWarm arg => fits 64 arg
  | .testAck arg => fits 64 arg
  | .attestGenerate arg => fits 64 arg
  | .attestSigned => true
  | .hostkeySlotWrite slot _ => decide (slot < 4)
  | .updateData _ => true
  | .updateVerify arg => fits 64 arg
  | .open1 src m => src.wf && m.wf
  | .open3 src m => src.wf && m.wf
  | .open3Timeout slot => decide (slot < 8)
  | .access src m => src.wf && m.wf
  | .registerWrite key _ => fits 24 key
  | .subscribe src m => src.wf && m.wf
  | .unsubscribe src m => src.wf && m.wf
  | .close src m => src.wf && m.wf
  | .keepalive src m => src.wf && m.wf
  | .sessionClose arg => fits 64 arg
  | .sessionIdleTimeout slot => decide (slot < 8)
  | .notify sub0 => decide (sub0 < 256)
  | .versionSelectedWrite v => fits 16 v
  | .treeConfigWrite t sub0 v => decide (t < 16) && decide (0 < sub0) && decide (sub0 < 6) && treeFieldFits sub0 v
  | .mcastMembersWrite d g v => decide (d < 8) && decide (g < 4) && fits 64 v
  | .cvcConfigWrite c sub0 _ => decide (c < 16) && decide (0 < sub0) && decide (sub0 < 22)
  | .registryEntryWrite _ => true
  | .dataStepWrite strand v => decide (strand < 8) && fits 64 v
  | .resumeStepWrite strand v => decide (strand < 8) && fits 64 v
  | .portModeWrite port v => decide (port < 17) && fits 8 v
  | .sealRequest _ => true
  | .sealExecute arg => fits 64 arg
  | .recordGenerate arg => fits 64 arg
  | .periodicRecord => true
  | .gaugeSample raw => raw.length == 9
  | .gaugeCommit => true
  | .vddIodFall => true
  | .snapshotPoint d => decide (d < 8)
  | .snapshotDrainEnd d => decide (d < 8)
  | .snapshotPageCopy d e _ => decide (d < 8) && decide (e < 1024)
  | .snapshotMirrorWrite d => decide (d < 8)
  | .snapshotComplete d => decide (d < 8)
  | .snapshotTimeout d => decide (d < 8)
  | .page port f => decide (port < 17) && f.wf
  | .mirror port f => decide (port < 17) && f.wf
  | .refresh port f => decide (port < 17) && f.wf
  | .record port f => decide (port < 17) && f.wf
  | .read port f => decide (port < 17) && f.wf
  | .write port f => decide (port < 17) && f.wf
  | .data port f => decide (port < 17) && f.wf
  | .ack port f => decide (port < 17) && f.wf
  | .nak port f => decide (port < 17) && f.wf
  | .hmsResendTimeout flow => decide (flow < 129)
  | .collectiveStart c => decide (c < 16)
  | .collectiveHopSend c => decide (c < 16)
  | .herdFrame port f => decide (port < 17) && f.wf
  | .windowClose c => decide (c < 16)
  | .windowGraceClose c => decide (c < 16)
  | .collectiveComplete c => decide (c < 16)
  | .pfcFrame port prio quanta => decide (port < 17) && decide (prio < 8) && fits 16 quanta
  | .arpRequest port ip asker => decide (port < 17) && fits 32 ip && asker.wf
  | .neighbourSolicitation port ip asker => decide (port < 17) && fits 128 ip && asker.wf
  | .linkLoss port => decide (port < 17)
  | .retrainAttemptEnd port _ => decide (port < 17)
  | .periodicRetrain port _ => decide (port < 17)
  | .ptpMessage port domain _ => decide (port < 17) && fits 8 domain
  | .ptp1ppsEdge => true
  | .ptpHoldover => true
  | .recordSigned => true
  | .updateWriteComplete => true
  | .updateVerifyComplete => true
  | .pfcPauseExpiry port prio => decide (port < 17) && decide (prio < 8)
  | .linkTrainingEnd port _ => decide (port < 17)
  | .discardedFrame port _ => decide (port < 17)
  | .boundaryScan _ _ _ pins => fits 22 pins
  | .regulatorTelemetryRead readings => readings.length == 9 && readings.all fun r => fits 16 r.1 && fits 16 r.2

end Sys2Proof
end

