-- ==== Sys2Proof/Certificates/Slice0/Obligations.lean ====
section
/-!
DEFINITION. The statements about the machine: what its commands do, where they complete and what they leave alone.
-/
open Sys2Proof Sys2Proof.Machine

/-! ### The machine -/

/-- The step runs the command at the front of the queue: `exec` of it, on the state with the queue's rest.
The model's own readings and choices in it: the log entries 1 and 10. -/
def Obligations.StepRunsFrontCommand : Prop :=
  ∀ (i : Instr) (q : List Instr) (s : State), step { s with pending := i :: q } = exec i { s with pending := q }

/-- With no command waiting the step lets one tick of the compute clock pass: the model's choice (log entry 1). The CTC
counts it while the compute clocks run (the spec's section "Counting time"), and no stored byte is touched while no unit has
work of its own under way. -/
def Obligations.IdleStepTicks : Prop :=
  ∀ (s : State), s.pending = [] →
    ∃ t, step s = .next t ∧ t.pending = [] ∧
      (s.clk.runs = true → quiet s = true → t.ctc = s.ctc + 1 ∧ SameMemory s t ∧ t.par = s.par) ∧
      (s.clk.runs = false → t.ctc = s.ctc ∧ SameMemory s t ∧ t.par = s.par)

/-- Every step keeps stored bytes and stored poison in their canonical form, from whatever state has it. -/
def Obligations.StepKeepsStoresCanonical : Prop :=
  ∀ (s t : State), StoresWf s → step s = .next t → StoresWf t

/-- No command changes the queue it was taken from. -/
def Obligations.CommandsLeaveQueue : Prop :=
  ∀ (i : Instr) (s t : State), exec i s = .next t → t.pending = s.pending

/-- At reset the CTC is 0, every parameter reads its default, no domain holds anything, no core belongs to one, no record
is in the log and no command, packet, stream, session or transfer is under way; stored bytes and stored poison have their
canonical form, every byte of memory reads 0 and no byte is poisoned, as the model reads R308 (log entry 3). -/
def Obligations.ResetValues : Prop :=
  State.reset.ctc = 0 ∧ (∀ k, getP State.reset k = paramDefault k) ∧ getP State.reset (pk 0x0E00 2) = 0 ∧
    (∀ d, (getD State.reset d).st = .empty ∧ (getD State.reset d).dcc = 0) ∧
    (∀ c, (getE State.reset c).domF = none ∧ (getE State.reset c).domB = none ∧ (getC State.reset c).dom = none) ∧
    State.reset.raised = [] ∧ State.reset.pending = [] ∧ State.reset.xfers = [] ∧ State.reset.packets = [] ∧
    State.reset.streams = [] ∧ State.reset.beats = [] ∧ State.reset.halts = [] ∧ State.reset.spp.slots = [] ∧
    StoresWf State.reset ∧ ∀ a, readByte State.reset a = 0 ∧ poisoned State.reset a = false

/-! ### Faults -/

/-- A fault of a domain that is LOADING, RUNNING or PAGE_HALT is raised; of a domain in any other state it writes no
record and increments error.suppressed, nothing else. No FAULT message takes a domain of another state to FAULTED (R223).
The model's own readings and choices in it: the log entry 56. -/
def Obligations.FaultsOnlyInFaultableStates : Prop :=
  (∀ (s : State) (r : Raised) (d : Nat), r.dom = some d →
    ((getD s d).st = .loading ∨ (getD s d).st = .running ∨ (getD s d).st = .pageHalt →
      raise s r = { s with raised := s.raised ++ [r] }) ∧
    (¬ ((getD s d).st = .loading ∨ (getD s d).st = .running ∨ (getD s d).st = .pageHalt) →
      raise s r = incP s (pk 0x0E10 4) 1)) ∧
  (∀ (s t : State) (d e : Nat), exec (.fault d) s = .next t → (getD t e).st = .faulted → (getD s e).st ≠ .faulted →
    (getD s e).st = .loading ∨ (getD s e).st = .running ∨ (getD s e).st = .pageHalt)

/-! ### Number formats -/

/-- E8M0 scales: 00h to FEh encode 2^(v − 127), from 2^−127 to 2^127, FFh encodes NaN; none is zero, negative or an
infinity (R40). -/
def Obligations.E8m0Scales : Prop :=
  (∀ v : Nat, v ≤ 0xFE → e8m0 v = .fin false 1 ((v : Int) - 127)) ∧ e8m0 0xFF = .nan ∧
    e8m0 0 = .fin false 1 (-127) ∧ e8m0 0xFE = .fin false 1 127 ∧
    (∀ v : Nat, v ≤ 0xFF → (e8m0 v).isZero = false ∧ (e8m0 v).neg = false ∧ (e8m0 v).isInf = false)

/-- INT8, INT4 and INT2 elements are the two's complement integers of their packed bits, in their ranges (R36), and BIN
elements are +1 and −1, eight to a byte (R39). The byte and the place of the bits in it are those of R31. -/
def Obligations.IntegerElements : Prop :=
  ∀ (rd : Nat → Byte) (i j : Nat), i < 64 → j < 64 →
    decodeAt 0x09 rd i j = intFV (rd (64 * i + j)).toInt ∧
    decodeAt 0x0A rd i j =
      intFV (((rd (32 * i + j / 2)).toNat >>> (4 * (j % 2)) % 16 : Nat) - if bit (rd (32 * i + j / 2)).toNat (4 * (j % 2) + 3) then 16 else 0) ∧
    decodeAt 0x0B rd i j =
      intFV (((rd (16 * i + j / 4)).toNat >>> (2 * (j % 4)) % 4 : Nat) - if bit (rd (16 * i + j / 4)).toNat (2 * (j % 4) + 1) then 4 else 0) ∧
    decodeAt 0x0D rd i j = (if bit (rd (8 * i + j / 8)).toNat (j % 8) then .fin true 1 0 else .fin false 1 0)

/-- A TERN byte holds five trits as the sum of the digits t + 1 times 3^j, from 0 to 242, and gives them back; trit j of
byte i of a row is its element 5i + j; five zero trits make 121 (R37). -/
def Obligations.TernBytes : Prop :=
  (∀ t : List Int, t.length = 5 → (∀ x ∈ t, x = -1 ∨ x = 0 ∨ x = 1) →
    tritByte (t.map fun x => (x + 1).toNat) =
      (t.getD 0 0 + 1).toNat + (t.getD 1 0 + 1).toNat * 3 + (t.getD 2 0 + 1).toNat * 9 + (t.getD 3 0 + 1).toNat * 27 +
        (t.getD 4 0 + 1).toNat * 81 ∧
    tritByte (t.map fun x => (x + 1).toNat) ≤ 242 ∧
    ∀ j, j < 5 → tritOf (tritByte (t.map fun x => (x + 1).toNat)) j = t.getD j 0) ∧
  (∀ b, b ≤ 242 → tritByte ((List.range 5).map fun j => (tritOf b j + 1).toNat) = b) ∧
  tritByte [1, 1, 1, 1, 1] = 121 ∧
  (∀ (rd : Nat → Byte) (r i j : Nat), r < 64 → j < 5 → 5 * i + j < 64 →
    decodeAt 0x0C rd r (5 * i + j) = intFV (tritOf (rd (13 * r + i)).toNat j))

/-- An FP20 element is decoded from bits [31:12] of its container, bits [11:0] ignored, except that exponent bits FFh with
any of bits [22:0] set are a NaN; the container is little-endian in the image, and a conversion to FP20 writes its bits
[11:0] as zero (R35). -/
def Obligations.Fp20Containers : Prop :=
  (∀ n, n < 2 ^ 32 → eltValue 0x01 n =
    if n / 2 ^ 23 % 2 ^ 8 = 0xFF ∧ n % 2 ^ 23 ≠ 0 then .nan else f32Of (n - n % 2 ^ 12)) ∧
  (∀ (rd : Nat → Byte) (i j : Nat), decodeAt 0x01 rd i j =
    eltValue 0x01 (leNat ((List.range 4).map fun k => rd (4 * (64 * i + j) + k)))) ∧
  (∀ (mode : RMode) (x : FV), (convElt 0x01 mode x).code % 2 ^ 12 = 0)

/-- Every FP32 word that is no NaN is the word of the value it decodes to, and a NaN becomes the canonical NaN; rounding a
decoded word to FP32 changes nothing. -/
def Obligations.Fp32RoundTrip : Prop :=
  ∀ n, n < 2 ^ 32 →
    f32Bits (f32Of n) = (if n / 2 ^ 23 % 2 ^ 8 = 0xFF ∧ n % 2 ^ 23 ≠ 0 then 0x7FC00000 else n) ∧
    f32Bits (roundF32 (f32Of n)) = f32Bits (f32Of n)

/-! ### Eland cores -/

/-- At their turn NOP, LOOP, SETB, TPOS, STEP, SYNC and SIGNAL complete with their effect and nothing else: NOP none; LOOP
with a BODY of 1 to 64 and COUNT from 1 opens its loop as the needle goes on; SETB writes the base register BSEL names;
TPOS with a WIDTH of 64, 128 and so on writes the position register; STEP advances the steps it names and makes the strand
current; SYNC takes COUNT from its counter; SIGNAL sends its increment. In a tick in which nothing has been taken from a
counter yet, SYNC leaves it COUNT lower.
The model's own readings and choices in it: the log entry 11. -/
def Obligations.ElandSequencingCompletes : Prop :=
  ElandAt 0x00 (fun c n w s x slot t => exec (.nop c n w) s = .next (elandDone x slot t)) ∧
  ElandAt 0x02 (fun c n w s x slot t => 1 ≤ loopBody w.toNat → loopBody w.toNat ≤ 64 → 1 ≤ loopCount w.toNat →
    exec (.loop c n w) s = .next (elandDone x slot t)) ∧
  ElandAt 0x06 (fun c n w s x slot t => exec (.setb c n w) s = .next (elandDone x slot (updN t c n fun y =>
    { y with b1 := if fBsel w.toNat = 1 then setbValue w.toNat else y.b1
             b2 := if fBsel w.toNat = 2 then setbValue w.toNat else y.b2
             b3 := if fBsel w.toNat = 3 then setbValue w.toNat else y.b3 }))) ∧
  ElandAt 0x07 (fun c n w s x slot t => 0 < tposWidth w.toNat → tposWidth w.toNat % 64 = 0 →
    exec (.tpos c n w) s = .next (elandDone x slot (updN t c n fun y =>
      { y with width := tposWidth w.toNat, row := tposRow w.toNat, col := tposCol w.toNat }))) ∧
  ElandAt 0x05 (fun c n w s x slot t => exec (.stepI c n w) s = .next (elandDone x slot
    (advanceSteps (updN t c n fun y => { y with strand := stepStrand w.toNat }) (stepStrand w.toNat) (stepData w.toNat)
      (stepRng w.toNat)))) ∧
  ElandAt 0x08 (fun c n w s x slot t => exec (.sync c n w) s = .next (elandDone x slot
    (subTok t c (syncToken w.toNat) (syncCount w.toNat)))) ∧
  (∀ (s : State) (u k n : Nat), (s.tokSubs.find? fun y => y.1 == u * 64 + k) = none →
    getTok (subTok s u k n) u k = getTok s u k - n) ∧
  ElandAt 0x09 (fun c n w s x slot t => exec (.signal c n w) s = .next (elandDone x slot
    { t with incrs := mergeIncr ⟨signalPos w.toNat, signalToken w.toNat, signalIncr w.toNat, posOf c, x.d⟩ t.incrs }))

/-- What these instructions leave alone: NOP, LOOP, SETB, TPOS and SYNC change nothing but their own core; SIGNAL nothing
but its core and the increments on their way, SYNC what its tick has taken from counters beside. The other needle of the core keeps its registers.
The model's own readings and choices in it: the log entry 11. -/
def Obligations.ElandSequencingFrame : Prop :=
  (∀ i ∈ [0x00, 0x02, 0x06, 0x07, 0x08, 0x09], ElandAt i (fun c n w s _ _ t => ∀ u,
    exec (match i with
      | 0x00 => .nop c n w | 0x02 => .loop c n w | 0x06 => .setb c n w | 0x07 => .tpos c n w | 0x08 => .sync c n w
      | _ => .signal c n w) s = .next u →
    (i = 0x02 → 1 ≤ loopBody w.toNat ∧ loopBody w.toNat ≤ 64 ∧ 1 ≤ loopCount w.toNat) →
    (i = 0x07 → 0 < tposWidth w.toNat ∧ tposWidth w.toNat % 64 = 0) →
    OnlyEland c { t with incrs := u.incrs, tokSubs := u.tokSubs } u ∧ (i ≠ 0x09 → u.incrs = t.incrs) ∧
      (i ≠ 0x08 → u.tokSubs = t.tokSubs) ∧
      getN (getE u c) n.other = getN (getE t c) n.other))

/-- PICK parks its needle with its condition and opens a pick for the slot GAP + 1 after it, where its stream, if it names
one, is the core's; HALT halts its needle and, on a core with the other needle parked and of one domain, opens a pick for
the next slot; PART gives the tile indices to the needles where no index in use changes owner.
The model's own readings and choices in it: the log entry 11. -/
def Obligations.ElandPicksComplete : Prop :=
  ElandAt 0x03 (fun c n w s x slot t =>
    (pickStreamEn w.toNat = true → streamAt t (pickStream w.toNat) (posOf c) = true) →
    exec (.pick c n w) s = .next (elandDone x slot (pickIssued
      (updN t c n fun y => { y with st := .parked, cond := pickCondOf w.toNat }) c
      ((getD t x.d).dcc + fGap w.toNat + 1)))) ∧
  ElandAt 0x01 (fun c n w s x slot t =>
    let u := updN t c n fun y => { y with st := .halted, cond := {} }
    exec (.halt c n w) s = .next (elandDone x slot
      (if (getN (getE t c) n.other).st = .parked ∧ (getE t c).shared = false then pickIssued u c ((getD t x.d).dcc + 1)
       else noteFinished u x.d))) ∧
  ElandAt 0x04 (fun c n w s x slot t =>
    (∀ k ∈ busyTiles t c, bit (getE t c).foreTiles k = bit (partTiles w.toNat) k) →
    exec (.part c n w) s = .next (elandDone x slot (setE t c { getE t c with foreTiles := partTiles w.toNat })))

/-- Where a needle stands after an instruction other than LOOP: the next instruction, or inside a loop back at the body's
first with the bases stepped, and one slot and GAP cycles on (two ticks a slot on a shared core); after LOOP at the body's
first with the loop open. What is decoded moves as many slots on as the issue came later than its slot.
The model's own readings and choices in it: the log entries 11 and 23. -/
def Obligations.NeedleAdvances : Prop :=
  ∀ (x : Ctx) (slot : Nat) (u : State),
    let y := getN (getE u x.c) x.n
    let z := getN (getE (elandDone x slot u) x.c) x.n
    z.nextSlot = slot + (if (getE u x.c).shared then 2 else 1) * (fGap x.w + 1) ∧ z.held = none ∧
    z.decoded = laterBy (slot - y.nextSlot) (y.decoded.drop 1) ∧ z.dslot = y.dslot + (slot - y.nextSlot) ∧
    (opcodeOf x.w = 0x02 → z.pc = y.pc + 1 ∧ (z.b1, z.b2, z.b3) = (y.b1, y.b2, y.b3) ∧
      z.loop = some ⟨loopBody x.w, 0, loopCount x.w - 1, loopStep1 x.w, loopStep2 x.w, loopStep3 x.w⟩) ∧
    (opcodeOf x.w ≠ 0x02 → y.loop = none → z.pc = y.pc + 1 ∧ z.loop = none ∧ (z.b1, z.b2, z.b3) = (y.b1, y.b2, y.b3)) ∧
    (∀ l, opcodeOf x.w ≠ 0x02 → y.loop = some l → l.pos + 1 < l.body →
      z.pc = y.pc + 1 ∧ z.loop = some { l with pos := l.pos + 1 } ∧ (z.b1, z.b2, z.b3) = (y.b1, y.b2, y.b3)) ∧
    (∀ l, opcodeOf x.w ≠ 0x02 → y.loop = some l → l.body ≤ l.pos + 1 →
      (z.b1, z.b2, z.b3) = (stepBase y.b1 l.s1, stepBase y.b2 l.s2, stepBase y.b3 l.s3) ∧
      (l.left = 0 → z.pc = y.pc + 1 ∧ z.loop = none) ∧
      (l.left ≠ 0 → z.pc = y.pc + 1 - l.body ∧ z.loop = some { l with pos := 0, left := l.left - 1 }))

/-- At its turn MMA or ACCRD whose issue checks pass completes when its engines have room: an MMA joins the queue of every
engine it names; an ACCRD joins its engine's reads with its addresses, position, steps and policy latched, starts at once
where every earlier read of its domain has taken its last row, and moves the needle's position one tile on. With a queue
full the needle is held on it; a check that fails raises its fault with the instruction as details.
The model's own readings and choices in it: the log entries 11 and 28. -/
def Obligations.EngineInstructionsComplete : Prop :=
  ElandAt 0x10 (fun c n w s x slot t =>
    let full (m : Nat) : Bool :=
      decide (mmaPlaces t c m ≤ queuedOps (getPart (getEng t (4 * c + m)) (halfIdx (mmaHalf w.toNat))))
    (mmaCheck x t = none → ((mmaEngines w.toNat).any full) = false →
      ∃ u, fxMma x t = .ok u ∧ exec (.mma c n w) s = .next (elandDone x slot u)) ∧
    (mmaCheck x t = none → ((mmaEngines w.toNat).any full) = true →
      ∃ u, exec (.mma c n w) s = .next u ∧ (getN (getE u c) n).held = some w.toNat ∧ OnlyEland c t u) ∧
    (∀ f, mmaCheck x t = some f → exec (.mma c n w) s = .next (issueFault t x f))) ∧
  ElandAt 0x14 (fun c n w s x slot t =>
    let e := 4 * c + accEng w.toNat
    let y := getN (getE t c) n
    let go := (getEng t e).reads.all fun r => decide (r.dom ≠ x.d) || r.taken == 64
    let room := go || decide (queuedReads (getEng t e) x.d < readPlaces t c)
    let full := if accPush w.toNat then stashFull t c (accStrand w.toNat) (imageLines (accFmtS w.toNat)) 1 else none
    (accCheck x t = none → full = none → room = true →
      ∃ u r, exec (.accrd c n w) s = .next (elandDone x slot u) ∧ (getEng u e).reads = (getEng t e).reads ++ [r] ∧
        r.dom = x.d ∧ r.needle = n.code ∧ r.tile = accTile w.toNat ∧ r.half = accHalf w.toNat ∧ r.word = w.toNat ∧
        r.dst = x.ea (accDst w.toNat) ∧ r.aux = x.ea (accAux w.toNat) ∧ (r.width, r.row, r.col) = (y.width, y.row, y.col) ∧
        r.step = rngStep t (accStrand w.toNat) ∧ r.pol = nanPolicy t ∧ r.taken = 0 ∧
        r.start = (if go then some (getD t x.d).dcc else none) ∧
        ((getN (getE u c) n).row, (getN (getE u c) n).col) = tilePos y.width 1 (y.row, y.col) ∧
        SameMemory t u ∧ u.par = t.par ∧ u.doms = t.doms) ∧
    (accCheck x t = none → full = none → room = false →
      ∃ u, exec (.accrd c n w) s = .next u ∧ (getN (getE u c) n).held = some w.toNat ∧ OnlyEland c t u) ∧
    (∀ a b, accCheck x t = none → full = some (a, b) →
      exec (.accrd c n w) s = .next (raise t (elandFault t x 5 a b))) ∧
    (∀ f, accCheck x t = some f → exec (.accrd c n w) s = .next (issueFault t x f)))

/-- An MMA with products to form whose engines have nothing waiting, on a core where no MMA without products waits: every
engine it names holds it, to enter one cycle after the engine before it and no sooner than the last of them can, and no byte
of memory, no parameter and no other unit changes.
The model's own readings and choices in it: the log entries 29 and 125. -/
def Obligations.MmaJoinsEngines : Prop :=
  ElandAt 0x10 (fun c n w s x _ t =>
    mmaCheck x t = none → mmaK w.toNat ≠ 0 →
    (∀ m ∈ mmaEngines w.toNat, (getPart (getEng t (4 * c + m)) (halfIdx (mmaHalf w.toNat))).ops = []) →
    (∀ m, m < 4 → ∀ o ∈ (getPart (getEng t (4 * c + m)) (halfIdx (mmaHalf w.toNat))).ops, o.k ≠ 0) →
    ∃ u, exec (.mma c n w) s = .next u ∧
      (∀ m ∈ mmaEngines w.toNat, ∃ op, (getPart (getEng u (4 * c + m)) (halfIdx (mmaHalf w.toNat))).ops = [op] ∧
        op.dom = x.d ∧ op.needle = n.code ∧ op.tile = mmaTile w.toNat ∧ op.k = mmaK w.toNat ∧ op.cont = mmaCont w.toNat ∧
        op.close = mmaClose w.toNat ∧ op.fmtA = mmaFmtA w.toNat ∧ op.fmtB = mmaFmtB w.toNat ∧ op.dir = mmaDir w.toNat ∧
        op.g = min (fmtG (mmaFmtA w.toNat)) (fmtG (mmaFmtB w.toNat)) ∧ op.got = 0 ∧ op.issued = (getD t x.d).dcc ∧
        op.entry = entryShared t c (halfIdx (mmaHalf w.toNat)) (mmaEngines w.toNat) (getD t x.d).dcc +
          (mmaEngines w.toNat).idxOf m) ∧
      (∀ e, (∀ m ∈ mmaEngines w.toNat, e ≠ 4 * c + m) → getEng u e = getEng t e) ∧
      SameMemory t u ∧ u.par = t.par ∧ u.doms = t.doms ∧ u.xfers = t.xfers ∧
      u = { t with elands := u.elands, engines := u.engines, tiles := u.tiles, nextId := u.nextId })

/-- At their turn ACT, CVT, DACT and AMAX whose issue checks pass and whose queue has room join the element unit's
instructions with their addresses, position, strand step and policy latched, start at once where every earlier one of their
domain has read its last row, and move the needle's position past their tiles; nothing else changes. With the queue full
the needle is held; a check that fails raises its fault. AMAX, when its rows have been read, writes the largest magnitude
into bytes 0 to 3 of its destination line, zeros in the rest of the line, and no other byte of memory.
The model's own readings and choices in it: the log entries 11 and 26. -/
def Obligations.ElementInstructionsComplete : Prop :=
  (∀ q ∈ ([(0x18, Instr.act, fun x t => elCheck x t false, fun w => (elSrc w, elDst w, elDst w, elCount w)),
      (0x30, Instr.cvt, fun x t => elCheck x t true, fun w => (elSrc w, elDst w, elDst w, elCount w)),
      (0x19, Instr.dact, dactCheck, fun w => (daG w, daS w, daD w, daCount w)),
      (0x31, Instr.amax, fun x _ => firstFault [(amCount x.w == 0 || !fmtValid (amFmt x.w), 2), (x.addrBad, 0x12)],
        fun w => (amSrc w, amDst w, amDst w, 0))] :
        List (Nat × (Nat → Needle → W128 → Instr) × (Ctx → State → Option Nat) × (Nat → Nat × Nat × Nat × Nat))),
    ElandAt q.1 (fun c n w s x slot t =>
      let f := q.2.2.2 w.toNat
      let e := getE t c
      let y := getN e n
      let go := e.elems.all fun j => decide (j.dom ≠ x.d) || j.next == elemRows j
      let room := go || decide (queuedElems e x.d < elemPlaces e)
      let job : ElemJob :=
        { word := w.toNat, needle := n.code, dom := x.d, offset := x.off, src := x.ea f.1,
          src2 := if q.1 = 0x19 then x.ea f.2.1 else 0, dst := x.ea f.2.2.1, width := y.width, row := y.row, col := y.col,
          strand := y.strand, step := rngStep t y.strand, pol := nanPolicy t, issued := (getD t x.d).dcc,
          start := if go then some (getD t x.d).dcc else none }
      (q.2.2.1 x t = none → room = true → exec (q.2.1 c n w) s = .next (elandDone x slot
        (updN (setE t c { e with elems := e.elems ++ [job] }) c n (nextTiles f.2.2.2)))) ∧
      (q.2.2.1 x t = none → room = false →
        ∃ u, exec (q.2.1 c n w) s = .next u ∧ (getN (getE u c) n).held = some w.toNat ∧ OnlyEland c t u) ∧
      (∀ k, q.2.2.1 x t = some k → exec (q.2.1 c n w) s = .next (issueFault t x k)))) ∧
  (∀ (s : State) (u : Nat) (j : ElemJob), u < 36 → j.dst < 0x30000 →
    coreLine (writeAmax s u j) u j.dst = (BitVec.ofNat 512 j.amax, if j.bad then 1 else 0) ∧
      SameMemoryBut (corePa u (64 * j.dst)) 64 s (writeAmax s u j))

/-- At their turn SPUSH, SPOP, INJ, TAKE, TLD, TST, PUT, GET and RSEND whose checks pass and whose queue has room complete
with their operation under way, on the addresses, counts and tag of the instruction.
The model's own readings and choices in it: the log entry 11. -/
def Obligations.TransferInstructionsComplete : Prop :=
  ElandAt 0x1C (fun c n w s x slot t => spCheck x t = none →
    stashFull t c (spStrand w.toNat) (imageLines (spFmt w.toNat)) (spCount w.toNat) = none →
    exec (.spush c n w) s = .next (elandDone x slot (pushTiles t c n.code x.d x.tag (spStrand w.toNat) (spTag w.toNat)
      (spFmt w.toNat) (spCount w.toNat) (x.ea (spLine w.toNat)) w.toNat x.off))) ∧
  ElandAt 0x1D (fun c n w s x slot t => spCheck x t = none →
    exec (.spop c n w) s = .next (elandDone x slot (popTiles t c n.code x.d x.tag (spStrand w.toNat) (spTag w.toNat)
      (spFmt w.toNat) (spCount w.toNat) (x.ea (spLine w.toNat)) w.toNat x.off none))) ∧
  ElandAt 0x20 (fun c n w s x slot t => injCheck x t = none →
    ((getInj t c).filter fun r => r.dom == x.d && r.filled == 0).length < unitQueue t c 4 →
    exec (.inj c n w) s = .next (elandDone x slot (setInj t c (getInj t c ++ [
      { dom := x.d, needle := n.code, offset := x.off, cw := injCw w.toNat, ccw := injCcw w.toNat,
        trans := injTrans w.toNat, fmt := injFmt w.toNat, depth := injDepth w.toNat, hops := injHops w.toNat,
        src := x.ea (injSrc w.toNat), stride := injStride w.toNat, count := injCount w.toNat, filled := 0, lines := [],
        tile := 0, sent := 0, lead := metaLead (injFmt w.toNat),
        readyAt := (getD t x.d).dcc + injLatency t x.d (injTrans w.toNat) }])))) ∧
  ElandAt 0x21 (fun c n w s x slot t => takeCheck x = none →
    ((getTake t (takeDir w.toNat) c).ops.filter fun o => o.dom == x.d && o.tile == 0 && !o.inTile).length < unitQueue t c 4 →
    exec (.take c n w) s = .next (elandDone x slot (setTake t (takeDir w.toNat) c
      { getTake t (takeDir w.toNat) c with ops := (getTake t (takeDir w.toNat) c).ops ++
          [⟨x.d, n.code, x.off, x.ea (takeDst w.toNat), takeStride w.toNat, takeCount w.toNat, 0, false⟩] }))) ∧
  (∀ st : Bool, ElandAt (if st then 0x25 else 0x24) (fun c n w s x slot t =>
    linesBad (tlLines w.toNat) = false → x.addrBad = false →
    let u := if st then checkLines t c (x.ea (tlLocal w.toNat)) (tlLines w.toNat) x.d else t
    exec (if st then .tst c n w else .tld c n w) s = .next (elandDone x slot (startXfer u
      (longXfer u c n.code x.tag x.d (if st then .tst else .tld) (64 * tlVline w.toNat) (x.ea (tlLocal w.toNat))
        (tlLines w.toNat) (if tlTokenEn w.toNat then some (posOf c, tlToken w.toNat) else none) w.toNat x.off)
      (if st then linesE u c (x.ea (tlLocal w.toNat)) (tlLines w.toNat) else []))))) ∧
  (∀ put : Bool, ElandAt (if put then 0x28 else 0x29) (fun c n w s x slot t =>
    linesBad (puLines w.toNat) = false → x.addrBad = false → targetBad (puPos w.toNat) (puRemote w.toNat) (puLines w.toNat) = false →
    let u := if put then checkLines t c (x.ea (puLocal w.toNat)) (puLines w.toNat) x.d else t
    exec (if put then .put c n w else .get c n w) s = .next (elandDone x slot (startXfer u
      (coreXfer u c n.code x.tag x.d put (puPos w.toNat) (x.ea (puLocal w.toNat)) (puRemote w.toNat) (puLines w.toNat)
        (if puTokenEn w.toNat then some (puToken w.toNat) else none) w.toNat x.off)
      (if put then linesE u c (x.ea (puLocal w.toNat)) (puLines w.toNat) else []))))) ∧
  ElandAt 0x2C (fun c n w s x slot t => linesBad (rsLines w.toNat) = false → x.addrBad = false →
    treeOk t c (rsTree w.toNat) = true →
    let u := checkLines t c (x.ea (rsSrc w.toNat)) (rsLines w.toNat) x.d
    let r := redXfer u c n.code x.tag x.d (rsTree w.toNat) (x.ea (rsSrc w.toNat)) (rsLines w.toNat) w.toNat x.off
    exec (.rsend c n w) s = .next (elandDone x slot (startXfer r.2 r.1
      (linesE r.2 c (x.ea (rsSrc w.toNat)) (rsLines w.toNat)))))

/-! ### Chamois cores -/

/-- s0 reads as zero without poison and p0 as all ones, and a result for either is discarded. -/
def Obligations.FixedRegistersKeepTheirValue : Prop :=
  ∀ (y : Cham), readS y 0 = ⟨0, false⟩ ∧ readPr y 0 = ⟨BitVec.allOnes 128, 0⟩ ∧
    (∀ v, applyCWrite y (.s 0 v) = y) ∧ (∀ m v, applyCWrite y (.p 0 m v) = y) ∧
    (∀ r v, r ≠ 0 → readS (applyCWrite y (.s r v)) r = v) ∧
    (∀ r k v, k ≠ r → readS (applyCWrite y (.s r v)) k = readS y k)

/-- At their turn the Chamois NOP, LOOP, HALT, STEP, SYNC and SIGNAL complete with their effect and nothing else; SYNC where
its stream, if it names one, is the core's. After any instruction the core stands at the next one with its next slot one
cycle on, COUNT more after a NOP; LOOP opens a level; at the end of the innermost body the core goes back or leaves it.
The model's own readings and choices in it: the log entries 11 and 13. -/
def Obligations.ChamoisControlCompletes : Prop :=
  ChamAt 0x00 (fun c w s x slot t => exec (.cNop c w) s = .next (chamDone x slot t)) ∧
  ChamAt 0x02 (fun c w s x slot t => exec (.cLoop c w) s = .next (chamDone x slot t)) ∧
  ChamAt 0x01 (fun c w s x slot t =>
    exec (.cHalt c w) s = .next (chamDone x slot (noteFinished (setC t c { getC t c with halted := true }) x.d))) ∧
  ChamAt 0x05 (fun c w s x slot t =>
    exec (.cStep c w) s = .next (chamDone x slot (advanceSteps t (ccStepStrand w.toNat) (ccStepData w.toNat) (ccStepRng w.toNat)))) ∧
  ChamAt 0x08 (fun c w s x slot t =>
    (ccStreamEn w.toNat = true → streamAt t (ccStream w.toNat) (posOf (0x40 + c)) = true) →
    let u := if ccTokenEn w.toNat then subTok t (0x40 + c) (ccToken w.toNat) (ccCount w.toNat) else t
    exec (.cSync c w) s = .next (chamDone x slot
      (if ccStreamEn w.toNat then takeWindow u (ccStream w.toNat) (getD u x.d).dcc else u))) ∧
  ChamAt 0x09 (fun c w s x slot t => exec (.cSignal c w) s = .next (chamDone x slot
    { t with incrs := mergeIncr ⟨ccSigPos w.toNat, ccSigToken w.toNat, ccSigIncr w.toNat, posOf (0x40 + c), x.d⟩ t.incrs })) ∧
  (∀ (x : CCtx) (slot : Nat) (u : State),
    let y := getC u x.c
    let z := getC (chamDone x slot u) x.c
    z.nextSlot = slot + 1 + (if opcodeOf x.w = 0x00 then ccNopCount x.w else 0) ∧
    z.decoded = laterBy (slot - y.nextSlot) (y.decoded.drop 1) ∧ z.dslot = y.dslot + (slot - y.nextSlot) ∧
    (opcodeOf x.w = 0x02 → z.pc = y.pc + 1 ∧ z.loops = ⟨ccLoopBody x.w, 0, ccLoopCount x.w - 1⟩ :: y.loops) ∧
    (opcodeOf x.w ≠ 0x02 → y.loops = [] → z.pc = y.pc + 1 ∧ z.loops = []) ∧
    (∀ l r, opcodeOf x.w ≠ 0x02 → y.loops = l :: r → l.pos + 1 < l.body →
      z.pc = y.pc + 1 ∧ z.loops = { l with pos := l.pos + 1 } :: r) ∧
    (∀ l r, opcodeOf x.w ≠ 0x02 → y.loops = l :: r → l.body ≤ l.pos + 1 → l.left ≠ 0 →
      z.pc = y.pc + 1 - l.body ∧ z.loops = { l with pos := 0, left := l.left - 1 } :: r) ∧
    (∀ l, opcodeOf x.w ≠ 0x02 → y.loops = [l] → l.body ≤ l.pos + 1 → l.left = 0 → z.pc = y.pc + 1 ∧ z.loops = []))

/-- The scalar instructions (R191): each completes at its turn with one result on its way to s[SD], of the value the rule
gives from the registers at the issue, poisoned where a source is. FADD and FMUL count their NaN operands and the NaNs they make
first. -/
def Obligations.ScalarInstructions : Prop :=
  (∀ q ∈ ([(0x10, Instr.add, fun a b => a + b), (0x11, Instr.sub, fun a b => a - b), (0x12, Instr.and, fun a b => a &&& b),
      (0x13, Instr.or, fun a b => a ||| b), (0x14, Instr.xor, fun a b => a ^^^ b),
      (0x15, Instr.shl, fun a b => a <<< (b.toNat % 64)), (0x16, Instr.shr, fun a b => a >>> (b.toNat % 64)),
      (0x17, Instr.sra, fun a b => a.sshiftRight (b.toNat % 64)), (0x18, Instr.mul, fun a b => a * b),
      (0x19, Instr.slt, fun a b => if a.toInt < b.toInt then 1 else 0),
      (0x1A, Instr.sltu, fun a b => if a.toNat < b.toNat then 1 else 0)] :
        List (Nat × (Nat → W64 → Instr) × (W64 → W64 → W64))),
    ChamAt q.1 (fun c w s x slot t =>
      let a := readS (getC t c) (csSA w.toNat)
      let b := readS (getC t c) (csSB w.toNat)
      ∃ lat, exec (q.2.1 c w) s =
        .next (chamDone x slot (result t c x.d lat (.s (csSD w.toNat) ⟨q.2.2 a.v b.v, a.p || b.p⟩))))) ∧
  ChamAt 0x1B (fun c w s x slot t =>
    let a := readS (getC t c) (csSA w.toNat)
    ∃ lat, exec (.addi c w) s =
      .next (chamDone x slot (result t c x.d lat (.s (csSD w.toNat) ⟨a.v + (w.extractLsb' 26 38).signExtend 64, a.p⟩)))) ∧
  ChamAt 0x1C (fun c w s x slot t =>
    ∃ lat, exec (.li c w) s =
      .next (chamDone x slot (result t c x.d lat (.s (csSD w.toNat) ⟨(w.extractLsb' 26 38).signExtend 64, false⟩)))) ∧
  ChamAt 0x1D (fun c w s x slot t =>
    let a := readS (getC t c) (csSD w.toNat)
    ∃ lat, exec (.lih c w) s =
      .next (chamDone x slot (result t c x.d lat
        (.s (csSD w.toNat) ⟨w.extractLsb' 26 32 ++ a.v.extractLsb' 0 32, a.p⟩)))) ∧
  (∀ q ∈ ([(0x1E, Instr.fadd, addFV, fun a b => addMade (some a) (some b)), (0x1F, Instr.fmul, mulF32, mulMade)] :
      List (Nat × (Nat → W64 → Instr) × (FV → FV → FV) × (FV → FV → Nat))),
    ChamAt q.1 (fun c w s x slot t =>
      let a := readS (getC t c) (csSA w.toNat)
      let b := readS (getC t c) (csSB w.toNat)
      let av := f32Of (a.v.extractLsb' 0 32).toNat
      let bv := f32Of (b.v.extractLsb' 0 32).toNat
      ∃ lat, exec (q.2.1 c w) s =
        .next (chamDone x slot (result
          (countNan (countNan t 1 ([av, bv].filter fun v => v.isNaN).length x.d (0x40 + c)) 2 (q.2.2.2 av bv) x.d (0x40 + c)) c x.d lat
          (.s (csSD w.toNat) ⟨(BitVec.ofNat 32 (f32Bits (q.2.2.1 av bv))).zeroExtend 64, a.p || b.p⟩)))))

/-- A scalar result is the core's alone: nothing else in the machine changes but the core's instruction place and its
results in flight.
The model's own readings and choices in it: the log entry 13. -/
def Obligations.ScalarFrame : Prop :=
  ∀ (x : CCtx) (slot lat : Nat) (t : State) (r : CWrite),
    let u := chamDone x slot (result t x.c x.d lat r)
    OnlyCham x.c t u ∧ (getC u x.c).s = (getC t x.c).s ∧ (getC u x.c).v = (getC t x.c).v ∧ (getC u x.c).p = (getC t x.c).p ∧
      (getC u x.c).tokens = (getC t x.c).tokens ∧ (getC u x.c).jobs = (getC t x.c).jobs ∧
      (getC u x.c).inFlight = (getC t x.c).inFlight ++ [((getD t x.d).dcc + lat, r)]

/-- The floating-point vector instructions of full rate: each participating lane gets the exact result of its operation
rounded once to FP32, or with PK = 1 each half of it rounded once to BF16.
The model's own readings and choices in it: the log entries 11 and 13. -/
def Obligations.VectorFloatLanes : Prop :=
  let out (pk : Bool) (f : List FV → FV) (l : List Nat) : Nat :=
    if pk then halfBits (f (l.map fun n => halfFV n 0)) + halfBits (f (l.map fun n => halfFV n 1)) * 2 ^ 16
    else f32Bits (roundF32 (f (l.map f32Of)))
  (∀ q ∈ ([(0x20, 4, Instr.vadd, fun a b => addExact a b), (0x21, 4, Instr.vsub, fun a b => addExact a b.negate),
      (0x22, 4, Instr.vmul, mulExact), (0x26, 4, Instr.vmax, maxFV), (0x27, 4, Instr.vmin, minFV)] :
        List (Nat × Nat × (Nat → W64 → Instr) × (FV → FV → FV))),
    ChamAt q.1 (fun c w s x slot t => ∃ u, exec (q.2.2.1 c w) s = .next (chamDone x slot u) ∧
      VectorResult x q.2.1
        (fun i => out (cvPK w.toNat) (fun l => q.2.2.2 (opA l) (opB l)) [laneIn t x (cvVA w.toNat) i, laneIn t x (cvVB w.toNat) i])
        (fun i => markIn t x (cvVA w.toNat) i || markIn t x (cvVB w.toNat) i) t u)) ∧
  (∀ q ∈ ([(0x23, 4, Instr.vfma, fun a b d => addExact (mulExact a b) d),
      (0x24, 8, Instr.vmac, fun a b d => addExact d (mulF32 a b)),
      (0x25, 8, Instr.vsmd, fun a b d => mulExact a (addFV b d.negate))] :
        List (Nat × Nat × (Nat → W64 → Instr) × (FV → FV → FV → FV))),
    ChamAt q.1 (fun c w s x slot t => ∃ u, exec (q.2.2.1 c w) s = .next (chamDone x slot u) ∧
      VectorResult x q.2.1
        (fun i => out (cvPK w.toNat) (fun l => q.2.2.2 (opA l) (opB l) (opC l))
          [laneIn t x (cvVA w.toNat) i, laneIn t x (cvVB w.toNat) i, laneIn t x (cvVC w.toNat) i])
        (fun i => markIn t x (cvVA w.toNat) i || markIn t x (cvVB w.toNat) i || markIn t x (cvVC w.toNat) i) t u)) ∧
  (∀ q ∈ ([(0x28, 4, Instr.vabs, FV.abs), (0x29, 4, Instr.vneg, FV.negate)] :
        List (Nat × Nat × (Nat → W64 → Instr) × (FV → FV))),
    ChamAt q.1 (fun c w s x slot t => ∃ u, exec (q.2.2.1 c w) s = .next (chamDone x slot u) ∧
      VectorResult x q.2.1
        (fun i => out (cvPK w.toNat) (fun l => q.2.2.2 (opA l)) [laneIn t x (cvVA w.toNat) i])
        (fun i => markIn t x (cvVA w.toNat) i) t u))

/-- The quarter-rate vector instructions: each participating lane gets the exact quotient, root, reciprocal root or
activation rounded once to FP32, and the quarter-rate unit takes its next operation four cycles later.
The model's own readings and choices in it: the log entries 13 and 15. -/
def Obligations.QuarterRateLanes : Prop :=
  ChamAt 0x2A (fun c w s x slot t => ∃ u, exec (.vdiv c w) s = .next (chamDone x slot u) ∧
    (getC (chamDone x slot u) c).quarter = slot + 4 ∧
    VectorResult x 16 (fun i => f32Bits (roundF32 (divFV (f32Of (laneIn t x (cvVA w.toNat) i)) (f32Of (laneIn t x (cvVB w.toNat) i)))))
      (fun i => markIn t x (cvVA w.toNat) i || markIn t x (cvVB w.toNat) i) t u) ∧
  (∀ q ∈ ([(0x2B, Instr.vsqrt, fun _ v => sqrtFV v), (0x2C, Instr.vrsqrt, fun _ v => rsqrtFV v),
      (0x2D, Instr.vfn, fun w v => activation (cvAux w) v)] : List (Nat × (Nat → W64 → Instr) × (Nat → FV → FV))),
    ChamAt q.1 (fun c w s x slot t => ∃ u, exec (q.2.1 c w) s = .next (chamDone x slot u) ∧
      (getC (chamDone x slot u) c).quarter = slot + 4 ∧
      VectorResult x 16 (fun i => f32Bits (roundF32 (q.2.2 w.toNat (f32Of (laneIn t x (cvVA w.toNat) i)))))
        (fun i => markIn t x (cvVA w.toNat) i) t u))

/-- The integer vector instructions work on 32-bit lanes modulo 2^32, shifts being logical by bits [4:0] of vb's lane;
VCVTIF gives the FP32 of a lane's signed integer, VBCAST the low word of a scalar register, VLANE the lane's number.
The model's own readings and choices in it: the log entries 11 and 13. -/
def Obligations.VectorIntegerLanes : Prop :=
  (∀ q ∈ ([(0x30, Instr.viadd, fun a b => (a + b) % 2 ^ 32), (0x31, Instr.visub, fun a b => (a + 2 ^ 32 - b) % 2 ^ 32),
      (0x32, Instr.vimul, fun a b => a * b % 2 ^ 32), (0x33, Instr.vand, fun a b => a &&& b),
      (0x34, Instr.vor, fun a b => a ||| b), (0x35, Instr.vxor, fun a b => a ^^^ b),
      (0x36, Instr.vshl, fun a b => a * 2 ^ (b % 32) % 2 ^ 32), (0x37, Instr.vshr, fun a b => a / 2 ^ (b % 32))] :
        List (Nat × (Nat → W64 → Instr) × (Nat → Nat → Nat))),
    ChamAt q.1 (fun c w s x slot t => ∃ u, exec (q.2.1 c w) s = .next (chamDone x slot u) ∧
      VectorResult x 4 (fun i => q.2.2 (laneIn t x (cvVA w.toNat) i) (laneIn t x (cvVB w.toNat) i))
        (fun i => markIn t x (cvVA w.toNat) i || markIn t x (cvVB w.toNat) i) t u)) ∧
  ChamAt 0x3A (fun c w s x slot t => ∃ u, exec (.vcvtif c w) s = .next (chamDone x slot u) ∧
    VectorResult x 4 (fun i => f32Bits (roundF32 (intFV (sext 32 (laneIn t x (cvVA w.toNat) i)))))
      (fun i => markIn t x (cvVA w.toNat) i) t u) ∧
  ChamAt 0x3B (fun c w s x slot t => ∃ u, exec (.vbcast c w) s = .next (chamDone x slot u) ∧
    VectorResult x 4 (fun _ => (readS (getC t c) (cvS w.toNat)).v.toNat % 2 ^ 32)
      (fun _ => (readS (getC t c) (cvS w.toNat)).p) t u) ∧
  ChamAt 0x3C (fun c w s x slot t => ∃ u, exec (.vlane c w) s = .next (chamDone x slot u) ∧
    VectorResult x 4 (fun i => i) (fun _ => false) t u)

/-- VCVTFI gives each participating lane the INT32 of its value by RNE or RTZ, held to the limits, 0 for a NaN, which is
counted; where a participating lane holds a NaN and numeric.nan_policy 01h is in force it raises fault 14h with that lane
and writes nothing. VSEL takes va where the predicate bit is 1, vb where it is 0.
The model's own readings and choices in it: the log entries 13 and 16. -/
def Obligations.ConversionAndSelection : Prop :=
  ChamAt 0x39 (fun c w s x slot t =>
    let pr := readPr (getC t c) (cvPred w.toNat)
    let isNan (i : Nat) : Bool := pr.v.toNat.testBit i && (f32Of (laneIn t x (cvVA w.toNat) i)).isNaN
    let nans := (List.range 128).filter isNan
    (nans = [] ∨ nanPolicy t ≠ 1 → ∃ u, exec (.vcvtfi c w) s = .next (chamDone x slot u) ∧
      VectorResult x 4 (fun i => toInt32 (cvAux w.toNat == 1) (f32Of (laneIn t x (cvVA w.toNat) i)))
        (fun i => markIn t x (cvVA w.toNat) i) t u ∧
      getP u (pk 0x0D40 3) = min (getP t (pk 0x0D40 3) + nans.length) (counterMax (pk 0x0D40 3))) ∧
    (∀ i r, nans = i :: r → nanPolicy t = 1 →
      let u := countNan t 1 nans.length x.d (0x40 + c)
      exec (.vcvtfi c w) s = .next (raise u (chamFault u c x.d x.off 0x14 i 0)))) ∧
  ChamAt 0x2F (fun c w s x slot t =>
    let pr := readPr (getC t c) (cvPred w.toNat)
    let pick (i : Nat) : Nat := if pr.v.toNat.testBit i then cvVA w.toNat else cvVB w.toNat
    ∃ v : VReg, exec (.vsel c w) s =
      .next (chamDone x slot (result t c x.d 4 (.v (cvVD w.toNat) (BitVec.allOnes 128) v))) ∧
      ∀ i, i < 128 → laneBitsOf v i = laneIn t x (pick i) i ∧
        v.p.toNat.testBit i = (markIn t x (pick i) i || pr.p.toNat.testBit i))

/-- VCMP and VICMP give each participating lane's predicate bit the comparison that COND names, 0 with a poison mark where
an operand is poisoned; VCMP counts the NaN operands of those lanes. With a NaN operand only NE and UNORD hold, and +0 equals −0; VICMP compares signed INT32.
The model's own readings and choices in it: the log entries 11 and 13. -/
def Obligations.VectorCompares : Prop :=
  (∀ q ∈ ([(0x2E, Instr.vcmp, fpCompare, fun a b => ([f32Of a, f32Of b].filter fun v => v.isNaN).length),
      (0x38, Instr.vicmp, intCompare, fun _ _ => 0)] :
      List (Nat × (Nat → W64 → Instr) × (Nat → Nat → Nat → Bool) × (Nat → Nat → Nat))),
    ChamAt q.1 (fun c w s x slot t =>
      let pr := readPr (getC t c) (cvPred w.toNat)
      let nans := ((List.range 128).filter fun i => pr.v.toNat.testBit i).map fun i =>
        q.2.2.2 (laneIn t x (cvVA w.toNat) i) (laneIn t x (cvVB w.toNat) i)
      ∃ r : PReg, exec (q.2.1 c w) s =
          .next (chamDone x slot (result (countNan t 1 (sumNat nans) x.d (0x40 + c)) c x.d 2 (.p (cvPD w.toNat) pr.v r))) ∧
        ∀ i, i < 128 →
          r.v.toNat.testBit i = (!(markIn t x (cvVA w.toNat) i || markIn t x (cvVB w.toNat) i) &&
            q.2.2.1 (cvCond w.toNat) (laneIn t x (cvVA w.toNat) i) (laneIn t x (cvVB w.toNat) i)) ∧
          r.p.toNat.testBit i = (markIn t x (cvVA w.toNat) i || markIn t x (cvVB w.toNat) i || pr.p.toNat.testBit i))) ∧
  (∀ cond a b, cond ≤ 6 → (f32Of a).isNaN = true ∨ (f32Of b).isNaN = true →
    fpCompare cond a b = decide (cond = 1 ∨ cond = 6)) ∧
  fpCompare 0 0 0x80000000 = true ∧
  (∀ a b, a < 2 ^ 32 → b < 2 ^ 32 →
    let i := (BitVec.ofNat 32 a).toInt
    let j := (BitVec.ofNat 32 b).toInt
    intCompare 0 a b = decide (i = j) ∧ intCompare 1 a b = decide (i ≠ j) ∧ intCompare 2 a b = decide (i < j) ∧
    intCompare 3 a b = decide (i ≤ j) ∧ intCompare 4 a b = decide (j < i) ∧ intCompare 5 a b = decide (j ≤ i))

/-- VRSUM and VRMAX reduce the participating lanes over the balanced tree into s[S]; with no lane they give +0 and
−Infinity, with one lane that lane's value. PAND, POR, PXOR and PNOT combine predicate registers bit by bit, whatever
PRED says.
The model's own readings and choices in it: the log entries 11 and 13. -/
def Obligations.ReductionsAndPredicates : Prop :=
  (∀ q ∈ ([(0x3D, Instr.vrsum, fun a b => (addOpt a b, addMade a b), FV.zero),
      (0x3E, Instr.vrmax, fun a b => (match a, b with
        | none, y => y
        | x, none => x
        | some x, some y => some (maxFV x y), 0), .inf true)] :
        List (Nat × (Nat → W64 → Instr) × (Option FV → Option FV → Option FV × Nat) × FV)),
    ChamAt q.1 (fun c w s x slot t =>
      let pr := readPr (getC t c) (cvPred w.toNat)
      let leaves := (List.range 128).map fun i =>
        if pr.v.toNat.testBit i then some (f32Of (laneIn t x (cvVA w.toNat) i)) else none
      ∃ (u : State) (n : Nat) (p : Bool),
        exec (q.2.1 c w) s = .next (chamDone x slot (result u c x.d 10 (.s (cvS w.toNat) ⟨BitVec.ofNat 64 n, p⟩))) ∧
        n = f32Bits ((redFold q.2.2.1 7 leaves).1.getD q.2.2.2) ∧
        (p = true ↔ ((readV (getC t c) (cvVA w.toNat)).p &&& pr.v) ≠ 0 ∨ pr.p ≠ 0) ∧
        ((∀ i, i < 128 → pr.v.toNat.testBit i = false) → n = f32Bits q.2.2.2) ∧
        (∀ k, k < 128 → (∀ i, i < 128 → pr.v.toNat.testBit i = decide (i = k)) →
          n = f32Bits (f32Of (laneIn t x (cvVA w.toNat) k))) ∧
        u = { t with par := u.par })) ∧
  (∀ q ∈ ([(0x40, Instr.pand, fun a b => a &&& b, true), (0x41, Instr.por, fun a b => a ||| b, true),
      (0x42, Instr.pxor, fun a b => a ^^^ b, true), (0x43, Instr.pnot, fun a _ => ~~~a, false)] :
        List (Nat × (Nat → W64 → Instr) × (W128 → W128 → W128) × Bool)),
    ChamAt q.1 (fun c w s x slot t =>
      let a := readPr (getC t c) (cvPA w.toNat)
      let b := readPr (getC t c) (cvPB w.toNat)
      exec (q.2.1 c w) s = .next (chamDone x slot (result t c x.d 2 (.p (cvPD w.toNat) (BitVec.allOnes 128)
        ⟨q.2.2.1 a.v b.v, if q.2.2.2 then a.p ||| b.p else a.p⟩)))))

/-- VLD, LDS, VST and STS with a clean base register and an address inside the core's memory (LDS and STS a multiple of
8) complete with one access on its way: a load's in the cycle after the issue, a store's two cycles after it, with the bytes
and marks of the registers at the issue. No byte of memory changes at the issue. A load's access makes its result of the
bytes and marks of memory in that cycle, visible four and three cycles later.
The model's own readings and choices in it: the log entries 13 and 32. -/
def Obligations.LoadsAndStores : Prop :=
  let line (t : State) (c w : Nat) : Nat := wrap 64 (((readS (getC t c) (cmSB w)).v.toNat : Int) + cmOff w)
  let word (t : State) (c w : Nat) : Nat := wrap 64 (((readS (getC t c) (cmSB w)).v.toNat : Int) + 8 * cmOff w)
  ChamAt 0x48 (fun c w s x slot t => (readS (getC t c) (cmSB w.toNat)).p = false → line t c w.toNat + 8 ≤ 0x20000 →
    exec (.vld c w) s = .next (chamDone x slot (addJob x .vld 1 1 [line t c w.toNat] id t))) ∧
  ChamAt 0x49 (fun c w s x slot t => (readS (getC t c) (cmSB w.toNat)).p = false → line t c w.toNat + 8 ≤ 0x20000 →
    let pr := readPr (getC t c) (cmPred w.toNat)
    let runs := ((List.range 128).filter fun i => pr.v.toNat.testBit i).map fun i =>
      (64 * line t c w.toNat + 4 * i, (leBytes 4 (laneIn t x (cmReg w.toNat % 32) i)).map fun b =>
        (b, markIn t x (cmReg w.toNat % 32) i || pr.p.toNat.testBit i))
    exec (.vst c w) s = .next (chamDone x slot (addJob x .store 2 1 [] (fun j => { j with runs := runs }) t))) ∧
  ChamAt 0x4A (fun c w s x slot t => (readS (getC t c) (cmSB w.toNat)).p = false → word t c w.toNat % 8 = 0 →
    word t c w.toNat + 8 ≤ 0x800000 →
    exec (.lds c w) s = .next (chamDone x slot (addJob x .lds 1 1 [word t c w.toNat] id t))) ∧
  ChamAt 0x4B (fun c w s x slot t => (readS (getC t c) (cmSB w.toNat)).p = false → word t c w.toNat % 8 = 0 →
    word t c w.toNat + 8 ≤ 0x800000 →
    let v := readS (getC t c) (cmReg w.toNat)
    exec (.sts c w) s = .next (chamDone x slot (addJob x .store 2 1 []
      (fun j => { j with runs := [(word t c w.toNat, (leBytes 8 v.v.toNat).map fun b => (b, v.p))] }) t))) ∧
  (∀ (s : State) (c d dcc a : Nat) (j : CJob), s.errs = [] → j.addrs = [a] →
    (j.kind = .vld → ∃ v : VReg, doJob s c d dcc j = (result s c d 4 (.v (cmReg j.word % 32) (BitVec.allOnes 128) v), none) ∧
      ∀ i, i < 128 →
        laneBitsOf v i = leNat ((List.range 4).map fun k => readByte s (corePa (0x40 + c) (64 * a + 4 * i + k))) ∧
        v.p.toNat.testBit i = ((List.range 4).any fun k => poisoned s (corePa (0x40 + c) (64 * a + 4 * i + k)))) ∧
    (j.kind = .lds → doJob s c d dcc j = (result s c d 3 (.s (cmReg j.word)
      ⟨BitVec.ofNat 64 (leNat ((List.range 8).map fun k => readByte s (corePa (0x40 + c) a + k))),
        (List.range 8).any fun k => poisoned s (corePa (0x40 + c) a + k)⟩), none)))

/-- A store on its way is written at its cycle and not before: a core whose one access ahead it is does nothing until then;
then its bytes are in memory, every byte of memory outside them reads as before, and it is gone.
The model's own readings and choices in it: the log entries 13 and 32. -/
def Obligations.StoresReachMemoryOnce : Prop :=
  (∀ (s : State) (c d dcc : Nat) (j : CJob), (getC s c).jobs = [j] → j.kind = .store →
    (dcc < j.at_ → jobsCycle s c d dcc = s) ∧
    (j.at_ ≤ dcc → jobsCycle s c d dcc =
      setC (j.runs.foldl (fun s r => writeP s (corePa (0x40 + c) r.1) r.2) s) c { getC s c with jobs := [] })) ∧
  (∀ (s : State) (c a : Nat) (runs : List (Nat × List (Byte × Bool))),
    (∀ r ∈ runs, a < corePa (0x40 + c) r.1 ∨ corePa (0x40 + c) r.1 + r.2.length ≤ a) →
    readByte (runs.foldl (fun s r => writeP s (corePa (0x40 + c) r.1) r.2) s) a = readByte s a) ∧
  (∀ (s : State) (c lo k : Nat) (bs : List (Byte × Bool)), k < bs.length →
    readByte (writeP s (corePa (0x40 + c) lo) bs) (corePa (0x40 + c) lo + k) = (bs.getD k (0, false)).1)

/-- TRD with clean address registers and images inside the core's memory completes with its reads on their way, two of a row
pair or sixteen of a column, the first in the cycle after the issue; TWR and SFACC with a clean and well-formed key beside, a
format that passes the gradient floor and, for TWR, no NaN lost under numeric.nan_policy 01h, complete with their accesses on
their way: TWR's one write of a row pair, or its sixteen of a column, from ten cycles after the issue on, SFACC's two reads
from one cycle after it and its write. No byte of memory changes at the issue. A read of a cycle adds the values of its lanes
in FP32, with their marks.
The model's own readings and choices in it: the log entries 13 and 20. -/
def Obligations.BlockUnitCompletes : Prop :=
  ChamAt 0x50 (fun c w s x slot t => ∀ ls, tileLinesC x t = some ls → imageBad (cbFmt w.toNat) ls = false →
    exec (.trd c w) s = .next (chamDone x slot (addJob x .trd 1 (if cbCols w.toNat then 16 else 2) ls id t)) ∧
      SameMemory t (addJob x .trd 1 (if cbCols w.toNat then 16 else 2) ls id t)) ∧
  ChamAt 0x51 (fun c w s x slot t => ∀ ls, tileLinesC x t = some ls → imageBad (cbFmt w.toNat) ls = false →
    (keyOf x t).bad = false → (keyOf x t).p = false → (cbCols w.toNat = true → cbFmt w.toNat < 0x0E) →
    ((keyOf x t).grad = true → floorOk t (cbFmt w.toNat) = true) → nanPolicy t ≠ 1 →
    ∃ u j, exec (.twr c w) s = .next (chamDone x slot u) ∧ SameMemory t u ∧
      (getC u c).jobs = (getC t c).jobs ++ [j] ∧ j.kind = .twr ∧ j.at_ = (getD t x.d).dcc + 10 ∧
      j.count = (if cbCols w.toNat then 16 else 1) ∧ j.addrs = ls ∧ j.tensor = (keyOf x t).tensor ∧
      j.strand = (keyOf x t).strand ∧
      j.vals = (List.range 128).map fun i => (laneIn t x (cbV w.toNat) i, markIn t x (cbV w.toNat) i)) ∧
  ChamAt 0x52 (fun c w s x slot t => ∀ ls, tileLinesC x t = some ls → imageBad 0x16 ls = false → cbFmt w.toNat = 0x16 →
    (keyOf x t).bad = false → (keyOf x t).p = false → ((keyOf x t).grad = true → floorOk t 0x16 = true) →
    ∃ u j, exec (.sfacc c w) s = .next (chamDone x slot u) ∧ SameMemory t u ∧
      (getC u c).jobs = (getC t c).jobs ++ [j] ∧ j.kind = .sfacc ∧ j.at_ = (getD t x.d).dcc + 1 ∧ j.count = 3 ∧
      j.addrs = ls ∧ j.tensor = (keyOf x t).tensor ∧ j.strand = (keyOf x t).strand ∧
      j.vals = (List.range 128).map fun i => (laneIn t x (cbV w.toNat) i, markIn t x (cbV w.toNat) i)) ∧
  (∀ (s : State) (u : Nat) (j : CJob),
    let n := if cbCols j.word then 8 else 64
    let cell (k : Nat) : Nat × Nat × Nat :=
      if cbCols j.word then (j.addrs.getD ((8 * j.pos + k) / 64) 0, (8 * j.pos + k) % 64, cbIdx j.word)
      else (j.addrs.headD 0, 2 * cbIdx j.word + j.pos, k)
    (readLanes s u j).2 = { j with lanes := j.lanes ++ (List.range n).map fun k =>
      (f32Bits (roundF32 (decodeAt (cbFmt j.word) (coreRd s u (cell k).1) (cell k).2.1 (cell k).2.2)),
        poisonAt (cbFmt j.word) (corePz s u (cell k).1) (cell k).2.1 (cell k).2.2) })

/-- NGATH, NSCAT, MLD, MST, MPUT, MGET, MRSEND, CPUSH and CPOP with clean registers, a length from 1 and addresses that pass the
checks complete at their turn with their operation under way; what they read of core memory the mesh unit reads from the cycle
after the issue on.
The model's own readings and choices in it: the log entries 18, 31 and 33. -/
def Obligations.ChamoisTransfersComplete : Prop :=
  (∀ q ∈ ([(0x58, Instr.ngath, XKind.ngath), (0x59, Instr.nscat, XKind.nscat)] : List (Nat × (Nat → W64 → Instr) × XKind)),
    ChamAt q.1 (fun c w s x slot t =>
      let sb := readS (getC t c) (cnSB w.toNat)
      let st := readS (getC t c) (cnSS w.toNat)
      let sl := readS (getC t c) (cnSL w.toNat)
      sb.p = false → st.p = false → sl.p = false → sb.v.toNat % 32 = 0 → st.v.toNat % 32 = 0 → sl.v.toNat % 32 = 0 →
      sl.v.toNat + 32 * ((cnCount1 w.toNat + 1) * (cnGran1 w.toNat + 1)) ≤ 0x800000 →
      let gs := granulesOf w.toNat (readV (getC t c) (cnVI w.toNat)) sb.v.toNat st.v.toNat sl.v.toNat
      let f : Xfer := ⟨0x40 + c, 2, x.tag, x.d, q.2.2, gs.length, 0, 0, 0, 0, 0, 0,
        if cnTokenEn w.toNat then some (posOf (0x40 + c), cnToken w.toNat) else none, gs, [], none, w.toNat, x.off, t.ctc⟩
      exec (q.2.1 c w) s = .next (chamDone x slot
        (if q.1 = 0x59 then meshJob x gs.length (gs.map (·.2)) (addXfer t f) else startXfer t f [])))) ∧
  (∀ q ∈ ([(0x60, Instr.mld, XKind.tld), (0x61, Instr.mst, XKind.tst)] : List (Nat × (Nat → W64 → Instr) × XKind)),
    ChamAt q.1 (fun c w s x slot t =>
      let sl := readS (getC t c) (ctSL w.toNat)
      let rr := readS (getC t c) (ctSR w.toNat)
      let sn := readS (getC t c) (ctSN w.toNat)
      sl.p = false → rr.p = false → sn.p = false → sn.v.toNat ≠ 0 → localBad sl.v.toNat sn.v.toNat = false → rr.v.toNat % 64 = 0 →
      let f := longXfer t (0x40 + c) 2 x.tag x.d q.2.2 rr.v.toNat sl.v.toNat sn.v.toNat
        (if ctTokenEn w.toNat then some (posOf (0x40 + c), ctToken w.toNat) else none) w.toNat x.off
      exec (q.2.1 c w) s = .next (chamDone x slot
        (if q.1 = 0x61 then meshJob x sn.v.toNat [sl.v.toNat] (addXfer t f) else startXfer t f [])))) ∧
  (∀ q ∈ ([(0x62, Instr.mput, true), (0x63, Instr.mget, false)] : List (Nat × (Nat → W64 → Instr) × Bool)),
    ChamAt q.1 (fun c w s x slot t =>
      let sl := readS (getC t c) (ctSL w.toNat)
      let rr := readS (getC t c) (ctSR w.toNat)
      let sn := readS (getC t c) (ctSN w.toNat)
      sl.p = false → rr.p = false → sn.p = false → sn.v.toNat ≠ 0 → localBad sl.v.toNat sn.v.toNat = false →
      targetBad (ctPos w.toNat) rr.v.toNat sn.v.toNat = false →
      let f := coreXfer t (0x40 + c) 2 x.tag x.d q.2.2 (ctPos w.toNat) sl.v.toNat rr.v.toNat sn.v.toNat
        (if ctTokenEn w.toNat then some (ctToken w.toNat) else none) w.toNat x.off
      exec (q.2.1 c w) s = .next (chamDone x slot
        (if q.2.2 then meshJob x sn.v.toNat [sl.v.toNat] (addXfer t f) else startXfer t f [])))) ∧
  ChamAt 0x64 (fun c w s x slot t =>
    let sl := readS (getC t c) (ctSL w.toNat)
    let sn := readS (getC t c) (ctSN w.toNat)
    sl.p = false → sn.p = false → sn.v.toNat ≠ 0 → localBad sl.v.toNat sn.v.toNat = false →
    treeOk t (0x40 + c) (ctTree w.toNat) = true →
    let r := redXfer t (0x40 + c) 2 x.tag x.d (ctTree w.toNat) sl.v.toNat sn.v.toNat w.toNat x.off
    exec (.mrsend c w) s = .next (chamDone x slot (meshJob x sn.v.toNat [sl.v.toNat] (addXfer r.2
      { r.1 with tok := if ctTokenEn w.toNat then some (posOf (0x40 + c), ctToken w.toNat) else none })))) ∧
  (∀ q ∈ ([true, false] : List Bool), ChamAt (if q then 0x68 else 0x69) (fun c w s x slot t =>
    let sl := readS (getC t c) (ckSL w.toNat)
    let sk := readS (getC t c) (ckSK w.toNat)
    let n := imageLines (ckFmt w.toNat)
    sl.p = false → sk.p = false → sk.v.toNat < 2 ^ 16 →
    localBad sl.v.toNat (ckCount w.toNat * n) = false → ownsStrand t x.d (ckStrand w.toNat) = true →
    (q = true → stashFull t (0x40 + c) (ckStrand w.toNat) n (ckCount w.toNat) = none) →
    exec (if q then .cpush c w else .cpop c w) s = .next (chamDone x slot
      (if q then meshJob x (ckCount w.toNat * n) [sl.v.toNat]
          (beginPush (notePush t (0x40 + c) (ckStrand w.toNat) n (ckCount w.toNat)) (0x40 + c) 2 x.d x.tag (ckStrand w.toNat)
            sk.v.toNat (ckFmt w.toNat) (dataStep t (ckStrand w.toNat)) w.toNat x.off (ckCount w.toNat) .spush)
       else popTiles t (0x40 + c) 2 x.d x.tag (ckStrand w.toNat) sk.v.toNat (ckFmt w.toNat) (ckCount w.toNat)
          sl.v.toNat w.toNat x.off
          (if ckTokenEn w.toNat then some (posOf (0x40 + c), ckToken w.toNat) else none)))))

/-! ### Sequencers, engines and the Round -/

/-- A needle that decodes completes the decode of its next instruction: in the tick of the choice that made it active where
the instruction's decode point is past by then, else at the point 64 slots before its slot, to which time moves on. The
instruction joins those decoded with the word and poison as fetched, its place and its slot, and after a sequencing
instruction that changes no loop the needle decodes the next place, one slot and GAP later. A Chamois core decodes at that
point too, unless a HALT is decoded.
The model's own readings and choices in it: the log entries 22 and 23. -/
def Obligations.DecodeCompletes : Prop :=
  (∀ (u : Nat) (n : Needle) (s : State) (d from_ : Nat), u < 36 → domN (getE s u) n = some d →
    (getN (getE s u) n).decFrom = some from_ → (getD s d).st.runs = true →
    let x := getN (getE s u) n
    (from_ = s.ctc → horizonMet s d x.dslot = true → exec (.instructionDecode u n) s = .next (decodeNext s u n d)) ∧
    (∀ t, (from_ ≠ s.ctc ∨ horizonMet s d x.dslot = false) → horizonPast s d x.dslot = false → x.held = none →
      toHorizon s d x.dslot = some t → decoding t d = true →
      exec (.instructionDecode u n) s = .next (decodeNext t u n d))) ∧
  (∀ (u : Nat) (n : Needle) (s : State) (d : Nat), u < 36 →
    let x := getN (getE s u) n
    let f := nextFetched (if fetches x then checkRange s (corePa u (16 * x.dpc)) 16 (some d) else s) u x
    ∃ y, (getN (getE (decodeNext s u n d) u) n).decoded = x.decoded ++ [y] ∧
      y.word = f.word ∧ y.poison = f.poison ∧ y.idx = x.dpc ∧ y.slot = x.dslot ∧
      (opcodeOf f.word = 0 → x.dloop = none → (getN (getE (decodeNext s u n d) u) n).dpc = x.dpc + 1 ∧
        (getN (getE (decodeNext s u n d) u) n).dslot = x.dslot + slotTicks (getE s u) * (fGap f.word + 1)) ∧
      (∀ k, k ≠ u → getE (decodeNext s u n d) k = getE s k)) ∧
  (∀ (c : Nat) (n : Needle) (s t : State) (d : Nat), c < 24 → (getC s c).dom = some d → (getC s c).halted = false →
    (getD s d).st.runs = true → (∀ y ∈ (getC s c).decoded, opcodeOf y.word ≠ 1) → horizonPast s d (getC s c).dslot = false →
    toHorizon s d (getC s c).dslot = some t → decoding t d = true →
    exec (.instructionDecode (0x40 + c) n) s = .next (decodeNextC t c d) ∧
    ∃ y, (getC (decodeNextC t c d) c).decoded = (getC t c).decoded ++ [y] ∧ y.idx = (getC t c).dpc ∧
      y.slot = (getC t c).dslot)

/-- The instruction at the head of a needle that a full unit queue holds tries its queue again, as the instruction that it
is: with room it issues, and while there is none one slot of the needle passes.
The model's own readings and choices in it: the log entry 11. -/
def Obligations.HeldNeedleIssuesAgain : Prop :=
  (∀ (c : Nat) (n : Needle) (s : State) (w : W128), c < 36 → (getN (getE s c) n).held = some w.toNat →
    let r := updN s c n fun x => { x with held := none }
    ∀ q ∈ ([(0x10, .mma), (0x14, .accrd), (0x18, .act), (0x19, .dact), (0x20, .inj), (0x21, .take), (0x30, .cvt),
        (0x31, .amax)] : List (Nat × (Nat → Needle → W128 → Instr))),
      opcodeOf w.toNat = q.1 →
      (∀ t, exec (q.2 c n w) r = .next t → (getN (getE t c) n).held = none →
        exec (.waitQueueEntry c n) s = .next t) ∧
      (∀ t, exec (q.2 c n w) r = .next t → (getN (getE t c) n).held ≠ none →
        exec (.waitQueueEntry c n) s = .next (advance (slotTicks (getE t c)) t))) ∧
  (∀ (c : Nat) (n : Needle) (s : State) (w : W128) (x : Ctx) (slot : Nat) (t : State), c < 36 →
    (getN (getE s c) n).held = some w.toNat → opcodeOf w.toNat = 0x10 →
    elandTurn c n w (updN s c n fun x => { x with held := none }) = some (x, slot, t) →
    mmaCheck x t = none → (getN (getE t c) n).held = none →
    (∀ m ∈ mmaEngines w.toNat,
      queuedOps (getPart (getEng t (4 * c + m)) (halfIdx (mmaHalf w.toNat))) < mmaPlaces t c m) →
    ∃ u, exec (.waitQueueEntry c n) s = .next (elandDone x slot u))

/-- An MMA enters its first chunk 3 cycles after its issue where the part has work, and 3, 4 or 8 cycles after it on an idle
engine, for a ramp of 16, 32 or 64 cycles; the first engine of an MMA passes over a beat that reaches it before the entry
cycle, but for the metadata that the beat carries. ENGINE_IDLE of a part with no MMA makes it idle 64 cycles after its last
push or close, where it was not. ACCRD_HOLD_RELEASE brings the time to the cycle in which the last earlier MMA of a held
read's tile has completed the read's next row, once none of them has chunks to come.
The model's own readings and choices in it: the log entries 28, 124 and 125. -/
def Obligations.EngineEventsComplete : Prop :=
  (∀ (s : State) (p : EngPart) (n issue : Nat), p.ops ≠ [] → entryAlone s p n issue = 3) ∧
  (∀ (s : State) (p : EngPart) (issue : Nat), p.ops = [] → p.busy = 0 →
    (getP s (pk 0x0203 0) = 16 → entryAlone s p 8 issue = 3) ∧ (getP s (pk 0x0203 0) = 32 → entryAlone s p 8 issue = 4) ∧
    (getP s (pk 0x0203 0) = 64 → entryAlone s p 8 issue = 8)) ∧
  (∀ (u m h : Nat) (s : State) (b : Beat) (op : Mma) (rest : List Mma), (getPart (getEng s (4 * u + m)) h).ops = op :: rest →
    op.opened = false → op.lead = true → b.at_ < op.entry →
    partBeat s u m h b = updPart s (4 * u + m) h fun p => { p with banks := stepBanks p.banks b }) ∧
  (∀ (c m h : Nat) (s t : State), c < 36 → m < 4 → h < 2 → (h = 1 → bit (getEng s (4 * c + m)).part 31 = true) →
    let p := getPart (getEng s (4 * c + m)) h
    p.ops = [] → p.idle = false → whenRuns s (partDom (getEng s (4 * c + m)).part h) (p.busy + 64) = some t →
    exec (.engineIdle c m h) s = .next (setEng t (4 * c + m) (setPart (getEng t (4 * c + m)) h
      { getPart (getEng t (4 * c + m)) h with
        idle := true, rampAt := (getPart (getEng t (4 * c + m)) h).busy + 64 }))) ∧
  (∀ (c m : Nat) (s t : State) (r : AccRead), c < 36 → m < 4 →
    let x := getEng s (4 * c + m)
    let p := getPart x (halfIdx r.half)
    let ends := ((p.waves.filter fun w => w.op.tile == r.tile && decide (w.op.id < r.id) && decide (r.taken ≤ w.m1)).map
      fun w => w.at_ + r.taken + w.n1).foldl max 0
    heldRead x (fun d => (getD s d).dcc) = some r → (∀ o ∈ p.ops, o.tile = r.tile → r.id ≤ o.id) →
    toDcc r.dom (max ends ((getD s r.dom).dcc + 1)) s = some t →
    exec (.accrdHoldRelease c m) s = .next t ∧ ends ≤ (getD t r.dom).dcc)

/-- The events of the Round. The injection unit reads the next line of a run of the domain whose turn it is, with one mark for
the line. A run sends its next beats in the first cycle in which its domain owns the phase of every link they would enter and
no beat of the domain passes the stop. A beat reaches each engine of a stop one cycle after the one before and feeds it, and
then leaves the stop, past the take unit, to the next stop, in a phase of its domain, or for good; one of a domain with a fault
is removed and delivers nothing. The oldest taken beat of a domain that goes on is written into its tile image and nowhere else.
The model's own readings and choices in it: the log entries 35, 36, 37, 38, 122 and 123. -/
def Obligations.RoundEventsComplete : Prop :=
  (∀ (stop d : Nat) (s : State) (a b : List InjRun) (r : InjRun), stop < 36 → fillDom s stop = some d →
    nextFill d (getInj s stop) = some (a, r, b) →
    let line := r.src + r.filled / imageLines r.fmt * tileStep r.stride r.fmt + r.filled % imageLines r.fmt
    let t := checkLines s stop line 1 d
    exec (.injectionQueueFill stop) s =
      .next (setInj t stop (a ++ { r with filled := r.filled + 1, lines := r.lines ++ [oneMark (lineE t stop line)] } :: b))) ∧
  (∀ (stop d k : Nat) (s u : State) (r : InjRun) (a rest : List InjRun), stop < 36 → sendDom s stop = some (d, k) →
    firstRun d (getInj s stop) = some (a, r, rest) →
    let at_ := (getD s d).dcc + k
    let r' := { r with lines := (readBuffer u stop 0 0x89 d r.lines).1 }
    toDcc d at_ s = some u →
    r.readyAt ≤ at_ ∧
    (∀ dir ∈ runDirs r,
      phaseOk (phaseTable s stop dir) d
        (s.ctc + max r.readyAt (getD s d).dcc - (getD s d).dcc + (at_ - max r.readyAt (getD s d).dcc) + crossing s stop) = true ∧
      ∀ y ∈ s.beats, y.dom = d → y.dir = dir → beatEnters s y stop ≠ some at_) ∧
    ∃ v, exec (.roundBeatSend stop) s = .next v ∧ SameMemory u v ∧
      v.beats = u.beats ++ (runDirs r).map (fun dir => runBeat r' stop dir at_) ∧
      getInj v stop = a ++ afterSend r' rest (at_ + 1)) ∧
  (∀ (d : Dir) (stop e : Nat) (s t : State) (b : Beat) (others : List Beat), stop < 36 → e < 4 →
    beatAt s d stop e = some (b, others) → toDcc b.dom b.at_ s = some t →
    (failing t b.dom = true → exec (.roundBeatArrive d stop e) s = .next { t with beats := others }) ∧
    (failing t b.dom = false → exec (.roundBeatArrive d stop e) s = .next (engineBeat { t with beats := others ++ [{ b with
      eng := e + 1, at_ := b.at_ + 1, starts := b.starts ++ engineStarts t stop (engineAt e d) b }] } stop (engineAt e d) b))) ∧
  (∀ (d : Dir) (stop : Nat) (s t : State) (b : Beat) (others : List Beat), stop < 36 → beatAt s d stop 4 = some (b, others) →
    toDcc b.dom b.at_ s = some t →
    let s' := { t with beats := others }
    let takes := (takeFor (getTake s d stop) b).isSome
    (failing t b.dom = true → exec (.roundBeatArrive d stop 4) s = .next s' ∧
      (takes = true → exec (.roundBeatTake d stop) s = .next s')) ∧
    (failing t b.dom = false → fenced t stop = false → moveOn s' b = none →
      exec (.roundBeatArrive d stop 4) s = .next (takeBeat s' b.stop b) ∧
      (takes = true → exec (.roundBeatTake d stop) s = .next (takeBeat s' b.stop b))) ∧
    (∀ b' k, failing t b.dom = false → fenced t stop = false → moveOn s' b = some b' →
      phaseWait s' [phaseTable s' b.stop b.dir] b.dom b.at_ = some k →
      ∃ v, exec (.roundBeatArrive d stop 4) s = .next v ∧
        v.beats = (takeBeat s' b.stop b).beats ++ [{ b' with at_ := b'.at_ + k }] ∧
        (takes = true → exec (.roundBeatTake d stop) s = .next v))) ∧
  (∀ (d : Dir) (stop : Nat) (s : State) (x : TakenBeat) (rest : List TakenBeat), stop < 36 →
    takeFirst (fun x : TakenBeat => !frozen s x.beat.dom) (getTake s d stop).queue = some (x, rest) →
    x.dst + imageLines x.beat.fmt ≤ 0x30000 → s.fLines = [] →
    let t := setTake s d stop { getTake s d stop with queue := rest }
    exec (.takeQueueDrain d stop) s = .next (drainBeat t stop x) ∧
    ((x.beat.beat + 1) * 2 ^ x.beat.depth ≤ 64 →
      SameMemoryBut (corePa stop (64 * x.dst)) (64 * imageLines x.beat.fmt) s (drainBeat t stop x)))

/-! ### Mesh, ports F and the Stash -/

/-- A packet that reaches its destination, the next of its source, destination and channel, takes its effect there. A stack
queues writes and read requests. A live core stores a write's data, sends the token that the write carries and answers with an
acknowledge; a fenced core and a stopped domain store nothing and answer all the same. A core answers a request with the lines
that it reads, a fenced one with poison. A response delivers to its owner, an acknowledge counts, and a multicast packet is
delivered where it has reached a member and goes on along its branches.
The model's own readings and choices in it: the log entries 39 and 40. -/
def Obligations.MeshPacketsComplete : Prop :=
  (∀ (p : Nat) (s : State) (k : Packet) (rest : List Packet), p < 64 → packetAt s 0 p = some (k, rest) →
    let t := crossed { s with packets := rest } k.src p
    (atStack t k.pa = true → exec (.meshWrite p) s = .next (enqueueReq t k)) ∧
    (atStack t k.pa = false → posFenced t p = true → exec (.meshWrite p) s =
      .next (incP (sendPacket t (answer k 3 1 [])) (pk 0x0902 3) 1)) ∧
    (atStack t k.pa = false → posFenced t p = false → stopped t k.dom = true →
      exec (.meshWrite p) s = .next (sendPacket t (answer k 3 1 []))) ∧
    (atStack t k.pa = false → posFenced t p = false → stopped t k.dom = false →
      exec (.meshWrite p) s = .next (sendPacket (match k.tok with
        | some (q, c) => sendIncr (storeAt t k.pa k.data) k.src k.dom q c 1
        | none => storeAt t k.pa k.data) (answer k 3 1 [])) ∧
      ∀ q off u, regionOf t k.pa = .core q off → unitAt q = some u → ∀ a,
        (a < corePa u (64 * (off / 64)) ∨ corePa u (64 * (off / 64)) + 64 * k.data.length ≤ a) →
        readByte (storeAt t k.pa k.data) a = readByte t a)) ∧
  (∀ (p : Nat) (s : State) (k : Packet) (rest : List Packet), p < 64 → packetAt s 1 p = some (k, rest) →
    let t := crossed { s with packets := rest } k.src p
    (atStack t k.pa = true → exec (.meshReadRequest p) s = .next (enqueueReq t k)) ∧
    (atStack t k.pa = false → posFenced t p = true →
      exec (.meshReadRequest p) s = .next (sendPacket t (replyTo k (replyVc k) (poisonLines k.n)))) ∧
    (atStack t k.pa = false → posFenced t p = false →
      let t' := checkRange t k.pa (64 * k.n) (some k.dom)
      exec (.meshReadRequest p) s = .next (sendPacket t' (replyTo k (replyVc k)
        ((List.range k.n).map fun i => plineOf (readPhys t' (k.pa + 64 * i) 64)))))) ∧
  (∀ (p : Nat) (s : State) (k : Packet) (rest : List Packet), p < 64 → packetAt s 2 p = some (k, rest) →
    exec (.meshReadResponse p) s = .next (pumpWaiting (deliver (crossed { s with packets := rest } k.src p) k))) ∧
  (∀ (p : Nat) (s : State) (k : Packet) (rest : List Packet), p < 64 → packetAt s 3 p = some (k, rest) →
    exec (.meshAcknowledge p) s = .next (pumpWaiting (acknowledged (crossed { s with packets := rest } k.src p) p k))) ∧
  (∀ (p : Nat) (s : State) (k : Packet) (rest : List Packet), p < 64 → packetAt s 5 p = some (k, rest) →
    let s' := { s with packets := rest }
    let here := reachedAt s' k p
    let t := if here then mcastDeliver s' k p else s'
    let bs := branches t k p (k.members.filter fun m => !(here && m == p))
    ∃ u, exec (.meshMulticastWrite p) s = .next u ∧ SameMemory t u ∧ u.arrivals = t.arrivals ∧
      u.packets = t.packets ++ bs.map fun b => { k with dst := b.1.1, leg := b.1.2.1, via := b.1.2.2, members := b.2 })

/-- A line that waits at port F is written, of an operation or a stream whose domain goes on, and counts; no other byte of
memory changes. An operation whose last line is written or acknowledged gives up its tag and sends its token, but for a PUT,
whose last packet carries it; a push whose entries have all arrived gives up its slot and tag. A complete Stash message that is
next on its lane reaches it where its domain owns the strand. A reduction router whose expected inputs have all supplied their
flit combines it and sends it on, or lands it at the root. A failed flit check is counted and the flit resent.
The model's own readings and choices in it: the log entries 39 and 40. -/
def Obligations.TransferEventsComplete : Prop :=
  (∀ (u : Nat) (src : PortFSrc) (s : State) (a : Arrival) (rest : List Arrival), isCoreUnit u = true →
    takeFirst (fromSrc u src) s.arrivals = some (a, rest) →
    exec (.portFLineWrite u src) s = .next (portFWrite { s with arrivals := rest } a) ∧
    (∀ v tag x, a.owner = .op v tag → findXfer s v tag = some x → stopped s x.dom = false →
      (∀ i, i < 64 → readByte (portFWrite { s with arrivals := rest } a) (corePa a.unit (64 * a.line + i)) =
        (lineBytes a.data.1).getD i 0) ∧
      (portFWrite { s with arrivals := rest } a).xfers =
        s.xfers.map fun x => if x.unit == v && x.tag == tag then { x with done := x.done + 1 } else x) ∧
    (∀ c win, a.owner = .stream c win → ((getStream s c).st = 1 ∨ (getStream s c).st = 2) →
      stopped s (getStream s c).dom = false →
      (∀ i, i < 64 → readByte (portFWrite { s with arrivals := rest } a) (corePa a.unit (64 * a.line + i)) =
        (lineBytes a.data.1).getD i 0) ∧
      SMap.get 0 (getStream (portFWrite { s with arrivals := rest } a) c).got (win * 64 + posOf a.unit) =
        SMap.get 0 (getStream s c).got (win * 64 + posOf a.unit) + 1)) ∧
  (∀ (s : State) (a : Arrival), SameMemoryBut (corePa a.unit (64 * a.line)) 64 s (portFWrite s a)) ∧
  (∀ (u tag : Nat) (s : State) (x : Xfer) (rest : List Xfer), isCoreUnit u = true →
    takeFirst (fun x : Xfer => x.unit == u && x.tag == tag && !(x.kind == .spush || x.kind == .accPush)) s.xfers = some (x, rest) →
    x.total ≤ x.done →
    let send (t : State) : State := match x.tok with
      | some (p, k) => if x.kind == .put then t else sendIncr t (posOf u) x.dom p k 1
      | none => t
    exec (.meshTransferComplete u tag) s = .next (send (pumpWaiting { s with xfers := rest })) ∧
    ((∀ y ∈ rest, y.grans = []) → exec (.meshTransferComplete u tag) s = .next (send { s with xfers := rest }))) ∧
  (∀ (u tag : Nat) (s : State) (x : Xfer) (rest : List Xfer), isCoreUnit u = true →
    takeFirst (fun x : Xfer => x.unit == u && x.tag == tag && (x.kind == .spush || x.kind == .accPush)) s.xfers = some (x, rest) →
    x.done = x.total →
    exec (.stashPushComplete u tag) s = .next (match x.tok with
      | some (p, k) => sendIncr { s with xfers := rest } (posOf u) x.dom p k 1
      | none => { s with xfers := rest })) ∧
  (∀ (p u : Nat) (s : State) (m : StashMsg) (rest : List StashMsg), unitAt p = some u →
    takeFirst (fun m : StashMsg => m.unit == u && stashNext s.stashQ m) s.stashQ = some (m, rest) →
    let t := { s with stashQ := rest }
    (strandDom t m.strand ≠ m.dom → exec (.meshStash p) s = .next t) ∧
    (strandDom t m.strand = m.dom → m.isPop = false → exec (.meshStash p) s = .next (pushEntry t m)) ∧
    (strandDom t m.strand = m.dom → m.isPop = true →
      popCheck m.strand p m.tag m.fmt m.count (getLane t m.strand p).reverse = none →
      exec (.meshStash p) s = .next (popEntries m m.count t))) ∧
  (∀ (p t : Nat) (s : State) (f : RedFlit), p < 64 → t < 16 →
    minBy (fun (a b : RedFlit) => decide (a.round < b.round) || (a.round == b.round && decide (a.n < b.n)))
      (s.red.filter fun f => f.tree == t && f.pos == p && f.lower.isSome) = some f →
    (∀ port ∈ expected s t p, (offered s t p port f.round f.n).isSome = true) →
    (p = treeRoot s t ∨ ∃ q, q ≠ p ∧ treeNext s t p = some q) →
    ∃ u, exec (.meshReduction p t) s = .next u ∧
      (∀ g ∈ u.red, g.tree = t → g.pos = p → g.round = f.round → g.n = f.n → g.lower = none)) ∧
  (∀ (p dir : Nat) (s : State), p < 64 → dir < 4 →
    (dir = 0 → 8 ≤ p) → (dir = 1 → p % 8 < 7) → (dir = 2 → p < 56) → (dir = 3 → 0 < p % 8) →
    ∃ t, exec (.flitCrcFail p dir) s = .next t ∧ SameMemory s t ∧ t.packets = s.packets ∧
      SMap.get 0 t.linkFails (4 * p + dir) = SMap.get 0 s.linkFails (4 * p + dir) + 1 ∧
      SameParamsBut [pk 0x0902 1, pk 0x0902 2] s t ∧
      getP t (pk 0x0902 1) = min (getP s (pk 0x0902 1) + 1) (counterMax (pk 0x0902 1)))


/-! ### Sync network and stall horizon -/

/-- The messages of the sync network arrive. An increment reaches its counter, which stops at FFFFh, after those that its
sender sent to that position before it, or is dropped where the core keeps its state. The smallest slot asked for is where the
domain will stop, and the FREEZE brings the time to it. The last RESUME_OK for slots up to that one announces a resume at least
64 ticks ahead, on the tick of the stall's phase where the domain shares links or cores, and the RESUME brings the time to it:
the domain goes on. A core's report of a pick, at the decode point of the slot that the pick governs, reaches the root, which,
with every report in, chooses the fore-needle where it is ready everywhere, else the back-needle where that is, else asks for
a stall; the choice makes the needle active on every core whose pick has issued, and waits on the others.
The model's own readings and choices in it: the log entries 40, 114 and 115. -/
def Obligations.SyncNetworkCompletes : Prop :=
  (∀ (p k u : Nat) (s : State) (m : Incr) (rest : List Incr), unitAt p = some u →
    takeFirst (fun m : Incr => m.pos == p && m.tok == k && (s.incrs.find? fun y => y.src == m.src && y.pos == p) == some m)
      s.incrs = some (m, rest) → s.tokSubs = [] →
    ∃ t, exec (.incr p k) s = .next t ∧ SameMemory s t ∧ SameParamsBut [pk 0x0930 3] s t ∧ t.doms = s.doms ∧ t.incrs = rest ∧
      getTok t u k = (if coreKept s u then getTok s u k else min (getTok s u k + m.amt) 0xFFFF)) ∧
  (∀ (d : Nat) (s : State) (r : StallReq) (rest : List StallReq), d < 8 →
    takeFirst (fun r : StallReq => !r.seen) (getD s d).reqs = some (r, rest) →
    ∃ t, exec (.stallReq d) s = .next t ∧ SameMemory s t ∧ SameParamsBut [pk 0x0930 3] s t ∧
      (getD t d).reqs = rest ++ [{ r with seen := true }] ∧
      ((getD s d).stalled = false →
        (getD t d).freezeAt = some (max (min r.slot ((getD s d).freezeAt.getD r.slot)) (getD s d).dcc)) ∧
      ((getD s d).stalled = true → (getD t d).freezeAt = (getD s d).freezeAt) ∧ (∀ e, e ≠ d → getD t e = getD s e)) ∧
  (∀ (d f : Nat) (s : State), d < 8 → (getD s d).freezeAt = some f →
    ((getD s d).stalled = true → exec (.freeze d) s = .next (incP s (pk 0x0930 3) 2)) ∧
    ((getD s d).stalled = false → exec (.freeze d) s = .next (incP (advance (ticksTo s d f) s) (pk 0x0930 3) 2)) ∧
    ((getD s d).stalled = false → (getD s d).st.runs = true → (getD s d).started = true → (getD s d).resumeAt = none →
      s.clk.runs = true → quiet s = true → (getD s d).dcc ≤ f →
      ∃ t, exec (.freeze d) s = .next t ∧ (getD t d).dcc = f ∧ t.ctc = s.ctc + (f - (getD s d).dcc) ∧
        issuing (getD t d) = false ∧ (f < (getD s d).dcc + 1 ∨ (getD t d).stalled = false))) ∧
  (∀ (d u : Nat) (s s1 : State), d < 8 →
    let mine := (getD s d).reqs.filter (fun r => r.unit == u && dueReq (getD s d) r)
    let left := (getD s d).reqs.filter (fun r => !(r.unit == u && dueReq (getD s d) r))
    mine ≠ [] → meetAll s d mine = (s1, []) →
    exec (.resumeOk d u) s = .next (announceResume (incP (setD s1 d { getD s d with
      reqs := left, resumeOk := u :: (getD s d).resumeOk }) (pk 0x0930 3) 1) d)) ∧
  (∀ (d : Nat) (s : State),
    ((∃ r ∈ (getD s d).reqs, dueReq (getD s d) r = true) → announceResume s d = s) ∧
    ((∀ r ∈ (getD s d).reqs, dueReq (getD s d) r = false) → (getD s d).stalled = true → (getD s d).freezeAt ≠ none →
      ∃ r, (getD (announceResume s d) d).resumeAt = some r ∧ s.ctc + 64 ≤ r ∧ r < s.ctc + 72 ∧
        (phased s d = true → r % 8 = (getD s d).stallCtc % 8) ∧ (phased s d = false → r = s.ctc + 64) ∧
        SameMemory s (announceResume s d) ∧ (announceResume s d).par = s.par)) ∧
  (∀ (d r : Nat) (s : State), d < 8 → (getD s d).resumeAt = some r →
    exec (.resume d) s = .next (incP (toCtc r s) (pk 0x0930 3) 2) ∧
    (s.ctc < r → (getD s d).st.runs = true → (getD s d).started = true → (getD s d).stalled = true → s.clk.runs = true →
      quiet s = true → ∃ t, exec (.resume d) s = .next t ∧ t.ctc = r ∧ (getD t d).stalled = false ∧ (getD t d).resumeAt = none ∧
        (getD t d).dcc = (getD s d).dcc ∧ (getD t d).stallTicks = (getD s d).stallTicks + (r - s.ctc) ∧
        ((getD s d).reqs = [] → (getD t d).freezeAt = none) ∧
        (∀ q ∈ (getD s d).reqs, q.seen = true → ∃ f, (getD t d).freezeAt = some f))) ∧
  (∀ (d c slot : Nat) (s u : State), d < 8 → c < 36 → pickSlot s c = some slot → (reporting s d).contains c = true →
    (getD s d).choice = none → (if horizonMet s d slot then some s else toHorizon s d slot) = some u →
    (getD u d).choice = none →
    let reps := (getD u d).reports.filter (fun r => decide (r.core ≠ c)) ++
      [⟨c, (getD u d).nth + 1, needleReady u c .fore, needleReady u c .back⟩]
    let all := (reporting u d).all fun k => reps.any fun r => r.core == k
    ∃ t, exec (.pickReport d c) s = .next t ∧ SameMemory u t ∧ t.elands = u.elands ∧ SameParamsBut [pk 0x0930 3] u t ∧
      (getD t d).reports = reps ∧
      (all = true → (∀ r ∈ reps, r.fore = true) → (getD t d).choice = some .fore ∧ (getD t d).reqs = (getD u d).reqs) ∧
      (all = true → (∃ r ∈ reps, r.fore = false) → (∀ r ∈ reps, r.back = true) →
        (getD t d).choice = some .back ∧ (getD t d).reqs = (getD u d).reqs) ∧
      (all = false ∨ ((∃ r ∈ reps, r.fore = false) ∧ (∃ r ∈ reps, r.back = false)) →
        (getD t d).choice = none ∧ ∃ q ∈ (getD t d).reqs, q.slot = slot ∧ q.cond = .pick)) ∧
  (∀ (d : Nat) (n : Needle) (s : State), d < 8 → (getD s d).choice = some n →
    ∃ t, exec (.pickChoice d) s = .next t ∧ SameMemory s t ∧ SameParamsBut [pk 0x0930 3] s t ∧
      (getD t d).choice = none ∧ (getD t d).reports = [] ∧ (getD t d).nth = (getD s d).nth + 1 ∧
      (∀ r ∈ (getD t d).reqs, r.cond ≠ .pick) ∧
      (∀ c slot, c ∈ reporting s d → (getE s c).pickDue = some slot →
        (getN (getE t c) n).st = .active ∧ (getN (getE t c) n).nextSlot = slot ∧ (getE t c).pickDue = none ∧
        (getN (getE t c) n).decFrom = some s.ctc) ∧
      (∀ c slot, c ∈ reporting s d → (getE s c).pickDue = none → pickSlot s c = some slot →
        (getE t c).answers = (getE s c).answers ++ [n] ∧ (getN (getE t c) n).decFrom = some s.ctc) ∧
      ((∀ r ∈ (getD s d).reqs, r.cond = .pick) → ∀ c, c ∉ reporting s d → getE t c = getE s c))

/-! ### Domains -/

/-- The events of a domain: a fault report writes one record, of the fault that comes first, and makes the domain FAULTED; the
STOP stops every core and removes the domain's Round beats; the START reaches the cores before T0, at which slot 0 comes; a stall beyond the limit raises fault 08h with the cause of the oldest unmet condition; DOMAIN_DONE makes the domain
DONE and its DMA channels STOPPED once nothing of it is left.
The model's own readings and choices in it: the log entries 55, 57 and 116. -/
def Obligations.DomainEventsComplete : Prop :=
  (∀ (d : Nat) (s : State) (r : Raised), d < 8 → minBy raisedBefore (s.raised.filter fun r => r.dom == some d) = some r →
    let seq := getP s (pk 0x0E00 2)
    ((getD s d).st.faultable = true → (∀ k, k < d → firstRaised s k ≠ firstRaised s d) →
      ∃ t, exec (.fault d) s = .next t ∧ SameMemory s t ∧ (getD t d).st = .faulted ∧ (getD t d).stopDue = true ∧
        (getD t d).faultSeq = seq ∧ getP t (pk 0x0E01 (seq % 64 + 1)) = recordOf r 0 seq ∧
        getP t (pk 0x0E00 2) = (seq + 1) % 0x10000 ∧ t.raised = s.raised.filter fun r => !(r.dom == some d)) ∧
    ((getD s d).st.faultable = false → ∃ t, exec (.fault d) s = .next t ∧ SameMemory s t ∧ (getD t d).st = (getD s d).st)) ∧
  (∀ (d : Nat) (s : State), d < 8 → (getD s d).stopDue = true → (getD s d).st = .faulted →
    ∃ t, exec (.stop d) s = .next t ∧ (getD t d).st = .faulted ∧ (getD t d).stopDue = false ∧ (getD t d).reqs = [] ∧
      (∀ c, ((getE s c).domF = some d → (getE t c).fore.st = .halted) ∧
        ((getE s c).domB = some d → (getE t c).back.st = .halted) ∧ ((getC s c).dom = some d → (getC t c).halted = true)) ∧
      (∀ b ∈ t.beats, b.dom ≠ d) ∧ (∀ k ∈ t.raised, k.dom ≠ some d)) ∧
  (∀ (d t0 : Nat) (s : State), d < 8 → (getD s d).t0 = some t0 → (getD s d).st.runs = true → s.ctc ≤ t0 →
    ∃ t, exec (.start d) s = .next t ∧ SameMemory s t ∧ SameParamsBut [pk 0x0930 3] s t ∧
      getD t d = { getD s d with t0 := none } ∧ ∀ e, e ≠ d → getD t e = getD s e) ∧
  (∀ (d n : Nat) (s : State), (getD s d).st.runs = true → (getD s d).started = false → (getD s d).stalled = false →
    (getD s d).freezeAt = none → (getD s d).resumeAt = none → (getD s d).dcc = 0 → (getD s d).stallTicks = 0 →
    s.ctc < (getD s d).startCtc → s.clk.runs = true → quiet s = true →
    let t := advance ((getD s d).startCtc - s.ctc + n) s
    (getD t d).started = true ∧ (getD t d).dcc = n ∧ t.ctc = (getD t d).startCtc + (getD t d).dcc) ∧
  (∀ (d : Nat) (s : State), d < 8 → standing (getD s d) = true → (getD s d).st = .running →
    let u := advance (ceilDiv ((getP s (pk 0x0620 0) * 1000000 + 1 - (getD s d).stallNs) * freqMhz s) 1000) s
    (getD u d).stalled = true →
    ∃ v r, exec (.stallTimeout d) s = .next (raise v r) ∧ SameMemory u v ∧ v.doms = u.doms ∧
      r.code = 8 ∧ r.dom = some d ∧ r.unit = 0x91 ∧
      (∀ q, (getD s d).reqs.find? (fun q => !condHolds s d q.cond) = some q →
        r.detail0 = (condCause q.cond).1 ∧ r.needle = q.needle ∧ r.offset = q.offset) ∧
      ((getD s d).reqs.find? (fun q => !condHolds s d q.cond) = none → r.detail0 = 0) ∧
      (quiet s = true → s.clk.runs = true → (getD s d).started = true → (getD s d).resumeAt = none →
        (getD v d).stalled = true ∧ (getD v d).dcc = (getD s d).dcc)) ∧
  (∀ (d : Nat) (s : State), d < 8 → (getD s d).st = .running → (getD s d).started = true → coresDone s d = true →
    (∀ c ∈ cvcsOf s d, (getColl s c).run = false) →
    ∃ t, exec (.domainDone d) s = .next t ∧ SameMemory s t ∧ (getD t d).st = .done ∧ (∀ e, e ≠ d → getD t e = getD s e) ∧
      (∀ x ∈ s.dmas, x.2.dom = d → x.2.st ≠ 0 → (x.1, { x.2 with st := 5, pend := 0 }) ∈ t.dmas))

/-- The commands of domain.start, with the loader ready: in the states that allow them LOAD places the image, RUN starts the
domain at the first CTC multiple of 64 that is 256 ticks ahead, ABORT stops it, RELEASE frees and clears its cores
and, with no stop on its way, leaves the Stash lanes as they are; in every other state each draws 05h and changes nothing.
The model's own readings and choices in it: the log entries 49 and 107. -/
def Obligations.DomainCommandsComplete : Prop :=
  ∀ (d : Nat) (s : State), d < 8 → gateOk s (domainCmd d) = true →
    let st := (getD s d).st
    (st ≠ .empty ∨ s.clk.runs = false → exec (.load d) s = .next { s with wstatus := 5 } ∧
      exec (.loadRun d) s = .next { s with wstatus := 5 }) ∧
    (st = .empty → s.clk.runs = true →
      let t := loadImage s d
      exec (.load d) s = .next { t with wstatus := 0 } ∧ ((getD t d).st = .loaded ∨ (getD t d).st = .faulted) ∧
        ((getD t d).st = .loaded → resumeMismatch t d = none → ∃ u, exec (.loadRun d) s = .next u ∧ u.wstatus = 0 ∧
          (getD u d).st = .running)) ∧
    (∀ s1 s2 hd body, st = .empty → s.clk.runs = true →
      let at_ := getP s (pk (0x0600 + d) 1)
      let s0 := setD s d { getD s d with st := .loading, image := at_, faultSeq := 0xFFFF, dcc := 0 }
      let rest := hdSize (imgHeader hd) - 256
      vread s0 d at_ s0.ctc 256 (vfuel 256) = (.ok, hd, s1) →
      vread s1 d (at_ + 256) s1.ctc rest (vfuel rest) = (.ok, body, s2) →
      checkImage s2 d (hd ++ body) (linked s2 d (hd ++ body)) = none →
      ∃ t, exec (.load d) s = .next t ∧ t.wstatus = 0 ∧ (getD t d).st = .loaded ∧ (getD t d).cores = hdCores (imgHeader (hd ++ body)) ∧
        (getD t d).measure = sha512 ((hd ++ body).map (·.1))) ∧
    (st ≠ .loaded ∨ s.clk.runs = false → exec (.run d) s = .next { s with wstatus := 5 }) ∧
    (st = .loaded → s.clk.runs = true → resumeMismatch s d = none →
      ∃ t, exec (.run d) s = .next t ∧ SameMemory s t ∧ t.wstatus = 0 ∧ (getD t d).st = .running ∧ (getD t d).dcc = 0 ∧
        (getD t d).started = false ∧ ∃ t0, (getD t d).t0 = some t0 ∧ t0 % 64 = 0 ∧ s.ctc + 256 ≤ t0 ∧ t0 < s.ctc + 320) ∧
    (st = .loading ∨ st = .running ∨ st = .pageHalt →
      ∃ t, exec (.abort d) s = .next t ∧ t.wstatus = 0 ∧ (getD t d).st = .aborted ∧
        getP t (pk 0x0E00 2) = getP s (pk 0x0E00 2) ∧
        ∀ c, (getE s c).domF = some d → (getE t c).fore.st = .halted) ∧
    (¬(st = .loading ∨ st = .running ∨ st = .pageHalt) → exec (.abort d) s = .next { s with wstatus := 5 }) ∧
    (st = .loaded ∨ st = .done ∨ st = .faulted ∨ st = .aborted →
      ∃ t, exec (.release d) s = .next t ∧ t.wstatus = 0 ∧ (getD t d).st = .empty ∧ (getD t d).cores = 0 ∧
        ((getD s d).stopDue = false → t.lanes = s.lanes) ∧
        ∀ u, u < 36 → bit (getD s d).cores u = true → (getE s u).shared = false → getE t u = {} ∧
          ∀ a, corePa u 0 ≤ a → a < corePa u (64 * 0x30000) → readByte t a = 0) ∧
    (¬(st = .loaded ∨ st = .done ∨ st = .faulted ∨ st = .aborted) → exec (.release d) s = .next { s with wstatus := 5 })


/-! ### Writes -/

/-- A write that is refused changes nothing but the status it reports, and no write is taken while the function that governs
it is not ready: of every command that is a write, and of a write of any parameter outside a message; of PT_FLUSH where it
neither begins a flush that its response waits for nor is the answer of one.
The model's own readings and choices in it: the log entries 107 and 128. -/
def Obligations.RefusedWritesChangeNothing : Prop :=
  (∀ (i : Instr) (key : Nat) (s t : State), gateKey i = some key → exec i s = .next t →
    (∀ v, i = .ptFlush v → t.spp.flush = s.spp.flush) →
    (t.wstatus ≠ 0 → t = { s with wstatus := t.wstatus }) ∧ (gateOk s key = false → t.wstatus ≠ 0)) ∧
  (∀ (key : Nat) (v : List Byte) (s t : State), exec (.registerWrite key v) s = .next t →
    (t.wstatus ≠ 0 → t = { s with wstatus := t.wstatus }) ∧ (gateOk s key = false → t.wstatus ≠ 0))

/-- A write of the tensor of the selected monitor slot, and mon_clear, clear the slot's saturation count, its history and
its current step, and no other slot's. -/
def Obligations.MonitorSlotCleared : Prop :=
  (∀ (v : Nat) (s t : State), exec (.monTensorWrite v) s = .next t → t.wstatus = 0 →
    getMon t (monSelected s) = { tensor := v } ∧ (getMon t (monSelected s)).sat = 0 ∧ (getMon t (monSelected s)).hist = List.replicate 16 0 ∧
      (getMon t (monSelected s)).now = 0 ∧ ∀ k, k ≠ monSelected s → getMon t k = getMon s k) ∧
  (∀ (arg : Nat) (s t : State), exec (.monClear arg) s = .next t → t.wstatus = 0 →
    getMon t (monSelected s) = { tensor := (getMon s (monSelected s)).tensor } ∧ (getMon t (monSelected s)).sat = 0 ∧
      (getMon t (monSelected s)).hist = List.replicate 16 0 ∧ (getMon t (monSelected s)).now = 0 ∧
      ∀ k, k ≠ monSelected s → getMon t k = getMon s k) ∧
  (∀ (v : Nat) (s : State), gateOk s (pk 0x0D60 2) = true → (v = 0xFFFFFFFF ∨ v < 2 ^ 20) →
    (v = 0xFFFFFFFF ∨ ∀ x ∈ s.mons, x.1 ≠ monSelected s → x.2.tensor ≠ v) →
    exec (.monTensorWrite v) s = .next { setMon s (monSelected s) { tensor := v } with wstatus := 0 }) ∧
  (∀ (s : State), gateOk s (pk 0x0D60 5) = true → exec (.monClear 0) s =
    .next { setMon s (monSelected s) { tensor := (getMon s (monSelected s)).tensor } with wstatus := 0 })

/-- With the function that governs them ready, the writes of numeric controls, steps, Stash domains, trees, multicast groups,
CVCs, registry entries and port modes take effect under the conditions of their chapters, and change what they name
alone.
The model's own readings and choices in it: the log entries 80 and 107. -/
def Obligations.ParameterWritesComplete : Prop :=
  (∀ (s : State), gateOk s (pk 0x0D30 7) = true → ∃ t, exec (.nanClear 0) s = .next t ∧
    t = { s with par := t.par, wstatus := 0 } ∧ SameParamsBut ([1, 2, 3, 4, 5, 6].map (pk 0x0D30)) s t ∧
    ∀ k ∈ [1, 2, 3, 4, 5, 6], getP t (pk 0x0D30 k) = paramDefault (pk 0x0D30 k)) ∧
  (∀ (v : Nat) (s : State), gateOk s (pk 0x0D20 0) = true → v < 2 →
    ∃ t e, exec (.nanPolicyWrite v) s = .next t ∧ SameMemory s t ∧ getP t (pk 0x0D20 0) = v ∧ nanPolicy t = nanPolicy s ∧
      t.nanPolAt = some e ∧ e % 4096 = 0 ∧ s.ctc < e ∧ e ≤ s.ctc + 4096 ∧ SameParamsBut [pk 0x0D20 0] s t) ∧
  (∀ (v : Nat) (s : State), gateOk s (pk 0x0D10 0) = true → fmtValid v = true →
    ∃ t e, exec (.gradFloorWrite v) s = .next t ∧ SameMemory s t ∧ getP t (pk 0x0D10 0) = v ∧ gradFloor t = gradFloor s ∧
      t.floorAt = some e ∧ e % 4096 = 0 ∧ s.ctc < e ∧ e ≤ s.ctc + 4096 ∧ SameParamsBut [pk 0x0D10 0] s t) ∧
  (∀ (strand v : Nat) (s : State), strand < 8 → gateOk s (pk 0x0D51 (strand + 1)) = true → v < 2 ^ 48 →
    strandRuns s strand = false → ∃ t, exec (.rngStepWrite strand v) s = .next t ∧ t = { s with par := t.par, wstatus := 0 } ∧
      rngStep t strand = v ∧ SameParamsBut [pk 0x0D51 (strand + 1)] s t) ∧
  (∀ (strand v : Nat) (s : State), strand < 8 → gateOk s (pk 0x0C10 (strand + 1)) = true → v < 2 ^ 48 →
    strandRuns s strand = false → ∃ t, exec (.dataStepWrite strand v) s = .next t ∧ t = { s with par := t.par, wstatus := 0 } ∧
      dataStep t strand = v ∧ SameParamsBut [pk 0x0C10 (strand + 1)] s t) ∧
  (∀ (strand v : Nat) (s : State), strand < 8 → gateOk s (pk 0x0C20 (strand + 1)) = true →
    (v < 2 ^ 48 ∨ v = 0xFFFFFFFFFFFFFFFF) → ∃ t, exec (.resumeStepWrite strand v) s = .next t ∧
      t = { s with par := t.par, wstatus := 0 } ∧ getP t (pk 0x0C20 (strand + 1)) = v ∧
      SameParamsBut [pk 0x0C20 (strand + 1)] s t) ∧
  (∀ (strand v : Nat) (s : State), strand < 8 → gateOk s (pk 0x0853 (strand + 1)) = true → (v < 8 ∨ v = 0xFF) →
    ∃ t, exec (.stashDomainWrite strand v) s = .next t ∧ t.wstatus = 0 ∧ SameMemory s t ∧ getP t (pk 0x0853 (strand + 1)) = v ∧
      (∀ p, p < 64 → getLane t strand p = []) ∧ (∀ k p, k ≠ strand → p < 64 → getLane t k p = getLane s k p) ∧
      SameParamsBut [pk 0x0853 (strand + 1)] s t) ∧
  (∀ (k sub v d : Nat) (s : State), k < 16 → 1 ≤ sub → sub < 6 → gateOk s (pk (0x0910 + k) sub) = true →
    (sub = 1 ∨ sub = 5 → v < 64 ∨ v = 0xFF) → treeDom s k = some d → (getD s d).st = .loaded →
    treeFits (setP s (pk (0x0910 + k) sub) v) d k = true →
    ∃ t, exec (.treeConfigWrite k sub v) s = .next t ∧ t.wstatus = 0 ∧ SameMemory s t ∧ getP t (pk (0x0910 + k) sub) = v ∧
      getP t (pk (0x0910 + k) 6) = 0 ∧ SameParamsBut [pk (0x0910 + k) sub, pk (0x0910 + k) 6] s t ∧
      ∀ r ∈ t.red, r.tree ≠ k) ∧
  (∀ (d g v : Nat) (s : State), d < 8 → g < 4 → gateOk s (pk (0x0920 + d) (g + 1)) = true → (getD s d).st = .loaded →
    (∀ p, p < 64 → bit v p = true → p ∈ livePositions s d) → ∃ t, exec (.mcastMembersWrite d g v) s = .next t ∧
      t = { s with par := t.par, wstatus := 0 } ∧ getP t (pk (0x0920 + d) (g + 1)) = v ∧
      SameParamsBut [pk (0x0920 + d) (g + 1)] s t) ∧
  (∀ (c sub : Nat) (v : List Byte) (r : PRow) (s : State), c < 16 → 1 ≤ sub → sub ≤ 0x15 → paramRow (cvcKey c sub) = some r →
    v.length = r.len → gateOk s (cvcKey c sub) = true →
    let x := if sub == 8 then leNat v else beNat v
    (writeCvc s c sub x).1 = 0 → ∃ t, exec (.cvcConfigWrite c sub v) s = .next t ∧ t = { s with par := t.par, wstatus := 0 } ∧
      getP t (cvcKey c sub) = x ∧ SameParamsBut [cvcKey c sub] s t) ∧
  (∀ (v : List Byte) (s : State), v.length = 32 → gateOk s (pk 0x0C30 2) = true → (writeRegistry s v).1 = 0 →
    let e := getP s (pk 0x0C30 1)
    ∃ t, exec (.registryEntryWrite v) s = .next t ∧ t.wstatus = 0 ∧ SameMemory s t ∧ t.par = s.par ∧
      (getReg t e).valid = bit (leNat v) 0 ∧ (getReg t e).dom = bits (leNat v) 3 1 ∧ (getReg t e).vpage = bits (leNat v) 58 32 ∧
      (getReg t e).pages = bits (leNat v) 87 64 ∧ (getReg t e).complete = (getReg s e).complete ∧
      ∀ k, k ≠ e → getReg t k = getReg s k) ∧
  (∀ (port v : Nat) (s : State), port < 17 → gateOk s (portKey port 1) = true → v < 3 → (v = 2 → port = hostPort) →
    (port ≠ hostPort → ∀ d, d < 8 → usesPort s d port = false) →
    ∃ t, exec (.portModeWrite port v) s = .next t ∧ t.wstatus = 0 ∧ SameMemory s t ∧ getP t (portKey port 1) = v ∧
      (v ≠ getP s (portKey port 1) → linkOf t port = (if v = 0 then 0 else 1)) ∧
      SameParamsBut [portKey port 1, portKey port 0x0A] s t)

/-- Records are acknowledged by number, 64 at a time; cached translations are dropped for a domain or for all; a halted
requester goes on when its slot is resumed, or its domain takes fault 12h.
The model's own readings and choices in it: the log entries 67, 107 and 128. -/
def Obligations.RecordsHaltsComplete : Prop :=
  (∀ (v : Nat) (s : State), gateOk s (pk 0x0E00 4) = true → v < 0x10000 →
    ∃ t, exec (.faultAck v) s = .next t ∧ SameMemory s t ∧ t = { s with unacked := t.unacked, wstatus := 0 } ∧
      (∀ x, x ∈ t.unacked ↔ x ∈ s.unacked ∧ 64 ≤ (v + 0x10000 - SMap.get 0 s.logSeq x.1) % 0x10000)) ∧
  (∀ (s : State), gateOk s (pk 0x0E00 4) = true → ∀ v, 0x10000 ≤ v → exec (.faultAck v) s = .next { s with wstatus := 4 }) ∧
  (∀ (v : Nat) (s : State), gateOk s (pk 0x0812 0) = true → (∀ f ∈ s.spp.flush, f.arg ≠ v) →
    (v = 0xFF ∨ v < 8 →
      let keys := (s.tlb.filter fun e => v == 0xFF || e.dom == v).map fun e => (e.dom, e.vpn)
      ∃ t, exec (.ptFlush v) s = .next t ∧ t = { s with tlb := t.tlb, spp := t.spp, wstatus := t.wstatus } ∧
        (∀ e, e ∈ t.tlb ↔ e ∈ s.tlb ∧ v ≠ 0xFF ∧ e.dom ≠ v) ∧
        (keysBusy s keys = false → t.spp = s.spp ∧ t.wstatus = 0) ∧
        (keysBusy s keys = true → t.wstatus = s.wstatus ∧
          t.spp = { s.spp with flush := s.spp.flush ++ [⟨v, keys, none⟩] })) ∧
    (8 ≤ v → v ≠ 0xFF → exec (.ptFlush v) s = .next { s with wstatus := 4 })) ∧
  (∀ (v : Nat) (keys : List (Nat × Nat)) (rest : List FlushDue) (s : State), s.spp.flush = ⟨v, keys, none⟩ :: rest →
    keysBusy s keys = false →
    exec (.ptFlush v) s = .next { s with spp := { s.spp with flush := rest }, wstatus := 0 }) ∧
  (∀ (slot : Nat) (s : State) (h : Halt), slot < 64 → gateOk s (pk 0x0710 4) = true → SMap.get none s.halts slot = some h →
    (∃ t, exec (.haltFail slot) s = .next t ∧ SameMemory s t ∧ t.wstatus = 0 ∧ t.halts = s.halts ∧
      ((getD s h.dom).st.faultable = true → ∃ r, t.raised = s.raised ++ [r] ∧ r.code = 0x12 ∧ r.dom = some h.dom ∧
        r.unit = h.unit ∧ r.detail0 = h.va)) ∧
    (let t := grantHalts (dropHalt s slot)
     exec (.haltResume slot) s = .next { resumeWho t h.who with wstatus := 0 } ∧
     SMap.get none (dropHalt s slot).halts slot = none ∧
     (s.haltWait = [] → t = dropHalt s slot) ∧
     (∀ w r, freeHalt s = none → s.haltWait = w :: r → stillWaits (dropHalt s slot) w.who = true →
       ∃ k, SMap.get none t.halts slot = some k ∧ k.who = w.who ∧ k.va = w.va) ∧
     (∀ x, h.who = .stream x → (getStream s x).st = 2 →
       (getStream (resumeWho t h.who) x).st = 1 ∧ (getStream (resumeWho t h.who) x).halt = none) ∧
     (∀ ch, h.who = .dma ch → (getDma s ch).st = 4 →
       (getDma (resumeWho t h.who) ch).st = 2 ∧ (getDma (resumeWho t h.who) ch).halt = none))) ∧
  (∀ (slot : Nat) (s : State), slot < 64 → SMap.get none s.halts slot = none →
    exec (.haltResume slot) s = .next { s with wstatus := 5 } ∧ exec (.haltFail slot) s = .next { s with wstatus := 5 })

/-! ### DMA -/

/-- The starts of a channel: by a write, and by each trigger when its event comes. A loaded channel that is idle begins its
program at word 0 with its CRCs reset and its operands kept; one that runs takes the start as pending. Its timer fires, and
its oldest transfer completes, in their turn.
The model's own readings and choices in it: the log entries 46 and 108. -/
def Obligations.DmaStartsComplete : Prop :=
  (∀ (s : State) (ch : Nat), (getD s (getDma s ch).dom).st.runs = true → SameMemory s (startDma s ch) ∧
    ((getDma s ch).st = 1 → getDma (startDma s ch) ch = freshRun (getDma s ch) ∧ (getDma (startDma s ch) ch).pc = 0 ∧
      (getDma (startDma s ch) ch).st = 2 ∧ (getDma (startDma s ch) ch).prog = (getDma s ch).prog) ∧
    ((getDma s ch).st = 2 ∨ (getDma s ch).st = 3 ∨ (getDma s ch).st = 4 →
      getDma (startDma s ch) ch = { getDma s ch with pend := min ((getDma s ch).pend + 1) 255 })) ∧
  (∀ (s : State), gateOk s (pk 0x0730 5) = true → exec (.dmaStart 0) s = .next { startDma s (dmaSelect s) with wstatus := 0 }) ∧
  (∀ (ch : Nat) (s : State), ch < 256 → (getDma s ch).trig = 1 → (getDma s ch).runHit = true →
    exec (.dmaTriggerRun ch) s = .next (startDma (setDma s ch { getDma s ch with runHit := false }) ch)) ∧
  (∀ (ch : Nat) (s : State), ch < 256 → (getDma s ch).trig = 2 → (getDma s ch).trigHit = false →
    exec (.dmaTriggerTime ch) s = .next (startDma (setDma (advance (ptpTicks s (getDma s ch).trigAt) s) ch
      { getDma s ch with trigHit := true }) ch)) ∧
  (∀ (ch : Nat) (s : State), ch < 256 → (getDma s ch).trig = 3 → (getDma s ch).trigHit = false →
    exec (.dmaTriggerCtc ch) s = .next (startDma (setDma (toCtc (getDma s ch).trigAt s) ch
      { getDma s ch with trigHit := true }) ch) ∧
    (s.clk.runs = true → quiet s = true → (toCtc (getDma s ch).trigAt s).ctc = max s.ctc (getDma s ch).trigAt)) ∧
  (∀ (ch : Nat) (s : State), ch < 256 → (getDma s ch).trig = 4 → 0 < (getDma s ch).haltHit →
    exec (.dmaTriggerChannel ch) s = .next (startDma (setDma s ch { getDma s ch with haltHit := (getDma s ch).haltHit - 1 }) ch)) ∧
  (∀ (ch : Nat) (s : State), ch < 256 → (getDma s ch).st = 3 → opcodeOf (SMap.get 0 (getDma s ch).prog (getDma s ch).pc) = 0x04 →
    dmWaitEvent (SMap.get 0 (getDma s ch).prog (getDma s ch).pc) = false → (getDma s ch).armed = false →
    (getDma s ch).timing = true →
    let u := if (getDma s ch).tBase = 0 then advance (ptpTicks s (getDma s ch).timer) s else toCtc (getDma s ch).timer s
    exec (.dmaTimerExpiry ch) s = .next (setDma u ch { getDma u ch with armed := true }) ∧
    (s.clk.runs = true → quiet s = true → getDma u ch = getDma s ch ∧
      ((getDma s ch).tBase ≠ 0 → u.ctc = max s.ctc (getDma s ch).timer))) ∧
  (∀ (ch : Nat) (s : State) (x : DmaXfer) (rest : List DmaXfer), ch < 256 → (getDma s ch).xfers = x :: rest →
    (getDma s ch).st = 2 ∨ (getDma s ch).st = 3 → (getD s (getDma s ch).dom).st.runs = true → x.wait = 0 →
    (x.wrote = true → exec (.dmaTransferComplete ch) s = .next (headEdges (setDma s ch { getDma s ch with
      xfers := rest, bytes := satAdd 64 (getDma s ch).bytes (if x.src == crcSource then 0 else x.rows * x.bytes) }) ch)) ∧
    (x.wrote = false → ∀ data u, dmaSource x (getDma s ch).dom s = (.ok data, u) →
      (opSpace x.dst = 1 → exec (.dmaTransferComplete ch) s = .next (dmaToHost u ch x data)) ∧
      (opSpace x.dst = 2 → exec (.dmaTransferComplete ch) s = .next (dmaToCore u ch x (getDma s ch).dom data)) ∧
      (opSpace x.dst ≠ 1 → opSpace x.dst ≠ 2 → ∀ v,
        storeRows x (getDma s ch).dom data (List.range x.rows) u = (.ok data, v) →
        ∃ t, exec (.dmaTransferComplete ch) s = .next (headEdges t ch) ∧ SameMemory v t ∧
          (getDma t ch).xfers = (getDma v ch).xfers.drop 1 ∧
          (getDma t ch).bytes = satAdd 64 (getDma v ch).bytes (if x.src == crcSource then 0 else data.length))))

/-- The instructions of a channel that runs, at their turn: NOP, LOOP and ENDLOOP move its place, SIGNAL and CRCSTORE and
HALT and WAIT wait for earlier transfers, TIMER sets its timer, a MOVE puts one more transfer in flight where fewer than
eight are and the pool has a tag; a reserved word raises fault 0Fh and the channel stays where it is.
The model's own readings and choices in it: the log entry 46. -/
def Obligations.DmaInstructionsComplete : Prop :=
  ∀ (ch : Nat) (s : State), ch < 256 → (getDma s ch).st = 2 ∨ (getDma s ch).st = 3 → (getD s (getDma s ch).dom).st.runs = true →
    (getDma s ch).pc < 256 →
    let x := { getDma s ch with st := 2 }
    let w := SMap.get 0 x.prog x.pc
    let go (y : Dma) : State := setDma s ch y
    (∀ i ∈ [Instr.dmaNop ch, .dmaHalt ch, .dmaLoop ch, .endloop ch, .wait ch, .dmaSignal ch, .timer ch, .crcstore ch, .move ch,
      .move2d ch], dmaOps.contains (opcodeOf w) = false → exec i s = .next (dmaProgFault s ch x.pc w)) ∧
    (dmaReserved w = false →
      (opcodeOf w = 0x00 → exec (.dmaNop ch) s = .next (go { x with pc := x.pc + 1 })) ∧
      (opcodeOf w = 0x01 → x.xfers = [] → ∃ t, exec (.dmaHalt ch) s = .next t ∧ SameMemory s t ∧
        (x.pend = 0 → (getDma t ch).st = 1) ∧
        (0 < x.pend → (getDma t ch).st = 2 ∧ (getDma t ch).pc = 0 ∧ (getDma t ch).pend = x.pend - 1)) ∧
      (opcodeOf w = 0x01 ∨ opcodeOf w = 0x04 ∨ opcodeOf w = 0x05 ∨ opcodeOf w = 0x07 → x.xfers ≠ [] →
        (∀ i ∈ [Instr.dmaHalt ch, .wait ch, .dmaSignal ch, .crcstore ch], exec i s = .next (go { x with st := 3 }) ∨
          exec i s = .refused (.notEnabled "another instruction is next"))) ∧
      (opcodeOf w = 0x02 → x.loops.length < 4 →
        exec (.dmaLoop ch) s = .next (go { x with loops := (x.pc + 1, dmLoopCount w - 1) :: x.loops, pc := x.pc + 1 })) ∧
      (opcodeOf w = 0x03 → ∀ p left r, x.loops = (p, left) :: r → exec (.endloop ch) s = .next (go
        (if left = 0 then { x with loops := r, pc := x.pc + 1 } else { x with loops := (p, left - 1) :: r, pc := p }))) ∧
      (opcodeOf w = 0x04 → x.xfers = [] →
        (dmWaitEvent w = true → dmWaitCount w ≤ x.ev →
          exec (.wait ch) s = .next (go { x with ev := x.ev - dmWaitCount w, pc := x.pc + 1 })) ∧
        (dmWaitEvent w = false → x.armed = true → exec (.wait ch) s = .next (go { x with armed := false, timing := false, pc := x.pc + 1 })) ∧
        (dmWaitEvent w = false → x.armed = false → x.timing = false → x.timer < dmaNow s x → exec (.wait ch) s =
          .next (go { x with armed := false, timing := false, late := satAdd 32 x.late 1, pc := x.pc + 1 })) ∧
        (dmWaitEvent w = false → x.armed = false → dmaNow s x < x.timer →
          exec (.wait ch) s = .next (go { x with timing := true, st := 3 }))) ∧
      (opcodeOf w = 0x05 → x.xfers = [] → dmSigTgt w = false → inCoreSet s x.dom (dmSigId w) = true →
        exec (.dmaSignal ch) s =
          .next (sendIncr (go { x with pc := x.pc + 1 }) (dmaPos ch) x.dom (dmSigId w) (dmSigToken w) (dmSigIncr w))) ∧
      (opcodeOf w = 0x06 → ∃ t, exec (.timer ch) s = .next t ∧ SameMemory s t ∧
        (getDma t ch).timer = ((if dmTimerRel w then x.timer else 0) + dmaOperand x (dmOpidx w)) % 2 ^ 64 ∧
        (getDma t ch).pc = x.pc + 1 ∧ (getDma t ch).armed = false ∧ ∀ k, k ≠ ch → getDma t k = getDma s k) ∧
      (opcodeOf w = 0x07 → x.xfers = [] → operandOk s x.dom (dmaOperand x (dmOpidx w)) 1 8 0 true = true →
        opSpace (dmaOperand x (dmOpidx w)) ≠ 1 → ∃ t, exec (.crcstore ch) s = .next t ∧ SameMemory s t ∧
          (getDma t ch).pc = x.pc + 1 ∧ (getDma t ch).xfers.length = 1) ∧
      (opcodeOf w = 0x10 ∨ opcodeOf w = 0x11 → 8 ≤ x.xfers.length ∨ poolFree s = false →
        (opcodeOf w = 0x10 → exec (.move ch) s = .next (go { x with st := 3 })) ∧
        (opcodeOf w = 0x11 → exec (.move2d ch) s = .next (go { x with st := 3 }))) ∧
      (opcodeOf w = 0x10 → x.xfers.length < 8 → poolFree s = true → operandOk s x.dom (dmaOperand x (dmMvSrc w)) 1 (dmMvLen w) 0 false = true →
        operandOk s x.dom (dmaOperand x (dmMvDst w)) 1 (dmMvLen w) 0 true = true →
        opSpace (dmaOperand x (dmMvSrc w)) ≠ opSpace (dmaOperand x (dmMvDst w)) →
        opSpace (dmaOperand x (dmMvSrc w)) ≠ 1 → opSpace (dmaOperand x (dmMvDst w)) ≠ 1 →
        ∃ t, exec (.move ch) s = .next t ∧ SameMemory s t ∧ (getDma t ch).pc = x.pc + 1 ∧
          (getDma t ch).xfers.length = x.xfers.length + 1) ∧
      (opcodeOf w = 0x11 → x.xfers.length < 8 → poolFree s = true → dmMvSrc w + 1 < 256 → dmMvDst w + 1 < 256 →
        let sStr := sext 64 (dmaOperand x (dmMvSrc w + 1))
        let dStr := sext 64 (dmaOperand x (dmMvDst w + 1))
        operandOk s x.dom (dmaOperand x (dmMvSrc w)) (dm2Rows w) (dm2Bytes w) sStr false = true →
        operandOk s x.dom (dmaOperand x (dmMvDst w)) (dm2Rows w) (dm2Bytes w) dStr true = true →
        opSpace (dmaOperand x (dmMvSrc w)) ≠ opSpace (dmaOperand x (dmMvDst w)) →
        opSpace (dmaOperand x (dmMvSrc w)) ≠ 1 → opSpace (dmaOperand x (dmMvDst w)) ≠ 1 →
        ∃ t, exec (.move2d ch) s = .next t ∧ SameMemory s t ∧ (getDma t ch).pc = x.pc + 1 ∧
          (getDma t ch).xfers.length = x.xfers.length + 1))


/-! ### Streams and the memory system -/

/-- The events of a stream: windows become current, are checked 64 slots before their need, are requested where their slot is
free (LOAD, RELAY) or when they are eligible (STORE) and the engine has a tag, are present once every line has come, and are
released, with the PRESENT bits of their slot cleared; a cycle of waits raises fault 07h once it has persisted.
The model's own readings and choices in it: the log entry 43. -/
def Obligations.StreamEventsComplete : Prop :=
  ∀ (i : Nat) (s : State), i < numStreams →
    let x := getStream s i
    let d := x.desc
    let runs := (getD s x.dom).st.runs = true
    (∀ u, x.st = 1 ∨ x.st = 2 ∨ x.st = 3 → runs → sdMode d = 0 → x.c < sdTotal d →
      toDcc x.dom (windowNeed d x.c) s = some u →
      exec (.windowCurrent i) s = .next (setStream u i { x with
        c := x.c + 1, cur := x.cur ++ [(x.c, (getD u x.dom).dcc)], lastCur := some (x.c, (getD u x.dom).dcc) })) ∧
    (∀ u, x.st ≠ 0 → x.st ≠ 4 → x.released < sdTotal d →
      ((sdRelEn d = true ∧ x.released < (getStream s (sdReleaser d)).moved ∧ u = s) ∨
        (sdRelEn d = false ∧ ∃ w, x.cur.find? (fun w => w.1 == x.released) = some w ∧ toDcc x.dom (w.2 + sdHold d) s = some u)) →
      ∃ t, exec (.windowRelease i) s = .next t ∧ (getStream t i).released = x.released + 1 ∧
        (∀ w ∈ (getStream t i).cur, w.1 ≠ x.released) ∧
        (sdKind d ≠ 1 → ∀ p ∈ streamDests u x, ∀ c l, unitAt p = some c → c < 0x40 → l < sdWinLines d →
          present t c (ringLine d x.released l) = false)) ∧
    (∀ u, x.st ≠ 0 → x.st ≠ 4 → runs → sdMode d = 0 → x.checked < sdTotal d →
      toHorizon s x.dom (checkNeed d x.checked) = some u →
      let c : Cond := if sdKind d = 1 then .drained i x.checked else .window i x.checked
      (condHolds u x.dom c = true → exec (.windowCheck i) s = .next (setStream u i { x with checked := x.checked + 1 })) ∧
      (condHolds u x.dom c = false → ∃ t, exec (.windowCheck i) s = .next t ∧ (getStream t i).checked = x.checked + 1 ∧
        getP t (pk 0x0702 2) = min (getP u (pk 0x0702 2) + 1) (counterMax (pk 0x0702 2)) ∧
        ∃ r ∈ (getD t x.dom).reqs, r.slot = checkNeed d x.checked ∧ r.cond = c)) ∧
    (x.st = 1 → runs → x.reqWin < sdTotal d → engineFree s (sdCore d) = true →
      let va := 64 * windowLine d x.reqWin x.reqOff
      (∀ pa e u, sdKind d ≠ 1 → sdKind d ≠ 2 → x.reqWin < x.released + sdNwin d → translate s x.dom va false = (.ok pa e, u) →
        let k := runOk u x.dom pa (64 * requestLines d x.reqWin x.reqOff) false / 64
        ∃ t p, exec (.streamRequestIssue i) s = .next t ∧ t.packets = u.packets ++ [p] ∧ p.ty = 1 ∧ p.pa = pa ∧ p.va = va ∧
          p.n = k ∧ p.dead = deadlineOf u (getStream u i) x.reqWin ∧ p.line = ringLine d x.reqWin x.reqOff ∧
          (getStream t i).reqWin = (advanceRequest x k).reqWin ∧ (getStream t i).reqOff = (advanceRequest x k).reqOff) ∧
      (∀ pa e u v, sdKind d = 1 → toDcc x.dom (windowNeed d x.reqWin) s = some v → getStream v i = x →
        translate v x.dom va true = (.ok pa e, u) →
        let k := runOk u x.dom pa (64 * requestLines d x.reqWin x.reqOff) true / 64
        let c := (unitAt (sdCore d)).getD 0
        let u' := checkLines u c (ringLine d x.reqWin x.reqOff) k x.dom
        ∃ t p, exec (.streamRequestIssue i) s = .next t ∧ t.packets = u'.packets ++ [p] ∧ p.ty = 0 ∧ p.pa = pa ∧ p.va = va ∧
          p.n = k ∧ p.dead = deadlineOf u' x x.reqWin ∧ p.data = linesE u' c (ringLine d x.reqWin x.reqOff) k ∧
          (getStream t i).reqWin = (advanceRequest x k).reqWin ∧ (getStream t i).reqOff = (advanceRequest x k).reqOff) ∧
      (sdKind d = 2 → x.reqWin < x.released + sdNwin d →
        let src := getStream s (sdSrc d)
        let k := requestLines d x.reqWin x.reqOff
        windowPresent src x.reqWin (sdCore src.desc) = true →
        ∃ t p, exec (.streamRequestIssue i) s = .next t ∧ t.packets = s.packets ++ [p] ∧ p.ty = 1 ∧ p.dst = sdCore src.desc ∧
          p.pa = coreBase (sdCore src.desc) + 64 * ringLine src.desc x.reqWin x.reqOff ∧ p.n = k ∧ p.dead = deadlineOf s x x.reqWin ∧
          getStream t i = { advanceRequest x k with since := s.ns })) ∧
    (∀ p, p < 64 → x.st = 1 ∨ x.st = 2 → sdKind d ≠ 1 → (streamDests s x).contains p = true →
      windowPresent x (SMap.get 0 x.filled p) p = true →
      ∃ t, exec (.windowFilled i p) s = .next t ∧ SameMemory s t ∧
        SMap.get 0 (getStream t i).filled p = SMap.get 0 x.filled p + 1 ∧
        t.incrs = (if sdTokenEn d then (sendIncr s p x.dom p (sdToken d) 1).incrs else s.incrs)) ∧
    (x.st = 1 ∨ x.st = 2 → sdKind d = 1 → SMap.get 0 x.got (x.moved * 64 + sdCore d) = sdWinLines d →
      ∃ t, exec (.storeWindowAcknowledged i) s = .next t ∧ SameMemory s t ∧ (getStream t i).moved = x.moved + 1 ∧
        t.incrs = (if sdTokenEn d then (sendIncr s (sdCore d) x.dom (sdCore d) (sdToken d) 1).incrs else s.incrs)) ∧
    ((reachesOf s i).contains i = true →
      let cycle := (reachesOf s i).filter fun y => (reachesOf s y).contains i
      let low := cycle.foldl min i
      let left := cycleNs s cycle + getP s (pk 0x0702 3) * 1000000 - s.ns
      let u := advance (ceilDiv (left * freqMhz s) 1000) s
      ∃ r, exec (.streamWait i) s = .next (raise u r) ∧ r.code = 7 ∧ r.dom = some (getStream s low).dom ∧ r.detail0 = low ∧
        low ≤ i ∧ (low = i ∨ low ∈ reachesOf s i))

/-- The stacks: a stack notes the requests that find their bucket short, and serves the admitted request of smallest deadline,
or one that may borrow, or none. A read is answered with the lines as they stand, a write outside managed pages is stored and
acknowledged. A refresh changes nothing; a scrub reads the next sector; a temperature report sets the throttle level and the
refresh rate.
The model's own readings and choices in it: the log entries 41 and 44. -/
def Obligations.StackEventsComplete : Prop :=
  (∀ (k : Nat) (s : State), k < 8 → SMap.get [] s.hbmq k ≠ [] →
    let u := noteWaits s k
    let q := SMap.get [] u.hbmq k
    let fit := (unblocked [] q).filter fun r => decide (8 * reqCharge u r ≤ tokens8 u k r.part)
    let lend := (unblocked [] q).filter fun r => getP u (pk (0x0820 + r.part) 3) == 1
    (∀ r, minBy reqBefore fit = some r →
      exec (.hbmRequestService k) s = .next (serveReq (deduct u k r.part (reqCharge u r)) k r)) ∧
    (∀ r, fit = [] → minBy reqBefore lend = some r →
      exec (.hbmRequestService k) s = .next (serveReq (incP u (pk (0x0820 + r.part) 5) (reqCharge u r)) k r)) ∧
    (fit = [] → lend = [] → exec (.hbmRequestService k) s = .next u) ∧
    SameMemory s u ∧ u.packets = s.packets ∧
    q = (SMap.get [] s.hbmq k).map fun r => if admissible s k r then r else { r with waited := true }) ∧
  (∀ (k : Nat) (v : State) (r : HbmReq), r.narrow = false →
    let p := r.pkt
    (p.ty ≠ 0 →
      let t := checkRange { v with hbmq := SMap.set [] v.hbmq k (eraseFirst r (queueAt v k)) } p.pa (64 * p.n)
        (if r.part < 8 then some r.part else none)
      serveReq v k r = sendPacket t (replyTo p (replyVc p) ((List.range p.n).map fun j => plineOf (readPhys t (p.pa + 64 * j) 64))) ∧
      (v.errs = [] → SameMemory v (serveReq v k r))) ∧
    (p.ty = 0 → pteShadow p.pte = false → pteMirror p.pte = false →
      (∃ y, (serveReq v k r).packets = v.packets ++ [{ p with
        ty := 3, src := p.dst, dst := p.src, vc := 1, data := [], leg := false, via := y }]) ∧
      (v.errs = [] → regionOf v p.pa = .hbm → SameMemoryBut p.pa (64 * p.n) v (serveReq v k r)))) ∧
  (∀ (k bank : Nat) (s : State), k < 8 → exec (.hbmRefresh k bank) s = .next s) ∧
  (∀ (k : Nat) (s : State), k < 8 →
    (getP s (pk 0x0805 0) = 0 → exec (.scrub k) s = .next s) ∧
    (getP s (pk 0x0805 0) ≠ 0 → ∃ t, exec (.scrub k) s = .next t ∧
      t = { checkSector (chargeNow s k 8 (charge 128)) (sectorPa k (SMap.get 0 s.scrubAt k)) none with scrubAt := t.scrubAt } ∧
      SMap.get 0 t.scrubAt k = (SMap.get 0 s.scrubAt k + 1) % stackSectors)) ∧
  (∀ (k : Nat) (e : Int) (s : State), k < 8 → ∃ t, exec (.stackTemperatureRead k e) s = .next t ∧ SameMemory s t ∧
    getP t (pk (0x0830 + k) 1) = wrap 32 e ∧ getP t (pk (0x0830 + k) 6) = (if 680 < e then 1 else 0) ∧
    getP t (pk (0x0830 + k) 2) = throttleLevel (getP s (pk 0x0838 1)) (getP s (pk 0x0838 2)) (getP s (pk 0x0838 3))
      (getP s (pk (0x0830 + k) 2)) e ∧
    SameParamsBut [pk (0x0830 + k) 1, pk (0x0830 + k) 2, pk (0x0830 + k) 3, pk (0x0830 + k) 6] s t)

/-! ### Clocks, power and temperature -/

/-- Clocks: a target and a service clock in range are taken; a zone learns of an announced switch, and the switch happens at
its CTC; a settled step of the regulators goes on to the next stage and one that times out is abandoned; a shortfall
stretches the zone's period, counts by its size and for its zone, and takes its fraction of a period while the CTC keeps
its count; a stretch is passed on; a crossing whose domains stand still re-centres and sets them free; the margin follows
the stretches.
The model's own readings and choices in it: the log entries 75, 78 and 79. -/
def Obligations.ClockEventsComplete : Prop :=
  (∀ (v : Nat) (s : State), gateOk s (pk 0x0310 1) = true → 900 ≤ v → v ≤ 2000 → v % 25 = 0 →
    ∃ t, exec (.targetMhzWrite v) s = .next t ∧ SameMemory s t ∧ t.wstatus = 0 ∧ getP t (pk 0x0310 1) = v ∧ freqMhz t = freqMhz s) ∧
  (∀ (sub v : Nat) (s : State), gateOk s (pk 0x0312 sub) = true →
    (sub = 1 ∧ 800 ≤ v ∧ v ≤ 1600 ∧ v % 100 = 0) ∨ (sub = 2 ∧ 800 ≤ v ∧ v ≤ 1600 ∧ v % 200 = 0) ∨
      (sub = 3 ∧ 1000 ≤ v ∧ v ≤ 1500 ∧ v % 100 = 0) →
    ∃ t due, exec (.serviceClockWrite sub v) s = .next t ∧ SameMemory s t ∧ t.wstatus = 0 ∧ getP t (pk 0x0312 sub) = v ∧
      t.clk.service = s.clk.service ++ [(sub, v, due)] ∧ s.ns + 2000 ≤ due ∧ SameParamsBut [pk 0x0312 sub] s t) ∧
  (∀ (z : Nat) (s : State), z < 16 → s.clk.phase = .announced → bit s.clk.freqSeen z = false →
    exec (.freq z) s = .next { s with clk := { s.clk with freqSeen := s.clk.freqSeen + 2 ^ z } }) ∧
  (∀ (s : State), s.clk.phase = .announced → s.clk.freqSeen = 0xFFFF → s.clk.runs = true →
    let u := toCtc (getP s (pk 0x0311 2)) s
    ∃ t, exec .frequencySwitch s = .next t ∧ freqMhz t = u.clk.newF ∧ t.ctc = u.ctc ∧ t.clk.genB = !u.clk.genB ∧
      (quiet s = true → u.clk.newF = s.clk.newF ∧ u.clk.genB = s.clk.genB ∧ u.ctc = max s.ctc (getP s (pk 0x0311 2)))) ∧
  (∀ (s : State), s.clk.marginTo.isSome = true ∨ (s.clk.phase ≠ .none ∧ s.clk.phase ≠ .announced) →
    (∃ t, exec .regulatorStepSettled s = .next t ∧ SameMemory s t ∧ t.clk.alertAvs = false ∧ freqMhz t = freqMhz s ∧
      (s.clk.marginTo = none → s.clk.phase = .raiseSrm → t.clk.phase = .raiseCmp ∧ getP t (pk 0x0320 1) = tableMv s.clk.newF + marginMv s) ∧
      (s.clk.marginTo = none → s.clk.phase = .raiseCmp → t.clk.phase = .announced ∧ getP t (pk 0x0311 1) = s.clk.newF) ∧
      (s.clk.marginTo = none → s.clk.phase = .lowerCmp → t.clk.phase = .lowerSrm)) ∧
    (∃ t, exec .regulatorStepTimeout s = .next t ∧ SameMemory s t ∧ t.clk.alertAvs = true ∧ freqMhz t = freqMhz s ∧
      getP t (pk 0x0320 5) = min (getP s (pk 0x0320 5) + 1) (counterMax (pk 0x0320 5)) ∧
      (s.clk.marginTo = none → t.clk.phase = .none) ∧ (∀ m, s.clk.marginTo = some m → marginMv t = m))) ∧
  (∀ (z size : Nat) (s : State), z < 16 → 1 ≤ size → size ≤ 3 → s.clk.runs = true →
    SMap.get 0 s.clk.lastShort z = 0 ∨ SMap.get 0 s.clk.lastShort z + 8 ≤ s.ctc + 1 →
    ∃ t, exec (.marginShortfall z size) s = .next t ∧ SameMemory s t ∧ t.ctc = s.ctc ∧
      getP t (pk 0x0313 (z + 1)) = min (getP s (pk 0x0313 (z + 1)) + 1) (counterMax (pk 0x0313 (z + 1))) ∧
      getP t (pk 0x0314 size) = min (getP s (pk 0x0314 size) + 1) (counterMax (pk 0x0314 size)) ∧
      SameParamsBut [pk 0x0313 (z + 1), pk 0x0314 size] s t ∧
      t.ns = s.ns + (s.nsFrac + (if size = 3 then 1000 else 250 * size)) / max 1 (freqMhz s)) ∧
  (∀ (z : Nat) (s : State) (m : StretchMsg × Nat) (rest : List (StretchMsg × Nat)), z < 16 →
    takeFirst (fun m : StretchMsg × Nat => !bit m.2 z && (zoneNeighbours z).any (bit m.2)) s.clk.stretches = some (m, rest) →
    ∃ t, exec (.stretch z) s = .next t ∧ SameMemory s t ∧ t.ctc = s.ctc ∧ SameParamsBut [pk 0x0930 3] s t ∧
      t.clk.stretches = (s.clk.stretches.map fun x => if x == m then (m.1, applyIn s z m.2) else x).filter fun x => x.2 ≠ 0xFFFF) ∧
  (∀ (a b : Nat) (s : State), zonesMeet a b = true →
    (crossOf a b ∈ s.clk.lockstep → (∀ d, d < 8 → ((getD s d).reqs.any fun r => r.cond == .crossing (crossOf a b).1 (crossOf a b).2) = true →
      (getD s d).stalled = true) → ∃ t, exec (.crossingRecentre a b) s = .next t ∧ SameMemory s t ∧ crossOf a b ∉ t.clk.lockstep ∧
        SameParamsBut [pk 0x0314 4] s t ∧
        ∀ d, d < 8 → ∀ r ∈ (getD t d).reqs, r.cond ≠ .crossing (crossOf a b).1 (crossOf a b).2) ∧
    (∀ d, d < 8 → crossOf a b ∉ s.clk.lockstep → d ∈ crossDoms s a b → (getD s d).stalled = false →
      ∃ t, exec (.crossingRecentre a b) s = .next t ∧ crossOf a b ∈ t.clk.lockstep ∧
        ∃ r ∈ (getD t d).reqs, r.cond = .crossing (crossOf a b).1 (crossOf a b).2)) ∧
  (∀ (s : State),
    ((∃ z ∈ s.clk.inMs, getP s (pk 0x0320 3) < z.2) → ∃ t, exec (.stretchMarginUpdate false) s = .next t ∧ SameMemory s t ∧
      marginMv t = min 40 (marginMv s + 5) ∧ t.clk.quietMs = 0) ∧
    ((∀ z ∈ s.clk.inMs, z.2 ≤ getP s (pk 0x0320 3)) → exec (.stretchMarginUpdate false) s =
      .next { s with clk := { s.clk with inMs := [], quietMs := s.clk.quietMs + 1 } }) ∧
    (100 ≤ s.clk.quietMs → ∃ t, exec (.stretchMarginUpdate true) s = .next t ∧ SameMemory s t ∧ marginMv t = marginMv s - 5 ∧
      t.clk.quietMs = 0))

/-- Power and temperature: telemetry feeds the averages; at the end of a window each cap falls by 100 MHz where its average
is over the limit, rises by 25 MHz where it is under 95 % of it, and keeps otherwise, within 900 to 2,000 MHz; the highest
junction reading is published and sets ALERT_L; a reading of 110 °C stops the compute clocks and faults every running
domain.
The model's own readings and choices in it: the log entries 75 and 76. -/
def Obligations.PowerEventsComplete : Prop :=
  (∀ (rs : List (Nat × Nat)) (s : State), rs.length = 9 → ∃ t, exec (.regulatorTelemetryRead rs) s = .next t ∧ SameMemory s t ∧
    t.clk.telemetry = rs ∧ t.clk.samples = s.clk.samples + 1 ∧ t.clk.powerSum = s.clk.powerSum + sumNat (rs.map fun r => r.1 * r.2) ∧
    SameParamsBut [pk 0x0330 5] s t) ∧
  (∀ (s : State), s.clk.samples ≠ 0 → ∃ t, exec .powerWindowEnd s = .next t ∧ SameMemory s t ∧ t.clk.samples = 0 ∧
    getP t (pk 0x0330 3) = min 0xFFFF (s.clk.powerSum / (1000 * s.clk.samples)) ∧
    (1000 * getP s (pk 0x0330 1) * s.clk.samples < s.clk.powerSum → t.clk.powerCap = max 900 (s.clk.powerCap - 100)) ∧
    (s.clk.powerSum * 100 < 1000 * getP s (pk 0x0330 1) * s.clk.samples * 95 → t.clk.powerCap = min 2000 (s.clk.powerCap + 25)) ∧
    (s.clk.powerSum ≤ 1000 * getP s (pk 0x0330 1) * s.clk.samples →
      1000 * getP s (pk 0x0330 1) * s.clk.samples * 95 ≤ s.clk.powerSum * 100 → t.clk.powerCap = s.clk.powerCap) ∧
    freqMhz t = freqMhz s) ∧
  (∀ (rs : List (Nat × Option Int)) (s : State), (∀ r ∈ rs, r.1 ∈ junctions) →
    ∃ t hi, exec (.thermalReading rs) s = .next t ∧ SameMemory s t ∧ getP t (pk 0x0340 4) = wrap 32 hi ∧
      (∀ n ∈ junctions, sensorOf t n ≤ hi) ∧ (∃ n ∈ junctions, sensorOf t n = hi) ∧
      (8 * (getP s (pk 0x0340 1) : Int) ≤ hi → t.clk.alertTherm = true) ∧
      (hi ≤ 8 * (getP s (pk 0x0340 1) : Int) - 24 → t.clk.alertTherm = false) ∧
      (8 * (getP s (pk 0x0340 2) : Int) ≤ hi → t.clk.thermCap = max 900 (s.clk.thermCap - 100)) ∧ freqMhz t = freqMhz s) ∧
  (∀ (n : Nat) (s : State), (junctions.contains n || (decide (0x18 ≤ n) && decide (n ≤ 0x1F))) = true → 880 ≤ sensorOf s n →
    s.clk.tripped = false → ∃ t, exec (.thermalTrip n) s = .next t ∧ SameMemory s t ∧ t.clk.runs = false ∧ thermtripLow t = true ∧
      (∀ d, d < 8 → (getD s d).st.runs = true → (getD t d).st = .faulted ∧ (getD t d).stopDue = true) ∧
      (∀ d, d < 8 → (getD s d).st.runs = false → getD t d = getD s d) ∧
      faultLow t = true)


/-! ### Start-up, security and the Gauge die -/

/-- Starts: PWR_OK falls and rises; a long enough low of RESET_L stops the compute clocks and clears every memory but HBM, a
short one does nothing; a release is a cold or a warm start by what came before; a function that reports becomes ready, or
fails, and with BOOT or HOST failed FAULT_L is low; a warm start is commanded; test.ack ends the alert.
The model's own readings and choices in it: the log entries 86, 88, 89 and 90. -/
def Obligations.StartEventsComplete : Prop :=
  (∀ (s : State), s.boot.pwrOk = false → exec .pwrOkRise s = .next { s with boot := { s.boot with
    pwrOk := true, resetLow := true, released := 0, reached := false, byCmd := false } }) ∧
  (∀ (s : State), s.boot.pwrOk = true → ∃ t, exec .pwrOkFall s = .next t ∧ t.boot.pwrOk = false ∧ t.clk.runs = false ∧
    thermtripLow t = false ∧ t.boot.faultLow = false ∧ t.mem = [] ∧ t.poison = [] ∧ t.raised = [] ∧
    (∀ d, (getD t d).st = .empty) ∧ getP t (pk 0x0400 1) = getP s (pk 0x0400 1) &&& 4) ∧
  (∀ (us : Nat) (s : State),
    (us < 100 ∨ s.boot.pwrOk = false ∨ s.clk.thermtrip = true → exec (.resetLLow us) s = .next s) ∧
    (100 ≤ us → s.boot.pwrOk = true → s.clk.thermtrip = false → ∃ t, exec (.resetLLow us) s = .next t ∧
      t.boot.resetLow = true ∧ t.boot.pwrOk = true ∧ t.clk.runs = false ∧ (∀ a, hbmEnd ≤ a → readByte t a = 0) ∧
      (s.snap.held = [] → ∀ a, a < hbmEnd → readByte t a = readByte s a) ∧ (∀ d, (getD t d).st = .empty))) ∧
  (∀ (f : SelfTest) (s : State), s.boot.pwrOk = true → s.boot.resetLow = true →
    ∃ t, exec (.resetLRelease f) s = .next t ∧ t.boot.resetLow = false ∧ t.boot.released = s.boot.released + 1 ∧
      t.boot.tests = f ∧ (∀ d, (getD t d).st = .empty) ∧
      (s.boot.released = 0 → getP t (pk 0x0400 3) = 1 ∧ getP t (pk 0x0400 4) = 1 ∧ getP t (pk 0x0400 5) = 1) ∧
      (s.boot.released ≠ 0 → getP t (pk 0x0400 5) = min (getP s (pk 0x0400 5) + 1) 0xFFFFFFFF ∧
        (s.boot.reached = false → getP t (pk 0x0400 3) = 1 ∧ getP t (pk 0x0400 4) = 4 ∧ t.mem = []) ∧
        (s.boot.reached = true → getP t (pk 0x0400 3) = 2 ∧ getP t (pk 0x0400 4) = (if s.boot.byCmd then 3 else 2) ∧
          ∀ a, a < hbmEnd → readByte t a = readByte s a))) ∧
  (∀ (b ms : Nat) (ok : Bool) (s : State), readyBit b = true → s.boot.resetLow = false → isReady s b = false →
    isFailed s b = false → (∀ r ∈ requires b, isReady s r = true ∨ isFailed s r = true) →
    let u := toNs (s.boot.startNs + ms * 1000000) s
    ∃ t, exec (.functionReady b ok ms) s = .next t ∧
      (canReady u b ok = false → isFailed u b = false →
        isFailed t b = true ∧ (b = bBoot ∨ b = bHost → faultLow t = true)) ∧
      (canReady u b ok = true → ∀ v, onReady u b = some v → isReady v b = false → isReady t b = true) ∧
      (canReady u b ok = true → onReady u b = none → isFailed u b = false → isFailed t b = true)) ∧
  (∀ (s : State), gateOk s (pk 0x0402 0) = true → (toNs (s.ns + 10000000) s).clk.thermtrip = false → ∃ t, exec (.startWarm 1) s = .next t ∧
    t.wstatus = 0 ∧ t.boot.resetLow = true ∧ t.boot.byCmd = true ∧ t.clk.runs = false) ∧
  (∀ (s : State), gateOk s (pk 0x0410 8) = true → exec (.testAck 0) s =
    .next { s with boot := { s.boot with alertTest := false }, wstatus := 0 })

/-- Attestation, host keys and flash update: a report is made of the present state and signed; a host key is set and the
sessions of the previous one close; data for a bank not booted from is taken, then stands in the flash; a bank is
verified by the checks of the boot.
The model's own readings and choices in it: the log entries 7, 82 and 84. -/
def Obligations.SecurityCommandsComplete : Prop :=
  (∀ (s : State), gateOk s (pk 0x0510 2) = true → s.sec.attest = none → ∃ t, exec (.attestGenerate 0) s = .next t ∧
    t.wstatus = 0 ∧ SameMemory s t ∧ t.sec.attest = some (attestBody s) ∧ getP t (pk 0x0510 4) = 1 ∧
    SameParamsBut [pk 0x0510 4] s t) ∧
  (∀ (s : State) (b : List Byte), s.sec.attest = some b → ∃ t, exec .attestSigned s = .next t ∧ SameMemory s t ∧
    t.sec.attest = none ∧ getP t (pk 0x0510 4) = 0 ∧
    getP t (pk 0x0510 3) = leNat (b ++ signBytes deviceKey b ++ List.replicate 4 0#8) ∧
    SameParamsBut [pk 0x0510 3, pk 0x0510 4] s t) ∧
  (∀ (slot : Nat) (key : List Byte) (s : State), slot < 4 → key.length = 133 → gateOk s (pk 0x0520 (slot + 1)) = true →
    ∃ t, exec (.hostkeySlotWrite slot key) s = .next t ∧ t.wstatus = 0 ∧ SameMemory s t ∧
      getP t (pk 0x0520 (slot + 1)) = leNat key ∧ SameParamsBut [pk 0x0520 (slot + 1)] s t ∧
      ∀ k, k < 8 → (getSession s k).st = 3 → (getSession s k).slot = slot → getP s (pk 0x0520 (slot + 1)) ≠ 0 →
        (getSession t k).st = 0) ∧
  (∀ (v : List Byte) (s : State), gateOk s (pk 0x0540 2) = true → 4 ≤ v.length → v.length ≤ 4100 →
    leNat (v.take 4) + (v.length - 4) ≤ bankSize (getP s (pk 0x0540 1) / 2) → s.sec.updating = 0 →
    bankInUse s (getP s (pk 0x0540 1)) = false →
    exec (.updateData v) s =
      .next { s with sec := { s.sec with updating := 1, updBuf := v, updBank := getP s (pk 0x0540 1) }, wstatus := 0 }) ∧
  (∀ (s : State), s.sec.updating = 1 →
    let bank := s.sec.updBank
    let base := bankBase (bank / 2) (bank % 2) + leNat (s.sec.updBuf.take 4)
    let bs := s.sec.updBuf.drop 4
    ∃ t, exec .updateWriteComplete s = .next t ∧ t = { s with sec := t.sec } ∧ t.sec.updating = 0 ∧
      (∀ i, i < bs.length → flashByte t (base + i) = bs.getD i 0) ∧
      (∀ a, a < base ∨ base + bs.length ≤ a → flashByte t a = flashByte s a)) ∧
  (∀ (s : State), gateOk s (pk 0x0540 3) = true → s.sec.updating = 0 → bankInUse s (getP s (pk 0x0540 1)) = false →
    exec (.updateVerify 0) s =
      .next { s with sec := { s.sec with updating := 2, updBank := getP s (pk 0x0540 1) }, wstatus := 0 }) ∧
  (∀ (s : State), s.sec.updating = 2 → ∃ t, exec .updateVerifyComplete s = .next t ∧ SameMemory s t ∧ t.sec.updating = 0 ∧
    SameParamsBut [pk 0x0540 4] s t ∧
    (verifyBank s (s.sec.updBank / 2) (s.sec.updBank % 2) = 0 → getP t (pk 0x0540 4) = 1) ∧
    (verifyBank s (s.sec.updBank / 2) (s.sec.updBank % 2) ≠ 0 → getP t (pk 0x0540 4) =
      0x10 + verifyBank s (s.sec.updBank / 2) (s.sec.updBank % 2)))

/-- The Gauge die: a sample adds its energy to each rail, a channel out of range repeating the last power; commits, and the
fall of VDD_IOD; records are made of the present state, signed and kept among the last 64; a seal command is kept, checked
and either counted as refused with what it would change as before, or applied, entered in the audit trail and recorded.
The model's own readings and choices in it: the log entries 92, 93, 94, 95 and 96. -/
def Obligations.GaugeCommandsComplete : Prop :=
  (∀ (raw : List (Option (W32 × W32))) (s : State), raw.length = 9 → gaugeRuns s = true →
    ∃ t, exec (.gaugeSample raw) s = .next t ∧ t = { s with gauge := t.gauge } ∧ t.gauge.us = s.gauge.us + 2 ∧
      ∀ i, i < 9 → SMap.get 0 t.gauge.acc i =
        SMap.get 0 s.gauge.acc i + 2 * (railPower s i (raw.getD i none)).getD (SMap.get 0 s.gauge.lastP i)) ∧
  (∀ (s : State), gaugeRuns s = true → ∃ t, exec .gaugeCommit s = .next t ∧ SameMemory s t ∧ t.gauge.committed = s.gauge.acc ∧
    t.gauge.acc = s.gauge.acc ∧ SameParamsBut [pk 0x1010 2] s t) ∧
  (∀ (s : State), exec .vddIodFall s = .next { s with gauge := { s.gauge with
    committed := s.gauge.acc, power := true, off := true, signing := none, after := [] } }) ∧
  (∀ (s : State), gateOk s (pk 0x1020 2) = true → s.gauge.signing = none → ∃ t, exec (.recordGenerate 0) s = .next t ∧
    t.wstatus = 0 ∧ SameMemory s t ∧ t.gauge.signing = some ⟨1, recordBody s 1⟩ ∧ getP t (pk 0x1020 4) = 1 ∧
    SameParamsBut [pk 0x1020 4] s t) ∧
  (∀ (s : State), gaugeRuns s = true → getP s (pk 0x1020 5) ≠ 0 → s.gauge.signing = none → ∃ t b,
    exec .periodicRecord s = .next t ∧ SameMemory s t ∧ t.gauge.signing = some ⟨2, b⟩ ∧ getP t (pk 0x1020 4) = 1 ∧
    t.gauge.us = max s.gauge.us s.gauge.periodNext ∧ SameParamsBut [pk 0x1020 4] s t) ∧
  (∀ (s : State) (kind : Nat) (b : List Byte), s.gauge.signing = some ⟨kind, b⟩ → s.gauge.after = [] →
    let n := getP s (pk 0x1020 6) + 1
    let v := leNat (fitBytes 512 (b ++ signBytes (signKey s) b))
    ∃ t, exec .recordSigned s = .next t ∧ SameMemory s t ∧ t.gauge.signing = none ∧ getP t (pk 0x1021 (n % 64 + 1)) = v ∧
      getP t (pk 0x1020 3) = v ∧ getP t (pk 0x1020 6) = n ∧ getP t (pk 0x1020 4) = 0) ∧
  (∀ (v : List Byte) (s : State), gateOk s (pk 0x1030 2) = true → v.length ≤ 65536 →
    exec (.sealRequest v) s = .next { s with gauge := { s.gauge with request := v }, wstatus := 0 }) ∧
  (∀ (s : State), gateOk s (pk 0x1030 3) = true → s.gauge.signing = none →
    ∃ t, exec (.sealExecute 0) s = .next t ∧ t.wstatus = 0 ∧ SameMemory s t ∧
      (sealCheck s s.gauge.request ≠ 0 → getP t (pk 0x1030 6) = min (getP s (pk 0x1030 6) + 1) (counterMax (pk 0x1030 6)) ∧
        getP t (pk 0x1030 1) = getP s (pk 0x1030 1) ∧ getP t (pk 0x1031 1) = getP s (pk 0x1031 1) ∧
        getP t (pk 0x1030 4) = getP s (pk 0x1030 4) ∧ t.gauge = s.gauge) ∧
      (sealCheck s s.gauge.request = 0 → getP t (pk 0x1032 3) = getP s (pk 0x1032 3) + 1 ∧
        getP t (pk 0x1030 5) = min (getP s (pk 0x1030 5) + 1) (counterMax (pk 0x1030 5)) ∧
        ∃ b, t.gauge.signing = some ⟨3, b⟩))


/-! ### The dictionary server -/

/-- Sessions: OPEN1 takes a free slot with the sender's address, where its point lies on the curve, and none where no slot is
free; OPEN3 opens the session on a proof and frees the slot without one; a slot that waits too long or is closed is free,
and what comes from a sender with no session, or before the server serves, changes no session.
The model's own readings and choices in it: the log entries 7, 98 and 99. -/
def Obligations.SessionsOpenAndClose : Prop :=
  (∀ (src : SppSrc) (m : SppMsg) (s : State), m.type = 1 → serving s = true → src.udpOk = true → m.version = 1 →
    malformed s m = false → m.body.length = 168 → m.count = 0 → m.session = 0 → m.seq = 0 →
    (m.body.drop 165).any (· ≠ 0#8) = false →
    (∀ k, (slotsWhere s fun x => x.st == 0).head? = some k → ∃ t, exec (.open1 src m) s = .next t ∧ SameMemory s t ∧
      (∀ j, j ≠ k → getSession t j = getSession s j) ∧
      (Config.ecPoint (m.body.take 133) = true → (getSession t k).st = 1 ∧ (getSession t k).sn = freshSn s ∧
        (getSession t k).ip = src.ip ∧ (getSession t k).port = src.port ∧ (getSession t k).lastNs = s.ns) ∧
      (Config.ecPoint (m.body.take 133) = false → getSession t k = getSession s k)) ∧
    ((∀ k, k < 8 → (getSession s k).st ≠ 0) → ∃ t, exec (.open1 src m) s = .next t ∧ SameMemory s t ∧
      t.spp.slots = s.spp.slots ∧ getP t (pk 0x0100 7) = min (getP s (pk 0x0100 7) + 1) (counterMax (pk 0x0100 7)))) ∧
  (∀ (src : SppSrc) (m : SppMsg) (s : State) (k : Nat), m.type = 3 → FreshRequest s src m k → m.count = 0 →
    m.body.length = 136 → beNat ((m.body.drop 1).take 1) = 0 → (m.body.drop 134).any (· ≠ 0#8) = false →
    ∃ t, exec (.open3 src m) s = .next t ∧ SameMemory s t ∧ (∀ j, j ≠ k → getSession t j = getSession s j) ∧
      (openProof s (getSession s k) m.body = true → (getSession t k).slot = beNat (m.body.take 1) ∧ (getSession t k).rx = m.seq ∧
        (getSession t k).st = (if beNat (m.body.take 1) = 0xFF then 2 else 3)) ∧
      (openProof s (getSession s k) m.body = false → (getSession t k).st = 0)) ∧
  (∀ (k : Nat) (s : State), k < 8 → (getSession s k).st = 1 →
    ∃ t, exec (.open3Timeout k) s = .next t ∧ getSession t k = {} ∧ (∀ j, j ≠ k → getSession t j = getSession s j)) ∧
  (∀ (k : Nat) (s : State), k < 8 → 2 ≤ (getSession s k).st →
    ∃ t, exec (.sessionIdleTimeout k) s = .next t ∧ getSession t k = {} ∧ (∀ j, j ≠ k → getSession t j = getSession s j) ∧
      ∀ n u, getSub t n = some u → u.slot ≠ k) ∧
  (∀ (sn k : Nat) (s : State), gateOk s (pk 0x0102 1) = true → openSlot s sn = some k →
    ∃ t, exec (.sessionClose sn) s = .next t ∧ SameMemory s t ∧ t.wstatus = 0 ∧ getSession t k = {} ∧
      (∀ j, j ≠ k → getSession t j = getSession s j) ∧ ∀ n u, getSub t n = some u → u.slot ≠ k) ∧
  (∀ (src : SppSrc) (m : SppMsg) (s : State) (i : Instr),
    (m.type = 3 ∧ i = .open3 src m) ∨ (m.type = 0x10 ∧ i = .access src m) ∨ (m.type = 0x13 ∧ i = .subscribe src m) ∨
      (m.type = 0x14 ∧ i = .unsubscribe src m) ∨ (m.type = 0x15 ∧ i = .close src m) ∨ (m.type = 0x16 ∧ i = .keepalive src m) →
    (serving s = false → exec i s = .next s) ∧
    (serving s = true → src.udpOk = true → acceptedSlot s src m = none →
      exec i s = .next (rejectMsg (rxOk s hostPort))))

/-- Requests of an open session: each is answered once under its number and the answer kept; KEEPALIVE changes nothing
else, CLOSE closes the session, UNSUBSCRIBE ends the session's subscriptions that it names, SUBSCRIBE begins the one that
it asks for, and an ACCESS with an item that fails, or of reads alone, leaves every parameter as it was. A write outside a
message takes effect when its checks pass.
The model's own readings and choices in it: the log entries 100, 103, 104 and 105. -/
def Obligations.SessionRequestsComplete : Prop :=
  (∀ (src : SppSrc) (m : SppMsg) (s : State) (k : Nat), FreshRequest s src m k →
    (m.type = 0x16 → m.body = [] → m.count = 0 → ∃ t, exec (.keepalive src m) s = .next t ∧ SameMemory s t ∧
      getSession t k = answered s m (sppAnswer 0x80 0 m.reqId 0 0 []) k ∧ t.spp.subs = s.spp.subs ∧
      (∀ j, j ≠ k → getSession t j = getSession s j) ∧ t.doms = s.doms) ∧
    (m.type = 0x15 → m.body = [] → m.count = 0 → ∃ t, exec (.close src m) s = .next t ∧ SameMemory s t ∧
      getSession t k = {} ∧ (∀ j, j ≠ k → getSession t j = getSession s j) ∧ ∀ n u, getSub t n = some u → u.slot ≠ k) ∧
    (m.type = 0x14 → m.body.length = 4 * m.count → (∀ w ∈ (chunksOf 4 m.count m.body).map beNat, w < 256) →
      ∃ t, exec (.unsubscribe src m) s = .next t ∧ SameMemory s t ∧
        getSession t k = answered s m (sppAnswer 0x80 0 m.reqId 0 0 []) k ∧
        (∀ n u, getSub s n = some u → u.slot = k → n ∈ (chunksOf 4 m.count m.body).map beNat → getSub t n = none) ∧
        (∀ n u, getSub s n = some u → u.slot ≠ k ∨ n ∉ (chunksOf 4 m.count m.body).map beNat → getSub t n = some u)) ∧
    (m.type = 0x13 → m.count = 1 → m.body.length = 12 →
      let x := getSession s k
      let u := setSession (rxOk s hostPort) k { x with rx := m.seq, lastNs := s.ns }
      subStatus { u with spp := { u.spp with own := x.sn, unauth := x.st == 2 } } k m.body = 0 →
      (∃ n, n < 256 ∧ getSub s n = none) → x.tx + 2 < 2 ^ 64 - 1 →
      ∃ t n v, exec (.subscribe src m) s = .next t ∧ SameMemory s t ∧ getSub s n = none ∧ getSub t n = some v ∧ v.slot = k ∧
        v.key = pk (beNat (m.body.take 2)) (beNat ((m.body.drop 2).take 1)) ∧ v.mode = beNat ((m.body.drop 3).take 1) ∧
        v.period = beNat ((m.body.drop 4).take 2) ∧ (∀ j, j ≠ n → getSub t j = getSub s j)) ∧
    (m.type = 0x10 → ∃ t, exec (.access src m) s = .next t ∧
      ((∀ items, parseItems m.count m.body = some items → ∀ x ∈ items, x.op = 1) →
        SameMemory s t ∧ (getSession t k).rx = m.seq ∧ (getSession t k).tx = (getSession s k).tx + 1 ∧ t.doms = s.doms ∧
        t.streams = s.streams))) ∧
  (∀ (s : State) (items : List Item),
    ((∀ x ∈ items, x.op ≠ 2) → (accessItems s items).2.2 = s) ∧
    ((∃ x ∈ items, x.op = 2 ∧ (0x8000 ≤ x.index ∨ ∀ r, findParam x.key = some r → r.acc.writable = false)) →
      (accessItems s items).2.2 = s) ∧
    ((accessItems s items).1 ≠ 0 → (accessItems s items).2.2 = s)) ∧
  (∀ (key : Nat) (v : List Byte) (r : PRow) (s : State), key < 0x800000 → findParam key = some r → r.acc.writable = true →
    writeLenOk r key v.length = true → (checkedWrite s key v).1 = 0 →
    exec (.registerWrite key v) s = .next { afterResponse (checkedWrite s key v).2 with wstatus := 0 }) ∧
  (∀ (v : Nat) (s : State), gateOk s (pk 2 0) = true → v = getP s (pk 1 1) → allEmpty s = true →
    ∃ t, exec (.versionSelectedWrite v) s = .next t ∧ t = { s with par := t.par, wstatus := 0 } ∧ getP t (pk 2 0) = v ∧
      SameParamsBut [pk 2 0] s t) ∧
  (∀ (n : Nat) (s : State) (u : Subscr) (r : PRow), getSub s n = some u → findParam u.key = some r →
    (getSession s u.slot).rx < 2 ^ 64 - 1 → (getSession s u.slot).tx + 1 < 2 ^ 64 - 1 →
    ∃ t v, exec (.notify n) s = .next t ∧ getSub t n = some v ∧ v.nextNs = u.nextNs + u.period * 1000000 ∧ v.last.isSome = true ∧
      v.slot = u.slot ∧ v.key = u.key ∧ ∀ j, j ≠ n → getSub t j = getSub s j)


/-! ### Snapshots and the host memory service -/

/-- Snapshots: at its point a snapshot begins and its record is sent, or the point is skipped and counted; the drain ends
once every earlier write has completed; a page is copied once; a mirrored write is sent; with every entry done the closing
record is sent; an operation without an answer fails the snapshot.
The model's own readings and choices in it: the log entries 58 and 59. -/
def Obligations.SnapshotEventsComplete : Prop :=
  (∀ (d : Nat) (s u : State), d < 8 → getP s (snapKey d 2) ≠ 0 → domRuns s d = true →
    toDcc d (getP s (snapKey d 1) + (getSnapD s d).point * getP s (snapKey d 2)) s = some u →
    ∃ t, exec (.snapshotPoint d) s = .next t ∧ SameMemory u t ∧ (getSnapD t d).point = (getSnapD s d).point + 1 ∧
      (getP u (snapKey d 6) = 1 ∨ (getSnapD s d).phase ≠ 0 ∨ getP u (snapKey d 3) = 0xFF →
        (getSnapD t d).phase = (getSnapD s d).phase ∧
        getP t (snapKey d 0xC) = min (getP u (snapKey d 0xC) + 1) (counterMax (snapKey d 0xC))) ∧
      (getP u (snapKey d 6) ≠ 1 → (getSnapD s d).phase = 0 → getP u (snapKey d 3) ≠ 0xFF →
        (getSnapD t d).phase = 1 ∧ (getSnapD t d).k = getP u (snapKey d 8) ∧ (getSnapD t d).atCtc = u.ctc ∧
        getP t (snapKey d 8) = (getP u (snapKey d 8) + 1) % 2 ^ 32 ∧ getP t (snapKey d 7) = 1)) ∧
  (∀ (d : Nat) (s : State), d < 8 → (getSnapD s d).phase = 1 → drained s d = true →
    exec (.snapshotDrainEnd d) s = .next (setP (setSnapD s d { getSnapD s d with phase := 2 }) (snapKey d 7) 2)) ∧
  (∀ (d e page : Nat) (s : State), d < 8 → e < 1024 → (getSnapD s d).phase = 2 → (getReg s e).valid = true →
    (getReg s e).dom = d → (getReg s e).inEffect ≠ 1 → (getReg s e).inEffect < 3 → page < (getReg s e).pages →
    SMap.get false (getReg s e).sent page = false →
    ∃ t, exec (.snapshotPageCopy d e page) s = .next t ∧
      ∀ bs u, vread s d (((getReg s e).vpage + page) * 2 ^ 21) s.ctc (2 ^ 21) (vfuel (2 ^ 21)) = (.ok, bs, u) →
        (∀ b ∈ bs, b.2 = false) → SMap.get false (getReg t e).sent page = true ∧
          getP t (snapKey d 0xD) = min (getP u (snapKey d 0xD) + 1) (counterMax (snapKey d 0xD))) ∧
  (∀ (d : Nat) (s : State) (m : MirrorWrite) (rest : List MirrorWrite), d < 8 → (getSnapD s d).mirrors = m :: rest →
    (∀ b ∈ m.data, b.2 = false) → ∃ t, exec (.snapshotMirrorWrite d) s = .next t ∧ SameMemory s t ∧
      (getSnapD t d).mirrors = rest ∧
      getP t (snapKey d 0xE) = min (getP s (snapKey d 0xE) + m.data.length) (counterMax (snapKey d 0xE))) ∧
  (∀ (d : Nat) (s : State), d < 8 → (getSnapD s d).phase = 2 → entriesDone s d = true →
    ∃ t, exec (.snapshotComplete d) s = .next t ∧ SameMemory s t ∧ (getSnapD t d).phase = 3 ∧
      (getSnapD t d).out = (getSnapD s d).out + 1) ∧
  (∀ (d at_ : Nat) (s : State), d < 8 → oldestSnap s d = some at_ → ∃ t, exec (.snapshotTimeout d) s = .next t ∧
    (getSnapD t d).phase = 0 ∧ (getSnapD t d).alert = true ∧ getP t (snapKey d 7) = 4)

/-- The host memory service: a request in order that its region allows is applied there, and nowhere else, and the next
number is expected, where no stored byte is in error and no access waits at a stack (both of which an access to a stack
brings to an end); a READ or WRITE of the driver's side changes no memory; a frame whose CRC fails is counted and dropped.
Answers reach the requests of their flow; without one the requests are sent again, or the flow begins anew.
The model's own readings and choices in it: the log entries 48, 60 and 63. -/
def Obligations.HostMemoryServiceComplete : Prop :=
  (∀ (port : Nat) (f : HmsFrame) (s : State) (i : Instr), port < 17 →
    (f.op = 3 ∧ i = .page port f) ∨ (f.op = 4 ∧ i = .mirror port f) ∨ (f.op = 5 ∧ i = .refresh port f) ∨
      (f.op = 6 ∧ i = .record port f) ∨ (f.op = 1 ∧ i = .read port f) ∨ (f.op = 2 ∧ i = .write port f) →
    (hmsCrc f ≠ f.crc → ∃ t, exec i s = .next t ∧ SameMemory s t ∧ t.ports = s.ports ∧
      SameParamsBut [portKey port 0x0D, pk 0x0A40 0x0A] s t) ∧
    (hmsCrc f = f.crc → f.restart ≠ 1 → (findRecv s port f.srcIp f.srcPort).expect = f.seq → f.seq < 2 ^ 32 →
      (findRecv s port f.srcIp f.srcPort).held = [] → s.errs = [] → (∀ k, queueAt s k = []) →
      ∃ t, exec i s = .next t ∧ (findRecv t port f.srcIp f.srcPort).expect = (f.seq + 1) % 2 ^ 32 ∧
        (hmsRefuse s f ≠ 0 → SameMemory s t) ∧ (f.op = 1 ∨ f.op = 2 → SameMemory s t) ∧
        (f.op = 3 ∨ f.op = 4 ∨ f.op = 6 → hmsRefuse s f = 0 →
          let at_ := getP s (rxKey f.region 2) + f.offset
          SameMemoryBut at_ f.payload.length s t ∧ ∀ k, k < f.payload.length → readByte t (at_ + k) = f.payload.getD k 0) ∧
        (f.op = 5 → hmsRefuse s f = 0 →
          let from_ := getP s (rxKey f.region 2) + f.offset
          let to_ := getP s (rxKey f.region 2) + f.offset2
          SameMemoryBut to_ (f.count * 2 ^ 21) s t ∧
            ∀ k, k < f.count * 2 ^ 21 → readByte t (to_ + k) = readByte s (from_ + k)))) ∧
  (∀ (port fl ch id part : Nat) (f : HmsFrame) (s : State) (r : HReq), port < 17 → hmsCrc f = f.crc → f.version = 1 →
    f.rsv0 = 0 → f.rsv1 = 0 → f.length = f.payload.length → flowOf s port f = some fl → (getFlow s fl).unacked = [r] →
    (getFlow s fl).waiting = [] → r.who = .dma ch id part →
    (f.op = 0x81 → r.frame.op = 1 → r.frame.seq = f.seq → r.frame.count = f.length →
      ∃ t, exec (.data port f) s = .next t ∧ SameMemory s t ∧ (getFlow t fl).unacked = [] ∧
        ∀ x ∈ (getDma t ch).xfers, x.id = id → SMap.get [] x.parts part = f.payload) ∧
    (f.op = 0x82 → r.frame.op ≠ 1 → seqBelow r.frame.seq f.seq = true →
      ∃ t, exec (.ack port f) s = .next t ∧ SameMemory s t ∧ (getFlow t fl).unacked = [] ∧
        (getDma t ch).xfers = (getDma s ch).xfers.map fun x => if x.id == id then { x with wait := x.wait - 1 } else x) ∧
    (f.op = 0x83 → r.frame.seq = f.seq → ∀ x, (getDma s ch).xfers.find? (fun x => x.id == id) = some x →
      (getD s (getDma s ch).dom).st.faultable = true →
      ∃ t, exec (.nak port f) s = .next t ∧ SameMemory s t ∧ (getFlow t fl).unacked = [] ∧
        ∃ q, t.raised = s.raised ++ [q] ∧ q.code = 0x0F ∧ q.dom = some (getDma s ch).dom)) ∧
  (∀ (fl : Nat) (s : State), fl < 129 → (getFlow s fl).unacked ≠ [] →
    ∃ t, exec (.hmsResendTimeout fl) s = .next t ∧
      ((getFlow s fl).rounds < getP s (pk 0x0A40 7) → (getFlow t fl).rounds = (getFlow s fl).rounds + 1 ∧
        (getFlow t fl).unacked = (getFlow s fl).unacked ∧
        getP t (pk 0x0A40 8) = min (getP s (pk 0x0A40 8) + (getFlow s fl).unacked.length) (counterMax (pk 0x0A40 8))) ∧
      (getP s (pk 0x0A40 7) ≤ (getFlow s fl).rounds → (getFlow t fl).unacked = [] ∧ (getFlow t fl).waiting = [] ∧
        (getFlow t fl).restart = true))

/-! ### Collectives and ports -/

/-- Collectives and ports. A CVC's collective starts at its DCC when its descriptor passes, its hops are sent once their
inputs are there, a frame is staged or discarded for its reason, windows close, what is missing after the grace raises
fault 0Dh, and the end sends the token. A port pauses and resumes, answers for its own addresses, counts what it drops,
retrains when it loses its link, and keeps PTP time; a clock of the test port changes nothing but the test port.
The model's own readings and choices in it: the log entries 64, 65, 66, 69, 70 and 71. -/
def Obligations.CollectivesAndPortsComplete : Prop :=
  (∀ (c desc : Nat) (s u v w : State), c < 16 →
    let x := cvcCfg s c
    domRuns s x.dom = true → (getD s x.dom).started = true → (getColl s c).st = 1 → (getColl s c).run = false →
    readDesc s x.dom (getP s (cvcKey c 0x11) + 64 * (getColl s c).idx) = (some desc, u) →
    let at_ := max (cdStart desc + (getColl s c).iter * getP s (cvcKey c 0x13)) (getColl s c).freeAt
    finishedBefore u x.dom at_ = false → toDcc x.dom at_ u = some v → descCheck v x desc = (none, w) →
    exec (.collectiveStart c) s = .next (beginColl w c desc)) ∧
  (∀ (c : Nat) (s u : State) (g : SendLeg) (bs : List (Nat × WBlock)), c < 16 → (getColl s c).run = true →
    (sendLegs (cvcCfg s c) (cdOp (getColl s c).desc)).find?
      (fun g => !(getColl s c).sent.contains g.hop && g.needs.all (getColl s c).took.contains) = some g →
    (∀ e ∈ g.peers, isPaused s (portOfCode (getP s (pk (0x0B40 + e) 2))) (cvcCfg s c).prio = false) →
    sendBlocks s c g = (bs, u) → (∀ b ∈ bs, ∀ x ∈ decodeBlock b.2, x.2 = false) → nanPolicy u ≠ 1 →
    ∃ t, exec (.collectiveHopSend c) s = .next t ∧ SameMemory u t ∧ (getColl t c).sent = g.hop :: (getColl u c).sent ∧
      getP t (cvcStat c 3) = min (getP u (cvcStat c 3) + 1) (counterMax (cvcStat c 3))) ∧
  (∀ (port : Nat) (f : HerdFrame) (s : State), port < 17 → f.cvc < 16 → f.ce = false →
    let why := discardReason (rxOk s port) f
    (why ≠ 0 → ∃ t, exec (.herdFrame port f) s = .next t ∧ SameMemory s t ∧ t.herd = s.herd ∧ getP t (pk 0x0B01 2) = why ∧
      getP t (pk 0x0B01 1) = min (getP s (pk 0x0B01 1) + 1) (counterMax (pk 0x0B01 1))) ∧
    (why = 0 → (getColl s f.cvc).run = false → ∃ t, exec (.herdFrame port f) s = .next t ∧ SameMemory s t ∧
      ∃ k ∈ (getColl t f.cvc).copies, f ∈ k.frames ∧ k.seq = f.collSeq ∧ k.hop = f.hop ∧ k.seat = f.srcSeat ∧ k.chunk = f.chunk)) ∧
  (∀ (c h : Nat) (s : State), c < 16 → nextClose s c = some h →
    let u := toPtp (closeOf s c h) s
    let late := (takeLegs (cvcCfg u c) (cdOp (getColl u c).desc)).filter fun t => t.hop == h && !(getColl u c).took.contains (t.hop, t.peer)
    exec (.windowClose c) s = .next (selectAll (incP (setColl u c { getColl u c with closed := h :: (getColl u c).closed })
      (cvcStat c 5) late.length) c)) ∧
  (∀ (c h : Nat) (s : State), c < 16 → nextGrace s c = some h → ∃ t, exec (.windowGraceClose c) s = .next t ∧
    h ∈ (getColl t c).graced ∧
    ((getD s (cvcCfg s c).dom).st.faultable = true →
      ∀ g ∈ takeLegs (cvcCfg s c) (cdOp (getColl s c).desc), g.hop = h → (getColl s c).took.contains (g.hop, g.peer) = false →
        ∃ r ∈ t.raised, r.code = 0x0D ∧ r.dom = some (cvcCfg s c).dom)) ∧
  (∀ (c : Nat) (s : State), c < 16 → collDone s c = true →
    exec (.collectiveComplete c) s = .next (selectAll (endColl s c true) c) ∧ SameMemory s (endColl s c true) ∧
      (getColl (endColl s c true) c).run = false ∧ (getColl (endColl s c true) c).freeAt = (getD s (cvcCfg s c).dom).dcc ∧
      (endColl s c true).incrs = (if cdTokenEn (getColl s c).desc then
        sendIncr s (bridgeOf (cvcCfg s c).unit) (cvcCfg s c).dom (cdPos (getColl s c).desc) (cdToken (getColl s c).desc) 1
        else s).incrs) ∧
  (∀ (port prio q : Nat) (s : State), port < 17 → prio < 8 →
    ∃ t, exec (.pfcFrame port prio q) s = .next t ∧ SameMemory s t ∧
      (bit (getP s (portKey port 7)) prio = false → t.ports = s.ports) ∧
      (bit (getP s (portKey port 7)) prio = true → q ≠ 0 →
        SMap.get 0 (getPort t port).pause prio = s.ns + pauseNs s port q) ∧
      (bit (getP s (portKey port 7)) prio = true → q = 0 → SMap.get 0 (getPort t port).pause prio = 0)) ∧
  (∀ (port prio : Nat) (s : State), port < 17 → prio < 8 → SMap.get 0 (getPort s port).pause prio ≠ 0 →
    ∃ t, exec (.pfcPauseExpiry port prio) s = .next t ∧ SMap.get 0 (getPort t port).pause prio = 0) ∧
  (∀ (port ip : Nat) (e : Eth) (s : State), port < 17 →
    (ip ≠ 0 → ip = getP s (portKey port 4) → exec (.arpRequest port ip e) s = .next (emit (rxOk s port) port (.arpReply port ip e))) ∧
    (ip = 0 ∨ ip ≠ getP s (portKey port 4) → exec (.arpRequest port ip e) s = .next (rxDrop s port)) ∧
    (ip = linkLocal (getP s (portKey port 3)) ∨ (ip ≠ 0 ∧ ip = getP s (portKey port 5)) →
      exec (.neighbourSolicitation port ip e) s = .next (emit (rxOk s port) port (.neighbourAdvert port ip e))) ∧
    (ip ≠ linkLocal (getP s (portKey port 3)) → (ip = 0 ∨ ip ≠ getP s (portKey port 5)) →
      exec (.neighbourSolicitation port ip e) s = .next (rxDrop s port))) ∧
  (∀ (port : Nat) (s : State), port < 17 →
    exec (.discardedFrame port .notAccepted) s = .next (rxDrop s port) ∧ exec (.discardedFrame port .fcs) s = .next (rxDrop s port) ∧
    exec (.discardedFrame port .fec) s = .next (incP (rxDrop s port) (portKey port 0x11) 1) ∧
    (port = hostPort → getP s (pk 0x0530 1) ≠ 0 →
      exec (.discardedFrame port .macsec) s = .next (incP (rxDrop s port) (pk 0x0530 0xB) 1))) ∧
  (∀ (port : Nat) (ok : Bool) (s : State), port < 17 →
    (linkOf s port = 2 → ∃ t, exec (.linkLoss port) s = .next t ∧ SameMemory s t ∧ linkOf t port = 1 ∧ (getPort t port).attempts = 1) ∧
    (linkOf s port = 1 → (getPort s port).attempts ≠ 0 → ∃ t, exec (.retrainAttemptEnd port ok) s = .next t ∧
      (ok = true → linkOf t port = 2) ∧
      (ok = false → (getPort s port).attempts < getP s (portKey port 0x0B) →
        linkOf t port = 1 ∧ (getPort t port).attempts = (getPort s port).attempts + 1) ∧
      (ok = false → getP s (portKey port 0x0B) ≤ (getPort s port).attempts → linkOf t port = 3)) ∧
    (linkOf s port = 3 → ∃ t, exec (.periodicRetrain port ok) s = .next t ∧ SameMemory s t ∧ linkOf t port = (if ok then 2 else 3)) ∧
    (linkOf s port = 1 → (getPort s port).attempts = 0 → ∃ t, exec (.linkTrainingEnd port ok) s = .next t ∧ SameMemory s t ∧
      linkOf t port = (if ok then 2 else 0))) ∧
  (∀ (port domain : Nat) (m : PtpMsg) (s : State), port < 17 →
    (portOfCode (getP s (pk 0x0A30 2)) ≠ port → exec (.ptpMessage port domain m) s = .next (rxDrop s port)) ∧
    (portOfCode (getP s (pk 0x0A30 2)) = port → ∃ t, exec (.ptpMessage port domain m) s = .next t ∧ SameMemory s t ∧
      (getP s (pk 0x0A30 1) ≠ 1 ∨ domain ≠ getP s (pk 0x0A30 3) → t = rxOk s port) ∧
      (∀ off, m = .sync off → getP s (pk 0x0A30 1) = 1 → domain = getP s (pk 0x0A30 3) → s.ports.master = true →
        getP t (pk 0x0A30 6) = wrap 64 off ∧ (15 ≤ s.ports.good → off.natAbs ≤ 50 → getP t (pk 0x0A30 7) = 2)))) ∧
  (∀ (s : State), (getP s (pk 0x0A30 1) ≠ 2 → exec .ptp1ppsEdge s = .next s) ∧
    (getP s (pk 0x0A30 1) = 2 → ∃ t, exec .ptp1ppsEdge s = .next t ∧ SameMemory s t ∧
      (s.ports.secDue = true → t.ports.secDue = false ∧ t.ports.edge = some (getP s (pk 0x0A30 5) * 1000000000 + 1000000000)))) ∧
  (∀ (s : State), getP s (pk 0x0A30 1) = 1 → getP s (pk 0x0A30 7) = 1 ∨ getP s (pk 0x0A30 7) = 2 →
    ∃ t, exec .ptpHoldover s = .next t ∧ getP t (pk 0x0A30 7) = 3 ∧ t.ports.good = 0) ∧
  (∀ (tms tdi trst : Bool) (pins : Nat) (s : State), ∃ t, exec (.boundaryScan tms tdi trst pins) s = .next t ∧
    t = { s with ports := { s.ports with tap := t.ports.tap } } ∧
    (trst = true → t.ports.tap.st = 0 ∧ t.ports.tap.ir = 3) ∧
    (trst = false → s.ports.tap.st = 15 → tms = false → t.ports.tap.st = 1))
end

