-- ==== Sys2Proof/Laws/Store.lean ====
section
/-!
SUPPORT. The laws of the sparse store: what a read finds after a write, and that writes, filters and deletions keep the
canonical form.
-/
namespace Sys2Proof.Machine

@[simp] theorem SMap.get_nil {V : Type} (d : V) (k : Nat) : SMap.get d ([] : SMap V) k = d := rfl

theorem SMap.get_ins {V : Type} (d v : V) (m : SMap V) (k k' : Nat) :
    SMap.get d (SMap.ins k v m) k' = if k = k' then v else SMap.get d m k' := by
  induction m with
  | nil => rfl
  | cons x r ih =>
    obtain ⟨j, w⟩ := x
    simp only [SMap.ins]
    split
    · subst_vars; simp only [SMap.get]; split <;> simp_all
    · split
      · simp only [SMap.get]
      · simp only [SMap.get, ih]
        split <;> split <;> simp_all

theorem SMap.get_del_same {V : Type} (d : V) (m : SMap V) (k : Nat) : SMap.get d (SMap.del k m) k = d := by
  induction m with
  | nil => rfl
  | cons x r ih =>
    obtain ⟨j, w⟩ := x
    simp only [SMap.del]
    split
    · exact ih
    · simp [SMap.get, *]

theorem SMap.get_del_other {V : Type} (d : V) (m : SMap V) (k k' : Nat) (h : k ≠ k') :
    SMap.get d (SMap.del k m) k' = SMap.get d m k' := by
  induction m with
  | nil => rfl
  | cons x r ih =>
    obtain ⟨j, w⟩ := x
    simp only [SMap.del]
    split
    · subst_vars; simp [SMap.get, ih, h]
    · simp [SMap.get, ih]

/-- What a read finds after a write. -/
theorem SMap.get_set {V : Type} [DecidableEq V] (d v : V) (m : SMap V) (k k' : Nat) :
    SMap.get d (SMap.set d m k v) k' = if k = k' then v else SMap.get d m k' := by
  unfold SMap.set
  split
  · split
    · subst_vars; exact SMap.get_del_same ..
    · exact SMap.get_del_other _ _ _ _ ‹_›
  · exact SMap.get_ins ..

@[simp] theorem SMap.get_set_same {V : Type} [DecidableEq V] (d v : V) (m : SMap V) (k : Nat) :
    SMap.get d (SMap.set d m k v) k = v := by simp [SMap.get_set]

theorem SMap.get_set_other {V : Type} [DecidableEq V] (d v : V) (m : SMap V) (k k' : Nat) (h : k ≠ k') :
    SMap.get d (SMap.set d m k v) k' = SMap.get d m k' := by simp [SMap.get_set, h]

theorem SMap.wfFrom_mono {V : Type} [DecidableEq V] {d : V} {lo lo' : Nat} {m : SMap V} (h : lo' ≤ lo)
    (w : SMap.wfFrom d lo m = true) : SMap.wfFrom d lo' m = true := by
  cases m with
  | nil => rfl
  | cons x r =>
    simp only [SMap.wfFrom, Bool.and_eq_true, decide_eq_true_eq] at *
    exact ⟨⟨by omega, w.1.2⟩, w.2⟩

theorem SMap.wfFrom_ins {V : Type} [DecidableEq V] {d v : V} {m : SMap V} {k : Nat} (hv : v ≠ d) :
    ∀ {lo : Nat}, lo ≤ k → SMap.wfFrom d lo m = true → SMap.wfFrom d lo (SMap.ins k v m) = true := by
  induction m with
  | nil => intro lo h _; simp [SMap.ins, SMap.wfFrom, h, hv]
  | cons x r ih =>
    intro lo h w
    obtain ⟨j, u⟩ := x
    simp only [SMap.wfFrom, Bool.and_eq_true, decide_eq_true_eq] at w
    simp only [SMap.ins]
    split
    · subst_vars; simp [SMap.wfFrom, h, hv, w.2]
    · split
      · simp only [SMap.wfFrom, Bool.and_eq_true, decide_eq_true_eq]
        exact ⟨⟨h, hv⟩, ⟨by omega, w.1.2⟩, w.2⟩
      · simp only [SMap.wfFrom, Bool.and_eq_true, decide_eq_true_eq]
        exact ⟨w.1, ih (by omega) w.2⟩

theorem SMap.wfFrom_append {V : Type} [DecidableEq V] {d : V} {b : SMap V} {k : Nat} (wb : SMap.wfFrom d k b = true) :
    ∀ {a : SMap V} {lo : Nat}, lo ≤ k → SMap.wfFrom d lo a = true → (∀ x ∈ a, x.1 < k) →
      SMap.wfFrom d lo (a ++ b) = true := by
  intro a
  induction a with
  | nil => intro lo h _ _; exact SMap.wfFrom_mono h wb
  | cons x r ih =>
    intro lo _ w hk
    simp only [SMap.wfFrom, Bool.and_eq_true, decide_eq_true_eq, List.cons_append] at *
    have hx := hk x (by simp)
    exact ⟨w.1, ih (by omega) w.2 fun y hy => hk y (by simp [hy])⟩

theorem SMap.wfFrom_put {V : Type} [DecidableEq V] {d v : V} {k : Nat} {m : SMap V} (w : SMap.wfFrom d (k + 1) m = true) :
    SMap.wfFrom d k (SMap.put d k v m) = true := by
  unfold SMap.put
  split
  · exact SMap.wfFrom_mono (by omega) w
  · simp_all [SMap.wfFrom]

theorem SMap.wfFrom_takeWhile {V : Type} [DecidableEq V] {d : V} (k : Nat) :
    ∀ {m : SMap V} {lo : Nat}, SMap.wfFrom d lo m = true →
      SMap.wfFrom d lo (m.takeWhile fun x => decide (x.1 < k)) = true ∧
      SMap.wfFrom d (max lo k) (m.dropWhile fun x => decide (x.1 < k)) = true := by
  intro m
  induction m with
  | nil => intro lo _; simp [SMap.wfFrom]
  | cons x r ih =>
    intro lo w
    simp only [SMap.wfFrom, Bool.and_eq_true, decide_eq_true_eq] at w
    by_cases h : x.1 < k
    · have q := ih w.2
      simp only [List.takeWhile_cons, List.dropWhile_cons, h, decide_true, if_true]
      refine ⟨by simp [SMap.wfFrom, w.1.1, w.1.2, q.1], SMap.wfFrom_mono (by omega) q.2⟩
    · simp only [List.takeWhile_cons, List.dropWhile_cons, h, decide_false, Bool.false_eq_true, if_false]
      exact ⟨rfl, by simp [SMap.wfFrom, w.1.2, w.2]; omega⟩

/-- The pairs passed stand in front. -/
theorem SMap.updGo_acc {V : Type} [DecidableEq V] (d : V) (f : V → V) :
    ∀ (ks : List Nat) (m acc : SMap V), SMap.updGo d f ks m acc = acc.reverse ++ SMap.updGo d f ks m [] := by
  intro ks
  induction ks with
  | nil => intro m acc; simp [SMap.updGo]
  | cons k ks ih =>
    intro m acc
    have put (v : V) (a b : SMap V) : SMap.put d k v (a ++ b) = SMap.put d k v [] ++ (a ++ b) := by
      unfold SMap.put; split <;> simp
    simp only [SMap.updGo]
    split
    · rw [ih, put, ih [] (SMap.put _ _ _ (_ ++ [])), put]; simp
    · split
      · rw [ih, put, ih _ (SMap.put _ _ _ (_ ++ [])), put]; simp
      · rw [ih, put, ih _ (SMap.put _ _ _ (_ ++ [])), put]; simp

/-- Updating the values at rising keys keeps the canonical form. -/
theorem SMap.wfFrom_updAll {V : Type} [DecidableEq V] {d : V} {f : V → V} :
    ∀ {ks : List Nat} {m : SMap V} {lo : Nat}, ks.Pairwise (· < ·) → (∀ k ∈ ks, lo ≤ k) → SMap.wfFrom d lo m = true →
      SMap.wfFrom d lo (SMap.updGo d f ks m []) = true := by
  intro ks
  induction ks with
  | nil => intro m lo _ _ w; simpa [SMap.updGo] using w
  | cons k ks ih =>
    intro m lo p hlo w
    rw [List.pairwise_cons] at p
    have hk := hlo k (by simp)
    obtain ⟨w1, w2⟩ := SMap.wfFrom_takeWhile k w
    have small : ∀ x ∈ m.takeWhile fun x => decide (x.1 < k), x.1 < k := fun x hx => by
      simpa using (List.all_takeWhile (l := m) (p := fun x => decide (x.1 < k)) |> List.all_eq_true.mp) x hx
    have front (v : V) (a q : SMap V) : (SMap.put d k v (a.reverse ++ [])).reverse ++ q = a ++ SMap.put d k v q := by
      unfold SMap.put; split <;> simp
    have step (v : V) (q : SMap V) (wq : SMap.wfFrom d (k + 1) q = true) :
        SMap.wfFrom d lo ((m.takeWhile fun x => decide (x.1 < k)) ++ SMap.put d k v (SMap.updGo d f ks q [])) = true :=
      SMap.wfFrom_append (SMap.wfFrom_put (ih p.2 (fun j hj => p.1 j hj) wq)) hk w1 small
    rw [Nat.max_eq_right hk] at w2
    simp only [SMap.updGo]
    split
    · rw [SMap.updGo_acc, front]
      exact step (f d) [] rfl
    · rename_i k' v r e
      rw [e] at w2
      simp only [SMap.wfFrom, Bool.and_eq_true, decide_eq_true_eq] at w2
      split
      · rename_i he
        subst he
        rw [SMap.updGo_acc, front]
        exact step (f v) r w2.2
      · rw [SMap.updGo_acc, front]
        refine step (f d) ((k', v) :: r) ?_
        simp only [SMap.wfFrom, Bool.and_eq_true, decide_eq_true_eq]
        exact ⟨⟨by omega, w2.1.2⟩, w2.2⟩

theorem SMap.wf_updAll {V : Type} [DecidableEq V] {d : V} (f : V → V) {ks : List Nat} {m : SMap V}
    (p : ks.Pairwise (· < ·)) (w : SMap.wf d m = true) : SMap.wf d (SMap.updAll d f ks m) = true :=
  SMap.wfFrom_updAll p (fun _ _ => Nat.zero_le _) w

/-- A sublist of a canonical store is canonical. -/
theorem SMap.wfFrom_filter {V : Type} [DecidableEq V] {d : V} {m : SMap V} (p : Nat × V → Bool) :
    ∀ {lo : Nat}, SMap.wfFrom d lo m = true → SMap.wfFrom d lo (m.filter p) = true := by
  induction m with
  | nil => intro lo _; rfl
  | cons x r ih =>
    intro lo w
    simp only [SMap.wfFrom, Bool.and_eq_true, decide_eq_true_eq] at w
    simp only [List.filter]
    split
    · simp only [SMap.wfFrom, Bool.and_eq_true, decide_eq_true_eq]
      exact ⟨w.1, ih w.2⟩
    · exact SMap.wfFrom_mono (by omega) (ih w.2)

theorem SMap.del_eq_filter {V : Type} (k : Nat) (m : SMap V) : SMap.del k m = m.filter fun x => decide (x.1 ≠ k) := by
  induction m with
  | nil => rfl
  | cons x r ih =>
    obtain ⟨j, u⟩ := x
    simp only [SMap.del, List.filter]
    by_cases h : j = k <;> simp [h, ih]

/-- A write keeps the canonical form. -/
theorem SMap.wf_set {V : Type} [DecidableEq V] {d : V} {m : SMap V} (k : Nat) (v : V) (h : SMap.wf d m = true) :
    SMap.wf d (SMap.set d m k v) = true := by
  unfold SMap.set
  split
  · rw [SMap.del_eq_filter]; exact SMap.wfFrom_filter _ h
  · exact SMap.wfFrom_ins ‹_› (Nat.zero_le _) h

/-- Leaving entries out keeps the canonical form. -/
theorem SMap.wf_filter {V : Type} [DecidableEq V] {d : V} {m : SMap V} (p : Nat × V → Bool) (h : SMap.wf d m = true) :
    SMap.wf d (m.filter p) = true := SMap.wfFrom_filter p h

/-- The empty store is canonical. -/
@[simp] theorem SMap.wf_nil {V : Type} [DecidableEq V] (d : V) : SMap.wf d ([] : SMap V) = true := rfl

/-- A canonical store lists nothing below its bound. -/
theorem SMap.get_below {V : Type} [DecidableEq V] {d : V} {m : SMap V} :
    ∀ {lo k : Nat}, SMap.wfFrom d lo m = true → k < lo → SMap.get d m k = d := by
  induction m with
  | nil => intros; rfl
  | cons x r ih =>
    intro lo k w h
    obtain ⟨j, u⟩ := x
    simp only [SMap.wfFrom, Bool.and_eq_true, decide_eq_true_eq] at w
    have : j ≠ k := by omega
    simp only [SMap.get, this, if_false]
    exact ih w.2 (by omega)

/-- Two canonical stores that read the same are the same data. -/
theorem SMap.ext_of_get {V : Type} [DecidableEq V] {d : V} {m : SMap V} :
    ∀ {m' : SMap V} {lo : Nat}, SMap.wfFrom d lo m = true → SMap.wfFrom d lo m' = true →
      (∀ k, SMap.get d m k = SMap.get d m' k) → m = m' := by
  induction m with
  | nil =>
    intro m' lo _ w h
    cases m' with
    | nil => rfl
    | cons y r =>
      obtain ⟨j, u⟩ := y
      simp only [SMap.wfFrom, Bool.and_eq_true, decide_eq_true_eq] at w
      have := h j
      simp [SMap.get] at this
      exact absurd this.symm w.1.2
  | cons x r ih =>
    intro m' lo w w' h
    obtain ⟨j, u⟩ := x
    have w0 := w
    simp only [SMap.wfFrom, Bool.and_eq_true, decide_eq_true_eq] at w
    cases m' with
    | nil =>
      have := h j
      simp [SMap.get] at this
      exact absurd this w.1.2
    | cons y r' =>
      obtain ⟨j', u'⟩ := y
      have w0' := w'
      simp only [SMap.wfFrom, Bool.and_eq_true, decide_eq_true_eq] at w'
      have hj : j = j' := by
        refine Decidable.byContradiction fun hn => ?_
        rcases Nat.lt_or_gt_of_ne hn with hl | hl
        · have := h j
          rw [SMap.get_below (m := (j', u') :: r') (lo := j') (by simp [SMap.wfFrom, w'.1.2, w'.2]) hl] at this
          simp [SMap.get] at this
          exact w.1.2 this
        · have := h j'
          rw [SMap.get_below (m := (j, u) :: r) (lo := j) (by simp [SMap.wfFrom, w.1.2, w.2]) hl] at this
          simp [SMap.get] at this
          exact w'.1.2 this.symm
      subst hj
      have hu : u = u' := by simpa [SMap.get] using h j
      subst hu
      congr 1
      refine ih w.2 w'.2 fun k => ?_
      by_cases hk : j = k
      · subst hk
        rw [SMap.get_below w.2 (by omega), SMap.get_below w'.2 (by omega)]
      · simpa [SMap.get, hk] using h k

end Sys2Proof.Machine
end

