-- ==== Sys2Proof/Laws/State.lean ====
section
/-!
SUPPORT. What each primitive update of the state leaves alone, field by field, and what a bank holds after one of its
units is written.
-/
namespace Sys2Proof.Machine

@[simp] theorem setP_pending (s : State) (k v : Nat) : (setP s k v).pending = s.pending := rfl
@[simp] theorem setP_ctc (s : State) (k v : Nat) : (setP s k v).ctc = s.ctc := rfl
@[simp] theorem setP_ns (s : State) (k v : Nat) : (setP s k v).ns = s.ns := rfl
@[simp] theorem setP_nsFrac (s : State) (k v : Nat) : (setP s k v).nsFrac = s.nsFrac := rfl
@[simp] theorem setP_ptp (s : State) (k v : Nat) : (setP s k v).ptp = s.ptp := rfl
@[simp] theorem setP_mem (s : State) (k v : Nat) : (setP s k v).mem = s.mem := rfl
@[simp] theorem setP_poison (s : State) (k v : Nat) : (setP s k v).poison = s.poison := rfl
@[simp] theorem setP_errs (s : State) (k v : Nat) : (setP s k v).errs = s.errs := rfl
@[simp] theorem setP_nanPol (s : State) (k v : Nat) : (setP s k v).nanPol = s.nanPol := rfl
@[simp] theorem setP_nanPolAt (s : State) (k v : Nat) : (setP s k v).nanPolAt = s.nanPolAt := rfl
@[simp] theorem setP_floor (s : State) (k v : Nat) : (setP s k v).floor = s.floor := rfl
@[simp] theorem setP_floorAt (s : State) (k v : Nat) : (setP s k v).floorAt = s.floorAt := rfl
@[simp] theorem setP_mons (s : State) (k v : Nat) : (setP s k v).mons = s.mons := rfl
@[simp] theorem setP_elands (s : State) (k v : Nat) : (setP s k v).elands = s.elands := rfl
@[simp] theorem setP_engines (s : State) (k v : Nat) : (setP s k v).engines = s.engines := rfl
@[simp] theorem setP_tiles (s : State) (k v : Nat) : (setP s k v).tiles = s.tiles := rfl
@[simp] theorem setP_cells (s : State) (k v : Nat) : (setP s k v).cells = s.cells := rfl
@[simp] theorem setP_chams (s : State) (k v : Nat) : (setP s k v).chams = s.chams := rfl
@[simp] theorem setP_doms (s : State) (k v : Nat) : (setP s k v).doms = s.doms := rfl
@[simp] theorem setP_phases (s : State) (k v : Nat) : (setP s k v).phases = s.phases := rfl
@[simp] theorem setP_beats (s : State) (k v : Nat) : (setP s k v).beats = s.beats := rfl
@[simp] theorem setP_injs (s : State) (k v : Nat) : (setP s k v).injs = s.injs := rfl
@[simp] theorem setP_takes (s : State) (k v : Nat) : (setP s k v).takes = s.takes := rfl
@[simp] theorem setP_nextId (s : State) (k v : Nat) : (setP s k v).nextId = s.nextId := rfl
@[simp] theorem setP_incrs (s : State) (k v : Nat) : (setP s k v).incrs = s.incrs := rfl
@[simp] theorem setP_raised (s : State) (k v : Nat) : (setP s k v).raised = s.raised := rfl
@[simp] theorem setP_unacked (s : State) (k v : Nat) : (setP s k v).unacked = s.unacked := rfl
@[simp] theorem setP_logSeq (s : State) (k v : Nat) : (setP s k v).logSeq = s.logSeq := rfl
@[simp] theorem setP_xfers (s : State) (k v : Nat) : (setP s k v).xfers = s.xfers := rfl
@[simp] theorem setP_packets (s : State) (k v : Nat) : (setP s k v).packets = s.packets := rfl
@[simp] theorem setP_arrivals (s : State) (k v : Nat) : (setP s k v).arrivals = s.arrivals := rfl
@[simp] theorem setP_fLines (s : State) (k v : Nat) : (setP s k v).fLines = s.fLines := rfl
@[simp] theorem setP_tokSubs (s : State) (k v : Nat) : (setP s k v).tokSubs = s.tokSubs := rfl
@[simp] theorem setP_hbmq (s : State) (k v : Nat) : (setP s k v).hbmq = s.hbmq := rfl
@[simp] theorem setP_red (s : State) (k v : Nat) : (setP s k v).red = s.red := rfl
@[simp] theorem setP_linkFails (s : State) (k v : Nat) : (setP s k v).linkFails = s.linkFails := rfl
@[simp] theorem setP_redSent (s : State) (k v : Nat) : (setP s k v).redSent = s.redSent := rfl
@[simp] theorem setP_lanes (s : State) (k v : Nat) : (setP s k v).lanes = s.lanes := rfl
@[simp] theorem setP_depth (s : State) (k v : Nat) : (setP s k v).depth = s.depth := rfl
@[simp] theorem setP_stashQ (s : State) (k v : Nat) : (setP s k v).stashQ = s.stashQ := rfl
@[simp] theorem setP_stashOrd (s : State) (k v : Nat) : (setP s k v).stashOrd = s.stashOrd := rfl
@[simp] theorem setP_streams (s : State) (k v : Nat) : (setP s k v).streams = s.streams := rfl
@[simp] theorem setP_dmas (s : State) (k v : Nat) : (setP s k v).dmas = s.dmas := rfl
@[simp] theorem setP_halts (s : State) (k v : Nat) : (setP s k v).halts = s.halts := rfl
@[simp] theorem setP_haltSeq (s : State) (k v : Nat) : (setP s k v).haltSeq = s.haltSeq := rfl
@[simp] theorem setP_haltWait (s : State) (k v : Nat) : (setP s k v).haltWait = s.haltWait := rfl
@[simp] theorem setP_buckets (s : State) (k v : Nat) : (setP s k v).buckets = s.buckets := rfl
@[simp] theorem setP_tlb (s : State) (k v : Nat) : (setP s k v).tlb = s.tlb := rfl
@[simp] theorem setP_cache (s : State) (k v : Nat) : (setP s k v).cache = s.cache := rfl
@[simp] theorem setP_scrubAt (s : State) (k v : Nat) : (setP s k v).scrubAt = s.scrubAt := rfl
@[simp] theorem setP_thrAt (s : State) (k v : Nat) : (setP s k v).thrAt = s.thrAt := rfl
@[simp] theorem setP_draws (s : State) (k v : Nat) : (setP s k v).draws = s.draws := rfl
@[simp] theorem setP_clk (s : State) (k v : Nat) : (setP s k v).clk = s.clk := rfl
@[simp] theorem setP_boot (s : State) (k v : Nat) : (setP s k v).boot = s.boot := rfl
@[simp] theorem setP_sec (s : State) (k v : Nat) : (setP s k v).sec = s.sec := rfl
@[simp] theorem setP_spp (s : State) (k v : Nat) : (setP s k v).spp = s.spp := rfl
@[simp] theorem setP_gauge (s : State) (k v : Nat) : (setP s k v).gauge = s.gauge := rfl
@[simp] theorem setP_ports (s : State) (k v : Nat) : (setP s k v).ports = s.ports := rfl
@[simp] theorem setP_herd (s : State) (k v : Nat) : (setP s k v).herd = s.herd := rfl
@[simp] theorem setP_snap (s : State) (k v : Nat) : (setP s k v).snap = s.snap := rfl
@[simp] theorem setP_outbox (s : State) (k v : Nat) : (setP s k v).outbox = s.outbox := rfl
@[simp] theorem setP_wstatus (s : State) (k v : Nat) : (setP s k v).wstatus = s.wstatus := rfl

@[simp] theorem incP_pending (s : State) (k n : Nat) : (incP s k n).pending = s.pending := rfl
@[simp] theorem incP_ctc (s : State) (k n : Nat) : (incP s k n).ctc = s.ctc := rfl
@[simp] theorem incP_ns (s : State) (k n : Nat) : (incP s k n).ns = s.ns := rfl
@[simp] theorem incP_nsFrac (s : State) (k n : Nat) : (incP s k n).nsFrac = s.nsFrac := rfl
@[simp] theorem incP_ptp (s : State) (k n : Nat) : (incP s k n).ptp = s.ptp := rfl
@[simp] theorem incP_mem (s : State) (k n : Nat) : (incP s k n).mem = s.mem := rfl
@[simp] theorem incP_poison (s : State) (k n : Nat) : (incP s k n).poison = s.poison := rfl
@[simp] theorem incP_errs (s : State) (k n : Nat) : (incP s k n).errs = s.errs := rfl
@[simp] theorem incP_nanPol (s : State) (k n : Nat) : (incP s k n).nanPol = s.nanPol := rfl
@[simp] theorem incP_nanPolAt (s : State) (k n : Nat) : (incP s k n).nanPolAt = s.nanPolAt := rfl
@[simp] theorem incP_floor (s : State) (k n : Nat) : (incP s k n).floor = s.floor := rfl
@[simp] theorem incP_floorAt (s : State) (k n : Nat) : (incP s k n).floorAt = s.floorAt := rfl
@[simp] theorem incP_mons (s : State) (k n : Nat) : (incP s k n).mons = s.mons := rfl
@[simp] theorem incP_elands (s : State) (k n : Nat) : (incP s k n).elands = s.elands := rfl
@[simp] theorem incP_engines (s : State) (k n : Nat) : (incP s k n).engines = s.engines := rfl
@[simp] theorem incP_tiles (s : State) (k n : Nat) : (incP s k n).tiles = s.tiles := rfl
@[simp] theorem incP_cells (s : State) (k n : Nat) : (incP s k n).cells = s.cells := rfl
@[simp] theorem incP_chams (s : State) (k n : Nat) : (incP s k n).chams = s.chams := rfl
@[simp] theorem incP_doms (s : State) (k n : Nat) : (incP s k n).doms = s.doms := rfl
@[simp] theorem incP_phases (s : State) (k n : Nat) : (incP s k n).phases = s.phases := rfl
@[simp] theorem incP_beats (s : State) (k n : Nat) : (incP s k n).beats = s.beats := rfl
@[simp] theorem incP_injs (s : State) (k n : Nat) : (incP s k n).injs = s.injs := rfl
@[simp] theorem incP_takes (s : State) (k n : Nat) : (incP s k n).takes = s.takes := rfl
@[simp] theorem incP_nextId (s : State) (k n : Nat) : (incP s k n).nextId = s.nextId := rfl
@[simp] theorem incP_incrs (s : State) (k n : Nat) : (incP s k n).incrs = s.incrs := rfl
@[simp] theorem incP_raised (s : State) (k n : Nat) : (incP s k n).raised = s.raised := rfl
@[simp] theorem incP_unacked (s : State) (k n : Nat) : (incP s k n).unacked = s.unacked := rfl
@[simp] theorem incP_logSeq (s : State) (k n : Nat) : (incP s k n).logSeq = s.logSeq := rfl
@[simp] theorem incP_xfers (s : State) (k n : Nat) : (incP s k n).xfers = s.xfers := rfl
@[simp] theorem incP_packets (s : State) (k n : Nat) : (incP s k n).packets = s.packets := rfl
@[simp] theorem incP_arrivals (s : State) (k n : Nat) : (incP s k n).arrivals = s.arrivals := rfl
@[simp] theorem incP_fLines (s : State) (k n : Nat) : (incP s k n).fLines = s.fLines := rfl
@[simp] theorem incP_tokSubs (s : State) (k n : Nat) : (incP s k n).tokSubs = s.tokSubs := rfl
@[simp] theorem incP_hbmq (s : State) (k n : Nat) : (incP s k n).hbmq = s.hbmq := rfl
@[simp] theorem incP_red (s : State) (k n : Nat) : (incP s k n).red = s.red := rfl
@[simp] theorem incP_linkFails (s : State) (k n : Nat) : (incP s k n).linkFails = s.linkFails := rfl
@[simp] theorem incP_redSent (s : State) (k n : Nat) : (incP s k n).redSent = s.redSent := rfl
@[simp] theorem incP_lanes (s : State) (k n : Nat) : (incP s k n).lanes = s.lanes := rfl
@[simp] theorem incP_depth (s : State) (k n : Nat) : (incP s k n).depth = s.depth := rfl
@[simp] theorem incP_stashQ (s : State) (k n : Nat) : (incP s k n).stashQ = s.stashQ := rfl
@[simp] theorem incP_stashOrd (s : State) (k n : Nat) : (incP s k n).stashOrd = s.stashOrd := rfl
@[simp] theorem incP_streams (s : State) (k n : Nat) : (incP s k n).streams = s.streams := rfl
@[simp] theorem incP_dmas (s : State) (k n : Nat) : (incP s k n).dmas = s.dmas := rfl
@[simp] theorem incP_halts (s : State) (k n : Nat) : (incP s k n).halts = s.halts := rfl
@[simp] theorem incP_haltSeq (s : State) (k n : Nat) : (incP s k n).haltSeq = s.haltSeq := rfl
@[simp] theorem incP_haltWait (s : State) (k n : Nat) : (incP s k n).haltWait = s.haltWait := rfl
@[simp] theorem incP_buckets (s : State) (k n : Nat) : (incP s k n).buckets = s.buckets := rfl
@[simp] theorem incP_tlb (s : State) (k n : Nat) : (incP s k n).tlb = s.tlb := rfl
@[simp] theorem incP_cache (s : State) (k n : Nat) : (incP s k n).cache = s.cache := rfl
@[simp] theorem incP_scrubAt (s : State) (k n : Nat) : (incP s k n).scrubAt = s.scrubAt := rfl
@[simp] theorem incP_thrAt (s : State) (k n : Nat) : (incP s k n).thrAt = s.thrAt := rfl
@[simp] theorem incP_draws (s : State) (k n : Nat) : (incP s k n).draws = s.draws := rfl
@[simp] theorem incP_clk (s : State) (k n : Nat) : (incP s k n).clk = s.clk := rfl
@[simp] theorem incP_boot (s : State) (k n : Nat) : (incP s k n).boot = s.boot := rfl
@[simp] theorem incP_sec (s : State) (k n : Nat) : (incP s k n).sec = s.sec := rfl
@[simp] theorem incP_spp (s : State) (k n : Nat) : (incP s k n).spp = s.spp := rfl
@[simp] theorem incP_gauge (s : State) (k n : Nat) : (incP s k n).gauge = s.gauge := rfl
@[simp] theorem incP_ports (s : State) (k n : Nat) : (incP s k n).ports = s.ports := rfl
@[simp] theorem incP_herd (s : State) (k n : Nat) : (incP s k n).herd = s.herd := rfl
@[simp] theorem incP_snap (s : State) (k n : Nat) : (incP s k n).snap = s.snap := rfl
@[simp] theorem incP_outbox (s : State) (k n : Nat) : (incP s k n).outbox = s.outbox := rfl
@[simp] theorem incP_wstatus (s : State) (k n : Nat) : (incP s k n).wstatus = s.wstatus := rfl

@[simp] theorem setE_pending (s : State) (c : Nat) (x : Eland) : (setE s c x).pending = s.pending := rfl
@[simp] theorem setE_ctc (s : State) (c : Nat) (x : Eland) : (setE s c x).ctc = s.ctc := rfl
@[simp] theorem setE_ns (s : State) (c : Nat) (x : Eland) : (setE s c x).ns = s.ns := rfl
@[simp] theorem setE_nsFrac (s : State) (c : Nat) (x : Eland) : (setE s c x).nsFrac = s.nsFrac := rfl
@[simp] theorem setE_ptp (s : State) (c : Nat) (x : Eland) : (setE s c x).ptp = s.ptp := rfl
@[simp] theorem setE_mem (s : State) (c : Nat) (x : Eland) : (setE s c x).mem = s.mem := rfl
@[simp] theorem setE_poison (s : State) (c : Nat) (x : Eland) : (setE s c x).poison = s.poison := rfl
@[simp] theorem setE_errs (s : State) (c : Nat) (x : Eland) : (setE s c x).errs = s.errs := rfl
@[simp] theorem setE_par (s : State) (c : Nat) (x : Eland) : (setE s c x).par = s.par := rfl
@[simp] theorem setE_nanPol (s : State) (c : Nat) (x : Eland) : (setE s c x).nanPol = s.nanPol := rfl
@[simp] theorem setE_nanPolAt (s : State) (c : Nat) (x : Eland) : (setE s c x).nanPolAt = s.nanPolAt := rfl
@[simp] theorem setE_floor (s : State) (c : Nat) (x : Eland) : (setE s c x).floor = s.floor := rfl
@[simp] theorem setE_floorAt (s : State) (c : Nat) (x : Eland) : (setE s c x).floorAt = s.floorAt := rfl
@[simp] theorem setE_mons (s : State) (c : Nat) (x : Eland) : (setE s c x).mons = s.mons := rfl
@[simp] theorem setE_engines (s : State) (c : Nat) (x : Eland) : (setE s c x).engines = s.engines := rfl
@[simp] theorem setE_tiles (s : State) (c : Nat) (x : Eland) : (setE s c x).tiles = s.tiles := rfl
@[simp] theorem setE_cells (s : State) (c : Nat) (x : Eland) : (setE s c x).cells = s.cells := rfl
@[simp] theorem setE_chams (s : State) (c : Nat) (x : Eland) : (setE s c x).chams = s.chams := rfl
@[simp] theorem setE_doms (s : State) (c : Nat) (x : Eland) : (setE s c x).doms = s.doms := rfl
@[simp] theorem setE_phases (s : State) (c : Nat) (x : Eland) : (setE s c x).phases = s.phases := rfl
@[simp] theorem setE_beats (s : State) (c : Nat) (x : Eland) : (setE s c x).beats = s.beats := rfl
@[simp] theorem setE_injs (s : State) (c : Nat) (x : Eland) : (setE s c x).injs = s.injs := rfl
@[simp] theorem setE_takes (s : State) (c : Nat) (x : Eland) : (setE s c x).takes = s.takes := rfl
@[simp] theorem setE_nextId (s : State) (c : Nat) (x : Eland) : (setE s c x).nextId = s.nextId := rfl
@[simp] theorem setE_incrs (s : State) (c : Nat) (x : Eland) : (setE s c x).incrs = s.incrs := rfl
@[simp] theorem setE_raised (s : State) (c : Nat) (x : Eland) : (setE s c x).raised = s.raised := rfl
@[simp] theorem setE_unacked (s : State) (c : Nat) (x : Eland) : (setE s c x).unacked = s.unacked := rfl
@[simp] theorem setE_logSeq (s : State) (c : Nat) (x : Eland) : (setE s c x).logSeq = s.logSeq := rfl
@[simp] theorem setE_xfers (s : State) (c : Nat) (x : Eland) : (setE s c x).xfers = s.xfers := rfl
@[simp] theorem setE_packets (s : State) (c : Nat) (x : Eland) : (setE s c x).packets = s.packets := rfl
@[simp] theorem setE_arrivals (s : State) (c : Nat) (x : Eland) : (setE s c x).arrivals = s.arrivals := rfl
@[simp] theorem setE_fLines (s : State) (c : Nat) (x : Eland) : (setE s c x).fLines = s.fLines := rfl
@[simp] theorem setE_tokSubs (s : State) (c : Nat) (x : Eland) : (setE s c x).tokSubs = s.tokSubs := rfl
@[simp] theorem setE_hbmq (s : State) (c : Nat) (x : Eland) : (setE s c x).hbmq = s.hbmq := rfl
@[simp] theorem setE_red (s : State) (c : Nat) (x : Eland) : (setE s c x).red = s.red := rfl
@[simp] theorem setE_linkFails (s : State) (c : Nat) (x : Eland) : (setE s c x).linkFails = s.linkFails := rfl
@[simp] theorem setE_redSent (s : State) (c : Nat) (x : Eland) : (setE s c x).redSent = s.redSent := rfl
@[simp] theorem setE_lanes (s : State) (c : Nat) (x : Eland) : (setE s c x).lanes = s.lanes := rfl
@[simp] theorem setE_depth (s : State) (c : Nat) (x : Eland) : (setE s c x).depth = s.depth := rfl
@[simp] theorem setE_stashQ (s : State) (c : Nat) (x : Eland) : (setE s c x).stashQ = s.stashQ := rfl
@[simp] theorem setE_stashOrd (s : State) (c : Nat) (x : Eland) : (setE s c x).stashOrd = s.stashOrd := rfl
@[simp] theorem setE_streams (s : State) (c : Nat) (x : Eland) : (setE s c x).streams = s.streams := rfl
@[simp] theorem setE_dmas (s : State) (c : Nat) (x : Eland) : (setE s c x).dmas = s.dmas := rfl
@[simp] theorem setE_halts (s : State) (c : Nat) (x : Eland) : (setE s c x).halts = s.halts := rfl
@[simp] theorem setE_haltSeq (s : State) (c : Nat) (x : Eland) : (setE s c x).haltSeq = s.haltSeq := rfl
@[simp] theorem setE_haltWait (s : State) (c : Nat) (x : Eland) : (setE s c x).haltWait = s.haltWait := rfl
@[simp] theorem setE_buckets (s : State) (c : Nat) (x : Eland) : (setE s c x).buckets = s.buckets := rfl
@[simp] theorem setE_tlb (s : State) (c : Nat) (x : Eland) : (setE s c x).tlb = s.tlb := rfl
@[simp] theorem setE_cache (s : State) (c : Nat) (x : Eland) : (setE s c x).cache = s.cache := rfl
@[simp] theorem setE_scrubAt (s : State) (c : Nat) (x : Eland) : (setE s c x).scrubAt = s.scrubAt := rfl
@[simp] theorem setE_thrAt (s : State) (c : Nat) (x : Eland) : (setE s c x).thrAt = s.thrAt := rfl
@[simp] theorem setE_draws (s : State) (c : Nat) (x : Eland) : (setE s c x).draws = s.draws := rfl
@[simp] theorem setE_clk (s : State) (c : Nat) (x : Eland) : (setE s c x).clk = s.clk := rfl
@[simp] theorem setE_boot (s : State) (c : Nat) (x : Eland) : (setE s c x).boot = s.boot := rfl
@[simp] theorem setE_sec (s : State) (c : Nat) (x : Eland) : (setE s c x).sec = s.sec := rfl
@[simp] theorem setE_spp (s : State) (c : Nat) (x : Eland) : (setE s c x).spp = s.spp := rfl
@[simp] theorem setE_gauge (s : State) (c : Nat) (x : Eland) : (setE s c x).gauge = s.gauge := rfl
@[simp] theorem setE_ports (s : State) (c : Nat) (x : Eland) : (setE s c x).ports = s.ports := rfl
@[simp] theorem setE_herd (s : State) (c : Nat) (x : Eland) : (setE s c x).herd = s.herd := rfl
@[simp] theorem setE_snap (s : State) (c : Nat) (x : Eland) : (setE s c x).snap = s.snap := rfl
@[simp] theorem setE_outbox (s : State) (c : Nat) (x : Eland) : (setE s c x).outbox = s.outbox := rfl
@[simp] theorem setE_wstatus (s : State) (c : Nat) (x : Eland) : (setE s c x).wstatus = s.wstatus := rfl

@[simp] theorem updN_pending (s : State) (c : Nat) (n : Needle) (f : NeedleSt → NeedleSt) : (updN s c n f).pending = s.pending := rfl
@[simp] theorem updN_ctc (s : State) (c : Nat) (n : Needle) (f : NeedleSt → NeedleSt) : (updN s c n f).ctc = s.ctc := rfl
@[simp] theorem updN_ns (s : State) (c : Nat) (n : Needle) (f : NeedleSt → NeedleSt) : (updN s c n f).ns = s.ns := rfl
@[simp] theorem updN_nsFrac (s : State) (c : Nat) (n : Needle) (f : NeedleSt → NeedleSt) : (updN s c n f).nsFrac = s.nsFrac := rfl
@[simp] theorem updN_ptp (s : State) (c : Nat) (n : Needle) (f : NeedleSt → NeedleSt) : (updN s c n f).ptp = s.ptp := rfl
@[simp] theorem updN_mem (s : State) (c : Nat) (n : Needle) (f : NeedleSt → NeedleSt) : (updN s c n f).mem = s.mem := rfl
@[simp] theorem updN_poison (s : State) (c : Nat) (n : Needle) (f : NeedleSt → NeedleSt) : (updN s c n f).poison = s.poison := rfl
@[simp] theorem updN_errs (s : State) (c : Nat) (n : Needle) (f : NeedleSt → NeedleSt) : (updN s c n f).errs = s.errs := rfl
@[simp] theorem updN_par (s : State) (c : Nat) (n : Needle) (f : NeedleSt → NeedleSt) : (updN s c n f).par = s.par := rfl
@[simp] theorem updN_nanPol (s : State) (c : Nat) (n : Needle) (f : NeedleSt → NeedleSt) : (updN s c n f).nanPol = s.nanPol := rfl
@[simp] theorem updN_nanPolAt (s : State) (c : Nat) (n : Needle) (f : NeedleSt → NeedleSt) : (updN s c n f).nanPolAt = s.nanPolAt := rfl
@[simp] theorem updN_floor (s : State) (c : Nat) (n : Needle) (f : NeedleSt → NeedleSt) : (updN s c n f).floor = s.floor := rfl
@[simp] theorem updN_floorAt (s : State) (c : Nat) (n : Needle) (f : NeedleSt → NeedleSt) : (updN s c n f).floorAt = s.floorAt := rfl
@[simp] theorem updN_mons (s : State) (c : Nat) (n : Needle) (f : NeedleSt → NeedleSt) : (updN s c n f).mons = s.mons := rfl
@[simp] theorem updN_engines (s : State) (c : Nat) (n : Needle) (f : NeedleSt → NeedleSt) : (updN s c n f).engines = s.engines := rfl
@[simp] theorem updN_tiles (s : State) (c : Nat) (n : Needle) (f : NeedleSt → NeedleSt) : (updN s c n f).tiles = s.tiles := rfl
@[simp] theorem updN_cells (s : State) (c : Nat) (n : Needle) (f : NeedleSt → NeedleSt) : (updN s c n f).cells = s.cells := rfl
@[simp] theorem updN_chams (s : State) (c : Nat) (n : Needle) (f : NeedleSt → NeedleSt) : (updN s c n f).chams = s.chams := rfl
@[simp] theorem updN_doms (s : State) (c : Nat) (n : Needle) (f : NeedleSt → NeedleSt) : (updN s c n f).doms = s.doms := rfl
@[simp] theorem updN_phases (s : State) (c : Nat) (n : Needle) (f : NeedleSt → NeedleSt) : (updN s c n f).phases = s.phases := rfl
@[simp] theorem updN_beats (s : State) (c : Nat) (n : Needle) (f : NeedleSt → NeedleSt) : (updN s c n f).beats = s.beats := rfl
@[simp] theorem updN_injs (s : State) (c : Nat) (n : Needle) (f : NeedleSt → NeedleSt) : (updN s c n f).injs = s.injs := rfl
@[simp] theorem updN_takes (s : State) (c : Nat) (n : Needle) (f : NeedleSt → NeedleSt) : (updN s c n f).takes = s.takes := rfl
@[simp] theorem updN_nextId (s : State) (c : Nat) (n : Needle) (f : NeedleSt → NeedleSt) : (updN s c n f).nextId = s.nextId := rfl
@[simp] theorem updN_incrs (s : State) (c : Nat) (n : Needle) (f : NeedleSt → NeedleSt) : (updN s c n f).incrs = s.incrs := rfl
@[simp] theorem updN_raised (s : State) (c : Nat) (n : Needle) (f : NeedleSt → NeedleSt) : (updN s c n f).raised = s.raised := rfl
@[simp] theorem updN_unacked (s : State) (c : Nat) (n : Needle) (f : NeedleSt → NeedleSt) : (updN s c n f).unacked = s.unacked := rfl
@[simp] theorem updN_logSeq (s : State) (c : Nat) (n : Needle) (f : NeedleSt → NeedleSt) : (updN s c n f).logSeq = s.logSeq := rfl
@[simp] theorem updN_xfers (s : State) (c : Nat) (n : Needle) (f : NeedleSt → NeedleSt) : (updN s c n f).xfers = s.xfers := rfl
@[simp] theorem updN_packets (s : State) (c : Nat) (n : Needle) (f : NeedleSt → NeedleSt) : (updN s c n f).packets = s.packets := rfl
@[simp] theorem updN_arrivals (s : State) (c : Nat) (n : Needle) (f : NeedleSt → NeedleSt) : (updN s c n f).arrivals = s.arrivals := rfl
@[simp] theorem updN_fLines (s : State) (c : Nat) (n : Needle) (f : NeedleSt → NeedleSt) : (updN s c n f).fLines = s.fLines := rfl
@[simp] theorem updN_tokSubs (s : State) (c : Nat) (n : Needle) (f : NeedleSt → NeedleSt) : (updN s c n f).tokSubs = s.tokSubs := rfl
@[simp] theorem updN_hbmq (s : State) (c : Nat) (n : Needle) (f : NeedleSt → NeedleSt) : (updN s c n f).hbmq = s.hbmq := rfl
@[simp] theorem updN_red (s : State) (c : Nat) (n : Needle) (f : NeedleSt → NeedleSt) : (updN s c n f).red = s.red := rfl
@[simp] theorem updN_linkFails (s : State) (c : Nat) (n : Needle) (f : NeedleSt → NeedleSt) : (updN s c n f).linkFails = s.linkFails := rfl
@[simp] theorem updN_redSent (s : State) (c : Nat) (n : Needle) (f : NeedleSt → NeedleSt) : (updN s c n f).redSent = s.redSent := rfl
@[simp] theorem updN_lanes (s : State) (c : Nat) (n : Needle) (f : NeedleSt → NeedleSt) : (updN s c n f).lanes = s.lanes := rfl
@[simp] theorem updN_depth (s : State) (c : Nat) (n : Needle) (f : NeedleSt → NeedleSt) : (updN s c n f).depth = s.depth := rfl
@[simp] theorem updN_stashQ (s : State) (c : Nat) (n : Needle) (f : NeedleSt → NeedleSt) : (updN s c n f).stashQ = s.stashQ := rfl
@[simp] theorem updN_stashOrd (s : State) (c : Nat) (n : Needle) (f : NeedleSt → NeedleSt) : (updN s c n f).stashOrd = s.stashOrd := rfl
@[simp] theorem updN_streams (s : State) (c : Nat) (n : Needle) (f : NeedleSt → NeedleSt) : (updN s c n f).streams = s.streams := rfl
@[simp] theorem updN_dmas (s : State) (c : Nat) (n : Needle) (f : NeedleSt → NeedleSt) : (updN s c n f).dmas = s.dmas := rfl
@[simp] theorem updN_halts (s : State) (c : Nat) (n : Needle) (f : NeedleSt → NeedleSt) : (updN s c n f).halts = s.halts := rfl
@[simp] theorem updN_haltSeq (s : State) (c : Nat) (n : Needle) (f : NeedleSt → NeedleSt) : (updN s c n f).haltSeq = s.haltSeq := rfl
@[simp] theorem updN_haltWait (s : State) (c : Nat) (n : Needle) (f : NeedleSt → NeedleSt) : (updN s c n f).haltWait = s.haltWait := rfl
@[simp] theorem updN_buckets (s : State) (c : Nat) (n : Needle) (f : NeedleSt → NeedleSt) : (updN s c n f).buckets = s.buckets := rfl
@[simp] theorem updN_tlb (s : State) (c : Nat) (n : Needle) (f : NeedleSt → NeedleSt) : (updN s c n f).tlb = s.tlb := rfl
@[simp] theorem updN_cache (s : State) (c : Nat) (n : Needle) (f : NeedleSt → NeedleSt) : (updN s c n f).cache = s.cache := rfl
@[simp] theorem updN_scrubAt (s : State) (c : Nat) (n : Needle) (f : NeedleSt → NeedleSt) : (updN s c n f).scrubAt = s.scrubAt := rfl
@[simp] theorem updN_thrAt (s : State) (c : Nat) (n : Needle) (f : NeedleSt → NeedleSt) : (updN s c n f).thrAt = s.thrAt := rfl
@[simp] theorem updN_draws (s : State) (c : Nat) (n : Needle) (f : NeedleSt → NeedleSt) : (updN s c n f).draws = s.draws := rfl
@[simp] theorem updN_clk (s : State) (c : Nat) (n : Needle) (f : NeedleSt → NeedleSt) : (updN s c n f).clk = s.clk := rfl
@[simp] theorem updN_boot (s : State) (c : Nat) (n : Needle) (f : NeedleSt → NeedleSt) : (updN s c n f).boot = s.boot := rfl
@[simp] theorem updN_sec (s : State) (c : Nat) (n : Needle) (f : NeedleSt → NeedleSt) : (updN s c n f).sec = s.sec := rfl
@[simp] theorem updN_spp (s : State) (c : Nat) (n : Needle) (f : NeedleSt → NeedleSt) : (updN s c n f).spp = s.spp := rfl
@[simp] theorem updN_gauge (s : State) (c : Nat) (n : Needle) (f : NeedleSt → NeedleSt) : (updN s c n f).gauge = s.gauge := rfl
@[simp] theorem updN_ports (s : State) (c : Nat) (n : Needle) (f : NeedleSt → NeedleSt) : (updN s c n f).ports = s.ports := rfl
@[simp] theorem updN_herd (s : State) (c : Nat) (n : Needle) (f : NeedleSt → NeedleSt) : (updN s c n f).herd = s.herd := rfl
@[simp] theorem updN_snap (s : State) (c : Nat) (n : Needle) (f : NeedleSt → NeedleSt) : (updN s c n f).snap = s.snap := rfl
@[simp] theorem updN_outbox (s : State) (c : Nat) (n : Needle) (f : NeedleSt → NeedleSt) : (updN s c n f).outbox = s.outbox := rfl
@[simp] theorem updN_wstatus (s : State) (c : Nat) (n : Needle) (f : NeedleSt → NeedleSt) : (updN s c n f).wstatus = s.wstatus := rfl

@[simp] theorem setC_pending (s : State) (c : Nat) (x : Cham) : (setC s c x).pending = s.pending := rfl
@[simp] theorem setC_ctc (s : State) (c : Nat) (x : Cham) : (setC s c x).ctc = s.ctc := rfl
@[simp] theorem setC_ns (s : State) (c : Nat) (x : Cham) : (setC s c x).ns = s.ns := rfl
@[simp] theorem setC_nsFrac (s : State) (c : Nat) (x : Cham) : (setC s c x).nsFrac = s.nsFrac := rfl
@[simp] theorem setC_ptp (s : State) (c : Nat) (x : Cham) : (setC s c x).ptp = s.ptp := rfl
@[simp] theorem setC_mem (s : State) (c : Nat) (x : Cham) : (setC s c x).mem = s.mem := rfl
@[simp] theorem setC_poison (s : State) (c : Nat) (x : Cham) : (setC s c x).poison = s.poison := rfl
@[simp] theorem setC_errs (s : State) (c : Nat) (x : Cham) : (setC s c x).errs = s.errs := rfl
@[simp] theorem setC_par (s : State) (c : Nat) (x : Cham) : (setC s c x).par = s.par := rfl
@[simp] theorem setC_nanPol (s : State) (c : Nat) (x : Cham) : (setC s c x).nanPol = s.nanPol := rfl
@[simp] theorem setC_nanPolAt (s : State) (c : Nat) (x : Cham) : (setC s c x).nanPolAt = s.nanPolAt := rfl
@[simp] theorem setC_floor (s : State) (c : Nat) (x : Cham) : (setC s c x).floor = s.floor := rfl
@[simp] theorem setC_floorAt (s : State) (c : Nat) (x : Cham) : (setC s c x).floorAt = s.floorAt := rfl
@[simp] theorem setC_mons (s : State) (c : Nat) (x : Cham) : (setC s c x).mons = s.mons := rfl
@[simp] theorem setC_elands (s : State) (c : Nat) (x : Cham) : (setC s c x).elands = s.elands := rfl
@[simp] theorem setC_engines (s : State) (c : Nat) (x : Cham) : (setC s c x).engines = s.engines := rfl
@[simp] theorem setC_tiles (s : State) (c : Nat) (x : Cham) : (setC s c x).tiles = s.tiles := rfl
@[simp] theorem setC_cells (s : State) (c : Nat) (x : Cham) : (setC s c x).cells = s.cells := rfl
@[simp] theorem setC_doms (s : State) (c : Nat) (x : Cham) : (setC s c x).doms = s.doms := rfl
@[simp] theorem setC_phases (s : State) (c : Nat) (x : Cham) : (setC s c x).phases = s.phases := rfl
@[simp] theorem setC_beats (s : State) (c : Nat) (x : Cham) : (setC s c x).beats = s.beats := rfl
@[simp] theorem setC_injs (s : State) (c : Nat) (x : Cham) : (setC s c x).injs = s.injs := rfl
@[simp] theorem setC_takes (s : State) (c : Nat) (x : Cham) : (setC s c x).takes = s.takes := rfl
@[simp] theorem setC_nextId (s : State) (c : Nat) (x : Cham) : (setC s c x).nextId = s.nextId := rfl
@[simp] theorem setC_incrs (s : State) (c : Nat) (x : Cham) : (setC s c x).incrs = s.incrs := rfl
@[simp] theorem setC_raised (s : State) (c : Nat) (x : Cham) : (setC s c x).raised = s.raised := rfl
@[simp] theorem setC_unacked (s : State) (c : Nat) (x : Cham) : (setC s c x).unacked = s.unacked := rfl
@[simp] theorem setC_logSeq (s : State) (c : Nat) (x : Cham) : (setC s c x).logSeq = s.logSeq := rfl
@[simp] theorem setC_xfers (s : State) (c : Nat) (x : Cham) : (setC s c x).xfers = s.xfers := rfl
@[simp] theorem setC_packets (s : State) (c : Nat) (x : Cham) : (setC s c x).packets = s.packets := rfl
@[simp] theorem setC_arrivals (s : State) (c : Nat) (x : Cham) : (setC s c x).arrivals = s.arrivals := rfl
@[simp] theorem setC_fLines (s : State) (c : Nat) (x : Cham) : (setC s c x).fLines = s.fLines := rfl
@[simp] theorem setC_tokSubs (s : State) (c : Nat) (x : Cham) : (setC s c x).tokSubs = s.tokSubs := rfl
@[simp] theorem setC_hbmq (s : State) (c : Nat) (x : Cham) : (setC s c x).hbmq = s.hbmq := rfl
@[simp] theorem setC_red (s : State) (c : Nat) (x : Cham) : (setC s c x).red = s.red := rfl
@[simp] theorem setC_linkFails (s : State) (c : Nat) (x : Cham) : (setC s c x).linkFails = s.linkFails := rfl
@[simp] theorem setC_redSent (s : State) (c : Nat) (x : Cham) : (setC s c x).redSent = s.redSent := rfl
@[simp] theorem setC_lanes (s : State) (c : Nat) (x : Cham) : (setC s c x).lanes = s.lanes := rfl
@[simp] theorem setC_depth (s : State) (c : Nat) (x : Cham) : (setC s c x).depth = s.depth := rfl
@[simp] theorem setC_stashQ (s : State) (c : Nat) (x : Cham) : (setC s c x).stashQ = s.stashQ := rfl
@[simp] theorem setC_stashOrd (s : State) (c : Nat) (x : Cham) : (setC s c x).stashOrd = s.stashOrd := rfl
@[simp] theorem setC_streams (s : State) (c : Nat) (x : Cham) : (setC s c x).streams = s.streams := rfl
@[simp] theorem setC_dmas (s : State) (c : Nat) (x : Cham) : (setC s c x).dmas = s.dmas := rfl
@[simp] theorem setC_halts (s : State) (c : Nat) (x : Cham) : (setC s c x).halts = s.halts := rfl
@[simp] theorem setC_haltSeq (s : State) (c : Nat) (x : Cham) : (setC s c x).haltSeq = s.haltSeq := rfl
@[simp] theorem setC_haltWait (s : State) (c : Nat) (x : Cham) : (setC s c x).haltWait = s.haltWait := rfl
@[simp] theorem setC_buckets (s : State) (c : Nat) (x : Cham) : (setC s c x).buckets = s.buckets := rfl
@[simp] theorem setC_tlb (s : State) (c : Nat) (x : Cham) : (setC s c x).tlb = s.tlb := rfl
@[simp] theorem setC_cache (s : State) (c : Nat) (x : Cham) : (setC s c x).cache = s.cache := rfl
@[simp] theorem setC_scrubAt (s : State) (c : Nat) (x : Cham) : (setC s c x).scrubAt = s.scrubAt := rfl
@[simp] theorem setC_thrAt (s : State) (c : Nat) (x : Cham) : (setC s c x).thrAt = s.thrAt := rfl
@[simp] theorem setC_draws (s : State) (c : Nat) (x : Cham) : (setC s c x).draws = s.draws := rfl
@[simp] theorem setC_clk (s : State) (c : Nat) (x : Cham) : (setC s c x).clk = s.clk := rfl
@[simp] theorem setC_boot (s : State) (c : Nat) (x : Cham) : (setC s c x).boot = s.boot := rfl
@[simp] theorem setC_sec (s : State) (c : Nat) (x : Cham) : (setC s c x).sec = s.sec := rfl
@[simp] theorem setC_spp (s : State) (c : Nat) (x : Cham) : (setC s c x).spp = s.spp := rfl
@[simp] theorem setC_gauge (s : State) (c : Nat) (x : Cham) : (setC s c x).gauge = s.gauge := rfl
@[simp] theorem setC_ports (s : State) (c : Nat) (x : Cham) : (setC s c x).ports = s.ports := rfl
@[simp] theorem setC_herd (s : State) (c : Nat) (x : Cham) : (setC s c x).herd = s.herd := rfl
@[simp] theorem setC_snap (s : State) (c : Nat) (x : Cham) : (setC s c x).snap = s.snap := rfl
@[simp] theorem setC_outbox (s : State) (c : Nat) (x : Cham) : (setC s c x).outbox = s.outbox := rfl
@[simp] theorem setC_wstatus (s : State) (c : Nat) (x : Cham) : (setC s c x).wstatus = s.wstatus := rfl

@[simp] theorem setD_pending (s : State) (d : Nat) (x : Domain) : (setD s d x).pending = s.pending := rfl
@[simp] theorem setD_ctc (s : State) (d : Nat) (x : Domain) : (setD s d x).ctc = s.ctc := rfl
@[simp] theorem setD_ns (s : State) (d : Nat) (x : Domain) : (setD s d x).ns = s.ns := rfl
@[simp] theorem setD_nsFrac (s : State) (d : Nat) (x : Domain) : (setD s d x).nsFrac = s.nsFrac := rfl
@[simp] theorem setD_ptp (s : State) (d : Nat) (x : Domain) : (setD s d x).ptp = s.ptp := rfl
@[simp] theorem setD_mem (s : State) (d : Nat) (x : Domain) : (setD s d x).mem = s.mem := rfl
@[simp] theorem setD_poison (s : State) (d : Nat) (x : Domain) : (setD s d x).poison = s.poison := rfl
@[simp] theorem setD_errs (s : State) (d : Nat) (x : Domain) : (setD s d x).errs = s.errs := rfl
@[simp] theorem setD_par (s : State) (d : Nat) (x : Domain) : (setD s d x).par = s.par := rfl
@[simp] theorem setD_nanPol (s : State) (d : Nat) (x : Domain) : (setD s d x).nanPol = s.nanPol := rfl
@[simp] theorem setD_nanPolAt (s : State) (d : Nat) (x : Domain) : (setD s d x).nanPolAt = s.nanPolAt := rfl
@[simp] theorem setD_floor (s : State) (d : Nat) (x : Domain) : (setD s d x).floor = s.floor := rfl
@[simp] theorem setD_floorAt (s : State) (d : Nat) (x : Domain) : (setD s d x).floorAt = s.floorAt := rfl
@[simp] theorem setD_mons (s : State) (d : Nat) (x : Domain) : (setD s d x).mons = s.mons := rfl
@[simp] theorem setD_elands (s : State) (d : Nat) (x : Domain) : (setD s d x).elands = s.elands := rfl
@[simp] theorem setD_engines (s : State) (d : Nat) (x : Domain) : (setD s d x).engines = s.engines := rfl
@[simp] theorem setD_tiles (s : State) (d : Nat) (x : Domain) : (setD s d x).tiles = s.tiles := rfl
@[simp] theorem setD_cells (s : State) (d : Nat) (x : Domain) : (setD s d x).cells = s.cells := rfl
@[simp] theorem setD_chams (s : State) (d : Nat) (x : Domain) : (setD s d x).chams = s.chams := rfl
@[simp] theorem setD_phases (s : State) (d : Nat) (x : Domain) : (setD s d x).phases = s.phases := rfl
@[simp] theorem setD_beats (s : State) (d : Nat) (x : Domain) : (setD s d x).beats = s.beats := rfl
@[simp] theorem setD_injs (s : State) (d : Nat) (x : Domain) : (setD s d x).injs = s.injs := rfl
@[simp] theorem setD_takes (s : State) (d : Nat) (x : Domain) : (setD s d x).takes = s.takes := rfl
@[simp] theorem setD_nextId (s : State) (d : Nat) (x : Domain) : (setD s d x).nextId = s.nextId := rfl
@[simp] theorem setD_incrs (s : State) (d : Nat) (x : Domain) : (setD s d x).incrs = s.incrs := rfl
@[simp] theorem setD_raised (s : State) (d : Nat) (x : Domain) : (setD s d x).raised = s.raised := rfl
@[simp] theorem setD_unacked (s : State) (d : Nat) (x : Domain) : (setD s d x).unacked = s.unacked := rfl
@[simp] theorem setD_logSeq (s : State) (d : Nat) (x : Domain) : (setD s d x).logSeq = s.logSeq := rfl
@[simp] theorem setD_xfers (s : State) (d : Nat) (x : Domain) : (setD s d x).xfers = s.xfers := rfl
@[simp] theorem setD_packets (s : State) (d : Nat) (x : Domain) : (setD s d x).packets = s.packets := rfl
@[simp] theorem setD_arrivals (s : State) (d : Nat) (x : Domain) : (setD s d x).arrivals = s.arrivals := rfl
@[simp] theorem setD_fLines (s : State) (d : Nat) (x : Domain) : (setD s d x).fLines = s.fLines := rfl
@[simp] theorem setD_tokSubs (s : State) (d : Nat) (x : Domain) : (setD s d x).tokSubs = s.tokSubs := rfl
@[simp] theorem setD_hbmq (s : State) (d : Nat) (x : Domain) : (setD s d x).hbmq = s.hbmq := rfl
@[simp] theorem setD_red (s : State) (d : Nat) (x : Domain) : (setD s d x).red = s.red := rfl
@[simp] theorem setD_linkFails (s : State) (d : Nat) (x : Domain) : (setD s d x).linkFails = s.linkFails := rfl
@[simp] theorem setD_redSent (s : State) (d : Nat) (x : Domain) : (setD s d x).redSent = s.redSent := rfl
@[simp] theorem setD_lanes (s : State) (d : Nat) (x : Domain) : (setD s d x).lanes = s.lanes := rfl
@[simp] theorem setD_depth (s : State) (d : Nat) (x : Domain) : (setD s d x).depth = s.depth := rfl
@[simp] theorem setD_stashQ (s : State) (d : Nat) (x : Domain) : (setD s d x).stashQ = s.stashQ := rfl
@[simp] theorem setD_stashOrd (s : State) (d : Nat) (x : Domain) : (setD s d x).stashOrd = s.stashOrd := rfl
@[simp] theorem setD_streams (s : State) (d : Nat) (x : Domain) : (setD s d x).streams = s.streams := rfl
@[simp] theorem setD_dmas (s : State) (d : Nat) (x : Domain) : (setD s d x).dmas = s.dmas := rfl
@[simp] theorem setD_halts (s : State) (d : Nat) (x : Domain) : (setD s d x).halts = s.halts := rfl
@[simp] theorem setD_haltSeq (s : State) (d : Nat) (x : Domain) : (setD s d x).haltSeq = s.haltSeq := rfl
@[simp] theorem setD_haltWait (s : State) (d : Nat) (x : Domain) : (setD s d x).haltWait = s.haltWait := rfl
@[simp] theorem setD_buckets (s : State) (d : Nat) (x : Domain) : (setD s d x).buckets = s.buckets := rfl
@[simp] theorem setD_tlb (s : State) (d : Nat) (x : Domain) : (setD s d x).tlb = s.tlb := rfl
@[simp] theorem setD_cache (s : State) (d : Nat) (x : Domain) : (setD s d x).cache = s.cache := rfl
@[simp] theorem setD_scrubAt (s : State) (d : Nat) (x : Domain) : (setD s d x).scrubAt = s.scrubAt := rfl
@[simp] theorem setD_thrAt (s : State) (d : Nat) (x : Domain) : (setD s d x).thrAt = s.thrAt := rfl
@[simp] theorem setD_draws (s : State) (d : Nat) (x : Domain) : (setD s d x).draws = s.draws := rfl
@[simp] theorem setD_clk (s : State) (d : Nat) (x : Domain) : (setD s d x).clk = s.clk := rfl
@[simp] theorem setD_boot (s : State) (d : Nat) (x : Domain) : (setD s d x).boot = s.boot := rfl
@[simp] theorem setD_sec (s : State) (d : Nat) (x : Domain) : (setD s d x).sec = s.sec := rfl
@[simp] theorem setD_spp (s : State) (d : Nat) (x : Domain) : (setD s d x).spp = s.spp := rfl
@[simp] theorem setD_gauge (s : State) (d : Nat) (x : Domain) : (setD s d x).gauge = s.gauge := rfl
@[simp] theorem setD_ports (s : State) (d : Nat) (x : Domain) : (setD s d x).ports = s.ports := rfl
@[simp] theorem setD_herd (s : State) (d : Nat) (x : Domain) : (setD s d x).herd = s.herd := rfl
@[simp] theorem setD_snap (s : State) (d : Nat) (x : Domain) : (setD s d x).snap = s.snap := rfl
@[simp] theorem setD_outbox (s : State) (d : Nat) (x : Domain) : (setD s d x).outbox = s.outbox := rfl
@[simp] theorem setD_wstatus (s : State) (d : Nat) (x : Domain) : (setD s d x).wstatus = s.wstatus := rfl

@[simp] theorem setEng_pending (s : State) (e : Nat) (x : Engine) : (setEng s e x).pending = s.pending := rfl
@[simp] theorem setEng_ctc (s : State) (e : Nat) (x : Engine) : (setEng s e x).ctc = s.ctc := rfl
@[simp] theorem setEng_ns (s : State) (e : Nat) (x : Engine) : (setEng s e x).ns = s.ns := rfl
@[simp] theorem setEng_nsFrac (s : State) (e : Nat) (x : Engine) : (setEng s e x).nsFrac = s.nsFrac := rfl
@[simp] theorem setEng_ptp (s : State) (e : Nat) (x : Engine) : (setEng s e x).ptp = s.ptp := rfl
@[simp] theorem setEng_mem (s : State) (e : Nat) (x : Engine) : (setEng s e x).mem = s.mem := rfl
@[simp] theorem setEng_poison (s : State) (e : Nat) (x : Engine) : (setEng s e x).poison = s.poison := rfl
@[simp] theorem setEng_errs (s : State) (e : Nat) (x : Engine) : (setEng s e x).errs = s.errs := rfl
@[simp] theorem setEng_par (s : State) (e : Nat) (x : Engine) : (setEng s e x).par = s.par := rfl
@[simp] theorem setEng_nanPol (s : State) (e : Nat) (x : Engine) : (setEng s e x).nanPol = s.nanPol := rfl
@[simp] theorem setEng_nanPolAt (s : State) (e : Nat) (x : Engine) : (setEng s e x).nanPolAt = s.nanPolAt := rfl
@[simp] theorem setEng_floor (s : State) (e : Nat) (x : Engine) : (setEng s e x).floor = s.floor := rfl
@[simp] theorem setEng_floorAt (s : State) (e : Nat) (x : Engine) : (setEng s e x).floorAt = s.floorAt := rfl
@[simp] theorem setEng_mons (s : State) (e : Nat) (x : Engine) : (setEng s e x).mons = s.mons := rfl
@[simp] theorem setEng_elands (s : State) (e : Nat) (x : Engine) : (setEng s e x).elands = s.elands := rfl
@[simp] theorem setEng_tiles (s : State) (e : Nat) (x : Engine) : (setEng s e x).tiles = s.tiles := rfl
@[simp] theorem setEng_cells (s : State) (e : Nat) (x : Engine) : (setEng s e x).cells = s.cells := rfl
@[simp] theorem setEng_chams (s : State) (e : Nat) (x : Engine) : (setEng s e x).chams = s.chams := rfl
@[simp] theorem setEng_doms (s : State) (e : Nat) (x : Engine) : (setEng s e x).doms = s.doms := rfl
@[simp] theorem setEng_phases (s : State) (e : Nat) (x : Engine) : (setEng s e x).phases = s.phases := rfl
@[simp] theorem setEng_beats (s : State) (e : Nat) (x : Engine) : (setEng s e x).beats = s.beats := rfl
@[simp] theorem setEng_injs (s : State) (e : Nat) (x : Engine) : (setEng s e x).injs = s.injs := rfl
@[simp] theorem setEng_takes (s : State) (e : Nat) (x : Engine) : (setEng s e x).takes = s.takes := rfl
@[simp] theorem setEng_nextId (s : State) (e : Nat) (x : Engine) : (setEng s e x).nextId = s.nextId := rfl
@[simp] theorem setEng_incrs (s : State) (e : Nat) (x : Engine) : (setEng s e x).incrs = s.incrs := rfl
@[simp] theorem setEng_raised (s : State) (e : Nat) (x : Engine) : (setEng s e x).raised = s.raised := rfl
@[simp] theorem setEng_unacked (s : State) (e : Nat) (x : Engine) : (setEng s e x).unacked = s.unacked := rfl
@[simp] theorem setEng_logSeq (s : State) (e : Nat) (x : Engine) : (setEng s e x).logSeq = s.logSeq := rfl
@[simp] theorem setEng_xfers (s : State) (e : Nat) (x : Engine) : (setEng s e x).xfers = s.xfers := rfl
@[simp] theorem setEng_packets (s : State) (e : Nat) (x : Engine) : (setEng s e x).packets = s.packets := rfl
@[simp] theorem setEng_arrivals (s : State) (e : Nat) (x : Engine) : (setEng s e x).arrivals = s.arrivals := rfl
@[simp] theorem setEng_fLines (s : State) (e : Nat) (x : Engine) : (setEng s e x).fLines = s.fLines := rfl
@[simp] theorem setEng_tokSubs (s : State) (e : Nat) (x : Engine) : (setEng s e x).tokSubs = s.tokSubs := rfl
@[simp] theorem setEng_hbmq (s : State) (e : Nat) (x : Engine) : (setEng s e x).hbmq = s.hbmq := rfl
@[simp] theorem setEng_red (s : State) (e : Nat) (x : Engine) : (setEng s e x).red = s.red := rfl
@[simp] theorem setEng_linkFails (s : State) (e : Nat) (x : Engine) : (setEng s e x).linkFails = s.linkFails := rfl
@[simp] theorem setEng_redSent (s : State) (e : Nat) (x : Engine) : (setEng s e x).redSent = s.redSent := rfl
@[simp] theorem setEng_lanes (s : State) (e : Nat) (x : Engine) : (setEng s e x).lanes = s.lanes := rfl
@[simp] theorem setEng_depth (s : State) (e : Nat) (x : Engine) : (setEng s e x).depth = s.depth := rfl
@[simp] theorem setEng_stashQ (s : State) (e : Nat) (x : Engine) : (setEng s e x).stashQ = s.stashQ := rfl
@[simp] theorem setEng_stashOrd (s : State) (e : Nat) (x : Engine) : (setEng s e x).stashOrd = s.stashOrd := rfl
@[simp] theorem setEng_streams (s : State) (e : Nat) (x : Engine) : (setEng s e x).streams = s.streams := rfl
@[simp] theorem setEng_dmas (s : State) (e : Nat) (x : Engine) : (setEng s e x).dmas = s.dmas := rfl
@[simp] theorem setEng_halts (s : State) (e : Nat) (x : Engine) : (setEng s e x).halts = s.halts := rfl
@[simp] theorem setEng_haltSeq (s : State) (e : Nat) (x : Engine) : (setEng s e x).haltSeq = s.haltSeq := rfl
@[simp] theorem setEng_haltWait (s : State) (e : Nat) (x : Engine) : (setEng s e x).haltWait = s.haltWait := rfl
@[simp] theorem setEng_buckets (s : State) (e : Nat) (x : Engine) : (setEng s e x).buckets = s.buckets := rfl
@[simp] theorem setEng_tlb (s : State) (e : Nat) (x : Engine) : (setEng s e x).tlb = s.tlb := rfl
@[simp] theorem setEng_cache (s : State) (e : Nat) (x : Engine) : (setEng s e x).cache = s.cache := rfl
@[simp] theorem setEng_scrubAt (s : State) (e : Nat) (x : Engine) : (setEng s e x).scrubAt = s.scrubAt := rfl
@[simp] theorem setEng_thrAt (s : State) (e : Nat) (x : Engine) : (setEng s e x).thrAt = s.thrAt := rfl
@[simp] theorem setEng_draws (s : State) (e : Nat) (x : Engine) : (setEng s e x).draws = s.draws := rfl
@[simp] theorem setEng_clk (s : State) (e : Nat) (x : Engine) : (setEng s e x).clk = s.clk := rfl
@[simp] theorem setEng_boot (s : State) (e : Nat) (x : Engine) : (setEng s e x).boot = s.boot := rfl
@[simp] theorem setEng_sec (s : State) (e : Nat) (x : Engine) : (setEng s e x).sec = s.sec := rfl
@[simp] theorem setEng_spp (s : State) (e : Nat) (x : Engine) : (setEng s e x).spp = s.spp := rfl
@[simp] theorem setEng_gauge (s : State) (e : Nat) (x : Engine) : (setEng s e x).gauge = s.gauge := rfl
@[simp] theorem setEng_ports (s : State) (e : Nat) (x : Engine) : (setEng s e x).ports = s.ports := rfl
@[simp] theorem setEng_herd (s : State) (e : Nat) (x : Engine) : (setEng s e x).herd = s.herd := rfl
@[simp] theorem setEng_snap (s : State) (e : Nat) (x : Engine) : (setEng s e x).snap = s.snap := rfl
@[simp] theorem setEng_outbox (s : State) (e : Nat) (x : Engine) : (setEng s e x).outbox = s.outbox := rfl
@[simp] theorem setEng_wstatus (s : State) (e : Nat) (x : Engine) : (setEng s e x).wstatus = s.wstatus := rfl

@[simp] theorem setTile_pending (s : State) (k : Nat) (x : TileSt) : (setTile s k x).pending = s.pending := rfl
@[simp] theorem setTile_ctc (s : State) (k : Nat) (x : TileSt) : (setTile s k x).ctc = s.ctc := rfl
@[simp] theorem setTile_ns (s : State) (k : Nat) (x : TileSt) : (setTile s k x).ns = s.ns := rfl
@[simp] theorem setTile_nsFrac (s : State) (k : Nat) (x : TileSt) : (setTile s k x).nsFrac = s.nsFrac := rfl
@[simp] theorem setTile_ptp (s : State) (k : Nat) (x : TileSt) : (setTile s k x).ptp = s.ptp := rfl
@[simp] theorem setTile_mem (s : State) (k : Nat) (x : TileSt) : (setTile s k x).mem = s.mem := rfl
@[simp] theorem setTile_poison (s : State) (k : Nat) (x : TileSt) : (setTile s k x).poison = s.poison := rfl
@[simp] theorem setTile_errs (s : State) (k : Nat) (x : TileSt) : (setTile s k x).errs = s.errs := rfl
@[simp] theorem setTile_par (s : State) (k : Nat) (x : TileSt) : (setTile s k x).par = s.par := rfl
@[simp] theorem setTile_nanPol (s : State) (k : Nat) (x : TileSt) : (setTile s k x).nanPol = s.nanPol := rfl
@[simp] theorem setTile_nanPolAt (s : State) (k : Nat) (x : TileSt) : (setTile s k x).nanPolAt = s.nanPolAt := rfl
@[simp] theorem setTile_floor (s : State) (k : Nat) (x : TileSt) : (setTile s k x).floor = s.floor := rfl
@[simp] theorem setTile_floorAt (s : State) (k : Nat) (x : TileSt) : (setTile s k x).floorAt = s.floorAt := rfl
@[simp] theorem setTile_mons (s : State) (k : Nat) (x : TileSt) : (setTile s k x).mons = s.mons := rfl
@[simp] theorem setTile_elands (s : State) (k : Nat) (x : TileSt) : (setTile s k x).elands = s.elands := rfl
@[simp] theorem setTile_engines (s : State) (k : Nat) (x : TileSt) : (setTile s k x).engines = s.engines := rfl
@[simp] theorem setTile_cells (s : State) (k : Nat) (x : TileSt) : (setTile s k x).cells = s.cells := rfl
@[simp] theorem setTile_chams (s : State) (k : Nat) (x : TileSt) : (setTile s k x).chams = s.chams := rfl
@[simp] theorem setTile_doms (s : State) (k : Nat) (x : TileSt) : (setTile s k x).doms = s.doms := rfl
@[simp] theorem setTile_phases (s : State) (k : Nat) (x : TileSt) : (setTile s k x).phases = s.phases := rfl
@[simp] theorem setTile_beats (s : State) (k : Nat) (x : TileSt) : (setTile s k x).beats = s.beats := rfl
@[simp] theorem setTile_injs (s : State) (k : Nat) (x : TileSt) : (setTile s k x).injs = s.injs := rfl
@[simp] theorem setTile_takes (s : State) (k : Nat) (x : TileSt) : (setTile s k x).takes = s.takes := rfl
@[simp] theorem setTile_nextId (s : State) (k : Nat) (x : TileSt) : (setTile s k x).nextId = s.nextId := rfl
@[simp] theorem setTile_incrs (s : State) (k : Nat) (x : TileSt) : (setTile s k x).incrs = s.incrs := rfl
@[simp] theorem setTile_raised (s : State) (k : Nat) (x : TileSt) : (setTile s k x).raised = s.raised := rfl
@[simp] theorem setTile_unacked (s : State) (k : Nat) (x : TileSt) : (setTile s k x).unacked = s.unacked := rfl
@[simp] theorem setTile_logSeq (s : State) (k : Nat) (x : TileSt) : (setTile s k x).logSeq = s.logSeq := rfl
@[simp] theorem setTile_xfers (s : State) (k : Nat) (x : TileSt) : (setTile s k x).xfers = s.xfers := rfl
@[simp] theorem setTile_packets (s : State) (k : Nat) (x : TileSt) : (setTile s k x).packets = s.packets := rfl
@[simp] theorem setTile_arrivals (s : State) (k : Nat) (x : TileSt) : (setTile s k x).arrivals = s.arrivals := rfl
@[simp] theorem setTile_fLines (s : State) (k : Nat) (x : TileSt) : (setTile s k x).fLines = s.fLines := rfl
@[simp] theorem setTile_tokSubs (s : State) (k : Nat) (x : TileSt) : (setTile s k x).tokSubs = s.tokSubs := rfl
@[simp] theorem setTile_hbmq (s : State) (k : Nat) (x : TileSt) : (setTile s k x).hbmq = s.hbmq := rfl
@[simp] theorem setTile_red (s : State) (k : Nat) (x : TileSt) : (setTile s k x).red = s.red := rfl
@[simp] theorem setTile_linkFails (s : State) (k : Nat) (x : TileSt) : (setTile s k x).linkFails = s.linkFails := rfl
@[simp] theorem setTile_redSent (s : State) (k : Nat) (x : TileSt) : (setTile s k x).redSent = s.redSent := rfl
@[simp] theorem setTile_lanes (s : State) (k : Nat) (x : TileSt) : (setTile s k x).lanes = s.lanes := rfl
@[simp] theorem setTile_depth (s : State) (k : Nat) (x : TileSt) : (setTile s k x).depth = s.depth := rfl
@[simp] theorem setTile_stashQ (s : State) (k : Nat) (x : TileSt) : (setTile s k x).stashQ = s.stashQ := rfl
@[simp] theorem setTile_stashOrd (s : State) (k : Nat) (x : TileSt) : (setTile s k x).stashOrd = s.stashOrd := rfl
@[simp] theorem setTile_streams (s : State) (k : Nat) (x : TileSt) : (setTile s k x).streams = s.streams := rfl
@[simp] theorem setTile_dmas (s : State) (k : Nat) (x : TileSt) : (setTile s k x).dmas = s.dmas := rfl
@[simp] theorem setTile_halts (s : State) (k : Nat) (x : TileSt) : (setTile s k x).halts = s.halts := rfl
@[simp] theorem setTile_haltSeq (s : State) (k : Nat) (x : TileSt) : (setTile s k x).haltSeq = s.haltSeq := rfl
@[simp] theorem setTile_haltWait (s : State) (k : Nat) (x : TileSt) : (setTile s k x).haltWait = s.haltWait := rfl
@[simp] theorem setTile_buckets (s : State) (k : Nat) (x : TileSt) : (setTile s k x).buckets = s.buckets := rfl
@[simp] theorem setTile_tlb (s : State) (k : Nat) (x : TileSt) : (setTile s k x).tlb = s.tlb := rfl
@[simp] theorem setTile_cache (s : State) (k : Nat) (x : TileSt) : (setTile s k x).cache = s.cache := rfl
@[simp] theorem setTile_scrubAt (s : State) (k : Nat) (x : TileSt) : (setTile s k x).scrubAt = s.scrubAt := rfl
@[simp] theorem setTile_thrAt (s : State) (k : Nat) (x : TileSt) : (setTile s k x).thrAt = s.thrAt := rfl
@[simp] theorem setTile_draws (s : State) (k : Nat) (x : TileSt) : (setTile s k x).draws = s.draws := rfl
@[simp] theorem setTile_clk (s : State) (k : Nat) (x : TileSt) : (setTile s k x).clk = s.clk := rfl
@[simp] theorem setTile_boot (s : State) (k : Nat) (x : TileSt) : (setTile s k x).boot = s.boot := rfl
@[simp] theorem setTile_sec (s : State) (k : Nat) (x : TileSt) : (setTile s k x).sec = s.sec := rfl
@[simp] theorem setTile_spp (s : State) (k : Nat) (x : TileSt) : (setTile s k x).spp = s.spp := rfl
@[simp] theorem setTile_gauge (s : State) (k : Nat) (x : TileSt) : (setTile s k x).gauge = s.gauge := rfl
@[simp] theorem setTile_ports (s : State) (k : Nat) (x : TileSt) : (setTile s k x).ports = s.ports := rfl
@[simp] theorem setTile_herd (s : State) (k : Nat) (x : TileSt) : (setTile s k x).herd = s.herd := rfl
@[simp] theorem setTile_snap (s : State) (k : Nat) (x : TileSt) : (setTile s k x).snap = s.snap := rfl
@[simp] theorem setTile_outbox (s : State) (k : Nat) (x : TileSt) : (setTile s k x).outbox = s.outbox := rfl
@[simp] theorem setTile_wstatus (s : State) (k : Nat) (x : TileSt) : (setTile s k x).wstatus = s.wstatus := rfl

@[simp] theorem setCell_pending (s : State) (k : Nat) (x : Cell) : (setCell s k x).pending = s.pending := rfl
@[simp] theorem setCell_ctc (s : State) (k : Nat) (x : Cell) : (setCell s k x).ctc = s.ctc := rfl
@[simp] theorem setCell_ns (s : State) (k : Nat) (x : Cell) : (setCell s k x).ns = s.ns := rfl
@[simp] theorem setCell_nsFrac (s : State) (k : Nat) (x : Cell) : (setCell s k x).nsFrac = s.nsFrac := rfl
@[simp] theorem setCell_ptp (s : State) (k : Nat) (x : Cell) : (setCell s k x).ptp = s.ptp := rfl
@[simp] theorem setCell_mem (s : State) (k : Nat) (x : Cell) : (setCell s k x).mem = s.mem := rfl
@[simp] theorem setCell_poison (s : State) (k : Nat) (x : Cell) : (setCell s k x).poison = s.poison := rfl
@[simp] theorem setCell_errs (s : State) (k : Nat) (x : Cell) : (setCell s k x).errs = s.errs := rfl
@[simp] theorem setCell_par (s : State) (k : Nat) (x : Cell) : (setCell s k x).par = s.par := rfl
@[simp] theorem setCell_nanPol (s : State) (k : Nat) (x : Cell) : (setCell s k x).nanPol = s.nanPol := rfl
@[simp] theorem setCell_nanPolAt (s : State) (k : Nat) (x : Cell) : (setCell s k x).nanPolAt = s.nanPolAt := rfl
@[simp] theorem setCell_floor (s : State) (k : Nat) (x : Cell) : (setCell s k x).floor = s.floor := rfl
@[simp] theorem setCell_floorAt (s : State) (k : Nat) (x : Cell) : (setCell s k x).floorAt = s.floorAt := rfl
@[simp] theorem setCell_mons (s : State) (k : Nat) (x : Cell) : (setCell s k x).mons = s.mons := rfl
@[simp] theorem setCell_elands (s : State) (k : Nat) (x : Cell) : (setCell s k x).elands = s.elands := rfl
@[simp] theorem setCell_engines (s : State) (k : Nat) (x : Cell) : (setCell s k x).engines = s.engines := rfl
@[simp] theorem setCell_tiles (s : State) (k : Nat) (x : Cell) : (setCell s k x).tiles = s.tiles := rfl
@[simp] theorem setCell_chams (s : State) (k : Nat) (x : Cell) : (setCell s k x).chams = s.chams := rfl
@[simp] theorem setCell_doms (s : State) (k : Nat) (x : Cell) : (setCell s k x).doms = s.doms := rfl
@[simp] theorem setCell_phases (s : State) (k : Nat) (x : Cell) : (setCell s k x).phases = s.phases := rfl
@[simp] theorem setCell_beats (s : State) (k : Nat) (x : Cell) : (setCell s k x).beats = s.beats := rfl
@[simp] theorem setCell_injs (s : State) (k : Nat) (x : Cell) : (setCell s k x).injs = s.injs := rfl
@[simp] theorem setCell_takes (s : State) (k : Nat) (x : Cell) : (setCell s k x).takes = s.takes := rfl
@[simp] theorem setCell_nextId (s : State) (k : Nat) (x : Cell) : (setCell s k x).nextId = s.nextId := rfl
@[simp] theorem setCell_incrs (s : State) (k : Nat) (x : Cell) : (setCell s k x).incrs = s.incrs := rfl
@[simp] theorem setCell_raised (s : State) (k : Nat) (x : Cell) : (setCell s k x).raised = s.raised := rfl
@[simp] theorem setCell_unacked (s : State) (k : Nat) (x : Cell) : (setCell s k x).unacked = s.unacked := rfl
@[simp] theorem setCell_logSeq (s : State) (k : Nat) (x : Cell) : (setCell s k x).logSeq = s.logSeq := rfl
@[simp] theorem setCell_xfers (s : State) (k : Nat) (x : Cell) : (setCell s k x).xfers = s.xfers := rfl
@[simp] theorem setCell_packets (s : State) (k : Nat) (x : Cell) : (setCell s k x).packets = s.packets := rfl
@[simp] theorem setCell_arrivals (s : State) (k : Nat) (x : Cell) : (setCell s k x).arrivals = s.arrivals := rfl
@[simp] theorem setCell_fLines (s : State) (k : Nat) (x : Cell) : (setCell s k x).fLines = s.fLines := rfl
@[simp] theorem setCell_tokSubs (s : State) (k : Nat) (x : Cell) : (setCell s k x).tokSubs = s.tokSubs := rfl
@[simp] theorem setCell_hbmq (s : State) (k : Nat) (x : Cell) : (setCell s k x).hbmq = s.hbmq := rfl
@[simp] theorem setCell_red (s : State) (k : Nat) (x : Cell) : (setCell s k x).red = s.red := rfl
@[simp] theorem setCell_linkFails (s : State) (k : Nat) (x : Cell) : (setCell s k x).linkFails = s.linkFails := rfl
@[simp] theorem setCell_redSent (s : State) (k : Nat) (x : Cell) : (setCell s k x).redSent = s.redSent := rfl
@[simp] theorem setCell_lanes (s : State) (k : Nat) (x : Cell) : (setCell s k x).lanes = s.lanes := rfl
@[simp] theorem setCell_depth (s : State) (k : Nat) (x : Cell) : (setCell s k x).depth = s.depth := rfl
@[simp] theorem setCell_stashQ (s : State) (k : Nat) (x : Cell) : (setCell s k x).stashQ = s.stashQ := rfl
@[simp] theorem setCell_stashOrd (s : State) (k : Nat) (x : Cell) : (setCell s k x).stashOrd = s.stashOrd := rfl
@[simp] theorem setCell_streams (s : State) (k : Nat) (x : Cell) : (setCell s k x).streams = s.streams := rfl
@[simp] theorem setCell_dmas (s : State) (k : Nat) (x : Cell) : (setCell s k x).dmas = s.dmas := rfl
@[simp] theorem setCell_halts (s : State) (k : Nat) (x : Cell) : (setCell s k x).halts = s.halts := rfl
@[simp] theorem setCell_haltSeq (s : State) (k : Nat) (x : Cell) : (setCell s k x).haltSeq = s.haltSeq := rfl
@[simp] theorem setCell_haltWait (s : State) (k : Nat) (x : Cell) : (setCell s k x).haltWait = s.haltWait := rfl
@[simp] theorem setCell_buckets (s : State) (k : Nat) (x : Cell) : (setCell s k x).buckets = s.buckets := rfl
@[simp] theorem setCell_tlb (s : State) (k : Nat) (x : Cell) : (setCell s k x).tlb = s.tlb := rfl
@[simp] theorem setCell_cache (s : State) (k : Nat) (x : Cell) : (setCell s k x).cache = s.cache := rfl
@[simp] theorem setCell_scrubAt (s : State) (k : Nat) (x : Cell) : (setCell s k x).scrubAt = s.scrubAt := rfl
@[simp] theorem setCell_thrAt (s : State) (k : Nat) (x : Cell) : (setCell s k x).thrAt = s.thrAt := rfl
@[simp] theorem setCell_draws (s : State) (k : Nat) (x : Cell) : (setCell s k x).draws = s.draws := rfl
@[simp] theorem setCell_clk (s : State) (k : Nat) (x : Cell) : (setCell s k x).clk = s.clk := rfl
@[simp] theorem setCell_boot (s : State) (k : Nat) (x : Cell) : (setCell s k x).boot = s.boot := rfl
@[simp] theorem setCell_sec (s : State) (k : Nat) (x : Cell) : (setCell s k x).sec = s.sec := rfl
@[simp] theorem setCell_spp (s : State) (k : Nat) (x : Cell) : (setCell s k x).spp = s.spp := rfl
@[simp] theorem setCell_gauge (s : State) (k : Nat) (x : Cell) : (setCell s k x).gauge = s.gauge := rfl
@[simp] theorem setCell_ports (s : State) (k : Nat) (x : Cell) : (setCell s k x).ports = s.ports := rfl
@[simp] theorem setCell_herd (s : State) (k : Nat) (x : Cell) : (setCell s k x).herd = s.herd := rfl
@[simp] theorem setCell_snap (s : State) (k : Nat) (x : Cell) : (setCell s k x).snap = s.snap := rfl
@[simp] theorem setCell_outbox (s : State) (k : Nat) (x : Cell) : (setCell s k x).outbox = s.outbox := rfl
@[simp] theorem setCell_wstatus (s : State) (k : Nat) (x : Cell) : (setCell s k x).wstatus = s.wstatus := rfl

@[simp] theorem setStream_pending (s : State) (k : Nat) (x : Stream) : (setStream s k x).pending = s.pending := rfl
@[simp] theorem setStream_ctc (s : State) (k : Nat) (x : Stream) : (setStream s k x).ctc = s.ctc := rfl
@[simp] theorem setStream_ns (s : State) (k : Nat) (x : Stream) : (setStream s k x).ns = s.ns := rfl
@[simp] theorem setStream_nsFrac (s : State) (k : Nat) (x : Stream) : (setStream s k x).nsFrac = s.nsFrac := rfl
@[simp] theorem setStream_ptp (s : State) (k : Nat) (x : Stream) : (setStream s k x).ptp = s.ptp := rfl
@[simp] theorem setStream_mem (s : State) (k : Nat) (x : Stream) : (setStream s k x).mem = s.mem := rfl
@[simp] theorem setStream_poison (s : State) (k : Nat) (x : Stream) : (setStream s k x).poison = s.poison := rfl
@[simp] theorem setStream_errs (s : State) (k : Nat) (x : Stream) : (setStream s k x).errs = s.errs := rfl
@[simp] theorem setStream_par (s : State) (k : Nat) (x : Stream) : (setStream s k x).par = s.par := rfl
@[simp] theorem setStream_nanPol (s : State) (k : Nat) (x : Stream) : (setStream s k x).nanPol = s.nanPol := rfl
@[simp] theorem setStream_nanPolAt (s : State) (k : Nat) (x : Stream) : (setStream s k x).nanPolAt = s.nanPolAt := rfl
@[simp] theorem setStream_floor (s : State) (k : Nat) (x : Stream) : (setStream s k x).floor = s.floor := rfl
@[simp] theorem setStream_floorAt (s : State) (k : Nat) (x : Stream) : (setStream s k x).floorAt = s.floorAt := rfl
@[simp] theorem setStream_mons (s : State) (k : Nat) (x : Stream) : (setStream s k x).mons = s.mons := rfl
@[simp] theorem setStream_elands (s : State) (k : Nat) (x : Stream) : (setStream s k x).elands = s.elands := rfl
@[simp] theorem setStream_engines (s : State) (k : Nat) (x : Stream) : (setStream s k x).engines = s.engines := rfl
@[simp] theorem setStream_tiles (s : State) (k : Nat) (x : Stream) : (setStream s k x).tiles = s.tiles := rfl
@[simp] theorem setStream_cells (s : State) (k : Nat) (x : Stream) : (setStream s k x).cells = s.cells := rfl
@[simp] theorem setStream_chams (s : State) (k : Nat) (x : Stream) : (setStream s k x).chams = s.chams := rfl
@[simp] theorem setStream_doms (s : State) (k : Nat) (x : Stream) : (setStream s k x).doms = s.doms := rfl
@[simp] theorem setStream_phases (s : State) (k : Nat) (x : Stream) : (setStream s k x).phases = s.phases := rfl
@[simp] theorem setStream_beats (s : State) (k : Nat) (x : Stream) : (setStream s k x).beats = s.beats := rfl
@[simp] theorem setStream_injs (s : State) (k : Nat) (x : Stream) : (setStream s k x).injs = s.injs := rfl
@[simp] theorem setStream_takes (s : State) (k : Nat) (x : Stream) : (setStream s k x).takes = s.takes := rfl
@[simp] theorem setStream_nextId (s : State) (k : Nat) (x : Stream) : (setStream s k x).nextId = s.nextId := rfl
@[simp] theorem setStream_incrs (s : State) (k : Nat) (x : Stream) : (setStream s k x).incrs = s.incrs := rfl
@[simp] theorem setStream_raised (s : State) (k : Nat) (x : Stream) : (setStream s k x).raised = s.raised := rfl
@[simp] theorem setStream_unacked (s : State) (k : Nat) (x : Stream) : (setStream s k x).unacked = s.unacked := rfl
@[simp] theorem setStream_logSeq (s : State) (k : Nat) (x : Stream) : (setStream s k x).logSeq = s.logSeq := rfl
@[simp] theorem setStream_xfers (s : State) (k : Nat) (x : Stream) : (setStream s k x).xfers = s.xfers := rfl
@[simp] theorem setStream_packets (s : State) (k : Nat) (x : Stream) : (setStream s k x).packets = s.packets := rfl
@[simp] theorem setStream_arrivals (s : State) (k : Nat) (x : Stream) : (setStream s k x).arrivals = s.arrivals := rfl
@[simp] theorem setStream_fLines (s : State) (k : Nat) (x : Stream) : (setStream s k x).fLines = s.fLines := rfl
@[simp] theorem setStream_tokSubs (s : State) (k : Nat) (x : Stream) : (setStream s k x).tokSubs = s.tokSubs := rfl
@[simp] theorem setStream_hbmq (s : State) (k : Nat) (x : Stream) : (setStream s k x).hbmq = s.hbmq := rfl
@[simp] theorem setStream_red (s : State) (k : Nat) (x : Stream) : (setStream s k x).red = s.red := rfl
@[simp] theorem setStream_linkFails (s : State) (k : Nat) (x : Stream) : (setStream s k x).linkFails = s.linkFails := rfl
@[simp] theorem setStream_redSent (s : State) (k : Nat) (x : Stream) : (setStream s k x).redSent = s.redSent := rfl
@[simp] theorem setStream_lanes (s : State) (k : Nat) (x : Stream) : (setStream s k x).lanes = s.lanes := rfl
@[simp] theorem setStream_depth (s : State) (k : Nat) (x : Stream) : (setStream s k x).depth = s.depth := rfl
@[simp] theorem setStream_stashQ (s : State) (k : Nat) (x : Stream) : (setStream s k x).stashQ = s.stashQ := rfl
@[simp] theorem setStream_stashOrd (s : State) (k : Nat) (x : Stream) : (setStream s k x).stashOrd = s.stashOrd := rfl
@[simp] theorem setStream_dmas (s : State) (k : Nat) (x : Stream) : (setStream s k x).dmas = s.dmas := rfl
@[simp] theorem setStream_halts (s : State) (k : Nat) (x : Stream) : (setStream s k x).halts = s.halts := rfl
@[simp] theorem setStream_haltSeq (s : State) (k : Nat) (x : Stream) : (setStream s k x).haltSeq = s.haltSeq := rfl
@[simp] theorem setStream_haltWait (s : State) (k : Nat) (x : Stream) : (setStream s k x).haltWait = s.haltWait := rfl
@[simp] theorem setStream_buckets (s : State) (k : Nat) (x : Stream) : (setStream s k x).buckets = s.buckets := rfl
@[simp] theorem setStream_tlb (s : State) (k : Nat) (x : Stream) : (setStream s k x).tlb = s.tlb := rfl
@[simp] theorem setStream_cache (s : State) (k : Nat) (x : Stream) : (setStream s k x).cache = s.cache := rfl
@[simp] theorem setStream_scrubAt (s : State) (k : Nat) (x : Stream) : (setStream s k x).scrubAt = s.scrubAt := rfl
@[simp] theorem setStream_thrAt (s : State) (k : Nat) (x : Stream) : (setStream s k x).thrAt = s.thrAt := rfl
@[simp] theorem setStream_draws (s : State) (k : Nat) (x : Stream) : (setStream s k x).draws = s.draws := rfl
@[simp] theorem setStream_clk (s : State) (k : Nat) (x : Stream) : (setStream s k x).clk = s.clk := rfl
@[simp] theorem setStream_boot (s : State) (k : Nat) (x : Stream) : (setStream s k x).boot = s.boot := rfl
@[simp] theorem setStream_sec (s : State) (k : Nat) (x : Stream) : (setStream s k x).sec = s.sec := rfl
@[simp] theorem setStream_spp (s : State) (k : Nat) (x : Stream) : (setStream s k x).spp = s.spp := rfl
@[simp] theorem setStream_gauge (s : State) (k : Nat) (x : Stream) : (setStream s k x).gauge = s.gauge := rfl
@[simp] theorem setStream_ports (s : State) (k : Nat) (x : Stream) : (setStream s k x).ports = s.ports := rfl
@[simp] theorem setStream_herd (s : State) (k : Nat) (x : Stream) : (setStream s k x).herd = s.herd := rfl
@[simp] theorem setStream_snap (s : State) (k : Nat) (x : Stream) : (setStream s k x).snap = s.snap := rfl
@[simp] theorem setStream_outbox (s : State) (k : Nat) (x : Stream) : (setStream s k x).outbox = s.outbox := rfl
@[simp] theorem setStream_wstatus (s : State) (k : Nat) (x : Stream) : (setStream s k x).wstatus = s.wstatus := rfl

@[simp] theorem setDma_pending (s : State) (k : Nat) (x : Dma) : (setDma s k x).pending = s.pending := rfl
@[simp] theorem setDma_ctc (s : State) (k : Nat) (x : Dma) : (setDma s k x).ctc = s.ctc := rfl
@[simp] theorem setDma_ns (s : State) (k : Nat) (x : Dma) : (setDma s k x).ns = s.ns := rfl
@[simp] theorem setDma_nsFrac (s : State) (k : Nat) (x : Dma) : (setDma s k x).nsFrac = s.nsFrac := rfl
@[simp] theorem setDma_ptp (s : State) (k : Nat) (x : Dma) : (setDma s k x).ptp = s.ptp := rfl
@[simp] theorem setDma_mem (s : State) (k : Nat) (x : Dma) : (setDma s k x).mem = s.mem := rfl
@[simp] theorem setDma_poison (s : State) (k : Nat) (x : Dma) : (setDma s k x).poison = s.poison := rfl
@[simp] theorem setDma_errs (s : State) (k : Nat) (x : Dma) : (setDma s k x).errs = s.errs := rfl
@[simp] theorem setDma_par (s : State) (k : Nat) (x : Dma) : (setDma s k x).par = s.par := rfl
@[simp] theorem setDma_nanPol (s : State) (k : Nat) (x : Dma) : (setDma s k x).nanPol = s.nanPol := rfl
@[simp] theorem setDma_nanPolAt (s : State) (k : Nat) (x : Dma) : (setDma s k x).nanPolAt = s.nanPolAt := rfl
@[simp] theorem setDma_floor (s : State) (k : Nat) (x : Dma) : (setDma s k x).floor = s.floor := rfl
@[simp] theorem setDma_floorAt (s : State) (k : Nat) (x : Dma) : (setDma s k x).floorAt = s.floorAt := rfl
@[simp] theorem setDma_mons (s : State) (k : Nat) (x : Dma) : (setDma s k x).mons = s.mons := rfl
@[simp] theorem setDma_elands (s : State) (k : Nat) (x : Dma) : (setDma s k x).elands = s.elands := rfl
@[simp] theorem setDma_engines (s : State) (k : Nat) (x : Dma) : (setDma s k x).engines = s.engines := rfl
@[simp] theorem setDma_tiles (s : State) (k : Nat) (x : Dma) : (setDma s k x).tiles = s.tiles := rfl
@[simp] theorem setDma_cells (s : State) (k : Nat) (x : Dma) : (setDma s k x).cells = s.cells := rfl
@[simp] theorem setDma_chams (s : State) (k : Nat) (x : Dma) : (setDma s k x).chams = s.chams := rfl
@[simp] theorem setDma_doms (s : State) (k : Nat) (x : Dma) : (setDma s k x).doms = s.doms := rfl
@[simp] theorem setDma_phases (s : State) (k : Nat) (x : Dma) : (setDma s k x).phases = s.phases := rfl
@[simp] theorem setDma_beats (s : State) (k : Nat) (x : Dma) : (setDma s k x).beats = s.beats := rfl
@[simp] theorem setDma_injs (s : State) (k : Nat) (x : Dma) : (setDma s k x).injs = s.injs := rfl
@[simp] theorem setDma_takes (s : State) (k : Nat) (x : Dma) : (setDma s k x).takes = s.takes := rfl
@[simp] theorem setDma_nextId (s : State) (k : Nat) (x : Dma) : (setDma s k x).nextId = s.nextId := rfl
@[simp] theorem setDma_incrs (s : State) (k : Nat) (x : Dma) : (setDma s k x).incrs = s.incrs := rfl
@[simp] theorem setDma_raised (s : State) (k : Nat) (x : Dma) : (setDma s k x).raised = s.raised := rfl
@[simp] theorem setDma_unacked (s : State) (k : Nat) (x : Dma) : (setDma s k x).unacked = s.unacked := rfl
@[simp] theorem setDma_logSeq (s : State) (k : Nat) (x : Dma) : (setDma s k x).logSeq = s.logSeq := rfl
@[simp] theorem setDma_xfers (s : State) (k : Nat) (x : Dma) : (setDma s k x).xfers = s.xfers := rfl
@[simp] theorem setDma_packets (s : State) (k : Nat) (x : Dma) : (setDma s k x).packets = s.packets := rfl
@[simp] theorem setDma_arrivals (s : State) (k : Nat) (x : Dma) : (setDma s k x).arrivals = s.arrivals := rfl
@[simp] theorem setDma_fLines (s : State) (k : Nat) (x : Dma) : (setDma s k x).fLines = s.fLines := rfl
@[simp] theorem setDma_tokSubs (s : State) (k : Nat) (x : Dma) : (setDma s k x).tokSubs = s.tokSubs := rfl
@[simp] theorem setDma_hbmq (s : State) (k : Nat) (x : Dma) : (setDma s k x).hbmq = s.hbmq := rfl
@[simp] theorem setDma_red (s : State) (k : Nat) (x : Dma) : (setDma s k x).red = s.red := rfl
@[simp] theorem setDma_linkFails (s : State) (k : Nat) (x : Dma) : (setDma s k x).linkFails = s.linkFails := rfl
@[simp] theorem setDma_redSent (s : State) (k : Nat) (x : Dma) : (setDma s k x).redSent = s.redSent := rfl
@[simp] theorem setDma_lanes (s : State) (k : Nat) (x : Dma) : (setDma s k x).lanes = s.lanes := rfl
@[simp] theorem setDma_depth (s : State) (k : Nat) (x : Dma) : (setDma s k x).depth = s.depth := rfl
@[simp] theorem setDma_stashQ (s : State) (k : Nat) (x : Dma) : (setDma s k x).stashQ = s.stashQ := rfl
@[simp] theorem setDma_stashOrd (s : State) (k : Nat) (x : Dma) : (setDma s k x).stashOrd = s.stashOrd := rfl
@[simp] theorem setDma_streams (s : State) (k : Nat) (x : Dma) : (setDma s k x).streams = s.streams := rfl
@[simp] theorem setDma_halts (s : State) (k : Nat) (x : Dma) : (setDma s k x).halts = s.halts := rfl
@[simp] theorem setDma_haltSeq (s : State) (k : Nat) (x : Dma) : (setDma s k x).haltSeq = s.haltSeq := rfl
@[simp] theorem setDma_haltWait (s : State) (k : Nat) (x : Dma) : (setDma s k x).haltWait = s.haltWait := rfl
@[simp] theorem setDma_buckets (s : State) (k : Nat) (x : Dma) : (setDma s k x).buckets = s.buckets := rfl
@[simp] theorem setDma_tlb (s : State) (k : Nat) (x : Dma) : (setDma s k x).tlb = s.tlb := rfl
@[simp] theorem setDma_cache (s : State) (k : Nat) (x : Dma) : (setDma s k x).cache = s.cache := rfl
@[simp] theorem setDma_scrubAt (s : State) (k : Nat) (x : Dma) : (setDma s k x).scrubAt = s.scrubAt := rfl
@[simp] theorem setDma_thrAt (s : State) (k : Nat) (x : Dma) : (setDma s k x).thrAt = s.thrAt := rfl
@[simp] theorem setDma_draws (s : State) (k : Nat) (x : Dma) : (setDma s k x).draws = s.draws := rfl
@[simp] theorem setDma_clk (s : State) (k : Nat) (x : Dma) : (setDma s k x).clk = s.clk := rfl
@[simp] theorem setDma_boot (s : State) (k : Nat) (x : Dma) : (setDma s k x).boot = s.boot := rfl
@[simp] theorem setDma_sec (s : State) (k : Nat) (x : Dma) : (setDma s k x).sec = s.sec := rfl
@[simp] theorem setDma_spp (s : State) (k : Nat) (x : Dma) : (setDma s k x).spp = s.spp := rfl
@[simp] theorem setDma_gauge (s : State) (k : Nat) (x : Dma) : (setDma s k x).gauge = s.gauge := rfl
@[simp] theorem setDma_ports (s : State) (k : Nat) (x : Dma) : (setDma s k x).ports = s.ports := rfl
@[simp] theorem setDma_herd (s : State) (k : Nat) (x : Dma) : (setDma s k x).herd = s.herd := rfl
@[simp] theorem setDma_snap (s : State) (k : Nat) (x : Dma) : (setDma s k x).snap = s.snap := rfl
@[simp] theorem setDma_outbox (s : State) (k : Nat) (x : Dma) : (setDma s k x).outbox = s.outbox := rfl
@[simp] theorem setDma_wstatus (s : State) (k : Nat) (x : Dma) : (setDma s k x).wstatus = s.wstatus := rfl

@[simp] theorem setInj_pending (s : State) (k : Nat) (x : List InjRun) : (setInj s k x).pending = s.pending := rfl
@[simp] theorem setInj_ctc (s : State) (k : Nat) (x : List InjRun) : (setInj s k x).ctc = s.ctc := rfl
@[simp] theorem setInj_ns (s : State) (k : Nat) (x : List InjRun) : (setInj s k x).ns = s.ns := rfl
@[simp] theorem setInj_nsFrac (s : State) (k : Nat) (x : List InjRun) : (setInj s k x).nsFrac = s.nsFrac := rfl
@[simp] theorem setInj_ptp (s : State) (k : Nat) (x : List InjRun) : (setInj s k x).ptp = s.ptp := rfl
@[simp] theorem setInj_mem (s : State) (k : Nat) (x : List InjRun) : (setInj s k x).mem = s.mem := rfl
@[simp] theorem setInj_poison (s : State) (k : Nat) (x : List InjRun) : (setInj s k x).poison = s.poison := rfl
@[simp] theorem setInj_errs (s : State) (k : Nat) (x : List InjRun) : (setInj s k x).errs = s.errs := rfl
@[simp] theorem setInj_par (s : State) (k : Nat) (x : List InjRun) : (setInj s k x).par = s.par := rfl
@[simp] theorem setInj_nanPol (s : State) (k : Nat) (x : List InjRun) : (setInj s k x).nanPol = s.nanPol := rfl
@[simp] theorem setInj_nanPolAt (s : State) (k : Nat) (x : List InjRun) : (setInj s k x).nanPolAt = s.nanPolAt := rfl
@[simp] theorem setInj_floor (s : State) (k : Nat) (x : List InjRun) : (setInj s k x).floor = s.floor := rfl
@[simp] theorem setInj_floorAt (s : State) (k : Nat) (x : List InjRun) : (setInj s k x).floorAt = s.floorAt := rfl
@[simp] theorem setInj_mons (s : State) (k : Nat) (x : List InjRun) : (setInj s k x).mons = s.mons := rfl
@[simp] theorem setInj_elands (s : State) (k : Nat) (x : List InjRun) : (setInj s k x).elands = s.elands := rfl
@[simp] theorem setInj_engines (s : State) (k : Nat) (x : List InjRun) : (setInj s k x).engines = s.engines := rfl
@[simp] theorem setInj_tiles (s : State) (k : Nat) (x : List InjRun) : (setInj s k x).tiles = s.tiles := rfl
@[simp] theorem setInj_cells (s : State) (k : Nat) (x : List InjRun) : (setInj s k x).cells = s.cells := rfl
@[simp] theorem setInj_chams (s : State) (k : Nat) (x : List InjRun) : (setInj s k x).chams = s.chams := rfl
@[simp] theorem setInj_doms (s : State) (k : Nat) (x : List InjRun) : (setInj s k x).doms = s.doms := rfl
@[simp] theorem setInj_phases (s : State) (k : Nat) (x : List InjRun) : (setInj s k x).phases = s.phases := rfl
@[simp] theorem setInj_beats (s : State) (k : Nat) (x : List InjRun) : (setInj s k x).beats = s.beats := rfl
@[simp] theorem setInj_takes (s : State) (k : Nat) (x : List InjRun) : (setInj s k x).takes = s.takes := rfl
@[simp] theorem setInj_nextId (s : State) (k : Nat) (x : List InjRun) : (setInj s k x).nextId = s.nextId := rfl
@[simp] theorem setInj_incrs (s : State) (k : Nat) (x : List InjRun) : (setInj s k x).incrs = s.incrs := rfl
@[simp] theorem setInj_raised (s : State) (k : Nat) (x : List InjRun) : (setInj s k x).raised = s.raised := rfl
@[simp] theorem setInj_unacked (s : State) (k : Nat) (x : List InjRun) : (setInj s k x).unacked = s.unacked := rfl
@[simp] theorem setInj_logSeq (s : State) (k : Nat) (x : List InjRun) : (setInj s k x).logSeq = s.logSeq := rfl
@[simp] theorem setInj_xfers (s : State) (k : Nat) (x : List InjRun) : (setInj s k x).xfers = s.xfers := rfl
@[simp] theorem setInj_packets (s : State) (k : Nat) (x : List InjRun) : (setInj s k x).packets = s.packets := rfl
@[simp] theorem setInj_arrivals (s : State) (k : Nat) (x : List InjRun) : (setInj s k x).arrivals = s.arrivals := rfl
@[simp] theorem setInj_fLines (s : State) (k : Nat) (x : List InjRun) : (setInj s k x).fLines = s.fLines := rfl
@[simp] theorem setInj_tokSubs (s : State) (k : Nat) (x : List InjRun) : (setInj s k x).tokSubs = s.tokSubs := rfl
@[simp] theorem setInj_hbmq (s : State) (k : Nat) (x : List InjRun) : (setInj s k x).hbmq = s.hbmq := rfl
@[simp] theorem setInj_red (s : State) (k : Nat) (x : List InjRun) : (setInj s k x).red = s.red := rfl
@[simp] theorem setInj_linkFails (s : State) (k : Nat) (x : List InjRun) : (setInj s k x).linkFails = s.linkFails := rfl
@[simp] theorem setInj_redSent (s : State) (k : Nat) (x : List InjRun) : (setInj s k x).redSent = s.redSent := rfl
@[simp] theorem setInj_lanes (s : State) (k : Nat) (x : List InjRun) : (setInj s k x).lanes = s.lanes := rfl
@[simp] theorem setInj_depth (s : State) (k : Nat) (x : List InjRun) : (setInj s k x).depth = s.depth := rfl
@[simp] theorem setInj_stashQ (s : State) (k : Nat) (x : List InjRun) : (setInj s k x).stashQ = s.stashQ := rfl
@[simp] theorem setInj_stashOrd (s : State) (k : Nat) (x : List InjRun) : (setInj s k x).stashOrd = s.stashOrd := rfl
@[simp] theorem setInj_streams (s : State) (k : Nat) (x : List InjRun) : (setInj s k x).streams = s.streams := rfl
@[simp] theorem setInj_dmas (s : State) (k : Nat) (x : List InjRun) : (setInj s k x).dmas = s.dmas := rfl
@[simp] theorem setInj_halts (s : State) (k : Nat) (x : List InjRun) : (setInj s k x).halts = s.halts := rfl
@[simp] theorem setInj_haltSeq (s : State) (k : Nat) (x : List InjRun) : (setInj s k x).haltSeq = s.haltSeq := rfl
@[simp] theorem setInj_haltWait (s : State) (k : Nat) (x : List InjRun) : (setInj s k x).haltWait = s.haltWait := rfl
@[simp] theorem setInj_buckets (s : State) (k : Nat) (x : List InjRun) : (setInj s k x).buckets = s.buckets := rfl
@[simp] theorem setInj_tlb (s : State) (k : Nat) (x : List InjRun) : (setInj s k x).tlb = s.tlb := rfl
@[simp] theorem setInj_cache (s : State) (k : Nat) (x : List InjRun) : (setInj s k x).cache = s.cache := rfl
@[simp] theorem setInj_scrubAt (s : State) (k : Nat) (x : List InjRun) : (setInj s k x).scrubAt = s.scrubAt := rfl
@[simp] theorem setInj_thrAt (s : State) (k : Nat) (x : List InjRun) : (setInj s k x).thrAt = s.thrAt := rfl
@[simp] theorem setInj_draws (s : State) (k : Nat) (x : List InjRun) : (setInj s k x).draws = s.draws := rfl
@[simp] theorem setInj_clk (s : State) (k : Nat) (x : List InjRun) : (setInj s k x).clk = s.clk := rfl
@[simp] theorem setInj_boot (s : State) (k : Nat) (x : List InjRun) : (setInj s k x).boot = s.boot := rfl
@[simp] theorem setInj_sec (s : State) (k : Nat) (x : List InjRun) : (setInj s k x).sec = s.sec := rfl
@[simp] theorem setInj_spp (s : State) (k : Nat) (x : List InjRun) : (setInj s k x).spp = s.spp := rfl
@[simp] theorem setInj_gauge (s : State) (k : Nat) (x : List InjRun) : (setInj s k x).gauge = s.gauge := rfl
@[simp] theorem setInj_ports (s : State) (k : Nat) (x : List InjRun) : (setInj s k x).ports = s.ports := rfl
@[simp] theorem setInj_herd (s : State) (k : Nat) (x : List InjRun) : (setInj s k x).herd = s.herd := rfl
@[simp] theorem setInj_snap (s : State) (k : Nat) (x : List InjRun) : (setInj s k x).snap = s.snap := rfl
@[simp] theorem setInj_outbox (s : State) (k : Nat) (x : List InjRun) : (setInj s k x).outbox = s.outbox := rfl
@[simp] theorem setInj_wstatus (s : State) (k : Nat) (x : List InjRun) : (setInj s k x).wstatus = s.wstatus := rfl

@[simp] theorem setTake_pending (s : State) (d : Dir) (k : Nat) (x : TakeUnit) : (setTake s d k x).pending = s.pending := rfl
@[simp] theorem setTake_ctc (s : State) (d : Dir) (k : Nat) (x : TakeUnit) : (setTake s d k x).ctc = s.ctc := rfl
@[simp] theorem setTake_ns (s : State) (d : Dir) (k : Nat) (x : TakeUnit) : (setTake s d k x).ns = s.ns := rfl
@[simp] theorem setTake_nsFrac (s : State) (d : Dir) (k : Nat) (x : TakeUnit) : (setTake s d k x).nsFrac = s.nsFrac := rfl
@[simp] theorem setTake_ptp (s : State) (d : Dir) (k : Nat) (x : TakeUnit) : (setTake s d k x).ptp = s.ptp := rfl
@[simp] theorem setTake_mem (s : State) (d : Dir) (k : Nat) (x : TakeUnit) : (setTake s d k x).mem = s.mem := rfl
@[simp] theorem setTake_poison (s : State) (d : Dir) (k : Nat) (x : TakeUnit) : (setTake s d k x).poison = s.poison := rfl
@[simp] theorem setTake_errs (s : State) (d : Dir) (k : Nat) (x : TakeUnit) : (setTake s d k x).errs = s.errs := rfl
@[simp] theorem setTake_par (s : State) (d : Dir) (k : Nat) (x : TakeUnit) : (setTake s d k x).par = s.par := rfl
@[simp] theorem setTake_nanPol (s : State) (d : Dir) (k : Nat) (x : TakeUnit) : (setTake s d k x).nanPol = s.nanPol := rfl
@[simp] theorem setTake_nanPolAt (s : State) (d : Dir) (k : Nat) (x : TakeUnit) : (setTake s d k x).nanPolAt = s.nanPolAt := rfl
@[simp] theorem setTake_floor (s : State) (d : Dir) (k : Nat) (x : TakeUnit) : (setTake s d k x).floor = s.floor := rfl
@[simp] theorem setTake_floorAt (s : State) (d : Dir) (k : Nat) (x : TakeUnit) : (setTake s d k x).floorAt = s.floorAt := rfl
@[simp] theorem setTake_mons (s : State) (d : Dir) (k : Nat) (x : TakeUnit) : (setTake s d k x).mons = s.mons := rfl
@[simp] theorem setTake_elands (s : State) (d : Dir) (k : Nat) (x : TakeUnit) : (setTake s d k x).elands = s.elands := rfl
@[simp] theorem setTake_engines (s : State) (d : Dir) (k : Nat) (x : TakeUnit) : (setTake s d k x).engines = s.engines := rfl
@[simp] theorem setTake_tiles (s : State) (d : Dir) (k : Nat) (x : TakeUnit) : (setTake s d k x).tiles = s.tiles := rfl
@[simp] theorem setTake_cells (s : State) (d : Dir) (k : Nat) (x : TakeUnit) : (setTake s d k x).cells = s.cells := rfl
@[simp] theorem setTake_chams (s : State) (d : Dir) (k : Nat) (x : TakeUnit) : (setTake s d k x).chams = s.chams := rfl
@[simp] theorem setTake_doms (s : State) (d : Dir) (k : Nat) (x : TakeUnit) : (setTake s d k x).doms = s.doms := rfl
@[simp] theorem setTake_phases (s : State) (d : Dir) (k : Nat) (x : TakeUnit) : (setTake s d k x).phases = s.phases := rfl
@[simp] theorem setTake_beats (s : State) (d : Dir) (k : Nat) (x : TakeUnit) : (setTake s d k x).beats = s.beats := rfl
@[simp] theorem setTake_injs (s : State) (d : Dir) (k : Nat) (x : TakeUnit) : (setTake s d k x).injs = s.injs := rfl
@[simp] theorem setTake_nextId (s : State) (d : Dir) (k : Nat) (x : TakeUnit) : (setTake s d k x).nextId = s.nextId := rfl
@[simp] theorem setTake_incrs (s : State) (d : Dir) (k : Nat) (x : TakeUnit) : (setTake s d k x).incrs = s.incrs := rfl
@[simp] theorem setTake_raised (s : State) (d : Dir) (k : Nat) (x : TakeUnit) : (setTake s d k x).raised = s.raised := rfl
@[simp] theorem setTake_unacked (s : State) (d : Dir) (k : Nat) (x : TakeUnit) : (setTake s d k x).unacked = s.unacked := rfl
@[simp] theorem setTake_logSeq (s : State) (d : Dir) (k : Nat) (x : TakeUnit) : (setTake s d k x).logSeq = s.logSeq := rfl
@[simp] theorem setTake_xfers (s : State) (d : Dir) (k : Nat) (x : TakeUnit) : (setTake s d k x).xfers = s.xfers := rfl
@[simp] theorem setTake_packets (s : State) (d : Dir) (k : Nat) (x : TakeUnit) : (setTake s d k x).packets = s.packets := rfl
@[simp] theorem setTake_arrivals (s : State) (d : Dir) (k : Nat) (x : TakeUnit) : (setTake s d k x).arrivals = s.arrivals := rfl
@[simp] theorem setTake_fLines (s : State) (d : Dir) (k : Nat) (x : TakeUnit) : (setTake s d k x).fLines = s.fLines := rfl
@[simp] theorem setTake_tokSubs (s : State) (d : Dir) (k : Nat) (x : TakeUnit) : (setTake s d k x).tokSubs = s.tokSubs := rfl
@[simp] theorem setTake_hbmq (s : State) (d : Dir) (k : Nat) (x : TakeUnit) : (setTake s d k x).hbmq = s.hbmq := rfl
@[simp] theorem setTake_red (s : State) (d : Dir) (k : Nat) (x : TakeUnit) : (setTake s d k x).red = s.red := rfl
@[simp] theorem setTake_linkFails (s : State) (d : Dir) (k : Nat) (x : TakeUnit) : (setTake s d k x).linkFails = s.linkFails := rfl
@[simp] theorem setTake_redSent (s : State) (d : Dir) (k : Nat) (x : TakeUnit) : (setTake s d k x).redSent = s.redSent := rfl
@[simp] theorem setTake_lanes (s : State) (d : Dir) (k : Nat) (x : TakeUnit) : (setTake s d k x).lanes = s.lanes := rfl
@[simp] theorem setTake_depth (s : State) (d : Dir) (k : Nat) (x : TakeUnit) : (setTake s d k x).depth = s.depth := rfl
@[simp] theorem setTake_stashQ (s : State) (d : Dir) (k : Nat) (x : TakeUnit) : (setTake s d k x).stashQ = s.stashQ := rfl
@[simp] theorem setTake_stashOrd (s : State) (d : Dir) (k : Nat) (x : TakeUnit) : (setTake s d k x).stashOrd = s.stashOrd := rfl
@[simp] theorem setTake_streams (s : State) (d : Dir) (k : Nat) (x : TakeUnit) : (setTake s d k x).streams = s.streams := rfl
@[simp] theorem setTake_dmas (s : State) (d : Dir) (k : Nat) (x : TakeUnit) : (setTake s d k x).dmas = s.dmas := rfl
@[simp] theorem setTake_halts (s : State) (d : Dir) (k : Nat) (x : TakeUnit) : (setTake s d k x).halts = s.halts := rfl
@[simp] theorem setTake_haltSeq (s : State) (d : Dir) (k : Nat) (x : TakeUnit) : (setTake s d k x).haltSeq = s.haltSeq := rfl
@[simp] theorem setTake_haltWait (s : State) (d : Dir) (k : Nat) (x : TakeUnit) : (setTake s d k x).haltWait = s.haltWait := rfl
@[simp] theorem setTake_buckets (s : State) (d : Dir) (k : Nat) (x : TakeUnit) : (setTake s d k x).buckets = s.buckets := rfl
@[simp] theorem setTake_tlb (s : State) (d : Dir) (k : Nat) (x : TakeUnit) : (setTake s d k x).tlb = s.tlb := rfl
@[simp] theorem setTake_cache (s : State) (d : Dir) (k : Nat) (x : TakeUnit) : (setTake s d k x).cache = s.cache := rfl
@[simp] theorem setTake_scrubAt (s : State) (d : Dir) (k : Nat) (x : TakeUnit) : (setTake s d k x).scrubAt = s.scrubAt := rfl
@[simp] theorem setTake_thrAt (s : State) (d : Dir) (k : Nat) (x : TakeUnit) : (setTake s d k x).thrAt = s.thrAt := rfl
@[simp] theorem setTake_draws (s : State) (d : Dir) (k : Nat) (x : TakeUnit) : (setTake s d k x).draws = s.draws := rfl
@[simp] theorem setTake_clk (s : State) (d : Dir) (k : Nat) (x : TakeUnit) : (setTake s d k x).clk = s.clk := rfl
@[simp] theorem setTake_boot (s : State) (d : Dir) (k : Nat) (x : TakeUnit) : (setTake s d k x).boot = s.boot := rfl
@[simp] theorem setTake_sec (s : State) (d : Dir) (k : Nat) (x : TakeUnit) : (setTake s d k x).sec = s.sec := rfl
@[simp] theorem setTake_spp (s : State) (d : Dir) (k : Nat) (x : TakeUnit) : (setTake s d k x).spp = s.spp := rfl
@[simp] theorem setTake_gauge (s : State) (d : Dir) (k : Nat) (x : TakeUnit) : (setTake s d k x).gauge = s.gauge := rfl
@[simp] theorem setTake_ports (s : State) (d : Dir) (k : Nat) (x : TakeUnit) : (setTake s d k x).ports = s.ports := rfl
@[simp] theorem setTake_herd (s : State) (d : Dir) (k : Nat) (x : TakeUnit) : (setTake s d k x).herd = s.herd := rfl
@[simp] theorem setTake_snap (s : State) (d : Dir) (k : Nat) (x : TakeUnit) : (setTake s d k x).snap = s.snap := rfl
@[simp] theorem setTake_outbox (s : State) (d : Dir) (k : Nat) (x : TakeUnit) : (setTake s d k x).outbox = s.outbox := rfl
@[simp] theorem setTake_wstatus (s : State) (d : Dir) (k : Nat) (x : TakeUnit) : (setTake s d k x).wstatus = s.wstatus := rfl

@[simp] theorem setMon_pending (s : State) (k : Nat) (x : Monitor) : (setMon s k x).pending = s.pending := rfl
@[simp] theorem setMon_ctc (s : State) (k : Nat) (x : Monitor) : (setMon s k x).ctc = s.ctc := rfl
@[simp] theorem setMon_ns (s : State) (k : Nat) (x : Monitor) : (setMon s k x).ns = s.ns := rfl
@[simp] theorem setMon_nsFrac (s : State) (k : Nat) (x : Monitor) : (setMon s k x).nsFrac = s.nsFrac := rfl
@[simp] theorem setMon_ptp (s : State) (k : Nat) (x : Monitor) : (setMon s k x).ptp = s.ptp := rfl
@[simp] theorem setMon_mem (s : State) (k : Nat) (x : Monitor) : (setMon s k x).mem = s.mem := rfl
@[simp] theorem setMon_poison (s : State) (k : Nat) (x : Monitor) : (setMon s k x).poison = s.poison := rfl
@[simp] theorem setMon_errs (s : State) (k : Nat) (x : Monitor) : (setMon s k x).errs = s.errs := rfl
@[simp] theorem setMon_par (s : State) (k : Nat) (x : Monitor) : (setMon s k x).par = s.par := rfl
@[simp] theorem setMon_nanPol (s : State) (k : Nat) (x : Monitor) : (setMon s k x).nanPol = s.nanPol := rfl
@[simp] theorem setMon_nanPolAt (s : State) (k : Nat) (x : Monitor) : (setMon s k x).nanPolAt = s.nanPolAt := rfl
@[simp] theorem setMon_floor (s : State) (k : Nat) (x : Monitor) : (setMon s k x).floor = s.floor := rfl
@[simp] theorem setMon_floorAt (s : State) (k : Nat) (x : Monitor) : (setMon s k x).floorAt = s.floorAt := rfl
@[simp] theorem setMon_elands (s : State) (k : Nat) (x : Monitor) : (setMon s k x).elands = s.elands := rfl
@[simp] theorem setMon_engines (s : State) (k : Nat) (x : Monitor) : (setMon s k x).engines = s.engines := rfl
@[simp] theorem setMon_tiles (s : State) (k : Nat) (x : Monitor) : (setMon s k x).tiles = s.tiles := rfl
@[simp] theorem setMon_cells (s : State) (k : Nat) (x : Monitor) : (setMon s k x).cells = s.cells := rfl
@[simp] theorem setMon_chams (s : State) (k : Nat) (x : Monitor) : (setMon s k x).chams = s.chams := rfl
@[simp] theorem setMon_doms (s : State) (k : Nat) (x : Monitor) : (setMon s k x).doms = s.doms := rfl
@[simp] theorem setMon_phases (s : State) (k : Nat) (x : Monitor) : (setMon s k x).phases = s.phases := rfl
@[simp] theorem setMon_beats (s : State) (k : Nat) (x : Monitor) : (setMon s k x).beats = s.beats := rfl
@[simp] theorem setMon_injs (s : State) (k : Nat) (x : Monitor) : (setMon s k x).injs = s.injs := rfl
@[simp] theorem setMon_takes (s : State) (k : Nat) (x : Monitor) : (setMon s k x).takes = s.takes := rfl
@[simp] theorem setMon_nextId (s : State) (k : Nat) (x : Monitor) : (setMon s k x).nextId = s.nextId := rfl
@[simp] theorem setMon_incrs (s : State) (k : Nat) (x : Monitor) : (setMon s k x).incrs = s.incrs := rfl
@[simp] theorem setMon_raised (s : State) (k : Nat) (x : Monitor) : (setMon s k x).raised = s.raised := rfl
@[simp] theorem setMon_unacked (s : State) (k : Nat) (x : Monitor) : (setMon s k x).unacked = s.unacked := rfl
@[simp] theorem setMon_logSeq (s : State) (k : Nat) (x : Monitor) : (setMon s k x).logSeq = s.logSeq := rfl
@[simp] theorem setMon_xfers (s : State) (k : Nat) (x : Monitor) : (setMon s k x).xfers = s.xfers := rfl
@[simp] theorem setMon_packets (s : State) (k : Nat) (x : Monitor) : (setMon s k x).packets = s.packets := rfl
@[simp] theorem setMon_arrivals (s : State) (k : Nat) (x : Monitor) : (setMon s k x).arrivals = s.arrivals := rfl
@[simp] theorem setMon_fLines (s : State) (k : Nat) (x : Monitor) : (setMon s k x).fLines = s.fLines := rfl
@[simp] theorem setMon_tokSubs (s : State) (k : Nat) (x : Monitor) : (setMon s k x).tokSubs = s.tokSubs := rfl
@[simp] theorem setMon_hbmq (s : State) (k : Nat) (x : Monitor) : (setMon s k x).hbmq = s.hbmq := rfl
@[simp] theorem setMon_red (s : State) (k : Nat) (x : Monitor) : (setMon s k x).red = s.red := rfl
@[simp] theorem setMon_linkFails (s : State) (k : Nat) (x : Monitor) : (setMon s k x).linkFails = s.linkFails := rfl
@[simp] theorem setMon_redSent (s : State) (k : Nat) (x : Monitor) : (setMon s k x).redSent = s.redSent := rfl
@[simp] theorem setMon_lanes (s : State) (k : Nat) (x : Monitor) : (setMon s k x).lanes = s.lanes := rfl
@[simp] theorem setMon_depth (s : State) (k : Nat) (x : Monitor) : (setMon s k x).depth = s.depth := rfl
@[simp] theorem setMon_stashQ (s : State) (k : Nat) (x : Monitor) : (setMon s k x).stashQ = s.stashQ := rfl
@[simp] theorem setMon_stashOrd (s : State) (k : Nat) (x : Monitor) : (setMon s k x).stashOrd = s.stashOrd := rfl
@[simp] theorem setMon_streams (s : State) (k : Nat) (x : Monitor) : (setMon s k x).streams = s.streams := rfl
@[simp] theorem setMon_dmas (s : State) (k : Nat) (x : Monitor) : (setMon s k x).dmas = s.dmas := rfl
@[simp] theorem setMon_halts (s : State) (k : Nat) (x : Monitor) : (setMon s k x).halts = s.halts := rfl
@[simp] theorem setMon_haltSeq (s : State) (k : Nat) (x : Monitor) : (setMon s k x).haltSeq = s.haltSeq := rfl
@[simp] theorem setMon_haltWait (s : State) (k : Nat) (x : Monitor) : (setMon s k x).haltWait = s.haltWait := rfl
@[simp] theorem setMon_buckets (s : State) (k : Nat) (x : Monitor) : (setMon s k x).buckets = s.buckets := rfl
@[simp] theorem setMon_tlb (s : State) (k : Nat) (x : Monitor) : (setMon s k x).tlb = s.tlb := rfl
@[simp] theorem setMon_cache (s : State) (k : Nat) (x : Monitor) : (setMon s k x).cache = s.cache := rfl
@[simp] theorem setMon_scrubAt (s : State) (k : Nat) (x : Monitor) : (setMon s k x).scrubAt = s.scrubAt := rfl
@[simp] theorem setMon_thrAt (s : State) (k : Nat) (x : Monitor) : (setMon s k x).thrAt = s.thrAt := rfl
@[simp] theorem setMon_draws (s : State) (k : Nat) (x : Monitor) : (setMon s k x).draws = s.draws := rfl
@[simp] theorem setMon_clk (s : State) (k : Nat) (x : Monitor) : (setMon s k x).clk = s.clk := rfl
@[simp] theorem setMon_boot (s : State) (k : Nat) (x : Monitor) : (setMon s k x).boot = s.boot := rfl
@[simp] theorem setMon_sec (s : State) (k : Nat) (x : Monitor) : (setMon s k x).sec = s.sec := rfl
@[simp] theorem setMon_spp (s : State) (k : Nat) (x : Monitor) : (setMon s k x).spp = s.spp := rfl
@[simp] theorem setMon_gauge (s : State) (k : Nat) (x : Monitor) : (setMon s k x).gauge = s.gauge := rfl
@[simp] theorem setMon_ports (s : State) (k : Nat) (x : Monitor) : (setMon s k x).ports = s.ports := rfl
@[simp] theorem setMon_herd (s : State) (k : Nat) (x : Monitor) : (setMon s k x).herd = s.herd := rfl
@[simp] theorem setMon_snap (s : State) (k : Nat) (x : Monitor) : (setMon s k x).snap = s.snap := rfl
@[simp] theorem setMon_outbox (s : State) (k : Nat) (x : Monitor) : (setMon s k x).outbox = s.outbox := rfl
@[simp] theorem setMon_wstatus (s : State) (k : Nat) (x : Monitor) : (setMon s k x).wstatus = s.wstatus := rfl

@[simp] theorem writeP_pending (s : State) (a : Nat) (bs : List (Byte × Bool)) : (writeP s a bs).pending = s.pending := rfl
@[simp] theorem writeP_ctc (s : State) (a : Nat) (bs : List (Byte × Bool)) : (writeP s a bs).ctc = s.ctc := rfl
@[simp] theorem writeP_ns (s : State) (a : Nat) (bs : List (Byte × Bool)) : (writeP s a bs).ns = s.ns := rfl
@[simp] theorem writeP_nsFrac (s : State) (a : Nat) (bs : List (Byte × Bool)) : (writeP s a bs).nsFrac = s.nsFrac := rfl
@[simp] theorem writeP_ptp (s : State) (a : Nat) (bs : List (Byte × Bool)) : (writeP s a bs).ptp = s.ptp := rfl
@[simp] theorem writeP_par (s : State) (a : Nat) (bs : List (Byte × Bool)) : (writeP s a bs).par = s.par := rfl
@[simp] theorem writeP_nanPol (s : State) (a : Nat) (bs : List (Byte × Bool)) : (writeP s a bs).nanPol = s.nanPol := rfl
@[simp] theorem writeP_nanPolAt (s : State) (a : Nat) (bs : List (Byte × Bool)) : (writeP s a bs).nanPolAt = s.nanPolAt := rfl
@[simp] theorem writeP_floor (s : State) (a : Nat) (bs : List (Byte × Bool)) : (writeP s a bs).floor = s.floor := rfl
@[simp] theorem writeP_floorAt (s : State) (a : Nat) (bs : List (Byte × Bool)) : (writeP s a bs).floorAt = s.floorAt := rfl
@[simp] theorem writeP_mons (s : State) (a : Nat) (bs : List (Byte × Bool)) : (writeP s a bs).mons = s.mons := rfl
@[simp] theorem writeP_elands (s : State) (a : Nat) (bs : List (Byte × Bool)) : (writeP s a bs).elands = s.elands := rfl
@[simp] theorem writeP_engines (s : State) (a : Nat) (bs : List (Byte × Bool)) : (writeP s a bs).engines = s.engines := rfl
@[simp] theorem writeP_tiles (s : State) (a : Nat) (bs : List (Byte × Bool)) : (writeP s a bs).tiles = s.tiles := rfl
@[simp] theorem writeP_cells (s : State) (a : Nat) (bs : List (Byte × Bool)) : (writeP s a bs).cells = s.cells := rfl
@[simp] theorem writeP_chams (s : State) (a : Nat) (bs : List (Byte × Bool)) : (writeP s a bs).chams = s.chams := rfl
@[simp] theorem writeP_doms (s : State) (a : Nat) (bs : List (Byte × Bool)) : (writeP s a bs).doms = s.doms := rfl
@[simp] theorem writeP_phases (s : State) (a : Nat) (bs : List (Byte × Bool)) : (writeP s a bs).phases = s.phases := rfl
@[simp] theorem writeP_beats (s : State) (a : Nat) (bs : List (Byte × Bool)) : (writeP s a bs).beats = s.beats := rfl
@[simp] theorem writeP_injs (s : State) (a : Nat) (bs : List (Byte × Bool)) : (writeP s a bs).injs = s.injs := rfl
@[simp] theorem writeP_takes (s : State) (a : Nat) (bs : List (Byte × Bool)) : (writeP s a bs).takes = s.takes := rfl
@[simp] theorem writeP_nextId (s : State) (a : Nat) (bs : List (Byte × Bool)) : (writeP s a bs).nextId = s.nextId := rfl
@[simp] theorem writeP_incrs (s : State) (a : Nat) (bs : List (Byte × Bool)) : (writeP s a bs).incrs = s.incrs := rfl
@[simp] theorem writeP_raised (s : State) (a : Nat) (bs : List (Byte × Bool)) : (writeP s a bs).raised = s.raised := rfl
@[simp] theorem writeP_unacked (s : State) (a : Nat) (bs : List (Byte × Bool)) : (writeP s a bs).unacked = s.unacked := rfl
@[simp] theorem writeP_logSeq (s : State) (a : Nat) (bs : List (Byte × Bool)) : (writeP s a bs).logSeq = s.logSeq := rfl
@[simp] theorem writeP_xfers (s : State) (a : Nat) (bs : List (Byte × Bool)) : (writeP s a bs).xfers = s.xfers := rfl
@[simp] theorem writeP_packets (s : State) (a : Nat) (bs : List (Byte × Bool)) : (writeP s a bs).packets = s.packets := rfl
@[simp] theorem writeP_arrivals (s : State) (a : Nat) (bs : List (Byte × Bool)) : (writeP s a bs).arrivals = s.arrivals := rfl
@[simp] theorem writeP_fLines (s : State) (a : Nat) (bs : List (Byte × Bool)) : (writeP s a bs).fLines = s.fLines := rfl
@[simp] theorem writeP_tokSubs (s : State) (a : Nat) (bs : List (Byte × Bool)) : (writeP s a bs).tokSubs = s.tokSubs := rfl
@[simp] theorem writeP_hbmq (s : State) (a : Nat) (bs : List (Byte × Bool)) : (writeP s a bs).hbmq = s.hbmq := rfl
@[simp] theorem writeP_red (s : State) (a : Nat) (bs : List (Byte × Bool)) : (writeP s a bs).red = s.red := rfl
@[simp] theorem writeP_linkFails (s : State) (a : Nat) (bs : List (Byte × Bool)) : (writeP s a bs).linkFails = s.linkFails := rfl
@[simp] theorem writeP_redSent (s : State) (a : Nat) (bs : List (Byte × Bool)) : (writeP s a bs).redSent = s.redSent := rfl
@[simp] theorem writeP_lanes (s : State) (a : Nat) (bs : List (Byte × Bool)) : (writeP s a bs).lanes = s.lanes := rfl
@[simp] theorem writeP_depth (s : State) (a : Nat) (bs : List (Byte × Bool)) : (writeP s a bs).depth = s.depth := rfl
@[simp] theorem writeP_stashQ (s : State) (a : Nat) (bs : List (Byte × Bool)) : (writeP s a bs).stashQ = s.stashQ := rfl
@[simp] theorem writeP_stashOrd (s : State) (a : Nat) (bs : List (Byte × Bool)) : (writeP s a bs).stashOrd = s.stashOrd := rfl
@[simp] theorem writeP_streams (s : State) (a : Nat) (bs : List (Byte × Bool)) : (writeP s a bs).streams = s.streams := rfl
@[simp] theorem writeP_dmas (s : State) (a : Nat) (bs : List (Byte × Bool)) : (writeP s a bs).dmas = s.dmas := rfl
@[simp] theorem writeP_halts (s : State) (a : Nat) (bs : List (Byte × Bool)) : (writeP s a bs).halts = s.halts := rfl
@[simp] theorem writeP_haltSeq (s : State) (a : Nat) (bs : List (Byte × Bool)) : (writeP s a bs).haltSeq = s.haltSeq := rfl
@[simp] theorem writeP_haltWait (s : State) (a : Nat) (bs : List (Byte × Bool)) : (writeP s a bs).haltWait = s.haltWait := rfl
@[simp] theorem writeP_buckets (s : State) (a : Nat) (bs : List (Byte × Bool)) : (writeP s a bs).buckets = s.buckets := rfl
@[simp] theorem writeP_tlb (s : State) (a : Nat) (bs : List (Byte × Bool)) : (writeP s a bs).tlb = s.tlb := rfl
@[simp] theorem writeP_cache (s : State) (a : Nat) (bs : List (Byte × Bool)) : (writeP s a bs).cache = s.cache := rfl
@[simp] theorem writeP_scrubAt (s : State) (a : Nat) (bs : List (Byte × Bool)) : (writeP s a bs).scrubAt = s.scrubAt := rfl
@[simp] theorem writeP_thrAt (s : State) (a : Nat) (bs : List (Byte × Bool)) : (writeP s a bs).thrAt = s.thrAt := rfl
@[simp] theorem writeP_draws (s : State) (a : Nat) (bs : List (Byte × Bool)) : (writeP s a bs).draws = s.draws := rfl
@[simp] theorem writeP_clk (s : State) (a : Nat) (bs : List (Byte × Bool)) : (writeP s a bs).clk = s.clk := rfl
@[simp] theorem writeP_boot (s : State) (a : Nat) (bs : List (Byte × Bool)) : (writeP s a bs).boot = s.boot := rfl
@[simp] theorem writeP_sec (s : State) (a : Nat) (bs : List (Byte × Bool)) : (writeP s a bs).sec = s.sec := rfl
@[simp] theorem writeP_spp (s : State) (a : Nat) (bs : List (Byte × Bool)) : (writeP s a bs).spp = s.spp := rfl
@[simp] theorem writeP_gauge (s : State) (a : Nat) (bs : List (Byte × Bool)) : (writeP s a bs).gauge = s.gauge := rfl
@[simp] theorem writeP_ports (s : State) (a : Nat) (bs : List (Byte × Bool)) : (writeP s a bs).ports = s.ports := rfl
@[simp] theorem writeP_herd (s : State) (a : Nat) (bs : List (Byte × Bool)) : (writeP s a bs).herd = s.herd := rfl
@[simp] theorem writeP_snap (s : State) (a : Nat) (bs : List (Byte × Bool)) : (writeP s a bs).snap = s.snap := rfl
@[simp] theorem writeP_outbox (s : State) (a : Nat) (bs : List (Byte × Bool)) : (writeP s a bs).outbox = s.outbox := rfl
@[simp] theorem writeP_wstatus (s : State) (a : Nat) (bs : List (Byte × Bool)) : (writeP s a bs).wstatus = s.wstatus := rfl

@[simp] theorem sendIncr_pending (s : State) (src dom p t n : Nat) : (sendIncr s src dom p t n).pending = s.pending := rfl
@[simp] theorem sendIncr_ctc (s : State) (src dom p t n : Nat) : (sendIncr s src dom p t n).ctc = s.ctc := rfl
@[simp] theorem sendIncr_ns (s : State) (src dom p t n : Nat) : (sendIncr s src dom p t n).ns = s.ns := rfl
@[simp] theorem sendIncr_nsFrac (s : State) (src dom p t n : Nat) : (sendIncr s src dom p t n).nsFrac = s.nsFrac := rfl
@[simp] theorem sendIncr_ptp (s : State) (src dom p t n : Nat) : (sendIncr s src dom p t n).ptp = s.ptp := rfl
@[simp] theorem sendIncr_mem (s : State) (src dom p t n : Nat) : (sendIncr s src dom p t n).mem = s.mem := rfl
@[simp] theorem sendIncr_poison (s : State) (src dom p t n : Nat) : (sendIncr s src dom p t n).poison = s.poison := rfl
@[simp] theorem sendIncr_errs (s : State) (src dom p t n : Nat) : (sendIncr s src dom p t n).errs = s.errs := rfl
@[simp] theorem sendIncr_par (s : State) (src dom p t n : Nat) : (sendIncr s src dom p t n).par = s.par := rfl
@[simp] theorem sendIncr_nanPol (s : State) (src dom p t n : Nat) : (sendIncr s src dom p t n).nanPol = s.nanPol := rfl
@[simp] theorem sendIncr_nanPolAt (s : State) (src dom p t n : Nat) : (sendIncr s src dom p t n).nanPolAt = s.nanPolAt := rfl
@[simp] theorem sendIncr_floor (s : State) (src dom p t n : Nat) : (sendIncr s src dom p t n).floor = s.floor := rfl
@[simp] theorem sendIncr_floorAt (s : State) (src dom p t n : Nat) : (sendIncr s src dom p t n).floorAt = s.floorAt := rfl
@[simp] theorem sendIncr_mons (s : State) (src dom p t n : Nat) : (sendIncr s src dom p t n).mons = s.mons := rfl
@[simp] theorem sendIncr_elands (s : State) (src dom p t n : Nat) : (sendIncr s src dom p t n).elands = s.elands := rfl
@[simp] theorem sendIncr_engines (s : State) (src dom p t n : Nat) : (sendIncr s src dom p t n).engines = s.engines := rfl
@[simp] theorem sendIncr_tiles (s : State) (src dom p t n : Nat) : (sendIncr s src dom p t n).tiles = s.tiles := rfl
@[simp] theorem sendIncr_cells (s : State) (src dom p t n : Nat) : (sendIncr s src dom p t n).cells = s.cells := rfl
@[simp] theorem sendIncr_chams (s : State) (src dom p t n : Nat) : (sendIncr s src dom p t n).chams = s.chams := rfl
@[simp] theorem sendIncr_doms (s : State) (src dom p t n : Nat) : (sendIncr s src dom p t n).doms = s.doms := rfl
@[simp] theorem sendIncr_phases (s : State) (src dom p t n : Nat) : (sendIncr s src dom p t n).phases = s.phases := rfl
@[simp] theorem sendIncr_beats (s : State) (src dom p t n : Nat) : (sendIncr s src dom p t n).beats = s.beats := rfl
@[simp] theorem sendIncr_injs (s : State) (src dom p t n : Nat) : (sendIncr s src dom p t n).injs = s.injs := rfl
@[simp] theorem sendIncr_takes (s : State) (src dom p t n : Nat) : (sendIncr s src dom p t n).takes = s.takes := rfl
@[simp] theorem sendIncr_nextId (s : State) (src dom p t n : Nat) : (sendIncr s src dom p t n).nextId = s.nextId := rfl
@[simp] theorem sendIncr_raised (s : State) (src dom p t n : Nat) : (sendIncr s src dom p t n).raised = s.raised := rfl
@[simp] theorem sendIncr_unacked (s : State) (src dom p t n : Nat) : (sendIncr s src dom p t n).unacked = s.unacked := rfl
@[simp] theorem sendIncr_logSeq (s : State) (src dom p t n : Nat) : (sendIncr s src dom p t n).logSeq = s.logSeq := rfl
@[simp] theorem sendIncr_xfers (s : State) (src dom p t n : Nat) : (sendIncr s src dom p t n).xfers = s.xfers := rfl
@[simp] theorem sendIncr_packets (s : State) (src dom p t n : Nat) : (sendIncr s src dom p t n).packets = s.packets := rfl
@[simp] theorem sendIncr_arrivals (s : State) (src dom p t n : Nat) : (sendIncr s src dom p t n).arrivals = s.arrivals := rfl
@[simp] theorem sendIncr_fLines (s : State) (src dom p t n : Nat) : (sendIncr s src dom p t n).fLines = s.fLines := rfl
@[simp] theorem sendIncr_tokSubs (s : State) (src dom p t n : Nat) : (sendIncr s src dom p t n).tokSubs = s.tokSubs := rfl
@[simp] theorem sendIncr_hbmq (s : State) (src dom p t n : Nat) : (sendIncr s src dom p t n).hbmq = s.hbmq := rfl
@[simp] theorem sendIncr_red (s : State) (src dom p t n : Nat) : (sendIncr s src dom p t n).red = s.red := rfl
@[simp] theorem sendIncr_linkFails (s : State) (src dom p t n : Nat) : (sendIncr s src dom p t n).linkFails = s.linkFails := rfl
@[simp] theorem sendIncr_redSent (s : State) (src dom p t n : Nat) : (sendIncr s src dom p t n).redSent = s.redSent := rfl
@[simp] theorem sendIncr_lanes (s : State) (src dom p t n : Nat) : (sendIncr s src dom p t n).lanes = s.lanes := rfl
@[simp] theorem sendIncr_depth (s : State) (src dom p t n : Nat) : (sendIncr s src dom p t n).depth = s.depth := rfl
@[simp] theorem sendIncr_stashQ (s : State) (src dom p t n : Nat) : (sendIncr s src dom p t n).stashQ = s.stashQ := rfl
@[simp] theorem sendIncr_stashOrd (s : State) (src dom p t n : Nat) : (sendIncr s src dom p t n).stashOrd = s.stashOrd := rfl
@[simp] theorem sendIncr_streams (s : State) (src dom p t n : Nat) : (sendIncr s src dom p t n).streams = s.streams := rfl
@[simp] theorem sendIncr_dmas (s : State) (src dom p t n : Nat) : (sendIncr s src dom p t n).dmas = s.dmas := rfl
@[simp] theorem sendIncr_halts (s : State) (src dom p t n : Nat) : (sendIncr s src dom p t n).halts = s.halts := rfl
@[simp] theorem sendIncr_haltSeq (s : State) (src dom p t n : Nat) : (sendIncr s src dom p t n).haltSeq = s.haltSeq := rfl
@[simp] theorem sendIncr_haltWait (s : State) (src dom p t n : Nat) : (sendIncr s src dom p t n).haltWait = s.haltWait := rfl
@[simp] theorem sendIncr_buckets (s : State) (src dom p t n : Nat) : (sendIncr s src dom p t n).buckets = s.buckets := rfl
@[simp] theorem sendIncr_tlb (s : State) (src dom p t n : Nat) : (sendIncr s src dom p t n).tlb = s.tlb := rfl
@[simp] theorem sendIncr_cache (s : State) (src dom p t n : Nat) : (sendIncr s src dom p t n).cache = s.cache := rfl
@[simp] theorem sendIncr_scrubAt (s : State) (src dom p t n : Nat) : (sendIncr s src dom p t n).scrubAt = s.scrubAt := rfl
@[simp] theorem sendIncr_thrAt (s : State) (src dom p t n : Nat) : (sendIncr s src dom p t n).thrAt = s.thrAt := rfl
@[simp] theorem sendIncr_draws (s : State) (src dom p t n : Nat) : (sendIncr s src dom p t n).draws = s.draws := rfl
@[simp] theorem sendIncr_clk (s : State) (src dom p t n : Nat) : (sendIncr s src dom p t n).clk = s.clk := rfl
@[simp] theorem sendIncr_boot (s : State) (src dom p t n : Nat) : (sendIncr s src dom p t n).boot = s.boot := rfl
@[simp] theorem sendIncr_sec (s : State) (src dom p t n : Nat) : (sendIncr s src dom p t n).sec = s.sec := rfl
@[simp] theorem sendIncr_spp (s : State) (src dom p t n : Nat) : (sendIncr s src dom p t n).spp = s.spp := rfl
@[simp] theorem sendIncr_gauge (s : State) (src dom p t n : Nat) : (sendIncr s src dom p t n).gauge = s.gauge := rfl
@[simp] theorem sendIncr_ports (s : State) (src dom p t n : Nat) : (sendIncr s src dom p t n).ports = s.ports := rfl
@[simp] theorem sendIncr_herd (s : State) (src dom p t n : Nat) : (sendIncr s src dom p t n).herd = s.herd := rfl
@[simp] theorem sendIncr_snap (s : State) (src dom p t n : Nat) : (sendIncr s src dom p t n).snap = s.snap := rfl
@[simp] theorem sendIncr_outbox (s : State) (src dom p t n : Nat) : (sendIncr s src dom p t n).outbox = s.outbox := rfl
@[simp] theorem sendIncr_wstatus (s : State) (src dom p t n : Nat) : (sendIncr s src dom p t n).wstatus = s.wstatus := rfl

@[simp] theorem getE_setE_same (s : State) (k : Nat) (x : Eland) : getE (setE s k x) k = x := by simp [getE, setE]
theorem getE_setE_other (s : State) {k j : Nat} (x : Eland) (h : k ≠ j) : getE (setE s k x) j = getE s j := by simp [getE, setE, SMap.get_set, h]
@[simp] theorem getC_setC_same (s : State) (k : Nat) (x : Cham) : getC (setC s k x) k = x := by simp [getC, setC]
theorem getC_setC_other (s : State) {k j : Nat} (x : Cham) (h : k ≠ j) : getC (setC s k x) j = getC s j := by simp [getC, setC, SMap.get_set, h]
@[simp] theorem getD_setD_same (s : State) (k : Nat) (x : Domain) : getD (setD s k x) k = x := by simp [getD, setD]
theorem getD_setD_other (s : State) {k j : Nat} (x : Domain) (h : k ≠ j) : getD (setD s k x) j = getD s j := by simp [getD, setD, SMap.get_set, h]
@[simp] theorem getEng_setEng_same (s : State) (k : Nat) (x : Engine) : getEng (setEng s k x) k = x := by simp [getEng, setEng]
theorem getEng_setEng_other (s : State) {k j : Nat} (x : Engine) (h : k ≠ j) : getEng (setEng s k x) j = getEng s j := by simp [getEng, setEng, SMap.get_set, h]
@[simp] theorem getTile_setTile_same (s : State) (k : Nat) (x : TileSt) : getTile (setTile s k x) k = x := by simp [getTile, setTile]
theorem getTile_setTile_other (s : State) {k j : Nat} (x : TileSt) (h : k ≠ j) : getTile (setTile s k x) j = getTile s j := by simp [getTile, setTile, SMap.get_set, h]
@[simp] theorem getCell_setCell_same (s : State) (k : Nat) (x : Cell) : getCell (setCell s k x) k = x := by simp [getCell, setCell]
theorem getCell_setCell_other (s : State) {k j : Nat} (x : Cell) (h : k ≠ j) : getCell (setCell s k x) j = getCell s j := by simp [getCell, setCell, SMap.get_set, h]
@[simp] theorem getStream_setStream_same (s : State) (k : Nat) (x : Stream) : getStream (setStream s k x) k = x := by simp [getStream, setStream]
theorem getStream_setStream_other (s : State) {k j : Nat} (x : Stream) (h : k ≠ j) : getStream (setStream s k x) j = getStream s j := by simp [getStream, setStream, SMap.get_set, h]
@[simp] theorem getDma_setDma_same (s : State) (k : Nat) (x : Dma) : getDma (setDma s k x) k = x := by simp [getDma, setDma]
theorem getDma_setDma_other (s : State) {k j : Nat} (x : Dma) (h : k ≠ j) : getDma (setDma s k x) j = getDma s j := by simp [getDma, setDma, SMap.get_set, h]
@[simp] theorem getInj_setInj_same (s : State) (k : Nat) (x : (List InjRun)) : getInj (setInj s k x) k = x := by simp [getInj, setInj]
theorem getInj_setInj_other (s : State) {k j : Nat} (x : (List InjRun)) (h : k ≠ j) : getInj (setInj s k x) j = getInj s j := by simp [getInj, setInj, SMap.get_set, h]
@[simp] theorem getMon_setMon_same (s : State) (k : Nat) (x : Monitor) : getMon (setMon s k x) k = x := by simp [getMon, setMon]
theorem getMon_setMon_other (s : State) {k j : Nat} (x : Monitor) (h : k ≠ j) : getMon (setMon s k x) j = getMon s j := by simp [getMon, setMon, SMap.get_set, h]

@[simp] theorem getE_setP (s : State) (j : Nat) (k v : Nat) : getE (setP s k v) j = getE s j := rfl
@[simp] theorem getE_incP (s : State) (j : Nat) (k n : Nat) : getE (incP s k n) j = getE s j := rfl
@[simp] theorem getE_setC (s : State) (j : Nat) (c : Nat) (x : Cham) : getE (setC s c x) j = getE s j := rfl
@[simp] theorem getE_setD (s : State) (j : Nat) (d : Nat) (x : Domain) : getE (setD s d x) j = getE s j := rfl
@[simp] theorem getE_setEng (s : State) (j : Nat) (e : Nat) (x : Engine) : getE (setEng s e x) j = getE s j := rfl
@[simp] theorem getE_setTile (s : State) (j : Nat) (k : Nat) (x : TileSt) : getE (setTile s k x) j = getE s j := rfl
@[simp] theorem getE_setCell (s : State) (j : Nat) (k : Nat) (x : Cell) : getE (setCell s k x) j = getE s j := rfl
@[simp] theorem getE_setStream (s : State) (j : Nat) (k : Nat) (x : Stream) : getE (setStream s k x) j = getE s j := rfl
@[simp] theorem getE_setDma (s : State) (j : Nat) (k : Nat) (x : Dma) : getE (setDma s k x) j = getE s j := rfl
@[simp] theorem getE_setInj (s : State) (j : Nat) (k : Nat) (x : List InjRun) : getE (setInj s k x) j = getE s j := rfl
@[simp] theorem getE_setTake (s : State) (j : Nat) (d : Dir) (k : Nat) (x : TakeUnit) : getE (setTake s d k x) j = getE s j := rfl
@[simp] theorem getE_setMon (s : State) (j : Nat) (k : Nat) (x : Monitor) : getE (setMon s k x) j = getE s j := rfl
@[simp] theorem getE_writeP (s : State) (j : Nat) (a : Nat) (bs : List (Byte × Bool)) : getE (writeP s a bs) j = getE s j := rfl
@[simp] theorem getE_sendIncr (s : State) (j : Nat) (src dom p t n : Nat) : getE (sendIncr s src dom p t n) j = getE s j := rfl
@[simp] theorem getC_setP (s : State) (j : Nat) (k v : Nat) : getC (setP s k v) j = getC s j := rfl
@[simp] theorem getC_incP (s : State) (j : Nat) (k n : Nat) : getC (incP s k n) j = getC s j := rfl
@[simp] theorem getC_setE (s : State) (j : Nat) (c : Nat) (x : Eland) : getC (setE s c x) j = getC s j := rfl
@[simp] theorem getC_updN (s : State) (j : Nat) (c : Nat) (n : Needle) (f : NeedleSt → NeedleSt) : getC (updN s c n f) j = getC s j := rfl
@[simp] theorem getC_setD (s : State) (j : Nat) (d : Nat) (x : Domain) : getC (setD s d x) j = getC s j := rfl
@[simp] theorem getC_setEng (s : State) (j : Nat) (e : Nat) (x : Engine) : getC (setEng s e x) j = getC s j := rfl
@[simp] theorem getC_setTile (s : State) (j : Nat) (k : Nat) (x : TileSt) : getC (setTile s k x) j = getC s j := rfl
@[simp] theorem getC_setCell (s : State) (j : Nat) (k : Nat) (x : Cell) : getC (setCell s k x) j = getC s j := rfl
@[simp] theorem getC_setStream (s : State) (j : Nat) (k : Nat) (x : Stream) : getC (setStream s k x) j = getC s j := rfl
@[simp] theorem getC_setDma (s : State) (j : Nat) (k : Nat) (x : Dma) : getC (setDma s k x) j = getC s j := rfl
@[simp] theorem getC_setInj (s : State) (j : Nat) (k : Nat) (x : List InjRun) : getC (setInj s k x) j = getC s j := rfl
@[simp] theorem getC_setTake (s : State) (j : Nat) (d : Dir) (k : Nat) (x : TakeUnit) : getC (setTake s d k x) j = getC s j := rfl
@[simp] theorem getC_setMon (s : State) (j : Nat) (k : Nat) (x : Monitor) : getC (setMon s k x) j = getC s j := rfl
@[simp] theorem getC_writeP (s : State) (j : Nat) (a : Nat) (bs : List (Byte × Bool)) : getC (writeP s a bs) j = getC s j := rfl
@[simp] theorem getC_sendIncr (s : State) (j : Nat) (src dom p t n : Nat) : getC (sendIncr s src dom p t n) j = getC s j := rfl
@[simp] theorem getD_setP (s : State) (j : Nat) (k v : Nat) : getD (setP s k v) j = getD s j := rfl
@[simp] theorem getD_incP (s : State) (j : Nat) (k n : Nat) : getD (incP s k n) j = getD s j := rfl
@[simp] theorem getD_setE (s : State) (j : Nat) (c : Nat) (x : Eland) : getD (setE s c x) j = getD s j := rfl
@[simp] theorem getD_updN (s : State) (j : Nat) (c : Nat) (n : Needle) (f : NeedleSt → NeedleSt) : getD (updN s c n f) j = getD s j := rfl
@[simp] theorem getD_setC (s : State) (j : Nat) (c : Nat) (x : Cham) : getD (setC s c x) j = getD s j := rfl
@[simp] theorem getD_setEng (s : State) (j : Nat) (e : Nat) (x : Engine) : getD (setEng s e x) j = getD s j := rfl
@[simp] theorem getD_setTile (s : State) (j : Nat) (k : Nat) (x : TileSt) : getD (setTile s k x) j = getD s j := rfl
@[simp] theorem getD_setCell (s : State) (j : Nat) (k : Nat) (x : Cell) : getD (setCell s k x) j = getD s j := rfl
@[simp] theorem getD_setStream (s : State) (j : Nat) (k : Nat) (x : Stream) : getD (setStream s k x) j = getD s j := rfl
@[simp] theorem getD_setDma (s : State) (j : Nat) (k : Nat) (x : Dma) : getD (setDma s k x) j = getD s j := rfl
@[simp] theorem getD_setInj (s : State) (j : Nat) (k : Nat) (x : List InjRun) : getD (setInj s k x) j = getD s j := rfl
@[simp] theorem getD_setTake (s : State) (j : Nat) (d : Dir) (k : Nat) (x : TakeUnit) : getD (setTake s d k x) j = getD s j := rfl
@[simp] theorem getD_setMon (s : State) (j : Nat) (k : Nat) (x : Monitor) : getD (setMon s k x) j = getD s j := rfl
@[simp] theorem getD_writeP (s : State) (j : Nat) (a : Nat) (bs : List (Byte × Bool)) : getD (writeP s a bs) j = getD s j := rfl
@[simp] theorem getD_sendIncr (s : State) (j : Nat) (src dom p t n : Nat) : getD (sendIncr s src dom p t n) j = getD s j := rfl
@[simp] theorem getEng_setP (s : State) (j : Nat) (k v : Nat) : getEng (setP s k v) j = getEng s j := rfl
@[simp] theorem getEng_incP (s : State) (j : Nat) (k n : Nat) : getEng (incP s k n) j = getEng s j := rfl
@[simp] theorem getEng_setE (s : State) (j : Nat) (c : Nat) (x : Eland) : getEng (setE s c x) j = getEng s j := rfl
@[simp] theorem getEng_updN (s : State) (j : Nat) (c : Nat) (n : Needle) (f : NeedleSt → NeedleSt) : getEng (updN s c n f) j = getEng s j := rfl
@[simp] theorem getEng_setC (s : State) (j : Nat) (c : Nat) (x : Cham) : getEng (setC s c x) j = getEng s j := rfl
@[simp] theorem getEng_setD (s : State) (j : Nat) (d : Nat) (x : Domain) : getEng (setD s d x) j = getEng s j := rfl
@[simp] theorem getEng_setTile (s : State) (j : Nat) (k : Nat) (x : TileSt) : getEng (setTile s k x) j = getEng s j := rfl
@[simp] theorem getEng_setCell (s : State) (j : Nat) (k : Nat) (x : Cell) : getEng (setCell s k x) j = getEng s j := rfl
@[simp] theorem getEng_setStream (s : State) (j : Nat) (k : Nat) (x : Stream) : getEng (setStream s k x) j = getEng s j := rfl
@[simp] theorem getEng_setDma (s : State) (j : Nat) (k : Nat) (x : Dma) : getEng (setDma s k x) j = getEng s j := rfl
@[simp] theorem getEng_setInj (s : State) (j : Nat) (k : Nat) (x : List InjRun) : getEng (setInj s k x) j = getEng s j := rfl
@[simp] theorem getEng_setTake (s : State) (j : Nat) (d : Dir) (k : Nat) (x : TakeUnit) : getEng (setTake s d k x) j = getEng s j := rfl
@[simp] theorem getEng_setMon (s : State) (j : Nat) (k : Nat) (x : Monitor) : getEng (setMon s k x) j = getEng s j := rfl
@[simp] theorem getEng_writeP (s : State) (j : Nat) (a : Nat) (bs : List (Byte × Bool)) : getEng (writeP s a bs) j = getEng s j := rfl
@[simp] theorem getEng_sendIncr (s : State) (j : Nat) (src dom p t n : Nat) : getEng (sendIncr s src dom p t n) j = getEng s j := rfl
@[simp] theorem getTile_setP (s : State) (j : Nat) (k v : Nat) : getTile (setP s k v) j = getTile s j := rfl
@[simp] theorem getTile_incP (s : State) (j : Nat) (k n : Nat) : getTile (incP s k n) j = getTile s j := rfl
@[simp] theorem getTile_setE (s : State) (j : Nat) (c : Nat) (x : Eland) : getTile (setE s c x) j = getTile s j := rfl
@[simp] theorem getTile_updN (s : State) (j : Nat) (c : Nat) (n : Needle) (f : NeedleSt → NeedleSt) : getTile (updN s c n f) j = getTile s j := rfl
@[simp] theorem getTile_setC (s : State) (j : Nat) (c : Nat) (x : Cham) : getTile (setC s c x) j = getTile s j := rfl
@[simp] theorem getTile_setD (s : State) (j : Nat) (d : Nat) (x : Domain) : getTile (setD s d x) j = getTile s j := rfl
@[simp] theorem getTile_setEng (s : State) (j : Nat) (e : Nat) (x : Engine) : getTile (setEng s e x) j = getTile s j := rfl
@[simp] theorem getTile_setCell (s : State) (j : Nat) (k : Nat) (x : Cell) : getTile (setCell s k x) j = getTile s j := rfl
@[simp] theorem getTile_setStream (s : State) (j : Nat) (k : Nat) (x : Stream) : getTile (setStream s k x) j = getTile s j := rfl
@[simp] theorem getTile_setDma (s : State) (j : Nat) (k : Nat) (x : Dma) : getTile (setDma s k x) j = getTile s j := rfl
@[simp] theorem getTile_setInj (s : State) (j : Nat) (k : Nat) (x : List InjRun) : getTile (setInj s k x) j = getTile s j := rfl
@[simp] theorem getTile_setTake (s : State) (j : Nat) (d : Dir) (k : Nat) (x : TakeUnit) : getTile (setTake s d k x) j = getTile s j := rfl
@[simp] theorem getTile_setMon (s : State) (j : Nat) (k : Nat) (x : Monitor) : getTile (setMon s k x) j = getTile s j := rfl
@[simp] theorem getTile_writeP (s : State) (j : Nat) (a : Nat) (bs : List (Byte × Bool)) : getTile (writeP s a bs) j = getTile s j := rfl
@[simp] theorem getTile_sendIncr (s : State) (j : Nat) (src dom p t n : Nat) : getTile (sendIncr s src dom p t n) j = getTile s j := rfl
@[simp] theorem getCell_setP (s : State) (j : Nat) (k v : Nat) : getCell (setP s k v) j = getCell s j := rfl
@[simp] theorem getCell_incP (s : State) (j : Nat) (k n : Nat) : getCell (incP s k n) j = getCell s j := rfl
@[simp] theorem getCell_setE (s : State) (j : Nat) (c : Nat) (x : Eland) : getCell (setE s c x) j = getCell s j := rfl
@[simp] theorem getCell_updN (s : State) (j : Nat) (c : Nat) (n : Needle) (f : NeedleSt → NeedleSt) : getCell (updN s c n f) j = getCell s j := rfl
@[simp] theorem getCell_setC (s : State) (j : Nat) (c : Nat) (x : Cham) : getCell (setC s c x) j = getCell s j := rfl
@[simp] theorem getCell_setD (s : State) (j : Nat) (d : Nat) (x : Domain) : getCell (setD s d x) j = getCell s j := rfl
@[simp] theorem getCell_setEng (s : State) (j : Nat) (e : Nat) (x : Engine) : getCell (setEng s e x) j = getCell s j := rfl
@[simp] theorem getCell_setTile (s : State) (j : Nat) (k : Nat) (x : TileSt) : getCell (setTile s k x) j = getCell s j := rfl
@[simp] theorem getCell_setStream (s : State) (j : Nat) (k : Nat) (x : Stream) : getCell (setStream s k x) j = getCell s j := rfl
@[simp] theorem getCell_setDma (s : State) (j : Nat) (k : Nat) (x : Dma) : getCell (setDma s k x) j = getCell s j := rfl
@[simp] theorem getCell_setInj (s : State) (j : Nat) (k : Nat) (x : List InjRun) : getCell (setInj s k x) j = getCell s j := rfl
@[simp] theorem getCell_setTake (s : State) (j : Nat) (d : Dir) (k : Nat) (x : TakeUnit) : getCell (setTake s d k x) j = getCell s j := rfl
@[simp] theorem getCell_setMon (s : State) (j : Nat) (k : Nat) (x : Monitor) : getCell (setMon s k x) j = getCell s j := rfl
@[simp] theorem getCell_writeP (s : State) (j : Nat) (a : Nat) (bs : List (Byte × Bool)) : getCell (writeP s a bs) j = getCell s j := rfl
@[simp] theorem getCell_sendIncr (s : State) (j : Nat) (src dom p t n : Nat) : getCell (sendIncr s src dom p t n) j = getCell s j := rfl
@[simp] theorem getStream_setP (s : State) (j : Nat) (k v : Nat) : getStream (setP s k v) j = getStream s j := rfl
@[simp] theorem getStream_incP (s : State) (j : Nat) (k n : Nat) : getStream (incP s k n) j = getStream s j := rfl
@[simp] theorem getStream_setE (s : State) (j : Nat) (c : Nat) (x : Eland) : getStream (setE s c x) j = getStream s j := rfl
@[simp] theorem getStream_updN (s : State) (j : Nat) (c : Nat) (n : Needle) (f : NeedleSt → NeedleSt) : getStream (updN s c n f) j = getStream s j := rfl
@[simp] theorem getStream_setC (s : State) (j : Nat) (c : Nat) (x : Cham) : getStream (setC s c x) j = getStream s j := rfl
@[simp] theorem getStream_setD (s : State) (j : Nat) (d : Nat) (x : Domain) : getStream (setD s d x) j = getStream s j := rfl
@[simp] theorem getStream_setEng (s : State) (j : Nat) (e : Nat) (x : Engine) : getStream (setEng s e x) j = getStream s j := rfl
@[simp] theorem getStream_setTile (s : State) (j : Nat) (k : Nat) (x : TileSt) : getStream (setTile s k x) j = getStream s j := rfl
@[simp] theorem getStream_setCell (s : State) (j : Nat) (k : Nat) (x : Cell) : getStream (setCell s k x) j = getStream s j := rfl
@[simp] theorem getStream_setDma (s : State) (j : Nat) (k : Nat) (x : Dma) : getStream (setDma s k x) j = getStream s j := rfl
@[simp] theorem getStream_setInj (s : State) (j : Nat) (k : Nat) (x : List InjRun) : getStream (setInj s k x) j = getStream s j := rfl
@[simp] theorem getStream_setTake (s : State) (j : Nat) (d : Dir) (k : Nat) (x : TakeUnit) : getStream (setTake s d k x) j = getStream s j := rfl
@[simp] theorem getStream_setMon (s : State) (j : Nat) (k : Nat) (x : Monitor) : getStream (setMon s k x) j = getStream s j := rfl
@[simp] theorem getStream_writeP (s : State) (j : Nat) (a : Nat) (bs : List (Byte × Bool)) : getStream (writeP s a bs) j = getStream s j := rfl
@[simp] theorem getStream_sendIncr (s : State) (j : Nat) (src dom p t n : Nat) : getStream (sendIncr s src dom p t n) j = getStream s j := rfl
@[simp] theorem getDma_setP (s : State) (j : Nat) (k v : Nat) : getDma (setP s k v) j = getDma s j := rfl
@[simp] theorem getDma_incP (s : State) (j : Nat) (k n : Nat) : getDma (incP s k n) j = getDma s j := rfl
@[simp] theorem getDma_setE (s : State) (j : Nat) (c : Nat) (x : Eland) : getDma (setE s c x) j = getDma s j := rfl
@[simp] theorem getDma_updN (s : State) (j : Nat) (c : Nat) (n : Needle) (f : NeedleSt → NeedleSt) : getDma (updN s c n f) j = getDma s j := rfl
@[simp] theorem getDma_setC (s : State) (j : Nat) (c : Nat) (x : Cham) : getDma (setC s c x) j = getDma s j := rfl
@[simp] theorem getDma_setD (s : State) (j : Nat) (d : Nat) (x : Domain) : getDma (setD s d x) j = getDma s j := rfl
@[simp] theorem getDma_setEng (s : State) (j : Nat) (e : Nat) (x : Engine) : getDma (setEng s e x) j = getDma s j := rfl
@[simp] theorem getDma_setTile (s : State) (j : Nat) (k : Nat) (x : TileSt) : getDma (setTile s k x) j = getDma s j := rfl
@[simp] theorem getDma_setCell (s : State) (j : Nat) (k : Nat) (x : Cell) : getDma (setCell s k x) j = getDma s j := rfl
@[simp] theorem getDma_setStream (s : State) (j : Nat) (k : Nat) (x : Stream) : getDma (setStream s k x) j = getDma s j := rfl
@[simp] theorem getDma_setInj (s : State) (j : Nat) (k : Nat) (x : List InjRun) : getDma (setInj s k x) j = getDma s j := rfl
@[simp] theorem getDma_setTake (s : State) (j : Nat) (d : Dir) (k : Nat) (x : TakeUnit) : getDma (setTake s d k x) j = getDma s j := rfl
@[simp] theorem getDma_setMon (s : State) (j : Nat) (k : Nat) (x : Monitor) : getDma (setMon s k x) j = getDma s j := rfl
@[simp] theorem getDma_writeP (s : State) (j : Nat) (a : Nat) (bs : List (Byte × Bool)) : getDma (writeP s a bs) j = getDma s j := rfl
@[simp] theorem getDma_sendIncr (s : State) (j : Nat) (src dom p t n : Nat) : getDma (sendIncr s src dom p t n) j = getDma s j := rfl
@[simp] theorem getInj_setP (s : State) (j : Nat) (k v : Nat) : getInj (setP s k v) j = getInj s j := rfl
@[simp] theorem getInj_incP (s : State) (j : Nat) (k n : Nat) : getInj (incP s k n) j = getInj s j := rfl
@[simp] theorem getInj_setE (s : State) (j : Nat) (c : Nat) (x : Eland) : getInj (setE s c x) j = getInj s j := rfl
@[simp] theorem getInj_updN (s : State) (j : Nat) (c : Nat) (n : Needle) (f : NeedleSt → NeedleSt) : getInj (updN s c n f) j = getInj s j := rfl
@[simp] theorem getInj_setC (s : State) (j : Nat) (c : Nat) (x : Cham) : getInj (setC s c x) j = getInj s j := rfl
@[simp] theorem getInj_setD (s : State) (j : Nat) (d : Nat) (x : Domain) : getInj (setD s d x) j = getInj s j := rfl
@[simp] theorem getInj_setEng (s : State) (j : Nat) (e : Nat) (x : Engine) : getInj (setEng s e x) j = getInj s j := rfl
@[simp] theorem getInj_setTile (s : State) (j : Nat) (k : Nat) (x : TileSt) : getInj (setTile s k x) j = getInj s j := rfl
@[simp] theorem getInj_setCell (s : State) (j : Nat) (k : Nat) (x : Cell) : getInj (setCell s k x) j = getInj s j := rfl
@[simp] theorem getInj_setStream (s : State) (j : Nat) (k : Nat) (x : Stream) : getInj (setStream s k x) j = getInj s j := rfl
@[simp] theorem getInj_setDma (s : State) (j : Nat) (k : Nat) (x : Dma) : getInj (setDma s k x) j = getInj s j := rfl
@[simp] theorem getInj_setTake (s : State) (j : Nat) (d : Dir) (k : Nat) (x : TakeUnit) : getInj (setTake s d k x) j = getInj s j := rfl
@[simp] theorem getInj_setMon (s : State) (j : Nat) (k : Nat) (x : Monitor) : getInj (setMon s k x) j = getInj s j := rfl
@[simp] theorem getInj_writeP (s : State) (j : Nat) (a : Nat) (bs : List (Byte × Bool)) : getInj (writeP s a bs) j = getInj s j := rfl
@[simp] theorem getInj_sendIncr (s : State) (j : Nat) (src dom p t n : Nat) : getInj (sendIncr s src dom p t n) j = getInj s j := rfl
@[simp] theorem getMon_setP (s : State) (j : Nat) (k v : Nat) : getMon (setP s k v) j = getMon s j := rfl
@[simp] theorem getMon_incP (s : State) (j : Nat) (k n : Nat) : getMon (incP s k n) j = getMon s j := rfl
@[simp] theorem getMon_setE (s : State) (j : Nat) (c : Nat) (x : Eland) : getMon (setE s c x) j = getMon s j := rfl
@[simp] theorem getMon_updN (s : State) (j : Nat) (c : Nat) (n : Needle) (f : NeedleSt → NeedleSt) : getMon (updN s c n f) j = getMon s j := rfl
@[simp] theorem getMon_setC (s : State) (j : Nat) (c : Nat) (x : Cham) : getMon (setC s c x) j = getMon s j := rfl
@[simp] theorem getMon_setD (s : State) (j : Nat) (d : Nat) (x : Domain) : getMon (setD s d x) j = getMon s j := rfl
@[simp] theorem getMon_setEng (s : State) (j : Nat) (e : Nat) (x : Engine) : getMon (setEng s e x) j = getMon s j := rfl
@[simp] theorem getMon_setTile (s : State) (j : Nat) (k : Nat) (x : TileSt) : getMon (setTile s k x) j = getMon s j := rfl
@[simp] theorem getMon_setCell (s : State) (j : Nat) (k : Nat) (x : Cell) : getMon (setCell s k x) j = getMon s j := rfl
@[simp] theorem getMon_setStream (s : State) (j : Nat) (k : Nat) (x : Stream) : getMon (setStream s k x) j = getMon s j := rfl
@[simp] theorem getMon_setDma (s : State) (j : Nat) (k : Nat) (x : Dma) : getMon (setDma s k x) j = getMon s j := rfl
@[simp] theorem getMon_setInj (s : State) (j : Nat) (k : Nat) (x : List InjRun) : getMon (setInj s k x) j = getMon s j := rfl
@[simp] theorem getMon_setTake (s : State) (j : Nat) (d : Dir) (k : Nat) (x : TakeUnit) : getMon (setTake s d k x) j = getMon s j := rfl
@[simp] theorem getMon_writeP (s : State) (j : Nat) (a : Nat) (bs : List (Byte × Bool)) : getMon (writeP s a bs) j = getMon s j := rfl
@[simp] theorem getMon_sendIncr (s : State) (j : Nat) (src dom p t n : Nat) : getMon (sendIncr s src dom p t n) j = getMon s j := rfl
@[simp] theorem getP_setE (s : State) (j : Nat) (c : Nat) (x : Eland) : getP (setE s c x) j = getP s j := rfl
@[simp] theorem getP_updN (s : State) (j : Nat) (c : Nat) (n : Needle) (f : NeedleSt → NeedleSt) : getP (updN s c n f) j = getP s j := rfl
@[simp] theorem getP_setC (s : State) (j : Nat) (c : Nat) (x : Cham) : getP (setC s c x) j = getP s j := rfl
@[simp] theorem getP_setD (s : State) (j : Nat) (d : Nat) (x : Domain) : getP (setD s d x) j = getP s j := rfl
@[simp] theorem getP_setEng (s : State) (j : Nat) (e : Nat) (x : Engine) : getP (setEng s e x) j = getP s j := rfl
@[simp] theorem getP_setTile (s : State) (j : Nat) (k : Nat) (x : TileSt) : getP (setTile s k x) j = getP s j := rfl
@[simp] theorem getP_setCell (s : State) (j : Nat) (k : Nat) (x : Cell) : getP (setCell s k x) j = getP s j := rfl
@[simp] theorem getP_setStream (s : State) (j : Nat) (k : Nat) (x : Stream) : getP (setStream s k x) j = getP s j := rfl
@[simp] theorem getP_setDma (s : State) (j : Nat) (k : Nat) (x : Dma) : getP (setDma s k x) j = getP s j := rfl
@[simp] theorem getP_setInj (s : State) (j : Nat) (k : Nat) (x : List InjRun) : getP (setInj s k x) j = getP s j := rfl
@[simp] theorem getP_setTake (s : State) (j : Nat) (d : Dir) (k : Nat) (x : TakeUnit) : getP (setTake s d k x) j = getP s j := rfl
@[simp] theorem getP_setMon (s : State) (j : Nat) (k : Nat) (x : Monitor) : getP (setMon s k x) j = getP s j := rfl
@[simp] theorem getP_writeP (s : State) (j : Nat) (a : Nat) (bs : List (Byte × Bool)) : getP (writeP s a bs) j = getP s j := rfl
@[simp] theorem getP_sendIncr (s : State) (j : Nat) (src dom p t n : Nat) : getP (sendIncr s src dom p t n) j = getP s j := rfl

@[simp] theorem getP_setP_same (s : State) (k v : Nat) : getP (setP s k v) k = v := by simp [getP, setP]

theorem get_set_default {V : Type} [DecidableEq V] (d d' v : V) (m : SMap V) {k j : Nat} (h : k ≠ j) :
    SMap.get d' (SMap.set d m k v) j = SMap.get d' m j := by
  unfold SMap.set
  split
  · exact SMap.get_del_other _ _ _ _ h
  · rw [SMap.get_ins, if_neg h]

theorem getP_setP_other (s : State) {k j : Nat} (v : Nat) (h : k ≠ j) : getP (setP s k v) j = getP s j :=
  get_set_default _ _ _ _ h

/-- A counter adds and stops at its largest value. -/
@[simp] theorem getP_incP_same (s : State) (k n : Nat) : getP (incP s k n) k = min (getP s k + n) (counterMax k) := by simp [incP]

theorem getP_incP_other (s : State) {k j : Nat} (n : Nat) (h : k ≠ j) : getP (incP s k n) j = getP s j := getP_setP_other s _ h

@[simp] theorem getTake_setTake_same (s : State) (d : Dir) (k : Nat) (x : TakeUnit) : getTake (setTake s d k x) d k = x := by
  simp [getTake, setTake]

@[simp] theorem getN_setN_same (e : Eland) (n : Needle) (x : NeedleSt) : getN (setN e n x) n = x := by cases n <;> rfl
@[simp] theorem getN_setN_other (e : Eland) (n : Needle) (x : NeedleSt) : getN (setN e n x) n.other = getN e n.other := by
  cases n <;> rfl

@[simp] theorem getE_updN_same (s : State) (c : Nat) (n : Needle) (f : NeedleSt → NeedleSt) :
    getE (updN s c n f) c = setN (getE s c) n (f (getN (getE s c) n)) := by simp [updN]
theorem getE_updN_other (s : State) {c j : Nat} (n : Needle) (f : NeedleSt → NeedleSt) (h : c ≠ j) :
    getE (updN s c n f) j = getE s j := by simp [updN, getE_setE_other s _ h]

end Sys2Proof.Machine
end

