-- ==== Sys2Proof/Laws/Banks.lean ====
section
/-!
SUPPORT. What the updates of collectives, ports, flows, registry entries and Stash depths leave alone, field by field.
-/
namespace Sys2Proof.Machine

@[simp] theorem setColl_pending (s : State) (k : Nat) (x : Coll) : (setColl s k x).pending = s.pending := rfl
@[simp] theorem setColl_ctc (s : State) (k : Nat) (x : Coll) : (setColl s k x).ctc = s.ctc := rfl
@[simp] theorem setColl_ns (s : State) (k : Nat) (x : Coll) : (setColl s k x).ns = s.ns := rfl
@[simp] theorem setColl_nsFrac (s : State) (k : Nat) (x : Coll) : (setColl s k x).nsFrac = s.nsFrac := rfl
@[simp] theorem setColl_ptp (s : State) (k : Nat) (x : Coll) : (setColl s k x).ptp = s.ptp := rfl
@[simp] theorem setColl_mem (s : State) (k : Nat) (x : Coll) : (setColl s k x).mem = s.mem := rfl
@[simp] theorem setColl_poison (s : State) (k : Nat) (x : Coll) : (setColl s k x).poison = s.poison := rfl
@[simp] theorem setColl_errs (s : State) (k : Nat) (x : Coll) : (setColl s k x).errs = s.errs := rfl
@[simp] theorem setColl_par (s : State) (k : Nat) (x : Coll) : (setColl s k x).par = s.par := rfl
@[simp] theorem setColl_nanPol (s : State) (k : Nat) (x : Coll) : (setColl s k x).nanPol = s.nanPol := rfl
@[simp] theorem setColl_nanPolAt (s : State) (k : Nat) (x : Coll) : (setColl s k x).nanPolAt = s.nanPolAt := rfl
@[simp] theorem setColl_floor (s : State) (k : Nat) (x : Coll) : (setColl s k x).floor = s.floor := rfl
@[simp] theorem setColl_floorAt (s : State) (k : Nat) (x : Coll) : (setColl s k x).floorAt = s.floorAt := rfl
@[simp] theorem setColl_mons (s : State) (k : Nat) (x : Coll) : (setColl s k x).mons = s.mons := rfl
@[simp] theorem setColl_elands (s : State) (k : Nat) (x : Coll) : (setColl s k x).elands = s.elands := rfl
@[simp] theorem setColl_engines (s : State) (k : Nat) (x : Coll) : (setColl s k x).engines = s.engines := rfl
@[simp] theorem setColl_tiles (s : State) (k : Nat) (x : Coll) : (setColl s k x).tiles = s.tiles := rfl
@[simp] theorem setColl_cells (s : State) (k : Nat) (x : Coll) : (setColl s k x).cells = s.cells := rfl
@[simp] theorem setColl_chams (s : State) (k : Nat) (x : Coll) : (setColl s k x).chams = s.chams := rfl
@[simp] theorem setColl_doms (s : State) (k : Nat) (x : Coll) : (setColl s k x).doms = s.doms := rfl
@[simp] theorem setColl_phases (s : State) (k : Nat) (x : Coll) : (setColl s k x).phases = s.phases := rfl
@[simp] theorem setColl_beats (s : State) (k : Nat) (x : Coll) : (setColl s k x).beats = s.beats := rfl
@[simp] theorem setColl_injs (s : State) (k : Nat) (x : Coll) : (setColl s k x).injs = s.injs := rfl
@[simp] theorem setColl_takes (s : State) (k : Nat) (x : Coll) : (setColl s k x).takes = s.takes := rfl
@[simp] theorem setColl_nextId (s : State) (k : Nat) (x : Coll) : (setColl s k x).nextId = s.nextId := rfl
@[simp] theorem setColl_incrs (s : State) (k : Nat) (x : Coll) : (setColl s k x).incrs = s.incrs := rfl
@[simp] theorem setColl_raised (s : State) (k : Nat) (x : Coll) : (setColl s k x).raised = s.raised := rfl
@[simp] theorem setColl_unacked (s : State) (k : Nat) (x : Coll) : (setColl s k x).unacked = s.unacked := rfl
@[simp] theorem setColl_logSeq (s : State) (k : Nat) (x : Coll) : (setColl s k x).logSeq = s.logSeq := rfl
@[simp] theorem setColl_xfers (s : State) (k : Nat) (x : Coll) : (setColl s k x).xfers = s.xfers := rfl
@[simp] theorem setColl_packets (s : State) (k : Nat) (x : Coll) : (setColl s k x).packets = s.packets := rfl
@[simp] theorem setColl_arrivals (s : State) (k : Nat) (x : Coll) : (setColl s k x).arrivals = s.arrivals := rfl
@[simp] theorem setColl_fLines (s : State) (k : Nat) (x : Coll) : (setColl s k x).fLines = s.fLines := rfl
@[simp] theorem setColl_tokSubs (s : State) (k : Nat) (x : Coll) : (setColl s k x).tokSubs = s.tokSubs := rfl
@[simp] theorem setColl_hbmq (s : State) (k : Nat) (x : Coll) : (setColl s k x).hbmq = s.hbmq := rfl
@[simp] theorem setColl_red (s : State) (k : Nat) (x : Coll) : (setColl s k x).red = s.red := rfl
@[simp] theorem setColl_linkFails (s : State) (k : Nat) (x : Coll) : (setColl s k x).linkFails = s.linkFails := rfl
@[simp] theorem setColl_redSent (s : State) (k : Nat) (x : Coll) : (setColl s k x).redSent = s.redSent := rfl
@[simp] theorem setColl_lanes (s : State) (k : Nat) (x : Coll) : (setColl s k x).lanes = s.lanes := rfl
@[simp] theorem setColl_depth (s : State) (k : Nat) (x : Coll) : (setColl s k x).depth = s.depth := rfl
@[simp] theorem setColl_stashQ (s : State) (k : Nat) (x : Coll) : (setColl s k x).stashQ = s.stashQ := rfl
@[simp] theorem setColl_stashOrd (s : State) (k : Nat) (x : Coll) : (setColl s k x).stashOrd = s.stashOrd := rfl
@[simp] theorem setColl_streams (s : State) (k : Nat) (x : Coll) : (setColl s k x).streams = s.streams := rfl
@[simp] theorem setColl_dmas (s : State) (k : Nat) (x : Coll) : (setColl s k x).dmas = s.dmas := rfl
@[simp] theorem setColl_halts (s : State) (k : Nat) (x : Coll) : (setColl s k x).halts = s.halts := rfl
@[simp] theorem setColl_haltSeq (s : State) (k : Nat) (x : Coll) : (setColl s k x).haltSeq = s.haltSeq := rfl
@[simp] theorem setColl_haltWait (s : State) (k : Nat) (x : Coll) : (setColl s k x).haltWait = s.haltWait := rfl
@[simp] theorem setColl_buckets (s : State) (k : Nat) (x : Coll) : (setColl s k x).buckets = s.buckets := rfl
@[simp] theorem setColl_tlb (s : State) (k : Nat) (x : Coll) : (setColl s k x).tlb = s.tlb := rfl
@[simp] theorem setColl_cache (s : State) (k : Nat) (x : Coll) : (setColl s k x).cache = s.cache := rfl
@[simp] theorem setColl_scrubAt (s : State) (k : Nat) (x : Coll) : (setColl s k x).scrubAt = s.scrubAt := rfl
@[simp] theorem setColl_thrAt (s : State) (k : Nat) (x : Coll) : (setColl s k x).thrAt = s.thrAt := rfl
@[simp] theorem setColl_draws (s : State) (k : Nat) (x : Coll) : (setColl s k x).draws = s.draws := rfl
@[simp] theorem setColl_clk (s : State) (k : Nat) (x : Coll) : (setColl s k x).clk = s.clk := rfl
@[simp] theorem setColl_boot (s : State) (k : Nat) (x : Coll) : (setColl s k x).boot = s.boot := rfl
@[simp] theorem setColl_sec (s : State) (k : Nat) (x : Coll) : (setColl s k x).sec = s.sec := rfl
@[simp] theorem setColl_spp (s : State) (k : Nat) (x : Coll) : (setColl s k x).spp = s.spp := rfl
@[simp] theorem setColl_gauge (s : State) (k : Nat) (x : Coll) : (setColl s k x).gauge = s.gauge := rfl
@[simp] theorem setColl_ports (s : State) (k : Nat) (x : Coll) : (setColl s k x).ports = s.ports := rfl
@[simp] theorem setColl_snap (s : State) (k : Nat) (x : Coll) : (setColl s k x).snap = s.snap := rfl
@[simp] theorem setColl_outbox (s : State) (k : Nat) (x : Coll) : (setColl s k x).outbox = s.outbox := rfl
@[simp] theorem setColl_wstatus (s : State) (k : Nat) (x : Coll) : (setColl s k x).wstatus = s.wstatus := rfl

@[simp] theorem setPort_pending (s : State) (k : Nat) (x : PortSt) : (setPort s k x).pending = s.pending := rfl
@[simp] theorem setPort_ctc (s : State) (k : Nat) (x : PortSt) : (setPort s k x).ctc = s.ctc := rfl
@[simp] theorem setPort_ns (s : State) (k : Nat) (x : PortSt) : (setPort s k x).ns = s.ns := rfl
@[simp] theorem setPort_nsFrac (s : State) (k : Nat) (x : PortSt) : (setPort s k x).nsFrac = s.nsFrac := rfl
@[simp] theorem setPort_ptp (s : State) (k : Nat) (x : PortSt) : (setPort s k x).ptp = s.ptp := rfl
@[simp] theorem setPort_mem (s : State) (k : Nat) (x : PortSt) : (setPort s k x).mem = s.mem := rfl
@[simp] theorem setPort_poison (s : State) (k : Nat) (x : PortSt) : (setPort s k x).poison = s.poison := rfl
@[simp] theorem setPort_errs (s : State) (k : Nat) (x : PortSt) : (setPort s k x).errs = s.errs := rfl
@[simp] theorem setPort_par (s : State) (k : Nat) (x : PortSt) : (setPort s k x).par = s.par := rfl
@[simp] theorem setPort_nanPol (s : State) (k : Nat) (x : PortSt) : (setPort s k x).nanPol = s.nanPol := rfl
@[simp] theorem setPort_nanPolAt (s : State) (k : Nat) (x : PortSt) : (setPort s k x).nanPolAt = s.nanPolAt := rfl
@[simp] theorem setPort_floor (s : State) (k : Nat) (x : PortSt) : (setPort s k x).floor = s.floor := rfl
@[simp] theorem setPort_floorAt (s : State) (k : Nat) (x : PortSt) : (setPort s k x).floorAt = s.floorAt := rfl
@[simp] theorem setPort_mons (s : State) (k : Nat) (x : PortSt) : (setPort s k x).mons = s.mons := rfl
@[simp] theorem setPort_elands (s : State) (k : Nat) (x : PortSt) : (setPort s k x).elands = s.elands := rfl
@[simp] theorem setPort_engines (s : State) (k : Nat) (x : PortSt) : (setPort s k x).engines = s.engines := rfl
@[simp] theorem setPort_tiles (s : State) (k : Nat) (x : PortSt) : (setPort s k x).tiles = s.tiles := rfl
@[simp] theorem setPort_cells (s : State) (k : Nat) (x : PortSt) : (setPort s k x).cells = s.cells := rfl
@[simp] theorem setPort_chams (s : State) (k : Nat) (x : PortSt) : (setPort s k x).chams = s.chams := rfl
@[simp] theorem setPort_doms (s : State) (k : Nat) (x : PortSt) : (setPort s k x).doms = s.doms := rfl
@[simp] theorem setPort_phases (s : State) (k : Nat) (x : PortSt) : (setPort s k x).phases = s.phases := rfl
@[simp] theorem setPort_beats (s : State) (k : Nat) (x : PortSt) : (setPort s k x).beats = s.beats := rfl
@[simp] theorem setPort_injs (s : State) (k : Nat) (x : PortSt) : (setPort s k x).injs = s.injs := rfl
@[simp] theorem setPort_takes (s : State) (k : Nat) (x : PortSt) : (setPort s k x).takes = s.takes := rfl
@[simp] theorem setPort_nextId (s : State) (k : Nat) (x : PortSt) : (setPort s k x).nextId = s.nextId := rfl
@[simp] theorem setPort_incrs (s : State) (k : Nat) (x : PortSt) : (setPort s k x).incrs = s.incrs := rfl
@[simp] theorem setPort_raised (s : State) (k : Nat) (x : PortSt) : (setPort s k x).raised = s.raised := rfl
@[simp] theorem setPort_unacked (s : State) (k : Nat) (x : PortSt) : (setPort s k x).unacked = s.unacked := rfl
@[simp] theorem setPort_logSeq (s : State) (k : Nat) (x : PortSt) : (setPort s k x).logSeq = s.logSeq := rfl
@[simp] theorem setPort_xfers (s : State) (k : Nat) (x : PortSt) : (setPort s k x).xfers = s.xfers := rfl
@[simp] theorem setPort_packets (s : State) (k : Nat) (x : PortSt) : (setPort s k x).packets = s.packets := rfl
@[simp] theorem setPort_arrivals (s : State) (k : Nat) (x : PortSt) : (setPort s k x).arrivals = s.arrivals := rfl
@[simp] theorem setPort_fLines (s : State) (k : Nat) (x : PortSt) : (setPort s k x).fLines = s.fLines := rfl
@[simp] theorem setPort_tokSubs (s : State) (k : Nat) (x : PortSt) : (setPort s k x).tokSubs = s.tokSubs := rfl
@[simp] theorem setPort_hbmq (s : State) (k : Nat) (x : PortSt) : (setPort s k x).hbmq = s.hbmq := rfl
@[simp] theorem setPort_red (s : State) (k : Nat) (x : PortSt) : (setPort s k x).red = s.red := rfl
@[simp] theorem setPort_linkFails (s : State) (k : Nat) (x : PortSt) : (setPort s k x).linkFails = s.linkFails := rfl
@[simp] theorem setPort_redSent (s : State) (k : Nat) (x : PortSt) : (setPort s k x).redSent = s.redSent := rfl
@[simp] theorem setPort_lanes (s : State) (k : Nat) (x : PortSt) : (setPort s k x).lanes = s.lanes := rfl
@[simp] theorem setPort_depth (s : State) (k : Nat) (x : PortSt) : (setPort s k x).depth = s.depth := rfl
@[simp] theorem setPort_stashQ (s : State) (k : Nat) (x : PortSt) : (setPort s k x).stashQ = s.stashQ := rfl
@[simp] theorem setPort_stashOrd (s : State) (k : Nat) (x : PortSt) : (setPort s k x).stashOrd = s.stashOrd := rfl
@[simp] theorem setPort_streams (s : State) (k : Nat) (x : PortSt) : (setPort s k x).streams = s.streams := rfl
@[simp] theorem setPort_dmas (s : State) (k : Nat) (x : PortSt) : (setPort s k x).dmas = s.dmas := rfl
@[simp] theorem setPort_halts (s : State) (k : Nat) (x : PortSt) : (setPort s k x).halts = s.halts := rfl
@[simp] theorem setPort_haltSeq (s : State) (k : Nat) (x : PortSt) : (setPort s k x).haltSeq = s.haltSeq := rfl
@[simp] theorem setPort_haltWait (s : State) (k : Nat) (x : PortSt) : (setPort s k x).haltWait = s.haltWait := rfl
@[simp] theorem setPort_buckets (s : State) (k : Nat) (x : PortSt) : (setPort s k x).buckets = s.buckets := rfl
@[simp] theorem setPort_tlb (s : State) (k : Nat) (x : PortSt) : (setPort s k x).tlb = s.tlb := rfl
@[simp] theorem setPort_cache (s : State) (k : Nat) (x : PortSt) : (setPort s k x).cache = s.cache := rfl
@[simp] theorem setPort_scrubAt (s : State) (k : Nat) (x : PortSt) : (setPort s k x).scrubAt = s.scrubAt := rfl
@[simp] theorem setPort_thrAt (s : State) (k : Nat) (x : PortSt) : (setPort s k x).thrAt = s.thrAt := rfl
@[simp] theorem setPort_draws (s : State) (k : Nat) (x : PortSt) : (setPort s k x).draws = s.draws := rfl
@[simp] theorem setPort_clk (s : State) (k : Nat) (x : PortSt) : (setPort s k x).clk = s.clk := rfl
@[simp] theorem setPort_boot (s : State) (k : Nat) (x : PortSt) : (setPort s k x).boot = s.boot := rfl
@[simp] theorem setPort_sec (s : State) (k : Nat) (x : PortSt) : (setPort s k x).sec = s.sec := rfl
@[simp] theorem setPort_spp (s : State) (k : Nat) (x : PortSt) : (setPort s k x).spp = s.spp := rfl
@[simp] theorem setPort_gauge (s : State) (k : Nat) (x : PortSt) : (setPort s k x).gauge = s.gauge := rfl
@[simp] theorem setPort_herd (s : State) (k : Nat) (x : PortSt) : (setPort s k x).herd = s.herd := rfl
@[simp] theorem setPort_snap (s : State) (k : Nat) (x : PortSt) : (setPort s k x).snap = s.snap := rfl
@[simp] theorem setPort_outbox (s : State) (k : Nat) (x : PortSt) : (setPort s k x).outbox = s.outbox := rfl
@[simp] theorem setPort_wstatus (s : State) (k : Nat) (x : PortSt) : (setPort s k x).wstatus = s.wstatus := rfl

@[simp] theorem setFlow_pending (s : State) (k : Nat) (x : HFlow) : (setFlow s k x).pending = s.pending := rfl
@[simp] theorem setFlow_ctc (s : State) (k : Nat) (x : HFlow) : (setFlow s k x).ctc = s.ctc := rfl
@[simp] theorem setFlow_ns (s : State) (k : Nat) (x : HFlow) : (setFlow s k x).ns = s.ns := rfl
@[simp] theorem setFlow_nsFrac (s : State) (k : Nat) (x : HFlow) : (setFlow s k x).nsFrac = s.nsFrac := rfl
@[simp] theorem setFlow_ptp (s : State) (k : Nat) (x : HFlow) : (setFlow s k x).ptp = s.ptp := rfl
@[simp] theorem setFlow_mem (s : State) (k : Nat) (x : HFlow) : (setFlow s k x).mem = s.mem := rfl
@[simp] theorem setFlow_poison (s : State) (k : Nat) (x : HFlow) : (setFlow s k x).poison = s.poison := rfl
@[simp] theorem setFlow_errs (s : State) (k : Nat) (x : HFlow) : (setFlow s k x).errs = s.errs := rfl
@[simp] theorem setFlow_par (s : State) (k : Nat) (x : HFlow) : (setFlow s k x).par = s.par := rfl
@[simp] theorem setFlow_nanPol (s : State) (k : Nat) (x : HFlow) : (setFlow s k x).nanPol = s.nanPol := rfl
@[simp] theorem setFlow_nanPolAt (s : State) (k : Nat) (x : HFlow) : (setFlow s k x).nanPolAt = s.nanPolAt := rfl
@[simp] theorem setFlow_floor (s : State) (k : Nat) (x : HFlow) : (setFlow s k x).floor = s.floor := rfl
@[simp] theorem setFlow_floorAt (s : State) (k : Nat) (x : HFlow) : (setFlow s k x).floorAt = s.floorAt := rfl
@[simp] theorem setFlow_mons (s : State) (k : Nat) (x : HFlow) : (setFlow s k x).mons = s.mons := rfl
@[simp] theorem setFlow_elands (s : State) (k : Nat) (x : HFlow) : (setFlow s k x).elands = s.elands := rfl
@[simp] theorem setFlow_engines (s : State) (k : Nat) (x : HFlow) : (setFlow s k x).engines = s.engines := rfl
@[simp] theorem setFlow_tiles (s : State) (k : Nat) (x : HFlow) : (setFlow s k x).tiles = s.tiles := rfl
@[simp] theorem setFlow_cells (s : State) (k : Nat) (x : HFlow) : (setFlow s k x).cells = s.cells := rfl
@[simp] theorem setFlow_chams (s : State) (k : Nat) (x : HFlow) : (setFlow s k x).chams = s.chams := rfl
@[simp] theorem setFlow_doms (s : State) (k : Nat) (x : HFlow) : (setFlow s k x).doms = s.doms := rfl
@[simp] theorem setFlow_phases (s : State) (k : Nat) (x : HFlow) : (setFlow s k x).phases = s.phases := rfl
@[simp] theorem setFlow_beats (s : State) (k : Nat) (x : HFlow) : (setFlow s k x).beats = s.beats := rfl
@[simp] theorem setFlow_injs (s : State) (k : Nat) (x : HFlow) : (setFlow s k x).injs = s.injs := rfl
@[simp] theorem setFlow_takes (s : State) (k : Nat) (x : HFlow) : (setFlow s k x).takes = s.takes := rfl
@[simp] theorem setFlow_nextId (s : State) (k : Nat) (x : HFlow) : (setFlow s k x).nextId = s.nextId := rfl
@[simp] theorem setFlow_incrs (s : State) (k : Nat) (x : HFlow) : (setFlow s k x).incrs = s.incrs := rfl
@[simp] theorem setFlow_raised (s : State) (k : Nat) (x : HFlow) : (setFlow s k x).raised = s.raised := rfl
@[simp] theorem setFlow_unacked (s : State) (k : Nat) (x : HFlow) : (setFlow s k x).unacked = s.unacked := rfl
@[simp] theorem setFlow_logSeq (s : State) (k : Nat) (x : HFlow) : (setFlow s k x).logSeq = s.logSeq := rfl
@[simp] theorem setFlow_xfers (s : State) (k : Nat) (x : HFlow) : (setFlow s k x).xfers = s.xfers := rfl
@[simp] theorem setFlow_packets (s : State) (k : Nat) (x : HFlow) : (setFlow s k x).packets = s.packets := rfl
@[simp] theorem setFlow_arrivals (s : State) (k : Nat) (x : HFlow) : (setFlow s k x).arrivals = s.arrivals := rfl
@[simp] theorem setFlow_fLines (s : State) (k : Nat) (x : HFlow) : (setFlow s k x).fLines = s.fLines := rfl
@[simp] theorem setFlow_tokSubs (s : State) (k : Nat) (x : HFlow) : (setFlow s k x).tokSubs = s.tokSubs := rfl
@[simp] theorem setFlow_hbmq (s : State) (k : Nat) (x : HFlow) : (setFlow s k x).hbmq = s.hbmq := rfl
@[simp] theorem setFlow_red (s : State) (k : Nat) (x : HFlow) : (setFlow s k x).red = s.red := rfl
@[simp] theorem setFlow_linkFails (s : State) (k : Nat) (x : HFlow) : (setFlow s k x).linkFails = s.linkFails := rfl
@[simp] theorem setFlow_redSent (s : State) (k : Nat) (x : HFlow) : (setFlow s k x).redSent = s.redSent := rfl
@[simp] theorem setFlow_lanes (s : State) (k : Nat) (x : HFlow) : (setFlow s k x).lanes = s.lanes := rfl
@[simp] theorem setFlow_depth (s : State) (k : Nat) (x : HFlow) : (setFlow s k x).depth = s.depth := rfl
@[simp] theorem setFlow_stashQ (s : State) (k : Nat) (x : HFlow) : (setFlow s k x).stashQ = s.stashQ := rfl
@[simp] theorem setFlow_stashOrd (s : State) (k : Nat) (x : HFlow) : (setFlow s k x).stashOrd = s.stashOrd := rfl
@[simp] theorem setFlow_streams (s : State) (k : Nat) (x : HFlow) : (setFlow s k x).streams = s.streams := rfl
@[simp] theorem setFlow_dmas (s : State) (k : Nat) (x : HFlow) : (setFlow s k x).dmas = s.dmas := rfl
@[simp] theorem setFlow_halts (s : State) (k : Nat) (x : HFlow) : (setFlow s k x).halts = s.halts := rfl
@[simp] theorem setFlow_haltSeq (s : State) (k : Nat) (x : HFlow) : (setFlow s k x).haltSeq = s.haltSeq := rfl
@[simp] theorem setFlow_haltWait (s : State) (k : Nat) (x : HFlow) : (setFlow s k x).haltWait = s.haltWait := rfl
@[simp] theorem setFlow_buckets (s : State) (k : Nat) (x : HFlow) : (setFlow s k x).buckets = s.buckets := rfl
@[simp] theorem setFlow_tlb (s : State) (k : Nat) (x : HFlow) : (setFlow s k x).tlb = s.tlb := rfl
@[simp] theorem setFlow_cache (s : State) (k : Nat) (x : HFlow) : (setFlow s k x).cache = s.cache := rfl
@[simp] theorem setFlow_scrubAt (s : State) (k : Nat) (x : HFlow) : (setFlow s k x).scrubAt = s.scrubAt := rfl
@[simp] theorem setFlow_thrAt (s : State) (k : Nat) (x : HFlow) : (setFlow s k x).thrAt = s.thrAt := rfl
@[simp] theorem setFlow_draws (s : State) (k : Nat) (x : HFlow) : (setFlow s k x).draws = s.draws := rfl
@[simp] theorem setFlow_clk (s : State) (k : Nat) (x : HFlow) : (setFlow s k x).clk = s.clk := rfl
@[simp] theorem setFlow_boot (s : State) (k : Nat) (x : HFlow) : (setFlow s k x).boot = s.boot := rfl
@[simp] theorem setFlow_sec (s : State) (k : Nat) (x : HFlow) : (setFlow s k x).sec = s.sec := rfl
@[simp] theorem setFlow_spp (s : State) (k : Nat) (x : HFlow) : (setFlow s k x).spp = s.spp := rfl
@[simp] theorem setFlow_gauge (s : State) (k : Nat) (x : HFlow) : (setFlow s k x).gauge = s.gauge := rfl
@[simp] theorem setFlow_herd (s : State) (k : Nat) (x : HFlow) : (setFlow s k x).herd = s.herd := rfl
@[simp] theorem setFlow_snap (s : State) (k : Nat) (x : HFlow) : (setFlow s k x).snap = s.snap := rfl
@[simp] theorem setFlow_outbox (s : State) (k : Nat) (x : HFlow) : (setFlow s k x).outbox = s.outbox := rfl
@[simp] theorem setFlow_wstatus (s : State) (k : Nat) (x : HFlow) : (setFlow s k x).wstatus = s.wstatus := rfl

@[simp] theorem setReg_pending (s : State) (k : Nat) (x : RegEntry) : (setReg s k x).pending = s.pending := rfl
@[simp] theorem setReg_ctc (s : State) (k : Nat) (x : RegEntry) : (setReg s k x).ctc = s.ctc := rfl
@[simp] theorem setReg_ns (s : State) (k : Nat) (x : RegEntry) : (setReg s k x).ns = s.ns := rfl
@[simp] theorem setReg_nsFrac (s : State) (k : Nat) (x : RegEntry) : (setReg s k x).nsFrac = s.nsFrac := rfl
@[simp] theorem setReg_ptp (s : State) (k : Nat) (x : RegEntry) : (setReg s k x).ptp = s.ptp := rfl
@[simp] theorem setReg_mem (s : State) (k : Nat) (x : RegEntry) : (setReg s k x).mem = s.mem := rfl
@[simp] theorem setReg_poison (s : State) (k : Nat) (x : RegEntry) : (setReg s k x).poison = s.poison := rfl
@[simp] theorem setReg_errs (s : State) (k : Nat) (x : RegEntry) : (setReg s k x).errs = s.errs := rfl
@[simp] theorem setReg_par (s : State) (k : Nat) (x : RegEntry) : (setReg s k x).par = s.par := rfl
@[simp] theorem setReg_nanPol (s : State) (k : Nat) (x : RegEntry) : (setReg s k x).nanPol = s.nanPol := rfl
@[simp] theorem setReg_nanPolAt (s : State) (k : Nat) (x : RegEntry) : (setReg s k x).nanPolAt = s.nanPolAt := rfl
@[simp] theorem setReg_floor (s : State) (k : Nat) (x : RegEntry) : (setReg s k x).floor = s.floor := rfl
@[simp] theorem setReg_floorAt (s : State) (k : Nat) (x : RegEntry) : (setReg s k x).floorAt = s.floorAt := rfl
@[simp] theorem setReg_mons (s : State) (k : Nat) (x : RegEntry) : (setReg s k x).mons = s.mons := rfl
@[simp] theorem setReg_elands (s : State) (k : Nat) (x : RegEntry) : (setReg s k x).elands = s.elands := rfl
@[simp] theorem setReg_engines (s : State) (k : Nat) (x : RegEntry) : (setReg s k x).engines = s.engines := rfl
@[simp] theorem setReg_tiles (s : State) (k : Nat) (x : RegEntry) : (setReg s k x).tiles = s.tiles := rfl
@[simp] theorem setReg_cells (s : State) (k : Nat) (x : RegEntry) : (setReg s k x).cells = s.cells := rfl
@[simp] theorem setReg_chams (s : State) (k : Nat) (x : RegEntry) : (setReg s k x).chams = s.chams := rfl
@[simp] theorem setReg_doms (s : State) (k : Nat) (x : RegEntry) : (setReg s k x).doms = s.doms := rfl
@[simp] theorem setReg_phases (s : State) (k : Nat) (x : RegEntry) : (setReg s k x).phases = s.phases := rfl
@[simp] theorem setReg_beats (s : State) (k : Nat) (x : RegEntry) : (setReg s k x).beats = s.beats := rfl
@[simp] theorem setReg_injs (s : State) (k : Nat) (x : RegEntry) : (setReg s k x).injs = s.injs := rfl
@[simp] theorem setReg_takes (s : State) (k : Nat) (x : RegEntry) : (setReg s k x).takes = s.takes := rfl
@[simp] theorem setReg_nextId (s : State) (k : Nat) (x : RegEntry) : (setReg s k x).nextId = s.nextId := rfl
@[simp] theorem setReg_incrs (s : State) (k : Nat) (x : RegEntry) : (setReg s k x).incrs = s.incrs := rfl
@[simp] theorem setReg_raised (s : State) (k : Nat) (x : RegEntry) : (setReg s k x).raised = s.raised := rfl
@[simp] theorem setReg_unacked (s : State) (k : Nat) (x : RegEntry) : (setReg s k x).unacked = s.unacked := rfl
@[simp] theorem setReg_logSeq (s : State) (k : Nat) (x : RegEntry) : (setReg s k x).logSeq = s.logSeq := rfl
@[simp] theorem setReg_xfers (s : State) (k : Nat) (x : RegEntry) : (setReg s k x).xfers = s.xfers := rfl
@[simp] theorem setReg_packets (s : State) (k : Nat) (x : RegEntry) : (setReg s k x).packets = s.packets := rfl
@[simp] theorem setReg_arrivals (s : State) (k : Nat) (x : RegEntry) : (setReg s k x).arrivals = s.arrivals := rfl
@[simp] theorem setReg_fLines (s : State) (k : Nat) (x : RegEntry) : (setReg s k x).fLines = s.fLines := rfl
@[simp] theorem setReg_tokSubs (s : State) (k : Nat) (x : RegEntry) : (setReg s k x).tokSubs = s.tokSubs := rfl
@[simp] theorem setReg_hbmq (s : State) (k : Nat) (x : RegEntry) : (setReg s k x).hbmq = s.hbmq := rfl
@[simp] theorem setReg_red (s : State) (k : Nat) (x : RegEntry) : (setReg s k x).red = s.red := rfl
@[simp] theorem setReg_linkFails (s : State) (k : Nat) (x : RegEntry) : (setReg s k x).linkFails = s.linkFails := rfl
@[simp] theorem setReg_redSent (s : State) (k : Nat) (x : RegEntry) : (setReg s k x).redSent = s.redSent := rfl
@[simp] theorem setReg_lanes (s : State) (k : Nat) (x : RegEntry) : (setReg s k x).lanes = s.lanes := rfl
@[simp] theorem setReg_depth (s : State) (k : Nat) (x : RegEntry) : (setReg s k x).depth = s.depth := rfl
@[simp] theorem setReg_stashQ (s : State) (k : Nat) (x : RegEntry) : (setReg s k x).stashQ = s.stashQ := rfl
@[simp] theorem setReg_stashOrd (s : State) (k : Nat) (x : RegEntry) : (setReg s k x).stashOrd = s.stashOrd := rfl
@[simp] theorem setReg_streams (s : State) (k : Nat) (x : RegEntry) : (setReg s k x).streams = s.streams := rfl
@[simp] theorem setReg_dmas (s : State) (k : Nat) (x : RegEntry) : (setReg s k x).dmas = s.dmas := rfl
@[simp] theorem setReg_halts (s : State) (k : Nat) (x : RegEntry) : (setReg s k x).halts = s.halts := rfl
@[simp] theorem setReg_haltSeq (s : State) (k : Nat) (x : RegEntry) : (setReg s k x).haltSeq = s.haltSeq := rfl
@[simp] theorem setReg_haltWait (s : State) (k : Nat) (x : RegEntry) : (setReg s k x).haltWait = s.haltWait := rfl
@[simp] theorem setReg_buckets (s : State) (k : Nat) (x : RegEntry) : (setReg s k x).buckets = s.buckets := rfl
@[simp] theorem setReg_tlb (s : State) (k : Nat) (x : RegEntry) : (setReg s k x).tlb = s.tlb := rfl
@[simp] theorem setReg_cache (s : State) (k : Nat) (x : RegEntry) : (setReg s k x).cache = s.cache := rfl
@[simp] theorem setReg_scrubAt (s : State) (k : Nat) (x : RegEntry) : (setReg s k x).scrubAt = s.scrubAt := rfl
@[simp] theorem setReg_thrAt (s : State) (k : Nat) (x : RegEntry) : (setReg s k x).thrAt = s.thrAt := rfl
@[simp] theorem setReg_draws (s : State) (k : Nat) (x : RegEntry) : (setReg s k x).draws = s.draws := rfl
@[simp] theorem setReg_clk (s : State) (k : Nat) (x : RegEntry) : (setReg s k x).clk = s.clk := rfl
@[simp] theorem setReg_boot (s : State) (k : Nat) (x : RegEntry) : (setReg s k x).boot = s.boot := rfl
@[simp] theorem setReg_sec (s : State) (k : Nat) (x : RegEntry) : (setReg s k x).sec = s.sec := rfl
@[simp] theorem setReg_spp (s : State) (k : Nat) (x : RegEntry) : (setReg s k x).spp = s.spp := rfl
@[simp] theorem setReg_gauge (s : State) (k : Nat) (x : RegEntry) : (setReg s k x).gauge = s.gauge := rfl
@[simp] theorem setReg_ports (s : State) (k : Nat) (x : RegEntry) : (setReg s k x).ports = s.ports := rfl
@[simp] theorem setReg_herd (s : State) (k : Nat) (x : RegEntry) : (setReg s k x).herd = s.herd := rfl
@[simp] theorem setReg_outbox (s : State) (k : Nat) (x : RegEntry) : (setReg s k x).outbox = s.outbox := rfl
@[simp] theorem setReg_wstatus (s : State) (k : Nat) (x : RegEntry) : (setReg s k x).wstatus = s.wstatus := rfl

@[simp] theorem setSnapD_pending (s : State) (k : Nat) (x : SnapDom) : (setSnapD s k x).pending = s.pending := rfl
@[simp] theorem setSnapD_ctc (s : State) (k : Nat) (x : SnapDom) : (setSnapD s k x).ctc = s.ctc := rfl
@[simp] theorem setSnapD_ns (s : State) (k : Nat) (x : SnapDom) : (setSnapD s k x).ns = s.ns := rfl
@[simp] theorem setSnapD_nsFrac (s : State) (k : Nat) (x : SnapDom) : (setSnapD s k x).nsFrac = s.nsFrac := rfl
@[simp] theorem setSnapD_ptp (s : State) (k : Nat) (x : SnapDom) : (setSnapD s k x).ptp = s.ptp := rfl
@[simp] theorem setSnapD_mem (s : State) (k : Nat) (x : SnapDom) : (setSnapD s k x).mem = s.mem := rfl
@[simp] theorem setSnapD_poison (s : State) (k : Nat) (x : SnapDom) : (setSnapD s k x).poison = s.poison := rfl
@[simp] theorem setSnapD_errs (s : State) (k : Nat) (x : SnapDom) : (setSnapD s k x).errs = s.errs := rfl
@[simp] theorem setSnapD_par (s : State) (k : Nat) (x : SnapDom) : (setSnapD s k x).par = s.par := rfl
@[simp] theorem setSnapD_nanPol (s : State) (k : Nat) (x : SnapDom) : (setSnapD s k x).nanPol = s.nanPol := rfl
@[simp] theorem setSnapD_nanPolAt (s : State) (k : Nat) (x : SnapDom) : (setSnapD s k x).nanPolAt = s.nanPolAt := rfl
@[simp] theorem setSnapD_floor (s : State) (k : Nat) (x : SnapDom) : (setSnapD s k x).floor = s.floor := rfl
@[simp] theorem setSnapD_floorAt (s : State) (k : Nat) (x : SnapDom) : (setSnapD s k x).floorAt = s.floorAt := rfl
@[simp] theorem setSnapD_mons (s : State) (k : Nat) (x : SnapDom) : (setSnapD s k x).mons = s.mons := rfl
@[simp] theorem setSnapD_elands (s : State) (k : Nat) (x : SnapDom) : (setSnapD s k x).elands = s.elands := rfl
@[simp] theorem setSnapD_engines (s : State) (k : Nat) (x : SnapDom) : (setSnapD s k x).engines = s.engines := rfl
@[simp] theorem setSnapD_tiles (s : State) (k : Nat) (x : SnapDom) : (setSnapD s k x).tiles = s.tiles := rfl
@[simp] theorem setSnapD_cells (s : State) (k : Nat) (x : SnapDom) : (setSnapD s k x).cells = s.cells := rfl
@[simp] theorem setSnapD_chams (s : State) (k : Nat) (x : SnapDom) : (setSnapD s k x).chams = s.chams := rfl
@[simp] theorem setSnapD_doms (s : State) (k : Nat) (x : SnapDom) : (setSnapD s k x).doms = s.doms := rfl
@[simp] theorem setSnapD_phases (s : State) (k : Nat) (x : SnapDom) : (setSnapD s k x).phases = s.phases := rfl
@[simp] theorem setSnapD_beats (s : State) (k : Nat) (x : SnapDom) : (setSnapD s k x).beats = s.beats := rfl
@[simp] theorem setSnapD_injs (s : State) (k : Nat) (x : SnapDom) : (setSnapD s k x).injs = s.injs := rfl
@[simp] theorem setSnapD_takes (s : State) (k : Nat) (x : SnapDom) : (setSnapD s k x).takes = s.takes := rfl
@[simp] theorem setSnapD_nextId (s : State) (k : Nat) (x : SnapDom) : (setSnapD s k x).nextId = s.nextId := rfl
@[simp] theorem setSnapD_incrs (s : State) (k : Nat) (x : SnapDom) : (setSnapD s k x).incrs = s.incrs := rfl
@[simp] theorem setSnapD_raised (s : State) (k : Nat) (x : SnapDom) : (setSnapD s k x).raised = s.raised := rfl
@[simp] theorem setSnapD_unacked (s : State) (k : Nat) (x : SnapDom) : (setSnapD s k x).unacked = s.unacked := rfl
@[simp] theorem setSnapD_logSeq (s : State) (k : Nat) (x : SnapDom) : (setSnapD s k x).logSeq = s.logSeq := rfl
@[simp] theorem setSnapD_xfers (s : State) (k : Nat) (x : SnapDom) : (setSnapD s k x).xfers = s.xfers := rfl
@[simp] theorem setSnapD_packets (s : State) (k : Nat) (x : SnapDom) : (setSnapD s k x).packets = s.packets := rfl
@[simp] theorem setSnapD_arrivals (s : State) (k : Nat) (x : SnapDom) : (setSnapD s k x).arrivals = s.arrivals := rfl
@[simp] theorem setSnapD_fLines (s : State) (k : Nat) (x : SnapDom) : (setSnapD s k x).fLines = s.fLines := rfl
@[simp] theorem setSnapD_tokSubs (s : State) (k : Nat) (x : SnapDom) : (setSnapD s k x).tokSubs = s.tokSubs := rfl
@[simp] theorem setSnapD_hbmq (s : State) (k : Nat) (x : SnapDom) : (setSnapD s k x).hbmq = s.hbmq := rfl
@[simp] theorem setSnapD_red (s : State) (k : Nat) (x : SnapDom) : (setSnapD s k x).red = s.red := rfl
@[simp] theorem setSnapD_linkFails (s : State) (k : Nat) (x : SnapDom) : (setSnapD s k x).linkFails = s.linkFails := rfl
@[simp] theorem setSnapD_redSent (s : State) (k : Nat) (x : SnapDom) : (setSnapD s k x).redSent = s.redSent := rfl
@[simp] theorem setSnapD_lanes (s : State) (k : Nat) (x : SnapDom) : (setSnapD s k x).lanes = s.lanes := rfl
@[simp] theorem setSnapD_depth (s : State) (k : Nat) (x : SnapDom) : (setSnapD s k x).depth = s.depth := rfl
@[simp] theorem setSnapD_stashQ (s : State) (k : Nat) (x : SnapDom) : (setSnapD s k x).stashQ = s.stashQ := rfl
@[simp] theorem setSnapD_stashOrd (s : State) (k : Nat) (x : SnapDom) : (setSnapD s k x).stashOrd = s.stashOrd := rfl
@[simp] theorem setSnapD_streams (s : State) (k : Nat) (x : SnapDom) : (setSnapD s k x).streams = s.streams := rfl
@[simp] theorem setSnapD_dmas (s : State) (k : Nat) (x : SnapDom) : (setSnapD s k x).dmas = s.dmas := rfl
@[simp] theorem setSnapD_halts (s : State) (k : Nat) (x : SnapDom) : (setSnapD s k x).halts = s.halts := rfl
@[simp] theorem setSnapD_haltSeq (s : State) (k : Nat) (x : SnapDom) : (setSnapD s k x).haltSeq = s.haltSeq := rfl
@[simp] theorem setSnapD_haltWait (s : State) (k : Nat) (x : SnapDom) : (setSnapD s k x).haltWait = s.haltWait := rfl
@[simp] theorem setSnapD_buckets (s : State) (k : Nat) (x : SnapDom) : (setSnapD s k x).buckets = s.buckets := rfl
@[simp] theorem setSnapD_tlb (s : State) (k : Nat) (x : SnapDom) : (setSnapD s k x).tlb = s.tlb := rfl
@[simp] theorem setSnapD_cache (s : State) (k : Nat) (x : SnapDom) : (setSnapD s k x).cache = s.cache := rfl
@[simp] theorem setSnapD_scrubAt (s : State) (k : Nat) (x : SnapDom) : (setSnapD s k x).scrubAt = s.scrubAt := rfl
@[simp] theorem setSnapD_thrAt (s : State) (k : Nat) (x : SnapDom) : (setSnapD s k x).thrAt = s.thrAt := rfl
@[simp] theorem setSnapD_draws (s : State) (k : Nat) (x : SnapDom) : (setSnapD s k x).draws = s.draws := rfl
@[simp] theorem setSnapD_clk (s : State) (k : Nat) (x : SnapDom) : (setSnapD s k x).clk = s.clk := rfl
@[simp] theorem setSnapD_boot (s : State) (k : Nat) (x : SnapDom) : (setSnapD s k x).boot = s.boot := rfl
@[simp] theorem setSnapD_sec (s : State) (k : Nat) (x : SnapDom) : (setSnapD s k x).sec = s.sec := rfl
@[simp] theorem setSnapD_spp (s : State) (k : Nat) (x : SnapDom) : (setSnapD s k x).spp = s.spp := rfl
@[simp] theorem setSnapD_gauge (s : State) (k : Nat) (x : SnapDom) : (setSnapD s k x).gauge = s.gauge := rfl
@[simp] theorem setSnapD_ports (s : State) (k : Nat) (x : SnapDom) : (setSnapD s k x).ports = s.ports := rfl
@[simp] theorem setSnapD_herd (s : State) (k : Nat) (x : SnapDom) : (setSnapD s k x).herd = s.herd := rfl
@[simp] theorem setSnapD_outbox (s : State) (k : Nat) (x : SnapDom) : (setSnapD s k x).outbox = s.outbox := rfl
@[simp] theorem setSnapD_wstatus (s : State) (k : Nat) (x : SnapDom) : (setSnapD s k x).wstatus = s.wstatus := rfl

@[simp] theorem setDepth_pending (s : State) (a b : Nat) (x : List Nat) : (setDepth s a b x).pending = s.pending := rfl
@[simp] theorem setDepth_ctc (s : State) (a b : Nat) (x : List Nat) : (setDepth s a b x).ctc = s.ctc := rfl
@[simp] theorem setDepth_ns (s : State) (a b : Nat) (x : List Nat) : (setDepth s a b x).ns = s.ns := rfl
@[simp] theorem setDepth_nsFrac (s : State) (a b : Nat) (x : List Nat) : (setDepth s a b x).nsFrac = s.nsFrac := rfl
@[simp] theorem setDepth_ptp (s : State) (a b : Nat) (x : List Nat) : (setDepth s a b x).ptp = s.ptp := rfl
@[simp] theorem setDepth_mem (s : State) (a b : Nat) (x : List Nat) : (setDepth s a b x).mem = s.mem := rfl
@[simp] theorem setDepth_poison (s : State) (a b : Nat) (x : List Nat) : (setDepth s a b x).poison = s.poison := rfl
@[simp] theorem setDepth_errs (s : State) (a b : Nat) (x : List Nat) : (setDepth s a b x).errs = s.errs := rfl
@[simp] theorem setDepth_par (s : State) (a b : Nat) (x : List Nat) : (setDepth s a b x).par = s.par := rfl
@[simp] theorem setDepth_nanPol (s : State) (a b : Nat) (x : List Nat) : (setDepth s a b x).nanPol = s.nanPol := rfl
@[simp] theorem setDepth_nanPolAt (s : State) (a b : Nat) (x : List Nat) : (setDepth s a b x).nanPolAt = s.nanPolAt := rfl
@[simp] theorem setDepth_floor (s : State) (a b : Nat) (x : List Nat) : (setDepth s a b x).floor = s.floor := rfl
@[simp] theorem setDepth_floorAt (s : State) (a b : Nat) (x : List Nat) : (setDepth s a b x).floorAt = s.floorAt := rfl
@[simp] theorem setDepth_mons (s : State) (a b : Nat) (x : List Nat) : (setDepth s a b x).mons = s.mons := rfl
@[simp] theorem setDepth_elands (s : State) (a b : Nat) (x : List Nat) : (setDepth s a b x).elands = s.elands := rfl
@[simp] theorem setDepth_engines (s : State) (a b : Nat) (x : List Nat) : (setDepth s a b x).engines = s.engines := rfl
@[simp] theorem setDepth_tiles (s : State) (a b : Nat) (x : List Nat) : (setDepth s a b x).tiles = s.tiles := rfl
@[simp] theorem setDepth_cells (s : State) (a b : Nat) (x : List Nat) : (setDepth s a b x).cells = s.cells := rfl
@[simp] theorem setDepth_chams (s : State) (a b : Nat) (x : List Nat) : (setDepth s a b x).chams = s.chams := rfl
@[simp] theorem setDepth_doms (s : State) (a b : Nat) (x : List Nat) : (setDepth s a b x).doms = s.doms := rfl
@[simp] theorem setDepth_phases (s : State) (a b : Nat) (x : List Nat) : (setDepth s a b x).phases = s.phases := rfl
@[simp] theorem setDepth_beats (s : State) (a b : Nat) (x : List Nat) : (setDepth s a b x).beats = s.beats := rfl
@[simp] theorem setDepth_injs (s : State) (a b : Nat) (x : List Nat) : (setDepth s a b x).injs = s.injs := rfl
@[simp] theorem setDepth_takes (s : State) (a b : Nat) (x : List Nat) : (setDepth s a b x).takes = s.takes := rfl
@[simp] theorem setDepth_nextId (s : State) (a b : Nat) (x : List Nat) : (setDepth s a b x).nextId = s.nextId := rfl
@[simp] theorem setDepth_incrs (s : State) (a b : Nat) (x : List Nat) : (setDepth s a b x).incrs = s.incrs := rfl
@[simp] theorem setDepth_raised (s : State) (a b : Nat) (x : List Nat) : (setDepth s a b x).raised = s.raised := rfl
@[simp] theorem setDepth_unacked (s : State) (a b : Nat) (x : List Nat) : (setDepth s a b x).unacked = s.unacked := rfl
@[simp] theorem setDepth_logSeq (s : State) (a b : Nat) (x : List Nat) : (setDepth s a b x).logSeq = s.logSeq := rfl
@[simp] theorem setDepth_xfers (s : State) (a b : Nat) (x : List Nat) : (setDepth s a b x).xfers = s.xfers := rfl
@[simp] theorem setDepth_packets (s : State) (a b : Nat) (x : List Nat) : (setDepth s a b x).packets = s.packets := rfl
@[simp] theorem setDepth_arrivals (s : State) (a b : Nat) (x : List Nat) : (setDepth s a b x).arrivals = s.arrivals := rfl
@[simp] theorem setDepth_fLines (s : State) (a b : Nat) (x : List Nat) : (setDepth s a b x).fLines = s.fLines := rfl
@[simp] theorem setDepth_tokSubs (s : State) (a b : Nat) (x : List Nat) : (setDepth s a b x).tokSubs = s.tokSubs := rfl
@[simp] theorem setDepth_hbmq (s : State) (a b : Nat) (x : List Nat) : (setDepth s a b x).hbmq = s.hbmq := rfl
@[simp] theorem setDepth_red (s : State) (a b : Nat) (x : List Nat) : (setDepth s a b x).red = s.red := rfl
@[simp] theorem setDepth_linkFails (s : State) (a b : Nat) (x : List Nat) : (setDepth s a b x).linkFails = s.linkFails := rfl
@[simp] theorem setDepth_redSent (s : State) (a b : Nat) (x : List Nat) : (setDepth s a b x).redSent = s.redSent := rfl
@[simp] theorem setDepth_lanes (s : State) (a b : Nat) (x : List Nat) : (setDepth s a b x).lanes = s.lanes := rfl
@[simp] theorem setDepth_stashQ (s : State) (a b : Nat) (x : List Nat) : (setDepth s a b x).stashQ = s.stashQ := rfl
@[simp] theorem setDepth_stashOrd (s : State) (a b : Nat) (x : List Nat) : (setDepth s a b x).stashOrd = s.stashOrd := rfl
@[simp] theorem setDepth_streams (s : State) (a b : Nat) (x : List Nat) : (setDepth s a b x).streams = s.streams := rfl
@[simp] theorem setDepth_dmas (s : State) (a b : Nat) (x : List Nat) : (setDepth s a b x).dmas = s.dmas := rfl
@[simp] theorem setDepth_halts (s : State) (a b : Nat) (x : List Nat) : (setDepth s a b x).halts = s.halts := rfl
@[simp] theorem setDepth_haltSeq (s : State) (a b : Nat) (x : List Nat) : (setDepth s a b x).haltSeq = s.haltSeq := rfl
@[simp] theorem setDepth_haltWait (s : State) (a b : Nat) (x : List Nat) : (setDepth s a b x).haltWait = s.haltWait := rfl
@[simp] theorem setDepth_buckets (s : State) (a b : Nat) (x : List Nat) : (setDepth s a b x).buckets = s.buckets := rfl
@[simp] theorem setDepth_tlb (s : State) (a b : Nat) (x : List Nat) : (setDepth s a b x).tlb = s.tlb := rfl
@[simp] theorem setDepth_cache (s : State) (a b : Nat) (x : List Nat) : (setDepth s a b x).cache = s.cache := rfl
@[simp] theorem setDepth_scrubAt (s : State) (a b : Nat) (x : List Nat) : (setDepth s a b x).scrubAt = s.scrubAt := rfl
@[simp] theorem setDepth_thrAt (s : State) (a b : Nat) (x : List Nat) : (setDepth s a b x).thrAt = s.thrAt := rfl
@[simp] theorem setDepth_draws (s : State) (a b : Nat) (x : List Nat) : (setDepth s a b x).draws = s.draws := rfl
@[simp] theorem setDepth_clk (s : State) (a b : Nat) (x : List Nat) : (setDepth s a b x).clk = s.clk := rfl
@[simp] theorem setDepth_boot (s : State) (a b : Nat) (x : List Nat) : (setDepth s a b x).boot = s.boot := rfl
@[simp] theorem setDepth_sec (s : State) (a b : Nat) (x : List Nat) : (setDepth s a b x).sec = s.sec := rfl
@[simp] theorem setDepth_spp (s : State) (a b : Nat) (x : List Nat) : (setDepth s a b x).spp = s.spp := rfl
@[simp] theorem setDepth_gauge (s : State) (a b : Nat) (x : List Nat) : (setDepth s a b x).gauge = s.gauge := rfl
@[simp] theorem setDepth_ports (s : State) (a b : Nat) (x : List Nat) : (setDepth s a b x).ports = s.ports := rfl
@[simp] theorem setDepth_herd (s : State) (a b : Nat) (x : List Nat) : (setDepth s a b x).herd = s.herd := rfl
@[simp] theorem setDepth_snap (s : State) (a b : Nat) (x : List Nat) : (setDepth s a b x).snap = s.snap := rfl
@[simp] theorem setDepth_outbox (s : State) (a b : Nat) (x : List Nat) : (setDepth s a b x).outbox = s.outbox := rfl
@[simp] theorem setDepth_wstatus (s : State) (a b : Nat) (x : List Nat) : (setDepth s a b x).wstatus = s.wstatus := rfl

@[simp] theorem setRecv_pending (s : State) (x : HRecv) : (setRecv s x).pending = s.pending := rfl
@[simp] theorem setRecv_ctc (s : State) (x : HRecv) : (setRecv s x).ctc = s.ctc := rfl
@[simp] theorem setRecv_ns (s : State) (x : HRecv) : (setRecv s x).ns = s.ns := rfl
@[simp] theorem setRecv_nsFrac (s : State) (x : HRecv) : (setRecv s x).nsFrac = s.nsFrac := rfl
@[simp] theorem setRecv_ptp (s : State) (x : HRecv) : (setRecv s x).ptp = s.ptp := rfl
@[simp] theorem setRecv_mem (s : State) (x : HRecv) : (setRecv s x).mem = s.mem := rfl
@[simp] theorem setRecv_poison (s : State) (x : HRecv) : (setRecv s x).poison = s.poison := rfl
@[simp] theorem setRecv_errs (s : State) (x : HRecv) : (setRecv s x).errs = s.errs := rfl
@[simp] theorem setRecv_par (s : State) (x : HRecv) : (setRecv s x).par = s.par := rfl
@[simp] theorem setRecv_nanPol (s : State) (x : HRecv) : (setRecv s x).nanPol = s.nanPol := rfl
@[simp] theorem setRecv_nanPolAt (s : State) (x : HRecv) : (setRecv s x).nanPolAt = s.nanPolAt := rfl
@[simp] theorem setRecv_floor (s : State) (x : HRecv) : (setRecv s x).floor = s.floor := rfl
@[simp] theorem setRecv_floorAt (s : State) (x : HRecv) : (setRecv s x).floorAt = s.floorAt := rfl
@[simp] theorem setRecv_mons (s : State) (x : HRecv) : (setRecv s x).mons = s.mons := rfl
@[simp] theorem setRecv_elands (s : State) (x : HRecv) : (setRecv s x).elands = s.elands := rfl
@[simp] theorem setRecv_engines (s : State) (x : HRecv) : (setRecv s x).engines = s.engines := rfl
@[simp] theorem setRecv_tiles (s : State) (x : HRecv) : (setRecv s x).tiles = s.tiles := rfl
@[simp] theorem setRecv_cells (s : State) (x : HRecv) : (setRecv s x).cells = s.cells := rfl
@[simp] theorem setRecv_chams (s : State) (x : HRecv) : (setRecv s x).chams = s.chams := rfl
@[simp] theorem setRecv_doms (s : State) (x : HRecv) : (setRecv s x).doms = s.doms := rfl
@[simp] theorem setRecv_phases (s : State) (x : HRecv) : (setRecv s x).phases = s.phases := rfl
@[simp] theorem setRecv_beats (s : State) (x : HRecv) : (setRecv s x).beats = s.beats := rfl
@[simp] theorem setRecv_injs (s : State) (x : HRecv) : (setRecv s x).injs = s.injs := rfl
@[simp] theorem setRecv_takes (s : State) (x : HRecv) : (setRecv s x).takes = s.takes := rfl
@[simp] theorem setRecv_nextId (s : State) (x : HRecv) : (setRecv s x).nextId = s.nextId := rfl
@[simp] theorem setRecv_incrs (s : State) (x : HRecv) : (setRecv s x).incrs = s.incrs := rfl
@[simp] theorem setRecv_raised (s : State) (x : HRecv) : (setRecv s x).raised = s.raised := rfl
@[simp] theorem setRecv_unacked (s : State) (x : HRecv) : (setRecv s x).unacked = s.unacked := rfl
@[simp] theorem setRecv_logSeq (s : State) (x : HRecv) : (setRecv s x).logSeq = s.logSeq := rfl
@[simp] theorem setRecv_xfers (s : State) (x : HRecv) : (setRecv s x).xfers = s.xfers := rfl
@[simp] theorem setRecv_packets (s : State) (x : HRecv) : (setRecv s x).packets = s.packets := rfl
@[simp] theorem setRecv_arrivals (s : State) (x : HRecv) : (setRecv s x).arrivals = s.arrivals := rfl
@[simp] theorem setRecv_fLines (s : State) (x : HRecv) : (setRecv s x).fLines = s.fLines := rfl
@[simp] theorem setRecv_tokSubs (s : State) (x : HRecv) : (setRecv s x).tokSubs = s.tokSubs := rfl
@[simp] theorem setRecv_hbmq (s : State) (x : HRecv) : (setRecv s x).hbmq = s.hbmq := rfl
@[simp] theorem setRecv_red (s : State) (x : HRecv) : (setRecv s x).red = s.red := rfl
@[simp] theorem setRecv_linkFails (s : State) (x : HRecv) : (setRecv s x).linkFails = s.linkFails := rfl
@[simp] theorem setRecv_redSent (s : State) (x : HRecv) : (setRecv s x).redSent = s.redSent := rfl
@[simp] theorem setRecv_lanes (s : State) (x : HRecv) : (setRecv s x).lanes = s.lanes := rfl
@[simp] theorem setRecv_depth (s : State) (x : HRecv) : (setRecv s x).depth = s.depth := rfl
@[simp] theorem setRecv_stashQ (s : State) (x : HRecv) : (setRecv s x).stashQ = s.stashQ := rfl
@[simp] theorem setRecv_stashOrd (s : State) (x : HRecv) : (setRecv s x).stashOrd = s.stashOrd := rfl
@[simp] theorem setRecv_streams (s : State) (x : HRecv) : (setRecv s x).streams = s.streams := rfl
@[simp] theorem setRecv_dmas (s : State) (x : HRecv) : (setRecv s x).dmas = s.dmas := rfl
@[simp] theorem setRecv_halts (s : State) (x : HRecv) : (setRecv s x).halts = s.halts := rfl
@[simp] theorem setRecv_haltSeq (s : State) (x : HRecv) : (setRecv s x).haltSeq = s.haltSeq := rfl
@[simp] theorem setRecv_haltWait (s : State) (x : HRecv) : (setRecv s x).haltWait = s.haltWait := rfl
@[simp] theorem setRecv_buckets (s : State) (x : HRecv) : (setRecv s x).buckets = s.buckets := rfl
@[simp] theorem setRecv_tlb (s : State) (x : HRecv) : (setRecv s x).tlb = s.tlb := rfl
@[simp] theorem setRecv_cache (s : State) (x : HRecv) : (setRecv s x).cache = s.cache := rfl
@[simp] theorem setRecv_scrubAt (s : State) (x : HRecv) : (setRecv s x).scrubAt = s.scrubAt := rfl
@[simp] theorem setRecv_thrAt (s : State) (x : HRecv) : (setRecv s x).thrAt = s.thrAt := rfl
@[simp] theorem setRecv_draws (s : State) (x : HRecv) : (setRecv s x).draws = s.draws := rfl
@[simp] theorem setRecv_clk (s : State) (x : HRecv) : (setRecv s x).clk = s.clk := rfl
@[simp] theorem setRecv_boot (s : State) (x : HRecv) : (setRecv s x).boot = s.boot := rfl
@[simp] theorem setRecv_sec (s : State) (x : HRecv) : (setRecv s x).sec = s.sec := rfl
@[simp] theorem setRecv_spp (s : State) (x : HRecv) : (setRecv s x).spp = s.spp := rfl
@[simp] theorem setRecv_gauge (s : State) (x : HRecv) : (setRecv s x).gauge = s.gauge := rfl
@[simp] theorem setRecv_herd (s : State) (x : HRecv) : (setRecv s x).herd = s.herd := rfl
@[simp] theorem setRecv_snap (s : State) (x : HRecv) : (setRecv s x).snap = s.snap := rfl
@[simp] theorem setRecv_outbox (s : State) (x : HRecv) : (setRecv s x).outbox = s.outbox := rfl
@[simp] theorem setRecv_wstatus (s : State) (x : HRecv) : (setRecv s x).wstatus = s.wstatus := rfl

@[simp] theorem getColl_setColl_same (s : State) (k : Nat) (x : Coll) : getColl (setColl s k x) k = x := by simp [getColl, setColl]
theorem getColl_setColl_other (s : State) {k j : Nat} (x : Coll) (h : k ≠ j) : getColl (setColl s k x) j = getColl s j := by simp [getColl, setColl, SMap.get_set, h]
@[simp] theorem getPort_setPort_same (s : State) (k : Nat) (x : PortSt) : getPort (setPort s k x) k = x := by simp [getPort, setPort]
theorem getPort_setPort_other (s : State) {k j : Nat} (x : PortSt) (h : k ≠ j) : getPort (setPort s k x) j = getPort s j := by simp [getPort, setPort, SMap.get_set, h]
@[simp] theorem getFlow_setFlow_same (s : State) (k : Nat) (x : HFlow) : getFlow (setFlow s k x) k = x := by simp [getFlow, setFlow]
theorem getFlow_setFlow_other (s : State) {k j : Nat} (x : HFlow) (h : k ≠ j) : getFlow (setFlow s k x) j = getFlow s j := by simp [getFlow, setFlow, SMap.get_set, h]
@[simp] theorem getReg_setReg_same (s : State) (k : Nat) (x : RegEntry) : getReg (setReg s k x) k = x := by simp [getReg, setReg]
theorem getReg_setReg_other (s : State) {k j : Nat} (x : RegEntry) (h : k ≠ j) : getReg (setReg s k x) j = getReg s j := by simp [getReg, setReg, SMap.get_set, h]
@[simp] theorem getSnapD_setSnapD_same (s : State) (k : Nat) (x : SnapDom) : getSnapD (setSnapD s k x) k = x := by simp [getSnapD, setSnapD]
theorem getSnapD_setSnapD_other (s : State) {k j : Nat} (x : SnapDom) (h : k ≠ j) : getSnapD (setSnapD s k x) j = getSnapD s j := by simp [getSnapD, setSnapD, SMap.get_set, h]

@[simp] theorem getColl_setPort (s : State) (j : Nat) (k : Nat) (x : PortSt) : getColl (setPort s k x) j = getColl s j := rfl
@[simp] theorem getColl_setFlow (s : State) (j : Nat) (k : Nat) (x : HFlow) : getColl (setFlow s k x) j = getColl s j := rfl
@[simp] theorem getColl_setReg (s : State) (j : Nat) (k : Nat) (x : RegEntry) : getColl (setReg s k x) j = getColl s j := rfl
@[simp] theorem getColl_setSnapD (s : State) (j : Nat) (k : Nat) (x : SnapDom) : getColl (setSnapD s k x) j = getColl s j := rfl
@[simp] theorem getColl_setDepth (s : State) (j : Nat) (a b : Nat) (x : List Nat) : getColl (setDepth s a b x) j = getColl s j := rfl
@[simp] theorem getColl_setRecv (s : State) (j : Nat) (x : HRecv) : getColl (setRecv s x) j = getColl s j := rfl
@[simp] theorem getPort_setColl (s : State) (j : Nat) (k : Nat) (x : Coll) : getPort (setColl s k x) j = getPort s j := rfl
@[simp] theorem getPort_setFlow (s : State) (j : Nat) (k : Nat) (x : HFlow) : getPort (setFlow s k x) j = getPort s j := rfl
@[simp] theorem getPort_setReg (s : State) (j : Nat) (k : Nat) (x : RegEntry) : getPort (setReg s k x) j = getPort s j := rfl
@[simp] theorem getPort_setSnapD (s : State) (j : Nat) (k : Nat) (x : SnapDom) : getPort (setSnapD s k x) j = getPort s j := rfl
@[simp] theorem getPort_setDepth (s : State) (j : Nat) (a b : Nat) (x : List Nat) : getPort (setDepth s a b x) j = getPort s j := rfl
@[simp] theorem getPort_setRecv (s : State) (j : Nat) (x : HRecv) : getPort (setRecv s x) j = getPort s j := rfl
@[simp] theorem getFlow_setColl (s : State) (j : Nat) (k : Nat) (x : Coll) : getFlow (setColl s k x) j = getFlow s j := rfl
@[simp] theorem getFlow_setPort (s : State) (j : Nat) (k : Nat) (x : PortSt) : getFlow (setPort s k x) j = getFlow s j := rfl
@[simp] theorem getFlow_setReg (s : State) (j : Nat) (k : Nat) (x : RegEntry) : getFlow (setReg s k x) j = getFlow s j := rfl
@[simp] theorem getFlow_setSnapD (s : State) (j : Nat) (k : Nat) (x : SnapDom) : getFlow (setSnapD s k x) j = getFlow s j := rfl
@[simp] theorem getFlow_setDepth (s : State) (j : Nat) (a b : Nat) (x : List Nat) : getFlow (setDepth s a b x) j = getFlow s j := rfl
@[simp] theorem getFlow_setRecv (s : State) (j : Nat) (x : HRecv) : getFlow (setRecv s x) j = getFlow s j := rfl
@[simp] theorem getReg_setColl (s : State) (j : Nat) (k : Nat) (x : Coll) : getReg (setColl s k x) j = getReg s j := rfl
@[simp] theorem getReg_setPort (s : State) (j : Nat) (k : Nat) (x : PortSt) : getReg (setPort s k x) j = getReg s j := rfl
@[simp] theorem getReg_setFlow (s : State) (j : Nat) (k : Nat) (x : HFlow) : getReg (setFlow s k x) j = getReg s j := rfl
@[simp] theorem getReg_setSnapD (s : State) (j : Nat) (k : Nat) (x : SnapDom) : getReg (setSnapD s k x) j = getReg s j := rfl
@[simp] theorem getReg_setDepth (s : State) (j : Nat) (a b : Nat) (x : List Nat) : getReg (setDepth s a b x) j = getReg s j := rfl
@[simp] theorem getReg_setRecv (s : State) (j : Nat) (x : HRecv) : getReg (setRecv s x) j = getReg s j := rfl
@[simp] theorem getSnapD_setColl (s : State) (j : Nat) (k : Nat) (x : Coll) : getSnapD (setColl s k x) j = getSnapD s j := rfl
@[simp] theorem getSnapD_setPort (s : State) (j : Nat) (k : Nat) (x : PortSt) : getSnapD (setPort s k x) j = getSnapD s j := rfl
@[simp] theorem getSnapD_setFlow (s : State) (j : Nat) (k : Nat) (x : HFlow) : getSnapD (setFlow s k x) j = getSnapD s j := rfl
@[simp] theorem getSnapD_setReg (s : State) (j : Nat) (k : Nat) (x : RegEntry) : getSnapD (setReg s k x) j = getSnapD s j := rfl
@[simp] theorem getSnapD_setDepth (s : State) (j : Nat) (a b : Nat) (x : List Nat) : getSnapD (setDepth s a b x) j = getSnapD s j := rfl
@[simp] theorem getSnapD_setRecv (s : State) (j : Nat) (x : HRecv) : getSnapD (setRecv s x) j = getSnapD s j := rfl
@[simp] theorem getP_setColl (s : State) (j : Nat) (k : Nat) (x : Coll) : getP (setColl s k x) j = getP s j := rfl
@[simp] theorem getP_setPort (s : State) (j : Nat) (k : Nat) (x : PortSt) : getP (setPort s k x) j = getP s j := rfl
@[simp] theorem getP_setFlow (s : State) (j : Nat) (k : Nat) (x : HFlow) : getP (setFlow s k x) j = getP s j := rfl
@[simp] theorem getP_setReg (s : State) (j : Nat) (k : Nat) (x : RegEntry) : getP (setReg s k x) j = getP s j := rfl
@[simp] theorem getP_setSnapD (s : State) (j : Nat) (k : Nat) (x : SnapDom) : getP (setSnapD s k x) j = getP s j := rfl
@[simp] theorem getP_setDepth (s : State) (j : Nat) (a b : Nat) (x : List Nat) : getP (setDepth s a b x) j = getP s j := rfl
@[simp] theorem getP_setRecv (s : State) (j : Nat) (x : HRecv) : getP (setRecv s x) j = getP s j := rfl

end Sys2Proof.Machine
end

