-- ==== Sys2Proof/Laws/Memory.lean ====
section
/-!
SUPPORT. The laws of memory: a read after a write, what a write leaves alone, and that every operation on memory and
its poison marks keeps the canonical form.
-/
namespace Sys2Proof.Machine

/-! ### Bytes -/

/-- Bytes outside the stored run read as before. -/
theorem get_storeBytes_outside (bs : List Byte) : ∀ (m : List Host.Cell) (pa a : Nat), a < pa ∨ pa + bs.length ≤ a →
    SMap.get 0 (storeBytes m pa bs) a = SMap.get 0 m a := by
  induction bs with
  | nil => intros; rfl
  | cons b r ih =>
    intro m pa a h
    simp only [List.length_cons] at h
    simp only [storeBytes]
    rw [ih _ _ _ (by omega), SMap.get_set_other _ _ _ _ _ (by omega)]

/-- Byte i of the stored run reads back. -/
theorem get_storeBytes_inside (bs : List Byte) : ∀ (m : List Host.Cell) (pa i : Nat), i < bs.length →
    SMap.get 0 (storeBytes m pa bs) (pa + i) = bs.getD i 0 := by
  induction bs with
  | nil => intro _ _ i h; exact absurd h (Nat.not_lt_zero i)
  | cons b r ih =>
    intro m pa i h
    simp only [storeBytes]
    cases i with
    | zero =>
      rw [get_storeBytes_outside _ _ _ _ (by omega)]
      simp
    | succ i =>
      have := ih (SMap.set 0 m pa b) (pa + 1) i (by simpa using h)
      rw [show pa + (i + 1) = pa + 1 + i from by omega, this]
      rfl

/-- Storing keeps the canonical form. -/
theorem wf_storeBytes (bs : List Byte) : ∀ (m : List Host.Cell) (pa : Nat), Memory.wf m = true →
    Memory.wf (storeBytes m pa bs) = true := by
  induction bs with
  | nil => intro m _ h; exact h
  | cons b r ih => intro m pa h; exact ih _ _ (SMap.wf_set pa b h)

/-- A fold of writes keeps the canonical form. -/
theorem wf_foldl {V α : Type} [DecidableEq V] {d : V} (f : SMap V → α → SMap V)
    (hf : ∀ m x, SMap.wf d m = true → SMap.wf d (f m x) = true) (l : List α) :
    ∀ m, SMap.wf d m = true → SMap.wf d (l.foldl f m) = true := by
  induction l with
  | nil => intro m h; exact h
  | cons x r ih => intro m h; exact ih _ (hf m x h)

/-- Marking keeps the canonical form. -/
theorem wf_markPoison (pz : SMap Bool) (pa : Nat) (bs : List Bool) (h : SMap.wf false pz = true) :
    SMap.wf false (markPoison pz pa bs) = true := by
  unfold markPoison
  simp only []
  split
  · exact h
  · exact wf_foldl _ (fun m x hm => SMap.wf_set _ _ hm) _ _ h

/-- A write of bytes keeps memory and marks in their canonical form. -/
theorem storesWf_writeP {s : State} (pa : Nat) (bs : List (Byte × Bool)) (h : StoresWf s) : StoresWf (writeP s pa bs) :=
  ⟨wf_storeBytes _ _ _ h.1, wf_markPoison _ _ _ h.2⟩

/-- A write of bytes leaves every byte outside its run as it was. -/
theorem readByte_writeP_outside (s : State) (pa a : Nat) (bs : List (Byte × Bool)) (h : a < pa ∨ pa + bs.length ≤ a) :
    readByte (writeP s pa bs) a = readByte s a :=
  get_storeBytes_outside _ _ _ _ (by simpa using h)

/-- A written byte reads back. -/
theorem readByte_writeP_inside (s : State) (pa i : Nat) (bs : List (Byte × Bool)) (h : i < bs.length) :
    readByte (writeP s pa bs) (pa + i) = (bs.map (·.1)).getD i 0 :=
  get_storeBytes_inside _ _ _ _ (by simpa using h)

theorem sameMemoryBut_writeP (s : State) (pa : Nat) (bs : List (Byte × Bool)) :
    SameMemoryBut pa bs.length s (writeP s pa bs) := fun a h => readByte_writeP_outside s pa a bs h

@[simp] theorem readByte_setP (s : State) (k v a : Nat) : readByte (setP s k v) a = readByte s a := rfl
@[simp] theorem readByte_incP (s : State) (k v a : Nat) : readByte (incP s k v) a = readByte s a := rfl

/-- States with the same memory and marks are canonical together. -/
theorem storesWf_of_eq {s t : State} (hm : t.mem = s.mem) (hp : t.poison = s.poison) (h : StoresWf s) : StoresWf t := by
  unfold StoresWf at *; rw [hm, hp]; exact h

/-- States with the same memory read the same. -/
theorem sameMemory_of_eq {s t : State} (hm : t.mem = s.mem) : SameMemory s t := by
  intro a; simp [readByte, hm]

theorem SameMemory.refl (s : State) : SameMemory s s := fun _ => rfl
theorem SameMemory.trans {s t u : State} (h : SameMemory s t) (k : SameMemory t u) : SameMemory s u :=
  fun a => (k a).trans (h a)

/-! ### Folds over the state -/

/-- A property that each step of a fold keeps holds after it. -/
theorem foldl_keeps {α β : Type} (P : β → Prop) (f : β → α → β) (hf : ∀ s x, P s → P (f s x)) (l : List α) :
    ∀ s, P s → P (l.foldl f s) := by
  induction l with
  | nil => intro s h; exact h
  | cons x r ih => intro s h; exact ih _ (hf s x h)

/-- What each step of a fold leaves alone the fold leaves alone. -/
theorem foldl_same {α β γ : Type} (g : β → γ) (f : β → α → β) (hf : ∀ s x, g (f s x) = g s) (l : List α) :
    ∀ s, g (l.foldl f s) = g s := by
  induction l with
  | nil => intro s; rfl
  | cons x r ih => intro s; rw [List.foldl_cons, ih, hf]

end Sys2Proof.Machine
end

