-- ==== Sys2Proof/Laws/Issue.lean ====
section
/-!
SUPPORT. What an instruction does at its turn: the whole of `issueE` and `issueC` in one law each, by what the
instruction's own checks and effect answer.
-/
namespace Sys2Proof.Machine

/-- What an issue answers, from what the checks and the effect answered; `y` is the decode entry. -/
def elandAnswer (s : State) (x : Ctx) (slot : Nat) (y : Decoded) : Eff → Host.Outcome State Fault Refusal
  | .ok u => .next (elandDone x slot u)
  | .full => .next (updN s x.c x.n fun z => { z with held := some x.w, decoded := y :: z.decoded.drop 1 })
  | .fault f => .next (issueFault s x f)
  | .faultD f d0 d1 => .next (raise s (elandFault s x f d0 d1))

/-- What an Eland instruction at its turn does. -/
theorem issueE_turn {c : Nat} {n : Needle} {word : W128} {s : State} {x : Ctx} {slot : Nat} {t : State}
    (fx : Ctx → State → Eff) (h : elandTurn c n word s = some (x, slot, t)) :
    ∃ y, issueE (opcodeOf word.toNat) c n word fx s = elandAnswer t x slot y (fx x t) := by
  unfold elandTurn at h
  simp only [] at h
  split at h
  · cases h
  rename_i hc
  split at h
  rotate_left
  · cases h
  rename_i d y hd hy
  split at h
  · cases h
  rename_i hk
  split at h
  · cases h
  rename_i s1 hs1
  split at h
  · cases h
  rename_i hi
  split at h
  · cases h
  rename_i he
  cases h
  simp only [Bool.or_eq_true, not_or, Bool.not_eq_true, decide_eq_true_eq] at hk he
  obtain ⟨⟨⟨⟨h1, h2⟩, h3⟩, h4⟩, h5⟩ := hk
  obtain ⟨⟨e1, e2⟩, e3⟩ := he
  have p2 : y.poison = none := by
    cases hf : y.poison with
    | none => rfl
    | some v => rw [hf] at e2; cases e2
  have p3 : earlyFault (getE (consumeCond s1 c d n) c) (getN (getE (consumeCond s1 c d n) c) n) word.toNat = none := by
    cases hf : earlyFault (getE (consumeCond s1 c d n) c) (getN (getE (consumeCond s1 c d n) c) n) word.toNat with
    | none => rfl
    | some v => rw [hf] at e3; cases e3
  rcases y with ⟨yw, yi, ys, yt, yu, yp, yk, yo⟩
  subst p2
  dsimp only at h2 h4 h5 e1
  refine ⟨⟨yw, yi, ys, yt, yu, none, yk, yo⟩, ?_⟩
  unfold issueE
  simp only [hc, if_false, ne_eq, not_true_eq_false, decide_false, Bool.false_and, Bool.false_eq_true, hd, hy, h1, h2, h3,
    h4, h5, hs1, hi, Bool.or_false]
  unfold issueAt
  simp only [e1, if_false, p3]
  generalize fx _ _ = a
  cases a <;> rfl

/-- An Eland instruction whose checks pass completes. -/
theorem issueE_ok {op c : Nat} {n : Needle} {word : W128} {s : State} {x : Ctx} {slot : Nat} {t u : State}
    {fx : Ctx → State → Eff} (h : elandTurn c n word s = some (x, slot, t)) (ho : opcodeOf word.toNat = op)
    (hf : fx x t = .ok u) : issueE op c n word fx s = .next (elandDone x slot u) := by
  obtain ⟨d, h⟩ := issueE_turn fx h
  rw [← ho, h, hf]; rfl

/-- An Eland instruction whose check fails raises the check's fault. -/
theorem issueE_fault {op c : Nat} {n : Needle} {word : W128} {s : State} {x : Ctx} {slot : Nat} {t : State} {f : Nat}
    {fx : Ctx → State → Eff} (h : elandTurn c n word s = some (x, slot, t)) (ho : opcodeOf word.toNat = op)
    (hf : fx x t = .fault f) : issueE op c n word fx s = .next (issueFault t x f) := by
  obtain ⟨d, h⟩ := issueE_turn fx h
  rw [← ho, h, hf]; rfl

/-- An Eland instruction whose unit queue is full holds its needle (R111). -/
theorem issueE_full {op c : Nat} {n : Needle} {word : W128} {s : State} {x : Ctx} {slot : Nat} {t : State}
    {fx : Ctx → State → Eff} (h : elandTurn c n word s = some (x, slot, t)) (ho : opcodeOf word.toNat = op)
    (hf : fx x t = .full) :
    ∃ y, issueE op c n word fx s =
      .next (updN t x.c x.n fun z => { z with held := some x.w, decoded := y :: z.decoded.drop 1 }) := by
  obtain ⟨d, h⟩ := issueE_turn fx h
  exact ⟨d, by rw [← ho, h, hf]; rfl⟩

/-- Core, needle and word of an instruction at its turn. -/
theorem elandTurn_ctx {c : Nat} {n : Needle} {word : W128} {s : State} {x : Ctx} {slot : Nat} {t : State}
    (h : elandTurn c n word s = some (x, slot, t)) : c < 36 ∧ x.c = c ∧ x.n = n ∧ x.w = word.toNat := by
  unfold elandTurn at h
  simp only [] at h
  split at h
  · cases h
  rename_i hc
  split at h <;> try cases h
  split at h <;> try cases h
  split at h <;> try cases h
  split at h <;> try cases h
  split at h <;> cases h
  exact ⟨by omega, rfl, rfl, rfl⟩

/-- Core and word of a Chamois instruction at its turn. -/
theorem chamTurn_ctx {c : Nat} {word : W64} {s : State} {x : CCtx} {slot : Nat} {t : State}
    (h : chamTurn c word s = some (x, slot, t)) : c < 24 ∧ x.c = c ∧ x.w = word.toNat := by
  unfold chamTurn at h
  simp only [] at h
  split at h
  · cases h
  rename_i hc
  split at h <;> try cases h
  split at h <;> try cases h
  split at h <;> try cases h
  split at h <;> cases h
  exact ⟨by omega, rfl, rfl⟩

/-- What a Chamois issue answers, from what the checks and the effect answered. -/
def chamAnswer (s : State) (x : CCtx) (slot : Nat) : CEff → Host.Outcome State Fault Refusal
  | .ok u => .next (chamDone x slot u)
  | .fault f => .next (raise s (chamFault s x.c x.d x.off f x.w 0))
  | .faultD f d0 d1 u => .next (raise u (chamFault u x.c x.d x.off f d0 d1))
  | .poison => .next (raise (freeBits (freeBits s 64).2 64).2
      (chamFault (freeBits (freeBits s 64).2 64).2 x.c x.d x.off 0x0B (freeBits s 64).1 (freeBits (freeBits s 64).2 64).1))

/-- What a Chamois instruction at its turn does. -/
theorem issueC_turn {c : Nat} {word : W64} {s : State} {x : CCtx} {slot : Nat} {t : State} (fx : CCtx → State → CEff)
    (h : chamTurn c word s = some (x, slot, t)) :
    issueC (opcodeOf word.toNat) c word fx s = chamAnswer t x slot (fx x t) := by
  unfold chamTurn at h
  simp only [] at h
  split at h
  · cases h
  rename_i hc
  split at h
  rotate_left
  · cases h
  rename_i d y hd hy
  split at h
  · cases h
  rename_i hk
  split at h
  · cases h
  rename_i s1 hs1
  split at h
  · cases h
  rename_i he
  cases h
  simp only [Bool.or_eq_true, not_or, Bool.not_eq_true, decide_eq_true_eq] at hk he
  obtain ⟨⟨⟨h1, h2⟩, h3⟩, h4⟩ := hk
  obtain ⟨⟨⟨⟨⟨e1, e2⟩, e3⟩, e4⟩, e5⟩, e6⟩ := he
  have p4 : y.poison = none := by
    cases hf : y.poison with
    | none => rfl
    | some v => rw [hf] at e4; cases e4
  rcases y with ⟨yw, yi, ys, yt, yu, yp, yk, yo⟩
  subst p4
  dsimp only at h2 h3 h4
  unfold issueC
  simp only [hc, if_false, ne_eq, not_true_eq_false, decide_false, Bool.false_and, Bool.false_eq_true, hd, hy, h1, h2, h3,
    h4, hs1, e1, e2, Bool.or_false]
  unfold issueAtC
  simp only [e3, if_false, e5, e6, Bool.false_eq_true]
  generalize fx _ _ = a
  cases a <;> rfl

/-- A Chamois instruction whose checks pass completes. -/
theorem issueC_ok {op c : Nat} {word : W64} {s : State} {x : CCtx} {slot : Nat} {t u : State}
    {fx : CCtx → State → CEff} (h : chamTurn c word s = some (x, slot, t)) (ho : opcodeOf word.toNat = op)
    (hf : fx x t = .ok u) : issueC op c word fx s = .next (chamDone x slot u) := by
  rw [← ho, issueC_turn fx h, hf]; rfl

end Sys2Proof.Machine
end

