-- ==== Sys2Proof/Laws/Lanes.lean ====
section
/-!
SUPPORT. The lanes of a vector register built from a list of lanes: each reads back as it was given.
-/
namespace Sys2Proof.Machine

/-- A field of `w` bits placed above what is there leaves the fields below alone. -/
theorem field_below {n b w k i : Nat} (h : i < k) : (n + b * 2 ^ (w * k)) / 2 ^ (w * i) % 2 ^ w = n / 2 ^ (w * i) % 2 ^ w := by
  have e : 2 ^ (w * k) = 2 ^ (w * i) * (2 ^ w * 2 ^ (w * (k - i - 1))) := by
    rw [← Nat.pow_add, ← Nat.pow_add]
    congr 1
    obtain ⟨m, rfl⟩ : ∃ m, k = i + 1 + m := ⟨k - i - 1, by omega⟩
    have : i + 1 + m - i - 1 = m := by omega
    rw [this, Nat.mul_add, Nat.mul_add, Nat.mul_one]
    omega
  have e2 : b * 2 ^ (w * k) = 2 ^ (w * i) * (2 ^ w * (b * 2 ^ (w * (k - i - 1)))) := by
    rw [e, Nat.mul_left_comm b, Nat.mul_left_comm b]
  rw [e2, Nat.add_mul_div_left _ _ (Nat.two_pow_pos _), Nat.add_mul_mod_self_left]

/-- A field placed above what is there reads back. -/
theorem field_at {n b w k : Nat} (h : n < 2 ^ (w * k)) (hb : b < 2 ^ w) : (n + b * 2 ^ (w * k)) / 2 ^ (w * k) % 2 ^ w = b := by
  rw [Nat.add_mul_div_right _ _ (Nat.two_pow_pos _), Nat.div_eq_of_lt h, Nat.zero_add, Nat.mod_eq_of_lt hb]

theorem field_lt {n b w k : Nat} (h : n < 2 ^ (w * k)) (hb : b < 2 ^ w) : n + b * 2 ^ (w * k) < 2 ^ (w * (k + 1)) := by
  rw [Nat.mul_add, Nat.mul_one, Nat.pow_add]
  calc n + b * 2 ^ (w * k) < 2 ^ (w * k) + b * 2 ^ (w * k) := Nat.add_lt_add_right h _
    _ = (b + 1) * 2 ^ (w * k) := by rw [Nat.add_mul, Nat.one_mul, Nat.add_comm]
    _ ≤ 2 ^ w * 2 ^ (w * k) := Nat.mul_le_mul_right _ hb
    _ = 2 ^ (w * k) * 2 ^ w := Nat.mul_comm _ _

/-- One step of the fold of `ofLanes`. -/
def laneStep (a : Nat × Nat × Nat) (x : Nat × Bool) : Nat × Nat × Nat :=
  (a.1 + 1, a.2.1 + (x.1 % 2 ^ 32) <<< (32 * a.1), a.2.2 + if x.2 then 2 ^ a.1 else 0)

theorem ofLanes_eq (l : List (Nat × Bool)) :
    ofLanes l = ⟨BitVec.ofNat 4096 (l.foldl laneStep (0, 0, 0)).2.1, BitVec.ofNat 128 (l.foldl laneStep (0, 0, 0)).2.2⟩ := rfl

theorem laneStep_fold (l : List (Nat × Bool)) : ∀ (k n p : Nat), n < 2 ^ (32 * k) → p < 2 ^ (1 * k) →
    let r := l.foldl laneStep (k, n, p)
    r.2.1 < 2 ^ (32 * (k + l.length)) ∧ r.2.2 < 2 ^ (1 * (k + l.length)) ∧
    (∀ i, i < k → r.2.1 / 2 ^ (32 * i) % 2 ^ 32 = n / 2 ^ (32 * i) % 2 ^ 32 ∧
      r.2.2 / 2 ^ (1 * i) % 2 ^ 1 = p / 2 ^ (1 * i) % 2 ^ 1) ∧
    (∀ i, i < l.length → r.2.1 / 2 ^ (32 * (k + i)) % 2 ^ 32 = (l.getD i (0, false)).1 % 2 ^ 32 ∧
      r.2.2 / 2 ^ (1 * (k + i)) % 2 ^ 1 = (if (l.getD i (0, false)).2 then 1 else 0)) := by
  induction l with
  | nil =>
    intro k n p hn hp
    exact ⟨hn, hp, fun i _ => ⟨rfl, rfl⟩, fun i h => absurd h (Nat.not_lt_zero i)⟩
  | cons x l ih =>
    intro k n p hn hp
    have hb : x.1 % 2 ^ 32 < 2 ^ 32 := Nat.mod_lt _ (by decide)
    have hq : (if x.2 then 1 else 0) < 2 ^ 1 := by split <;> decide
    have ep : p + (if x.2 then 2 ^ k else 0) = p + (if x.2 then 1 else 0) * 2 ^ (1 * k) := by
      split <;> simp
    have h1 := field_lt hn hb
    have h2 := field_lt hp hq
    have := ih (k + 1) (n + (x.1 % 2 ^ 32) * 2 ^ (32 * k)) (p + (if x.2 then 1 else 0) * 2 ^ (1 * k)) h1 h2
    rw [List.foldl_cons]
    have es : laneStep (k, n, p) x = (k + 1, n + (x.1 % 2 ^ 32) * 2 ^ (32 * k), p + (if x.2 then 1 else 0) * 2 ^ (1 * k)) := by
      unfold laneStep
      rw [Nat.shiftLeft_eq, ep]
    rw [es]
    obtain ⟨a, b, c, d⟩ := this
    have el : k + (x :: l).length = k + 1 + l.length := by simp; omega
    refine ⟨by rw [el]; exact a, by rw [el]; exact b, ?_, ?_⟩
    · intro i hi
      obtain ⟨c1, c2⟩ := c i (by omega)
      exact ⟨by rw [c1, field_below hi], by rw [c2, field_below hi]⟩
    · intro i hi
      cases i with
      | zero =>
        obtain ⟨c1, c2⟩ := c k (by omega)
        exact ⟨c1.trans (field_at hn hb), c2.trans (field_at hp hq)⟩
      | succ i =>
        have hi' : i < l.length := by simpa using hi
        have e3 : k + (i + 1) = k + 1 + i := by omega
        rw [e3]
        simpa using d i hi'

/-- Lane `i` of a register built from 128 lanes. -/
theorem laneBitsOf_ofLanes (l : List (Nat × Bool)) (hl : l.length = 128) (i : Nat) (hi : i < 128) :
    laneBitsOf (ofLanes l) i = (l.getD i (0, false)).1 % 2 ^ 32 := by
  obtain ⟨a, _, _, d⟩ := laneStep_fold l 0 0 0 (by decide) (by decide)
  have := (d i (by omega)).1
  rw [hl, (rfl : 32 * (0 + 128) = 4096)] at a
  rw [ofLanes_eq, laneBitsOf, Nat.shiftRight_eq_div_pow, BitVec.toNat_ofNat]
  simp only [Nat.zero_add] at this
  rw [Nat.mod_eq_of_lt a]
  exact this

/-- Its poison mark. -/
theorem mark_ofLanes (l : List (Nat × Bool)) (hl : l.length = 128) (i : Nat) (hi : i < 128) :
    (ofLanes l).p.toNat.testBit i = (l.getD i (0, false)).2 := by
  obtain ⟨_, b, _, d⟩ := laneStep_fold l 0 0 0 (by decide) (by decide)
  have := (d i (by omega)).2
  rw [hl, (rfl : 1 * (0 + 128) = 128)] at b
  rw [ofLanes_eq]
  simp only [BitVec.toNat_ofNat]
  rw [Nat.mod_eq_of_lt b, Nat.testBit_eq_decide_div_mod_eq]
  simp only [Nat.zero_add, Nat.one_mul, Nat.pow_one] at this
  rw [this]
  cases (l.getD i (0, false)).2 <;> rfl

end Sys2Proof.Machine
end

