-- ==== Sys2Proof/Laws/Sound.lean ====
section
/-!
SUPPORT. What every operation keeps: memory and poison marks stay in their canonical form, and the queue of commands
    is
left alone. `Sound q s` says both of a state; the lemmas here lift it to the answers that operations give.
-/
namespace Sys2Proof.Machine

/-- What is asked of a state: that its stores are canonical, if `stores` says so, and that its queue is `queue`. -/
structure Want where
  stores : Bool
  queue  : List Instr

/-- Memory and marks are canonical where that is asked, and the queue is the one asked for. -/
def Sound (q : Want) (s : State) : Prop := (q.stores = true → StoresWf s) ∧ s.pending = q.queue

/-- Every state an operation may answer is sound. -/
def OptK (q : Want) (o : Option State) : Prop := ∀ t, o = some t → Sound q t
def OutK (q : Want) (o : Host.Outcome State Fault Refusal) : Prop := ∀ t, o = .next t → Sound q t
def PairK {α : Type} (q : Want) (x : α × State) : Prop := Sound q x.2
def EffK (q : Want) (e : Eff) : Prop := ∀ t, e = .ok t → Sound q t
def CEffK (q : Want) (e : CEff) : Prop := ∀ t, (e = .ok t ∨ ∃ a b c, e = .faultD a b c t) → Sound q t

theorem optK_none {q : Want} : OptK q none := fun _ e => by cases e
theorem optK_some {q : Want} {s : State} (h : Sound q s) : OptK q (some s) := fun _ e => Option.some.inj e ▸ h
theorem OptK.elim {q : Want} {o : Option State} {t : State} (e : o = some t) (h : OptK q o) : Sound q t := h t e
theorem outK_next {q : Want} {s : State} (h : Sound q s) : OutK q (.next s) := fun _ e => Host.Outcome.next.inj
    e ▸ h
theorem outK_fault {q : Want} {f : Fault} : OutK q (.fault f) := fun _ e => by cases e
theorem outK_refused {q : Want} {f : Refusal} : OutK q (.refused f) := fun _ e => by cases e
theorem OutK.elim {q : Want} {o : Host.Outcome State Fault Refusal} {t : State} (e : o = .next t) (h : OutK q o)
    :
    Sound q t := h t e
theorem pairK_mk {α : Type} {q : Want} {a : α} {s : State} (h : Sound q s) : PairK q (a, s) := h
theorem PairK.elim {α : Type} {q : Want} {x : α × State} {a : α} {t : State} (e : x = (a, t)) (h : PairK q x) :
    Sound q t := by subst e; exact h
theorem PairK.snd {α : Type} {q : Want} {x : α × State} (h : PairK q x) : Sound q x.2 := h
def Pair3K {α β : Type} (q : Want) (x : α × β × State) : Prop := Sound q x.2.2
theorem pair3K_mk {α β : Type} {q : Want} {a : α} {b : β} {s : State} (h : Sound q s) : Pair3K q (a, b, s) := h
theorem Pair3K.elim {α β : Type} {q : Want} {x : α × β × State} {a : α} {b : β} {t : State} (e : x = (a, b, t))
    (h : Pair3K q x) : Sound q t := by subst e; exact h
def FstK {α : Type} (q : Want) (x : State × α) : Prop := Sound q x.1
theorem fstK_mk {α : Type} {q : Want} {a : α} {s : State} (h : Sound q s) : FstK q (s, a) := h
theorem FstK.elim {α : Type} {q : Want} {x : State × α} {a : α} {t : State} (e : x = (t, a)) (h : FstK q x) :
    Sound q t := by subst e; exact h
def MidK {α β : Type} (q : Want) (x : α × State × β) : Prop := Sound q x.2.1
theorem midK_mk {α β : Type} {q : Want} {a : α} {b : β} {s : State} (h : Sound q s) : MidK q (a, s, b) := h
theorem MidK.elim {α β : Type} {q : Want} {x : α × State × β} {a : α} {b : β} {t : State} (e : x = (a, t, b))
    (h : MidK q x) : Sound q t := by subst e; exact h
theorem Pair3K.snd {α β : Type} {q : Want} {x : α × β × State} (h : Pair3K q x) : Sound q x.2.2 := h
theorem FstK.snd {α : Type} {q : Want} {x : State × α} (h : FstK q x) : Sound q x.1 := h
theorem MidK.snd {α β : Type} {q : Want} {x : α × State × β} (h : MidK q x) : Sound q x.2.1 := h
theorem pairK_iff {α : Type} {q : Want} {a : α} {s : State} : PairK q (a, s) ↔ Sound q s := Iff.rfl
theorem pair3K_iff {α β : Type} {q : Want} {a : α} {b : β} {s : State} : Pair3K q (a, b, s) ↔ Sound q s := Iff.rfl
theorem fstK_iff {α : Type} {q : Want} {a : α} {s : State} : FstK q (s, a) ↔ Sound q s := Iff.rfl
theorem midK_iff {α β : Type} {q : Want} {a : α} {b : β} {s : State} : MidK q (a, s, b) ↔ Sound q s := Iff.rfl
theorem optK_map {q : Want} {o : Option State} {f : State → State} (h : OptK q o)
    (hf : ∀ s, Sound q s → Sound q (f s)) : OptK q (o.map f) := by
  intro t e
  cases o with
  | none => cases e
  | some s => cases e; exact hf s (h s rfl)
theorem pairK_ite {α : Type} {q : Want} {c : Prop} [Decidable c] {a b : α × State} (h : PairK q a) (k : PairK q b) :
    PairK q (if c then a else b) := by split <;> assumption
theorem effK_ok {q : Want} {s : State} (h : Sound q s) : EffK q (.ok s) := fun _ e => Eff.ok.inj e ▸ h
theorem effK_full {q : Want} : EffK q .full := fun _ e => by cases e
theorem effK_fault {q : Want} {n : Nat} : EffK q (.fault n) := fun _ e => by cases e
theorem effK_faultD {q : Want} {a b c : Nat} : EffK q (.faultD a b c) := fun _ e => by cases e
theorem EffK.elim {q : Want} {e : Eff} {t : State} (k : e = .ok t) (h : EffK q e) : Sound q t := h t k
theorem ceffK_ok {q : Want} {s : State} (h : Sound q s) : CEffK q (.ok s) := fun _ e => by
  rcases e with e | ⟨_, _, _, e⟩
  · exact CEff.ok.inj e ▸ h
  · cases e
theorem ceffK_poison {q : Want} : CEffK q .poison := fun _ e => by rcases e with e | ⟨_, _, _, e⟩ <;> cases e
theorem ceffK_fault {q : Want} {n : Nat} : CEffK q (.fault n) := fun _ e => by
  rcases e with e | ⟨_, _, _, e⟩ <;> cases e
theorem ceffK_faultD {q : Want} {a b c : Nat} {s : State} (h : Sound q s) : CEffK q (.faultD a b c s) := fun _ e => by
  rcases e with e | ⟨_, _, _, e⟩
  · cases e
  · cases e; exact h
theorem CEffK.elimOk {q : Want} {e : CEff} {t : State} (k : e = .ok t) (h : CEffK q e) : Sound q t := h t (.inl k)
theorem CEffK.elimFault {q : Want} {e : CEff} {a b c : Nat} {t : State} (k : e = .faultD a b c t) (h : CEffK q e) :
    Sound q t := h t (.inr ⟨_, _, _, k⟩)

/-- An update of any field but memory, marks and queue. -/
theorem sound_mk {q : Want} {s : State} {a1 a2 a3 a4 a7 a8 a9 a10 a11 a12 a13 a14 a15 a16 a17 a18 a19 a20 a21
    a22 a23 a24 a25 a26 a27 a28 a29 a30 a31 a32 a33 a34 a35 a36 a37 a38 a39 a40 a41 a42 a43 a44 a45 a46 a47 a48 a49
    a50 a51 a52 a53 a54 a55 a56 a57 a58 a59 a60 a61 a62} (h : Sound q s) : Sound q ⟨s.pending, a1, a2, a3, a4, s.mem, s.poison,
    a7, a8, a9, a10, a11, a12, a13, a14, a15, a16, a17, a18, a19, a20, a21, a22, a23, a24, a25, a26, a27, a28, a29,
    a30, a31, a32, a33, a34, a35, a36, a37, a38, a39, a40, a41, a42, a43, a44, a45, a46, a47, a48, a49, a50, a51, a52,
    a53, a54, a55, a56, a57, a58, a59, a60, a61, a62⟩ := h
/-- An update of any field but memory, marks and queue, as a rewriting. -/
theorem sound_mk_iff {q : Want} {s : State} {a1 a2 a3 a4 a7 a8 a9 a10 a11 a12 a13 a14 a15 a16 a17 a18 a19 a20 a21
    a22 a23 a24 a25 a26 a27 a28 a29 a30 a31 a32 a33 a34 a35 a36 a37 a38 a39 a40 a41 a42 a43 a44 a45 a46 a47 a48 a49
    a50 a51 a52 a53 a54 a55 a56 a57 a58 a59 a60 a61 a62} :
    Sound q ⟨s.pending, a1, a2, a3, a4, s.mem, s.poison,
    a7, a8, a9, a10, a11, a12, a13, a14, a15, a16, a17, a18, a19, a20, a21, a22, a23, a24, a25, a26, a27, a28, a29,
    a30, a31, a32, a33, a34, a35, a36, a37, a38, a39, a40, a41, a42, a43, a44, a45, a46, a47, a48, a49, a50, a51, a52,
    a53, a54, a55, a56, a57, a58, a59, a60, a61, a62⟩ ↔ Sound q s := Iff.rfl
/-- Memory after a canonical list takes its place. -/
theorem sound_mkMem {q : Want} {s : State} {m : List Host.Cell} {a1 a2 a3 a4 a7 a8 a9 a10 a11 a12 a13 a14 a15
    a16 a17 a18 a19 a20 a21 a22 a23 a24 a25 a26 a27 a28 a29 a30 a31 a32 a33 a34 a35 a36 a37 a38 a39 a40 a41 a42 a43
    a44 a45 a46 a47 a48 a49 a50 a51 a52 a53 a54 a55 a56 a57 a58 a59 a60 a61 a62} (w : q.stores = true → Memory.wf m = true) (h : Sound q s) :
    Sound q ⟨s.pending, a1, a2, a3, a4, m, s.poison, a7, a8, a9, a10, a11, a12, a13, a14, a15, a16, a17, a18, a19,
    a20, a21, a22, a23, a24, a25, a26, a27, a28, a29, a30, a31, a32, a33, a34, a35, a36, a37, a38, a39, a40, a41, a42,
    a43, a44, a45, a46, a47, a48, a49, a50, a51, a52, a53, a54, a55, a56, a57, a58, a59, a60, a61, a62⟩ := ⟨fun k => ⟨w k, (h.1 k).2⟩, h.2⟩
/-- Marks after a canonical store takes their place. -/
theorem sound_mkPoison {q : Want} {s : State} {p : SMap Bool} {a1 a2 a3 a4 a7 a8 a9 a10 a11 a12 a13 a14 a15 a16
    a17 a18 a19 a20 a21 a22 a23 a24 a25 a26 a27 a28 a29 a30 a31 a32 a33 a34 a35 a36 a37 a38 a39 a40 a41 a42 a43 a44
    a45 a46 a47 a48 a49 a50 a51 a52 a53 a54 a55 a56 a57 a58 a59 a60 a61 a62} (w : q.stores = true → SMap.wf false p = true) (h : Sound q s) :
    Sound q ⟨s.pending, a1, a2, a3, a4, s.mem, p, a7, a8, a9, a10, a11, a12, a13, a14, a15, a16, a17, a18, a19, a20,
    a21, a22, a23, a24, a25, a26, a27, a28, a29, a30, a31, a32, a33, a34, a35, a36, a37, a38, a39, a40, a41, a42, a43,
    a44, a45, a46, a47, a48, a49, a50, a51, a52, a53, a54, a55, a56, a57, a58, a59, a60, a61, a62⟩ := ⟨fun k => ⟨(h.1 k).1, w k⟩, h.2⟩

theorem sound_ite {q : Want} {c : Prop} [Decidable c] {a b : State} (h : c → Sound q a) (k : ¬c → Sound q b) :
    Sound q (if c then a else b) := by split <;> simp_all
theorem sound_foldl {α : Type} {q : Want} {f : State → α → State} {l : List α} {s : State}
    (hf : ∀ s x, Sound q s → Sound q (f s x)) (h : Sound q s) : Sound q (l.foldl f s) := by
  exact foldl_keeps (Sound q) f hf l s h
theorem pairK_foldl {α β : Type} {q : Want} {f : β × State → α → β × State} {l : List α} {x : β × State}
    (hf : ∀ x a, Sound q x.2 → PairK q (f x a)) (h : PairK q x) : PairK q (l.foldl f x) :=
  foldl_keeps (PairK q) f hf l x h
theorem fstK_foldl {α β : Type} {q : Want} {f : State × β → α → State × β} {l : List α} {x : State × β}
    (hf : ∀ x a, Sound q x.1 → FstK q (f x a)) (h : FstK q x) : FstK q (l.foldl f x) :=
  foldl_keeps (FstK q) f hf l x h
theorem Sound.mem {q : Want} {s : State} (h : Sound q s) (k : q.stores = true) : Memory.wf s.mem = true := (h.1 k).1
theorem Sound.pz {q : Want} {s : State} (h : Sound q s) (k : q.stores = true) : SMap.wf false s.poison = true := (h.1 k).2

end Sys2Proof.Machine
end

