-- ==== Sys2Proof/Laws/SoundOps.lean ====
section
/-!
SUPPORT. The operations of Ops.lean keep memory and marks canonical and leave the queue alone.
-/
set_option linter.unusedSimpArgs false
set_option linter.unusedVariables false

namespace Sys2Proof.Machine

theorem sound_setP {qs : Want} (s : State) (key v : Nat) (hs : Sound qs s) :
    Sound qs (setP s key v) := by
  unfold setP
  repeat' (first
    | with_reducible assumption
    | simp -zeta only [sound_mk_iff]
    | split)

theorem sound_incP {qs : Want} (s : State) (key n : Nat) (hs : Sound qs s) :
    Sound qs (incP s key n) := by
  unfold incP
  repeat' (first
    | with_reducible assumption
    | with_reducible apply sound_setP
    | split)

theorem sound_setE {qs : Want} (s : State) (c : Nat) (e : Eland) (hs : Sound qs s) :
    Sound qs (setE s c e) := by
  unfold setE
  repeat' (first
    | with_reducible assumption
    | simp -zeta only [sound_mk_iff]
    | split)

theorem sound_updN {qs : Want} (s : State) (c : Nat) (n : Needle) (f : NeedleSt → NeedleSt) (hs : Sound qs s) :
    Sound qs (updN s c n f) := by
  unfold updN
  repeat' (first
    | with_reducible assumption
    | with_reducible apply sound_setE
    | extract_lets
    | split)

theorem sound_setC {qs : Want} (s : State) (c : Nat) (x : Cham) (hs : Sound qs s) :
    Sound qs (setC s c x) := by
  unfold setC
  repeat' (first
    | with_reducible assumption
    | simp -zeta only [sound_mk_iff]
    | split)

theorem sound_setD {qs : Want} (s : State) (d : Nat) (x : Domain) (hs : Sound qs s) :
    Sound qs (setD s d x) := by
  unfold setD
  repeat' (first
    | with_reducible assumption
    | simp -zeta only [sound_mk_iff]
    | split)

theorem sound_setEng {qs : Want} (s : State) (e : Nat) (x : Engine) (hs : Sound qs s) :
    Sound qs (setEng s e x) := by
  unfold setEng
  repeat' (first
    | with_reducible assumption
    | simp -zeta only [sound_mk_iff]
    | split)

theorem sound_setTile {qs : Want} (s : State) (k : Nat) (t : TileSt) (hs : Sound qs s) :
    Sound qs (setTile s k t) := by
  unfold setTile
  repeat' (first
    | with_reducible assumption
    | simp -zeta only [sound_mk_iff]
    | split)

theorem sound_setCell {qs : Want} (s : State) (k : Nat) (c : Cell) (hs : Sound qs s) :
    Sound qs (setCell s k c) := by
  unfold setCell
  repeat' (first
    | with_reducible assumption
    | simp -zeta only [sound_mk_iff]
    | split)

theorem sound_setStream {qs : Want} (s : State) (x : Nat) (v : Stream) (hs : Sound qs s) :
    Sound qs (setStream s x v) := by
  unfold setStream
  repeat' (first
    | with_reducible assumption
    | simp -zeta only [sound_mk_iff]
    | split)

theorem sound_setDma {qs : Want} (s : State) (ch : Nat) (v : Dma) (hs : Sound qs s) :
    Sound qs (setDma s ch v) := by
  unfold setDma
  repeat' (first
    | with_reducible assumption
    | simp -zeta only [sound_mk_iff]
    | split)

theorem sound_setInj {qs : Want} (s : State) (st : Nat) (v : List InjRun) (hs : Sound qs s) :
    Sound qs (setInj s st v) := by
  unfold setInj
  repeat' (first
    | with_reducible assumption
    | simp -zeta only [sound_mk_iff]
    | split)

theorem sound_setTake {qs : Want} (s : State) (d : Dir) (st : Nat) (v : TakeUnit) (hs : Sound qs s) :
    Sound qs (setTake s d st v) := by
  unfold setTake
  repeat' (first
    | with_reducible assumption
    | simp -zeta only [sound_mk_iff]
    | split)

theorem sound_setMon {qs : Want} (s : State) (m : Nat) (v : Monitor) (hs : Sound qs s) :
    Sound qs (setMon s m v) := by
  unfold setMon
  repeat' (first
    | with_reducible assumption
    | simp -zeta only [sound_mk_iff]
    | split)

theorem sound_setTok {qs : Want} (s : State) (u t v : Nat) (hs : Sound qs s) :
    Sound qs (setTok s u t v) := by
  unfold setTok
  repeat' (first
    | with_reducible assumption
    | with_reducible apply sound_setE
    | with_reducible apply sound_setC
    | extract_lets
    | simp -zeta only [sound_mk_iff]
    | split)

theorem sound_addTok {qs : Want} (s : State) (u t n : Nat) (hs : Sound qs s) :
    Sound qs (addTok s u t n) := by
  unfold addTok
  repeat' (first
    | with_reducible assumption
    | with_reducible apply sound_setTok
    | extract_lets
    | simp -zeta only [pairK_iff, pair3K_iff, fstK_iff, midK_iff]
    | simp -zeta only [sound_mk_iff]
    | simp -zeta only []
    | split)

theorem sound_subTok {qs : Want} (s : State) (u t n : Nat) (hs : Sound qs s) :
    Sound qs (subTok s u t n) := by
  unfold subTok
  repeat' (first
    | with_reducible assumption
    | with_reducible apply sound_setTok
    | (refine PairK.elim (by assumption) ?_)
    | (refine FstK.elim (by assumption) ?_)
    | extract_lets
    | simp -zeta only [pairK_iff, pair3K_iff, fstK_iff, midK_iff]
    | simp -zeta only [sound_mk_iff]
    | simp -zeta only []
    | split)

theorem sound_setPresent {qs : Want} (s : State) (u line : Nat) (v : Bool) (hs : Sound qs s) :
    Sound qs (setPresent s u line v) := by
  unfold setPresent
  repeat' (first
    | with_reducible assumption
    | with_reducible apply sound_setE
    | extract_lets
    | simp -zeta only [sound_mk_iff]
    | split)

theorem sound_writeP {q : Want} (s : State) (pa : Nat) (bs : List (Byte × Bool)) (hs : Sound q s) :
    Sound q (writeP s pa bs) := ⟨fun k => storesWf_writeP pa bs (hs.1 k), hs.2⟩

theorem sound_writeLine {qs : Want} (s : State) (pa : Nat) (l : PLine) (hs : Sound qs s) :
    Sound qs (writeLine s pa l) := by
  unfold writeLine
  repeat' (first
    | with_reducible assumption
    | with_reducible apply sound_writeP
    | split)

theorem sound_setCoreLine {qs : Want} (s : State) (u n : Nat) (l : PLine) (hs : Sound qs s) :
    Sound qs (setCoreLine s u n l) := by
  unfold setCoreLine
  repeat' (first
    | with_reducible assumption
    | with_reducible apply sound_writeLine
    | split)

theorem sound_portF {qs : Want} (s : State) (u n : Nat) (l : PLine) (hs : Sound qs s) :
    Sound qs (portF s u n l) := by
  unfold portF
  repeat' (first
    | with_reducible assumption
    | with_reducible apply sound_setCoreLine
    | simp -zeta only [sound_mk_iff]
    | split)

theorem sound_setCoreLines {qs : Want} (s : State) (u line : Nat) (ls : List PLine) (hs : Sound qs s) :
    Sound qs (setCoreLines s u line ls) := by
  unfold setCoreLines
  repeat' (first
    | with_reducible assumption
    | with_reducible apply sound_setCoreLine
    | (with_reducible apply sound_foldl; intro _ _ _)
    | (with_reducible apply pairK_foldl; intro _ _ _)
    | (with_reducible apply PairK.snd; with_reducible apply pairK_foldl; intro _ _ _)
    | (with_reducible apply fstK_foldl; intro _ _ _)
    | (with_reducible apply FstK.snd; with_reducible apply fstK_foldl; intro _ _ _)
    | simp -zeta only [pairK_iff, pair3K_iff, fstK_iff, midK_iff]
    | simp -zeta only []
    | split)

theorem sound_writeRecord {qs : Want} (s : State) (r : Raised) (kind : Nat) (hs : Sound qs s) :
    Sound qs (writeRecord s r kind) := by
  unfold writeRecord
  repeat' (first
    | with_reducible assumption
    | with_reducible apply sound_setP
    | with_reducible apply sound_incP
    | with_reducible apply sound_setD
    | extract_lets
    | simp -zeta only [pairK_iff, pair3K_iff, fstK_iff, midK_iff]
    | simp -zeta only [sound_mk_iff]
    | simp -zeta only []
    | split
    | (with_reducible apply sound_ite)
    | (rename_i y; subst y)
    | (rename_i y _; subst y)
    | (rename_i y _ _; subst y)
    | (rename_i y _ _ _; subst y)
    | (rename_i y _ _ _ _; subst y)
    | (rename_i y _ _ _ _ _; subst y)
    | (rename_i y _ _ _ _ _ _; subst y)
    | (rename_i y _ _ _ _ _ _ _; subst y)
    | (rename_i y _ _ _ _ _ _ _ _; subst y)
    | intro _)

theorem sound_raise {qs : Want} (s : State) (r : Raised) (hs : Sound qs s) :
    Sound qs (raise s r) := by
  unfold raise
  repeat' (first
    | with_reducible assumption
    | with_reducible apply sound_incP
    | with_reducible apply sound_writeRecord
    | simp -zeta only [sound_mk_iff]
    | split)

theorem sound_logError {qs : Want} (s : State) (r : Raised) (counter : Nat) (hs : Sound qs s) :
    Sound qs (logError s r counter) := by
  unfold logError
  repeat' (first
    | with_reducible assumption
    | with_reducible apply sound_incP
    | with_reducible apply sound_writeRecord
    | split)

theorem sound_countNan {qs : Want} (s : State) (sub n d unit : Nat) (hs : Sound qs s) :
    Sound qs (countNan s sub n d unit) := by
  unfold countNan
  repeat' (first
    | with_reducible assumption
    | with_reducible apply sound_setP
    | with_reducible apply sound_incP
    | extract_lets
    | split)

theorem sound_countSat {qs : Want} (s : State) (tensor n : Nat) (hs : Sound qs s) :
    Sound qs (countSat s tensor n) := by
  unfold countSat
  repeat' (first
    | with_reducible assumption
    | with_reducible apply sound_incP
    | with_reducible apply sound_setMon
    | extract_lets
    | simp -zeta only [sound_mk_iff]
    | split)

theorem sound_foldAmax {qs : Want} (s : State) (tensor : Nat) (strand : Option Nat) (xs : List PV) (hs : Sound qs s) :
    Sound qs (foldAmax s tensor strand xs) := by
  unfold foldAmax
  repeat' (first
    | with_reducible assumption
    | with_reducible apply sound_setMon
    | (with_reducible apply sound_foldl; intro _ _ _)
    | (with_reducible apply pairK_foldl; intro _ _ _)
    | (with_reducible apply PairK.snd; with_reducible apply pairK_foldl; intro _ _ _)
    | (with_reducible apply fstK_foldl; intro _ _ _)
    | (with_reducible apply FstK.snd; with_reducible apply fstK_foldl; intro _ _ _)
    | extract_lets
    | simp -zeta only [pairK_iff, pair3K_iff, fstK_iff, midK_iff]
    | simp -zeta only [sound_mk_iff]
    | simp -zeta only []
    | split)

theorem sound_advanceMons {qs : Want} (s : State) (strand : Nat) (hs : Sound qs s) :
    Sound qs (advanceMons s strand) := by
  unfold advanceMons
  repeat' (first
    | with_reducible assumption
    | simp -zeta only [pairK_iff, pair3K_iff, fstK_iff, midK_iff]
    | simp -zeta only [sound_mk_iff]
    | simp -zeta only []
    | split)

theorem sound_freeBits {qs : Want} (s : State) (w : Nat) (hs : Sound qs s) :
    PairK qs (freeBits s w) := by
  unfold freeBits
  repeat' (first
    | with_reducible assumption
    | simp -zeta only [pairK_iff, pair3K_iff, fstK_iff, midK_iff]
    | simp -zeta only [sound_mk_iff]
    | split)

theorem sound_sendIncr {qs : Want} (s : State) (src dom p t n : Nat) (hs : Sound qs s) :
    Sound qs (sendIncr s src dom p t n) := by
  unfold sendIncr
  repeat' (first
    | with_reducible assumption
    | simp -zeta only [sound_mk_iff]
    | split)

theorem sound_freshId {qs : Want} (s : State) (hs : Sound qs s) :
    PairK qs (freshId s) := by
  unfold freshId
  repeat' (first
    | with_reducible assumption
    | simp -zeta only [pairK_iff, pair3K_iff, fstK_iff, midK_iff]
    | simp -zeta only [sound_mk_iff]
    | split)

end Sys2Proof.Machine
end

