-- ==== Sys2Proof/Laws/SoundFlags.lean ====
section
/-!
SUPPORT. The operations of Flags.lean keep memory and marks canonical and leave the queue alone.
-/
set_option linter.unusedSimpArgs false
set_option linter.unusedVariables false

namespace Sys2Proof.Machine

theorem sound_wrote {qs : Want} (s : State) (st : Nat) (s' : State) (hs : Sound qs s) (hs' : Sound qs s') :
    Sound qs (wrote s st s') := by
  unfold wrote
  repeat' (first
    | with_reducible assumption
    | simp -zeta only [sound_mk_iff]
    | split)

theorem sound_noParam {qs : Want} (s : State) (readOnly : Bool) (hs : Sound qs s) :
    Sound qs (noParam s readOnly) := by
  unfold noParam
  repeat' (first
    | with_reducible assumption
    | simp -zeta only [sound_mk_iff]
    | split)

theorem sound_gated {qs : Want} (s : State) (key : Nat) (f : State → Nat × State) (hs : Sound qs s) (hf : ∀ x0, Sound qs x0 → PairK qs (f x0)) :
    Sound qs (gated s key f) := by
  unfold gated
  repeat' (first
    | with_reducible assumption
    | with_reducible apply hf
    | (refine PairK.snd (hf _ ?_))
    | with_reducible apply sound_wrote
    | (refine OptK.elim (by assumption) ?_)
    | (refine PairK.elim (by assumption) ?_)
    | (refine FstK.elim (by assumption) ?_)
    | (refine OutK.elim (by assumption) ?_)
    | extract_lets
    | simp -zeta only [pairK_iff, pair3K_iff, fstK_iff, midK_iff]
    | simp -zeta only []
    | split)

end Sys2Proof.Machine
end

