-- ==== Sys2Proof/Laws/SoundMemory.lean ====
section
/-!
SUPPORT. The operations of Memory.lean keep memory and marks canonical and leave the queue alone.
-/
set_option linter.unusedSimpArgs false
set_option linter.unusedVariables false

namespace Sys2Proof.Machine

theorem sound_deduct {qs : Want} (s : State) (st q c : Nat) (hs : Sound qs s) :
    Sound qs (deduct s st q c) := by
  unfold deduct
  repeat' (first
    | with_reducible assumption
    | with_reducible apply sound_incP
    | extract_lets
    | simp -zeta only [sound_mk_iff]
    | split)

theorem sound_writeRegulator {qs : Want} (s : State) (q sub v : Nat) (hs : Sound qs s) :
    Sound qs (writeRegulator s q sub v) := by
  unfold writeRegulator
  repeat' (first
    | with_reducible assumption
    | with_reducible apply sound_setP
    | (with_reducible apply sound_foldl; intro _ _ _)
    | (with_reducible apply pairK_foldl; intro _ _ _)
    | (with_reducible apply PairK.snd; with_reducible apply pairK_foldl; intro _ _ _)
    | (with_reducible apply fstK_foldl; intro _ _ _)
    | (with_reducible apply FstK.snd; with_reducible apply fstK_foldl; intro _ _ _)
    | extract_lets
    | simp -zeta only [pairK_iff, pair3K_iff, fstK_iff, midK_iff]
    | simp -zeta only [sound_mk_iff]
    | simp -zeta only []
    | split)

theorem sound_freeBytes {qs : Want} (s : State) (n : Nat) (hs : Sound qs s) :
    PairK qs (freeBytes s n) := by
  unfold freeBytes
  repeat' (first
    | with_reducible assumption
    | with_reducible apply sound_freeBits
    | (with_reducible apply PairK.snd; with_reducible apply sound_freeBits)
    | (refine PairK.elim (by assumption) ?_)
    | (refine FstK.elim (by assumption) ?_)
    | extract_lets
    | simp -zeta only [pairK_iff, pair3K_iff, fstK_iff, midK_iff]
    | simp -zeta only []
    | split)

theorem sound_logUncorrectable {qs : Want} (s : State) (unit code pa : Nat) (d : Option Nat) (hs : Sound qs s) :
    Sound qs (logUncorrectable s unit code pa d) := by
  unfold logUncorrectable
  repeat' (first
    | with_reducible assumption
    | with_reducible apply sound_logError
    | simp -zeta only [sound_mk_iff]
    | split)

theorem sound_countCorrected {qs : Want} (s : State) (base : Nat) (hs : Sound qs s) :
    Sound qs (countCorrected s base) := by
  unfold countCorrected
  repeat' (first
    | with_reducible assumption
    | with_reducible apply sound_incP
    | split)

theorem sound_checkSector {qs : Want} (s : State) (base : Nat) (d : Option Nat) (hs : Sound qs s) :
    Sound qs (checkSector s base d) := by
  unfold checkSector
  repeat' (first
    | with_reducible assumption
    | with_reducible apply sound_incP
    | with_reducible apply sound_writeP
    | with_reducible apply sound_freeBits
    | (with_reducible apply PairK.snd; with_reducible apply sound_freeBits)
    | with_reducible apply sound_freeBytes
    | (with_reducible apply PairK.snd; with_reducible apply sound_freeBytes)
    | with_reducible apply sound_logUncorrectable
    | with_reducible apply sound_countCorrected
    | (refine PairK.elim (by assumption) ?_)
    | (refine FstK.elim (by assumption) ?_)
    | extract_lets
    | simp -zeta only [pairK_iff, pair3K_iff, fstK_iff, midK_iff]
    | simp -zeta only [sound_mk_iff]
    | (refine sound_mkMem (fun k => wf_storeBytes _ _ _ (Sound.mem (q := qs) ?_ k)) ?_)
    | simp -zeta only []
    | split
    | (with_reducible apply sound_ite)
    | (rename_i y; subst y)
    | (rename_i y _; subst y)
    | (rename_i y _ _; subst y)
    | (rename_i y _ _ _; subst y)
    | (rename_i y _ _ _ _; subst y)
    | (rename_i y _ _ _ _ _; subst y)
    | (rename_i y _ _ _ _ _ _; subst y)
    | (rename_i y _ _ _ _ _ _ _; subst y)
    | (rename_i y _ _ _ _ _ _ _ _; subst y)
    | intro _)

theorem sound_checkRange {qs : Want} (s : State) (pa n : Nat) (d : Option Nat) (hs : Sound qs s) :
    Sound qs (checkRange s pa n d) := by
  unfold checkRange
  repeat' (first
    | with_reducible assumption
    | with_reducible apply sound_checkSector
    | (with_reducible apply sound_foldl; intro _ _ _)
    | (with_reducible apply pairK_foldl; intro _ _ _)
    | (with_reducible apply PairK.snd; with_reducible apply pairK_foldl; intro _ _ _)
    | (with_reducible apply fstK_foldl; intro _ _ _)
    | (with_reducible apply FstK.snd; with_reducible apply fstK_foldl; intro _ _ _)
    | extract_lets
    | simp -zeta only [pairK_iff, pair3K_iff, fstK_iff, midK_iff]
    | simp -zeta only []
    | split)

theorem sound_checkEdges {qs : Want} (s : State) (pa n : Nat) (d : Option Nat) (hs : Sound qs s) :
    Sound qs (checkEdges s pa n d) := by
  unfold checkEdges
  repeat' (first
    | with_reducible assumption
    | with_reducible apply sound_checkSector
    | extract_lets
    | simp -zeta only [pairK_iff, pair3K_iff, fstK_iff, midK_iff]
    | simp -zeta only []
    | split
    | (with_reducible apply sound_ite)
    | (rename_i y; subst y)
    | (rename_i y _; subst y)
    | (rename_i y _ _; subst y)
    | (rename_i y _ _ _; subst y)
    | (rename_i y _ _ _ _; subst y)
    | (rename_i y _ _ _ _ _; subst y)
    | (rename_i y _ _ _ _ _ _; subst y)
    | (rename_i y _ _ _ _ _ _ _; subst y)
    | (rename_i y _ _ _ _ _ _ _ _; subst y)
    | intro _)

theorem sound_checkLines {qs : Want} (s : State) (u line n d : Nat) (hs : Sound qs s) :
    Sound qs (checkLines s u line n d) := by
  unfold checkLines
  repeat' (first
    | with_reducible assumption
    | with_reducible apply sound_checkRange
    | split)

theorem sound_checkBuffer {qs : Want} (s : State) (unit place code : Nat) (d : Option Nat) (l : PLine) (hs : Sound qs s) :
    PairK qs (checkBuffer s unit place code d l) := by
  unfold checkBuffer
  repeat' (first
    | with_reducible assumption
    | with_reducible apply sound_freeBits
    | (with_reducible apply PairK.snd; with_reducible apply sound_freeBits)
    | with_reducible apply sound_freeBytes
    | (with_reducible apply PairK.snd; with_reducible apply sound_freeBytes)
    | with_reducible apply sound_logUncorrectable
    | with_reducible apply sound_countCorrected
    | (refine PairK.elim (by assumption) ?_)
    | (refine FstK.elim (by assumption) ?_)
    | extract_lets
    | simp -zeta only [pairK_iff, pair3K_iff, fstK_iff, midK_iff]
    | simp -zeta only [sound_mk_iff]
    | simp -zeta only []
    | split
    | (with_reducible apply sound_ite)
    | (rename_i y; subst y)
    | (rename_i y _; subst y)
    | (rename_i y _ _; subst y)
    | (rename_i y _ _ _; subst y)
    | (rename_i y _ _ _ _; subst y)
    | (rename_i y _ _ _ _ _; subst y)
    | (rename_i y _ _ _ _ _ _; subst y)
    | (rename_i y _ _ _ _ _ _ _; subst y)
    | (rename_i y _ _ _ _ _ _ _ _; subst y)
    | intro _)

theorem sound_readBuffer {qs : Want} (s : State) (unit place code d : Nat) (ls : List PLine) (hs : Sound qs s) :
    PairK qs (readBuffer s unit place code d ls) := by
  unfold readBuffer
  repeat' (first
    | with_reducible assumption
    | with_reducible apply sound_checkBuffer
    | (with_reducible apply PairK.snd; with_reducible apply sound_checkBuffer)
    | (with_reducible apply sound_foldl; intro _ _ _)
    | (with_reducible apply pairK_foldl; intro _ _ _)
    | (with_reducible apply PairK.snd; with_reducible apply pairK_foldl; intro _ _ _)
    | (with_reducible apply fstK_foldl; intro _ _ _)
    | (with_reducible apply FstK.snd; with_reducible apply fstK_foldl; intro _ _ _)
    | (refine PairK.elim (by assumption) ?_)
    | (refine FstK.elim (by assumption) ?_)
    | extract_lets
    | simp -zeta only [pairK_iff, pair3K_iff, fstK_iff, midK_iff]
    | simp -zeta only []
    | split)

theorem sound_writeAccWord {qs : Want} (s : State) (pa e off : Nat) (bs : List (Byte × Bool)) (hs : Sound qs s) :
    Sound qs (writeAccWord s pa e off bs) := by
  unfold writeAccWord
  repeat' (first
    | with_reducible assumption
    | with_reducible apply sound_setCell
    | with_reducible apply sound_writeP
    | extract_lets
    | simp -zeta only [sound_mk_iff]
    | split)

theorem sound_writePhys {qs : Want} (s : State) (pa : Nat) (bs : List (Byte × Bool)) (hs : Sound qs s) :
    Sound qs (writePhys s pa bs) := by
  unfold writePhys
  repeat' (first
    | with_reducible assumption
    | with_reducible apply sound_writeP
    | with_reducible apply sound_writeAccWord
    | (with_reducible apply sound_foldl; intro _ _ _)
    | (with_reducible apply pairK_foldl; intro _ _ _)
    | (with_reducible apply PairK.snd; with_reducible apply pairK_foldl; intro _ _ _)
    | (with_reducible apply fstK_foldl; intro _ _ _)
    | (with_reducible apply FstK.snd; with_reducible apply fstK_foldl; intro _ _ _)
    | simp -zeta only [pairK_iff, pair3K_iff, fstK_iff, midK_iff]
    | simp -zeta only []
    | split)

theorem sound_setReg {qs : Want} (s : State) (e : Nat) (v : RegEntry) (hs : Sound qs s) :
    Sound qs (setReg s e v) := by
  unfold setReg
  repeat' (first
    | with_reducible assumption
    | simp -zeta only [sound_mk_iff]
    | split)

theorem sound_setSnapD {qs : Want} (s : State) (d : Nat) (v : SnapDom) (hs : Sound qs s) :
    Sound qs (setSnapD s d v) := by
  unfold setSnapD
  repeat' (first
    | with_reducible assumption
    | simp -zeta only [sound_mk_iff]
    | split)

theorem sound_acceptWrite {qs : Want} (s : State) (d va pa pte born : Nat) (bs : List (Byte × Bool)) (pkt : Option Packet) (hs : Sound qs s) :
    PairK qs (acceptWrite s d va pa pte born bs pkt) := by
  unfold acceptWrite
  repeat' (first
    | with_reducible assumption
    | with_reducible apply sound_writePhys
    | with_reducible apply sound_setReg
    | with_reducible apply sound_setSnapD
    | (refine PairK.elim (by assumption) ?_)
    | (refine FstK.elim (by assumption) ?_)
    | extract_lets
    | simp -zeta only [pairK_iff, pair3K_iff, fstK_iff, midK_iff]
    | simp -zeta only [sound_mk_iff]
    | simp -zeta only []
    | split
    | (with_reducible apply sound_ite)
    | (rename_i y; subst y)
    | (rename_i y _; subst y)
    | (rename_i y _ _; subst y)
    | (rename_i y _ _ _; subst y)
    | (rename_i y _ _ _ _; subst y)
    | (rename_i y _ _ _ _ _; subst y)
    | (rename_i y _ _ _ _ _ _; subst y)
    | (rename_i y _ _ _ _ _ _ _; subst y)
    | (rename_i y _ _ _ _ _ _ _ _; subst y)
    | intro _)

theorem sound_touchCache {qs : Want} (s : State) (pa : Nat) (hs : Sound qs s) :
    Sound qs (touchCache s pa) := by
  unfold touchCache
  repeat' (first
    | with_reducible assumption
    | extract_lets
    | simp -zeta only [pairK_iff, pair3K_iff, fstK_iff, midK_iff]
    | simp -zeta only [sound_mk_iff]
    | simp -zeta only []
    | split)

theorem sound_trimCache {qs : Want} (s : State) (st : Nat) (hs : Sound qs s) :
    Sound qs (trimCache s st) := by
  unfold trimCache
  repeat' (first
    | with_reducible assumption
    | simp -zeta only [pairK_iff, pair3K_iff, fstK_iff, midK_iff]
    | simp -zeta only [sound_mk_iff]
    | simp -zeta only []
    | split)

theorem sound_sendPacket {qs : Want} (s : State) (p : Packet) (hs : Sound qs s) :
    Sound qs (sendPacket s p) := by
  unfold sendPacket
  repeat' (first
    | with_reducible assumption
    | simp -zeta only [sound_mk_iff]
    | split)

theorem sound_narrowRead {qs : Want} (s : State) (pa : Nat) (d : Option Nat) (hs : Sound qs s) :
    Sound qs (narrowRead s pa d) := by
  unfold narrowRead
  repeat' (first
    | with_reducible assumption
    | with_reducible apply sound_incP
    | with_reducible apply sound_checkSector
    | with_reducible apply sound_touchCache
    | extract_lets
    | split)

theorem sound_serveReq {qs : Want} (s : State) (st : Nat) (r : HbmReq) (hs : Sound qs s) :
    Sound qs (serveReq s st r) := by
  unfold serveReq
  repeat' (first
    | with_reducible assumption
    | with_reducible apply sound_incP
    | with_reducible apply sound_checkRange
    | with_reducible apply sound_checkEdges
    | with_reducible apply sound_acceptWrite
    | (with_reducible apply PairK.snd; with_reducible apply sound_acceptWrite)
    | with_reducible apply sound_sendPacket
    | with_reducible apply sound_narrowRead
    | (refine PairK.elim (by assumption) ?_)
    | (refine FstK.elim (by assumption) ?_)
    | extract_lets
    | simp -zeta only [pairK_iff, pair3K_iff, fstK_iff, midK_iff]
    | simp -zeta only [sound_mk_iff]
    | simp -zeta only []
    | split
    | (with_reducible apply sound_ite)
    | (rename_i y; subst y)
    | (rename_i y _; subst y)
    | (rename_i y _ _; subst y)
    | (rename_i y _ _ _; subst y)
    | (rename_i y _ _ _ _; subst y)
    | (rename_i y _ _ _ _ _; subst y)
    | (rename_i y _ _ _ _ _ _; subst y)
    | (rename_i y _ _ _ _ _ _ _; subst y)
    | (rename_i y _ _ _ _ _ _ _ _; subst y)
    | intro _)

theorem sound_noteWaits {qs : Want} (s : State) (st : Nat) (hs : Sound qs s) :
    Sound qs (noteWaits s st) := by
  unfold noteWaits
  repeat' (first
    | with_reducible assumption
    | with_reducible apply sound_incP
    | (with_reducible apply sound_foldl; intro _ _ _)
    | (with_reducible apply pairK_foldl; intro _ _ _)
    | (with_reducible apply PairK.snd; with_reducible apply pairK_foldl; intro _ _ _)
    | (with_reducible apply fstK_foldl; intro _ _ _)
    | (with_reducible apply FstK.snd; with_reducible apply fstK_foldl; intro _ _ _)
    | extract_lets
    | simp -zeta only [pairK_iff, pair3K_iff, fstK_iff, midK_iff]
    | simp -zeta only [sound_mk_iff]
    | simp -zeta only []
    | split)

theorem sound_admit {qs : Want} (s : State) (st q c : Nat) (hs : Sound qs s) :
    Sound qs (chargeNow s st q c) := by
  unfold chargeNow
  repeat' (first
    | with_reducible assumption
    | with_reducible apply sound_incP
    | with_reducible apply sound_deduct
    | split)

theorem sound_serveWhile {qs : Want}  : ∀ (x0 : Nat) (st : Nat) (test : State → HbmReq → Bool) (x1 : State), Sound qs x1 →
    Sound qs (serveWhile st test x0 x1) := by
  intro x0
  induction x0 with
  | zero => (intros; unfold serveWhile; first | assumption | (with_reducible apply pairK_mk; assumption) | (with_reducible apply pair3K_mk; assumption))
  | succ x0 ih => (
  intros
  unfold serveWhile
  repeat' (first
    | with_reducible assumption
    | with_reducible apply ih
    | with_reducible apply sound_serveReq
    | with_reducible apply sound_admit
    | split))

theorem sound_serveAhead {qs : Want} (s : State) (pa n dead : Nat) (hs : Sound qs s) :
    Sound qs (serveAhead s pa n dead) := by
  unfold serveAhead
  repeat' (first
    | with_reducible assumption
    | with_reducible apply sound_serveWhile
    | extract_lets
    | simp -zeta only [pairK_iff, pair3K_iff, fstK_iff, midK_iff]
    | simp -zeta only []
    | split)

theorem sound_chargeRange {qs : Want} (s : State) (q pa n : Nat) (d : Option Nat) (write : Bool) (born : Nat) (hs : Sound qs s) :
    Sound qs (chargeRange s q pa n d write born) := by
  unfold chargeRange
  repeat' (first
    | with_reducible assumption
    | with_reducible apply sound_checkRange
    | with_reducible apply sound_checkEdges
    | with_reducible apply sound_admit
    | with_reducible apply sound_serveAhead
    | (with_reducible apply sound_foldl; intro _ _ _)
    | (with_reducible apply pairK_foldl; intro _ _ _)
    | (with_reducible apply PairK.snd; with_reducible apply pairK_foldl; intro _ _ _)
    | (with_reducible apply fstK_foldl; intro _ _ _)
    | (with_reducible apply FstK.snd; with_reducible apply fstK_foldl; intro _ _ _)
    | extract_lets
    | simp -zeta only [pairK_iff, pair3K_iff, fstK_iff, midK_iff]
    | simp -zeta only []
    | split
    | (with_reducible apply sound_ite)
    | (rename_i y; subst y)
    | (rename_i y _; subst y)
    | (rename_i y _ _; subst y)
    | (rename_i y _ _ _; subst y)
    | (rename_i y _ _ _ _; subst y)
    | (rename_i y _ _ _ _ _; subst y)
    | (rename_i y _ _ _ _ _ _; subst y)
    | (rename_i y _ _ _ _ _ _ _; subst y)
    | (rename_i y _ _ _ _ _ _ _ _; subst y)
    | intro _)

theorem sound_chargeWalk {qs : Want} (s : State) (q pa : Nat) (hs : Sound qs s) :
    Sound qs (chargeWalk s q pa) := by
  unfold chargeWalk
  repeat' (first
    | with_reducible assumption
    | with_reducible apply sound_narrowRead
    | with_reducible apply sound_admit
    | with_reducible apply sound_serveAhead
    | extract_lets
    | split)

theorem sound_lookupPte {qs : Want} (s : State) (d va : Nat) (hs : Sound qs s) :
    PairK qs (lookupPte s d va) := by
  unfold lookupPte
  repeat' (first
    | with_reducible assumption
    | with_reducible apply sound_incP
    | with_reducible apply sound_chargeWalk
    | extract_lets
    | simp -zeta only [pairK_iff, pair3K_iff, fstK_iff, midK_iff]
    | simp -zeta only [sound_mk_iff]
    | simp -zeta only []
    | split
    | (with_reducible apply sound_ite)
    | (rename_i y; subst y)
    | (rename_i y _; subst y)
    | (rename_i y _ _; subst y)
    | (rename_i y _ _ _; subst y)
    | (rename_i y _ _ _ _; subst y)
    | (rename_i y _ _ _ _ _; subst y)
    | (rename_i y _ _ _ _ _ _; subst y)
    | (rename_i y _ _ _ _ _ _ _; subst y)
    | (rename_i y _ _ _ _ _ _ _ _; subst y)
    | intro _)

theorem sound_translate {qs : Want} (s : State) (d va : Nat) (write : Bool) (hs : Sound qs s) :
    PairK qs (translate s d va write) := by
  unfold translate
  repeat' (first
    | with_reducible assumption
    | with_reducible apply sound_lookupPte
    | (with_reducible apply PairK.snd; with_reducible apply sound_lookupPte)
    | (refine PairK.elim (by assumption) ?_)
    | extract_lets
    | simp -zeta only [pairK_iff, pair3K_iff, fstK_iff, midK_iff]
    | split)

theorem sound_vread {qs : Want}  : ∀ (x0 : Nat) (s : State) (d va born n : Nat) , Sound qs s →
    Pair3K qs (vread s d va born n x0) := by
  intro x0
  induction x0 with
  | zero => (intros; unfold vread; first | assumption | (with_reducible apply pairK_mk; assumption) | (with_reducible apply pair3K_mk; assumption))
  | succ x0 ih => (
  intros
  unfold vread
  repeat' (first
    | with_reducible assumption
    | with_reducible apply ih
    | (with_reducible apply Pair3K.snd; with_reducible apply ih)
    | with_reducible apply sound_chargeRange
    | with_reducible apply sound_translate
    | (with_reducible apply PairK.snd; with_reducible apply sound_translate)
    | (refine PairK.elim (by assumption) ?_)
    | (refine FstK.elim (by assumption) ?_)
    | extract_lets
    | simp -zeta only [pairK_iff, pair3K_iff, fstK_iff, midK_iff]
    | simp -zeta only []
    | split))

theorem sound_vwrite {qs : Want}  : ∀ (x0 : Nat) (s : State) (d va born : Nat) (bs : List (Byte × Bool)) , Sound qs s →
    PairK qs (vwrite s d va born bs x0) := by
  intro x0
  induction x0 with
  | zero => (intros; unfold vwrite; first | assumption | (with_reducible apply pairK_mk; assumption) | (with_reducible apply pair3K_mk; assumption))
  | succ x0 ih => (
  intros
  unfold vwrite
  repeat' (first
    | with_reducible assumption
    | with_reducible apply ih
    | (with_reducible apply PairK.snd; with_reducible apply ih)
    | with_reducible apply sound_acceptWrite
    | (with_reducible apply PairK.snd; with_reducible apply sound_acceptWrite)
    | with_reducible apply sound_chargeRange
    | with_reducible apply sound_translate
    | (with_reducible apply PairK.snd; with_reducible apply sound_translate)
    | (refine PairK.elim (by assumption) ?_)
    | (refine FstK.elim (by assumption) ?_)
    | extract_lets
    | simp -zeta only [pairK_iff, pair3K_iff, fstK_iff, midK_iff]
    | simp -zeta only []
    | split))

theorem sound_placeHalt {qs : Want} (s : State) (i : Nat) (h : Halt) (hs : Sound qs s) :
    Sound qs (placeHalt s i h) := by
  unfold placeHalt
  repeat' (first
    | with_reducible assumption
    | with_reducible apply sound_incP
    | with_reducible apply sound_setD
    | extract_lets
    | simp -zeta only [pairK_iff, pair3K_iff, fstK_iff, midK_iff]
    | simp -zeta only [sound_mk_iff]
    | simp -zeta only []
    | split
    | (with_reducible apply sound_ite)
    | (rename_i y; subst y)
    | (rename_i y _; subst y)
    | (rename_i y _ _; subst y)
    | (rename_i y _ _ _; subst y)
    | (rename_i y _ _ _ _; subst y)
    | (rename_i y _ _ _ _ _; subst y)
    | (rename_i y _ _ _ _ _ _; subst y)
    | (rename_i y _ _ _ _ _ _ _; subst y)
    | (rename_i y _ _ _ _ _ _ _ _; subst y)
    | intro _)

theorem sound_takeHalt {qs : Want} (s : State) (d : Nat) (who : Requester) (write : Bool) (ctx prog unit va word offset : Nat) (hs : Sound qs s) :
    PairK qs (takeHalt s d who write ctx prog unit va word offset) := by
  unfold takeHalt
  repeat' (first
    | with_reducible assumption
    | with_reducible apply sound_placeHalt
    | extract_lets
    | simp -zeta only [pairK_iff, pair3K_iff, fstK_iff, midK_iff]
    | simp -zeta only [sound_mk_iff]
    | simp -zeta only []
    | split
    | (with_reducible apply sound_ite)
    | (rename_i y; subst y)
    | (rename_i y _; subst y)
    | (rename_i y _ _; subst y)
    | (rename_i y _ _ _; subst y)
    | (rename_i y _ _ _ _; subst y)
    | (rename_i y _ _ _ _ _; subst y)
    | (rename_i y _ _ _ _ _ _; subst y)
    | (rename_i y _ _ _ _ _ _ _; subst y)
    | (rename_i y _ _ _ _ _ _ _ _; subst y)
    | intro _)

theorem sound_holdSlot {qs : Want}  : ∀ (x0 : Requester) (s : State) (i : Nat) , Sound qs s →
    Sound qs (holdSlot s i x0) := by
  intro x0
  intros
  unfold holdSlot
  repeat' (first
    | with_reducible assumption
    | with_reducible apply sound_setStream
    | with_reducible apply sound_setDma
    | simp -zeta only [pairK_iff, pair3K_iff, fstK_iff, midK_iff]
    | simp -zeta only [sound_mk_iff]
    | simp -zeta only []
    | split)

theorem sound_grantTo {qs : Want}  : ∀ (x0 : List Halt)  (x1 : State), Sound qs x1 →
    Sound qs (grantTo  x0 x1) := by
  intro x0
  induction x0 with
  | nil => (intros; unfold grantTo; first | assumption | (with_reducible apply pairK_mk; assumption) | (with_reducible apply pair3K_mk; assumption))
  | cons x0 xr ih => (
  intros
  unfold grantTo
  repeat' (first
    | with_reducible assumption
    | with_reducible apply ih
    | with_reducible apply sound_placeHalt
    | with_reducible apply sound_holdSlot
    | simp -zeta only [sound_mk_iff]
    | split))

theorem sound_grantHalts {qs : Want} (s : State) (hs : Sound qs s) :
    Sound qs (grantHalts s) := by
  unfold grantHalts
  repeat' (first
    | with_reducible assumption
    | with_reducible apply sound_grantTo
    | split)

theorem sound_dropHalt {qs : Want} (s : State) (i : Nat) (hs : Sound qs s) :
    Sound qs (dropHalt s i) := by
  unfold dropHalt
  repeat' (first
    | with_reducible assumption
    | with_reducible apply sound_setD
    | extract_lets
    | simp -zeta only [pairK_iff, pair3K_iff, fstK_iff, midK_iff]
    | simp -zeta only [sound_mk_iff]
    | simp -zeta only []
    | split
    | (with_reducible apply sound_ite)
    | (rename_i y; subst y)
    | (rename_i y _; subst y)
    | (rename_i y _ _; subst y)
    | (rename_i y _ _ _; subst y)
    | (rename_i y _ _ _ _; subst y)
    | (rename_i y _ _ _ _ _; subst y)
    | (rename_i y _ _ _ _ _ _; subst y)
    | (rename_i y _ _ _ _ _ _ _; subst y)
    | (rename_i y _ _ _ _ _ _ _ _; subst y)
    | intro _)

theorem sound_execHbmRequestService {qs : Want} (st : Nat) (s : State) (hs : Sound qs s) :
    OutK qs (execHbmRequestService st s) := by
  unfold execHbmRequestService
  repeat' (first
    | with_reducible assumption
    | with_reducible apply outK_fault
    | with_reducible apply outK_refused
    | with_reducible apply outK_next
    | with_reducible apply sound_incP
    | with_reducible apply sound_deduct
    | with_reducible apply sound_serveReq
    | with_reducible apply sound_noteWaits
    | with_reducible apply sound_request
    | extract_lets
    | simp -zeta only [pairK_iff, pair3K_iff, fstK_iff, midK_iff]
    | simp -zeta only []
    | split)

theorem sound_execHbmRefresh {qs : Want} (st _bank : Nat) (s : State) (hs : Sound qs s) :
    OutK qs (execHbmRefresh st _bank s) := by
  unfold execHbmRefresh
  repeat' (first
    | with_reducible assumption
    | with_reducible apply outK_fault
    | with_reducible apply outK_refused
    | with_reducible apply outK_next
    | split)

theorem sound_execScrub {qs : Want} (st : Nat) (s : State) (hs : Sound qs s) :
    OutK qs (execScrub st s) := by
  unfold execScrub
  repeat' (first
    | with_reducible assumption
    | with_reducible apply outK_fault
    | with_reducible apply outK_refused
    | with_reducible apply outK_next
    | with_reducible apply sound_checkSector
    | with_reducible apply sound_admit
    | extract_lets
    | simp -zeta only [sound_mk_iff]
    | split)

theorem sound_execStackTemperatureRead {qs : Want} (st : Nat) (eighths : Int) (s : State) (hs : Sound qs s) :
    OutK qs (execStackTemperatureRead st eighths s) := by
  unfold execStackTemperatureRead
  repeat' (first
    | with_reducible assumption
    | with_reducible apply outK_fault
    | with_reducible apply outK_refused
    | with_reducible apply outK_next
    | with_reducible apply sound_setP
    | (with_reducible apply sound_foldl; intro _ _ _)
    | (with_reducible apply pairK_foldl; intro _ _ _)
    | (with_reducible apply PairK.snd; with_reducible apply pairK_foldl; intro _ _ _)
    | (with_reducible apply fstK_foldl; intro _ _ _)
    | (with_reducible apply FstK.snd; with_reducible apply fstK_foldl; intro _ _ _)
    | extract_lets
    | simp -zeta only [pairK_iff, pair3K_iff, fstK_iff, midK_iff]
    | simp -zeta only [sound_mk_iff]
    | simp -zeta only []
    | split
    | (with_reducible apply sound_ite)
    | (rename_i y; subst y)
    | (rename_i y _; subst y)
    | (rename_i y _ _; subst y)
    | (rename_i y _ _ _; subst y)
    | (rename_i y _ _ _ _; subst y)
    | (rename_i y _ _ _ _ _; subst y)
    | (rename_i y _ _ _ _ _ _; subst y)
    | (rename_i y _ _ _ _ _ _ _; subst y)
    | (rename_i y _ _ _ _ _ _ _ _; subst y)
    | intro _)

end Sys2Proof.Machine
end

