-- ==== Sys2Proof/Laws/SoundAccum.lean ====
section
/-!
SUPPORT. The operations of Accum.lean keep memory and marks canonical and leave the queue alone.
-/
set_option linter.unusedSimpArgs false
set_option linter.unusedVariables false

namespace Sys2Proof.Machine

theorem sound_putWord {qs : Want} (s : State) (pa n : Nat) (p : Bool) (hs : Sound qs s) :
    Sound qs (putWord s pa n p) := by
  unfold putWord
  repeat' (first
    | with_reducible assumption
    | with_reducible apply sound_writeP
    | simp -zeta only [pairK_iff, pair3K_iff, fstK_iff, midK_iff]
    | simp -zeta only []
    | split)

theorem sound_markWord {qs : Want} (s : State) (pa : Nat) (p : Bool) (hs : Sound qs s) :
    Sound qs (markWord s pa p) := by
  unfold markWord
  repeat' (first
    | with_reducible assumption
    | simp -zeta only [sound_mk_iff]
    | (refine sound_mkPoison (fun k => SMap.wf_set _ _ (Sound.pz (q := qs) ?_ k)) ?_)
    | split)

theorem sound_setLevel {qs : Want} (s : State) (x : El) (l : Nat) (v : PV) (hs : Sound qs s) :
    Sound qs (setLevel s x l v) := by
  unfold setLevel
  repeat' (first
    | with_reducible assumption
    | with_reducible apply sound_setCell
    | with_reducible apply sound_putWord
    | extract_lets
    | simp -zeta only [sound_mk_iff]
    | split)

theorem sound_setTop {qs : Want} (s : State) (x : El) (v : PV) (hs : Sound qs s) :
    Sound qs (setTop s x v) := by
  unfold setTop
  repeat' (first
    | with_reducible assumption
    | with_reducible apply sound_setTile
    | with_reducible apply sound_setCell
    | with_reducible apply sound_putWord
    | extract_lets
    | simp -zeta only [sound_mk_iff]
    | split)

theorem sound_freshen {qs : Want} (s : State) (x : El) (hs : Sound qs s) :
    Sound qs (freshen s x) := by
  unfold freshen
  repeat' (first
    | with_reducible assumption
    | with_reducible apply sound_setCell
    | with_reducible apply sound_markWord
    | (with_reducible apply sound_foldl; intro _ _ _)
    | (with_reducible apply pairK_foldl; intro _ _ _)
    | (with_reducible apply PairK.snd; with_reducible apply pairK_foldl; intro _ _ _)
    | (with_reducible apply fstK_foldl; intro _ _ _)
    | (with_reducible apply FstK.snd; with_reducible apply fstK_foldl; intro _ _ _)
    | extract_lets
    | simp -zeta only [pairK_iff, pair3K_iff, fstK_iff, midK_iff]
    | simp -zeta only [sound_mk_iff]
    | simp -zeta only []
    | split)

theorem sound_pushEl {qs : Want} (s : State) (x : El) (v : PV) (hs : Sound qs s) :
    FstK qs (pushEl s x v) := by
  unfold pushEl
  repeat' (first
    | with_reducible assumption
    | with_reducible apply sound_setTile
    | with_reducible apply sound_setCell
    | with_reducible apply sound_setLevel
    | with_reducible apply sound_setTop
    | with_reducible apply sound_freshen
    | (refine PairK.elim (by assumption) ?_)
    | (refine FstK.elim (by assumption) ?_)
    | extract_lets
    | simp -zeta only [pairK_iff, pair3K_iff, fstK_iff, midK_iff]
    | simp -zeta only [sound_mk_iff]
    | simp -zeta only []
    | split)

theorem sound_pushInt {qs : Want} (s : State) (x : El) (v : Int) (p : Bool) (hs : Sound qs s) :
    Sound qs (pushInt s x v p) := by
  unfold pushInt
  repeat' (first
    | with_reducible assumption
    | with_reducible apply sound_setTile
    | with_reducible apply sound_setCell
    | with_reducible apply sound_putWord
    | with_reducible apply sound_markWord
    | with_reducible apply sound_freshen
    | extract_lets
    | simp -zeta only [sound_mk_iff]
    | split)

theorem sound_openEl {qs : Want} (s : State) (x : El) (cont fromV isInt : Bool) (hs : Sound qs s) :
    Sound qs (openEl s x cont fromV isInt) := by
  unfold openEl
  repeat' (first
    | with_reducible assumption
    | with_reducible apply sound_setTile
    | with_reducible apply sound_setCell
    | extract_lets
    | simp -zeta only [sound_mk_iff]
    | (refine sound_mkMem (fun k => wf_storeBytes _ _ _ (Sound.mem (q := qs) ?_ k)) ?_)
    | split)

theorem sound_closeEl {qs : Want} (s : State) (x : El) (isInt : Bool) (d unit : Nat) (hs : Sound qs s) :
    Sound qs (closeEl s x isInt d unit) := by
  unfold closeEl
  repeat' (first
    | with_reducible assumption
    | with_reducible apply sound_setCell
    | with_reducible apply sound_countNan
    | with_reducible apply sound_putWord
    | with_reducible apply sound_freshen
    | (refine PairK.elim (by assumption) ?_)
    | (refine FstK.elim (by assumption) ?_)
    | extract_lets
    | simp -zeta only [pairK_iff, pair3K_iff, fstK_iff, midK_iff]
    | simp -zeta only [sound_mk_iff]
    | simp -zeta only []
    | split
    | (with_reducible apply sound_ite)
    | (rename_i y; subst y)
    | (rename_i y _; subst y)
    | (rename_i y _ _; subst y)
    | (rename_i y _ _ _; subst y)
    | (rename_i y _ _ _ _; subst y)
    | (rename_i y _ _ _ _ _; subst y)
    | (rename_i y _ _ _ _ _ _; subst y)
    | (rename_i y _ _ _ _ _ _ _; subst y)
    | (rename_i y _ _ _ _ _ _ _ _; subst y)
    | intro _)

theorem sound_closeFlags {qs : Want} (s : State) (k : Nat) (hs : Sound qs s) :
    Sound qs (closeFlags s k) := by
  unfold closeFlags
  repeat' (first
    | with_reducible assumption
    | with_reducible apply sound_incP
    | with_reducible apply sound_setTile
    | extract_lets
    | simp -zeta only [sound_mk_iff]
    | split)

theorem sound_openTile {qs : Want} (s : State) (k : Nat) (op : Mma) (hs : Sound qs s) :
    Sound qs (openTile s k op) := by
  unfold openTile
  repeat' (first
    | with_reducible assumption
    | with_reducible apply sound_setTile
    | extract_lets
    | simp -zeta only [sound_mk_iff]
    | split)

theorem sound_pushChunk {qs : Want} (s : State) (op : Mma) (u : Nat) (x : El) (ps : List (PV × PV)) (hs : Sound qs s) :
    Sound qs (pushChunk s op u x ps) := by
  unfold pushChunk
  repeat' (first
    | with_reducible assumption
    | with_reducible apply sound_countNan
    | with_reducible apply sound_pushEl
    | (with_reducible apply FstK.snd; with_reducible apply sound_pushEl)
    | with_reducible apply sound_pushInt
    | (refine PairK.elim (by assumption) ?_)
    | (refine FstK.elim (by assumption) ?_)
    | extract_lets
    | simp -zeta only [pairK_iff, pair3K_iff, fstK_iff, midK_iff]
    | simp -zeta only []
    | split)

theorem sound_writeRuns {qs : Want} (s : State) (u line : Nat) (rs : List (Nat × List PByte)) (hs : Sound qs s) :
    Sound qs (writeRuns s u line rs) := by
  unfold writeRuns
  repeat' (first
    | with_reducible assumption
    | with_reducible apply sound_writeP
    | (with_reducible apply sound_foldl; intro _ _ _)
    | (with_reducible apply pairK_foldl; intro _ _ _)
    | (with_reducible apply PairK.snd; with_reducible apply pairK_foldl; intro _ _ _)
    | (with_reducible apply fstK_foldl; intro _ _ _)
    | (with_reducible apply FstK.snd; with_reducible apply fstK_foldl; intro _ _ _)
    | simp -zeta only [pairK_iff, pair3K_iff, fstK_iff, midK_iff]
    | simp -zeta only []
    | split)

theorem sound_countConv {qs : Want} (s : State) (tensor : Nat) (os : List RowOut) (hs : Sound qs s) :
    Sound qs (countConv s tensor os) := by
  unfold countConv
  repeat' (first
    | with_reducible assumption
    | with_reducible apply sound_incP
    | with_reducible apply sound_countSat
    | extract_lets
    | split)

end Sys2Proof.Machine
end

