-- ==== Sys2Proof/Laws/SoundTransfers.lean ====
section
/-!
SUPPORT. The operations of Transfers.lean keep memory and marks canonical and leave the queue alone.
-/
set_option linter.unusedSimpArgs false
set_option linter.unusedVariables false

namespace Sys2Proof.Machine

theorem sound_updXfer {qs : Want} (s : State) (u tag : Nat) (f : Xfer → Xfer) (hs : Sound qs s) :
    Sound qs (updXfer s u tag f) := by
  unfold updXfer
  repeat' (first
    | with_reducible assumption
    | simp -zeta only [pairK_iff, pair3K_iff, fstK_iff, midK_iff]
    | simp -zeta only [sound_mk_iff]
    | simp -zeta only []
    | split)

theorem sound_xferFault {qs : Want} (s : State) (x : Xfer) (va : Nat) (hs : Sound qs s) :
    Sound qs (xferFault s x va) := by
  unfold xferFault
  repeat' (first
    | with_reducible assumption
    | with_reducible apply sound_raise
    | simp -zeta only [sound_mk_iff]
    | split)

theorem sound_pump {qs : Want}  : ∀ (x0 : Nat) (u tag : Nat) (x1 : State), Sound qs x1 →
    Sound qs (pump u tag x0 x1) := by
  intro x0
  induction x0 with
  | zero => (intros; unfold pump; first | assumption | (with_reducible apply pairK_mk; assumption) | (with_reducible apply pair3K_mk; assumption))
  | succ x0 ih => (
  intros
  unfold pump
  repeat' (first
    | with_reducible assumption
    | with_reducible apply ih
    | with_reducible apply sound_sendPacket
    | with_reducible apply sound_translate
    | (with_reducible apply PairK.snd; with_reducible apply sound_translate)
    | with_reducible apply sound_takeHalt
    | (with_reducible apply PairK.snd; with_reducible apply sound_takeHalt)
    | with_reducible apply sound_updXfer
    | with_reducible apply sound_xferFault
    | (refine PairK.elim (by assumption) ?_)
    | (refine FstK.elim (by assumption) ?_)
    | extract_lets
    | simp -zeta only [pairK_iff, pair3K_iff, fstK_iff, midK_iff]
    | simp -zeta only [sound_mk_iff]
    | simp -zeta only []
    | split))

theorem sound_pumpCore {qs : Want}  : ∀ (x0 : Nat) (u tag : Nat) (x1 : State), Sound qs x1 →
    Sound qs (pumpCore u tag x0 x1) := by
  intro x0
  induction x0 with
  | zero => (intros; unfold pumpCore; first | assumption | (with_reducible apply pairK_mk; assumption) | (with_reducible apply pair3K_mk; assumption))
  | succ x0 ih => (
  intros
  unfold pumpCore
  repeat' (first
    | with_reducible assumption
    | with_reducible apply ih
    | with_reducible apply sound_sendPacket
    | with_reducible apply sound_updXfer
    | extract_lets
    | simp -zeta only [pairK_iff, pair3K_iff, fstK_iff, midK_iff]
    | simp -zeta only [sound_mk_iff]
    | simp -zeta only []
    | split))

theorem sound_pumpRed {qs : Want}  : ∀ (x0 : Nat) (u tag : Nat) (x1 : State), Sound qs x1 →
    Sound qs (pumpRed u tag x0 x1) := by
  intro x0
  induction x0 with
  | zero => (intros; unfold pumpRed; first | assumption | (with_reducible apply pairK_mk; assumption) | (with_reducible apply pair3K_mk; assumption))
  | succ x0 ih => (
  intros
  unfold pumpRed
  repeat' (first
    | with_reducible assumption
    | with_reducible apply ih
    | with_reducible apply sound_updXfer
    | extract_lets
    | simp -zeta only [pairK_iff, pair3K_iff, fstK_iff, midK_iff]
    | simp -zeta only [sound_mk_iff]
    | simp -zeta only []
    | split))

theorem sound_dmaAnswered {qs : Want} (s : State) (ch id part : Nat) (bs : Option (List Byte)) (hs : Sound qs s) :
    Sound qs (dmaAnswered s ch id part bs) := by
  unfold dmaAnswered
  repeat' (first
    | with_reducible assumption
    | with_reducible apply sound_setDma
    | extract_lets
    | simp -zeta only [pairK_iff, pair3K_iff, fstK_iff, midK_iff]
    | simp -zeta only [sound_mk_iff]
    | simp -zeta only []
    | split)

theorem sound_pumpNarrow {qs : Want}  : ∀ (x0 : Nat) (u tag : Nat) (x1 : State), Sound qs x1 →
    Sound qs (pumpNarrow u tag x0 x1) := by
  intro x0
  induction x0 with
  | zero => (intros; unfold pumpNarrow; first | assumption | (with_reducible apply pairK_mk; assumption) | (with_reducible apply pair3K_mk; assumption))
  | succ x0 ih => (
  intros
  unfold pumpNarrow
  repeat' (first
    | with_reducible assumption
    | with_reducible apply ih
    | with_reducible apply sound_sendPacket
    | with_reducible apply sound_translate
    | (with_reducible apply PairK.snd; with_reducible apply sound_translate)
    | with_reducible apply sound_takeHalt
    | (with_reducible apply PairK.snd; with_reducible apply sound_takeHalt)
    | with_reducible apply sound_updXfer
    | with_reducible apply sound_xferFault
    | (refine PairK.elim (by assumption) ?_)
    | (refine FstK.elim (by assumption) ?_)
    | extract_lets
    | simp -zeta only [pairK_iff, pair3K_iff, fstK_iff, midK_iff]
    | simp -zeta only [sound_mk_iff]
    | simp -zeta only []
    | split))

theorem sound_pumpWaiting {qs : Want} (s : State) (hs : Sound qs s) :
    Sound qs (pumpWaiting s) := by
  unfold pumpWaiting
  repeat' (first
    | with_reducible assumption
    | with_reducible apply sound_pumpNarrow
    | (with_reducible apply sound_foldl; intro _ _ _)
    | (with_reducible apply pairK_foldl; intro _ _ _)
    | (with_reducible apply PairK.snd; with_reducible apply pairK_foldl; intro _ _ _)
    | (with_reducible apply fstK_foldl; intro _ _ _)
    | (with_reducible apply FstK.snd; with_reducible apply fstK_foldl; intro _ _ _)
    | simp -zeta only [pairK_iff, pair3K_iff, fstK_iff, midK_iff]
    | simp -zeta only []
    | split)

theorem sound_addXfer {qs : Want} (s : State) (x : Xfer) (hs : Sound qs s) :
    Sound qs (addXfer s x) := by
  unfold addXfer
  repeat' (first
    | with_reducible assumption
    | simp -zeta only [sound_mk_iff]
    | split)

theorem sound_pumpXfer {qs : Want} (u tag n : Nat) (s : State) (hs : Sound qs s) :
    Sound qs (pumpXfer u tag n s) := by
  unfold pumpXfer
  repeat' (first
    | with_reducible assumption
    | with_reducible apply sound_pump
    | with_reducible apply sound_pumpCore
    | with_reducible apply sound_pumpRed
    | with_reducible apply sound_pumpNarrow
    | split)

theorem sound_startXfer {qs : Want} (s : State) (x : Xfer) (data : List PLine) (hs : Sound qs s) :
    Sound qs (startXfer s x data) := by
  unfold startXfer
  repeat' (first
    | with_reducible assumption
    | with_reducible apply sound_addXfer
    | with_reducible apply sound_pumpXfer
    | simp -zeta only [sound_mk_iff]
    | split)

theorem sound_redXfer {qs : Want} (s : State) (u needle tag d t line n w off : Nat) (hs : Sound qs s) :
    PairK qs (redXfer s u needle tag d t line n w off) := by
  unfold redXfer
  repeat' (first
    | with_reducible assumption
    | extract_lets
    | simp -zeta only [pairK_iff, pair3K_iff, fstK_iff, midK_iff]
    | simp -zeta only [sound_mk_iff]
    | split)

theorem sound_setDepth {qs : Want} (s : State) (strand p : Nat) (l : List Nat) (hs : Sound qs s) :
    Sound qs (setDepth s strand p l) := by
  unfold setDepth
  repeat' (first
    | with_reducible assumption
    | simp -zeta only [sound_mk_iff]
    | split)

theorem sound_notePush {qs : Want} (s : State) (u strand lines n : Nat) (hs : Sound qs s) :
    Sound qs (notePush s u strand lines n) := by
  unfold notePush
  repeat' (first
    | with_reducible assumption
    | with_reducible apply sound_setDepth
    | split)

theorem sound_beginPush {qs : Want} (s : State) (u needle d tag strand etag fmt dstep word off n : Nat) (kind : XKind) (hs : Sound qs s) :
    Sound qs (beginPush s u needle d tag strand etag fmt dstep word off n kind) := by
  unfold beginPush
  repeat' (first
    | with_reducible assumption
    | extract_lets
    | simp -zeta only [sound_mk_iff]
    | split)

theorem sound_pushImage {qs : Want} (s : State) (u tag : Nat) (img : List PLine) (hs : Sound qs s) :
    Sound qs (pushImage s u tag img) := by
  unfold pushImage
  repeat' (first
    | with_reducible assumption
    | with_reducible apply sound_updXfer
    | simp -zeta only [pairK_iff, pair3K_iff, fstK_iff, midK_iff]
    | simp -zeta only [sound_mk_iff]
    | simp -zeta only []
    | split)

theorem sound_dropPush {qs : Want} (s : State) (u tag : Nat) (hs : Sound qs s) :
    Sound qs (dropPush s u tag) := by
  unfold dropPush
  repeat' (first
    | with_reducible assumption
    | simp -zeta only [pairK_iff, pair3K_iff, fstK_iff, midK_iff]
    | simp -zeta only [sound_mk_iff]
    | simp -zeta only []
    | split)

theorem sound_pumpPush {qs : Want}  : ∀ (x0 : Nat) (u tag size : Nat) (x1 : State), Sound qs x1 →
    Sound qs (pumpPush u tag size x0 x1) := by
  intro x0
  induction x0 with
  | zero => (intros; unfold pumpPush; first | assumption | (with_reducible apply pairK_mk; assumption) | (with_reducible apply pair3K_mk; assumption))
  | succ x0 ih => (
  intros
  unfold pumpPush
  repeat' (first
    | with_reducible assumption
    | with_reducible apply ih
    | with_reducible apply sound_updXfer
    | with_reducible apply sound_pushImage
    | simp -zeta only [pairK_iff, pair3K_iff, fstK_iff, midK_iff]
    | simp -zeta only [sound_mk_iff]
    | simp -zeta only []
    | split))

end Sys2Proof.Machine
end

