-- ==== Sys2Proof/Laws/SoundUnits.lean ====
section
/-!
SUPPORT. The operations of Units.lean keep memory and marks canonical and leave the queue alone.
-/
set_option linter.unusedSimpArgs false
set_option linter.unusedVariables false

namespace Sys2Proof.Machine

theorem sound_updPart {qs : Want} (s : State) (e h : Nat) (f : EngPart → EngPart) (hs : Sound qs s) :
    Sound qs (updPart s e h f) := by
  unfold updPart
  repeat' (first
    | with_reducible assumption
    | with_reducible apply sound_setEng
    | extract_lets
    | split)

theorem sound_stageLine {qs : Want} (u m : Nat) (a : State × EngPart × List Nat) (x : Mma × Nat × Nat) (ha : FstK qs a) :
    FstK qs (stageLine u m a x) := by
  rcases a with ⟨s, p, used⟩
  unfold stageLine
  dsimp only
  split
  · exact sound_checkLines _ _ _ _ _ ha
  · exact ha

theorem sound_stagePart {qs : Want} (u m : Nat) (split : Bool) (dcc : Nat) (used : List Nat) (p : EngPart) (s : State)
    (hs : Sound qs s) : FstK qs (stagePart u m split dcc used p s) :=
  fstK_foldl (fun a x h => sound_stageLine u m a x h) (fstK_mk hs)

theorem sound_checkLatch {qs : Want} (u dcc : Nat) (s : State) (o : Mma) (hs : Sound qs s) :
    Sound qs (checkLatch u dcc s o) := by
  unfold checkLatch
  repeat' (first
    | with_reducible assumption
    | with_reducible apply sound_checkLines
    | (with_reducible apply sound_foldl; intro _ _ _)
    | (with_reducible apply pairK_foldl; intro _ _ _)
    | (with_reducible apply PairK.snd; with_reducible apply pairK_foldl; intro _ _ _)
    | (with_reducible apply fstK_foldl; intro _ _ _)
    | (with_reducible apply FstK.snd; with_reducible apply fstK_foldl; intro _ _ _)
    | simp -zeta only [pairK_iff, pair3K_iff, fstK_iff, midK_iff]
    | simp -zeta only []
    | split)

theorem sound_enterRow {qs : Want} (s : State) (u : Nat) (stage : List Span) (w : Wave) (hs : Sound qs s) :
    FstK qs (enterRow s u stage w) := by
  unfold enterRow
  repeat' (first
    | with_reducible assumption
    | with_reducible apply sound_incP
    | with_reducible apply sound_countNan
    | with_reducible apply sound_checkLines
    | extract_lets
    | simp -zeta only [pairK_iff, pair3K_iff, fstK_iff, midK_iff]
    | simp -zeta only [sound_mk_iff]
    | simp -zeta only []
    | split
    | (with_reducible apply sound_ite)
    | (rename_i y; subst y)
    | (rename_i y _; subst y)
    | (rename_i y _ _; subst y)
    | (rename_i y _ _ _; subst y)
    | (rename_i y _ _ _ _; subst y)
    | (rename_i y _ _ _ _ _; subst y)
    | (rename_i y _ _ _ _ _ _; subst y)
    | (rename_i y _ _ _ _ _ _ _; subst y)
    | (rename_i y _ _ _ _ _ _ _ _; subst y)
    | intro _)

theorem sound_enterRows {qs : Want}  : ∀ (x0 : List Wave) (u dcc : Nat) (stage : List Span) (x1 : State), Sound qs x1 →
    FstK qs (enterRows u dcc stage x0 x1) := by
  intro x0
  induction x0 with
  | nil => (intros; unfold enterRows; first | assumption | (with_reducible apply pairK_mk; assumption) | (with_reducible apply pair3K_mk; assumption))
  | cons x0 xr ih => (
  intros
  unfold enterRows
  repeat' (first
    | with_reducible assumption
    | with_reducible apply ih
    | (with_reducible apply FstK.snd; with_reducible apply ih)
    | with_reducible apply sound_enterRow
    | (with_reducible apply FstK.snd; with_reducible apply sound_enterRow)
    | (refine PairK.elim (by assumption) ?_)
    | (refine FstK.elim (by assumption) ?_)
    | extract_lets
    | simp -zeta only [pairK_iff, pair3K_iff, fstK_iff, midK_iff]
    | simp -zeta only []
    | split))

theorem sound_waveCell {qs : Want} (u : Nat) (w : Wave) (s : State) (x : El) (hs : Sound qs s) :
    Sound qs (waveCell u w s x) := by
  unfold waveCell
  repeat' (first
    | with_reducible assumption
    | with_reducible apply sound_openEl
    | with_reducible apply sound_closeEl
    | with_reducible apply sound_pushChunk
    | extract_lets
    | simp -zeta only [pairK_iff, pair3K_iff, fstK_iff, midK_iff]
    | simp -zeta only []
    | split
    | (with_reducible apply sound_ite)
    | (rename_i y; subst y)
    | (rename_i y _; subst y)
    | (rename_i y _ _; subst y)
    | (rename_i y _ _ _; subst y)
    | (rename_i y _ _ _ _; subst y)
    | (rename_i y _ _ _ _ _; subst y)
    | (rename_i y _ _ _ _ _ _; subst y)
    | (rename_i y _ _ _ _ _ _ _; subst y)
    | (rename_i y _ _ _ _ _ _ _ _; subst y)
    | intro _)

theorem sound_waveDiag {qs : Want} (u e h c0 : Nat) (w : Wave) (s : State) (hs : Sound qs s) :
    Sound qs (waveDiag u e h c0 w s) := by
  unfold waveDiag
  repeat' (first
    | with_reducible assumption
    | with_reducible apply sound_closeFlags
    | with_reducible apply sound_openTile
    | with_reducible apply sound_waveCell
    | (with_reducible apply sound_foldl; intro _ _ _)
    | (with_reducible apply pairK_foldl; intro _ _ _)
    | (with_reducible apply PairK.snd; with_reducible apply pairK_foldl; intro _ _ _)
    | (with_reducible apply fstK_foldl; intro _ _ _)
    | (with_reducible apply FstK.snd; with_reducible apply fstK_foldl; intro _ _ _)
    | extract_lets
    | simp -zeta only [pairK_iff, pair3K_iff, fstK_iff, midK_iff]
    | simp -zeta only []
    | split
    | (with_reducible apply sound_ite)
    | (rename_i y; subst y)
    | (rename_i y _; subst y)
    | (rename_i y _ _; subst y)
    | (rename_i y _ _ _; subst y)
    | (rename_i y _ _ _ _; subst y)
    | (rename_i y _ _ _ _ _; subst y)
    | (rename_i y _ _ _ _ _ _; subst y)
    | (rename_i y _ _ _ _ _ _ _; subst y)
    | (rename_i y _ _ _ _ _ _ _ _; subst y)
    | intro _)

theorem sound_stepWave {qs : Want}  : ∀ (x0 : Nat) (u e h c0 dcc : Nat) (reads : List AccRead) (before : List Wave) (x1 : Wave) (x2 : State), Sound qs x2 →
    FstK qs (stepWave u e h c0 dcc reads before x0 x1 x2) := by
  intro x0
  induction x0 with
  | zero => (intros; unfold stepWave; first | assumption | (with_reducible apply pairK_mk; assumption) | (with_reducible apply pair3K_mk; assumption))
  | succ x0 ih => (
  intros
  unfold stepWave
  repeat' (first
    | with_reducible assumption
    | with_reducible apply ih
    | (with_reducible apply FstK.snd; with_reducible apply ih)
    | with_reducible apply sound_waveDiag
    | simp -zeta only [pairK_iff, pair3K_iff, fstK_iff, midK_iff]
    | simp -zeta only [sound_mk_iff]
    | split))

theorem sound_stepWaves {qs : Want} (u e h c0 dcc : Nat) (reads : List AccRead) : ∀ (ws before : List Wave) (s : State),
    Sound qs s → FstK qs (stepWaves u e h c0 dcc reads before ws s) := by
  intro ws
  induction ws with
  | nil => intro before s hs; unfold stepWaves; exact hs
  | cons w r ih =>
    intro before s hs
    unfold stepWaves
    have hv := sound_stepWave 128 u e h c0 dcc reads before w s hs
    revert hv
    generalize stepWave u e h c0 dcc reads before 128 w s = v
    intro hv
    exact ih _ _ hv

theorem sound_cyclePart {qs : Want} (u m h dcc : Nat) (used : List Nat) (s : State) (hs : Sound qs s) :
    FstK qs (cyclePart u m h dcc used s) := by
  unfold cyclePart
  repeat' (first
    | with_reducible assumption
    | with_reducible apply sound_setEng
    | with_reducible apply sound_stagePart
    | (with_reducible apply FstK.snd; with_reducible apply sound_stagePart)
    | with_reducible apply sound_checkLatch
    | with_reducible apply sound_enterRows
    | (with_reducible apply FstK.snd; with_reducible apply sound_enterRows)
    | with_reducible apply sound_stepWaves
    | (with_reducible apply FstK.snd; with_reducible apply sound_stepWaves)
    | (with_reducible apply sound_foldl; intro _ _ _)
    | (with_reducible apply pairK_foldl; intro _ _ _)
    | (with_reducible apply PairK.snd; with_reducible apply pairK_foldl; intro _ _ _)
    | (with_reducible apply fstK_foldl; intro _ _ _)
    | (with_reducible apply FstK.snd; with_reducible apply fstK_foldl; intro _ _ _)
    | (refine PairK.elim (by assumption) ?_)
    | (refine FstK.elim (by assumption) ?_)
    | extract_lets
    | simp -zeta only [pairK_iff, pair3K_iff, fstK_iff, midK_iff]
    | simp -zeta only [sound_mk_iff]
    | simp -zeta only []
    | split)

theorem sound_checkAux {qs : Want} (s : State) (u : Nat) (r : AccRead) (hs : Sound qs s) :
    Sound qs (checkAux s u r) := by
  unfold checkAux
  repeat' (first
    | with_reducible assumption
    | with_reducible apply sound_checkLines
    | extract_lets
    | simp -zeta only [pairK_iff, pair3K_iff, fstK_iff, midK_iff]
    | simp -zeta only []
    | split
    | (with_reducible apply sound_ite)
    | (rename_i y; subst y)
    | (rename_i y _; subst y)
    | (rename_i y _ _; subst y)
    | (rename_i y _ _ _; subst y)
    | (rename_i y _ _ _ _; subst y)
    | (rename_i y _ _ _ _ _; subst y)
    | (rename_i y _ _ _ _ _ _; subst y)
    | (rename_i y _ _ _ _ _ _ _; subst y)
    | (rename_i y _ _ _ _ _ _ _ _; subst y)
    | intro _)

theorem sound_takeRow {qs : Want} (s : State) (u e dcc : Nat) (r : AccRead) (hs : Sound qs s) :
    FstK qs (takeRow s u e dcc r) := by
  unfold takeRow
  repeat' (first
    | with_reducible assumption
    | with_reducible apply sound_countNan
    | with_reducible apply sound_checkRange
    | with_reducible apply sound_closeEl
    | with_reducible apply sound_closeFlags
    | with_reducible apply sound_checkAux
    | (with_reducible apply sound_foldl; intro _ _ _)
    | (with_reducible apply pairK_foldl; intro _ _ _)
    | (with_reducible apply PairK.snd; with_reducible apply pairK_foldl; intro _ _ _)
    | (with_reducible apply fstK_foldl; intro _ _ _)
    | (with_reducible apply FstK.snd; with_reducible apply fstK_foldl; intro _ _ _)
    | extract_lets
    | simp -zeta only [pairK_iff, pair3K_iff, fstK_iff, midK_iff]
    | simp -zeta only [sound_mk_iff]
    | simp -zeta only []
    | split
    | (with_reducible apply sound_ite)
    | (rename_i y; subst y)
    | (rename_i y _; subst y)
    | (rename_i y _ _; subst y)
    | (rename_i y _ _ _; subst y)
    | (rename_i y _ _ _ _; subst y)
    | (rename_i y _ _ _ _ _; subst y)
    | (rename_i y _ _ _ _ _ _; subst y)
    | (rename_i y _ _ _ _ _ _ _; subst y)
    | (rename_i y _ _ _ _ _ _ _ _; subst y)
    | intro _)

theorem sound_failRead {qs : Want} (s : State) (u m : Nat) (r : AccRead) (code d0 d1 : Nat) (hs : Sound qs s) :
    FstK qs (failRead s u m r code d0 d1) := by
  unfold failRead
  repeat' (first
    | with_reducible assumption
    | with_reducible apply sound_raise
    | with_reducible apply sound_dropPush
    | extract_lets
    | simp -zeta only [pairK_iff, pair3K_iff, fstK_iff, midK_iff]
    | simp -zeta only []
    | split
    | (with_reducible apply sound_ite)
    | (rename_i y; subst y)
    | (rename_i y _; subst y)
    | (rename_i y _ _; subst y)
    | (rename_i y _ _ _; subst y)
    | (rename_i y _ _ _ _; subst y)
    | (rename_i y _ _ _ _ _; subst y)
    | (rename_i y _ _ _ _ _ _; subst y)
    | (rename_i y _ _ _ _ _ _ _; subst y)
    | (rename_i y _ _ _ _ _ _ _ _; subst y)
    | intro _)

theorem sound_writeRows {qs : Want} (s : State) (u m : Nat) (r : AccRead) (rows rest : List UnitRow) (hs : Sound qs s) :
    FstK qs (writeRows s u m r rows rest) := by
  unfold writeRows
  repeat' (first
    | with_reducible assumption
    | with_reducible apply sound_foldAmax
    | with_reducible apply sound_writeRuns
    | with_reducible apply sound_countConv
    | with_reducible apply sound_pushImage
    | with_reducible apply sound_failRead
    | (with_reducible apply FstK.snd; with_reducible apply sound_failRead)
    | (refine PairK.elim (by assumption) ?_)
    | (refine FstK.elim (by assumption) ?_)
    | extract_lets
    | simp -zeta only [pairK_iff, pair3K_iff, fstK_iff, midK_iff]
    | simp -zeta only [sound_mk_iff]
    | simp -zeta only []
    | split)

theorem sound_cycleRead {qs : Want} (u m dcc : Nat) (r : AccRead) (s : State) (hs : Sound qs s) :
    FstK qs (cycleRead u m dcc r s) := by
  unfold cycleRead
  repeat' (first
    | with_reducible assumption
    | with_reducible apply sound_takeRow
    | (with_reducible apply FstK.snd; with_reducible apply sound_takeRow)
    | with_reducible apply sound_writeRows
    | (with_reducible apply FstK.snd; with_reducible apply sound_writeRows)
    | (refine PairK.elim (by assumption) ?_)
    | (refine FstK.elim (by assumption) ?_)
    | extract_lets
    | simp -zeta only [pairK_iff, pair3K_iff, fstK_iff, midK_iff]
    | simp -zeta only []
    | split)

theorem sound_cycleReads {qs : Want} (u m d dcc : Nat) : ∀ (rs done : List AccRead) (s : State),
    Sound qs s → FstK qs (cycleReads u m d dcc done rs s) := by
  intro rs
  induction rs with
  | nil => intro done s hs; unfold cycleReads; exact hs
  | cons r rest ih =>
    intro done s hs
    unfold cycleReads
    split
    · exact ih _ _ hs
    split
    · exact ih _ _ hs
    have hv := sound_cycleRead u m dcc r s hs
    revert hv
    generalize cycleRead u m dcc r s = v
    intro hv
    exact ih _ _ hv

theorem sound_readsCycle {qs : Want} (u m d dcc : Nat) (s : State) (hs : Sound qs s) :
    Sound qs (readsCycle u m d dcc s) := by
  unfold readsCycle
  repeat' (first
    | with_reducible assumption
    | with_reducible apply sound_setEng
    | with_reducible apply sound_cycleReads
    | (with_reducible apply FstK.snd; with_reducible apply sound_cycleReads)
    | (refine PairK.elim (by assumption) ?_)
    | (refine FstK.elim (by assumption) ?_)
    | extract_lets
    | simp -zeta only [pairK_iff, pair3K_iff, fstK_iff, midK_iff]
    | simp -zeta only [sound_mk_iff]
    | simp -zeta only []
    | split)

theorem sound_checkRow {qs : Want} (s : State) (u d line f i : Nat) (hs : Sound qs s) :
    Sound qs (checkRow s u d line f i) := by
  unfold checkRow
  repeat' (first
    | with_reducible assumption
    | with_reducible apply sound_checkLines
    | (with_reducible apply sound_foldl; intro _ _ _)
    | (with_reducible apply pairK_foldl; intro _ _ _)
    | (with_reducible apply PairK.snd; with_reducible apply pairK_foldl; intro _ _ _)
    | (with_reducible apply fstK_foldl; intro _ _ _)
    | (with_reducible apply FstK.snd; with_reducible apply fstK_foldl; intro _ _ _)
    | simp -zeta only [pairK_iff, pair3K_iff, fstK_iff, midK_iff]
    | simp -zeta only []
    | split)

theorem sound_decodeRow {qs : Want} (s : State) (u d line f i : Nat) (hs : Sound qs s) :
    FstK qs (decodeRow s u d line f i) := by
  unfold decodeRow
  repeat' (first
    | with_reducible assumption
    | with_reducible apply sound_incP
    | with_reducible apply sound_countNan
    | with_reducible apply sound_checkRow
    | extract_lets
    | simp -zeta only [pairK_iff, pair3K_iff, fstK_iff, midK_iff]
    | simp -zeta only []
    | split)

theorem sound_readElem {qs : Want} (s : State) (u dcc : Nat) (j : ElemJob) (hs : Sound qs s) :
    FstK qs (readElem s u dcc j) := by
  unfold readElem
  repeat' (first
    | with_reducible assumption
    | with_reducible apply sound_countNan
    | with_reducible apply sound_decodeRow
    | (with_reducible apply FstK.snd; with_reducible apply sound_decodeRow)
    | (with_reducible apply sound_foldl; intro _ _ _)
    | (with_reducible apply pairK_foldl; intro _ _ _)
    | (with_reducible apply PairK.snd; with_reducible apply pairK_foldl; intro _ _ _)
    | (with_reducible apply fstK_foldl; intro _ _ _)
    | (with_reducible apply FstK.snd; with_reducible apply fstK_foldl; intro _ _ _)
    | (refine PairK.elim (by assumption) ?_)
    | (refine FstK.elim (by assumption) ?_)
    | extract_lets
    | simp -zeta only [pairK_iff, pair3K_iff, fstK_iff, midK_iff]
    | simp -zeta only [sound_mk_iff]
    | simp -zeta only []
    | split)

theorem sound_writeElem {qs : Want} (s : State) (u : Nat) (j : ElemJob) (rows rest : List UnitRow) (hs : Sound qs s) :
    FstK qs (writeElem s u j rows rest) := by
  unfold writeElem
  repeat' (first
    | with_reducible assumption
    | with_reducible apply sound_raise
    | with_reducible apply sound_foldAmax
    | with_reducible apply sound_writeRuns
    | with_reducible apply sound_countConv
    | extract_lets
    | simp -zeta only [pairK_iff, pair3K_iff, fstK_iff, midK_iff]
    | simp -zeta only [sound_mk_iff]
    | split)

theorem sound_writeAmax {qs : Want} (s : State) (u : Nat) (j : ElemJob) (hs : Sound qs s) :
    Sound qs (writeAmax s u j) := by
  unfold writeAmax
  repeat' (first
    | with_reducible assumption
    | with_reducible apply sound_setCoreLine
    | with_reducible apply sound_foldAmax
    | extract_lets
    | split)

theorem sound_cycleElem {qs : Want} (u dcc : Nat) (j : ElemJob) (s : State) (hs : Sound qs s) :
    FstK qs (cycleElem u dcc j s) := by
  unfold cycleElem
  repeat' (first
    | with_reducible assumption
    | with_reducible apply sound_readElem
    | (with_reducible apply FstK.snd; with_reducible apply sound_readElem)
    | with_reducible apply sound_writeElem
    | (with_reducible apply FstK.snd; with_reducible apply sound_writeElem)
    | with_reducible apply sound_writeAmax
    | (refine PairK.elim (by assumption) ?_)
    | (refine FstK.elim (by assumption) ?_)
    | extract_lets
    | simp -zeta only [pairK_iff, pair3K_iff, fstK_iff, midK_iff]
    | simp -zeta only []
    | split)

theorem sound_cycleElems {qs : Want} (u d dcc : Nat) : ∀ (js done : List ElemJob) (s : State),
    Sound qs s → FstK qs (cycleElems u d dcc done js s) := by
  intro js
  induction js with
  | nil => intro done s hs; unfold cycleElems; exact hs
  | cons j rest ih =>
    intro done s hs
    unfold cycleElems
    split
    · exact ih _ _ hs
    split
    · exact ih _ _ hs
    have hv := sound_cycleElem u dcc j s hs
    revert hv
    generalize cycleElem u dcc j s = v
    intro hv
    exact ih _ _ hv

theorem sound_elemsCycle {qs : Want} (u d dcc : Nat) (s : State) (hs : Sound qs s) :
    Sound qs (elemsCycle u d dcc s) := by
  unfold elemsCycle
  repeat' (first
    | with_reducible assumption
    | with_reducible apply sound_setE
    | with_reducible apply sound_cycleElems
    | (with_reducible apply FstK.snd; with_reducible apply sound_cycleElems)
    | (refine PairK.elim (by assumption) ?_)
    | (refine FstK.elim (by assumption) ?_)
    | extract_lets
    | simp -zeta only [pairK_iff, pair3K_iff, fstK_iff, midK_iff]
    | simp -zeta only [sound_mk_iff]
    | simp -zeta only []
    | split)

end Sys2Proof.Machine
end

