-- ==== Sys2Proof/Laws/SoundJobs.lean ====
section
/-!
SUPPORT. The operations of Jobs.lean keep memory and marks canonical and leave the queue alone.
-/
set_option linter.unusedSimpArgs false
set_option linter.unusedVariables false

namespace Sys2Proof.Machine

theorem sound_result {qs : Want} (s : State) (c d lat : Nat) (w : CWrite) (hs : Sound qs s) :
    Sound qs (result s c d lat w) := by
  unfold result
  repeat' (first
    | with_reducible assumption
    | with_reducible apply sound_setC
    | extract_lets
    | simp -zeta only [sound_mk_iff]
    | split)

theorem sound_readLanes {qs : Want} (s : State) (u : Nat) (j : CJob) (hs : Sound qs s) :
    FstK qs (readLanes s u j) := by
  unfold readLanes
  repeat' (first
    | with_reducible assumption
    | with_reducible apply sound_incP
    | extract_lets
    | simp -zeta only [pairK_iff, pair3K_iff, fstK_iff, midK_iff]
    | simp -zeta only [sound_mk_iff]
    | simp -zeta only []
    | split)

theorem sound_writeOuts {qs : Want} (s : State) (u : Nat) (os : List (Nat × RowOut)) (hs : Sound qs s) :
    Sound qs (writeOuts s u os) := by
  unfold writeOuts
  repeat' (first
    | with_reducible assumption
    | with_reducible apply sound_writeRuns
    | (with_reducible apply sound_foldl; intro _ _ _)
    | (with_reducible apply pairK_foldl; intro _ _ _)
    | (with_reducible apply PairK.snd; with_reducible apply pairK_foldl; intro _ _ _)
    | (with_reducible apply fstK_foldl; intro _ _ _)
    | (with_reducible apply FstK.snd; with_reducible apply fstK_foldl; intro _ _ _)
    | simp -zeta only [pairK_iff, pair3K_iff, fstK_iff, midK_iff]
    | simp -zeta only []
    | split)

theorem sound_sfaccRead {qs : Want} (s : State) (c d dcc : Nat) (j : CJob) (hs : Sound qs s) :
    FstK qs (sfaccRead s c d dcc j) := by
  unfold sfaccRead
  repeat' (first
    | with_reducible assumption
    | with_reducible apply sound_raise
    | with_reducible apply sound_countNan
    | with_reducible apply sound_countConv
    | extract_lets
    | simp -zeta only [pairK_iff, pair3K_iff, fstK_iff, midK_iff]
    | simp -zeta only []
    | split)

theorem sound_meshRead {qs : Want} (s : State) (c d dcc : Nat) (j : CJob) (hs : Sound qs s) :
    FstK qs (meshRead s c d dcc j) := by
  unfold meshRead
  repeat' (first
    | with_reducible assumption
    | with_reducible apply sound_raise
    | with_reducible apply sound_updXfer
    | with_reducible apply sound_pumpXfer
    | with_reducible apply sound_dropPush
    | with_reducible apply sound_pumpPush
    | extract_lets
    | simp -zeta only [pairK_iff, pair3K_iff, fstK_iff, midK_iff]
    | simp -zeta only [sound_mk_iff]
    | simp -zeta only []
    | split)

theorem sound_doJob {qs : Want} (s : State) (c d dcc : Nat) (j : CJob) (hs : Sound qs s) :
    FstK qs (doJob s c d dcc j) := by
  unfold doJob
  repeat' (first
    | with_reducible assumption
    | with_reducible apply sound_writeP
    | with_reducible apply sound_foldAmax
    | with_reducible apply sound_checkLines
    | with_reducible apply sound_result
    | with_reducible apply sound_readLanes
    | (with_reducible apply FstK.snd; with_reducible apply sound_readLanes)
    | with_reducible apply sound_writeOuts
    | with_reducible apply sound_sfaccRead
    | (with_reducible apply FstK.snd; with_reducible apply sound_sfaccRead)
    | with_reducible apply sound_meshRead
    | (with_reducible apply FstK.snd; with_reducible apply sound_meshRead)
    | (with_reducible apply sound_foldl; intro _ _ _)
    | (with_reducible apply pairK_foldl; intro _ _ _)
    | (with_reducible apply PairK.snd; with_reducible apply pairK_foldl; intro _ _ _)
    | (with_reducible apply fstK_foldl; intro _ _ _)
    | (with_reducible apply FstK.snd; with_reducible apply fstK_foldl; intro _ _ _)
    | (refine PairK.elim (by assumption) ?_)
    | (refine FstK.elim (by assumption) ?_)
    | extract_lets
    | simp -zeta only [pairK_iff, pair3K_iff, fstK_iff, midK_iff]
    | simp -zeta only []
    | split
    | (with_reducible apply sound_ite)
    | (rename_i y; subst y)
    | (rename_i y _; subst y)
    | (rename_i y _ _; subst y)
    | (rename_i y _ _ _; subst y)
    | (rename_i y _ _ _ _; subst y)
    | (rename_i y _ _ _ _ _; subst y)
    | (rename_i y _ _ _ _ _ _; subst y)
    | (rename_i y _ _ _ _ _ _ _; subst y)
    | (rename_i y _ _ _ _ _ _ _ _; subst y)
    | intro _)

theorem sound_serve {qs : Want} (c d dcc : Nat) : ∀ (rs : List (Nat × CJob)) (used : List Nat) (a : Served),
    Sound qs a.s → Sound qs (serve c d dcc rs used a).s := by
  intro rs
  induction rs with
  | nil => intro used a h; exact h
  | cons x r ih =>
    rcases x with ⟨i, j⟩
    intro used a h
    unfold serve
    dsimp only
    split
    · exact ih _ _ h
    · have hv := sound_doJob a.s c d dcc j h
      revert hv
      generalize doJob a.s c d dcc j = v
      intro hv
      exact ih _ _ hv

theorem sound_jobsCycle {qs : Want} (s : State) (c d dcc : Nat) (hs : Sound qs s) : Sound qs (jobsCycle s c d dcc) := by
  unfold jobsCycle
  extract_lets js rs
  split
  · exact hs
  · exact sound_setC _ _ _ (sound_serve _ _ _ _ _ _ hs)

end Sys2Proof.Machine
end

