-- ==== Sys2Proof/Laws/SoundTime.lean ====
section
/-!
SUPPORT. The operations of Time.lean keep memory and marks canonical and leave the queue alone.
-/
set_option linter.unusedSimpArgs false
set_option linter.unusedVariables false

namespace Sys2Proof.Machine

theorem sound_settleClocks {qs : Want} (s : State) (hs : Sound qs s) :
    Sound qs (settleClocks s) := by
  unfold settleClocks
  repeat' (first
    | with_reducible assumption
    | (with_reducible apply sound_foldl; intro _ _ _)
    | (with_reducible apply pairK_foldl; intro _ _ _)
    | (with_reducible apply PairK.snd; with_reducible apply pairK_foldl; intro _ _ _)
    | (with_reducible apply fstK_foldl; intro _ _ _)
    | (with_reducible apply FstK.snd; with_reducible apply fstK_foldl; intro _ _ _)
    | extract_lets
    | simp -zeta only [pairK_iff, pair3K_iff, fstK_iff, midK_iff]
    | simp -zeta only [sound_mk_iff]
    | simp -zeta only []
    | split)

theorem sound_addTime {qs : Want} (milli : Nat) (s : State) (hs : Sound qs s) :
    Sound qs (addTime milli s) := by
  unfold addTime
  repeat' (first
    | with_reducible assumption
    | with_reducible apply sound_settleClocks
    | extract_lets
    | simp -zeta only [sound_mk_iff]
    | split)

theorem sound_count {qs : Want} (k : Nat) (s : State) (hs : Sound qs s) :
    Sound qs (count k s) := by
  unfold count
  repeat' (first
    | with_reducible assumption
    | with_reducible apply sound_addTime
    | extract_lets
    | simp -zeta only [pairK_iff, pair3K_iff, fstK_iff, midK_iff]
    | simp -zeta only [sound_mk_iff]
    | simp -zeta only []
    | split)

theorem sound_engineCycle {qs : Want} (moved : List Nat) (s : State) (e : Nat) (hs : Sound qs s) :
    Sound qs (engineCycle moved s e) := by
  unfold engineCycle
  repeat' (first
    | with_reducible assumption
    | with_reducible apply sound_cyclePart
    | (with_reducible apply FstK.snd; with_reducible apply sound_cyclePart)
    | (refine FstK.elim (by assumption) ?_)
    | extract_lets
    | simp -zeta only [pairK_iff, pair3K_iff, fstK_iff, midK_iff]
    | simp -zeta only []
    | split
    | (with_reducible apply sound_ite)
    | (rename_i y; subst y)
    | (rename_i y _; subst y)
    | (rename_i y _ _; subst y)
    | (rename_i y _ _ _; subst y)
    | (rename_i y _ _ _ _; subst y)
    | (rename_i y _ _ _ _ _; subst y)
    | (rename_i y _ _ _ _ _ _; subst y)
    | (rename_i y _ _ _ _ _ _ _; subst y)
    | (rename_i y _ _ _ _ _ _ _ _; subst y)
    | intro _)

theorem sound_engineReads {qs : Want} (moved : List Nat) (s : State) (e : Nat) (hs : Sound qs s) :
    Sound qs (engineReads moved s e) := by
  unfold engineReads
  repeat' (first
    | with_reducible assumption
    | with_reducible apply sound_readsCycle
    | (with_reducible apply sound_foldl; intro _ _ _)
    | (with_reducible apply pairK_foldl; intro _ _ _)
    | (with_reducible apply PairK.snd; with_reducible apply pairK_foldl; intro _ _ _)
    | (with_reducible apply fstK_foldl; intro _ _ _)
    | (with_reducible apply FstK.snd; with_reducible apply fstK_foldl; intro _ _ _)
    | simp -zeta only [pairK_iff, pair3K_iff, fstK_iff, midK_iff]
    | simp -zeta only []
    | split)

theorem sound_elementCycle {qs : Want} (moved : List Nat) (s : State) (c : Nat) (hs : Sound qs s) :
    Sound qs (elementCycle moved s c) := by
  unfold elementCycle
  repeat' (first
    | with_reducible assumption
    | with_reducible apply sound_elemsCycle
    | (with_reducible apply sound_foldl; intro _ _ _)
    | (with_reducible apply pairK_foldl; intro _ _ _)
    | (with_reducible apply PairK.snd; with_reducible apply pairK_foldl; intro _ _ _)
    | (with_reducible apply fstK_foldl; intro _ _ _)
    | (with_reducible apply FstK.snd; with_reducible apply fstK_foldl; intro _ _ _)
    | simp -zeta only [pairK_iff, pair3K_iff, fstK_iff, midK_iff]
    | simp -zeta only []
    | split)

theorem sound_chamCycle {qs : Want} (moved : List Nat) (s : State) (c : Nat) (hs : Sound qs s) :
    Sound qs (chamCycle moved s c) := by
  unfold chamCycle
  repeat' (first
    | with_reducible assumption
    | with_reducible apply sound_setC
    | with_reducible apply sound_jobsCycle
    | split)

theorem sound_tick {qs : Want} (s : State) (hs : Sound qs s) :
    Sound qs (tick s) := by
  unfold tick
  repeat' (first
    | with_reducible assumption
    | with_reducible apply sound_count
    | with_reducible apply sound_engineCycle
    | with_reducible apply sound_engineReads
    | with_reducible apply sound_elementCycle
    | with_reducible apply sound_chamCycle
    | (with_reducible apply sound_foldl; intro _ _ _)
    | (with_reducible apply pairK_foldl; intro _ _ _)
    | (with_reducible apply PairK.snd; with_reducible apply pairK_foldl; intro _ _ _)
    | (with_reducible apply fstK_foldl; intro _ _ _)
    | (with_reducible apply FstK.snd; with_reducible apply fstK_foldl; intro _ _ _)
    | extract_lets
    | simp -zeta only [pairK_iff, pair3K_iff, fstK_iff, midK_iff]
    | simp -zeta only []
    | split)

theorem sound_settleChams {qs : Want} (s : State) (hs : Sound qs s) :
    Sound qs (settleChams s) := by
  unfold settleChams
  repeat' (first
    | with_reducible assumption
    | simp -zeta only [pairK_iff, pair3K_iff, fstK_iff, midK_iff]
    | simp -zeta only [sound_mk_iff]
    | simp -zeta only []
    | split)

theorem sound_leap {qs : Want} (k : Nat) (s : State) (hs : Sound qs s) :
    Sound qs (leap k s) := by
  unfold leap
  repeat' (first
    | with_reducible assumption
    | with_reducible apply sound_count
    | with_reducible apply sound_settleChams
    | split)

theorem sound_advanceTicks {qs : Want}  : ∀ (x0 : Nat)  (x1 : State), Sound qs x1 →
    Sound qs (advanceTicks  x0 x1) := by
  intro x0
  induction x0 with
  | zero => (intros; unfold advanceTicks; first | assumption | (with_reducible apply pairK_mk; assumption) | (with_reducible apply pair3K_mk; assumption))
  | succ x0 ih => (
  intros
  unfold advanceTicks
  repeat' (first
    | with_reducible assumption
    | with_reducible apply ih
    | with_reducible apply sound_tick
    | with_reducible apply sound_leap
    | split))

theorem sound_advance {qs : Want} (k : Nat) (s : State) (hs : Sound qs s) :
    Sound qs (advance k s) := by
  unfold advance
  repeat' (first
    | with_reducible assumption
    | with_reducible apply sound_addTime
    | with_reducible apply sound_advanceTicks
    | split)

theorem sound_toCtc {qs : Want} (t : Nat) (s : State) (hs : Sound qs s) :
    Sound qs (toCtc t s) := by
  unfold toCtc
  repeat' (first
    | with_reducible assumption
    | with_reducible apply sound_advance
    | split)

theorem sound_toDcc {qs : Want} (d t : Nat) (s : State) (hs : Sound qs s) :
    OptK qs (toDcc d t s) := by
  unfold toDcc
  repeat' (first
    | with_reducible assumption
    | with_reducible apply optK_none
    | with_reducible apply optK_some
    | with_reducible apply sound_advance
    | extract_lets
    | split)

end Sys2Proof.Machine
end

