-- ==== Sys2Proof/Laws/SoundSched.lean ====
section
/-!
SUPPORT. The operations of Sched.lean keep memory and marks canonical and leave the queue alone.
-/
set_option linter.unusedSimpArgs false
set_option linter.unusedVariables false

namespace Sys2Proof.Machine

theorem sound_takeWindow {qs : Want} (s : State) (i dcc : Nat) (hs : Sound qs s) :
    Sound qs (takeWindow s i dcc) := by
  unfold takeWindow
  repeat' (first
    | with_reducible assumption
    | with_reducible apply sound_setStream
    | extract_lets
    | simp -zeta only [sound_mk_iff]
    | split)

theorem sound_setDecoded {qs : Want} (s : State) (u needle : Nat) (l : List Decoded) (hs : Sound qs s) :
    Sound qs (setDecoded s u needle l) := by
  unfold setDecoded
  repeat' (first
    | with_reducible assumption
    | with_reducible apply sound_updN
    | with_reducible apply sound_setC
    | simp -zeta only [pairK_iff, pair3K_iff, fstK_iff, midK_iff]
    | simp -zeta only [sound_mk_iff]
    | simp -zeta only []
    | split)

theorem sound_settleOwed {qs : Want} (s : State) (d u needle key : Nat) (hs : Sound qs s) :
    OptK qs (settleOwed s d u needle key) := by
  unfold settleOwed
  extract_lets l
  split
  · exact optK_some hs
  · intro t e
    cases hr : reserve s u d (Decoded.push ‹_›) with
    | none => rw [hr] at e; cases e
    | some v => rw [hr] at e; cases e; exact sound_setDecoded _ _ _ _ hs

theorem sound_meetCond {qs : Want} (s : State) (d : Nat) (r : StallReq) (hs : Sound qs s) :
    OptK qs (meetCond s d r) := by
  unfold meetCond
  repeat' (first
    | with_reducible assumption
    | with_reducible apply optK_none
    | with_reducible apply optK_some
    | with_reducible apply sound_settleOwed
    | (refine OptK.elim (by assumption) ?_)
    | split)

theorem sound_meetAll {qs : Want} (s : State) (d : Nat) (rs : List StallReq) (hs : Sound qs s) :
    FstK qs (meetAll s d rs) := by
  unfold meetAll
  repeat' (first
    | with_reducible assumption
    | with_reducible apply sound_meetCond
    | (with_reducible apply sound_foldl; intro _ _ _)
    | (with_reducible apply pairK_foldl; intro _ _ _)
    | (with_reducible apply PairK.snd; with_reducible apply pairK_foldl; intro _ _ _)
    | (with_reducible apply fstK_foldl; intro _ _ _)
    | (with_reducible apply FstK.snd; with_reducible apply fstK_foldl; intro _ _ _)
    | (refine OptK.elim (by assumption) ?_)
    | simp -zeta only [pairK_iff, pair3K_iff, fstK_iff, midK_iff]
    | simp -zeta only []
    | split)

theorem sound_requestStall {qs : Want} (s : State) (d : Nat) (r : StallReq) (hs : Sound qs s) :
    Sound qs (requestStall s d r) := by
  unfold requestStall
  repeat' (first
    | with_reducible assumption
    | with_reducible apply sound_setD
    | extract_lets
    | simp -zeta only [sound_mk_iff]
    | split)

theorem sound_execStallReq {qs : Want} (d : Nat) (s : State) (hs : Sound qs s) :
    OutK qs (execStallReq d s) := by
  unfold execStallReq
  repeat' (first
    | with_reducible assumption
    | with_reducible apply outK_fault
    | with_reducible apply outK_refused
    | with_reducible apply outK_next
    | with_reducible apply sound_incP
    | with_reducible apply sound_setD
    | with_reducible apply sound_request
    | extract_lets
    | simp -zeta only [pairK_iff, pair3K_iff, fstK_iff, midK_iff]
    | simp -zeta only [sound_mk_iff]
    | simp -zeta only []
    | split)

theorem sound_execFreeze {qs : Want} (d : Nat) (s : State) (hs : Sound qs s) :
    OutK qs (execFreeze d s) := by
  unfold execFreeze
  repeat' (first
    | with_reducible assumption
    | with_reducible apply outK_fault
    | with_reducible apply outK_refused
    | with_reducible apply outK_next
    | with_reducible apply sound_incP
    | with_reducible apply sound_advance
    | extract_lets
    | split)

theorem sound_announceResume {qs : Want} (s : State) (d : Nat) (hs : Sound qs s) :
    Sound qs (announceResume s d) := by
  unfold announceResume
  repeat' (first
    | with_reducible assumption
    | with_reducible apply sound_setD
    | with_reducible apply sound_meetAll
    | (with_reducible apply FstK.snd; with_reducible apply sound_meetAll)
    | (refine PairK.elim (by assumption) ?_)
    | (refine FstK.elim (by assumption) ?_)
    | extract_lets
    | simp -zeta only [pairK_iff, pair3K_iff, fstK_iff, midK_iff]
    | simp -zeta only [sound_mk_iff]
    | simp -zeta only []
    | split)

theorem sound_execResumeOk {qs : Want} (d u : Nat) (s : State) (hs : Sound qs s) :
    OutK qs (execResumeOk d u s) := by
  unfold execResumeOk
  repeat' (first
    | with_reducible assumption
    | with_reducible apply outK_fault
    | with_reducible apply outK_refused
    | with_reducible apply outK_next
    | with_reducible apply sound_incP
    | with_reducible apply sound_setD
    | with_reducible apply sound_meetAll
    | (with_reducible apply FstK.snd; with_reducible apply sound_meetAll)
    | with_reducible apply sound_announceResume
    | (refine FstK.elim (by assumption) ?_)
    | extract_lets
    | simp -zeta only [pairK_iff, pair3K_iff, fstK_iff, midK_iff]
    | simp -zeta only [sound_mk_iff]
    | simp -zeta only []
    | split)

theorem sound_execResume {qs : Want} (d : Nat) (s : State) (hs : Sound qs s) :
    OutK qs (execResume d s) := by
  unfold execResume
  repeat' (first
    | with_reducible assumption
    | with_reducible apply outK_fault
    | with_reducible apply outK_refused
    | with_reducible apply outK_next
    | with_reducible apply sound_incP
    | with_reducible apply sound_toCtc
    | split)

theorem sound_execStallTimeout {qs : Want} (d : Nat) (s : State) (hs : Sound qs s) :
    OutK qs (execStallTimeout d s) := by
  unfold execStallTimeout
  repeat' (first
    | with_reducible assumption
    | with_reducible apply outK_fault
    | with_reducible apply outK_refused
    | with_reducible apply outK_next
    | with_reducible apply sound_raise
    | with_reducible apply sound_freeBits
    | (with_reducible apply PairK.snd; with_reducible apply sound_freeBits)
    | with_reducible apply sound_advance
    | (refine PairK.elim (by assumption) ?_)
    | (refine FstK.elim (by assumption) ?_)
    | extract_lets
    | simp -zeta only [pairK_iff, pair3K_iff, fstK_iff, midK_iff]
    | simp -zeta only [sound_mk_iff]
    | simp -zeta only []
    | split
    | (with_reducible apply sound_ite)
    | (rename_i y; subst y)
    | (rename_i y _; subst y)
    | (rename_i y _ _; subst y)
    | (rename_i y _ _ _; subst y)
    | (rename_i y _ _ _ _; subst y)
    | (rename_i y _ _ _ _ _; subst y)
    | (rename_i y _ _ _ _ _ _; subst y)
    | (rename_i y _ _ _ _ _ _ _; subst y)
    | (rename_i y _ _ _ _ _ _ _ _; subst y)
    | intro _)

theorem sound_execIncr {qs : Want} (p t : Nat) (s : State) (hs : Sound qs s) :
    OutK qs (execIncr p t s) := by
  unfold execIncr
  repeat' (first
    | with_reducible assumption
    | with_reducible apply outK_fault
    | with_reducible apply outK_refused
    | with_reducible apply outK_next
    | with_reducible apply sound_incP
    | with_reducible apply sound_addTok
    | extract_lets
    | simp -zeta only [pairK_iff, pair3K_iff, fstK_iff, midK_iff]
    | simp -zeta only [sound_mk_iff]
    | simp -zeta only []
    | split)

theorem sound_noteFinished {qs : Want} (s : State) (d : Nat) (hs : Sound qs s) :
    Sound qs (noteFinished s d) := by
  unfold noteFinished
  repeat' (first
    | with_reducible assumption
    | with_reducible apply sound_setD
    | extract_lets
    | simp -zeta only [sound_mk_iff]
    | split)

theorem sound_toHorizon {qs : Want} (s : State) (d slot : Nat) (hs : Sound qs s) :
    OptK qs (toHorizon s d slot) := by
  unfold toHorizon
  repeat' (first
    | with_reducible assumption
    | with_reducible apply optK_none
    | with_reducible apply optK_some
    | with_reducible apply sound_toCtc
    | with_reducible apply sound_toDcc
    | (refine OptK.elim (by assumption) ?_)
    | split)

end Sys2Proof.Machine
end

