-- ==== Sys2Proof/Laws/SoundEland.lean ====
section
/-!
SUPPORT. The operations of Eland.lean keep memory and marks canonical and leave the queue alone.
-/
set_option linter.unusedSimpArgs false
set_option linter.unusedVariables false

namespace Sys2Proof.Machine

theorem sound_clearPresent {qs : Want} (s : State) (c : Nat) (rs : List (Nat × Nat)) (hs : Sound qs s) :
    Sound qs (clearPresent s c rs) := by
  unfold clearPresent
  repeat' (first
    | with_reducible assumption
    | with_reducible apply sound_setPresent
    | (with_reducible apply sound_foldl; intro _ _ _)
    | (with_reducible apply pairK_foldl; intro _ _ _)
    | (with_reducible apply PairK.snd; with_reducible apply pairK_foldl; intro _ _ _)
    | (with_reducible apply fstK_foldl; intro _ _ _)
    | (with_reducible apply FstK.snd; with_reducible apply fstK_foldl; intro _ _ _)
    | simp -zeta only [pairK_iff, pair3K_iff, fstK_iff, midK_iff]
    | simp -zeta only []
    | split)

theorem sound_issueFault {qs : Want} (s : State) (x : Ctx) (code : Nat) (hs : Sound qs s) :
    Sound qs (issueFault s x code) := by
  unfold issueFault
  repeat' (first
    | with_reducible assumption
    | with_reducible apply sound_raise
    | split)

theorem sound_atSlot {qs : Want} (s : State) (c : Nat) (n : Needle) (d slot : Nat) (hs : Sound qs s) :
    OptK qs (atSlot s c n d slot) := by
  unfold atSlot
  repeat' (first
    | with_reducible assumption
    | with_reducible apply optK_none
    | with_reducible apply optK_some
    | with_reducible apply sound_advance
    | with_reducible apply sound_toDcc
    | (refine OptK.elim (by assumption) ?_)
    | split)

theorem sound_consumeCond {qs : Want} (s : State) (c d : Nat) (n : Needle) (hs : Sound qs s) :
    Sound qs (consumeCond s c d n) := by
  unfold consumeCond
  repeat' (first
    | with_reducible assumption
    | with_reducible apply sound_updN
    | with_reducible apply sound_subTok
    | with_reducible apply sound_takeWindow
    | extract_lets
    | simp -zeta only [pairK_iff, pair3K_iff, fstK_iff, midK_iff]
    | simp -zeta only [sound_mk_iff]
    | simp -zeta only []
    | split
    | (with_reducible apply sound_ite)
    | (rename_i y; subst y)
    | (rename_i y _; subst y)
    | (rename_i y _ _; subst y)
    | (rename_i y _ _ _; subst y)
    | (rename_i y _ _ _ _; subst y)
    | (rename_i y _ _ _ _ _; subst y)
    | (rename_i y _ _ _ _ _ _; subst y)
    | (rename_i y _ _ _ _ _ _ _; subst y)
    | (rename_i y _ _ _ _ _ _ _ _; subst y)
    | intro _)

theorem sound_issueAt {qs : Want} (s : State) (c : Nat) (n : Needle) (d w : Nat) (y : Decoded) (fx : Ctx → State → Eff)
    (hs : Sound qs s) (hfx : ∀ x t, Sound qs t → EffK qs (fx x t)) : Sound qs (issueAt s c n d w y fx) := by
  unfold issueAt
  have hc := sound_consumeCond s c d n hs
  revert hc
  generalize consumeCond s c d n = s1
  intro hc
  extract_lets e x slot cx
  split
  · exact sound_raise _ _ hc
  split
  · exact sound_raise _ _ hc
  split
  · exact sound_issueFault _ _ _ hc
  split
  · rename_i heq; exact sound_updN _ _ _ _ (EffK.elim heq (hfx _ _ (sound_updN _ _ _ _ hc)))
  · exact sound_updN _ _ _ _ (sound_updN _ _ _ _ hc)
  · exact sound_issueFault _ _ _ (sound_updN _ _ _ _ hc)
  · exact sound_raise _ _ (sound_updN _ _ _ _ hc)

theorem sound_issueE {qs : Want} (op c : Nat) (n : Needle) (word : W128) (fx : Ctx → State → Eff) (s : State) (hs : Sound qs s) (hfx : ∀ x0 x1, Sound qs x1 → EffK qs (fx x0 x1)) :
    OutK qs (issueE op c n word fx s) := by
  unfold issueE
  repeat' (first
    | with_reducible assumption
    | with_reducible apply outK_fault
    | with_reducible apply outK_refused
    | with_reducible apply outK_next
    | with_reducible apply hfx
    | (refine PairK.snd (hfx _ ?_))
    | with_reducible apply sound_atSlot
    | with_reducible apply sound_issueAt
    | (refine OptK.elim (by assumption) ?_)
    | (refine PairK.elim (by assumption) ?_)
    | (refine OutK.elim (by assumption) ?_)
    | extract_lets
    | simp -zeta only [pairK_iff, pair3K_iff, fstK_iff, midK_iff]
    | split)

theorem sound_activate {qs : Want} (s : State) (c : Nat) (n : Needle) (slot : Nat) (hs : Sound qs s) :
    Sound qs (activate s c n slot) := by
  unfold activate
  repeat' (first
    | with_reducible assumption
    | with_reducible apply sound_updN
    | simp -zeta only [pairK_iff, pair3K_iff, fstK_iff, midK_iff]
    | simp -zeta only [sound_mk_iff]
    | simp -zeta only []
    | split)

theorem sound_pickIssued {qs : Want} (s : State) (c slot : Nat) (hs : Sound qs s) :
    Sound qs (pickIssued s c slot) := by
  unfold pickIssued
  repeat' (first
    | with_reducible assumption
    | with_reducible apply sound_setE
    | with_reducible apply sound_activate
    | extract_lets
    | simp -zeta only [sound_mk_iff]
    | split)

theorem sound_fxPick {qs : Want} (x : Ctx) (s : State) (hs : Sound qs s) :
    EffK qs (fxPick x s) := by
  unfold fxPick
  repeat' (first
    | with_reducible assumption
    | with_reducible apply effK_full
    | with_reducible apply effK_fault
    | with_reducible apply effK_faultD
    | with_reducible apply effK_ok
    | with_reducible apply sound_updN
    | with_reducible apply sound_pickIssued
    | extract_lets
    | simp -zeta only [pairK_iff, pair3K_iff, fstK_iff, midK_iff]
    | simp -zeta only [sound_mk_iff]
    | simp -zeta only []
    | split)

theorem sound_fxHalt {qs : Want} (x : Ctx) (s : State) (hs : Sound qs s) :
    EffK qs (fxHalt x s) := by
  unfold fxHalt
  repeat' (first
    | with_reducible assumption
    | with_reducible apply effK_full
    | with_reducible apply effK_fault
    | with_reducible apply effK_faultD
    | with_reducible apply effK_ok
    | with_reducible apply sound_updN
    | with_reducible apply sound_noteFinished
    | with_reducible apply sound_pickIssued
    | extract_lets
    | simp -zeta only [pairK_iff, pair3K_iff, fstK_iff, midK_iff]
    | simp -zeta only [sound_mk_iff]
    | simp -zeta only []
    | split)

theorem sound_fxLoop {qs : Want} (x : Ctx) (s : State) (hs : Sound qs s) :
    EffK qs (fxLoop x s) := by
  unfold fxLoop
  repeat' (first
    | with_reducible assumption
    | with_reducible apply effK_full
    | with_reducible apply effK_fault
    | with_reducible apply effK_faultD
    | with_reducible apply effK_ok
    | split)

theorem sound_fxPart {qs : Want} (x : Ctx) (s : State) (hs : Sound qs s) :
    EffK qs (fxPart x s) := by
  unfold fxPart
  repeat' (first
    | with_reducible assumption
    | with_reducible apply effK_full
    | with_reducible apply effK_fault
    | with_reducible apply effK_faultD
    | with_reducible apply effK_ok
    | with_reducible apply sound_setE
    | extract_lets
    | simp -zeta only [pairK_iff, pair3K_iff, fstK_iff, midK_iff]
    | simp -zeta only [sound_mk_iff]
    | simp -zeta only []
    | split)

theorem sound_advanceSteps {qs : Want} (s : State) (strand : Nat) (data rng : Bool) (hs : Sound qs s) :
    Sound qs (advanceSteps s strand data rng) := by
  unfold advanceSteps
  repeat' (first
    | with_reducible assumption
    | with_reducible apply sound_setP
    | with_reducible apply sound_advanceMons
    | extract_lets
    | simp -zeta only [pairK_iff, pair3K_iff, fstK_iff, midK_iff]
    | simp -zeta only [sound_mk_iff]
    | simp -zeta only []
    | split
    | (with_reducible apply sound_ite)
    | (rename_i y; subst y)
    | (rename_i y _; subst y)
    | (rename_i y _ _; subst y)
    | (rename_i y _ _ _; subst y)
    | (rename_i y _ _ _ _; subst y)
    | (rename_i y _ _ _ _ _; subst y)
    | (rename_i y _ _ _ _ _ _; subst y)
    | (rename_i y _ _ _ _ _ _ _; subst y)
    | (rename_i y _ _ _ _ _ _ _ _; subst y)
    | intro _)

theorem sound_fxStep {qs : Want} (x : Ctx) (s : State) (hs : Sound qs s) :
    EffK qs (fxStep x s) := by
  unfold fxStep
  repeat' (first
    | with_reducible assumption
    | with_reducible apply effK_full
    | with_reducible apply effK_fault
    | with_reducible apply effK_faultD
    | with_reducible apply effK_ok
    | with_reducible apply sound_updN
    | with_reducible apply sound_advanceSteps
    | extract_lets
    | simp -zeta only [pairK_iff, pair3K_iff, fstK_iff, midK_iff]
    | simp -zeta only [sound_mk_iff]
    | simp -zeta only []
    | split)

theorem sound_fxSetb {qs : Want} (x : Ctx) (s : State) (hs : Sound qs s) :
    EffK qs (fxSetb x s) := by
  unfold fxSetb
  repeat' (first
    | with_reducible assumption
    | with_reducible apply effK_full
    | with_reducible apply effK_fault
    | with_reducible apply effK_faultD
    | with_reducible apply effK_ok
    | with_reducible apply sound_updN
    | simp -zeta only [pairK_iff, pair3K_iff, fstK_iff, midK_iff]
    | simp -zeta only [sound_mk_iff]
    | simp -zeta only []
    | split)

theorem sound_fxTpos {qs : Want} (x : Ctx) (s : State) (hs : Sound qs s) :
    EffK qs (fxTpos x s) := by
  unfold fxTpos
  repeat' (first
    | with_reducible assumption
    | with_reducible apply effK_full
    | with_reducible apply effK_fault
    | with_reducible apply effK_faultD
    | with_reducible apply effK_ok
    | with_reducible apply sound_updN
    | simp -zeta only [pairK_iff, pair3K_iff, fstK_iff, midK_iff]
    | simp -zeta only [sound_mk_iff]
    | simp -zeta only []
    | split)

theorem sound_fxSync {qs : Want} (x : Ctx) (s : State) (hs : Sound qs s) :
    EffK qs (fxSync x s) := by
  unfold fxSync
  repeat' (first
    | with_reducible assumption
    | with_reducible apply effK_full
    | with_reducible apply effK_fault
    | with_reducible apply effK_faultD
    | with_reducible apply effK_ok
    | with_reducible apply sound_subTok
    | split)

theorem sound_fxSignal {qs : Want} (x : Ctx) (s : State) (hs : Sound qs s) :
    EffK qs (fxSignal x s) := by
  unfold fxSignal
  repeat' (first
    | with_reducible assumption
    | with_reducible apply effK_full
    | with_reducible apply effK_fault
    | with_reducible apply effK_faultD
    | with_reducible apply effK_ok
    | with_reducible apply sound_sendIncr
    | split)

theorem sound_execNop {qs : Want} (c : Nat) (n : Needle) (w : W128) (s : State) (hs : Sound qs s) :
    OutK qs (execNop c n w s) := by
  unfold execNop
  repeat' (first
    | with_reducible assumption
    | with_reducible apply outK_fault
    | with_reducible apply outK_refused
    | with_reducible apply outK_next
    | with_reducible apply effK_full
    | with_reducible apply effK_fault
    | with_reducible apply effK_faultD
    | with_reducible apply effK_ok
    | with_reducible apply sound_issueE
    | (refine OutK.elim (by assumption) ?_)
    | extract_lets
    | simp -zeta only [pairK_iff, pair3K_iff, fstK_iff, midK_iff]
    | simp -zeta only []
    | split
    | (with_reducible apply sound_ite)
    | (rename_i y; subst y)
    | (rename_i y _; subst y)
    | (rename_i y _ _; subst y)
    | (rename_i y _ _ _; subst y)
    | (rename_i y _ _ _ _; subst y)
    | (rename_i y _ _ _ _ _; subst y)
    | (rename_i y _ _ _ _ _ _; subst y)
    | (rename_i y _ _ _ _ _ _ _; subst y)
    | (rename_i y _ _ _ _ _ _ _ _; subst y)
    | intro _)

theorem sound_execHalt {qs : Want} (c : Nat) (n : Needle) (w : W128) (s : State) (hs : Sound qs s) :
    OutK qs (execHalt c n w s) := by
  unfold execHalt
  repeat' (first
    | with_reducible assumption
    | with_reducible apply outK_fault
    | with_reducible apply outK_refused
    | with_reducible apply outK_next
    | with_reducible apply effK_full
    | with_reducible apply effK_fault
    | with_reducible apply effK_faultD
    | with_reducible apply effK_ok
    | with_reducible apply sound_issueE
    | with_reducible apply sound_fxHalt
    | (refine OutK.elim (by assumption) ?_)
    | (refine EffK.elim (by assumption) ?_)
    | split)

theorem sound_execLoop {qs : Want} (c : Nat) (n : Needle) (w : W128) (s : State) (hs : Sound qs s) :
    OutK qs (execLoop c n w s) := by
  unfold execLoop
  repeat' (first
    | with_reducible assumption
    | with_reducible apply outK_fault
    | with_reducible apply outK_refused
    | with_reducible apply outK_next
    | with_reducible apply effK_full
    | with_reducible apply effK_fault
    | with_reducible apply effK_faultD
    | with_reducible apply effK_ok
    | with_reducible apply sound_issueE
    | with_reducible apply sound_fxLoop
    | (refine OutK.elim (by assumption) ?_)
    | (refine EffK.elim (by assumption) ?_)
    | split)

theorem sound_execPick {qs : Want} (c : Nat) (n : Needle) (w : W128) (s : State) (hs : Sound qs s) :
    OutK qs (execPick c n w s) := by
  unfold execPick
  repeat' (first
    | with_reducible assumption
    | with_reducible apply outK_fault
    | with_reducible apply outK_refused
    | with_reducible apply outK_next
    | with_reducible apply effK_full
    | with_reducible apply effK_fault
    | with_reducible apply effK_faultD
    | with_reducible apply effK_ok
    | with_reducible apply sound_issueE
    | with_reducible apply sound_fxPick
    | (refine OutK.elim (by assumption) ?_)
    | (refine EffK.elim (by assumption) ?_)
    | split)

theorem sound_execPart {qs : Want} (c : Nat) (n : Needle) (w : W128) (s : State) (hs : Sound qs s) :
    OutK qs (execPart c n w s) := by
  unfold execPart
  repeat' (first
    | with_reducible assumption
    | with_reducible apply outK_fault
    | with_reducible apply outK_refused
    | with_reducible apply outK_next
    | with_reducible apply effK_full
    | with_reducible apply effK_fault
    | with_reducible apply effK_faultD
    | with_reducible apply effK_ok
    | with_reducible apply sound_issueE
    | with_reducible apply sound_fxPart
    | (refine OutK.elim (by assumption) ?_)
    | (refine EffK.elim (by assumption) ?_)
    | split)

theorem sound_execStep {qs : Want} (c : Nat) (n : Needle) (w : W128) (s : State) (hs : Sound qs s) :
    OutK qs (execStep c n w s) := by
  unfold execStep
  repeat' (first
    | with_reducible assumption
    | with_reducible apply outK_fault
    | with_reducible apply outK_refused
    | with_reducible apply outK_next
    | with_reducible apply effK_full
    | with_reducible apply effK_fault
    | with_reducible apply effK_faultD
    | with_reducible apply effK_ok
    | with_reducible apply sound_issueE
    | with_reducible apply sound_fxStep
    | (refine OutK.elim (by assumption) ?_)
    | (refine EffK.elim (by assumption) ?_)
    | split)

theorem sound_execSetb {qs : Want} (c : Nat) (n : Needle) (w : W128) (s : State) (hs : Sound qs s) :
    OutK qs (execSetb c n w s) := by
  unfold execSetb
  repeat' (first
    | with_reducible assumption
    | with_reducible apply outK_fault
    | with_reducible apply outK_refused
    | with_reducible apply outK_next
    | with_reducible apply effK_full
    | with_reducible apply effK_fault
    | with_reducible apply effK_faultD
    | with_reducible apply effK_ok
    | with_reducible apply sound_issueE
    | with_reducible apply sound_fxSetb
    | (refine OutK.elim (by assumption) ?_)
    | (refine EffK.elim (by assumption) ?_)
    | split)

theorem sound_execTpos {qs : Want} (c : Nat) (n : Needle) (w : W128) (s : State) (hs : Sound qs s) :
    OutK qs (execTpos c n w s) := by
  unfold execTpos
  repeat' (first
    | with_reducible assumption
    | with_reducible apply outK_fault
    | with_reducible apply outK_refused
    | with_reducible apply outK_next
    | with_reducible apply effK_full
    | with_reducible apply effK_fault
    | with_reducible apply effK_faultD
    | with_reducible apply effK_ok
    | with_reducible apply sound_issueE
    | with_reducible apply sound_fxTpos
    | (refine OutK.elim (by assumption) ?_)
    | (refine EffK.elim (by assumption) ?_)
    | split)

theorem sound_execSync {qs : Want} (c : Nat) (n : Needle) (w : W128) (s : State) (hs : Sound qs s) :
    OutK qs (execSync c n w s) := by
  unfold execSync
  repeat' (first
    | with_reducible assumption
    | with_reducible apply outK_fault
    | with_reducible apply outK_refused
    | with_reducible apply outK_next
    | with_reducible apply effK_full
    | with_reducible apply effK_fault
    | with_reducible apply effK_faultD
    | with_reducible apply effK_ok
    | with_reducible apply sound_issueE
    | with_reducible apply sound_fxSync
    | (refine OutK.elim (by assumption) ?_)
    | (refine EffK.elim (by assumption) ?_)
    | split)

theorem sound_execSignal {qs : Want} (c : Nat) (n : Needle) (w : W128) (s : State) (hs : Sound qs s) :
    OutK qs (execSignal c n w s) := by
  unfold execSignal
  repeat' (first
    | with_reducible assumption
    | with_reducible apply outK_fault
    | with_reducible apply outK_refused
    | with_reducible apply outK_next
    | with_reducible apply effK_full
    | with_reducible apply effK_fault
    | with_reducible apply effK_faultD
    | with_reducible apply effK_ok
    | with_reducible apply sound_issueE
    | with_reducible apply sound_fxSignal
    | (refine OutK.elim (by assumption) ?_)
    | (refine EffK.elim (by assumption) ?_)
    | split)

theorem sound_execPickReport {qs : Want} (d c : Nat) (s : State) (hs : Sound qs s) :
    OutK qs (execPickReport d c s) := by
  unfold execPickReport
  split
  · exact outK_fault
  split
  · exact outK_refused
  rename_i slot _
  split
  · exact outK_refused
  split
  · exact outK_refused
  rename_i s1 h1
  have hs1 : Sound qs s1 := by
    split at h1
    · cases h1; exact hs
    · exact OptK.elim h1 (sound_toHorizon _ _ _ hs)
  clear h1
  extract_lets dd rep reps s2 all dd2
  have h2 : Sound qs s2 := sound_incP _ _ _ (sound_setD _ _ _ hs1)
  clear_value s2
  split
  · exact outK_next (sound_setD _ _ _ h2)
  split
  · exact outK_next (sound_setD _ _ _ h2)
  split
  split
  · exact outK_next h2
  · exact outK_next (sound_requestStall _ _ _ h2)

theorem sound_choose {qs : Want} (s : State) (c : Nat) (n : Needle) (hs : Sound qs s) :
    Sound qs (choose s c n) := by
  unfold choose
  repeat' (first
    | with_reducible assumption
    | with_reducible apply sound_setE
    | with_reducible apply sound_updN
    | with_reducible apply sound_activate
    | extract_lets
    | simp -zeta only [pairK_iff, pair3K_iff, fstK_iff, midK_iff]
    | simp -zeta only [sound_mk_iff]
    | simp -zeta only []
    | split)

theorem sound_execPickChoice {qs : Want} (d : Nat) (s : State) (hs : Sound qs s) :
    OutK qs (execPickChoice d s) := by
  unfold execPickChoice
  repeat' (first
    | with_reducible assumption
    | with_reducible apply outK_fault
    | with_reducible apply outK_refused
    | with_reducible apply outK_next
    | with_reducible apply sound_incP
    | with_reducible apply sound_setD
    | with_reducible apply sound_announceResume
    | with_reducible apply sound_choose
    | (with_reducible apply sound_foldl; intro _ _ _)
    | (with_reducible apply pairK_foldl; intro _ _ _)
    | (with_reducible apply PairK.snd; with_reducible apply pairK_foldl; intro _ _ _)
    | (with_reducible apply fstK_foldl; intro _ _ _)
    | (with_reducible apply FstK.snd; with_reducible apply fstK_foldl; intro _ _ _)
    | extract_lets
    | simp -zeta only [pairK_iff, pair3K_iff, fstK_iff, midK_iff]
    | simp -zeta only [sound_mk_iff]
    | simp -zeta only []
    | split)

theorem sound_decodeNext {qs : Want} (s : State) (c : Nat) (n : Needle) (d : Nat) (hs : Sound qs s) :
    Sound qs (decodeNext s c n d) := by
  unfold decodeNext
  repeat' (first
    | with_reducible assumption
    | with_reducible apply sound_updN
    | with_reducible apply sound_checkRange
    | with_reducible apply sound_requestStall
    | with_reducible apply sound_clearPresent
    | (with_reducible apply sound_foldl; intro _ _ _)
    | (with_reducible apply pairK_foldl; intro _ _ _)
    | (with_reducible apply PairK.snd; with_reducible apply pairK_foldl; intro _ _ _)
    | (with_reducible apply fstK_foldl; intro _ _ _)
    | (with_reducible apply FstK.snd; with_reducible apply fstK_foldl; intro _ _ _)
    | extract_lets
    | simp -zeta only [pairK_iff, pair3K_iff, fstK_iff, midK_iff]
    | simp -zeta only [sound_mk_iff]
    | (refine sound_mkPoison (fun k => SMap.wf_set _ _ (Sound.pz (q := qs) ?_ k)) ?_)
    | simp -zeta only []
    | split
    | (with_reducible apply sound_ite)
    | (rename_i y; subst y)
    | (rename_i y _; subst y)
    | (rename_i y _ _; subst y)
    | (rename_i y _ _ _; subst y)
    | (rename_i y _ _ _ _; subst y)
    | (rename_i y _ _ _ _ _; subst y)
    | (rename_i y _ _ _ _ _ _; subst y)
    | (rename_i y _ _ _ _ _ _ _; subst y)
    | (rename_i y _ _ _ _ _ _ _ _; subst y)
    | intro _)

theorem sound_decodeEland {qs : Want} (s : State) (c : Nat) (n : Needle) (hs : Sound qs s) :
    OutK qs (decodeEland s c n) := by
  unfold decodeEland
  repeat' (first
    | with_reducible assumption
    | with_reducible apply outK_fault
    | with_reducible apply outK_refused
    | with_reducible apply outK_next
    | with_reducible apply sound_toHorizon
    | with_reducible apply sound_decodeNext
    | (refine OptK.elim (by assumption) ?_)
    | extract_lets
    | split)

end Sys2Proof.Machine
end

