-- ==== Sys2Proof/Laws/SoundEngines.lean ====
section
/-!
SUPPORT. The operations of Engines.lean keep memory and marks canonical and leave the queue alone.
-/
set_option linter.unusedSimpArgs false
set_option linter.unusedVariables false

namespace Sys2Proof.Machine

theorem sound_enterEmpty {qs : Want} (u h t : Nat) (op : Mma) (s : State) (m : Nat) (hs : Sound qs s) :
    Sound qs (enterEmpty u h t op s m) := by
  unfold enterEmpty
  repeat' (first
    | with_reducible assumption
    | with_reducible apply sound_updPart
    | extract_lets
    | simp -zeta only [pairK_iff, pair3K_iff, fstK_iff, midK_iff]
    | simp -zeta only [sound_mk_iff]
    | simp -zeta only []
    | split)

theorem sound_settle {qs : Want}  : ∀ (x0 : Nat) (u h : Nat) (x1 : State), Sound qs x1 →
    Sound qs (settle u h x0 x1) := by
  intro x0
  induction x0 with
  | zero => (intros; unfold settle; first | assumption | (with_reducible apply pairK_mk; assumption) | (with_reducible apply pair3K_mk; assumption))
  | succ x0 ih => (
  intros
  unfold settle
  repeat' (first
    | with_reducible assumption
    | with_reducible apply ih
    | with_reducible apply sound_enterEmpty
    | (with_reducible apply sound_foldl; intro _ _ _)
    | (with_reducible apply pairK_foldl; intro _ _ _)
    | (with_reducible apply PairK.snd; with_reducible apply pairK_foldl; intro _ _ _)
    | (with_reducible apply fstK_foldl; intro _ _ _)
    | (with_reducible apply FstK.snd; with_reducible apply fstK_foldl; intro _ _ _)
    | extract_lets
    | simp -zeta only [pairK_iff, pair3K_iff, fstK_iff, midK_iff]
    | simp -zeta only []
    | split
    | (with_reducible apply sound_ite)
    | (rename_i y; subst y)
    | (rename_i y _; subst y)
    | (rename_i y _ _; subst y)
    | (rename_i y _ _ _; subst y)
    | (rename_i y _ _ _ _; subst y)
    | (rename_i y _ _ _ _ _; subst y)
    | (rename_i y _ _ _ _ _ _; subst y)
    | (rename_i y _ _ _ _ _ _ _; subst y)
    | (rename_i y _ _ _ _ _ _ _ _; subst y)
    | intro _))

theorem sound_enterDue {qs : Want}  : ∀ (x0 : Nat) (u dcc : Nat) (stage : List Span) (x1 : Wave) (x2 : State), Sound qs x2 →
    FstK qs (enterDue u dcc stage x0 x1 x2) := by
  intro x0
  induction x0 with
  | zero => (intros; unfold enterDue; first | assumption | (with_reducible apply pairK_mk; assumption) | (with_reducible apply pair3K_mk; assumption))
  | succ x0 ih => (
  intros
  unfold enterDue
  repeat' (first
    | with_reducible assumption
    | with_reducible apply ih
    | (with_reducible apply FstK.snd; with_reducible apply ih)
    | with_reducible apply sound_enterRow
    | (with_reducible apply FstK.snd; with_reducible apply sound_enterRow)
    | (refine PairK.elim (by assumption) ?_)
    | (refine FstK.elim (by assumption) ?_)
    | extract_lets
    | simp -zeta only [pairK_iff, pair3K_iff, fstK_iff, midK_iff]
    | simp -zeta only []
    | split))

theorem sound_chunkWave {qs : Want} (s : State) (u e h : Nat) (op : Mma) (b : Beat) (hs : Sound qs s) :
    FstK qs (chunkWave s u e h op b) := by
  unfold chunkWave
  repeat' (first
    | with_reducible assumption
    | with_reducible apply sound_incP
    | with_reducible apply sound_countNan
    | with_reducible apply sound_enterDue
    | (with_reducible apply FstK.snd; with_reducible apply sound_enterDue)
    | (refine FstK.elim (by assumption) ?_)
    | extract_lets
    | simp -zeta only [pairK_iff, pair3K_iff, fstK_iff, midK_iff]
    | simp -zeta only [sound_mk_iff]
    | split)

theorem sound_partBeat {qs : Want} (s : State) (u m h : Nat) (b : Beat) (hs : Sound qs s) :
    Sound qs (partBeat s u m h b) := by
  unfold partBeat
  repeat' (first
    | with_reducible assumption
    | with_reducible apply sound_raise
    | with_reducible apply sound_updPart
    | with_reducible apply sound_settle
    | with_reducible apply sound_chunkWave
    | (with_reducible apply FstK.snd; with_reducible apply sound_chunkWave)
    | (refine PairK.elim (by assumption) ?_)
    | (refine FstK.elim (by assumption) ?_)
    | extract_lets
    | simp -zeta only [pairK_iff, pair3K_iff, fstK_iff, midK_iff]
    | simp -zeta only [sound_mk_iff]
    | simp -zeta only []
    | split
    | (with_reducible apply sound_ite)
    | (rename_i y; subst y)
    | (rename_i y _; subst y)
    | (rename_i y _ _; subst y)
    | (rename_i y _ _ _; subst y)
    | (rename_i y _ _ _ _; subst y)
    | (rename_i y _ _ _ _ _; subst y)
    | (rename_i y _ _ _ _ _ _; subst y)
    | (rename_i y _ _ _ _ _ _ _; subst y)
    | (rename_i y _ _ _ _ _ _ _ _; subst y)
    | intro _)

theorem sound_engineBeat {qs : Want} (s : State) (u m : Nat) (b : Beat) (hs : Sound qs s) :
    Sound qs (engineBeat s u m b) := by
  unfold engineBeat
  repeat' (first
    | with_reducible assumption
    | with_reducible apply sound_partBeat
    | extract_lets
    | simp -zeta only [pairK_iff, pair3K_iff, fstK_iff, midK_iff]
    | simp -zeta only []
    | split
    | (with_reducible apply sound_ite)
    | (rename_i y; subst y)
    | (rename_i y _; subst y)
    | (rename_i y _ _; subst y)
    | (rename_i y _ _ _; subst y)
    | (rename_i y _ _ _ _; subst y)
    | (rename_i y _ _ _ _ _; subst y)
    | (rename_i y _ _ _ _ _ _; subst y)
    | (rename_i y _ _ _ _ _ _ _; subst y)
    | (rename_i y _ _ _ _ _ _ _ _; subst y)
    | intro _)

theorem sound_fxMma {qs : Want} (x : Ctx) (s : State) (hs : Sound qs s) :
    EffK qs (fxMma x s) := by
  unfold fxMma
  repeat' (first
    | with_reducible assumption
    | with_reducible apply effK_full
    | with_reducible apply effK_fault
    | with_reducible apply effK_faultD
    | with_reducible apply effK_ok
    | with_reducible apply sound_setTile
    | with_reducible apply sound_freshId
    | (with_reducible apply PairK.snd; with_reducible apply sound_freshId)
    | with_reducible apply sound_updPart
    | with_reducible apply sound_settle
    | (with_reducible apply sound_foldl; intro _ _ _)
    | (with_reducible apply pairK_foldl; intro _ _ _)
    | (with_reducible apply PairK.snd; with_reducible apply pairK_foldl; intro _ _ _)
    | (with_reducible apply fstK_foldl; intro _ _ _)
    | (with_reducible apply FstK.snd; with_reducible apply fstK_foldl; intro _ _ _)
    | (refine PairK.elim (by assumption) ?_)
    | (refine FstK.elim (by assumption) ?_)
    | extract_lets
    | simp -zeta only [pairK_iff, pair3K_iff, fstK_iff, midK_iff]
    | simp -zeta only [sound_mk_iff]
    | simp -zeta only []
    | split)

theorem sound_execMma {qs : Want} (c : Nat) (n : Needle) (w : W128) (s : State) (hs : Sound qs s) :
    OutK qs (execMma c n w s) := by
  unfold execMma
  repeat' (first
    | with_reducible assumption
    | with_reducible apply outK_fault
    | with_reducible apply outK_refused
    | with_reducible apply outK_next
    | with_reducible apply effK_full
    | with_reducible apply effK_fault
    | with_reducible apply effK_faultD
    | with_reducible apply effK_ok
    | with_reducible apply sound_issueE
    | with_reducible apply sound_fxMma
    | (refine OutK.elim (by assumption) ?_)
    | (refine EffK.elim (by assumption) ?_)
    | split)

theorem sound_fxAccrd {qs : Want} (x : Ctx) (s : State) (hs : Sound qs s) :
    EffK qs (fxAccrd x s) := by
  unfold fxAccrd
  repeat' (first
    | with_reducible assumption
    | with_reducible apply effK_full
    | with_reducible apply effK_fault
    | with_reducible apply effK_faultD
    | with_reducible apply effK_ok
    | with_reducible apply sound_updN
    | with_reducible apply sound_setEng
    | with_reducible apply sound_freshId
    | (with_reducible apply PairK.snd; with_reducible apply sound_freshId)
    | with_reducible apply sound_notePush
    | with_reducible apply sound_beginPush
    | (refine PairK.elim (by assumption) ?_)
    | (refine FstK.elim (by assumption) ?_)
    | extract_lets
    | simp -zeta only [pairK_iff, pair3K_iff, fstK_iff, midK_iff]
    | simp -zeta only [sound_mk_iff]
    | simp -zeta only []
    | split
    | (with_reducible apply sound_ite)
    | (rename_i y; subst y)
    | (rename_i y _; subst y)
    | (rename_i y _ _; subst y)
    | (rename_i y _ _ _; subst y)
    | (rename_i y _ _ _ _; subst y)
    | (rename_i y _ _ _ _ _; subst y)
    | (rename_i y _ _ _ _ _ _; subst y)
    | (rename_i y _ _ _ _ _ _ _; subst y)
    | (rename_i y _ _ _ _ _ _ _ _; subst y)
    | intro _)

theorem sound_execAccrd {qs : Want} (c : Nat) (n : Needle) (w : W128) (s : State) (hs : Sound qs s) :
    OutK qs (execAccrd c n w s) := by
  unfold execAccrd
  repeat' (first
    | with_reducible assumption
    | with_reducible apply outK_fault
    | with_reducible apply outK_refused
    | with_reducible apply outK_next
    | with_reducible apply effK_full
    | with_reducible apply effK_fault
    | with_reducible apply effK_faultD
    | with_reducible apply effK_ok
    | with_reducible apply sound_issueE
    | with_reducible apply sound_fxAccrd
    | (refine OutK.elim (by assumption) ?_)
    | (refine EffK.elim (by assumption) ?_)
    | split)

theorem sound_execAccrdHoldRelease {qs : Want} (c m : Nat) (s : State) (hs : Sound qs s) :
    OutK qs (execAccrdHoldRelease c m s) := by
  unfold execAccrdHoldRelease
  repeat' (first
    | with_reducible assumption
    | with_reducible apply outK_fault
    | with_reducible apply outK_refused
    | with_reducible apply outK_next
    | with_reducible apply sound_toDcc
    | (refine OptK.elim (by assumption) ?_)
    | extract_lets
    | simp -zeta only [pairK_iff, pair3K_iff, fstK_iff, midK_iff]
    | simp -zeta only []
    | split)

theorem sound_whenRuns {qs : Want} (s : State) (d : Option Nat) (t : Nat) (hs : Sound qs s) :
    OptK qs (whenRuns s d t) := by
  unfold whenRuns
  repeat' (first
    | with_reducible assumption
    | with_reducible apply optK_none
    | with_reducible apply optK_some
    | with_reducible apply sound_toDcc
    | (refine OptK.elim (by assumption) ?_)
    | split)

theorem sound_execEngineIdle {qs : Want} (c m h : Nat) (s : State) (hs : Sound qs s) :
    OutK qs (execEngineIdle c m h s) := by
  unfold execEngineIdle
  repeat' (first
    | with_reducible assumption
    | with_reducible apply outK_fault
    | with_reducible apply outK_refused
    | with_reducible apply outK_next
    | with_reducible apply sound_updPart
    | with_reducible apply sound_whenRuns
    | (refine OptK.elim (by assumption) ?_)
    | extract_lets
    | simp -zeta only [pairK_iff, pair3K_iff, fstK_iff, midK_iff]
    | simp -zeta only [sound_mk_iff]
    | simp -zeta only []
    | split)

end Sys2Proof.Machine
end

