-- ==== Sys2Proof/Laws/SoundElem.lean ====
section
/-!
SUPPORT. The operations of Elem.lean keep memory and marks canonical and leave the queue alone.
-/
set_option linter.unusedSimpArgs false
set_option linter.unusedVariables false

namespace Sys2Proof.Machine

theorem sound_startElem {qs : Want} (x : Ctx) (src src2 dst tiles : Nat) (s : State) (hs : Sound qs s) :
    EffK qs (startElem x src src2 dst tiles s) := by
  unfold startElem
  repeat' (first
    | with_reducible assumption
    | with_reducible apply effK_full
    | with_reducible apply effK_fault
    | with_reducible apply effK_faultD
    | with_reducible apply effK_ok
    | with_reducible apply sound_setE
    | with_reducible apply sound_updN
    | extract_lets
    | simp -zeta only [pairK_iff, pair3K_iff, fstK_iff, midK_iff]
    | simp -zeta only [sound_mk_iff]
    | simp -zeta only []
    | split)

theorem sound_fxConvert {qs : Want} (cvt : Bool) (x : Ctx) (s : State) (hs : Sound qs s) :
    EffK qs (fxConvert cvt x s) := by
  unfold fxConvert
  repeat' (first
    | with_reducible assumption
    | with_reducible apply effK_full
    | with_reducible apply effK_fault
    | with_reducible apply effK_faultD
    | with_reducible apply effK_ok
    | with_reducible apply sound_startElem
    | (refine EffK.elim (by assumption) ?_)
    | split)

theorem sound_fxDact {qs : Want} (x : Ctx) (s : State) (hs : Sound qs s) :
    EffK qs (fxDact x s) := by
  unfold fxDact
  repeat' (first
    | with_reducible assumption
    | with_reducible apply effK_full
    | with_reducible apply effK_fault
    | with_reducible apply effK_faultD
    | with_reducible apply effK_ok
    | with_reducible apply sound_startElem
    | (refine EffK.elim (by assumption) ?_)
    | extract_lets
    | simp -zeta only [pairK_iff, pair3K_iff, fstK_iff, midK_iff]
    | simp -zeta only []
    | split
    | (with_reducible apply sound_ite)
    | (rename_i y; subst y)
    | (rename_i y _; subst y)
    | (rename_i y _ _; subst y)
    | (rename_i y _ _ _; subst y)
    | (rename_i y _ _ _ _; subst y)
    | (rename_i y _ _ _ _ _; subst y)
    | (rename_i y _ _ _ _ _ _; subst y)
    | (rename_i y _ _ _ _ _ _ _; subst y)
    | (rename_i y _ _ _ _ _ _ _ _; subst y)
    | intro _)

theorem sound_fxAmax {qs : Want} (x : Ctx) (s : State) (hs : Sound qs s) :
    EffK qs (fxAmax x s) := by
  unfold fxAmax
  repeat' (first
    | with_reducible assumption
    | with_reducible apply effK_full
    | with_reducible apply effK_fault
    | with_reducible apply effK_faultD
    | with_reducible apply effK_ok
    | with_reducible apply sound_startElem
    | (refine EffK.elim (by assumption) ?_)
    | split)

theorem sound_execAct {qs : Want} (c : Nat) (n : Needle) (w : W128) (s : State) (hs : Sound qs s) :
    OutK qs (execAct c n w s) := by
  unfold execAct
  repeat' (first
    | with_reducible assumption
    | with_reducible apply outK_fault
    | with_reducible apply outK_refused
    | with_reducible apply outK_next
    | with_reducible apply effK_full
    | with_reducible apply effK_fault
    | with_reducible apply effK_faultD
    | with_reducible apply effK_ok
    | with_reducible apply sound_issueE
    | with_reducible apply sound_fxConvert
    | (refine OutK.elim (by assumption) ?_)
    | (refine EffK.elim (by assumption) ?_)
    | split)

theorem sound_execDact {qs : Want} (c : Nat) (n : Needle) (w : W128) (s : State) (hs : Sound qs s) :
    OutK qs (execDact c n w s) := by
  unfold execDact
  repeat' (first
    | with_reducible assumption
    | with_reducible apply outK_fault
    | with_reducible apply outK_refused
    | with_reducible apply outK_next
    | with_reducible apply effK_full
    | with_reducible apply effK_fault
    | with_reducible apply effK_faultD
    | with_reducible apply effK_ok
    | with_reducible apply sound_issueE
    | with_reducible apply sound_fxDact
    | (refine OutK.elim (by assumption) ?_)
    | (refine EffK.elim (by assumption) ?_)
    | split)

theorem sound_execCvt {qs : Want} (c : Nat) (n : Needle) (w : W128) (s : State) (hs : Sound qs s) :
    OutK qs (execCvt c n w s) := by
  unfold execCvt
  repeat' (first
    | with_reducible assumption
    | with_reducible apply outK_fault
    | with_reducible apply outK_refused
    | with_reducible apply outK_next
    | with_reducible apply effK_full
    | with_reducible apply effK_fault
    | with_reducible apply effK_faultD
    | with_reducible apply effK_ok
    | with_reducible apply sound_issueE
    | with_reducible apply sound_fxConvert
    | (refine OutK.elim (by assumption) ?_)
    | (refine EffK.elim (by assumption) ?_)
    | split)

theorem sound_execAmax {qs : Want} (c : Nat) (n : Needle) (w : W128) (s : State) (hs : Sound qs s) :
    OutK qs (execAmax c n w s) := by
  unfold execAmax
  repeat' (first
    | with_reducible assumption
    | with_reducible apply outK_fault
    | with_reducible apply outK_refused
    | with_reducible apply outK_next
    | with_reducible apply effK_full
    | with_reducible apply effK_fault
    | with_reducible apply effK_faultD
    | with_reducible apply effK_ok
    | with_reducible apply sound_issueE
    | with_reducible apply sound_fxAmax
    | (refine OutK.elim (by assumption) ?_)
    | (refine EffK.elim (by assumption) ?_)
    | split)

end Sys2Proof.Machine
end

