-- ==== Sys2Proof/Laws/SoundStash.lean ====
section
/-!
SUPPORT. The operations of Stash.lean keep memory and marks canonical and leave the queue alone.
-/
set_option linter.unusedSimpArgs false
set_option linter.unusedVariables false

namespace Sys2Proof.Machine

theorem sound_setLane {qs : Want} (s : State) (strand p : Nat) (l : List Entry) (hs : Sound qs s) :
    Sound qs (setLane s strand p l) := by
  unfold setLane
  repeat' (first
    | with_reducible assumption
    | simp -zeta only [sound_mk_iff]
    | split)

theorem sound_emptyStrand {qs : Want} (s : State) (strand : Nat) (hs : Sound qs s) :
    Sound qs (emptyStrand s strand) := by
  unfold emptyStrand
  repeat' (first
    | with_reducible assumption
    | simp -zeta only [pairK_iff, pair3K_iff, fstK_iff, midK_iff]
    | simp -zeta only [sound_mk_iff]
    | simp -zeta only []
    | split)

theorem sound_stashFault {qs : Want} (s : State) (d va : Nat) (hs : Sound qs s) :
    Sound qs (stashFault s d va) := by
  unfold stashFault
  repeat' (first
    | with_reducible assumption
    | with_reducible apply sound_raise
    | simp -zeta only [sound_mk_iff]
    | split)

theorem sound_putEntry {qs : Want} (s : State) (lane : Nat) (e e' : Entry) (hs : Sound qs s) :
    Sound qs (putEntry s lane e e') := by
  unfold putEntry
  repeat' (first
    | with_reducible assumption
    | simp -zeta only [pairK_iff, pair3K_iff, fstK_iff, midK_iff]
    | simp -zeta only [sound_mk_iff]
    | simp -zeta only []
    | split)

theorem sound_spill {qs : Want} (s : State) (lane : Nat) (e : Entry) (hs : Sound qs s) :
    Sound qs (spill s lane e) := by
  unfold spill
  repeat' (first
    | with_reducible assumption
    | with_reducible apply sound_readBuffer
    | (with_reducible apply PairK.snd; with_reducible apply sound_readBuffer)
    | with_reducible apply sound_vwrite
    | (with_reducible apply PairK.snd; with_reducible apply sound_vwrite)
    | with_reducible apply sound_stashFault
    | with_reducible apply sound_putEntry
    | (refine PairK.elim (by assumption) ?_)
    | (refine FstK.elim (by assumption) ?_)
    | extract_lets
    | simp -zeta only [pairK_iff, pair3K_iff, fstK_iff, midK_iff]
    | simp -zeta only [sound_mk_iff]
    | simp -zeta only []
    | split)

theorem sound_makeRoom {qs : Want}  : ∀ (x0 : Nat) (n : Nat) (x1 : State), Sound qs x1 →
    Sound qs (makeRoom n x0 x1) := by
  intro x0
  induction x0 with
  | zero => (intros; unfold makeRoom; first | assumption | (with_reducible apply pairK_mk; assumption) | (with_reducible apply pair3K_mk; assumption))
  | succ x0 ih => (
  intros
  unfold makeRoom
  repeat' (first
    | with_reducible assumption
    | with_reducible apply ih
    | with_reducible apply sound_spill
    | split))

theorem sound_entryImg {qs : Want} (s : State) (lane : Nat) (e : Entry) (hs : Sound qs s) :
    PairK qs (entryImg s lane e) := by
  unfold entryImg
  repeat' (first
    | with_reducible assumption
    | with_reducible apply sound_readBuffer
    | (with_reducible apply PairK.snd; with_reducible apply sound_readBuffer)
    | with_reducible apply sound_vread
    | (with_reducible apply Pair3K.snd; with_reducible apply sound_vread)
    | with_reducible apply sound_stashFault
    | (refine PairK.elim (by assumption) ?_)
    | (refine Pair3K.elim (by assumption) ?_)
    | extract_lets
    | simp -zeta only [pairK_iff, pair3K_iff, fstK_iff, midK_iff]
    | simp -zeta only []
    | split)

theorem sound_refillLane {qs : Want} (s : State) (lane : Nat) (hs : Sound qs s) :
    Sound qs (refillLane s lane) := by
  unfold refillLane
  repeat' (first
    | with_reducible assumption
    | with_reducible apply sound_putEntry
    | with_reducible apply sound_entryImg
    | (with_reducible apply PairK.snd; with_reducible apply sound_entryImg)
    | (refine PairK.elim (by assumption) ?_)
    | (refine FstK.elim (by assumption) ?_)
    | extract_lets
    | simp -zeta only [pairK_iff, pair3K_iff, fstK_iff, midK_iff]
    | simp -zeta only [sound_mk_iff]
    | simp -zeta only []
    | split)

theorem sound_pushEntry {qs : Want} (s : State) (m : StashMsg) (hs : Sound qs s) :
    Sound qs (pushEntry s m) := by
  unfold pushEntry
  repeat' (first
    | with_reducible assumption
    | with_reducible apply sound_setLane
    | with_reducible apply sound_makeRoom
    | extract_lets
    | simp -zeta only [pairK_iff, pair3K_iff, fstK_iff, midK_iff]
    | simp -zeta only [sound_mk_iff]
    | simp -zeta only []
    | split)

theorem sound_popEntries {qs : Want}  : ∀ (x0 : Nat) (m : StashMsg) (x1 : State), Sound qs x1 →
    Sound qs (popEntries m x0 x1) := by
  intro x0
  induction x0 with
  | zero => (intros; unfold popEntries; first | assumption | (with_reducible apply pairK_mk; assumption) | (with_reducible apply pair3K_mk; assumption))
  | succ x0 ih => (
  intros
  unfold popEntries
  repeat' (first
    | with_reducible assumption
    | with_reducible apply ih
    | with_reducible apply sound_setLane
    | with_reducible apply sound_entryImg
    | (with_reducible apply PairK.snd; with_reducible apply sound_entryImg)
    | with_reducible apply sound_refillLane
    | (refine PairK.elim (by assumption) ?_)
    | (refine FstK.elim (by assumption) ?_)
    | extract_lets
    | simp -zeta only [pairK_iff, pair3K_iff, fstK_iff, midK_iff]
    | simp -zeta only [sound_mk_iff]
    | simp -zeta only []
    | split))

theorem sound_execMeshStash {qs : Want} (p : Nat) (s : State) (hs : Sound qs s) :
    OutK qs (execMeshStash p s) := by
  unfold execMeshStash
  repeat' (first
    | with_reducible assumption
    | with_reducible apply outK_fault
    | with_reducible apply outK_refused
    | with_reducible apply outK_next
    | with_reducible apply sound_raise
    | with_reducible apply sound_pushEntry
    | with_reducible apply sound_popEntries
    | extract_lets
    | simp -zeta only [pairK_iff, pair3K_iff, fstK_iff, midK_iff]
    | simp -zeta only [sound_mk_iff]
    | simp -zeta only []
    | split
    | (with_reducible apply sound_ite)
    | (rename_i y; subst y)
    | (rename_i y _; subst y)
    | (rename_i y _ _; subst y)
    | (rename_i y _ _ _; subst y)
    | (rename_i y _ _ _ _; subst y)
    | (rename_i y _ _ _ _ _; subst y)
    | (rename_i y _ _ _ _ _ _; subst y)
    | (rename_i y _ _ _ _ _ _ _; subst y)
    | (rename_i y _ _ _ _ _ _ _ _; subst y)
    | intro _)

theorem sound_execStashPushComplete {qs : Want} (u tag : Nat) (s : State) (hs : Sound qs s) :
    OutK qs (execStashPushComplete u tag s) := by
  unfold execStashPushComplete
  repeat' (first
    | with_reducible assumption
    | with_reducible apply outK_fault
    | with_reducible apply outK_refused
    | with_reducible apply outK_next
    | with_reducible apply sound_sendIncr
    | extract_lets
    | simp -zeta only [pairK_iff, pair3K_iff, fstK_iff, midK_iff]
    | simp -zeta only [sound_mk_iff]
    | simp -zeta only []
    | split
    | (with_reducible apply sound_ite)
    | (rename_i y; subst y)
    | (rename_i y _; subst y)
    | (rename_i y _ _; subst y)
    | (rename_i y _ _ _; subst y)
    | (rename_i y _ _ _ _; subst y)
    | (rename_i y _ _ _ _ _; subst y)
    | (rename_i y _ _ _ _ _ _; subst y)
    | (rename_i y _ _ _ _ _ _ _; subst y)
    | (rename_i y _ _ _ _ _ _ _ _; subst y)
    | intro _)

theorem sound_pushTiles {qs : Want} (s : State) (u needle d tag strand etag fmt count line w off : Nat) (hs : Sound qs s) :
    Sound qs (pushTiles s u needle d tag strand etag fmt count line w off) := by
  unfold pushTiles
  repeat' (first
    | with_reducible assumption
    | with_reducible apply sound_raise
    | with_reducible apply sound_checkLines
    | with_reducible apply sound_notePush
    | with_reducible apply sound_beginPush
    | with_reducible apply sound_pushImage
    | with_reducible apply sound_count
    | (with_reducible apply sound_foldl; intro _ _ _)
    | (with_reducible apply pairK_foldl; intro _ _ _)
    | (with_reducible apply PairK.snd; with_reducible apply pairK_foldl; intro _ _ _)
    | (with_reducible apply fstK_foldl; intro _ _ _)
    | (with_reducible apply FstK.snd; with_reducible apply fstK_foldl; intro _ _ _)
    | extract_lets
    | simp -zeta only [pairK_iff, pair3K_iff, fstK_iff, midK_iff]
    | simp -zeta only [sound_mk_iff]
    | simp -zeta only []
    | split)

theorem sound_fxSpush {qs : Want} (x : Ctx) (s : State) (hs : Sound qs s) :
    EffK qs (fxSpush x s) := by
  unfold fxSpush
  repeat' (first
    | with_reducible assumption
    | with_reducible apply effK_full
    | with_reducible apply effK_fault
    | with_reducible apply effK_faultD
    | with_reducible apply effK_ok
    | with_reducible apply sound_pushTiles
    | extract_lets
    | split)

theorem sound_popTiles {qs : Want} (s : State) (u needle d tag strand etag fmt count line w off : Nat) (tok : Option (Nat × Nat)) (hs : Sound qs s) :
    Sound qs (popTiles s u needle d tag strand etag fmt count line w off tok) := by
  unfold popTiles
  repeat' (first
    | with_reducible assumption
    | with_reducible apply sound_setDepth
    | with_reducible apply sound_count
    | extract_lets
    | simp -zeta only [sound_mk_iff]
    | split)

theorem sound_fxSpop {qs : Want} (x : Ctx) (s : State) (hs : Sound qs s) :
    EffK qs (fxSpop x s) := by
  unfold fxSpop
  repeat' (first
    | with_reducible assumption
    | with_reducible apply effK_full
    | with_reducible apply effK_fault
    | with_reducible apply effK_faultD
    | with_reducible apply effK_ok
    | with_reducible apply sound_popTiles
    | extract_lets
    | split)

theorem sound_execSpush {qs : Want} (c : Nat) (n : Needle) (w : W128) (s : State) (hs : Sound qs s) :
    OutK qs (execSpush c n w s) := by
  unfold execSpush
  repeat' (first
    | with_reducible assumption
    | with_reducible apply outK_fault
    | with_reducible apply outK_refused
    | with_reducible apply outK_next
    | with_reducible apply effK_full
    | with_reducible apply effK_fault
    | with_reducible apply effK_faultD
    | with_reducible apply effK_ok
    | with_reducible apply sound_issueE
    | with_reducible apply sound_fxSpush
    | (refine OutK.elim (by assumption) ?_)
    | (refine EffK.elim (by assumption) ?_)
    | split)

theorem sound_execSpop {qs : Want} (c : Nat) (n : Needle) (w : W128) (s : State) (hs : Sound qs s) :
    OutK qs (execSpop c n w s) := by
  unfold execSpop
  repeat' (first
    | with_reducible assumption
    | with_reducible apply outK_fault
    | with_reducible apply outK_refused
    | with_reducible apply outK_next
    | with_reducible apply effK_full
    | with_reducible apply effK_fault
    | with_reducible apply effK_faultD
    | with_reducible apply effK_ok
    | with_reducible apply sound_issueE
    | with_reducible apply sound_fxSpop
    | (refine OutK.elim (by assumption) ?_)
    | (refine EffK.elim (by assumption) ?_)
    | split)

end Sys2Proof.Machine
end

