-- ==== Sys2Proof/Laws/SoundRound.lean ====
section
/-!
SUPPORT. The operations of Round.lean keep memory and marks canonical and leave the queue alone.
-/
set_option linter.unusedSimpArgs false
set_option linter.unusedVariables false

namespace Sys2Proof.Machine

theorem sound_fxInj {qs : Want} (x : Ctx) (s : State) (hs : Sound qs s) :
    EffK qs (fxInj x s) := by
  unfold fxInj
  repeat' (first
    | with_reducible assumption
    | with_reducible apply effK_full
    | with_reducible apply effK_fault
    | with_reducible apply effK_faultD
    | with_reducible apply effK_ok
    | with_reducible apply sound_setInj
    | with_reducible apply sound_count
    | extract_lets
    | simp -zeta only [pairK_iff, pair3K_iff, fstK_iff, midK_iff]
    | simp -zeta only [sound_mk_iff]
    | simp -zeta only []
    | split)

theorem sound_execInj {qs : Want} (c : Nat) (n : Needle) (w : W128) (s : State) (hs : Sound qs s) :
    OutK qs (execInj c n w s) := by
  unfold execInj
  repeat' (first
    | with_reducible assumption
    | with_reducible apply outK_fault
    | with_reducible apply outK_refused
    | with_reducible apply outK_next
    | with_reducible apply effK_full
    | with_reducible apply effK_fault
    | with_reducible apply effK_faultD
    | with_reducible apply effK_ok
    | with_reducible apply sound_issueE
    | with_reducible apply sound_fxInj
    | (refine OutK.elim (by assumption) ?_)
    | (refine EffK.elim (by assumption) ?_)
    | split)

theorem sound_execInjectionQueueFill {qs : Want} (stop : Nat) (s : State) (hs : Sound qs s) :
    OutK qs (execInjectionQueueFill stop s) := by
  unfold execInjectionQueueFill
  repeat' (first
    | with_reducible assumption
    | with_reducible apply outK_fault
    | with_reducible apply outK_refused
    | with_reducible apply outK_next
    | with_reducible apply sound_setInj
    | with_reducible apply sound_checkLines
    | extract_lets
    | simp -zeta only [sound_mk_iff]
    | split)

theorem sound_execRoundBeatSend {qs : Want} (stop : Nat) (s : State) (hs : Sound qs s) :
    OutK qs (execRoundBeatSend stop s) := by
  unfold execRoundBeatSend
  repeat' (first
    | with_reducible assumption
    | with_reducible apply outK_fault
    | with_reducible apply outK_refused
    | with_reducible apply outK_next
    | with_reducible apply sound_incP
    | with_reducible apply sound_setInj
    | with_reducible apply sound_readBuffer
    | (with_reducible apply PairK.snd; with_reducible apply sound_readBuffer)
    | with_reducible apply sound_toDcc
    | (refine OptK.elim (by assumption) ?_)
    | (refine PairK.elim (by assumption) ?_)
    | (refine FstK.elim (by assumption) ?_)
    | extract_lets
    | simp -zeta only [pairK_iff, pair3K_iff, fstK_iff, midK_iff]
    | simp -zeta only [sound_mk_iff]
    | simp -zeta only []
    | split)

theorem sound_fxTake {qs : Want} (x : Ctx) (s : State) (hs : Sound qs s) :
    EffK qs (fxTake x s) := by
  unfold fxTake
  repeat' (first
    | with_reducible assumption
    | with_reducible apply effK_full
    | with_reducible apply effK_fault
    | with_reducible apply effK_faultD
    | with_reducible apply effK_ok
    | with_reducible apply sound_setTake
    | extract_lets
    | simp -zeta only [pairK_iff, pair3K_iff, fstK_iff, midK_iff]
    | simp -zeta only [sound_mk_iff]
    | simp -zeta only []
    | split)

theorem sound_execTake {qs : Want} (c : Nat) (n : Needle) (w : W128) (s : State) (hs : Sound qs s) :
    OutK qs (execTake c n w s) := by
  unfold execTake
  repeat' (first
    | with_reducible assumption
    | with_reducible apply outK_fault
    | with_reducible apply outK_refused
    | with_reducible apply outK_next
    | with_reducible apply effK_full
    | with_reducible apply effK_fault
    | with_reducible apply effK_faultD
    | with_reducible apply effK_ok
    | with_reducible apply sound_issueE
    | with_reducible apply sound_fxTake
    | (refine OutK.elim (by assumption) ?_)
    | (refine EffK.elim (by assumption) ?_)
    | split)

theorem sound_takeFault {qs : Want} (s : State) (stop : Nat) (o : TakeOp) (code d0 d1 : Nat) (hs : Sound qs s) :
    Sound qs (takeFault s stop o code d0 d1) := by
  unfold takeFault
  repeat' (first
    | with_reducible assumption
    | with_reducible apply sound_raise
    | simp -zeta only [sound_mk_iff]
    | split)

theorem sound_takeBeat {qs : Want} (s : State) (stop : Nat) (b : Beat) (hs : Sound qs s) :
    Sound qs (takeBeat s stop b) := by
  unfold takeBeat
  repeat' (first
    | with_reducible assumption
    | with_reducible apply sound_setTake
    | with_reducible apply sound_takeFault
    | extract_lets
    | simp -zeta only [sound_mk_iff]
    | split)

theorem sound_leaveBeat {qs : Want} (s : State) (b : Beat) (others : List Beat) (hs : Sound qs s) :
    OptK qs (leaveBeat s b others) := by
  unfold leaveBeat
  repeat' (first
    | with_reducible assumption
    | with_reducible apply optK_none
    | with_reducible apply optK_some
    | with_reducible apply sound_takeBeat
    | extract_lets
    | simp -zeta only [pairK_iff, pair3K_iff, fstK_iff, midK_iff]
    | simp -zeta only [sound_mk_iff]
    | simp -zeta only []
    | split
    | (with_reducible apply sound_ite)
    | (rename_i y; subst y)
    | (rename_i y _; subst y)
    | (rename_i y _ _; subst y)
    | (rename_i y _ _ _; subst y)
    | (rename_i y _ _ _ _; subst y)
    | (rename_i y _ _ _ _ _; subst y)
    | (rename_i y _ _ _ _ _ _; subst y)
    | (rename_i y _ _ _ _ _ _ _; subst y)
    | (rename_i y _ _ _ _ _ _ _ _; subst y)
    | intro _)

theorem sound_leaveAt {qs : Want} (b : Beat) (others : List Beat) (s : State) (hs : Sound qs s) :
    OutK qs (leaveAt b others s) := by
  unfold leaveAt
  repeat' (first
    | with_reducible assumption
    | with_reducible apply outK_fault
    | with_reducible apply outK_refused
    | with_reducible apply outK_next
    | with_reducible apply sound_toDcc
    | with_reducible apply sound_leaveBeat
    | (refine OptK.elim (by assumption) ?_)
    | simp -zeta only [sound_mk_iff]
    | split)

theorem sound_passEngine {qs : Want} (m stop : Nat) (b : Beat) (others : List Beat) (s : State) (hs : Sound qs s) :
    OutK qs (passEngine m stop b others s) := by
  unfold passEngine
  repeat' (first
    | with_reducible assumption
    | with_reducible apply outK_fault
    | with_reducible apply outK_refused
    | with_reducible apply outK_next
    | with_reducible apply sound_toDcc
    | with_reducible apply sound_engineBeat
    | (refine OptK.elim (by assumption) ?_)
    | simp -zeta only [sound_mk_iff]
    | split)

theorem sound_execRoundBeatArrive {qs : Want} (d : Dir) (stop e : Nat) (s : State) (hs : Sound qs s) :
    OutK qs (execRoundBeatArrive d stop e s) := by
  unfold execRoundBeatArrive
  repeat' (first
    | with_reducible assumption
    | with_reducible apply outK_fault
    | with_reducible apply outK_refused
    | with_reducible apply outK_next
    | with_reducible apply sound_leaveAt
    | with_reducible apply sound_passEngine
    | (refine OutK.elim (by assumption) ?_)
    | split)

theorem sound_execRoundBeatTake {qs : Want} (d : Dir) (stop : Nat) (s : State) (hs : Sound qs s) :
    OutK qs (execRoundBeatTake d stop s) := by
  unfold execRoundBeatTake
  repeat' (first
    | with_reducible assumption
    | with_reducible apply outK_fault
    | with_reducible apply outK_refused
    | with_reducible apply outK_next
    | with_reducible apply sound_leaveAt
    | (refine OutK.elim (by assumption) ?_)
    | split)

theorem sound_writeTaken {qs : Want} (s : State) (stop dst : Nat) (held : List Nat) (own off : Nat) (bs : List PByte) (hs : Sound qs s) :
    Sound qs (writeTaken s stop dst held own off bs) := by
  unfold writeTaken
  repeat' (first
    | with_reducible assumption
    | with_reducible apply sound_writeP
    | with_reducible apply sound_markWord
    | (with_reducible apply sound_foldl; intro _ _ _)
    | (with_reducible apply pairK_foldl; intro _ _ _)
    | (with_reducible apply PairK.snd; with_reducible apply pairK_foldl; intro _ _ _)
    | (with_reducible apply fstK_foldl; intro _ _ _)
    | (with_reducible apply FstK.snd; with_reducible apply fstK_foldl; intro _ _ _)
    | extract_lets
    | simp -zeta only [pairK_iff, pair3K_iff, fstK_iff, midK_iff]
    | simp -zeta only []
    | split)

theorem sound_drainBeat {qs : Want} (s : State) (stop : Nat) (x : TakenBeat) (hs : Sound qs s) :
    Sound qs (drainBeat s stop x) := by
  unfold drainBeat
  repeat' (first
    | with_reducible assumption
    | with_reducible apply sound_writeP
    | with_reducible apply sound_markWord
    | with_reducible apply sound_writeTaken
    | (with_reducible apply sound_foldl; intro _ _ _)
    | (with_reducible apply pairK_foldl; intro _ _ _)
    | (with_reducible apply PairK.snd; with_reducible apply pairK_foldl; intro _ _ _)
    | (with_reducible apply fstK_foldl; intro _ _ _)
    | (with_reducible apply FstK.snd; with_reducible apply fstK_foldl; intro _ _ _)
    | extract_lets
    | simp -zeta only [pairK_iff, pair3K_iff, fstK_iff, midK_iff]
    | simp -zeta only []
    | split)

theorem sound_underF {qs : Want} (s : State) (u : Nat) (f : State → State) (hs : Sound qs s) (hf : ∀ x0, Sound qs x0 → Sound qs (f x0)) :
    Sound qs (underF s u f) := by
  unfold underF
  repeat' (first
    | with_reducible assumption
    | with_reducible apply hf
    | (refine PairK.snd (hf _ ?_))
    | with_reducible apply sound_setCoreLine
    | (with_reducible apply sound_foldl; intro _ _ _)
    | (with_reducible apply pairK_foldl; intro _ _ _)
    | (with_reducible apply PairK.snd; with_reducible apply pairK_foldl; intro _ _ _)
    | (with_reducible apply fstK_foldl; intro _ _ _)
    | (with_reducible apply FstK.snd; with_reducible apply fstK_foldl; intro _ _ _)
    | (refine OptK.elim (by assumption) ?_)
    | (refine PairK.elim (by assumption) ?_)
    | (refine OutK.elim (by assumption) ?_)
    | extract_lets
    | simp -zeta only [pairK_iff, pair3K_iff, fstK_iff, midK_iff]
    | simp -zeta only []
    | split)

theorem sound_execTakeQueueDrain {qs : Want} (d : Dir) (stop : Nat) (s : State) (hs : Sound qs s) :
    OutK qs (execTakeQueueDrain d stop s) := by
  unfold execTakeQueueDrain
  repeat' (first
    | with_reducible assumption
    | with_reducible apply outK_fault
    | with_reducible apply outK_refused
    | with_reducible apply outK_next
    | with_reducible apply sound_setTake
    | with_reducible apply sound_raise
    | with_reducible apply sound_drainBeat
    | with_reducible apply sound_underF
    | extract_lets
    | simp -zeta only [pairK_iff, pair3K_iff, fstK_iff, midK_iff]
    | simp -zeta only [sound_mk_iff]
    | simp -zeta only []
    | split
    | (with_reducible apply sound_ite)
    | (rename_i y; subst y)
    | (rename_i y _; subst y)
    | (rename_i y _ _; subst y)
    | (rename_i y _ _ _; subst y)
    | (rename_i y _ _ _ _; subst y)
    | (rename_i y _ _ _ _ _; subst y)
    | (rename_i y _ _ _ _ _ _; subst y)
    | (rename_i y _ _ _ _ _ _ _; subst y)
    | (rename_i y _ _ _ _ _ _ _ _; subst y)
    | intro _)

end Sys2Proof.Machine
end

