-- ==== Sys2Proof/Laws/SoundMesh.lean ====
section
/-!
SUPPORT. The operations of Mesh.lean keep memory and marks canonical and leave the queue alone.
-/
set_option linter.unusedSimpArgs false
set_option linter.unusedVariables false

namespace Sys2Proof.Machine

theorem sound_crossedLink {qs : Want} (s : State) (p q : Nat) (hs : Sound qs s) :
    Sound qs (crossedLink s p q) := by
  unfold crossedLink
  repeat' (first
    | with_reducible assumption
    | simp -zeta only [sound_mk_iff]
    | split)

theorem sound_crossed {qs : Want} (s : State) (src dst : Nat) (hs : Sound qs s) :
    Sound qs (crossed s src dst) := by
  unfold crossed
  repeat' (first
    | with_reducible assumption
    | with_reducible apply sound_crossedLink
    | (with_reducible apply sound_foldl; intro _ _ _)
    | (with_reducible apply pairK_foldl; intro _ _ _)
    | (with_reducible apply PairK.snd; with_reducible apply pairK_foldl; intro _ _ _)
    | (with_reducible apply fstK_foldl; intro _ _ _)
    | (with_reducible apply FstK.snd; with_reducible apply fstK_foldl; intro _ _ _)
    | simp -zeta only [pairK_iff, pair3K_iff, fstK_iff, midK_iff]
    | simp -zeta only []
    | split)

theorem sound_execFlitCrcFail {qs : Want} (p dir : Nat) (s : State) (hs : Sound qs s) :
    OutK qs (execFlitCrcFail p dir s) := by
  unfold execFlitCrcFail
  repeat' (first
    | with_reducible assumption
    | with_reducible apply outK_fault
    | with_reducible apply outK_refused
    | with_reducible apply outK_next
    | with_reducible apply sound_setP
    | with_reducible apply sound_incP
    | extract_lets
    | simp -zeta only [sound_mk_iff]
    | split)

theorem sound_fxLong {qs : Want} (kind : XKind) (x : Ctx) (s : State) (hs : Sound qs s) :
    EffK qs (fxLong kind x s) := by
  unfold fxLong
  repeat' (first
    | with_reducible assumption
    | with_reducible apply effK_full
    | with_reducible apply effK_fault
    | with_reducible apply effK_faultD
    | with_reducible apply effK_ok
    | with_reducible apply sound_checkLines
    | with_reducible apply sound_startXfer
    | extract_lets
    | simp -zeta only [pairK_iff, pair3K_iff, fstK_iff, midK_iff]
    | simp -zeta only []
    | split
    | (with_reducible apply sound_ite)
    | (rename_i y; subst y)
    | (rename_i y _; subst y)
    | (rename_i y _ _; subst y)
    | (rename_i y _ _ _; subst y)
    | (rename_i y _ _ _ _; subst y)
    | (rename_i y _ _ _ _ _; subst y)
    | (rename_i y _ _ _ _ _ _; subst y)
    | (rename_i y _ _ _ _ _ _ _; subst y)
    | (rename_i y _ _ _ _ _ _ _ _; subst y)
    | intro _)

theorem sound_fxCore {qs : Want} (put : Bool) (x : Ctx) (s : State) (hs : Sound qs s) :
    EffK qs (fxCore put x s) := by
  unfold fxCore
  repeat' (first
    | with_reducible assumption
    | with_reducible apply effK_full
    | with_reducible apply effK_fault
    | with_reducible apply effK_faultD
    | with_reducible apply effK_ok
    | with_reducible apply sound_checkLines
    | with_reducible apply sound_startXfer
    | extract_lets
    | simp -zeta only [pairK_iff, pair3K_iff, fstK_iff, midK_iff]
    | simp -zeta only []
    | split
    | (with_reducible apply sound_ite)
    | (rename_i y; subst y)
    | (rename_i y _; subst y)
    | (rename_i y _ _; subst y)
    | (rename_i y _ _ _; subst y)
    | (rename_i y _ _ _ _; subst y)
    | (rename_i y _ _ _ _ _; subst y)
    | (rename_i y _ _ _ _ _ _; subst y)
    | (rename_i y _ _ _ _ _ _ _; subst y)
    | (rename_i y _ _ _ _ _ _ _ _; subst y)
    | intro _)

theorem sound_fxRsend {qs : Want} (x : Ctx) (s : State) (hs : Sound qs s) :
    EffK qs (fxRsend x s) := by
  unfold fxRsend
  repeat' (first
    | with_reducible assumption
    | with_reducible apply effK_full
    | with_reducible apply effK_fault
    | with_reducible apply effK_faultD
    | with_reducible apply effK_ok
    | with_reducible apply sound_checkLines
    | with_reducible apply sound_startXfer
    | with_reducible apply sound_redXfer
    | (with_reducible apply PairK.snd; with_reducible apply sound_redXfer)
    | (refine PairK.elim (by assumption) ?_)
    | (refine FstK.elim (by assumption) ?_)
    | extract_lets
    | simp -zeta only [pairK_iff, pair3K_iff, fstK_iff, midK_iff]
    | simp -zeta only []
    | split)

theorem sound_execTld {qs : Want} (c : Nat) (n : Needle) (w : W128) (s : State) (hs : Sound qs s) :
    OutK qs (execTld c n w s) := by
  unfold execTld
  repeat' (first
    | with_reducible assumption
    | with_reducible apply outK_fault
    | with_reducible apply outK_refused
    | with_reducible apply outK_next
    | with_reducible apply effK_full
    | with_reducible apply effK_fault
    | with_reducible apply effK_faultD
    | with_reducible apply effK_ok
    | with_reducible apply sound_issueE
    | with_reducible apply sound_fxLong
    | (refine OutK.elim (by assumption) ?_)
    | (refine EffK.elim (by assumption) ?_)
    | split)

theorem sound_execTst {qs : Want} (c : Nat) (n : Needle) (w : W128) (s : State) (hs : Sound qs s) :
    OutK qs (execTst c n w s) := by
  unfold execTst
  repeat' (first
    | with_reducible assumption
    | with_reducible apply outK_fault
    | with_reducible apply outK_refused
    | with_reducible apply outK_next
    | with_reducible apply effK_full
    | with_reducible apply effK_fault
    | with_reducible apply effK_faultD
    | with_reducible apply effK_ok
    | with_reducible apply sound_issueE
    | with_reducible apply sound_fxLong
    | (refine OutK.elim (by assumption) ?_)
    | (refine EffK.elim (by assumption) ?_)
    | split)

theorem sound_execPut {qs : Want} (c : Nat) (n : Needle) (w : W128) (s : State) (hs : Sound qs s) :
    OutK qs (execPut c n w s) := by
  unfold execPut
  repeat' (first
    | with_reducible assumption
    | with_reducible apply outK_fault
    | with_reducible apply outK_refused
    | with_reducible apply outK_next
    | with_reducible apply effK_full
    | with_reducible apply effK_fault
    | with_reducible apply effK_faultD
    | with_reducible apply effK_ok
    | with_reducible apply sound_issueE
    | with_reducible apply sound_fxCore
    | (refine OutK.elim (by assumption) ?_)
    | (refine EffK.elim (by assumption) ?_)
    | split)

theorem sound_execGet {qs : Want} (c : Nat) (n : Needle) (w : W128) (s : State) (hs : Sound qs s) :
    OutK qs (execGet c n w s) := by
  unfold execGet
  repeat' (first
    | with_reducible assumption
    | with_reducible apply outK_fault
    | with_reducible apply outK_refused
    | with_reducible apply outK_next
    | with_reducible apply effK_full
    | with_reducible apply effK_fault
    | with_reducible apply effK_faultD
    | with_reducible apply effK_ok
    | with_reducible apply sound_issueE
    | with_reducible apply sound_fxCore
    | (refine OutK.elim (by assumption) ?_)
    | (refine EffK.elim (by assumption) ?_)
    | split)

theorem sound_execRsend {qs : Want} (c : Nat) (n : Needle) (w : W128) (s : State) (hs : Sound qs s) :
    OutK qs (execRsend c n w s) := by
  unfold execRsend
  repeat' (first
    | with_reducible assumption
    | with_reducible apply outK_fault
    | with_reducible apply outK_refused
    | with_reducible apply outK_next
    | with_reducible apply effK_full
    | with_reducible apply effK_fault
    | with_reducible apply effK_faultD
    | with_reducible apply effK_ok
    | with_reducible apply sound_issueE
    | with_reducible apply sound_fxRsend
    | (refine OutK.elim (by assumption) ?_)
    | (refine EffK.elim (by assumption) ?_)
    | split)

theorem sound_enqueueReq {qs : Want} (s : State) (p : Packet) (hs : Sound qs s) :
    Sound qs (enqueueReq s p) := by
  unfold enqueueReq
  repeat' (first
    | with_reducible assumption
    | extract_lets
    | simp -zeta only [sound_mk_iff]
    | split)

theorem sound_portFLines {qs : Want} (s : State) (u line : Nat) (ls : List PLine) (hs : Sound qs s) :
    Sound qs (portFLines s u line ls) := by
  unfold portFLines
  repeat' (first
    | with_reducible assumption
    | with_reducible apply sound_portF
    | (with_reducible apply sound_foldl; intro _ _ _)
    | (with_reducible apply pairK_foldl; intro _ _ _)
    | (with_reducible apply PairK.snd; with_reducible apply pairK_foldl; intro _ _ _)
    | (with_reducible apply fstK_foldl; intro _ _ _)
    | (with_reducible apply FstK.snd; with_reducible apply fstK_foldl; intro _ _ _)
    | simp -zeta only [pairK_iff, pair3K_iff, fstK_iff, midK_iff]
    | simp -zeta only []
    | split)

theorem sound_portFBytes {qs : Want} (s : State) (u byte : Nat) (bs : List (Byte × Bool)) (hs : Sound qs s) :
    Sound qs (portFBytes s u byte bs) := by
  unfold portFBytes
  repeat' (first
    | with_reducible assumption
    | with_reducible apply sound_portFLines
    | extract_lets
    | simp -zeta only [pairK_iff, pair3K_iff, fstK_iff, midK_iff]
    | simp -zeta only []
    | split)

theorem sound_storeAt {qs : Want} (s : State) (pa : Nat) (ls : List PLine) (hs : Sound qs s) :
    Sound qs (storeAt s pa ls) := by
  unfold storeAt
  repeat' (first
    | with_reducible assumption
    | with_reducible apply sound_writePhys
    | with_reducible apply sound_portFLines
    | split)

theorem sound_execMeshWrite {qs : Want} (p : Nat) (s : State) (hs : Sound qs s) :
    OutK qs (execMeshWrite p s) := by
  unfold execMeshWrite
  repeat' (first
    | with_reducible assumption
    | with_reducible apply outK_fault
    | with_reducible apply outK_refused
    | with_reducible apply outK_next
    | with_reducible apply sound_incP
    | with_reducible apply sound_sendIncr
    | with_reducible apply sound_sendPacket
    | with_reducible apply sound_crossed
    | with_reducible apply sound_enqueueReq
    | with_reducible apply sound_storeAt
    | extract_lets
    | simp -zeta only [pairK_iff, pair3K_iff, fstK_iff, midK_iff]
    | simp -zeta only [sound_mk_iff]
    | simp -zeta only []
    | split
    | (with_reducible apply sound_ite)
    | (rename_i y; subst y)
    | (rename_i y _; subst y)
    | (rename_i y _ _; subst y)
    | (rename_i y _ _ _; subst y)
    | (rename_i y _ _ _ _; subst y)
    | (rename_i y _ _ _ _ _; subst y)
    | (rename_i y _ _ _ _ _ _; subst y)
    | (rename_i y _ _ _ _ _ _ _; subst y)
    | (rename_i y _ _ _ _ _ _ _ _; subst y)
    | intro _)

theorem sound_execMeshReadRequest {qs : Want} (p : Nat) (s : State) (hs : Sound qs s) :
    OutK qs (execMeshReadRequest p s) := by
  unfold execMeshReadRequest
  repeat' (first
    | with_reducible assumption
    | with_reducible apply outK_fault
    | with_reducible apply outK_refused
    | with_reducible apply outK_next
    | with_reducible apply sound_checkRange
    | with_reducible apply sound_sendPacket
    | with_reducible apply sound_crossed
    | with_reducible apply sound_enqueueReq
    | with_reducible apply sound_request
    | extract_lets
    | simp -zeta only [pairK_iff, pair3K_iff, fstK_iff, midK_iff]
    | simp -zeta only [sound_mk_iff]
    | simp -zeta only []
    | split)

theorem sound_arrive {qs : Want} (s : State) (u : Nat) (k : Packet) (hs : Sound qs s) :
    Sound qs (arrive s u k) := by
  unfold arrive
  repeat' (first
    | with_reducible assumption
    | simp -zeta only [pairK_iff, pair3K_iff, fstK_iff, midK_iff]
    | simp -zeta only [sound_mk_iff]
    | simp -zeta only []
    | split)

theorem sound_deliver {qs : Want} (s : State) (k : Packet) (hs : Sound qs s) :
    Sound qs (deliver s k) := by
  unfold deliver
  repeat' (first
    | with_reducible assumption
    | with_reducible apply sound_updXfer
    | with_reducible apply sound_portFBytes
    | with_reducible apply sound_arrive
    | extract_lets
    | simp -zeta only [pairK_iff, pair3K_iff, fstK_iff, midK_iff]
    | simp -zeta only [sound_mk_iff]
    | simp -zeta only []
    | split
    | (with_reducible apply sound_ite)
    | (rename_i y; subst y)
    | (rename_i y _; subst y)
    | (rename_i y _ _; subst y)
    | (rename_i y _ _ _; subst y)
    | (rename_i y _ _ _ _; subst y)
    | (rename_i y _ _ _ _ _; subst y)
    | (rename_i y _ _ _ _ _ _; subst y)
    | (rename_i y _ _ _ _ _ _ _; subst y)
    | (rename_i y _ _ _ _ _ _ _ _; subst y)
    | intro _)

theorem sound_execMeshReadResponse {qs : Want} (p : Nat) (s : State) (hs : Sound qs s) :
    OutK qs (execMeshReadResponse p s) := by
  unfold execMeshReadResponse
  repeat' (first
    | with_reducible assumption
    | with_reducible apply outK_fault
    | with_reducible apply outK_refused
    | with_reducible apply outK_next
    | with_reducible apply sound_pumpWaiting
    | with_reducible apply sound_crossed
    | with_reducible apply sound_deliver
    | simp -zeta only [sound_mk_iff]
    | split)

theorem sound_acknowledged {qs : Want} (s : State) (p : Nat) (k : Packet) (hs : Sound qs s) :
    Sound qs (acknowledged s p k) := by
  unfold acknowledged
  repeat' (first
    | with_reducible assumption
    | with_reducible apply sound_setStream
    | with_reducible apply sound_updXfer
    | with_reducible apply sound_dmaAnswered
    | extract_lets
    | simp -zeta only [pairK_iff, pair3K_iff, fstK_iff, midK_iff]
    | simp -zeta only [sound_mk_iff]
    | simp -zeta only []
    | split)

theorem sound_execMeshAcknowledge {qs : Want} (p : Nat) (s : State) (hs : Sound qs s) :
    OutK qs (execMeshAcknowledge p s) := by
  unfold execMeshAcknowledge
  repeat' (first
    | with_reducible assumption
    | with_reducible apply outK_fault
    | with_reducible apply outK_refused
    | with_reducible apply outK_next
    | with_reducible apply sound_pumpWaiting
    | with_reducible apply sound_crossed
    | with_reducible apply sound_acknowledged
    | simp -zeta only [sound_mk_iff]
    | split)

theorem sound_portFWrite {qs : Want} (s : State) (a : Arrival) (hs : Sound qs s) :
    Sound qs (portFWrite s a) := by
  unfold portFWrite
  repeat' (first
    | with_reducible assumption
    | with_reducible apply sound_setStream
    | with_reducible apply sound_setPresent
    | with_reducible apply sound_portF
    | with_reducible apply sound_updXfer
    | extract_lets
    | simp -zeta only [pairK_iff, pair3K_iff, fstK_iff, midK_iff]
    | simp -zeta only [sound_mk_iff]
    | simp -zeta only []
    | split)

theorem sound_execPortFLineWrite {qs : Want} (u : Nat) (src : PortFSrc) (s : State) (hs : Sound qs s) :
    OutK qs (execPortFLineWrite u src s) := by
  unfold execPortFLineWrite
  repeat' (first
    | with_reducible assumption
    | with_reducible apply outK_fault
    | with_reducible apply outK_refused
    | with_reducible apply outK_next
    | with_reducible apply sound_portFWrite
    | simp -zeta only [sound_mk_iff]
    | split)

theorem sound_execMeshTransferComplete {qs : Want} (u tag : Nat) (s : State) (hs : Sound qs s) :
    OutK qs (execMeshTransferComplete u tag s) := by
  unfold execMeshTransferComplete
  repeat' (first
    | with_reducible assumption
    | with_reducible apply outK_fault
    | with_reducible apply outK_refused
    | with_reducible apply outK_next
    | with_reducible apply sound_sendIncr
    | with_reducible apply sound_pumpWaiting
    | extract_lets
    | simp -zeta only [pairK_iff, pair3K_iff, fstK_iff, midK_iff]
    | simp -zeta only [sound_mk_iff]
    | simp -zeta only []
    | split
    | (with_reducible apply sound_ite)
    | (rename_i y; subst y)
    | (rename_i y _; subst y)
    | (rename_i y _ _; subst y)
    | (rename_i y _ _ _; subst y)
    | (rename_i y _ _ _ _; subst y)
    | (rename_i y _ _ _ _ _; subst y)
    | (rename_i y _ _ _ _ _ _; subst y)
    | (rename_i y _ _ _ _ _ _ _; subst y)
    | (rename_i y _ _ _ _ _ _ _ _; subst y)
    | intro _)

theorem sound_landRed {qs : Want} (s : State) (t root k n : Nat) (lo up : Option PLine) (last : Bool) (hs : Sound qs s) :
    Sound qs (landRed s t root k n lo up last) := by
  unfold landRed
  repeat' (first
    | with_reducible assumption
    | with_reducible apply sound_incP
    | with_reducible apply sound_portF
    | with_reducible apply sound_sendIncr
    | extract_lets
    | simp -zeta only [pairK_iff, pair3K_iff, fstK_iff, midK_iff]
    | simp -zeta only [sound_mk_iff]
    | simp -zeta only []
    | split
    | (with_reducible apply sound_ite)
    | (rename_i y; subst y)
    | (rename_i y _; subst y)
    | (rename_i y _ _; subst y)
    | (rename_i y _ _ _; subst y)
    | (rename_i y _ _ _ _; subst y)
    | (rename_i y _ _ _ _ _; subst y)
    | (rename_i y _ _ _ _ _ _; subst y)
    | (rename_i y _ _ _ _ _ _ _; subst y)
    | (rename_i y _ _ _ _ _ _ _ _; subst y)
    | intro _)

theorem sound_execMeshReduction {qs : Want} (p t : Nat) (s : State) (hs : Sound qs s) :
    OutK qs (execMeshReduction p t s) := by
  unfold execMeshReduction
  repeat' (first
    | with_reducible assumption
    | with_reducible apply outK_fault
    | with_reducible apply outK_refused
    | with_reducible apply outK_next
    | with_reducible apply sound_crossedLink
    | with_reducible apply sound_landRed
    | extract_lets
    | simp -zeta only [pairK_iff, pair3K_iff, fstK_iff, midK_iff]
    | simp -zeta only [sound_mk_iff]
    | simp -zeta only []
    | split
    | (with_reducible apply sound_ite)
    | (rename_i y; subst y)
    | (rename_i y _; subst y)
    | (rename_i y _ _; subst y)
    | (rename_i y _ _ _; subst y)
    | (rename_i y _ _ _ _; subst y)
    | (rename_i y _ _ _ _ _; subst y)
    | (rename_i y _ _ _ _ _ _; subst y)
    | (rename_i y _ _ _ _ _ _ _; subst y)
    | (rename_i y _ _ _ _ _ _ _ _; subst y)
    | intro _)

theorem sound_mcastDeliver {qs : Want} (s : State) (k : Packet) (p : Nat) (hs : Sound qs s) :
    Sound qs (mcastDeliver s k p) := by
  unfold mcastDeliver
  repeat' (first
    | with_reducible assumption
    | with_reducible apply sound_incP
    | with_reducible apply sound_dmaAnswered
    | with_reducible apply sound_portFLines
    | with_reducible apply sound_arrive
    | extract_lets
    | split)

theorem sound_execMeshMulticastWrite {qs : Want} (p : Nat) (s : State) (hs : Sound qs s) :
    OutK qs (execMeshMulticastWrite p s) := by
  unfold execMeshMulticastWrite
  repeat' (first
    | with_reducible assumption
    | with_reducible apply outK_fault
    | with_reducible apply outK_refused
    | with_reducible apply outK_next
    | with_reducible apply sound_crossedLink
    | with_reducible apply sound_mcastDeliver
    | (with_reducible apply sound_foldl; intro _ _ _)
    | (with_reducible apply pairK_foldl; intro _ _ _)
    | (with_reducible apply PairK.snd; with_reducible apply pairK_foldl; intro _ _ _)
    | (with_reducible apply fstK_foldl; intro _ _ _)
    | (with_reducible apply FstK.snd; with_reducible apply fstK_foldl; intro _ _ _)
    | extract_lets
    | simp -zeta only [pairK_iff, pair3K_iff, fstK_iff, midK_iff]
    | simp -zeta only [sound_mk_iff]
    | simp -zeta only []
    | split)

end Sys2Proof.Machine
end

