-- ==== Sys2Proof/Laws/SoundStreams.lean ====
section
/-!
SUPPORT. The operations of Streams.lean keep memory and marks canonical and leave the queue alone.
-/
set_option linter.unusedSimpArgs false
set_option linter.unusedVariables false

namespace Sys2Proof.Machine

theorem sound_changeStream {qs : Want} (s : State) (i : Nat) (x : Stream) (hs : Sound qs s) :
    Sound qs (changeStream s i x) := by
  unfold changeStream
  repeat' (first
    | with_reducible assumption
    | with_reducible apply sound_setStream
    | simp -zeta only [sound_mk_iff]
    | split)

theorem sound_execWindowCurrent {qs : Want} (i : Nat) (s : State) (hs : Sound qs s) :
    OutK qs (execWindowCurrent i s) := by
  unfold execWindowCurrent
  repeat' (first
    | with_reducible assumption
    | with_reducible apply outK_fault
    | with_reducible apply outK_refused
    | with_reducible apply outK_next
    | with_reducible apply sound_setStream
    | with_reducible apply sound_toDcc
    | (refine OptK.elim (by assumption) ?_)
    | extract_lets
    | simp -zeta only [sound_mk_iff]
    | split)

theorem sound_clearSlot {qs : Want} (s : State) (x : Stream) (n : Nat) (hs : Sound qs s) :
    Sound qs (clearSlot s x n) := by
  unfold clearSlot
  repeat' (first
    | with_reducible assumption
    | with_reducible apply sound_clearPresent
    | (with_reducible apply sound_foldl; intro _ _ _)
    | (with_reducible apply pairK_foldl; intro _ _ _)
    | (with_reducible apply PairK.snd; with_reducible apply pairK_foldl; intro _ _ _)
    | (with_reducible apply fstK_foldl; intro _ _ _)
    | (with_reducible apply FstK.snd; with_reducible apply fstK_foldl; intro _ _ _)
    | simp -zeta only [pairK_iff, pair3K_iff, fstK_iff, midK_iff]
    | simp -zeta only []
    | split)

theorem sound_execWindowRelease {qs : Want} (i : Nat) (s : State) (hs : Sound qs s) :
    OutK qs (execWindowRelease i s) := by
  unfold execWindowRelease
  repeat' (first
    | with_reducible assumption
    | with_reducible apply outK_fault
    | with_reducible apply outK_refused
    | with_reducible apply outK_next
    | with_reducible apply sound_toDcc
    | with_reducible apply sound_changeStream
    | with_reducible apply sound_clearSlot
    | (refine OptK.elim (by assumption) ?_)
    | extract_lets
    | simp -zeta only [pairK_iff, pair3K_iff, fstK_iff, midK_iff]
    | simp -zeta only [sound_mk_iff]
    | simp -zeta only []
    | split)

theorem sound_execWindowCheck {qs : Want} (i : Nat) (s : State) (hs : Sound qs s) :
    OutK qs (execWindowCheck i s) := by
  unfold execWindowCheck
  repeat' (first
    | with_reducible assumption
    | with_reducible apply outK_fault
    | with_reducible apply outK_refused
    | with_reducible apply outK_next
    | with_reducible apply sound_incP
    | with_reducible apply sound_setStream
    | with_reducible apply sound_requestStall
    | with_reducible apply sound_toHorizon
    | (refine OptK.elim (by assumption) ?_)
    | extract_lets
    | simp -zeta only [sound_mk_iff]
    | split)

theorem sound_sendRequest {qs : Want} (s : State) (i k : Nat) (p : Packet) (hs : Sound qs s) :
    Sound qs (sendRequest s i k p) := by
  unfold sendRequest
  repeat' (first
    | with_reducible assumption
    | with_reducible apply sound_sendPacket
    | with_reducible apply sound_changeStream
    | split)

theorem sound_relayRequest {qs : Want} (s : State) (i : Nat) (hs : Sound qs s) :
    Sound qs (relayRequest s i) := by
  unfold relayRequest
  repeat' (first
    | with_reducible assumption
    | with_reducible apply sound_sendRequest
    | extract_lets
    | split)

theorem sound_memoryRequest {qs : Want} (s : State) (i : Nat) (hs : Sound qs s) :
    Sound qs (memoryRequest s i) := by
  unfold memoryRequest
  repeat' (first
    | with_reducible assumption
    | with_reducible apply sound_setStream
    | with_reducible apply sound_raise
    | with_reducible apply sound_checkLines
    | with_reducible apply sound_translate
    | (with_reducible apply PairK.snd; with_reducible apply sound_translate)
    | with_reducible apply sound_takeHalt
    | (with_reducible apply PairK.snd; with_reducible apply sound_takeHalt)
    | with_reducible apply sound_sendRequest
    | (refine PairK.elim (by assumption) ?_)
    | (refine FstK.elim (by assumption) ?_)
    | extract_lets
    | simp -zeta only [pairK_iff, pair3K_iff, fstK_iff, midK_iff]
    | simp -zeta only [sound_mk_iff]
    | simp -zeta only []
    | split)

theorem sound_execStreamRequestIssue {qs : Want} (i : Nat) (s : State) (hs : Sound qs s) :
    OutK qs (execStreamRequestIssue i s) := by
  unfold execStreamRequestIssue
  repeat' (first
    | with_reducible assumption
    | with_reducible apply outK_fault
    | with_reducible apply outK_refused
    | with_reducible apply outK_next
    | with_reducible apply sound_toDcc
    | with_reducible apply sound_relayRequest
    | with_reducible apply sound_memoryRequest
    | (refine OptK.elim (by assumption) ?_)
    | extract_lets
    | split)

theorem sound_execWindowFilled {qs : Want} (i p : Nat) (s : State) (hs : Sound qs s) :
    OutK qs (execWindowFilled i p s) := by
  unfold execWindowFilled
  repeat' (first
    | with_reducible assumption
    | with_reducible apply outK_fault
    | with_reducible apply outK_refused
    | with_reducible apply outK_next
    | with_reducible apply sound_sendIncr
    | with_reducible apply sound_changeStream
    | extract_lets
    | simp -zeta only [sound_mk_iff]
    | split)

theorem sound_execStoreWindowAcknowledged {qs : Want} (i : Nat) (s : State) (hs : Sound qs s) :
    OutK qs (execStoreWindowAcknowledged i s) := by
  unfold execStoreWindowAcknowledged
  repeat' (first
    | with_reducible assumption
    | with_reducible apply outK_fault
    | with_reducible apply outK_refused
    | with_reducible apply outK_next
    | with_reducible apply sound_sendIncr
    | with_reducible apply sound_changeStream
    | extract_lets
    | simp -zeta only [sound_mk_iff]
    | split)

theorem sound_execStreamWait {qs : Want} (i : Nat) (s : State) (hs : Sound qs s) :
    OutK qs (execStreamWait i s) := by
  unfold execStreamWait
  repeat' (first
    | with_reducible assumption
    | with_reducible apply outK_fault
    | with_reducible apply outK_refused
    | with_reducible apply outK_next
    | with_reducible apply sound_raise
    | with_reducible apply sound_advance
    | (with_reducible apply sound_foldl; intro _ _ _)
    | (with_reducible apply pairK_foldl; intro _ _ _)
    | (with_reducible apply PairK.snd; with_reducible apply pairK_foldl; intro _ _ _)
    | (with_reducible apply fstK_foldl; intro _ _ _)
    | (with_reducible apply FstK.snd; with_reducible apply fstK_foldl; intro _ _ _)
    | extract_lets
    | simp -zeta only [pairK_iff, pair3K_iff, fstK_iff, midK_iff]
    | simp -zeta only [sound_mk_iff]
    | simp -zeta only []
    | split)

end Sys2Proof.Machine
end

