-- ==== Sys2Proof/Laws/SoundHms.lean ====
section
/-!
SUPPORT. The operations of Hms.lean keep memory and marks canonical and leave the queue alone.
-/
set_option linter.unusedSimpArgs false
set_option linter.unusedVariables false

namespace Sys2Proof.Machine

theorem sound_setPort {qs : Want} (s : State) (p : Nat) (v : PortSt) (hs : Sound qs s) :
    Sound qs (setPort s p v) := by
  unfold setPort
  repeat' (first
    | with_reducible assumption
    | simp -zeta only [sound_mk_iff]
    | split)

theorem sound_setFlow {qs : Want} (s : State) (fl : Nat) (v : HFlow) (hs : Sound qs s) :
    Sound qs (setFlow s fl v) := by
  unfold setFlow
  repeat' (first
    | with_reducible assumption
    | simp -zeta only [sound_mk_iff]
    | split)

theorem sound_takePn {qs : Want} (s : State) (hs : Sound qs s) :
    OptK qs (takePn s) := by
  unfold takePn
  repeat' (first
    | with_reducible assumption
    | with_reducible apply optK_none
    | with_reducible apply optK_some
    | with_reducible apply sound_setP
    | extract_lets
    | split)

theorem sound_emit {qs : Want} (s : State) (port : Nat) (o : Out) (hs : Sound qs s) :
    Sound qs (emit s port o) := by
  unfold emit
  repeat' (first
    | with_reducible assumption
    | with_reducible apply sound_incP
    | with_reducible apply sound_takePn
    | (refine OptK.elim (by assumption) ?_)
    | extract_lets
    | simp -zeta only [sound_mk_iff]
    | split)

theorem sound_sendPfc {qs : Want} (s : State) (port prio quanta : Nat) (hs : Sound qs s) :
    Sound qs (sendPfc s port prio quanta) := by
  unfold sendPfc
  repeat' (first
    | with_reducible assumption
    | with_reducible apply sound_incP
    | with_reducible apply sound_emit
    | split)

theorem sound_emitReq {qs : Want} (s : State) (fl : Nat) (r : HReq) (hs : Sound qs s) :
    Sound qs (emitReq s fl r) := by
  unfold emitReq
  repeat' (first
    | with_reducible assumption
    | with_reducible apply sound_emit
    | (refine PairK.elim (by assumption) ?_)
    | (refine FstK.elim (by assumption) ?_)
    | extract_lets
    | simp -zeta only [pairK_iff, pair3K_iff, fstK_iff, midK_iff]
    | simp -zeta only []
    | split)

theorem sound_pumpFlow {qs : Want}  : ∀ (x0 : Nat) (fl : Nat) (x1 : State), Sound qs x1 →
    Sound qs (pumpFlow fl x0 x1) := by
  intro x0
  induction x0 with
  | zero => (intros; unfold pumpFlow; first | assumption | (with_reducible apply pairK_mk; assumption) | (with_reducible apply pair3K_mk; assumption))
  | succ x0 ih => (
  intros
  unfold pumpFlow
  repeat' (first
    | with_reducible assumption
    | with_reducible apply ih
    | with_reducible apply sound_setFlow
    | with_reducible apply sound_emitReq
    | extract_lets
    | simp -zeta only [sound_mk_iff]
    | split))

theorem sound_sendReqs {qs : Want} (s : State) (fl : Nat) (rs : List HReq) (hs : Sound qs s) :
    Sound qs (sendReqs s fl rs) := by
  unfold sendReqs
  repeat' (first
    | with_reducible assumption
    | with_reducible apply sound_setFlow
    | with_reducible apply sound_pumpFlow
    | extract_lets
    | simp -zeta only [sound_mk_iff]
    | split)

theorem sound_hmsApply {qs : Want} (s : State) (f : HmsFrame) (hs : Sound qs s) :
    Sound qs (hmsApply s f) := by
  unfold hmsApply
  repeat' (first
    | with_reducible assumption
    | with_reducible apply sound_incP
    | with_reducible apply sound_writeP
    | with_reducible apply sound_chargeRange
    | extract_lets
    | simp -zeta only [pairK_iff, pair3K_iff, fstK_iff, midK_iff]
    | simp -zeta only []
    | split)

theorem sound_hmsAnswer {qs : Want} (s : State) (port : Nat) (f : HmsFrame) (op seq status : Nat) (hs : Sound qs s) :
    Sound qs (hmsAnswer s port f op seq status) := by
  unfold hmsAnswer
  repeat' (first
    | with_reducible assumption
    | with_reducible apply sound_emit
    | simp -zeta only [sound_mk_iff]
    | split)

theorem sound_hmsTake {qs : Want} (s : State) (port : Nat) (f : HmsFrame) (hs : Sound qs s) :
    Sound qs (hmsTake s port f) := by
  unfold hmsTake
  repeat' (first
    | with_reducible assumption
    | with_reducible apply sound_incP
    | with_reducible apply sound_hmsApply
    | with_reducible apply sound_hmsAnswer
    | extract_lets
    | split)

theorem sound_setRecv {qs : Want} (s : State) (r : HRecv) (hs : Sound qs s) :
    Sound qs (setRecv s r) := by
  unfold setRecv
  repeat' (first
    | with_reducible assumption
    | simp -zeta only [pairK_iff, pair3K_iff, fstK_iff, midK_iff]
    | simp -zeta only [sound_mk_iff]
    | simp -zeta only []
    | split)

theorem sound_hmsDrain {qs : Want}  : ∀ (x0 : Nat) (port ip udp : Nat) (x1 : State), Sound qs x1 →
    Sound qs (hmsDrain port ip udp x0 x1) := by
  intro x0
  induction x0 with
  | zero => (intros; unfold hmsDrain; first | assumption | (with_reducible apply pairK_mk; assumption) | (with_reducible apply pair3K_mk; assumption))
  | succ x0 ih => (
  intros
  unfold hmsDrain
  repeat' (first
    | with_reducible assumption
    | with_reducible apply ih
    | with_reducible apply sound_hmsTake
    | with_reducible apply sound_setRecv
    | extract_lets
    | simp -zeta only [pairK_iff, pair3K_iff, fstK_iff, midK_iff]
    | simp -zeta only [sound_mk_iff]
    | simp -zeta only []
    | split))

theorem sound_hmsReceive {qs : Want} (s : State) (port : Nat) (f : HmsFrame) (hs : Sound qs s) :
    Sound qs (hmsReceive s port f) := by
  unfold hmsReceive
  repeat' (first
    | with_reducible assumption
    | with_reducible apply sound_hmsAnswer
    | with_reducible apply sound_hmsTake
    | with_reducible apply sound_setRecv
    | with_reducible apply sound_hmsDrain
    | extract_lets
    | simp -zeta only [pairK_iff, pair3K_iff, fstK_iff, midK_iff]
    | simp -zeta only [sound_mk_iff]
    | simp -zeta only []
    | split)

theorem sound_hmsFrameIn {qs : Want} (op port : Nat) (f : HmsFrame) (s : State) (hs : Sound qs s) :
    OutK qs (hmsFrameIn op port f s) := by
  unfold hmsFrameIn
  repeat' (first
    | with_reducible assumption
    | with_reducible apply outK_fault
    | with_reducible apply outK_refused
    | with_reducible apply outK_next
    | with_reducible apply sound_incP
    | with_reducible apply sound_hmsReceive
    | extract_lets
    | split)

theorem sound_execPage {qs : Want} (port : Nat) (f : HmsFrame) (s : State) (hs : Sound qs s) :
    OutK qs (execPage port f s) := by
  unfold execPage
  repeat' (first
    | with_reducible assumption
    | with_reducible apply outK_fault
    | with_reducible apply outK_refused
    | with_reducible apply outK_next
    | with_reducible apply sound_hmsFrameIn
    | (refine OutK.elim (by assumption) ?_)
    | split)

theorem sound_execMirror {qs : Want} (port : Nat) (f : HmsFrame) (s : State) (hs : Sound qs s) :
    OutK qs (execMirror port f s) := by
  unfold execMirror
  repeat' (first
    | with_reducible assumption
    | with_reducible apply outK_fault
    | with_reducible apply outK_refused
    | with_reducible apply outK_next
    | with_reducible apply sound_hmsFrameIn
    | (refine OutK.elim (by assumption) ?_)
    | split)

theorem sound_execRefresh {qs : Want} (port : Nat) (f : HmsFrame) (s : State) (hs : Sound qs s) :
    OutK qs (execRefresh port f s) := by
  unfold execRefresh
  repeat' (first
    | with_reducible assumption
    | with_reducible apply outK_fault
    | with_reducible apply outK_refused
    | with_reducible apply outK_next
    | with_reducible apply sound_hmsFrameIn
    | (refine OutK.elim (by assumption) ?_)
    | split)

theorem sound_execRecord {qs : Want} (port : Nat) (f : HmsFrame) (s : State) (hs : Sound qs s) :
    OutK qs (execRecord port f s) := by
  unfold execRecord
  repeat' (first
    | with_reducible assumption
    | with_reducible apply outK_fault
    | with_reducible apply outK_refused
    | with_reducible apply outK_next
    | with_reducible apply sound_hmsFrameIn
    | (refine OutK.elim (by assumption) ?_)
    | split)

theorem sound_execRead {qs : Want} (port : Nat) (f : HmsFrame) (s : State) (hs : Sound qs s) :
    OutK qs (execRead port f s) := by
  unfold execRead
  repeat' (first
    | with_reducible assumption
    | with_reducible apply outK_fault
    | with_reducible apply outK_refused
    | with_reducible apply outK_next
    | with_reducible apply sound_hmsFrameIn
    | (refine OutK.elim (by assumption) ?_)
    | split)

theorem sound_execWrite {qs : Want} (port : Nat) (f : HmsFrame) (s : State) (hs : Sound qs s) :
    OutK qs (execWrite port f s) := by
  unfold execWrite
  repeat' (first
    | with_reducible assumption
    | with_reducible apply outK_fault
    | with_reducible apply outK_refused
    | with_reducible apply outK_next
    | with_reducible apply sound_hmsFrameIn
    | (refine OutK.elim (by assumption) ?_)
    | split)

end Sys2Proof.Machine
end

