-- ==== Sys2Proof/Laws/SoundSnapshot.lean ====
section
/-!
SUPPORT. The operations of Snapshot.lean keep memory and marks canonical and leave the queue alone.
-/
set_option linter.unusedSimpArgs false
set_option linter.unusedVariables false

namespace Sys2Proof.Machine

theorem sound_sendSnap {qs : Want} (s : State) (d : Nat) (rs : List HReq) (hs : Sound qs s) :
    Sound qs (sendSnap s d rs) := by
  unfold sendSnap
  repeat' (first
    | with_reducible assumption
    | with_reducible apply sound_setSnapD
    | with_reducible apply sound_sendReqs
    | extract_lets
    | simp -zeta only [sound_mk_iff]
    | split)

theorem sound_ackWrite {qs : Want} (s : State) (pkt : Option Packet) (hs : Sound qs s) :
    Sound qs (ackWrite s pkt) := by
  unfold ackWrite
  repeat' (first
    | with_reducible assumption
    | with_reducible apply sound_sendPacket
    | simp -zeta only [sound_mk_iff]
    | split)

theorem sound_releaseHeld {qs : Want} (s : State) (which : HeldWrite → Bool) (born : Nat) (hs : Sound qs s) :
    Sound qs (releaseHeld s which born) := by
  unfold releaseHeld
  repeat' (first
    | with_reducible assumption
    | with_reducible apply sound_acceptWrite
    | (with_reducible apply PairK.snd; with_reducible apply sound_acceptWrite)
    | with_reducible apply sound_ackWrite
    | (with_reducible apply sound_foldl; intro _ _ _)
    | (with_reducible apply pairK_foldl; intro _ _ _)
    | (with_reducible apply PairK.snd; with_reducible apply pairK_foldl; intro _ _ _)
    | (with_reducible apply fstK_foldl; intro _ _ _)
    | (with_reducible apply FstK.snd; with_reducible apply fstK_foldl; intro _ _ _)
    | (refine PairK.elim (by assumption) ?_)
    | (refine FstK.elim (by assumption) ?_)
    | extract_lets
    | simp -zeta only [pairK_iff, pair3K_iff, fstK_iff, midK_iff]
    | simp -zeta only [sound_mk_iff]
    | simp -zeta only []
    | split)

theorem sound_endSnap {qs : Want} (s : State) (d : Nat) (hs : Sound qs s) :
    Sound qs (endSnap s d) := by
  unfold endSnap
  repeat' (first
    | with_reducible assumption
    | with_reducible apply sound_setSnapD
    | with_reducible apply sound_ackWrite
    | with_reducible apply sound_releaseHeld
    | (with_reducible apply sound_foldl; intro _ _ _)
    | (with_reducible apply pairK_foldl; intro _ _ _)
    | (with_reducible apply PairK.snd; with_reducible apply pairK_foldl; intro _ _ _)
    | (with_reducible apply fstK_foldl; intro _ _ _)
    | (with_reducible apply FstK.snd; with_reducible apply fstK_foldl; intro _ _ _)
    | extract_lets
    | simp -zeta only [pairK_iff, pair3K_iff, fstK_iff, midK_iff]
    | simp -zeta only [sound_mk_iff]
    | simp -zeta only []
    | split)

theorem sound_failSnap {qs : Want} (s : State) (d : Nat) (hs : Sound qs s) :
    Sound qs (failSnap s d) := by
  unfold failSnap
  repeat' (first
    | with_reducible assumption
    | with_reducible apply sound_setP
    | with_reducible apply sound_incP
    | with_reducible apply sound_setSnapD
    | with_reducible apply sound_endSnap
    | extract_lets
    | simp -zeta only [sound_mk_iff]
    | split)

theorem sound_abandonSnap {qs : Want} (s : State) (d : Nat) (hs : Sound qs s) :
    Sound qs (abandonSnap s d) := by
  unfold abandonSnap
  repeat' (first
    | with_reducible assumption
    | with_reducible apply sound_setP
    | with_reducible apply sound_endSnap
    | extract_lets
    | split)

theorem sound_snapPoison {qs : Want} (s : State) (d pa : Nat) (hs : Sound qs s) :
    Sound qs (snapPoison s d pa) := by
  unfold snapPoison
  repeat' (first
    | with_reducible assumption
    | with_reducible apply sound_raise
    | with_reducible apply sound_abandonSnap
    | simp -zeta only [sound_mk_iff]
    | split)

theorem sound_execSnapshotPoint {qs : Want} (d : Nat) (s : State) (hs : Sound qs s) :
    OutK qs (execSnapshotPoint d s) := by
  unfold execSnapshotPoint
  repeat' (first
    | with_reducible assumption
    | with_reducible apply outK_fault
    | with_reducible apply outK_refused
    | with_reducible apply outK_next
    | with_reducible apply sound_setP
    | with_reducible apply sound_incP
    | with_reducible apply sound_setReg
    | with_reducible apply sound_setSnapD
    | with_reducible apply sound_toDcc
    | with_reducible apply sound_sendSnap
    | (with_reducible apply sound_foldl; intro _ _ _)
    | (with_reducible apply pairK_foldl; intro _ _ _)
    | (with_reducible apply PairK.snd; with_reducible apply pairK_foldl; intro _ _ _)
    | (with_reducible apply fstK_foldl; intro _ _ _)
    | (with_reducible apply FstK.snd; with_reducible apply fstK_foldl; intro _ _ _)
    | (refine OptK.elim (by assumption) ?_)
    | extract_lets
    | simp -zeta only [pairK_iff, pair3K_iff, fstK_iff, midK_iff]
    | simp -zeta only [sound_mk_iff]
    | simp -zeta only []
    | split)

theorem sound_execSnapshotDrainEnd {qs : Want} (d : Nat) (s : State) (hs : Sound qs s) :
    OutK qs (execSnapshotDrainEnd d s) := by
  unfold execSnapshotDrainEnd
  repeat' (first
    | with_reducible assumption
    | with_reducible apply outK_fault
    | with_reducible apply outK_refused
    | with_reducible apply outK_next
    | with_reducible apply sound_setP
    | with_reducible apply sound_setSnapD
    | extract_lets
    | simp -zeta only [sound_mk_iff]
    | split)

theorem sound_execSnapshotPageCopy {qs : Want} (d e page : Nat) (s : State) (hs : Sound qs s) :
    OutK qs (execSnapshotPageCopy d e page s) := by
  unfold execSnapshotPageCopy
  repeat' (first
    | with_reducible assumption
    | with_reducible apply outK_fault
    | with_reducible apply outK_refused
    | with_reducible apply outK_next
    | with_reducible apply sound_incP
    | with_reducible apply sound_raise
    | with_reducible apply sound_setReg
    | with_reducible apply sound_translate
    | (with_reducible apply PairK.snd; with_reducible apply sound_translate)
    | with_reducible apply sound_vread
    | (with_reducible apply Pair3K.snd; with_reducible apply sound_vread)
    | with_reducible apply sound_sendSnap
    | with_reducible apply sound_releaseHeld
    | with_reducible apply sound_snapPoison
    | (refine PairK.elim (by assumption) ?_)
    | (refine Pair3K.elim (by assumption) ?_)
    | extract_lets
    | simp -zeta only [pairK_iff, pair3K_iff, fstK_iff, midK_iff]
    | simp -zeta only [sound_mk_iff]
    | simp -zeta only []
    | split)

theorem sound_execSnapshotMirrorWrite {qs : Want} (d : Nat) (s : State) (hs : Sound qs s) :
    OutK qs (execSnapshotMirrorWrite d s) := by
  unfold execSnapshotMirrorWrite
  repeat' (first
    | with_reducible assumption
    | with_reducible apply outK_fault
    | with_reducible apply outK_refused
    | with_reducible apply outK_next
    | with_reducible apply sound_incP
    | with_reducible apply sound_setSnapD
    | with_reducible apply sound_sendSnap
    | with_reducible apply sound_ackWrite
    | with_reducible apply sound_snapPoison
    | extract_lets
    | simp -zeta only [pairK_iff, pair3K_iff, fstK_iff, midK_iff]
    | simp -zeta only [sound_mk_iff]
    | simp -zeta only []
    | split)

theorem sound_execSnapshotComplete {qs : Want} (d : Nat) (s : State) (hs : Sound qs s) :
    OutK qs (execSnapshotComplete d s) := by
  unfold execSnapshotComplete
  repeat' (first
    | with_reducible assumption
    | with_reducible apply outK_fault
    | with_reducible apply outK_refused
    | with_reducible apply outK_next
    | with_reducible apply sound_setSnapD
    | with_reducible apply sound_sendSnap
    | extract_lets
    | simp -zeta only [sound_mk_iff]
    | split)

theorem sound_completeSnap {qs : Want} (s : State) (d : Nat) (hs : Sound qs s) :
    Sound qs (completeSnap s d) := by
  unfold completeSnap
  repeat' (first
    | with_reducible assumption
    | with_reducible apply sound_setP
    | with_reducible apply sound_setReg
    | with_reducible apply sound_setSnapD
    | with_reducible apply sound_sendSnap
    | with_reducible apply sound_releaseHeld
    | (with_reducible apply sound_foldl; intro _ _ _)
    | (with_reducible apply pairK_foldl; intro _ _ _)
    | (with_reducible apply PairK.snd; with_reducible apply pairK_foldl; intro _ _ _)
    | (with_reducible apply fstK_foldl; intro _ _ _)
    | (with_reducible apply FstK.snd; with_reducible apply fstK_foldl; intro _ _ _)
    | extract_lets
    | simp -zeta only [pairK_iff, pair3K_iff, fstK_iff, midK_iff]
    | simp -zeta only [sound_mk_iff]
    | simp -zeta only []
    | split)

theorem sound_snapAcked {qs : Want} (s : State) (who : HOwner) (hs : Sound qs s) :
    Sound qs (snapAcked s who) := by
  unfold snapAcked
  repeat' (first
    | with_reducible assumption
    | with_reducible apply sound_setReg
    | with_reducible apply sound_setSnapD
    | with_reducible apply sound_completeSnap
    | extract_lets
    | simp -zeta only [sound_mk_iff]
    | split)

theorem sound_toNs {qs : Want} (t : Nat) (s : State) (hs : Sound qs s) :
    Sound qs (toNs t s) := by
  unfold toNs
  repeat' (first
    | with_reducible assumption
    | with_reducible apply sound_advance
    | split)

theorem sound_execSnapshotTimeout {qs : Want} (d : Nat) (s : State) (hs : Sound qs s) :
    OutK qs (execSnapshotTimeout d s) := by
  unfold execSnapshotTimeout
  repeat' (first
    | with_reducible assumption
    | with_reducible apply outK_fault
    | with_reducible apply outK_refused
    | with_reducible apply outK_next
    | with_reducible apply sound_failSnap
    | with_reducible apply sound_toNs
    | split)

theorem sound_writeRegistry {qs : Want} (s : State) (bs : List Byte) (hs : Sound qs s) :
    PairK qs (writeRegistry s bs) := by
  unfold writeRegistry
  repeat' (first
    | with_reducible assumption
    | with_reducible apply sound_setReg
    | extract_lets
    | simp -zeta only [pairK_iff, pair3K_iff, fstK_iff, midK_iff]
    | simp -zeta only [sound_mk_iff]
    | simp -zeta only []
    | split)

theorem sound_execRegistryEntryWrite {qs : Want} (v : List Byte) (s : State) (hs : Sound qs s) :
    OutK qs (execRegistryEntryWrite v s) := by
  unfold execRegistryEntryWrite
  repeat' (first
    | with_reducible assumption
    | with_reducible apply outK_fault
    | with_reducible apply outK_refused
    | with_reducible apply outK_next
    | with_reducible apply sound_gated
    | with_reducible apply sound_writeRegistry
    | (with_reducible apply PairK.snd; with_reducible apply sound_writeRegistry)
    | (refine PairK.elim (by assumption) ?_)
    | extract_lets
    | simp -zeta only [pairK_iff, pair3K_iff, fstK_iff, midK_iff]
    | simp -zeta only [sound_mk_iff]
    | simp -zeta only []
    | split
    | (with_reducible apply sound_ite)
    | (rename_i y; subst y)
    | (rename_i y _; subst y)
    | (rename_i y _ _; subst y)
    | (rename_i y _ _ _; subst y)
    | (rename_i y _ _ _ _; subst y)
    | (rename_i y _ _ _ _ _; subst y)
    | (rename_i y _ _ _ _ _ _; subst y)
    | (rename_i y _ _ _ _ _ _ _; subst y)
    | (rename_i y _ _ _ _ _ _ _ _; subst y)
    | intro _)

theorem sound_writeStep {qs : Want} (index : Nat) (s : State) (strand v : Nat) (hs : Sound qs s) :
    PairK qs (writeStep index s strand v) := by
  unfold writeStep
  repeat' (first
    | with_reducible assumption
    | with_reducible apply sound_setP
    | simp -zeta only [pairK_iff, pair3K_iff, fstK_iff, midK_iff]
    | split)

theorem sound_execDataStepWrite {qs : Want} (strand v : Nat) (s : State) (hs : Sound qs s) :
    OutK qs (execDataStepWrite strand v s) := by
  unfold execDataStepWrite
  repeat' (first
    | with_reducible assumption
    | with_reducible apply outK_fault
    | with_reducible apply outK_refused
    | with_reducible apply outK_next
    | with_reducible apply sound_noParam
    | with_reducible apply sound_gated
    | with_reducible apply sound_writeStep
    | (with_reducible apply PairK.snd; with_reducible apply sound_writeStep)
    | (refine PairK.elim (by assumption) ?_)
    | extract_lets
    | simp -zeta only [pairK_iff, pair3K_iff, fstK_iff, midK_iff]
    | simp -zeta only []
    | split
    | (with_reducible apply sound_ite)
    | (rename_i y; subst y)
    | (rename_i y _; subst y)
    | (rename_i y _ _; subst y)
    | (rename_i y _ _ _; subst y)
    | (rename_i y _ _ _ _; subst y)
    | (rename_i y _ _ _ _ _; subst y)
    | (rename_i y _ _ _ _ _ _; subst y)
    | (rename_i y _ _ _ _ _ _ _; subst y)
    | (rename_i y _ _ _ _ _ _ _ _; subst y)
    | intro _)

theorem sound_writeResume {qs : Want} (s : State) (strand v : Nat) (hs : Sound qs s) :
    PairK qs (writeResume s strand v) := by
  unfold writeResume
  repeat' (first
    | with_reducible assumption
    | with_reducible apply sound_setP
    | simp -zeta only [pairK_iff, pair3K_iff, fstK_iff, midK_iff]
    | split)

theorem sound_execResumeStepWrite {qs : Want} (strand v : Nat) (s : State) (hs : Sound qs s) :
    OutK qs (execResumeStepWrite strand v s) := by
  unfold execResumeStepWrite
  repeat' (first
    | with_reducible assumption
    | with_reducible apply outK_fault
    | with_reducible apply outK_refused
    | with_reducible apply outK_next
    | with_reducible apply sound_noParam
    | with_reducible apply sound_gated
    | with_reducible apply sound_writeResume
    | (with_reducible apply PairK.snd; with_reducible apply sound_writeResume)
    | (refine PairK.elim (by assumption) ?_)
    | extract_lets
    | simp -zeta only [pairK_iff, pair3K_iff, fstK_iff, midK_iff]
    | simp -zeta only []
    | split
    | (with_reducible apply sound_ite)
    | (rename_i y; subst y)
    | (rename_i y _; subst y)
    | (rename_i y _ _; subst y)
    | (rename_i y _ _ _; subst y)
    | (rename_i y _ _ _ _; subst y)
    | (rename_i y _ _ _ _ _; subst y)
    | (rename_i y _ _ _ _ _ _; subst y)
    | (rename_i y _ _ _ _ _ _ _; subst y)
    | (rename_i y _ _ _ _ _ _ _ _; subst y)
    | intro _)

end Sys2Proof.Machine
end

