-- ==== Sys2Proof/Laws/SoundDma.lean ====
section
/-!
SUPPORT. The operations of Dma.lean keep memory and marks canonical and leave the queue alone.
-/
set_option linter.unusedSimpArgs false
set_option linter.unusedVariables false

namespace Sys2Proof.Machine

theorem sound_dmaFault {qs : Want} (s : State) (ch code d0 d1 : Nat) (hs : Sound qs s) :
    Sound qs (dmaFault s ch code d0 d1) := by
  unfold dmaFault
  repeat' (first
    | with_reducible assumption
    | with_reducible apply sound_raise
    | simp -zeta only [sound_mk_iff]
    | split)

theorem sound_dmaProgFault {qs : Want} (s : State) (ch pc w : Nat) (hs : Sound qs s) :
    Sound qs (dmaProgFault s ch pc w) := by
  unfold dmaProgFault
  repeat' (first
    | with_reducible assumption
    | with_reducible apply sound_dmaFault
    | split)

theorem sound_startDma {qs : Want} (s : State) (ch : Nat) (hs : Sound qs s) :
    Sound qs (startDma s ch) := by
  unfold startDma
  repeat' (first
    | with_reducible assumption
    | with_reducible apply sound_setDma
    | extract_lets
    | simp -zeta only [sound_mk_iff]
    | split)

theorem sound_execDmaStart {qs : Want} (arg : Nat) (s : State) (hs : Sound qs s) :
    OutK qs (execDmaStart arg s) := by
  unfold execDmaStart
  repeat' (first
    | with_reducible assumption
    | with_reducible apply outK_fault
    | with_reducible apply outK_refused
    | with_reducible apply outK_next
    | with_reducible apply sound_gated
    | with_reducible apply sound_startDma
    | extract_lets
    | simp -zeta only [pairK_iff, pair3K_iff, fstK_iff, midK_iff]
    | simp -zeta only []
    | split
    | (with_reducible apply sound_ite)
    | (rename_i y; subst y)
    | (rename_i y _; subst y)
    | (rename_i y _ _; subst y)
    | (rename_i y _ _ _; subst y)
    | (rename_i y _ _ _ _; subst y)
    | (rename_i y _ _ _ _ _; subst y)
    | (rename_i y _ _ _ _ _ _; subst y)
    | (rename_i y _ _ _ _ _ _ _; subst y)
    | (rename_i y _ _ _ _ _ _ _ _; subst y)
    | intro _)

theorem sound_execDmaTriggerRun {qs : Want} (ch : Nat) (s : State) (hs : Sound qs s) :
    OutK qs (execDmaTriggerRun ch s) := by
  unfold execDmaTriggerRun
  repeat' (first
    | with_reducible assumption
    | with_reducible apply outK_fault
    | with_reducible apply outK_refused
    | with_reducible apply outK_next
    | with_reducible apply sound_setDma
    | with_reducible apply sound_startDma
    | extract_lets
    | simp -zeta only [sound_mk_iff]
    | split)

theorem sound_execDmaTriggerTime {qs : Want} (ch : Nat) (s : State) (hs : Sound qs s) :
    OutK qs (execDmaTriggerTime ch s) := by
  unfold execDmaTriggerTime
  repeat' (first
    | with_reducible assumption
    | with_reducible apply outK_fault
    | with_reducible apply outK_refused
    | with_reducible apply outK_next
    | with_reducible apply sound_setDma
    | with_reducible apply sound_advance
    | with_reducible apply sound_startDma
    | extract_lets
    | simp -zeta only [sound_mk_iff]
    | split)

theorem sound_execDmaTriggerCtc {qs : Want} (ch : Nat) (s : State) (hs : Sound qs s) :
    OutK qs (execDmaTriggerCtc ch s) := by
  unfold execDmaTriggerCtc
  repeat' (first
    | with_reducible assumption
    | with_reducible apply outK_fault
    | with_reducible apply outK_refused
    | with_reducible apply outK_next
    | with_reducible apply sound_setDma
    | with_reducible apply sound_toCtc
    | with_reducible apply sound_startDma
    | extract_lets
    | simp -zeta only [sound_mk_iff]
    | split)

theorem sound_execDmaTriggerChannel {qs : Want} (ch : Nat) (s : State) (hs : Sound qs s) :
    OutK qs (execDmaTriggerChannel ch s) := by
  unfold execDmaTriggerChannel
  repeat' (first
    | with_reducible assumption
    | with_reducible apply outK_fault
    | with_reducible apply outK_refused
    | with_reducible apply outK_next
    | with_reducible apply sound_setDma
    | with_reducible apply sound_startDma
    | extract_lets
    | simp -zeta only [sound_mk_iff]
    | split)

theorem sound_issueDma {qs : Want} (op ch : Nat) (fx : Nat → Dma → State → State) (s : State) (hs : Sound qs s) (hfx : ∀ x0 x1 x2, Sound qs x2 → Sound qs (fx x0 x1 x2)) :
    OutK qs (issueDma op ch fx s) := by
  unfold issueDma
  repeat' (first
    | with_reducible assumption
    | with_reducible apply outK_fault
    | with_reducible apply outK_refused
    | with_reducible apply outK_next
    | with_reducible apply hfx
    | (refine PairK.snd (hfx _ ?_))
    | with_reducible apply sound_dmaProgFault
    | (refine OptK.elim (by assumption) ?_)
    | (refine PairK.elim (by assumption) ?_)
    | (refine OutK.elim (by assumption) ?_)
    | extract_lets
    | simp -zeta only [pairK_iff, pair3K_iff, fstK_iff, midK_iff]
    | simp -zeta only [sound_mk_iff]
    | split)

theorem sound_dmaWait {qs : Want} (s : State) (ch : Nat) (x : Dma) (hs : Sound qs s) :
    Sound qs (dmaWait s ch x) := by
  unfold dmaWait
  repeat' (first
    | with_reducible assumption
    | with_reducible apply sound_setDma
    | simp -zeta only [sound_mk_iff]
    | split)

theorem sound_execDmaNop {qs : Want} (ch : Nat) (s : State) (hs : Sound qs s) :
    OutK qs (execDmaNop ch s) := by
  unfold execDmaNop
  repeat' (first
    | with_reducible assumption
    | with_reducible apply outK_fault
    | with_reducible apply outK_refused
    | with_reducible apply outK_next
    | with_reducible apply sound_setDma
    | with_reducible apply sound_issueDma
    | (refine OutK.elim (by assumption) ?_)
    | extract_lets
    | simp -zeta only [pairK_iff, pair3K_iff, fstK_iff, midK_iff]
    | simp -zeta only [sound_mk_iff]
    | simp -zeta only []
    | split
    | (with_reducible apply sound_ite)
    | (rename_i y; subst y)
    | (rename_i y _; subst y)
    | (rename_i y _ _; subst y)
    | (rename_i y _ _ _; subst y)
    | (rename_i y _ _ _ _; subst y)
    | (rename_i y _ _ _ _ _; subst y)
    | (rename_i y _ _ _ _ _ _; subst y)
    | (rename_i y _ _ _ _ _ _ _; subst y)
    | (rename_i y _ _ _ _ _ _ _ _; subst y)
    | intro _)

theorem sound_endRun {qs : Want} (s : State) (ch : Nat) (x : Dma) (hs : Sound qs s) :
    Sound qs (endRun s ch x) := by
  unfold endRun
  repeat' (first
    | with_reducible assumption
    | with_reducible apply sound_setDma
    | extract_lets
    | simp -zeta only [pairK_iff, pair3K_iff, fstK_iff, midK_iff]
    | simp -zeta only [sound_mk_iff]
    | simp -zeta only []
    | split
    | (with_reducible apply sound_ite)
    | (rename_i y; subst y)
    | (rename_i y _; subst y)
    | (rename_i y _ _; subst y)
    | (rename_i y _ _ _; subst y)
    | (rename_i y _ _ _ _; subst y)
    | (rename_i y _ _ _ _ _; subst y)
    | (rename_i y _ _ _ _ _ _; subst y)
    | (rename_i y _ _ _ _ _ _ _; subst y)
    | (rename_i y _ _ _ _ _ _ _ _; subst y)
    | intro _)

theorem sound_execDmaHalt {qs : Want} (ch : Nat) (s : State) (hs : Sound qs s) :
    OutK qs (execDmaHalt ch s) := by
  unfold execDmaHalt
  repeat' (first
    | with_reducible assumption
    | with_reducible apply outK_fault
    | with_reducible apply outK_refused
    | with_reducible apply outK_next
    | with_reducible apply sound_issueDma
    | with_reducible apply sound_dmaWait
    | with_reducible apply sound_endRun
    | (refine OutK.elim (by assumption) ?_)
    | extract_lets
    | simp -zeta only [pairK_iff, pair3K_iff, fstK_iff, midK_iff]
    | simp -zeta only [sound_mk_iff]
    | simp -zeta only []
    | split
    | (with_reducible apply sound_ite)
    | (rename_i y; subst y)
    | (rename_i y _; subst y)
    | (rename_i y _ _; subst y)
    | (rename_i y _ _ _; subst y)
    | (rename_i y _ _ _ _; subst y)
    | (rename_i y _ _ _ _ _; subst y)
    | (rename_i y _ _ _ _ _ _; subst y)
    | (rename_i y _ _ _ _ _ _ _; subst y)
    | (rename_i y _ _ _ _ _ _ _ _; subst y)
    | intro _)

theorem sound_execDmaLoop {qs : Want} (ch : Nat) (s : State) (hs : Sound qs s) :
    OutK qs (execDmaLoop ch s) := by
  unfold execDmaLoop
  repeat' (first
    | with_reducible assumption
    | with_reducible apply outK_fault
    | with_reducible apply outK_refused
    | with_reducible apply outK_next
    | with_reducible apply sound_setDma
    | with_reducible apply sound_dmaProgFault
    | with_reducible apply sound_issueDma
    | (refine OutK.elim (by assumption) ?_)
    | extract_lets
    | simp -zeta only [pairK_iff, pair3K_iff, fstK_iff, midK_iff]
    | simp -zeta only [sound_mk_iff]
    | simp -zeta only []
    | split
    | (with_reducible apply sound_ite)
    | (rename_i y; subst y)
    | (rename_i y _; subst y)
    | (rename_i y _ _; subst y)
    | (rename_i y _ _ _; subst y)
    | (rename_i y _ _ _ _; subst y)
    | (rename_i y _ _ _ _ _; subst y)
    | (rename_i y _ _ _ _ _ _; subst y)
    | (rename_i y _ _ _ _ _ _ _; subst y)
    | (rename_i y _ _ _ _ _ _ _ _; subst y)
    | intro _)

theorem sound_execEndloop {qs : Want} (ch : Nat) (s : State) (hs : Sound qs s) :
    OutK qs (execEndloop ch s) := by
  unfold execEndloop
  repeat' (first
    | with_reducible assumption
    | with_reducible apply outK_fault
    | with_reducible apply outK_refused
    | with_reducible apply outK_next
    | with_reducible apply sound_setDma
    | with_reducible apply sound_dmaProgFault
    | with_reducible apply sound_issueDma
    | (refine OutK.elim (by assumption) ?_)
    | extract_lets
    | simp -zeta only [pairK_iff, pair3K_iff, fstK_iff, midK_iff]
    | simp -zeta only [sound_mk_iff]
    | simp -zeta only []
    | split
    | (with_reducible apply sound_ite)
    | (rename_i y; subst y)
    | (rename_i y _; subst y)
    | (rename_i y _ _; subst y)
    | (rename_i y _ _ _; subst y)
    | (rename_i y _ _ _ _; subst y)
    | (rename_i y _ _ _ _ _; subst y)
    | (rename_i y _ _ _ _ _ _; subst y)
    | (rename_i y _ _ _ _ _ _ _; subst y)
    | (rename_i y _ _ _ _ _ _ _ _; subst y)
    | intro _)

theorem sound_waitTimer {qs : Want} (s : State) (ch : Nat) (x : Dma) (hs : Sound qs s) :
    Sound qs (waitTimer s ch x) := by
  unfold waitTimer
  repeat' (first
    | with_reducible assumption
    | with_reducible apply sound_setDma
    | with_reducible apply sound_dmaWait
    | extract_lets
    | simp -zeta only [sound_mk_iff]
    | split)

theorem sound_execWait {qs : Want} (ch : Nat) (s : State) (hs : Sound qs s) :
    OutK qs (execWait ch s) := by
  unfold execWait
  repeat' (first
    | with_reducible assumption
    | with_reducible apply outK_fault
    | with_reducible apply outK_refused
    | with_reducible apply outK_next
    | with_reducible apply sound_setDma
    | with_reducible apply sound_issueDma
    | with_reducible apply sound_dmaWait
    | with_reducible apply sound_waitTimer
    | (refine OutK.elim (by assumption) ?_)
    | extract_lets
    | simp -zeta only [pairK_iff, pair3K_iff, fstK_iff, midK_iff]
    | simp -zeta only [sound_mk_iff]
    | simp -zeta only []
    | split
    | (with_reducible apply sound_ite)
    | (rename_i y; subst y)
    | (rename_i y _; subst y)
    | (rename_i y _ _; subst y)
    | (rename_i y _ _ _; subst y)
    | (rename_i y _ _ _ _; subst y)
    | (rename_i y _ _ _ _ _; subst y)
    | (rename_i y _ _ _ _ _ _; subst y)
    | (rename_i y _ _ _ _ _ _ _; subst y)
    | (rename_i y _ _ _ _ _ _ _ _; subst y)
    | intro _)

theorem sound_execDmaTimerExpiry {qs : Want} (ch : Nat) (s : State) (hs : Sound qs s) :
    OutK qs (execDmaTimerExpiry ch s) := by
  unfold execDmaTimerExpiry
  repeat' (first
    | with_reducible assumption
    | with_reducible apply outK_fault
    | with_reducible apply outK_refused
    | with_reducible apply outK_next
    | with_reducible apply sound_setDma
    | with_reducible apply sound_advance
    | with_reducible apply sound_toCtc
    | extract_lets
    | simp -zeta only [pairK_iff, pair3K_iff, fstK_iff, midK_iff]
    | simp -zeta only [sound_mk_iff]
    | simp -zeta only []
    | split
    | (with_reducible apply sound_ite)
    | (rename_i y; subst y)
    | (rename_i y _; subst y)
    | (rename_i y _ _; subst y)
    | (rename_i y _ _ _; subst y)
    | (rename_i y _ _ _ _; subst y)
    | (rename_i y _ _ _ _ _; subst y)
    | (rename_i y _ _ _ _ _ _; subst y)
    | (rename_i y _ _ _ _ _ _ _; subst y)
    | (rename_i y _ _ _ _ _ _ _ _; subst y)
    | intro _)

theorem sound_execDmaSignal {qs : Want} (ch : Nat) (s : State) (hs : Sound qs s) :
    OutK qs (execDmaSignal ch s) := by
  unfold execDmaSignal
  repeat' (first
    | with_reducible assumption
    | with_reducible apply outK_fault
    | with_reducible apply outK_refused
    | with_reducible apply outK_next
    | with_reducible apply sound_setDma
    | with_reducible apply sound_sendIncr
    | with_reducible apply sound_dmaProgFault
    | with_reducible apply sound_issueDma
    | with_reducible apply sound_dmaWait
    | (refine OutK.elim (by assumption) ?_)
    | extract_lets
    | simp -zeta only [pairK_iff, pair3K_iff, fstK_iff, midK_iff]
    | simp -zeta only [sound_mk_iff]
    | simp -zeta only []
    | split
    | (with_reducible apply sound_ite)
    | (rename_i y; subst y)
    | (rename_i y _; subst y)
    | (rename_i y _ _; subst y)
    | (rename_i y _ _ _; subst y)
    | (rename_i y _ _ _ _; subst y)
    | (rename_i y _ _ _ _ _; subst y)
    | (rename_i y _ _ _ _ _ _; subst y)
    | (rename_i y _ _ _ _ _ _ _; subst y)
    | (rename_i y _ _ _ _ _ _ _ _; subst y)
    | intro _)

theorem sound_execTimer {qs : Want} (ch : Nat) (s : State) (hs : Sound qs s) :
    OutK qs (execTimer ch s) := by
  unfold execTimer
  repeat' (first
    | with_reducible assumption
    | with_reducible apply outK_fault
    | with_reducible apply outK_refused
    | with_reducible apply outK_next
    | with_reducible apply sound_setDma
    | with_reducible apply sound_issueDma
    | (refine OutK.elim (by assumption) ?_)
    | extract_lets
    | simp -zeta only [pairK_iff, pair3K_iff, fstK_iff, midK_iff]
    | simp -zeta only [sound_mk_iff]
    | simp -zeta only []
    | split
    | (with_reducible apply sound_ite)
    | (rename_i y; subst y)
    | (rename_i y _; subst y)
    | (rename_i y _ _; subst y)
    | (rename_i y _ _ _; subst y)
    | (rename_i y _ _ _ _; subst y)
    | (rename_i y _ _ _ _ _; subst y)
    | (rename_i y _ _ _ _ _ _; subst y)
    | (rename_i y _ _ _ _ _ _ _; subst y)
    | (rename_i y _ _ _ _ _ _ _ _; subst y)
    | intro _)

theorem sound_readRows {qs : Want}  : ∀ (x0 : List Nat) (x : DmaXfer) (d : Nat) (x1 : List (Byte × Bool)) (x2 : State), Sound qs x2 →
    PairK qs (readRows x d x0 x1 x2) := by
  intro x0
  induction x0 with
  | nil => (intros; unfold readRows; first | assumption | (with_reducible apply pairK_mk; assumption) | (with_reducible apply pair3K_mk; assumption))
  | cons x0 xr ih => (
  intros
  unfold readRows
  repeat' (first
    | with_reducible assumption
    | with_reducible apply ih
    | (with_reducible apply PairK.snd; with_reducible apply ih)
    | with_reducible apply sound_vread
    | (with_reducible apply Pair3K.snd; with_reducible apply sound_vread)
    | (refine PairK.elim (by assumption) ?_)
    | (refine Pair3K.elim (by assumption) ?_)
    | extract_lets
    | simp -zeta only [pairK_iff, pair3K_iff, fstK_iff, midK_iff]
    | split))

theorem sound_dmaSource {qs : Want} (x : DmaXfer) (d : Nat) (s : State) (hs : Sound qs s) :
    PairK qs (dmaSource x d s) := by
  unfold dmaSource
  repeat' (first
    | with_reducible assumption
    | with_reducible apply sound_checkRange
    | with_reducible apply sound_readRows
    | (with_reducible apply PairK.snd; with_reducible apply sound_readRows)
    | (with_reducible apply sound_foldl; intro _ _ _)
    | (with_reducible apply pairK_foldl; intro _ _ _)
    | (with_reducible apply PairK.snd; with_reducible apply pairK_foldl; intro _ _ _)
    | (with_reducible apply fstK_foldl; intro _ _ _)
    | (with_reducible apply FstK.snd; with_reducible apply fstK_foldl; intro _ _ _)
    | (refine PairK.elim (by assumption) ?_)
    | extract_lets
    | simp -zeta only [pairK_iff, pair3K_iff, fstK_iff, midK_iff]
    | simp -zeta only []
    | split)

theorem sound_storeRows {qs : Want}  : ∀ (x0 : List Nat) (x : DmaXfer) (d : Nat) (data : List (Byte × Bool)) (x1 : State), Sound qs x1 →
    PairK qs (storeRows x d data x0 x1) := by
  intro x0
  induction x0 with
  | nil => (intros; unfold storeRows; first | assumption | (with_reducible apply pairK_mk; assumption) | (with_reducible apply pair3K_mk; assumption))
  | cons x0 xr ih => (
  intros
  unfold storeRows
  repeat' (first
    | with_reducible assumption
    | with_reducible apply ih
    | (with_reducible apply PairK.snd; with_reducible apply ih)
    | with_reducible apply sound_vwrite
    | (with_reducible apply PairK.snd; with_reducible apply sound_vwrite)
    | (refine PairK.elim (by assumption) ?_)
    | extract_lets
    | simp -zeta only [pairK_iff, pair3K_iff, fstK_iff, midK_iff]
    | split))

theorem sound_dmaAbsent {qs : Want} (s : State) (ch : Nat) (t : DmaXfer) (wr : Bool) (va done : Nat) (hs : Sound qs s) :
    Sound qs (dmaAbsent s ch t wr va done) := by
  unfold dmaAbsent
  repeat' (first
    | with_reducible assumption
    | with_reducible apply sound_setDma
    | with_reducible apply sound_takeHalt
    | (with_reducible apply PairK.snd; with_reducible apply sound_takeHalt)
    | (refine PairK.elim (by assumption) ?_)
    | (refine FstK.elim (by assumption) ?_)
    | extract_lets
    | simp -zeta only [pairK_iff, pair3K_iff, fstK_iff, midK_iff]
    | simp -zeta only [sound_mk_iff]
    | simp -zeta only []
    | split)

theorem sound_dmaSent {qs : Want} (s : State) (ch : Nat) (t : DmaXfer) (n : Nat) (data : List (Byte × Bool)) (hs : Sound qs s) :
    Sound qs (dmaSent s ch t n data) := by
  unfold dmaSent
  repeat' (first
    | with_reducible assumption
    | with_reducible apply sound_setDma
    | with_reducible apply sound_wrote
    | extract_lets
    | simp -zeta only [pairK_iff, pair3K_iff, fstK_iff, midK_iff]
    | simp -zeta only [sound_mk_iff]
    | simp -zeta only []
    | split)

theorem sound_dmaToHost {qs : Want} (s : State) (ch : Nat) (t : DmaXfer) (data : List (Byte × Bool)) (hs : Sound qs s) :
    Sound qs (dmaToHost s ch t data) := by
  unfold dmaToHost
  repeat' (first
    | with_reducible assumption
    | with_reducible apply sound_freeBits
    | (with_reducible apply PairK.snd; with_reducible apply sound_freeBits)
    | with_reducible apply sound_sendReqs
    | with_reducible apply sound_dmaFault
    | with_reducible apply sound_dmaSent
    | (refine PairK.elim (by assumption) ?_)
    | (refine FstK.elim (by assumption) ?_)
    | extract_lets
    | simp -zeta only [pairK_iff, pair3K_iff, fstK_iff, midK_iff]
    | simp -zeta only []
    | split)

theorem sound_dmaToCore {qs : Want} (s : State) (ch : Nat) (t : DmaXfer) (d : Nat) (data : List (Byte × Bool)) (hs : Sound qs s) :
    Sound qs (dmaToCore s ch t d data) := by
  unfold dmaToCore
  repeat' (first
    | with_reducible assumption
    | with_reducible apply sound_sendPacket
    | with_reducible apply sound_dmaSent
    | (with_reducible apply sound_foldl; intro _ _ _)
    | (with_reducible apply pairK_foldl; intro _ _ _)
    | (with_reducible apply PairK.snd; with_reducible apply pairK_foldl; intro _ _ _)
    | (with_reducible apply fstK_foldl; intro _ _ _)
    | (with_reducible apply FstK.snd; with_reducible apply fstK_foldl; intro _ _ _)
    | extract_lets
    | split)

theorem sound_headEdges {qs : Want} (s : State) (ch : Nat) (hs : Sound qs s) :
    Sound qs (headEdges s ch) := by
  unfold headEdges
  repeat' (first
    | with_reducible assumption
    | with_reducible apply sound_setDma
    | with_reducible apply sound_sendReqs
    | extract_lets
    | simp -zeta only [sound_mk_iff]
    | split)

theorem sound_dmaMove {qs : Want} (s : State) (ch : Nat) (t : DmaXfer) (hs : Sound qs s) :
    Sound qs (dmaMove s ch t) := by
  unfold dmaMove
  repeat' (first
    | with_reducible assumption
    | with_reducible apply sound_setDma
    | with_reducible apply sound_dmaFault
    | with_reducible apply sound_dmaSource
    | (with_reducible apply PairK.snd; with_reducible apply sound_dmaSource)
    | with_reducible apply sound_storeRows
    | (with_reducible apply PairK.snd; with_reducible apply sound_storeRows)
    | with_reducible apply sound_dmaAbsent
    | with_reducible apply sound_dmaToHost
    | with_reducible apply sound_dmaToCore
    | with_reducible apply sound_headEdges
    | (refine PairK.elim (by assumption) ?_)
    | extract_lets
    | simp -zeta only [sound_mk_iff]
    | split)

theorem sound_dmaLast {qs : Want} (s : State) (ch : Nat) (t : DmaXfer) (hs : Sound qs s) :
    Sound qs (dmaLast s ch t) := by
  unfold dmaLast
  repeat' (first
    | with_reducible assumption
    | with_reducible apply sound_setDma
    | with_reducible apply sound_headEdges
    | with_reducible apply sound_dmaMove
    | extract_lets
    | simp -zeta only [sound_mk_iff]
    | split)

theorem sound_execDmaTransferComplete {qs : Want} (ch : Nat) (s : State) (hs : Sound qs s) :
    OutK qs (execDmaTransferComplete ch s) := by
  unfold execDmaTransferComplete
  repeat' (first
    | with_reducible assumption
    | with_reducible apply outK_fault
    | with_reducible apply outK_refused
    | with_reducible apply outK_next
    | with_reducible apply sound_setDma
    | with_reducible apply sound_headEdges
    | with_reducible apply sound_dmaMove
    | with_reducible apply sound_dmaLast
    | extract_lets
    | simp -zeta only [sound_mk_iff]
    | split)

theorem sound_dmaLaunch {qs : Want} (s : State) (ch : Nat) (x : Dma) (t : DmaXfer) (hs : Sound qs s) :
    Sound qs (dmaLaunch s ch x t) := by
  unfold dmaLaunch
  repeat' (first
    | with_reducible assumption
    | with_reducible apply sound_setDma
    | with_reducible apply sound_sendReqs
    | with_reducible apply sound_headEdges
    | extract_lets
    | simp -zeta only [sound_mk_iff]
    | split)

theorem sound_dmaTransfer {qs : Want} (ch : Nat) (x : Dma) (w src dst rows bytes : Nat) (sStr dStr : Int) (incS incD crc : Bool) (addS addD : Int) (idxBad : Bool) (s : State) (hs : Sound qs s) :
    Sound qs (dmaTransfer ch x w src dst rows bytes sStr dStr incS incD crc addS addD idxBad s) := by
  unfold dmaTransfer
  repeat' (first
    | with_reducible assumption
    | with_reducible apply sound_freshId
    | (with_reducible apply PairK.snd; with_reducible apply sound_freshId)
    | with_reducible apply sound_dmaProgFault
    | with_reducible apply sound_dmaWait
    | with_reducible apply sound_dmaLaunch
    | (refine PairK.elim (by assumption) ?_)
    | (refine FstK.elim (by assumption) ?_)
    | extract_lets
    | simp -zeta only [pairK_iff, pair3K_iff, fstK_iff, midK_iff]
    | simp -zeta only [sound_mk_iff]
    | simp -zeta only []
    | split)

theorem sound_execMove {qs : Want} (ch : Nat) (s : State) (hs : Sound qs s) :
    OutK qs (execMove ch s) := by
  unfold execMove
  repeat' (first
    | with_reducible assumption
    | with_reducible apply outK_fault
    | with_reducible apply outK_refused
    | with_reducible apply outK_next
    | with_reducible apply sound_issueDma
    | with_reducible apply sound_dmaTransfer
    | (refine OutK.elim (by assumption) ?_)
    | extract_lets
    | simp -zeta only [pairK_iff, pair3K_iff, fstK_iff, midK_iff]
    | simp -zeta only []
    | split
    | (with_reducible apply sound_ite)
    | (rename_i y; subst y)
    | (rename_i y _; subst y)
    | (rename_i y _ _; subst y)
    | (rename_i y _ _ _; subst y)
    | (rename_i y _ _ _ _; subst y)
    | (rename_i y _ _ _ _ _; subst y)
    | (rename_i y _ _ _ _ _ _; subst y)
    | (rename_i y _ _ _ _ _ _ _; subst y)
    | (rename_i y _ _ _ _ _ _ _ _; subst y)
    | intro _)

theorem sound_execMove2d {qs : Want} (ch : Nat) (s : State) (hs : Sound qs s) :
    OutK qs (execMove2d ch s) := by
  unfold execMove2d
  repeat' (first
    | with_reducible assumption
    | with_reducible apply outK_fault
    | with_reducible apply outK_refused
    | with_reducible apply outK_next
    | with_reducible apply sound_issueDma
    | with_reducible apply sound_dmaTransfer
    | (refine OutK.elim (by assumption) ?_)
    | extract_lets
    | simp -zeta only [pairK_iff, pair3K_iff, fstK_iff, midK_iff]
    | simp -zeta only []
    | split
    | (with_reducible apply sound_ite)
    | (rename_i y; subst y)
    | (rename_i y _; subst y)
    | (rename_i y _ _; subst y)
    | (rename_i y _ _ _; subst y)
    | (rename_i y _ _ _ _; subst y)
    | (rename_i y _ _ _ _ _; subst y)
    | (rename_i y _ _ _ _ _ _; subst y)
    | (rename_i y _ _ _ _ _ _ _; subst y)
    | (rename_i y _ _ _ _ _ _ _ _; subst y)
    | intro _)

theorem sound_execCrcstore {qs : Want} (ch : Nat) (s : State) (hs : Sound qs s) :
    OutK qs (execCrcstore ch s) := by
  unfold execCrcstore
  repeat' (first
    | with_reducible assumption
    | with_reducible apply outK_fault
    | with_reducible apply outK_refused
    | with_reducible apply outK_next
    | with_reducible apply sound_freshId
    | (with_reducible apply PairK.snd; with_reducible apply sound_freshId)
    | with_reducible apply sound_dmaProgFault
    | with_reducible apply sound_issueDma
    | with_reducible apply sound_dmaWait
    | with_reducible apply sound_dmaLaunch
    | (refine PairK.elim (by assumption) ?_)
    | (refine FstK.elim (by assumption) ?_)
    | (refine OutK.elim (by assumption) ?_)
    | extract_lets
    | simp -zeta only [pairK_iff, pair3K_iff, fstK_iff, midK_iff]
    | simp -zeta only [sound_mk_iff]
    | simp -zeta only []
    | split
    | (with_reducible apply sound_ite)
    | (rename_i y; subst y)
    | (rename_i y _; subst y)
    | (rename_i y _ _; subst y)
    | (rename_i y _ _ _; subst y)
    | (rename_i y _ _ _ _; subst y)
    | (rename_i y _ _ _ _ _; subst y)
    | (rename_i y _ _ _ _ _ _; subst y)
    | (rename_i y _ _ _ _ _ _ _; subst y)
    | (rename_i y _ _ _ _ _ _ _ _; subst y)
    | intro _)

end Sys2Proof.Machine
end

