-- ==== Sys2Proof/Laws/SoundChamois.lean ====
section
/-!
SUPPORT. The operations of Chamois.lean keep memory and marks canonical and leave the queue alone.
-/
set_option linter.unusedSimpArgs false
set_option linter.unusedVariables false

namespace Sys2Proof.Machine

theorem sound_decodeNextC {qs : Want} (s : State) (c d : Nat) (hs : Sound qs s) :
    Sound qs (decodeNextC s c d) := by
  unfold decodeNextC
  repeat' (first
    | with_reducible assumption
    | with_reducible apply sound_setC
    | with_reducible apply sound_checkRange
    | with_reducible apply sound_requestStall
    | (with_reducible apply sound_foldl; intro _ _ _)
    | (with_reducible apply pairK_foldl; intro _ _ _)
    | (with_reducible apply PairK.snd; with_reducible apply pairK_foldl; intro _ _ _)
    | (with_reducible apply fstK_foldl; intro _ _ _)
    | (with_reducible apply FstK.snd; with_reducible apply fstK_foldl; intro _ _ _)
    | extract_lets
    | simp -zeta only [pairK_iff, pair3K_iff, fstK_iff, midK_iff]
    | simp -zeta only [sound_mk_iff]
    | (refine sound_mkPoison (fun k => SMap.wf_set _ _ (Sound.pz (q := qs) ?_ k)) ?_)
    | simp -zeta only []
    | split
    | (with_reducible apply sound_ite)
    | (rename_i y; subst y)
    | (rename_i y _; subst y)
    | (rename_i y _ _; subst y)
    | (rename_i y _ _ _; subst y)
    | (rename_i y _ _ _ _; subst y)
    | (rename_i y _ _ _ _ _; subst y)
    | (rename_i y _ _ _ _ _ _; subst y)
    | (rename_i y _ _ _ _ _ _ _; subst y)
    | (rename_i y _ _ _ _ _ _ _ _; subst y)
    | intro _)

theorem sound_decodeChamois {qs : Want} (s : State) (c : Nat) (hs : Sound qs s) :
    OutK qs (decodeChamois s c) := by
  unfold decodeChamois
  repeat' (first
    | with_reducible assumption
    | with_reducible apply outK_fault
    | with_reducible apply outK_refused
    | with_reducible apply outK_next
    | with_reducible apply sound_toHorizon
    | with_reducible apply sound_decodeNextC
    | (refine OptK.elim (by assumption) ?_)
    | extract_lets
    | simp -zeta only [pairK_iff, pair3K_iff, fstK_iff, midK_iff]
    | simp -zeta only []
    | split
    | (with_reducible apply sound_ite)
    | (rename_i y; subst y)
    | (rename_i y _; subst y)
    | (rename_i y _ _; subst y)
    | (rename_i y _ _ _; subst y)
    | (rename_i y _ _ _ _; subst y)
    | (rename_i y _ _ _ _ _; subst y)
    | (rename_i y _ _ _ _ _ _; subst y)
    | (rename_i y _ _ _ _ _ _ _; subst y)
    | (rename_i y _ _ _ _ _ _ _ _; subst y)
    | intro _)

theorem sound_holdIssue {qs : Want}  : ∀ (x0 : Nat) (c d w : Nat) (x1 : State), Sound qs x1 →
    Sound qs (holdIssue c d w x0 x1) := by
  intro x0
  induction x0 with
  | zero => (intros; unfold holdIssue; first | assumption | (with_reducible apply pairK_mk; assumption) | (with_reducible apply pair3K_mk; assumption))
  | succ x0 ih => (
  intros
  unfold holdIssue
  repeat' (first
    | with_reducible assumption
    | with_reducible apply ih
    | with_reducible apply sound_advance
    | split))

theorem sound_issueAtC {qs : Want} (s : State) (c d w : Nat) (y : Decoded) (fx : CCtx → State → CEff)
    (hs : Sound qs s) (hfx : ∀ x t, Sound qs t → CEffK qs (fx x t)) : Sound qs (issueAtC s c d w y fx) := by
  unfold issueAtC
  extract_lets x slot off
  split
  · exact sound_raise _ _ hs
  split
  · exact sound_raise _ _ hs
  split
  · exact sound_raise _ _ hs
  split
  · exact sound_raise _ _ hs
  split
  · rename_i heq; exact sound_setC _ _ _ (CEffK.elimOk heq (hfx _ _ (sound_setC _ _ _ hs)))
  · exact sound_raise _ _ (sound_setC _ _ _ hs)
  · rename_i heq; exact sound_raise _ _ (CEffK.elimFault heq (hfx _ _ (sound_setC _ _ _ hs)))
  · exact sound_raise _ _ (PairK.snd (sound_freeBits _ 64 (PairK.snd (sound_freeBits _ 64 (sound_setC _ _ _ hs)))))

theorem sound_issueC {qs : Want} (op c : Nat) (word : W64) (fx : CCtx → State → CEff) (s : State) (hs : Sound qs s) (hfx : ∀ x0 x1, Sound qs x1 → CEffK qs (fx x0 x1)) :
    OutK qs (issueC op c word fx s) := by
  unfold issueC
  repeat' (first
    | with_reducible assumption
    | with_reducible apply outK_fault
    | with_reducible apply outK_refused
    | with_reducible apply outK_next
    | with_reducible apply hfx
    | (refine PairK.snd (hfx _ ?_))
    | with_reducible apply sound_toDcc
    | with_reducible apply sound_holdIssue
    | with_reducible apply sound_issueAtC
    | (refine OptK.elim (by assumption) ?_)
    | (refine PairK.elim (by assumption) ?_)
    | (refine OutK.elim (by assumption) ?_)
    | extract_lets
    | simp -zeta only [pairK_iff, pair3K_iff, fstK_iff, midK_iff]
    | split)

theorem sound_execCNop {qs : Want} (c : Nat) (w : W64) (s : State) (hs : Sound qs s) :
    OutK qs (execCNop c w s) := by
  unfold execCNop
  repeat' (first
    | with_reducible assumption
    | with_reducible apply outK_fault
    | with_reducible apply outK_refused
    | with_reducible apply outK_next
    | with_reducible apply ceffK_fault
    | with_reducible apply ceffK_faultD
    | with_reducible apply ceffK_poison
    | with_reducible apply ceffK_ok
    | with_reducible apply sound_issueC
    | (refine OutK.elim (by assumption) ?_)
    | extract_lets
    | simp -zeta only [pairK_iff, pair3K_iff, fstK_iff, midK_iff]
    | simp -zeta only []
    | split
    | (with_reducible apply sound_ite)
    | (rename_i y; subst y)
    | (rename_i y _; subst y)
    | (rename_i y _ _; subst y)
    | (rename_i y _ _ _; subst y)
    | (rename_i y _ _ _ _; subst y)
    | (rename_i y _ _ _ _ _; subst y)
    | (rename_i y _ _ _ _ _ _; subst y)
    | (rename_i y _ _ _ _ _ _ _; subst y)
    | (rename_i y _ _ _ _ _ _ _ _; subst y)
    | intro _)

theorem sound_execCHalt {qs : Want} (c : Nat) (w : W64) (s : State) (hs : Sound qs s) :
    OutK qs (execCHalt c w s) := by
  unfold execCHalt
  repeat' (first
    | with_reducible assumption
    | with_reducible apply outK_fault
    | with_reducible apply outK_refused
    | with_reducible apply outK_next
    | with_reducible apply ceffK_fault
    | with_reducible apply ceffK_faultD
    | with_reducible apply ceffK_poison
    | with_reducible apply ceffK_ok
    | with_reducible apply sound_setC
    | with_reducible apply sound_noteFinished
    | with_reducible apply sound_issueC
    | (refine OutK.elim (by assumption) ?_)
    | extract_lets
    | simp -zeta only [pairK_iff, pair3K_iff, fstK_iff, midK_iff]
    | simp -zeta only [sound_mk_iff]
    | simp -zeta only []
    | split
    | (with_reducible apply sound_ite)
    | (rename_i y; subst y)
    | (rename_i y _; subst y)
    | (rename_i y _ _; subst y)
    | (rename_i y _ _ _; subst y)
    | (rename_i y _ _ _ _; subst y)
    | (rename_i y _ _ _ _ _; subst y)
    | (rename_i y _ _ _ _ _ _; subst y)
    | (rename_i y _ _ _ _ _ _ _; subst y)
    | (rename_i y _ _ _ _ _ _ _ _; subst y)
    | intro _)

theorem sound_execCLoop {qs : Want} (c : Nat) (w : W64) (s : State) (hs : Sound qs s) :
    OutK qs (execCLoop c w s) := by
  unfold execCLoop
  repeat' (first
    | with_reducible assumption
    | with_reducible apply outK_fault
    | with_reducible apply outK_refused
    | with_reducible apply outK_next
    | with_reducible apply ceffK_fault
    | with_reducible apply ceffK_faultD
    | with_reducible apply ceffK_poison
    | with_reducible apply ceffK_ok
    | with_reducible apply sound_issueC
    | (refine OutK.elim (by assumption) ?_)
    | extract_lets
    | simp -zeta only [pairK_iff, pair3K_iff, fstK_iff, midK_iff]
    | simp -zeta only []
    | split
    | (with_reducible apply sound_ite)
    | (rename_i y; subst y)
    | (rename_i y _; subst y)
    | (rename_i y _ _; subst y)
    | (rename_i y _ _ _; subst y)
    | (rename_i y _ _ _ _; subst y)
    | (rename_i y _ _ _ _ _; subst y)
    | (rename_i y _ _ _ _ _ _; subst y)
    | (rename_i y _ _ _ _ _ _ _; subst y)
    | (rename_i y _ _ _ _ _ _ _ _; subst y)
    | intro _)

theorem sound_execCStep {qs : Want} (c : Nat) (w : W64) (s : State) (hs : Sound qs s) :
    OutK qs (execCStep c w s) := by
  unfold execCStep
  repeat' (first
    | with_reducible assumption
    | with_reducible apply outK_fault
    | with_reducible apply outK_refused
    | with_reducible apply outK_next
    | with_reducible apply ceffK_fault
    | with_reducible apply ceffK_faultD
    | with_reducible apply ceffK_poison
    | with_reducible apply ceffK_ok
    | with_reducible apply sound_advanceSteps
    | with_reducible apply sound_issueC
    | (refine OutK.elim (by assumption) ?_)
    | extract_lets
    | simp -zeta only [pairK_iff, pair3K_iff, fstK_iff, midK_iff]
    | simp -zeta only []
    | split
    | (with_reducible apply sound_ite)
    | (rename_i y; subst y)
    | (rename_i y _; subst y)
    | (rename_i y _ _; subst y)
    | (rename_i y _ _ _; subst y)
    | (rename_i y _ _ _ _; subst y)
    | (rename_i y _ _ _ _ _; subst y)
    | (rename_i y _ _ _ _ _ _; subst y)
    | (rename_i y _ _ _ _ _ _ _; subst y)
    | (rename_i y _ _ _ _ _ _ _ _; subst y)
    | intro _)

theorem sound_fxCSync {qs : Want} (x : CCtx) (s : State) (hs : Sound qs s) :
    CEffK qs (fxCSync x s) := by
  unfold fxCSync
  repeat' (first
    | with_reducible assumption
    | with_reducible apply ceffK_fault
    | with_reducible apply ceffK_faultD
    | with_reducible apply ceffK_poison
    | with_reducible apply ceffK_ok
    | with_reducible apply sound_subTok
    | with_reducible apply sound_takeWindow
    | extract_lets
    | simp -zeta only [pairK_iff, pair3K_iff, fstK_iff, midK_iff]
    | simp -zeta only []
    | split
    | (with_reducible apply sound_ite)
    | (rename_i y; subst y)
    | (rename_i y _; subst y)
    | (rename_i y _ _; subst y)
    | (rename_i y _ _ _; subst y)
    | (rename_i y _ _ _ _; subst y)
    | (rename_i y _ _ _ _ _; subst y)
    | (rename_i y _ _ _ _ _ _; subst y)
    | (rename_i y _ _ _ _ _ _ _; subst y)
    | (rename_i y _ _ _ _ _ _ _ _; subst y)
    | intro _)

theorem sound_execCSync {qs : Want} (c : Nat) (w : W64) (s : State) (hs : Sound qs s) :
    OutK qs (execCSync c w s) := by
  unfold execCSync
  repeat' (first
    | with_reducible assumption
    | with_reducible apply outK_fault
    | with_reducible apply outK_refused
    | with_reducible apply outK_next
    | with_reducible apply ceffK_fault
    | with_reducible apply ceffK_faultD
    | with_reducible apply ceffK_poison
    | with_reducible apply ceffK_ok
    | with_reducible apply sound_issueC
    | with_reducible apply sound_fxCSync
    | (refine OutK.elim (by assumption) ?_)
    | (refine CEffK.elimOk (by assumption) ?_)
    | (refine CEffK.elimFault (by assumption) ?_)
    | split)

theorem sound_execCSignal {qs : Want} (c : Nat) (w : W64) (s : State) (hs : Sound qs s) :
    OutK qs (execCSignal c w s) := by
  unfold execCSignal
  repeat' (first
    | with_reducible assumption
    | with_reducible apply outK_fault
    | with_reducible apply outK_refused
    | with_reducible apply outK_next
    | with_reducible apply ceffK_fault
    | with_reducible apply ceffK_faultD
    | with_reducible apply ceffK_poison
    | with_reducible apply ceffK_ok
    | with_reducible apply sound_sendIncr
    | with_reducible apply sound_issueC
    | (refine OutK.elim (by assumption) ?_)
    | extract_lets
    | simp -zeta only [pairK_iff, pair3K_iff, fstK_iff, midK_iff]
    | simp -zeta only []
    | split
    | (with_reducible apply sound_ite)
    | (rename_i y; subst y)
    | (rename_i y _; subst y)
    | (rename_i y _ _; subst y)
    | (rename_i y _ _ _; subst y)
    | (rename_i y _ _ _ _; subst y)
    | (rename_i y _ _ _ _ _; subst y)
    | (rename_i y _ _ _ _ _ _; subst y)
    | (rename_i y _ _ _ _ _ _ _; subst y)
    | (rename_i y _ _ _ _ _ _ _ _; subst y)
    | intro _)

theorem sound_scalarOp {qs : Want} (op lat c : Nat) (w : W64) (f : W64 → W64 → W64) (s : State) (hs : Sound qs s) :
    OutK qs (scalarOp op lat c w f s) := by
  unfold scalarOp
  repeat' (first
    | with_reducible assumption
    | with_reducible apply outK_fault
    | with_reducible apply outK_refused
    | with_reducible apply outK_next
    | with_reducible apply ceffK_fault
    | with_reducible apply ceffK_faultD
    | with_reducible apply ceffK_poison
    | with_reducible apply ceffK_ok
    | with_reducible apply sound_result
    | with_reducible apply sound_issueC
    | (refine OutK.elim (by assumption) ?_)
    | extract_lets
    | simp -zeta only [pairK_iff, pair3K_iff, fstK_iff, midK_iff]
    | simp -zeta only []
    | split
    | (with_reducible apply sound_ite)
    | (rename_i y; subst y)
    | (rename_i y _; subst y)
    | (rename_i y _ _; subst y)
    | (rename_i y _ _ _; subst y)
    | (rename_i y _ _ _ _; subst y)
    | (rename_i y _ _ _ _ _; subst y)
    | (rename_i y _ _ _ _ _ _; subst y)
    | (rename_i y _ _ _ _ _ _ _; subst y)
    | (rename_i y _ _ _ _ _ _ _ _; subst y)
    | intro _)

theorem sound_execAdd {qs : Want} (c : Nat) (w : W64) (s : State) (hs : Sound qs s) :
    OutK qs (execAdd c w s) := by
  unfold execAdd
  repeat' (first
    | with_reducible assumption
    | with_reducible apply outK_fault
    | with_reducible apply outK_refused
    | with_reducible apply outK_next
    | with_reducible apply sound_scalarOp
    | (refine OutK.elim (by assumption) ?_)
    | split)

theorem sound_execSub {qs : Want} (c : Nat) (w : W64) (s : State) (hs : Sound qs s) :
    OutK qs (execSub c w s) := by
  unfold execSub
  repeat' (first
    | with_reducible assumption
    | with_reducible apply outK_fault
    | with_reducible apply outK_refused
    | with_reducible apply outK_next
    | with_reducible apply sound_scalarOp
    | (refine OutK.elim (by assumption) ?_)
    | split)

theorem sound_execAnd {qs : Want} (c : Nat) (w : W64) (s : State) (hs : Sound qs s) :
    OutK qs (execAnd c w s) := by
  unfold execAnd
  repeat' (first
    | with_reducible assumption
    | with_reducible apply outK_fault
    | with_reducible apply outK_refused
    | with_reducible apply outK_next
    | with_reducible apply sound_scalarOp
    | (refine OutK.elim (by assumption) ?_)
    | split)

theorem sound_execOr {qs : Want} (c : Nat) (w : W64) (s : State) (hs : Sound qs s) :
    OutK qs (execOr c w s) := by
  unfold execOr
  repeat' (first
    | with_reducible assumption
    | with_reducible apply outK_fault
    | with_reducible apply outK_refused
    | with_reducible apply outK_next
    | with_reducible apply sound_scalarOp
    | (refine OutK.elim (by assumption) ?_)
    | split)

theorem sound_execXor {qs : Want} (c : Nat) (w : W64) (s : State) (hs : Sound qs s) :
    OutK qs (execXor c w s) := by
  unfold execXor
  repeat' (first
    | with_reducible assumption
    | with_reducible apply outK_fault
    | with_reducible apply outK_refused
    | with_reducible apply outK_next
    | with_reducible apply sound_scalarOp
    | (refine OutK.elim (by assumption) ?_)
    | split)

theorem sound_execShl {qs : Want} (c : Nat) (w : W64) (s : State) (hs : Sound qs s) :
    OutK qs (execShl c w s) := by
  unfold execShl
  repeat' (first
    | with_reducible assumption
    | with_reducible apply outK_fault
    | with_reducible apply outK_refused
    | with_reducible apply outK_next
    | with_reducible apply sound_scalarOp
    | (refine OutK.elim (by assumption) ?_)
    | simp -zeta only [pairK_iff, pair3K_iff, fstK_iff, midK_iff]
    | simp -zeta only []
    | split)

theorem sound_execShr {qs : Want} (c : Nat) (w : W64) (s : State) (hs : Sound qs s) :
    OutK qs (execShr c w s) := by
  unfold execShr
  repeat' (first
    | with_reducible assumption
    | with_reducible apply outK_fault
    | with_reducible apply outK_refused
    | with_reducible apply outK_next
    | with_reducible apply sound_scalarOp
    | (refine OutK.elim (by assumption) ?_)
    | simp -zeta only [pairK_iff, pair3K_iff, fstK_iff, midK_iff]
    | simp -zeta only []
    | split)

theorem sound_execSra {qs : Want} (c : Nat) (w : W64) (s : State) (hs : Sound qs s) :
    OutK qs (execSra c w s) := by
  unfold execSra
  repeat' (first
    | with_reducible assumption
    | with_reducible apply outK_fault
    | with_reducible apply outK_refused
    | with_reducible apply outK_next
    | with_reducible apply sound_scalarOp
    | (refine OutK.elim (by assumption) ?_)
    | simp -zeta only [pairK_iff, pair3K_iff, fstK_iff, midK_iff]
    | simp -zeta only []
    | split)

theorem sound_execMul {qs : Want} (c : Nat) (w : W64) (s : State) (hs : Sound qs s) :
    OutK qs (execMul c w s) := by
  unfold execMul
  repeat' (first
    | with_reducible assumption
    | with_reducible apply outK_fault
    | with_reducible apply outK_refused
    | with_reducible apply outK_next
    | with_reducible apply sound_scalarOp
    | (refine OutK.elim (by assumption) ?_)
    | split)

theorem sound_execSlt {qs : Want} (c : Nat) (w : W64) (s : State) (hs : Sound qs s) :
    OutK qs (execSlt c w s) := by
  unfold execSlt
  repeat' (first
    | with_reducible assumption
    | with_reducible apply outK_fault
    | with_reducible apply outK_refused
    | with_reducible apply outK_next
    | with_reducible apply sound_scalarOp
    | (refine OutK.elim (by assumption) ?_)
    | simp -zeta only [pairK_iff, pair3K_iff, fstK_iff, midK_iff]
    | simp -zeta only []
    | split)

theorem sound_execSltu {qs : Want} (c : Nat) (w : W64) (s : State) (hs : Sound qs s) :
    OutK qs (execSltu c w s) := by
  unfold execSltu
  repeat' (first
    | with_reducible assumption
    | with_reducible apply outK_fault
    | with_reducible apply outK_refused
    | with_reducible apply outK_next
    | with_reducible apply sound_scalarOp
    | (refine OutK.elim (by assumption) ?_)
    | simp -zeta only [pairK_iff, pair3K_iff, fstK_iff, midK_iff]
    | simp -zeta only []
    | split)

theorem sound_execAddi {qs : Want} (c : Nat) (w : W64) (s : State) (hs : Sound qs s) :
    OutK qs (execAddi c w s) := by
  unfold execAddi
  repeat' (first
    | with_reducible assumption
    | with_reducible apply outK_fault
    | with_reducible apply outK_refused
    | with_reducible apply outK_next
    | with_reducible apply ceffK_fault
    | with_reducible apply ceffK_faultD
    | with_reducible apply ceffK_poison
    | with_reducible apply ceffK_ok
    | with_reducible apply sound_result
    | with_reducible apply sound_issueC
    | (refine OutK.elim (by assumption) ?_)
    | extract_lets
    | simp -zeta only [pairK_iff, pair3K_iff, fstK_iff, midK_iff]
    | simp -zeta only []
    | split
    | (with_reducible apply sound_ite)
    | (rename_i y; subst y)
    | (rename_i y _; subst y)
    | (rename_i y _ _; subst y)
    | (rename_i y _ _ _; subst y)
    | (rename_i y _ _ _ _; subst y)
    | (rename_i y _ _ _ _ _; subst y)
    | (rename_i y _ _ _ _ _ _; subst y)
    | (rename_i y _ _ _ _ _ _ _; subst y)
    | (rename_i y _ _ _ _ _ _ _ _; subst y)
    | intro _)

theorem sound_execLi {qs : Want} (c : Nat) (w : W64) (s : State) (hs : Sound qs s) :
    OutK qs (execLi c w s) := by
  unfold execLi
  repeat' (first
    | with_reducible assumption
    | with_reducible apply outK_fault
    | with_reducible apply outK_refused
    | with_reducible apply outK_next
    | with_reducible apply ceffK_fault
    | with_reducible apply ceffK_faultD
    | with_reducible apply ceffK_poison
    | with_reducible apply ceffK_ok
    | with_reducible apply sound_result
    | with_reducible apply sound_issueC
    | (refine OutK.elim (by assumption) ?_)
    | extract_lets
    | simp -zeta only [pairK_iff, pair3K_iff, fstK_iff, midK_iff]
    | simp -zeta only []
    | split
    | (with_reducible apply sound_ite)
    | (rename_i y; subst y)
    | (rename_i y _; subst y)
    | (rename_i y _ _; subst y)
    | (rename_i y _ _ _; subst y)
    | (rename_i y _ _ _ _; subst y)
    | (rename_i y _ _ _ _ _; subst y)
    | (rename_i y _ _ _ _ _ _; subst y)
    | (rename_i y _ _ _ _ _ _ _; subst y)
    | (rename_i y _ _ _ _ _ _ _ _; subst y)
    | intro _)

theorem sound_execLih {qs : Want} (c : Nat) (w : W64) (s : State) (hs : Sound qs s) :
    OutK qs (execLih c w s) := by
  unfold execLih
  repeat' (first
    | with_reducible assumption
    | with_reducible apply outK_fault
    | with_reducible apply outK_refused
    | with_reducible apply outK_next
    | with_reducible apply ceffK_fault
    | with_reducible apply ceffK_faultD
    | with_reducible apply ceffK_poison
    | with_reducible apply ceffK_ok
    | with_reducible apply sound_result
    | with_reducible apply sound_issueC
    | (refine OutK.elim (by assumption) ?_)
    | extract_lets
    | simp -zeta only [pairK_iff, pair3K_iff, fstK_iff, midK_iff]
    | simp -zeta only []
    | split
    | (with_reducible apply sound_ite)
    | (rename_i y; subst y)
    | (rename_i y _; subst y)
    | (rename_i y _ _; subst y)
    | (rename_i y _ _ _; subst y)
    | (rename_i y _ _ _ _; subst y)
    | (rename_i y _ _ _ _ _; subst y)
    | (rename_i y _ _ _ _ _ _; subst y)
    | (rename_i y _ _ _ _ _ _ _; subst y)
    | (rename_i y _ _ _ _ _ _ _ _; subst y)
    | intro _)

theorem sound_scalarFp {qs : Want} (op c : Nat) (w : W64) (f : FV → FV → FV) (made : FV → FV → Nat) (s : State) (hs : Sound qs s) :
    OutK qs (scalarFp op c w f made s) := by
  unfold scalarFp
  repeat' (first
    | with_reducible assumption
    | with_reducible apply outK_fault
    | with_reducible apply outK_refused
    | with_reducible apply outK_next
    | with_reducible apply ceffK_fault
    | with_reducible apply ceffK_faultD
    | with_reducible apply ceffK_poison
    | with_reducible apply ceffK_ok
    | with_reducible apply sound_countNan
    | with_reducible apply sound_result
    | with_reducible apply sound_issueC
    | (refine OutK.elim (by assumption) ?_)
    | extract_lets
    | simp -zeta only [pairK_iff, pair3K_iff, fstK_iff, midK_iff]
    | simp -zeta only []
    | split
    | (with_reducible apply sound_ite)
    | (rename_i y; subst y)
    | (rename_i y _; subst y)
    | (rename_i y _ _; subst y)
    | (rename_i y _ _ _; subst y)
    | (rename_i y _ _ _ _; subst y)
    | (rename_i y _ _ _ _ _; subst y)
    | (rename_i y _ _ _ _ _ _; subst y)
    | (rename_i y _ _ _ _ _ _ _; subst y)
    | (rename_i y _ _ _ _ _ _ _ _; subst y)
    | intro _)

theorem sound_execFadd {qs : Want} (c : Nat) (w : W64) (s : State) (hs : Sound qs s) :
    OutK qs (execFadd c w s) := by
  unfold execFadd
  repeat' (first
    | with_reducible assumption
    | with_reducible apply outK_fault
    | with_reducible apply outK_refused
    | with_reducible apply outK_next
    | with_reducible apply sound_scalarFp
    | (refine OutK.elim (by assumption) ?_)
    | simp -zeta only [pairK_iff, pair3K_iff, fstK_iff, midK_iff]
    | simp -zeta only []
    | split)

theorem sound_execFmul {qs : Want} (c : Nat) (w : W64) (s : State) (hs : Sound qs s) :
    OutK qs (execFmul c w s) := by
  unfold execFmul
  repeat' (first
    | with_reducible assumption
    | with_reducible apply outK_fault
    | with_reducible apply outK_refused
    | with_reducible apply outK_next
    | with_reducible apply sound_scalarFp
    | (refine OutK.elim (by assumption) ?_)
    | split)

end Sys2Proof.Machine
end

