-- ==== Sys2Proof/Laws/SoundChamVec.lean ====
section
/-!
SUPPORT. The operations of ChamVec.lean keep memory and marks canonical and leave the queue alone.
-/
set_option linter.unusedSimpArgs false
set_option linter.unusedVariables false

namespace Sys2Proof.Machine

theorem sound_vecOp {qs : Want} (op lat c : Nat) (w : W64) (f : Cham → Nat → Nat → LaneOut) (s : State) (hs : Sound qs s) :
    OutK qs (vecOp op lat c w f s) := by
  unfold vecOp
  repeat' (first
    | with_reducible assumption
    | with_reducible apply outK_fault
    | with_reducible apply outK_refused
    | with_reducible apply outK_next
    | with_reducible apply ceffK_fault
    | with_reducible apply ceffK_faultD
    | with_reducible apply ceffK_poison
    | with_reducible apply ceffK_ok
    | with_reducible apply sound_countNan
    | with_reducible apply sound_result
    | with_reducible apply sound_issueC
    | (refine OutK.elim (by assumption) ?_)
    | extract_lets
    | simp -zeta only [pairK_iff, pair3K_iff, fstK_iff, midK_iff]
    | simp -zeta only [sound_mk_iff]
    | simp -zeta only []
    | split
    | (with_reducible apply sound_ite)
    | (rename_i y; subst y)
    | (rename_i y _; subst y)
    | (rename_i y _ _; subst y)
    | (rename_i y _ _ _; subst y)
    | (rename_i y _ _ _ _; subst y)
    | (rename_i y _ _ _ _ _; subst y)
    | (rename_i y _ _ _ _ _ _; subst y)
    | (rename_i y _ _ _ _ _ _ _; subst y)
    | (rename_i y _ _ _ _ _ _ _ _; subst y)
    | intro _)

theorem sound_unaryFp {qs : Want} (op lat c : Nat) (w : W64) (f : FV → FV) (made : FV → Nat) (s : State) (hs : Sound qs s) :
    OutK qs (unaryFp op lat c w f made s) := by
  unfold unaryFp
  repeat' (first
    | with_reducible assumption
    | with_reducible apply outK_fault
    | with_reducible apply outK_refused
    | with_reducible apply outK_next
    | with_reducible apply sound_vecOp
    | (refine OutK.elim (by assumption) ?_)
    | extract_lets
    | simp -zeta only [pairK_iff, pair3K_iff, fstK_iff, midK_iff]
    | simp -zeta only []
    | split)

theorem sound_binaryFp {qs : Want} (op lat c : Nat) (w : W64) (f : FV → FV → FV) (made : FV → FV → Nat) (s : State) (hs : Sound qs s) :
    OutK qs (binaryFp op lat c w f made s) := by
  unfold binaryFp
  repeat' (first
    | with_reducible assumption
    | with_reducible apply outK_fault
    | with_reducible apply outK_refused
    | with_reducible apply outK_next
    | with_reducible apply sound_vecOp
    | (refine OutK.elim (by assumption) ?_)
    | extract_lets
    | simp -zeta only [pairK_iff, pair3K_iff, fstK_iff, midK_iff]
    | simp -zeta only []
    | split)

theorem sound_ternaryFp {qs : Want} (op lat c : Nat) (w : W64) (f : FV → FV → FV → FV) (made : FV → FV → FV → Nat) (s : State) (hs : Sound qs s) :
    OutK qs (ternaryFp op lat c w f made s) := by
  unfold ternaryFp
  repeat' (first
    | with_reducible assumption
    | with_reducible apply outK_fault
    | with_reducible apply outK_refused
    | with_reducible apply outK_next
    | with_reducible apply sound_vecOp
    | (refine OutK.elim (by assumption) ?_)
    | extract_lets
    | simp -zeta only [pairK_iff, pair3K_iff, fstK_iff, midK_iff]
    | simp -zeta only []
    | split)

theorem sound_execVadd {qs : Want} (c : Nat) (w : W64) (s : State) (hs : Sound qs s) :
    OutK qs (execVadd c w s) := by
  unfold execVadd
  repeat' (first
    | with_reducible assumption
    | with_reducible apply outK_fault
    | with_reducible apply outK_refused
    | with_reducible apply outK_next
    | with_reducible apply sound_binaryFp
    | (refine OutK.elim (by assumption) ?_)
    | split)

theorem sound_execVsub {qs : Want} (c : Nat) (w : W64) (s : State) (hs : Sound qs s) :
    OutK qs (execVsub c w s) := by
  unfold execVsub
  repeat' (first
    | with_reducible assumption
    | with_reducible apply outK_fault
    | with_reducible apply outK_refused
    | with_reducible apply outK_next
    | with_reducible apply sound_binaryFp
    | (refine OutK.elim (by assumption) ?_)
    | simp -zeta only [pairK_iff, pair3K_iff, fstK_iff, midK_iff]
    | simp -zeta only []
    | split)

theorem sound_execVmul {qs : Want} (c : Nat) (w : W64) (s : State) (hs : Sound qs s) :
    OutK qs (execVmul c w s) := by
  unfold execVmul
  repeat' (first
    | with_reducible assumption
    | with_reducible apply outK_fault
    | with_reducible apply outK_refused
    | with_reducible apply outK_next
    | with_reducible apply sound_binaryFp
    | (refine OutK.elim (by assumption) ?_)
    | split)

theorem sound_execVfma {qs : Want} (c : Nat) (w : W64) (s : State) (hs : Sound qs s) :
    OutK qs (execVfma c w s) := by
  unfold execVfma
  repeat' (first
    | with_reducible assumption
    | with_reducible apply outK_fault
    | with_reducible apply outK_refused
    | with_reducible apply outK_next
    | with_reducible apply sound_ternaryFp
    | (refine OutK.elim (by assumption) ?_)
    | simp -zeta only [pairK_iff, pair3K_iff, fstK_iff, midK_iff]
    | simp -zeta only []
    | split)

theorem sound_execVmac {qs : Want} (c : Nat) (w : W64) (s : State) (hs : Sound qs s) :
    OutK qs (execVmac c w s) := by
  unfold execVmac
  repeat' (first
    | with_reducible assumption
    | with_reducible apply outK_fault
    | with_reducible apply outK_refused
    | with_reducible apply outK_next
    | with_reducible apply sound_ternaryFp
    | (refine OutK.elim (by assumption) ?_)
    | simp -zeta only [pairK_iff, pair3K_iff, fstK_iff, midK_iff]
    | simp -zeta only []
    | split)

theorem sound_execVsmd {qs : Want} (c : Nat) (w : W64) (s : State) (hs : Sound qs s) :
    OutK qs (execVsmd c w s) := by
  unfold execVsmd
  repeat' (first
    | with_reducible assumption
    | with_reducible apply outK_fault
    | with_reducible apply outK_refused
    | with_reducible apply outK_next
    | with_reducible apply sound_ternaryFp
    | (refine OutK.elim (by assumption) ?_)
    | simp -zeta only [pairK_iff, pair3K_iff, fstK_iff, midK_iff]
    | simp -zeta only []
    | split)

theorem sound_execVmax {qs : Want} (c : Nat) (w : W64) (s : State) (hs : Sound qs s) :
    OutK qs (execVmax c w s) := by
  unfold execVmax
  repeat' (first
    | with_reducible assumption
    | with_reducible apply outK_fault
    | with_reducible apply outK_refused
    | with_reducible apply outK_next
    | with_reducible apply sound_binaryFp
    | (refine OutK.elim (by assumption) ?_)
    | simp -zeta only [pairK_iff, pair3K_iff, fstK_iff, midK_iff]
    | simp -zeta only []
    | split)

theorem sound_execVmin {qs : Want} (c : Nat) (w : W64) (s : State) (hs : Sound qs s) :
    OutK qs (execVmin c w s) := by
  unfold execVmin
  repeat' (first
    | with_reducible assumption
    | with_reducible apply outK_fault
    | with_reducible apply outK_refused
    | with_reducible apply outK_next
    | with_reducible apply sound_binaryFp
    | (refine OutK.elim (by assumption) ?_)
    | simp -zeta only [pairK_iff, pair3K_iff, fstK_iff, midK_iff]
    | simp -zeta only []
    | split)

theorem sound_execVabs {qs : Want} (c : Nat) (w : W64) (s : State) (hs : Sound qs s) :
    OutK qs (execVabs c w s) := by
  unfold execVabs
  repeat' (first
    | with_reducible assumption
    | with_reducible apply outK_fault
    | with_reducible apply outK_refused
    | with_reducible apply outK_next
    | with_reducible apply sound_unaryFp
    | (refine OutK.elim (by assumption) ?_)
    | simp -zeta only [pairK_iff, pair3K_iff, fstK_iff, midK_iff]
    | simp -zeta only []
    | split)

theorem sound_execVneg {qs : Want} (c : Nat) (w : W64) (s : State) (hs : Sound qs s) :
    OutK qs (execVneg c w s) := by
  unfold execVneg
  repeat' (first
    | with_reducible assumption
    | with_reducible apply outK_fault
    | with_reducible apply outK_refused
    | with_reducible apply outK_next
    | with_reducible apply sound_unaryFp
    | (refine OutK.elim (by assumption) ?_)
    | simp -zeta only [pairK_iff, pair3K_iff, fstK_iff, midK_iff]
    | simp -zeta only []
    | split)

theorem sound_execVdiv {qs : Want} (c : Nat) (w : W64) (s : State) (hs : Sound qs s) :
    OutK qs (execVdiv c w s) := by
  unfold execVdiv
  repeat' (first
    | with_reducible assumption
    | with_reducible apply outK_fault
    | with_reducible apply outK_refused
    | with_reducible apply outK_next
    | with_reducible apply sound_binaryFp
    | (refine OutK.elim (by assumption) ?_)
    | simp -zeta only [pairK_iff, pair3K_iff, fstK_iff, midK_iff]
    | simp -zeta only []
    | split)

theorem sound_execVsqrt {qs : Want} (c : Nat) (w : W64) (s : State) (hs : Sound qs s) :
    OutK qs (execVsqrt c w s) := by
  unfold execVsqrt
  repeat' (first
    | with_reducible assumption
    | with_reducible apply outK_fault
    | with_reducible apply outK_refused
    | with_reducible apply outK_next
    | with_reducible apply sound_unaryFp
    | (refine OutK.elim (by assumption) ?_)
    | simp -zeta only [pairK_iff, pair3K_iff, fstK_iff, midK_iff]
    | simp -zeta only []
    | split)

theorem sound_execVrsqrt {qs : Want} (c : Nat) (w : W64) (s : State) (hs : Sound qs s) :
    OutK qs (execVrsqrt c w s) := by
  unfold execVrsqrt
  repeat' (first
    | with_reducible assumption
    | with_reducible apply outK_fault
    | with_reducible apply outK_refused
    | with_reducible apply outK_next
    | with_reducible apply sound_unaryFp
    | (refine OutK.elim (by assumption) ?_)
    | simp -zeta only [pairK_iff, pair3K_iff, fstK_iff, midK_iff]
    | simp -zeta only []
    | split)

theorem sound_execVfn {qs : Want} (c : Nat) (w : W64) (s : State) (hs : Sound qs s) :
    OutK qs (execVfn c w s) := by
  unfold execVfn
  repeat' (first
    | with_reducible assumption
    | with_reducible apply outK_fault
    | with_reducible apply outK_refused
    | with_reducible apply outK_next
    | with_reducible apply sound_unaryFp
    | (refine OutK.elim (by assumption) ?_)
    | simp -zeta only [pairK_iff, pair3K_iff, fstK_iff, midK_iff]
    | simp -zeta only []
    | split)

theorem sound_cmpOp {qs : Want} (op c : Nat) (w : W64) (f : Nat → Nat → Nat → Bool) (nin : Nat → Nat → Nat) (s : State) (hs : Sound qs s) :
    OutK qs (cmpOp op c w f nin s) := by
  unfold cmpOp
  repeat' (first
    | with_reducible assumption
    | with_reducible apply outK_fault
    | with_reducible apply outK_refused
    | with_reducible apply outK_next
    | with_reducible apply ceffK_fault
    | with_reducible apply ceffK_faultD
    | with_reducible apply ceffK_poison
    | with_reducible apply ceffK_ok
    | with_reducible apply sound_countNan
    | with_reducible apply sound_result
    | with_reducible apply sound_issueC
    | (with_reducible apply sound_foldl; intro _ _ _)
    | (with_reducible apply pairK_foldl; intro _ _ _)
    | (with_reducible apply PairK.snd; with_reducible apply pairK_foldl; intro _ _ _)
    | (with_reducible apply fstK_foldl; intro _ _ _)
    | (with_reducible apply FstK.snd; with_reducible apply fstK_foldl; intro _ _ _)
    | (refine OutK.elim (by assumption) ?_)
    | extract_lets
    | simp -zeta only [pairK_iff, pair3K_iff, fstK_iff, midK_iff]
    | simp -zeta only []
    | split
    | (with_reducible apply sound_ite)
    | (rename_i y; subst y)
    | (rename_i y _; subst y)
    | (rename_i y _ _; subst y)
    | (rename_i y _ _ _; subst y)
    | (rename_i y _ _ _ _; subst y)
    | (rename_i y _ _ _ _ _; subst y)
    | (rename_i y _ _ _ _ _ _; subst y)
    | (rename_i y _ _ _ _ _ _ _; subst y)
    | (rename_i y _ _ _ _ _ _ _ _; subst y)
    | intro _)

theorem sound_execVcmp {qs : Want} (c : Nat) (w : W64) (s : State) (hs : Sound qs s) :
    OutK qs (execVcmp c w s) := by
  unfold execVcmp
  repeat' (first
    | with_reducible assumption
    | with_reducible apply outK_fault
    | with_reducible apply outK_refused
    | with_reducible apply outK_next
    | with_reducible apply sound_cmpOp
    | (refine OutK.elim (by assumption) ?_)
    | simp -zeta only [pairK_iff, pair3K_iff, fstK_iff, midK_iff]
    | simp -zeta only []
    | split)

theorem sound_execVicmp {qs : Want} (c : Nat) (w : W64) (s : State) (hs : Sound qs s) :
    OutK qs (execVicmp c w s) := by
  unfold execVicmp
  repeat' (first
    | with_reducible assumption
    | with_reducible apply outK_fault
    | with_reducible apply outK_refused
    | with_reducible apply outK_next
    | with_reducible apply sound_cmpOp
    | (refine OutK.elim (by assumption) ?_)
    | simp -zeta only [pairK_iff, pair3K_iff, fstK_iff, midK_iff]
    | simp -zeta only []
    | split)

theorem sound_execVsel {qs : Want} (c : Nat) (w : W64) (s : State) (hs : Sound qs s) :
    OutK qs (execVsel c w s) := by
  unfold execVsel
  repeat' (first
    | with_reducible assumption
    | with_reducible apply outK_fault
    | with_reducible apply outK_refused
    | with_reducible apply outK_next
    | with_reducible apply ceffK_fault
    | with_reducible apply ceffK_faultD
    | with_reducible apply ceffK_poison
    | with_reducible apply ceffK_ok
    | with_reducible apply sound_result
    | with_reducible apply sound_issueC
    | (refine OutK.elim (by assumption) ?_)
    | extract_lets
    | simp -zeta only [pairK_iff, pair3K_iff, fstK_iff, midK_iff]
    | simp -zeta only []
    | split
    | (with_reducible apply sound_ite)
    | (rename_i y; subst y)
    | (rename_i y _; subst y)
    | (rename_i y _ _; subst y)
    | (rename_i y _ _ _; subst y)
    | (rename_i y _ _ _ _; subst y)
    | (rename_i y _ _ _ _ _; subst y)
    | (rename_i y _ _ _ _ _ _; subst y)
    | (rename_i y _ _ _ _ _ _ _; subst y)
    | (rename_i y _ _ _ _ _ _ _ _; subst y)
    | intro _)

theorem sound_intOp {qs : Want} (op c : Nat) (w : W64) (f : W32 → W32 → W32) (s : State) (hs : Sound qs s) :
    OutK qs (intOp op c w f s) := by
  unfold intOp
  repeat' (first
    | with_reducible assumption
    | with_reducible apply outK_fault
    | with_reducible apply outK_refused
    | with_reducible apply outK_next
    | with_reducible apply sound_vecOp
    | (refine OutK.elim (by assumption) ?_)
    | extract_lets
    | simp -zeta only [pairK_iff, pair3K_iff, fstK_iff, midK_iff]
    | simp -zeta only [sound_mk_iff]
    | simp -zeta only []
    | split)

theorem sound_execViadd {qs : Want} (c : Nat) (w : W64) (s : State) (hs : Sound qs s) :
    OutK qs (execViadd c w s) := by
  unfold execViadd
  repeat' (first
    | with_reducible assumption
    | with_reducible apply outK_fault
    | with_reducible apply outK_refused
    | with_reducible apply outK_next
    | with_reducible apply sound_intOp
    | (refine OutK.elim (by assumption) ?_)
    | split)

theorem sound_execVisub {qs : Want} (c : Nat) (w : W64) (s : State) (hs : Sound qs s) :
    OutK qs (execVisub c w s) := by
  unfold execVisub
  repeat' (first
    | with_reducible assumption
    | with_reducible apply outK_fault
    | with_reducible apply outK_refused
    | with_reducible apply outK_next
    | with_reducible apply sound_intOp
    | (refine OutK.elim (by assumption) ?_)
    | split)

theorem sound_execVimul {qs : Want} (c : Nat) (w : W64) (s : State) (hs : Sound qs s) :
    OutK qs (execVimul c w s) := by
  unfold execVimul
  repeat' (first
    | with_reducible assumption
    | with_reducible apply outK_fault
    | with_reducible apply outK_refused
    | with_reducible apply outK_next
    | with_reducible apply sound_intOp
    | (refine OutK.elim (by assumption) ?_)
    | split)

theorem sound_execVand {qs : Want} (c : Nat) (w : W64) (s : State) (hs : Sound qs s) :
    OutK qs (execVand c w s) := by
  unfold execVand
  repeat' (first
    | with_reducible assumption
    | with_reducible apply outK_fault
    | with_reducible apply outK_refused
    | with_reducible apply outK_next
    | with_reducible apply sound_intOp
    | (refine OutK.elim (by assumption) ?_)
    | split)

theorem sound_execVor {qs : Want} (c : Nat) (w : W64) (s : State) (hs : Sound qs s) :
    OutK qs (execVor c w s) := by
  unfold execVor
  repeat' (first
    | with_reducible assumption
    | with_reducible apply outK_fault
    | with_reducible apply outK_refused
    | with_reducible apply outK_next
    | with_reducible apply sound_intOp
    | (refine OutK.elim (by assumption) ?_)
    | split)

theorem sound_execVxor {qs : Want} (c : Nat) (w : W64) (s : State) (hs : Sound qs s) :
    OutK qs (execVxor c w s) := by
  unfold execVxor
  repeat' (first
    | with_reducible assumption
    | with_reducible apply outK_fault
    | with_reducible apply outK_refused
    | with_reducible apply outK_next
    | with_reducible apply sound_intOp
    | (refine OutK.elim (by assumption) ?_)
    | split)

theorem sound_execVshl {qs : Want} (c : Nat) (w : W64) (s : State) (hs : Sound qs s) :
    OutK qs (execVshl c w s) := by
  unfold execVshl
  repeat' (first
    | with_reducible assumption
    | with_reducible apply outK_fault
    | with_reducible apply outK_refused
    | with_reducible apply outK_next
    | with_reducible apply sound_intOp
    | (refine OutK.elim (by assumption) ?_)
    | simp -zeta only [pairK_iff, pair3K_iff, fstK_iff, midK_iff]
    | simp -zeta only []
    | split)

theorem sound_execVshr {qs : Want} (c : Nat) (w : W64) (s : State) (hs : Sound qs s) :
    OutK qs (execVshr c w s) := by
  unfold execVshr
  repeat' (first
    | with_reducible assumption
    | with_reducible apply outK_fault
    | with_reducible apply outK_refused
    | with_reducible apply outK_next
    | with_reducible apply sound_intOp
    | (refine OutK.elim (by assumption) ?_)
    | simp -zeta only [pairK_iff, pair3K_iff, fstK_iff, midK_iff]
    | simp -zeta only []
    | split)

theorem sound_execVcvtfi {qs : Want} (c : Nat) (w : W64) (s : State) (hs : Sound qs s) :
    OutK qs (execVcvtfi c w s) := by
  unfold execVcvtfi
  repeat' (first
    | with_reducible assumption
    | with_reducible apply outK_fault
    | with_reducible apply outK_refused
    | with_reducible apply outK_next
    | with_reducible apply ceffK_fault
    | with_reducible apply ceffK_faultD
    | with_reducible apply ceffK_poison
    | with_reducible apply ceffK_ok
    | with_reducible apply sound_incP
    | with_reducible apply sound_countNan
    | with_reducible apply sound_result
    | with_reducible apply sound_issueC
    | (refine OutK.elim (by assumption) ?_)
    | extract_lets
    | simp -zeta only [pairK_iff, pair3K_iff, fstK_iff, midK_iff]
    | simp -zeta only []
    | split
    | (with_reducible apply sound_ite)
    | (rename_i y; subst y)
    | (rename_i y _; subst y)
    | (rename_i y _ _; subst y)
    | (rename_i y _ _ _; subst y)
    | (rename_i y _ _ _ _; subst y)
    | (rename_i y _ _ _ _ _; subst y)
    | (rename_i y _ _ _ _ _ _; subst y)
    | (rename_i y _ _ _ _ _ _ _; subst y)
    | (rename_i y _ _ _ _ _ _ _ _; subst y)
    | intro _)

theorem sound_execVcvtif {qs : Want} (c : Nat) (w : W64) (s : State) (hs : Sound qs s) :
    OutK qs (execVcvtif c w s) := by
  unfold execVcvtif
  repeat' (first
    | with_reducible assumption
    | with_reducible apply outK_fault
    | with_reducible apply outK_refused
    | with_reducible apply outK_next
    | with_reducible apply sound_vecOp
    | (refine OutK.elim (by assumption) ?_)
    | extract_lets
    | simp -zeta only [pairK_iff, pair3K_iff, fstK_iff, midK_iff]
    | simp -zeta only [sound_mk_iff]
    | simp -zeta only []
    | split)

theorem sound_execVbcast {qs : Want} (c : Nat) (w : W64) (s : State) (hs : Sound qs s) :
    OutK qs (execVbcast c w s) := by
  unfold execVbcast
  repeat' (first
    | with_reducible assumption
    | with_reducible apply outK_fault
    | with_reducible apply outK_refused
    | with_reducible apply outK_next
    | with_reducible apply sound_vecOp
    | (refine OutK.elim (by assumption) ?_)
    | extract_lets
    | simp -zeta only [pairK_iff, pair3K_iff, fstK_iff, midK_iff]
    | simp -zeta only [sound_mk_iff]
    | simp -zeta only []
    | split)

theorem sound_execVlane {qs : Want} (c : Nat) (w : W64) (s : State) (hs : Sound qs s) :
    OutK qs (execVlane c w s) := by
  unfold execVlane
  repeat' (first
    | with_reducible assumption
    | with_reducible apply outK_fault
    | with_reducible apply outK_refused
    | with_reducible apply outK_next
    | with_reducible apply sound_vecOp
    | (refine OutK.elim (by assumption) ?_)
    | simp -zeta only [pairK_iff, pair3K_iff, fstK_iff, midK_iff]
    | simp -zeta only [sound_mk_iff]
    | simp -zeta only []
    | split)

theorem sound_reduceOp {qs : Want} (op c : Nat) (w : W64) (f : Option FV → Option FV → Option FV × Nat) (empty : FV) (s : State) (hs : Sound qs s) :
    OutK qs (reduceOp op c w f empty s) := by
  unfold reduceOp
  repeat' (first
    | with_reducible assumption
    | with_reducible apply outK_fault
    | with_reducible apply outK_refused
    | with_reducible apply outK_next
    | with_reducible apply ceffK_fault
    | with_reducible apply ceffK_faultD
    | with_reducible apply ceffK_poison
    | with_reducible apply ceffK_ok
    | with_reducible apply sound_countNan
    | with_reducible apply sound_result
    | with_reducible apply sound_issueC
    | (refine PairK.elim (by assumption) ?_)
    | (refine FstK.elim (by assumption) ?_)
    | (refine OutK.elim (by assumption) ?_)
    | extract_lets
    | simp -zeta only [pairK_iff, pair3K_iff, fstK_iff, midK_iff]
    | simp -zeta only []
    | split
    | (with_reducible apply sound_ite)
    | (rename_i y; subst y)
    | (rename_i y _; subst y)
    | (rename_i y _ _; subst y)
    | (rename_i y _ _ _; subst y)
    | (rename_i y _ _ _ _; subst y)
    | (rename_i y _ _ _ _ _; subst y)
    | (rename_i y _ _ _ _ _ _; subst y)
    | (rename_i y _ _ _ _ _ _ _; subst y)
    | (rename_i y _ _ _ _ _ _ _ _; subst y)
    | intro _)

theorem sound_execVrsum {qs : Want} (c : Nat) (w : W64) (s : State) (hs : Sound qs s) :
    OutK qs (execVrsum c w s) := by
  unfold execVrsum
  repeat' (first
    | with_reducible assumption
    | with_reducible apply outK_fault
    | with_reducible apply outK_refused
    | with_reducible apply outK_next
    | with_reducible apply sound_reduceOp
    | (refine OutK.elim (by assumption) ?_)
    | simp -zeta only [pairK_iff, pair3K_iff, fstK_iff, midK_iff]
    | simp -zeta only []
    | split)

theorem sound_execVrmax {qs : Want} (c : Nat) (w : W64) (s : State) (hs : Sound qs s) :
    OutK qs (execVrmax c w s) := by
  unfold execVrmax
  repeat' (first
    | with_reducible assumption
    | with_reducible apply outK_fault
    | with_reducible apply outK_refused
    | with_reducible apply outK_next
    | with_reducible apply sound_reduceOp
    | (refine OutK.elim (by assumption) ?_)
    | simp -zeta only [pairK_iff, pair3K_iff, fstK_iff, midK_iff]
    | simp -zeta only []
    | split)

theorem sound_predOp {qs : Want} (op c : Nat) (w : W64) (f : W128 → W128 → W128) (two : Bool) (s : State) (hs : Sound qs s) :
    OutK qs (predOp op c w f two s) := by
  unfold predOp
  repeat' (first
    | with_reducible assumption
    | with_reducible apply outK_fault
    | with_reducible apply outK_refused
    | with_reducible apply outK_next
    | with_reducible apply ceffK_fault
    | with_reducible apply ceffK_faultD
    | with_reducible apply ceffK_poison
    | with_reducible apply ceffK_ok
    | with_reducible apply sound_result
    | with_reducible apply sound_issueC
    | (refine OutK.elim (by assumption) ?_)
    | extract_lets
    | simp -zeta only [pairK_iff, pair3K_iff, fstK_iff, midK_iff]
    | simp -zeta only []
    | split
    | (with_reducible apply sound_ite)
    | (rename_i y; subst y)
    | (rename_i y _; subst y)
    | (rename_i y _ _; subst y)
    | (rename_i y _ _ _; subst y)
    | (rename_i y _ _ _ _; subst y)
    | (rename_i y _ _ _ _ _; subst y)
    | (rename_i y _ _ _ _ _ _; subst y)
    | (rename_i y _ _ _ _ _ _ _; subst y)
    | (rename_i y _ _ _ _ _ _ _ _; subst y)
    | intro _)

theorem sound_execPand {qs : Want} (c : Nat) (w : W64) (s : State) (hs : Sound qs s) :
    OutK qs (execPand c w s) := by
  unfold execPand
  repeat' (first
    | with_reducible assumption
    | with_reducible apply outK_fault
    | with_reducible apply outK_refused
    | with_reducible apply outK_next
    | with_reducible apply sound_predOp
    | (refine OutK.elim (by assumption) ?_)
    | split)

theorem sound_execPor {qs : Want} (c : Nat) (w : W64) (s : State) (hs : Sound qs s) :
    OutK qs (execPor c w s) := by
  unfold execPor
  repeat' (first
    | with_reducible assumption
    | with_reducible apply outK_fault
    | with_reducible apply outK_refused
    | with_reducible apply outK_next
    | with_reducible apply sound_predOp
    | (refine OutK.elim (by assumption) ?_)
    | split)

theorem sound_execPxor {qs : Want} (c : Nat) (w : W64) (s : State) (hs : Sound qs s) :
    OutK qs (execPxor c w s) := by
  unfold execPxor
  repeat' (first
    | with_reducible assumption
    | with_reducible apply outK_fault
    | with_reducible apply outK_refused
    | with_reducible apply outK_next
    | with_reducible apply sound_predOp
    | (refine OutK.elim (by assumption) ?_)
    | split)

theorem sound_execPnot {qs : Want} (c : Nat) (w : W64) (s : State) (hs : Sound qs s) :
    OutK qs (execPnot c w s) := by
  unfold execPnot
  repeat' (first
    | with_reducible assumption
    | with_reducible apply outK_fault
    | with_reducible apply outK_refused
    | with_reducible apply outK_next
    | with_reducible apply sound_predOp
    | (refine OutK.elim (by assumption) ?_)
    | simp -zeta only [pairK_iff, pair3K_iff, fstK_iff, midK_iff]
    | simp -zeta only []
    | split)

end Sys2Proof.Machine
end

