-- ==== Sys2Proof/Laws/SoundChamMem.lean ====
section
/-!
SUPPORT. The operations of ChamMem.lean keep memory and marks canonical and leave the queue alone.
-/
set_option linter.unusedSimpArgs false
set_option linter.unusedVariables false

namespace Sys2Proof.Machine

theorem sound_addJob {qs : Want} (x : CCtx) (kind : CKind) (lat count : Nat) (addrs : List Nat) (f : CJob → CJob) (s : State) (hs : Sound qs s) :
    Sound qs (addJob x kind lat count addrs f s) := by
  unfold addJob
  repeat' (first
    | with_reducible assumption
    | with_reducible apply sound_setC
    | with_reducible apply sound_count
    | extract_lets
    | simp -zeta only [sound_mk_iff]
    | split)

theorem sound_lineAddr {qs : Want} (x : CCtx) (s : State) (k : Nat → CEff) (hs : Sound qs s) (hk : ∀ x0, CEffK qs (k x0)) :
    CEffK qs (lineAddr x s k) := by
  unfold lineAddr
  repeat' (first
    | with_reducible assumption
    | with_reducible apply ceffK_fault
    | with_reducible apply ceffK_faultD
    | with_reducible apply ceffK_poison
    | with_reducible apply ceffK_ok
    | with_reducible apply hk
    | (refine PairK.snd (hk _ ?_))
    | (refine OptK.elim (by assumption) ?_)
    | (refine PairK.elim (by assumption) ?_)
    | (refine OutK.elim (by assumption) ?_)
    | extract_lets
    | simp -zeta only [pairK_iff, pair3K_iff, fstK_iff, midK_iff]
    | split)

theorem sound_scalarAddr {qs : Want} (x : CCtx) (s : State) (k : Nat → CEff) (hs : Sound qs s) (hk : ∀ x0, CEffK qs (k x0)) :
    CEffK qs (scalarAddr x s k) := by
  unfold scalarAddr
  repeat' (first
    | with_reducible assumption
    | with_reducible apply ceffK_fault
    | with_reducible apply ceffK_faultD
    | with_reducible apply ceffK_poison
    | with_reducible apply ceffK_ok
    | with_reducible apply hk
    | (refine PairK.snd (hk _ ?_))
    | (refine OptK.elim (by assumption) ?_)
    | (refine PairK.elim (by assumption) ?_)
    | (refine OutK.elim (by assumption) ?_)
    | extract_lets
    | simp -zeta only [pairK_iff, pair3K_iff, fstK_iff, midK_iff]
    | split)

theorem sound_fxVld {qs : Want} (x : CCtx) (s : State) (hs : Sound qs s) :
    CEffK qs (fxVld x s) := by
  unfold fxVld
  repeat' (first
    | with_reducible assumption
    | with_reducible apply ceffK_fault
    | with_reducible apply ceffK_faultD
    | with_reducible apply ceffK_poison
    | with_reducible apply ceffK_ok
    | with_reducible apply sound_addJob
    | with_reducible apply sound_lineAddr
    | (refine CEffK.elimOk (by assumption) ?_)
    | (refine CEffK.elimFault (by assumption) ?_)
    | extract_lets
    | simp -zeta only [pairK_iff, pair3K_iff, fstK_iff, midK_iff]
    | simp -zeta only []
    | split
    | (with_reducible apply sound_ite)
    | (rename_i y; subst y)
    | (rename_i y _; subst y)
    | (rename_i y _ _; subst y)
    | (rename_i y _ _ _; subst y)
    | (rename_i y _ _ _ _; subst y)
    | (rename_i y _ _ _ _ _; subst y)
    | (rename_i y _ _ _ _ _ _; subst y)
    | (rename_i y _ _ _ _ _ _ _; subst y)
    | (rename_i y _ _ _ _ _ _ _ _; subst y)
    | intro _)

theorem sound_fxVst {qs : Want} (x : CCtx) (s : State) (hs : Sound qs s) :
    CEffK qs (fxVst x s) := by
  unfold fxVst
  repeat' (first
    | with_reducible assumption
    | with_reducible apply ceffK_fault
    | with_reducible apply ceffK_faultD
    | with_reducible apply ceffK_poison
    | with_reducible apply ceffK_ok
    | with_reducible apply sound_addJob
    | with_reducible apply sound_lineAddr
    | (refine CEffK.elimOk (by assumption) ?_)
    | (refine CEffK.elimFault (by assumption) ?_)
    | extract_lets
    | simp -zeta only [pairK_iff, pair3K_iff, fstK_iff, midK_iff]
    | simp -zeta only [sound_mk_iff]
    | simp -zeta only []
    | split
    | (with_reducible apply sound_ite)
    | (rename_i y; subst y)
    | (rename_i y _; subst y)
    | (rename_i y _ _; subst y)
    | (rename_i y _ _ _; subst y)
    | (rename_i y _ _ _ _; subst y)
    | (rename_i y _ _ _ _ _; subst y)
    | (rename_i y _ _ _ _ _ _; subst y)
    | (rename_i y _ _ _ _ _ _ _; subst y)
    | (rename_i y _ _ _ _ _ _ _ _; subst y)
    | intro _)

theorem sound_fxLds {qs : Want} (x : CCtx) (s : State) (hs : Sound qs s) :
    CEffK qs (fxLds x s) := by
  unfold fxLds
  repeat' (first
    | with_reducible assumption
    | with_reducible apply ceffK_fault
    | with_reducible apply ceffK_faultD
    | with_reducible apply ceffK_poison
    | with_reducible apply ceffK_ok
    | with_reducible apply sound_addJob
    | with_reducible apply sound_scalarAddr
    | (refine CEffK.elimOk (by assumption) ?_)
    | (refine CEffK.elimFault (by assumption) ?_)
    | extract_lets
    | simp -zeta only [pairK_iff, pair3K_iff, fstK_iff, midK_iff]
    | simp -zeta only []
    | split
    | (with_reducible apply sound_ite)
    | (rename_i y; subst y)
    | (rename_i y _; subst y)
    | (rename_i y _ _; subst y)
    | (rename_i y _ _ _; subst y)
    | (rename_i y _ _ _ _; subst y)
    | (rename_i y _ _ _ _ _; subst y)
    | (rename_i y _ _ _ _ _ _; subst y)
    | (rename_i y _ _ _ _ _ _ _; subst y)
    | (rename_i y _ _ _ _ _ _ _ _; subst y)
    | intro _)

theorem sound_fxSts {qs : Want} (x : CCtx) (s : State) (hs : Sound qs s) :
    CEffK qs (fxSts x s) := by
  unfold fxSts
  repeat' (first
    | with_reducible assumption
    | with_reducible apply ceffK_fault
    | with_reducible apply ceffK_faultD
    | with_reducible apply ceffK_poison
    | with_reducible apply ceffK_ok
    | with_reducible apply sound_addJob
    | with_reducible apply sound_scalarAddr
    | (refine CEffK.elimOk (by assumption) ?_)
    | (refine CEffK.elimFault (by assumption) ?_)
    | extract_lets
    | simp -zeta only [pairK_iff, pair3K_iff, fstK_iff, midK_iff]
    | simp -zeta only [sound_mk_iff]
    | simp -zeta only []
    | split
    | (with_reducible apply sound_ite)
    | (rename_i y; subst y)
    | (rename_i y _; subst y)
    | (rename_i y _ _; subst y)
    | (rename_i y _ _ _; subst y)
    | (rename_i y _ _ _ _; subst y)
    | (rename_i y _ _ _ _ _; subst y)
    | (rename_i y _ _ _ _ _ _; subst y)
    | (rename_i y _ _ _ _ _ _ _; subst y)
    | (rename_i y _ _ _ _ _ _ _ _; subst y)
    | intro _)

theorem sound_execVld {qs : Want} (c : Nat) (w : W64) (s : State) (hs : Sound qs s) :
    OutK qs (execVld c w s) := by
  unfold execVld
  repeat' (first
    | with_reducible assumption
    | with_reducible apply outK_fault
    | with_reducible apply outK_refused
    | with_reducible apply outK_next
    | with_reducible apply ceffK_fault
    | with_reducible apply ceffK_faultD
    | with_reducible apply ceffK_poison
    | with_reducible apply ceffK_ok
    | with_reducible apply sound_issueC
    | with_reducible apply sound_fxVld
    | (refine OutK.elim (by assumption) ?_)
    | (refine CEffK.elimOk (by assumption) ?_)
    | (refine CEffK.elimFault (by assumption) ?_)
    | split)

theorem sound_execVst {qs : Want} (c : Nat) (w : W64) (s : State) (hs : Sound qs s) :
    OutK qs (execVst c w s) := by
  unfold execVst
  repeat' (first
    | with_reducible assumption
    | with_reducible apply outK_fault
    | with_reducible apply outK_refused
    | with_reducible apply outK_next
    | with_reducible apply ceffK_fault
    | with_reducible apply ceffK_faultD
    | with_reducible apply ceffK_poison
    | with_reducible apply ceffK_ok
    | with_reducible apply sound_issueC
    | with_reducible apply sound_fxVst
    | (refine OutK.elim (by assumption) ?_)
    | (refine CEffK.elimOk (by assumption) ?_)
    | (refine CEffK.elimFault (by assumption) ?_)
    | split)

theorem sound_execLds {qs : Want} (c : Nat) (w : W64) (s : State) (hs : Sound qs s) :
    OutK qs (execLds c w s) := by
  unfold execLds
  repeat' (first
    | with_reducible assumption
    | with_reducible apply outK_fault
    | with_reducible apply outK_refused
    | with_reducible apply outK_next
    | with_reducible apply ceffK_fault
    | with_reducible apply ceffK_faultD
    | with_reducible apply ceffK_poison
    | with_reducible apply ceffK_ok
    | with_reducible apply sound_issueC
    | with_reducible apply sound_fxLds
    | (refine OutK.elim (by assumption) ?_)
    | (refine CEffK.elimOk (by assumption) ?_)
    | (refine CEffK.elimFault (by assumption) ?_)
    | split)

theorem sound_execSts {qs : Want} (c : Nat) (w : W64) (s : State) (hs : Sound qs s) :
    OutK qs (execSts c w s) := by
  unfold execSts
  repeat' (first
    | with_reducible assumption
    | with_reducible apply outK_fault
    | with_reducible apply outK_refused
    | with_reducible apply outK_next
    | with_reducible apply ceffK_fault
    | with_reducible apply ceffK_faultD
    | with_reducible apply ceffK_poison
    | with_reducible apply ceffK_ok
    | with_reducible apply sound_issueC
    | with_reducible apply sound_fxSts
    | (refine OutK.elim (by assumption) ?_)
    | (refine CEffK.elimOk (by assumption) ?_)
    | (refine CEffK.elimFault (by assumption) ?_)
    | split)

theorem sound_fxTrd {qs : Want} (x : CCtx) (s : State) (hs : Sound qs s) :
    CEffK qs (fxTrd x s) := by
  unfold fxTrd
  repeat' (first
    | with_reducible assumption
    | with_reducible apply ceffK_fault
    | with_reducible apply ceffK_faultD
    | with_reducible apply ceffK_poison
    | with_reducible apply ceffK_ok
    | with_reducible apply sound_addJob
    | split)

theorem sound_fxTwr {qs : Want} (x : CCtx) (s : State) (hs : Sound qs s) :
    CEffK qs (fxTwr x s) := by
  unfold fxTwr
  repeat' (first
    | with_reducible assumption
    | with_reducible apply ceffK_fault
    | with_reducible apply ceffK_faultD
    | with_reducible apply ceffK_poison
    | with_reducible apply ceffK_ok
    | with_reducible apply sound_countNan
    | with_reducible apply sound_countConv
    | with_reducible apply sound_count
    | with_reducible apply sound_addJob
    | extract_lets
    | simp -zeta only [pairK_iff, pair3K_iff, fstK_iff, midK_iff]
    | simp -zeta only [sound_mk_iff]
    | simp -zeta only []
    | split)

theorem sound_fxSfacc {qs : Want} (x : CCtx) (s : State) (hs : Sound qs s) :
    CEffK qs (fxSfacc x s) := by
  unfold fxSfacc
  repeat' (first
    | with_reducible assumption
    | with_reducible apply ceffK_fault
    | with_reducible apply ceffK_faultD
    | with_reducible apply ceffK_poison
    | with_reducible apply ceffK_ok
    | with_reducible apply sound_addJob
    | extract_lets
    | split)

theorem sound_execTrd {qs : Want} (c : Nat) (w : W64) (s : State) (hs : Sound qs s) :
    OutK qs (execTrd c w s) := by
  unfold execTrd
  repeat' (first
    | with_reducible assumption
    | with_reducible apply outK_fault
    | with_reducible apply outK_refused
    | with_reducible apply outK_next
    | with_reducible apply ceffK_fault
    | with_reducible apply ceffK_faultD
    | with_reducible apply ceffK_poison
    | with_reducible apply ceffK_ok
    | with_reducible apply sound_issueC
    | with_reducible apply sound_fxTrd
    | (refine OutK.elim (by assumption) ?_)
    | (refine CEffK.elimOk (by assumption) ?_)
    | (refine CEffK.elimFault (by assumption) ?_)
    | split)

theorem sound_execTwr {qs : Want} (c : Nat) (w : W64) (s : State) (hs : Sound qs s) :
    OutK qs (execTwr c w s) := by
  unfold execTwr
  repeat' (first
    | with_reducible assumption
    | with_reducible apply outK_fault
    | with_reducible apply outK_refused
    | with_reducible apply outK_next
    | with_reducible apply ceffK_fault
    | with_reducible apply ceffK_faultD
    | with_reducible apply ceffK_poison
    | with_reducible apply ceffK_ok
    | with_reducible apply sound_issueC
    | with_reducible apply sound_fxTwr
    | (refine OutK.elim (by assumption) ?_)
    | (refine CEffK.elimOk (by assumption) ?_)
    | (refine CEffK.elimFault (by assumption) ?_)
    | split)

theorem sound_execSfacc {qs : Want} (c : Nat) (w : W64) (s : State) (hs : Sound qs s) :
    OutK qs (execSfacc c w s) := by
  unfold execSfacc
  repeat' (first
    | with_reducible assumption
    | with_reducible apply outK_fault
    | with_reducible apply outK_refused
    | with_reducible apply outK_next
    | with_reducible apply ceffK_fault
    | with_reducible apply ceffK_faultD
    | with_reducible apply ceffK_poison
    | with_reducible apply ceffK_ok
    | with_reducible apply sound_issueC
    | with_reducible apply sound_fxSfacc
    | (refine OutK.elim (by assumption) ?_)
    | (refine CEffK.elimOk (by assumption) ?_)
    | (refine CEffK.elimFault (by assumption) ?_)
    | split)

theorem sound_meshJob {qs : Want} (x : CCtx) (count : Nat) (addrs : List Nat) (s : State) (hs : Sound qs s) :
    Sound qs (meshJob x count addrs s) := by
  unfold meshJob
  repeat' (first
    | with_reducible assumption
    | with_reducible apply sound_count
    | with_reducible apply sound_addJob
    | split)

theorem sound_fxNarrow {qs : Want} (kind : XKind) (x : CCtx) (s : State) (hs : Sound qs s) :
    CEffK qs (fxNarrow kind x s) := by
  unfold fxNarrow
  repeat' (first
    | with_reducible assumption
    | with_reducible apply ceffK_fault
    | with_reducible apply ceffK_faultD
    | with_reducible apply ceffK_poison
    | with_reducible apply ceffK_ok
    | with_reducible apply sound_addXfer
    | with_reducible apply sound_startXfer
    | with_reducible apply sound_meshJob
    | extract_lets
    | simp -zeta only [pairK_iff, pair3K_iff, fstK_iff, midK_iff]
    | simp -zeta only []
    | split)

theorem sound_execNgath {qs : Want} (c : Nat) (w : W64) (s : State) (hs : Sound qs s) :
    OutK qs (execNgath c w s) := by
  unfold execNgath
  repeat' (first
    | with_reducible assumption
    | with_reducible apply outK_fault
    | with_reducible apply outK_refused
    | with_reducible apply outK_next
    | with_reducible apply ceffK_fault
    | with_reducible apply ceffK_faultD
    | with_reducible apply ceffK_poison
    | with_reducible apply ceffK_ok
    | with_reducible apply sound_issueC
    | with_reducible apply sound_fxNarrow
    | (refine OutK.elim (by assumption) ?_)
    | (refine CEffK.elimOk (by assumption) ?_)
    | (refine CEffK.elimFault (by assumption) ?_)
    | split)

theorem sound_execNscat {qs : Want} (c : Nat) (w : W64) (s : State) (hs : Sound qs s) :
    OutK qs (execNscat c w s) := by
  unfold execNscat
  repeat' (first
    | with_reducible assumption
    | with_reducible apply outK_fault
    | with_reducible apply outK_refused
    | with_reducible apply outK_next
    | with_reducible apply ceffK_fault
    | with_reducible apply ceffK_faultD
    | with_reducible apply ceffK_poison
    | with_reducible apply ceffK_ok
    | with_reducible apply sound_issueC
    | with_reducible apply sound_fxNarrow
    | (refine OutK.elim (by assumption) ?_)
    | (refine CEffK.elimOk (by assumption) ?_)
    | (refine CEffK.elimFault (by assumption) ?_)
    | split)

theorem sound_transferRegs {qs : Want} (x : CCtx) (s : State) (sr : Bool) (k : Nat → Nat → Nat → CEff) (hs : Sound qs s) (hk : ∀ x0 x1 x2, CEffK qs (k x0 x1 x2)) :
    CEffK qs (transferRegs x s sr k) := by
  unfold transferRegs
  repeat' (first
    | with_reducible assumption
    | with_reducible apply ceffK_fault
    | with_reducible apply ceffK_faultD
    | with_reducible apply ceffK_poison
    | with_reducible apply ceffK_ok
    | with_reducible apply hk
    | (refine PairK.snd (hk _ ?_))
    | (refine OptK.elim (by assumption) ?_)
    | (refine PairK.elim (by assumption) ?_)
    | (refine OutK.elim (by assumption) ?_)
    | extract_lets
    | simp -zeta only [pairK_iff, pair3K_iff, fstK_iff, midK_iff]
    | split)

theorem sound_fxMlong {qs : Want} (kind : XKind) (x : CCtx) (s : State) (hs : Sound qs s) :
    CEffK qs (fxMlong kind x s) := by
  unfold fxMlong
  repeat' (first
    | with_reducible assumption
    | with_reducible apply ceffK_fault
    | with_reducible apply ceffK_faultD
    | with_reducible apply ceffK_poison
    | with_reducible apply ceffK_ok
    | with_reducible apply sound_addXfer
    | with_reducible apply sound_startXfer
    | with_reducible apply sound_meshJob
    | with_reducible apply sound_transferRegs
    | (refine CEffK.elimOk (by assumption) ?_)
    | (refine CEffK.elimFault (by assumption) ?_)
    | extract_lets
    | simp -zeta only [pairK_iff, pair3K_iff, fstK_iff, midK_iff]
    | simp -zeta only []
    | split
    | (with_reducible apply sound_ite)
    | (rename_i y; subst y)
    | (rename_i y _; subst y)
    | (rename_i y _ _; subst y)
    | (rename_i y _ _ _; subst y)
    | (rename_i y _ _ _ _; subst y)
    | (rename_i y _ _ _ _ _; subst y)
    | (rename_i y _ _ _ _ _ _; subst y)
    | (rename_i y _ _ _ _ _ _ _; subst y)
    | (rename_i y _ _ _ _ _ _ _ _; subst y)
    | intro _)

theorem sound_fxMcore {qs : Want} (put : Bool) (x : CCtx) (s : State) (hs : Sound qs s) :
    CEffK qs (fxMcore put x s) := by
  unfold fxMcore
  repeat' (first
    | with_reducible assumption
    | with_reducible apply ceffK_fault
    | with_reducible apply ceffK_faultD
    | with_reducible apply ceffK_poison
    | with_reducible apply ceffK_ok
    | with_reducible apply sound_addXfer
    | with_reducible apply sound_startXfer
    | with_reducible apply sound_meshJob
    | with_reducible apply sound_transferRegs
    | (refine CEffK.elimOk (by assumption) ?_)
    | (refine CEffK.elimFault (by assumption) ?_)
    | extract_lets
    | simp -zeta only [pairK_iff, pair3K_iff, fstK_iff, midK_iff]
    | simp -zeta only []
    | split
    | (with_reducible apply sound_ite)
    | (rename_i y; subst y)
    | (rename_i y _; subst y)
    | (rename_i y _ _; subst y)
    | (rename_i y _ _ _; subst y)
    | (rename_i y _ _ _ _; subst y)
    | (rename_i y _ _ _ _ _; subst y)
    | (rename_i y _ _ _ _ _ _; subst y)
    | (rename_i y _ _ _ _ _ _ _; subst y)
    | (rename_i y _ _ _ _ _ _ _ _; subst y)
    | intro _)

theorem sound_fxMrsend {qs : Want} (x : CCtx) (s : State) (hs : Sound qs s) :
    CEffK qs (fxMrsend x s) := by
  unfold fxMrsend
  repeat' (first
    | with_reducible assumption
    | with_reducible apply ceffK_fault
    | with_reducible apply ceffK_faultD
    | with_reducible apply ceffK_poison
    | with_reducible apply ceffK_ok
    | with_reducible apply sound_addXfer
    | with_reducible apply sound_redXfer
    | (with_reducible apply PairK.snd; with_reducible apply sound_redXfer)
    | with_reducible apply sound_meshJob
    | with_reducible apply sound_transferRegs
    | (refine PairK.elim (by assumption) ?_)
    | (refine FstK.elim (by assumption) ?_)
    | (refine CEffK.elimOk (by assumption) ?_)
    | (refine CEffK.elimFault (by assumption) ?_)
    | extract_lets
    | simp -zeta only [pairK_iff, pair3K_iff, fstK_iff, midK_iff]
    | simp -zeta only [sound_mk_iff]
    | simp -zeta only []
    | split
    | (with_reducible apply sound_ite)
    | (rename_i y; subst y)
    | (rename_i y _; subst y)
    | (rename_i y _ _; subst y)
    | (rename_i y _ _ _; subst y)
    | (rename_i y _ _ _ _; subst y)
    | (rename_i y _ _ _ _ _; subst y)
    | (rename_i y _ _ _ _ _ _; subst y)
    | (rename_i y _ _ _ _ _ _ _; subst y)
    | (rename_i y _ _ _ _ _ _ _ _; subst y)
    | intro _)

theorem sound_execMld {qs : Want} (c : Nat) (w : W64) (s : State) (hs : Sound qs s) :
    OutK qs (execMld c w s) := by
  unfold execMld
  repeat' (first
    | with_reducible assumption
    | with_reducible apply outK_fault
    | with_reducible apply outK_refused
    | with_reducible apply outK_next
    | with_reducible apply ceffK_fault
    | with_reducible apply ceffK_faultD
    | with_reducible apply ceffK_poison
    | with_reducible apply ceffK_ok
    | with_reducible apply sound_issueC
    | with_reducible apply sound_fxMlong
    | (refine OutK.elim (by assumption) ?_)
    | (refine CEffK.elimOk (by assumption) ?_)
    | (refine CEffK.elimFault (by assumption) ?_)
    | split)

theorem sound_execMst {qs : Want} (c : Nat) (w : W64) (s : State) (hs : Sound qs s) :
    OutK qs (execMst c w s) := by
  unfold execMst
  repeat' (first
    | with_reducible assumption
    | with_reducible apply outK_fault
    | with_reducible apply outK_refused
    | with_reducible apply outK_next
    | with_reducible apply ceffK_fault
    | with_reducible apply ceffK_faultD
    | with_reducible apply ceffK_poison
    | with_reducible apply ceffK_ok
    | with_reducible apply sound_issueC
    | with_reducible apply sound_fxMlong
    | (refine OutK.elim (by assumption) ?_)
    | (refine CEffK.elimOk (by assumption) ?_)
    | (refine CEffK.elimFault (by assumption) ?_)
    | split)

theorem sound_execMput {qs : Want} (c : Nat) (w : W64) (s : State) (hs : Sound qs s) :
    OutK qs (execMput c w s) := by
  unfold execMput
  repeat' (first
    | with_reducible assumption
    | with_reducible apply outK_fault
    | with_reducible apply outK_refused
    | with_reducible apply outK_next
    | with_reducible apply ceffK_fault
    | with_reducible apply ceffK_faultD
    | with_reducible apply ceffK_poison
    | with_reducible apply ceffK_ok
    | with_reducible apply sound_issueC
    | with_reducible apply sound_fxMcore
    | (refine OutK.elim (by assumption) ?_)
    | (refine CEffK.elimOk (by assumption) ?_)
    | (refine CEffK.elimFault (by assumption) ?_)
    | split)

theorem sound_execMget {qs : Want} (c : Nat) (w : W64) (s : State) (hs : Sound qs s) :
    OutK qs (execMget c w s) := by
  unfold execMget
  repeat' (first
    | with_reducible assumption
    | with_reducible apply outK_fault
    | with_reducible apply outK_refused
    | with_reducible apply outK_next
    | with_reducible apply ceffK_fault
    | with_reducible apply ceffK_faultD
    | with_reducible apply ceffK_poison
    | with_reducible apply ceffK_ok
    | with_reducible apply sound_issueC
    | with_reducible apply sound_fxMcore
    | (refine OutK.elim (by assumption) ?_)
    | (refine CEffK.elimOk (by assumption) ?_)
    | (refine CEffK.elimFault (by assumption) ?_)
    | split)

theorem sound_execMrsend {qs : Want} (c : Nat) (w : W64) (s : State) (hs : Sound qs s) :
    OutK qs (execMrsend c w s) := by
  unfold execMrsend
  repeat' (first
    | with_reducible assumption
    | with_reducible apply outK_fault
    | with_reducible apply outK_refused
    | with_reducible apply outK_next
    | with_reducible apply ceffK_fault
    | with_reducible apply ceffK_faultD
    | with_reducible apply ceffK_poison
    | with_reducible apply ceffK_ok
    | with_reducible apply sound_issueC
    | with_reducible apply sound_fxMrsend
    | (refine OutK.elim (by assumption) ?_)
    | (refine CEffK.elimOk (by assumption) ?_)
    | (refine CEffK.elimFault (by assumption) ?_)
    | split)

theorem sound_stashRegs {qs : Want} (x : CCtx) (s : State) (k : Nat → Nat → CEff) (hs : Sound qs s) (hk : ∀ x0 x1, CEffK qs (k x0 x1)) :
    CEffK qs (stashRegs x s k) := by
  unfold stashRegs
  repeat' (first
    | with_reducible assumption
    | with_reducible apply ceffK_fault
    | with_reducible apply ceffK_faultD
    | with_reducible apply ceffK_poison
    | with_reducible apply ceffK_ok
    | with_reducible apply hk
    | (refine PairK.snd (hk _ ?_))
    | (refine OptK.elim (by assumption) ?_)
    | (refine PairK.elim (by assumption) ?_)
    | (refine OutK.elim (by assumption) ?_)
    | extract_lets
    | simp -zeta only [pairK_iff, pair3K_iff, fstK_iff, midK_iff]
    | split)

theorem sound_fxCpush {qs : Want} (x : CCtx) (s : State) (hs : Sound qs s) :
    CEffK qs (fxCpush x s) := by
  unfold fxCpush
  repeat' (first
    | with_reducible assumption
    | with_reducible apply ceffK_fault
    | with_reducible apply ceffK_faultD
    | with_reducible apply ceffK_poison
    | with_reducible apply ceffK_ok
    | with_reducible apply sound_notePush
    | with_reducible apply sound_beginPush
    | with_reducible apply sound_meshJob
    | with_reducible apply sound_stashRegs
    | (refine CEffK.elimOk (by assumption) ?_)
    | (refine CEffK.elimFault (by assumption) ?_)
    | extract_lets
    | simp -zeta only [pairK_iff, pair3K_iff, fstK_iff, midK_iff]
    | simp -zeta only []
    | split
    | (with_reducible apply sound_ite)
    | (rename_i y; subst y)
    | (rename_i y _; subst y)
    | (rename_i y _ _; subst y)
    | (rename_i y _ _ _; subst y)
    | (rename_i y _ _ _ _; subst y)
    | (rename_i y _ _ _ _ _; subst y)
    | (rename_i y _ _ _ _ _ _; subst y)
    | (rename_i y _ _ _ _ _ _ _; subst y)
    | (rename_i y _ _ _ _ _ _ _ _; subst y)
    | intro _)

theorem sound_fxCpop {qs : Want} (x : CCtx) (s : State) (hs : Sound qs s) :
    CEffK qs (fxCpop x s) := by
  unfold fxCpop
  repeat' (first
    | with_reducible assumption
    | with_reducible apply ceffK_fault
    | with_reducible apply ceffK_faultD
    | with_reducible apply ceffK_poison
    | with_reducible apply ceffK_ok
    | with_reducible apply sound_popTiles
    | with_reducible apply sound_stashRegs
    | (refine CEffK.elimOk (by assumption) ?_)
    | (refine CEffK.elimFault (by assumption) ?_)
    | extract_lets
    | simp -zeta only [pairK_iff, pair3K_iff, fstK_iff, midK_iff]
    | simp -zeta only []
    | split
    | (with_reducible apply sound_ite)
    | (rename_i y; subst y)
    | (rename_i y _; subst y)
    | (rename_i y _ _; subst y)
    | (rename_i y _ _ _; subst y)
    | (rename_i y _ _ _ _; subst y)
    | (rename_i y _ _ _ _ _; subst y)
    | (rename_i y _ _ _ _ _ _; subst y)
    | (rename_i y _ _ _ _ _ _ _; subst y)
    | (rename_i y _ _ _ _ _ _ _ _; subst y)
    | intro _)

theorem sound_execCpush {qs : Want} (c : Nat) (w : W64) (s : State) (hs : Sound qs s) :
    OutK qs (execCpush c w s) := by
  unfold execCpush
  repeat' (first
    | with_reducible assumption
    | with_reducible apply outK_fault
    | with_reducible apply outK_refused
    | with_reducible apply outK_next
    | with_reducible apply ceffK_fault
    | with_reducible apply ceffK_faultD
    | with_reducible apply ceffK_poison
    | with_reducible apply ceffK_ok
    | with_reducible apply sound_issueC
    | with_reducible apply sound_fxCpush
    | (refine OutK.elim (by assumption) ?_)
    | (refine CEffK.elimOk (by assumption) ?_)
    | (refine CEffK.elimFault (by assumption) ?_)
    | split)

theorem sound_execCpop {qs : Want} (c : Nat) (w : W64) (s : State) (hs : Sound qs s) :
    OutK qs (execCpop c w s) := by
  unfold execCpop
  repeat' (first
    | with_reducible assumption
    | with_reducible apply outK_fault
    | with_reducible apply outK_refused
    | with_reducible apply outK_next
    | with_reducible apply ceffK_fault
    | with_reducible apply ceffK_faultD
    | with_reducible apply ceffK_poison
    | with_reducible apply ceffK_ok
    | with_reducible apply sound_issueC
    | with_reducible apply sound_fxCpop
    | (refine OutK.elim (by assumption) ?_)
    | (refine CEffK.elimOk (by assumption) ?_)
    | (refine CEffK.elimFault (by assumption) ?_)
    | split)

end Sys2Proof.Machine
end

