-- ==== Sys2Proof/Laws/SoundDomain.lean ====
section
/-!
SUPPORT. The operations of Domain.lean keep memory and marks canonical and leave the queue alone.
-/
set_option linter.unusedSimpArgs false
set_option linter.unusedVariables false

namespace Sys2Proof.Machine

theorem sound_setColl {qs : Want} (s : State) (c : Nat) (v : Coll) (hs : Sound qs s) :
    Sound qs (setColl s c v) := by
  unfold setColl
  repeat' (first
    | with_reducible assumption
    | simp -zeta only [sound_mk_iff]
    | split)

theorem sound_releasePauses {qs : Want} (s : State) (c : Nat) (hs : Sound qs s) :
    Sound qs (releasePauses s c) := by
  unfold releasePauses
  repeat' (first
    | with_reducible assumption
    | with_reducible apply sound_sendPfc
    | with_reducible apply sound_setColl
    | (with_reducible apply sound_foldl; intro _ _ _)
    | (with_reducible apply pairK_foldl; intro _ _ _)
    | (with_reducible apply PairK.snd; with_reducible apply pairK_foldl; intro _ _ _)
    | (with_reducible apply fstK_foldl; intro _ _ _)
    | (with_reducible apply FstK.snd; with_reducible apply fstK_foldl; intro _ _ _)
    | extract_lets
    | simp -zeta only [pairK_iff, pair3K_iff, fstK_iff, midK_iff]
    | simp -zeta only [sound_mk_iff]
    | simp -zeta only []
    | split)

theorem sound_abandonColl {qs : Want} (s : State) (c : Nat) (hs : Sound qs s) :
    Sound qs (abandonColl s c) := by
  unfold abandonColl
  repeat' (first
    | with_reducible assumption
    | with_reducible apply sound_setColl
    | with_reducible apply sound_releasePauses
    | simp -zeta only [sound_mk_iff]
    | split)

theorem sound_zeroAbsent {qs : Want} (s : State) (split : Bool) (e h : Nat) (hs : Sound qs s) :
    Sound qs (zeroAbsent s split e h) := by
  unfold zeroAbsent
  repeat' (first
    | with_reducible assumption
    | (with_reducible apply sound_foldl; intro _ _ _)
    | (with_reducible apply pairK_foldl; intro _ _ _)
    | (with_reducible apply PairK.snd; with_reducible apply pairK_foldl; intro _ _ _)
    | (with_reducible apply fstK_foldl; intro _ _ _)
    | (with_reducible apply FstK.snd; with_reducible apply fstK_foldl; intro _ _ _)
    | simp -zeta only [pairK_iff, pair3K_iff, fstK_iff, midK_iff]
    | simp -zeta only [sound_mk_iff]
    | (refine sound_mkMem (fun k => wf_storeBytes _ _ _ (Sound.mem (q := qs) ?_ k)) ?_)
    | simp -zeta only []
    | split)

theorem partPlaces_rising (split : Bool) (h n : Nat) : (partPlaces split h n).Pairwise (· < ·) :=
  List.Pairwise.filter _ List.pairwise_lt_range

theorem sound_poisonCells {qs : Want} (s : State) (split : Bool) (e h : Nat) (hs : Sound qs s) :
    Sound qs (poisonCells s split e h) := by
  have hz := sound_zeroAbsent s split e h hs
  have rise : ((partPlaces split h 0x90000).map fun w => accBase e + 4 * w).Pairwise (· < ·) :=
    List.Pairwise.map _ (fun a b (hab : a < b) => by omega) (partPlaces_rising split h 0x90000)
  unfold poisonCells
  generalize zeroAbsent s split e h = z at hz
  exact sound_mkPoison (fun k => SMap.wf_updAll _ rise (Sound.pz (q := qs) hz k)) hz

theorem sound_poisonPart {qs : Want} (s : State) (e h : Nat) (hs : Sound qs s) :
    Sound qs (poisonPart s e h) := by
  unfold poisonPart
  repeat' (first
    | with_reducible assumption
    | with_reducible apply sound_setEng
    | with_reducible apply sound_setTile
    | with_reducible apply sound_poisonCells
    | (with_reducible apply sound_foldl; intro _ _ _)
    | (with_reducible apply pairK_foldl; intro _ _ _)
    | (with_reducible apply PairK.snd; with_reducible apply pairK_foldl; intro _ _ _)
    | (with_reducible apply fstK_foldl; intro _ _ _)
    | (with_reducible apply FstK.snd; with_reducible apply fstK_foldl; intro _ _ _)
    | extract_lets
    | simp -zeta only [pairK_iff, pair3K_iff, fstK_iff, midK_iff]
    | simp -zeta only [sound_mk_iff]
    | simp -zeta only []
    | split
    | (with_reducible apply sound_ite)
    | (rename_i y; subst y)
    | (rename_i y _; subst y)
    | (rename_i y _ _; subst y)
    | (rename_i y _ _ _; subst y)
    | (rename_i y _ _ _ _; subst y)
    | (rename_i y _ _ _ _ _; subst y)
    | (rename_i y _ _ _ _ _ _; subst y)
    | (rename_i y _ _ _ _ _ _ _; subst y)
    | (rename_i y _ _ _ _ _ _ _ _; subst y)
    | intro _)

theorem sound_stopCores {qs : Want} (s : State) (d : Nat) (hs : Sound qs s) :
    Sound qs (stopCores s d) := by
  unfold stopCores
  repeat' (first
    | with_reducible assumption
    | extract_lets
    | simp -zeta only [pairK_iff, pair3K_iff, fstK_iff, midK_iff]
    | simp -zeta only [sound_mk_iff]
    | simp -zeta only []
    | split)

theorem sound_stopRound {qs : Want} (s : State) (d : Nat) (hs : Sound qs s) :
    Sound qs (stopRound s d) := by
  unfold stopRound
  repeat' (first
    | with_reducible assumption
    | simp -zeta only [pairK_iff, pair3K_iff, fstK_iff, midK_iff]
    | simp -zeta only [sound_mk_iff]
    | simp -zeta only []
    | split)

theorem sound_stopService {qs : Want} (s : State) (d : Nat) (hs : Sound qs s) :
    Sound qs (stopService s d) := by
  unfold stopService
  repeat' (first
    | with_reducible assumption
    | simp -zeta only [pairK_iff, pair3K_iff, fstK_iff, midK_iff]
    | simp -zeta only [sound_mk_iff]
    | simp -zeta only []
    | split)

theorem sound_clearUnits {qs : Want} (s : State) (d : Nat) (hs : Sound qs s) :
    Sound qs (clearUnits s d) := by
  unfold clearUnits
  repeat' (first
    | with_reducible assumption
    | with_reducible apply sound_setD
    | with_reducible apply sound_grantHalts
    | with_reducible apply sound_abandonSnap
    | with_reducible apply sound_abandonColl
    | with_reducible apply sound_stopCores
    | with_reducible apply sound_stopRound
    | with_reducible apply sound_stopService
    | (with_reducible apply sound_foldl; intro _ _ _)
    | (with_reducible apply pairK_foldl; intro _ _ _)
    | (with_reducible apply PairK.snd; with_reducible apply pairK_foldl; intro _ _ _)
    | (with_reducible apply fstK_foldl; intro _ _ _)
    | (with_reducible apply FstK.snd; with_reducible apply fstK_foldl; intro _ _ _)
    | extract_lets
    | simp -zeta only [sound_mk_iff]
    | split)

theorem sound_stopUnits {qs : Want} (s : State) (d : Nat) (hs : Sound qs s) :
    Sound qs (stopUnits s d) := by
  unfold stopUnits
  repeat' (first
    | with_reducible assumption
    | with_reducible apply sound_emptyStrand
    | with_reducible apply sound_poisonPart
    | with_reducible apply sound_clearUnits
    | (with_reducible apply sound_foldl; intro _ _ _)
    | (with_reducible apply pairK_foldl; intro _ _ _)
    | (with_reducible apply PairK.snd; with_reducible apply pairK_foldl; intro _ _ _)
    | (with_reducible apply fstK_foldl; intro _ _ _)
    | (with_reducible apply FstK.snd; with_reducible apply fstK_foldl; intro _ _ _)
    | simp -zeta only [pairK_iff, pair3K_iff, fstK_iff, midK_iff]
    | simp -zeta only []
    | split)

theorem sound_recordFaults {qs : Want} (s : State) (d : Nat) (hs : Sound qs s) :
    Sound qs (recordFaults s d) := by
  unfold recordFaults
  repeat' (first
    | with_reducible assumption
    | with_reducible apply sound_incP
    | with_reducible apply sound_setD
    | with_reducible apply sound_writeRecord
    | (refine PairK.elim (by assumption) ?_)
    | (refine FstK.elim (by assumption) ?_)
    | extract_lets
    | simp -zeta only [pairK_iff, pair3K_iff, fstK_iff, midK_iff]
    | simp -zeta only [sound_mk_iff]
    | simp -zeta only []
    | split
    | (with_reducible apply sound_ite)
    | (rename_i y; subst y)
    | (rename_i y _; subst y)
    | (rename_i y _ _; subst y)
    | (rename_i y _ _ _; subst y)
    | (rename_i y _ _ _ _; subst y)
    | (rename_i y _ _ _ _ _; subst y)
    | (rename_i y _ _ _ _ _ _; subst y)
    | (rename_i y _ _ _ _ _ _ _; subst y)
    | (rename_i y _ _ _ _ _ _ _ _; subst y)
    | intro _)

theorem sound_execFault {qs : Want} (d : Nat) (s : State) (hs : Sound qs s) :
    OutK qs (execFault d s) := by
  unfold execFault
  repeat' (first
    | with_reducible assumption
    | with_reducible apply outK_fault
    | with_reducible apply outK_refused
    | with_reducible apply outK_next
    | with_reducible apply sound_incP
    | with_reducible apply sound_recordFaults
    | (with_reducible apply sound_foldl; intro _ _ _)
    | (with_reducible apply pairK_foldl; intro _ _ _)
    | (with_reducible apply PairK.snd; with_reducible apply pairK_foldl; intro _ _ _)
    | (with_reducible apply fstK_foldl; intro _ _ _)
    | (with_reducible apply FstK.snd; with_reducible apply fstK_foldl; intro _ _ _)
    | extract_lets
    | simp -zeta only [pairK_iff, pair3K_iff, fstK_iff, midK_iff]
    | simp -zeta only []
    | split)

theorem sound_execStop {qs : Want} (d : Nat) (s : State) (hs : Sound qs s) :
    OutK qs (execStop d s) := by
  unfold execStop
  repeat' (first
    | with_reducible assumption
    | with_reducible apply outK_fault
    | with_reducible apply outK_refused
    | with_reducible apply outK_next
    | with_reducible apply sound_incP
    | with_reducible apply sound_stopUnits
    | with_reducible apply sound_recordFaults
    | split)

theorem sound_execStart {qs : Want} (d : Nat) (s : State) (hs : Sound qs s) :
    OutK qs (execStart d s) := by
  unfold execStart
  repeat' (first
    | with_reducible assumption
    | with_reducible apply outK_fault
    | with_reducible apply outK_refused
    | with_reducible apply outK_next
    | with_reducible apply sound_incP
    | with_reducible apply sound_setD
    | with_reducible apply sound_tick
    | extract_lets
    | simp -zeta only [sound_mk_iff]
    | split)

theorem sound_stopChannels {qs : Want} (s : State) (d : Nat) (hs : Sound qs s) :
    Sound qs (stopChannels s d) := by
  unfold stopChannels
  repeat' (first
    | with_reducible assumption
    | simp -zeta only [pairK_iff, pair3K_iff, fstK_iff, midK_iff]
    | simp -zeta only [sound_mk_iff]
    | simp -zeta only []
    | split)

theorem sound_execDomainDone {qs : Want} (d : Nat) (s : State) (hs : Sound qs s) :
    OutK qs (execDomainDone d s) := by
  unfold execDomainDone
  repeat' (first
    | with_reducible assumption
    | with_reducible apply outK_fault
    | with_reducible apply outK_refused
    | with_reducible apply outK_next
    | with_reducible apply sound_setD
    | with_reducible apply sound_setColl
    | with_reducible apply sound_releasePauses
    | with_reducible apply sound_stopChannels
    | (with_reducible apply sound_foldl; intro _ _ _)
    | (with_reducible apply pairK_foldl; intro _ _ _)
    | (with_reducible apply PairK.snd; with_reducible apply pairK_foldl; intro _ _ _)
    | (with_reducible apply fstK_foldl; intro _ _ _)
    | (with_reducible apply FstK.snd; with_reducible apply fstK_foldl; intro _ _ _)
    | extract_lets
    | simp -zeta only [pairK_iff, pair3K_iff, fstK_iff, midK_iff]
    | simp -zeta only [sound_mk_iff]
    | simp -zeta only []
    | split)

theorem sound_abortDomain {qs : Want} (s : State) (d : Nat) (hs : Sound qs s) :
    PairK qs (abortDomain s d) := by
  unfold abortDomain
  repeat' (first
    | with_reducible assumption
    | with_reducible apply sound_setD
    | with_reducible apply sound_stopUnits
    | extract_lets
    | simp -zeta only [pairK_iff, pair3K_iff, fstK_iff, midK_iff]
    | simp -zeta only [sound_mk_iff]
    | split)

theorem sound_execAbort {qs : Want} (d : Nat) (s : State) (hs : Sound qs s) :
    OutK qs (execAbort d s) := by
  unfold execAbort
  repeat' (first
    | with_reducible assumption
    | with_reducible apply outK_fault
    | with_reducible apply outK_refused
    | with_reducible apply outK_next
    | with_reducible apply sound_noParam
    | with_reducible apply sound_gated
    | with_reducible apply sound_abortDomain
    | (with_reducible apply PairK.snd; with_reducible apply sound_abortDomain)
    | (refine PairK.elim (by assumption) ?_)
    | extract_lets
    | simp -zeta only [pairK_iff, pair3K_iff, fstK_iff, midK_iff]
    | simp -zeta only []
    | split
    | (with_reducible apply sound_ite)
    | (rename_i y; subst y)
    | (rename_i y _; subst y)
    | (rename_i y _ _; subst y)
    | (rename_i y _ _ _; subst y)
    | (rename_i y _ _ _ _; subst y)
    | (rename_i y _ _ _ _ _; subst y)
    | (rename_i y _ _ _ _ _ _; subst y)
    | (rename_i y _ _ _ _ _ _ _; subst y)
    | (rename_i y _ _ _ _ _ _ _ _; subst y)
    | intro _)

theorem sound_clearSpan {qs : Want} (s : State) (lo hi : Nat) (hs : Sound qs s) : Sound qs (clearSpan s lo hi) :=
  ⟨fun k => ⟨SMap.wf_filter _ (hs.1 k).1, SMap.wf_filter _ (hs.1 k).2⟩, hs.2⟩

theorem sound_releaseCore {qs : Want} (d : Nat) (s : State) (u : Nat) (hs : Sound qs s) :
    Sound qs (releaseCore d s u) := by
  unfold releaseCore
  repeat' (first
    | with_reducible assumption
    | with_reducible apply sound_setE
    | with_reducible apply sound_setC
    | with_reducible apply sound_clearSpan
    | (refine PairK.elim (by assumption) ?_)
    | (refine FstK.elim (by assumption) ?_)
    | extract_lets
    | simp -zeta only [pairK_iff, pair3K_iff, fstK_iff, midK_iff]
    | simp -zeta only [sound_mk_iff]
    | simp -zeta only []
    | split)

theorem sound_releasePart {qs : Want} (s : State) (p : Nat × Nat) (hs : Sound qs s) :
    Sound qs (releasePart s p) := by
  unfold releasePart
  repeat' (first
    | with_reducible assumption
    | with_reducible apply sound_setEng
    | extract_lets
    | simp -zeta only [sound_mk_iff]
    | split)

theorem sound_freeTrees {qs : Want} (s : State) (d : Nat) (hs : Sound qs s) :
    Sound qs (freeTrees s d) := by
  unfold freeTrees
  repeat' (first
    | with_reducible assumption
    | with_reducible apply sound_setP
    | (with_reducible apply sound_foldl; intro _ _ _)
    | (with_reducible apply pairK_foldl; intro _ _ _)
    | (with_reducible apply PairK.snd; with_reducible apply pairK_foldl; intro _ _ _)
    | (with_reducible apply fstK_foldl; intro _ _ _)
    | (with_reducible apply FstK.snd; with_reducible apply fstK_foldl; intro _ _ _)
    | extract_lets
    | simp -zeta only [pairK_iff, pair3K_iff, fstK_iff, midK_iff]
    | simp -zeta only []
    | split)

theorem sound_freeGroups {qs : Want} (s : State) (d : Nat) (hs : Sound qs s) :
    Sound qs (freeGroups s d) := by
  unfold freeGroups
  repeat' (first
    | with_reducible assumption
    | with_reducible apply sound_setP
    | (with_reducible apply sound_foldl; intro _ _ _)
    | (with_reducible apply pairK_foldl; intro _ _ _)
    | (with_reducible apply PairK.snd; with_reducible apply pairK_foldl; intro _ _ _)
    | (with_reducible apply fstK_foldl; intro _ _ _)
    | (with_reducible apply FstK.snd; with_reducible apply fstK_foldl; intro _ _ _)
    | simp -zeta only [pairK_iff, pair3K_iff, fstK_iff, midK_iff]
    | simp -zeta only []
    | split)

theorem sound_freeGrants {qs : Want} (s : State) (d : Nat) (hs : Sound qs s) :
    Sound qs (freeGrants s d) := by
  unfold freeGrants
  repeat' (first
    | with_reducible assumption
    | with_reducible apply sound_setD
    | with_reducible apply sound_setReg
    | with_reducible apply sound_abandonColl
    | with_reducible apply sound_releaseCore
    | with_reducible apply sound_releasePart
    | with_reducible apply sound_freeTrees
    | with_reducible apply sound_freeGroups
    | (with_reducible apply sound_foldl; intro _ _ _)
    | (with_reducible apply pairK_foldl; intro _ _ _)
    | (with_reducible apply PairK.snd; with_reducible apply pairK_foldl; intro _ _ _)
    | (with_reducible apply fstK_foldl; intro _ _ _)
    | (with_reducible apply FstK.snd; with_reducible apply fstK_foldl; intro _ _ _)
    | extract_lets
    | simp -zeta only [pairK_iff, pair3K_iff, fstK_iff, midK_iff]
    | simp -zeta only [sound_mk_iff]
    | simp -zeta only []
    | split)

theorem sound_releaseDomain {qs : Want} (s : State) (d : Nat) (hs : Sound qs s) :
    PairK qs (releaseDomain s d) := by
  unfold releaseDomain
  repeat' (first
    | with_reducible assumption
    | with_reducible apply sound_clearUnits
    | with_reducible apply sound_stopUnits
    | with_reducible apply sound_freeGrants
    | simp -zeta only [pairK_iff, pair3K_iff, fstK_iff, midK_iff]
    | split)

theorem sound_execRelease {qs : Want} (d : Nat) (s : State) (hs : Sound qs s) :
    OutK qs (execRelease d s) := by
  unfold execRelease
  repeat' (first
    | with_reducible assumption
    | with_reducible apply outK_fault
    | with_reducible apply outK_refused
    | with_reducible apply outK_next
    | with_reducible apply sound_noParam
    | with_reducible apply sound_gated
    | with_reducible apply sound_releaseDomain
    | (with_reducible apply PairK.snd; with_reducible apply sound_releaseDomain)
    | (refine PairK.elim (by assumption) ?_)
    | extract_lets
    | simp -zeta only [pairK_iff, pair3K_iff, fstK_iff, midK_iff]
    | simp -zeta only []
    | split
    | (with_reducible apply sound_ite)
    | (rename_i y; subst y)
    | (rename_i y _; subst y)
    | (rename_i y _ _; subst y)
    | (rename_i y _ _ _; subst y)
    | (rename_i y _ _ _ _; subst y)
    | (rename_i y _ _ _ _ _; subst y)
    | (rename_i y _ _ _ _ _ _; subst y)
    | (rename_i y _ _ _ _ _ _ _; subst y)
    | (rename_i y _ _ _ _ _ _ _ _; subst y)
    | intro _)

theorem sound_ackRecords {qs : Want} (s : State) (v : Nat) (hs : Sound qs s) :
    PairK qs (ackRecords s v) := by
  unfold ackRecords
  repeat' (first
    | with_reducible assumption
    | simp -zeta only [pairK_iff, pair3K_iff, fstK_iff, midK_iff]
    | simp -zeta only [sound_mk_iff]
    | simp -zeta only []
    | split)

theorem sound_execFaultAck {qs : Want} (v : Nat) (s : State) (hs : Sound qs s) :
    OutK qs (execFaultAck v s) := by
  unfold execFaultAck
  repeat' (first
    | with_reducible assumption
    | with_reducible apply outK_fault
    | with_reducible apply outK_refused
    | with_reducible apply outK_next
    | with_reducible apply sound_gated
    | with_reducible apply sound_ackRecords
    | (with_reducible apply PairK.snd; with_reducible apply sound_ackRecords)
    | (refine PairK.elim (by assumption) ?_)
    | extract_lets
    | simp -zeta only [pairK_iff, pair3K_iff, fstK_iff, midK_iff]
    | simp -zeta only []
    | split
    | (with_reducible apply sound_ite)
    | (rename_i y; subst y)
    | (rename_i y _; subst y)
    | (rename_i y _ _; subst y)
    | (rename_i y _ _ _; subst y)
    | (rename_i y _ _ _ _; subst y)
    | (rename_i y _ _ _ _ _; subst y)
    | (rename_i y _ _ _ _ _ _; subst y)
    | (rename_i y _ _ _ _ _ _ _; subst y)
    | (rename_i y _ _ _ _ _ _ _ _; subst y)
    | intro _)

end Sys2Proof.Machine
end

