-- ==== Sys2Proof/Laws/SoundLoader.lean ====
section
/-!
SUPPORT. The operations of Loader.lean keep memory and marks canonical and leave the queue alone.
-/
set_option linter.unusedSimpArgs false
set_option linter.unusedVariables false

namespace Sys2Proof.Machine

theorem sound_placeEngines {qs : Want} (s : State) (d h : Nat) (hs : Sound qs s) :
    Sound qs (placeEngines s d h) := by
  unfold placeEngines
  repeat' (first
    | with_reducible assumption
    | with_reducible apply sound_setEng
    | (with_reducible apply sound_foldl; intro _ _ _)
    | (with_reducible apply pairK_foldl; intro _ _ _)
    | (with_reducible apply PairK.snd; with_reducible apply pairK_foldl; intro _ _ _)
    | (with_reducible apply fstK_foldl; intro _ _ _)
    | (with_reducible apply FstK.snd; with_reducible apply fstK_foldl; intro _ _ _)
    | extract_lets
    | simp -zeta only [pairK_iff, pair3K_iff, fstK_iff, midK_iff]
    | simp -zeta only [sound_mk_iff]
    | simp -zeta only []
    | split)

theorem sound_placePhases {qs : Want} (s : State) (d h : Nat) (hs : Sound qs s) :
    Sound qs (placePhases s d h) := by
  unfold placePhases
  repeat' (first
    | with_reducible assumption
    | (with_reducible apply sound_foldl; intro _ _ _)
    | (with_reducible apply pairK_foldl; intro _ _ _)
    | (with_reducible apply PairK.snd; with_reducible apply pairK_foldl; intro _ _ _)
    | (with_reducible apply fstK_foldl; intro _ _ _)
    | (with_reducible apply FstK.snd; with_reducible apply fstK_foldl; intro _ _ _)
    | extract_lets
    | simp -zeta only [pairK_iff, pair3K_iff, fstK_iff, midK_iff]
    | simp -zeta only [sound_mk_iff]
    | simp -zeta only []
    | split)

theorem sound_placeCore {qs : Want} (s : State) (d u : Nat) (hs : Sound qs s) :
    Sound qs (placeCore s d u) := by
  unfold placeCore
  repeat' (first
    | with_reducible assumption
    | with_reducible apply sound_setE
    | with_reducible apply sound_setC
    | extract_lets
    | simp -zeta only [sound_mk_iff]
    | split)

theorem sound_placeSection {qs : Want} (lk : Image) (d : Nat) (s : State) (x : SecEntry) (hs : Sound qs s) :
    Sound qs (placeSection lk d s x) := by
  unfold placeSection
  repeat' (first
    | with_reducible assumption
    | with_reducible apply sound_updN
    | with_reducible apply sound_setC
    | with_reducible apply sound_setStream
    | with_reducible apply sound_setDma
    | with_reducible apply sound_setPresent
    | with_reducible apply sound_writeP
    | (with_reducible apply sound_foldl; intro _ _ _)
    | (with_reducible apply pairK_foldl; intro _ _ _)
    | (with_reducible apply PairK.snd; with_reducible apply pairK_foldl; intro _ _ _)
    | (with_reducible apply fstK_foldl; intro _ _ _)
    | (with_reducible apply FstK.snd; with_reducible apply fstK_foldl; intro _ _ _)
    | extract_lets
    | simp -zeta only [pairK_iff, pair3K_iff, fstK_iff, midK_iff]
    | simp -zeta only [sound_mk_iff]
    | simp -zeta only []
    | split)

theorem sound_placeImage {qs : Want} (s : State) (d : Nat) (m lk : Image) (hs : Sound qs s) :
    Sound qs (placeImage s d m lk) := by
  unfold placeImage
  repeat' (first
    | with_reducible assumption
    | with_reducible apply sound_setD
    | with_reducible apply sound_placeEngines
    | with_reducible apply sound_placePhases
    | with_reducible apply sound_placeCore
    | with_reducible apply sound_placeSection
    | (with_reducible apply sound_foldl; intro _ _ _)
    | (with_reducible apply pairK_foldl; intro _ _ _)
    | (with_reducible apply PairK.snd; with_reducible apply pairK_foldl; intro _ _ _)
    | (with_reducible apply fstK_foldl; intro _ _ _)
    | (with_reducible apply FstK.snd; with_reducible apply fstK_foldl; intro _ _ _)
    | extract_lets
    | simp -zeta only [pairK_iff, pair3K_iff, fstK_iff, midK_iff]
    | simp -zeta only [sound_mk_iff]
    | simp -zeta only []
    | split)

theorem sound_refuseLoad {qs : Want} (s : State) (d : Nat) (f : LoadFault) (hs : Sound qs s) :
    Sound qs (refuseLoad s d f) := by
  unfold refuseLoad
  repeat' (first
    | with_reducible assumption
    | with_reducible apply sound_setD
    | with_reducible apply sound_writeRecord
    | with_reducible apply sound_emptyStrand
    | (with_reducible apply sound_foldl; intro _ _ _)
    | (with_reducible apply pairK_foldl; intro _ _ _)
    | (with_reducible apply PairK.snd; with_reducible apply pairK_foldl; intro _ _ _)
    | (with_reducible apply fstK_foldl; intro _ _ _)
    | (with_reducible apply FstK.snd; with_reducible apply fstK_foldl; intro _ _ _)
    | extract_lets
    | simp -zeta only [sound_mk_iff]
    | split)

theorem sound_loadImage {qs : Want} (s : State) (d : Nat) (hs : Sound qs s) : Sound qs (loadImage s d) := by
  unfold loadImage
  generalize vfuel 256 = fuel
  extract_lets at_ dd s1
  have h1 : Sound qs s1 := sound_setD _ _ _ hs
  clear_value s1
  have hv := sound_vread fuel s1 d at_ s1.ctc 256 h1
  generalize vread s1 d at_ s1.ctc 256 fuel = v at *
  split
  · exact sound_refuseLoad _ _ _ hv
  · exact sound_refuseLoad _ _ _ hv
  · rename_i hd t
    extract_lets rest
    have hv2 := sound_vread (vfuel rest) t d (at_ + 256) t.ctc rest hv
    generalize vread t d (at_ + 256) t.ctc rest (vfuel rest) = v at *
    split
    · exact sound_refuseLoad _ _ _ hv2
    · exact sound_refuseLoad _ _ _ hv2
    · extract_lets m lk
      split
      · exact sound_refuseLoad _ _ _ hv2
      · exact sound_placeImage _ _ _ _ hv2

theorem sound_loadDomain {qs : Want} (s : State) (d : Nat) (hs : Sound qs s) :
    PairK qs (loadDomain s d) := by
  unfold loadDomain
  repeat' (first
    | with_reducible assumption
    | with_reducible apply sound_loadImage
    | simp -zeta only [pairK_iff, pair3K_iff, fstK_iff, midK_iff]
    | split)

theorem sound_execLoad {qs : Want} (d : Nat) (s : State) (hs : Sound qs s) :
    OutK qs (execLoad d s) := by
  unfold execLoad
  repeat' (first
    | with_reducible assumption
    | with_reducible apply outK_fault
    | with_reducible apply outK_refused
    | with_reducible apply outK_next
    | with_reducible apply sound_noParam
    | with_reducible apply sound_gated
    | with_reducible apply sound_loadDomain
    | (with_reducible apply PairK.snd; with_reducible apply sound_loadDomain)
    | (refine PairK.elim (by assumption) ?_)
    | extract_lets
    | simp -zeta only [pairK_iff, pair3K_iff, fstK_iff, midK_iff]
    | simp -zeta only []
    | split
    | (with_reducible apply sound_ite)
    | (rename_i y; subst y)
    | (rename_i y _; subst y)
    | (rename_i y _ _; subst y)
    | (rename_i y _ _ _; subst y)
    | (rename_i y _ _ _ _; subst y)
    | (rename_i y _ _ _ _ _; subst y)
    | (rename_i y _ _ _ _ _ _; subst y)
    | (rename_i y _ _ _ _ _ _ _; subst y)
    | (rename_i y _ _ _ _ _ _ _ _; subst y)
    | intro _)

theorem sound_resumeCheck {qs : Want} (s : State) (d : Nat) (hs : Sound qs s) :
    Sound qs (resumeCheck s d) := by
  unfold resumeCheck
  repeat' (first
    | with_reducible assumption
    | with_reducible apply sound_setP
    | with_reducible apply sound_setD
    | with_reducible apply sound_writeRecord
    | (with_reducible apply sound_foldl; intro _ _ _)
    | (with_reducible apply pairK_foldl; intro _ _ _)
    | (with_reducible apply PairK.snd; with_reducible apply pairK_foldl; intro _ _ _)
    | (with_reducible apply fstK_foldl; intro _ _ _)
    | (with_reducible apply FstK.snd; with_reducible apply fstK_foldl; intro _ _ _)
    | extract_lets
    | simp -zeta only [pairK_iff, pair3K_iff, fstK_iff, midK_iff]
    | simp -zeta only [sound_mk_iff]
    | simp -zeta only []
    | split
    | (with_reducible apply sound_ite)
    | (rename_i y; subst y)
    | (rename_i y _; subst y)
    | (rename_i y _ _; subst y)
    | (rename_i y _ _ _; subst y)
    | (rename_i y _ _ _ _; subst y)
    | (rename_i y _ _ _ _ _; subst y)
    | (rename_i y _ _ _ _ _ _; subst y)
    | (rename_i y _ _ _ _ _ _ _; subst y)
    | (rename_i y _ _ _ _ _ _ _ _; subst y)
    | intro _)

theorem sound_startCores {qs : Want} (s : State) (d : Nat) (hs : Sound qs s) :
    Sound qs (startCores s d) := by
  unfold startCores
  repeat' (first
    | with_reducible assumption
    | simp -zeta only [pairK_iff, pair3K_iff, fstK_iff, midK_iff]
    | simp -zeta only [sound_mk_iff]
    | simp -zeta only []
    | split)

theorem sound_runDomain {qs : Want} (s : State) (d : Nat) (hs : Sound qs s) :
    PairK qs (runDomain s d) := by
  unfold runDomain
  repeat' (first
    | with_reducible assumption
    | with_reducible apply sound_setP
    | with_reducible apply sound_setD
    | with_reducible apply sound_setSnapD
    | with_reducible apply sound_noteFinished
    | with_reducible apply sound_setColl
    | with_reducible apply sound_resumeCheck
    | with_reducible apply sound_startCores
    | (with_reducible apply sound_foldl; intro _ _ _)
    | (with_reducible apply pairK_foldl; intro _ _ _)
    | (with_reducible apply PairK.snd; with_reducible apply pairK_foldl; intro _ _ _)
    | (with_reducible apply fstK_foldl; intro _ _ _)
    | (with_reducible apply FstK.snd; with_reducible apply fstK_foldl; intro _ _ _)
    | extract_lets
    | simp -zeta only [pairK_iff, pair3K_iff, fstK_iff, midK_iff]
    | simp -zeta only [sound_mk_iff]
    | simp -zeta only []
    | split)

theorem sound_execRun {qs : Want} (d : Nat) (s : State) (hs : Sound qs s) :
    OutK qs (execRun d s) := by
  unfold execRun
  repeat' (first
    | with_reducible assumption
    | with_reducible apply outK_fault
    | with_reducible apply outK_refused
    | with_reducible apply outK_next
    | with_reducible apply sound_noParam
    | with_reducible apply sound_gated
    | with_reducible apply sound_runDomain
    | (with_reducible apply PairK.snd; with_reducible apply sound_runDomain)
    | (refine PairK.elim (by assumption) ?_)
    | extract_lets
    | simp -zeta only [pairK_iff, pair3K_iff, fstK_iff, midK_iff]
    | simp -zeta only []
    | split
    | (with_reducible apply sound_ite)
    | (rename_i y; subst y)
    | (rename_i y _; subst y)
    | (rename_i y _ _; subst y)
    | (rename_i y _ _ _; subst y)
    | (rename_i y _ _ _ _; subst y)
    | (rename_i y _ _ _ _ _; subst y)
    | (rename_i y _ _ _ _ _ _; subst y)
    | (rename_i y _ _ _ _ _ _ _; subst y)
    | (rename_i y _ _ _ _ _ _ _ _; subst y)
    | intro _)

theorem sound_loadRunDomain {qs : Want} (s : State) (d : Nat) (hs : Sound qs s) :
    PairK qs (loadRunDomain s d) := by
  unfold loadRunDomain
  repeat' (first
    | with_reducible assumption
    | with_reducible apply sound_loadDomain
    | (with_reducible apply PairK.snd; with_reducible apply sound_loadDomain)
    | with_reducible apply sound_runDomain
    | (with_reducible apply PairK.snd; with_reducible apply sound_runDomain)
    | (refine PairK.elim (by assumption) ?_)
    | simp -zeta only [pairK_iff, pair3K_iff, fstK_iff, midK_iff]
    | split)

theorem sound_execLoadRun {qs : Want} (d : Nat) (s : State) (hs : Sound qs s) :
    OutK qs (execLoadRun d s) := by
  unfold execLoadRun
  repeat' (first
    | with_reducible assumption
    | with_reducible apply outK_fault
    | with_reducible apply outK_refused
    | with_reducible apply outK_next
    | with_reducible apply sound_noParam
    | with_reducible apply sound_gated
    | with_reducible apply sound_loadRunDomain
    | (with_reducible apply PairK.snd; with_reducible apply sound_loadRunDomain)
    | (refine PairK.elim (by assumption) ?_)
    | extract_lets
    | simp -zeta only [pairK_iff, pair3K_iff, fstK_iff, midK_iff]
    | simp -zeta only []
    | split
    | (with_reducible apply sound_ite)
    | (rename_i y; subst y)
    | (rename_i y _; subst y)
    | (rename_i y _ _; subst y)
    | (rename_i y _ _ _; subst y)
    | (rename_i y _ _ _ _; subst y)
    | (rename_i y _ _ _ _ _; subst y)
    | (rename_i y _ _ _ _ _ _; subst y)
    | (rename_i y _ _ _ _ _ _ _; subst y)
    | (rename_i y _ _ _ _ _ _ _ _; subst y)
    | intro _)

end Sys2Proof.Machine
end

