-- ==== Sys2Proof/Laws/SoundHalts.lean ====
section
/-!
SUPPORT. The operations of Halts.lean keep memory and marks canonical and leave the queue alone.
-/
set_option linter.unusedSimpArgs false
set_option linter.unusedVariables false

namespace Sys2Proof.Machine

theorem sound_resumeWho {qs : Want}  : ∀ (x0 : Requester) (s : State) , Sound qs s →
    Sound qs (resumeWho s x0) := by
  intro x0
  intros
  unfold resumeWho
  repeat' (first
    | with_reducible assumption
    | with_reducible apply sound_setStream
    | with_reducible apply sound_setDma
    | with_reducible apply sound_updXfer
    | with_reducible apply sound_pumpXfer
    | extract_lets
    | simp -zeta only [pairK_iff, pair3K_iff, fstK_iff, midK_iff]
    | simp -zeta only [sound_mk_iff]
    | simp -zeta only []
    | split)

theorem sound_haltResume {qs : Want} (s : State) (slot : Nat) (hs : Sound qs s) :
    PairK qs (haltResume s slot) := by
  unfold haltResume
  repeat' (first
    | with_reducible assumption
    | with_reducible apply sound_grantHalts
    | with_reducible apply sound_dropHalt
    | with_reducible apply sound_resumeWho
    | simp -zeta only [pairK_iff, pair3K_iff, fstK_iff, midK_iff]
    | split)

theorem sound_execHaltResume {qs : Want} (slot : Nat) (s : State) (hs : Sound qs s) :
    OutK qs (execHaltResume slot s) := by
  unfold execHaltResume
  repeat' (first
    | with_reducible assumption
    | with_reducible apply outK_fault
    | with_reducible apply outK_refused
    | with_reducible apply outK_next
    | with_reducible apply sound_gated
    | with_reducible apply sound_haltResume
    | (with_reducible apply PairK.snd; with_reducible apply sound_haltResume)
    | (refine PairK.elim (by assumption) ?_)
    | extract_lets
    | simp -zeta only [pairK_iff, pair3K_iff, fstK_iff, midK_iff]
    | simp -zeta only []
    | split
    | (with_reducible apply sound_ite)
    | (rename_i y; subst y)
    | (rename_i y _; subst y)
    | (rename_i y _ _; subst y)
    | (rename_i y _ _ _; subst y)
    | (rename_i y _ _ _ _; subst y)
    | (rename_i y _ _ _ _ _; subst y)
    | (rename_i y _ _ _ _ _ _; subst y)
    | (rename_i y _ _ _ _ _ _ _; subst y)
    | (rename_i y _ _ _ _ _ _ _ _; subst y)
    | intro _)

theorem sound_haltFail {qs : Want} (s : State) (slot : Nat) (hs : Sound qs s) :
    PairK qs (haltFail s slot) := by
  unfold haltFail
  repeat' (first
    | with_reducible assumption
    | with_reducible apply sound_raise
    | simp -zeta only [pairK_iff, pair3K_iff, fstK_iff, midK_iff]
    | split)

theorem sound_execHaltFail {qs : Want} (slot : Nat) (s : State) (hs : Sound qs s) :
    OutK qs (execHaltFail slot s) := by
  unfold execHaltFail
  repeat' (first
    | with_reducible assumption
    | with_reducible apply outK_fault
    | with_reducible apply outK_refused
    | with_reducible apply outK_next
    | with_reducible apply sound_gated
    | with_reducible apply sound_haltFail
    | (with_reducible apply PairK.snd; with_reducible apply sound_haltFail)
    | (refine PairK.elim (by assumption) ?_)
    | extract_lets
    | simp -zeta only [pairK_iff, pair3K_iff, fstK_iff, midK_iff]
    | simp -zeta only []
    | split
    | (with_reducible apply sound_ite)
    | (rename_i y; subst y)
    | (rename_i y _; subst y)
    | (rename_i y _ _; subst y)
    | (rename_i y _ _ _; subst y)
    | (rename_i y _ _ _ _; subst y)
    | (rename_i y _ _ _ _ _; subst y)
    | (rename_i y _ _ _ _ _ _; subst y)
    | (rename_i y _ _ _ _ _ _ _; subst y)
    | (rename_i y _ _ _ _ _ _ _ _; subst y)
    | intro _)

theorem sound_ptFlush {qs : Want} (s : State) (v : Nat) (hs : Sound qs s) :
    PairK qs (ptFlush s v) := by
  unfold ptFlush
  repeat' (first
    | with_reducible assumption
    | (refine PairK.elim (by assumption) ?_)
    | (refine FstK.elim (by assumption) ?_)
    | extract_lets
    | simp -zeta only [pairK_iff, pair3K_iff, fstK_iff, midK_iff]
    | simp -zeta only [sound_mk_iff]
    | simp -zeta only []
    | split)

end Sys2Proof.Machine
end

