-- ==== Sys2Proof/Laws/SoundSequencer.lean ====
section
/-!
SUPPORT. The operations of Sequencer.lean keep memory and marks canonical and leave the queue alone.
-/
set_option linter.unusedSimpArgs false
set_option linter.unusedVariables false

namespace Sys2Proof.Machine

theorem sound_execInstructionDecode {qs : Want} (u : Nat) (n : Needle) (s : State) (hs : Sound qs s) :
    OutK qs (execInstructionDecode u n s) := by
  unfold execInstructionDecode
  repeat' (first
    | with_reducible assumption
    | with_reducible apply outK_fault
    | with_reducible apply outK_refused
    | with_reducible apply outK_next
    | with_reducible apply sound_decodeEland
    | with_reducible apply sound_decodeChamois
    | (refine OutK.elim (by assumption) ?_)
    | split)

theorem sound_reissue {qs : Want} (c : Nat) (n : Needle) (w : Nat) (s : State) (hs : Sound qs s) :
    OutK qs (reissue c n w s) := by
  unfold reissue
  repeat' (first
    | with_reducible assumption
    | with_reducible apply outK_fault
    | with_reducible apply outK_refused
    | with_reducible apply outK_next
    | with_reducible apply effK_full
    | with_reducible apply effK_fault
    | with_reducible apply effK_faultD
    | with_reducible apply effK_ok
    | with_reducible apply sound_issueE
    | with_reducible apply sound_fxMma
    | with_reducible apply sound_fxAccrd
    | with_reducible apply sound_fxConvert
    | with_reducible apply sound_fxDact
    | with_reducible apply sound_fxAmax
    | with_reducible apply sound_fxInj
    | with_reducible apply sound_fxTake
    | (refine OutK.elim (by assumption) ?_)
    | (refine EffK.elim (by assumption) ?_)
    | split)

theorem sound_execWaitQueueEntry {qs : Want} (u : Nat) (n : Needle) (s : State) (hs : Sound qs s) :
    OutK qs (execWaitQueueEntry u n s) := by
  unfold execWaitQueueEntry
  repeat' (first
    | with_reducible assumption
    | with_reducible apply outK_fault
    | with_reducible apply outK_refused
    | with_reducible apply outK_next
    | with_reducible apply sound_updN
    | with_reducible apply sound_advance
    | with_reducible apply sound_reissue
    | (refine OutK.elim (by assumption) ?_)
    | simp -zeta only [pairK_iff, pair3K_iff, fstK_iff, midK_iff]
    | simp -zeta only [sound_mk_iff]
    | simp -zeta only []
    | split)

end Sys2Proof.Machine
end

