-- ==== Sys2Proof/Laws/SoundClient.lean ====
section
/-!
SUPPORT. The operations of Client.lean keep memory and marks canonical and leave the queue alone.
-/
set_option linter.unusedSimpArgs false
set_option linter.unusedVariables false

namespace Sys2Proof.Machine

theorem sound_portLost {qs : Want} (s : State) (port tries : Nat) (hs : Sound qs s) :
    Sound qs (portLost s port tries) := by
  unfold portLost
  repeat' (first
    | with_reducible assumption
    | with_reducible apply sound_raise
    | with_reducible apply sound_logError
    | with_reducible apply sound_failSnap
    | (with_reducible apply sound_foldl; intro _ _ _)
    | (with_reducible apply pairK_foldl; intro _ _ _)
    | (with_reducible apply PairK.snd; with_reducible apply pairK_foldl; intro _ _ _)
    | (with_reducible apply fstK_foldl; intro _ _ _)
    | (with_reducible apply FstK.snd; with_reducible apply fstK_foldl; intro _ _ _)
    | extract_lets
    | simp -zeta only [pairK_iff, pair3K_iff, fstK_iff, midK_iff]
    | simp -zeta only [sound_mk_iff]
    | simp -zeta only []
    | split)

theorem sound_answerIn {qs : Want} (op port : Nat) (f : HmsFrame) (fx : Nat → State → State) (s : State) (hs : Sound qs s) (hfx : ∀ x0 x1, Sound qs x1 → Sound qs (fx x0 x1)) :
    OutK qs (answerIn op port f fx s) := by
  unfold answerIn
  repeat' (first
    | with_reducible assumption
    | with_reducible apply outK_fault
    | with_reducible apply outK_refused
    | with_reducible apply outK_next
    | with_reducible apply hfx
    | (refine PairK.snd (hfx _ ?_))
    | with_reducible apply sound_incP
    | (refine OptK.elim (by assumption) ?_)
    | (refine PairK.elim (by assumption) ?_)
    | (refine OutK.elim (by assumption) ?_)
    | extract_lets
    | simp -zeta only [pairK_iff, pair3K_iff, fstK_iff, midK_iff]
    | split)

theorem sound_reqDone {qs : Want} (s : State) (r : HReq) (bs : Option (List Byte)) (hs : Sound qs s) :
    Sound qs (reqDone s r bs) := by
  unfold reqDone
  repeat' (first
    | with_reducible assumption
    | with_reducible apply sound_dmaAnswered
    | with_reducible apply sound_snapAcked
    | split)

theorem sound_flowAdvance {qs : Want} (s : State) (fl : Nat) (keep : HReq → Bool) (hs : Sound qs s) :
    Sound qs (flowAdvance s fl keep) := by
  unfold flowAdvance
  repeat' (first
    | with_reducible assumption
    | with_reducible apply sound_setFlow
    | with_reducible apply sound_pumpFlow
    | extract_lets
    | simp -zeta only [sound_mk_iff]
    | split)

theorem sound_execData {qs : Want} (port : Nat) (f : HmsFrame) (s : State) (hs : Sound qs s) :
    OutK qs (execData port f s) := by
  unfold execData
  repeat' (first
    | with_reducible assumption
    | with_reducible apply outK_fault
    | with_reducible apply outK_refused
    | with_reducible apply outK_next
    | with_reducible apply sound_answerIn
    | with_reducible apply sound_reqDone
    | with_reducible apply sound_flowAdvance
    | (refine OutK.elim (by assumption) ?_)
    | extract_lets
    | simp -zeta only [pairK_iff, pair3K_iff, fstK_iff, midK_iff]
    | simp -zeta only []
    | split
    | (with_reducible apply sound_ite)
    | (rename_i y; subst y)
    | (rename_i y _; subst y)
    | (rename_i y _ _; subst y)
    | (rename_i y _ _ _; subst y)
    | (rename_i y _ _ _ _; subst y)
    | (rename_i y _ _ _ _ _; subst y)
    | (rename_i y _ _ _ _ _ _; subst y)
    | (rename_i y _ _ _ _ _ _ _; subst y)
    | (rename_i y _ _ _ _ _ _ _ _; subst y)
    | intro _)

theorem sound_execAck {qs : Want} (port : Nat) (f : HmsFrame) (s : State) (hs : Sound qs s) :
    OutK qs (execAck port f s) := by
  unfold execAck
  repeat' (first
    | with_reducible assumption
    | with_reducible apply outK_fault
    | with_reducible apply outK_refused
    | with_reducible apply outK_next
    | with_reducible apply sound_answerIn
    | with_reducible apply sound_reqDone
    | with_reducible apply sound_flowAdvance
    | (with_reducible apply sound_foldl; intro _ _ _)
    | (with_reducible apply pairK_foldl; intro _ _ _)
    | (with_reducible apply PairK.snd; with_reducible apply pairK_foldl; intro _ _ _)
    | (with_reducible apply fstK_foldl; intro _ _ _)
    | (with_reducible apply FstK.snd; with_reducible apply fstK_foldl; intro _ _ _)
    | (refine OutK.elim (by assumption) ?_)
    | extract_lets
    | simp -zeta only [pairK_iff, pair3K_iff, fstK_iff, midK_iff]
    | simp -zeta only []
    | split
    | (with_reducible apply sound_ite)
    | (rename_i y; subst y)
    | (rename_i y _; subst y)
    | (rename_i y _ _; subst y)
    | (rename_i y _ _ _; subst y)
    | (rename_i y _ _ _ _; subst y)
    | (rename_i y _ _ _ _ _; subst y)
    | (rename_i y _ _ _ _ _ _; subst y)
    | (rename_i y _ _ _ _ _ _ _; subst y)
    | (rename_i y _ _ _ _ _ _ _ _; subst y)
    | intro _)

theorem sound_execNak {qs : Want} (port : Nat) (f : HmsFrame) (s : State) (hs : Sound qs s) :
    OutK qs (execNak port f s) := by
  unfold execNak
  repeat' (first
    | with_reducible assumption
    | with_reducible apply outK_fault
    | with_reducible apply outK_refused
    | with_reducible apply outK_next
    | with_reducible apply sound_incP
    | with_reducible apply sound_failSnap
    | with_reducible apply sound_dmaProgFault
    | with_reducible apply sound_answerIn
    | with_reducible apply sound_flowAdvance
    | (refine OutK.elim (by assumption) ?_)
    | extract_lets
    | simp -zeta only [pairK_iff, pair3K_iff, fstK_iff, midK_iff]
    | simp -zeta only []
    | split
    | (with_reducible apply sound_ite)
    | (rename_i y; subst y)
    | (rename_i y _; subst y)
    | (rename_i y _ _; subst y)
    | (rename_i y _ _ _; subst y)
    | (rename_i y _ _ _ _; subst y)
    | (rename_i y _ _ _ _ _; subst y)
    | (rename_i y _ _ _ _ _ _; subst y)
    | (rename_i y _ _ _ _ _ _ _; subst y)
    | (rename_i y _ _ _ _ _ _ _ _; subst y)
    | intro _)

theorem sound_giveUp {qs : Want} (s : State) (fl rounds : Nat) (hs : Sound qs s) :
    Sound qs (giveUp s fl rounds) := by
  unfold giveUp
  repeat' (first
    | with_reducible assumption
    | with_reducible apply sound_setFlow
    | with_reducible apply sound_failSnap
    | with_reducible apply sound_portLost
    | (with_reducible apply sound_foldl; intro _ _ _)
    | (with_reducible apply pairK_foldl; intro _ _ _)
    | (with_reducible apply PairK.snd; with_reducible apply pairK_foldl; intro _ _ _)
    | (with_reducible apply fstK_foldl; intro _ _ _)
    | (with_reducible apply FstK.snd; with_reducible apply fstK_foldl; intro _ _ _)
    | extract_lets
    | simp -zeta only [pairK_iff, pair3K_iff, fstK_iff, midK_iff]
    | simp -zeta only [sound_mk_iff]
    | simp -zeta only []
    | split)

theorem sound_execHmsResendTimeout {qs : Want} (fl : Nat) (s : State) (hs : Sound qs s) :
    OutK qs (execHmsResendTimeout fl s) := by
  unfold execHmsResendTimeout
  repeat' (first
    | with_reducible assumption
    | with_reducible apply outK_fault
    | with_reducible apply outK_refused
    | with_reducible apply outK_next
    | with_reducible apply sound_incP
    | with_reducible apply sound_setFlow
    | with_reducible apply sound_emitReq
    | with_reducible apply sound_toNs
    | with_reducible apply sound_giveUp
    | (with_reducible apply sound_foldl; intro _ _ _)
    | (with_reducible apply pairK_foldl; intro _ _ _)
    | (with_reducible apply PairK.snd; with_reducible apply pairK_foldl; intro _ _ _)
    | (with_reducible apply fstK_foldl; intro _ _ _)
    | (with_reducible apply FstK.snd; with_reducible apply fstK_foldl; intro _ _ _)
    | extract_lets
    | simp -zeta only [pairK_iff, pair3K_iff, fstK_iff, midK_iff]
    | simp -zeta only [sound_mk_iff]
    | simp -zeta only []
    | split)

end Sys2Proof.Machine
end

