-- ==== Sys2Proof/Laws/SoundPorts.lean ====
section
/-!
SUPPORT. The operations of Ports.lean keep memory and marks canonical and leave the queue alone.
-/
set_option linter.unusedSimpArgs false
set_option linter.unusedVariables false

namespace Sys2Proof.Machine

theorem sound_rxOk {qs : Want} (s : State) (port : Nat) (hs : Sound qs s) :
    Sound qs (rxOk s port) := by
  unfold rxOk
  repeat' (first
    | with_reducible assumption
    | with_reducible apply sound_incP
    | split)

theorem sound_rxDrop {qs : Want} (s : State) (port : Nat) (hs : Sound qs s) :
    Sound qs (rxDrop s port) := by
  unfold rxDrop
  repeat' (first
    | with_reducible assumption
    | with_reducible apply sound_incP
    | split)

theorem sound_pumpPort {qs : Want} (s : State) (port : Nat) (hs : Sound qs s) :
    Sound qs (pumpPort s port) := by
  unfold pumpPort
  repeat' (first
    | with_reducible assumption
    | with_reducible apply sound_pumpFlow
    | (with_reducible apply sound_foldl; intro _ _ _)
    | (with_reducible apply pairK_foldl; intro _ _ _)
    | (with_reducible apply PairK.snd; with_reducible apply pairK_foldl; intro _ _ _)
    | (with_reducible apply fstK_foldl; intro _ _ _)
    | (with_reducible apply FstK.snd; with_reducible apply fstK_foldl; intro _ _ _)
    | simp -zeta only [pairK_iff, pair3K_iff, fstK_iff, midK_iff]
    | simp -zeta only []
    | split)

theorem sound_execPfcFrame {qs : Want} (port prio quanta : Nat) (s : State) (hs : Sound qs s) :
    OutK qs (execPfcFrame port prio quanta s) := by
  unfold execPfcFrame
  repeat' (first
    | with_reducible assumption
    | with_reducible apply outK_fault
    | with_reducible apply outK_refused
    | with_reducible apply outK_next
    | with_reducible apply sound_incP
    | with_reducible apply sound_setPort
    | with_reducible apply sound_rxOk
    | with_reducible apply sound_rxDrop
    | with_reducible apply sound_pumpPort
    | extract_lets
    | simp -zeta only [sound_mk_iff]
    | split)

theorem sound_execPfcPauseExpiry {qs : Want} (port prio : Nat) (s : State) (hs : Sound qs s) :
    OutK qs (execPfcPauseExpiry port prio s) := by
  unfold execPfcPauseExpiry
  repeat' (first
    | with_reducible assumption
    | with_reducible apply outK_fault
    | with_reducible apply outK_refused
    | with_reducible apply outK_next
    | with_reducible apply sound_setPort
    | with_reducible apply sound_toNs
    | with_reducible apply sound_pumpPort
    | extract_lets
    | simp -zeta only [sound_mk_iff]
    | split)

theorem sound_execArpRequest {qs : Want} (port ip : Nat) (mac : Eth) (s : State) (hs : Sound qs s) :
    OutK qs (execArpRequest port ip mac s) := by
  unfold execArpRequest
  repeat' (first
    | with_reducible assumption
    | with_reducible apply outK_fault
    | with_reducible apply outK_refused
    | with_reducible apply outK_next
    | with_reducible apply sound_emit
    | with_reducible apply sound_rxOk
    | with_reducible apply sound_rxDrop
    | split)

theorem sound_execNeighbourSolicitation {qs : Want} (port ip : Nat) (mac : Eth) (s : State) (hs : Sound qs s) :
    OutK qs (execNeighbourSolicitation port ip mac s) := by
  unfold execNeighbourSolicitation
  repeat' (first
    | with_reducible assumption
    | with_reducible apply outK_fault
    | with_reducible apply outK_refused
    | with_reducible apply outK_next
    | with_reducible apply sound_emit
    | with_reducible apply sound_rxOk
    | with_reducible apply sound_rxDrop
    | split)

theorem sound_execDiscardedFrame {qs : Want} (port : Nat) (why : DropReason) (s : State) (hs : Sound qs s) :
    OutK qs (execDiscardedFrame port why s) := by
  unfold execDiscardedFrame
  repeat' (first
    | with_reducible assumption
    | with_reducible apply outK_fault
    | with_reducible apply outK_refused
    | with_reducible apply outK_next
    | with_reducible apply sound_incP
    | with_reducible apply sound_rxDrop
    | split)

theorem sound_setLink {qs : Want} (s : State) (port v : Nat) (hs : Sound qs s) :
    Sound qs (setLink s port v) := by
  unfold setLink
  repeat' (first
    | with_reducible assumption
    | with_reducible apply sound_setP
    | split)

theorem sound_linkUp {qs : Want} (s : State) (port : Nat) (hs : Sound qs s) :
    Sound qs (linkUp s port) := by
  unfold linkUp
  repeat' (first
    | with_reducible assumption
    | with_reducible apply sound_pumpPort
    | with_reducible apply sound_setLink
    | split)

theorem sound_execLinkLoss {qs : Want} (port : Nat) (s : State) (hs : Sound qs s) :
    OutK qs (execLinkLoss port s) := by
  unfold execLinkLoss
  repeat' (first
    | with_reducible assumption
    | with_reducible apply outK_fault
    | with_reducible apply outK_refused
    | with_reducible apply outK_next
    | with_reducible apply sound_incP
    | with_reducible apply sound_setPort
    | with_reducible apply sound_setLink
    | extract_lets
    | simp -zeta only [sound_mk_iff]
    | split)

theorem sound_execRetrainAttemptEnd {qs : Want} (port : Nat) (ok : Bool) (s : State) (hs : Sound qs s) :
    OutK qs (execRetrainAttemptEnd port ok s) := by
  unfold execRetrainAttemptEnd
  repeat' (first
    | with_reducible assumption
    | with_reducible apply outK_fault
    | with_reducible apply outK_refused
    | with_reducible apply outK_next
    | with_reducible apply sound_setPort
    | with_reducible apply sound_portLost
    | with_reducible apply sound_setLink
    | with_reducible apply sound_linkUp
    | extract_lets
    | simp -zeta only [sound_mk_iff]
    | split)

theorem sound_execPeriodicRetrain {qs : Want} (port : Nat) (ok : Bool) (s : State) (hs : Sound qs s) :
    OutK qs (execPeriodicRetrain port ok s) := by
  unfold execPeriodicRetrain
  repeat' (first
    | with_reducible assumption
    | with_reducible apply outK_fault
    | with_reducible apply outK_refused
    | with_reducible apply outK_next
    | with_reducible apply sound_linkUp
    | split)

theorem sound_execLinkTrainingEnd {qs : Want} (port : Nat) (ok : Bool) (s : State) (hs : Sound qs s) :
    OutK qs (execLinkTrainingEnd port ok s) := by
  unfold execLinkTrainingEnd
  repeat' (first
    | with_reducible assumption
    | with_reducible apply outK_fault
    | with_reducible apply outK_refused
    | with_reducible apply outK_next
    | with_reducible apply sound_setLink
    | with_reducible apply sound_linkUp
    | split)

theorem sound_writePortMode {qs : Want} (s : State) (port v : Nat) (hs : Sound qs s) :
    PairK qs (writePortMode s port v) := by
  unfold writePortMode
  repeat' (first
    | with_reducible assumption
    | with_reducible apply sound_setP
    | with_reducible apply sound_setPort
    | with_reducible apply sound_setLink
    | extract_lets
    | simp -zeta only [pairK_iff, pair3K_iff, fstK_iff, midK_iff]
    | simp -zeta only [sound_mk_iff]
    | simp -zeta only []
    | split)

theorem sound_execPortModeWrite {qs : Want} (port v : Nat) (s : State) (hs : Sound qs s) :
    OutK qs (execPortModeWrite port v s) := by
  unfold execPortModeWrite
  repeat' (first
    | with_reducible assumption
    | with_reducible apply outK_fault
    | with_reducible apply outK_refused
    | with_reducible apply outK_next
    | with_reducible apply sound_noParam
    | with_reducible apply sound_gated
    | with_reducible apply sound_writePortMode
    | (with_reducible apply PairK.snd; with_reducible apply sound_writePortMode)
    | (refine PairK.elim (by assumption) ?_)
    | extract_lets
    | simp -zeta only [pairK_iff, pair3K_iff, fstK_iff, midK_iff]
    | simp -zeta only []
    | split
    | (with_reducible apply sound_ite)
    | (rename_i y; subst y)
    | (rename_i y _; subst y)
    | (rename_i y _ _; subst y)
    | (rename_i y _ _ _; subst y)
    | (rename_i y _ _ _ _; subst y)
    | (rename_i y _ _ _ _ _; subst y)
    | (rename_i y _ _ _ _ _ _; subst y)
    | (rename_i y _ _ _ _ _ _ _; subst y)
    | (rename_i y _ _ _ _ _ _ _ _; subst y)
    | intro _)

theorem sound_slewNow {qs : Want} (s : State) (hs : Sound qs s) :
    Sound qs (slewNow s) := by
  unfold slewNow
  repeat' (first
    | with_reducible assumption
    | extract_lets
    | simp -zeta only [sound_mk_iff]
    | split)

theorem sound_applyOffset {qs : Want} (s : State) (off : Int) (hs : Sound qs s) :
    Sound qs (applyOffset s off) := by
  unfold applyOffset
  repeat' (first
    | with_reducible assumption
    | with_reducible apply sound_setP
    | with_reducible apply sound_incP
    | with_reducible apply sound_slewNow
    | extract_lets
    | simp -zeta only [sound_mk_iff]
    | split)

theorem sound_ptpSync {qs : Want} (s : State) (off : Int) (hs : Sound qs s) :
    Sound qs (ptpSync s off) := by
  unfold ptpSync
  repeat' (first
    | with_reducible assumption
    | with_reducible apply sound_setP
    | with_reducible apply sound_applyOffset
    | extract_lets
    | simp -zeta only [sound_mk_iff]
    | split)

theorem sound_execPtpMessage {qs : Want} (port domain : Nat) (m : PtpMsg) (s : State) (hs : Sound qs s) :
    OutK qs (execPtpMessage port domain m s) := by
  unfold execPtpMessage
  repeat' (first
    | with_reducible assumption
    | with_reducible apply outK_fault
    | with_reducible apply outK_refused
    | with_reducible apply outK_next
    | with_reducible apply sound_rxOk
    | with_reducible apply sound_rxDrop
    | with_reducible apply sound_ptpSync
    | with_reducible apply sound_announce
    | extract_lets
    | simp -zeta only [sound_mk_iff]
    | split)

theorem sound_execPtp1ppsEdge {qs : Want} (s : State) (hs : Sound qs s) :
    OutK qs (execPtp1ppsEdge s) := by
  unfold execPtp1ppsEdge
  repeat' (first
    | with_reducible assumption
    | with_reducible apply outK_fault
    | with_reducible apply outK_refused
    | with_reducible apply outK_next
    | with_reducible apply sound_incP
    | with_reducible apply sound_slewNow
    | with_reducible apply sound_applyOffset
    | extract_lets
    | simp -zeta only [sound_mk_iff]
    | split)

theorem sound_execPtpHoldover {qs : Want} (s : State) (hs : Sound qs s) :
    OutK qs (execPtpHoldover s) := by
  unfold execPtpHoldover
  repeat' (first
    | with_reducible assumption
    | with_reducible apply outK_fault
    | with_reducible apply outK_refused
    | with_reducible apply outK_next
    | with_reducible apply sound_setP
    | with_reducible apply sound_toNs
    | extract_lets
    | simp -zeta only [sound_mk_iff]
    | split)

theorem sound_execBoundaryScan {qs : Want} (tms tdi trst : Bool) (pins : Nat) (s : State) (hs : Sound qs s) :
    OutK qs (execBoundaryScan tms tdi trst pins s) := by
  unfold execBoundaryScan
  repeat' (first
    | with_reducible assumption
    | with_reducible apply outK_fault
    | with_reducible apply outK_refused
    | with_reducible apply outK_next
    | simp -zeta only [sound_mk_iff]
    | split)

end Sys2Proof.Machine
end

