-- ==== Sys2Proof/Laws/SoundWire.lean ====
section
/-!
SUPPORT. The operations of Wire.lean keep memory and marks canonical and leave the queue alone.
-/
set_option linter.unusedSimpArgs false
set_option linter.unusedVariables false

namespace Sys2Proof.Machine

theorem sound_readRuns {qs : Want}  : ∀ (x0 : List (Nat × Nat)) (d base : Nat) (x1 : State), Sound qs x1 →
    PairK qs (readRuns d base x0 x1) := by
  intro x0
  induction x0 with
  | nil => (intros; unfold readRuns; first | assumption | (with_reducible apply pairK_mk; assumption) | (with_reducible apply pair3K_mk; assumption))
  | cons x0 xr ih => (
  intros
  unfold readRuns
  repeat' (first
    | with_reducible assumption
    | with_reducible apply ih
    | (with_reducible apply PairK.snd; with_reducible apply ih)
    | with_reducible apply sound_vread
    | (with_reducible apply Pair3K.snd; with_reducible apply sound_vread)
    | (refine PairK.elim (by assumption) ?_)
    | (refine FstK.elim (by assumption) ?_)
    | (refine Pair3K.elim (by assumption) ?_)
    | extract_lets
    | simp -zeta only [pairK_iff, pair3K_iff, fstK_iff, midK_iff]
    | simp -zeta only []
    | split))

theorem sound_readBlocks {qs : Want}  : ∀ (x0 : Nat) (d fmt base lo hi : Nat) (x1 : State), Sound qs x1 →
    PairK qs (readBlocks d fmt base lo hi x0 x1) := by
  intro x0
  induction x0 with
  | zero => (intros; unfold readBlocks; first | assumption | (with_reducible apply pairK_mk; assumption) | (with_reducible apply pair3K_mk; assumption))
  | succ x0 ih => (
  intros
  unfold readBlocks
  repeat' (first
    | with_reducible assumption
    | with_reducible apply ih
    | (with_reducible apply PairK.snd; with_reducible apply ih)
    | with_reducible apply sound_readRuns
    | (with_reducible apply PairK.snd; with_reducible apply sound_readRuns)
    | (refine PairK.elim (by assumption) ?_)
    | (refine FstK.elim (by assumption) ?_)
    | extract_lets
    | simp -zeta only [pairK_iff, pair3K_iff, fstK_iff, midK_iff]
    | simp -zeta only []
    | split))

theorem sound_putRuns {qs : Want}  : ∀ (x0 : List (Nat × List PByte)) (d base born : Nat) (x1 : State), Sound qs x1 →
    PairK qs (putRuns d base born x0 x1) := by
  intro x0
  induction x0 with
  | nil => (intros; unfold putRuns; first | assumption | (with_reducible apply pairK_mk; assumption) | (with_reducible apply pair3K_mk; assumption))
  | cons x0 xr ih => (
  intros
  unfold putRuns
  repeat' (first
    | with_reducible assumption
    | with_reducible apply ih
    | (with_reducible apply PairK.snd; with_reducible apply ih)
    | with_reducible apply sound_vwrite
    | (with_reducible apply PairK.snd; with_reducible apply sound_vwrite)
    | (refine PairK.elim (by assumption) ?_)
    | simp -zeta only [pairK_iff, pair3K_iff, fstK_iff, midK_iff]
    | split))

theorem sound_writeBlocks {qs : Want} (d fmt base born : Nat) (bs : List (Nat × List (Nat × Bool))) (s : State) (hs : Sound qs s) :
    PairK qs (writeBlocks d fmt base born bs s) := by
  unfold writeBlocks
  repeat' (first
    | with_reducible assumption
    | with_reducible apply sound_incP
    | with_reducible apply sound_putRuns
    | (with_reducible apply PairK.snd; with_reducible apply sound_putRuns)
    | (refine PairK.elim (by assumption) ?_)
    | extract_lets
    | simp -zeta only [pairK_iff, pair3K_iff, fstK_iff, midK_iff]
    | simp -zeta only []
    | split)

theorem sound_pageBad {qs : Want} (d base n : Nat) (write : Bool) (s : State) (hs : Sound qs s) :
    PairK qs (pageBad d base n write s) := by
  unfold pageBad
  repeat' (first
    | with_reducible assumption
    | with_reducible apply sound_translate
    | (with_reducible apply PairK.snd; with_reducible apply sound_translate)
    | (with_reducible apply sound_foldl; intro _ _ _)
    | (with_reducible apply pairK_foldl; intro _ _ _)
    | (with_reducible apply PairK.snd; with_reducible apply pairK_foldl; intro _ _ _)
    | (with_reducible apply fstK_foldl; intro _ _ _)
    | (with_reducible apply FstK.snd; with_reducible apply fstK_foldl; intro _ _ _)
    | (refine PairK.elim (by assumption) ?_)
    | simp -zeta only [pairK_iff, pair3K_iff, fstK_iff, midK_iff]
    | simp -zeta only []
    | split)

end Sys2Proof.Machine
end

