-- ==== Sys2Proof/Laws/SoundHerd.lean ====
section
/-!
SUPPORT. The operations of Herd.lean keep memory and marks canonical and leave the queue alone.
-/
set_option linter.unusedSimpArgs false
set_option linter.unusedVariables false

namespace Sys2Proof.Machine

theorem sound_collFault {qs : Want} (s : State) (c code d0 d1 : Nat) (hs : Sound qs s) :
    Sound qs (collFault s c code d0 d1) := by
  unfold collFault
  repeat' (first
    | with_reducible assumption
    | with_reducible apply sound_raise
    | extract_lets
    | simp -zeta only [sound_mk_iff]
    | split)

theorem sound_descFault {qs : Want} (s : State) (c code : Nat) (hs : Sound qs s) :
    Sound qs (descFault s c code) := by
  unfold descFault
  repeat' (first
    | with_reducible assumption
    | with_reducible apply sound_freeBits
    | (with_reducible apply PairK.snd; with_reducible apply sound_freeBits)
    | with_reducible apply sound_collFault
    | (refine PairK.elim (by assumption) ?_)
    | (refine FstK.elim (by assumption) ?_)
    | extract_lets
    | simp -zeta only [pairK_iff, pair3K_iff, fstK_iff, midK_iff]
    | simp -zeta only []
    | split)

theorem sound_writeFinal {qs : Want} (s : State) (c : Nat) (bs : List (Nat × WBlock)) (hs : Sound qs s) :
    Sound qs (writeFinal s c bs) := by
  unfold writeFinal
  repeat' (first
    | with_reducible assumption
    | with_reducible apply sound_incP
    | with_reducible apply sound_writeBlocks
    | (with_reducible apply PairK.snd; with_reducible apply sound_writeBlocks)
    | with_reducible apply sound_descFault
    | (refine PairK.elim (by assumption) ?_)
    | extract_lets
    | simp -zeta only [pairK_iff, pair3K_iff, fstK_iff, midK_iff]
    | simp -zeta only []
    | split)

theorem sound_countPromos {qs : Want} (s : State) (c n : Nat) (hs : Sound qs s) :
    Sound qs (countPromos s c n) := by
  unfold countPromos
  repeat' (first
    | with_reducible assumption
    | with_reducible apply sound_incP
    | with_reducible apply sound_setColl
    | with_reducible apply sound_collFault
    | extract_lets
    | simp -zeta only [sound_mk_iff]
    | split)

theorem sound_encSum {qs : Want} (s : State) (c : Nat) (bs : List Nat) (hs : Sound qs s) :
    PairK qs (encSum s c bs) := by
  unfold encSum
  repeat' (first
    | with_reducible assumption
    | with_reducible apply sound_countPromos
    | extract_lets
    | simp -zeta only [pairK_iff, pair3K_iff, fstK_iff, midK_iff]
    | simp -zeta only []
    | split)

theorem sound_keepFinal {qs : Want} (s : State) (c : Nat) (bs : List (Nat × WBlock)) (hs : Sound qs s) :
    Sound qs (keepFinal s c bs) := by
  unfold keepFinal
  repeat' (first
    | with_reducible assumption
    | with_reducible apply sound_setColl
    | (with_reducible apply sound_foldl; intro _ _ _)
    | (with_reducible apply pairK_foldl; intro _ _ _)
    | (with_reducible apply PairK.snd; with_reducible apply pairK_foldl; intro _ _ _)
    | (with_reducible apply fstK_foldl; intro _ _ _)
    | (with_reducible apply FstK.snd; with_reducible apply fstK_foldl; intro _ _ _)
    | extract_lets
    | simp -zeta only [pairK_iff, pair3K_iff, fstK_iff, midK_iff]
    | simp -zeta only [sound_mk_iff]
    | simp -zeta only []
    | split)

theorem sound_finalise {qs : Want} (s : State) (c : Nat) (bs : List Nat) (hs : Sound qs s) :
    Sound qs (finalise s c bs) := by
  unfold finalise
  repeat' (first
    | with_reducible assumption
    | with_reducible apply sound_writeFinal
    | with_reducible apply sound_encSum
    | (with_reducible apply PairK.snd; with_reducible apply sound_encSum)
    | with_reducible apply sound_keepFinal
    | (refine PairK.elim (by assumption) ?_)
    | (refine FstK.elim (by assumption) ?_)
    | extract_lets
    | simp -zeta only [pairK_iff, pair3K_iff, fstK_iff, midK_iff]
    | simp -zeta only []
    | split)

theorem sound_setSum {qs : Want} (s : State) (c : Nat) (bs : List (Nat × SBlock)) (hs : Sound qs s) :
    Sound qs (setSum s c bs) := by
  unfold setSum
  repeat' (first
    | with_reducible assumption
    | with_reducible apply sound_setColl
    | (with_reducible apply sound_foldl; intro _ _ _)
    | (with_reducible apply pairK_foldl; intro _ _ _)
    | (with_reducible apply PairK.snd; with_reducible apply pairK_foldl; intro _ _ _)
    | (with_reducible apply fstK_foldl; intro _ _ _)
    | (with_reducible apply FstK.snd; with_reducible apply fstK_foldl; intro _ _ _)
    | extract_lets
    | simp -zeta only [pairK_iff, pair3K_iff, fstK_iff, midK_iff]
    | simp -zeta only [sound_mk_iff]
    | simp -zeta only []
    | split)

theorem sound_combineKids {qs : Want} (s : State) (c : Nat) (hs : Sound qs s) :
    Sound qs (combineKids s c) := by
  unfold combineKids
  repeat' (first
    | with_reducible assumption
    | with_reducible apply sound_countNan
    | with_reducible apply sound_writeFinal
    | with_reducible apply sound_countPromos
    | with_reducible apply sound_keepFinal
    | with_reducible apply sound_finalise
    | with_reducible apply sound_setSum
    | extract_lets
    | simp -zeta only [pairK_iff, pair3K_iff, fstK_iff, midK_iff]
    | simp -zeta only []
    | split)

theorem sound_useBlocks {qs : Want} (s : State) (c : Nat) (t : TakeLeg) (ws : List (Nat × WBlock)) (hs : Sound qs s) :
    Sound qs (useBlocks s c t ws) := by
  unfold useBlocks
  repeat' (first
    | with_reducible assumption
    | with_reducible apply sound_countNan
    | with_reducible apply sound_setColl
    | with_reducible apply sound_writeFinal
    | with_reducible apply sound_keepFinal
    | with_reducible apply sound_finalise
    | with_reducible apply sound_setSum
    | with_reducible apply sound_combineKids
    | extract_lets
    | simp -zeta only [pairK_iff, pair3K_iff, fstK_iff, midK_iff]
    | simp -zeta only [sound_mk_iff]
    | simp -zeta only []
    | split)

theorem sound_freeStaging {qs : Want} (s : State) (c : Nat) (hs : Sound qs s) :
    Sound qs (freeStaging s c) := by
  unfold freeStaging
  repeat' (first
    | with_reducible assumption
    | with_reducible apply sound_releasePauses
    | split)

theorem sound_dropCopy {qs : Want} (s : State) (c : Nat) (k : HeldCopy) (hs : Sound qs s) :
    Sound qs (dropCopy s c k) := by
  unfold dropCopy
  repeat' (first
    | with_reducible assumption
    | with_reducible apply sound_setColl
    | with_reducible apply sound_freeStaging
    | extract_lets
    | simp -zeta only [pairK_iff, pair3K_iff, fstK_iff, midK_iff]
    | simp -zeta only [sound_mk_iff]
    | simp -zeta only []
    | split)

theorem sound_takeCopy {qs : Want} (s : State) (c : Nat) (t : TakeLeg) (k : HeldCopy) (hs : Sound qs s) :
    Sound qs (takeCopy s c t k) := by
  unfold takeCopy
  repeat' (first
    | with_reducible assumption
    | with_reducible apply sound_setP
    | with_reducible apply sound_incP
    | with_reducible apply sound_setColl
    | with_reducible apply sound_collFault
    | with_reducible apply sound_useBlocks
    | with_reducible apply sound_dropCopy
    | extract_lets
    | simp -zeta only [pairK_iff, pair3K_iff, fstK_iff, midK_iff]
    | simp -zeta only [sound_mk_iff]
    | simp -zeta only []
    | split)

theorem sound_checkCopy {qs : Want} (s : State) (c : Nat) (t : TakeLeg) (k : HeldCopy) (hs : Sound qs s) :
    Sound qs (checkCopy s c t k) := by
  unfold checkCopy
  repeat' (first
    | with_reducible assumption
    | with_reducible apply sound_incP
    | with_reducible apply sound_setColl
    | with_reducible apply sound_collFault
    | with_reducible apply sound_dropCopy
    | extract_lets
    | simp -zeta only [pairK_iff, pair3K_iff, fstK_iff, midK_iff]
    | simp -zeta only [sound_mk_iff]
    | simp -zeta only []
    | split)

theorem sound_selectCopy {qs : Want} (s : State) (c : Nat) (t : TakeLeg) (hs : Sound qs s) :
    Sound qs (selectCopy s c t) := by
  unfold selectCopy
  repeat' (first
    | with_reducible assumption
    | with_reducible apply sound_incP
    | with_reducible apply sound_dropCopy
    | with_reducible apply sound_takeCopy
    | with_reducible apply sound_checkCopy
    | (with_reducible apply sound_foldl; intro _ _ _)
    | (with_reducible apply pairK_foldl; intro _ _ _)
    | (with_reducible apply PairK.snd; with_reducible apply pairK_foldl; intro _ _ _)
    | (with_reducible apply fstK_foldl; intro _ _ _)
    | (with_reducible apply FstK.snd; with_reducible apply fstK_foldl; intro _ _ _)
    | extract_lets
    | simp -zeta only [pairK_iff, pair3K_iff, fstK_iff, midK_iff]
    | simp -zeta only []
    | split)

theorem sound_selectAll {qs : Want} (s : State) (c : Nat) (hs : Sound qs s) :
    Sound qs (selectAll s c) := by
  unfold selectAll
  repeat' (first
    | with_reducible assumption
    | with_reducible apply sound_selectCopy
    | (with_reducible apply sound_foldl; intro _ _ _)
    | (with_reducible apply pairK_foldl; intro _ _ _)
    | (with_reducible apply PairK.snd; with_reducible apply pairK_foldl; intro _ _ _)
    | (with_reducible apply fstK_foldl; intro _ _ _)
    | (with_reducible apply FstK.snd; with_reducible apply fstK_foldl; intro _ _ _)
    | simp -zeta only [pairK_iff, pair3K_iff, fstK_iff, midK_iff]
    | simp -zeta only []
    | split)

theorem sound_endColl {qs : Want} (s : State) (c : Nat) (ran : Bool) (hs : Sound qs s) :
    Sound qs (endColl s c ran) := by
  unfold endColl
  repeat' (first
    | with_reducible assumption
    | with_reducible apply sound_setP
    | with_reducible apply sound_sendIncr
    | with_reducible apply sound_setColl
    | with_reducible apply sound_freeStaging
    | (refine PairK.elim (by assumption) ?_)
    | (refine FstK.elim (by assumption) ?_)
    | extract_lets
    | simp -zeta only [pairK_iff, pair3K_iff, fstK_iff, midK_iff]
    | simp -zeta only [sound_mk_iff]
    | simp -zeta only []
    | split)

theorem sound_runQinit {qs : Want} (s : State) (c : Nat) (hs : Sound qs s) :
    Sound qs (runQinit s c) := by
  unfold runQinit
  repeat' (first
    | with_reducible assumption
    | with_reducible apply sound_writeBlocks
    | (with_reducible apply PairK.snd; with_reducible apply sound_writeBlocks)
    | with_reducible apply sound_descFault
    | (refine PairK.elim (by assumption) ?_)
    | extract_lets
    | simp -zeta only [pairK_iff, pair3K_iff, fstK_iff, midK_iff]
    | simp -zeta only []
    | split)

theorem sound_loadSource {qs : Want} (s : State) (c : Nat) (hs : Sound qs s) :
    Sound qs (loadSource s c) := by
  unfold loadSource
  repeat' (first
    | with_reducible assumption
    | with_reducible apply sound_countNan
    | with_reducible apply sound_setColl
    | with_reducible apply sound_readBlocks
    | (with_reducible apply PairK.snd; with_reducible apply sound_readBlocks)
    | (with_reducible apply sound_foldl; intro _ _ _)
    | (with_reducible apply pairK_foldl; intro _ _ _)
    | (with_reducible apply PairK.snd; with_reducible apply pairK_foldl; intro _ _ _)
    | (with_reducible apply fstK_foldl; intro _ _ _)
    | (with_reducible apply FstK.snd; with_reducible apply fstK_foldl; intro _ _ _)
    | (refine PairK.elim (by assumption) ?_)
    | (refine FstK.elim (by assumption) ?_)
    | extract_lets
    | simp -zeta only [pairK_iff, pair3K_iff, fstK_iff, midK_iff]
    | simp -zeta only [sound_mk_iff]
    | simp -zeta only []
    | split)

theorem sound_originate {qs : Want} (s : State) (c : Nat) (hs : Sound qs s) :
    Sound qs (originate s c) := by
  unfold originate
  repeat' (first
    | with_reducible assumption
    | with_reducible apply sound_writeFinal
    | with_reducible apply sound_encSum
    | (with_reducible apply PairK.snd; with_reducible apply sound_encSum)
    | with_reducible apply sound_keepFinal
    | with_reducible apply sound_finalise
    | with_reducible apply sound_setSum
    | with_reducible apply sound_combineKids
    | (refine PairK.elim (by assumption) ?_)
    | (refine FstK.elim (by assumption) ?_)
    | extract_lets
    | simp -zeta only [pairK_iff, pair3K_iff, fstK_iff, midK_iff]
    | simp -zeta only []
    | split)

theorem sound_readDesc {qs : Want} (s : State) (d va : Nat) (hs : Sound qs s) :
    PairK qs (readDesc s d va) := by
  unfold readDesc
  repeat' (first
    | with_reducible assumption
    | with_reducible apply sound_chargeWalk
    | with_reducible apply sound_translate
    | (with_reducible apply PairK.snd; with_reducible apply sound_translate)
    | (refine PairK.elim (by assumption) ?_)
    | extract_lets
    | simp -zeta only [pairK_iff, pair3K_iff, fstK_iff, midK_iff]
    | split)

theorem sound_descCheck {qs : Want} (s : State) (x : Cvc) (d : Nat) (hs : Sound qs s) :
    PairK qs (descCheck s x d) := by
  unfold descCheck
  repeat' (first
    | with_reducible assumption
    | with_reducible apply sound_pageBad
    | (with_reducible apply PairK.snd; with_reducible apply sound_pageBad)
    | (refine PairK.elim (by assumption) ?_)
    | (refine FstK.elim (by assumption) ?_)
    | extract_lets
    | simp -zeta only [pairK_iff, pair3K_iff, fstK_iff, midK_iff]
    | simp -zeta only []
    | split)

theorem sound_beginColl {qs : Want} (s : State) (c desc : Nat) (hs : Sound qs s) :
    Sound qs (beginColl s c desc) := by
  unfold beginColl
  repeat' (first
    | with_reducible assumption
    | with_reducible apply sound_setP
    | with_reducible apply sound_setColl
    | with_reducible apply sound_selectAll
    | with_reducible apply sound_endColl
    | with_reducible apply sound_runQinit
    | with_reducible apply sound_loadSource
    | with_reducible apply sound_originate
    | extract_lets
    | simp -zeta only [sound_mk_iff]
    | split)

theorem sound_execCollectiveStart {qs : Want} (c : Nat) (s : State) (hs : Sound qs s) :
    OutK qs (execCollectiveStart c s) := by
  unfold execCollectiveStart
  repeat' (first
    | with_reducible assumption
    | with_reducible apply outK_fault
    | with_reducible apply outK_refused
    | with_reducible apply outK_next
    | with_reducible apply sound_toDcc
    | with_reducible apply sound_descFault
    | with_reducible apply sound_readDesc
    | (with_reducible apply PairK.snd; with_reducible apply sound_readDesc)
    | with_reducible apply sound_descCheck
    | (with_reducible apply PairK.snd; with_reducible apply sound_descCheck)
    | with_reducible apply sound_beginColl
    | (refine OptK.elim (by assumption) ?_)
    | (refine PairK.elim (by assumption) ?_)
    | extract_lets
    | split)

theorem sound_execCollectiveComplete {qs : Want} (c : Nat) (s : State) (hs : Sound qs s) :
    OutK qs (execCollectiveComplete c s) := by
  unfold execCollectiveComplete
  repeat' (first
    | with_reducible assumption
    | with_reducible apply outK_fault
    | with_reducible apply outK_refused
    | with_reducible apply outK_next
    | with_reducible apply sound_selectAll
    | with_reducible apply sound_endColl
    | split)

theorem sound_sendBlocks {qs : Want} (s : State) (c : Nat) (g : SendLeg) (hs : Sound qs s) :
    PairK qs (sendBlocks s c g) := by
  unfold sendBlocks
  repeat' (first
    | with_reducible assumption
    | with_reducible apply sound_encSum
    | (with_reducible apply PairK.snd; with_reducible apply sound_encSum)
    | (refine PairK.elim (by assumption) ?_)
    | extract_lets
    | simp -zeta only [pairK_iff, pair3K_iff, fstK_iff, midK_iff]
    | simp -zeta only []
    | split)

theorem sound_emitHop {qs : Want} (s : State) (c : Nat) (g : SendLeg) (bs : List (Nat × WBlock)) (hs : Sound qs s) :
    Sound qs (emitHop s c g bs) := by
  unfold emitHop
  repeat' (first
    | with_reducible assumption
    | with_reducible apply sound_emit
    | (with_reducible apply sound_foldl; intro _ _ _)
    | (with_reducible apply pairK_foldl; intro _ _ _)
    | (with_reducible apply PairK.snd; with_reducible apply pairK_foldl; intro _ _ _)
    | (with_reducible apply fstK_foldl; intro _ _ _)
    | (with_reducible apply FstK.snd; with_reducible apply fstK_foldl; intro _ _ _)
    | extract_lets
    | simp -zeta only [pairK_iff, pair3K_iff, fstK_iff, midK_iff]
    | simp -zeta only [sound_mk_iff]
    | simp -zeta only []
    | split)

theorem sound_execCollectiveHopSend {qs : Want} (c : Nat) (s : State) (hs : Sound qs s) :
    OutK qs (execCollectiveHopSend c s) := by
  unfold execCollectiveHopSend
  repeat' (first
    | with_reducible assumption
    | with_reducible apply outK_fault
    | with_reducible apply outK_refused
    | with_reducible apply outK_next
    | with_reducible apply sound_incP
    | with_reducible apply sound_freeBits
    | (with_reducible apply PairK.snd; with_reducible apply sound_freeBits)
    | with_reducible apply sound_setColl
    | with_reducible apply sound_collFault
    | with_reducible apply sound_sendBlocks
    | (with_reducible apply PairK.snd; with_reducible apply sound_sendBlocks)
    | with_reducible apply sound_emitHop
    | (refine PairK.elim (by assumption) ?_)
    | (refine FstK.elim (by assumption) ?_)
    | extract_lets
    | simp -zeta only [pairK_iff, pair3K_iff, fstK_iff, midK_iff]
    | simp -zeta only [sound_mk_iff]
    | simp -zeta only []
    | split)

theorem sound_stageFrame {qs : Want} (s : State) (port : Nat) (f : HerdFrame) (hs : Sound qs s) :
    Sound qs (stageFrame s port f) := by
  unfold stageFrame
  repeat' (first
    | with_reducible assumption
    | with_reducible apply sound_setColl
    | extract_lets
    | simp -zeta only [sound_mk_iff]
    | split)

theorem sound_pauseStaging {qs : Want} (s : State) (port c : Nat) (hs : Sound qs s) :
    Sound qs (pauseStaging s port c) := by
  unfold pauseStaging
  repeat' (first
    | with_reducible assumption
    | with_reducible apply sound_sendPfc
    | with_reducible apply sound_setColl
    | extract_lets
    | simp -zeta only [sound_mk_iff]
    | split)

theorem sound_execHerdFrame {qs : Want} (port : Nat) (f : HerdFrame) (s : State) (hs : Sound qs s) :
    OutK qs (execHerdFrame port f s) := by
  unfold execHerdFrame
  repeat' (first
    | with_reducible assumption
    | with_reducible apply outK_fault
    | with_reducible apply outK_refused
    | with_reducible apply outK_next
    | with_reducible apply sound_setP
    | with_reducible apply sound_incP
    | with_reducible apply sound_rxOk
    | with_reducible apply sound_selectAll
    | with_reducible apply sound_stageFrame
    | with_reducible apply sound_pauseStaging
    | extract_lets
    | simp -zeta only [pairK_iff, pair3K_iff, fstK_iff, midK_iff]
    | simp -zeta only []
    | split
    | (with_reducible apply sound_ite)
    | (rename_i y; subst y)
    | (rename_i y _; subst y)
    | (rename_i y _ _; subst y)
    | (rename_i y _ _ _; subst y)
    | (rename_i y _ _ _ _; subst y)
    | (rename_i y _ _ _ _ _; subst y)
    | (rename_i y _ _ _ _ _ _; subst y)
    | (rename_i y _ _ _ _ _ _ _; subst y)
    | (rename_i y _ _ _ _ _ _ _ _; subst y)
    | intro _)

theorem sound_toPtp {qs : Want} (t : Nat) (s : State) (hs : Sound qs s) :
    Sound qs (toPtp t s) := by
  unfold toPtp
  repeat' (first
    | with_reducible assumption
    | with_reducible apply sound_toNs
    | split)

theorem sound_execWindowClose {qs : Want} (c : Nat) (s : State) (hs : Sound qs s) :
    OutK qs (execWindowClose c s) := by
  unfold execWindowClose
  repeat' (first
    | with_reducible assumption
    | with_reducible apply outK_fault
    | with_reducible apply outK_refused
    | with_reducible apply outK_next
    | with_reducible apply sound_incP
    | with_reducible apply sound_setColl
    | with_reducible apply sound_selectAll
    | with_reducible apply sound_toPtp
    | extract_lets
    | simp -zeta only [pairK_iff, pair3K_iff, fstK_iff, midK_iff]
    | simp -zeta only [sound_mk_iff]
    | simp -zeta only []
    | split)

theorem sound_execWindowGraceClose {qs : Want} (c : Nat) (s : State) (hs : Sound qs s) :
    OutK qs (execWindowGraceClose c s) := by
  unfold execWindowGraceClose
  repeat' (first
    | with_reducible assumption
    | with_reducible apply outK_fault
    | with_reducible apply outK_refused
    | with_reducible apply outK_next
    | with_reducible apply sound_setColl
    | with_reducible apply sound_collFault
    | with_reducible apply sound_toPtp
    | (with_reducible apply sound_foldl; intro _ _ _)
    | (with_reducible apply pairK_foldl; intro _ _ _)
    | (with_reducible apply PairK.snd; with_reducible apply pairK_foldl; intro _ _ _)
    | (with_reducible apply fstK_foldl; intro _ _ _)
    | (with_reducible apply FstK.snd; with_reducible apply fstK_foldl; intro _ _ _)
    | extract_lets
    | simp -zeta only [pairK_iff, pair3K_iff, fstK_iff, midK_iff]
    | simp -zeta only [sound_mk_iff]
    | simp -zeta only []
    | split)

end Sys2Proof.Machine
end

