-- ==== Sys2Proof/Laws/SoundClock.lean ====
section
/-!
SUPPORT. The operations of Clock.lean keep memory and marks canonical and leave the queue alone.
-/
set_option linter.unusedSimpArgs false
set_option linter.unusedVariables false

namespace Sys2Proof.Machine

theorem sound_requestSrm {qs : Want} (s : State) (f : Nat) (hs : Sound qs s) :
    Sound qs (requestSrm s f) := by
  unfold requestSrm
  repeat' (first
    | with_reducible assumption
    | simp -zeta only [sound_mk_iff]
    | split)

theorem sound_requestCmp {qs : Want} (s : State) (f : Nat) (hs : Sound qs s) :
    Sound qs (requestCmp s f) := by
  unfold requestCmp
  repeat' (first
    | with_reducible assumption
    | with_reducible apply sound_setP
    | split)

theorem sound_announce {qs : Want} (s : State) (f : Nat) (hs : Sound qs s) :
    Sound qs (announce s f) := by
  unfold announce
  repeat' (first
    | with_reducible assumption
    | with_reducible apply sound_setP
    | with_reducible apply sound_incP
    | extract_lets
    | simp -zeta only [sound_mk_iff]
    | split)

theorem sound_govern {qs : Want} (s : State) (hs : Sound qs s) :
    Sound qs (govern s) := by
  unfold govern
  repeat' (first
    | with_reducible assumption
    | with_reducible apply sound_setP
    | with_reducible apply sound_requestSrm
    | with_reducible apply sound_announce
    | (refine PairK.elim (by assumption) ?_)
    | (refine FstK.elim (by assumption) ?_)
    | extract_lets
    | simp -zeta only [pairK_iff, pair3K_iff, fstK_iff, midK_iff]
    | simp -zeta only [sound_mk_iff]
    | simp -zeta only []
    | split)

theorem sound_writeTarget {qs : Want} (s : State) (v : Nat) (hs : Sound qs s) :
    PairK qs (writeTarget s v) := by
  unfold writeTarget
  repeat' (first
    | with_reducible assumption
    | with_reducible apply sound_setP
    | with_reducible apply sound_govern
    | simp -zeta only [pairK_iff, pair3K_iff, fstK_iff, midK_iff]
    | split)

theorem sound_execTargetMhzWrite {qs : Want} (v : Nat) (s : State) (hs : Sound qs s) :
    OutK qs (execTargetMhzWrite v s) := by
  unfold execTargetMhzWrite
  repeat' (first
    | with_reducible assumption
    | with_reducible apply outK_fault
    | with_reducible apply outK_refused
    | with_reducible apply outK_next
    | with_reducible apply sound_gated
    | with_reducible apply sound_writeTarget
    | (with_reducible apply PairK.snd; with_reducible apply sound_writeTarget)
    | (refine PairK.elim (by assumption) ?_)
    | extract_lets
    | simp -zeta only [pairK_iff, pair3K_iff, fstK_iff, midK_iff]
    | simp -zeta only []
    | split
    | (with_reducible apply sound_ite)
    | (rename_i y; subst y)
    | (rename_i y _; subst y)
    | (rename_i y _ _; subst y)
    | (rename_i y _ _ _; subst y)
    | (rename_i y _ _ _ _; subst y)
    | (rename_i y _ _ _ _ _; subst y)
    | (rename_i y _ _ _ _ _ _; subst y)
    | (rename_i y _ _ _ _ _ _ _; subst y)
    | (rename_i y _ _ _ _ _ _ _ _; subst y)
    | intro _)

theorem sound_execFreq {qs : Want} (zone : Nat) (s : State) (hs : Sound qs s) :
    OutK qs (execFreq zone s) := by
  unfold execFreq
  repeat' (first
    | with_reducible assumption
    | with_reducible apply outK_fault
    | with_reducible apply outK_refused
    | with_reducible apply outK_next
    | simp -zeta only [sound_mk_iff]
    | split)

theorem sound_execFrequencySwitch {qs : Want} (s : State) (hs : Sound qs s) :
    OutK qs (execFrequencySwitch s) := by
  unfold execFrequencySwitch
  repeat' (first
    | with_reducible assumption
    | with_reducible apply outK_fault
    | with_reducible apply outK_refused
    | with_reducible apply outK_next
    | with_reducible apply sound_setP
    | with_reducible apply sound_incP
    | with_reducible apply sound_toCtc
    | with_reducible apply sound_requestCmp
    | with_reducible apply sound_govern
    | extract_lets
    | simp -zeta only [pairK_iff, pair3K_iff, fstK_iff, midK_iff]
    | simp -zeta only [sound_mk_iff]
    | simp -zeta only []
    | split
    | (with_reducible apply sound_ite)
    | (rename_i y; subst y)
    | (rename_i y _; subst y)
    | (rename_i y _ _; subst y)
    | (rename_i y _ _ _; subst y)
    | (rename_i y _ _ _ _; subst y)
    | (rename_i y _ _ _ _ _; subst y)
    | (rename_i y _ _ _ _ _ _; subst y)
    | (rename_i y _ _ _ _ _ _ _; subst y)
    | (rename_i y _ _ _ _ _ _ _ _; subst y)
    | intro _)

theorem sound_writeService {qs : Want} (s : State) (sub v : Nat) (hs : Sound qs s) :
    PairK qs (writeService s sub v) := by
  unfold writeService
  repeat' (first
    | with_reducible assumption
    | with_reducible apply sound_setP
    | (with_reducible apply sound_foldl; intro _ _ _)
    | (with_reducible apply pairK_foldl; intro _ _ _)
    | (with_reducible apply PairK.snd; with_reducible apply pairK_foldl; intro _ _ _)
    | (with_reducible apply fstK_foldl; intro _ _ _)
    | (with_reducible apply FstK.snd; with_reducible apply fstK_foldl; intro _ _ _)
    | extract_lets
    | simp -zeta only [pairK_iff, pair3K_iff, fstK_iff, midK_iff]
    | simp -zeta only [sound_mk_iff]
    | simp -zeta only []
    | split)

theorem sound_execServiceClockWrite {qs : Want} (sub v : Nat) (s : State) (hs : Sound qs s) :
    OutK qs (execServiceClockWrite sub v s) := by
  unfold execServiceClockWrite
  repeat' (first
    | with_reducible assumption
    | with_reducible apply outK_fault
    | with_reducible apply outK_refused
    | with_reducible apply outK_next
    | with_reducible apply sound_noParam
    | with_reducible apply sound_gated
    | with_reducible apply sound_writeService
    | (with_reducible apply PairK.snd; with_reducible apply sound_writeService)
    | (refine PairK.elim (by assumption) ?_)
    | extract_lets
    | simp -zeta only [pairK_iff, pair3K_iff, fstK_iff, midK_iff]
    | simp -zeta only []
    | split
    | (with_reducible apply sound_ite)
    | (rename_i y; subst y)
    | (rename_i y _; subst y)
    | (rename_i y _ _; subst y)
    | (rename_i y _ _ _; subst y)
    | (rename_i y _ _ _ _; subst y)
    | (rename_i y _ _ _ _ _; subst y)
    | (rename_i y _ _ _ _ _ _; subst y)
    | (rename_i y _ _ _ _ _ _ _; subst y)
    | (rename_i y _ _ _ _ _ _ _ _; subst y)
    | intro _)

theorem sound_stepOk {qs : Want} (s : State) (hs : Sound qs s) :
    Sound qs (stepOk s) := by
  unfold stepOk
  repeat' (first
    | with_reducible assumption
    | simp -zeta only [sound_mk_iff]
    | split)

theorem sound_execRegulatorStepSettled {qs : Want} (s : State) (hs : Sound qs s) :
    OutK qs (execRegulatorStepSettled s) := by
  unfold execRegulatorStepSettled
  repeat' (first
    | with_reducible assumption
    | with_reducible apply outK_fault
    | with_reducible apply outK_refused
    | with_reducible apply outK_next
    | with_reducible apply sound_requestSrm
    | with_reducible apply sound_requestCmp
    | with_reducible apply sound_announce
    | with_reducible apply sound_govern
    | with_reducible apply sound_stepOk
    | extract_lets
    | simp -zeta only [sound_mk_iff]
    | split)

theorem sound_execRegulatorStepTimeout {qs : Want} (s : State) (hs : Sound qs s) :
    OutK qs (execRegulatorStepTimeout s) := by
  unfold execRegulatorStepTimeout
  repeat' (first
    | with_reducible assumption
    | with_reducible apply outK_fault
    | with_reducible apply outK_refused
    | with_reducible apply outK_next
    | with_reducible apply sound_setP
    | with_reducible apply sound_incP
    | extract_lets
    | simp -zeta only [sound_mk_iff]
    | split)

theorem sound_setMargin {qs : Want} (s : State) (m : Nat) (hs : Sound qs s) :
    Sound qs (setMargin s m) := by
  unfold setMargin
  repeat' (first
    | with_reducible assumption
    | with_reducible apply sound_setP
    | with_reducible apply sound_requestSrm
    | with_reducible apply sound_requestCmp
    | extract_lets
    | simp -zeta only [sound_mk_iff]
    | split)

theorem sound_execStretchMarginUpdate {qs : Want} (slow : Bool) (s : State) (hs : Sound qs s) :
    OutK qs (execStretchMarginUpdate slow s) := by
  unfold execStretchMarginUpdate
  repeat' (first
    | with_reducible assumption
    | with_reducible apply outK_fault
    | with_reducible apply outK_refused
    | with_reducible apply outK_next
    | with_reducible apply sound_setMargin
    | extract_lets
    | simp -zeta only [pairK_iff, pair3K_iff, fstK_iff, midK_iff]
    | simp -zeta only [sound_mk_iff]
    | simp -zeta only []
    | split
    | (with_reducible apply sound_ite)
    | (rename_i y; subst y)
    | (rename_i y _; subst y)
    | (rename_i y _ _; subst y)
    | (rename_i y _ _ _; subst y)
    | (rename_i y _ _ _ _; subst y)
    | (rename_i y _ _ _ _ _; subst y)
    | (rename_i y _ _ _ _ _ _; subst y)
    | (rename_i y _ _ _ _ _ _ _; subst y)
    | (rename_i y _ _ _ _ _ _ _ _; subst y)
    | intro _)

theorem sound_lockCross {qs : Want} (s : State) (a b : Nat) (hs : Sound qs s) :
    Sound qs (lockCross s a b) := by
  unfold lockCross
  repeat' (first
    | with_reducible assumption
    | with_reducible apply sound_requestStall
    | (with_reducible apply sound_foldl; intro _ _ _)
    | (with_reducible apply pairK_foldl; intro _ _ _)
    | (with_reducible apply PairK.snd; with_reducible apply pairK_foldl; intro _ _ _)
    | (with_reducible apply fstK_foldl; intro _ _ _)
    | (with_reducible apply FstK.snd; with_reducible apply fstK_foldl; intro _ _ _)
    | extract_lets
    | simp -zeta only [pairK_iff, pair3K_iff, fstK_iff, midK_iff]
    | simp -zeta only [sound_mk_iff]
    | simp -zeta only []
    | split)

theorem sound_checkSkew {qs : Want} (s : State) (z : Nat) (hs : Sound qs s) :
    Sound qs (checkSkew s z) := by
  unfold checkSkew
  repeat' (first
    | with_reducible assumption
    | with_reducible apply sound_lockCross
    | (with_reducible apply sound_foldl; intro _ _ _)
    | (with_reducible apply pairK_foldl; intro _ _ _)
    | (with_reducible apply PairK.snd; with_reducible apply pairK_foldl; intro _ _ _)
    | (with_reducible apply fstK_foldl; intro _ _ _)
    | (with_reducible apply FstK.snd; with_reducible apply fstK_foldl; intro _ _ _)
    | simp -zeta only [pairK_iff, pair3K_iff, fstK_iff, midK_iff]
    | simp -zeta only []
    | split)

theorem sound_execMarginShortfall {qs : Want} (zone size : Nat) (s : State) (hs : Sound qs s) :
    OutK qs (execMarginShortfall zone size s) := by
  unfold execMarginShortfall
  repeat' (first
    | with_reducible assumption
    | with_reducible apply outK_fault
    | with_reducible apply outK_refused
    | with_reducible apply outK_next
    | with_reducible apply sound_incP
    | with_reducible apply sound_addTime
    | with_reducible apply sound_toCtc
    | with_reducible apply sound_checkSkew
    | extract_lets
    | simp -zeta only [pairK_iff, pair3K_iff, fstK_iff, midK_iff]
    | simp -zeta only [sound_mk_iff]
    | simp -zeta only []
    | split
    | (with_reducible apply sound_ite)
    | (rename_i y; subst y)
    | (rename_i y _; subst y)
    | (rename_i y _ _; subst y)
    | (rename_i y _ _ _; subst y)
    | (rename_i y _ _ _ _; subst y)
    | (rename_i y _ _ _ _ _; subst y)
    | (rename_i y _ _ _ _ _ _; subst y)
    | (rename_i y _ _ _ _ _ _ _; subst y)
    | (rename_i y _ _ _ _ _ _ _ _; subst y)
    | intro _)

theorem sound_execStretch {qs : Want} (zone : Nat) (s : State) (hs : Sound qs s) :
    OutK qs (execStretch zone s) := by
  unfold execStretch
  repeat' (first
    | with_reducible assumption
    | with_reducible apply outK_fault
    | with_reducible apply outK_refused
    | with_reducible apply outK_next
    | with_reducible apply sound_incP
    | with_reducible apply sound_checkSkew
    | extract_lets
    | simp -zeta only [pairK_iff, pair3K_iff, fstK_iff, midK_iff]
    | simp -zeta only [sound_mk_iff]
    | simp -zeta only []
    | split)

theorem sound_execCrossingRecentre {qs : Want} (a b : Nat) (s : State) (hs : Sound qs s) :
    OutK qs (execCrossingRecentre a b s) := by
  unfold execCrossingRecentre
  repeat' (first
    | with_reducible assumption
    | with_reducible apply outK_fault
    | with_reducible apply outK_refused
    | with_reducible apply outK_next
    | with_reducible apply sound_incP
    | with_reducible apply sound_setD
    | with_reducible apply sound_announceResume
    | with_reducible apply sound_lockCross
    | (with_reducible apply sound_foldl; intro _ _ _)
    | (with_reducible apply pairK_foldl; intro _ _ _)
    | (with_reducible apply PairK.snd; with_reducible apply pairK_foldl; intro _ _ _)
    | (with_reducible apply fstK_foldl; intro _ _ _)
    | (with_reducible apply FstK.snd; with_reducible apply fstK_foldl; intro _ _ _)
    | extract_lets
    | simp -zeta only [pairK_iff, pair3K_iff, fstK_iff, midK_iff]
    | simp -zeta only [sound_mk_iff]
    | simp -zeta only []
    | split
    | (with_reducible apply sound_ite)
    | (rename_i y; subst y)
    | (rename_i y _; subst y)
    | (rename_i y _ _; subst y)
    | (rename_i y _ _ _; subst y)
    | (rename_i y _ _ _ _; subst y)
    | (rename_i y _ _ _ _ _; subst y)
    | (rename_i y _ _ _ _ _ _; subst y)
    | (rename_i y _ _ _ _ _ _ _; subst y)
    | (rename_i y _ _ _ _ _ _ _ _; subst y)
    | intro _)

theorem sound_execRegulatorTelemetryRead {qs : Want} (rs : List (Nat × Nat)) (s : State) (hs : Sound qs s) :
    OutK qs (execRegulatorTelemetryRead rs s) := by
  unfold execRegulatorTelemetryRead
  repeat' (first
    | with_reducible assumption
    | with_reducible apply outK_fault
    | with_reducible apply outK_refused
    | with_reducible apply outK_next
    | with_reducible apply sound_setP
    | extract_lets
    | simp -zeta only [pairK_iff, pair3K_iff, fstK_iff, midK_iff]
    | simp -zeta only [sound_mk_iff]
    | simp -zeta only []
    | split)

theorem sound_execPowerWindowEnd {qs : Want} (s : State) (hs : Sound qs s) :
    OutK qs (execPowerWindowEnd s) := by
  unfold execPowerWindowEnd
  repeat' (first
    | with_reducible assumption
    | with_reducible apply outK_fault
    | with_reducible apply outK_refused
    | with_reducible apply outK_next
    | with_reducible apply sound_setP
    | with_reducible apply sound_govern
    | extract_lets
    | simp -zeta only [sound_mk_iff]
    | split)

theorem sound_readSensor {qs : Want} (s : State) (r : Nat × Option Int) (hs : Sound qs s) :
    Sound qs (readSensor s r) := by
  unfold readSensor
  repeat' (first
    | with_reducible assumption
    | extract_lets
    | simp -zeta only [sound_mk_iff]
    | split)

theorem sound_thermalCap {qs : Want} (s : State) (hi : Int) (hs : Sound qs s) :
    Sound qs (thermalCap s hi) := by
  unfold thermalCap
  repeat' (first
    | with_reducible assumption
    | with_reducible apply sound_govern
    | extract_lets
    | simp -zeta only [sound_mk_iff]
    | split)

theorem sound_execThermalReading {qs : Want} (rs : List (Nat × Option Int)) (s : State) (hs : Sound qs s) :
    OutK qs (execThermalReading rs s) := by
  unfold execThermalReading
  repeat' (first
    | with_reducible assumption
    | with_reducible apply outK_fault
    | with_reducible apply outK_refused
    | with_reducible apply outK_next
    | with_reducible apply sound_setP
    | with_reducible apply sound_incP
    | with_reducible apply sound_readSensor
    | with_reducible apply sound_thermalCap
    | (with_reducible apply sound_foldl; intro _ _ _)
    | (with_reducible apply pairK_foldl; intro _ _ _)
    | (with_reducible apply PairK.snd; with_reducible apply pairK_foldl; intro _ _ _)
    | (with_reducible apply fstK_foldl; intro _ _ _)
    | (with_reducible apply FstK.snd; with_reducible apply fstK_foldl; intro _ _ _)
    | extract_lets
    | simp -zeta only [pairK_iff, pair3K_iff, fstK_iff, midK_iff]
    | simp -zeta only []
    | split
    | (with_reducible apply sound_ite)
    | (rename_i y; subst y)
    | (rename_i y _; subst y)
    | (rename_i y _ _; subst y)
    | (rename_i y _ _ _; subst y)
    | (rename_i y _ _ _ _; subst y)
    | (rename_i y _ _ _ _ _; subst y)
    | (rename_i y _ _ _ _ _ _; subst y)
    | (rename_i y _ _ _ _ _ _ _; subst y)
    | (rename_i y _ _ _ _ _ _ _ _; subst y)
    | intro _)

theorem sound_execThermalTrip {qs : Want} (sensor : Nat) (s : State) (hs : Sound qs s) :
    OutK qs (execThermalTrip sensor s) := by
  unfold execThermalTrip
  repeat' (first
    | with_reducible assumption
    | with_reducible apply outK_fault
    | with_reducible apply outK_refused
    | with_reducible apply outK_next
    | with_reducible apply sound_setD
    | with_reducible apply sound_writeRecord
    | (with_reducible apply sound_foldl; intro _ _ _)
    | (with_reducible apply pairK_foldl; intro _ _ _)
    | (with_reducible apply PairK.snd; with_reducible apply pairK_foldl; intro _ _ _)
    | (with_reducible apply fstK_foldl; intro _ _ _)
    | (with_reducible apply FstK.snd; with_reducible apply fstK_foldl; intro _ _ _)
    | extract_lets
    | simp -zeta only [pairK_iff, pair3K_iff, fstK_iff, midK_iff]
    | simp -zeta only [sound_mk_iff]
    | simp -zeta only []
    | split
    | (with_reducible apply sound_ite)
    | (rename_i y; subst y)
    | (rename_i y _; subst y)
    | (rename_i y _ _; subst y)
    | (rename_i y _ _ _; subst y)
    | (rename_i y _ _ _ _; subst y)
    | (rename_i y _ _ _ _ _; subst y)
    | (rename_i y _ _ _ _ _ _; subst y)
    | (rename_i y _ _ _ _ _ _ _; subst y)
    | (rename_i y _ _ _ _ _ _ _ _; subst y)
    | intro _)

end Sys2Proof.Machine
end

