-- ==== Sys2Proof/Laws/SoundWrites.lean ====
section
/-!
SUPPORT. The operations of Writes.lean keep memory and marks canonical and leave the queue alone.
-/
set_option linter.unusedSimpArgs false
set_option linter.unusedVariables false

namespace Sys2Proof.Machine

theorem sound_clearNans {qs : Want} (s : State) (arg : Nat) (hs : Sound qs s) :
    PairK qs (clearNans s arg) := by
  unfold clearNans
  repeat' (first
    | with_reducible assumption
    | with_reducible apply sound_setP
    | (with_reducible apply sound_foldl; intro _ _ _)
    | (with_reducible apply pairK_foldl; intro _ _ _)
    | (with_reducible apply PairK.snd; with_reducible apply pairK_foldl; intro _ _ _)
    | (with_reducible apply fstK_foldl; intro _ _ _)
    | (with_reducible apply FstK.snd; with_reducible apply fstK_foldl; intro _ _ _)
    | simp -zeta only [pairK_iff, pair3K_iff, fstK_iff, midK_iff]
    | simp -zeta only []
    | split)

theorem sound_execNanClear {qs : Want} (arg : Nat) (s : State) (hs : Sound qs s) :
    OutK qs (execNanClear arg s) := by
  unfold execNanClear
  repeat' (first
    | with_reducible assumption
    | with_reducible apply outK_fault
    | with_reducible apply outK_refused
    | with_reducible apply outK_next
    | with_reducible apply sound_gated
    | with_reducible apply sound_clearNans
    | (with_reducible apply PairK.snd; with_reducible apply sound_clearNans)
    | (refine PairK.elim (by assumption) ?_)
    | extract_lets
    | simp -zeta only [pairK_iff, pair3K_iff, fstK_iff, midK_iff]
    | simp -zeta only []
    | split
    | (with_reducible apply sound_ite)
    | (rename_i y; subst y)
    | (rename_i y _; subst y)
    | (rename_i y _ _; subst y)
    | (rename_i y _ _ _; subst y)
    | (rename_i y _ _ _ _; subst y)
    | (rename_i y _ _ _ _ _; subst y)
    | (rename_i y _ _ _ _ _ _; subst y)
    | (rename_i y _ _ _ _ _ _ _; subst y)
    | (rename_i y _ _ _ _ _ _ _ _; subst y)
    | intro _)

theorem sound_clearMon {qs : Want} (s : State) (arg : Nat) (hs : Sound qs s) :
    PairK qs (clearMon s arg) := by
  unfold clearMon
  repeat' (first
    | with_reducible assumption
    | with_reducible apply sound_setMon
    | simp -zeta only [pairK_iff, pair3K_iff, fstK_iff, midK_iff]
    | simp -zeta only [sound_mk_iff]
    | split)

theorem sound_execMonClear {qs : Want} (arg : Nat) (s : State) (hs : Sound qs s) :
    OutK qs (execMonClear arg s) := by
  unfold execMonClear
  repeat' (first
    | with_reducible assumption
    | with_reducible apply outK_fault
    | with_reducible apply outK_refused
    | with_reducible apply outK_next
    | with_reducible apply sound_gated
    | with_reducible apply sound_clearMon
    | (with_reducible apply PairK.snd; with_reducible apply sound_clearMon)
    | (refine PairK.elim (by assumption) ?_)
    | extract_lets
    | simp -zeta only [pairK_iff, pair3K_iff, fstK_iff, midK_iff]
    | simp -zeta only []
    | split
    | (with_reducible apply sound_ite)
    | (rename_i y; subst y)
    | (rename_i y _; subst y)
    | (rename_i y _ _; subst y)
    | (rename_i y _ _ _; subst y)
    | (rename_i y _ _ _ _; subst y)
    | (rename_i y _ _ _ _ _; subst y)
    | (rename_i y _ _ _ _ _ _; subst y)
    | (rename_i y _ _ _ _ _ _ _; subst y)
    | (rename_i y _ _ _ _ _ _ _ _; subst y)
    | intro _)

theorem sound_writeMonTensor {qs : Want} (s : State) (v : Nat) (hs : Sound qs s) :
    PairK qs (writeMonTensor s v) := by
  unfold writeMonTensor
  repeat' (first
    | with_reducible assumption
    | with_reducible apply sound_setMon
    | simp -zeta only [pairK_iff, pair3K_iff, fstK_iff, midK_iff]
    | simp -zeta only [sound_mk_iff]
    | simp -zeta only []
    | split)

theorem sound_execMonTensorWrite {qs : Want} (v : Nat) (s : State) (hs : Sound qs s) :
    OutK qs (execMonTensorWrite v s) := by
  unfold execMonTensorWrite
  repeat' (first
    | with_reducible assumption
    | with_reducible apply outK_fault
    | with_reducible apply outK_refused
    | with_reducible apply outK_next
    | with_reducible apply sound_gated
    | with_reducible apply sound_writeMonTensor
    | (with_reducible apply PairK.snd; with_reducible apply sound_writeMonTensor)
    | (refine PairK.elim (by assumption) ?_)
    | extract_lets
    | simp -zeta only [pairK_iff, pair3K_iff, fstK_iff, midK_iff]
    | simp -zeta only []
    | split
    | (with_reducible apply sound_ite)
    | (rename_i y; subst y)
    | (rename_i y _; subst y)
    | (rename_i y _ _; subst y)
    | (rename_i y _ _ _; subst y)
    | (rename_i y _ _ _ _; subst y)
    | (rename_i y _ _ _ _ _; subst y)
    | (rename_i y _ _ _ _ _ _; subst y)
    | (rename_i y _ _ _ _ _ _ _; subst y)
    | (rename_i y _ _ _ _ _ _ _ _; subst y)
    | intro _)

theorem sound_writeNanPolicy {qs : Want} (s : State) (v : Nat) (hs : Sound qs s) :
    PairK qs (writeNanPolicy s v) := by
  unfold writeNanPolicy
  repeat' (first
    | with_reducible assumption
    | with_reducible apply sound_setP
    | simp -zeta only [pairK_iff, pair3K_iff, fstK_iff, midK_iff]
    | simp -zeta only [sound_mk_iff]
    | split)

theorem sound_execNanPolicyWrite {qs : Want} (v : Nat) (s : State) (hs : Sound qs s) :
    OutK qs (execNanPolicyWrite v s) := by
  unfold execNanPolicyWrite
  repeat' (first
    | with_reducible assumption
    | with_reducible apply outK_fault
    | with_reducible apply outK_refused
    | with_reducible apply outK_next
    | with_reducible apply sound_gated
    | with_reducible apply sound_writeNanPolicy
    | (with_reducible apply PairK.snd; with_reducible apply sound_writeNanPolicy)
    | (refine PairK.elim (by assumption) ?_)
    | extract_lets
    | simp -zeta only [pairK_iff, pair3K_iff, fstK_iff, midK_iff]
    | simp -zeta only []
    | split
    | (with_reducible apply sound_ite)
    | (rename_i y; subst y)
    | (rename_i y _; subst y)
    | (rename_i y _ _; subst y)
    | (rename_i y _ _ _; subst y)
    | (rename_i y _ _ _ _; subst y)
    | (rename_i y _ _ _ _ _; subst y)
    | (rename_i y _ _ _ _ _ _; subst y)
    | (rename_i y _ _ _ _ _ _ _; subst y)
    | (rename_i y _ _ _ _ _ _ _ _; subst y)
    | intro _)

theorem sound_writeGradFloor {qs : Want} (s : State) (v : Nat) (hs : Sound qs s) :
    PairK qs (writeGradFloor s v) := by
  unfold writeGradFloor
  repeat' (first
    | with_reducible assumption
    | with_reducible apply sound_setP
    | simp -zeta only [pairK_iff, pair3K_iff, fstK_iff, midK_iff]
    | simp -zeta only [sound_mk_iff]
    | split)

theorem sound_execGradFloorWrite {qs : Want} (v : Nat) (s : State) (hs : Sound qs s) :
    OutK qs (execGradFloorWrite v s) := by
  unfold execGradFloorWrite
  repeat' (first
    | with_reducible assumption
    | with_reducible apply outK_fault
    | with_reducible apply outK_refused
    | with_reducible apply outK_next
    | with_reducible apply sound_gated
    | with_reducible apply sound_writeGradFloor
    | (with_reducible apply PairK.snd; with_reducible apply sound_writeGradFloor)
    | (refine PairK.elim (by assumption) ?_)
    | extract_lets
    | simp -zeta only [pairK_iff, pair3K_iff, fstK_iff, midK_iff]
    | simp -zeta only []
    | split
    | (with_reducible apply sound_ite)
    | (rename_i y; subst y)
    | (rename_i y _; subst y)
    | (rename_i y _ _; subst y)
    | (rename_i y _ _ _; subst y)
    | (rename_i y _ _ _ _; subst y)
    | (rename_i y _ _ _ _ _; subst y)
    | (rename_i y _ _ _ _ _ _; subst y)
    | (rename_i y _ _ _ _ _ _ _; subst y)
    | (rename_i y _ _ _ _ _ _ _ _; subst y)
    | intro _)

theorem sound_execRngStepWrite {qs : Want} (strand v : Nat) (s : State) (hs : Sound qs s) :
    OutK qs (execRngStepWrite strand v s) := by
  unfold execRngStepWrite
  repeat' (first
    | with_reducible assumption
    | with_reducible apply outK_fault
    | with_reducible apply outK_refused
    | with_reducible apply outK_next
    | with_reducible apply sound_noParam
    | with_reducible apply sound_gated
    | with_reducible apply sound_writeStep
    | (with_reducible apply PairK.snd; with_reducible apply sound_writeStep)
    | (refine PairK.elim (by assumption) ?_)
    | extract_lets
    | simp -zeta only [pairK_iff, pair3K_iff, fstK_iff, midK_iff]
    | simp -zeta only []
    | split
    | (with_reducible apply sound_ite)
    | (rename_i y; subst y)
    | (rename_i y _; subst y)
    | (rename_i y _ _; subst y)
    | (rename_i y _ _ _; subst y)
    | (rename_i y _ _ _ _; subst y)
    | (rename_i y _ _ _ _ _; subst y)
    | (rename_i y _ _ _ _ _ _; subst y)
    | (rename_i y _ _ _ _ _ _ _; subst y)
    | (rename_i y _ _ _ _ _ _ _ _; subst y)
    | intro _)

theorem sound_writeStashDomain {qs : Want} (s : State) (strand v : Nat) (hs : Sound qs s) :
    PairK qs (writeStashDomain s strand v) := by
  unfold writeStashDomain
  repeat' (first
    | with_reducible assumption
    | with_reducible apply sound_setP
    | with_reducible apply sound_emptyStrand
    | simp -zeta only [pairK_iff, pair3K_iff, fstK_iff, midK_iff]
    | split)

theorem sound_execStashDomainWrite {qs : Want} (strand v : Nat) (s : State) (hs : Sound qs s) :
    OutK qs (execStashDomainWrite strand v s) := by
  unfold execStashDomainWrite
  repeat' (first
    | with_reducible assumption
    | with_reducible apply outK_fault
    | with_reducible apply outK_refused
    | with_reducible apply outK_next
    | with_reducible apply sound_noParam
    | with_reducible apply sound_gated
    | with_reducible apply sound_writeStashDomain
    | (with_reducible apply PairK.snd; with_reducible apply sound_writeStashDomain)
    | (refine PairK.elim (by assumption) ?_)
    | extract_lets
    | simp -zeta only [pairK_iff, pair3K_iff, fstK_iff, midK_iff]
    | simp -zeta only []
    | split
    | (with_reducible apply sound_ite)
    | (rename_i y; subst y)
    | (rename_i y _; subst y)
    | (rename_i y _ _; subst y)
    | (rename_i y _ _ _; subst y)
    | (rename_i y _ _ _ _; subst y)
    | (rename_i y _ _ _ _ _; subst y)
    | (rename_i y _ _ _ _ _ _; subst y)
    | (rename_i y _ _ _ _ _ _ _; subst y)
    | (rename_i y _ _ _ _ _ _ _ _; subst y)
    | intro _)

theorem sound_writeTree {qs : Want} (s : State) (t sub v : Nat) (hs : Sound qs s) :
    PairK qs (writeTree s t sub v) := by
  unfold writeTree
  repeat' (first
    | with_reducible assumption
    | with_reducible apply sound_setP
    | extract_lets
    | simp -zeta only [pairK_iff, pair3K_iff, fstK_iff, midK_iff]
    | simp -zeta only [sound_mk_iff]
    | simp -zeta only []
    | split)

theorem sound_execTreeConfigWrite {qs : Want} (t sub v : Nat) (s : State) (hs : Sound qs s) :
    OutK qs (execTreeConfigWrite t sub v s) := by
  unfold execTreeConfigWrite
  repeat' (first
    | with_reducible assumption
    | with_reducible apply outK_fault
    | with_reducible apply outK_refused
    | with_reducible apply outK_next
    | with_reducible apply sound_noParam
    | with_reducible apply sound_gated
    | with_reducible apply sound_writeTree
    | (with_reducible apply PairK.snd; with_reducible apply sound_writeTree)
    | (refine PairK.elim (by assumption) ?_)
    | extract_lets
    | simp -zeta only [pairK_iff, pair3K_iff, fstK_iff, midK_iff]
    | simp -zeta only []
    | split
    | (with_reducible apply sound_ite)
    | (rename_i y; subst y)
    | (rename_i y _; subst y)
    | (rename_i y _ _; subst y)
    | (rename_i y _ _ _; subst y)
    | (rename_i y _ _ _ _; subst y)
    | (rename_i y _ _ _ _ _; subst y)
    | (rename_i y _ _ _ _ _ _; subst y)
    | (rename_i y _ _ _ _ _ _ _; subst y)
    | (rename_i y _ _ _ _ _ _ _ _; subst y)
    | intro _)

theorem sound_writeMcast {qs : Want} (s : State) (d g v : Nat) (hs : Sound qs s) :
    PairK qs (writeMcast s d g v) := by
  unfold writeMcast
  repeat' (first
    | with_reducible assumption
    | with_reducible apply sound_setP
    | simp -zeta only [pairK_iff, pair3K_iff, fstK_iff, midK_iff]
    | split)

theorem sound_execMcastMembersWrite {qs : Want} (d g v : Nat) (s : State) (hs : Sound qs s) :
    OutK qs (execMcastMembersWrite d g v s) := by
  unfold execMcastMembersWrite
  repeat' (first
    | with_reducible assumption
    | with_reducible apply outK_fault
    | with_reducible apply outK_refused
    | with_reducible apply outK_next
    | with_reducible apply sound_noParam
    | with_reducible apply sound_gated
    | with_reducible apply sound_writeMcast
    | (with_reducible apply PairK.snd; with_reducible apply sound_writeMcast)
    | (refine PairK.elim (by assumption) ?_)
    | extract_lets
    | simp -zeta only [pairK_iff, pair3K_iff, fstK_iff, midK_iff]
    | simp -zeta only []
    | split
    | (with_reducible apply sound_ite)
    | (rename_i y; subst y)
    | (rename_i y _; subst y)
    | (rename_i y _ _; subst y)
    | (rename_i y _ _ _; subst y)
    | (rename_i y _ _ _ _; subst y)
    | (rename_i y _ _ _ _ _; subst y)
    | (rename_i y _ _ _ _ _ _; subst y)
    | (rename_i y _ _ _ _ _ _ _; subst y)
    | (rename_i y _ _ _ _ _ _ _ _; subst y)
    | intro _)

theorem sound_writeCvc {qs : Want} (s : State) (c sub v : Nat) (hs : Sound qs s) :
    PairK qs (writeCvc s c sub v) := by
  unfold writeCvc
  repeat' (first
    | with_reducible assumption
    | with_reducible apply sound_setP
    | extract_lets
    | simp -zeta only [pairK_iff, pair3K_iff, fstK_iff, midK_iff]
    | split)

theorem sound_execCvcConfigWrite {qs : Want} (c sub : Nat) (v : List Byte) (s : State) (hs : Sound qs s) :
    OutK qs (execCvcConfigWrite c sub v s) := by
  unfold execCvcConfigWrite
  repeat' (first
    | with_reducible assumption
    | with_reducible apply outK_fault
    | with_reducible apply outK_refused
    | with_reducible apply outK_next
    | with_reducible apply sound_noParam
    | with_reducible apply sound_gated
    | with_reducible apply sound_writeCvc
    | (with_reducible apply PairK.snd; with_reducible apply sound_writeCvc)
    | (refine PairK.elim (by assumption) ?_)
    | extract_lets
    | simp -zeta only [pairK_iff, pair3K_iff, fstK_iff, midK_iff]
    | simp -zeta only [sound_mk_iff]
    | simp -zeta only []
    | split
    | (with_reducible apply sound_ite)
    | (rename_i y; subst y)
    | (rename_i y _; subst y)
    | (rename_i y _ _; subst y)
    | (rename_i y _ _ _; subst y)
    | (rename_i y _ _ _ _; subst y)
    | (rename_i y _ _ _ _ _; subst y)
    | (rename_i y _ _ _ _ _ _; subst y)
    | (rename_i y _ _ _ _ _ _ _; subst y)
    | (rename_i y _ _ _ _ _ _ _ _; subst y)
    | intro _)

theorem sound_writePeer {qs : Want} (s : State) (e sub v : Nat) (hs : Sound qs s) :
    PairK qs (writePeer s e sub v) := by
  unfold writePeer
  repeat' (first
    | with_reducible assumption
    | with_reducible apply sound_setP
    | extract_lets
    | simp -zeta only [pairK_iff, pair3K_iff, fstK_iff, midK_iff]
    | simp -zeta only []
    | split)

theorem sound_writeDomainParam {qs : Want} (s : State) (d sub v : Nat) (hs : Sound qs s) :
    PairK qs (writeDomainParam s d sub v) := by
  unfold writeDomainParam
  repeat' (first
    | with_reducible assumption
    | with_reducible apply sound_setP
    | extract_lets
    | simp -zeta only [pairK_iff, pair3K_iff, fstK_iff, midK_iff]
    | split)

theorem sound_writeTrigger {qs : Want} (s : State) (sub v : Nat) (hs : Sound qs s) :
    PairK qs (writeTrigger s sub v) := by
  unfold writeTrigger
  repeat' (first
    | with_reducible assumption
    | with_reducible apply sound_setDma
    | extract_lets
    | simp -zeta only [pairK_iff, pair3K_iff, fstK_iff, midK_iff]
    | simp -zeta only [sound_mk_iff]
    | split)

theorem sound_writeQuota {qs : Want} (s : State) (sub v : Nat) (hs : Sound qs s) :
    PairK qs (writeQuota s sub v) := by
  unfold writeQuota
  repeat' (first
    | with_reducible assumption
    | with_reducible apply sound_setP
    | extract_lets
    | simp -zeta only [pairK_iff, pair3K_iff, fstK_iff, midK_iff]
    | simp -zeta only []
    | split)

theorem sound_regulatorWrite {qs : Want} (s : State) (q sub v : Nat) (hs : Sound qs s) :
    PairK qs (regulatorWrite s q sub v) := by
  unfold regulatorWrite
  repeat' (first
    | with_reducible assumption
    | with_reducible apply sound_setP
    | with_reducible apply sound_writeRegulator
    | extract_lets
    | simp -zeta only [pairK_iff, pair3K_iff, fstK_iff, midK_iff]
    | simp -zeta only []
    | split)

theorem sound_writeThrottle {qs : Want} (s : State) (sub v : Nat) (hs : Sound qs s) :
    PairK qs (writeThrottle s sub v) := by
  unfold writeThrottle
  repeat' (first
    | with_reducible assumption
    | with_reducible apply sound_setP
    | extract_lets
    | simp -zeta only [pairK_iff, pair3K_iff, fstK_iff, midK_iff]
    | split)

theorem sound_writeRegion {qs : Want} (s : State) (r sub v : Nat) (hs : Sound qs s) :
    PairK qs (writeRegion s r sub v) := by
  unfold writeRegion
  repeat' (first
    | with_reducible assumption
    | with_reducible apply sound_setP
    | extract_lets
    | simp -zeta only [pairK_iff, pair3K_iff, fstK_iff, midK_iff]
    | simp -zeta only []
    | split)

theorem sound_writeSnapParam {qs : Want} (s : State) (d sub v : Nat) (hs : Sound qs s) :
    PairK qs (writeSnapParam s d sub v) := by
  unfold writeSnapParam
  repeat' (first
    | with_reducible assumption
    | with_reducible apply sound_setP
    | simp -zeta only [pairK_iff, pair3K_iff, fstK_iff, midK_iff]
    | split)

theorem sound_writePlain {qs : Want} (s : State) (key v : Nat) (hs : Sound qs s) :
    PairK qs (writePlain s key v) := by
  unfold writePlain
  repeat' (first
    | with_reducible assumption
    | with_reducible apply sound_setP
    | simp -zeta only [pairK_iff, pair3K_iff, fstK_iff, midK_iff]
    | split)

theorem sound_writeThermal {qs : Want} (s : State) (sub v : Nat) (hs : Sound qs s) :
    PairK qs (writeThermal s sub v) := by
  unfold writeThermal
  repeat' (first
    | with_reducible assumption
    | with_reducible apply sound_setP
    | extract_lets
    | simp -zeta only [pairK_iff, pair3K_iff, fstK_iff, midK_iff]
    | split)

theorem sound_writePtp {qs : Want} (s : State) (sub v : Nat) (hs : Sound qs s) :
    PairK qs (writePtp s sub v) := by
  unfold writePtp
  repeat' (first
    | with_reducible assumption
    | with_reducible apply sound_setP
    | extract_lets
    | simp -zeta only [pairK_iff, pair3K_iff, fstK_iff, midK_iff]
    | simp -zeta only [sound_mk_iff]
    | split)

end Sys2Proof.Machine
end

