-- ==== Sys2Proof/Laws/SoundSecurity.lean ====
section
/-!
SUPPORT. The operations of Security.lean keep memory and marks canonical and leave the queue alone.
-/
set_option linter.unusedSimpArgs false
set_option linter.unusedVariables false

namespace Sys2Proof.Machine

theorem sound_recordBoot {qs : Want} (s : State) (hs : Sound qs s) :
    Sound qs (recordBoot s) := by
  unfold recordBoot
  repeat' (first
    | with_reducible assumption
    | with_reducible apply sound_setP
    | (with_reducible apply sound_foldl; intro _ _ _)
    | (with_reducible apply pairK_foldl; intro _ _ _)
    | (with_reducible apply PairK.snd; with_reducible apply pairK_foldl; intro _ _ _)
    | (with_reducible apply fstK_foldl; intro _ _ _)
    | (with_reducible apply FstK.snd; with_reducible apply fstK_foldl; intro _ _ _)
    | extract_lets
    | simp -zeta only [pairK_iff, pair3K_iff, fstK_iff, midK_iff]
    | simp -zeta only []
    | split)

theorem sound_attestGenerate {qs : Want} (s : State) (arg : Nat) (hs : Sound qs s) :
    PairK qs (attestGenerate s arg) := by
  unfold attestGenerate
  repeat' (first
    | with_reducible assumption
    | with_reducible apply sound_setP
    | simp -zeta only [pairK_iff, pair3K_iff, fstK_iff, midK_iff]
    | simp -zeta only [sound_mk_iff]
    | split)

theorem sound_execAttestGenerate {qs : Want} (arg : Nat) (s : State) (hs : Sound qs s) :
    OutK qs (execAttestGenerate arg s) := by
  unfold execAttestGenerate
  repeat' (first
    | with_reducible assumption
    | with_reducible apply outK_fault
    | with_reducible apply outK_refused
    | with_reducible apply outK_next
    | with_reducible apply sound_gated
    | with_reducible apply sound_attestGenerate
    | (with_reducible apply PairK.snd; with_reducible apply sound_attestGenerate)
    | (refine PairK.elim (by assumption) ?_)
    | extract_lets
    | simp -zeta only [pairK_iff, pair3K_iff, fstK_iff, midK_iff]
    | simp -zeta only []
    | split
    | (with_reducible apply sound_ite)
    | (rename_i y; subst y)
    | (rename_i y _; subst y)
    | (rename_i y _ _; subst y)
    | (rename_i y _ _ _; subst y)
    | (rename_i y _ _ _ _; subst y)
    | (rename_i y _ _ _ _ _; subst y)
    | (rename_i y _ _ _ _ _ _; subst y)
    | (rename_i y _ _ _ _ _ _ _; subst y)
    | (rename_i y _ _ _ _ _ _ _ _; subst y)
    | intro _)

theorem sound_execAttestSigned {qs : Want} (s : State) (hs : Sound qs s) :
    OutK qs (execAttestSigned s) := by
  unfold execAttestSigned
  repeat' (first
    | with_reducible assumption
    | with_reducible apply outK_fault
    | with_reducible apply outK_refused
    | with_reducible apply outK_next
    | with_reducible apply sound_setP
    | simp -zeta only [sound_mk_iff]
    | split)

theorem sound_setSession {qs : Want} (s : State) (k : Nat) (x : Session) (hs : Sound qs s) :
    Sound qs (setSession s k x) := by
  unfold setSession
  repeat' (first
    | with_reducible assumption
    | simp -zeta only [sound_mk_iff]
    | split)

theorem sound_closeSlot {qs : Want} (s : State) (k : Nat) (hs : Sound qs s) :
    Sound qs (closeSlot s k) := by
  unfold closeSlot
  repeat' (first
    | with_reducible assumption
    | with_reducible apply sound_setSession
    | extract_lets
    | simp -zeta only [pairK_iff, pair3K_iff, fstK_iff, midK_iff]
    | simp -zeta only [sound_mk_iff]
    | simp -zeta only []
    | split)

theorem sound_writeHostKey {qs : Want} (s : State) (slot : Nat) (key : List Byte) (hs : Sound qs s) :
    PairK qs (writeHostKey s slot key) := by
  unfold writeHostKey
  repeat' (first
    | with_reducible assumption
    | with_reducible apply sound_setP
    | with_reducible apply sound_closeSlot
    | (with_reducible apply sound_foldl; intro _ _ _)
    | (with_reducible apply pairK_foldl; intro _ _ _)
    | (with_reducible apply PairK.snd; with_reducible apply pairK_foldl; intro _ _ _)
    | (with_reducible apply fstK_foldl; intro _ _ _)
    | (with_reducible apply FstK.snd; with_reducible apply fstK_foldl; intro _ _ _)
    | extract_lets
    | simp -zeta only [pairK_iff, pair3K_iff, fstK_iff, midK_iff]
    | simp -zeta only []
    | split)

theorem sound_execHostkeySlotWrite {qs : Want} (slot : Nat) (key : List Byte) (s : State) (hs : Sound qs s) :
    OutK qs (execHostkeySlotWrite slot key s) := by
  unfold execHostkeySlotWrite
  repeat' (first
    | with_reducible assumption
    | with_reducible apply outK_fault
    | with_reducible apply outK_refused
    | with_reducible apply outK_next
    | with_reducible apply sound_noParam
    | with_reducible apply sound_gated
    | with_reducible apply sound_writeHostKey
    | (with_reducible apply PairK.snd; with_reducible apply sound_writeHostKey)
    | (refine PairK.elim (by assumption) ?_)
    | extract_lets
    | simp -zeta only [pairK_iff, pair3K_iff, fstK_iff, midK_iff]
    | simp -zeta only [sound_mk_iff]
    | simp -zeta only []
    | split
    | (with_reducible apply sound_ite)
    | (rename_i y; subst y)
    | (rename_i y _; subst y)
    | (rename_i y _ _; subst y)
    | (rename_i y _ _ _; subst y)
    | (rename_i y _ _ _ _; subst y)
    | (rename_i y _ _ _ _ _; subst y)
    | (rename_i y _ _ _ _ _ _; subst y)
    | (rename_i y _ _ _ _ _ _ _; subst y)
    | (rename_i y _ _ _ _ _ _ _ _; subst y)
    | intro _)

theorem sound_startAssoc {qs : Want} (s : State) (an : Nat) (hs : Sound qs s) :
    Sound qs (startAssoc s an) := by
  unfold startAssoc
  repeat' (first
    | with_reducible assumption
    | with_reducible apply sound_setP
    | simp -zeta only [sound_mk_iff]
    | split)

theorem sound_writeMacsec {qs : Want} (s : State) (sub : Nat) (bs : List Byte) (hs : Sound qs s) :
    PairK qs (writeMacsec s sub bs) := by
  unfold writeMacsec
  repeat' (first
    | with_reducible assumption
    | with_reducible apply sound_setP
    | with_reducible apply sound_startAssoc
    | extract_lets
    | simp -zeta only [pairK_iff, pair3K_iff, fstK_iff, midK_iff]
    | simp -zeta only [sound_mk_iff]
    | split)

theorem sound_writeUpdateBank {qs : Want} (s : State) (v : Nat) (hs : Sound qs s) :
    PairK qs (writeUpdateBank s v) := by
  unfold writeUpdateBank
  repeat' (first
    | with_reducible assumption
    | with_reducible apply sound_setP
    | simp -zeta only [pairK_iff, pair3K_iff, fstK_iff, midK_iff]
    | split)

theorem sound_updateData {qs : Want} (s : State) (v : List Byte) (hs : Sound qs s) :
    PairK qs (updateData s v) := by
  unfold updateData
  repeat' (first
    | with_reducible assumption
    | extract_lets
    | simp -zeta only [pairK_iff, pair3K_iff, fstK_iff, midK_iff]
    | simp -zeta only [sound_mk_iff]
    | split)

theorem sound_execUpdateData {qs : Want} (v : List Byte) (s : State) (hs : Sound qs s) :
    OutK qs (execUpdateData v s) := by
  unfold execUpdateData
  repeat' (first
    | with_reducible assumption
    | with_reducible apply outK_fault
    | with_reducible apply outK_refused
    | with_reducible apply outK_next
    | with_reducible apply sound_gated
    | with_reducible apply sound_updateData
    | (with_reducible apply PairK.snd; with_reducible apply sound_updateData)
    | (refine PairK.elim (by assumption) ?_)
    | extract_lets
    | simp -zeta only [pairK_iff, pair3K_iff, fstK_iff, midK_iff]
    | simp -zeta only [sound_mk_iff]
    | simp -zeta only []
    | split
    | (with_reducible apply sound_ite)
    | (rename_i y; subst y)
    | (rename_i y _; subst y)
    | (rename_i y _ _; subst y)
    | (rename_i y _ _ _; subst y)
    | (rename_i y _ _ _ _; subst y)
    | (rename_i y _ _ _ _ _; subst y)
    | (rename_i y _ _ _ _ _ _; subst y)
    | (rename_i y _ _ _ _ _ _ _; subst y)
    | (rename_i y _ _ _ _ _ _ _ _; subst y)
    | intro _)

theorem sound_execUpdateWriteComplete {qs : Want} (s : State) (hs : Sound qs s) :
    OutK qs (execUpdateWriteComplete s) := by
  unfold execUpdateWriteComplete
  repeat' (first
    | with_reducible assumption
    | with_reducible apply outK_fault
    | with_reducible apply outK_refused
    | with_reducible apply outK_next
    | (with_reducible apply sound_foldl; intro _ _ _)
    | (with_reducible apply pairK_foldl; intro _ _ _)
    | (with_reducible apply PairK.snd; with_reducible apply pairK_foldl; intro _ _ _)
    | (with_reducible apply fstK_foldl; intro _ _ _)
    | (with_reducible apply FstK.snd; with_reducible apply fstK_foldl; intro _ _ _)
    | extract_lets
    | simp -zeta only [pairK_iff, pair3K_iff, fstK_iff, midK_iff]
    | simp -zeta only [sound_mk_iff]
    | simp -zeta only []
    | split)

theorem sound_updateVerify {qs : Want} (s : State) (arg : Nat) (hs : Sound qs s) :
    PairK qs (updateVerify s arg) := by
  unfold updateVerify
  repeat' (first
    | with_reducible assumption
    | simp -zeta only [pairK_iff, pair3K_iff, fstK_iff, midK_iff]
    | simp -zeta only [sound_mk_iff]
    | split)

theorem sound_execUpdateVerify {qs : Want} (arg : Nat) (s : State) (hs : Sound qs s) :
    OutK qs (execUpdateVerify arg s) := by
  unfold execUpdateVerify
  repeat' (first
    | with_reducible assumption
    | with_reducible apply outK_fault
    | with_reducible apply outK_refused
    | with_reducible apply outK_next
    | with_reducible apply sound_gated
    | with_reducible apply sound_updateVerify
    | (with_reducible apply PairK.snd; with_reducible apply sound_updateVerify)
    | (refine PairK.elim (by assumption) ?_)
    | extract_lets
    | simp -zeta only [pairK_iff, pair3K_iff, fstK_iff, midK_iff]
    | simp -zeta only []
    | split
    | (with_reducible apply sound_ite)
    | (rename_i y; subst y)
    | (rename_i y _; subst y)
    | (rename_i y _ _; subst y)
    | (rename_i y _ _ _; subst y)
    | (rename_i y _ _ _ _; subst y)
    | (rename_i y _ _ _ _ _; subst y)
    | (rename_i y _ _ _ _ _ _; subst y)
    | (rename_i y _ _ _ _ _ _ _; subst y)
    | (rename_i y _ _ _ _ _ _ _ _; subst y)
    | intro _)

theorem sound_execUpdateVerifyComplete {qs : Want} (s : State) (hs : Sound qs s) :
    OutK qs (execUpdateVerifyComplete s) := by
  unfold execUpdateVerifyComplete
  repeat' (first
    | with_reducible assumption
    | with_reducible apply outK_fault
    | with_reducible apply outK_refused
    | with_reducible apply outK_next
    | with_reducible apply sound_setP
    | extract_lets
    | simp -zeta only [sound_mk_iff]
    | split)

end Sys2Proof.Machine
end

