-- ==== Sys2Proof/Laws/SoundGauge.lean ====
section
/-!
SUPPORT. The operations of Gauge.lean keep memory and marks canonical and leave the queue alone.
-/
set_option linter.unusedSimpArgs false
set_option linter.unusedVariables false

namespace Sys2Proof.Machine

theorem sound_addEnergy {qs : Want} (s : State) (rail : Nat) (raw : Option (W32 × W32)) (hs : Sound qs s) :
    Sound qs (addEnergy s rail raw) := by
  unfold addEnergy
  repeat' (first
    | with_reducible assumption
    | (refine PairK.elim (by assumption) ?_)
    | (refine FstK.elim (by assumption) ?_)
    | extract_lets
    | simp -zeta only [pairK_iff, pair3K_iff, fstK_iff, midK_iff]
    | simp -zeta only [sound_mk_iff]
    | simp -zeta only []
    | split)

theorem sound_execGaugeSample {qs : Want} (raw : List (Option (W32 × W32))) (s : State) (hs : Sound qs s) :
    OutK qs (execGaugeSample raw s) := by
  unfold execGaugeSample
  repeat' (first
    | with_reducible assumption
    | with_reducible apply outK_fault
    | with_reducible apply outK_refused
    | with_reducible apply outK_next
    | with_reducible apply sound_addEnergy
    | (with_reducible apply sound_foldl; intro _ _ _)
    | (with_reducible apply pairK_foldl; intro _ _ _)
    | (with_reducible apply PairK.snd; with_reducible apply pairK_foldl; intro _ _ _)
    | (with_reducible apply fstK_foldl; intro _ _ _)
    | (with_reducible apply FstK.snd; with_reducible apply fstK_foldl; intro _ _ _)
    | extract_lets
    | simp -zeta only [pairK_iff, pair3K_iff, fstK_iff, midK_iff]
    | simp -zeta only [sound_mk_iff]
    | simp -zeta only []
    | split)

theorem sound_execGaugeCommit {qs : Want} (s : State) (hs : Sound qs s) :
    OutK qs (execGaugeCommit s) := by
  unfold execGaugeCommit
  repeat' (first
    | with_reducible assumption
    | with_reducible apply outK_fault
    | with_reducible apply outK_refused
    | with_reducible apply outK_next
    | with_reducible apply sound_setP
    | extract_lets
    | simp -zeta only [sound_mk_iff]
    | split)

theorem sound_execVddIodFall {qs : Want} (s : State) (hs : Sound qs s) :
    OutK qs (execVddIodFall s) := by
  unfold execVddIodFall
  repeat' (first
    | with_reducible assumption
    | with_reducible apply outK_fault
    | with_reducible apply outK_refused
    | with_reducible apply outK_next
    | simp -zeta only [sound_mk_iff]
    | split)

theorem sound_makeRecord {qs : Want} (s : State) (kind : Nat) (hs : Sound qs s) :
    Sound qs (makeRecord s kind) := by
  unfold makeRecord
  repeat' (first
    | with_reducible assumption
    | with_reducible apply sound_setP
    | extract_lets
    | simp -zeta only [sound_mk_iff]
    | split)

theorem sound_recordGenerate {qs : Want} (s : State) (arg : Nat) (hs : Sound qs s) :
    PairK qs (recordGenerate s arg) := by
  unfold recordGenerate
  repeat' (first
    | with_reducible assumption
    | with_reducible apply sound_makeRecord
    | simp -zeta only [pairK_iff, pair3K_iff, fstK_iff, midK_iff]
    | split)

theorem sound_execRecordGenerate {qs : Want} (arg : Nat) (s : State) (hs : Sound qs s) :
    OutK qs (execRecordGenerate arg s) := by
  unfold execRecordGenerate
  repeat' (first
    | with_reducible assumption
    | with_reducible apply outK_fault
    | with_reducible apply outK_refused
    | with_reducible apply outK_next
    | with_reducible apply sound_gated
    | with_reducible apply sound_recordGenerate
    | (with_reducible apply PairK.snd; with_reducible apply sound_recordGenerate)
    | (refine PairK.elim (by assumption) ?_)
    | extract_lets
    | simp -zeta only [pairK_iff, pair3K_iff, fstK_iff, midK_iff]
    | simp -zeta only []
    | split
    | (with_reducible apply sound_ite)
    | (rename_i y; subst y)
    | (rename_i y _; subst y)
    | (rename_i y _ _; subst y)
    | (rename_i y _ _ _; subst y)
    | (rename_i y _ _ _ _; subst y)
    | (rename_i y _ _ _ _ _; subst y)
    | (rename_i y _ _ _ _ _ _; subst y)
    | (rename_i y _ _ _ _ _ _ _; subst y)
    | (rename_i y _ _ _ _ _ _ _ _; subst y)
    | intro _)

theorem sound_writeInterval {qs : Want} (s : State) (v : Nat) (hs : Sound qs s) :
    PairK qs (writeInterval s v) := by
  unfold writeInterval
  repeat' (first
    | with_reducible assumption
    | with_reducible apply sound_setP
    | simp -zeta only [pairK_iff, pair3K_iff, fstK_iff, midK_iff]
    | simp -zeta only [sound_mk_iff]
    | split)

theorem sound_execPeriodicRecord {qs : Want} (s : State) (hs : Sound qs s) :
    OutK qs (execPeriodicRecord s) := by
  unfold execPeriodicRecord
  repeat' (first
    | with_reducible assumption
    | with_reducible apply outK_fault
    | with_reducible apply outK_refused
    | with_reducible apply outK_next
    | with_reducible apply sound_makeRecord
    | extract_lets
    | simp -zeta only [sound_mk_iff]
    | split)

theorem sound_execRecordSigned {qs : Want} (s : State) (hs : Sound qs s) :
    OutK qs (execRecordSigned s) := by
  unfold execRecordSigned
  repeat' (first
    | with_reducible assumption
    | with_reducible apply outK_fault
    | with_reducible apply outK_refused
    | with_reducible apply outK_next
    | with_reducible apply sound_setP
    | with_reducible apply sound_makeRecord
    | extract_lets
    | simp -zeta only [pairK_iff, pair3K_iff, fstK_iff, midK_iff]
    | simp -zeta only [sound_mk_iff]
    | simp -zeta only []
    | split
    | (with_reducible apply sound_ite)
    | (rename_i y; subst y)
    | (rename_i y _; subst y)
    | (rename_i y _ _; subst y)
    | (rename_i y _ _ _; subst y)
    | (rename_i y _ _ _ _; subst y)
    | (rename_i y _ _ _ _ _; subst y)
    | (rename_i y _ _ _ _ _ _; subst y)
    | (rename_i y _ _ _ _ _ _ _; subst y)
    | (rename_i y _ _ _ _ _ _ _ _; subst y)
    | intro _)

theorem sound_addAudit {qs : Want} (s : State) (kind outcome : Nat) (old new : List Byte) (hs : Sound qs s) :
    Sound qs (addAudit s kind outcome old new) := by
  unfold addAudit
  repeat' (first
    | with_reducible assumption
    | with_reducible apply sound_setP
    | with_reducible apply sound_incP
    | extract_lets
    | simp -zeta only [sound_mk_iff]
    | split)

theorem sound_sealApply {qs : Want} (s : State) (cmd : Nat) (p : List Byte) (hs : Sound qs s) :
    MidK qs (sealApply s cmd p) := by
  unfold sealApply
  repeat' (first
    | with_reducible assumption
    | with_reducible apply sound_setP
    | extract_lets
    | simp -zeta only [pairK_iff, pair3K_iff, fstK_iff, midK_iff]
    | simp -zeta only [sound_mk_iff]
    | split)

theorem sound_writeSealRequest {qs : Want} (s : State) (v : List Byte) (hs : Sound qs s) :
    PairK qs (writeSealRequest s v) := by
  unfold writeSealRequest
  repeat' (first
    | with_reducible assumption
    | with_reducible apply sound_request
    | simp -zeta only [pairK_iff, pair3K_iff, fstK_iff, midK_iff]
    | simp -zeta only [sound_mk_iff]
    | split)

theorem sound_execSealRequest {qs : Want} (v : List Byte) (s : State) (hs : Sound qs s) :
    OutK qs (execSealRequest v s) := by
  unfold execSealRequest
  repeat' (first
    | with_reducible assumption
    | with_reducible apply outK_fault
    | with_reducible apply outK_refused
    | with_reducible apply outK_next
    | with_reducible apply sound_gated
    | with_reducible apply sound_writeSealRequest
    | (with_reducible apply PairK.snd; with_reducible apply sound_writeSealRequest)
    | (refine PairK.elim (by assumption) ?_)
    | extract_lets
    | simp -zeta only [pairK_iff, pair3K_iff, fstK_iff, midK_iff]
    | simp -zeta only [sound_mk_iff]
    | simp -zeta only []
    | split
    | (with_reducible apply sound_ite)
    | (rename_i y; subst y)
    | (rename_i y _; subst y)
    | (rename_i y _ _; subst y)
    | (rename_i y _ _ _; subst y)
    | (rename_i y _ _ _ _; subst y)
    | (rename_i y _ _ _ _ _; subst y)
    | (rename_i y _ _ _ _ _ _; subst y)
    | (rename_i y _ _ _ _ _ _ _; subst y)
    | (rename_i y _ _ _ _ _ _ _ _; subst y)
    | intro _)

theorem sound_sealExecute {qs : Want} (s : State) (arg : Nat) (hs : Sound qs s) :
    PairK qs (sealExecute s arg) := by
  unfold sealExecute
  repeat' (first
    | with_reducible assumption
    | with_reducible apply sound_setP
    | with_reducible apply sound_incP
    | with_reducible apply sound_logError
    | with_reducible apply sound_makeRecord
    | with_reducible apply sound_addAudit
    | with_reducible apply sound_sealApply
    | (with_reducible apply MidK.snd; with_reducible apply sound_sealApply)
    | (refine PairK.elim (by assumption) ?_)
    | (refine FstK.elim (by assumption) ?_)
    | (refine MidK.elim (by assumption) ?_)
    | extract_lets
    | simp -zeta only [pairK_iff, pair3K_iff, fstK_iff, midK_iff]
    | simp -zeta only [sound_mk_iff]
    | simp -zeta only []
    | split)

theorem sound_execSealExecute {qs : Want} (arg : Nat) (s : State) (hs : Sound qs s) :
    OutK qs (execSealExecute arg s) := by
  unfold execSealExecute
  repeat' (first
    | with_reducible assumption
    | with_reducible apply outK_fault
    | with_reducible apply outK_refused
    | with_reducible apply outK_next
    | with_reducible apply sound_gated
    | with_reducible apply sound_sealExecute
    | (with_reducible apply PairK.snd; with_reducible apply sound_sealExecute)
    | (refine PairK.elim (by assumption) ?_)
    | extract_lets
    | simp -zeta only [pairK_iff, pair3K_iff, fstK_iff, midK_iff]
    | simp -zeta only []
    | split
    | (with_reducible apply sound_ite)
    | (rename_i y; subst y)
    | (rename_i y _; subst y)
    | (rename_i y _ _; subst y)
    | (rename_i y _ _ _; subst y)
    | (rename_i y _ _ _ _; subst y)
    | (rename_i y _ _ _ _ _; subst y)
    | (rename_i y _ _ _ _ _ _; subst y)
    | (rename_i y _ _ _ _ _ _ _; subst y)
    | (rename_i y _ _ _ _ _ _ _ _; subst y)
    | intro _)

theorem sound_gaugeBoot {qs : Want} (s : State) (hs : Sound qs s) :
    OptK qs (gaugeBoot s) := by
  unfold gaugeBoot
  repeat' (first
    | with_reducible assumption
    | with_reducible apply optK_none
    | with_reducible apply optK_some
    | with_reducible apply sound_setP
    | with_reducible apply sound_addAudit
    | extract_lets
    | split)

end Sys2Proof.Machine
end

