-- ==== Sys2Proof/Laws/SoundStartup.lean ====
section
/-!
SUPPORT. The operations of Startup.lean keep memory and marks canonical and leave the queue alone.
-/
set_option linter.unusedSimpArgs false
set_option linter.unusedVariables false

namespace Sys2Proof.Machine

theorem sound_startState {qs : Want} (cold : Bool) (s : State) (hs : Sound qs s) :
    Sound qs (startState cold s) := by
  refine ⟨fun k => ⟨?_, ?_⟩, hs.2⟩
  · show Memory.wf (if cold then [] else _) = true
    split
    · rfl
    · exact SMap.wf_filter _ (hs.1 k).1
  · show SMap.wf false (if cold then [] else _) = true
    split
    · rfl
    · exact SMap.wf_filter _ (hs.1 k).2

theorem sound_quiesce {qs : Want} (s : State) (hs : Sound qs s) :
    Sound qs (quiesce s) := by
  unfold quiesce
  repeat' (first
    | with_reducible assumption
    | with_reducible apply sound_setP
    | with_reducible apply sound_abandonSnap
    | with_reducible apply sound_startState
    | (with_reducible apply sound_foldl; intro _ _ _)
    | (with_reducible apply pairK_foldl; intro _ _ _)
    | (with_reducible apply PairK.snd; with_reducible apply pairK_foldl; intro _ _ _)
    | (with_reducible apply fstK_foldl; intro _ _ _)
    | (with_reducible apply FstK.snd; with_reducible apply fstK_foldl; intro _ _ _)
    | extract_lets
    | simp -zeta only [sound_mk_iff]
    | split)

theorem sound_execPwrOkRise {qs : Want} (s : State) (hs : Sound qs s) :
    OutK qs (execPwrOkRise s) := by
  unfold execPwrOkRise
  repeat' (first
    | with_reducible assumption
    | with_reducible apply outK_fault
    | with_reducible apply outK_refused
    | with_reducible apply outK_next
    | simp -zeta only [sound_mk_iff]
    | split)

theorem sound_execPwrOkFall {qs : Want} (s : State) (hs : Sound qs s) :
    OutK qs (execPwrOkFall s) := by
  unfold execPwrOkFall
  repeat' (first
    | with_reducible assumption
    | with_reducible apply outK_fault
    | with_reducible apply outK_refused
    | with_reducible apply outK_next
    | with_reducible apply sound_setP
    | with_reducible apply sound_startState
    | with_reducible apply sound_quiesce
    | extract_lets
    | simp -zeta only [sound_mk_iff]
    | split)

theorem sound_execResetLLow {qs : Want} (us : Nat) (s : State) (hs : Sound qs s) :
    OutK qs (execResetLLow us s) := by
  unfold execResetLLow
  repeat' (first
    | with_reducible assumption
    | with_reducible apply outK_fault
    | with_reducible apply outK_refused
    | with_reducible apply outK_next
    | with_reducible apply sound_quiesce
    | extract_lets
    | simp -zeta only [sound_mk_iff]
    | split)

theorem sound_beginStart {qs : Want} (cold : Bool) (cause : Nat) (t : SelfTest) (s : State) (hs : Sound qs s) :
    Sound qs (beginStart cold cause t s) := by
  unfold beginStart
  repeat' (first
    | with_reducible assumption
    | with_reducible apply sound_setP
    | with_reducible apply sound_count
    | with_reducible apply sound_startState
    | extract_lets
    | simp -zeta only [pairK_iff, pair3K_iff, fstK_iff, midK_iff]
    | simp -zeta only [sound_mk_iff]
    | simp -zeta only []
    | split
    | (with_reducible apply sound_ite)
    | (rename_i y; subst y)
    | (rename_i y _; subst y)
    | (rename_i y _ _; subst y)
    | (rename_i y _ _ _; subst y)
    | (rename_i y _ _ _ _; subst y)
    | (rename_i y _ _ _ _ _; subst y)
    | (rename_i y _ _ _ _ _ _; subst y)
    | (rename_i y _ _ _ _ _ _ _; subst y)
    | (rename_i y _ _ _ _ _ _ _ _; subst y)
    | intro _)

theorem sound_execResetLRelease {qs : Want} (t : SelfTest) (s : State) (hs : Sound qs s) :
    OutK qs (execResetLRelease t s) := by
  unfold execResetLRelease
  repeat' (first
    | with_reducible assumption
    | with_reducible apply outK_fault
    | with_reducible apply outK_refused
    | with_reducible apply outK_next
    | with_reducible apply sound_beginStart
    | extract_lets
    | split)

theorem sound_startWarm {qs : Want} (s : State) (arg : Nat) (hs : Sound qs s) :
    PairK qs (startWarm s arg) := by
  unfold startWarm
  repeat' (first
    | with_reducible assumption
    | with_reducible apply sound_toNs
    | with_reducible apply sound_quiesce
    | extract_lets
    | simp -zeta only [pairK_iff, pair3K_iff, fstK_iff, midK_iff]
    | simp -zeta only [sound_mk_iff]
    | split)

theorem sound_execStartWarm {qs : Want} (arg : Nat) (s : State) (hs : Sound qs s) :
    OutK qs (execStartWarm arg s) := by
  unfold execStartWarm
  repeat' (first
    | with_reducible assumption
    | with_reducible apply outK_fault
    | with_reducible apply outK_refused
    | with_reducible apply outK_next
    | with_reducible apply sound_gated
    | with_reducible apply sound_startWarm
    | (with_reducible apply PairK.snd; with_reducible apply sound_startWarm)
    | (refine PairK.elim (by assumption) ?_)
    | extract_lets
    | simp -zeta only [pairK_iff, pair3K_iff, fstK_iff, midK_iff]
    | simp -zeta only []
    | split
    | (with_reducible apply sound_ite)
    | (rename_i y; subst y)
    | (rename_i y _; subst y)
    | (rename_i y _ _; subst y)
    | (rename_i y _ _ _; subst y)
    | (rename_i y _ _ _ _; subst y)
    | (rename_i y _ _ _ _ _; subst y)
    | (rename_i y _ _ _ _ _ _; subst y)
    | (rename_i y _ _ _ _ _ _ _; subst y)
    | (rename_i y _ _ _ _ _ _ _ _; subst y)
    | intro _)

theorem sound_testAck {qs : Want} (s : State) (arg : Nat) (hs : Sound qs s) :
    PairK qs (testAck s arg) := by
  unfold testAck
  repeat' (first
    | with_reducible assumption
    | simp -zeta only [pairK_iff, pair3K_iff, fstK_iff, midK_iff]
    | simp -zeta only [sound_mk_iff]
    | split)

theorem sound_execTestAck {qs : Want} (arg : Nat) (s : State) (hs : Sound qs s) :
    OutK qs (execTestAck arg s) := by
  unfold execTestAck
  repeat' (first
    | with_reducible assumption
    | with_reducible apply outK_fault
    | with_reducible apply outK_refused
    | with_reducible apply outK_next
    | with_reducible apply sound_gated
    | with_reducible apply sound_testAck
    | (with_reducible apply PairK.snd; with_reducible apply sound_testAck)
    | (refine PairK.elim (by assumption) ?_)
    | extract_lets
    | simp -zeta only [pairK_iff, pair3K_iff, fstK_iff, midK_iff]
    | simp -zeta only []
    | split
    | (with_reducible apply sound_ite)
    | (rename_i y; subst y)
    | (rename_i y _; subst y)
    | (rename_i y _ _; subst y)
    | (rename_i y _ _ _; subst y)
    | (rename_i y _ _ _ _; subst y)
    | (rename_i y _ _ _ _ _; subst y)
    | (rename_i y _ _ _ _ _ _; subst y)
    | (rename_i y _ _ _ _ _ _ _; subst y)
    | (rename_i y _ _ _ _ _ _ _ _; subst y)
    | intro _)

theorem sound_testResult {qs : Want} (s : State) (v : Nat) (hs : Sound qs s) :
    Sound qs (testResult s v) := by
  unfold testResult
  repeat' (first
    | with_reducible assumption
    | with_reducible apply sound_setP
    | extract_lets
    | simp -zeta only [sound_mk_iff]
    | split)

theorem sound_formConfig {qs : Want} (s : State) (hs : Sound qs s) :
    Sound qs (formConfig s) := by
  unfold formConfig
  repeat' (first
    | with_reducible assumption
    | with_reducible apply sound_setP
    | with_reducible apply sound_testResult
    | (with_reducible apply sound_foldl; intro _ _ _)
    | (with_reducible apply pairK_foldl; intro _ _ _)
    | (with_reducible apply PairK.snd; with_reducible apply pairK_foldl; intro _ _ _)
    | (with_reducible apply fstK_foldl; intro _ _ _)
    | (with_reducible apply FstK.snd; with_reducible apply fstK_foldl; intro _ _ _)
    | extract_lets
    | simp -zeta only [pairK_iff, pair3K_iff, fstK_iff, midK_iff]
    | simp -zeta only []
    | split)

theorem sound_macDefault {qs : Want} (hash : List Byte) (s : State) (idx : Nat) (hs : Sound qs s) :
    Sound qs (macDefault hash s idx) := by
  unfold macDefault
  repeat' (first
    | with_reducible assumption
    | with_reducible apply sound_setP
    | simp -zeta only [pairK_iff, pair3K_iff, fstK_iff, midK_iff]
    | simp -zeta only []
    | split)

theorem sound_serialDefaults {qs : Want} (s : State) (hash : List Byte) (hs : Sound qs s) :
    Sound qs (serialDefaults s hash) := by
  unfold serialDefaults
  repeat' (first
    | with_reducible assumption
    | with_reducible apply sound_setP
    | with_reducible apply sound_macDefault
    | (with_reducible apply sound_foldl; intro _ _ _)
    | (with_reducible apply pairK_foldl; intro _ _ _)
    | (with_reducible apply PairK.snd; with_reducible apply pairK_foldl; intro _ _ _)
    | (with_reducible apply fstK_foldl; intro _ _ _)
    | (with_reducible apply FstK.snd; with_reducible apply fstK_foldl; intro _ _ _)
    | split)

theorem sound_bootDone {qs : Want} (s : State) (hs : Sound qs s) :
    Sound qs (bootDone s) := by
  unfold bootDone
  repeat' (first
    | with_reducible assumption
    | with_reducible apply sound_setP
    | with_reducible apply sound_count
    | with_reducible apply sound_recordBoot
    | with_reducible apply sound_startState
    | with_reducible apply sound_serialDefaults
    | extract_lets
    | split)

theorem sound_failBit {qs : Want} (s : State) (b : Nat) (hs : Sound qs s) :
    Sound qs (failBit s b) := by
  unfold failBit
  repeat' (first
    | with_reducible assumption
    | with_reducible apply sound_setP
    | with_reducible apply sound_testResult
    | extract_lets
    | simp -zeta only [pairK_iff, pair3K_iff, fstK_iff, midK_iff]
    | simp -zeta only [sound_mk_iff]
    | simp -zeta only []
    | split
    | (with_reducible apply sound_ite)
    | (rename_i y; subst y)
    | (rename_i y _; subst y)
    | (rename_i y _ _; subst y)
    | (rename_i y _ _ _; subst y)
    | (rename_i y _ _ _ _; subst y)
    | (rename_i y _ _ _ _ _; subst y)
    | (rename_i y _ _ _ _ _ _; subst y)
    | (rename_i y _ _ _ _ _ _ _; subst y)
    | (rename_i y _ _ _ _ _ _ _ _; subst y)
    | intro _)

theorem sound_onReady {qs : Want} (s : State) (b : Nat) (hs : Sound qs s) : OptK qs (onReady s b) := by
  unfold onReady
  split
  · exact optK_some (sound_bootDone _ hs)
  split
  · exact optK_map (sound_gaugeBoot _ hs) fun t ht => sound_setP _ _ _ ht
  split
  · split
    · exact optK_some (sound_formConfig _ hs)
    · exact optK_some hs
  split
  · split
    · exact optK_some hs
    · exact optK_some (sound_setLink _ _ _ hs)
  split
  · split
    · exact optK_some hs
    · exact optK_some (sound_setLink _ _ _ hs)
  exact optK_some hs

theorem sound_setReady {qs : Want} (s : State) (b : Nat) (hs : Sound qs s) :
    Sound qs (setReady s b) := by
  unfold setReady
  repeat' (first
    | with_reducible assumption
    | with_reducible apply sound_setP
    | with_reducible apply sound_makeRecord
    | extract_lets
    | simp -zeta only [pairK_iff, pair3K_iff, fstK_iff, midK_iff]
    | simp -zeta only [sound_mk_iff]
    | simp -zeta only []
    | split
    | (with_reducible apply sound_ite)
    | (rename_i y; subst y)
    | (rename_i y _; subst y)
    | (rename_i y _ _; subst y)
    | (rename_i y _ _ _; subst y)
    | (rename_i y _ _ _ _; subst y)
    | (rename_i y _ _ _ _ _; subst y)
    | (rename_i y _ _ _ _ _ _; subst y)
    | (rename_i y _ _ _ _ _ _ _; subst y)
    | (rename_i y _ _ _ _ _ _ _ _; subst y)
    | intro _)

theorem sound_execFunctionReady {qs : Want} (b : Nat) (ok : Bool) (ms : Nat) (s : State) (hs : Sound qs s) :
    OutK qs (execFunctionReady b ok ms s) := by
  unfold execFunctionReady
  repeat' (first
    | with_reducible assumption
    | with_reducible apply outK_fault
    | with_reducible apply outK_refused
    | with_reducible apply outK_next
    | with_reducible apply sound_toNs
    | with_reducible apply sound_failBit
    | with_reducible apply sound_onReady
    | with_reducible apply sound_setReady
    | (refine OptK.elim (by assumption) ?_)
    | extract_lets
    | simp -zeta only [pairK_iff, pair3K_iff, fstK_iff, midK_iff]
    | simp -zeta only []
    | split)

end Sys2Proof.Machine
end

