-- ==== Sys2Proof/Laws/SoundSpp.lean ====
section
/-!
SUPPORT. The operations of Spp.lean keep memory and marks canonical and leave the queue alone.
-/
set_option linter.unusedSimpArgs false
set_option linter.unusedVariables false

namespace Sys2Proof.Machine

theorem sound_writeVersion {qs : Want} (s : State) (v : Nat) (hs : Sound qs s) :
    PairK qs (writeVersion s v) := by
  unfold writeVersion
  repeat' (first
    | with_reducible assumption
    | with_reducible apply sound_setP
    | simp -zeta only [pairK_iff, pair3K_iff, fstK_iff, midK_iff]
    | split)

theorem sound_execVersionSelectedWrite {qs : Want} (v : Nat) (s : State) (hs : Sound qs s) :
    OutK qs (execVersionSelectedWrite v s) := by
  unfold execVersionSelectedWrite
  repeat' (first
    | with_reducible assumption
    | with_reducible apply outK_fault
    | with_reducible apply outK_refused
    | with_reducible apply outK_next
    | with_reducible apply sound_gated
    | with_reducible apply sound_writeVersion
    | (with_reducible apply PairK.snd; with_reducible apply sound_writeVersion)
    | (refine PairK.elim (by assumption) ?_)
    | extract_lets
    | simp -zeta only [pairK_iff, pair3K_iff, fstK_iff, midK_iff]
    | simp -zeta only []
    | split
    | (with_reducible apply sound_ite)
    | (rename_i y; subst y)
    | (rename_i y _; subst y)
    | (rename_i y _ _; subst y)
    | (rename_i y _ _ _; subst y)
    | (rename_i y _ _ _ _; subst y)
    | (rename_i y _ _ _ _ _; subst y)
    | (rename_i y _ _ _ _ _ _; subst y)
    | (rename_i y _ _ _ _ _ _ _; subst y)
    | (rename_i y _ _ _ _ _ _ _ _; subst y)
    | intro _)

theorem sound_sessionClose {qs : Want} (s : State) (arg : Nat) (hs : Sound qs s) :
    PairK qs (sessionClose s arg) := by
  unfold sessionClose
  repeat' (first
    | with_reducible assumption
    | with_reducible apply sound_closeSlot
    | simp -zeta only [pairK_iff, pair3K_iff, fstK_iff, midK_iff]
    | split)

theorem sound_execSessionClose {qs : Want} (arg : Nat) (s : State) (hs : Sound qs s) :
    OutK qs (execSessionClose arg s) := by
  unfold execSessionClose
  repeat' (first
    | with_reducible assumption
    | with_reducible apply outK_fault
    | with_reducible apply outK_refused
    | with_reducible apply outK_next
    | with_reducible apply sound_gated
    | with_reducible apply sound_sessionClose
    | (with_reducible apply PairK.snd; with_reducible apply sound_sessionClose)
    | (refine PairK.elim (by assumption) ?_)
    | extract_lets
    | simp -zeta only [pairK_iff, pair3K_iff, fstK_iff, midK_iff]
    | simp -zeta only []
    | split
    | (with_reducible apply sound_ite)
    | (rename_i y; subst y)
    | (rename_i y _; subst y)
    | (rename_i y _ _; subst y)
    | (rename_i y _ _ _; subst y)
    | (rename_i y _ _ _ _; subst y)
    | (rename_i y _ _ _ _ _; subst y)
    | (rename_i y _ _ _ _ _ _; subst y)
    | (rename_i y _ _ _ _ _ _ _; subst y)
    | (rename_i y _ _ _ _ _ _ _ _; subst y)
    | intro _)

theorem sound_later {qs : Want} (s : State) (i : Instr) (hs : Sound qs s) :
    Sound qs (later s i) := by
  unfold later
  repeat' (first
    | with_reducible assumption
    | simp -zeta only [sound_mk_iff]
    | split)

theorem sound_runLater {qs : Want}  : ∀ (x0 : Instr) (s : State) , Sound qs s →
    Sound qs (runLater s x0) := by
  intro x0
  intros
  unfold runLater
  repeat' (first
    | with_reducible assumption
    | with_reducible apply sound_writePortMode
    | (with_reducible apply PairK.snd; with_reducible apply sound_writePortMode)
    | with_reducible apply sound_writeHostKey
    | (with_reducible apply PairK.snd; with_reducible apply sound_writeHostKey)
    | with_reducible apply sound_startWarm
    | (with_reducible apply PairK.snd; with_reducible apply sound_startWarm)
    | with_reducible apply sound_sessionClose
    | (with_reducible apply PairK.snd; with_reducible apply sound_sessionClose)
    | (refine PairK.elim (by assumption) ?_)
    | split)

theorem sound_afterResponse {qs : Want} (s : State) (hs : Sound qs s) :
    Sound qs (afterResponse s) := by
  unfold afterResponse
  repeat' (first
    | with_reducible assumption
    | with_reducible apply sound_runLater
    | (with_reducible apply sound_foldl; intro _ _ _)
    | (with_reducible apply pairK_foldl; intro _ _ _)
    | (with_reducible apply PairK.snd; with_reducible apply pairK_foldl; intro _ _ _)
    | (with_reducible apply fstK_foldl; intro _ _ _)
    | (with_reducible apply FstK.snd; with_reducible apply fstK_foldl; intro _ _ _)
    | extract_lets
    | simp -zeta only [sound_mk_iff]
    | split)

theorem sound_domainCommand {qs : Want} (s : State) (d v : Nat) (hs : Sound qs s) :
    PairK qs (domainCommand s d v) := by
  unfold domainCommand
  repeat' (first
    | with_reducible assumption
    | with_reducible apply sound_abortDomain
    | (with_reducible apply PairK.snd; with_reducible apply sound_abortDomain)
    | with_reducible apply sound_releaseDomain
    | (with_reducible apply PairK.snd; with_reducible apply sound_releaseDomain)
    | with_reducible apply sound_loadDomain
    | (with_reducible apply PairK.snd; with_reducible apply sound_loadDomain)
    | with_reducible apply sound_runDomain
    | (with_reducible apply PairK.snd; with_reducible apply sound_runDomain)
    | with_reducible apply sound_loadRunDomain
    | (with_reducible apply PairK.snd; with_reducible apply sound_loadRunDomain)
    | (refine PairK.elim (by assumption) ?_)
    | simp -zeta only [pairK_iff, pair3K_iff, fstK_iff, midK_iff]
    | split)

theorem sound_haltCommand {qs : Want} (s : State) (v : Nat) (hs : Sound qs s) :
    PairK qs (haltCommand s v) := by
  unfold haltCommand
  repeat' (first
    | with_reducible assumption
    | with_reducible apply sound_haltResume
    | (with_reducible apply PairK.snd; with_reducible apply sound_haltResume)
    | with_reducible apply sound_haltFail
    | (with_reducible apply PairK.snd; with_reducible apply sound_haltFail)
    | (refine PairK.elim (by assumption) ?_)
    | simp -zeta only [pairK_iff, pair3K_iff, fstK_iff, midK_iff]
    | split)

theorem sound_writePort {qs : Want} (s : State) (port sub v key : Nat) (hs : Sound qs s) :
    PairK qs (writePort s port sub v key) := by
  unfold writePort
  repeat' (first
    | with_reducible assumption
    | with_reducible apply sound_writePortMode
    | (with_reducible apply PairK.snd; with_reducible apply sound_writePortMode)
    | with_reducible apply sound_writePlain
    | (with_reducible apply PairK.snd; with_reducible apply sound_writePlain)
    | with_reducible apply sound_later
    | (refine PairK.elim (by assumption) ?_)
    | simp -zeta only [pairK_iff, pair3K_iff, fstK_iff, midK_iff]
    | split)

theorem sound_writeMemory {qs : Want} (s : State) (i sub v : Nat) (hs : Sound qs s) :
    PairK qs (writeMemory s i sub v) := by
  unfold writeMemory
  repeat' (first
    | with_reducible assumption
    | with_reducible apply sound_setP
    | with_reducible apply sound_trimCache
    | with_reducible apply sound_ptFlush
    | (with_reducible apply PairK.snd; with_reducible apply sound_ptFlush)
    | with_reducible apply sound_writeStashDomain
    | (with_reducible apply PairK.snd; with_reducible apply sound_writeStashDomain)
    | with_reducible apply sound_regulatorWrite
    | (with_reducible apply PairK.snd; with_reducible apply sound_regulatorWrite)
    | with_reducible apply sound_writeThrottle
    | (with_reducible apply PairK.snd; with_reducible apply sound_writeThrottle)
    | with_reducible apply sound_writePlain
    | (with_reducible apply PairK.snd; with_reducible apply sound_writePlain)
    | (with_reducible apply sound_foldl; intro _ _ _)
    | (with_reducible apply pairK_foldl; intro _ _ _)
    | (with_reducible apply PairK.snd; with_reducible apply pairK_foldl; intro _ _ _)
    | (with_reducible apply fstK_foldl; intro _ _ _)
    | (with_reducible apply FstK.snd; with_reducible apply fstK_foldl; intro _ _ _)
    | (refine PairK.elim (by assumption) ?_)
    | extract_lets
    | simp -zeta only [pairK_iff, pair3K_iff, fstK_iff, midK_iff]
    | split)

theorem sound_writeParam {qs : Want} (s : State) (key : Nat) (bs : List Byte) (hs : Sound qs s) :
    PairK qs (writeParam s key bs) := by
  unfold writeParam
  extract_lets i sub r v
  clear_value i sub r v
  repeat' (first
    | with_reducible assumption
    | with_reducible apply pairK_ite
    | with_reducible apply sound_domainCommand
    | with_reducible apply sound_writeDomainParam
    | with_reducible apply sound_writeTree
    | with_reducible apply sound_writeMcast
    | with_reducible apply sound_writePort
    | with_reducible apply sound_writeCvc
    | with_reducible apply sound_writePeer
    | with_reducible apply sound_writeSnapParam
    | with_reducible apply sound_writeRegion
    | with_reducible apply sound_writeMemory
    | with_reducible apply sound_writeVersion
    | with_reducible apply sound_writeTarget
    | with_reducible apply sound_writeService
    | with_reducible apply sound_writeThermal
    | with_reducible apply sound_testAck
    | with_reducible apply sound_attestGenerate
    | with_reducible apply sound_writeMacsec
    | with_reducible apply sound_writeUpdateBank
    | with_reducible apply sound_updateData
    | with_reducible apply sound_updateVerify
    | with_reducible apply sound_writeQuota
    | with_reducible apply sound_haltCommand
    | with_reducible apply sound_writePlain
    | with_reducible apply sound_startDma
    | with_reducible apply sound_writeTrigger
    | with_reducible apply sound_writePtp
    | with_reducible apply sound_writeStep
    | with_reducible apply sound_writeResume
    | with_reducible apply sound_writeRegistry
    | with_reducible apply sound_writeGradFloor
    | with_reducible apply sound_writeNanPolicy
    | with_reducible apply sound_clearNans
    | with_reducible apply sound_writeMonTensor
    | with_reducible apply sound_clearMon
    | with_reducible apply sound_ackRecords
    | with_reducible apply sound_recordGenerate
    | with_reducible apply sound_writeInterval
    | with_reducible apply sound_writeSealRequest
    | with_reducible apply sound_sealExecute
    | with_reducible apply sound_later
    | with_reducible apply sound_setP
    | simp -zeta only [pairK_iff]
    | split)

theorem sound_checkedWrite {qs : Want} (s : State) (key : Nat) (bs : List Byte) (hs : Sound qs s) :
    PairK qs (checkedWrite s key bs) := by
  unfold checkedWrite
  repeat' (first
    | with_reducible assumption
    | with_reducible apply sound_writeParam
    | (with_reducible apply PairK.snd; with_reducible apply sound_writeParam)
    | (refine PairK.elim (by assumption) ?_)
    | (refine FstK.elim (by assumption) ?_)
    | extract_lets
    | simp -zeta only [pairK_iff, pair3K_iff, fstK_iff, midK_iff]
    | simp -zeta only []
    | split)

theorem sound_execRegisterWrite {qs : Want} (key : Nat) (bs : List Byte) (s : State) (hs : Sound qs s) :
    OutK qs (execRegisterWrite key bs s) := by
  unfold execRegisterWrite
  repeat' (first
    | with_reducible assumption
    | with_reducible apply outK_fault
    | with_reducible apply outK_refused
    | with_reducible apply outK_next
    | with_reducible apply sound_wrote
    | with_reducible apply sound_afterResponse
    | with_reducible apply sound_checkedWrite
    | (with_reducible apply PairK.snd; with_reducible apply sound_checkedWrite)
    | (refine PairK.elim (by assumption) ?_)
    | (refine FstK.elim (by assumption) ?_)
    | extract_lets
    | simp -zeta only [pairK_iff, pair3K_iff, fstK_iff, midK_iff]
    | simp -zeta only [sound_mk_iff]
    | simp -zeta only []
    | split)

theorem sound_sendSession {qs : Want} (s : State) (k : Nat) (m : SppMsg) (hs : Sound qs s) :
    Sound qs (sendSession s k m) := by
  unfold sendSession
  repeat' (first
    | with_reducible assumption
    | with_reducible apply sound_emit
    | with_reducible apply sound_setSession
    | extract_lets
    | simp -zeta only [sound_mk_iff]
    | split)

theorem sound_rejectMsg {qs : Want} (s : State) (hs : Sound qs s) :
    Sound qs (rejectMsg s) := by
  unfold rejectMsg
  repeat' (first
    | with_reducible assumption
    | with_reducible apply sound_incP
    | split)

theorem sound_sendOpen2 {qs : Want} (s : State) (src : SppSrc) (m : SppMsg) (hs : Sound qs s) :
    Sound qs (sendOpen2 s src m) := by
  unfold sendOpen2
  repeat' (first
    | with_reducible assumption
    | with_reducible apply sound_emit
    | split)

theorem sound_openSession {qs : Want} (s : State) (src : SppSrc) (m : SppMsg) (hs : Sound qs s) :
    Sound qs (openSession s src m) := by
  unfold openSession
  repeat' (first
    | with_reducible assumption
    | with_reducible apply sound_incP
    | with_reducible apply sound_setSession
    | with_reducible apply sound_sendOpen2
    | extract_lets
    | simp -zeta only [pairK_iff, pair3K_iff, fstK_iff, midK_iff]
    | simp -zeta only [sound_mk_iff]
    | simp -zeta only []
    | split)

theorem sound_execOpen1 {qs : Want} (src : SppSrc) (m : SppMsg) (s : State) (hs : Sound qs s) :
    OutK qs (execOpen1 src m s) := by
  unfold execOpen1
  repeat' (first
    | with_reducible assumption
    | with_reducible apply outK_fault
    | with_reducible apply outK_refused
    | with_reducible apply outK_next
    | with_reducible apply sound_rxOk
    | with_reducible apply sound_rxDrop
    | with_reducible apply sound_openSession
    | split)

theorem sound_openDone {qs : Want} (s : State) (k : Nat) (m : SppMsg) (hs : Sound qs s) :
    Sound qs (openDone s k m) := by
  unfold openDone
  repeat' (first
    | with_reducible assumption
    | with_reducible apply sound_incP
    | with_reducible apply sound_setSession
    | with_reducible apply sound_closeSlot
    | with_reducible apply sound_sendSession
    | extract_lets
    | simp -zeta only [sound_mk_iff]
    | split)

theorem sound_closeWorn {qs : Want} (s : State) (k : Nat) (hs : Sound qs s) :
    Sound qs (closeWorn s k) := by
  unfold closeWorn
  repeat' (first
    | with_reducible assumption
    | with_reducible apply sound_closeSlot
    | extract_lets
    | split)

theorem sound_sessionMsg {qs : Want} (s : State) (src : SppSrc) (m : SppMsg) (f : State → Nat → State) (hs : Sound qs s) (hf : ∀ x0 x1, Sound qs x0 → Sound qs (f x0 x1)) :
    Sound qs (sessionMsg s src m f) := by
  unfold sessionMsg
  repeat' (first
    | with_reducible assumption
    | with_reducible apply hf
    | (refine PairK.snd (hf _ ?_))
    | with_reducible apply sound_rxOk
    | with_reducible apply sound_rxDrop
    | with_reducible apply sound_setSession
    | with_reducible apply sound_afterResponse
    | with_reducible apply sound_rejectMsg
    | with_reducible apply sound_closeWorn
    | (refine OptK.elim (by assumption) ?_)
    | (refine PairK.elim (by assumption) ?_)
    | (refine OutK.elim (by assumption) ?_)
    | extract_lets
    | simp -zeta only [pairK_iff, pair3K_iff, fstK_iff, midK_iff]
    | simp -zeta only [sound_mk_iff]
    | split)

theorem sound_execOpen3 {qs : Want} (src : SppSrc) (m : SppMsg) (s : State) (hs : Sound qs s) :
    OutK qs (execOpen3 src m s) := by
  unfold execOpen3
  repeat' (first
    | with_reducible assumption
    | with_reducible apply outK_fault
    | with_reducible apply outK_refused
    | with_reducible apply outK_next
    | with_reducible apply sound_openDone
    | with_reducible apply sound_sessionMsg
    | extract_lets
    | simp -zeta only [pairK_iff, pair3K_iff, fstK_iff, midK_iff]
    | simp -zeta only []
    | split
    | (with_reducible apply sound_ite)
    | (rename_i y; subst y)
    | (rename_i y _; subst y)
    | (rename_i y _ _; subst y)
    | (rename_i y _ _ _; subst y)
    | (rename_i y _ _ _ _; subst y)
    | (rename_i y _ _ _ _ _; subst y)
    | (rename_i y _ _ _ _ _ _; subst y)
    | (rename_i y _ _ _ _ _ _ _; subst y)
    | (rename_i y _ _ _ _ _ _ _ _; subst y)
    | intro _)

theorem sound_execOpen3Timeout {qs : Want} (k : Nat) (s : State) (hs : Sound qs s) :
    OutK qs (execOpen3Timeout k s) := by
  unfold execOpen3Timeout
  repeat' (first
    | with_reducible assumption
    | with_reducible apply outK_fault
    | with_reducible apply outK_refused
    | with_reducible apply outK_next
    | with_reducible apply sound_toNs
    | with_reducible apply sound_closeSlot
    | split)

theorem sound_execSessionIdleTimeout {qs : Want} (k : Nat) (s : State) (hs : Sound qs s) :
    OutK qs (execSessionIdleTimeout k s) := by
  unfold execSessionIdleTimeout
  repeat' (first
    | with_reducible assumption
    | with_reducible apply outK_fault
    | with_reducible apply outK_refused
    | with_reducible apply outK_next
    | with_reducible apply sound_toNs
    | with_reducible apply sound_closeSlot
    | split)

theorem sound_runItems {qs : Want}  : ∀ (x0 : List Item) (last : Bool → Bool) (x1 : Bool) (x2 : State), Sound qs x2 →
    Pair3K qs (runItems last x0 x1 x2) := by
  intro x0
  induction x0 with
  | nil => (intros; unfold runItems; first | assumption | (with_reducible apply pairK_mk; assumption) | (with_reducible apply pair3K_mk; assumption))
  | cons x0 xr ih => (
  intros
  unfold runItems
  repeat' (first
    | with_reducible assumption
    | with_reducible apply ih
    | (with_reducible apply Pair3K.snd; with_reducible apply ih)
    | with_reducible apply sound_checkedWrite
    | (with_reducible apply PairK.snd; with_reducible apply sound_checkedWrite)
    | (refine PairK.elim (by assumption) ?_)
    | (refine FstK.elim (by assumption) ?_)
    | extract_lets
    | simp -zeta only [pairK_iff, pair3K_iff, fstK_iff, midK_iff]
    | simp -zeta only [sound_mk_iff]
    | simp -zeta only []
    | split))

theorem sound_accessItems {qs : Want} (s : State) (items : List Item) (hs : Sound qs s) :
    Pair3K qs (accessItems s items) := by
  unfold accessItems
  repeat' (first
    | with_reducible assumption
    | with_reducible apply sound_runItems
    | (with_reducible apply Pair3K.snd; with_reducible apply sound_runItems)
    | (refine PairK.elim (by assumption) ?_)
    | (refine FstK.elim (by assumption) ?_)
    | (refine Pair3K.elim (by assumption) ?_)
    | extract_lets
    | simp -zeta only [pairK_iff, pair3K_iff, fstK_iff, midK_iff]
    | simp -zeta only [sound_mk_iff]
    | simp -zeta only []
    | split)

theorem sound_keepAnswer {qs : Want} (s : State) (k : Nat) (m a : SppMsg) (hs : Sound qs s) :
    Sound qs (keepAnswer s k m a) := by
  unfold keepAnswer
  repeat' (first
    | with_reducible assumption
    | with_reducible apply sound_setSession
    | extract_lets
    | simp -zeta only [sound_mk_iff]
    | split)

theorem sound_respond {qs : Want} (s s' : State) (k : Nat) (m a : SppMsg) (hs : Sound qs s) (hs' : Sound qs s') :
    Sound qs (respond s s' k m a) := by
  unfold respond
  repeat' (first
    | with_reducible assumption
    | with_reducible apply sound_sendSession
    | with_reducible apply sound_keepAnswer
    | simp -zeta only [pairK_iff, pair3K_iff, fstK_iff, midK_iff]
    | simp -zeta only [sound_mk_iff]
    | simp -zeta only []
    | split)

theorem sound_request {qs : Want} (s : State) (k : Nat) (m : SppMsg) (known : Bool)
    (f : State → Nat × Nat × List Byte × State) (hs : Sound qs s) (hf : ∀ t, Sound qs t → Sound qs (f t).2.2.2) :
    Sound qs (request s k m known f) := by
  unfold request
  split
  · exact hs
  split
  · split <;> exact sound_sendSession _ _ _ hs
  · split
    rename_i a t h
    have ht : Sound qs t := by
      split at h
      · cases h; exact hs
      split at h
      · cases h; exact hs
      split at h
      · cases h; exact hs
      · split at h
        rename_i st n body s' hfs
        have := hf s hs
        rw [hfs] at this
        split at h <;> cases h
        · exact hs
        · exact this
    exact sound_respond _ _ _ _ _ hs ht

theorem sound_execPtFlush {qs : Want} (v : Nat) (s : State) (hs : Sound qs s) :
    OutK qs (execPtFlush v s) := by
  unfold execPtFlush
  repeat' (first
    | with_reducible assumption
    | with_reducible apply outK_fault
    | with_reducible apply outK_refused
    | with_reducible apply outK_next
    | with_reducible apply sound_gated
    | with_reducible apply sound_ptFlush
    | (with_reducible apply PairK.snd; with_reducible apply sound_ptFlush)
    | with_reducible apply sound_sendSession
    | with_reducible apply sound_keepAnswer
    | (refine PairK.elim (by assumption) ?_)
    | extract_lets
    | simp -zeta only [pairK_iff, pair3K_iff, fstK_iff, midK_iff]
    | simp -zeta only [sound_mk_iff]
    | simp -zeta only []
    | split
    | (with_reducible apply sound_ite)
    | (rename_i y; subst y)
    | (rename_i y _; subst y)
    | (rename_i y _ _; subst y)
    | (rename_i y _ _ _; subst y)
    | (rename_i y _ _ _ _; subst y)
    | (rename_i y _ _ _ _ _; subst y)
    | (rename_i y _ _ _ _ _ _; subst y)
    | (rename_i y _ _ _ _ _ _ _; subst y)
    | (rename_i y _ _ _ _ _ _ _ _; subst y)
    | intro _)

theorem sound_execAccess {qs : Want} (src : SppSrc) (m : SppMsg) (s : State) (hs : Sound qs s) :
    OutK qs (execAccess src m s) := by
  unfold execAccess
  repeat' (first
    | with_reducible assumption
    | with_reducible apply outK_fault
    | with_reducible apply outK_refused
    | with_reducible apply outK_next
    | with_reducible apply sound_sessionMsg
    | with_reducible apply sound_accessItems
    | (with_reducible apply Pair3K.snd; with_reducible apply sound_accessItems)
    | with_reducible apply sound_request
    | (refine PairK.elim (by assumption) ?_)
    | (refine FstK.elim (by assumption) ?_)
    | (refine Pair3K.elim (by assumption) ?_)
    | extract_lets
    | simp -zeta only [pairK_iff, pair3K_iff, fstK_iff, midK_iff]
    | simp -zeta only []
    | split
    | (with_reducible apply sound_ite)
    | (rename_i y; subst y)
    | (rename_i y _; subst y)
    | (rename_i y _ _; subst y)
    | (rename_i y _ _ _; subst y)
    | (rename_i y _ _ _ _; subst y)
    | (rename_i y _ _ _ _ _; subst y)
    | (rename_i y _ _ _ _ _ _; subst y)
    | (rename_i y _ _ _ _ _ _ _; subst y)
    | (rename_i y _ _ _ _ _ _ _ _; subst y)
    | intro _)

theorem sound_execClose {qs : Want} (src : SppSrc) (m : SppMsg) (s : State) (hs : Sound qs s) :
    OutK qs (execClose src m s) := by
  unfold execClose
  repeat' (first
    | with_reducible assumption
    | with_reducible apply outK_fault
    | with_reducible apply outK_refused
    | with_reducible apply outK_next
    | with_reducible apply sound_sessionClose
    | (with_reducible apply PairK.snd; with_reducible apply sound_sessionClose)
    | with_reducible apply sound_later
    | with_reducible apply sound_sessionMsg
    | with_reducible apply sound_request
    | (refine PairK.elim (by assumption) ?_)
    | extract_lets
    | simp -zeta only [pairK_iff, pair3K_iff, fstK_iff, midK_iff]
    | simp -zeta only []
    | split
    | (with_reducible apply sound_ite)
    | (rename_i y; subst y)
    | (rename_i y _; subst y)
    | (rename_i y _ _; subst y)
    | (rename_i y _ _ _; subst y)
    | (rename_i y _ _ _ _; subst y)
    | (rename_i y _ _ _ _ _; subst y)
    | (rename_i y _ _ _ _ _ _; subst y)
    | (rename_i y _ _ _ _ _ _ _; subst y)
    | (rename_i y _ _ _ _ _ _ _ _; subst y)
    | intro _)

theorem sound_execKeepalive {qs : Want} (src : SppSrc) (m : SppMsg) (s : State) (hs : Sound qs s) :
    OutK qs (execKeepalive src m s) := by
  unfold execKeepalive
  repeat' (first
    | with_reducible assumption
    | with_reducible apply outK_fault
    | with_reducible apply outK_refused
    | with_reducible apply outK_next
    | with_reducible apply sound_sessionMsg
    | with_reducible apply sound_request
    | extract_lets
    | simp -zeta only [pairK_iff, pair3K_iff, fstK_iff, midK_iff]
    | simp -zeta only []
    | split
    | (with_reducible apply sound_ite)
    | (rename_i y; subst y)
    | (rename_i y _; subst y)
    | (rename_i y _ _; subst y)
    | (rename_i y _ _ _; subst y)
    | (rename_i y _ _ _ _; subst y)
    | (rename_i y _ _ _ _ _; subst y)
    | (rename_i y _ _ _ _ _ _; subst y)
    | (rename_i y _ _ _ _ _ _ _; subst y)
    | (rename_i y _ _ _ _ _ _ _ _; subst y)
    | intro _)

theorem sound_setSub {qs : Want} (s : State) (n : Nat) (v : Option Subscr) (hs : Sound qs s) :
    Sound qs (setSub s n v) := by
  unfold setSub
  repeat' (first
    | with_reducible assumption
    | simp -zeta only [sound_mk_iff]
    | split)

theorem sound_sampleSub {qs : Want} (s : State) (n : Nat) (hs : Sound qs s) :
    Sound qs (sampleSub s n) := by
  unfold sampleSub
  repeat' (first
    | with_reducible assumption
    | with_reducible apply sound_sendSession
    | with_reducible apply sound_setSub
    | extract_lets
    | simp -zeta only [sound_mk_iff]
    | split)

theorem sound_addSubs {qs : Want}  : ∀ (x0 : List (List Byte)) (k : Nat) (x1 : State), Sound qs x1 →
    Pair3K qs (addSubs k x0 x1) := by
  intro x0
  induction x0 with
  | nil => (intros; unfold addSubs; first | assumption | (with_reducible apply pairK_mk; assumption) | (with_reducible apply pair3K_mk; assumption))
  | cons x0 xr ih => (
  intros
  unfold addSubs
  repeat' (first
    | with_reducible assumption
    | with_reducible apply ih
    | (with_reducible apply Pair3K.snd; with_reducible apply ih)
    | with_reducible apply sound_setSub
    | (refine PairK.elim (by assumption) ?_)
    | (refine FstK.elim (by assumption) ?_)
    | extract_lets
    | simp -zeta only [pairK_iff, pair3K_iff, fstK_iff, midK_iff]
    | simp -zeta only []
    | split
    | (with_reducible apply sound_ite)
    | (rename_i y; subst y)
    | (rename_i y _; subst y)
    | (rename_i y _ _; subst y)
    | (rename_i y _ _ _; subst y)
    | (rename_i y _ _ _ _; subst y)
    | (rename_i y _ _ _ _ _; subst y)
    | (rename_i y _ _ _ _ _ _; subst y)
    | (rename_i y _ _ _ _ _ _ _; subst y)
    | (rename_i y _ _ _ _ _ _ _ _; subst y)
    | intro _))

theorem sound_execSubscribe {qs : Want} (src : SppSrc) (m : SppMsg) (s : State) (hs : Sound qs s) :
    OutK qs (execSubscribe src m s) := by
  unfold execSubscribe
  repeat' (first
    | with_reducible assumption
    | with_reducible apply outK_fault
    | with_reducible apply outK_refused
    | with_reducible apply outK_next
    | with_reducible apply sound_sessionMsg
    | with_reducible apply sound_request
    | with_reducible apply sound_sampleSub
    | with_reducible apply sound_addSubs
    | (with_reducible apply Pair3K.snd; with_reducible apply sound_addSubs)
    | (with_reducible apply sound_foldl; intro _ _ _)
    | (with_reducible apply pairK_foldl; intro _ _ _)
    | (with_reducible apply PairK.snd; with_reducible apply pairK_foldl; intro _ _ _)
    | (with_reducible apply fstK_foldl; intro _ _ _)
    | (with_reducible apply FstK.snd; with_reducible apply fstK_foldl; intro _ _ _)
    | (refine PairK.elim (by assumption) ?_)
    | (refine FstK.elim (by assumption) ?_)
    | (refine Pair3K.elim (by assumption) ?_)
    | extract_lets
    | simp -zeta only [pairK_iff, pair3K_iff, fstK_iff, midK_iff]
    | simp -zeta only []
    | split
    | (with_reducible apply sound_ite)
    | (rename_i y; subst y)
    | (rename_i y _; subst y)
    | (rename_i y _ _; subst y)
    | (rename_i y _ _ _; subst y)
    | (rename_i y _ _ _ _; subst y)
    | (rename_i y _ _ _ _ _; subst y)
    | (rename_i y _ _ _ _ _ _; subst y)
    | (rename_i y _ _ _ _ _ _ _; subst y)
    | (rename_i y _ _ _ _ _ _ _ _; subst y)
    | intro _)

theorem sound_execUnsubscribe {qs : Want} (src : SppSrc) (m : SppMsg) (s : State) (hs : Sound qs s) :
    OutK qs (execUnsubscribe src m s) := by
  unfold execUnsubscribe
  repeat' (first
    | with_reducible assumption
    | with_reducible apply outK_fault
    | with_reducible apply outK_refused
    | with_reducible apply outK_next
    | with_reducible apply sound_sessionMsg
    | with_reducible apply sound_request
    | with_reducible apply sound_setSub
    | (with_reducible apply sound_foldl; intro _ _ _)
    | (with_reducible apply pairK_foldl; intro _ _ _)
    | (with_reducible apply PairK.snd; with_reducible apply pairK_foldl; intro _ _ _)
    | (with_reducible apply fstK_foldl; intro _ _ _)
    | (with_reducible apply FstK.snd; with_reducible apply fstK_foldl; intro _ _ _)
    | extract_lets
    | simp -zeta only [pairK_iff, pair3K_iff, fstK_iff, midK_iff]
    | simp -zeta only []
    | split
    | (with_reducible apply sound_ite)
    | (rename_i y; subst y)
    | (rename_i y _; subst y)
    | (rename_i y _ _; subst y)
    | (rename_i y _ _ _; subst y)
    | (rename_i y _ _ _ _; subst y)
    | (rename_i y _ _ _ _ _; subst y)
    | (rename_i y _ _ _ _ _ _; subst y)
    | (rename_i y _ _ _ _ _ _ _; subst y)
    | (rename_i y _ _ _ _ _ _ _ _; subst y)
    | intro _)

theorem sound_execNotify {qs : Want} (n : Nat) (s : State) (hs : Sound qs s) :
    OutK qs (execNotify n s) := by
  unfold execNotify
  repeat' (first
    | with_reducible assumption
    | with_reducible apply outK_fault
    | with_reducible apply outK_refused
    | with_reducible apply outK_next
    | with_reducible apply sound_toNs
    | with_reducible apply sound_closeWorn
    | with_reducible apply sound_sampleSub
    | split)

end Sys2Proof.Machine
end

