-- ==== Sys2Proof/Tests/Slice0.lean ====
section
/-!
SUPPORT. Tests: the spec's worked examples and tables, ill-formed commands, and for every statement with hypotheses a
state and operands that meet them.
-/
namespace Sys2Proof.Tests
open Sys2Proof Sys2Proof.Machine

set_option Elab.async false

/-! ### Helpers -/

/-- A field value at the place of its lowest bit. -/
def fld (lo v : Nat) : Nat := v * 2 ^ lo

/-- A running domain of Eland core 0 and Chamois core 0. -/
def dom0 : Domain := { st := .running, started := true, cores := 1 + fld 36 1, strands := 1 }

/-- Domain 0 runs, owns strand 0 with a slice of 1 MiB, engine 0 of core 0, and tree 0 with core 0 as root and member. -/
def base : State :=
  setEng (setP (setP (setP (setP (setD State.reset 0 dom0) (pk 0x0853 1) 0) (pk 0x0851 1) 0x4000000) (pk 0x0910 1) (posOf 0))
    (pk 0x0910 2) (2 ^ posOf 0 + 2 ^ posOf 0x40)) 0 { part := 8 }

/-- Domain 0 runs; Eland core 0 is its own, and both needles have decoded the word `w`. -/
def elandS (w : Nat) : State :=
  let n : NeedleSt := { st := .active, decoded := [{ word := w, idx := 0, slot := 0, tag := some 0, push := false }] }
  setE base 0 { domF := some 0, domB := some 0, fore := n, back := { n with st := .parked } }

/-- Domain 0 runs; Chamois core 0 is its own and has decoded the word `w`. -/
def chamS (w : Nat) : State :=
  setC base 0 { dom := some 0, halted := false, decoded := [{ word := w, idx := 0, slot := 0, tag := some 0, push := false }] }

/-- An Eland word is at its turn on core 0 of `s`, and there `p` holds of the instruction and the state. -/
def eTurn (w : Nat) (s : State) (p : Ctx → State → Bool) : Bool :=
  match elandTurn 0 .fore (BitVec.ofNat 128 w) s with
  | some (x, _, t) => p x t
  | none => false

/-- A Chamois word is at its turn on core 0 of `s`, and there `p` holds of the instruction and the state. -/
def cTurn (w : Nat) (s : State) (p : CCtx → State → Bool) : Bool :=
  match chamTurn 0 (BitVec.ofNat 64 w) s with
  | some (x, _, t) => p x t
  | none => false

/-- The state after a command, or the state before where it does not answer one. -/
def after (i : Instr) (s : State) : State :=
  match exec i s with
  | .next t => t
  | _ => s

/-- A command answers a next state. -/
def runs (i : Instr) (s : State) : Bool :=
  match exec i s with
  | .next _ => true
  | _ => false

/-! ### Eland instructions at their turn -/

theorem test_eland_sequencing_turns :
    [0x00, 0x06 + fld 16 1 + fld 18 5, 0x05 + fld 18 3 + fld 21 3, 0x08 + fld 18 1 + fld 24 2,
      0x09 + fld 18 9 + fld 24 1 + fld 30 4].all (fun w => eTurn w (elandS w) fun _ _ => true) = true := by decide +kernel

theorem test_loop_and_tpos_turns :
    eTurn (0x02 + fld 18 64 + fld 25 1) (elandS (0x02 + fld 18 64 + fld 25 1)) (fun x _ =>
      decide (1 ≤ loopBody x.w) && decide (loopBody x.w ≤ 64) && decide (1 ≤ loopCount x.w)) = true ∧
    eTurn (0x07 + fld 18 64) (elandS (0x07 + fld 18 64)) (fun x _ =>
      decide (0 < tposWidth x.w) && decide (tposWidth x.w % 64 = 0)) = true := by decide +kernel

/-- The frame of the sequencing instructions has its next state too. -/
theorem test_sequencing_next :
    runs (.nop 0 .fore 0x00) (elandS 0x00) = true ∧
    runs (.loop 0 .fore (BitVec.ofNat 128 (0x02 + fld 18 1 + fld 25 1))) (elandS (0x02 + fld 18 1 + fld 25 1)) = true ∧
    runs (.setb 0 .fore (BitVec.ofNat 128 (0x06 + fld 16 1))) (elandS (0x06 + fld 16 1)) = true ∧
    runs (.tpos 0 .fore (BitVec.ofNat 128 (0x07 + fld 18 64))) (elandS (0x07 + fld 18 64)) = true ∧
    runs (.sync 0 .fore 0x08) (elandS 0x08) = true ∧ runs (.signal 0 .fore 0x09) (elandS 0x09) = true := by decide +kernel

/-- PICK without a stream and with stream 1 of the core, HALT with the other needle parked, PART of the present owners. -/
theorem test_pick_halt_part_turns :
    eTurn 0x03 (elandS 0x03) (fun x _ => !pickStreamEn x.w) = true ∧
    (let w := 0x03 + fld 41 1 + fld 56 1
     eTurn w (setStream (elandS w) 1 { st := 1, desc := fld 16 (posOf 0) }) fun x t =>
      pickStreamEn x.w && streamAt t (pickStream x.w) (posOf 0)) = true ∧
    eTurn 0x01 (elandS 0x01) (fun x t => decide ((getN (getE t x.c) x.n.other).st = .parked) && !(getE t x.c).shared) = true ∧
    eTurn (0x04 + fld 18 0xFFFF) (elandS (0x04 + fld 18 0xFFFF)) (fun x t =>
      (busyTiles t x.c).all fun k => bit (getE t x.c).foreTiles k == bit (partTiles x.w) k) = true := by decide +kernel

/-- An MMA of INT8 operands that passes its checks and finds room and engines and a core with nothing waiting, one that
finds engine 0 full, one that a check stops. -/
theorem test_mma_cases :
    let w := 0x10 + fld 18 1 + fld 30 9 + fld 35 9 + fld 43 1
    let op : Mma := ⟨0, 0, 0, 0, false, false, 9, 9, .cw, 1, 1, 0, 0, 0, 0, 0, false, true, 0, w, 0, 0, []⟩
    let full := setEng (elandS w) 0 { part := 8, p0 := { ops := [op, op, op, op, op], idle := false } }
    let held (x : Ctx) (t : State) := (mmaEngines x.w).any fun m =>
      decide (mmaPlaces t x.c m ≤ queuedOps (getPart (getEng t (4 * x.c + m)) (halfIdx (mmaHalf x.w))))
    eTurn w (elandS w) (fun x t => (mmaCheck x t).isNone && !held x t && decide (mmaK x.w ≠ 0) &&
      (mmaEngines x.w).all (fun m => (getPart (getEng t (4 * x.c + m)) (halfIdx (mmaHalf x.w))).ops.isEmpty) &&
      (List.range 4).all fun m => (getPart (getEng t (4 * x.c + m)) (halfIdx (mmaHalf x.w))).ops.all fun o => decide (o.k ≠ 0)) =
        true ∧
    eTurn w full (fun x t => (mmaCheck x t).isNone && held x t) = true ∧
    eTurn 0x10 (elandS 0x10) (fun x t => (mmaCheck x t).isSome) = true := by decide +kernel

/-- An ACCRD that starts at once, one that waits behind another, one that a full queue holds, one whose push finds its slice
full, one that a check stops. -/
theorem test_accrd_cases :
    let w := 0x14 + fld 30 2 + fld 46 2
    let r : AccRead :=
      { id := 0, needle := 0, dom := 0, tile := 0, half := 0, word := w, dst := 0, aux := 0, width := 0, row := 0, col := 0,
        step := 0, dstep := 0, tag := none, offset := 0, pol := 0 }
    let with_ (l : List AccRead) := setEng (elandS w) 0 { part := 8, reads := l }
    let eng (x : Ctx) (t : State) := getEng t (4 * x.c + accEng x.w)
    let go (x : Ctx) (t : State) := (eng x t).reads.all fun r => decide (r.dom ≠ x.d) || r.taken == 64
    let space (x : Ctx) (t : State) := decide (queuedReads (eng x t) x.d < readPlaces t x.c)
    eTurn w (elandS w) (fun x t => (accCheck x t).isNone && !accPush x.w && go x t) = true ∧
    eTurn w (with_ [{ r with start := some 0 }]) (fun x t => (accCheck x t).isNone && !accPush x.w && !go x t && space x t) = true ∧
    eTurn w (with_ [{ r with start := some 0 }, r, r]) (fun x t =>
      (accCheck x t).isNone && !accPush x.w && !go x t && !space x t) = true ∧
    eTurn (w + fld 44 1) (setP (elandS (w + fld 44 1)) (pk 0x0851 1) 0) (fun x t => (accCheck x t).isNone && accPush x.w &&
      (stashFull t x.c (accStrand x.w) (imageLines (accFmtS x.w)) 1).isSome) = true ∧
    eTurn (w + fld 35 3) (elandS (w + fld 35 3)) (fun x t => (accCheck x t).isSome) = true := by decide +kernel

/-- Element instructions that pass their checks, and ones that a check stops. -/
theorem test_element_turns :
    let act := 0x18 + fld 18 2 + fld 23 2 + fld 93 1
    let cvt := 0x30 + fld 18 2 + fld 23 2 + fld 93 1
    let dact := 0x19 + fld 18 2 + fld 23 2 + fld 28 2 + fld 116 1
    let amax := 0x31 + fld 18 2 + fld 80 1
    eTurn act (elandS act) (fun x t => (elCheck x t false).isNone) = true ∧
    eTurn 0x18 (elandS 0x18) (fun x t => (elCheck x t false).isSome) = true ∧
    eTurn cvt (elandS cvt) (fun x t => (elCheck x t true).isNone) = true ∧
    eTurn 0x30 (elandS 0x30) (fun x t => (elCheck x t true).isSome) = true ∧
    eTurn dact (elandS dact) (fun x t => (dactCheck x t).isNone) = true ∧
    eTurn 0x19 (elandS 0x19) (fun x t => (dactCheck x t).isSome) = true ∧
    eTurn amax (elandS amax) (fun x _ => decide (amCount x.w ≠ 0) && fmtValid (amFmt x.w) && !x.addrBad) = true ∧
    eTurn 0x31 (elandS 0x31) (fun x _ => amCount x.w == 0) = true := by
  decide +kernel

/-- Five CVTs of the domain queued behind one that runs: the queue has no room. -/
theorem test_element_queue_full :
    let w := 0x30 + fld 18 2 + fld 23 2 + fld 93 1
    let j : ElemJob :=
      { word := w, needle := 0, dom := 0, offset := 0, src := 0, src2 := 0, dst := 0, width := 0, row := 0, col := 0,
        strand := 0, step := 0, pol := 0, issued := 0 }
    let s := setE (elandS w) 0 { getE (elandS w) 0 with elems := [{ j with start := some 0 }, j, j, j, j] }
    let room (x : Ctx) (t : State) := ((getE t x.c).elems.all fun j => decide (j.dom ≠ x.d) || j.next == elemRows j) ||
      decide (queuedElems (getE t x.c) x.d < elemPlaces (getE t x.c))
    eTurn w (elandS w) room = true ∧ eTurn w s (fun x t => (elCheck x t true).isNone && !room x t) = true := by decide +kernel

/-- The transfers of an Eland core with their checks passed. -/
theorem test_eland_transfer_turns :
    let sp := fld 37 2 + fld 60 1
    let inj := 0x20 + fld 18 1 + fld 21 2 + fld 29 1 + fld 53 1
    let take := 0x21 + fld 19 1
    let lines := fld 78 1
    let pu := fld 60 1 + fld 18 (posOf 0 % 8) + fld 21 (posOf 0 / 8)
    let rs := 0x2C + fld 40 1
    eTurn (0x1C + sp) (elandS (0x1C + sp)) (fun x t => (spCheck x t).isNone &&
      (stashFull t x.c (spStrand x.w) (imageLines (spFmt x.w)) (spCount x.w)).isNone) = true ∧
    eTurn (0x1D + sp) (elandS (0x1D + sp)) (fun x t => (spCheck x t).isNone) = true ∧
    eTurn inj (elandS inj) (fun x t => (injCheck x t).isNone &&
      decide (((getInj t x.c).filter fun r => r.dom == x.d && r.filled == 0).length < unitQueue t x.c 4)) = true ∧
    eTurn take (elandS take) (fun x t => (takeCheck x).isNone &&
      decide (((getTake t (takeDir x.w) x.c).ops.filter fun o => o.dom == x.d && o.tile == 0 && !o.inTile).length < unitQueue t x.c 4)) = true ∧
    [0x24 + lines, 0x25 + lines].all (fun w => eTurn w (elandS w) fun x _ => !linesBad (tlLines x.w) && !x.addrBad) = true ∧
    [0x28 + pu, 0x29 + pu].all (fun w => eTurn w (elandS w) fun x _ =>
      !linesBad (puLines x.w) && !x.addrBad && !targetBad (puPos x.w) (puRemote x.w) (puLines x.w)) = true ∧
    eTurn rs (elandS rs) (fun x t =>
      !linesBad (rsLines x.w) && !x.addrBad && treeOk t x.c (rsTree x.w)) = true := by decide +kernel
/-! ### Places of needles and Chamois cores -/

/-- The cases of NeedleAdvances, on the needle of core 0: no loop, inside a body, at its end with and without
iterations left, and LOOP itself. -/
theorem test_needle_advance_cases :
    let x : Ctx := ⟨0, .fore, 0, 0x00, 0, 0, 0, 0, 0⟩
    let u (l : Option LoopSt) := updN (elandS 0) 0 .fore fun y => { y with loop := l }
    let y (l : Option LoopSt) := (getN (getE (u l) x.c) x.n).loop
    opcodeOf x.w ≠ 0x02 ∧ y none = none ∧ y (some ⟨2, 0, 0, 0, 0, 0⟩) = some ⟨2, 0, 0, 0, 0, 0⟩ ∧ 0 + 1 < 2 ∧
      y (some ⟨2, 1, 0, 0, 0, 0⟩) = some ⟨2, 1, 0, 0, 0, 0⟩ ∧ 2 ≤ 1 + 1 ∧
      y (some ⟨2, 1, 3, 0, 0, 0⟩) = some ⟨2, 1, 3, 0, 0, 0⟩ ∧ opcodeOf 0x02 = 0x02 := by decide +kernel

/-- The cases of the advance of a Chamois core, likewise. -/
theorem test_chamois_advance_cases :
    let y (l : List CLoop) := (getC (setC (chamS 0) 0 { getC (chamS 0) 0 with loops := l }) 0).loops
    opcodeOf 0x10 ≠ 0x02 ∧ y [] = [] ∧ y [⟨2, 0, 0⟩] = [⟨2, 0, 0⟩] ∧ y [⟨2, 1, 3⟩, ⟨9, 0, 0⟩] = [⟨2, 1, 3⟩, ⟨9, 0, 0⟩] ∧
      y [⟨2, 1, 0⟩] = [⟨2, 1, 0⟩] ∧ opcodeOf 0x02 = 0x02 := by decide +kernel

/-! ### Chamois instructions at their turn -/

/-- The words of a list of opcodes, with fields 0, are at their turn. -/
def cTurns (ops : List Nat) : Bool := ops.all fun op => cTurn op (chamS op) fun x _ => opcodeOf x.w == op

theorem test_chamois_control_turns :
    cTurns [0x00, 0x01, 0x05, 0x08, 0x09] = true ∧ cTurn (0x02 + fld 8 1 + fld 24 1) (chamS (0x02 + fld 8 1 + fld 24 1)) (fun _ _ => true) = true ∧
    (let w := 0x08 + fld 31 1 + fld 32 1
     cTurn w (setStream (chamS w) 1 { st := 1, desc := fld 16 (posOf 0x40) }) fun x t =>
      ccStreamEn x.w && streamAt t (ccStream x.w) (posOf (0x40 + x.c))) = true := by decide +kernel

theorem test_scalar_turns : cTurns ((List.range 16).map (0x10 + ·)) = true := by decide +kernel

theorem test_vector_turns :
    cTurns [0x20, 0x21, 0x22, 0x23, 0x24, 0x25, 0x26, 0x27, 0x28, 0x29, 0x2A, 0x2B, 0x2C, 0x2D, 0x2E, 0x2F] = true ∧
    cTurns [0x30, 0x31, 0x32, 0x33, 0x34, 0x35, 0x36, 0x37, 0x38, 0x39, 0x3A, 0x3B, 0x3C, 0x3D, 0x3E] = true ∧
    cTurns [0x40, 0x41, 0x42, 0x43] = true := by decide +kernel

/-- Some participating lane of v0 holds a NaN. -/
def nanLane (x : CCtx) (t : State) : Bool :=
  (List.range 128).any fun i => (readPr (getC t x.c) (cvPred x.w)).v.toNat.testBit i && (f32Of (laneIn t x (cvVA x.w) i)).isNaN

/-- VCVTFI without a NaN, and with one under either policy. -/
theorem test_vcvtfi_cases :
    let s := chamS 0x39
    let n := setC s 0 { getC s 0 with v := [(0, ⟨0x7FC00000, 0⟩)] }
    cTurn 0x39 s (fun x t => !nanLane x t) = true ∧ cTurn 0x39 n (fun x t => nanLane x t && decide (nanPolicy t ≠ 1)) = true ∧
    cTurn 0x39 { n with nanPol := 1 } (fun x t => nanLane x t && decide (nanPolicy t = 1)) = true := by decide +kernel

/-- Reductions with no participating lane and with lane 2 alone. -/
theorem test_reduction_lanes :
    [0x3D, 0x3E].all (fun op => cTurn (op + fld 28 1) (chamS (op + fld 28 1)) fun x t =>
      decide ((readPr (getC t x.c) (cvPred x.w)).v = 0)) = true ∧
    [0x3D, 0x3E].all (fun op =>
      let s := chamS (op + fld 28 1)
      cTurn (op + fld 28 1) (setC s 0 { getC s 0 with p := [(1, ⟨4, 0⟩)] }) fun x t =>
        (List.range 128).all fun i => (readPr (getC t x.c) (cvPred x.w)).v.toNat.testBit i == decide (i = 2)) = true := by
  decide +kernel

/-- NaN operands of a compare, in either place. -/
theorem test_nan_operand : (f32Of 0x7FC00000).isNaN = true ∧ (f32Of 0).isNaN = false := by decide

/-- Loads and stores at the first and the last place of the core's memory. -/
theorem test_load_store_turns :
    [0x48, 0x49].all (fun op => [0, 0x1FFF8].all fun l => cTurn (op + fld 20 (l % 2 ^ 17) + fld 8 1)
      (let s := chamS (op + fld 20 (l % 2 ^ 17) + fld 8 1)
       setC s 0 { getC s 0 with s := [(1, ⟨BitVec.ofNat 64 (if l = 0 then 0 else 2 ^ 17), false⟩)] }) fun x t =>
        !(readS (getC t x.c) (cmSB x.w)).p &&
          decide (wrap 64 (((readS (getC t x.c) (cmSB x.w)).v.toNat : Int) + cmOff x.w) + 8 ≤ 0x20000)) = true ∧
    [0x4A, 0x4B].all (fun op => [0, 0x7FFFF8].all fun a => cTurn (op + fld 8 1)
      (let s := chamS (op + fld 8 1)
       setC s 0 { getC s 0 with s := [(1, ⟨BitVec.ofNat 64 a, false⟩)] }) fun x t =>
        let v := wrap 64 (((readS (getC t x.c) (cmSB x.w)).v.toNat : Int) + 8 * cmOff x.w)
        !(readS (getC t x.c) (cmSB x.w)).p && decide (v % 8 = 0) && decide (v + 8 ≤ 0x800000)) = true := by decide +kernel

/-- A load's access of its one address, and a store on its way, due and not due; a byte inside and one outside of its run. -/
theorem test_jobs_on_their_way :
    let j : CJob := { kind := .store, at_ := 3, count := 1, word := 0, offset := 0, addrs := [], runs := [(8, [(1, false), (2, true)])] }
    let l : CJob := { j with kind := .vld, addrs := [2] }
    let s := setC (chamS 0) 0 { getC (chamS 0) 0 with jobs := [j] }
    (getC s 0).jobs = [j] ∧ j.kind = .store ∧ 2 < j.at_ ∧ j.at_ ≤ 3 ∧ l.kind = .vld ∧ l.addrs = [2] ∧
      { l with kind := .lds }.kind = .lds ∧ s.errs = [] ∧
      (∀ r ∈ j.runs, corePa 0x40 r.1 + r.2.length ≤ corePa 0x40 10) ∧
      1 < ([(1, false), (2, true)] : List (Byte × Bool)).length := by decide +kernel

/-- TRD, TWR and SFACC of BF16, INT8 and MOSS tiles, by rows and by columns, with keys that pass. -/
theorem test_block_turns :
    let rd (w : Nat) := cTurn w (chamS w) fun x t => match tileLinesC x t with
      | some ls => !imageBad (cbFmt x.w) ls
      | none => false
    let wr (w : Nat) (f : Nat) := cTurn w (chamS w) fun x t => match tileLinesC x t with
      | some ls => !imageBad f ls && !(keyOf x t).bad && !(keyOf x t).p && (!cbCols x.w || decide (cbFmt x.w < 0x0E)) &&
          (!(keyOf x t).grad || floorOk t f) && decide (nanPolicy t ≠ 1)
      | none => false
    rd (0x50 + fld 31 3) = true ∧ rd (0x50 + fld 31 9 + fld 42 1) = true ∧ wr (0x51 + fld 31 3) 3 = true ∧
      wr (0x51 + fld 31 9 + fld 42 1) 9 = true ∧ wr (0x52 + fld 31 0x16) 0x16 = true := by decide +kernel

/-- The transfers of a Chamois core, with one line or granule. -/
theorem test_chamois_transfer_turns :
    let one (w : Nat) : State := setC (chamS w) 0 { getC (chamS w) 0 with s := [(1, ⟨1, false⟩)] }
    let at_ := fld 33 (posOf 0 % 8) + fld 36 (posOf 0 / 8)
    let reg (x : CCtx) (t : State) (k : Nat → Nat) : SReg := readS (getC t x.c) (k x.w)
    let sl (x : CCtx) (t : State) := (reg x t ctSL).v.toNat
    let rr (x : CCtx) (t : State) := (reg x t ctSR).v.toNat
    let n (x : CCtx) (t : State) := (reg x t ctSN).v.toNat
    let clean (x : CCtx) (t : State) := !(reg x t ctSL).p && !(reg x t ctSR).p && !(reg x t ctSN).p && decide (n x t ≠ 0)
    [0x58, 0x59].all (fun op => cTurn op (chamS op) fun x t =>
      let sb := readS (getC t x.c) (cnSB x.w)
      let st := readS (getC t x.c) (cnSS x.w)
      let sl := readS (getC t x.c) (cnSL x.w)
      !sb.p && !st.p && !sl.p && decide (sb.v.toNat % 32 = 0) && decide (st.v.toNat % 32 = 0) && decide (sl.v.toNat % 32 = 0) &&
        decide (sl.v.toNat + 32 * ((cnCount1 x.w + 1) * (cnGran1 x.w + 1)) ≤ 0x800000)) = true ∧
    [0x60, 0x61].all (fun op => cTurn (op + fld 20 1) (one (op + fld 20 1)) fun x t =>
      clean x t && !localBad (sl x t) (n x t) && decide (rr x t % 64 = 0)) = true ∧
    [0x62, 0x63].all (fun op => cTurn (op + fld 20 1 + at_) (one (op + fld 20 1 + at_)) fun x t =>
      clean x t && !localBad (sl x t) (n x t) && !targetBad (ctPos x.w) (rr x t) (n x t)) = true ∧
    cTurn (0x64 + fld 20 1) (one (0x64 + fld 20 1)) (fun x t =>
      clean x t && !localBad (sl x t) (n x t) && treeOk t (0x40 + x.c) (ctTree x.w)) = true ∧
    [0x68, 0x69].all (fun op => cTurn (op + fld 17 3 + fld 28 1) (chamS (op + fld 17 3 + fld 28 1)) fun x t =>
      let sl := readS (getC t x.c) (ckSL x.w)
      let sk := readS (getC t x.c) (ckSK x.w)
      !sl.p && !sk.p && decide (sk.v.toNat < 2 ^ 16) && !localBad sl.v.toNat (ckCount x.w * imageLines (ckFmt x.w)) &&
        ownsStrand t x.d (ckStrand x.w) &&
        (stashFull t (0x40 + x.c) (ckStrand x.w) (imageLines (ckFmt x.w)) (ckCount x.w)).isNone) = true := by decide +kernel
/-! ### Sequencers, engines, the Round -/

/-- A needle that decodes in the tick of its choice, one whose decode point lies ahead, and a Chamois core; the word is
NOP. -/
theorem test_decode_cases :
    let n : NeedleSt := { st := .active, decFrom := some 0 }
    let e (n : NeedleSt) := setE base 0 { domF := some 0, domB := some 0, fore := n }
    let s := e n
    let t := e { n with dslot := 100 }
    domN (getE s 0) .fore = some 0 ∧ (getN (getE s 0) .fore).decFrom = some 0 ∧ (getD s 0).st.runs = true ∧ s.ctc = 0 ∧
      horizonMet s 0 0 = true ∧ (getN (getE t 0) .fore).dslot = 100 ∧ horizonMet t 0 100 = false ∧
      horizonPast t 0 100 = false ∧ (getN (getE t 0) .fore).held = none ∧
      (match toHorizon t 0 100 with
        | some u => decoding u 0
        | none => false) = true ∧
      opcodeOf (nextFetched s 0 (getN (getE s 0) .fore)).word = 0 ∧ (getN (getE s 0) .fore).dloop = none ∧
      (getC (chamS 0) 0).dom = some 0 ∧ (getC (chamS 0) 0).halted = false ∧ (getD (chamS 0) 0).st.runs = true ∧
      ((getC (chamS 0) 0).decoded.all fun y => decide (opcodeOf y.word ≠ 1)) = true ∧
      horizonPast (setC base 0 { dom := some 0, dslot := 64 }) 0 64 = false ∧
      (match toHorizon (setC base 0 { dom := some 0, dslot := 64 }) 0 64 with
        | some u => decoding u 0
        | none => false) = true := by
  decide +kernel

/-- A needle held on an MMA that finds room at its turn, and one that still finds the queue full. -/
theorem test_held_words :
    let w := 0x10 + fld 18 1 + fld 30 9 + fld 35 9 + fld 43 1
    let op : Mma := ⟨0, 0, 0, 0, false, false, 9, 9, .cw, 1, 1, 0, 0, 0, 0, 0, false, true, 0, w, 0, 0, []⟩
    let full := setEng (elandS w) 0 { part := 8, p0 := { ops := [op, op, op, op, op], idle := false } }
    let held (s : State) := updN s 0 .fore fun y => { y with held := some w }
    let free (s : State) := updN (held s) 0 .fore fun y => { y with held := none }
    let out (s : State) := (getN (getE (after (.mma 0 .fore (BitVec.ofNat 128 w)) (free s)) 0) .fore).held
    (getN (getE (held full) 0) .fore).held = some (BitVec.ofNat 128 w).toNat ∧
    runs (.mma 0 .fore (BitVec.ofNat 128 w)) (free (elandS w)) = true ∧ out (elandS w) = none ∧
    runs (.mma 0 .fore (BitVec.ofNat 128 w)) (free full) = true ∧ out full ≠ none ∧
    eTurn w (free (elandS w)) (fun x t => (mmaCheck x t).isNone && (getN (getE t 0) .fore).held.isNone &&
      (mmaEngines x.w).all fun m =>
        decide (queuedOps (getPart (getEng t (4 * x.c + m)) (halfIdx (mmaHalf x.w))) < mmaPlaces t x.c m)) = true := by
  decide +kernel

/-- A part with and without work at each ramp, an MMA that a beat comes before, parts that become idle 64 cycles after their
last push, and a read that an earlier MMA's wave holds. -/
theorem test_engine_events :
    let op : Mma := ⟨7, 0, 0, 1, false, false, 9, 9, .cw, 1, 1, 0, 0, 0, 0, 0, false, true, 0, 0x10, 8, 0, []⟩
    let b : Beat := ⟨.cw, 0, 0, 0, 9, false, true, false, false, 2, 0, 0, 0, true, 0, [], 7, []⟩
    let g := setEng base 0 { part := 8, p0 := { ops := [op], idle := false } }
    let q : Engine := { part := 2 ^ 31 + 0x88, p0 := { idle := false, busy := 5 }, p1 := { idle := false, busy := 9 } }
    let s := setEng { base with ctc := 3 } 0 q
    let wave : Wave := { kind := .chunk, op := { op with id := 1 }, at_ := 6, m1 := 3, n1 := 2 }
    let r : AccRead :=
      { id := 5, needle := 0, dom := 0, tile := 1, half := 0, word := 0x14, dst := 0, aux := 0, width := 0, row := 0, col := 0,
        step := 0, dstep := 0, tag := none, offset := 0, pol := 0, start := some 0 }
    let h := setEng { setD base 0 { dom0 with dcc := 2 } with ctc := 2 } 0 { part := 8, p0 := { waves := [wave], idle := false }, reads := [r] }
    ({ ops := [op] } : EngPart).ops ≠ [] ∧ ({} : EngPart).ops = [] ∧ ({} : EngPart).busy = 0 ∧
    ([16, 32, 64].all fun r => getP (setP base (pk 0x0203 0) r) (pk 0x0203 0) == r) = true ∧
    (getPart (getEng g 0) 0).ops = [op] ∧ op.opened = false ∧ op.lead = true ∧ b.at_ < op.entry ∧
    ([0, 1].all fun h => bit (getEng s 0).part 31 && (getPart (getEng s 0) h).ops.isEmpty &&
      !(getPart (getEng s 0) h).idle && (whenRuns s (partDom (getEng s 0).part h) ((getPart (getEng s 0) h).busy + 64)).isSome) =
        true ∧
    heldRead (getEng h 0) (fun d => (getD h d).dcc) = some r ∧ (getEng h 0).p0.ops = [] ∧ (toDcc 0 8 h).isSome = true := by
  decide +kernel

/-- Stop 0 with an injection run of one INT8 tile sent both ways, on links whose every phase is domain 0's. -/
def roundS (lines : List (Line × Nat)) : State :=
  let run : InjRun := ⟨0, 0, 0, true, true, false, 9, 0, 2, 0, 0, 1, 0, lines, 0, 0, 0, 0⟩
  { setInj (setD base 0 { dom0 with arc := 3 }) 0 [run] with
    phases := [(0, 0x88888888), (1, 0x88888888), (2, 0x88888888), (3, 0x88888888)] }

theorem test_injection_cases :
    let full := roundS (List.replicate 64 (0, 0))
    fillDom (roundS []) 0 = some 0 ∧ (nextFill 0 (getInj (roundS []) 0)).isSome = true ∧
      (match sendDom full 0 with
        | some (d, k) => (firstRun d (getInj full 0)).isSome && (toDcc d ((getD full d).dcc + k) full).isSome
        | none => false) = true := by decide +kernel

/-- A beat of domain 0 at a place of a stop, where a TAKE waits for it. -/
def beatS (dir : Dir) (stop eng hops : Nat) : State :=
  { setTake (roundS []) dir stop { ops := [⟨0, 0, 0, 4, 0, 1, 0, false⟩] } with
    beats := [⟨dir, stop, eng, 0, 9, false, true, false, false, hops, 0, 0, 0, true, 0, [], 10, []⟩] }

/-- Beats at an engine, and beats that leave their stop for good and for the next one, wanted by a TAKE, of a domain that goes
on and of one with a fault. -/
theorem test_beat_cases :
    let bad (s : State) : State := { s with raised := [mkRaised s 2 0 0] }
    let at_ (s : State) (dir : Dir) (stop e : Nat) (f : Beat → State → State → Bool) : Bool := match beatAt s dir stop e with
      | some (b, others) => (match toDcc b.dom b.at_ s with
        | some t => f b t { t with beats := others }
        | none => false)
      | none => false
    at_ (beatS .cw 0 0 2) .cw 0 0 (fun b t _ => !failing t b.dom) = true ∧
    at_ (bad (beatS .ccw 35 3 2)) .ccw 35 3 (fun b t _ => failing t b.dom) = true ∧
    at_ (bad (beatS .cw 0 4 1)) .cw 0 4 (fun b t s' => failing t b.dom && (takeFor (getTake s' .cw 0) b).isSome) = true ∧
    [1, 2].all (fun hops => at_ (beatS .cw 0 4 hops) .cw 0 4 fun b t s' =>
      !failing t b.dom && (takeFor (getTake s' .cw 0) b).isSome && !fenced t 0 && (match moveOn s' b with
        | none => decide (hops = 1)
        | some _ => decide (hops = 2) && (phaseWait s' [phaseTable s' b.stop b.dir] b.dom b.at_).isSome)) = true := by
  decide +kernel

/-- A taken beat whose image ends at the last line of the core. -/
theorem test_take_queue :
    let b : Beat := ⟨.cw, 0, 4, 0, 9, false, true, false, false, 1, 63, 0, 0, true, 0, [], 10, []⟩
    let s := setTake base .cw 0 { queue := [{ beat := b, dst := 0x30000 - 64, bank := [] }] }
    (match takeFirst (fun x : TakenBeat => !frozen s x.beat.dom) (getTake s .cw 0).queue with
      | some (x, _) => decide (x.dst + imageLines x.beat.fmt ≤ 0x30000) && decide ((x.beat.beat + 1) * 2 ^ x.beat.depth ≤ 64)
      | none => false) = true ∧ s.fLines = [] := by decide +kernel

/-! ### Mesh -/

/-- A packet of one line on its way from position `src` to position `dst`, for an address. -/
def pktS (ty src dst pa : Nat) (members : List Nat) : State :=
  { base with
    packets := [⟨ty, src, dst, 0, 0, .none, 0, pa, 0, 0, 1, [(0, 0)], none, 0, 0, members, 0, false, none, 0⟩] }

theorem test_packet_cases :
    let p := posOf 0
    let go (s : State) (ty q : Nat) (f : State → Packet → Bool) : Bool := match packetAt s ty q with
      | some (k, rest) => f (crossed { s with packets := rest } k.src q) k
      | none => false
    go (pktS 0 p (posAt base 0) 0 []) 0 (posAt base 0) (fun t k => atStack t k.pa) = true ∧
    go (pktS 0 9 p (coreBase p) []) 0 p (fun t k => !atStack t k.pa && !posFenced t p && !stopped t k.dom) = true ∧
    go (setP (pktS 0 9 p (coreBase p) []) (pk 0x0201 0) 1) 0 p (fun t k => !atStack t k.pa && posFenced t p) = true ∧
    go (pktS 1 p (posAt base 0) 0 []) 1 (posAt base 0) (fun t k => atStack t k.pa) = true ∧
    go (pktS 1 9 p (coreBase p) []) 1 p (fun t k => !atStack t k.pa) = true ∧
    go { pktS 0 9 p (coreBase p) [] with doms := [] } 0 p (fun t k => !atStack t k.pa && !posFenced t p && stopped t k.dom) = true ∧
    go (setP (pktS 1 9 p (coreBase p) []) (pk 0x0201 0) 1) 1 p (fun t k => !atStack t k.pa && posFenced t p) = true ∧
    go (pktS 2 9 p 0 []) 2 p (fun _ _ => true) = true ∧ go (pktS 3 9 p 0 []) 3 p (fun _ _ => true) = true ∧
    go (pktS 5 9 p 0 [p]) 5 p (fun t k => reachedAt t k p) = true ∧
    (regionOf base (coreBase p) = .core p 0) ∧ unitAt p = some 0 := by decide +kernel

/-- A transfer of core 0 under tag 3, of a kind, with so many lines done of one. -/
def xferS (k : XKind) (done : Nat) : State :=
  { base with xfers := [⟨0, 0, 3, 0, k, 1, 1, done, 0, 0, 0, 0, some (posOf 0, 1), [], [], none, 0x24, 0, 0⟩] }

theorem test_transfer_events :
    (let s : State := { xferS .tld 0 with arrivals := [⟨0, .op 0 3, 5, (0, 0)⟩] }
     (takeFirst (fromSrc 0 (.op 3)) s.arrivals).isSome = true ∧ (findXfer s 0 3).isSome = true ∧ stopped s 0 = false) ∧
    (let s : State := { setStream base 1 { st := 1 } with arrivals := [⟨0, .stream 1 0, 5, (0, 0)⟩] }
     (takeFirst (fromSrc 0 (.stream 1)) s.arrivals).isSome = true ∧ (getStream s 1).st = 1 ∧
      stopped s (getStream s 1).dom = false) ∧
    (match takeFirst (fun x : Xfer => x.unit == 0 && x.tag == 3 && !(x.kind == .spush || x.kind == .accPush)) (xferS .tld 1).xfers with
      | some (x, _) => decide (x.total ≤ x.done)
      | none => false) = true ∧
    (match takeFirst (fun x : Xfer => x.unit == 0 && x.tag == 3 && (x.kind == .spush || x.kind == .accPush)) (xferS .spush 1).xfers with
      | some (x, _) => decide (x.done = x.total)
      | none => false) = true := by decide +kernel

/-- A push and a pop that reach their lane; the pop finds an entry of its tag and format on top. -/
theorem test_stash_messages :
    let m (pop : Bool) : StashMsg := ⟨0, 0, 3, 0, 0, pop, 7, 9, 0, 1, 0, [], 0, true, 0⟩
    let push : State := { base with stashQ := [m false] }
    let pop : State := { base with stashQ := [m true], lanes := [(posOf 0, [⟨7, 9, 64, 0, 0, 0, [], true, 0⟩])] }
    unitAt (posOf 0) = some 0 ∧ (takeFirst (fun m : StashMsg => m.unit == 0 && stashNext push.stashQ m) push.stashQ).isSome = true ∧
      (takeFirst (fun m : StashMsg => m.unit == 0 && stashNext pop.stashQ m) pop.stashQ).isSome = true ∧
      strandDom (setP push (pk 0x0853 1) 1) 0 ≠ 0 ∧ strandDom push 0 = 0 ∧
      strandDom pop 0 = 0 ∧ popCheck 0 (posOf 0) 7 9 1 (getLane pop 0 (posOf 0)).reverse = none := by decide +kernel

/-- The root of tree 0, with its own flit and that of the Chamois core, and a router of the tree on the way. -/
theorem test_reduction_cases :
    let p := posOf 0
    let own (q : Nat) : RedFlit := ⟨0, q, 4, 0, 0, some (0, 0), none, true, 2⟩
    let ready (s : State) (q : Nat) : Bool :=
      match minBy (fun (a b : RedFlit) => decide (a.round < b.round) || (a.round == b.round && decide (a.n < b.n)))
          (s.red.filter fun f => f.tree == 0 && f.pos == q && f.lower.isSome) with
      | some f => (expected s 0 q).all (fun port => (offered s 0 q port f.round f.n).isSome) &&
          (decide (q = treeRoot s 0) || (treeNext s 0 q).isSome)
      | none => false
    let alone := setP base (pk 0x0910 2) (2 ^ p)
    ready { alone with red := [own p] } p = true ∧ ready { base with red := [own (posOf 0x40)] } (posOf 0x40) = true := by
  decide +kernel

/-- Directions that a router at a corner has. -/
theorem test_link_directions : (8 ≤ 63) ∧ 0 < 63 % 8 ∧ 0 % 8 < 7 ∧ 0 < 56 := by decide
/-! ### Sync network and domains -/

/-- A state with every function ready. -/
def ready (s : State) : State := setP s (pk 0x0400 1) (2 ^ 64 - 1)

/-- Domain 0 of `base` changed. -/
def domS (f : Domain → Domain) : State := setD base 0 (f (getD base 0))

theorem test_incr_on_its_way :
    let s : State := { base with incrs := [⟨posOf 0, 3, 2, 9, 0⟩] }
    unitAt (posOf 0) = some 0 ∧ s.tokSubs = [] ∧ (takeFirst (fun m : Incr => m.pos == posOf 0 && m.tok == 3 &&
      (s.incrs.find? fun y => y.src == m.src && y.pos == posOf 0) == some m) s.incrs).isSome = true := by decide +kernel

/-- Stall requests on their way: of a domain that runs, that has not started, that is stalled. -/
theorem test_stall_requests :
    let r : StallReq := ⟨70, 0, 0, 0, .tag 0, false⟩
    let s (a b : Bool) := domS fun d => { d with reqs := [r], started := a, stalled := b, freezeAt := if b then some 60 else none }
    (takeFirst (fun r : StallReq => !r.seen) (getD (s true false) 0).reqs).isSome = true ∧
      (getD (s true false) 0).started = true ∧ (getD (s true false) 0).stalled = false ∧
      (getD (s false false) 0).started = false ∧ (getD (s true true) 0).stalled = true := by decide +kernel

theorem test_freeze_and_resume :
    let f := domS fun d => { d with dcc := 64, freezeAt := some 64 }
    let r := domS fun d => { d with dcc := 64, freezeAt := some 64, stalled := true, resumeAt := some 200 }
    (getD f 0).freezeAt = some 64 ∧ (getD f 0).stalled = false ∧ (getD f 0).dcc = 64 ∧
      (getD f 0).st.runs = true ∧ (getD f 0).started = true ∧ (getD f 0).resumeAt = none ∧ f.clk.runs = true ∧ quiet f = true ∧
      (getD r 0).resumeAt = some 200 ∧ r.clk.runs = true ∧ r.ctc < 200 ∧ (getD r 0).st.runs = true ∧ (getD r 0).started = true ∧
      (getD r 0).stalled = true ∧ quiet r = true ∧ (getD r 0).reqs = [] := by decide +kernel

/-- RESUME_OK of the only unit asked, in phase and free of it, and of one of two. -/
theorem test_resume_ok_cases :
    let r (u : Nat) : StallReq := ⟨70, u, 0, 0, .token u 0 0, true⟩
    let s (rs : List StallReq) := domS fun d => { d with reqs := rs, stalled := true, freezeAt := some 70, arc := 1 }
    let one := s [r 0]
    let two := s [r 0, r 0x40]
    let later := s [r 0, { r 0x40 with slot := 75 }]
    let ph : State := { one with phases := [(0, 8)] }
    let mine (s : State) := (getD s 0).reqs.filter fun r => r.unit == 0 && dueReq (getD s 0) r
    let none_ := domS fun d => { d with stalled := true, freezeAt := some 70 }
    (mine one ≠ []) ∧ (meetAll one 0 (mine one)).2 = [] ∧ (mine two ≠ []) ∧ (meetAll two 0 (mine two)).2 = [] ∧
      (getD none_ 0).reqs = [] ∧ (getD none_ 0).stalled = true ∧ (getD none_ 0).freezeAt ≠ none ∧
    ((getD one 0).reqs.any fun r => r.unit == 0) = true ∧
      ((getD one 0).reqs.all fun r => condHolds one 0 r.cond) = true ∧ ((getD two 0).reqs.any fun r => r.unit ≠ 0) = true ∧
      ((getD two 0).reqs.all fun r => r.unit ≠ 0 || condHolds two 0 r.cond) = true ∧ (getD one 0).stalled = true ∧
      (getD one 0).freezeAt.isSome = true ∧ phased one 0 = false ∧ phased ph 0 = true ∧
      ((getD ph 0).reqs.all fun r => condHolds ph 0 r.cond) = true ∧ ((getD one 0).reqs.all (dueReq (getD one 0))) = true ∧
      ((getD two 0).reqs.all (dueReq (getD two 0))) = true ∧ ((getD later 0).reqs.map (dueReq (getD later 0))) = [true, false] := by
  decide +kernel

/-- R208: a condition of slot 2 ends its stall though one of slot 7 is still open; the next freeze is at slot 7. -/
theorem test_resume_next_freeze :
    let r (k u n : Nat) : StallReq := ⟨k, u, 0, 0, .token u 0 n, true⟩
    let s := domS fun d => { d with reqs := [r 2 0 0, r 7 0x40 1], dcc := 2, stalled := true, freezeAt := some 2, arc := 1 }
    (match exec (.resumeOk 0 0) s with
      | .next t => (match exec (.resume 0) t with
        | .next u => ((getD u 0).stalled, (getD u 0).freezeAt, (getD u 0).reqs.length) == (false, some 7, 1)
        | _ => false)
      | _ => false) = true := by decide +kernel

/-- Core 0 with an open pick; its fore-needle waits for a count of token 1 that it has or has not, its back-needle for
one of token 2. -/
def pickS (a b : Nat) : State :=
  let n (t : Nat) : NeedleSt := { st := .parked, cond := { tokEn := true, tok := t, count := 1 } }
  setE base 0 { domF := some 0, domB := some 0, fore := n 1, back := n 2, pickDue := some 9, tokens := [(1, a), (2, b)].filter (·.2 ≠ 0) }

theorem test_pick_cases :
    pickSlot (pickS 1 0) 0 = some 9 ∧ horizonMet (pickS 1 0) 0 9 = true ∧ pickSlot (setE (pickS 1 0) 0
      { getE (pickS 1 0) 0 with pickDue := some 99 }) 0 = some 99 ∧ horizonMet (pickS 1 0) 0 99 = false ∧
      (toHorizon (pickS 1 0) 0 99).isSome = true ∧ (reporting (pickS 1 0) 0).contains 0 = true ∧ (getD (pickS 1 0) 0).choice = none ∧
      needleReady (pickS 1 0) 0 .fore = true ∧ needleReady (pickS 0 1) 0 .fore = false ∧ needleReady (pickS 0 1) 0 .back = true ∧
      needleReady (pickS 0 0) 0 .fore = false ∧ needleReady (pickS 0 0) 0 .back = false ∧
      (let s := setD (setE (pickS 1 0) 1 { domF := some 0, domB := some 0, fore := { st := .active } }) 0
          { dom0 with cores := 3, choice := some .back }
       (getD s 0).choice = some .back ∧ (reporting s 0).contains 0 = true ∧ (getE s 0).pickDue = some 9 ∧
         (reporting s 0).contains 1 = true ∧ (getE s 1).pickDue = none ∧ (reporting s 0).contains 2 = false) := by decide +kernel

/-- Faults raised for domain 0 in a state that takes them and in one that does not; none of a lower domain. -/
theorem test_fault_cases :
    let s (st : DState) : State := { domS (fun d => { d with st := st }) with raised := [mkRaised base 2 0 0] }
    (minBy raisedBefore ((s .running).raised.filter fun r => r.dom == some 0)).isSome = true ∧
      (getD (s .running) 0).st.faultable = true ∧ (getD (s .done) 0).st.faultable = false := by decide +kernel

theorem test_domain_events :
    let stop := domS fun d => { d with st := .faulted, stopDue := true }
    let start := domS fun d => { d with started := false, t0 := some 128 }
    let before_ := domS fun d => { d with started := false, startCtc := 64 }
    let stalled := domS fun d => { d with stalled := true, freezeAt := some 0, reqs := [⟨0, 0, 0, 0, .token 0 0 1, true⟩] }
    let stands := domS fun d => { d with freezeAt := some 0 }
    let limit (s : State) : Bool := standing (getD s 0) &&
      (getD (advance (ceilDiv ((getP s (pk 0x0620 0) * 1000000 + 1 - (getD s 0).stallNs) * freqMhz s) 1000) s) 0).stalled
    (getD stop 0).stopDue = true ∧ (getD stop 0).st = .faulted ∧ (getD start 0).t0 = some 128 ∧ (getD start 0).st.runs = true ∧
      start.clk.runs = true ∧ start.ctc ≤ 128 ∧ (getD start 0).started = false ∧
      (getD before_ 0).started = false ∧ (getD before_ 0).stalled = false ∧ (getD before_ 0).freezeAt = none ∧
      (getD before_ 0).resumeAt = none ∧ (getD before_ 0).dcc = 0 ∧ (getD before_ 0).stallTicks = 0 ∧
      before_.ctc < (getD before_ 0).startCtc ∧ quiet before_ = true ∧ quiet stalled = true ∧ stalled.clk.runs = true ∧
      (getD stalled 0).started = true ∧ (getD stalled 0).resumeAt = none ∧ (getD stalled 0).stalled = true ∧
      (getD stalled 0).st = .running ∧ ((getD stalled 0).reqs.find? fun q => !condHolds stalled 0 q.cond).isSome = true ∧
      limit stalled ∧ limit stands ∧ (getD stands 0).stalled = false ∧ (getD stands 0).st = .running ∧
      (getD base 0).st = .running ∧ (getD base 0).started = true ∧ coresDone base 0 = true ∧
      (cvcsOf base 0).all (fun c => !(getColl base c).run) = true := by decide +kernel

/-- R276: a domain that becomes DONE leaves its waiting channel STOPPED, with no start pending. -/
theorem test_done_stops_channels :
    let s := setDma base 3 { (getDma base 3) with dom := 0, st := 3, pend := 2 }
    coresDone s 0 = true ∧
      (match exec (.domainDone 0) s with | .next t => ((getDma t 3).st, (getDma t 3).pend) == (5, 0) | _ => false) = true := by
  decide +kernel

/-- The loader is ready and domain 0 is in a state. -/
def cmdS (st : DState) : State := ready (domS fun d => { d with st := st })

theorem test_domain_commands :
    gateOk (cmdS .empty) (domainCmd 0) = true ∧ (cmdS .empty).clk.runs = true ∧
      [DState.empty, .loading, .loaded, .running, .pageHalt, .done, .faulted, .aborted].all (fun st =>
        gateOk (cmdS st) (domainCmd 0) && decide ((getD (cmdS st) 0).st = st)) = true ∧
      resumeMismatch (cmdS .loaded) 0 = none := by decide +kernel

/-- R156, R97: the RELEASE of a domain that has not faulted keeps its Stash lanes and poisons no accumulator. -/
theorem test_release_keeps_lanes :
    let s := setLane (cmdS .done) 0 (posOf 0) [⟨5, 1, 1, 0, 0, 0, [(7, 0)], true, 0⟩]
    (getD s 0).stopDue = false ∧
      (match exec (.release 0) s with | .next t => (t.lanes == s.lanes, t.poison.length) == (true, 0) | _ => false) = true := by
  decide +kernel

/-- An image of 256 bytes, its header: the format, its version, dictionary version, stepping 1 and grade 01h, SIZE, a core
set of core 0, a ramp of 32 and a circuit of 144 cycles. -/
def headerBytes : List (Nat × Byte) :=
  [(0, 0x46), (1, 0x52), (2, 0x44), (3, 0x4E), (4, 1), (7, 1), (8, 1), (9, 1), (13, 1), (24, 1), (55, 32), (56, 144)]

/-- That image stands at page 0 of domain 0, for a device of CONFIG_ID 0 that gives it core 0. -/
def imageS : State :=
  let s := setP (setP (setP (ready State.reset) (pk 0x0200 0) 0) (pk 0x0600 2) 1) (pk 0x0600 1) 0
  { s with mem := headerBytes, tlb := [⟨0, 0, 3⟩] }

/-- The image passes every check of the loader. -/
theorem test_loadable_image :
    let s := imageS
    let s0 := setD s 0 { getD s 0 with st := .loading, image := 0, faultSeq := 0xFFFF, dcc := 0 }
    gateOk s (domainCmd 0) = true ∧ (getD s 0).st = .empty ∧ s.clk.runs = true ∧ getP s (pk (0x0600 + 0) 1) = 0 ∧
    (match vread s0 0 0 s0.ctc 256 (vfuel 256) with
      | (.ok, hd, s1) =>
        let rest := hdSize (imgHeader hd) - 256
        (match vread s1 0 256 s1.ctc rest (vfuel rest) with
          | (.ok, body, s2) => (checkImage s2 0 (hd ++ body) (linked s2 0 (hd ++ body))).isNone
          | _ => false)
      | _ => false) = true := by decide +kernel
/-! ### Writes -/

/-- Writes that are refused: by the state, by the gate, of a parameter that takes none. -/
theorem test_refused_writes :
    gateKey (.load 0) = some (domainCmd 0) ∧ gateOk (cmdS .running) (domainCmd 0) = true ∧
      (after (.load 0) (cmdS .running)).wstatus ≠ 0 ∧ gateOk base (domainCmd 0) = false ∧ runs (.load 0) base = true ∧
      runs (.registerWrite (pk 0x0400 1) [0]) (ready base) = true ∧
      (after (.registerWrite (pk 0x0400 1) [0]) (ready base)).wstatus ≠ 0 ∧
      gateOk base (pk 0x0D10 0) = false ∧ runs (.registerWrite (pk 0x0D10 0) [5]) base = true := by decide +kernel

theorem test_monitor_writes :
    let s : State := { ready base with mons := [(0, { tensor := 7, sat := 3, hist := [1], now := 2 })] }
    runs (.monTensorWrite 9) s = true ∧ (after (.monTensorWrite 9) s).wstatus = 0 ∧ runs (.monClear 0) s = true ∧
      (after (.monClear 0) s).wstatus = 0 ∧ gateOk s (pk 0x0D60 2) = true ∧ gateOk s (pk 0x0D60 5) = true ∧
      (s.mons.all fun x => decide (x.1 = monSelected s) || decide (x.2.tensor ≠ 9)) = true := by decide +kernel

/-- Domain 0 is LOADED, with core 0 and tree 0. -/
def loadedS : State :=
  let s := setP (setP (ready (domS fun d => { d with st := .loaded })) (pk 0x0600 0xC) 1) (pk 0x0910 2) 0
  setE s 0 { domF := some 0, domB := some 0 }

theorem test_parameter_writes :
    let s := loadedS
    [0x0D3007, 0x0D2000, 0x0D1000, 0x0D5101, 0x0C1001, 0x0C2001, 0x085301, 0x091002, 0x092001, 0x0C3002].all (gateOk s) = true ∧
      fmtValid 0x16 = true ∧ strandRuns s 0 = false ∧ treeDom s 0 = some 0 ∧ (getD s 0).st = .loaded ∧
      treeFits (setP s (pk 0x0910 2) (2 ^ posOf 0)) 0 0 = true ∧ (livePositions s 0).contains (posOf 0) = true := by decide +kernel

/-- A CVC's priority, a registry entry of domain 0, the modes of the host port and of port 3. -/
theorem test_structured_writes :
    let s := loadedS
    let v : List Byte := leBytes 32 (1 + fld 32 5 + fld 64 1)
    (match paramRow (cvcKey 0 0xB) with
      | some r => decide ([(1 : Byte)].length = r.len)
      | none => false) = true ∧ gateOk s (cvcKey 0 0xB) = true ∧ (writeCvc s 0 0xB 1).1 = 0 ∧
    (match paramRow (cvcKey 0 8) with
      | some r => decide ((List.replicate 8 (0xFF : Byte)).length = r.len)
      | none => false) = true ∧ (writeCvc s 0 8 (leNat (List.replicate 8 0xFF))).1 = 0 ∧
    v.length = 32 ∧ gateOk s (pk 0x0C30 2) = true ∧ (writeRegistry s v).1 = 0 ∧
    gateOk s (portKey hostPort 1) = true ∧ gateOk s (portKey 3 1) = true ∧
    (List.range 8).all (fun d => !usesPort s d 3) = true := by decide +kernel

theorem test_records_and_halts :
    let h (who : Requester) : Halt := ⟨0, 0, 1, 0, false, 0, 0, 0, 0, who, 0, 0⟩
    let x : State := { ready base with halts := [(0, some (h (.stream 0)))], streams := [(0, { st := 2, halt := some 0 })] }
    let c : State := { ready base with halts := [(0, some (h (.dma 0)))], dmas := [(0, { st := 4, halt := some 0 })] }
    gateOk x (pk 0x0E00 4) = true ∧ gateOk x (pk 0x0812 0) = true ∧ gateOk x (pk 0x0710 4) = true ∧
      (SMap.get none x.halts 0).isSome = true ∧ (getD x 0).st.faultable = true ∧ (getStream x 0).st = 2 ∧ (getDma c 0).st = 4 ∧
      SMap.get none x.halts 5 = none := by decide +kernel

/-- A translation dropped with and without a packet on its way through it, and a flush whose response is owed. -/
theorem test_flush_cases :
    let p (pte : Nat) : Packet := ⟨1, 0, 0, 0, 0, .none, 0, 0, 0, 0, 1, [], none, 0, 0, [], 0, false, none, pte⟩
    let s (pte : Nat) : State := { ready base with tlb := [⟨0, 0, 3⟩], packets := [p pte] }
    let owed : State := { ready base with spp := { base.spp with flush := [⟨0, [(0, 0)], none⟩] } }
    (s 0).spp.flush = [] ∧ keysBusy (s 0) [(0, 0)] = false ∧ keysBusy (s 3) [(0, 0)] = true ∧
      ((s 3).tlb.map fun e => (e.dom, e.vpn)) = [(0, 0)] ∧ owed.spp.flush = [⟨0, [(0, 0)], none⟩] ∧
      keysBusy owed [(0, 0)] = false := by decide +kernel

/-- A full table of halts in which a stream waits for a slot: the slot that a resume frees is the stream's. -/
theorem test_halt_wait :
    let h (w : Requester) : Halt := ⟨0, 0, 1, 0, false, 0, 0, 0, 0, w, 0, 0⟩
    let s : State := { base with
      halts := (List.range 64).map fun i => (i, some (h (.dma i)))
      haltWait := [h (.stream 3)], streams := [(3, { st := 2, halt := some noSlot })] }
    freeHalt s = none ∧ stillWaits (dropHalt s 5) (.stream 3) = true ∧
      ((SMap.get none (grantHalts (dropHalt s 5)).halts 5).map (·.who)) = some (.stream 3) ∧
      (grantHalts (dropHalt s 5)).haltWait = [] ∧ (getStream (grantHalts (dropHalt s 5)) 3).halt = some 5 := by decide +kernel

/-! ### DMA channels -/

/-- Channel 0 of domain 0 with a program word, state and operands. -/
def dmaS (st : Nat) (w : Nat) (ops : List (Nat × Nat)) (f : Dma → Dma := id) : State :=
  let s := setE (ready (domS fun d => { d with cores := 1 })) 0 { domF := some 0, domB := some 0 }
  setDma s 0 (f { st := st, prog := (0, w) :: ops, dom := 0 })

theorem test_dma_starts :
    let t (n : Nat) := dmaS 1 1 [] fun x => { x with trig := n, trigAt := 100, runHit := true, haltHit := 1 }
    let w := dmaS 3 0x04 [] fun x => { x with timer := 100, tBase := 1, timing := true }
    (getD (t 1) (getDma (t 1) 0).dom).st.runs = true ∧ (getDma (t 1) 0).st = 1 ∧ (getDma (dmaS 2 1 []) 0).st = 2 ∧
      gateOk (t 1) (pk 0x0730 5) = true ∧ (getDma (t 1) 0).trig = 1 ∧ (getDma (t 1) 0).runHit = true ∧
      (getDma (t 2) 0).trigHit = false ∧ (getDma (t 4) 0).haltHit = 1 ∧ (t 3).clk.runs = true ∧
      (getDma w 0).st = 3 ∧ opcodeOf (SMap.get 0 (getDma w 0).prog (getDma w 0).pc) = 0x04 ∧
      dmWaitEvent (SMap.get 0 (getDma w 0).prog (getDma w 0).pc) = false ∧ (getDma w 0).armed = false ∧
      (getDma w 0).timing = true ∧ (getDma w 0).xfers = [] ∧ (getDma w 0).tBase ≠ 0 ∧ quiet w = true ∧ quiet (t 3) = true := by decide +kernel

/-- Transfers of one line from core 0 to HBM, to the host and to core 0, and one to the host that has been written. -/
theorem test_dma_transfer_complete :
    let core (l : Nat) := fld 60 2 + fld 48 (posOf 0) + 64 * l
    let x (dst : Nat) (wrote : Bool) : DmaXfer :=
      { id := 0, src := core 0, dst := dst, rows := 1, bytes := 64, sStr := 0, dStr := 0, crc := false, pc := 0, word := 0x10,
        born := 0, wrote := wrote }
    let s (y : DmaXfer) := { dmaS 2 0 [] fun c => { c with xfers := [y] } with tlb := [⟨0, 0, 7⟩] }
    let dsts := [0, fld 60 1, core 1]
    dsts.map opSpace = [0, 1, 2] ∧
    (dsts.all fun dst => decide ((getDma (s (x dst false)) 0).xfers = [x dst false]) && decide ((x dst false).wait = 0) &&
      match dmaSource (x dst false) 0 (s (x dst false)) with
        | (.ok data, u) => decide (opSpace dst ≠ 0) || (match storeRows (x dst false) 0 data (List.range 1) u with
          | (.ok _, _) => true
          | _ => false)
        | _ => false) = true ∧
    (getDma (s (x (fld 60 1) true)) 0).xfers = [x (fld 60 1) true] ∧ (getD (s (x 0 false)) 0).st.runs = true := by decide +kernel

/-- Words of a running channel, one of each opcode, not reserved. -/
theorem test_dma_words :
    [0x00, 0x01, 0x02 + fld 8 3, 0x03, 0x04, 0x04 + fld 8 1 + fld 16 2, 0x05 + fld 16 (posOf 0), 0x06 + fld 9 1, 0x07, 0x10 + fld 24 64,
      0x11 + fld 24 2 + fld 40 64].all (fun w => let s := dmaS 2 w []
        !dmaReserved (SMap.get 0 (getDma s 0).prog (getDma s 0).pc) && (getD s (getDma s 0).dom).st.runs) = true ∧
      dmaOps.contains (opcodeOf 0x7F) = false ∧ (SMap.get 0 (getDma (dmaS 2 0x7F []) 0).prog 0 = 0x7F) := by decide +kernel

/-- Operands and places with which the words take effect. -/
theorem test_dma_word_cases :
    let core := fld 60 2 + fld 48 (posOf 0)
    let mv := dmaS 2 (0x10 + fld 24 64 + fld 16 2) [(256, 0), (258, core)]
    let m2 := dmaS 2 (0x11 + fld 24 2 + fld 40 64 + fld 16 2) [(257, 64), (258, core), (259, 64)]
    let crc := dmaS 2 0x07 [(256, core)]
    let x (s : State) := getDma s 0
    inCoreSet (dmaS 2 5 []) 0 (posOf 0) = true ∧ operandOk crc 0 (dmaOperand (x crc) 0) 1 8 0 true = false ∧
      operandOk crc 0 0 1 8 0 true = true ∧
      operandOk mv 0 (dmaOperand (x mv) 0) 1 64 0 false = true ∧ operandOk mv 0 (dmaOperand (x mv) 2) 1 64 0 true = true ∧
      opSpace (dmaOperand (x mv) 0) ≠ opSpace (dmaOperand (x mv) 2) ∧ opSpace (dmaOperand (x mv) 0) ≠ 1 ∧
      opSpace (dmaOperand (x mv) 2) ≠ 1 ∧
      operandOk m2 0 (dmaOperand (x m2) 0) 2 64 (sext 64 (dmaOperand (x m2) 1)) false = true ∧
      operandOk m2 0 (dmaOperand (x m2) 2) 2 64 (sext 64 (dmaOperand (x m2) 3)) true = true ∧
      (x (dmaS 2 0x03 [] fun c => { c with loops := [(1, 0)] })).loops = [(1, 0)] ∧
      dmWaitCount (0x04 + fld 8 1 + fld 16 2) ≤ (x (dmaS 2 0 [] fun c => { c with ev := 2 })).ev ∧
      (x (dmaS 2 0 [] fun c => { c with pend := 1 })).pend = 1 ∧
      (x (dmaS 2 4 [] fun c => { c with armed := true })).armed = true ∧
      (let s : State := { dmaS 2 4 [] fun c => { c with timer := 1, tBase := 1 } with ctc := 2 }
       (x s).timer < dmaNow s (x s) ∧ (x s).timing = false) ∧
      (let s : State := dmaS 2 4 [] fun c => { c with timer := 9, tBase := 1 }
       dmaNow s (x s) < (x s).timer ∧ (x s).armed = false) ∧
      poolFree mv = true ∧ (x mv).xfers.length < 8 := by decide +kernel
/-! ### Streams and stacks -/

/-- A descriptor of four windows of one line in two slots, first needed at DCC 0, of a kind, at core 0's position. -/
def desc (kind : Nat) : Nat :=
  kind + fld 16 (posOf 0) + fld 24 1 + fld 64 1 + fld 192 1 + fld 208 1 + fld 320 4 + fld 352 100 + fld 400 8

/-- Stream 2 of domain 0 with that descriptor, changed; page 0 of the domain is translated to page 0, writable. -/
def strS (kind : Nat) (f : Stream → Stream := id) (extra : Nat := 0) : State :=
  { setStream base 2 (f { desc := desc kind + extra, st := 1, dom := 0 }) with tlb := [⟨0, 0, 7⟩] }

/-- Windows become current at their DCC, pass or fail their check and are released, held or by a releaser. -/
theorem test_window_cases :
    let x (s : State) := getStream s 2
    let cur (x : Stream) : Stream := { x with c := 1, cur := [(0, 100)] }
    let rel := setStream (strS 0 (extra := fld 464 3 + fld 479 1)) 3 { st := 1, moved := 1 }
    (toDcc 0 (windowNeed (x (strS 0)).desc (x (strS 0)).c) (strS 0)).isSome = true ∧ (x (strS 0)).c < sdTotal (x (strS 0)).desc ∧
      (getD (strS 0) (x (strS 0)).dom).st.runs = true ∧ sdMode (x (strS 0)).desc = 0 ∧
      ((x (strS 0 cur)).cur.find? fun w => w.1 == (x (strS 0 cur)).released) = some (0, 100) ∧
      (toDcc 0 (100 + sdHold (x (strS 0 cur)).desc) (strS 0 cur)).isSome = true ∧
      sdRelEn (x rel).desc = true ∧ (x rel).released < (getStream rel (sdReleaser (x rel).desc)).moved ∧
      (match toHorizon (strS 0) 0 (checkNeed (desc 0) 0) with
        | some u => !condHolds u 0 (.window 2 0)
        | none => false) = true ∧
      (let g := strS 0 fun x => { x with got := [(posOf 0, 1)] }
       match toHorizon g 0 (checkNeed (desc 0) 0) with
        | some u => condHolds u 0 (.window 2 0)
        | none => false) = true ∧ (unitAt (sdCore (desc 0))).isSome = true := by decide +kernel

/-- Requests of a LOAD, a STORE and a RELAY stream. -/
theorem test_stream_requests :
    let x (s : State) := getStream s 2
    let load := strS 0
    let store := strS 1
    let relay := setStream (strS 2 (extra := fld 448 3)) 3 { desc := desc 0, st := 1, got := [(posOf 0, 1)] }
    let va (s : State) := 64 * windowLine (x s).desc (x s).reqWin (x s).reqOff
    unitAt (sdCore (x load).desc) = some 0 ∧ engineFree load (sdCore (x load).desc) = true ∧
    engineFree relay (sdCore (x relay).desc) = true ∧ (x load).reqWin < (x load).released + sdNwin (x load).desc ∧
    (match translate load 0 (va load) false with
      | (.ok _ _, _) => true
      | _ => false) = true ∧
    (match toDcc 0 (windowNeed (x store).desc (x store).reqWin) store with
      | some v => decide (getStream v 2 = x store) && (match translate v 0 (va store) true with
        | (.ok _ _, _) => true
        | _ => false)
      | none => false) = true ∧ sdKind (x relay).desc = 2 ∧
    windowPresent (getStream relay (sdSrc (x relay).desc)) (x relay).reqWin (sdCore (desc 0)) = true := by decide +kernel

/-- A window filled, a store window acknowledged, and two relays that wait for each other. -/
theorem test_stream_ends :
    let full := strS 0 fun x => { x with got := [(posOf 0, 1)] }
    let store := strS 1 fun x => { x with got := [(posOf 0, 1)] }
    let knot := setStream (strS 2 (extra := fld 448 3)) 3 { desc := desc 2 + fld 448 2, st := 1, dom := 0 }
    (streamDests full (getStream full 2)).contains (posOf 0) = true ∧ windowPresent (getStream full 2) 0 (posOf 0) = true ∧
      SMap.get 0 (getStream store 2).got ((getStream store 2).moved * 64 + sdCore (getStream store 2).desc) =
        sdWinLines (getStream store 2).desc ∧
      (reachesOf knot 2).contains 2 = true ∧ (getD knot (getStream knot 2).dom).st.faultable = true := by decide +kernel

/-- A request at stack 0, of a read or a write, with full buckets, with none, and with none that may borrow. -/
def hbmS (ty limit borrow : Nat) : State :=
  let p : Packet := ⟨ty, posOf 0, posAt base 0, 0, 0, .none, 0, 0, 0, 0, 1, [(0, 0)], none, 0, 0, [], 0, false, none, 0⟩
  { setP (setP base (pk 0x0820 2) limit) (pk 0x0820 3) borrow with hbmq := [(0, [⟨0, 0, 32768, false, false, p⟩])] }

theorem test_stack_requests :
    let note (s : State) := (noteWaits s 0)
    let r : HbmReq := (SMap.get [] (hbmS 0 4096 0).hbmq 0).headD ⟨0, 0, 0, false, false, ⟨0, 0, 0, 0, 0, .none, 0, 0, 0, 0, 0, [], none, 0, 0, [], 0, false, none, 0⟩⟩
    let fit (s : State) := (unblocked [] (SMap.get [] (note s).hbmq 0)).filter fun r => decide (8 * reqCharge s r ≤ tokens8 s 0 r.part)
    let lend (s : State) := (unblocked [] (SMap.get [] s.hbmq 0)).filter fun r => getP s (pk (0x0820 + r.part) 3) == 1
    (minBy reqBefore (fit (hbmS 1 4096 0))).isSome = true ∧ r.narrow = false ∧ r.pkt.ty = 0 ∧
      pteShadow r.pkt.pte = false ∧ pteMirror r.pkt.pte = false ∧ regionOf (hbmS 0 4096 0) r.pkt.pa = .hbm ∧ (hbmS 0 4096 0).errs = [] ∧ (minBy reqBefore (fit (hbmS 0 4096 0))).isSome = true ∧
      cachedPte (hbmS 0 4096 0) 0 0 = none ∧ fit (hbmS 1 0 1) = [] ∧ (minBy reqBefore (lend (hbmS 1 0 1))).isSome = true ∧
      fit (hbmS 1 0 0) = [] ∧ lend (hbmS 1 0 0) = [] ∧ SMap.get [] (hbmS 1 0 0).hbmq 0 ≠ [] ∧
      getP (setP base (pk 0x0805 0) 0) (pk 0x0805 0) = 0 ∧ getP (setP base (pk 0x0805 0) 1) (pk 0x0805 0) ≠ 0 := by decide +kernel

/-! ### Clocks, power, temperature -/

/-- The clock part of the state changed. -/
def clkS (f : Clk → Clk) : State := { ready base with clk := f base.clk }

theorem test_clock_cases :
    gateOk (ready base) (pk 0x0310 1) = true ∧ [1, 2, 3].all (fun sub => gateOk (ready base) (pk 0x0312 sub)) = true ∧
      1800 % 25 = 0 ∧ 1200 % 100 = 0 ∧ 1200 % 200 = 0 ∧
      (clkS fun c => { c with phase := .announced }).clk.phase = .announced ∧
      bit (clkS fun c => { c with phase := .announced }).clk.freqSeen 3 = false ∧
      (clkS fun c => { c with phase := .announced, freqSeen := 0xFFFF }).clk.runs = true ∧ quiet (clkS id) = true ∧
      [SwPhase.raiseSrm, .raiseCmp, .lowerCmp, .lowerSrm].all (fun p => let c := (clkS fun c => { c with phase := p }).clk
        decide (c.phase ≠ .none) && decide (c.phase ≠ .announced) && c.marginTo.isNone) = true ∧
      (clkS fun c => { c with marginTo := some 5 }).clk.marginTo.isSome = true ∧
      SMap.get 0 base.clk.lastShort 15 = 0 ∧ (clkS fun c => { c with quietMs := 100 }).clk.quietMs = 100 ∧
      ((clkS fun c => { c with inMs := [(2, 5000)] }).clk.inMs.any fun z => decide (getP base (pk 0x0320 3) < z.2)) = true ∧
      (base.clk.inMs.all fun z => decide (z.2 ≤ getP base (pk 0x0320 3))) = true := by decide +kernel

/-- A stretch on its way to zone 1; a crossing in lock-step whose domains stand still, and one that begins lock-step. -/
theorem test_stretch_and_crossing :
    let m : StretchMsg × Nat := (⟨0, 5, 1⟩, 1)
    let s := clkS fun c => { c with stretches := [m] }
    let x := crossOf 0 1
    let locked : State := { domS fun d => { d with stalled := true, reqs := [⟨0, 0xFFFF, 3, 0, .crossing x.1 x.2, true⟩] } with
      clk := { base.clk with lockstep := [x] } }
    let open_ : State := { base with phases := (List.range 72).map fun k => (k, 0x88888888) }
    (takeFirst (fun m : StretchMsg × Nat => !bit m.2 1 && (zoneNeighbours 1).any (bit m.2)) s.clk.stretches).isSome = true ∧
      zonesMeet 0 1 = true ∧ locked.clk.lockstep.contains x = true ∧ (getD locked 0).stalled = true ∧
      (crossDoms open_ 0 1).contains 0 = true ∧ (getD open_ 0).stalled = false ∧ open_.clk.lockstep = [] := by decide +kernel

/-- Windows of telemetry over the limit, under 95 % of it and between; readings that throttle and that trip. -/
theorem test_power_cases :
    let w := getP base (pk 0x0330 1)
    0 < w ∧ (List.replicate 9 (900, 10)).length = 9 ∧ (clkS fun c => { c with samples := 2, powerSum := 2000 * w + 1 }).clk.samples ≠ 0 ∧
      1000 * w * 2 < 2000 * w + 1 ∧ 0 * 100 < 1000 * w * 2 * 95 ∧ 2000 * w ≤ 1000 * w * 2 ∧ 1000 * w * 2 * 95 ≤ 2000 * w * 100 ∧
      junctions.contains 0 = true ∧ sensorOf { base with par := [(pk 0x0340 5, 880)] } 0 = 880 ∧
      base.clk.tripped = false ∧ (getD base 0).st.runs = true ∧ (getD base 1).st.runs = false := by decide +kernel

/-- Readings at which ALERT_L is set, the throttle begins and ALERT_L is cleared. -/
theorem test_thermal_bounds :
    let at_ (v : Nat) := sensorOf { base with par := [(pk 0x0340 5, v)] } 0
    at_ (8 * getP base (pk 0x0340 1)) = 8 * (getP base (pk 0x0340 1) : Int) ∧
      at_ (8 * getP base (pk 0x0340 2)) = 8 * (getP base (pk 0x0340 2) : Int) ∧
      at_ (8 * getP base (pk 0x0340 1) - 24) ≤ 8 * (getP base (pk 0x0340 1) : Int) - 24 := by decide +kernel
/-! ### Start-up, security, the Gauge die -/

/-- The start part of the state changed. -/
def bootS (f : Boot → Boot) : State := { ready base with boot := f base.boot }

theorem test_start_cases :
    (bootS fun b => { b with pwrOk := false }).boot.pwrOk = false ∧ base.boot.pwrOk = true ∧ base.clk.thermtrip = false ∧
      (99 < 100 ∧ 100 ≤ 100) ∧ base.snap.held = [] ∧
      [(0, false), (1, false), (1, true)].all (fun q =>
        let s := bootS fun b => { b with resetLow := true, released := q.1, reached := q.2 }
        s.boot.pwrOk && s.boot.resetLow && s.boot.released == q.1 && s.boot.reached == q.2) = true ∧
      (toNs (base.ns + 10000000) (ready base)).clk.thermtrip = false ∧ gateOk (ready base) (pk 0x0402 0) = true ∧ gateOk (ready base) (pk 0x0410 8) = true := by decide +kernel

/-- DMA reports after the mesh and the stacks, and becomes ready; COLL reports a failure; the Gauge die fails its boot. -/
theorem test_function_ready_cases :
    let can (s : State) (b : Nat) : Bool :=
      readyBit b && !s.boot.resetLow && !isReady s b && !isFailed s b && ((requires b).all fun r => isReady s r || isFailed s r)
    let s := setP State.reset (pk 0x0400 1) (2 ^ bMesh + 255 * 2 ^ 16)
    can s bDma = true ∧ canReady s bDma true = true ∧ (match onReady s bDma with
      | some v => !isReady v bDma
      | none => false) = true ∧ can s bColl = true ∧ canReady s bColl false = false ∧
      isFailed s bColl = false := by decide +kernel

theorem test_security_cases :
    let s := setP (ready base) (pk 0x0540 1) 3
    gateOk s (pk 0x0510 2) = true ∧ s.sec.attest = none ∧ gateOk s (pk 0x0520 1) = true ∧
      ({ s with sec := { s.sec with attest := some [] } } : State).sec.attest = some [] ∧ (List.replicate 133 (4 : Byte)).length = 133 ∧
      (let k := setSession (setP s (pk 0x0520 1) 4) 2 { st := 3, sn := 1, slot := 0 }
       (getSession k 2).st = 3 ∧ (getSession k 2).slot = 0 ∧ getP k (pk 0x0520 1) ≠ 0) ∧
      gateOk s (pk 0x0540 2) = true ∧ leNat (List.replicate 4 (0 : Byte)) + 4 ≤ bankSize (getP s (pk 0x0540 1) / 2) ∧
      s.sec.updating = 0 ∧ gateOk s (pk 0x0540 3) = true := by decide +kernel

/-- With bank A of the configuration booted from, bank B is not in use. -/
theorem test_bank_free :
    bankInUse { base with par := [(pk 0x0500 2, 0)] } 3 = false := by decide +kernel

theorem test_gauge_cases :
    let s := ready base
    gaugeRuns s = true ∧ (List.replicate 9 (none : Option (W32 × W32))).length = 9 ∧ gateOk s (pk 0x1020 2) = true ∧
      s.gauge.signing = none ∧ getP (setP s (pk 0x1020 5) 60) (pk 0x1020 5) ≠ 0 ∧ s.gauge.after = [] ∧
      gateOk s (pk 0x1030 2) = true ∧ gateOk s (pk 0x1030 3) = true ∧ sealCheck s [] ≠ 0 := by decide +kernel

/-! ### The dictionary server -/

/-- The host's address and port. -/
def hostSrc : SppSrc := { ip := 7, port := 0x5A49, udpOk := true }

/-- A request of the session in slot 0, with its tag. -/
def reqM (type : Nat) (body : List Byte) (count : Nat) : SppMsg :=
  let m : SppMsg := ⟨1, type, 1, 5, 9, body.length, 0, count, 0, body, []⟩
  { m with tag := sppTag [] m }

/-- The server serves; slot 0 holds session 1 of the host, opening or open, with one subscription. -/
def sppS (st : Nat) : State :=
  { setP (setP State.reset (pk 0x0400 1) (2 ^ 64 - 1)) (portKey hostPort 0xA) 2 with
    spp := { slots := [(0, { st := st, sn := 1, ip := 7, port := 0x5A49 })], subs := [(3, some ⟨0, pk 0x0D10 0, 1, 100, 0, none⟩)] } }

theorem reqM_tag (type : Nat) (body : List Byte) (count : Nat) :
    (reqM type body count).tag = sppTag [] (reqM type body count) := rfl

/-- An opening session takes the message OPEN3 and an open one every other request, by its number and tag. -/
theorem sppS_accepts (st type : Nat) (body : List Byte) (count : Nat) (h : st ≠ 0) (ht : (st == 1) = (type == 3)) (h2 : type ≠ 2) :
    acceptedSlot (sppS st) hostSrc (reqM type body count) = some 0 := by
  have a : (slotsWhere (sppS st) fun x => x.st ≠ 0 && x.sn == 1).head? = some 0 := by
    simp [slotsWhere, sppS, getSession, SMap.get, h, List.range, List.range.loop]
  have b : getSession (sppS st) 0 = { st := st, sn := 1, ip := 7, port := 0x5A49 } := rfl
  have c : (reqM type body count).session = 1 := rfl
  have e : (reqM type body count).seq = 5 := rfl
  have f : (reqM type body count).type = type := rfl
  simp only [acceptedSlot, c, a, b, e, f, reqM_tag, hostSrc]
  simp [ht, h2]

/-- The messages of FreshRequest: each is accepted in slot 0 and well formed. -/
theorem test_fresh_requests :
    [(1, reqM 0x03 (List.replicate 136 0) 0), (2, reqM 0x16 [] 0), (2, reqM 0x15 [] 0), (3, reqM 0x14 [0, 0, 0, 3] 1),
      (2, reqM 0x13 [0x0D, 0x10, 0, 1, 0, 100, 0, 0, 0, 0, 0, 0] 1), (2, reqM 0x10 [0x0D, 0x10, 0, 1, 0, 0, 0, 0, 0, 0, 0, 0] 1)].all (fun q =>
        let s := sppS q.1
        serving s && hostSrc.udpOk && q.2.version == 1 && !malformed s q.2 && decide (q.2.type ≠ 2) &&
          ((q.1 == 1) == (q.2.type == 3)) &&
          (getSession s 0).kept.isEmpty && !unanswered s 0 q.2 && s.spp.after.isEmpty && decide (q.2.seq < 2 ^ 64 - 1) &&
          decide ((getSession s 0).tx + 2 < 2 ^ 64 - 1)) = true := by decide +kernel

/-- OPEN1 with a free slot and with none; messages of no session and before the server serves. -/
theorem test_open1_cases :
    let m : SppMsg := { reqM 1 (List.replicate 168 0) 0 with session := 0, seq := 0 }
    let full : State := { sppS 2 with spp := { (sppS 2).spp with slots := (List.range 8).map fun k => (k, { st := 2, sn := k + 1 }) } }
    serving (sppS 2) = true ∧ malformed (sppS 2) m = false ∧ m.body.length = 168 ∧ (m.body.drop 165).any (· ≠ 0#8) = false ∧
      (slotsWhere (sppS 2) fun x => x.st == 0).head? = some 1 ∧ serving full = true ∧
      (List.range 8).all (fun k => decide ((getSession full k).st ≠ 0)) = true ∧ serving State.reset = false ∧
      acceptedSlot (sppS 2) hostSrc { m with type := 0x16, session := 9 } = none := by decide +kernel

theorem test_session_ends :
    (getSession (sppS 1) 0).st = 1 ∧ 2 ≤ (getSession (sppS 2) 0).st ∧ gateOk (sppS 2) (pk 0x0102 1) = true ∧
      openSlot (sppS 2) 1 = some 0 ∧
      (match getSub (sppS 2) 3 with
        | some u => (findParam u.key).isSome && decide ((getSession (sppS 2) u.slot).tx + 1 < 2 ^ 64 - 1)
        | none => false) = true := by decide +kernel

/-- The entry of the SUBSCRIBE message is acceptable, and subscription 0 is free. -/
theorem test_subscribe_entry :
    let s := sppS 2
    let x := getSession s 0
    let u := setSession (rxOk s hostPort) 0 { x with rx := 5, lastNs := s.ns }
    subStatus { u with spp := { u.spp with own := x.sn, unauth := x.st == 2 } } 0 [0x0D, 0x10, 0, 1, 0, 100, 0, 0, 0, 0, 0, 0] = 0 ∧
      getSub s 0 = none := by decide +kernel

/-- Items of an ACCESS: a read, a write of a read-only parameter and a write of one that an item before has refused. -/
theorem test_access_items :
    let it (op idx sub : Nat) : Item := ⟨idx, sub, op, 0, false, 0, 1, 0, [1]⟩
    (parseItems 1 [0x0D, 0x10, 0, 1, 0, 0, 0, 0, 0, 0, 0, 0]).isSome = true ∧
    [it 1 0x0D10 0].all (fun x => decide (x.op ≠ 2)) = true ∧
    ((it 2 0x0400 1).op = 2 ∧ (match findParam (it 2 0x0400 1).key with
      | some r => !r.acc.writable
      | none => false) = true) ∧
    (accessItems { sppS 2 with spp := { (sppS 2).spp with maxBody := 0 } } [it 1 0x0D10 0]).1 ≠ 0 := by decide +kernel

theorem test_register_write :
    let s := ready State.reset
    let key := pk 0x0D10 0
    key < 0x800000 ∧ (match findParam key with
      | some r => r.acc.writable && writeLenOk r key 1
      | none => false) = true ∧ (checkedWrite s key [5]).1 = 0 ∧
      gateOk s (pk 2 0) = true ∧ allEmpty s = true := by decide +kernel
/-! ### Snapshots -/

/-- Domain 0 takes a snapshot every 64 cycles; its snapshot work `f`, and its neighbour peer entry 0 or none. -/
def snapS (peer : Nat) (f : SnapDom → SnapDom := id) : State :=
  let s := setP (setP base (snapKey 0 2) 64) (snapKey 0 3) peer
  setSnapD s 0 (f (getSnapD s 0))

theorem test_snapshot_points :
    let at_ (s : State) := getP s (snapKey 0 1) + (getSnapD s 0).point * getP s (snapKey 0 2)
    getP (snapS 0) (snapKey 0 2) ≠ 0 ∧ domRuns (snapS 0) 0 = true ∧
      (match toDcc 0 (at_ (snapS 0)) (snapS 0) with
        | some u => getP u (snapKey 0 6) ≠ 1 && (getSnapD (snapS 0) 0).phase == 0 && getP u (snapKey 0 3) ≠ 0xFF
        | none => false) = true ∧
      (match toDcc 0 (at_ (snapS 0xFF)) (snapS 0xFF) with
        | some u => getP u (snapKey 0 3) == 0xFF
        | none => false) = true := by decide +kernel

/-- An entry of the registry under FULL with one page to copy. -/
def regS : State :=
  setReg (snapS 0 fun x => { x with phase := 2 }) 5 { valid := true, dom := 0, inEffect := 2, pages := 1 }

theorem test_snapshot_events :
    let r := getReg regS 5
    let sent : State := setFlow regS 1 { unacked := [⟨.page 0 5 0, hmsMsg 3 0 0 0 0 [], 7⟩] }
    (getSnapD (snapS 0 fun x => { x with phase := 1 }) 0).phase = 1 ∧ drained (snapS 0 fun x => { x with phase := 1 }) 0 = true ∧
      (getSnapD regS 0).phase = 2 ∧ r.valid = true ∧ r.dom = 0 ∧ r.inEffect ≠ 1 ∧ r.inEffect < 3 ∧ 0 < r.pages ∧
      SMap.get false r.sent 0 = false ∧ entriesDone (snapS 0 fun x => { x with phase := 2 }) 0 = true ∧
      oldestSnap sent 0 = some 7 ∧
      (let m : MirrorWrite := ⟨5, 0, 0, 0, [(1, false)], none⟩
       (getSnapD (snapS 0 fun x => { x with mirrors := [m] }) 0).mirrors = [m] ∧ (m.data.any (·.2)) = false) := by decide +kernel

/-! ### The host memory service -/

/-- Receive region 1 is enabled and holds 64 MiB from address 0. -/
def rxS : State := setP (setP base (rxKey 1 1) 1) (rxKey 1 3) 0x4000000

/-- Requests for region 1 that are in order, carry their CRC, and are applied or belong to the driver's side. -/
theorem test_hms_requests :
    let f (op len count off2 : Nat) := hmsSeal (hmsMsg op 1 0 count off2 (List.replicate len 7))
    let ok (f : HmsFrame) : Bool := f.restart ≠ 1 && (findRecv rxS 16 f.srcIp f.srcPort).expect == f.seq &&
      decide (f.seq < 2 ^ 32) && (findRecv rxS 16 f.srcIp f.srcPort).held.isEmpty
    [f 3 64 0 0, f 4 32 0 0, f 5 0 1 0x200000, f 6 128 0 0].all (fun f => ok f && hmsRefuse rxS f == 0) = true ∧ rxS.errs = [] ∧ rxS.hbmq = [] ∧
      [f 1 0 64 0, f 2 64 0 0].all (fun f => ok f && hmsRefuse rxS f ≠ 0) = true ∧
      hmsCrc (hmsMsg 1 1 0 64 0 []) ≠ (hmsMsg 1 1 0 64 0 []).crc := by decide +kernel

theorem hmsSeal_crc (f : HmsFrame) : hmsCrc (hmsSeal f) = (hmsSeal f).crc := rfl

/-- A DMA channel's request on flow 0, and transfer 3 of the channel, of domain 0. -/
def reqS (op : Nat) (rounds : Nat := 0) : State :=
  let x : DmaXfer :=
    { id := 3, src := 0, dst := 0, rows := 1, bytes := 64, sStr := 0, dStr := 0, crc := false, pc := 0, word := 0, born := 0, wait := 1 }
  let s := setDma base 0 { (getDma base 0) with dom := 0, xfers := [x] }
  setFlow s 0 { unacked := [⟨.dma 0 3 0, hmsMsg op 0 0 64 0 [], 0⟩], rounds := rounds }

theorem test_hms_answers :
    let f (op : Nat) (bs : List Byte) (seq : Nat) := hmsSeal { hmsMsg op 0 0 0 0 bs with seq := seq }
    let ok (s : State) (f : HmsFrame) : Bool := f.version == 1 && f.rsv0 == 0 && f.rsv1 == 0 &&
      f.length == f.payload.length && flowOf s hostPort f == some 0 && (getFlow s 0).waiting.isEmpty
    let q (op : Nat) := hmsMsg op 0 0 64 0 []
    ok (reqS 1) (f 0x81 (List.replicate 64 9) 0) = true ∧ ok (reqS 2) (f 0x82 [] 1) = true ∧ ok (reqS 2) (f 0x83 [] 0) = true ∧
      (getFlow (reqS 1) 0).unacked = [⟨.dma 0 3 0, q 1, 0⟩] ∧ (q 1).count = (f 0x81 (List.replicate 64 9) 0).length ∧
      seqBelow (q 2).seq 1 = true ∧ (((getDma (reqS 2) 0).xfers.find? fun x => x.id == 3).isSome) = true ∧
      (getD (reqS 2) (getDma (reqS 2) 0).dom).st.faultable = true ∧
      (getFlow (reqS 2) 0).rounds < getP (reqS 2) (pk 0x0A40 7) ∧
      getP (reqS 2 255) (pk 0x0A40 7) ≤ (getFlow (reqS 2 255) 0).rounds := by decide +kernel

/-! ### Collectives -/

/-- A descriptor of 64 blocks of FP32 at address 0, whose token is core 0's. -/
def collDesc : Nat := fld 384 4096 + fld 20 (posOf 0) + fld 19 1

/-- CVC 0 of domain 0, of `n` positions on a chain, this being position `p`, beside peer entry 0 (seat 0). -/
def cvcS (n p : Nat) (f : Coll → Coll) : State :=
  let s := setP (setP (setP (setP base (cvcKey 0 1) 0) (cvcKey 0 3) 1) (cvcKey 0 4) n) (cvcKey 0 5) p
  let s := setP (setP s (cvcKey 0 6) 0) (cvcKey 0 7) 0
  { setColl s 0 (f { st := 1 }) with tlb := [⟨0, 0, 7⟩] }

theorem test_collective_start :
    let s := writeP (cvcS 2 0 id) 0 ((leBytes 64 collDesc).map fun b => (b, false))
    domRuns s (cvcCfg s 0).dom = true ∧ (getD s (cvcCfg s 0).dom).started = true ∧ (getColl s 0).st = 1 ∧
      (getColl s 0).run = false ∧
      (match readDesc s 0 (getP s (cvcKey 0 0x11)) with
        | (some d, u) => (match toDcc 0 (max (cdStart d + (getColl s 0).iter * getP s (cvcKey 0 0x13)) (getColl s 0).freeAt) u with
          | some v => !finishedBefore u 0 (max (cdStart d + (getColl s 0).iter * getP s (cvcKey 0 0x13)) (getColl s 0).freeAt) &&
             (descCheck v (cvcCfg s 0) d).1.isNone && d == collDesc
          | none => false)
        | _ => false) = true := by decide +kernel

/-- A hop that is ready, its peer not paused and its blocks clean. -/
theorem test_hop_send :
    let s := cvcS 2 0 fun k => { k with st := 2, run := true, desc := fld 384 64 }
    let g : SendLeg := ⟨0, [0], 0, false, []⟩
    (sendLegs (cvcCfg s 0) 0).find? (fun g => !(getColl s 0).sent.contains g.hop && g.needs.all (getColl s 0).took.contains) =
        some g ∧
      isPaused s (portOfCode (getP s (pk 0x0B40 2))) (cvcCfg s 0).prio = false ∧
      (sendBlocks s 0 g).1.all (fun b => (decodeBlock b.2).all (!·.2)) = true ∧ nanPolicy (sendBlocks s 0 g).2 ≠ 1 := by
  decide +kernel

/-- A herd frame that is staged, and one of a wrong version. -/
theorem test_herd_frames :
    let s := cvcS 2 1 fun k => { k with st := 1 }
    let f : HerdFrame := ⟨1, 1, 1, 0, 0, 0, getP s (pk 0x0B00 1), 0, getP s (pk 0x0B00 2), 0, 0, 0, 0, 0, 0, 0, 0, 0, [], 0, true, false⟩
    discardReason (rxOk s 0) f = 0 ∧ (getColl s f.cvc).run = false ∧ discardReason (rxOk s 0) { f with version := 2 } = 1 ∧
      f.ce = false := by decide +kernel

/-- The window of hop 0 closes next, its grace ends next, and every hop is done. -/
theorem test_windows_and_end :
    let s (closed : List Nat) (took : List (Nat × Nat)) (sent : List Nat) := cvcS 2 1 fun k =>
      { k with st := 2, run := true, desc := collDesc, closed := closed, took := took, sent := sent }
    nextClose (s [] [] []) 0 = some 0 ∧ nextGrace (s [0] [] []) 0 = some 0 ∧
      (takeLegs (cvcCfg (s [0] [] []) 0) 0).any (fun g => g.hop == 0 && !(getColl (s [0] [] []) 0).took.contains (0, g.peer)) = true ∧
      (getD (s [0] [] []) (cvcCfg (s [0] [] []) 0).dom).st.faultable = true ∧ collDone (s [0] [(0, 0)] [1]) 0 = true ∧
      cdTokenEn (getColl (s [] [] []) 0).desc = true := by decide +kernel

/-! ### Ports -/

/-- Fabric port 0 in a link state, with attempts made. -/
def linkS (v a : Nat) : State := setPort (setP base (portKey 0 0xA) v) 0 { attempts := a }

theorem test_ports :
    bit (getP (setP base (portKey 0 7) 4) (portKey 0 7)) 2 = true ∧ bit (getP (setP base (portKey 0 7) 4) (portKey 0 7)) 3 = false ∧
      SMap.get 0 (getPort (setPort base 0 { pause := [(2, 900)] }) 0).pause 2 ≠ 0 ∧
      (let s : State := { base with par := [(portKey 0 3, 5), (portKey 0 4, 0x0A000001), (portKey 0 5, 77)] }
       0x0A000001 = getP s (portKey 0 4) ∧ 77 = getP s (portKey 0 5) ∧ 78 ≠ linkLocal (getP s (portKey 0 3)) ∧
         77 ≠ linkLocal (getP s (portKey 0 3))) ∧
      getP (setP base (pk 0x0530 1) 1) (pk 0x0530 1) ≠ 0 := by decide +kernel

theorem test_link_states :
    linkOf (linkS 2 0) 0 = 2 ∧ linkOf (linkS 1 1) 0 = 1 ∧ (getPort (linkS 1 1) 0).attempts ≠ 0 ∧
      (getPort (linkS 1 1) 0).attempts < getP (linkS 1 1) (portKey 0 0x0B) ∧
      getP (linkS 1 255) (portKey 0 0x0B) ≤ (getPort (linkS 1 255) 0).attempts ∧ linkOf (linkS 3 0) 0 = 3 ∧
      linkOf (linkS 1 0) 0 = 1 ∧ (getPort (linkS 1 0) 0).attempts = 0 := by decide +kernel

theorem test_ptp_states :
    let s (src st : Nat) := setP (setP base (pk 0x0A30 1) src) (pk 0x0A30 7) st
    let m : State := { s 1 2 with ports := { (s 1 2).ports with master := true, good := 15, secDue := true } }
    portOfCode (getP m (pk 0x0A30 2)) < 17 ∧ getP m (pk 0x0A30 1) = 1 ∧ getP m (pk 0x0A30 7) = 2 ∧ m.ports.master = true ∧
      15 ≤ m.ports.good ∧ getP (s 2 0) (pk 0x0A30 1) = 2 ∧ getP (s 1 1) (pk 0x0A30 7) = 1 ∧ m.ports.secDue = true ∧
      portOfCode (getP (setP base (pk 0x0A30 2) 3) (pk 0x0A30 2)) = 3 := by decide +kernel

/-- TAP: TRST_L resets it; five clocks of TMS high do so from Shift-DR as well (IEEE 1149.1). -/
theorem test_tap_reset :
    [true, true, true, true, true].foldl tapNext 4 = 0 ∧ tapNext 15 false = 1 := by decide +kernel


/-! ### The package (R446, R460 to R466) -/

/-- The example of R463: P10 L2 is IO1 lane 10 at TX A73, A74 and RX C73, C74; H6 is IO1 lane 34 at TX F85, F86 and RX H85, H86;
RESET_L stands at DT48; BA17 is row 39. -/
theorem test_package_example :
    portLane 10 2 = some (1, 10) ∧
    [(false, false), (false, true), (true, false), (true, true)].map (fun x =>
      landName (laneLand 1 10 x.1 x.2).1 (laneLand 1 10 x.1 x.2).2) = ["A73", "A74", "C73", "C74"] ∧
    portLane 16 6 = some (1, 34) ∧ landName (laneLand 1 34 false false).1 (laneLand 1 34 false false).2 = "F85" ∧
    landName (laneLand 1 34 true true).1 (laneLand 1 34 true true).2 = "H86" ∧
    landName (signalLand 18).1 (signalLand 18).2 = "DT48" ∧ (boardSignals.map (·.1))[18]? = some "RESET_L" ∧
    landName 39 17 = "BA17" ∧ [89, 90, 91, 92].map rowName = ["DN", "DP", "DT", "DU"] := by decide +kernel

/-- The counts of R460 and R461, and every lane's wires where R462 puts them. -/
theorem test_package_lands :
    landCount (fun _ => true) = 8120 ∧ landCount (fun l => l == .rail .vddCmp) = 1694 ∧
    landCount (fun l => l == .rail .vddSrm) = 320 ∧ landCount (fun l => l == .rail .vddHbm) = 574 ∧
    landCount (fun l => l == .rail .v1p8Aux) = 8 ∧ landCount (fun l => l == .vss) = 530 + 184 + 224 + 1050 + 2014 + 326 ∧
    landCount (fun l => match l with | .lane _ _ _ _ => true | _ => false) = 288 ∧
    ([0, 1].all fun io => (List.range 36).all fun k => [false, true].all fun rx => [false, true].all fun neg =>
      landAt (laneLand io k rx neg).1 (laneLand io k rx neg).2 == some (.lane io k rx neg)) = true ∧
    (railSpecs.all fun r => decide (10 * r.maxA ≤ 12 * landCount (fun l => l == .rail r.rail))) = true := by decide +kernel

/-- Every lane belongs to the port whose lane it is (R446). -/
theorem test_port_lanes :
    ((List.range 17).all fun p => (List.range 8).all fun l =>
      (portLane p l).all fun x => lanePort (36 * x.1 + x.2) == p) = true := by decide +kernel
/-! ### Ill-formed commands -/

/-- Every Eland row with its opcode. -/
def elandRows : List ((Nat → Needle → W128 → Instr) × Nat) := [
    (.nop, 0x00), (.halt, 0x01), (.loop, 0x02), (.pick, 0x03), (.part, 0x04), (.stepI, 0x05), (.setb, 0x06),
    (.tpos, 0x07), (.sync, 0x08), (.signal, 0x09), (.mma, 0x10), (.accrd, 0x14), (.act, 0x18), (.dact, 0x19),
    (.cvt, 0x30), (.amax, 0x31), (.spush, 0x1C), (.spop, 0x1D), (.inj, 0x20), (.take, 0x21), (.tld, 0x24),
    (.tst, 0x25), (.put, 0x28), (.get, 0x29), (.rsend, 0x2C)]

/-- Every Chamois row with its opcode. -/
def chamoisRows : List ((Nat → W64 → Instr) × Nat) := [
    (.cNop, 0x00), (.cHalt, 0x01), (.cLoop, 0x02), (.cStep, 0x05), (.cSync, 0x08), (.cSignal, 0x09), (.add, 0x10),
    (.sub, 0x11), (.and, 0x12), (.or, 0x13), (.xor, 0x14), (.shl, 0x15), (.shr, 0x16), (.sra, 0x17), (.mul, 0x18),
    (.slt, 0x19), (.sltu, 0x1A), (.addi, 0x1B), (.li, 0x1C), (.lih, 0x1D), (.fadd, 0x1E), (.fmul, 0x1F),
    (.vadd, 0x20), (.vsub, 0x21), (.vmul, 0x22), (.vfma, 0x23), (.vmac, 0x24), (.vsmd, 0x25), (.vmax, 0x26),
    (.vmin, 0x27), (.vabs, 0x28), (.vneg, 0x29), (.vdiv, 0x2A), (.vsqrt, 0x2B), (.vrsqrt, 0x2C), (.vfn, 0x2D),
    (.vcmp, 0x2E), (.vsel, 0x2F), (.viadd, 0x30), (.visub, 0x31), (.vimul, 0x32), (.vand, 0x33), (.vor, 0x34),
    (.vxor, 0x35), (.vshl, 0x36), (.vshr, 0x37), (.vicmp, 0x38), (.vcvtfi, 0x39), (.vcvtif, 0x3A), (.vbcast, 0x3B),
    (.vlane, 0x3C), (.vrsum, 0x3D), (.vrmax, 0x3E), (.pand, 0x40), (.por, 0x41), (.pxor, 0x42), (.pnot, 0x43),
    (.vld, 0x48), (.vst, 0x49), (.lds, 0x4A), (.sts, 0x4B), (.trd, 0x50), (.twr, 0x51), (.sfacc, 0x52),
    (.ngath, 0x58), (.nscat, 0x59), (.mld, 0x60), (.mst, 0x61), (.mput, 0x62), (.mget, 0x63), (.mrsend, 0x64),
    (.cpush, 0x68), (.cpop, 0x69)]

/-- A core that does not exist, and a word of another row, are refused; the row's own word is not. -/
theorem test_ill_formed_instructions :
    (elandRows.all fun r => !(r.1 36 .fore (BitVec.ofNat 128 r.2)).wf && (r.1 35 .fore (BitVec.ofNat 128 r.2)).wf &&
      !(r.1 0 .fore (if r.2 == 0 then 1 else 0)).wf) = true ∧
    (chamoisRows.all fun r => !(r.1 24 (BitVec.ofNat 64 r.2)).wf && (r.1 23 (BitVec.ofNat 64 r.2)).wf &&
      !(r.1 0 (if r.2 == 0 then 1 else 0)).wf) = true := by decide +kernel

def goodSrc : SppSrc := ⟨1, 2, true, {}⟩
def badSrc : SppSrc := ⟨1, 65536, true, {}⟩
def badEth : Eth := { vid := 4095 }
def goodMsg : SppMsg := ⟨1, 1, 0, 0, 0, 0, 0, 0, 0, [], List.replicate 32 0⟩
def badMsg : SppMsg := { goodMsg with tag := [] }
def goodHms : HmsFrame := hmsMsg 1 0 0 0 0 []
def badHms : HmsFrame := { goodHms with seq := 4294967296 }
def goodHerd : HerdFrame := ⟨1, 1, 1, 0, 0, 0, 0, 0, 0, 0, 0, 0, 0, 0, 0, 0, 0, 0, [], 0, true, false⟩
def badHerd : HerdFrame := { goodHerd with cvc := 16 }

theorem test_ill_formed_ethernet :
    (([⟨2 ^ 48, 0, 0⟩, ⟨0, 4095, 0⟩, ⟨0, 0, 8⟩] : List Eth).all fun e => !e.wf && !({ goodSrc with eth := e }).wf &&
      !({ goodHms with eth := e }).wf) = true := by decide +kernel

theorem test_ill_formed_events :
    ([
      .instructionDecode 36 .fore, .waitQueueEntry 36 .fore, .engineIdle 36 0 0, .engineIdle 0 4 0,
      .engineIdle 0 0 2, .accrdHoldRelease 36 0, .accrdHoldRelease 0 4, .roundBeatSend 36, .roundBeatArrive .cw 36 0,
      .roundBeatArrive .cw 0 5, .roundBeatTake .cw 36, .takeQueueDrain .cw 36, .injectionQueueFill 36,
      .portFLineWrite 36 (.op 0), .portFLineWrite 0 (.op 4096), .portFLineWrite 0 (.stream 32768),
      .meshTransferComplete 36 0, .meshTransferComplete 0 4096, .stashPushComplete 36 0, .stashPushComplete 0 4096,
      .incr 64 0, .incr 0 64, .stallReq 8, .freeze 8, .resumeOk 8 0, .resumeOk 0 36, .resume 8, .pickReport 8 0,
      .pickReport 0 36, .pickChoice 8, .fault 8, .stop 8, .start 8, .stallTimeout 8, .domainDone 8, .load 8, .run 8,
      .loadRun 8, .abort 8, .release 8, .nanClear 18446744073709551616, .monClear 18446744073709551616,
      .monTensorWrite 4294967296, .nanPolicyWrite 256, .gradFloorWrite 256, .rngStepWrite 8 0,
      .rngStepWrite 0 18446744073709551616, .stashDomainWrite 8 0, .stashDomainWrite 0 256,
      .faultAck 18446744073709551616, .ptFlush 18446744073709551616, .haltResume 256, .haltFail 256,
      .dmaStart 18446744073709551616, .dmaTriggerRun 256, .dmaTriggerTime 256, .dmaTriggerCtc 256,
      .dmaTriggerChannel 256, .dmaNop 256, .dmaHalt 256, .dmaLoop 256, .endloop 256, .wait 256, .dmaSignal 256,
      .timer 256, .crcstore 256, .move 256, .move2d 256, .dmaTimerExpiry 256, .dmaTransferComplete 256,
      .windowCurrent 32768, .windowRelease 32768, .windowCheck 32768, .streamRequestIssue 32768,
      .windowFilled 32768 0, .windowFilled 0 64, .storeWindowAcknowledged 32768, .streamWait 32768,
      .hbmRequestService 8, .hbmRefresh 8 0, .scrub 8, .stackTemperatureRead 8 0, .stackTemperatureRead 0 2147483648,
      .meshWrite 64, .meshReadRequest 64, .meshReadResponse 64, .meshAcknowledge 64, .meshReduction 64 0,
      .meshReduction 0 16, .meshMulticastWrite 64, .meshStash 64, .flitCrcFail 64 0, .flitCrcFail 0 4, .stretch 16,
      .marginShortfall 16 1, .marginShortfall 0 0, .marginShortfall 0 4, .crossingRecentre 16 0,
      .crossingRecentre 0 16, .freq 16, .targetMhzWrite 65536, .serviceClockWrite 0 0, .serviceClockWrite 4 0,
      .serviceClockWrite 1 65536, .thermalReading [(33, none)]] : List Instr).all (!·.wf) = true := by decide +kernel

theorem test_ill_formed_requests :
    ([
      .thermalTrip 33, .resetLRelease { array := [36] }, .resetLRelease { durationMs := 4294967296 },
      .functionReady 40 true 0, .functionReady 0 true 4294967296, .startWarm 18446744073709551616,
      .testAck 18446744073709551616, .attestGenerate 18446744073709551616, .hostkeySlotWrite 4 [],
      .updateVerify 18446744073709551616, .open1 badSrc goodMsg, .open1 goodSrc badMsg, .open3 badSrc goodMsg,
      .open3 goodSrc badMsg, .open3Timeout 8, .access badSrc goodMsg, .access goodSrc badMsg,
      .registerWrite 16777216 [], .subscribe badSrc goodMsg, .subscribe goodSrc badMsg, .unsubscribe badSrc goodMsg,
      .unsubscribe goodSrc badMsg, .close badSrc goodMsg, .close goodSrc badMsg, .keepalive badSrc goodMsg,
      .keepalive goodSrc badMsg, .sessionClose 18446744073709551616, .sessionIdleTimeout 8, .notify 256,
      .versionSelectedWrite 65536, .treeConfigWrite 16 1 0, .treeConfigWrite 0 0 0, .treeConfigWrite 0 6 0,
      .treeConfigWrite 0 1 256, .treeConfigWrite 0 3 4294967296, .mcastMembersWrite 8 0 0, .mcastMembersWrite 0 4 0,
      .mcastMembersWrite 0 0 18446744073709551616, .cvcConfigWrite 16 1 [], .cvcConfigWrite 0 0 [],
      .cvcConfigWrite 0 22 [], .dataStepWrite 8 0, .dataStepWrite 0 18446744073709551616, .resumeStepWrite 8 0,
      .resumeStepWrite 0 18446744073709551616, .portModeWrite 17 0, .portModeWrite 0 256,
      .sealExecute 18446744073709551616, .recordGenerate 18446744073709551616, .gaugeSample [], .snapshotPoint 8,
      .snapshotDrainEnd 8, .snapshotPageCopy 8 0 0, .snapshotPageCopy 0 1024 0, .snapshotMirrorWrite 8,
      .snapshotComplete 8, .snapshotTimeout 8, .page 17 goodHms, .page 0 badHms, .mirror 17 goodHms,
      .mirror 0 badHms, .refresh 17 goodHms, .refresh 0 badHms, .record 17 goodHms, .record 0 badHms,
      .read 17 goodHms, .read 0 badHms, .write 17 goodHms, .write 0 badHms, .data 17 goodHms, .data 0 badHms,
      .ack 17 goodHms, .ack 0 badHms, .nak 17 goodHms, .nak 0 badHms, .hmsResendTimeout 129, .collectiveStart 16,
      .collectiveHopSend 16, .herdFrame 17 goodHerd, .herdFrame 0 badHerd, .windowClose 16, .windowGraceClose 16,
      .collectiveComplete 16, .pfcFrame 17 0 0, .pfcFrame 0 8 0, .pfcFrame 0 0 65536, .arpRequest 17 0 {},
      .arpRequest 0 4294967296 {}, .arpRequest 0 0 badEth, .neighbourSolicitation 17 0 {},
      .neighbourSolicitation 0 340282366920938463463374607431768211456 {}, .neighbourSolicitation 0 0 badEth,
      .linkLoss 17, .retrainAttemptEnd 17 true, .periodicRetrain 17 true, .ptpMessage 17 0 .other,
      .ptpMessage 0 256 .other, .pfcPauseExpiry 17 0, .pfcPauseExpiry 0 8, .linkTrainingEnd 17 true,
      .discardedFrame 17 .fcs, .boundaryScan true true true 4194304, .regulatorTelemetryRead [],
      .regulatorTelemetryRead (List.replicate 9 (65536, 0))] : List Instr).all (!·.wf) = true := by decide +kernel
/-! ### Worked examples of the spec -/

/-- "Number formats": 1/3 in FP20 by RNE is 3EAA_B000h, its FP32 container read as FP20 is 3EAA_A000h; 0.3 in E4M3 is 2Ah
by RNE and, by SR, 2Ah from a draw of 26,215 on and 29h below it. -/
theorem test_fp20_and_e4m3_examples :
    (convElt 1 .rne (f32Of 0x3EAAAAAB)).code = 0x3EAAB000 ∧ f32Bits (eltValue 1 0x3EAAAAAB) = 0x3EAAA000 ∧
      (convElt 4 .rne (f32Of 0x3E99999A)).code = 0x2A ∧ (convElt 4 (.sr 26215) (f32Of 0x3E99999A)).code = 0x2A ∧
      (convElt 4 (.sr 26214) (f32Of 0x3E99999A)).code = 0x29 := by decide +kernel

/-- "Number formats": the trits (+1, 0, −1, −1, +1) form A7h; F5h decodes as zeros. -/
theorem test_tern_example :
    tritByte [2, 1, 0, 0, 2] = 0xA7 ∧ (List.range 5).map (tritOf 0xA7) = [1, 0, -1, -1, 1] ∧
      (List.range 5).all (fun j => tritOf 0xF5 j == 0) = true := by decide +kernel

/-- The ZM4 block of "Number formats": 0.75, −1.3, 2.9, 37.0 and −19.5 among values of 0.25. -/
theorem test_zm4_example :
    let v (i : Nat) : Nat := if i == 0 then 0x3F400000 else if i == 1 then 0xBFA66666 else if i == 2 then 0x4039999A
      else if i == 5 then 0x42140000 else if i == 40 then 0xC19C0000 else 0x3E800000
    zm4Bytes (encodeBlock 0x14 0 2 (fun _ => 0) ((List.range 64).map fun i => ⟨f32Of (v i), false⟩)) =
      ([0xD3#8, 0x17#8, 0x01#8] ++ List.replicate 17 0x11#8 ++ [0x10#8] ++ List.replicate 11 0x11#8 ++
        [0x7E#8, 0x03#8, 0x05#8, 0x14#8, 0x42#8, 0x28#8, 0x9C#8, 0xC1#8]).map fun b => (b, false) := by decide +kernel

/-- "Arithmetic": chunk sums of the reduction with large opposing terms, and of one with an infinity times zero. -/
theorem test_chunk_examples :
    let c (a b a' b' : Nat) := chunkSum 2 [(⟨f32Of a, false⟩, ⟨f32Of b, false⟩), (⟨f32Of a', false⟩, ⟨f32Of b', false⟩)]
    f32Bits (c 0x47000000 0x47000000 0x40400000 0x3F800000).1.v = 0x4E800000 ∧
      f32Bits (c 0xC7000000 0x47000000 0x40400000 0x3F800000).1.v = 0xCE800000 ∧
      f32Bits (c 0x3F800000 0x3F800000 0x3F800000 0x3F800000).1.v = 0x40000000 ∧
      (c 0x7F800000 0 0x3F800000 0x3F800000).1.v.isNaN = true ∧ (c 0x7F800000 0 0x3F800000 0x3F800000).2 = 1 := by
  decide +kernel

/-- The cascade of that reduction closes at 4, not at the exact sum 10. -/
theorem test_cascade_example :
    let x : El := ⟨0, 0, 0, 0, 0⟩
    let push (s : State) (n : Nat) : State := (pushEl s x ⟨f32Of n, false⟩).1
    f32Bits (closeVal ([0x4E800000, 0xCE800000, 0x40000000, 0x40000000].foldl push (openEl State.reset x false false false)) x).1.v =
      0x40800000 := by decide +kernel

/-- "Training": SF16 blocks of 0.75 and 2^−40, and of 1.25 and 2^−40. -/
theorem test_sf16_example :
    let b (a rmode draw : Nat) := encodeBlock 0x16 rmode 0 (fun _ => draw) ((List.range 64).map fun i =>
      ⟨if i == 0 then f32Of a else if i == 7 then f32Of 0x2B800000 else FV.zero, false⟩)
    let at_ (x : Block) := (x.scale, x.codes.getD 0 0, x.codes.getD 7 0)
    at_ (b 0x3F400000 0 0) = (0x6F, 0x7A00, 1) ∧ at_ (b 0x3FA00000 0 0) = (0x70, 0x7900, 0) ∧
      at_ (b 0x3FA00000 2 32768) = (0x70, 0x7900, 1) ∧ at_ (b 0x3FA00000 2 32767) = (0x70, 0x7900, 0) := by decide +kernel

/-- "Eland cores": the fields of the example MMA. -/
theorem test_mma_word_example :
    let w := 0x00000001402401FFE1200025233C0010
    opcodeOf w = 0x10 ∧ mmaEng w = 15 ∧ mmaTile w = 3 ∧ mmaClose w = true ∧ mmaFmtA w = 0x14 ∧ mmaFmtB w = 4 ∧
      mmaK w = 9216 ∧ mmaM1 w = 63 ∧ mmaN1 w = 63 ∧ mmaALine w = 0x1200 ∧ mmaStride w = 0x28 ∧ mmaHalf w = 0 ∧
      mmaDir w = .cw ∧ mmaCont w = false ∧ fGap w = 0 ∧ fBsel w = 0 := by decide +kernel

/-- "Chamois cores": the fields of the example NGATH. -/
theorem test_ngath_word_example :
    let w := 0x0008F0C198594558
    opcodeOf w = 0x58 ∧ (cnVI w, cnSB w, cnSS w, cnSL w) = (5, 10, 11, 12) ∧ (cnCount1 w, cnGran1 w) = (3, 3) ∧
      cnTokenEn w = true ∧ cnToken w = 7 ∧ cnSkip w = true := by decide +kernel

/-- "The schedule contract": slot 73,000 freezes at CTC 1,000,073,000, the root learns at 1,000,075,350 that the window is
filled, and a domain that shares its links by phases resumes at 1,000,075,416. -/
theorem test_resume_example :
    let s := setD { State.reset with ctc := 1000075350, phases := [(0, 8)] } 0
      { dom0 with dcc := 73000, stalled := true, stallCtc := 1000073000, freezeAt := some 73000, arc := 1 }
    phased s 0 = true ∧ (getD (announceResume s 0) 0).resumeAt = some 1000075416 := by decide +kernel

/-- "The schedule contract": the fault record of its worked example. -/
theorem test_fault_record_example :
    let r : Raised := { code := 4, dom := some 2, dcc := 1234567890, ctc := 0, ptp := 0, unit := 12, needle := 1,
                        offset := 0x42A30, detail0 := 0x40110, detail1 := 0x806C430111 }
    let bs := leBytes 64 (recordOf r 0 0)
    bs.take 8 = [0xD2, 0x02, 0x96, 0x49, 0, 0, 0, 0] ∧ bs.getD 20 0 = 4 ∧ bs.getD 21 0 = 0 ∧ bs.getD 22 0 = 2 ∧
      bs.getD 23 0 = 1 ∧ (bs.drop 24).take 2 = [0x0C, 0] ∧ (bs.drop 28).take 4 = [0x30, 0x2A, 4, 0] := by decide +kernel

/-- "On-die fabric": with the router at position 27 failed, the route from 29 to 25 goes by VIA 20. -/
theorem test_route_example :
    routeEntry (2 ^ 27) 29 25 = some 0x94 := by decide +kernel

/-- "On-die fabric": the sums that the routers at (4,3) and (3,3) form, East first and Local last. -/
theorem test_reduction_example :
    let a (x y : Nat) := f32Bits (addFV (f32Of x) (f32Of y))
    a 0x3F800000 0x4B800000 = 0x4B800000 ∧ a (a 0x4B800000 0x3F800000) 0xCB800000 = 0 := by decide +kernel

/-- "Memory system": the address 0000_0012_3456_7ABCh lies in HS7. -/
theorem test_stack_example : stackOf 0x0000001234567ABC = 7 ∧ pteFrame 0x0000001234400007 = 0x0000001234400000 ∧
    pte2Ok 0x0000001234400007 = true := by decide +kernel

/-- "Herds and gradient exchange": the economy-mode block of the 4-position ring. -/
theorem test_wire_example :
    let x (n : Nat) : SBlock := { vals := [(n, false)], scale := ownScale 2 [(n, false)] }
    let w0 := (encBlock true (x 0x40400000)).1
    let w1 := encBlock true (stepBlock w0 (x 0x40D00000))
    let w2 := encBlock true (stepBlock w1.1 (x 0x40E80000))
    let s3 := stepBlock w2.1 (x 0xBF000000)
    (w0.promoted, w0.scale, w0.vals) = (false, 0x73, [0x7200]) ∧ (w1.1.promoted, w1.1.scale, w1.1.vals) = (false, 0x73, [0x78C0]) ∧
      (w2.1.promoted, w2.1.vals, w2.2) = (true, [0x41860000], true) ∧ s3.vals = [(0x41820000, false)] ∧
      (encBlock true s3).2 = false := by decide +kernel

/-- The window of hop 5 in that chapter's example: index 237, closing at 1,047,600,000 ns. -/
theorem test_window_example :
    let s := setP (setP (setP State.reset (pk 0x0B00 7) 1000000000) (cvcKey 2 0x14) 64) (cvcKey 2 0xF) 200000
    let s := setColl s 2 { desc := fld 416 40, iter := 3 }
    windowOf s 2 5 = 237 ∧ closeOf s 2 5 = 1047600000 := by decide +kernel

/-- "Twins, snapshots and checkpoints": entries A, B and C of the method example. -/
theorem test_method_example :
    let m (pages dirty : Nat) := chosenMethod State.reset { (getReg State.reset 0) with method := 2, pages := pages, dirtyMax := dirty }
    m 12 0 = 1 ∧ m 6144 3100 = 1 ∧ m 6144 3072 = 0 := by decide +kernel

/-- "Clocks and power": a raise that ends at CTC 12,000,083,300 switches at CTC 12,000,092,160. -/
theorem test_switch_example :
    getP (announce { State.reset with ctc := 12000083300 } 2000) (pk 0x0311 2) = 12000092160 ∧ srmFor 780 = 830 ∧
      srmFor 845 = 895 := by decide +kernel

/-- "Parameter dictionary": the 28-byte body of the example message. -/
theorem test_items_example :
    parseItems 2 [2, 0, 0, 1, 5, 0, 0, 0, 0, 0, 0, 0, 6, 0x20, 0, 2, 4, 0, 0, 4, 0, 0, 0, 0, 0, 0, 0, 0xFA] =
      some [⟨0x0200, 0, 1, 5, false, 0, 0, 0, []⟩, ⟨0x0620, 0, 2, 4, false, 0, 4, 0, [0, 0, 0, 0xFA]⟩] := by decide +kernel

/-- "Streams, prefetch and DMA programs": the CRC-32C and the CRC-64 of "123456789". -/
theorem test_crc_example :
    crc32c ([0x31, 0x32, 0x33, 0x34, 0x35, 0x36, 0x37, 0x38, 0x39]) = 0xE3069283 ∧
      crc64Run 0 [0x31, 0x32, 0x33, 0x34, 0x35, 0x36, 0x37, 0x38, 0x39] = 0x6C40DF5F0B497347 := by decide +kernel

/-! ### The machine and the formats -/

/-- Both idle cases: the compute clocks run and no Chamois core has a write to come, and they do not run. -/
theorem test_idle_steps :
    State.reset.pending = [] ∧ State.reset.clk.runs = true ∧ State.reset.chams = [] ∧
      ({ State.reset with clk := { State.reset.clk with runs := false } } : State).clk.runs = false ∧
      (match step State.reset with
        | .next t => t.ctc == 1
        | _ => false) = true := by decide +kernel

/-- The stores are canonical where the machine starts, and a command there answers a next state. -/
theorem test_stores_wf : StoresWf State.reset := ⟨by decide, by decide⟩

theorem test_front_command :
    (match step { State.reset with pending := [.ptp1ppsEdge, .gaugeCommit] } with
      | .next t => t.pending == [.gaugeCommit]
      | _ => false) = true ∧ runs .ptp1ppsEdge State.reset = true := by decide +kernel

/-- A FAULT message takes a running domain to FAULTED; faults in each of the faultable states, and one that is none. -/
theorem test_fault_message :
    let s : State := { base with raised := [mkRaised base 2 0 0] }
    (getD (after (.fault 0) s) 0).st = .faulted ∧ (getD s 0).st = .running ∧ (mkRaised base 2 0 0).dom = some 0 ∧
      [DState.loading, .running, .pageHalt].all (·.faultable) = true ∧ DState.done.faultable = false := by decide +kernel

/-- "Number formats": the ends of the E8M0 range, five zero trits, the byte 242, and a row of INT4 elements. -/
theorem test_format_ends :
    e8m0 0 = .fin false 1 (-127) ∧ e8m0 0xFE = .fin false 1 127 ∧ e8m0 0xFF = .nan ∧ tritByte [1, 1, 1, 1, 1] = 121 ∧
      (List.range 5).map (tritOf 242) = [1, 1, 1, 1, 1] ∧
      decodeAt 0x0A (fun _ => 0x8F#8) 63 63 = intFV (-8) ∧ decodeAt 0x0A (fun _ => 0x8F#8) 0 0 = intFV (-1) ∧
      decodeAt 0x0B (fun _ => 0x2C#8) 0 1 = intFV (-1) ∧ decodeAt 0x0D (fun _ => 0x80#8) 0 7 = .fin true 1 0 := by decide +kernel

/-- FP32 round trips at the ends: the smallest subnormal, the largest number, an infinity, a NaN. -/
theorem test_fp32_ends :
    [1, 0x80000001, 0x7F7FFFFF, 0xFF800000, 0x80000000].all (fun n => f32Bits (f32Of n) == n) = true ∧
      f32Bits (f32Of 0xFF812345) = 0x7FC00000 := by decide +kernel

end Sys2Proof.Tests
end

