-- ==== Sys2Proof/Proofs/NumberFormats.lean ====
section
/-!
SUPPORT. "Number formats": E8M0 scales, integer and binary elements packed into bytes, the trits of a TERN byte and
the FP20 container, and the statements about them.
-/
namespace Sys2Proof.Machine

/-! ### E8M0 scales (R40) -/

theorem e8m0_of_le {v : Nat} (h : v ≤ 0xFE) : e8m0 v = .fin false 1 ((v : Int) - 127) := by
  have hne : v ≠ 0xFF := by omega
  simp [e8m0, hne]

theorem e8m0_ff : e8m0 0xFF = .nan := rfl

theorem e8m0_nonzero_unsigned_noninf {v : Nat} (h : v ≤ 0xFF) :
    (e8m0 v).isZero = false ∧ (e8m0 v).neg = false ∧ (e8m0 v).isInf = false := by
  obtain hfin | rfl : v ≤ 0xFE ∨ v = 0xFF := by omega
  · rw [e8m0_of_le hfin]
    exact ⟨rfl, rfl, rfl⟩
  · exact ⟨rfl, rfl, rfl⟩

/-- Settles O7: FFh is the one value that is not `fin false 1 _`. -/
theorem e8m0Scales : Obligations.E8m0Scales :=
  ⟨fun _ => e8m0_of_le, e8m0_ff, e8m0_of_le (by decide), e8m0_of_le (by decide), fun _ => e8m0_nonzero_unsigned_noninf⟩

/-! ### Packed elements (R31) -/

/-- Bits that lie within one byte are read from it alone: the three bytes above it are masked away. -/
theorem readBits_of_within_byte (rd : Nat → Byte) {off w : Nat} (h : off % 8 + w ≤ 8) :
    readBits rd off w = ((rd (off / 8)).toNat >>> (off % 8)) % 2 ^ w := by
  obtain ⟨k, hk⟩ : ∃ k, 8 = off % 8 + (w + k) := ⟨8 - off % 8 - w, by omega⟩
  have hpow : 2 ^ 8 = 2 ^ (off % 8) * (2 ^ w * 2 ^ k) := by rw [← Nat.pow_add, ← Nat.pow_add, ← hk]
  generalize hr : off % 8 = r at hpow
  have above : ∀ a x : Nat, (a + 2 ^ 8 * x) >>> r % 2 ^ w = a >>> r % 2 ^ w := fun a x => by
    rw [hpow, Nat.shiftRight_eq_div_pow, Nat.shiftRight_eq_div_pow, Nat.mul_assoc,
      Nat.add_mul_div_left _ _ (Nat.two_pow_pos r), Nat.mul_assoc, Nat.add_mul_mod_self_left]
  calc readBits rd off w
      = ((rd (off / 8)).toNat + 2 ^ 8 * ((rd (off / 8 + 1)).toNat + 2 ^ 8 * (rd (off / 8 + 2)).toNat
          + 2 ^ 16 * (rd (off / 8 + 3)).toNat)) >>> r % 2 ^ w := by
        simp only [readBits, hr]
        congr 2
        omega
    _ = (rd (off / 8)).toNat >>> r % 2 ^ w := above _ _

/-- Where `p` elements of `w` bits fill a byte, element `e` is at place `e % p` of byte `e / p` (R31). -/
theorem readBits_packed (rd : Nat → Byte) {w p : Nat} (hp : w * p = 8) (e : Nat) :
    readBits rd (w * e) w = ((rd (e / p)).toNat >>> (w * (e % p))) % 2 ^ w := by
  have hw : 0 < w := Nat.pos_of_ne_zero fun h => by simp [h] at hp
  have hp0 : 0 < p := Nat.pos_of_ne_zero fun h => by simp [h] at hp
  have hbyte : w * e / 8 = e / p := by rw [← hp, Nat.mul_div_mul_left _ _ hw]
  have hplace : w * e % 8 = w * (e % p) := by rw [← hp, Nat.mul_mod_mul_left]
  have hfit : w * (e % p) + w ≤ 8 := by
    rw [← hp, ← Nat.mul_succ]
    exact Nat.mul_le_mul_left w (Nat.mod_lt e hp0)
  rw [readBits_of_within_byte rd (by rwa [hplace]), hbyte, hplace]

/-! ### Two's complement elements and BIN (R36, R39) -/

/-- Two's complement subtracts 2^w exactly where the top bit is set. -/
theorem sext_succ (k n : Nat) :
    sext (k + 1) n = ((n % 2 ^ (k + 1) : Nat) : Int) - (if bit n k then ((2 ^ (k + 1) : Nat) : Int) else 0) := by
  have hsplit : n % 2 ^ (k + 1) = n % 2 ^ k + 2 ^ k * (n / 2 ^ k % 2) := Nat.mod_pow_succ
  have hlow : n % 2 ^ k < 2 ^ k := Nat.mod_lt _ (Nat.two_pow_pos k)
  have htop : n % 2 ^ (k + 1) < 2 ^ k ↔ bit n k = false := by
    rw [hsplit, bit, Nat.testBit_eq_decide_div_mod_eq, decide_eq_false_iff_not]
    obtain h | h := Nat.mod_two_eq_zero_or_one (n / 2 ^ k) <;> simp [h, hlow]
  by_cases h : bit n k = true <;> simp [sext, htop, h]

/-- A packed two's complement element read from its byte, its sign the byte's bit at the top of the element. -/
theorem sext_of_packed (b s k : Nat) :
    sext (k + 1) (b >>> s % 2 ^ (k + 1)) =
      ((b >>> s % 2 ^ (k + 1) : Nat) : Int) - (if bit b (s + k) then ((2 ^ (k + 1) : Nat) : Int) else 0) := by
  have hsign : bit (b >>> s % 2 ^ (k + 1)) k = bit b (s + k) := by
    simp [bit, Nat.testBit_mod_two_pow]
  rw [sext_succ, hsign, Nat.mod_mod]

theorem sext_toNat_eq_toInt (b : Byte) : sext 8 b.toNat = b.toInt := by
  have hb := b.isLt
  rw [sext, BitVec.toInt_eq_toNat_cond, Nat.mod_eq_of_lt hb]
  split <;> split <;> omega

theorem decodeAt_int8 (rd : Nat → Byte) (i j : Nat) : decodeAt 0x09 rd i j = intFV (rd (64 * i + j)).toInt := by
  have hcode : readBits rd (8 * (64 * i + j)) 8 = (rd (64 * i + j)).toNat := by
    rw [readBits_packed rd (p := 1) rfl, Nat.div_one, Nat.mod_one]
    exact Nat.mod_eq_of_lt (rd _).isLt
  calc decodeAt 0x09 rd i j = intFV (sext 8 (readBits rd (8 * (64 * i + j)) 8)) := rfl
    _ = intFV (rd (64 * i + j)).toInt := by rw [hcode, sext_toNat_eq_toInt]

theorem decodeAt_int4 (rd : Nat → Byte) (i j : Nat) :
    decodeAt 0x0A rd i j =
      intFV (((rd (32 * i + j / 2)).toNat >>> (4 * (j % 2)) % 16 : Nat) -
        if bit (rd (32 * i + j / 2)).toNat (4 * (j % 2) + 3) then 16 else 0) := by
  have hbyte : (64 * i + j) / 2 = 32 * i + j / 2 := by omega
  have hplace : (64 * i + j) % 2 = j % 2 := by omega
  calc decodeAt 0x0A rd i j = intFV (sext 4 (readBits rd (4 * (64 * i + j)) 4)) := rfl
    _ = _ := by rw [readBits_packed rd (p := 2) rfl, hbyte, hplace, sext_of_packed _ _ 3]; rfl

theorem decodeAt_int2 (rd : Nat → Byte) (i j : Nat) :
    decodeAt 0x0B rd i j =
      intFV (((rd (16 * i + j / 4)).toNat >>> (2 * (j % 4)) % 4 : Nat) -
        if bit (rd (16 * i + j / 4)).toNat (2 * (j % 4) + 1) then 4 else 0) := by
  have hbyte : (64 * i + j) / 4 = 16 * i + j / 4 := by omega
  have hplace : (64 * i + j) % 4 = j % 4 := by omega
  calc decodeAt 0x0B rd i j = intFV (sext 2 (readBits rd (2 * (64 * i + j)) 2)) := rfl
    _ = _ := by rw [readBits_packed rd (p := 4) rfl, hbyte, hplace, sext_of_packed _ _ 1]; rfl

theorem decodeAt_bin (rd : Nat → Byte) (i j : Nat) :
    decodeAt 0x0D rd i j = (if bit (rd (8 * i + j / 8)).toNat (j % 8) then .fin true 1 0 else .fin false 1 0) := by
  have hbyte : (64 * i + j) / 8 = 8 * i + j / 8 := by omega
  have hplace : (64 * i + j) % 8 = j % 8 := by omega
  have hcode : readBits rd (1 * (64 * i + j)) 1 = (bit (rd (8 * i + j / 8)).toNat (j % 8)).toNat := by
    rw [readBits_packed rd (p := 8) rfl, hbyte, hplace, Nat.one_mul, bit, Nat.toNat_testBit, Nat.shiftRight_eq_div_pow,
      Nat.pow_one]
  calc decodeAt 0x0D rd i j = eltValue 0x0D (readBits rd (1 * (64 * i + j)) 1) := rfl
    _ = _ := by rw [hcode]; cases bit (rd (8 * i + j / 8)).toNat (j % 8) <;> rfl

/-- Settles O8: each element lies within one byte, and its sign is the element's top bit there. -/
theorem integerElements : Obligations.IntegerElements := fun rd i j _ _ =>
  ⟨decodeAt_int8 rd i j, decodeAt_int4 rd i j, decodeAt_int2 rd i j, decodeAt_bin rd i j⟩

/-! ### TERN bytes (R37) -/

/-- The digit t + 1 of a trit t (R37). -/
def tritDigit (t : Int) : Nat := (t + 1).toNat

theorem tritByte_eq_sum (ds : List Nat) :
    tritByte ds = ds.getD 0 1 + ds.getD 1 1 * 3 + ds.getD 2 1 * 9 + ds.getD 3 1 * 27 + ds.getD 4 1 * 81 := by
  simp [tritByte, List.range_succ]

/-- The digits of a trit byte are at most 2, the padding digit 1 of a short list included. -/
theorem getD_digit_le {ds : List Nat} (h : ∀ d ∈ ds, d ≤ 2) (j : Nat) : ds.getD j 1 ≤ 2 := by
  rw [List.getD_eq_getElem?_getD]
  cases hj : ds[j]? with
  | none => simp
  | some d => exact h d (List.mem_of_getElem? hj)

theorem tritByte_le {ds : List Nat} (h : ∀ d ∈ ds, d ≤ 2) : tritByte ds ≤ 242 := by
  have hd := getD_digit_le h
  have := hd 0; have := hd 1; have := hd 2; have := hd 3; have := hd 4
  rw [tritByte_eq_sum]
  omega

/-- A byte of digits up to 2 is their number in base 3: digit j comes back by division. -/
theorem tritByte_digit {ds : List Nat} (h : ∀ d ∈ ds, d ≤ 2) {j : Nat} (hj : j < 5) :
    tritByte ds / 3 ^ j % 3 = ds.getD j 1 := by
  have hd := getD_digit_le h
  have := hd 0; have := hd 1; have := hd 2; have := hd 3; have := hd 4
  rw [tritByte_eq_sum]
  obtain rfl | rfl | rfl | rfl | rfl : j = 0 ∨ j = 1 ∨ j = 2 ∨ j = 3 ∨ j = 4 := by omega
  all_goals omega

theorem tritOf_of_le {b : Nat} (h : b ≤ 242) (j : Nat) : tritOf b j = ((b / 3 ^ j % 3 : Nat) : Int) - 1 :=
  if_neg (by omega)

theorem tritOf_mem (b j : Nat) : tritOf b j = -1 ∨ tritOf b j = 0 ∨ tritOf b j = 1 := by
  by_cases h : 243 ≤ b
  · simp [tritOf, h]
  · have := Nat.mod_lt (b / 3 ^ j) (show 3 > 0 by decide)
    rw [tritOf_of_le (by omega)]
    omega

theorem tritOf_tritByte {ds : List Nat} (h : ∀ d ∈ ds, d ≤ 2) {j : Nat} (hj : j < 5) :
    tritOf (tritByte ds) j = (ds.getD j 1 : Int) - 1 := by
  rw [tritOf_of_le (tritByte_le h), tritByte_digit h hj]

/-- A valid byte is the byte of its own trits. -/
theorem tritByte_tritOf {b : Nat} (h : b ≤ 242) : tritByte ((List.range 5).map fun j => (tritOf b j + 1).toNat) = b := by
  have hdigit : ∀ j, (tritOf b j + 1).toNat = b / 3 ^ j % 3 := fun j => by rw [tritOf_of_le h]; omega
  simp only [hdigit, tritByte_eq_sum]
  simp [List.range_succ]
  omega

theorem digitInt_tritDigit {t : Int} (h : t = -1 ∨ t = 0 ∨ t = 1) : digitInt (tritDigit t) = t := by
  obtain rfl | rfl | rfl := h <;> rfl

theorem decodeAt_tern (rd : Nat → Byte) (r i : Nat) {j : Nat} (hj : j < 5) :
    decodeAt 0x0C rd r (5 * i + j) = intFV (tritOf (rd (13 * r + i)).toNat j) := by
  have hbyte : (5 * i + j) / 5 = i := by omega
  have htrit : (5 * i + j) % 5 = j := by omega
  calc decodeAt 0x0C rd r (5 * i + j)
      = intFV (digitInt (tritDigit (tritOf (rd (13 * r + (5 * i + j) / 5)).toNat ((5 * i + j) % 5)))) := rfl
    _ = intFV (tritOf (rd (13 * r + i)).toNat j) := by rw [hbyte, htrit, digitInt_tritDigit (tritOf_mem _ _)]

theorem tritDigit_le {t : List Int} (h : ∀ x ∈ t, x = -1 ∨ x = 0 ∨ x = 1) : ∀ d ∈ t.map tritDigit, d ≤ 2 := by
  intro d hd
  obtain ⟨x, hx, rfl⟩ := List.mem_map.mp hd
  obtain rfl | rfl | rfl := h x hx <;> decide

/-- The padding digit 1 is the digit of the zero trit. -/
theorem getD_map_tritDigit (t : List Int) (j : Nat) : (t.map tritDigit).getD j 1 = (t.getD j 0 + 1).toNat := by
  rw [List.getD_eq_getElem?_getD, List.getElem?_map, List.getD_eq_getElem?_getD]
  exact Option.getD_map tritDigit 0 t[j]?

/-- The trits of a list are read back from its byte. -/
theorem tritOf_tritByte_map {t : List Int} (h : ∀ x ∈ t, x = -1 ∨ x = 0 ∨ x = 1) {j : Nat} (hj : j < 5) :
    tritOf (tritByte (t.map tritDigit)) j = t.getD j 0 := by
  have hnonneg : 0 ≤ t.getD j 0 + 1 := by
    rw [List.getD_eq_getElem?_getD]
    cases hx : t[j]? with
    | none => simp
    | some x => obtain rfl | rfl | rfl := h x (List.mem_of_getElem? hx) <;> decide
  rw [tritOf_tritByte (tritDigit_le h) hj, getD_map_tritDigit]
  omega

/-- Settles O9: a byte of five digits is their number in base 3. -/
theorem ternBytes : Obligations.TernBytes := by
  refine ⟨fun t _ ht => ⟨?_, tritByte_le (tritDigit_le ht), fun j => tritOf_tritByte_map ht⟩,
    fun b => tritByte_tritOf, by decide, fun rd r i j _ hj _ => decodeAt_tern rd r i hj⟩
  simp only [← getD_map_tritDigit]
  exact tritByte_eq_sum (t.map tritDigit)

/-! ### FP20 containers (R35) -/

theorem eltValue_fp20 (n : Nat) :
    eltValue 0x01 n = if n / 2 ^ 23 % 2 ^ 8 = 0xFF ∧ n % 2 ^ 23 ≠ 0 then .nan else f32Of (n - n % 2 ^ 12) := by
  rw [← Nat.div_mul_self_eq_mod_sub_self]
  simp [eltValue, bits, Nat.shiftRight_eq_div_pow]

/-- Four bytes read at a byte's start are their little-endian number (R6). -/
theorem readBits_container (rd : Nat → Byte) (e : Nat) :
    readBits rd (32 * e) 32 = leNat ((List.range 4).map fun k => rd (4 * e + k)) := by
  have hbyte : 32 * e / 8 = 4 * e := by omega
  have hplace : 32 * e % 8 = 0 := by omega
  have h0 := (rd (4 * e)).isLt
  have h1 := (rd (4 * e + 1)).isLt
  have h2 := (rd (4 * e + 2)).isLt
  have h3 := (rd (4 * e + 3)).isLt
  simp only [readBits, hbyte, hplace, Nat.shiftRight_zero, List.range_succ, List.range_zero, List.nil_append,
    List.cons_append, List.map_cons, List.map_nil, leNat, Nat.add_zero]
  omega

theorem decodeAt_fp20 (rd : Nat → Byte) (i j : Nat) :
    decodeAt 0x01 rd i j = eltValue 0x01 (leNat ((List.range 4).map fun k => rd (4 * (64 * i + j) + k))) :=
  congrArg (eltValue 0x01) (readBits_container rd (64 * i + j))

/-- Every branch of a conversion to FP20 ends in a 20-bit value times 2^12. -/
theorem convElt_fp20_code (mode : RMode) (x : FV) : ∃ v, (convElt 0x01 mode x).code = v * 2 ^ 12 := by
  cases x with
  | nan => exact ⟨_, rfl⟩
  | inf s => exact ⟨_, rfl⟩
  | fin s m e =>
    cases m with
    | zero => exact ⟨_, rfl⟩
    | succ m =>
      simp only [convElt]
      split
      · exact ⟨_, rfl⟩
      · split <;> exact ⟨_, rfl⟩

/-- Settles O10: the container's four bytes are one little-endian word, and a conversion shifts its value above the
ignored bits. -/
theorem fp20Containers : Obligations.Fp20Containers := by
  refine ⟨fun n _ => eltValue_fp20 n, decodeAt_fp20, fun mode x => ?_⟩
  obtain ⟨v, hv⟩ := convElt_fp20_code mode x
  rw [hv, Nat.mul_mod_left]

end Sys2Proof.Machine
end

