-- ==== Sys2Proof/Proofs/Training.lean ====
section
/-!
SUPPORT. "Training": what a write under its group's readiness answers, what the two writes that clear a monitor slot
do to it and to the others, and the statement about them.
-/
namespace Sys2Proof.Machine

/-! ### Writes under the readiness of their group (R387, R425) -/

/-- A write that passes its own checks takes effect while its function is ready. -/
theorem gated_of_ready {s s' : State} {key : Nat} {f : State → Nat × State} (hready : gateOk s key = true)
    (hf : f s = (0, s')) : gated s key f = { s' with wstatus := 0 } := by
  simp only [gated, wrote, hready, hf, Bool.not_true, Bool.and_false, Bool.false_eq_true, if_false, beq_self_eq_true,
    if_true]

/-- A write whose status reads 00h has passed its own checks and has taken effect. -/
theorem gated_of_wstatus_zero {s : State} {key : Nat} {f : State → Nat × State} (h : (gated s key f).wstatus = 0) :
    (f s).1 = 0 ∧ gated s key f = { (f s).2 with wstatus := 0 } := by
  have hstatus : (if (f s).1 == 0 && !gateOk s key then 5 else (f s).1) = 0 := by
    refine Decidable.byContradiction fun hne => ?_
    simp only [gated, wrote, beq_iff_eq, if_neg hne] at h
    exact hne h
  refine ⟨?_, by simp only [gated, wrote, hstatus, beq_self_eq_true, if_true]⟩
  split at hstatus
  · cases hstatus
  · exact hstatus

/-! ### The cleared slot (R172) -/

theorem getMon_wstatus (s : State) (n k : Nat) : getMon { s with wstatus := n } k = getMon s k := rfl

/-- A slot that was given a tensor and nothing else reads as cleared, and every other slot as before. -/
theorem slot_cleared_alone {s t : State} {m v : Nat} (ht : t = { setMon s m { tensor := v } with wstatus := 0 }) :
    getMon t m = { tensor := v } ∧ (getMon t m).sat = 0 ∧ (getMon t m).hist = List.replicate 16 0 ∧
      (getMon t m).now = 0 ∧ ∀ k, k ≠ m → getMon t k = getMon s k := by
  have hslot : getMon t m = { tensor := v } := by rw [ht, getMon_wstatus, getMon_setMon_same]
  refine ⟨hslot, by rw [hslot], by rw [hslot], by rw [hslot], fun k hk => ?_⟩
  rw [ht, getMon_wstatus, getMon_setMon_other s _ hk.symm]

/-! ### The tensor of the selected slot, and mon_clear (R82, R172) -/

theorem exec_monTensorWrite (v : Nat) (s : State) :
    exec (.monTensorWrite v) s = .next (gated s (pk 0x0D60 2) fun s => writeMonTensor s v) := rfl

theorem exec_monClear (arg : Nat) (s : State) :
    exec (.monClear arg) s = .next (gated s (pk 0x0D60 5) fun s => clearMon s arg) := rfl

theorem writeMonTensor_of_status_zero {s : State} {v : Nat} :
    (writeMonTensor s v).1 = 0 → (writeMonTensor s v).2 = setMon s (monSelected s) { tensor := v } := by
  unfold writeMonTensor
  split
  · nofun
  · split
    · nofun
    · exact fun _ => rfl

/-- A tensor that is in range and held by no other slot, or FFFF_FFFFh, passes the checks of 0D60h.02. -/
theorem writeMonTensor_of_free {s : State} {v : Nat} (hrange : v = 0xFFFFFFFF ∨ v < 2 ^ 20)
    (hfree : v = 0xFFFFFFFF ∨ ∀ x ∈ s.mons, x.1 ≠ monSelected s → x.2.tensor ≠ v) :
    writeMonTensor s v = (0, setMon s (monSelected s) { tensor := v }) := by
  have hpass6 : ¬((v ≠ 0xFFFFFFFF && 2 ^ 20 ≤ v) = true) := by
    simp only [Bool.and_eq_true, decide_eq_true_eq]
    omega
  have hpass5 : ¬((v ≠ 0xFFFFFFFF && s.mons.any fun x => x.1 ≠ monSelected s && x.2.tensor == v) = true) := by
    simp only [Bool.and_eq_true, List.any_eq_true, decide_eq_true_eq, beq_iff_eq]
    rintro ⟨hne, x, hx, hother, hheld⟩
    exact (hfree.resolve_left hne) x hx hother hheld
  rw [writeMonTensor, if_neg hpass6, if_neg hpass5]

theorem clearMon_zero (s : State) :
    clearMon s 0 = (0, setMon s (monSelected s) { tensor := (getMon s (monSelected s)).tensor }) := rfl

theorem clearMon_of_status_zero {s : State} {arg : Nat} : (clearMon s arg).1 = 0 →
    (clearMon s arg).2 = setMon s (monSelected s) { tensor := (getMon s (monSelected s)).tensor } := by
  unfold clearMon
  split
  · nofun
  · exact fun _ => rfl

/-- Settles O44: a write that is accepted sets the selected slot to its tensor alone, and the writes that the register's
own checks pass are accepted while the host function is ready. -/
theorem monitorSlotCleared : Obligations.MonitorSlotCleared := by
  refine ⟨fun v s t hexec hstatus => ?tensor, fun arg s t hexec hstatus => ?clear,
    fun v s hready hrange hfree => ?tensorAccepted, fun s hready => ?clearAccepted⟩
  case tensor =>
    obtain rfl := Host.Outcome.next.inj (exec_monTensorWrite v s ▸ hexec)
    obtain ⟨hpass, heq⟩ := gated_of_wstatus_zero hstatus
    rw [writeMonTensor_of_status_zero hpass] at heq
    exact slot_cleared_alone heq
  case clear =>
    obtain rfl := Host.Outcome.next.inj (exec_monClear arg s ▸ hexec)
    obtain ⟨hpass, heq⟩ := gated_of_wstatus_zero hstatus
    rw [clearMon_of_status_zero hpass] at heq
    exact slot_cleared_alone heq
  case tensorAccepted => rw [exec_monTensorWrite, gated_of_ready hready (writeMonTensor_of_free hrange hfree)]
  case clearAccepted => rw [exec_monClear, gated_of_ready hready (clearMon_zero s)]

end Sys2Proof.Machine
end

