-- ==== Sys2Proof/Proofs/ChamoisCores.lean ====
section
/-!
SUPPORT. "Chamois cores": the immediate of the scalar instructions, the width of a rounded FP32 value, what a scalar
operation does at its turn, and the statement about the scalar instructions.
-/
namespace Sys2Proof.Machine

/-! ### The immediate of a scalar instruction (R182) -/

theorem sext_eq_toInt_ofNat {w : Nat} (hw : 0 < w) (n : Nat) : sext w n = (BitVec.ofNat w n).toInt := by
  obtain ⟨k, rfl⟩ : ∃ k, w = k + 1 := ⟨w - 1, by omega⟩
  rw [sext, BitVec.toInt_eq_toNat_cond, BitVec.toNat_ofNat, Nat.add_sub_cancel, Nat.pow_succ]
  split <;> split <;> omega

theorem csImm_eq_toInt (w : W64) : csImm w.toNat = (w.extractLsb' 26 38).toInt :=
  sext_eq_toInt_ofNat (by decide) _

theorem ofInt_csImm (w : W64) : BitVec.ofInt 64 (csImm w.toNat) = (w.extractLsb' 26 38).signExtend 64 :=
  congrArg _ (csImm_eq_toInt w)

/-- A sign extension leaves the field's own low bits as they are. -/
theorem wrap_sext {k w : Nat} (h : k ≤ w) (n : Nat) : wrap k (sext w n) = n % 2 ^ k := by
  have hdvd : (2 ^ k : Nat) ∣ 2 ^ w := Nat.pow_dvd_pow 2 h
  have hlow : ((n % 2 ^ w : Nat) : Int) % (2 ^ k : Nat) = (n % 2 ^ k : Nat) := by
    rw [← Int.natCast_emod, Nat.mod_mod_of_dvd n hdvd]
  have hmod : sext w n % (2 ^ k : Nat) = (n % 2 ^ k : Nat) := by
    rw [sext]
    split
    · exact hlow
    · rw [Int.sub_emod, Int.emod_eq_zero_of_dvd (Int.natCast_dvd_natCast.mpr hdvd), Int.sub_zero, Int.emod_emod, hlow]
  rw [wrap, hmod, Int.toNat_natCast]

/-- The word that LIH writes: the low half of SD below IMM[31:0]. -/
theorem lihWord_eq_append (w a : W64) :
    BitVec.ofNat 64 (a.toNat % 2 ^ 32 + wrap 32 (csImm w.toNat) * 2 ^ 32) = w.extractLsb' 26 32 ++ a.extractLsb' 0 32 := by
  apply BitVec.eq_of_toNat_eq
  have himm : wrap 32 (csImm w.toNat) = w.toNat >>> 26 % 2 ^ 32 := wrap_sext (by decide) _
  have hlow : a.toNat % 2 ^ 32 < 2 ^ 32 := Nat.mod_lt _ (by decide)
  rw [BitVec.toNat_append, BitVec.extractLsb'_toNat, BitVec.extractLsb'_toNat, Nat.shiftRight_zero,
    ← Nat.shiftLeft_add_eq_or_of_lt hlow, Nat.shiftLeft_eq, BitVec.toNat_ofNat, himm]
  omega

/-! ### The width of an FP32 value (R32) -/

theorem mul_two_pow_lt {k a p : Nat} (h : Nat.log2 k + a < p) : k * 2 ^ a < 2 ^ p :=
  calc k * 2 ^ a < 2 ^ (Nat.log2 k + 1) * 2 ^ a := Nat.mul_lt_mul_of_pos_right Nat.lt_log2_self (Nat.two_pow_pos a)
    _ = 2 ^ (Nat.log2 k + 1 + a) := (Nat.pow_add ..).symm
    _ ≤ 2 ^ p := Nat.pow_le_pow_right (by decide) (by omega)

theorem shiftRight_lt_two_pow {k a p : Nat} (h : Nat.log2 k < p + a) : k >>> a < 2 ^ p := by
  rw [Nat.shiftRight_eq_div_pow, Nat.div_lt_iff_lt_mul (Nat.two_pow_pos a), ← Nat.pow_add]
  exact Nat.lt_of_lt_of_le Nat.lt_log2_self (Nat.pow_le_pow_right (by decide) h)

/-- Below the range's end the exponent field is at most FEh, and a subnormal value leaves it 0. -/
theorem encodeFinite_f32_lt {k : Nat} {q : Int} (h : (Nat.log2 k : Int) + q < 128) : encodeFinite 23 127 k q < 2 ^ 31 := by
  have hnormal : (if Nat.log2 k ≤ 23 then k * 2 ^ (23 - Nat.log2 k) else k >>> (Nat.log2 k - 23)) < 2 ^ 24 := by
    split
    · exact mul_two_pow_lt (by omega)
    · exact shiftRight_lt_two_pow (by omega)
  simp only [encodeFinite]
  split
  · decide
  split
  · omega
  split
  · exact mul_two_pow_lt (by omega)
  · exact shiftRight_lt_two_pow (by omega)

theorem sign_add_lt (s : Bool) {n : Nat} (h : n < 2 ^ 31) : (if s then 0x80000000 else 0) + n < 2 ^ 32 := by
  split <;> omega

theorem f32Bits_roundF32_lt (v : FV) : f32Bits (roundF32 v) < 2 ^ 32 := by
  cases v with
  | nan => decide
  | inf s => exact sign_add_lt s (by decide)
  | fin s m e =>
    cases m with
    | zero => exact sign_add_lt s (by decide)
    | succ m =>
      simp only [roundF32]
      split
      · exact sign_add_lt s (by decide)
      split
      · exact sign_add_lt s (by decide)
      · next hrange => exact sign_add_lt s (encodeFinite_f32_lt (Int.not_le.mp hrange))

/-- Zero-extending the word of a rounded value loses nothing of it. -/
theorem ofNat_f32Bits_roundF32 (v : FV) :
    BitVec.ofNat 64 (f32Bits (roundF32 v)) = (BitVec.ofNat 32 (f32Bits (roundF32 v))).zeroExtend 64 := by
  apply BitVec.eq_of_toNat_eq
  have hlt := f32Bits_roundF32_lt v
  rw [BitVec.zeroExtend, BitVec.toNat_setWidth, BitVec.toNat_ofNat, BitVec.toNat_ofNat, Nat.mod_eq_of_lt hlt]

/-- The FP32 value in bits [31:0] of a scalar register. -/
theorem toNat_low_word (a : W64) : a.toNat % 2 ^ 32 = (a.extractLsb' 0 32).toNat := by
  rw [BitVec.extractLsb'_toNat, Nat.shiftRight_zero]

/-! ### Scalar instructions at their turn (R191, R201) -/

theorem scalarOp_turn {op lat c : Nat} {w : W64} {f : W64 → W64 → W64} {s : State} {x : CCtx} {slot : Nat} {t : State}
    (hop : opcodeOf w.toNat = op) (h : chamTurn c w s = some (x, slot, t)) :
    scalarOp op lat c w f s = .next (chamDone x slot (result t c x.d lat (.s (csSD w.toNat)
      ⟨f (readS (getC t c) (csSA w.toNat)).v (readS (getC t c) (csSB w.toNat)).v,
        (readS (getC t c) (csSA w.toNat)).p || (readS (getC t c) (csSB w.toNat)).p⟩))) := by
  obtain ⟨-, rfl, hw⟩ := chamTurn_ctx h
  rw [← hw]
  exact issueC_ok h hop rfl

/-- An instruction whose arm is a scalar operation meets its clause of O22. -/
theorem chamAt_of_scalarOp {op lat : Nat} {i : Nat → W64 → Instr} {f : W64 → W64 → W64}
    (harm : ∀ c w s, exec (i c w) s = scalarOp op lat c w f s) :
    ChamAt op (fun c w s x slot t =>
      let a := readS (getC t c) (csSA w.toNat)
      let b := readS (getC t c) (csSB w.toNat)
      ∃ lat, exec (i c w) s =
        .next (chamDone x slot (result t c x.d lat (.s (csSD w.toNat) ⟨f a.v b.v, a.p || b.p⟩)))) :=
  fun c w s _ _ _ hop h => ⟨lat, (harm c w s).trans (scalarOp_turn hop h)⟩

theorem exec_slt (c : Nat) (w : W64) (s : State) :
    exec (.slt c w) s = scalarOp 0x19 1 c w (fun a b => if a.toInt < b.toInt then 1 else 0) s := by
  have harm : exec (.slt c w) s = scalarOp 0x19 1 c w (fun a b => if a.slt b then 1 else 0) s := rfl
  simpa only [BitVec.slt_iff_toInt_lt] using harm

theorem exec_sltu (c : Nat) (w : W64) (s : State) :
    exec (.sltu c w) s = scalarOp 0x1A 1 c w (fun a b => if a.toNat < b.toNat then 1 else 0) s := by
  have harm : exec (.sltu c w) s = scalarOp 0x1A 1 c w (fun a b => if a.ult b then 1 else 0) s := rfl
  simpa only [BitVec.ult_iff_toNat_lt] using harm

/-- An instruction whose arm is a floating-point scalar operation that rounds once meets its clause of O22. -/
theorem chamAt_of_scalarFp {op : Nat} {i : Nat → W64 → Instr} {f g : FV → FV → FV} {made : FV → FV → Nat}
    (harm : ∀ c w s, exec (i c w) s = scalarFp op c w f made s) (hround : ∀ a b, f a b = roundF32 (g a b)) :
    ChamAt op (fun c w s x slot t =>
      let a := readS (getC t c) (csSA w.toNat)
      let b := readS (getC t c) (csSB w.toNat)
      let av := f32Of (a.v.extractLsb' 0 32).toNat
      let bv := f32Of (b.v.extractLsb' 0 32).toNat
      ∃ lat, exec (i c w) s =
        .next (chamDone x slot (result
          (countNan (countNan t 1 ([av, bv].filter fun v => v.isNaN).length x.d (0x40 + c)) 2 (made av bv) x.d (0x40 + c)) c x.d lat
          (.s (csSD w.toNat) ⟨(BitVec.ofNat 32 (f32Bits (f av bv))).zeroExtend 64, a.p || b.p⟩)))) := by
  intro c w s x slot t hop h
  obtain ⟨-, rfl, hw⟩ := chamTurn_ctx h
  refine ⟨4, ?_⟩
  rw [harm, scalarFp, issueC_ok h hop rfl]
  simp only [hw, CCtx.u, toNat_low_word, hround, ofNat_f32Bits_roundF32]

theorem exec_addi_turn {c : Nat} {w : W64} {s : State} {x : CCtx} {slot : Nat} {t : State}
    (hop : opcodeOf w.toNat = 0x1B) (h : chamTurn c w s = some (x, slot, t)) :
    exec (.addi c w) s = .next (chamDone x slot (result t c x.d 1 (.s (csSD w.toNat)
      ⟨(readS (getC t c) (csSA w.toNat)).v + (w.extractLsb' 26 38).signExtend 64,
        (readS (getC t c) (csSA w.toNat)).p⟩))) := by
  obtain ⟨-, rfl, hw⟩ := chamTurn_ctx h
  rw [← ofInt_csImm, ← hw]
  exact issueC_ok h hop rfl

theorem exec_li_turn {c : Nat} {w : W64} {s : State} {x : CCtx} {slot : Nat} {t : State}
    (hop : opcodeOf w.toNat = 0x1C) (h : chamTurn c w s = some (x, slot, t)) :
    exec (.li c w) s = .next (chamDone x slot (result t c x.d 1
      (.s (csSD w.toNat) ⟨(w.extractLsb' 26 38).signExtend 64, false⟩))) := by
  obtain ⟨-, rfl, hw⟩ := chamTurn_ctx h
  rw [← ofInt_csImm, ← hw]
  exact issueC_ok h hop rfl

theorem exec_lih_turn {c : Nat} {w : W64} {s : State} {x : CCtx} {slot : Nat} {t : State}
    (hop : opcodeOf w.toNat = 0x1D) (h : chamTurn c w s = some (x, slot, t)) :
    exec (.lih c w) s = .next (chamDone x slot (result t c x.d 1 (.s (csSD w.toNat)
      ⟨w.extractLsb' 26 32 ++ (readS (getC t c) (csSD w.toNat)).v.extractLsb' 0 32,
        (readS (getC t c) (csSD w.toNat)).p⟩))) := by
  obtain ⟨-, rfl, hw⟩ := chamTurn_ctx h
  rw [← lihWord_eq_append, ← hw]
  exact issueC_ok h hop rfl

/-- Settles O22: the two-operand forms are scalar operations at their turn, the immediate forms sign-extend bits [63:26],
and FADD and FMUL round once, so that their result fits the word that is zero-extended. -/
theorem scalarInstructions : Obligations.ScalarInstructions := by
  refine ⟨?operations, fun c w s x slot t hop h => ⟨1, exec_addi_turn hop h⟩,
    fun c w s x slot t hop h => ⟨1, exec_li_turn hop h⟩, fun c w s x slot t hop h => ⟨1, exec_lih_turn hop h⟩, ?floats⟩
  case operations =>
    intro q hq
    suffices harm : ∃ lat, ∀ c w s, exec (q.2.1 c w) s = scalarOp q.1 lat c w q.2.2 s from
      harm.elim fun _ => chamAt_of_scalarOp
    revert q
    simp only [List.forall_mem_cons, List.not_mem_nil, false_implies, implies_true, and_true]
    exact ⟨⟨1, fun _ _ _ => rfl⟩, ⟨1, fun _ _ _ => rfl⟩, ⟨1, fun _ _ _ => rfl⟩, ⟨1, fun _ _ _ => rfl⟩,
      ⟨1, fun _ _ _ => rfl⟩, ⟨1, fun _ _ _ => rfl⟩, ⟨1, fun _ _ _ => rfl⟩, ⟨1, fun _ _ _ => rfl⟩,
      ⟨3, fun _ _ _ => rfl⟩, ⟨1, exec_slt⟩, ⟨1, exec_sltu⟩⟩
  case floats =>
    intro q hq
    suffices harm : (∀ c w s, exec (q.2.1 c w) s = scalarFp q.1 c w q.2.2.1 q.2.2.2 s) ∧
        ∃ g : FV → FV → FV, ∀ a b, q.2.2.1 a b = roundF32 (g a b) from
      harm.2.elim fun _ => chamAt_of_scalarFp harm.1
    revert q
    simp only [List.forall_mem_cons, List.not_mem_nil, false_implies, implies_true, and_true]
    exact ⟨⟨fun _ _ _ => rfl, addExact, fun _ _ => rfl⟩, fun _ _ _ => rfl, mulExact, fun _ _ => rfl⟩

end Sys2Proof.Machine
end

