-- ==== Sys2Proof/Proofs/Machine.lean ====
section
/-!
SUPPORT. "The machine" and "Faults": what every command keeps, what an idle tick does, what reset leaves, when a fault is
raised, and the statements about them.
-/
namespace Sys2Proof.Machine

/-! ### What every command keeps -/

/-- Every command keeps stores and queue as asked: the dispatcher's arms, each by its own law. -/
theorem sound_exec {q : Want} (i : Instr) (s : State) (hs : Sound q s) : OutK q (exec i s) :=
  match i with
  | .nop c n w => sound_execNop c n w s hs
  | .halt c n w => sound_execHalt c n w s hs
  | .loop c n w => sound_execLoop c n w s hs
  | .pick c n w => sound_execPick c n w s hs
  | .part c n w => sound_execPart c n w s hs
  | .stepI c n w => sound_execStep c n w s hs
  | .setb c n w => sound_execSetb c n w s hs
  | .tpos c n w => sound_execTpos c n w s hs
  | .sync c n w => sound_execSync c n w s hs
  | .signal c n w => sound_execSignal c n w s hs
  | .mma c n w => sound_execMma c n w s hs
  | .accrd c n w => sound_execAccrd c n w s hs
  | .act c n w => sound_execAct c n w s hs
  | .dact c n w => sound_execDact c n w s hs
  | .cvt c n w => sound_execCvt c n w s hs
  | .amax c n w => sound_execAmax c n w s hs
  | .spush c n w => sound_execSpush c n w s hs
  | .spop c n w => sound_execSpop c n w s hs
  | .inj c n w => sound_execInj c n w s hs
  | .take c n w => sound_execTake c n w s hs
  | .tld c n w => sound_execTld c n w s hs
  | .tst c n w => sound_execTst c n w s hs
  | .put c n w => sound_execPut c n w s hs
  | .get c n w => sound_execGet c n w s hs
  | .rsend c n w => sound_execRsend c n w s hs
  | .cNop c w => sound_execCNop c w s hs
  | .cHalt c w => sound_execCHalt c w s hs
  | .cLoop c w => sound_execCLoop c w s hs
  | .cStep c w => sound_execCStep c w s hs
  | .cSync c w => sound_execCSync c w s hs
  | .cSignal c w => sound_execCSignal c w s hs
  | .add c w => sound_execAdd c w s hs
  | .sub c w => sound_execSub c w s hs
  | .and c w => sound_execAnd c w s hs
  | .or c w => sound_execOr c w s hs
  | .xor c w => sound_execXor c w s hs
  | .shl c w => sound_execShl c w s hs
  | .shr c w => sound_execShr c w s hs
  | .sra c w => sound_execSra c w s hs
  | .mul c w => sound_execMul c w s hs
  | .slt c w => sound_execSlt c w s hs
  | .sltu c w => sound_execSltu c w s hs
  | .addi c w => sound_execAddi c w s hs
  | .li c w => sound_execLi c w s hs
  | .lih c w => sound_execLih c w s hs
  | .fadd c w => sound_execFadd c w s hs
  | .fmul c w => sound_execFmul c w s hs
  | .vadd c w => sound_execVadd c w s hs
  | .vsub c w => sound_execVsub c w s hs
  | .vmul c w => sound_execVmul c w s hs
  | .vfma c w => sound_execVfma c w s hs
  | .vmac c w => sound_execVmac c w s hs
  | .vsmd c w => sound_execVsmd c w s hs
  | .vmax c w => sound_execVmax c w s hs
  | .vmin c w => sound_execVmin c w s hs
  | .vabs c w => sound_execVabs c w s hs
  | .vneg c w => sound_execVneg c w s hs
  | .vdiv c w => sound_execVdiv c w s hs
  | .vsqrt c w => sound_execVsqrt c w s hs
  | .vrsqrt c w => sound_execVrsqrt c w s hs
  | .vfn c w => sound_execVfn c w s hs
  | .vcmp c w => sound_execVcmp c w s hs
  | .vsel c w => sound_execVsel c w s hs
  | .viadd c w => sound_execViadd c w s hs
  | .visub c w => sound_execVisub c w s hs
  | .vimul c w => sound_execVimul c w s hs
  | .vand c w => sound_execVand c w s hs
  | .vor c w => sound_execVor c w s hs
  | .vxor c w => sound_execVxor c w s hs
  | .vshl c w => sound_execVshl c w s hs
  | .vshr c w => sound_execVshr c w s hs
  | .vicmp c w => sound_execVicmp c w s hs
  | .vcvtfi c w => sound_execVcvtfi c w s hs
  | .vcvtif c w => sound_execVcvtif c w s hs
  | .vbcast c w => sound_execVbcast c w s hs
  | .vlane c w => sound_execVlane c w s hs
  | .vrsum c w => sound_execVrsum c w s hs
  | .vrmax c w => sound_execVrmax c w s hs
  | .pand c w => sound_execPand c w s hs
  | .por c w => sound_execPor c w s hs
  | .pxor c w => sound_execPxor c w s hs
  | .pnot c w => sound_execPnot c w s hs
  | .vld c w => sound_execVld c w s hs
  | .vst c w => sound_execVst c w s hs
  | .lds c w => sound_execLds c w s hs
  | .sts c w => sound_execSts c w s hs
  | .trd c w => sound_execTrd c w s hs
  | .twr c w => sound_execTwr c w s hs
  | .sfacc c w => sound_execSfacc c w s hs
  | .ngath c w => sound_execNgath c w s hs
  | .nscat c w => sound_execNscat c w s hs
  | .mld c w => sound_execMld c w s hs
  | .mst c w => sound_execMst c w s hs
  | .mput c w => sound_execMput c w s hs
  | .mget c w => sound_execMget c w s hs
  | .mrsend c w => sound_execMrsend c w s hs
  | .cpush c w => sound_execCpush c w s hs
  | .cpop c w => sound_execCpop c w s hs
  | .instructionDecode u n => sound_execInstructionDecode u n s hs
  | .waitQueueEntry u n => sound_execWaitQueueEntry u n s hs
  | .engineIdle c m h => sound_execEngineIdle c m h s hs
  | .accrdHoldRelease c m => sound_execAccrdHoldRelease c m s hs
  | .roundBeatSend stop => sound_execRoundBeatSend stop s hs
  | .roundBeatArrive d stop e => sound_execRoundBeatArrive d stop e s hs
  | .roundBeatTake d stop => sound_execRoundBeatTake d stop s hs
  | .takeQueueDrain d stop => sound_execTakeQueueDrain d stop s hs
  | .injectionQueueFill stop => sound_execInjectionQueueFill stop s hs
  | .portFLineWrite u src => sound_execPortFLineWrite u src s hs
  | .meshTransferComplete u tag => sound_execMeshTransferComplete u tag s hs
  | .stashPushComplete u tag => sound_execStashPushComplete u tag s hs
  | .incr p tok => sound_execIncr p tok s hs
  | .stallReq d => sound_execStallReq d s hs
  | .freeze d => sound_execFreeze d s hs
  | .resumeOk d u => sound_execResumeOk d u s hs
  | .resume d => sound_execResume d s hs
  | .pickReport d c => sound_execPickReport d c s hs
  | .pickChoice d => sound_execPickChoice d s hs
  | .fault d => sound_execFault d s hs
  | .stop d => sound_execStop d s hs
  | .start d => sound_execStart d s hs
  | .stallTimeout d => sound_execStallTimeout d s hs
  | .domainDone d => sound_execDomainDone d s hs
  | .load d => sound_execLoad d s hs
  | .run d => sound_execRun d s hs
  | .loadRun d => sound_execLoadRun d s hs
  | .abort d => sound_execAbort d s hs
  | .release d => sound_execRelease d s hs
  | .nanClear arg => sound_execNanClear arg s hs
  | .monClear arg => sound_execMonClear arg s hs
  | .monTensorWrite v => sound_execMonTensorWrite v s hs
  | .nanPolicyWrite v => sound_execNanPolicyWrite v s hs
  | .gradFloorWrite v => sound_execGradFloorWrite v s hs
  | .rngStepWrite strand v => sound_execRngStepWrite strand v s hs
  | .stashDomainWrite strand v => sound_execStashDomainWrite strand v s hs
  | .faultAck v => sound_execFaultAck v s hs
  | .ptFlush v => sound_execPtFlush v s hs
  | .haltResume slot => sound_execHaltResume slot s hs
  | .haltFail slot => sound_execHaltFail slot s hs
  | .dmaStart arg => sound_execDmaStart arg s hs
  | .dmaTriggerRun ch => sound_execDmaTriggerRun ch s hs
  | .dmaTriggerTime ch => sound_execDmaTriggerTime ch s hs
  | .dmaTriggerCtc ch => sound_execDmaTriggerCtc ch s hs
  | .dmaTriggerChannel ch => sound_execDmaTriggerChannel ch s hs
  | .dmaNop ch => sound_execDmaNop ch s hs
  | .dmaHalt ch => sound_execDmaHalt ch s hs
  | .dmaLoop ch => sound_execDmaLoop ch s hs
  | .endloop ch => sound_execEndloop ch s hs
  | .wait ch => sound_execWait ch s hs
  | .dmaSignal ch => sound_execDmaSignal ch s hs
  | .timer ch => sound_execTimer ch s hs
  | .crcstore ch => sound_execCrcstore ch s hs
  | .move ch => sound_execMove ch s hs
  | .move2d ch => sound_execMove2d ch s hs
  | .dmaTimerExpiry ch => sound_execDmaTimerExpiry ch s hs
  | .dmaTransferComplete ch => sound_execDmaTransferComplete ch s hs
  | .windowCurrent x => sound_execWindowCurrent x s hs
  | .windowRelease x => sound_execWindowRelease x s hs
  | .windowCheck x => sound_execWindowCheck x s hs
  | .streamRequestIssue x => sound_execStreamRequestIssue x s hs
  | .windowFilled x p => sound_execWindowFilled x p s hs
  | .storeWindowAcknowledged x => sound_execStoreWindowAcknowledged x s hs
  | .streamWait x => sound_execStreamWait x s hs
  | .hbmRequestService st => sound_execHbmRequestService st s hs
  | .hbmRefresh st bank => sound_execHbmRefresh st bank s hs
  | .scrub st => sound_execScrub st s hs
  | .stackTemperatureRead st eighths => sound_execStackTemperatureRead st eighths s hs
  | .meshWrite p => sound_execMeshWrite p s hs
  | .meshReadRequest p => sound_execMeshReadRequest p s hs
  | .meshReadResponse p => sound_execMeshReadResponse p s hs
  | .meshAcknowledge p => sound_execMeshAcknowledge p s hs
  | .meshReduction p t => sound_execMeshReduction p t s hs
  | .meshMulticastWrite p => sound_execMeshMulticastWrite p s hs
  | .meshStash p => sound_execMeshStash p s hs
  | .flitCrcFail p dir => sound_execFlitCrcFail p dir s hs
  | .stretch zone => sound_execStretch zone s hs
  | .marginShortfall zone size => sound_execMarginShortfall zone size s hs
  | .crossingRecentre za zb => sound_execCrossingRecentre za zb s hs
  | .freq zone => sound_execFreq zone s hs
  | .frequencySwitch => sound_execFrequencySwitch s hs
  | .targetMhzWrite v => sound_execTargetMhzWrite v s hs
  | .serviceClockWrite sub v => sound_execServiceClockWrite sub v s hs
  | .regulatorStepSettled => sound_execRegulatorStepSettled s hs
  | .regulatorStepTimeout => sound_execRegulatorStepTimeout s hs
  | .stretchMarginUpdate slow => sound_execStretchMarginUpdate slow s hs
  | .powerWindowEnd => sound_execPowerWindowEnd s hs
  | .thermalReading readings => sound_execThermalReading readings s hs
  | .thermalTrip sensor => sound_execThermalTrip sensor s hs
  | .pwrOkRise => sound_execPwrOkRise s hs
  | .pwrOkFall => sound_execPwrOkFall s hs
  | .resetLLow us => sound_execResetLLow us s hs
  | .resetLRelease t => sound_execResetLRelease t s hs
  | .functionReady bit ok ms => sound_execFunctionReady bit ok ms s hs
  | .startWarm arg => sound_execStartWarm arg s hs
  | .testAck arg => sound_execTestAck arg s hs
  | .attestGenerate arg => sound_execAttestGenerate arg s hs
  | .attestSigned => sound_execAttestSigned s hs
  | .hostkeySlotWrite slot key => sound_execHostkeySlotWrite slot key s hs
  | .updateData v => sound_execUpdateData v s hs
  | .updateVerify arg => sound_execUpdateVerify arg s hs
  | .open1 src m => sound_execOpen1 src m s hs
  | .open3 src m => sound_execOpen3 src m s hs
  | .open3Timeout slot => sound_execOpen3Timeout slot s hs
  | .access src m => sound_execAccess src m s hs
  | .registerWrite key v => sound_execRegisterWrite key v s hs
  | .subscribe src m => sound_execSubscribe src m s hs
  | .unsubscribe src m => sound_execUnsubscribe src m s hs
  | .close src m => sound_execClose src m s hs
  | .keepalive src m => sound_execKeepalive src m s hs
  | .sessionClose arg => sound_execSessionClose arg s hs
  | .sessionIdleTimeout slot => sound_execSessionIdleTimeout slot s hs
  | .notify sub => sound_execNotify sub s hs
  | .versionSelectedWrite v => sound_execVersionSelectedWrite v s hs
  | .treeConfigWrite t sub v => sound_execTreeConfigWrite t sub v s hs
  | .mcastMembersWrite d g v => sound_execMcastMembersWrite d g v s hs
  | .cvcConfigWrite c sub v => sound_execCvcConfigWrite c sub v s hs
  | .registryEntryWrite v => sound_execRegistryEntryWrite v s hs
  | .dataStepWrite strand v => sound_execDataStepWrite strand v s hs
  | .resumeStepWrite strand v => sound_execResumeStepWrite strand v s hs
  | .portModeWrite port v => sound_execPortModeWrite port v s hs
  | .sealRequest v => sound_execSealRequest v s hs
  | .sealExecute arg => sound_execSealExecute arg s hs
  | .recordGenerate arg => sound_execRecordGenerate arg s hs
  | .periodicRecord => sound_execPeriodicRecord s hs
  | .gaugeSample raw => sound_execGaugeSample raw s hs
  | .gaugeCommit => sound_execGaugeCommit s hs
  | .vddIodFall => sound_execVddIodFall s hs
  | .snapshotPoint d => sound_execSnapshotPoint d s hs
  | .snapshotDrainEnd d => sound_execSnapshotDrainEnd d s hs
  | .snapshotPageCopy d e page => sound_execSnapshotPageCopy d e page s hs
  | .snapshotMirrorWrite d => sound_execSnapshotMirrorWrite d s hs
  | .snapshotComplete d => sound_execSnapshotComplete d s hs
  | .snapshotTimeout d => sound_execSnapshotTimeout d s hs
  | .page port f => sound_execPage port f s hs
  | .mirror port f => sound_execMirror port f s hs
  | .refresh port f => sound_execRefresh port f s hs
  | .record port f => sound_execRecord port f s hs
  | .read port f => sound_execRead port f s hs
  | .write port f => sound_execWrite port f s hs
  | .data port f => sound_execData port f s hs
  | .ack port f => sound_execAck port f s hs
  | .nak port f => sound_execNak port f s hs
  | .hmsResendTimeout flow => sound_execHmsResendTimeout flow s hs
  | .collectiveStart c => sound_execCollectiveStart c s hs
  | .collectiveHopSend c => sound_execCollectiveHopSend c s hs
  | .herdFrame port f => sound_execHerdFrame port f s hs
  | .windowClose c => sound_execWindowClose c s hs
  | .windowGraceClose c => sound_execWindowGraceClose c s hs
  | .collectiveComplete c => sound_execCollectiveComplete c s hs
  | .pfcFrame port prio quanta => sound_execPfcFrame port prio quanta s hs
  | .arpRequest port ip asker => sound_execArpRequest port ip asker s hs
  | .neighbourSolicitation port ip asker => sound_execNeighbourSolicitation port ip asker s hs
  | .linkLoss port => sound_execLinkLoss port s hs
  | .retrainAttemptEnd port ok => sound_execRetrainAttemptEnd port ok s hs
  | .periodicRetrain port ok => sound_execPeriodicRetrain port ok s hs
  | .ptpMessage port domain m => sound_execPtpMessage port domain m s hs
  | .ptp1ppsEdge => sound_execPtp1ppsEdge s hs
  | .ptpHoldover => sound_execPtpHoldover s hs
  | .recordSigned => sound_execRecordSigned s hs
  | .updateWriteComplete => sound_execUpdateWriteComplete s hs
  | .updateVerifyComplete => sound_execUpdateVerifyComplete s hs
  | .pfcPauseExpiry port prio => sound_execPfcPauseExpiry port prio s hs
  | .linkTrainingEnd port ok => sound_execLinkTrainingEnd port ok s hs
  | .discardedFrame port why => sound_execDiscardedFrame port why s hs
  | .boundaryScan tms tdi trst pins => sound_execBoundaryScan tms tdi trst pins s hs
  | .regulatorTelemetryRead readings => sound_execRegulatorTelemetryRead readings s hs
theorem sound_step {q : Want} {s t : State} (hs : Sound q { s with pending := q.queue })
    (hq : s.pending.tail = q.queue) (h : step s = .next t) : Sound q t := by
  unfold step at h
  split at h
  next hp =>
    obtain rfl := Host.Outcome.next.inj h
    refine sound_advance 1 s ⟨hs.1, ?_⟩
    rw [← hq, hp]; rfl
  next i rest hp =>
    rw [hp, List.tail_cons] at hq
    subst hq
    exact sound_exec i _ hs t h

/-- Settles O1, by the definition of the step. -/
theorem stepRunsFrontCommand : Obligations.StepRunsFrontCommand := fun _ _ _ => rfl

/-- Settles O3: every command and the idle tick keep the stores canonical. -/
theorem stepKeepsStoresCanonical : Obligations.StepKeepsStoresCanonical := fun s _ hs h =>
  (sound_step (q := ⟨true, s.pending.tail⟩) ⟨fun _ => hs, rfl⟩ rfl h).1 rfl

/-- Settles O4: every command keeps the queue. -/
theorem commandsLeaveQueue : Obligations.CommandsLeaveQueue := fun i s t h =>
  (sound_exec (q := ⟨false, s.pending⟩) i s ⟨nofun, rfl⟩ t h).2

/-! ### An idle tick (R205, R358) -/

/-- The clocks of services are all that a due edge changes. -/
theorem settleClocks_eq (s : State) : ∃ k, settleClocks s = { s with clk := k } := by
  unfold settleClocks
  split
  · exact ⟨s.clk, rfl⟩
  · exact ⟨_, rfl⟩

/-- Time alone changes the times and the clocks of services. -/
theorem addTime_eq (m : Nat) (s : State) :
    ∃ n f p k, addTime m s = { s with ns := n, nsFrac := f, ptp := p, clk := k } := by
  obtain ⟨k, hk⟩ := settleClocks_eq { s with
    ns := s.ns + (s.nsFrac + m) / max 1 (freqMhz s), nsFrac := (s.nsFrac + m) % max 1 (freqMhz s)
    ptp := s.ptp + (s.nsFrac + m) / max 1 (freqMhz s) }
  exact ⟨_, _, _, k, hk⟩

theorem count_ctc (k : Nat) (s : State) : (count k s).ctc = s.ctc + k := by
  simp only [count]
  generalize hu : State.mk .. = u
  obtain ⟨_, _, _, _, h⟩ := addTime_eq (k * 1000) u
  rw [h, ← hu]

theorem count_mem (k : Nat) (s : State) : (count k s).mem = s.mem := by
  simp only [count]
  generalize hu : State.mk .. = u
  obtain ⟨_, _, _, _, h⟩ := addTime_eq (k * 1000) u
  rw [h, ← hu]

theorem count_par (k : Nat) (s : State) : (count k s).par = s.par := by
  simp only [count]
  generalize hu : State.mk .. = u
  obtain ⟨_, _, _, _, h⟩ := addTime_eq (k * 1000) u
  rw [h, ← hu]

theorem advance_one_of_quiet {s : State} (hruns : s.clk.runs = true) (hquiet : quiet s = true) :
    advance 1 s = settleChams (count 1 s) := by
  simp only [advance, hruns, advanceTicks, hquiet, leap, if_true]

theorem advance_stopped {s : State} (hstop : s.clk.runs = false) (k : Nat) : advance k s = addTime (k * 1000) s := by
  simp only [advance, hstop, Bool.false_eq_true, if_false]

/-- Settles O2: the idle step is one tick, which only counts where no unit has work or the clocks stand. -/
theorem idleStepTicks : Obligations.IdleStepTicks := by
  intro s hp
  refine ⟨advance 1 s, by rw [step, hp], ?_, fun hruns hquiet => ?_, fun hstop => ?_⟩
  · exact (sound_advance (qs := ⟨false, []⟩) 1 s ⟨nofun, hp⟩).2
  · rw [advance_one_of_quiet hruns hquiet]
    exact ⟨count_ctc 1 s, sameMemory_of_eq (count_mem 1 s), count_par 1 s⟩
  · obtain ⟨_, _, _, _, h⟩ := addTime_eq (1 * 1000) s
    rw [advance_stopped hstop, h]
    exact ⟨rfl, fun _ => rfl, rfl⟩

/-- Settles O5: every field of the state after reset is its empty store or its zero. -/
theorem resetValues : Obligations.ResetValues := by
  refine ⟨rfl, fun _ => rfl, by decide, fun _ => ⟨rfl, rfl⟩, fun _ => ⟨rfl, rfl, rfl⟩, rfl, rfl, rfl, rfl, rfl, rfl, rfl,
    rfl, ⟨rfl, rfl⟩, fun _ => ⟨rfl, rfl⟩⟩

/-! ### Faults (R223, R225) -/

theorem faultable_iff (x : DState) : x.faultable = true ↔ x = .loading ∨ x = .running ∨ x = .pageHalt := by
  cases x <;> simp [DState.faultable]

theorem raise_of_faultable {s : State} {r : Raised} {d : Nat} (hd : r.dom = some d)
    (h : (getD s d).st.faultable = true) : raise s r = { s with raised := s.raised ++ [r] } := by
  simp only [raise, hd, h, if_true]

theorem raise_of_not_faultable {s : State} {r : Raised} {d : Nat} (hd : r.dom = some d)
    (h : (getD s d).st.faultable = false) : raise s r = incP s (pk 0x0E10 4) 1 := by
  simp only [raise, hd, h, Bool.false_eq_true, if_false]

/-- From `s` to `t` the domain has kept its state, or it could take a fault before. -/
def KeptOrFaultable (e : Nat) (s t : State) : Prop := (getD t e).st = (getD s e).st ∨ (getD s e).st.faultable = true

theorem KeptOrFaultable.trans {e : Nat} {s t u : State} (h : KeptOrFaultable e s t) (k : KeptOrFaultable e t u) :
    KeptOrFaultable e s u := by
  rcases h with h | h
  · rw [KeptOrFaultable, h] at k
    exact k
  · exact .inr h

theorem getD_of_doms {s t : State} (h : t.doms = s.doms) (d : Nat) : getD t d = getD s d := by rw [getD, getD, h]

/-- A record changes of a domain only the number that it remembers. -/
theorem getD_writeRecord_st (s : State) (r : Raised) (k e : Nat) : (getD (writeRecord s r k) e).st = (getD s e).st := by
  unfold writeRecord
  extract_lets seq slot lost s1 s2 s3 s4 s5
  have hlost : s3.doms = s2.doms := by
    unfold s3
    split
    · exact incP_doms ..
    · rfl
  have hdoms : s5.doms = s.doms :=
    calc s5.doms = s4.doms := rfl
      _ = s3.doms := setP_doms ..
      _ = s2.doms := hlost
      _ = s1.doms := setP_doms ..
      _ = s.doms := incP_doms ..
  clear_value s5
  split
  next d _ =>
    by_cases hd : d = e
    · rw [← hd, getD_setD_same, getD_of_doms hdoms]
    · rw [getD_setD_other _ _ hd, getD_of_doms hdoms]
  next => rw [getD_of_doms hdoms]

theorem recordFaults_keptOrFaultable (s : State) (d e : Nat) : KeptOrFaultable e s (recordFaults s d) := by
  unfold recordFaults
  simp only []
  split
  · exact .inl rfl
  split
  · exact .inl rfl
  next r _ hf =>
    by_cases hd : d = e
    · subst hd
      exact .inr ((Bool.not_eq_false _).mp fun h => hf (by rw [Bool.not_eq_true']; exact h))
    · refine .inl ?_
      rw [getD_setD_other _ _ hd, getD_incP, getD_writeRecord_st]
      rfl

theorem execFault_keptOrFaultable {s t : State} {d : Nat} (e : Nat) (h : exec (.fault d) s = .next t) :
    KeptOrFaultable e s t := by
  rw [show exec (.fault d) s = execFault d s from rfl] at h
  unfold execFault at h
  split at h
  · cases h
  split at h
  · cases h
  obtain rfl := Host.Outcome.next.inj h
  refine KeptOrFaultable.trans (t := recordFaults _ d) ?_ (.inl rfl)
  refine KeptOrFaultable.trans ?_ (recordFaults_keptOrFaultable _ d e)
  exact foldl_keeps (KeptOrFaultable e s) _ (fun u k h => h.trans (recordFaults_keptOrFaultable u k e)) _ s (.inl rfl)

/-- Settles O6: raising asks for the domain's state, and a FAULT message records faults of such domains alone. -/
theorem faultsOnlyInFaultableStates : Obligations.FaultsOnlyInFaultableStates := by
  refine ⟨fun s r d hd => ⟨fun h => ?_, fun h => ?_⟩, fun s _ d e h hfaulted hbefore => ?_⟩
  · exact raise_of_faultable hd ((faultable_iff _).mpr h)
  · exact raise_of_not_faultable hd (by rwa [← faultable_iff, Bool.not_eq_true] at h)
  · rcases execFault_keptOrFaultable e h with hkept | hfaultable
    · exact absurd (hkept.symm.trans hfaulted) hbefore
    · exact (faultable_iff _).mp hfaultable

end Sys2Proof.Machine
end

