-- ==== Sys2Proof/Proofs/Fp32Words.lean ====
section
/-!
SUPPORT. "Number formats": an FP32 word, its value and back, and the statement about it.
-/
namespace Sys2Proof.Machine

/-! ### The fields of a word (R32) -/

theorem bits_exponent (n : Nat) : bits n 30 23 = n / 2 ^ 23 % 2 ^ 8 := by rw [bits, Nat.shiftRight_eq_div_pow]

/-- A word is its sign, exponent and mantissa fields side by side. -/
theorem word_eq_fields {n : Nat} (h : n < 2 ^ 32) :
    (if bit n 31 then 0x80000000 else 0) + (n / 2 ^ 23 % 2 ^ 8 * 2 ^ 23 + n % 2 ^ 23) = n := by
  simp only [bit, Nat.testBit_eq_decide_div_mod_eq, decide_eq_true_eq]
  split <;> omega

theorem log2_implicit_one {m : Nat} (h : m < 2 ^ 23) : Nat.log2 (2 ^ 23 + m) = 23 :=
  (Nat.log2_eq_iff (by omega)).mpr ⟨by omega, by omega⟩

theorem log2_mantissa_lt {m : Nat} (h0 : m ≠ 0) (h : m < 2 ^ 23) : Nat.log2 m < 23 := (Nat.log2_lt h0).mpr h

/-! ### The value of a word (R32, R33) -/

theorem f32Of_inf {n : Nat} (he : n / 2 ^ 23 % 2 ^ 8 = 0xFF) (hm : n % 2 ^ 23 = 0) : f32Of n = .inf (bit n 31) := by
  simp only [f32Of, bits_exponent, he, hm, beq_self_eq_true, if_true]

theorem f32Of_nan {n : Nat} (he : n / 2 ^ 23 % 2 ^ 8 = 0xFF) (hm : n % 2 ^ 23 ≠ 0) : f32Of n = .nan := by
  simp only [f32Of, bits_exponent, he, beq_self_eq_true, if_true, beq_iff_eq, hm, if_false]

theorem f32Of_subnormal {n : Nat} (he : n / 2 ^ 23 % 2 ^ 8 = 0) : f32Of n = .fin (bit n 31) (n % 2 ^ 23) (-149) := by
  have hbits : bits n 30 23 = 0 := (bits_exponent n).trans he
  simp only [f32Of, decodeFinite, hbits]
  rfl

theorem f32Of_normal {n : Nat} (hne : n / 2 ^ 23 % 2 ^ 8 ≠ 0xFF) (h0 : n / 2 ^ 23 % 2 ^ 8 ≠ 0) :
    f32Of n = .fin (bit n 31) (2 ^ 23 + n % 2 ^ 23) ((n / 2 ^ 23 % 2 ^ 8 : Nat) - 127 - 23) := by
  have hbits : bits n 30 23 = n / 2 ^ 23 % 2 ^ 8 := bits_exponent n
  simp only [f32Of, decodeFinite, show 8 + 23 - 1 = 30 from rfl, show 8 + 23 = 31 from rfl, hbits, beq_iff_eq, hne, h0,
    if_false]
  rfl

/-! ### The word of a value on the grid -/

theorem encodeFinite_zero (mb : Nat) (bias q : Int) : encodeFinite mb bias 0 q = 0 := rfl

theorem encodeFinite_subnormal {m : Nat} (h : m < 2 ^ 23) : encodeFinite 23 127 m (-149) = m := by
  by_cases h0 : m = 0
  · rw [h0, encodeFinite_zero]
  have hlog := log2_mantissa_lt h0 h
  have hexp : ¬(1 ≤ (Nat.log2 m : Int) + -149 + 127) := by omega
  simp only [encodeFinite, beq_iff_eq, h0, hexp, if_false]
  exact Nat.mul_one m

theorem encodeFinite_normal {m e : Nat} (h : m < 2 ^ 23) (he : e ≠ 0) :
    encodeFinite 23 127 (2 ^ 23 + m) ((e : Int) - 127 - 23) = e * 2 ^ 23 + m := by
  have hne : ¬(2 ^ 23 + m = 0) := by omega
  have hexp : ((23 : Nat) : Int) + ((e : Int) - 127 - 23) + 127 = e := by omega
  have hpos : (1 : Int) ≤ e := by omega
  simp only [encodeFinite, beq_iff_eq, hne, if_false, log2_implicit_one h, hexp, hpos, if_true, Nat.le_refl,
    Nat.sub_self, Nat.pow_zero, Nat.mul_one, Int.toNat_natCast, Nat.add_sub_cancel_left]

/-- A value whose last bit is a step of the grid and whose magnitude is in range rounds to itself (R53). -/
theorem roundF32_of_grid {s : Bool} {m : Nat} {e : Int} (h0 : m ≠ 0)
    (hgrid : max ((Nat.log2 m : Int) + e - 23) (-149) = e) (hrange : (Nat.log2 m : Int) + e < 128) :
    roundF32 (.fin s m e) = .fin s m e := by
  obtain ⟨k, rfl⟩ : ∃ k, m = k + 1 := ⟨m - 1, by omega⟩
  have hq : gridExp f32Prec f32Qmin (k + 1) e = e := hgrid
  have hround : roundQ .rne (k + 1) e e = k + 1 := by
    simp only [roundQ, Int.le_refl, if_true, Int.sub_self, Int.toNat_zero, Nat.pow_zero, Nat.mul_one]
  have hin : ¬(128 ≤ (Nat.log2 (k + 1) : Int) + e) := by omega
  simp only [roundF32, hq, hround, beq_iff_eq, h0, hin, if_false]

/-! ### There and back -/

/-- The word of the value of a word, by the exponent field: FFh, 00h or one between. -/
theorem f32Bits_f32Of {n : Nat} (h : n < 2 ^ 32) :
    f32Bits (f32Of n) = (if n / 2 ^ 23 % 2 ^ 8 = 0xFF ∧ n % 2 ^ 23 ≠ 0 then 0x7FC00000 else n) := by
  have hfields := word_eq_fields h
  have hm : n % 2 ^ 23 < 2 ^ 23 := Nat.mod_lt _ (by decide)
  by_cases hff : n / 2 ^ 23 % 2 ^ 8 = 0xFF
  · by_cases hm0 : n % 2 ^ 23 = 0
    · rw [f32Of_inf hff hm0, if_neg fun h => h.2 hm0]
      rw [hff, hm0] at hfields
      exact hfields
    · rw [f32Of_nan hff hm0, if_pos ⟨hff, hm0⟩, f32Bits]
  · rw [if_neg fun h => hff h.1]
    by_cases h0 : n / 2 ^ 23 % 2 ^ 8 = 0
    · rw [f32Of_subnormal h0, f32Bits, encodeFinite_subnormal hm]
      rwa [h0, Nat.zero_mul, Nat.zero_add] at hfields
    · rw [f32Of_normal hff h0, f32Bits, encodeFinite_normal hm h0]
      exact hfields

theorem f32Bits_roundF32_f32Of (n : Nat) : f32Bits (roundF32 (f32Of n)) = f32Bits (f32Of n) := by
  have hm : n % 2 ^ 23 < 2 ^ 23 := Nat.mod_lt _ (by decide)
  by_cases hff : n / 2 ^ 23 % 2 ^ 8 = 0xFF
  · by_cases hm0 : n % 2 ^ 23 = 0
    · rw [f32Of_inf hff hm0, roundF32]
    · rw [f32Of_nan hff hm0, roundF32]
  by_cases h0 : n / 2 ^ 23 % 2 ^ 8 = 0
  · rw [f32Of_subnormal h0]
    by_cases hm0 : n % 2 ^ 23 = 0
    · rw [hm0, roundF32, f32Bits, f32Bits, encodeFinite_zero, encodeFinite_zero]
    · have hlog := log2_mantissa_lt hm0 hm
      rw [roundF32_of_grid hm0 (by omega) (by omega)]
  · have hlog := log2_implicit_one hm
    have he : n / 2 ^ 23 % 2 ^ 8 < 2 ^ 8 := Nat.mod_lt _ (by decide)
    rw [f32Of_normal hff h0, roundF32_of_grid (by omega) (by rw [hlog]; omega) (by rw [hlog]; omega)]

/-- Settles O11: the cases are the exponent fields FFh, 00h and those between. -/
theorem fp32RoundTrip : Obligations.Fp32RoundTrip := fun n h => ⟨f32Bits_f32Of h, f32Bits_roundF32_f32Of n⟩

end Sys2Proof.Machine
end

