-- ==== Sys2Proof/Proofs/ElandSequencing.lean ====
section
/-!
SUPPORT. "Eland cores", the sequencer: what the sequencing instructions do at their turn and leave alone, picks, where a
needle stands after an instruction, and the statements about them.
-/
namespace Sys2Proof.Machine

/-! ### Frames of the core's own updates -/

theorem onlyEland_refl (c : Nat) (s : State) : OnlyEland c s s := ⟨rfl, fun _ _ => rfl⟩

theorem onlyEland_trans {c : Nat} {s t u : State} (h : OnlyEland c s t) (k : OnlyEland c t u) : OnlyEland c s u :=
  ⟨by rw [k.1, h.1], fun j hj => (k.2 j hj).trans (h.2 j hj)⟩

theorem onlyEland_setE (s : State) (c : Nat) (e : Eland) : OnlyEland c s (setE s c e) :=
  ⟨rfl, fun _ hk => getE_setE_other s e (Ne.symm hk)⟩

theorem onlyEland_updN (s : State) (c : Nat) (n : Needle) (f : NeedleSt → NeedleSt) : OnlyEland c s (updN s c n f) :=
  onlyEland_setE s c _

theorem onlyEland_elandDone {x : Ctx} {s u : State} (slot : Nat) (h : OnlyEland x.c s u) :
    OnlyEland x.c s (elandDone x slot u) := onlyEland_trans h (onlyEland_updN u x.c x.n _)

/-- The other needle of the core keeps its registers. -/
theorem getN_other_updN (s : State) (c : Nat) (n : Needle) (f : NeedleSt → NeedleSt) :
    getN (getE (updN s c n f) c) n.other = getN (getE s c) n.other := by rw [getE_updN_same, getN_setN_other]

theorem getN_other_elandDone (x : Ctx) (slot : Nat) (u : State) :
    getN (getE (elandDone x slot u) x.c) x.n.other = getN (getE u x.c) x.n.other := getN_other_updN ..

/-! ### Token counters (R134) -/

theorem setTok_eland {s : State} {u : Nat} (hu : u < 0x40) (t v : Nat) :
    setTok s u t v = setE s u { getE s u with tokens := SMap.set 0 (getE s u).tokens t v } := by
  rw [setTok, if_pos hu]

theorem getTok_setTok_same (s : State) (u t v : Nat) : getTok (setTok s u t v) u t = v := by
  by_cases hu : u < 0x40
  · simp only [getTok, setTok, if_pos hu, getE_setE_same, SMap.get_set_same]
  · simp only [getTok, setTok, if_neg hu, getC_setC_same, SMap.get_set_same]

theorem subTok_zero (s : State) (u t : Nat) : subTok s u t 0 = s := rfl

/-- What a subtraction leaves: the counter lower, and the tick's account of what has been taken. -/
theorem subTok_eq {s : State} {u t n : Nat} (hn : n ≠ 0) :
    ∃ v k, subTok s u t n = setTok { s with tokSubs := SMap.set (0, 0) s.tokSubs (u * 64 + t) k } u t v := by
  rw [subTok, if_neg (by simpa using hn)]
  exact ⟨_, _, rfl⟩

theorem getTok_subTok_first {s : State} {u k n : Nat} (h : (s.tokSubs.find? fun y => y.1 == u * 64 + k) = none) :
    getTok (subTok s u k n) u k = getTok s u k - n := by
  by_cases hn : n = 0
  · rw [hn, subTok_zero, Nat.sub_zero]
  · rw [subTok, if_neg (by simpa using hn)]
    simp only [h, getTok_setTok_same, Nat.zero_add]

/-- A subtraction at an Eland core changes the core and the tick's account. -/
theorem onlyEland_subTok (s : State) {c : Nat} (hc : c < 36) (t n : Nat) :
    OnlyEland c { s with tokSubs := (subTok s c t n).tokSubs } (subTok s c t n) := by
  by_cases hn : n = 0
  · rw [hn, subTok_zero]
    exact onlyEland_refl c s
  · obtain ⟨v, k, h⟩ := subTok_eq (s := s) (u := c) (t := t) hn
    rw [h, setTok_eland (by omega)]
    exact onlyEland_setE _ c _

theorem getN_subTok (s : State) {c : Nat} (hc : c < 36) (t n : Nat) (m : Needle) :
    getN (getE (subTok s c t n) c) m = getN (getE s c) m := by
  by_cases hn : n = 0
  · rw [hn, subTok_zero]
  · obtain ⟨v, k, h⟩ := subTok_eq (s := s) (u := c) (t := t) hn
    rw [h, setTok_eland (by omega), getE_setE_same]
    cases m <;> rfl

/-! ### Sequencing instructions at their turn (R129, R131, R134) -/

section Turn
variable {c : Nat} {n : Needle} {w : W128} {s : State} {x : Ctx} {slot : Nat} {t : State}

theorem exec_nop_turn (hop : opcodeOf w.toNat = 0x00) (h : elandTurn c n w s = some (x, slot, t)) :
    exec (.nop c n w) s = .next (elandDone x slot t) := issueE_ok h hop rfl

theorem exec_loop_turn (hop : opcodeOf w.toNat = 0x02) (h : elandTurn c n w s = some (x, slot, t))
    (h1 : 1 ≤ loopBody w.toNat) (h64 : loopBody w.toNat ≤ 64) (hcount : 1 ≤ loopCount w.toNat) :
    exec (.loop c n w) s = .next (elandDone x slot t) := by
  obtain ⟨-, -, -, hw⟩ := elandTurn_ctx h
  refine issueE_ok h hop (if_neg ?_)
  simp only [hw, Bool.or_eq_true, beq_iff_eq, decide_eq_true_eq]
  omega

/-- SETB writes one of three registers, and none for b0. -/
theorem setb_eq (w : Nat) (y : NeedleSt) :
    (match fBsel w with
      | 1 => { y with b1 := setbValue w }
      | 2 => { y with b2 := setbValue w }
      | 3 => { y with b3 := setbValue w }
      | _ => y : NeedleSt) =
    { y with b1 := if fBsel w = 1 then setbValue w else y.b1
             b2 := if fBsel w = 2 then setbValue w else y.b2
             b3 := if fBsel w = 3 then setbValue w else y.b3 } := by
  split <;> simp_all

theorem exec_setb_turn (hop : opcodeOf w.toNat = 0x06) (h : elandTurn c n w s = some (x, slot, t)) :
    exec (.setb c n w) s = .next (elandDone x slot (updN t c n fun y =>
      { y with b1 := if fBsel w.toNat = 1 then setbValue w.toNat else y.b1
               b2 := if fBsel w.toNat = 2 then setbValue w.toNat else y.b2
               b3 := if fBsel w.toNat = 3 then setbValue w.toNat else y.b3 })) := by
  obtain ⟨-, rfl, rfl, hw⟩ := elandTurn_ctx h
  simp only [← hw, ← setb_eq]
  exact issueE_ok h hop rfl

theorem exec_tpos_turn (hop : opcodeOf w.toNat = 0x07) (h : elandTurn c n w s = some (x, slot, t))
    (hpos : 0 < tposWidth w.toNat) (h64 : tposWidth w.toNat % 64 = 0) :
    exec (.tpos c n w) s = .next (elandDone x slot (updN t c n fun y =>
      { y with width := tposWidth w.toNat, row := tposRow w.toNat, col := tposCol w.toNat })) := by
  obtain ⟨-, rfl, rfl, hw⟩ := elandTurn_ctx h
  rw [← hw] at hpos h64 ⊢
  refine issueE_ok h hop (if_neg ?_)
  simp only [Bool.or_eq_true, beq_iff_eq, decide_eq_true_eq]
  omega

theorem exec_stepI_turn (hop : opcodeOf w.toNat = 0x05) (h : elandTurn c n w s = some (x, slot, t)) :
    exec (.stepI c n w) s = .next (elandDone x slot
      (advanceSteps (updN t c n fun y => { y with strand := stepStrand w.toNat }) (stepStrand w.toNat) (stepData w.toNat)
        (stepRng w.toNat))) := by
  obtain ⟨-, rfl, rfl, hw⟩ := elandTurn_ctx h
  rw [← hw]
  exact issueE_ok h hop rfl

theorem exec_sync_turn (hop : opcodeOf w.toNat = 0x08) (h : elandTurn c n w s = some (x, slot, t)) :
    exec (.sync c n w) s = .next (elandDone x slot (subTok t c (syncToken w.toNat) (syncCount w.toNat))) := by
  obtain ⟨-, rfl, rfl, hw⟩ := elandTurn_ctx h
  rw [← hw]
  exact issueE_ok h hop rfl

theorem exec_signal_turn (hop : opcodeOf w.toNat = 0x09) (h : elandTurn c n w s = some (x, slot, t)) :
    exec (.signal c n w) s = .next (elandDone x slot { t with
      incrs := mergeIncr ⟨signalPos w.toNat, signalToken w.toNat, signalIncr w.toNat, posOf c, x.d⟩ t.incrs }) := by
  obtain ⟨-, rfl, rfl, hw⟩ := elandTurn_ctx h
  rw [← hw]
  exact issueE_ok h hop rfl

end Turn

/-- Settles O12: each instruction's own checks pass and its effect is the one named. -/
theorem elandSequencingCompletes : Obligations.ElandSequencingCompletes :=
  ⟨fun _ _ _ _ _ _ _ => exec_nop_turn, fun _ _ _ _ _ _ _ => exec_loop_turn, fun _ _ _ _ _ _ _ => exec_setb_turn,
    fun _ _ _ _ _ _ _ => exec_tpos_turn, fun _ _ _ _ _ _ _ => exec_stepI_turn, fun _ _ _ _ _ _ _ => exec_sync_turn,
    fun _ _ _ _ => getTok_subTok_first, fun _ _ _ _ _ _ _ => exec_signal_turn⟩

/-! ### What sequencing instructions leave alone -/

/-- What the frame of a sequencing instruction says of the state `u` that it left, by whether it may send increments and
take from counters. -/
def SequencingFrame (c : Nat) (n : Needle) (sends takes : Prop) (t u : State) : Prop :=
  OnlyEland c { t with incrs := u.incrs, tokSubs := u.tokSubs } u ∧ (¬sends → u.incrs = t.incrs) ∧
    (¬takes → u.tokSubs = t.tokSubs) ∧ getN (getE u c) n.other = getN (getE t c) n.other

/-- An effect on the needle itself, as the needle goes on. -/
theorem sequencingFrame_updN (x : Ctx) (slot : Nat) (t : State) (f : NeedleSt → NeedleSt) (p q : Prop) :
    SequencingFrame x.c x.n p q t (elandDone x slot (updN t x.c x.n f)) :=
  ⟨onlyEland_elandDone slot (onlyEland_updN t x.c x.n f), fun _ => rfl, fun _ => rfl,
    (getN_other_elandDone x slot _).trans (getN_other_updN t x.c x.n f)⟩

theorem sequencingFrame_done (x : Ctx) (slot : Nat) (t : State) (p q : Prop) :
    SequencingFrame x.c x.n p q t (elandDone x slot t) :=
  ⟨onlyEland_elandDone slot (onlyEland_refl x.c t), fun _ => rfl, fun _ => rfl, getN_other_elandDone x slot t⟩

theorem sequencingFrame_sync (x : Ctx) (hc : x.c < 36) (slot : Nat) (t : State) (k m : Nat) (p : Prop) {q : Prop}
    (hq : q) : SequencingFrame x.c x.n p q t (elandDone x slot (subTok t x.c k m)) := by
  have hframe := onlyEland_subTok t hc k m
  refine ⟨onlyEland_elandDone slot ?_, fun _ => ?_, fun h => absurd hq h, ?_⟩
  · have hincrs : (subTok t x.c k m).incrs = t.incrs := by rw [hframe.1]
    have hbase : { t with incrs := (elandDone x slot (subTok t x.c k m)).incrs
                          tokSubs := (elandDone x slot (subTok t x.c k m)).tokSubs } =
        { t with tokSubs := (subTok t x.c k m).tokSubs } := by
      change { t with incrs := (subTok t x.c k m).incrs, tokSubs := (subTok t x.c k m).tokSubs } = _
      rw [hincrs]
    rw [hbase]
    exact hframe
  · change (subTok t x.c k m).incrs = t.incrs
    rw [hframe.1]
  · exact (getN_other_elandDone x slot _).trans (getN_subTok t hc k m _)

theorem sequencingFrame_signal (x : Ctx) (slot : Nat) (t : State) (l : List Incr) {p : Prop}
    (hp : p) (q : Prop) : SequencingFrame x.c x.n p q t (elandDone x slot { t with incrs := l }) :=
  ⟨onlyEland_elandDone slot (onlyEland_refl x.c _), fun h => absurd hp h, fun _ => rfl, getN_other_elandDone x slot _⟩

/-- Settles O13: of each form the whole next state is known, and its parts are read off it. -/
theorem elandSequencingFrame : Obligations.ElandSequencingFrame := by
  simp only [Obligations.ElandSequencingFrame, List.forall_mem_cons, List.not_mem_nil, false_implies, implies_true, and_true]
  refine ⟨?nop, ?loop, ?setb, ?tpos, ?sync, ?signal⟩ <;> intro c n w s x slot t hop h u hu hloop htpos <;>
    obtain ⟨hc, rfl, rfl, -⟩ := elandTurn_ctx h
  case nop =>
    obtain rfl := Host.Outcome.next.inj ((exec_nop_turn hop h).symm.trans hu)
    exact sequencingFrame_done x slot t _ _
  case loop =>
    obtain ⟨h1, h64, hcount⟩ := hloop trivial
    obtain rfl := Host.Outcome.next.inj ((exec_loop_turn hop h h1 h64 hcount).symm.trans hu)
    exact sequencingFrame_done x slot t _ _
  case setb =>
    obtain rfl := Host.Outcome.next.inj ((exec_setb_turn hop h).symm.trans hu)
    exact sequencingFrame_updN x slot t _ _ _
  case tpos =>
    obtain ⟨hpos, h64⟩ := htpos trivial
    obtain rfl := Host.Outcome.next.inj ((exec_tpos_turn hop h hpos h64).symm.trans hu)
    exact sequencingFrame_updN x slot t _ _ _
  case sync =>
    obtain rfl := Host.Outcome.next.inj ((exec_sync_turn hop h).symm.trans hu)
    exact sequencingFrame_sync x hc slot t _ _ _ rfl
  case signal =>
    obtain rfl := Host.Outcome.next.inj ((exec_signal_turn hop h).symm.trans hu)
    exact sequencingFrame_signal x slot t _ rfl _

/-! ### Picks (R122 to R124, R130) -/

section Turn
variable {c : Nat} {n : Needle} {w : W128} {s : State} {x : Ctx} {slot : Nat} {t : State}

theorem exec_pick_turn (hop : opcodeOf w.toNat = 0x03) (h : elandTurn c n w s = some (x, slot, t))
    (hstream : pickStreamEn w.toNat = true → streamAt t (pickStream w.toNat) (posOf c) = true) :
    exec (.pick c n w) s = .next (elandDone x slot (pickIssued
      (updN t c n fun y => { y with st := .parked, cond := pickCondOf w.toNat }) c ((getD t x.d).dcc + fGap w.toNat + 1))) := by
  obtain ⟨-, rfl, rfl, hw⟩ := elandTurn_ctx h
  rw [← hw] at hstream ⊢
  refine issueE_ok h hop (if_neg ?_)
  simp only [Bool.and_eq_true, Bool.not_eq_true', not_and, Bool.not_eq_false]
  exact hstream

theorem exec_halt_turn (hop : opcodeOf w.toNat = 0x01) (h : elandTurn c n w s = some (x, slot, t)) :
    exec (.halt c n w) s = .next (elandDone x slot
      (if (getN (getE t c) n.other).st = .parked ∧ (getE t c).shared = false then
        pickIssued (updN t c n fun y => { y with st := .halted, cond := {} }) c ((getD t x.d).dcc + 1)
      else noteFinished (updN t c n fun y => { y with st := .halted, cond := {} }) x.d)) := by
  obtain ⟨-, rfl, rfl, -⟩ := elandTurn_ctx h
  refine issueE_ok h hop ?_
  have hshared (e : Eland) (y : NeedleSt) : (setN e x.n y).shared = e.shared := by cases x.n <;> rfl
  simp only [fxHalt, getE_updN_same, getN_setN_other, hshared, getD_updN, Bool.and_eq_true, beq_iff_eq,
    Bool.not_eq_true']
  split <;> rfl

theorem exec_part_turn (hop : opcodeOf w.toNat = 0x04) (h : elandTurn c n w s = some (x, slot, t))
    (hfree : ∀ k ∈ busyTiles t c, bit (getE t c).foreTiles k = bit (partTiles w.toNat) k) :
    exec (.part c n w) s =
      .next (elandDone x slot (setE t c { getE t c with foreTiles := partTiles w.toNat })) := by
  obtain ⟨-, rfl, rfl, hw⟩ := elandTurn_ctx h
  rw [← hw] at hfree ⊢
  refine issueE_ok h hop (if_neg ?_)
  simp only [List.any_eq_true, bne_iff_ne, not_exists, not_and, Decidable.not_not]
  exact hfree

end Turn

/-- Settles O14: the checks of PICK and PART are the premises, and HALT has none. -/
theorem elandPicksComplete : Obligations.ElandPicksComplete :=
  ⟨fun _ _ _ _ _ _ _ => exec_pick_turn, fun _ _ _ _ _ _ _ => exec_halt_turn, fun _ _ _ _ _ _ _ => exec_part_turn⟩

/-! ### Where a needle stands (R118, R120, R129) -/

theorem getN_elandDone (x : Ctx) (slot : Nat) (u : State) :
    getN (getE (elandDone x slot u) x.c) x.n = advanceNeedle (getE u x.c) (getN (getE u x.c) x.n) x.w slot := by
  rw [elandDone, getE_updN_same, getN_setN_same]

section Advance
variable (e : Eland) (y : NeedleSt) (w slot : Nat)

/-- What any instruction does to the needle: its next slot, the queue of decoded instructions, no hold. -/
theorem advanceNeedle_slots :
    (advanceNeedle e y w slot).nextSlot = slot + (if e.shared then 2 else 1) * (fGap w + 1) ∧
      (advanceNeedle e y w slot).held = none ∧
      (advanceNeedle e y w slot).decoded = laterBy (slot - y.nextSlot) (y.decoded.drop 1) ∧
      (advanceNeedle e y w slot).dslot = y.dslot + (slot - y.nextSlot) := ⟨rfl, rfl, rfl, rfl⟩

/-- Place, loop and bases of a needle after an instruction. -/
theorem advanceNeedle_place :
    ((advanceNeedle e y w slot).pc, (advanceNeedle e y w slot).loop,
      (advanceNeedle e y w slot).b1, (advanceNeedle e y w slot).b2, (advanceNeedle e y w slot).b3) =
    if opcodeOf w = 0x02 then (y.pc + 1, some (openLoop w), (y.b1, y.b2, y.b3))
    else advLoop y.pc y.loop (y.b1, y.b2, y.b3) := by
  simp only [advanceNeedle, beq_iff_eq]

end Advance

theorem advLoop_none (pc : Nat) (b : Nat × Nat × Nat) : advLoop pc none b = (pc + 1, none, b) := rfl

theorem advLoop_inside {l : LoopSt} (h : l.pos + 1 < l.body) (pc : Nat) (b : Nat × Nat × Nat) :
    advLoop pc (some l) b = (pc + 1, some { l with pos := l.pos + 1 }, b) := by simp only [advLoop, h, if_true]

theorem advLoop_end {l : LoopSt} (h : l.body ≤ l.pos + 1) (pc b1 b2 b3 : Nat) :
    advLoop pc (some l) (b1, b2, b3) =
      (if l.left = 0 then pc + 1 else pc + 1 - l.body, if l.left = 0 then none else some { l with pos := 0, left := l.left - 1 },
        (stepBase b1 l.s1, stepBase b2 l.s2, stepBase b3 l.s3)) := by
  have hend : ¬(l.pos + 1 < l.body) := by omega
  simp only [advLoop, hend, if_false, beq_iff_eq]
  split <;> rfl

/-- Settles O15: the slots are the same after every instruction, and the place follows the loop in force. -/
theorem needleAdvances : Obligations.NeedleAdvances := by
  intro x slot u
  simp only [getN_elandDone]
  generalize getE u x.c = e
  generalize getN e x.n = y
  obtain ⟨hnext, hheld, hdecoded, hdslot⟩ := advanceNeedle_slots e y x.w slot
  have hplace := advanceNeedle_place e y x.w slot
  refine ⟨hnext, hheld, hdecoded, hdslot, fun hop => ?loop, fun hop hnone => ?outside, fun l hop hl hin => ?inside,
    fun l hop hl hend => ?last⟩
  case loop =>
    rw [if_pos hop] at hplace
    simp only [Prod.mk.injEq] at hplace ⊢
    obtain ⟨hpc, hloop, hb⟩ := hplace
    exact ⟨hpc, hb, hloop⟩
  case outside =>
    rw [if_neg hop, hnone, advLoop_none] at hplace
    simpa only [Prod.mk.injEq] using hplace
  case inside =>
    rw [if_neg hop, hl, advLoop_inside hin] at hplace
    simpa only [Prod.mk.injEq] using hplace
  case last =>
    rw [if_neg hop, hl, advLoop_end hend] at hplace
    simp only [Prod.mk.injEq] at hplace ⊢
    obtain ⟨hpc, hloop, hb⟩ := hplace
    exact ⟨hb, fun h0 => ⟨hpc.trans (if_pos h0), hloop.trans (if_pos h0)⟩,
      fun h0 => ⟨hpc.trans (if_neg h0), hloop.trans (if_neg h0)⟩⟩

end Sys2Proof.Machine
end

