-- ==== Sys2Proof/Proofs/Lines.lean ====
section
/-!
SUPPORT. What is read of memory after bytes with marks are written: bytes and marks of whole words, and the lines of a
core's memory (R6, R298, R299).
-/
namespace Sys2Proof.Machine

/-! ### Lists of places -/

/-- A window of a list given by its places. -/
theorem take_drop_map_range {α : Type} (f : Nat → α) {n a k : Nat} (h : a + k ≤ n) :
    (((List.range n).map f).drop a).take k = (List.range k).map fun i => f (a + i) := by
  apply List.ext_getElem
  · simp only [List.length_take, List.length_drop, List.length_map, List.length_range]
    omega
  · intro i _ _
    simp only [List.getElem_take, List.getElem_drop, List.getElem_map, List.getElem_range]

/-- Two steps that agree on the members of a list fold it to the same value. -/
theorem foldl_congr_on {α β : Type} (f g : β → α → β) (l : List α) (h : ∀ b x, x ∈ l → f b x = g b x) (b : β) :
    l.foldl f b = l.foldl g b := by
  induction l generalizing b with
  | nil => rfl
  | cons x l ih =>
    rw [List.foldl_cons, List.foldl_cons, h b x (List.mem_cons_self ..)]
    exact ih (fun b y hy => h b y (List.mem_cons_of_mem x hy)) _

/-- Writing the places of an injective key leaves at each what was written there. -/
theorem get_foldl_set {V : Type} [DecidableEq V] (d : V) (key : Nat → Nat) (val : Nat → V)
    (hinj : ∀ i j, key i = key j → i = j) (m : SMap V) (n j : Nat) (hj : j < n) :
    SMap.get d ((List.range n).foldl (fun m i => SMap.set d m (key i) (val i)) m) (key j) = val j := by
  induction n with
  | zero => exact absurd hj (Nat.not_lt_zero j)
  | succ n ih =>
    rw [List.range_succ, List.foldl_append, List.foldl_cons, List.foldl_nil]
    by_cases h : n = j
    · rw [h, SMap.get_set_same]
    · rw [SMap.get_set_other _ _ _ _ _ fun he => h (hinj n j he)]
      exact ih (by omega)

/-! ### Numbers as bytes and bits (R6) -/

theorem leNat_bytes (n v : Nat) : leNat ((List.range n).map fun i => BitVec.ofNat 8 (v >>> (8 * i))) = v % 256 ^ n := by
  induction n generalizing v with
  | zero => simp [leNat, Nat.mod_one]
  | succ n ih =>
    have htail : ∀ i, v >>> (8 * (i + 1)) = (v / 256) >>> (8 * i) := fun i => by
      rw [show 8 * (i + 1) = 8 + 8 * i from by omega, Nat.shiftRight_add, Nat.shiftRight_eq_div_pow v 8]
    rw [List.range_succ_eq_map, List.map_cons, List.map_map, leNat]
    simp only [Function.comp_def, Nat.succ_eq_add_one, htail, ih, Nat.mul_zero, Nat.shiftRight_zero, BitVec.toNat_ofNat]
    rw [Nat.pow_succ' (m := 256), Nat.mod_mul]

/-- A number is the sum of its bits. -/
theorem foldl_bits (n m : Nat) (p : Nat → Bool) (hp : ∀ w, w < n → p w = bit m w) :
    (List.range n).foldl (fun a w => if p w then a + 2 ^ w else a) 0 = m % 2 ^ n := by
  induction n with
  | zero => simp [Nat.mod_one]
  | succ n ih =>
    rw [List.range_succ, List.foldl_append, List.foldl_cons, List.foldl_nil, ih fun w hw => hp w (by omega),
      hp n (by omega), Nat.mod_pow_succ, bit, Nat.testBit_eq_decide_div_mod_eq]
    obtain h | h := Nat.mod_two_eq_zero_or_one (m / 2 ^ n) <;> simp [h]

/-! ### A line and its bytes (R298) -/

theorem plineBytes_length (l : PLine) : (plineBytes l).length = 64 := by
  rw [plineBytes, List.length_map, List.length_range]

theorem plineBytes_word (l : PLine) {w : Nat} (hw : w < 16) :
    ((plineBytes l).drop (4 * w)).take 4 =
      (List.range 4).map fun i => (BitVec.ofNat 8 (l.1.toNat >>> (8 * (4 * w + i))), bit l.2 ((4 * w + i) / 4)) :=
  take_drop_map_range _ (by omega)

/-- The bytes of a word carry the word's mark. -/
theorem any_plineBytes_word (l : PLine) {w : Nat} (hw : w < 16) :
    (((plineBytes l).drop (4 * w)).take 4).any (·.2) = bit l.2 w := by
  have hplace : ∀ i, i < 4 → (4 * w + i) / 4 = w := fun i hi => by omega
  rw [plineBytes_word l hw]
  simp only [List.range_succ, List.range_zero, List.nil_append, List.cons_append, List.map_cons, List.map_nil,
    List.any_cons, List.any_nil, hplace 0 (by decide), hplace 1 (by decide), hplace 2 (by decide), hplace 3 (by decide),
    Bool.or_false, Bool.or_self]

/-- A line comes back from its bytes and marks. -/
theorem plineOf_plineBytes {l : PLine} (h : l.2 < 2 ^ 16) : plineOf (plineBytes l) = l := by
  have hbytes : (plineBytes l).map (·.1) = (List.range 64).map fun i => BitVec.ofNat 8 (l.1.toNat >>> (8 * i)) := by
    rw [plineBytes, List.map_map]
    rfl
  have hsize : l.1.toNat < 256 ^ 64 := by
    rw [show (256 : Nat) = 2 ^ 8 from rfl, ← Nat.pow_mul]
    exact l.1.isLt
  have hline : lineOf ((plineBytes l).map (·.1)) = l.1 := by
    rw [lineOf, hbytes, leNat_bytes, Nat.mod_eq_of_lt hsize, BitVec.ofNat_toNat,
      BitVec.setWidth_eq]
  rw [plineOf, hline, foldl_bits 16 l.2 _ fun w hw => any_plineBytes_word l hw, Nat.mod_eq_of_lt h]

/-! ### Marks of whole words (R299) -/

/-- In core and accumulator memory a mark covers a word of four bytes. -/
def WordMarked (a : Nat) : Prop := hbmEnd ≤ a ∧ a < 0x010200000000

theorem granule_of_wordMarked {a : Nat} (h : WordMarked a) : granule a = 4 := by
  rw [granule, if_neg (Nat.not_lt.mpr h.1), if_pos h.2]

/-- A word written whole is poisoned where one of its bytes is. -/
theorem get_markPoison_word (pz : SMap Bool) {pa n k : Nat} (bs : List Bool) (hpa : WordMarked pa) (h4 : pa % 4 = 0)
    (hlen : bs.length = 4 * n) (hk : k < n) :
    SMap.get false (markPoison pz pa bs) (pa + 4 * k) = ((bs.drop (4 * k)).take 4).any id := by
  have hempty : bs.isEmpty = false := by
    rw [List.isEmpty_eq_false_iff]
    rintro rfl
    simp only [List.length_nil] at hlen
    omega
  have hcount : (pa + bs.length - 1) / 4 + 1 - pa / 4 = n := by omega
  have hword : ∀ i, (pa / 4 + i) * 4 = pa + 4 * i := fun i => by omega
  simp only [markPoison, granule_of_wordMarked hpa, hempty, Bool.false_eq_true, if_false, hcount, hword]
  have hfold : ∀ m i, i ∈ List.range n →
      SMap.set false m (pa + 4 * i)
        (((bs.drop (max (pa + 4 * i) pa - pa)).take (min (pa + 4 * i + 4) (pa + bs.length) - max (pa + 4 * i) pa)).any id ||
          decide (min (pa + 4 * i + 4) (pa + bs.length) - max (pa + 4 * i) pa < 4) && SMap.get false m (pa + 4 * i)) =
      SMap.set false m (pa + 4 * i) (((bs.drop (4 * i)).take 4).any id) := fun m i hi => by
    have hi' := List.mem_range.mp hi
    have hfrom : max (pa + 4 * i) pa - pa = 4 * i := by omega
    have hsize : min (pa + 4 * i + 4) (pa + bs.length) - max (pa + 4 * i) pa = 4 := by omega
    rw [hfrom, hsize, decide_eq_false (by decide), Bool.false_and, Bool.or_false]
  rw [foldl_congr_on _ _ _ hfold]
  exact get_foldl_set false (fun i => pa + 4 * i) _ (fun i j (h : pa + 4 * i = pa + 4 * j) => by omega) pz n k hk

theorem poisoned_writeP_word (s : State) {pa n k r : Nat} (bs : List (Byte × Bool)) (hpa : WordMarked pa) (h4 : pa % 4 = 0)
    (hlen : bs.length = 4 * n) (hk : k < n) (hr : r < 4) (hin : WordMarked (pa + (4 * k + r))) :
    poisoned (writeP s pa bs) (pa + (4 * k + r)) = ((bs.drop (4 * k)).take 4).any (·.2) := by
  have hbase : (pa + (4 * k + r)) / 4 * 4 = pa + 4 * k := by omega
  rw [poisoned, granule_of_wordMarked hin, hbase]
  exact (get_markPoison_word s.poison _ hpa h4 (by simpa using hlen) hk).trans (by
    rw [← List.map_drop, ← List.map_take, List.any_map]
    rfl)

/-- A line written in word-marked memory reads back. -/
theorem readLine_writeLine_same (s : State) {pa : Nat} {l : PLine} (hlo : hbmEnd ≤ pa) (hhi : pa + 64 ≤ 0x010200000000)
    (h4 : pa % 4 = 0) (hl : l.2 < 2 ^ 16) : readLine (writeLine s pa l) pa = l := by
  have hbyte : ∀ i, i < 64 → (readByte (writeLine s pa l) (pa + i), poisoned (writeLine s pa l) (pa + i)) =
      (BitVec.ofNat 8 (l.1.toNat >>> (8 * i)), bit l.2 (i / 4)) := fun i hi => by
    have hvalue : readByte (writeLine s pa l) (pa + i) = BitVec.ofNat 8 (l.1.toNat >>> (8 * i)) := by
      rw [writeLine, readByte_writeP_inside _ _ _ _ (by rwa [plineBytes_length])]
      simp [plineBytes, hi]
    have hmark : poisoned (writeLine s pa l) (pa + i) = bit l.2 (i / 4) := by
      have hplace : pa + i = pa + (4 * (i / 4) + i % 4) := by omega
      rw [hplace]
      exact (poisoned_writeP_word s (n := 16) _ ⟨hlo, by omega⟩ h4 (plineBytes_length l) (by omega) (by omega)
        ⟨by omega, by omega⟩).trans (any_plineBytes_word l (by omega))
    rw [hvalue, hmark]
  have hbytes : readP (writeLine s pa l) pa 64 = plineBytes l :=
    List.map_congr_left fun i hi => hbyte i (List.mem_range.mp hi)
  rw [readLine, hbytes, plineOf_plineBytes hl]

/-! ### Lines of a core's memory (R112, R285) -/

theorem elandPos_lt {u : Nat} (h : u < 36) : elandPos u < 64 := by
  unfold elandPos
  repeat' split
  all_goals omega

theorem coreLine_setCoreLine_same (s : State) {u n : Nat} {l : PLine} (hu : u < 36) (hn : n < 0x30000) (hl : l.2 < 2 ^ 16) :
    coreLine (setCoreLine s u n l) u n = l := by
  have hp : posOf u < 64 := by
    rw [posOf, if_pos (by omega)]
    exact elandPos_lt hu
  refine readLine_writeLine_same s ?_ ?_ ?_ hl <;> simp only [corePa, coreBase, hbmEnd] <;> omega

theorem sameMemoryBut_setCoreLine (s : State) (u n : Nat) (l : PLine) :
    SameMemoryBut (corePa u (64 * n)) 64 s (setCoreLine s u n l) := by
  have h := sameMemoryBut_writeP s (corePa u (64 * n)) (plineBytes l)
  rwa [plineBytes_length] at h

end Sys2Proof.Machine
end

