-- ==== Sys2Proof/Proofs/ElandUnits.lean ====
section
/-!
SUPPORT. "Eland cores", the units: what MMA, ACCRD, the element instructions and the transfer instructions do at their turn,
where an MMA stands in its engines, and the statements about them.
-/
namespace Sys2Proof.Machine

/-! ### A full queue holds the needle (R111) -/

theorem held_of_full {op c : Nat} {n : Needle} {w : W128} {s : State} {x : Ctx} {slot : Nat} {t : State}
    {fx : Ctx → State → Eff} (hop : opcodeOf w.toNat = op) (h : elandTurn c n w s = some (x, slot, t))
    (hfull : fx x t = .full) :
    ∃ u, issueE op c n w fx s = .next u ∧ (getN (getE u c) n).held = some w.toNat ∧ OnlyEland c t u := by
  obtain ⟨-, rfl, rfl, hw⟩ := elandTurn_ctx h
  obtain ⟨y, hy⟩ := issueE_full h hop hfull
  refine ⟨_, hy, ?_, onlyEland_updN ..⟩
  rw [getE_updN_same, getN_setN_same, hw]

/-! ### MMA (R86, R110, R137) -/

/-- The engine or half that an MMA names is full. -/
def mmaFull (x : Ctx) (t : State) (m : Nat) : Bool :=
  decide (mmaPlaces t x.c m ≤ queuedOps (getPart (getEng t (4 * x.c + m)) (halfIdx (mmaHalf x.w))))

/-- What an MMA issued at a DCC leaves at engine `m` of those it names, as `id`. -/
def mmaEntry (x : Ctx) (t : State) (id m issued : Nat) : Mma :=
  { id := id, needle := x.n.code, dom := x.d, tile := mmaTile x.w, cont := mmaCont x.w, close := mmaClose x.w,
    fmtA := mmaFmtA x.w, fmtB := mmaFmtB x.w, dir := mmaDir x.w, k := mmaK x.w
    g := min (fmtG (mmaFmtA x.w)) (fmtG (mmaFmtB x.w)), m1 := mmaM1 x.w, n1 := mmaN1 x.w, aLine := x.ea (mmaALine x.w)
    aStride := mmaStride x.w, got := 0, opened := false, lead := (mmaEngines x.w).head? == some m, offset := x.off
    word := x.w
    entry := entryShared t x.c (halfIdx (mmaHalf x.w)) (mmaEngines x.w) (getD t x.d).dcc + (mmaEngines x.w).idxOf m
    issued := issued }

/-- An MMA joins engine `m`, whose tile takes its class where it begins anew. -/
def mmaJoin (x : Ctx) (t : State) (id : Nat) (s : State) (m : Nat) : State :=
  let k := tileKey (4 * x.c + m) (halfIdx (mmaHalf x.w)) (mmaTile x.w)
  updPart (if mmaCont x.w then s else setTile s k { getTile s k with issInt := fmtClass (mmaFmtA x.w) == .integer })
    (4 * x.c + m) (halfIdx (mmaHalf x.w)) fun p => { p with ops := p.ops ++ [mmaEntry x t id m (getD s x.d).dcc], idle := false }

/-- An MMA has joined every engine it names. -/
def mmaJoined (x : Ctx) (t : State) : State :=
  (mmaEngines x.w).foldl (mmaJoin x t t.nextId) { t with nextId := t.nextId + 1 }

theorem fxMma_fault {x : Ctx} {t : State} {f : Nat} (h : mmaCheck x t = some f) : fxMma x t = .fault f := by
  simp only [fxMma, h]

theorem fxMma_full {x : Ctx} {t : State} (h : mmaCheck x t = none) (hfull : (mmaEngines x.w).any (mmaFull x t) = true) :
    fxMma x t = .full := by
  simp only [fxMma, h]
  exact if_pos hfull

theorem fxMma_ok {x : Ctx} {t : State} (h : mmaCheck x t = none) (hroom : (mmaEngines x.w).any (mmaFull x t) = false) :
    fxMma x t = .ok (settle x.c (halfIdx (mmaHalf x.w)) 20 (mmaJoined x t)) := by
  simp only [fxMma, h]
  have hnot : ¬((mmaEngines x.w).any (mmaFull x t) = true) := by rw [hroom]; decide
  exact if_neg hnot

/-! ### ACCRD (R88, R110, R139) -/

/-- The read that an ACCRD leaves at its engine, with what its issue latched; `go` says that it starts at once. -/
def accRead (x : Ctx) (t : State) (go : Bool) : AccRead :=
  let y := getN (getE t x.c) x.n
  { id := t.nextId, needle := x.n.code, dom := x.d, tile := accTile x.w, half := accHalf x.w, word := x.w
    dst := x.ea (accDst x.w), aux := x.ea (accAux x.w), width := y.width, row := y.row, col := y.col
    step := rngStep t (accStrand x.w), dstep := dataStep t (accStrand x.w)
    tag := if accPush x.w then some x.tag else none, offset := x.off, pol := nanPolicy t, issued := (getD t x.d).dcc
    start := if go then some (getD t x.d).dcc else none }

/-- Every earlier read of the ACCRD's domain has taken its last row. -/
def accGo (x : Ctx) (t : State) : Bool :=
  (getEng t (4 * x.c + accEng x.w)).reads.all fun r => decide (r.dom ≠ x.d) || r.taken == 64

/-- Where the entry that an ACCRD pushes would end beyond its slice. -/
def accStashFull (x : Ctx) (t : State) : Option (Nat × Nat) :=
  if accPush x.w then stashFull t x.c (accStrand x.w) (imageLines (accFmtS x.w)) 1 else none

theorem fxAccrd_fault {x : Ctx} {t : State} {f : Nat} (h : accCheck x t = some f) : fxAccrd x t = .fault f := by
  simp only [fxAccrd, h]

theorem fxAccrd_stashFull {x : Ctx} {t : State} {a b : Nat} (h : accCheck x t = none) (hs : accStashFull x t = some (a, b)) :
    fxAccrd x t = .faultD 5 a b := by
  rw [accStashFull] at hs
  simp only [fxAccrd, h, hs]

/-- The read queue takes the read, and a push beside it takes its place on the lane; the position register passes a tile. -/
theorem fxAccrd_room {x : Ctx} {t : State} (h : accCheck x t = none) (hs : accStashFull x t = none)
    (hroom : accGo x t = true ∨ queuedReads (getEng t (4 * x.c + accEng x.w)) x.d < readPlaces t x.c) :
    ∃ a b d, fxAccrd x t = .ok (setEng { updN t x.c x.n (nextTiles 1) with
        nextId := t.nextId + 1, depth := a, xfers := b, stashQ := d } (4 * x.c + accEng x.w)
      { getEng t (4 * x.c + accEng x.w) with
        reads := (getEng t (4 * x.c + accEng x.w)).reads ++ [accRead x t (accGo x t)] }) := by
  have hnotfull : ¬((!accGo x t && decide (readPlaces t x.c ≤ queuedReads (getEng t (4 * x.c + accEng x.w)) x.d)) = true) := by
    simp only [Bool.and_eq_true, Bool.not_eq_true', decide_eq_true_eq, not_and, Nat.not_le]
    exact fun hgo => hroom.resolve_left (by rw [hgo]; decide)
  rw [accStashFull] at hs
  simp only [fxAccrd, h, hs]
  rw [accGo] at hnotfull
  rw [if_neg hnotfull]
  by_cases hpush : accPush x.w = true
  · simp only [hpush, if_true]
    exact ⟨_, _, _, by simp only [accRead, hpush, if_true]; rfl⟩
  · simp only [hpush]
    exact ⟨_, _, _, by simp only [accRead, hpush]; rfl⟩

theorem fxAccrd_full {x : Ctx} {t : State} (h : accCheck x t = none) (hs : accStashFull x t = none)
    (hgo : accGo x t = false) (hfull : readPlaces t x.c ≤ queuedReads (getEng t (4 * x.c + accEng x.w)) x.d) :
    fxAccrd x t = .full := by
  rw [accStashFull] at hs
  rw [accGo] at hgo
  simp only [fxAccrd, h, hs, hgo, decide_eq_true hfull]
  rfl

/-- An accumulator read that its engine takes, with what its issue leaves alone. -/
theorem exec_accrd_room {c : Nat} {n : Needle} {w : W128} {s : State} {x : Ctx} {slot : Nat} {t : State}
    (hop : opcodeOf w.toNat = 0x14) (h : elandTurn c n w s = some (x, slot, t)) (hcheck : accCheck x t = none)
    (hs : accStashFull x t = none)
    (hroom : accGo x t = true ∨ queuedReads (getEng t (4 * x.c + accEng x.w)) x.d < readPlaces t x.c) :
    ∃ v, exec (.accrd c n w) s = .next (elandDone x slot v) ∧
      (getEng v (4 * x.c + accEng x.w)).reads =
        (getEng t (4 * x.c + accEng x.w)).reads ++ [accRead x t (accGo x t)] ∧
      getN (getE v x.c) x.n = nextTiles 1 (getN (getE t x.c) x.n) ∧ v.mem = t.mem ∧ v.par = t.par ∧ v.doms = t.doms := by
  obtain ⟨a, b, d, hfx⟩ := fxAccrd_room hcheck hs hroom
  refine ⟨_, issueE_ok h hop hfx, congrArg Engine.reads (getEng_setEng_same ..), ?_, rfl, rfl, rfl⟩
  exact (congrArg (getN · x.n) (getE_updN_same t x.c x.n _)).trans (getN_setN_same ..)

/-- Settles O16: the checks, the room and the stash decide which of the named outcomes comes. -/
theorem engineInstructionsComplete : Obligations.EngineInstructionsComplete := by
  refine ⟨fun c n w s x slot t hop h => ?mma, fun c n w s x slot t hop h => ?accrd⟩ <;>
    obtain ⟨-, rfl, rfl, hw⟩ := elandTurn_ctx h
  case mma =>
    simp only [← hw]
    refine ⟨fun hcheck hroom => ⟨_, fxMma_ok hcheck hroom, issueE_ok h hop (fxMma_ok hcheck hroom)⟩,
      fun hcheck hfull => ?_, fun f hcheck => issueE_fault h hop (fxMma_fault hcheck)⟩
    rw [hw]
    exact held_of_full hop h (fxMma_full hcheck hfull)
  case accrd =>
    simp only [← hw]
    refine ⟨fun hcheck hs hroom => ?_, fun hcheck hs hfull => ?_, fun a b hcheck hs => ?_,
      fun f hcheck => issueE_fault h hop (fxAccrd_fault hcheck)⟩
    · have hroom' := (Bool.or_eq_true _ _).mp hroom
      rw [decide_eq_true_eq] at hroom'
      obtain ⟨v, hexec, hreads, hpos, hmem, hpar, hdoms⟩ := exec_accrd_room hop h hcheck hs hroom'
      refine ⟨v, accRead x t (accGo x t), hexec, hreads, rfl, rfl, rfl, rfl, rfl, rfl, rfl, rfl, rfl, rfl, rfl, rfl, ?_,
        sameMemory_of_eq hmem, hpar, hdoms⟩
      rw [hpos]
      rfl
    · obtain ⟨hgo, hq⟩ := (Bool.or_eq_false_iff).mp hfull
      rw [decide_eq_false_iff_not, Nat.not_lt] at hq
      rw [hw]
      exact held_of_full hop h (fxAccrd_full hcheck hs hgo hq)
    · obtain ⟨y, hy⟩ := issueE_turn fxAccrd h
      rw [fxAccrd_stashFull hcheck hs, hop] at hy
      exact hy

/-! ### Where an MMA stands in its engines (R86, R87) -/

@[simp] theorem getPart_setPart_same (x : Engine) (h : Nat) (p : EngPart) : getPart (setPart x h p) h = p := by
  by_cases h0 : (h == 0) = true <;> simp [getPart, setPart, h0]

theorem getEng_updPart_same (s : State) (e h : Nat) (f : EngPart → EngPart) :
    getEng (updPart s e h f) e = setPart (getEng s e) h (f (getPart (getEng s e) h)) := getEng_setEng_same ..

theorem getEng_updPart_other (s : State) {e j : Nat} (h : Nat) (f : EngPart → EngPart) (hj : e ≠ j) :
    getEng (updPart s e h f) j = getEng s j := getEng_setEng_other s _ hj

theorem mmaJoin_eq (x : Ctx) (t : State) (id : Nat) (s : State) (m : Nat) :
    mmaJoin x t id s m = { s with engines := (mmaJoin x t id s m).engines, tiles := (mmaJoin x t id s m).tiles } := by
  unfold mmaJoin
  split <;> rfl

theorem getEng_mmaJoin_same (x : Ctx) (t : State) (id : Nat) (s : State) (m : Nat) :
    getPart (getEng (mmaJoin x t id s m) (4 * x.c + m)) (halfIdx (mmaHalf x.w)) =
      { getPart (getEng s (4 * x.c + m)) (halfIdx (mmaHalf x.w)) with
        ops := (getPart (getEng s (4 * x.c + m)) (halfIdx (mmaHalf x.w))).ops ++ [mmaEntry x t id m (getD s x.d).dcc]
        idle := false } := by
  rw [mmaJoin, getEng_updPart_same, getPart_setPart_same]
  split <;> rfl

theorem getEng_mmaJoin_other (x : Ctx) (t : State) (id : Nat) (s : State) {m e : Nat} (h : e ≠ 4 * x.c + m) :
    getEng (mmaJoin x t id s m) e = getEng s e := by
  rw [mmaJoin, getEng_updPart_other _ _ _ (Ne.symm h)]
  split <;> rfl

/-- From `s` to `u` nothing has changed but engines and tiles. -/
def OnlyEngines (s u : State) : Prop := u = { s with engines := u.engines, tiles := u.tiles }

theorem onlyEngines_foldl_mmaJoin (x : Ctx) (t : State) (id : Nat) (es : List Nat) (s : State) :
    OnlyEngines s (es.foldl (mmaJoin x t id) s) :=
  foldl_keeps (OnlyEngines s) _ (fun u m (h : OnlyEngines s u) => by
    rw [OnlyEngines, mmaJoin_eq, h]) es s rfl

/-- Engines that an MMA does not name stay as they were. -/
theorem getEng_foldl_mmaJoin_other (x : Ctx) (t : State) (id : Nat) {e : Nat} (es : List Nat) (s : State)
    (h : ∀ m ∈ es, e ≠ 4 * x.c + m) : getEng (es.foldl (mmaJoin x t id) s) e = getEng s e := by
  induction es generalizing s with
  | nil => rfl
  | cons m es ih =>
    rw [List.foldl_cons, ih _ fun k hk => h k (List.mem_cons_of_mem _ hk),
      getEng_mmaJoin_other x t id s (h m List.mem_cons_self)]

/-- An engine that an MMA names holds it behind what it held. -/
theorem ops_foldl_mmaJoin (x : Ctx) (t : State) (id : Nat) {m : Nat} (es : List Nat) (hnodup : es.Nodup) (s : State)
    (hm : m ∈ es) :
    (getPart (getEng (es.foldl (mmaJoin x t id) s) (4 * x.c + m)) (halfIdx (mmaHalf x.w))).ops =
      (getPart (getEng s (4 * x.c + m)) (halfIdx (mmaHalf x.w))).ops ++ [mmaEntry x t id m (getD s x.d).dcc] := by
  induction es generalizing s with
  | nil => exact absurd hm List.not_mem_nil
  | cons k es ih =>
    obtain ⟨hk, hes⟩ := List.nodup_cons.mp hnodup
    rw [List.foldl_cons]
    by_cases hkm : m = k
    · subst hkm
      rw [getEng_foldl_mmaJoin_other x t id es _ fun j hj he => hk (by rwa [show m = j by omega]), getEng_mmaJoin_same]
    · have hdoms : (mmaJoin x t id s k).doms = s.doms := by rw [mmaJoin_eq]
      rw [ih hes _ ((List.mem_cons.mp hm).resolve_left hkm), getEng_mmaJoin_other x t id s (by omega), getD_of_doms hdoms]

theorem mmaEngines_nodup (w : Nat) : (mmaEngines w).Nodup := by
  have hnodup : ((List.range 4).filter fun m => bit (mmaEng w) m).Nodup := List.nodup_range.filter _
  rw [mmaEngines]
  split
  · exact hnodup
  · exact List.pairwise_reverse.mpr (hnodup.imp fun hne => Ne.symm hne)

/-- With no MMA without products in front of an engine there is nothing to settle. -/
theorem settle_of_none {u h : Nat} {s : State} (hne : ∀ m, m < 4 → ∀ o ∈ (getPart (getEng s (4 * u + m)) h).ops, o.k ≠ 0)
    (n : Nat) : settle u h n s = s := by
  have hnone : nextEmpty s u h = none := by
    rw [nextEmpty, List.head?_eq_none_iff, List.filterMap_eq_nil_iff]
    intro m hm
    split
    · next op _ hops =>
      exact if_neg (by simpa using hne m (List.mem_range.mp hm) op (by rw [hops]; exact List.mem_cons_self))
    · rfl
  cases n with
  | zero => rfl
  | succ n => rw [settle, hnone]

/-- Engines with nothing waiting have room. -/
theorem mmaFull_eq_false {x : Ctx} {t : State} {m : Nat}
    (h : (getPart (getEng t (4 * x.c + m)) (halfIdx (mmaHalf x.w))).ops = []) : mmaFull x t m = false := by
  rw [mmaFull, queuedOps, h, decide_eq_false_iff_not, mmaPlaces]
  split <;> exact Nat.not_succ_le_zero _

/-- Settles O17: engines with nothing waiting take the MMA, and no MMA without products is there to settle. -/
theorem mmaJoinsEngines : Obligations.MmaJoinsEngines := by
  intro c n w s x slot t hop h hcheck hk hempty hproducts
  obtain ⟨-, rfl, rfl, hw⟩ := elandTurn_ctx h
  simp only [← hw] at hk hempty hproducts ⊢
  have hroom : (mmaEngines x.w).any (mmaFull x t) = false := by
    rw [List.any_eq_false]
    exact fun m hm => by rw [mmaFull_eq_false (hempty m hm)]; decide
  have hjoined : ∀ m ∈ mmaEngines x.w, (getPart (getEng (mmaJoined x t) (4 * x.c + m)) (halfIdx (mmaHalf x.w))).ops =
      [mmaEntry x t t.nextId m (getD t x.d).dcc] := fun m hm => by
    rw [mmaJoined, ops_foldl_mmaJoin x _ _ _ (mmaEngines_nodup x.w) _ hm]
    exact congrArg (· ++ _) (hempty m hm)
  have hothers : ∀ e, (∀ m ∈ mmaEngines x.w, e ≠ 4 * x.c + m) → getEng (mmaJoined x t) e = getEng t e := fun e he =>
    getEng_foldl_mmaJoin_other x _ _ _ _ he
  have hsettled : settle x.c (halfIdx (mmaHalf x.w)) 20 (mmaJoined x t) = mmaJoined x t := by
    refine settle_of_none (fun m hm o ho => ?_) 20
    by_cases hnamed : m ∈ mmaEngines x.w
    · rw [hjoined m hnamed, List.mem_singleton] at ho
      rw [ho]
      exact hk
    · rw [hothers _ fun k hk' he => hnamed (by rwa [show m = k by omega])] at ho
      exact hproducts m hm o ho
  have honly : OnlyEngines { t with nextId := t.nextId + 1 } (mmaJoined x t) := onlyEngines_foldl_mmaJoin x _ _ _ _
  have hfx : fxMma x t = .ok (mmaJoined x t) := (fxMma_ok hcheck hroom).trans (congrArg Eff.ok hsettled)
  refine ⟨elandDone x slot (mmaJoined x t), issueE_ok h hop hfx, fun m hm =>
      ⟨mmaEntry x t t.nextId m (getD t x.d).dcc, ?_, rfl, rfl, rfl, rfl, rfl, rfl, rfl, rfl, rfl, rfl, rfl, rfl, rfl⟩,
    fun e he => ?_, sameMemory_of_eq ?_, ?_, ?_, ?_, ?_⟩
  · rw [elandDone, getEng_updN, hjoined m hm]
  · rw [elandDone, getEng_updN, hothers e he]
  · rw [elandDone, updN_mem, honly]
  · rw [elandDone, updN_par, honly]
  · rw [elandDone, updN_doms, honly]
  · rw [elandDone, updN_xfers, honly]
  · rw [honly]
    rfl

/-! ### The element unit (R110, R132, R143 to R146) -/

/-- Every earlier element instruction of the domain has read its last row. -/
def elemGo (x : Ctx) (t : State) : Bool :=
  (getE t x.c).elems.all fun j => decide (j.dom ≠ x.d) || j.next == elemRows j

/-- The element unit takes one more instruction of the domain. -/
def elemRoom (x : Ctx) (t : State) : Bool := elemGo x t || decide (queuedElems (getE t x.c) x.d < elemPlaces (getE t x.c))

/-- The element instruction with what its issue latches. -/
def elemJob (x : Ctx) (t : State) (src src2 dst : Nat) : ElemJob :=
  let y := getN (getE t x.c) x.n
  { word := x.w, needle := x.n.code, dom := x.d, offset := x.off, src := src, src2 := src2, dst := dst, width := y.width
    row := y.row, col := y.col, strand := y.strand, step := rngStep t y.strand, pol := nanPolicy t
    issued := (getD t x.d).dcc, start := if elemGo x t then some (getD t x.d).dcc else none }

/-- The unit holds the instruction, and the needle's position is past its tiles. -/
def elemJoined (x : Ctx) (t : State) (src src2 dst tiles : Nat) : State :=
  updN (setE t x.c { getE t x.c with elems := (getE t x.c).elems ++ [elemJob x t src src2 dst] }) x.c x.n (nextTiles tiles)

theorem startElem_eq (x : Ctx) (src src2 dst tiles : Nat) (t : State) : startElem x src src2 dst tiles t =
    if !elemGo x t && decide (elemPlaces (getE t x.c) ≤ queuedElems (getE t x.c) x.d) then .full
    else .ok (elemJoined x t src src2 dst tiles) := rfl

theorem startElem_ok {x : Ctx} {t : State} (h : elemRoom x t = true) (src src2 dst tiles : Nat) :
    startElem x src src2 dst tiles t = .ok (elemJoined x t src src2 dst tiles) := by
  rw [startElem_eq, if_neg]
  rw [elemRoom, Bool.or_eq_true, decide_eq_true_eq] at h
  rw [Bool.and_eq_true, decide_eq_true_eq]
  rintro ⟨hgo, hfull⟩
  rcases h with h | h
  · rw [h] at hgo
    exact absurd hgo (by decide)
  · exact absurd hfull (Nat.not_le.mpr h)

theorem startElem_full {x : Ctx} {t : State} (h : elemRoom x t = false) (src src2 dst tiles : Nat) :
    startElem x src src2 dst tiles t = .full := by
  obtain ⟨hgo, hq⟩ := Bool.or_eq_false_iff.mp h
  rw [decide_eq_false_iff_not, Nat.not_lt] at hq
  rw [startElem_eq, hgo, decide_eq_true hq]
  rfl

/-- An element instruction at its turn: its check, then the room of the unit. -/
theorem element_turn {op c : Nat} {n : Needle} {w : W128} {s : State} {x : Ctx} {slot : Nat} {t : State} {fx : Ctx → State → Eff}
    {check : Option Nat} {src src2 dst tiles : Nat} (hop : opcodeOf w.toNat = op) (h : elandTurn c n w s = some (x, slot, t))
    (hfault : ∀ k, check = some k → fx x t = .fault k)
    (hstart : check = none → fx x t = startElem x src src2 dst tiles t) :
    (check = none → elemRoom x t = true →
      issueE op c n w fx s = .next (elandDone x slot (elemJoined x t src src2 dst tiles))) ∧
    (check = none → elemRoom x t = false →
      ∃ u, issueE op c n w fx s = .next u ∧ (getN (getE u c) n).held = some x.w ∧ OnlyEland c t u) ∧
    (∀ k, check = some k → issueE op c n w fx s = .next (issueFault t x k)) := by
  obtain ⟨-, -, -, hw⟩ := elandTurn_ctx h
  rw [hw]
  exact ⟨fun hc hr => issueE_ok h hop ((hstart hc).trans (startElem_ok hr ..)),
    fun hc hr => held_of_full hop h ((hstart hc).trans (startElem_full hr ..)), fun k hc => issueE_fault h hop (hfault k hc)⟩

theorem fxConvert_fault {cvt : Bool} {x : Ctx} {t : State} (k : Nat) (h : elCheck x t cvt = some k) :
    fxConvert cvt x t = .fault k := by simp only [fxConvert, h]

theorem fxConvert_start {cvt : Bool} {x : Ctx} {t : State} (h : elCheck x t cvt = none) :
    fxConvert cvt x t = startElem x (x.ea (elSrc x.w)) 0 (x.ea (elDst x.w)) (elCount x.w) t := by simp only [fxConvert, h]

theorem fxDact_fault {x : Ctx} {t : State} (k : Nat) (h : dactCheck x t = some k) : fxDact x t = .fault k := by
  simp only [fxDact, h]

theorem fxDact_start {x : Ctx} {t : State} (h : dactCheck x t = none) :
    fxDact x t = startElem x (x.ea (daG x.w)) (x.ea (daS x.w)) (x.ea (daD x.w)) (daCount x.w) t := by simp only [fxDact, h]

theorem fxAmax_fault {x : Ctx} {t : State} (k : Nat)
    (h : firstFault [(amCount x.w == 0 || !fmtValid (amFmt x.w), 2), (x.addrBad, 0x12)] = some k) : fxAmax x t = .fault k := by
  simp only [fxAmax, h]

theorem fxAmax_start {x : Ctx} {t : State}
    (h : firstFault [(amCount x.w == 0 || !fmtValid (amFmt x.w), 2), (x.addrBad, 0x12)] = none) :
    fxAmax x t = startElem x (x.ea (amSrc x.w)) 0 (x.ea (amDst x.w)) 0 t := by simp only [fxAmax, h]

/-- Folding a magnitude into a monitor slot changes monitor slots alone (R171). -/
theorem foldAmax_eq (s : State) (tensor : Nat) (strand : Option Nat) (xs : List PV) :
    foldAmax s tensor strand xs = { s with mons := (foldAmax s tensor strand xs).mons } := by
  unfold foldAmax
  split
  · rfl
  · extract_lets ok x a
    split <;> rfl

/-- AMAX writes its line; what it folds into a monitor slot touches no byte (R145, R171). -/
theorem writeAmax_mem (s : State) (u : Nat) (j : ElemJob) :
    (writeAmax s u j).mem = (setCoreLine s u j.dst (BitVec.ofNat 512 j.amax, if j.bad then 1 else 0)).mem ∧
      (writeAmax s u j).poison = (setCoreLine s u j.dst (BitVec.ofNat 512 j.amax, if j.bad then 1 else 0)).poison := by
  unfold writeAmax
  extract_lets v
  split
  · rw [foldAmax_eq]
    exact ⟨rfl, rfl⟩
  · exact ⟨rfl, rfl⟩

/-- A line reads the memory and its marks alone. -/
theorem readLine_of_mem {s t : State} (hmem : t.mem = s.mem) (hpoison : t.poison = s.poison) (pa : Nat) :
    readLine t pa = readLine s pa := by
  simp only [readLine, readP, readByte, poisoned, hmem, hpoison]

/-- Settles O18: one argument for the four forms, over what each of them checks and starts; and AMAX's line. -/
theorem elementInstructionsComplete : Obligations.ElementInstructionsComplete := by
  refine ⟨?forms, fun s u j hu hdst => ?line⟩
  case forms =>
    simp only [List.forall_mem_cons, List.not_mem_nil, false_implies, implies_true, and_true]
    refine ⟨?act, ?cvt, ?dact, ?amax⟩ <;> intro c n w s x slot t hop h <;> obtain ⟨-, rfl, rfl, hw⟩ := elandTurn_ctx h <;>
      simp only [← hw]
    case act => exact element_turn hop h fxConvert_fault fxConvert_start
    case cvt => exact element_turn hop h fxConvert_fault fxConvert_start
    case dact => exact element_turn hop h fxDact_fault fxDact_start
    case amax => exact element_turn hop h fxAmax_fault fxAmax_start
  case line =>
    obtain ⟨hmem, hpoison⟩ := writeAmax_mem s u j
    have hline : (BitVec.ofNat 512 j.amax, if j.bad then 1 else 0).2 < 2 ^ 16 := by
      simp only
      split <;> decide
    refine ⟨?_, fun a ha => ?_⟩
    · exact (readLine_of_mem hmem hpoison _).trans (coreLine_setCoreLine_same s hu hdst hline)
    · exact (sameMemory_of_eq hmem a).trans (sameMemoryBut_setCoreLine s u j.dst _ a ha)

end Sys2Proof.Machine
end

