-- ==== Sys2Proof/Proofs/ElandTransfers.lean ====
section
/-!
SUPPORT. "Eland cores", the Stash, Round, memory and mesh instructions: where their checks pass they begin the operation that
the instruction names.
-/
namespace Sys2Proof.Machine

theorem fxSpush_ok {x : Ctx} {t : State} (h : spCheck x t = none)
    (hs : stashFull t x.c (spStrand x.w) (imageLines (spFmt x.w)) (spCount x.w) = none) :
    fxSpush x t = .ok (pushTiles t x.c x.n.code x.d x.tag (spStrand x.w) (spTag x.w) (spFmt x.w) (spCount x.w)
      (x.ea (spLine x.w)) x.w x.off) := by simp only [fxSpush, h, hs]

theorem fxSpop_ok {x : Ctx} {t : State} (h : spCheck x t = none) :
    fxSpop x t = .ok (popTiles t x.c x.n.code x.d x.tag (spStrand x.w) (spTag x.w) (spFmt x.w) (spCount x.w)
      (x.ea (spLine x.w)) x.w x.off none) := by simp only [fxSpop, h]

theorem fxInj_ok {x : Ctx} {t : State} (h : injCheck x t = none)
    (hroom : ((getInj t x.c).filter fun r => r.dom == x.d && r.filled == 0).length < unitQueue t x.c 4) :
    fxInj x t = .ok (setInj t x.c (getInj t x.c ++ [
      { dom := x.d, needle := x.n.code, offset := x.off, cw := injCw x.w, ccw := injCcw x.w, trans := injTrans x.w
        fmt := injFmt x.w, depth := injDepth x.w, hops := injHops x.w, src := x.ea (injSrc x.w), stride := injStride x.w
        count := injCount x.w, filled := 0, lines := [], tile := 0, sent := 0, lead := metaLead (injFmt x.w)
        readyAt := (getD t x.d).dcc + injLatency t x.d (injTrans x.w) }])) := by
  simp only [fxInj, h]
  exact if_neg (Nat.not_le.mpr hroom)

theorem fxTake_ok {x : Ctx} {t : State} (h : takeCheck x = none)
    (hroom : ((getTake t (takeDir x.w) x.c).ops.filter fun o => o.dom == x.d && o.tile == 0 && !o.inTile).length <
      unitQueue t x.c 4) :
    fxTake x t = .ok (setTake t (takeDir x.w) x.c
      { getTake t (takeDir x.w) x.c with ops := (getTake t (takeDir x.w) x.c).ops ++
          [⟨x.d, x.n.code, x.off, x.ea (takeDst x.w), takeStride x.w, takeCount x.w, 0, false⟩] }) := by
  simp only [fxTake, h]
  exact if_neg (Nat.not_le.mpr hroom)

/-- The token of a transfer between a core and the stacks goes to the core's own counter. -/
theorem tokOf_map (en : Bool) (tok p : Nat) : (tokOf en tok).map (fun t => (p, t)) = if en then some (p, tok) else none := by
  cases en <;> rfl

theorem fxLong_ok {x : Ctx} {t : State} (kind : XKind) (hlines : linesBad (tlLines x.w) = false) (haddr : x.addrBad = false) :
    fxLong kind x t =
      let u := if kind == .tst then checkLines t x.c (x.ea (tlLocal x.w)) (tlLines x.w) x.d else t
      .ok (startXfer u (longXfer u x.c x.n.code x.tag x.d kind (64 * tlVline x.w) (x.ea (tlLocal x.w)) (tlLines x.w)
        (if tlTokenEn x.w then some (posOf x.c, tlToken x.w) else none) x.w x.off)
        (if kind == .tst then linesE u x.c (x.ea (tlLocal x.w)) (tlLines x.w) else [])) := by
  simp only [fxLong, hlines, haddr, firstFault, tokOf_map]

theorem fxCore_ok {x : Ctx} {t : State} (put : Bool) (hlines : linesBad (puLines x.w) = false) (haddr : x.addrBad = false)
    (htarget : targetBad (puPos x.w) (puRemote x.w) (puLines x.w) = false) :
    fxCore put x t =
      let u := if put then checkLines t x.c (x.ea (puLocal x.w)) (puLines x.w) x.d else t
      .ok (startXfer u (coreXfer u x.c x.n.code x.tag x.d put (puPos x.w) (x.ea (puLocal x.w)) (puRemote x.w) (puLines x.w)
        (if puTokenEn x.w then some (puToken x.w) else none) x.w x.off)
        (if put then linesE u x.c (x.ea (puLocal x.w)) (puLines x.w) else [])) := by
  simp only [fxCore, hlines, haddr, htarget, Bool.or_self, firstFault, tokOf]

/-- Numbering a tree's next reduction touches no byte that a line reads (R245). -/
theorem linesE_redXfer (s : State) (u needle tag d tree line lines w off c l n : Nat) :
    linesE (redXfer s u needle tag d tree line lines w off).2 c l n = linesE s c l n := rfl

theorem fxRsend_ok {x : Ctx} {t : State} (hlines : linesBad (rsLines x.w) = false) (haddr : x.addrBad = false)
    (htree : treeOk t x.c (rsTree x.w) = true) :
    fxRsend x t =
      let u := checkLines t x.c (x.ea (rsSrc x.w)) (rsLines x.w) x.d
      let r := redXfer u x.c x.n.code x.tag x.d (rsTree x.w) (x.ea (rsSrc x.w)) (rsLines x.w) x.w x.off
      .ok (startXfer r.2 r.1 (linesE r.2 x.c (x.ea (rsSrc x.w)) (rsLines x.w))) := by
  simp only [fxRsend, hlines, haddr, htree, Bool.not_true, Bool.or_self, firstFault, linesE_redXfer]

/-- Settles O19: with the checks passed each form begins its operation, and the needle goes on. -/
theorem transferInstructionsComplete : Obligations.TransferInstructionsComplete := by
  refine ⟨?spush, ?spop, ?inj, ?take, fun st => ?long, fun put => ?core, ?rsend⟩
  case long =>
    cases st <;> intro c n w s x slot t hop h hlines haddr <;> obtain ⟨-, rfl, rfl, hw⟩ := elandTurn_ctx h <;>
      simp only [← hw] at hlines ⊢
    · exact issueE_ok h hop (fxLong_ok .tld hlines haddr)
    · exact issueE_ok h hop (fxLong_ok .tst hlines haddr)
  case core =>
    cases put <;> intro c n w s x slot t hop h hlines haddr htarget <;> obtain ⟨-, rfl, rfl, hw⟩ := elandTurn_ctx h <;>
      simp only [← hw] at hlines htarget ⊢
    · exact issueE_ok h hop (fxCore_ok false hlines haddr htarget)
    · exact issueE_ok h hop (fxCore_ok true hlines haddr htarget)
  all_goals intro c n w s x slot t hop h
  all_goals obtain ⟨-, rfl, rfl, hw⟩ := elandTurn_ctx h
  all_goals simp only [← hw]
  case spush => exact fun hcheck hfull => issueE_ok h hop (fxSpush_ok hcheck hfull)
  case spop => exact fun hcheck => issueE_ok h hop (fxSpop_ok hcheck)
  case inj => exact fun hcheck hroom => issueE_ok h hop (fxInj_ok hcheck hroom)
  case take => exact fun hcheck hroom => issueE_ok h hop (fxTake_ok hcheck hroom)
  case rsend => exact fun hlines haddr htree => issueE_ok h hop (fxRsend_ok hlines haddr htree)

end Sys2Proof.Machine
end

