-- ==== Sys2Proof/Proofs/ChamoisControl.lean ====
section
/-!
SUPPORT. "Chamois cores": the fixed registers, the control instructions, where a core stands after an instruction, and what a
result leaves alone.
-/
namespace Sys2Proof.Machine

/-! ### Registers (R176) -/

theorem readS_zero (y : Cham) : readS y 0 = ⟨0, false⟩ := rfl

theorem readPr_zero (y : Cham) : readPr y 0 = ⟨BitVec.allOnes 128, 0⟩ := rfl

theorem readS_of_ne (y : Cham) {r : Nat} (h : r ≠ 0) : readS y r = SMap.get {} y.s r := by
  rw [readS, beq_false_of_ne h]
  rfl

theorem applyCWrite_s (y : Cham) {r : Nat} (v : SReg) (h : r ≠ 0) :
    applyCWrite y (.s r v) = { y with s := SMap.set {} y.s r v } := by
  rw [applyCWrite, beq_false_of_ne h]
  rfl

theorem readS_applyCWrite_same (y : Cham) {r : Nat} (v : SReg) (h : r ≠ 0) : readS (applyCWrite y (.s r v)) r = v := by
  rw [readS_of_ne _ h, applyCWrite_s y v h, SMap.get_set_same]

theorem readS_applyCWrite_other (y : Cham) {r k : Nat} (v : SReg) (h : k ≠ r) :
    readS (applyCWrite y (.s r v)) k = readS y k := by
  by_cases hr : r = 0
  · subst hr
    rfl
  by_cases hk : k = 0
  · subst hk
    rfl
  rw [readS_of_ne _ hk, readS_of_ne _ hk, applyCWrite_s y v hr, SMap.get_set_other _ _ _ _ _ (Ne.symm h)]

/-- Settles O20: register 0 is a case of its own in every read and write. -/
theorem fixedRegistersKeepTheirValue : Obligations.FixedRegistersKeepTheirValue := fun y =>
  ⟨readS_zero y, readPr_zero y, fun _ => rfl, fun _ _ => rfl, fun _ v h => readS_applyCWrite_same y v h,
    fun _ _ v h => readS_applyCWrite_other y v h⟩

/-! ### Where a core stands after an instruction (R178, R181) -/

theorem getC_chamDone (x : CCtx) (slot : Nat) (u : State) :
    getC (chamDone x slot u) x.c = advanceCham (getC u x.c) x.w slot := getC_setC_same ..

theorem nextC_loop {w : Nat} (h : opcodeOf w = 0x02) (pc : Nat) (ls : List CLoop) :
    nextC w pc ls = (pc + 1, ⟨ccLoopBody w, 0, ccLoopCount w - 1⟩ :: ls) := by
  rw [nextC, h]
  rfl

theorem nextC_of_ne {w : Nat} (h : opcodeOf w ≠ 0x02) (pc : Nat) (ls : List CLoop) : nextC w pc ls = advLoops pc ls := by
  rw [nextC, beq_false_of_ne h]
  rfl

theorem advLoops_nil (pc : Nat) : advLoops pc [] = (pc + 1, []) := rfl

theorem advLoops_inside (pc : Nat) {l : CLoop} (r : List CLoop) (h : l.pos + 1 < l.body) :
    advLoops pc (l :: r) = (pc + 1, { l with pos := l.pos + 1 } :: r) := if_pos h

theorem advLoops_again (pc : Nat) {l : CLoop} (r : List CLoop) (h : l.body ≤ l.pos + 1) (hleft : l.left ≠ 0) :
    advLoops pc (l :: r) = (pc + 1 - l.body, { l with pos := 0, left := l.left - 1 } :: r) :=
  (if_neg (Nat.not_lt.mpr h)).trans (if_pos hleft)

theorem advLoops_leave (pc : Nat) {l : CLoop} (h : l.body ≤ l.pos + 1) (hleft : l.left = 0) :
    advLoops pc [l] = (pc + 1, []) :=
  (if_neg (Nat.not_lt.mpr h)).trans (if_neg (not_not_intro hleft))

/-- Place and open levels after an instruction, from what the sequencer answers. -/
theorem place_chamDone {x : CCtx} {u : State} {pc : Nat} {ls : List CLoop} (slot : Nat)
    (h : nextC x.w (getC u x.c).pc (getC u x.c).loops = (pc, ls)) :
    (getC (chamDone x slot u) x.c).pc = pc ∧ (getC (chamDone x slot u) x.c).loops = ls := by
  rw [getC_chamDone, advanceCham, h]
  exact ⟨rfl, rfl⟩

theorem slots_chamDone (x : CCtx) (slot : Nat) (u : State) :
    (getC (chamDone x slot u) x.c).nextSlot = slot + 1 + (if opcodeOf x.w = 0x00 then ccNopCount x.w else 0) ∧
    (getC (chamDone x slot u) x.c).decoded = laterBy (slot - (getC u x.c).nextSlot) ((getC u x.c).decoded.drop 1) ∧
    (getC (chamDone x slot u) x.c).dslot = (getC u x.c).dslot + (slot - (getC u x.c).nextSlot) := by
  rw [getC_chamDone]
  refine ⟨?_, rfl, rfl⟩
  have hslots : slotsOf x.w = 1 + if opcodeOf x.w = 0x00 then ccNopCount x.w else 0 := by simp only [slotsOf, beq_iff_eq]
  rw [Nat.add_assoc, ← hslots]
  rfl

/-! ### Control instructions (R182) -/

/-- A SYNC whose stream, if it names one, is the core's takes its COUNT and its window (R134, R263). -/
theorem fxCSync_ok {x : CCtx} {t : State} (h : ccStreamEn x.w = true → streamAt t (ccStream x.w) (posOf x.u) = true) :
    fxCSync x t = .ok
      (let u := if ccTokenEn x.w then subTok t x.u (ccToken x.w) (ccCount x.w) else t
      if ccStreamEn x.w then takeWindow u (ccStream x.w) (getD u x.d).dcc else u) := by
  refine if_neg fun hbad => ?_
  obtain ⟨hen, hat⟩ := (Bool.and_eq_true ..).mp hbad
  rw [h hen] at hat
  exact absurd hat (by decide)

/-- Settles O21: each form's effect at its turn, and the sequencer's answers. -/
theorem chamoisControlCompletes : Obligations.ChamoisControlCompletes := by
  refine ⟨?nop, ?loop, ?halt, ?step, ?sync, ?signal, fun x slot u => ?place⟩
  case place =>
    obtain ⟨hnext, hdecoded, hdslot⟩ := slots_chamDone x slot u
    refine ⟨hnext, hdecoded, hdslot, fun hop => place_chamDone slot (nextC_loop hop ..), fun hop hl => ?_,
      fun l r hop hl hin => ?_, fun l r hop hl hend hleft => ?_, fun l hop hl hend hleft => ?_⟩ <;>
      refine place_chamDone slot ((nextC_of_ne hop ..).trans ?_) <;> rw [hl]
    · exact advLoops_nil _
    · exact advLoops_inside _ r hin
    · exact advLoops_again _ r hend hleft
    · exact advLoops_leave _ hend hleft
  all_goals intro c w s x slot t hop h
  all_goals obtain ⟨-, rfl, hw⟩ := chamTurn_ctx h
  case nop => exact issueC_ok h hop rfl
  case loop => exact issueC_ok h hop rfl
  case halt => exact issueC_ok h hop rfl
  case step =>
    rw [← hw]
    exact issueC_ok h hop rfl
  case sync =>
    rw [← hw]
    exact fun hstream => issueC_ok h hop (fxCSync_ok hstream)
  case signal =>
    rw [← hw]
    exact issueC_ok h hop rfl

/-! ### What a result leaves alone (R177) -/

theorem getC_result (t : State) (c d lat : Nat) (r : CWrite) :
    getC (result t c d lat r) c =
      { getC t c with inFlight := (getC t c).inFlight ++ [((getD t d).dcc + lat, r)] } := getC_setC_same ..

theorem onlyCham_setC (c : Nat) (t : State) (y : Cham) : OnlyCham c t (setC t c y) :=
  ⟨rfl, fun _ hk => getC_setC_other t y (Ne.symm hk)⟩

theorem onlyCham_trans {c : Nat} {s t u : State} (h : OnlyCham c s t) (k : OnlyCham c t u) : OnlyCham c s u := by
  obtain ⟨hst, hs⟩ := h
  obtain ⟨htu, ht⟩ := k
  refine ⟨?_, fun j hj => (ht j hj).trans (hs j hj)⟩
  rw [htu, hst]

/-- Settles O23: a result and the core's place are the core's own. -/
theorem scalarFrame : Obligations.ScalarFrame := by
  intro x slot lat t r
  refine ⟨onlyCham_trans (onlyCham_setC x.c t _) (onlyCham_setC x.c _ _), ?_⟩
  rw [getC_chamDone, getC_result]
  exact ⟨rfl, rfl, rfl, rfl, rfl, rfl⟩

end Sys2Proof.Machine
end

