-- ==== Sys2Proof/Proofs/ChamoisVectors.lean ====
section
/-!
SUPPORT. "Chamois cores, Vector arithmetic": what a vector operation at its turn leaves on its way to its register, the widths
of what its lanes hold, and the statements about the vector instructions.
-/
namespace Sys2Proof.Machine

/-! ### Counters (R82, R185) -/

/-- From `s` to `u` nothing has changed but parameters. -/
def OnlyParams (s u : State) : Prop := u = { s with par := u.par }

theorem onlyParams_refl (s : State) : OnlyParams s s := rfl

theorem onlyParams_trans {s t u : State} (h : OnlyParams s t) (k : OnlyParams t u) : OnlyParams s u := by
  rw [OnlyParams] at h k ⊢
  rw [k, h]

theorem onlyParams_setP (s : State) (key v : Nat) : OnlyParams s (setP s key v) := rfl

theorem onlyParams_incP (s : State) (key n : Nat) : OnlyParams s (incP s key n) := rfl

/-- Counting NaNs writes the counter and, the first time, where it was. -/
theorem onlyParams_countNan (s : State) (sub n d unit : Nat) : OnlyParams s (countNan s sub n d unit) := by
  unfold countNan
  extract_lets first t
  split
  · exact onlyParams_refl s
  split
  · exact onlyParams_trans (onlyParams_incP ..) (onlyParams_trans (onlyParams_setP ..)
      (onlyParams_trans (onlyParams_setP ..) (onlyParams_setP ..)))
  · exact onlyParams_incP ..

theorem getC_of_onlyParams {s u : State} (h : OnlyParams s u) (c : Nat) : getC u c = getC s c := by rw [h]; rfl

theorem getD_of_onlyParams {s u : State} (h : OnlyParams s u) (d : Nat) : getD u d = getD s d := by rw [h]; rfl

/-- A result of a state in which only parameters have changed. -/
theorem getC_result_of_onlyParams {t v : State} (h : OnlyParams t v) (c d lat : Nat) (r : CWrite) :
    getC (result v c d lat r) c = { getC t c with inFlight := (getC t c).inFlight ++ [((getD t d).dcc + lat, r)] } := by
  rw [getC_result, getC_of_onlyParams h, getD_of_onlyParams h]

/-! ### Lanes -/

/-- The register that a vector operation makes of its 128 lanes, a poisoned predicate bit poisoning its lane (R200). -/
def lanesUnder (pr : PReg) (outs : Nat → Nat × Bool) : VReg :=
  ⟨(ofLanes ((List.range 128).map outs)).v, (ofLanes ((List.range 128).map outs)).p ||| pr.p⟩

theorem getD_map_range {α : Type} (f : Nat → α) (a : α) {n i : Nat} (h : i < n) : ((List.range n).map f).getD i a = f i := by
  rw [List.getD_eq_getElem?_getD, List.getElem?_map, List.getElem?_range h]
  rfl

theorem laneBitsOf_ofLanes_range (f : Nat → Nat × Bool) {i : Nat} (hi : i < 128) :
    laneBitsOf (ofLanes ((List.range 128).map f)) i = (f i).1 % 2 ^ 32 := by
  rw [laneBitsOf_ofLanes _ (by rw [List.length_map, List.length_range]) i hi, getD_map_range f _ hi]

theorem mark_ofLanes_range (f : Nat → Nat × Bool) {i : Nat} (hi : i < 128) :
    (ofLanes ((List.range 128).map f)).p.toNat.testBit i = (f i).2 := by
  rw [mark_ofLanes _ (by rw [List.length_map, List.length_range]) i hi, getD_map_range f _ hi]

theorem laneBitsOf_lanesUnder (pr : PReg) (f : Nat → Nat × Bool) {i : Nat} (hi : i < 128) :
    laneBitsOf (lanesUnder pr f) i = (f i).1 % 2 ^ 32 := laneBitsOf_ofLanes_range f hi

theorem mark_lanesUnder (pr : PReg) (f : Nat → Nat × Bool) {i : Nat} (hi : i < 128) :
    (lanesUnder pr f).p.toNat.testBit i = ((f i).2 || pr.p.toNat.testBit i) := by
  rw [lanesUnder, BitVec.toNat_or, Nat.testBit_or, mark_ofLanes_range f hi]

theorem laneBitsOf_lt (v : VReg) (i : Nat) : laneBitsOf v i < 2 ^ 32 := Nat.mod_lt _ (Nat.two_pow_pos _)

/-- The result of a vector operation, from lanes that hold what is claimed of the participating ones. -/
theorem vectorResult_of_lanes {x : CCtx} {lat : Nat} {bits : Nat → Nat} {p : Nat → Bool} {t v : State} {outs : Nat → Nat × Bool}
    (honly : OnlyParams t v)
    (houts : ∀ i, i < 128 → (readPr (getC t x.c) (cvPred x.w)).v.toNat.testBit i = true → outs i = (bits i, p i))
    (hlt : ∀ i, i < 128 → bits i < 2 ^ 32) :
    VectorResult x lat bits p t (result v x.c x.d lat (.v (cvVD x.w) (readPr (getC t x.c) (cvPred x.w)).v
      (lanesUnder (readPr (getC t x.c) (cvPred x.w)) outs))) := by
  refine ⟨_, getC_result_of_onlyParams honly x.c x.d lat _, fun i hi htakes => ⟨?_, ?_⟩, fun k hk => ?_, ?_, ?_, ?_⟩
  · rw [laneBitsOf_lanesUnder _ _ hi, houts i hi htakes, Nat.mod_eq_of_lt (hlt i hi)]
  · rw [mark_lanesUnder _ _ hi, houts i hi htakes]
  · rw [result, getC_setC_other _ _ (Ne.symm hk), getC_of_onlyParams honly]
  · rw [honly]
    exact sameMemory_of_eq rfl
  · rw [honly]
    rfl
  · rw [honly]
    rfl

/-! ### Vector operations at their turn (R185) -/

/-- One lane of a vector operation: 0 without a mark where it takes no part. -/
def laneUnder (pr : PReg) (f : Nat → LaneOut) (i : Nat) : LaneOut :=
  if takesPart pr i then f i else { bits := 0, p := false }

/-- The NaNs that a vector operation counts before its result. -/
def countLanes (x : CCtx) (t : State) (f : Nat → LaneOut) : State :=
  let outs := (List.range 128).map (laneUnder (readPr (getC t x.c) (cvPred x.w)) f)
  countNan (countNan t 1 (sumNat (outs.map (·.nin))) x.d x.u) 2 (sumNat (outs.map (·.made))) x.d x.u

theorem onlyParams_countLanes (x : CCtx) (t : State) (f : Nat → LaneOut) : OnlyParams t (countLanes x t f) :=
  onlyParams_trans (onlyParams_countNan ..) (onlyParams_countNan ..)

/-- The effect of a vector operation in the state where it begins. -/
def vecEffect (x : CCtx) (lat : Nat) (f : Nat → LaneOut) (t : State) : State :=
  let pr := readPr (getC t x.c) (cvPred x.w)
  result (countLanes x t f) x.c x.d lat
    (.v (cvVD x.w) pr.v (lanesUnder pr fun i => ((laneUnder pr f i).bits, (laneUnder pr f i).p)))

theorem vecOp_eq (op lat c : Nat) (w : W64) (f : Cham → Nat → Nat → LaneOut) (s : State) :
    vecOp op lat c w f s = issueC op c w (fun x t => .ok (vecEffect x lat (f (getC t x.c) x.w) t)) s := by
  simp only [vecOp, List.map_map]
  rfl

/-- A vector operation whose lanes, where they take part, hold bits of 32-bit width and marks as claimed. -/
theorem vecOp_turn {op lat c : Nat} {w : W64} {f : Cham → Nat → Nat → LaneOut} {s : State} {x : CCtx} {slot : Nat} {t : State}
    {bits : Nat → Nat} {p : Nat → Bool} (hop : opcodeOf w.toNat = op) (h : chamTurn c w s = some (x, slot, t))
    (hbits : ∀ i, (f (getC t x.c) x.w i).bits = bits i) (hp : ∀ i, (f (getC t x.c) x.w i).p = p i)
    (hlt : ∀ i, i < 128 → bits i < 2 ^ 32) :
    ∃ u, vecOp op lat c w f s = .next (chamDone x slot u) ∧ VectorResult x lat bits p t u := by
  refine ⟨_, (vecOp_eq ..).trans (issueC_ok h hop rfl),
    vectorResult_of_lanes (onlyParams_countLanes x t _) (fun i _ htakes => ?_) hlt⟩
  have htakes' : takesPart (readPr (getC t x.c) (cvPred x.w)) i = true := htakes
  rw [laneUnder, if_pos htakes', hbits, hp]

/-- The quarter-rate unit after one of its operations (R179). -/
theorem quarter_chamDone {x : CCtx} (h : 0x2A ≤ opcodeOf x.w ∧ opcodeOf x.w ≤ 0x2D) (slot : Nat) (u : State) :
    (getC (chamDone x slot u) x.c).quarter = slot + 4 := by
  rw [getC_chamDone]
  exact if_pos (by rw [Bool.and_eq_true, decide_eq_true_eq, decide_eq_true_eq]; exact h)

/-! ### Floating-point lanes (R185, R186) -/

/-- Not below the range's end: a value rounded to BF16 is an FP32 value too (R186). -/
theorem f32Bits_roundBf16_lt (v : FV) : f32Bits (roundBf16 v) < 2 ^ 32 := by
  cases v with
  | nan => decide
  | inf s => exact sign_add_lt s (by decide)
  | fin s m e =>
    cases m with
    | zero => exact sign_add_lt s (by decide)
    | succ m =>
      simp only [roundBf16]
      split
      · exact sign_add_lt s (by decide)
      split
      · exact sign_add_lt s (by decide)
      · next hrange => exact sign_add_lt s (encodeFinite_f32_lt (Int.not_le.mp hrange))

theorem halfBits_lt (v : FV) : halfBits v < 2 ^ 16 := by
  rw [halfBits, Nat.shiftRight_eq_div_pow, Nat.div_lt_iff_lt_mul (by decide)]
  exact f32Bits_roundBf16_lt v

/-- The bits of a lane: the exact result of the lane's values rounded once to FP32, or its halves to BF16. -/
def floatBits (pk : Bool) (f : List FV → FV) (l : List Nat) : Nat :=
  if pk then halfBits (f (l.map fun n => halfFV n 0)) + halfBits (f (l.map fun n => halfFV n 1)) * 2 ^ 16
  else f32Bits (roundF32 (f (l.map f32Of)))

theorem floatBits_lt (pk : Bool) (f : List FV → FV) (l : List Nat) : floatBits pk f l < 2 ^ 32 := by
  rw [floatBits]
  split
  · have hlo := halfBits_lt (f (l.map fun n => halfFV n 0))
    have hhi := halfBits_lt (f (l.map fun n => halfFV n 1))
    omega
  · exact f32Bits_roundF32_lt _

theorem fpLane_bits (pk : Bool) (f : List FV → FV) (made : List FV → Nat) (ops : List Nat) (p : Bool) :
    (fpLane pk f made ops p).bits = floatBits pk f ops := by cases pk <;> rfl

theorem fpLane_p (pk : Bool) (f : List FV → FV) (made : List FV → Nat) (ops : List Nat) (p : Bool) :
    (fpLane pk f made ops p).p = p := by cases pk <;> rfl

section
variable {op lat : Nat} {i : Nat → W64 → Instr} {c slot : Nat} {w : W64} {s t : State} {x : CCtx}

theorem unaryFp_turn {f : FV → FV} {made : FV → Nat} (hop : opcodeOf w.toNat = op) (h : chamTurn c w s = some (x, slot, t)) :
    ∃ u, unaryFp op lat c w f made s = .next (chamDone x slot u) ∧
      VectorResult x lat (fun i => floatBits (cvPK w.toNat) (fun l => f (opA l)) [laneIn t x (cvVA w.toNat) i])
        (fun i => markIn t x (cvVA w.toNat) i) t u := by
  obtain ⟨-, rfl, hw⟩ := chamTurn_ctx h
  rw [← hw]
  exact vecOp_turn hop h (fun _ => fpLane_bits ..) (fun _ => fpLane_p ..) fun _ _ => floatBits_lt ..

theorem binaryFp_turn {f : FV → FV → FV} {made : FV → FV → Nat} (hop : opcodeOf w.toNat = op)
    (h : chamTurn c w s = some (x, slot, t)) :
    ∃ u, binaryFp op lat c w f made s = .next (chamDone x slot u) ∧
      VectorResult x lat (fun i => floatBits (cvPK w.toNat) (fun l => f (opA l) (opB l))
          [laneIn t x (cvVA w.toNat) i, laneIn t x (cvVB w.toNat) i])
        (fun i => markIn t x (cvVA w.toNat) i || markIn t x (cvVB w.toNat) i) t u := by
  obtain ⟨-, rfl, hw⟩ := chamTurn_ctx h
  rw [← hw]
  exact vecOp_turn hop h (fun _ => fpLane_bits ..) (fun _ => fpLane_p ..) fun _ _ => floatBits_lt ..

theorem ternaryFp_turn {f : FV → FV → FV → FV} {made : FV → FV → FV → Nat} (hop : opcodeOf w.toNat = op)
    (h : chamTurn c w s = some (x, slot, t)) :
    ∃ u, ternaryFp op lat c w f made s = .next (chamDone x slot u) ∧
      VectorResult x lat (fun i => floatBits (cvPK w.toNat) (fun l => f (opA l) (opB l) (opC l))
          [laneIn t x (cvVA w.toNat) i, laneIn t x (cvVB w.toNat) i, laneIn t x (cvVC w.toNat) i])
        (fun i => markIn t x (cvVA w.toNat) i || markIn t x (cvVB w.toNat) i || markIn t x (cvVC w.toNat) i) t u := by
  obtain ⟨-, rfl, hw⟩ := chamTurn_ctx h
  rw [← hw]
  exact vecOp_turn hop h (fun _ => fpLane_bits ..) (fun _ => fpLane_p ..) fun _ _ => floatBits_lt ..

end

/-- Settles O24: every full-rate form is a lane operation of its exact function. -/
theorem vectorFloatLanes : Obligations.VectorFloatLanes := by
  refine ⟨fun q hq => ?binary, fun q hq => ?ternary, fun q hq => ?unary⟩
  case binary =>
    suffices harm : ∃ made, ∀ c w s, exec (q.2.2.1 c w) s = binaryFp q.1 q.2.1 c w q.2.2.2 made s from
      harm.elim fun _ harm c w s x slot t hop h => by
        simp only [harm]
        exact binaryFp_turn hop h
    revert q
    simp only [List.forall_mem_cons, List.not_mem_nil, false_implies, implies_true, and_true]
    exact ⟨⟨made2, fun _ _ _ => rfl⟩, ⟨fun a b => made2 a b.negate, fun _ _ _ => rfl⟩, ⟨mulMade, fun _ _ _ => rfl⟩,
      ⟨fun _ _ => 0, fun _ _ _ => rfl⟩, fun _ _ => 0, fun _ _ _ => rfl⟩
  case ternary =>
    suffices harm : ∃ made, ∀ c w s, exec (q.2.2.1 c w) s = ternaryFp q.1 q.2.1 c w q.2.2.2 made s from
      harm.elim fun _ harm c w s x slot t hop h => by
        simp only [harm]
        exact ternaryFp_turn hop h
    revert q
    simp only [List.forall_mem_cons, List.not_mem_nil, false_implies, implies_true, and_true]
    exact ⟨⟨fun a b d => mulMade a b + made2 (mulExact a b) d, fun _ _ _ => rfl⟩,
      ⟨fun a b d => mulMade a b + made2 d (mulF32 a b), fun _ _ _ => rfl⟩,
      fun a b d => made2 b d.negate + mulMade a (addFV b d.negate), fun _ _ _ => rfl⟩
  case unary =>
    suffices harm : ∃ made, ∀ c w s, exec (q.2.2.1 c w) s = unaryFp q.1 q.2.1 c w q.2.2.2 made s from
      harm.elim fun _ harm c w s x slot t hop h => by
        simp only [harm]
        exact unaryFp_turn hop h
    revert q
    simp only [List.forall_mem_cons, List.not_mem_nil, false_implies, implies_true, and_true]
    exact ⟨⟨fun _ => 0, fun _ _ _ => rfl⟩, fun _ => 0, fun _ _ _ => rfl⟩

end Sys2Proof.Machine
end

