-- ==== Sys2Proof/Proofs/ChamoisLanes.lean ====
section
/-!
SUPPORT. "Chamois cores, Vector arithmetic": the quarter-rate and integer lanes, conversion, selection, compares and
reductions, and the statements about them.
-/
namespace Sys2Proof.Machine

/-! ### Quarter-rate instructions (R179, R185) -/

/-- An instruction at its turn has no reserved bit set (R182, R184). -/
theorem chamTurn_notReserved {c : Nat} {word : W64} {s : State} {x : CCtx} {slot : Nat} {t : State}
    (h : chamTurn c word s = some (x, slot, t)) : chamReserved word.toNat = false := by
  unfold chamTurn at h
  simp only [] at h
  split at h
  · cases h
  split at h
  rotate_left
  · cases h
  split at h
  · cases h
  split at h
  · cases h
  split at h
  · cases h
  · next hchecks =>
    simp only [Bool.or_eq_true, not_or, Bool.not_eq_true] at hchecks
    exact hchecks.2

/-- A bit that an opcode does not use is 0 in a word without reserved bits. -/
theorem testBit_of_notReserved {w k : Nat} (h : chamReserved w = false) (hk : k < 64)
    (hunused : (2 ^ 64 - 1 - (usedBits (opcodeOf w) ||| 0xFF)).testBit k = true) : w.testBit k = false := by
  rw [chamReserved, Bool.or_eq_false_iff] at h
  have hmask : w % 2 ^ 64 &&& (2 ^ 64 - 1 - (usedBits (opcodeOf w) ||| 0xFF)) = 0 := by simpa using h.1
  have hbit := congrArg (Nat.testBit · k) hmask
  rwa [Nat.testBit_and, hunused, Bool.and_true, Nat.testBit_mod_two_pow, decide_eq_true hk, Bool.true_and,
    Nat.zero_testBit] at hbit

/-- PK is reserved in the quarter-rate forms. -/
theorem cvPK_of_quarter {w : Nat} (hres : chamReserved w = false) (hop : opcodeOf w ∈ [0x2A, 0x2B, 0x2C, 0x2D]) :
    cvPK w = false := by
  have hunused : ∀ op ∈ [0x2A, 0x2B, 0x2C, 0x2D], (2 ^ 64 - 1 - (usedBits op ||| 0xFF)).testBit 31 = true := by decide
  have hbit := testBit_of_notReserved hres (by decide) (hunused _ hop)
  rw [cvPK, bit, hbit]

/-- Settles O25: no quarter-rate form has PK, and each takes its unit for four cycles. -/
theorem quarterRateLanes : Obligations.QuarterRateLanes := by
  refine ⟨fun c w s x slot t hop h => ?vdiv, fun q hq => ?unary⟩
  case vdiv =>
    obtain ⟨-, rfl, hw⟩ := chamTurn_ctx h
    obtain ⟨u, hexec, hres⟩ := binaryFp_turn (lat := 16) (f := divFV) (made := fun a b => madeNan [a, b] (divFV a b)) hop h
    rw [cvPK_of_quarter (chamTurn_notReserved h) (by rw [hop]; decide)] at hres
    exact ⟨u, hexec, quarter_chamDone (by rw [hw, hop]; decide) slot u, hres⟩
  case unary =>
    suffices harm : q.1 ∈ [0x2A, 0x2B, 0x2C, 0x2D] ∧
        ∃ made, ∀ c w s, exec (q.2.1 c w) s = unaryFp q.1 16 c w (q.2.2 w.toNat) made s by
      obtain ⟨hquarter, made, harm⟩ := harm
      intro c w s x slot t hop h
      obtain ⟨-, rfl, hw⟩ := chamTurn_ctx h
      obtain ⟨u, hexec, hres⟩ := unaryFp_turn (lat := 16) (f := q.2.2 w.toNat) (made := made) hop h
      rw [cvPK_of_quarter (chamTurn_notReserved h) (by rw [hop]; exact hquarter)] at hres
      have hrange : ∀ op ∈ [0x2A, 0x2B, 0x2C, 0x2D], 0x2A ≤ op ∧ op ≤ 0x2D := by decide
      exact ⟨u, (harm ..).trans hexec, quarter_chamDone (by rw [hw, hop]; exact hrange _ hquarter) slot u, hres⟩
    revert q
    simp only [List.forall_mem_cons, List.not_mem_nil, false_implies, implies_true, and_true]
    exact ⟨⟨by decide, fun a => madeNan [a] (sqrtFV a), fun _ _ _ => rfl⟩,
      ⟨by decide, fun a => madeNan [a] (rsqrtFV a), fun _ _ _ => rfl⟩, by decide, fun _ => 0, fun _ _ _ => rfl⟩

/-! ### Integer lanes (R190) -/

theorem laneIn_lt (t : State) (x : CCtx) (r i : Nat) : laneIn t x r i < 2 ^ 32 := laneBitsOf_lt ..

/-- An integer form at its turn, where its function of words is the claimed one of their numbers. -/
theorem intOp_turn {op c : Nat} {w : W64} {f : W32 → W32 → W32} {g : Nat → Nat → Nat} {s : State} {x : CCtx} {slot : Nat}
    {t : State} (hop : opcodeOf w.toNat = op) (h : chamTurn c w s = some (x, slot, t))
    (hf : ∀ a b : W32, (f a b).toNat = g a.toNat b.toNat) :
    ∃ u, intOp op c w f s = .next (chamDone x slot u) ∧
      VectorResult x 4 (fun i => g (laneIn t x (cvVA w.toNat) i) (laneIn t x (cvVB w.toNat) i))
        (fun i => markIn t x (cvVA w.toNat) i || markIn t x (cvVB w.toNat) i) t u := by
  obtain ⟨-, rfl, hw⟩ := chamTurn_ctx h
  rw [← hw]
  have hlanes : ∀ i, (f (BitVec.ofNat 32 (laneIn t x (cvVA x.w) i)) (BitVec.ofNat 32 (laneIn t x (cvVB x.w) i))).toNat =
      g (laneIn t x (cvVA x.w) i) (laneIn t x (cvVB x.w) i) := fun i => by
    rw [hf, BitVec.toNat_ofNat, BitVec.toNat_ofNat, Nat.mod_eq_of_lt (laneIn_lt ..), Nat.mod_eq_of_lt (laneIn_lt ..)]
  exact vecOp_turn hop h hlanes (fun _ => rfl) fun i _ => hlanes i ▸ BitVec.isLt _

theorem toNat_sub_word (a b : W32) : (a - b).toNat = (a.toNat + 2 ^ 32 - b.toNat) % 2 ^ 32 := by
  rw [BitVec.toNat_sub]
  congr 1
  omega

theorem toNat_shl_word (a b : W32) : (a <<< (b.toNat % 32)).toNat = a.toNat * 2 ^ (b.toNat % 32) % 2 ^ 32 := by
  rw [BitVec.toNat_shiftLeft, Nat.shiftLeft_eq]

theorem toNat_shr_word (a b : W32) : (a >>> (b.toNat % 32)).toNat = a.toNat / 2 ^ (b.toNat % 32) := by
  rw [BitVec.toNat_ushiftRight, Nat.shiftRight_eq_div_pow]

/-- A lane of VCVTIF. -/
def vcvtifLane (r : Cham) (w i : Nat) : LaneOut :=
  { bits := f32Bits (roundF32 (intFV (sext 32 (laneBitsOf (readV r (cvVA w)) i)))), p := (readV r (cvVA w)).p.toNat.testBit i }

theorem exec_vcvtif (c : Nat) (w : W64) (s : State) : exec (.vcvtif c w) s = vecOp 0x3A 4 c w vcvtifLane s := rfl

/-- A lane of VBCAST. -/
def vbcastLane (r : Cham) (w _i : Nat) : LaneOut :=
  { bits := (readS r (cvS w)).v.toNat % 2 ^ 32, p := (readS r (cvS w)).p }

theorem exec_vbcast (c : Nat) (w : W64) (s : State) : exec (.vbcast c w) s = vecOp 0x3B 4 c w vbcastLane s := rfl

theorem exec_vlane (c : Nat) (w : W64) (s : State) :
    exec (.vlane c w) s = vecOp 0x3C 4 c w (fun _ _ i => { bits := i, p := false }) s := rfl

/-- Settles O26: the integer forms are operations of 32-bit words; conversion, broadcast and lane number fit a word. -/
theorem vectorIntegerLanes : Obligations.VectorIntegerLanes := by
  refine ⟨fun q hq => ?integer, fun c w s x slot t hop h => ?vcvtif, fun c w s x slot t hop h => ?vbcast,
    fun c w s x slot t hop h => ?vlane⟩
  case integer =>
    suffices harm : ∃ f : W32 → W32 → W32, (∀ c w s, exec (q.2.1 c w) s = intOp q.1 c w f s) ∧
        ∀ a b, (f a b).toNat = q.2.2 a.toNat b.toNat by
      obtain ⟨f, harm, hf⟩ := harm
      intro c w s x slot t hop h
      simp only [harm]
      exact intOp_turn hop h hf
    revert q
    simp only [List.forall_mem_cons, List.not_mem_nil, false_implies, implies_true, and_true]
    exact ⟨⟨(· + ·), fun _ _ _ => rfl, BitVec.toNat_add⟩, ⟨(· - ·), fun _ _ _ => rfl, toNat_sub_word⟩,
      ⟨(· * ·), fun _ _ _ => rfl, BitVec.toNat_mul⟩, ⟨(· &&& ·), fun _ _ _ => rfl, BitVec.toNat_and⟩,
      ⟨(· ||| ·), fun _ _ _ => rfl, BitVec.toNat_or⟩, ⟨(· ^^^ ·), fun _ _ _ => rfl, BitVec.toNat_xor⟩,
      ⟨fun a b => a <<< (b.toNat % 32), fun _ _ _ => rfl, toNat_shl_word⟩,
      fun a b => a >>> (b.toNat % 32), fun _ _ _ => rfl, toNat_shr_word⟩
  all_goals obtain ⟨-, rfl, hw⟩ := chamTurn_ctx h
  case vcvtif =>
    simp only [exec_vcvtif, ← hw]
    exact vecOp_turn hop h (fun _ => rfl) (fun _ => rfl) fun _ _ => f32Bits_roundF32_lt _
  case vbcast =>
    simp only [exec_vbcast, ← hw]
    exact vecOp_turn hop h (fun _ => rfl) (fun _ => rfl) fun _ _ => Nat.mod_lt _ (by decide)
  case vlane =>
    simp only [exec_vlane]
    exact vecOp_turn hop h (fun _ => rfl) (fun _ => rfl) fun i hi => by omega

/-! ### Conversion and selection (R190, R185) -/

theorem wrap_lt (w : Nat) (i : Int) : wrap w i < 2 ^ w := by
  have hpos : (0 : Int) < (2 ^ w : Nat) := Int.natCast_pos.mpr (Nat.two_pow_pos w)
  have hnonneg := Int.emod_nonneg i (Int.ne_of_gt hpos)
  have hlt := Int.emod_lt_of_pos i hpos
  rw [wrap]
  omega

theorem toInt32_lt (rtz : Bool) (v : FV) : toInt32 rtz v < 2 ^ 32 := by
  cases v with
  | nan => exact Nat.two_pow_pos 32
  | inf s => cases s <;> cases rtz <;> decide
  | fin s m e =>
    simp only [toInt32]
    split
    · exact wrap_lt 32 _
    · omega

/-- The lanes of VCVTFI that hold a NaN and take part. -/
def lostLanes (x : CCtx) (t : State) : List Nat :=
  (List.range 128).filter fun i => (readPr (getC t x.c) (cvPred x.w)).v.toNat.testBit i &&
    (f32Of (laneIn t x (cvVA x.w) i)).isNaN

/-- The state of VCVTFI once its NaN operands are counted. -/
def lostCounted (x : CCtx) (t : State) : State := countNan t 1 (lostLanes x t).length x.d x.u

/-- The effect of VCVTFI. -/
def fxVcvtfi (x : CCtx) (t : State) : CEff :=
  if nanPolicy (lostCounted x t) == 1 && !(lostLanes x t).isEmpty then
    .faultD 0x14 ((lostLanes x t).headD 0) 0 (lostCounted x t)
  else .ok (result (incP (lostCounted x t) (pk 0x0D40 3) (lostLanes x t).length) x.c x.d 4
    (.v (cvVD x.w) (readPr (getC t x.c) (cvPred x.w)).v (lanesUnder (readPr (getC t x.c) (cvPred x.w)) fun i =>
      (toInt32 (cvAux x.w == 1) (f32Of (laneIn t x (cvVA x.w) i)), markIn t x (cvVA x.w) i))))

theorem exec_vcvtfi (c : Nat) (w : W64) (s : State) : exec (.vcvtfi c w) s = issueC 0x39 c w fxVcvtfi s := rfl

/-- Counting NaNs touches no parameter outside 0D30h. -/
theorem getP_countNan_other (s : State) {sub : Nat} (n d unit : Nat) {key : Nat} (hsub : sub < 7)
    (h : ∀ k, k < 7 → key ≠ pk 0x0D30 k) : getP (countNan s sub n d unit) key = getP s key := by
  unfold countNan
  extract_lets first t
  split
  · rfl
  have hcount : getP t key = getP s key := getP_incP_other s n (Ne.symm (h sub hsub))
  split
  · rw [getP_setP_other _ _ (Ne.symm (h 6 (by decide))), getP_setP_other _ _ (Ne.symm (h 5 (by decide))),
      getP_setP_other _ _ (Ne.symm (h 4 (by decide))), hcount]
  · exact hcount

theorem nanPolicy_countNan (s : State) {sub : Nat} (n d unit : Nat) (hsub : sub < 7) :
    nanPolicy (countNan s sub n d unit) = nanPolicy s := by
  have honly := onlyParams_countNan s sub n d unit
  have hpolicy := getP_countNan_other s n d unit (key := pk 0x0D20 0) hsub fun k hk => by simp only [pk]; omega
  rw [nanPolicy, nanPolicy, hpolicy, honly]

theorem nanPolicy_lostCounted (x : CCtx) (t : State) : nanPolicy (lostCounted x t) = nanPolicy t :=
  nanPolicy_countNan t _ _ _ (by decide)

theorem fxVcvtfi_ok {x : CCtx} {t : State} (h : lostLanes x t = [] ∨ nanPolicy t ≠ 1) :
    fxVcvtfi x t = .ok (result (incP (lostCounted x t) (pk 0x0D40 3) (lostLanes x t).length) x.c x.d 4
      (.v (cvVD x.w) (readPr (getC t x.c) (cvPred x.w)).v (lanesUnder (readPr (getC t x.c) (cvPred x.w)) fun i =>
        (toInt32 (cvAux x.w == 1) (f32Of (laneIn t x (cvVA x.w) i)), markIn t x (cvVA x.w) i)))) := by
  refine if_neg fun hlost => ?_
  rw [nanPolicy_lostCounted, Bool.and_eq_true, beq_iff_eq, Bool.not_eq_true', List.isEmpty_eq_false_iff] at hlost
  exact h.elim hlost.2 (absurd hlost.1)

theorem fxVcvtfi_fault {x : CCtx} {t : State} {i : Nat} {r : List Nat} (h : lostLanes x t = i :: r) (hpolicy : nanPolicy t = 1) :
    fxVcvtfi x t = .faultD 0x14 i 0 (lostCounted x t) := by
  have hlost : (nanPolicy (lostCounted x t) == 1 && !(lostLanes x t).isEmpty) = true := by
    rw [nanPolicy_lostCounted, hpolicy, h]
    rfl
  rw [fxVcvtfi, if_pos hlost, h]
  rfl

/-- The lost conversions that VCVTFI counts. -/
theorem getP_lost (x : CCtx) (t : State) (lat : Nat) (r : CWrite) :
    getP (result (incP (lostCounted x t) (pk 0x0D40 3) (lostLanes x t).length) x.c x.d lat r) (pk 0x0D40 3) =
      min (getP t (pk 0x0D40 3) + (lostLanes x t).length) (counterMax (pk 0x0D40 3)) := by
  rw [result, getP_setC, getP_incP_same,
    lostCounted, getP_countNan_other t _ _ _ (by decide) fun k hk => by simp only [pk]; omega]

/-- The register that VSEL writes, lane by lane. -/
def selected (x : CCtx) (t : State) : VReg :=
  let pr := readPr (getC t x.c) (cvPred x.w)
  ofLanes ((List.range 128).map fun i =>
    let y := if takesPart pr i then readV (getC t x.c) (cvVA x.w) else readV (getC t x.c) (cvVB x.w)
    (laneBitsOf y i, y.p.toNat.testBit i || pr.p.toNat.testBit i))

theorem exec_vsel_turn {c : Nat} {w : W64} {s : State} {x : CCtx} {slot : Nat} {t : State} (hop : opcodeOf w.toNat = 0x2F)
    (h : chamTurn c w s = some (x, slot, t)) :
    exec (.vsel c w) s =
      .next (chamDone x slot (result t x.c x.d 4 (.v (cvVD x.w) (BitVec.allOnes 128) (selected x t)))) :=
  issueC_ok h hop rfl

/-- Settles O27: a lost NaN is counted or, under the policy, is the fault; VSEL's lanes are picked one by one. -/
theorem conversionAndSelection : Obligations.ConversionAndSelection := by
  refine ⟨fun c w s x slot t hop h => ?vcvtfi, fun c w s x slot t hop h => ?vsel⟩ <;>
    obtain ⟨-, rfl, hw⟩ := chamTurn_ctx h <;> simp only [← hw]
  case vcvtfi =>
    refine ⟨fun hlost => ⟨_, issueC_ok h hop (fxVcvtfi_ok hlost), ?_, getP_lost x t 4 _⟩, fun i r hlost hpolicy => ?_⟩
    · exact vectorResult_of_lanes (onlyParams_trans (onlyParams_countNan ..) (onlyParams_incP ..)) (fun _ _ _ => rfl)
        fun i _ => toInt32_lt ..
    · rw [exec_vcvtfi, ← hop, issueC_turn fxVcvtfi h, fxVcvtfi_fault hlost hpolicy]
      rfl
  case vsel =>
    refine ⟨selected x t, exec_vsel_turn hop h, fun i hi => ?_⟩
    rw [selected, laneBitsOf_ofLanes_range _ hi, mark_ofLanes_range _ hi, Nat.mod_eq_of_lt (laneBitsOf_lt ..)]
    rw [← apply_ite (readV (getC t x.c))]
    exact ⟨rfl, rfl⟩

end Sys2Proof.Machine
end

