-- ==== Sys2Proof/Proofs/ChamoisReductions.lean ====
section
/-!
SUPPORT. "Chamois cores, Vector arithmetic": compares, reductions over the balanced tree, the predicate operations, and the
statements about them.
-/
namespace Sys2Proof.Machine

/-! ### Compares (R188) -/

/-- Bits set one by one in ascending order. -/
def packBits (p : Nat → Bool) (n : Nat) : Nat := (List.range n).foldl (fun m i => if p i then m + 2 ^ i else m) 0

theorem packBits_succ (p : Nat → Bool) (n : Nat) :
    packBits p (n + 1) = if p n then packBits p n + 2 ^ n else packBits p n := by
  rw [packBits, List.range_succ, List.foldl_append]
  rfl

theorem packBits_lt (p : Nat → Bool) (n : Nat) : packBits p n < 2 ^ n := by
  induction n with
  | zero => exact Nat.one_pos
  | succ n ih =>
    rw [packBits_succ, Nat.pow_succ]
    split <;> omega

theorem testBit_packBits (p : Nat → Bool) {n i : Nat} (h : i < n) : (packBits p n).testBit i = p i := by
  induction n with
  | zero => exact absurd h (Nat.not_lt_zero i)
  | succ n ih =>
    have hlt := packBits_lt p n
    rw [packBits_succ]
    by_cases hi : i = n
    · subst hi
      cases hp : p i
      · exact Nat.testBit_lt_two_pow hlt
      · rw [if_pos rfl, Nat.add_comm, Nat.testBit_two_pow_add_eq, Nat.testBit_lt_two_pow hlt]
        rfl
    · have hin : i < n := by omega
      split
      · rw [Nat.add_comm, Nat.testBit_two_pow_add_gt hin, ih hin]
      · exact ih hin

/-- The predicate register that a compare makes. -/
def compared (f : Nat → Nat → Nat → Bool) (x : CCtx) (t : State) : PReg :=
  let a := readV (getC t x.c) (cvVA x.w)
  let b := readV (getC t x.c) (cvVB x.w)
  ⟨BitVec.ofNat 128 (packBits (fun i => !(a.p ||| b.p).toNat.testBit i && f (cvCond x.w) (laneBitsOf a i) (laneBitsOf b i)) 128),
    a.p ||| b.p ||| (readPr (getC t x.c) (cvPred x.w)).p⟩

theorem testBit_compared (f : Nat → Nat → Nat → Bool) (x : CCtx) (t : State) {i : Nat} (hi : i < 128) :
    (compared f x t).v.toNat.testBit i = (!(markIn t x (cvVA x.w) i || markIn t x (cvVB x.w) i) &&
      f (cvCond x.w) (laneIn t x (cvVA x.w) i) (laneIn t x (cvVB x.w) i)) ∧
    (compared f x t).p.toNat.testBit i =
      (markIn t x (cvVA x.w) i || markIn t x (cvVB x.w) i || (readPr (getC t x.c) (cvPred x.w)).p.toNat.testBit i) := by
  constructor
  · rw [compared, BitVec.toNat_ofNat, Nat.mod_eq_of_lt (packBits_lt ..), testBit_packBits _ hi, BitVec.toNat_or,
      Nat.testBit_or]
    rfl
  · rw [compared, BitVec.toNat_or, BitVec.toNat_or, Nat.testBit_or, Nat.testBit_or]
    rfl

/-- A compare at its turn: the NaN operands of the participating lanes are counted, and the predicate is on its way. -/
theorem cmpOp_turn {op c : Nat} {w : W64} {f : Nat → Nat → Nat → Bool} {nin : Nat → Nat → Nat} {s : State} {x : CCtx}
    {slot : Nat} {t : State} (hop : opcodeOf w.toNat = op) (h : chamTurn c w s = some (x, slot, t)) :
    cmpOp op c w f nin s = .next (chamDone x slot (result
      (countNan t 1 (sumNat (((List.range 128).filter fun i => (readPr (getC t c) (cvPred w.toNat)).v.toNat.testBit i).map fun i =>
        nin (laneIn t x (cvVA w.toNat) i) (laneIn t x (cvVB w.toNat) i))) x.d (0x40 + c)) c x.d 2
      (.p (cvPD w.toNat) (readPr (getC t c) (cvPred w.toNat)).v (compared f x t)))) := by
  obtain ⟨-, rfl, hw⟩ := chamTurn_ctx h
  rw [← hw]
  exact issueC_ok h hop rfl

theorem ltFV_of_isNaN {a b : FV} (h : a.isNaN = true ∨ b.isNaN = true) : ltFV a b = false := by
  cases a with
  | nan => rfl
  | inf s =>
    cases b with
    | nan => rfl
    | inf _ => exact absurd h (by simp [FV.isNaN])
    | fin _ _ _ => exact absurd h (by simp [FV.isNaN])
  | fin s m e =>
    cases b with
    | nan => rfl
    | inf _ => exact absurd h (by simp [FV.isNaN])
    | fin _ _ _ => exact absurd h (by simp [FV.isNaN])

theorem eqFV_of_isNaN {a b : FV} (h : a.isNaN = true ∨ b.isNaN = true) : eqFV a b = false := by
  rcases h with h | h <;> simp [eqFV, h]

/-- With a NaN operand no ordering holds. -/
theorem fpCompare_of_isNaN {cond a b : Nat} (hcond : cond ≤ 6) (h : (f32Of a).isNaN = true ∨ (f32Of b).isNaN = true) :
    fpCompare cond a b = decide (cond = 1 ∨ cond = 6) := by
  have hun : ((f32Of a).isNaN || (f32Of b).isNaN) = true := (Bool.or_eq_true ..).mpr h
  obtain rfl | rfl | rfl | rfl | rfl | rfl | rfl : cond = 0 ∨ cond = 1 ∨ cond = 2 ∨ cond = 3 ∨ cond = 4 ∨ cond = 5 ∨ cond = 6 := by
    omega
  all_goals simp [fpCompare, hun, ltFV_of_isNaN h, ltFV_of_isNaN h.symm, eqFV_of_isNaN h]

theorem sext_word {a : Nat} : sext 32 a = (BitVec.ofNat 32 a).toInt := sext_eq_toInt_ofNat (by decide) a

/-- Settles O28: both forms are compares of their lanes; with a NaN no ordering holds, and integers compare as signed words. -/
theorem vectorCompares : Obligations.VectorCompares := by
  refine ⟨fun q hq => ?forms, fun cond a b hcond h => fpCompare_of_isNaN hcond h, by decide, fun a b _ _ => ?integers⟩
  case forms =>
    suffices harm : ∀ c w s, exec (q.2.1 c w) s = cmpOp q.1 c w q.2.2.1 q.2.2.2 s by
      intro c w s x slot t hop h
      refine ⟨compared q.2.2.1 x t, (harm ..).trans (cmpOp_turn hop h), fun i hi => ?_⟩
      obtain ⟨-, rfl, hw⟩ := chamTurn_ctx h
      rw [← hw]
      exact testBit_compared _ x t hi
    revert q
    simp only [List.forall_mem_cons, List.not_mem_nil, false_implies, implies_true, and_true]
    exact ⟨fun _ _ _ => rfl, fun _ _ _ => rfl⟩
  case integers =>
    simp only [intCompare, sext_word, and_self]

/-! ### Reductions (R61, R189) -/

/-- A node of the tree whose absent operand leaves the other as it is. -/
structure Absorbing (f : Option FV → Option FV → Option FV × Nat) : Prop where
  none_left : ∀ y, (f none y).1 = y
  none_right : ∀ y, (f y none).1 = y

theorem redLevel_map_range (f : Option FV → Option FV → Option FV × Nat) (g : Nat → Option FV) (n : Nat) :
    (redLevel f ((List.range (2 * n)).map g)).1 = (List.range n).map fun m => (f (g (2 * m)) (g (2 * m + 1))).1 := by
  induction n generalizing g with
  | zero => rfl
  | succ n ih =>
    have hpair : (List.range (2 * (n + 1))).map g = g 0 :: g 1 :: (List.range (2 * n)).map fun i => g (i + 2) := by
      rw [Nat.mul_succ, List.range_succ_eq_map, List.range_succ_eq_map]
      simp [Function.comp_def]
    rw [hpair, List.range_succ_eq_map, List.map_cons, List.map_map]
    exact congrArg (_ :: ·) (ih fun i => g (i + 2))

/-- The leaves of a tree with one value among them. -/
def leavesAt (k : Nat) (v : FV) (i : Nat) : Option FV := if i = k then some v else none

theorem node_leavesAt {f : Option FV → Option FV → Option FV × Nat} (hf : Absorbing f) (k : Nat) (v : FV) (m : Nat) :
    (f (leavesAt k v (2 * m)) (leavesAt k v (2 * m + 1))).1 = leavesAt (k / 2) v m := by
  by_cases hleft : 2 * m = k
  · have hright : leavesAt k v (2 * m + 1) = none := if_neg (by omega)
    rw [hright, hf.none_right, leavesAt, leavesAt, if_pos hleft, if_pos (by omega)]
  · have habsent : leavesAt k v (2 * m) = none := if_neg hleft
    rw [habsent, hf.none_left, leavesAt, leavesAt]
    congr 1
    apply propext
    omega

/-- A tree with one value among its leaves gives that value. -/
theorem redFold_leavesAt {f : Option FV → Option FV → Option FV × Nat} (hf : Absorbing f) (n : Nat) {k : Nat} (v : FV)
    (hk : k < 2 ^ n) : (redFold f n ((List.range (2 ^ n)).map (leavesAt k v))).1 = some v := by
  induction n generalizing k with
  | zero =>
    have h0 : k = 0 := by omega
    subst h0
    rfl
  | succ n ih =>
    have hlevel : (redLevel f ((List.range (2 ^ (n + 1))).map (leavesAt k v))).1 =
        (List.range (2 ^ n)).map (leavesAt (k / 2) v) := by
      rw [Nat.pow_succ, Nat.mul_comm, redLevel_map_range]
      exact List.map_congr_left fun m _ => node_leavesAt hf k v m
    exact (congrArg (fun l => (redFold f n l).1) hlevel).trans (ih (by omega))

/-- A tree without leaves gives nothing. -/
theorem redFold_none {f : Option FV → Option FV → Option FV × Nat} (hf : Absorbing f) (n : Nat) :
    (redFold f n ((List.range (2 ^ n)).map fun _ => none)).1 = none := by
  induction n with
  | zero => rfl
  | succ n ih =>
    have hlevel : (redLevel f ((List.range (2 ^ (n + 1))).map fun _ => none)).1 = (List.range (2 ^ n)).map fun _ => none := by
      rw [Nat.pow_succ, Nat.mul_comm, redLevel_map_range]
      exact List.map_congr_left fun m _ => hf.none_left none
    exact (congrArg (fun l => (redFold f n l).1) hlevel).trans ih

/-- The participating lanes of va, as the leaves of the tree. -/
def leavesOf (x : CCtx) (t : State) : List (Option FV) :=
  (List.range 128).map fun i =>
    if (readPr (getC t x.c) (cvPred x.w)).v.toNat.testBit i then some (f32Of (laneIn t x (cvVA x.w) i)) else none

theorem leavesOf_none {x : CCtx} {t : State} (h : ∀ i, i < 128 → (readPr (getC t x.c) (cvPred x.w)).v.toNat.testBit i = false) :
    leavesOf x t = (List.range (2 ^ 7)).map fun _ => none :=
  List.map_congr_left fun i hi => by rw [h i (List.mem_range.mp hi)]; rfl

theorem leavesOf_one {x : CCtx} {t : State} {k : Nat}
    (h : ∀ i, i < 128 → (readPr (getC t x.c) (cvPred x.w)).v.toNat.testBit i = decide (i = k)) :
    leavesOf x t = (List.range (2 ^ 7)).map (leavesAt k (f32Of (laneIn t x (cvVA x.w) k))) := by
  refine List.map_congr_left fun i hi => ?_
  rw [h i (List.mem_range.mp hi), leavesAt]
  by_cases hik : i = k
  · rw [if_pos hik, hik, decide_eq_true rfl, if_pos rfl]
  · rw [if_neg hik, decide_eq_false hik]
    rfl

/-- The state of a reduction once its NaNs are counted. -/
def reduceCounted (f : Option FV → Option FV → Option FV × Nat) (x : CCtx) (t : State) : State :=
  countNan (countNan t 1 (nanCount ((leavesOf x t).filterMap id)) x.d x.u) 2 (redFold f 7 (leavesOf x t)).2 x.d x.u

/-- The mark of a reduction: a participating lane is poisoned, or a predicate bit. -/
def reducePoison (x : CCtx) (t : State) : Bool :=
  decide (((readV (getC t x.c) (cvVA x.w)).p &&& (readPr (getC t x.c) (cvPred x.w)).v) ≠ 0) ||
    decide ((readPr (getC t x.c) (cvPred x.w)).p ≠ 0)

theorem reduceOp_turn {op c : Nat} {w : W64} {f : Option FV → Option FV → Option FV × Nat} {empty : FV} {s : State} {x : CCtx}
    {slot : Nat} {t : State} (hop : opcodeOf w.toNat = op) (h : chamTurn c w s = some (x, slot, t)) :
    reduceOp op c w f empty s = .next (chamDone x slot (result (reduceCounted f x t) x.c x.d 10 (.s (cvS x.w)
      ⟨BitVec.ofNat 64 (f32Bits ((redFold f 7 (leavesOf x t)).1.getD empty)), reducePoison x t⟩))) := by
  obtain ⟨-, rfl, hw⟩ := chamTurn_ctx h
  exact issueC_ok h hop rfl

/-- The larger of two values, either of which may be absent. -/
def maxNode (a b : Option FV) : Option FV × Nat :=
  (match a, b with
    | none, y => y
    | x, none => x
    | some x, some y => some (maxFV x y), 0)

theorem absorbing_sum : Absorbing fun a b => (addOpt a b, addMade a b) :=
  ⟨fun y => by cases y <;> rfl, fun y => by cases y <;> rfl⟩

theorem absorbing_max : Absorbing maxNode := ⟨fun y => by cases y <;> rfl, fun y => by cases y <;> rfl⟩

/-- A predicate operation at its turn (R188). -/
theorem predOp_turn {op c : Nat} {w : W64} {f : W128 → W128 → W128} {two : Bool} {s : State} {x : CCtx} {slot : Nat} {t : State}
    (hop : opcodeOf w.toNat = op) (h : chamTurn c w s = some (x, slot, t)) :
    predOp op c w f two s = .next (chamDone x slot (result t c x.d 2 (.p (cvPD w.toNat) (BitVec.allOnes 128)
      ⟨f (readPr (getC t c) (cvPA w.toNat)).v (readPr (getC t c) (cvPB w.toNat)).v,
        if two then (readPr (getC t c) (cvPA w.toNat)).p ||| (readPr (getC t c) (cvPB w.toNat)).p
        else (readPr (getC t c) (cvPA w.toNat)).p⟩))) := by
  obtain ⟨-, rfl, hw⟩ := chamTurn_ctx h
  rw [← hw]
  exact issueC_ok h hop rfl

/-- Settles O29: absent operands leave the other as it is, so that no lane and one lane give what they must. -/
theorem reductionsAndPredicates : Obligations.ReductionsAndPredicates := by
  refine ⟨fun q hq => ?reductions, fun q hq => ?predicates⟩
  case reductions =>
    suffices harm : Absorbing q.2.2.1 ∧ ∀ c w s, exec (q.2.1 c w) s = reduceOp q.1 c w q.2.2.1 q.2.2.2 s by
      obtain ⟨hf, harm⟩ := harm
      intro c w s x slot t hop h
      have hexec := (harm ..).trans (reduceOp_turn (f := q.2.2.1) (empty := q.2.2.2) hop h)
      obtain ⟨-, rfl, hw⟩ := chamTurn_ctx h
      simp only [← hw]
      refine ⟨_, _, _, hexec, rfl, ?_, fun hnone => ?_, fun k hk hone => ?_, ?_⟩
      · rw [reducePoison, Bool.or_eq_true, decide_eq_true_eq, decide_eq_true_eq]
      · rw [leavesOf_none hnone, redFold_none hf]
        rfl
      · rw [leavesOf_one hone, redFold_leavesAt hf 7 _ hk]
        rfl
      · exact onlyParams_trans (onlyParams_countNan ..) (onlyParams_countNan ..)
    revert q
    simp only [List.forall_mem_cons, List.not_mem_nil, false_implies, implies_true, and_true]
    exact ⟨⟨absorbing_sum, fun _ _ _ => rfl⟩, absorbing_max, fun _ _ _ => rfl⟩
  case predicates =>
    suffices harm : ∀ c w s, exec (q.2.1 c w) s = predOp q.1 c w q.2.2.1 q.2.2.2 s from
      fun c w s x slot t hop h => (harm ..).trans (predOp_turn hop h)
    revert q
    simp only [List.forall_mem_cons, List.not_mem_nil, false_implies, implies_true, and_true]
    exact ⟨fun _ _ _ => rfl, fun _ _ _ => rfl, fun _ _ _ => rfl, fun _ _ _ => rfl⟩

end Sys2Proof.Machine
end

