-- ==== Sys2Proof/Proofs/ChamoisMemory.lean ====
section
/-!
SUPPORT. "Chamois cores, Memory, blocks and conversion" and "Transfers and the Stash": the accesses on their way, what each
does at its cycle, the block unit, and the statements about them.
-/
namespace Sys2Proof.Machine

/-! ### Loads and stores (R192) -/

theorem lineAddr_ok {x : CCtx} {t : State} (k : Nat → CEff) (hp : (readS (getC t x.c) (cmSB x.w)).p = false)
    (hin : wrap 64 (((readS (getC t x.c) (cmSB x.w)).v.toNat : Int) + cmOff x.w) + 8 ≤ 0x20000) :
    lineAddr x t k = k (wrap 64 (((readS (getC t x.c) (cmSB x.w)).v.toNat : Int) + cmOff x.w)) := by
  have hpoison : ¬((readS (getC t x.c) (cmSB x.w)).p = true) := by rw [hp]; decide
  exact (if_neg hpoison).trans (if_neg (Nat.not_lt.mpr hin))

theorem scalarAddr_ok {x : CCtx} {t : State} (k : Nat → CEff) (hp : (readS (getC t x.c) (cmSB x.w)).p = false)
    (halign : wrap 64 (((readS (getC t x.c) (cmSB x.w)).v.toNat : Int) + 8 * cmOff x.w) % 8 = 0)
    (hin : wrap 64 (((readS (getC t x.c) (cmSB x.w)).v.toNat : Int) + 8 * cmOff x.w) + 8 ≤ 0x800000) :
    scalarAddr x t k = k (wrap 64 (((readS (getC t x.c) (cmSB x.w)).v.toNat : Int) + 8 * cmOff x.w)) := by
  have hpoison : ¬((readS (getC t x.c) (cmSB x.w)).p = true) := by rw [hp]; decide
  refine (if_neg hpoison).trans (if_neg fun hbad => ?_)
  rw [Bool.or_eq_true, decide_eq_true_eq, decide_eq_true_eq] at hbad
  rcases hbad with hbad | hbad
  · exact hbad halign
  · exact Nat.not_lt.mpr hin hbad

/-- Where no stored byte is in error a check of lines finds nothing. -/
theorem checkRange_of_noErrs {s : State} (h : s.errs = []) (pa n : Nat) (d : Option Nat) : checkRange s pa n d = s := by
  rw [checkRange, h]
  rfl

theorem checkLines_of_noErrs {s : State} (h : s.errs = []) (u line n d : Nat) : checkLines s u line n d = s :=
  checkRange_of_noErrs h ..

theorem foldl_checkLines_of_noErrs {s : State} (h : s.errs = []) (u d : Nat) (ls : List Nat) :
    ls.foldl (fun s l => checkLines s u l 1 d) s = s :=
  foldl_keeps (· = s) _ (fun v l (hv : v = s) => by rw [hv, checkLines_of_noErrs h]) ls s rfl

theorem leNat_lt (bs : List Byte) : leNat bs < 2 ^ (8 * bs.length) := by
  induction bs with
  | nil => exact Nat.one_pos
  | cons b r ih =>
    rw [leNat, List.length_cons, Nat.mul_succ, Nat.pow_add]
    have hb := b.isLt
    omega

/-- The register that a VLD makes of the bytes and marks of eight lines. -/
def loadedV (s : State) (pa : Nat) : VReg :=
  ofLanes ((List.range 128).map fun i =>
    (leNat ((((readP s pa 512).drop (4 * i)).take 4).map (·.1)), (((readP s pa 512).drop (4 * i)).take 4).any (·.2)))

/-- Four bytes of what a VLD reads are the bytes of its lane. -/
theorem word_readP (s : State) (pa : Nat) {i : Nat} (hi : i < 128) :
    ((readP s pa 512).drop (4 * i)).take 4 =
      (List.range 4).map fun k => (readByte s (pa + (4 * i + k)), poisoned s (pa + (4 * i + k))) :=
  take_drop_map_range (fun k => (readByte s (pa + k), poisoned s (pa + k))) (by omega)

theorem loadedV_lane (s : State) (pa : Nat) {i : Nat} (hi : i < 128) :
    laneBitsOf (loadedV s pa) i = leNat ((List.range 4).map fun k => readByte s (pa + (4 * i + k))) ∧
    (loadedV s pa).p.toNat.testBit i = (List.range 4).any fun k => poisoned s (pa + (4 * i + k)) := by
  rw [loadedV, laneBitsOf_ofLanes_range _ hi, mark_ofLanes_range _ hi, word_readP s pa hi, List.map_map, List.any_map]
  exact ⟨Nat.mod_eq_of_lt (leNat_lt _), rfl⟩

/-- An access that reads finds no byte in error to report. -/
theorem doJob_vld {s : State} (c d dcc : Nat) {j : CJob} (herrs : s.errs = []) (hkind : j.kind = .vld) :
    doJob s c d dcc j =
      (result s c d 4 (.v (cmReg j.word % 32) (BitVec.allOnes 128) (loadedV s (corePa (0x40 + c) (64 * j.addrs.headD 0)))), none) := by
  simp only [doJob, foldl_checkLines_of_noErrs herrs, ite_self, hkind]
  rfl

theorem doJob_lds {s : State} (c d dcc : Nat) {j : CJob} (herrs : s.errs = []) (hkind : j.kind = .lds) :
    doJob s c d dcc j = (result s c d 3 (.s (cmReg j.word)
      ⟨BitVec.ofNat 64 (leNat ((readP s (corePa (0x40 + c) (j.addrs.headD 0)) 8).map (·.1))),
        (readP s (corePa (0x40 + c) (j.addrs.headD 0)) 8).any (·.2)⟩), none) := by
  simp only [doJob, foldl_checkLines_of_noErrs herrs, ite_self, hkind]

theorem doJob_store (s : State) (c d dcc : Nat) {j : CJob} (hkind : j.kind = .store) :
    doJob s c d dcc j = (j.runs.foldl (fun s r => writeP s (corePa (0x40 + c) r.1) r.2) s, none) := by
  have hreads : j.reads = false := by rw [CJob.reads, hkind]; rfl
  rw [doJob, hreads, hkind]
  rfl

/-- A byte of a core's memory by its place behind an address there. -/
theorem corePa_add (u a k : Nat) : corePa u a + k = corePa u (a + k) := by rw [corePa, corePa, Nat.add_assoc]

/-- Settles O30: the checks pass, the access joins those on their way, and a load reads its own bytes and marks. -/
theorem loadsAndStores : Obligations.LoadsAndStores := by
  refine ⟨?vld, ?vst, ?lds, ?sts, fun s c d dcc a j herrs haddrs => ⟨fun hkind => ?vldRead, fun hkind => ?ldsRead⟩⟩
  case vldRead =>
    refine ⟨_, doJob_vld c d dcc herrs hkind, fun i hi => ?_⟩
    obtain ⟨hbits, hmark⟩ := loadedV_lane s (corePa (0x40 + c) (64 * j.addrs.headD 0)) hi
    rw [hbits, hmark, haddrs]
    simp only [corePa_add, Nat.add_assoc]
    exact ⟨rfl, rfl⟩
  case ldsRead =>
    rw [doJob_lds c d dcc herrs hkind, haddrs, readP, List.map_map, List.any_map]
    simp only [Function.comp_def, corePa_add, List.headD_cons]
  all_goals intro c w s x slot t hop h hp
  all_goals obtain ⟨-, rfl, hw⟩ := chamTurn_ctx h
  all_goals simp only [← hw] at hp ⊢
  case vld => exact fun hin => issueC_ok h hop (lineAddr_ok _ hp hin)
  case vst => exact fun hin => issueC_ok h hop (lineAddr_ok _ hp hin)
  case lds => exact fun halign hin => issueC_ok h hop (scalarAddr_ok _ hp halign hin)
  case sts => exact fun halign hin => issueC_ok h hop (scalarAddr_ok _ hp halign hin)

/-! ### A store at its cycle (R180, R192) -/

/-- One request alone has its banks, and an access that ends leaves no job. -/
theorem requests_one (dcc : Nat) {j : CJob} (hkind : j.kind = .store) :
    requests dcc [j] = if j.at_ ≤ dcc then [(0, j)] else [] := by
  have hclass : j.kind.class = 0 := by rw [hkind]; rfl
  simp [requests, hclass, List.range_succ, List.filter_cons]

theorem jobsCycle_of_early {s : State} {c d dcc : Nat} {j : CJob} (hjobs : (getC s c).jobs = [j]) (hkind : j.kind = .store)
    (h : dcc < j.at_) : jobsCycle s c d dcc = s := by
  rw [jobsCycle, hjobs, requests_one dcc hkind, if_neg (Nat.not_le.mpr h)]
  rfl

theorem serve_one {s : State} (c d dcc : Nat) {j : CJob} :
    serve c d dcc [(0, j)] [] { s := s } =
      { s := (doJob s c d dcc j).1, out := [(0, (doJob s c d dcc j).2)] } := by
  have hfree : j.banks.any (fun b => List.contains [] b) = false := List.any_eq_false.mpr fun _ _ => by simp
  rw [serve]
  exact if_neg (by rw [show (j.banks.any ([] : List Nat).contains) = false from hfree]; decide)

theorem getC_writes (s : State) (c : Nat) (runs : List (Nat × List (Byte × Bool))) (k : Nat) :
    getC (runs.foldl (fun s r => writeP s (corePa (0x40 + c) r.1) r.2) s) k = getC s k :=
  foldl_keeps (fun v => getC v k = getC s k) (fun s r => writeP s (corePa (0x40 + c) r.1) r.2)
    (fun v r hv => (getC_writeP v k (corePa (0x40 + c) r.1) r.2).trans hv) runs s rfl

theorem jobsCycle_of_due {s : State} {c d dcc : Nat} {j : CJob} (hjobs : (getC s c).jobs = [j]) (hkind : j.kind = .store)
    (h : j.at_ ≤ dcc) : jobsCycle s c d dcc =
      setC (j.runs.foldl (fun s r => writeP s (corePa (0x40 + c) r.1) r.2) s) c { getC s c with jobs := [] } := by
  rw [jobsCycle, hjobs, requests_one dcc hkind, if_pos h, serve_one, doJob_store s c d dcc hkind]
  simp only [getC_writes]
  rfl

theorem getD_map_fst (bs : List (Byte × Bool)) (b : Byte) {i : Nat} : (bs.map (·.1)).getD i b = (bs.getD i (b, false)).1 := by
  rw [List.getD_eq_getElem?_getD, List.getD_eq_getElem?_getD, List.getElem?_map]
  cases bs[i]? <;> rfl

/-- Settles O31: before its cycle a store makes no request; at it, it has its banks, and what it writes are its own bytes. -/
theorem storesReachMemoryOnce : Obligations.StoresReachMemoryOnce :=
  ⟨fun _ _ _ _ _ hjobs hkind => ⟨jobsCycle_of_early hjobs hkind, jobsCycle_of_due hjobs hkind⟩,
    fun s c a runs hout => by
      induction runs generalizing s with
      | nil => rfl
      | cons r runs ih =>
        rw [List.foldl_cons, ih _ fun q hq => hout q (List.mem_cons_of_mem _ hq)]
        exact sameMemoryBut_writeP s _ r.2 a (hout r List.mem_cons_self),
    fun s c lo k bs hk => (readByte_writeP_inside s _ k bs hk).trans
      (getD_map_fst bs 0)⟩

/-! ### The block unit (R193 to R196) -/

theorem sameMemory_addJob (x : CCtx) (kind : CKind) (lat count : Nat) (addrs : List Nat) (f : CJob → CJob) (t : State) :
    SameMemory t (addJob x kind lat count addrs f t) := sameMemory_of_eq rfl

theorem getC_addJob (x : CCtx) (kind : CKind) (lat count : Nat) (addrs : List Nat) (f : CJob → CJob) (t : State) :
    (getC (addJob x kind lat count addrs f t) x.c).jobs = (getC t x.c).jobs ++
      [f { kind := kind, at_ := (getD t x.d).dcc + lat, count := count, word := x.w, offset := x.off, tag := x.tag,
           addrs := addrs, pol := nanPolicy t }] := congrArg Cham.jobs (getC_setC_same ..)

theorem fxTrd_ok {x : CCtx} {t : State} {ls : List Nat} (hls : tileLinesC x t = some ls) (hin : imageBad (cbFmt x.w) ls = false) :
    fxTrd x t = .ok (addJob x .trd 1 (if cbCols x.w then 16 else 2) ls id t) := by
  simp only [fxTrd, hls, hin]
  rfl

/-- A conversion key whose format passes the gradient floor (R168, R194). -/
theorem floorPasses {k : CKey} {t : State} {f : Nat} (h : k.grad = true → floorOk t f = true) : (k.grad && !floorOk t f) = false := by
  cases hg : k.grad
  · rfl
  · rw [h hg]
    rfl

/-- Nothing but parameters, monitor slots and the core has changed: what the units of a Chamois core count. -/
def OnlyCounts (s u : State) : Prop := u = { s with par := u.par, mons := u.mons }

theorem onlyCounts_trans {s t u : State} (h : OnlyCounts s t) (k : OnlyCounts t u) : OnlyCounts s u := by
  rw [OnlyCounts] at h k ⊢
  rw [k, h]

theorem onlyCounts_of_onlyParams {s u : State} (h : OnlyParams s u) : OnlyCounts s u := by
  rw [OnlyCounts, h]

theorem onlyCounts_countSat (s : State) (tensor n : Nat) : OnlyCounts s (countSat s tensor n) := by
  unfold countSat
  split
  · rfl
  split <;> rfl

theorem onlyCounts_countConv (s : State) (tensor : Nat) (os : List RowOut) : OnlyCounts s (countConv s tensor os) :=
  onlyCounts_trans (onlyCounts_countSat ..) (onlyCounts_trans (onlyCounts_of_onlyParams (onlyParams_incP ..))
    (onlyCounts_of_onlyParams (onlyParams_incP ..)))

theorem getC_of_onlyCounts {s u : State} (h : OnlyCounts s u) (c : Nat) : getC u c = getC s c := by rw [h]; rfl

theorem getD_of_onlyCounts {s u : State} (h : OnlyCounts s u) (d : Nat) : getD u d = getD s d := by rw [h]; rfl

theorem sameMemory_of_onlyCounts {s u : State} (h : OnlyCounts s u) : SameMemory s u := by
  rw [h]
  exact sameMemory_of_eq rfl

/-- A TWR that is held up by no check leaves its job, with its key and lanes latched, and what its conversions count. -/
theorem fxTwr_ok {x : CCtx} {t : State} {ls : List Nat} (hls : tileLinesC x t = some ls) (hin : imageBad (cbFmt x.w) ls = false)
    (hbad : (keyOf x t).bad = false) (hp : (keyOf x t).p = false) (hcols : cbCols x.w = true → cbFmt x.w < 0x0E)
    (hfloor : (keyOf x t).grad = true → floorOk t (cbFmt x.w) = true) (hpolicy : nanPolicy t ≠ 1) :
    ∃ u v, fxTwr x t = .ok (addJob x .twr 10 (if cbCols x.w then 16 else 1) ls
      (latchKey v (keyOf x t) (readV (getC t x.c) (cbV x.w))) u) ∧ OnlyCounts t u := by
  have hformat : (cbCols x.w && decide (0x0E ≤ cbFmt x.w)) = false := by
    cases hc : cbCols x.w
    · rfl
    · rw [decide_eq_false (Nat.not_le.mpr (hcols hc))]
      rfl
  have hlost : ∀ os n d, losesNan (nanPolicy (countNan t 1 n d x.u)) os = false := fun os n d => by
    rw [losesNan, nanPolicy_countNan t _ _ _ (by decide), beq_false_of_ne hpolicy]
    rfl
  simp only [fxTwr, hbad, hformat, floorPasses hfloor, hls, hp, hin, hlost, Bool.or_self, Bool.false_eq_true, if_false]
  exact ⟨_, _, rfl, onlyCounts_trans (onlyCounts_of_onlyParams (onlyParams_countNan ..)) (onlyCounts_countConv ..)⟩

theorem fxSfacc_ok {x : CCtx} {t : State} {ls : List Nat} (hls : tileLinesC x t = some ls) (hin : imageBad 0x16 ls = false)
    (hformat : cbFmt x.w = 0x16) (hbad : (keyOf x t).bad = false) (hp : (keyOf x t).p = false)
    (hfloor : (keyOf x t).grad = true → floorOk t 0x16 = true) :
    fxSfacc x t = .ok (addJob x .sfacc 1 3 ls (latchKey t (keyOf x t) (readV (getC t x.c) (cbV x.w))) t) := by
  simp only [fxSfacc, hbad, hformat, floorPasses hfloor, hls, hp, hin, Bool.false_eq_true, if_false, ne_eq, not_true_eq_false,
    decide_false, Bool.or_self]

/-- The lanes that a cycle of a TRD or SFACC reads (R193, R201). -/
theorem readLanes_job (s : State) (u : Nat) (j : CJob) :
    let n := if cbCols j.word then 8 else 64
    let cell (k : Nat) : Nat × Nat × Nat :=
      if cbCols j.word then (j.addrs.getD ((8 * j.pos + k) / 64) 0, (8 * j.pos + k) % 64, cbIdx j.word)
      else (j.addrs.headD 0, 2 * cbIdx j.word + j.pos, k)
    (readLanes s u j).2 = { j with lanes := j.lanes ++ (List.range n).map fun k =>
      (f32Bits (roundF32 (decodeAt (cbFmt j.word) (coreRd s u (cell k).1) (cell k).2.1 (cell k).2.2)),
        poisonAt (cbFmt j.word) (corePz s u (cell k).1) (cell k).2.1 (cell k).2.2) } := by
  cases hcols : cbCols j.word
  · simp only [readLanes, CJob.cols, hcols, if_false, Bool.false_eq_true, List.map_map, Function.comp_def, laneOf, stage2, elemAt]
  · simp only [readLanes, CJob.cols, hcols, if_true, colLanes, List.map_map]
    rfl

/-- Settles O32: with the checks passed the accesses join those on their way, and nothing is written at the issue. -/
theorem blockUnitCompletes : Obligations.BlockUnitCompletes := by
  refine ⟨?trd, ?twr, ?sfacc, readLanes_job⟩ <;> intro c w s x slot t hop h ls hls hin <;>
    obtain ⟨-, rfl, hw⟩ := chamTurn_ctx h <;> simp only [← hw] at hin ⊢
  case trd => exact ⟨issueC_ok h hop (fxTrd_ok hls hin), sameMemory_addJob _ _ _ _ _ _ _⟩
  case twr =>
    intro hbad hp hcols hfloor hpolicy
    obtain ⟨u, v, hfx, honly⟩ := fxTwr_ok hls hin hbad hp hcols hfloor hpolicy
    refine ⟨_, _, issueC_ok h hop hfx, SameMemory.trans (sameMemory_of_onlyCounts honly) (sameMemory_addJob _ _ _ _ _ _ _),
      (getC_addJob ..).trans (by rw [getC_of_onlyCounts honly]), rfl, ?_, rfl, rfl, rfl, rfl, rfl⟩
    exact congrArg (·.dcc + 10) (getD_of_onlyCounts honly x.d)
  case sfacc =>
    intro hformat hbad hp hfloor
    exact ⟨_, _, issueC_ok h hop (fxSfacc_ok hls hin hformat hbad hp hfloor), sameMemory_addJob _ _ _ _ _ _ _, getC_addJob .., rfl, rfl,
      rfl, rfl, rfl, rfl, rfl⟩

end Sys2Proof.Machine
end

