-- ==== Sys2Proof/Proofs/ChamoisTransfers.lean ====
section
/-!
SUPPORT. "Chamois cores, The narrow path" and "Transfers and the Stash": with clean registers and addresses that pass the
checks each form begins its operation.
-/
namespace Sys2Proof.Machine

/-- With clean registers and granules inside the core's memory NGATH and NSCAT begin (R197). -/
theorem fxNarrow_ok (kind : XKind) {x : CCtx} {t : State} (hsb : (readS (getC t x.c) (cnSB x.w)).p = false)
    (hst : (readS (getC t x.c) (cnSS x.w)).p = false) (hsl : (readS (getC t x.c) (cnSL x.w)).p = false)
    (asb : (readS (getC t x.c) (cnSB x.w)).v.toNat % 32 = 0) (ast : (readS (getC t x.c) (cnSS x.w)).v.toNat % 32 = 0)
    (asl : (readS (getC t x.c) (cnSL x.w)).v.toNat % 32 = 0)
    (hin : (readS (getC t x.c) (cnSL x.w)).v.toNat + 32 * ((cnCount1 x.w + 1) * (cnGran1 x.w + 1)) ≤ 0x800000) :
    fxNarrow kind x t =
      let gs := granulesOf x.w (readV (getC t x.c) (cnVI x.w)) (readS (getC t x.c) (cnSB x.w)).v.toNat
        (readS (getC t x.c) (cnSS x.w)).v.toNat (readS (getC t x.c) (cnSL x.w)).v.toNat
      let f : Xfer := ⟨x.u, 2, x.tag, x.d, kind, gs.length, 0, 0, 0, 0, 0, 0,
        if cnTokenEn x.w then some (posOf x.u, cnToken x.w) else none, gs, [], none, x.w, x.off, t.ctc⟩
      .ok (if kind == .nscat then meshJob x gs.length (gs.map (·.2)) (addXfer t f) else startXfer t f []) := by
  have hbytes : ¬(chamBytes < (readS (getC t x.c) (cnSL x.w)).v.toNat + 32 * ((cnCount1 x.w + 1) * (cnGran1 x.w + 1))) :=
    Nat.not_lt.mpr hin
  simp only [fxNarrow, hsb, hst, hsl, asb, ast, asl, decide_eq_false hbytes, Bool.or_self, Bool.false_eq_true, if_false, ne_eq,
    not_true_eq_false, decide_false, tokOf_map]

/-- With clean registers and a length from 1 a transfer goes on to its addresses (R184, R199). -/
theorem transferRegs_ok {x : CCtx} {t : State} (sr : Bool) (k : Nat → Nat → Nat → CEff)
    (hsl : (readS (getC t x.c) (ctSL x.w)).p = false) (hsr : sr = true → (readS (getC t x.c) (ctSR x.w)).p = false)
    (hsn : (readS (getC t x.c) (ctSN x.w)).p = false) (hlen : (readS (getC t x.c) (ctSN x.w)).v.toNat ≠ 0) :
    transferRegs x t sr k = k (readS (getC t x.c) (ctSL x.w)).v.toNat (readS (getC t x.c) (ctSR x.w)).v.toNat
      (readS (getC t x.c) (ctSN x.w)).v.toNat := by
  have hclean : (sr && (readS (getC t x.c) (ctSR x.w)).p) = false := by
    cases sr
    · rfl
    · exact hsr rfl
  simp only [transferRegs, hsl, hsn, hclean, beq_false_of_ne hlen, Bool.or_self, Bool.false_eq_true, if_false]

theorem fxMlong_ok (kind : XKind) {x : CCtx} {t : State} (hsl : (readS (getC t x.c) (ctSL x.w)).p = false)
    (hrr : (readS (getC t x.c) (ctSR x.w)).p = false) (hsn : (readS (getC t x.c) (ctSN x.w)).p = false)
    (hlen : (readS (getC t x.c) (ctSN x.w)).v.toNat ≠ 0)
    (hlocal : localBad (readS (getC t x.c) (ctSL x.w)).v.toNat (readS (getC t x.c) (ctSN x.w)).v.toNat = false)
    (halign : (readS (getC t x.c) (ctSR x.w)).v.toNat % 64 = 0) :
    fxMlong kind x t =
      let f := longXfer t x.u 2 x.tag x.d kind (readS (getC t x.c) (ctSR x.w)).v.toNat (readS (getC t x.c) (ctSL x.w)).v.toNat
        (readS (getC t x.c) (ctSN x.w)).v.toNat (if ctTokenEn x.w then some (posOf x.u, ctToken x.w) else none) x.w x.off
      .ok (if kind == .tst then
          meshJob x (readS (getC t x.c) (ctSN x.w)).v.toNat [(readS (getC t x.c) (ctSL x.w)).v.toNat] (addXfer t f)
        else startXfer t f []) := by
  rw [fxMlong, transferRegs_ok true _ hsl (fun _ => hrr) hsn hlen]
  simp only [hlocal, halign, Bool.false_or, ne_eq, not_true_eq_false, decide_false, Bool.false_eq_true, if_false, tokOf_map]

theorem fxMcore_ok (put : Bool) {x : CCtx} {t : State} (hsl : (readS (getC t x.c) (ctSL x.w)).p = false)
    (hrr : (readS (getC t x.c) (ctSR x.w)).p = false) (hsn : (readS (getC t x.c) (ctSN x.w)).p = false)
    (hlen : (readS (getC t x.c) (ctSN x.w)).v.toNat ≠ 0)
    (hlocal : localBad (readS (getC t x.c) (ctSL x.w)).v.toNat (readS (getC t x.c) (ctSN x.w)).v.toNat = false)
    (htarget : targetBad (ctPos x.w) (readS (getC t x.c) (ctSR x.w)).v.toNat (readS (getC t x.c) (ctSN x.w)).v.toNat = false) :
    fxMcore put x t =
      let f := coreXfer t x.u 2 x.tag x.d put (ctPos x.w) (readS (getC t x.c) (ctSL x.w)).v.toNat
        (readS (getC t x.c) (ctSR x.w)).v.toNat (readS (getC t x.c) (ctSN x.w)).v.toNat
        (if ctTokenEn x.w then some (ctToken x.w) else none) x.w x.off
      .ok (if put then
          meshJob x (readS (getC t x.c) (ctSN x.w)).v.toNat [(readS (getC t x.c) (ctSL x.w)).v.toNat] (addXfer t f)
        else startXfer t f []) := by
  rw [fxMcore, transferRegs_ok true _ hsl (fun _ => hrr) hsn hlen]
  simp only [hlocal, htarget, Bool.or_self, Bool.false_eq_true, if_false, tokOf]

theorem fxMrsend_ok {x : CCtx} {t : State} (hsl : (readS (getC t x.c) (ctSL x.w)).p = false)
    (hsn : (readS (getC t x.c) (ctSN x.w)).p = false) (hlen : (readS (getC t x.c) (ctSN x.w)).v.toNat ≠ 0)
    (hlocal : localBad (readS (getC t x.c) (ctSL x.w)).v.toNat (readS (getC t x.c) (ctSN x.w)).v.toNat = false)
    (htree : treeOk t x.u (ctTree x.w) = true) :
    fxMrsend x t =
      let r := redXfer t x.u 2 x.tag x.d (ctTree x.w) (readS (getC t x.c) (ctSL x.w)).v.toNat
        (readS (getC t x.c) (ctSN x.w)).v.toNat x.w x.off
      .ok (meshJob x (readS (getC t x.c) (ctSN x.w)).v.toNat [(readS (getC t x.c) (ctSL x.w)).v.toNat]
        (addXfer r.2 { r.1 with tok := if ctTokenEn x.w then some (posOf x.u, ctToken x.w) else none })) := by
  rw [fxMrsend, transferRegs_ok false _ hsl (fun h => absurd h (by decide)) hsn hlen]
  simp only [hlocal, htree, Bool.not_true, Bool.or_self, Bool.false_eq_true, if_false, tokOf_map]

/-- With clean registers, a key of 16 bits and a range inside the core's memory a Stash form goes on (R184, R199). -/
theorem stashRegs_ok {x : CCtx} {t : State} (k : Nat → Nat → CEff) (hsl : (readS (getC t x.c) (ckSL x.w)).p = false)
    (hsk : (readS (getC t x.c) (ckSK x.w)).p = false) (hkey : (readS (getC t x.c) (ckSK x.w)).v.toNat < 2 ^ 16)
    (hlocal : localBad (readS (getC t x.c) (ckSL x.w)).v.toNat (ckCount x.w * imageLines (ckFmt x.w)) = false)
    (howns : ownsStrand t x.d (ckStrand x.w) = true) :
    stashRegs x t k = k (readS (getC t x.c) (ckSL x.w)).v.toNat (readS (getC t x.c) (ckSK x.w)).v.toNat := by
  simp only [stashRegs, if_neg (Nat.not_le.mpr hkey), hsl, hsk, hlocal, howns, Bool.not_true, Bool.or_self,
    Bool.false_eq_true, if_false]

theorem fxCpush_ok {x : CCtx} {t : State} (hsl : (readS (getC t x.c) (ckSL x.w)).p = false)
    (hsk : (readS (getC t x.c) (ckSK x.w)).p = false) (hkey : (readS (getC t x.c) (ckSK x.w)).v.toNat < 2 ^ 16)
    (hlocal : localBad (readS (getC t x.c) (ckSL x.w)).v.toNat (ckCount x.w * imageLines (ckFmt x.w)) = false)
    (howns : ownsStrand t x.d (ckStrand x.w) = true)
    (hroom : stashFull t x.u (ckStrand x.w) (imageLines (ckFmt x.w)) (ckCount x.w) = none) :
    fxCpush x t = .ok (meshJob x (ckCount x.w * imageLines (ckFmt x.w)) [(readS (getC t x.c) (ckSL x.w)).v.toNat]
      (beginPush (notePush t x.u (ckStrand x.w) (imageLines (ckFmt x.w)) (ckCount x.w)) x.u 2 x.d x.tag (ckStrand x.w)
        (readS (getC t x.c) (ckSK x.w)).v.toNat (ckFmt x.w) (dataStep t (ckStrand x.w)) x.w x.off (ckCount x.w) .spush)) := by
  rw [fxCpush, stashRegs_ok _ hsl hsk hkey hlocal howns]
  simp only [hroom]

theorem fxCpop_ok {x : CCtx} {t : State} (hsl : (readS (getC t x.c) (ckSL x.w)).p = false)
    (hsk : (readS (getC t x.c) (ckSK x.w)).p = false) (hkey : (readS (getC t x.c) (ckSK x.w)).v.toNat < 2 ^ 16)
    (hlocal : localBad (readS (getC t x.c) (ckSL x.w)).v.toNat (ckCount x.w * imageLines (ckFmt x.w)) = false)
    (howns : ownsStrand t x.d (ckStrand x.w) = true) :
    fxCpop x t = .ok (popTiles t x.u 2 x.d x.tag (ckStrand x.w) (readS (getC t x.c) (ckSK x.w)).v.toNat (ckFmt x.w)
      (ckCount x.w) (readS (getC t x.c) (ckSL x.w)).v.toNat x.w x.off
      (if ckTokenEn x.w then some (posOf x.u, ckToken x.w) else none)) := by
  rw [fxCpop, stashRegs_ok _ hsl hsk hkey hlocal howns, tokOf_map]

/-- Settles O33: with the registers clean and the addresses in range each form begins its operation. -/
theorem chamoisTransfersComplete : Obligations.ChamoisTransfersComplete := by
  refine ⟨?narrow, ?long, ?core, ?rsend, ?stash⟩
  case rsend =>
    intro c w s x slot t hop h
    obtain ⟨-, rfl, hw⟩ := chamTurn_ctx h
    simp only [← hw]
    exact fun hsl hsn hlen hlocal htree => issueC_ok h hop (fxMrsend_ok hsl hsn hlen hlocal htree)
  all_goals simp only [List.forall_mem_cons, List.not_mem_nil, false_implies, implies_true, and_true]
  all_goals constructor <;> intro c w s x slot t hop h <;> obtain ⟨-, rfl, hw⟩ := chamTurn_ctx h <;> simp only [← hw]
  case narrow.left =>
    exact fun hsb hst hsl asb ast asl hin => issueC_ok h hop (fxNarrow_ok .ngath hsb hst hsl asb ast asl hin)
  case narrow.right =>
    exact fun hsb hst hsl asb ast asl hin => issueC_ok h hop (fxNarrow_ok .nscat hsb hst hsl asb ast asl hin)
  case long.left =>
    exact fun hsl hrr hsn hlen hlocal halign => issueC_ok h hop (fxMlong_ok .tld hsl hrr hsn hlen hlocal halign)
  case long.right =>
    exact fun hsl hrr hsn hlen hlocal halign => issueC_ok h hop (fxMlong_ok .tst hsl hrr hsn hlen hlocal halign)
  case core.left =>
    exact fun hsl hrr hsn hlen hlocal htarget => issueC_ok h hop (fxMcore_ok true hsl hrr hsn hlen hlocal htarget)
  case core.right =>
    exact fun hsl hrr hsn hlen hlocal htarget => issueC_ok h hop (fxMcore_ok false hsl hrr hsn hlen hlocal htarget)
  case stash.left =>
    exact fun hsl hsk hkey hlocal howns hroom => issueC_ok h hop (fxCpush_ok hsl hsk hkey hlocal howns (hroom trivial))
  case stash.right =>
    exact fun hsl hsk hkey hlocal howns _ => issueC_ok h hop (fxCpop_ok hsl hsk hkey hlocal howns)

end Sys2Proof.Machine
end

