-- ==== Sys2Proof/Proofs/MemoryChecks.lean ====
section
/-!
SUPPORT. "Memory, Protection": what the check of codewords that an access touches can change, whatever it finds.
-/
namespace Sys2Proof.Machine

/-- From `s` to `u` nothing has changed but stored bytes and their errors and marks, parameters, the log, and draws of what is
open: what a check of codewords can change (R295 to R297). -/
def OnlyChecked (s u : State) : Prop :=
  u = { s with mem := u.mem, poison := u.poison, errs := u.errs, par := u.par, draws := u.draws, unacked := u.unacked
               logSeq := u.logSeq, doms := u.doms }

theorem onlyChecked_refl (s : State) : OnlyChecked s s := rfl

theorem onlyChecked_trans {s t u : State} (h : OnlyChecked s t) (k : OnlyChecked t u) : OnlyChecked s u := by
  rw [OnlyChecked] at h k ⊢
  rw [k, h]

/-- From `s` to `u` nothing has changed but the errors of stored bytes, parameters, the log and draws of what is open: what a
check that finds an error beyond repair, or corrects one on its way, notes (R296, R297). -/
def OnlyLogged (s u : State) : Prop :=
  u = { s with errs := u.errs, par := u.par, draws := u.draws, unacked := u.unacked, logSeq := u.logSeq, doms := u.doms }

theorem onlyLogged_refl (s : State) : OnlyLogged s s := rfl

theorem onlyLogged_trans {s t u : State} (h : OnlyLogged s t) (k : OnlyLogged t u) : OnlyLogged s u := by
  rw [OnlyLogged] at h k ⊢
  rw [k, h]

theorem onlyChecked_of_onlyLogged {s u : State} (h : OnlyLogged s u) : OnlyChecked s u := by
  rw [OnlyChecked, h]

theorem onlyLogged_incP (s : State) (key n : Nat) : OnlyLogged s (incP s key n) := rfl

theorem onlyLogged_setP (s : State) (key v : Nat) : OnlyLogged s (setP s key v) := rfl

theorem onlyLogged_setD (s : State) (d : Nat) (x : Domain) : OnlyLogged s (setD s d x) := rfl

theorem onlyLogged_writeRecord (s : State) (r : Raised) (kind : Nat) : OnlyLogged s (writeRecord s r kind) := by
  unfold writeRecord
  extract_lets seq slot lost s1 s2 s3 s4 s5
  have h3 : OnlyLogged s s3 := by
    have h2 : OnlyLogged s s2 := onlyLogged_trans (onlyLogged_incP ..) (onlyLogged_setP ..)
    by_cases hl : lost = true
    · exact (congrArg (OnlyLogged s) (if_pos hl)).mpr (onlyLogged_trans h2 (onlyLogged_incP ..))
    · exact (congrArg (OnlyLogged s) (if_neg hl)).mpr h2
  have h5 : OnlyLogged s s5 := onlyLogged_trans (onlyLogged_trans h3 (onlyLogged_setP ..)) rfl
  split
  · exact onlyLogged_trans h5 (onlyLogged_setD ..)
  · exact h5

theorem onlyLogged_logUncorrectable (s : State) (unit code pa : Nat) (d : Option Nat) :
    OnlyLogged s (logUncorrectable s unit code pa d) :=
  onlyLogged_trans (onlyLogged_writeRecord ..) (onlyLogged_incP ..)

theorem onlyLogged_countCorrected (s : State) (base : Nat) : OnlyLogged s (countCorrected s base) := by
  unfold countCorrected
  split
  · exact onlyLogged_trans (onlyLogged_incP ..) (onlyLogged_incP ..)
  · exact onlyLogged_incP ..

theorem onlyLogged_freeBits (s : State) (w : Nat) : OnlyLogged s (freeBits s w).2 := rfl

/-- What a draw that is made only where the code is beyond its limits leaves. -/
theorem onlyLogged_drawn (s : State) (p : Prop) [Decidable p] : OnlyLogged s (if p then freeBits s 2 else (2, s)).2 := by
  split
  · exact onlyLogged_freeBits ..
  · exact onlyLogged_refl s

theorem onlyChecked_checkSector (s : State) (base : Nat) (d : Option Nat) : OnlyChecked s (checkSector s base d) := by
  unfold checkSector
  extract_lets es g bs stored
  split
  · exact onlyChecked_refl s
  have h := onlyChecked_of_onlyLogged (onlyLogged_drawn s ((if base < hbmEnd then 6 else 2) < es.length))
  generalize (if (if base < hbmEnd then 6 else 2) < es.length then freeBits s 2 else (2, s)) = drawn at h
  obtain ⟨draw, t⟩ := drawn
  dsimp only at h ⊢
  split
  · exact onlyChecked_trans h rfl
  · refine onlyChecked_trans ?_ (onlyChecked_of_onlyLogged (onlyLogged_countCorrected ..))
    exact onlyChecked_trans h rfl
  · refine onlyChecked_trans ?_ (onlyChecked_of_onlyLogged (onlyLogged_countCorrected ..))
    exact onlyChecked_trans h rfl
  · refine onlyChecked_trans ?_ (onlyChecked_of_onlyLogged (onlyLogged_logUncorrectable ..))
    split
    · refine onlyChecked_trans ?_ (onlyChecked_of_onlyLogged (onlyLogged_incP ..))
      exact onlyChecked_trans h rfl
    · exact onlyChecked_trans h rfl

theorem onlyChecked_checkRange (s : State) (pa n : Nat) (d : Option Nat) : OnlyChecked s (checkRange s pa n d) := by
  unfold checkRange
  split
  · exact onlyChecked_refl s
  · exact foldl_keeps (OnlyChecked s) _ (fun v i h => onlyChecked_trans h (onlyChecked_checkSector ..)) _ s (onlyChecked_refl s)

theorem onlyChecked_checkLines (s : State) (u line n d : Nat) : OnlyChecked s (checkLines s u line n d) :=
  onlyChecked_checkRange ..

theorem getE_of_onlyChecked {s u : State} (h : OnlyChecked s u) (c : Nat) : getE u c = getE s c := by rw [h]; rfl

theorem getC_of_onlyChecked {s u : State} (h : OnlyChecked s u) (c : Nat) : getC u c = getC s c := by rw [h]; rfl

/-! ### Lines of buffers outside the map (R297, R302) -/

theorem onlyLogged_checkBuffer (s : State) (unit place code : Nat) (d : Option Nat) (l : PLine) :
    OnlyLogged s (checkBuffer s unit place code d l).2 := by
  unfold checkBuffer
  extract_lets base es raw
  split
  · exact onlyLogged_refl s
  have h := onlyLogged_drawn s (2 < es.length)
  generalize (if 2 < es.length then freeBits s 2 else (2, s)) = drawn at h
  obtain ⟨draw, t⟩ := drawn
  dsimp only at h ⊢
  split
  · exact onlyLogged_trans h rfl
  · refine onlyLogged_trans ?_ (onlyLogged_countCorrected ..)
    exact onlyLogged_trans h rfl
  · refine onlyLogged_trans ?_ (onlyLogged_countCorrected ..)
    exact onlyLogged_trans h rfl
  · refine onlyLogged_trans ?_ (onlyLogged_logUncorrectable ..)
    exact onlyLogged_trans h rfl

theorem onlyLogged_readBuffer (s : State) (unit place code d : Nat) (ls : List PLine) :
    OnlyLogged s (readBuffer s unit place code d ls).2 := by
  unfold readBuffer
  split
  · exact onlyLogged_refl s
  · exact foldl_keeps (fun a : List PLine × State => OnlyLogged s a.2) _
      (fun a x h => onlyLogged_trans h (onlyLogged_checkBuffer a.2 unit (place + x.1) code (some d) x.2)) _ ([], s)
      (onlyLogged_refl s)

theorem sameMemory_of_onlyLogged {s u : State} (h : OnlyLogged s u) : SameMemory s u := by
  rw [h]
  exact sameMemory_of_eq rfl

end Sys2Proof.Machine
end

