-- ==== Sys2Proof/Proofs/Sequencers.lean ====
section
/-!
SUPPORT. "Eland cores, The sequencer" and "Chamois cores, Issue and visibility": the decode of a needle's or a core's next
instruction, the issue of a held word, and the statements about them.
-/
namespace Sys2Proof.Machine

/-! ### What a decode leaves alone (R120, R178) -/

theorem getE_requestStall (s : State) (d : Nat) (r : StallReq) (k : Nat) : getE (requestStall s d r) k = getE s k := by
  unfold requestStall
  extract_lets dd
  split <;> rfl

theorem getC_requestStall (s : State) (d : Nat) (r : StallReq) (k : Nat) : getC (requestStall s d r) k = getC s k := by
  unfold requestStall
  extract_lets dd
  split <;> rfl

theorem getE_foldl_requestStall (s : State) (d : Nat) (f : Cond → StallReq) (ks : List Cond) (k : Nat) :
    getE (ks.foldl (fun s c => requestStall s d (f c)) s) k = getE s k :=
  foldl_keeps (fun v => getE v k = getE s k) (fun s c => requestStall s d (f c))
    (fun v c hv => (getE_requestStall v d (f c) k).trans hv) ks s rfl

theorem getC_foldl_requestStall (s : State) (d : Nat) (f : Cond → StallReq) (ks : List Cond) (k : Nat) :
    getC (ks.foldl (fun s c => requestStall s d (f c)) s) k = getC s k :=
  foldl_keeps (fun v => getC v k = getC s k) (fun s c => requestStall s d (f c))
    (fun v c hv => (getC_requestStall v d (f c) k).trans hv) ks s rfl

/-- From `s` to `u` the PRESENT bits of core `c` alone have changed among the Eland cores. -/
def OnlyAbsent (c : Nat) (s u : State) : Prop :=
  getE u c = { getE s c with absent := (getE u c).absent } ∧ ∀ k, k ≠ c → getE u k = getE s k

theorem onlyAbsent_refl (c : Nat) (s : State) : OnlyAbsent c s s := ⟨rfl, fun _ _ => rfl⟩

theorem onlyAbsent_trans {c : Nat} {s t u : State} (h : OnlyAbsent c s t) (k : OnlyAbsent c t u) : OnlyAbsent c s u := by
  obtain ⟨hst, hs⟩ := h
  obtain ⟨htu, ht⟩ := k
  exact ⟨by rw [htu, hst], fun j hj => (ht j hj).trans (hs j hj)⟩

theorem onlyAbsent_setPresent (s : State) (c line : Nat) (v : Bool) : OnlyAbsent c s (setPresent s c line v) := by
  unfold setPresent
  split
  · exact ⟨by rw [getE_setE_same], fun k hk => getE_setE_other s _ (Ne.symm hk)⟩
  · exact onlyAbsent_refl c s

theorem onlyAbsent_clearPresent (s : State) (c : Nat) (rs : List (Nat × Nat)) : OnlyAbsent c s (clearPresent s c rs) :=
  foldl_keeps (OnlyAbsent c s) _ (fun v r hv => foldl_keeps (OnlyAbsent c s) _
    (fun u i hu => onlyAbsent_trans hu (onlyAbsent_setPresent u c (r.1 + i) false)) _ v hv) rs s (onlyAbsent_refl c s)

/-! ### The decode of a needle (R120, R121) -/

/-- Where an instruction joins those that a needle has decoded. -/
def addDecoded (c : Nat) (n : Needle) (f : Fetched) (y : Decoded) (s : State) : State :=
  updN s c n fun x => { advanceDecode (getE s c) x f with decoded := x.decoded ++ [y] }

/-- What a decode of `f` from `v` on ends in: `y` joins the needle's decoded instructions. -/
def DecodedAs (c : Nat) (n : Needle) (f : Fetched) (v u : State) (y : Decoded) : Prop :=
  (∃ b, getN (getE u c) n = { advanceDecode { getE v c with absent := b } (getN (getE v c) n) f with
    decoded := (getN (getE v c) n).decoded ++ [y] }) ∧ ∀ k, k ≠ c → getE u k = getE v k

theorem decodedAs_addDecoded {c : Nat} {n : Needle} {f : Fetched} {y : Decoded} {v t : State} (h : OnlyAbsent c v t) :
    DecodedAs c n f v (addDecoded c n f y t) y := by
  obtain ⟨hc, hk⟩ := h
  refine ⟨⟨(getE t c).absent, ?_⟩, fun k hne => (getE_updN_other t n _ (Ne.symm hne)).trans (hk k hne)⟩
  have hn : getN (getE t c) n = getN (getE v c) n := by rw [hc]; cases n <;> rfl
  rw [addDecoded, getE_updN_same, getN_setN_same, hn, ← hc]

theorem decodedAs_of_getE {c : Nat} {n : Needle} {f : Fetched} {y : Decoded} {v t u : State} (h : DecodedAs c n f v t y)
    (hu : ∀ k, getE u k = getE t k) : DecodedAs c n f v u y := by
  obtain ⟨⟨b, hc⟩, hk⟩ := h
  exact ⟨⟨b, by rw [hu, hc]⟩, fun k hne => (hu k).trans (hk k hne)⟩

/-- A decode adds the word as fetched, with its place and slot, whatever reservations and conditions come with it. -/
theorem decodeNext_decodedAs (s : State) (c : Nat) (n : Needle) (d : Nat) :
    let x := getN (getE s c) n
    let v := if fetches x then checkRange s (corePa c (16 * x.dpc)) 16 (some d) else s
    let f := nextFetched v c x
    ∃ y : Decoded, DecodedAs c n f v (decodeNext s c n d) y ∧ y.word = f.word ∧ y.poison = f.poison ∧ y.idx = x.dpc ∧
      y.slot = x.dslot := by
  intro x v f
  unfold decodeNext
  extract_lets w slot dd off add t need tag owed conds
  split
  · exact ⟨_, decodedAs_addDecoded (onlyAbsent_refl c v), rfl, rfl, rfl, rfl⟩
  · next hclean =>
    have hpoison : f.poison = none := by
      rw [Bool.or_eq_true, not_or, Bool.not_eq_true, Bool.not_eq_true, Option.isSome_eq_false_iff, Option.isNone_iff_eq_none] at hclean
      exact hclean.2
    exact ⟨{ word := w, idx := x.dpc, slot := slot, tag := tag, push := isPush w, owed := owed },
      decodedAs_of_getE (decodedAs_addDecoded (onlyAbsent_clearPresent ..)) fun k => getE_foldl_requestStall _ d
        (fun cond => { slot := slot, unit := c, needle := n.code, offset := off, cond := cond }) conds k,
      rfl, hpoison.symm, rfl, rfl⟩

/-- After a NOP outside a loop the needle decodes the next place, one slot and GAP later (R119, R129). -/
theorem advanceDecode_nop {e : Eland} {x : NeedleSt} {f : Fetched} (hop : opcodeOf f.word = 0) (hloop : x.dloop = none) :
    (advanceDecode e x f).dpc = x.dpc + 1 ∧ (advanceDecode e x f).dslot = x.dslot + slotTicks e * (fGap f.word + 1) := by
  simp only [advanceDecode, hop, hloop]
  exact ⟨rfl, trivial⟩

/-! ### The point of a decode (R120, R123, R178) -/

theorem exec_instructionDecode_eland {u : Nat} (hu : u < 36) (n : Needle) (s : State) :
    exec (.instructionDecode u n) s = decodeEland s u n := if_pos hu

theorem exec_instructionDecode_chamois {c : Nat} (hc : c < 24) (n : Needle) (s : State) :
    exec (.instructionDecode (0x40 + c) n) s = decodeChamois s c := by
  have hrange : (decide (0x40 ≤ 0x40 + c) && decide (0x40 + c < 0x58)) = true := by
    rw [Bool.and_eq_true, decide_eq_true_eq, decide_eq_true_eq]
    omega
  have harm : exec (.instructionDecode (0x40 + c) n) s = execInstructionDecode (0x40 + c) n s := rfl
  rw [harm, execInstructionDecode, if_neg (by omega), if_pos hrange, Nat.add_sub_cancel_left]

theorem decodeEland_now {s : State} {c : Nat} {n : Needle} {d from_ : Nat} (hd : domN (getE s c) n = some d)
    (hfrom : (getN (getE s c) n).decFrom = some from_) (hruns : (getD s d).st.runs = true) (hnow : from_ = s.ctc)
    (hmet : horizonMet s d (getN (getE s c) n).dslot = true) : decodeEland s c n = .next (decodeNext s c n d) := by
  simp only [decodeEland, hd, hfrom, hruns, hmet, beq_iff_eq.mpr hnow, Bool.not_true, Bool.false_eq_true, if_false, Bool.and_self,
    if_true]

theorem decodeEland_later {s t : State} {c : Nat} {n : Needle} {d from_ : Nat} (hd : domN (getE s c) n = some d)
    (hfrom : (getN (getE s c) n).decFrom = some from_) (hruns : (getD s d).st.runs = true)
    (hlater : from_ ≠ s.ctc ∨ horizonMet s d (getN (getE s c) n).dslot = false)
    (hpast : horizonPast s d (getN (getE s c) n).dslot = false) (hheld : (getN (getE s c) n).held = none)
    (hto : toHorizon s d (getN (getE s c) n).dslot = some t) (hdec : decoding t d = true) :
    decodeEland s c n = .next (decodeNext t c n d) := by
  have hnow : (from_ == s.ctc && horizonMet s d (getN (getE s c) n).dslot) = false := by
    rcases hlater with h | h
    · rw [beq_false_of_ne h]
      rfl
    · rw [h, Bool.and_false]
  simp only [decodeEland, hd, hfrom, hruns, hnow, hpast, hheld, hto, hdec, Bool.not_true, Bool.false_eq_true, if_false,
    Option.isSome_none, Bool.false_and, if_true]

/-! ### The decode of a Chamois core (R178) -/

theorem decodeChamois_ok {s t : State} {c d : Nat} (hd : (getC s c).dom = some d) (hhalted : (getC s c).halted = false)
    (hruns : (getD s d).st.runs = true) (hnohalt : ∀ y ∈ (getC s c).decoded, opcodeOf y.word ≠ 1)
    (hpast : horizonPast s d (getC s c).dslot = false) (hto : toHorizon s d (getC s c).dslot = some t)
    (hdec : decoding t d = true) : decodeChamois s c = .next (decodeNextC t c d) := by
  have hany : ((getC s c).decoded.any fun y => opcodeOf y.word == 0x01) = false :=
    List.any_eq_false.mpr fun y hy => by rw [beq_iff_eq]; exact hnohalt y hy
  simp only [decodeChamois, hd, hhalted, hruns, hany, hpast, hto, hdec, Bool.not_true, Bool.or_self, Bool.false_eq_true, if_false,
    if_true]

/-- A decode adds the core's next word, with its place and slot. -/
theorem decodeNextC_decoded (s : State) (c d : Nat) :
    ∃ y, (getC (decodeNextC s c d) c).decoded = (getC s c).decoded ++ [y] ∧ y.idx = (getC s c).dpc ∧
      y.slot = (getC s c).dslot := by
  unfold decodeNextC
  extract_lets x u v f w slot dd add need push tag owed conds
  have hv : getC v c = getC s c := by
    by_cases hfetch : (x.dloops.isEmpty || (x.loopBuf.find? fun y => y.1 == x.dpc).isNone) = true
    · exact (congrArg (getC · c) (if_pos hfetch)).trans (getC_of_onlyChecked (onlyChecked_checkRange ..) c)
    · exact congrArg (getC · c) (if_neg hfetch)
  have hadd : ∀ y, (getC (add y v) c).decoded = (getC s c).decoded ++ [y] := fun y => by
    rw [← hv]
    exact congrArg Cham.decoded (getC_setC_same ..)
  split
  · exact ⟨_, hadd _, rfl, rfl⟩
  · exact ⟨{ word := w, idx := x.dpc, slot := slot, tag := tag, push := push, owed := owed },
      (congrArg Cham.decoded (getC_foldl_requestStall _ d _ conds c)).trans (hadd _), rfl, rfl⟩

/-- Settles O34: a needle decodes in the tick of its choice or at its point, a core at its point, and the word joins. -/
theorem decodeCompletes : Obligations.DecodeCompletes := by
  refine ⟨fun u n s d from_ hu hd hfrom hruns => ⟨fun hnow hmet => ?now, fun t hlater hpast hheld hto hdec => ?later⟩,
    fun u n s d hu => ?joins, fun c n s t d hc hd hhalted hruns hnohalt hpast hto hdec => ⟨?chamois, decodeNextC_decoded t c d⟩⟩
  case now => exact (exec_instructionDecode_eland hu n s).trans (decodeEland_now hd hfrom hruns hnow hmet)
  case later => exact (exec_instructionDecode_eland hu n s).trans (decodeEland_later hd hfrom hruns hlater hpast hheld hto hdec)
  case chamois => exact (exec_instructionDecode_chamois hc n s).trans (decodeChamois_ok hd hhalted hruns hnohalt hpast hto hdec)
  case joins =>
    intro x f
    obtain ⟨y, ⟨⟨b, hneedle⟩, hothers⟩, hword, hpoison, hidx, hslot⟩ := decodeNext_decodedAs s u n d
    have hchecked : ∀ k, getE (if fetches x then checkRange s (corePa u (16 * x.dpc)) 16 (some d) else s) k = getE s k := fun k => by
      split
      · exact getE_of_onlyChecked (onlyChecked_checkRange ..) k
      · rfl
    rw [hchecked] at hneedle
    refine ⟨y, by rw [hneedle], hword, hpoison, hidx, hslot, fun hop hloop => ?_, fun k hk => (hothers k hk).trans (hchecked k)⟩
    obtain ⟨hdpc, hdslot⟩ := advanceDecode_nop (e := { getE s u with absent := b }) hop hloop
    rw [hneedle]
    exact ⟨hdpc, hdslot⟩

/-! ### A held word (R110, R111) -/

theorem isCoreUnit_of_eland {c : Nat} (hc : c < 36) : isCoreUnit c = true := by
  rw [isCoreUnit, Bool.or_eq_true, decide_eq_true_eq]
  exact Or.inl hc

theorem exec_waitQueueEntry {c : Nat} {n : Needle} {s t : State} {w : Nat} (hc : c < 36)
    (hheld : (getN (getE s c) n).held = some w) (h : reissue c n w (updN s c n fun x => { x with held := none }) = .next t) :
    exec (.waitQueueEntry c n) s =
      .next (if (getN (getE t c) n).held.isSome then advance (slotTicks (getE t c)) t else t) := by
  have harm : exec (.waitQueueEntry c n) s = execWaitQueueEntry c n s := rfl
  rw [harm, execWaitQueueEntry, isCoreUnit_of_eland hc]
  simp only [Bool.not_true, Bool.false_eq_true, if_false, if_neg (Nat.not_le.mpr hc), hheld, h]

/-- Where the word tries its queue again the needle goes on, or a slot of it passes. -/
theorem waitQueueEntry_of_reissue {c : Nat} {n : Needle} {s t : State} {w : Nat} (hc : c < 36)
    (hheld : (getN (getE s c) n).held = some w)
    (h : reissue c n w (updN s c n fun x => { x with held := none }) = .next t) :
    ((getN (getE t c) n).held = none → exec (.waitQueueEntry c n) s = .next t) ∧
    ((getN (getE t c) n).held ≠ none → exec (.waitQueueEntry c n) s = .next (advance (slotTicks (getE t c)) t)) := by
  rw [exec_waitQueueEntry hc hheld h]
  refine ⟨fun hnone => ?_, fun hsome => ?_⟩
  · rw [hnone]
    rfl
  · exact congrArg Host.Outcome.next (if_pos (Option.isSome_iff_ne_none.mpr hsome))

/-- A held word issues again as the instruction that it is. -/
theorem reissue_eq_exec {c : Nat} {n : Needle} {w : W128} {r : State} :
    ∀ q ∈ ([(0x10, .mma), (0x14, .accrd), (0x18, .act), (0x19, .dact), (0x20, .inj), (0x21, .take), (0x30, .cvt),
      (0x31, .amax)] : List (Nat × (Nat → Needle → W128 → Instr))),
      opcodeOf w.toNat = q.1 → reissue c n w.toNat r = exec (q.2 c n w) r := by
  have hw : BitVec.ofNat 128 w.toNat = w := by rw [BitVec.ofNat_toNat, BitVec.setWidth_eq]
  simp only [List.forall_mem_cons, List.not_mem_nil, false_implies, implies_true, and_true]
  refine ⟨?_, ?_, ?_, ?_, ?_, ?_, ?_, ?_⟩ <;> intro hop <;> simp only [reissue, hop, hw] <;> rfl

/-- Settles O35: the word is the same instruction again, and it issues or a slot passes. -/
theorem heldNeedleIssuesAgain : Obligations.HeldNeedleIssuesAgain := by
  refine ⟨fun c n s w hc hheld q hq hop => ⟨fun t ht => ?_, fun t ht => ?_⟩,
    fun c n s w x slot t hc hheld hop h hcheck _ hroom => ?_⟩
  · exact (waitQueueEntry_of_reissue hc hheld ((reissue_eq_exec q hq hop).trans ht)).1
  · exact (waitQueueEntry_of_reissue hc hheld ((reissue_eq_exec q hq hop).trans ht)).2
  · obtain ⟨-, rfl, rfl, hw⟩ := elandTurn_ctx h
    have hnotfull : (mmaEngines x.w).any (mmaFull x t) = false := by
      refine List.any_eq_false.mpr fun m hm => ?_
      rw [mmaFull, decide_eq_true_eq, Nat.not_le, hw]
      exact hroom m (hw ▸ hm)
    have hexec : exec (.mma x.c x.n w) (updN s x.c x.n fun y => { y with held := none }) = .next (elandDone x slot _) :=
      issueE_ok h hop (fxMma_ok hcheck hnotfull)
    have hreissue := (reissue_eq_exec (r := updN s x.c x.n fun y => { y with held := none }) (0x10, .mma)
      List.mem_cons_self hop).trans hexec
    refine ⟨_, (waitQueueEntry_of_reissue hc hheld hreissue).1 ?_⟩
    rw [getN_elandDone]
    rfl

end Sys2Proof.Machine
end

