-- ==== Sys2Proof/Proofs/EngineEvents.lean ====
section
/-!
SUPPORT. "The engines and the Round, MMA timing" and "Cast-on and bind-off": entry cycles, the beats that a queued MMA passes
over, idle parts and held reads, and the statement about them.
-/
namespace Sys2Proof.Machine

/-! ### Entry cycles (R87) -/

theorem entryAlone_of_work (s : State) {p : EngPart} (n issue : Nat) (h : p.ops ≠ []) : entryAlone s p n issue = 3 := by
  have hwork : p.ops.isEmpty = false := List.isEmpty_eq_false_iff.mpr h
  have hnone : (List.range n).filter (fun _ => false) = [] := List.filter_eq_nil_iff.mpr fun _ _ => Bool.false_ne_true
  simp only [entryAlone, hwork, Bool.false_and, hnone, List.foldl_nil]

theorem entryAlone_of_fresh (s : State) {p : EngPart} (issue : Nat) (hops : p.ops = []) (hbusy : p.busy = 0) :
    entryAlone s p 8 issue =
      (List.range 8).foldl (fun a q => max a ((q + 1) * (getP s (pk 0x0203 0) / 8) - 8 * q)) 3 := by
  have hall : (List.range 8).filter (fun _ => true) = List.range 8 := List.filter_eq_self.mpr fun _ _ => rfl
  simp only [entryAlone, hops, hbusy, List.isEmpty_nil, beq_self_eq_true, Bool.true_or, Bool.and_self, hall]

/-! ### A beat before the entry cycle (R86, R96) -/

/-- The engine that an MMA names first starts it in its entry cycle and not before. -/
theorem startsOn_of_early {s : State} {u m h : Nat} {op : Mma} {b : Beat} (hlead : op.lead = true) (hearly : b.at_ < op.entry) :
    startsOn s u m h op b = false := by
  rw [startsOn, if_pos hlead, decide_eq_false (Nat.not_le.mpr hearly)]
  rfl

theorem partBeat_of_early {u m h : Nat} {s : State} {b : Beat} {op : Mma} {rest : List Mma}
    (hops : (getPart (getEng s (4 * u + m)) h).ops = op :: rest) (hopened : op.opened = false) (hlead : op.lead = true)
    (hearly : b.at_ < op.entry) :
    partBeat s u m h b = updPart s (4 * u + m) h fun p => { p with banks := stepBanks p.banks b } := by
  have hsame : (getPart (getEng (updPart s (4 * u + m) h fun p => { p with banks := stepBanks p.banks b }) (4 * u + m)) h).ops =
      op :: rest := by
    rw [getEng_updPart_same, getPart_setPart_same]
    exact hops
  have hwaits : (!b.valid || decide (op.dir ≠ b.dir) || !op.opened &&
      !startsOn (updPart s (4 * u + m) h fun p => { p with banks := stepBanks p.banks b }) u m h op b) = true := by
    rw [startsOn_of_early hlead hearly, hopened]
    exact Bool.or_true _
  simp only [partBeat, hsame]
  exact if_pos hwaits

/-! ### Idle parts (R90, R92) -/

theorem execEngineIdle_ok {c m h : Nat} {s t : State} (hc : c < 36) (hm : m < 4) (hh : h < 2)
    (hsplit : h = 1 → bit (getEng s (4 * c + m)).part 31 = true) (hops : (getPart (getEng s (4 * c + m)) h).ops = [])
    (hidle : (getPart (getEng s (4 * c + m)) h).idle = false)
    (hruns : whenRuns s (partDom (getEng s (4 * c + m)).part h) ((getPart (getEng s (4 * c + m)) h).busy + 64) = some t) :
    exec (.engineIdle c m h) s =
      .next (updPart t (4 * c + m) h fun p => { p with idle := true, rampAt := p.busy + 64 }) := by
  have harm : exec (.engineIdle c m h) s = execEngineIdle c m h s := rfl
  have hunit : (decide (36 ≤ c) || decide (4 ≤ m) || decide (2 ≤ h)) = false := by
    rw [decide_eq_false (by omega), decide_eq_false (by omega), decide_eq_false (by omega)]
    rfl
  have hhalf : (h == 1 && !bit (getEng s (4 * c + m)).part 31) = false := by
    by_cases h1 : h = 1
    · rw [hsplit h1, Bool.not_true, Bool.and_false]
    · rw [beq_false_of_ne h1, Bool.false_and]
  rw [harm]
  simp only [execEngineIdle, hunit, hhalf, hops, hidle, hruns, List.isEmpty_nil, Bool.not_true, Bool.false_eq_true, if_false]

/-! ### Held accumulator reads (R88) -/

theorem holdEnds_of_entered {p : EngPart} {r : AccRead} (h : ∀ o ∈ p.ops, o.tile = r.tile → r.id ≤ o.id) :
    holdEnds p r = some (((p.waves.filter fun w => w.op.tile == r.tile && decide (w.op.id < r.id) && decide (r.taken ≤ w.m1)).map
      fun w => w.at_ + r.taken + w.n1).foldl max 0) := by
  have hany : (p.ops.any fun o => o.tile == r.tile && decide (o.id < r.id)) = false := by
    refine List.any_eq_false.mpr fun o ho => ?_
    rw [Bool.and_eq_true, beq_iff_eq, decide_eq_true_eq]
    exact fun ⟨htile, hid⟩ => Nat.not_lt.mpr (h o ho htile) hid
  simp only [holdEnds, hany, Bool.false_eq_true, if_false]

/-- A state that the time has moved on to holds the DCC asked for. -/
theorem dcc_of_toDcc {d k : Nat} {s t : State} (h : toDcc d k s = some t) : k ≤ (getD t d).dcc := by
  unfold toDcc at h
  extract_lets u at h
  split at h
  · next hle => exact Option.some.inj h ▸ hle
  · cases h

/-- ACCRD_HOLD_RELEASE moves the time on to where the held row is complete. -/
theorem execAccrdHoldRelease_ok {c m k : Nat} {s t : State} {r : AccRead} (hc : c < 36) (hm : m < 4)
    (hheld : heldRead (getEng s (4 * c + m)) (fun d => (getD s d).dcc) = some r)
    (hends : holdEnds (getPart (getEng s (4 * c + m)) (halfIdx r.half)) r = some k)
    (hto : toDcc r.dom (max k ((getD s r.dom).dcc + 1)) s = some t) :
    exec (.accrdHoldRelease c m) s = .next t := by
  have harm : exec (.accrdHoldRelease c m) s = execAccrdHoldRelease c m s := rfl
  have hunit : (decide (36 ≤ c) || decide (4 ≤ m)) = false := by
    rw [decide_eq_false (by omega), decide_eq_false (by omega)]
    rfl
  rw [harm]
  simp only [execAccrdHoldRelease, hunit, hheld, hends, hto, Bool.false_eq_true, if_false]

/-- Settles O36: the entry cycles by the ramp, the beat before the entry, the idle part and the held row. -/
theorem engineEventsComplete : Obligations.EngineEventsComplete := by
  refine ⟨fun s p n issue h => entryAlone_of_work s n issue h, fun s p issue hops hbusy => ?_,
    fun u m h s b op rest hops hopened hlead hearly => partBeat_of_early hops hopened hlead hearly,
    fun c m h s t hc hm hh hsplit => ?_, fun c m s t r hc hm => ?_⟩
  · rw [entryAlone_of_fresh s issue hops hbusy]
    refine ⟨fun hramp => ?_, fun hramp => ?_, fun hramp => ?_⟩ <;> rw [hramp] <;> decide
  · exact fun hops hidle hruns => execEngineIdle_ok hc hm hh hsplit hops hidle hruns
  · intro x p ends hheld hentered hto
    exact ⟨execAccrdHoldRelease_ok hc hm hheld (holdEnds_of_entered hentered) hto,
      Nat.le_trans (Nat.le_max_left ..) (dcc_of_toDcc hto)⟩

end Sys2Proof.Machine
end

