-- ==== Sys2Proof/Proofs/RoundEvents.lean ====
section
/-!
SUPPORT. "The Round", "Injection and take" and "Sharing the Round": fills, sends, the way of a beat past engines and stops, and
what a taken beat writes.
-/
namespace Sys2Proof.Machine

/-! ### The first of a kind -/

/-- The first entry that satisfies a test satisfies it, and the others are the list without it. -/
theorem takeFirst_some {α : Type} {p : α → Bool} {l r : List α} {x : α} (h : takeFirst p l = some (x, r)) :
    p x = true ∧ x ∈ l := by
  induction l generalizing r with
  | nil => cases h
  | cons y l ih =>
    rw [takeFirst] at h
    split at h
    · next hy =>
      obtain ⟨rfl, -⟩ := Prod.mk.inj (Option.some.inj h)
      exact ⟨hy, List.mem_cons_self⟩
    · split at h
      · cases h
      · next z rest htake =>
        obtain ⟨rfl, -⟩ := Prod.mk.inj (Option.some.inj h)
        obtain ⟨hp, hmem⟩ := ih htake
        exact ⟨hp, List.mem_cons_of_mem _ hmem⟩

/-! ### The injection unit (R104, R106) -/

theorem exec_injectionQueueFill_ok {stop d : Nat} {s : State} {a b : List InjRun} {r : InjRun} (hstop : stop < 36)
    (hdom : fillDom s stop = some d) (hnext : nextFill d (getInj s stop) = some (a, r, b)) :
    exec (.injectionQueueFill stop) s = .next (setInj (checkLines s stop (fillLine r) 1 d) stop
      (a ++ { r with filled := r.filled + 1
                     lines := r.lines ++ [oneMark (lineE (checkLines s stop (fillLine r) 1 d) stop (fillLine r))] } :: b)) := by
  have harm : exec (.injectionQueueFill stop) s = execInjectionQueueFill stop s := rfl
  rw [harm]
  simp only [execInjectionQueueFill, if_neg (Nat.not_le.mpr hstop), hdom, hnext]

/-- A property that every step over an entry of the list keeps holds at the end of a fold. -/
theorem foldl_keeps_mem {α β : Type} (P : β → Prop) (f : β → α → β) (l : List α) (hf : ∀ s, ∀ x ∈ l, P s → P (f s x)) (s : β)
    (h : P s) : P (l.foldl f s) := by
  induction l generalizing s with
  | nil => exact h
  | cons x l ih => exact ih (fun s y hy => hf s y (List.mem_cons_of_mem _ hy)) _ (hf s x List.mem_cons_self h)

/-- The domain that can send first is one of those that can send, with its own wait. -/
theorem sendAt_of_sendDom {s : State} {stop d k : Nat} (h : sendDom s stop = some (d, k)) : sendAt s stop d = some k := by
  have hall : ∀ x ∈ (runDoms (getInj s stop)).filterMap fun d => (sendAt s stop d).map fun k => (d, k),
      sendAt s stop x.1 = some x.2 := fun x hx => by
    obtain ⟨e, -, he⟩ := List.mem_filterMap.mp hx
    obtain ⟨j, hj, rfl⟩ := Option.map_eq_some_iff.mp he
    exact hj
  exact foldl_keeps_mem (fun a : Option (Nat × Nat) => ∀ y, a = some y → sendAt s stop y.1 = some y.2) _ _
    (fun a x hx ha y hy => by
      split at hy
      · split at hy
        · exact Option.some.inj hy ▸ hall x hx
        · exact ha y hy
      · exact Option.some.inj hy ▸ hall x hx) none (fun y hy => by cases hy) (d, k) h

/-- A domain's next beat goes in the first cycle in which its links' phases are the domain's and no beat of it passes the stop. -/
theorem sendAt_some {s : State} {stop d k : Nat} {a rest : List InjRun} {r : InjRun}
    (hrun : firstRun d (getInj s stop) = some (a, r, rest)) (h : sendAt s stop d = some k) :
    ∃ j, (getD s d).dcc + k = max r.readyAt (getD s d).dcc + j ∧
      (∀ dir ∈ runDirs r, phaseOk (phaseTable s stop dir) d
        (s.ctc + max r.readyAt (getD s d).dcc - (getD s d).dcc + j + crossing s stop) = true) ∧
      ∀ dir ∈ runDirs r, ∀ y ∈ s.beats, y.dom = d → y.dir = dir →
        beatEnters s y stop ≠ some (max r.readyAt (getD s d).dcc + j) := by
  simp only [sendAt, hrun] at h
  split at h
  · cases h
  obtain ⟨j, hj, rfl⟩ := Option.map_eq_some_iff.mp h
  have hfound := List.find?_some hj
  rw [Bool.and_eq_true, Bool.not_eq_true', List.all_eq_true] at hfound
  obtain ⟨hpassing, hphase⟩ := hfound
  refine ⟨j, by omega, hphase, fun dir hdir y hy hdom hd hat => ?_⟩
  have hmem : (max r.readyAt (getD s d).dcc + j) ∈ (s.beats.filter fun y => y.dom == d && (runDirs r).contains y.dir).filterMap
      fun y => beatEnters s y stop := by
    refine List.mem_filterMap.mpr ⟨y, List.mem_filter.mpr ⟨hy, ?_⟩, hat⟩
    rw [Bool.and_eq_true, beq_iff_eq, List.contains_iff_mem]
    exact ⟨hdom, hd ▸ hdir⟩
  rw [List.contains_iff_mem.mpr hmem] at hpassing
  cases hpassing

/-- A run with its lines as its buffer holds them at the send. -/
def sentRun (u : State) (stop d : Nat) (r : InjRun) : InjRun := { r with lines := (readBuffer u stop 0 0x89 d r.lines).1 }

/-- What a send leaves: the beats join those on their way and the run goes on; the buffers that it reads are checked. -/
theorem exec_roundBeatSend_ok {stop d k : Nat} {s u : State} {a rest : List InjRun} {r : InjRun} (hstop : stop < 36)
    (hdom : sendDom s stop = some (d, k)) (hrun : firstRun d (getInj s stop) = some (a, r, rest))
    (hto : toDcc d ((getD s d).dcc + k) s = some u) :
    ∃ t, OnlyLogged u t ∧ exec (.roundBeatSend stop) s = .next (setInj
      { t with beats := t.beats ++ (runDirs r).map (fun dir => runBeat (sentRun u stop d r) stop dir ((getD s d).dcc + k)) } stop
      (a ++ afterSend (sentRun u stop d r) rest ((getD s d).dcc + k + 1))) := by
  have harm : exec (.roundBeatSend stop) s = execRoundBeatSend stop s := rfl
  have hread := onlyLogged_readBuffer u stop 0 0x89 d r.lines
  rw [harm]
  simp only [execRoundBeatSend, if_neg (Nat.not_le.mpr hstop), hdom, hrun, hto]
  split
  · exact ⟨_, onlyLogged_trans hread (onlyLogged_incP ..), rfl⟩
  · exact ⟨_, hread, rfl⟩

/-! ### Beats at their stops (R99, R100, R105 to R108) -/

/-- A beat found at a place of a stop is there. -/
theorem beatAt_some {s : State} {d : Dir} {stop e : Nat} {b : Beat} {others : List Beat} (h : beatAt s d stop e = some (b, others)) :
    b.stop = stop ∧ b.eng = e := by
  obtain ⟨hp, -⟩ := takeFirst_some h
  simp only [Bool.and_eq_true, beq_iff_eq] at hp
  exact ⟨hp.1.1.2, hp.1.2⟩

theorem exec_roundBeatArrive {d : Dir} {stop e : Nat} {s : State} {b : Beat} {others : List Beat} (hstop : stop < 36) (he : e < 5)
    (hb : beatAt s d stop e = some (b, others)) : exec (.roundBeatArrive d stop e) s =
      if e < 4 then passEngine (engineAt e d) stop b others s else leaveAt b others s := by
  have harm : exec (.roundBeatArrive d stop e) s = execRoundBeatArrive d stop e s := rfl
  have hunit : (decide (36 ≤ stop) || decide (5 ≤ e)) = false := by
    rw [decide_eq_false (by omega), decide_eq_false (by omega)]
    rfl
  rw [harm]
  simp only [execRoundBeatArrive, hunit, hb, Bool.false_eq_true, if_false]

/-- A beat that a TAKE wants and that leaves the stop is copied as it leaves. -/
theorem exec_roundBeatTake {d : Dir} {stop : Nat} {s : State} {b : Beat} {others : List Beat} (hstop : stop < 36)
    (hb : beatAt s d stop 4 = some (b, others)) (htakes : (takeFor (getTake s d stop) b).isSome = true) :
    exec (.roundBeatTake d stop) s = leaveAt b others s := by
  have harm : exec (.roundBeatTake d stop) s = execRoundBeatTake d stop s := rfl
  have hnot : (takeFor (getTake s d stop) b).isNone = false := by rw [Option.isNone_eq_false_iff]; exact htakes
  rw [harm]
  simp only [execRoundBeatTake, if_neg (Nat.not_le.mpr hstop), hb, hnot, Bool.false_eq_true, if_false]

theorem passEngine_failing {m stop : Nat} {b : Beat} {others : List Beat} {s t : State} (hto : toDcc b.dom b.at_ s = some t)
    (hfail : failing t b.dom = true) : passEngine m stop b others s = .next { t with beats := others } := by
  simp only [passEngine, hto, hfail, if_true]

theorem passEngine_live {m stop : Nat} {b : Beat} {others : List Beat} {s t : State} (hto : toDcc b.dom b.at_ s = some t)
    (hlive : failing t b.dom = false) : passEngine m stop b others s =
      .next (engineBeat { t with beats := others ++
        [{ b with eng := b.eng + 1, at_ := b.at_ + 1, starts := b.starts ++ engineStarts t stop m b }] } stop m b) := by
  simp only [passEngine, hto, hlive, Bool.false_eq_true, if_false]

theorem leaveAt_failing {b : Beat} {others : List Beat} {s t : State} (hto : toDcc b.dom b.at_ s = some t)
    (hfail : failing t b.dom = true) : leaveAt b others s = .next { t with beats := others } := by
  simp only [leaveAt, hto, hfail, if_true]

/-- A beat at its last stop leaves it for good, past the take unit. -/
theorem leaveAt_gone {b : Beat} {others : List Beat} {s t : State} (hto : toDcc b.dom b.at_ s = some t)
    (hlive : failing t b.dom = false) (hin : fenced t b.stop = false) (hmove : moveOn { t with beats := others } b = none) :
    leaveAt b others s = .next (takeBeat { t with beats := others } b.stop b) := by
  have hin' : fenced { t with beats := others } b.stop = false := hin
  simp only [leaveAt, hto, hlive, Bool.false_eq_true, if_false, leaveBeat, hmove, hin']

/-- Another goes on to the next stop, in a phase of its domain. -/
theorem leaveAt_next {b b' : Beat} {k : Nat} {others : List Beat} {s t : State} (hto : toDcc b.dom b.at_ s = some t)
    (hlive : failing t b.dom = false) (hin : fenced t b.stop = false) (hmove : moveOn { t with beats := others } b = some b')
    (hphase : phaseWait { t with beats := others } [phaseTable { t with beats := others } b.stop b.dir] b.dom b.at_ = some k) :
    leaveAt b others s = .next { takeBeat { t with beats := others } b.stop b with
      beats := (takeBeat { t with beats := others } b.stop b).beats ++ [{ b' with at_ := b'.at_ + k }] } := by
  have hin' : fenced { t with beats := others } b.stop = false := hin
  simp only [leaveAt, hto, hlive, Bool.false_eq_true, if_false, leaveBeat, hmove, hphase, hin']

/-! ### Taken beats (R47, R105, R150) -/

theorem sameMemoryBut_refl (base n : Nat) (s : State) : SameMemoryBut base n s s := fun _ _ => rfl

theorem sameMemoryBut_trans {base n : Nat} {s t u : State} (h : SameMemoryBut base n s t) (k : SameMemoryBut base n t u) :
    SameMemoryBut base n s u := fun a ha => (k a ha).trans (h a ha)

theorem sameMemoryBut_foldl {α : Type} {base n : Nat} (f : State → α → State) (l : List α) (s : State)
    (h : ∀ t, ∀ x ∈ l, SameMemoryBut base n t (f t x)) : SameMemoryBut base n s (l.foldl f s) :=
  foldl_keeps_mem (SameMemoryBut base n s) f l (fun t x hx ht => sameMemoryBut_trans ht (h t x hx)) s
    (sameMemoryBut_refl _ _ _)

theorem sameMemoryBut_writeP_within {base n : Nat} (s : State) {pa : Nat} {bs : List (Byte × Bool)} (hlo : base ≤ pa)
    (hhi : pa + bs.length ≤ base + n) : SameMemoryBut base n s (writeP s pa bs) :=
  fun a ha => sameMemoryBut_writeP s pa bs a (by omega)

theorem sameMemoryBut_markWord (base n : Nat) (s : State) (pa : Nat) (p : Bool) : SameMemoryBut base n s (markWord s pa p) :=
  fun _ _ => rfl

/-- Format codes from 17h on have the sizes of an 8-bit format. -/
theorem eltBits_of_ge {f : Nat} (h : 0x17 ≤ f) : eltBits f = 8 := by
  unfold eltBits
  split <;> omega

theorem imageBytes_of_ge {f : Nat} (h : 0x17 ≤ f) : imageBytes f = 4096 := by
  unfold imageBytes
  split <;> omega

/-- A property of a format's sizes holds of every code where it holds of the codes below 17h and of the sizes of the others. -/
theorem forall_format {P : Nat → Nat → Nat → Prop} (hlow : ∀ f, f < 0x17 → P f (eltBits f) (imageBytes f))
    (hhigh : ∀ f, 0x17 ≤ f → P f 8 4096) (f : Nat) : P f (eltBits f) (imageBytes f) := by
  rcases Nat.lt_or_ge f 0x17 with h | h
  · exact hlow f h
  · rw [eltBits_of_ge h, imageBytes_of_ge h]
    exact hhigh f h

/-- Images are whole lines. -/
theorem imageLines_bytes (f : Nat) : 64 * imageLines f = imageBytes f := by
  have hdvd : imageBytes f % 64 = 0 := forall_format (P := fun _ _ n => n % 64 = 0) (by decide) (fun _ _ => by decide) f
  rw [imageLines]
  omega

/-- The rows of an image lie in it, its scales behind them. -/
theorem rows_le_imageBytes (f : Nat) (hf : f ≠ 0x0C ∧ f ≠ 0x14 ∧ f ≠ 0x15) : eltBits f * 8 * 64 ≤ imageBytes f := by
  revert hf
  exact forall_format (P := fun f w n => f ≠ 0x0C ∧ f ≠ 0x14 ∧ f ≠ 0x15 → w * 8 * 64 ≤ n) (by decide) (fun _ _ _ => by decide) f

/-- The scales of an MX image lie behind its rows. -/
theorem mxScales_le_imageBytes (f : Nat) (hf : fmtMx f = true) : 8 * eltBits f * 64 + 128 ≤ imageBytes f := by
  revert hf
  exact forall_format (P := fun f w n => fmtMx f = true → 8 * w * 64 + 128 ≤ n) (by decide) (fun f h hf => by
    simp only [fmtMx, Bool.and_eq_true, decide_eq_true_eq] at hf
    omega) f

/-- The metadata of an image lies in it. -/
theorem metaOffsets_lt {f o : Nat} (ho : o ∈ metaOffsets f) : o < imageBytes f := by
  unfold metaOffsets at ho
  split at ho
  · next hmx =>
    have hle := mxScales_le_imageBytes f hmx
    obtain ⟨i, hi, rfl⟩ := List.mem_map.mp ho
    have := List.mem_range.mp hi
    omega
  · split at ho
    · next hf =>
      obtain ⟨i, hi, rfl⟩ := List.mem_map.mp ho
      have := List.mem_range.mp hi
      rw [beq_iff_eq.mp hf, show imageBytes 0x16 = 8256 from rfl]
      omega
    · split at ho
      · next hf =>
        obtain ⟨i, hi, rfl⟩ := List.mem_map.mp ho
        have := List.mem_range.mp hi
        rw [beq_iff_eq.mp hf, show imageBytes 0x14 = 2560 from rfl]
        omega
      · split at ho
        · next hf =>
          obtain ⟨i, hi, rfl⟩ := List.mem_map.mp ho
          have := List.mem_range.mp hi
          rw [beq_iff_eq.mp hf, show imageBytes 0x15 = 1152 from rfl]
          omega
        · exact absurd ho List.not_mem_nil

theorem packElems_length (w : Nat) (es : List (Nat × Bool)) : (packElems w es).length = es.length * w / 8 := by
  rw [packElems, List.length_map, List.length_range]

theorem packTrits_length (es : List (Nat × Bool)) : (packTrits es).length = ceilDiv es.length 5 := by
  rw [packTrits, List.length_map, List.length_range]

/-- A row of a taken tile lies in the image. -/
theorem takenRow_within {f k : Nat} {rd : Nat → Byte} {es : List (Nat × Bool)} (hk : k < 64) (hes : es.length = 64)
    {r : Nat × List PByte} (hr : r ∈ takenRow f rd k es) : r.1 + r.2.length ≤ imageBytes f := by
  have hold : ∀ b, (oldZmt rd b).length = 128 := fun b => by rw [oldZmt, List.length_map, List.length_range]
  unfold takenRow at hr
  split at hr
  · next hf =>
    rw [List.mem_singleton.mp hr, packElems_length, hes, beq_iff_eq.mp hf, show imageBytes 0x14 = 2560 from rfl]
    omega
  next h14 =>
  split at hr
  · next hf =>
    rw [List.mem_singleton.mp hr, packTrits_length, hes, beq_iff_eq.mp hf, show imageBytes 0x0C = 832 from rfl, ceilDiv]
    omega
  next h0C =>
  split at hr
  · next hf =>
    rw [beq_iff_eq.mp hf, show imageBytes 0x15 = 1152 from rfl]
    extract_lets old at hr
    have hlen : old.length = 128 := hold _
    split at hr
    · rw [List.mem_singleton.mp hr, List.length_take]
      omega
    · rw [List.mem_singleton.mp hr, List.length_drop, packTrits_length, List.length_append, List.length_take, hes, hlen, ceilDiv]
      omega
  next h15 =>
  have hrows := rows_le_imageBytes f ⟨fun h => h0C (beq_iff_eq.mpr h), fun h => h14 (beq_iff_eq.mpr h), fun h => h15 (beq_iff_eq.mpr h)⟩
  rw [List.mem_singleton.mp hr, packElems_length, hes]
  have hmul : eltBits f * 8 * k ≤ eltBits f * 8 * 63 := Nat.mul_le_mul_left _ (by omega)
  omega

theorem sameMemoryBut_writeTaken (s : State) (stop dst : Nat) (held : List Nat) (own : Nat) {off n : Nat} {bs : List PByte}
    (h : off + bs.length ≤ n) : SameMemoryBut (corePa stop (64 * dst)) n s (writeTaken s stop dst held own off bs) := by
  unfold writeTaken
  extract_lets first t
  have ht : SameMemoryBut (corePa stop (64 * dst)) n s t :=
    sameMemoryBut_foldl _ _ s fun t x _ => sameMemoryBut_markWord _ _ _ _ _
  refine sameMemoryBut_trans ht (sameMemoryBut_writeP_within _ ?_ ?_) <;> rw [← corePa_add] <;> omega

/-- A taken beat is written into its tile image and nowhere else (R105, R150). -/
theorem sameMemoryBut_drainBeat (s : State) (stop : Nat) (x : TakenBeat)
    (h : (x.beat.beat + 1) * 2 ^ x.beat.depth ≤ 64) :
    SameMemoryBut (corePa stop (64 * x.dst)) (64 * imageLines x.beat.fmt) s (drainBeat s stop x) := by
  rw [imageLines_bytes]
  unfold drainBeat
  extract_lets b dep offs held s1 s2
  have h1 : SameMemoryBut (corePa stop (64 * x.dst)) (imageBytes b.fmt) s s1 := by
    by_cases hb : x.bank.isEmpty = true
    · exact (congrArg (SameMemoryBut _ _ s) (if_pos hb)).mpr (sameMemoryBut_refl _ _ _)
    · exact (congrArg (SameMemoryBut _ _ s) (if_neg hb)).mpr (sameMemoryBut_foldl _ _ s fun t w _ => sameMemoryBut_markWord _ _ _ _ _)
  have h2 : SameMemoryBut (corePa stop (64 * x.dst)) (imageBytes b.fmt) s1 s2 := sameMemoryBut_foldl _ _ s1 fun t i hi => by
    have hi' : i < offs.length := Nat.lt_of_lt_of_le (List.mem_range.mp hi) (Nat.min_le_left ..)
    have hoff : offs.getD i 0 < imageBytes b.fmt := metaOffsets_lt (by
      rw [List.getD_eq_getElem?_getD, List.getElem?_eq_getElem hi', Option.getD_some]
      exact List.getElem_mem hi')
    refine sameMemoryBut_writeP_within _ ?_ ?_ <;> rw [← corePa_add]
    · omega
    · rw [List.length_singleton]
      omega
  refine sameMemoryBut_trans (sameMemoryBut_trans h1 h2) (sameMemoryBut_foldl _ _ s2 fun t dd hdd => ?_)
  have hk : b.beat * dep + dd < 64 := by
    have := List.mem_range.mp hdd
    have hmul : (b.beat + 1) * dep = b.beat * dep + dep := Nat.succ_mul ..
    have hle : (b.beat + 1) * dep ≤ 64 := h
    omega
  exact sameMemoryBut_foldl _ _ t fun v r hr => sameMemoryBut_writeTaken _ _ _ _ _ (takenRow_within hk (by
    rw [List.length_map, List.length_range]) hr)

/-- The oldest taken beat of a domain that goes on is written, where its image lies in the core's memory. -/
theorem exec_takeQueueDrain_ok {d : Dir} {stop : Nat} {s : State} {x : TakenBeat} {rest : List TakenBeat} (hstop : stop < 36)
    (hnext : takeFirst (fun x : TakenBeat => !frozen s x.beat.dom) (getTake s d stop).queue = some (x, rest))
    (hin : x.dst + imageLines x.beat.fmt ≤ 0x30000) (hf : s.fLines = []) :
    exec (.takeQueueDrain d stop) s =
      .next (drainBeat (setTake s d stop { getTake s d stop with queue := rest }) stop x) := by
  have harm : exec (.takeQueueDrain d stop) s = execTakeQueueDrain d stop s := rfl
  have hunder : ∀ f, underF (setTake s d stop { getTake s d stop with queue := rest }) stop f =
      f (setTake s d stop { getTake s d stop with queue := rest }) := fun f => by
    rw [underF, setTake_fLines, hf]
    rfl
  rw [harm]
  simp only [execTakeQueueDrain, if_neg (Nat.not_le.mpr hstop), nextTaken, hnext, if_neg (Nat.not_lt.mpr hin), hunder]

/-- Settles O37: the unit's choice, the send's cycle, the ways of a beat, and the drain. -/
theorem roundEventsComplete : Obligations.RoundEventsComplete := by
  refine ⟨fun stop d s a b r hstop hdom hnext => exec_injectionQueueFill_ok hstop hdom hnext,
    fun stop d k s u r a rest hstop hdom hrun => ?send, fun d stop e s t b others hstop he hb hto => ?engine,
    fun d stop s t b others hstop hb hto => ?leave, fun d stop s x rest hstop hnext hin hf => ?drain⟩
  case send =>
    intro at_ r' hto
    obtain ⟨j, hat, hphase, hpassing⟩ := sendAt_some hrun (sendAt_of_sendDom hdom)
    obtain ⟨t, hlogged, hexec⟩ := exec_roundBeatSend_ok hstop hdom hrun hto
    refine ⟨by omega, fun dir hdir => ⟨?_, fun y hy hyd hydir => ?_⟩, _, hexec, ?_, ?_, ?_⟩
    · rw [show at_ - max r.readyAt (getD s d).dcc = j by omega]
      exact hphase dir hdir
    · rw [show at_ = max r.readyAt (getD s d).dcc + j from hat]
      exact hpassing dir hdir y hy hyd hydir
    · exact SameMemory.trans (sameMemory_of_onlyLogged hlogged) (sameMemory_of_eq rfl)
    · rw [setInj_beats, hlogged]
      rfl
    · exact getInj_setInj_same ..
  case engine =>
    obtain ⟨-, rfl⟩ := beatAt_some hb
    have hexec := (exec_roundBeatArrive hstop (by omega) hb).trans (if_pos he)
    exact ⟨fun hfail => hexec.trans (passEngine_failing hto hfail), fun hlive => hexec.trans (passEngine_live hto hlive)⟩
  case leave =>
    obtain ⟨rfl, -⟩ := beatAt_some hb
    have hexec := (exec_roundBeatArrive hstop (by omega) hb).trans (if_neg (by omega))
    have htake := exec_roundBeatTake hstop hb
    refine ⟨fun hfail => ?_, fun hlive hin hmove => ?_, fun b' k hlive hin hmove hphase => ?_⟩
    · exact ⟨hexec.trans (leaveAt_failing hto hfail), fun htakes => (htake htakes).trans (leaveAt_failing hto hfail)⟩
    · exact ⟨hexec.trans (leaveAt_gone hto hlive hin hmove), fun htakes => (htake htakes).trans (leaveAt_gone hto hlive hin hmove)⟩
    · exact ⟨_, hexec.trans (leaveAt_next hto hlive hin hmove hphase), rfl,
        fun htakes => (htake htakes).trans (leaveAt_next hto hlive hin hmove hphase)⟩
  case drain =>
    exact ⟨exec_takeQueueDrain_ok hstop hnext hin hf, fun h => sameMemoryBut_drainBeat _ stop x h⟩

end Sys2Proof.Machine
end

