-- ==== Sys2Proof/Proofs/MeshPackets.lean ====
section
/-!
SUPPORT. Packets at their destinations (R235, R247, R253).
-/
namespace Sys2Proof.Machine

/-! ### Links, and lines through port F -/

/-- Only what a packet leaves at the links it has crossed. -/
def OnlyLinks (s u : State) : Prop := u = { s with linkFails := u.linkFails }

theorem onlyLinks_foldl_crossedLink {α : Type} (from_ to_ : α → Nat) (l : List α) (s : State) :
    OnlyLinks s (l.foldl (fun s x => crossedLink s (from_ x) (to_ x)) s) :=
  foldl_keeps (OnlyLinks s) (fun s x => crossedLink s (from_ x) (to_ x)) (fun t x (h : t = { s with linkFails := _ }) => by
    rw [h]
    rfl) l s rfl

theorem sameMemoryBut_portF (s : State) (u n : Nat) (l : PLine) : SameMemoryBut (corePa u (64 * n)) 64 s (portF s u n l) :=
  sameMemoryBut_setCoreLine { s with fLines := if writtenF s u n then s.fLines else s.fLines ++ [(u, n, coreLine s u n)] } u n l

theorem corePa_add_line (u n i : Nat) : corePa u (64 * (n + i)) = corePa u (64 * n) + 64 * i := by
  simp only [corePa]
  omega

theorem sameMemoryBut_portFLines (s : State) (u n : Nat) (ls : List PLine) :
    SameMemoryBut (corePa u (64 * n)) (64 * ls.length) s (portFLines s u n ls) := by
  refine foldl_keeps_mem (SameMemoryBut (corePa u (64 * n)) (64 * ls.length) s) _ _ (fun t x hx h => ?_) _
    (sameMemoryBut_refl _ _ s)
  have hi : x.1 < ls.length := List.mem_range.mp (List.of_mem_zip hx).1
  have hline := sameMemoryBut_portF t u (n + x.1) x.2
  rw [corePa_add_line] at hline
  exact sameMemoryBut_trans h fun a ha => hline a (by omega)

/-! ### The packet of a type that is next -/

theorem storeAt_core {s : State} {pa q off u : Nat} (ls : List PLine) (hregion : regionOf s pa = .core q off)
    (hu : unitAt q = some u) : storeAt s pa ls = portFLines s u (off / 64) ls := by
  simp only [storeAt, hregion, hu]

/-- A write that carries a token has sent it (R253). -/
def tokenSent (k : Packet) (s : State) : State := k.tok.elim s fun x => sendIncr s k.src k.dom x.1 x.2 1

section
variable {p : Nat} {s : State} {k : Packet} {rest : List Packet} (hp : p < 64)

include hp in
theorem exec_meshWrite_of_packet (hk : packetAt s 0 p = some (k, rest)) :
    let t := crossed { s with packets := rest } k.src p
    exec (.meshWrite p) s = .next (if atStack t k.pa then enqueueReq t k
      else if posFenced t p then incP (sendPacket t (answer k 3 1 [])) (pk 0x0902 3) 1
      else if stopped t k.dom then sendPacket t (answer k 3 1 [])
      else sendPacket (tokenSent k (storeAt t k.pa k.data)) (answer k 3 1 [])) := by
  have harm : exec (.meshWrite p) s = execMeshWrite p s := rfl
  simp only [harm, execMeshWrite, if_neg (Nat.not_le.mpr hp), hk, apply_ite Host.Outcome.next]
  rcases htok : k.tok with _ | ⟨q, c⟩ <;> simp only [tokenSent, htok, Option.elim]

include hp in
theorem exec_meshReadRequest_of_packet (hk : packetAt s 1 p = some (k, rest)) :
    let t := crossed { s with packets := rest } k.src p
    exec (.meshReadRequest p) s = .next (if atStack t k.pa then enqueueReq t k
      else if posFenced t p then sendPacket t (replyTo k (replyVc k) (poisonLines k.n))
      else
        let t' := checkRange t k.pa (64 * k.n) (some k.dom)
        sendPacket t' (replyTo k (replyVc k)
          ((List.range k.n).map fun i => plineOf (readPhys t' (k.pa + 64 * i) 64)))) := by
  have harm : exec (.meshReadRequest p) s = execMeshReadRequest p s := rfl
  simp only [harm, execMeshReadRequest, if_neg (Nat.not_le.mpr hp), hk, apply_ite Host.Outcome.next]

include hp in
theorem exec_meshReadResponse_of_packet (hk : packetAt s 2 p = some (k, rest)) :
    exec (.meshReadResponse p) s = .next (pumpWaiting (deliver (crossed { s with packets := rest } k.src p) k)) := by
  have harm : exec (.meshReadResponse p) s = execMeshReadResponse p s := rfl
  simp only [harm, execMeshReadResponse, if_neg (Nat.not_le.mpr hp), hk]

include hp in
theorem exec_meshAcknowledge_of_packet (hk : packetAt s 3 p = some (k, rest)) :
    exec (.meshAcknowledge p) s = .next (pumpWaiting (acknowledged (crossed { s with packets := rest } k.src p) p k)) := by
  have harm : exec (.meshAcknowledge p) s = execMeshAcknowledge p s := rfl
  simp only [harm, execMeshAcknowledge, if_neg (Nat.not_le.mpr hp), hk]

include hp in
theorem exec_meshMulticastWrite_of_packet (hk : packetAt s 5 p = some (k, rest)) :
    let s' := { s with packets := rest }
    let here := reachedAt s' k p
    let t := if here then mcastDeliver s' k p else s'
    let bs := branches t k p (k.members.filter fun m => !(here && m == p))
    let u := bs.foldl (fun s b => crossedLink s p b.1.1) t
    exec (.meshMulticastWrite p) s = .next { u with
      packets := u.packets ++ bs.map fun b => { k with dst := b.1.1, leg := b.1.2.1, via := b.1.2.2, members := b.2 } } := by
  have harm : exec (.meshMulticastWrite p) s = execMeshMulticastWrite p s := rfl
  simp only [harm, execMeshMulticastWrite, if_neg (Nat.not_le.mpr hp), hk]

end

/-- Settles O38: each packet is the next of its source, destination and channel, and its arm is walked by where the packet's
address lies and by whether core and domain still go on; a store through port F touches the lines it names alone. -/
theorem meshPacketsComplete : Obligations.MeshPacketsComplete := by
  unfold Obligations.MeshPacketsComplete
  refine ⟨?write, ?request, ?response, ?acknowledge, ?multicast⟩
  case write =>
    intro p s k rest hp hk
    have hexec := exec_meshWrite_of_packet hp hk
    refine ⟨fun hstack => ?_, fun hstack hfence => ?_, fun hstack hfence hstop => ?_, fun hstack hfence hstop => ⟨?_, ?_⟩⟩
    · exact hexec.trans (by rw [if_pos hstack])
    · exact hexec.trans (by rw [hstack, hfence, if_neg Bool.false_ne_true, if_pos rfl])
    · exact hexec.trans (by rw [hstack, hfence, hstop, if_neg Bool.false_ne_true, if_neg Bool.false_ne_true, if_pos rfl])
    · exact hexec.trans (by
        rw [hstack, hfence, hstop, if_neg Bool.false_ne_true, if_neg Bool.false_ne_true, if_neg Bool.false_ne_true]
        rcases htok : k.tok with _ | ⟨q, c⟩ <;> simp only [tokenSent, htok, Option.elim])
    · intro q off u hregion hu a ha
      rw [storeAt_core _ hregion hu]
      exact sameMemoryBut_portFLines _ u (off / 64) k.data a ha
  case request =>
    intro p s k rest hp hk
    have hexec := exec_meshReadRequest_of_packet hp hk
    refine ⟨fun hstack => ?_, fun hstack hfence => ?_, fun hstack hfence => ?_⟩
    · exact hexec.trans (by rw [if_pos hstack])
    · exact hexec.trans (by rw [hstack, hfence, if_neg Bool.false_ne_true, if_pos rfl])
    · exact hexec.trans (by rw [hstack, hfence, if_neg Bool.false_ne_true, if_neg Bool.false_ne_true])
  case response => exact fun p s k rest hp hk => exec_meshReadResponse_of_packet hp hk
  case acknowledge => exact fun p s k rest hp hk => exec_meshAcknowledge_of_packet hp hk
  case multicast =>
    intro p s k rest hp hk s' here t bs
    have hlinks := onlyLinks_foldl_crossedLink (fun _ => p) (fun b => b.1.1) bs t
    refine ⟨_, exec_meshMulticastWrite_of_packet hp hk, ?_⟩
    generalize bs.foldl (fun s b => crossedLink s p b.1.1) t = u at hlinks
    rw [OnlyLinks] at hlinks
    refine ⟨?_, ?_, ?_⟩
    · exact sameMemory_of_eq (show u.mem = t.mem by rw [hlinks])
    · show u.arrivals = t.arrivals
      rw [hlinks]
    · show u.packets ++ _ = t.packets ++ _
      rw [hlinks]

end Sys2Proof.Machine
end

