-- ==== Sys2Proof/Proofs/Transfers.lean ====
section
/-!
SUPPORT. Lines at port F, completed operations, Stash messages, reduction routers and failed flits (R113, R152, R155, R243,
R241).
-/
namespace Sys2Proof.Machine

/-! ### The bytes of a line -/

theorem leBytes_eq_map (n v : Nat) : leBytes n v = (List.range n).map fun i => BitVec.ofNat 8 (v >>> (8 * i)) := by
  induction n generalizing v with
  | zero => rfl
  | succ n ih =>
    rw [leBytes, ih, List.range_succ_eq_map, List.map_cons, List.map_map]
    refine congrArg (_ :: ·) (List.map_congr_left fun i _ => ?_)
    rw [Function.comp, show 8 * (Nat.succ i) = 8 + 8 * i from by omega, Nat.shiftRight_add, Nat.shiftRight_eq_div_pow v 8]

theorem plineBytes_values (l : PLine) : (plineBytes l).map (·.1) = lineBytes l.1 := by
  rw [lineBytes, leBytes_eq_map, plineBytes, List.map_map]
  rfl

/-- A line written through port F stands at its place. -/
theorem readByte_portF (s : State) (u n : Nat) (l : PLine) {i : Nat} (hi : i < 64) :
    readByte (portF s u n l) (corePa u (64 * n + i)) = (lineBytes l.1).getD i 0 := by
  rw [← plineBytes_values]
  refine (congrArg (readByte _) ?_).trans (readByte_writeP_inside _ (corePa u (64 * n)) i (plineBytes l) (by
    rwa [plineBytes_length]))
  rw [corePa, corePa, Nat.add_assoc]

/-! ### Port F -/

/-- Only core memory and PRESENT bits, with what the tick's port E reads still see. -/
def OnlyLanded (s u : State) : Prop :=
  u = { s with mem := u.mem, poison := u.poison, errs := u.errs, fLines := u.fLines, elands := u.elands }

theorem onlyLanded_portF (s : State) (u n : Nat) (l : PLine) : OnlyLanded s (portF s u n l) := by
  unfold OnlyLanded portF
  rfl

theorem setPresent_eq (s : State) (u n : Nat) (v : Bool) : setPresent s u n v = { s with elands := (setPresent s u n v).elands } := by
  unfold setPresent
  split <;> rfl

theorem setPresent_mem (s : State) (u n : Nat) (v : Bool) : (setPresent s u n v).mem = s.mem := by
  rw [setPresent_eq]

theorem onlyLanded_setPresent {s t : State} (u n : Nat) (v : Bool) (h : OnlyLanded s t) : OnlyLanded s (setPresent t u n v) := by
  rw [setPresent_eq, h]
  rfl

/-- What an operation's line leaves: the line itself and, of what fills core memory, its PRESENT bit (R116). -/
def landedLine (s : State) (a : Arrival) (k : XKind) : State :=
  if k == .tld || k == .get || k == .spop then setPresent (portF s a.unit a.line a.data) a.unit a.line true
  else portF s a.unit a.line a.data

theorem landedLine_mem (s : State) (a : Arrival) (k : XKind) :
    (landedLine s a k).mem = (portF s a.unit a.line a.data).mem := by
  unfold landedLine
  split
  · exact setPresent_mem ..
  · rfl

theorem onlyLanded_landedLine (s : State) (a : Arrival) (k : XKind) : OnlyLanded s (landedLine s a k) := by
  unfold landedLine
  split
  · exact onlyLanded_setPresent _ _ _ (onlyLanded_portF ..)
  · exact onlyLanded_portF ..

theorem portFWrite_op {s : State} {a : Arrival} {v tag : Nat} {x : Xfer} (ho : a.owner = .op v tag)
    (hx : findXfer s v tag = some x) :
    portFWrite s a = updXfer (if stopped s x.dom then s else landedLine s a x.kind) v tag fun x => { x with done := x.done + 1 } := by
  simp only [portFWrite, ho, hx, landedLine]

theorem portFWrite_op_none {s : State} {a : Arrival} {v tag : Nat} (ho : a.owner = .op v tag) (hx : findXfer s v tag = none) :
    portFWrite s a = s := by
  simp only [portFWrite, ho, hx]

/-- The line of a stream, with its PRESENT bit and its count. -/
def streamLine (s : State) (a : Arrival) (x win : Nat) : State :=
  let t := setPresent (portF s a.unit a.line a.data) a.unit a.line true
  let y := getStream t x
  setStream t x { y with got := SMap.upd 0 y.got (win * 64 + posOf a.unit) (· + 1) }

theorem portFWrite_stream {s : State} {a : Arrival} {c win : Nat} (ho : a.owner = .stream c win) :
    portFWrite s a = if (getStream s c).st ≠ 1 && (getStream s c).st ≠ 2 || stopped s (getStream s c).dom then s
      else streamLine s a c win := by
  simp only [portFWrite, ho, streamLine]

theorem streamLine_mem (s : State) (a : Arrival) (c win : Nat) :
    (streamLine s a c win).mem = (portF s a.unit a.line a.data).mem :=
  setPresent_mem ..

theorem got_streamLine (s : State) (a : Arrival) (c win : Nat) :
    SMap.get 0 (getStream (streamLine s a c win) c).got (win * 64 + posOf a.unit) =
      SMap.get 0 (getStream s c).got (win * 64 + posOf a.unit) + 1 := by
  have hstream : getStream (setPresent (portF s a.unit a.line a.data) a.unit a.line true) c = getStream s c := by
    rw [setPresent_eq]
    rfl
  rw [streamLine, getStream_setStream_same, hstream]
  simp only [SMap.upd, SMap.get_set_same]

theorem readByte_of_mem {s t : State} (h : t.mem = s.mem) (a : Nat) : readByte t a = readByte s a := sameMemory_of_eq h a

theorem sameMemoryBut_of_mem {base n : Nat} {s t u : State} (hm : u.mem = t.mem) (h : SameMemoryBut base n s t) :
    SameMemoryBut base n s u := fun a ha => (readByte_of_mem hm a).trans (h a ha)

theorem sameMemoryBut_portFWrite (s : State) (a : Arrival) : SameMemoryBut (corePa a.unit (64 * a.line)) 64 s (portFWrite s a) := by
  have hline := sameMemoryBut_portF s a.unit a.line a.data
  cases howner : a.owner with
  | op v tag =>
    cases hx : findXfer s v tag with
    | none =>
      rw [portFWrite_op_none howner hx]
      exact sameMemoryBut_refl _ _ s
    | some x =>
      rw [portFWrite_op howner hx]
      split
      · exact sameMemoryBut_refl _ _ s
      · exact sameMemoryBut_of_mem (landedLine_mem s a x.kind) hline
  | stream c win =>
    rw [portFWrite_stream howner]
    split
    · exact sameMemoryBut_refl _ _ s
    · exact sameMemoryBut_of_mem (streamLine_mem s a c win) hline
  | _ =>
    simp only [portFWrite, howner]
    exact sameMemoryBut_refl _ _ s

/-! ### Operations that have completed -/

theorem pumpWaiting_of_none {s : State} (h : ∀ y ∈ s.xfers, y.grans = []) : pumpWaiting s = s := by
  have hnone : (s.xfers.filter fun x => !x.grans.isEmpty && x.halted.isNone) = [] :=
    List.filter_eq_nil_iff.mpr fun y hy => by simp [h y hy]
  rw [pumpWaiting, hnone]
  rfl

/-! ### Reduction routers (R243, R244) -/

/-- A line of a combined flit as it lands at the root, unless the tree's domain is stopped. -/
def landPut (u base : Nat) (dead : Bool) (s : State) (i : Nat) : Option PLine → State
  | some l => if dead then s else portF s u (base + i) l
  | none => s

theorem red_landPut (u base : Nat) (dead : Bool) (s : State) (i : Nat) (l : Option PLine) :
    (landPut u base dead s i l).red = s.red := by
  cases l with
  | none => rfl
  | some l => cases dead <;> rfl

/-- The end of a round at the root (R244). -/
def landEnd (s : State) (t root k : Nat) (holder : Option Nat) : State :=
  let s := incP s (pk (0x0910 + t) 6) 1
  let tok := getP s (pk (0x0910 + t) 5)
  let s := if tok == 0xFF then s else sendIncr s root (holder.getD 0) root tok 1
  { s with xfers := s.xfers.map fun x =>
      if x.kind == .rsend && x.tgt == t && x.rline == k then { x with done := x.total } else x }

theorem red_landEnd (s : State) (t root k : Nat) (holder : Option Nat) : (landEnd s t root k holder).red = s.red := by
  unfold landEnd
  dsimp only
  split <;> rfl

theorem landRed_at {t root u : Nat} (s : State) (k n : Nat) (lo up : Option PLine) (last : Bool) (hu : unitAt root = some u) :
    let base := getP s (pk (0x0910 + t) (if k % 2 == 0 then 3 else 4))
    let holder := treeHolder s t
    let dead := (holder.map (stopped s)).getD true
    let s' := landPut u base dead (landPut u base dead s (2 * n) lo) (2 * n + 1) up
    landRed s t root k n lo up last = if last then landEnd s' t root k holder else s' := by
  cases hh : treeHolder s t <;> cases lo <;> cases up <;>
    simp only [landRed, hu, hh, landPut, landEnd, Option.map, Option.getD] <;> rfl

theorem red_landRed (s : State) (t root k n : Nat) (lo up : Option PLine) (last : Bool) :
    (landRed s t root k n lo up last).red = s.red := by
  cases hu : unitAt root with
  | none => simp only [landRed, hu]
  | some u =>
    rw [landRed_at s k n lo up last hu]
    split
    · rw [red_landEnd, red_landPut, red_landPut]
    · rw [red_landPut, red_landPut]

/-- What an input of a router supplies to a round's flit is used up with it. -/
def redUsed (t p k n : Nat) (f : RedFlit) : Bool :=
  f.tree == t && f.pos == p && f.round == k && (f.lower.isNone || f.n == n)

/-- The inputs that ended with this flit while others go on (R243). -/
def redEnds (fs : List RedFlit) : List RedFlit :=
  if fs.all (·.last) then [] else (fs.filter (·.last)).map fun f => { f with lower := none, upper := none }

theorem lower_of_mem_redEnds {fs : List RedFlit} {g : RedFlit} (hg : g ∈ redEnds fs) : g.lower = none := by
  unfold redEnds at hg
  split at hg
  · exact absurd hg List.not_mem_nil
  · obtain ⟨f, -, rfl⟩ := List.mem_map.mp hg
    rfl

/-- A router whose expected inputs have supplied their flit is left with none of them, whether the combined flit goes on to
another router or lands. -/
theorem exec_meshReduction_ok {p t : Nat} {s : State} {f : RedFlit} (hp : p < 64) (ht : t < 16)
    (hmin : minBy (fun (a b : RedFlit) => decide (a.round < b.round) || (a.round == b.round && decide (a.n < b.n)))
      (s.red.filter fun f => f.tree == t && f.pos == p && f.lower.isSome) = some f)
    (hoffers : ∀ port ∈ expected s t p, (offered s t p port f.round f.n).isSome = true)
    (hnext : p = treeRoot s t ∨ ∃ q, q ≠ p ∧ treeNext s t p = some q) :
    ∃ (fs : List RedFlit) (u : State), exec (.meshReduction p t) s = .next u ∧
      ∀ g ∈ u.red, g.pos = p → g ∈ (s.red.filter fun g => !redUsed t p f.round f.n g) ++ redEnds fs := by
  have hguard : (decide (64 ≤ p) || decide (16 ≤ t)) = false := by simp [hp, ht]
  have hall : ((expected s t p).map fun port => offered s t p port f.round f.n).any (·.isNone) = false := by
    rw [List.any_map, List.any_eq_false]
    intro port hport
    simp [Option.isSome_iff_ne_none.mp (hoffers port hport)]
  have harm : exec (.meshReduction p t) s = execMeshReduction p t s := rfl
  refine ⟨((expected s t p).map fun port => offered s t p port f.round f.n).filterMap id, ?_⟩
  rw [harm]
  simp only [execMeshReduction, hguard, hmin, hall, Bool.false_eq_true, if_false]
  by_cases hroot : p = treeRoot s t
  · refine ⟨_, if_pos (beq_iff_eq.mpr hroot), fun g hg _ => ?_⟩
    rwa [red_landRed] at hg
  · obtain ⟨q, hq, htree⟩ := hnext.resolve_left hroot
    have hroute (r : List RedFlit) : treeNext { s with red := r } t p = some q := htree
    have hnot (r : List RedFlit) : (p == treeRoot { s with red := r } t) = false := beq_eq_false_iff_ne.mpr hroot
    rw [hnot, if_neg Bool.false_ne_true, hroute]
    refine ⟨_, rfl, fun g hg hpos => ?_⟩
    obtain hg | hg := List.mem_append.mp hg
    · exact hg
    · rw [List.mem_singleton.mp hg] at hpos
      exact absurd hpos hq

/-! ### Failed flits (R241) -/

/-- The failure counted, and the link marked dead after 1,024 in a row. -/
def flitFailed (s : State) (k : Nat) : State :=
  let n := SMap.get 0 s.linkFails k + 1
  let s := incP { s with linkFails := SMap.set 0 s.linkFails k n } (pk 0x0902 1) 1
  if 1024 ≤ n && !bit (getP s (pk 0x0902 2)) k then setP s (pk 0x0902 2) (getP s (pk 0x0902 2) + 2 ^ k) else s

theorem exec_flitCrcFail_ok {p dir : Nat} (s : State) (hp : p < 64) (hdir : dir < 4) (h0 : dir = 0 → 8 ≤ p)
    (h1 : dir = 1 → p % 8 < 7) (h2 : dir = 2 → p < 56) (h3 : dir = 3 → 0 < p % 8) :
    exec (.flitCrcFail p dir) s = .next (flitFailed s (4 * p + dir)) := by
  have harm : exec (.flitCrcFail p dir) s = execFlitCrcFail p dir s := rfl
  have hguard : (decide (64 ≤ p) || decide (4 ≤ dir)) = false := by simp [hp, hdir]
  rw [harm]
  unfold execFlitCrcFail
  rw [hguard, if_neg Bool.false_ne_true]
  rcases (by omega : dir = 0 ∨ dir = 1 ∨ dir = 2 ∨ dir = 3) with rfl | rfl | rfl | rfl
  · rw [if_neg (by simpa using h0 rfl)]
    rfl
  · rw [if_neg (by simpa using h1 rfl)]
    rfl
  · rw [if_neg (by simpa using h2 rfl)]
    rfl
  · rw [if_neg (by simpa [Nat.pos_iff_ne_zero] using h3 rfl)]
    rfl

/-- Only the failures of links, and the parameters. -/
theorem flitFailed_eq (s : State) (k : Nat) :
    flitFailed s k = { s with linkFails := SMap.set 0 s.linkFails k (SMap.get 0 s.linkFails k + 1), par := (flitFailed s k).par } := by
  unfold flitFailed
  dsimp only
  split <;> rfl

theorem getP_flitFailed_count (s : State) (k : Nat) :
    getP (flitFailed s k) (pk 0x0902 1) = min (getP s (pk 0x0902 1) + 1) (counterMax (pk 0x0902 1)) := by
  have hcount (l : SMap Nat) : getP (incP { s with linkFails := l } (pk 0x0902 1) 1) (pk 0x0902 1) =
      min (getP s (pk 0x0902 1) + 1) (counterMax (pk 0x0902 1)) := getP_incP_same ..
  unfold flitFailed
  dsimp only
  split
  · exact (getP_setP_other _ _ (by decide)).trans (hcount _)
  · exact hcount _

theorem sameParamsBut_flitFailed (s : State) (k : Nat) :
    SameParamsBut [pk 0x0902 1, pk 0x0902 2] s (flitFailed s k) := by
  intro key hkey
  simp only [List.mem_cons, List.not_mem_nil, or_false, not_or] at hkey
  obtain ⟨h1, h2⟩ := hkey
  have hcount (l : SMap Nat) : getP (incP { s with linkFails := l } (pk 0x0902 1) 1) key = getP s key :=
    getP_incP_other _ _ (Ne.symm h1)
  unfold flitFailed
  dsimp only
  split
  · exact (getP_setP_other _ _ (Ne.symm h2)).trans (hcount _)
  · exact hcount _

/-- Settles O39: a line at port F lands on its own 64 bytes and counts for its owner; completed operations and Stash messages
are walked by their conditions; a reduction router keeps none of the inputs that it has combined; a failed flit touches its
link's count and the two parameters of failures. -/
theorem transferEventsComplete : Obligations.TransferEventsComplete := by
  unfold Obligations.TransferEventsComplete
  refine ⟨?portF, sameMemoryBut_portFWrite, ?transfer, ?push, ?stash, ?reduction, ?flit⟩
  case portF =>
    intro u src s a rest hu htake
    refine ⟨?_, fun v tag x howner hx hstop => ?_, fun c win howner hst hstop => ?_⟩
    · have harm : exec (.portFLineWrite u src) s = execPortFLineWrite u src s := rfl
      simp only [harm, execPortFLineWrite, hu, htake, Bool.not_true, Bool.false_eq_true, if_false]
    · have hw := portFWrite_op (s := { s with arrivals := rest }) howner hx
      rw [if_neg (by rw [Bool.not_eq_true]; exact hstop)] at hw
      rw [hw]
      refine ⟨fun i hi => ?_, ?_⟩
      · exact (readByte_of_mem (landedLine_mem { s with arrivals := rest } a x.kind) _).trans (readByte_portF _ _ _ _ hi)
      · show (landedLine { s with arrivals := rest } a x.kind).xfers.map _ = _
        rw [onlyLanded_landedLine { s with arrivals := rest } a x.kind]
    · have hw := portFWrite_stream (s := { s with arrivals := rest }) howner
      have hlive : (decide ((getStream s c).st ≠ 1) && decide ((getStream s c).st ≠ 2) || stopped s (getStream s c).dom) =
          false := by
        obtain h | h := hst <;> simp [h, hstop]
      rw [if_neg (by
        rw [Bool.not_eq_true]
        exact hlive)] at hw
      rw [hw]
      exact ⟨fun i hi => (readByte_of_mem (streamLine_mem { s with arrivals := rest } a c win) _).trans
        (readByte_portF _ _ _ _ hi), got_streamLine { s with arrivals := rest } a c win⟩
  case transfer =>
    intro u tag s x rest hu htake hdone send
    have hexec : exec (.meshTransferComplete u tag) s = .next (send (pumpWaiting { s with xfers := rest })) := by
      have harm : exec (.meshTransferComplete u tag) s = execMeshTransferComplete u tag s := rfl
      simp only [harm, execMeshTransferComplete, hu, htake, if_neg (Nat.not_lt.mpr hdone), Bool.not_true, Bool.false_eq_true,
        if_false]
      rfl
    exact ⟨hexec, fun hgrans => by rw [hexec, pumpWaiting_of_none (s := { s with xfers := rest }) hgrans]⟩
  case push =>
    intro u tag s x rest hu htake hdone
    have harm : exec (.stashPushComplete u tag) s = execStashPushComplete u tag s := rfl
    simp only [harm, execStashPushComplete, hu, htake, hdone, Bool.not_true, Bool.false_eq_true, if_false, ne_eq, not_true] <;> rfl
  case stash =>
    intro p u s m rest hp htake t
    have harm : exec (.meshStash p) s = execMeshStash p s := rfl
    refine ⟨fun hdom => ?_, fun hdom hpop => ?_, fun hdom hpop hcheck => ?_⟩
    · simp only [harm, execMeshStash, hp, htake]
      exact if_pos hdom
    · simp only [harm, execMeshStash, hp, htake, hpop, Bool.not_false, if_true]
      exact if_neg (not_not_intro hdom)
    · simp only [harm, execMeshStash, hp, htake, hpop, Bool.not_true, Bool.false_eq_true, if_false]
      refine (if_neg (not_not_intro hdom)).trans ?_
      show (match popCheck m.strand p m.tag m.fmt m.count (getLane t m.strand p).reverse with
        | some _ => _
        | none => _) = _
      rw [hcheck]
  case reduction =>
    intro p t s f hp ht hmin hoffers hnext
    obtain ⟨fs, u, hexec, hred⟩ := exec_meshReduction_ok hp ht hmin hoffers hnext
    refine ⟨u, hexec, fun g hg htree hpos hround hn => ?_⟩
    obtain hg | hg := List.mem_append.mp (hred g hg hpos)
    · have hkept := (List.mem_filter.mp hg).2
      simp [redUsed, htree, hpos, hround, hn] at hkept
    · exact lower_of_mem_redEnds hg
  case flit =>
    intro p dir s hp hdir h0 h1 h2 h3
    refine ⟨_, exec_flitCrcFail_ok s hp hdir h0 h1 h2 h3, ?_, ?_, ?_, sameParamsBut_flitFailed s _, getP_flitFailed_count ..⟩
    · rw [flitFailed_eq]
      exact sameMemory_of_eq rfl
    · rw [flitFailed_eq]
    · rw [flitFailed_eq]
      simp only [SMap.get_set_same]

end Sys2Proof.Machine
end

