-- ==== Sys2Proof/Proofs/DomainTicks.lean ====
section
/-!
SUPPORT. What ticks of the compute clock do to a domain (R205 to R208).
-/
namespace Sys2Proof.Machine

/-! ### A map with every value changed -/

theorem SMap.get_mapValues {V : Type} (d : V) (f : V → V) (hd : f d = d) (m : SMap V) (k : Nat) :
    SMap.get d (m.map fun x => (x.1, f x.2)) k = f (SMap.get d m k) := by
  induction m with
  | nil => exact hd.symm
  | cons x m ih =>
    simp only [List.map_cons, SMap.get]
    split
    · rfl
    · exact ih

/-! ### Ticks of one domain -/

/-- The time in nanoseconds that ticks last. -/
def ticksNs (s : State) (k : Nat) : Nat := (s.nsFrac + k * 1000) / max 1 (freqMhz s)

theorem getD_count (s : State) (k d : Nat) : getD (count k s) d = tickDomain s.ctc k (ticksNs s k) (getD s d) := by
  have hdoms : (count k s).doms = s.doms.map fun x => (x.1, tickDomain s.ctc k (ticksNs s k) x.2) := by
    simp only [count]
    generalize hu : State.mk .. = u
    obtain ⟨_, _, _, _, h⟩ := addTime_eq (k * 1000) u
    rw [h, ← hu]
    rfl
  rw [getD, hdoms, SMap.get_mapValues _ (tickDomain s.ctc k (ticksNs s k)) rfl]
  rfl

section
variable {s : State} (hruns : s.clk.runs = true) (hquiet : quiet s = true)

include hruns hquiet in
theorem advance_of_quiet {k : Nat} (hk : 0 < k) : advance k s = settleChams (count k s) := by
  obtain ⟨n, rfl⟩ := Nat.exists_eq_succ_of_ne_zero (Nat.ne_of_gt hk)
  simp only [advance, hruns, advanceTicks, hquiet, leap, if_true]

include hruns hquiet in
theorem getD_advance_of_quiet {k : Nat} (hk : 0 < k) (d : Nat) :
    getD (advance k s) d = tickDomain s.ctc k (ticksNs s k) (getD s d) := by
  rw [advance_of_quiet hruns hquiet hk]
  exact getD_count s k d

include hruns hquiet in
theorem ctc_advance_of_quiet {k : Nat} (hk : 0 < k) : (advance k s).ctc = s.ctc + k := by
  rw [advance_of_quiet hruns hquiet hk]
  exact count_ctc k s

end

theorem advance_zero (s : State) (hruns : s.clk.runs = true) : advance 0 s = s := by
  simp only [advance, hruns, advanceTicks, if_true]

theorem tickDomain_started {x : Domain} (hruns : x.st.runs = true) (hstarted : x.started = true) (ctc k t : Nat) :
    tickDomain ctc k t x = runTicks ctc k t x := by
  simp only [tickDomain, hruns, hstarted, Bool.not_true, Bool.false_eq_true, if_false, if_true]

/-- Ticks up to the freeze of a domain that goes on. -/
theorem countTicks_to_freeze {x : Domain} {f : Nat} (hlive : x.stalled = false) (hf : x.freezeAt = some f) (hle : x.dcc ≤ f)
    (t : Nat) : (countTicks (f - x.dcc) t x).dcc = f ∧ (countTicks (f - x.dcc) t x).stalled = false ∧
      (countTicks (f - x.dcc) t x).freezeAt = some f := by
  refine ⟨?_, ?_, hf⟩ <;> simp only [countTicks, hlive, hf, Bool.false_eq_true, if_false, Nat.min_self, Nat.lt_irrefl,
    decide_false, Bool.or_self]
  omega

/-- Ticks of a stalled domain. -/
theorem countTicks_stalled {x : Domain} (hstall : x.stalled = true) (k t : Nat) :
    (countTicks k t x).dcc = x.dcc ∧ (countTicks k t x).stallTicks = x.stallTicks + k ∧
      (countTicks k t x).stalled = true ∧ (countTicks k t x).reqs = x.reqs := by
  simp [countTicks, hstall]

/-- No tick. -/
theorem countTicks_zero (x : Domain) (t : Nat) : (countTicks 0 t x).dcc = x.dcc ∧ (countTicks 0 t x).stalled = x.stalled ∧
    (countTicks 0 t x).stallTicks = x.stallTicks ∧ (countTicks 0 t x).freezeAt = x.freezeAt ∧
    (countTicks 0 t x).resumeAt = x.resumeAt := by
  cases hf : x.freezeAt <;> simp [countTicks, hf]

/-- A tick takes the domain to its resume: it goes on, with nothing counted but the stall. -/
theorem runTicks_to_resume {x : Domain} {r ctc : Nat} (hstall : x.stalled = true) (hr : x.resumeAt = some r) (hlt : ctc < r)
    (t : Nat) :
    let y := runTicks ctc (r - ctc) t x
    y.stalled = false ∧ y.resumeAt = none ∧ y.dcc = x.dcc ∧ y.stallTicks = x.stallTicks + (r - ctc) ∧
      ∃ z : Domain, z.reqs = x.reqs ∧ y.freezeAt = nextFreeze z := by
  intro y
  have hend : ctc + (r - ctc) = r := by omega
  obtain ⟨hdcc, hticks, -, hreqs⟩ := countTicks_stalled hstall (r - ctc) (t * (r - ctc) / max 1 (r - ctc))
  have hy : y = countTicks 0 (t * 0 / max 1 (r - ctc)) (resumed (countTicks (r - ctc) (t * (r - ctc) / max 1 (r - ctc)) x)) := by
    simp only [y, runTicks, hr, hend, Nat.le_refl, if_true, Nat.sub_self]
  obtain ⟨h1, h2, h3, h4, h5⟩ := countTicks_zero (resumed (countTicks (r - ctc) (t * (r - ctc) / max 1 (r - ctc)) x))
    (t * 0 / max 1 (r - ctc))
  rw [hy, h1, h2, h3, h4, h5]
  exact ⟨rfl, rfl, hdcc, hticks, _, hreqs, rfl⟩

theorem nextFreeze_of_no_request {x : Domain} (h : x.reqs = []) : nextFreeze x = none := by
  simp only [nextFreeze, h, List.filter_nil, List.map_nil]

theorem nextFreeze_of_seen {x : Domain} {q : StallReq} (hq : q ∈ x.reqs) (hseen : q.seen = true) : ∃ f, nextFreeze x = some f := by
  have hmem : q.slot ∈ (x.reqs.filter (·.seen)).map (·.slot) := List.mem_map.mpr ⟨q, List.mem_filter.mpr ⟨hq, hseen⟩, rfl⟩
  cases hslots : (x.reqs.filter (·.seen)).map (·.slot) with
  | nil => exact absurd (hslots ▸ hmem) List.not_mem_nil
  | cons a r => exact ⟨max (r.foldl min a) x.dcc, by simp only [nextFreeze, hslots]⟩

end Sys2Proof.Machine
end

