-- ==== Sys2Proof/Proofs/SyncNetwork.lean ====
section
/-!
SUPPORT. Messages of the sync network: increments, stall requests, freezes, resumes and picks (R120, R123, R134, R208).
-/
namespace Sys2Proof.Machine

/-! ### Conditions that are met -/

/-- A core with other decoded instructions. -/
def withDecoded (e : Eland) (a b : List Decoded) : Eland :=
  { e with fore := { e.fore with decoded := a }, back := { e.back with decoded := b } }

/-- Only the reservations of decoded instructions. -/
def OnlyReserved (s u : State) : Prop :=
  u = { s with elands := u.elands, chams := u.chams } ∧
    ∀ c, ∃ a b, getE u c = withDecoded (getE s c) a b

theorem onlyReserved_refl (s : State) : OnlyReserved s s := ⟨rfl, fun _ => ⟨_, _, rfl⟩⟩

theorem onlyReserved_trans {s t u : State} (h : OnlyReserved s t) (k : OnlyReserved t u) : OnlyReserved s u := by
  obtain ⟨hst, hs⟩ := h
  obtain ⟨htu, ht⟩ := k
  refine ⟨by rw [htu, hst], fun c => ?_⟩
  obtain ⟨a, b, hc⟩ := hs c
  obtain ⟨a', b', hc'⟩ := ht c
  exact ⟨a', b', by
    rw [hc', hc]
    rfl⟩

theorem onlyReserved_setDecoded (s : State) (u needle : Nat) (l : List Decoded) : OnlyReserved s (setDecoded s u needle l) := by
  unfold setDecoded
  split
  · refine ⟨rfl, fun c => ?_⟩
    by_cases hc : u = c
    · subst hc
      rw [updN, getE_setE_same]
      split <;> exact ⟨_, _, rfl⟩
    · exact ⟨_, _, getE_updN_other s _ _ hc⟩
  · exact ⟨rfl, fun _ => ⟨_, _, rfl⟩⟩

theorem onlyReserved_settleOwed {s t : State} {d u needle key : Nat} (h : settleOwed s d u needle key = some t) :
    OnlyReserved s t := by
  unfold settleOwed at h
  dsimp only at h
  split at h
  · obtain rfl := Option.some.inj h
    exact onlyReserved_refl s
  · obtain ⟨x, -, rfl⟩ := Option.map_eq_some_iff.mp h
    exact onlyReserved_setDecoded ..

theorem onlyReserved_meetCond {s t : State} {d : Nat} {r : StallReq} (h : meetCond s d r = some t) : OnlyReserved s t := by
  unfold meetCond at h
  split at h
  · exact onlyReserved_settleOwed h
  · exact onlyReserved_settleOwed h
  · split at h
    · obtain rfl := Option.some.inj h
      exact onlyReserved_refl s
    · exact absurd h nofun

theorem meetAll_keeps (s : State) (d : Nat) (rs : List StallReq) :
    OnlyReserved s (meetAll s d rs).1 ∧ ∀ q ∈ (meetAll s d rs).2, q ∈ rs := by
  refine foldl_keeps_mem (fun a : State × List StallReq => OnlyReserved s a.1 ∧ ∀ q ∈ a.2, q ∈ rs) _ rs
    (fun a r hr h => ?_) (s, []) ⟨onlyReserved_refl s, fun _ hq => absurd hq List.not_mem_nil⟩
  obtain ⟨hs, hopen⟩ := h
  split
  next t ht => exact ⟨onlyReserved_trans hs (onlyReserved_meetCond ht), hopen⟩
  next =>
    refine ⟨hs, fun q hq => ?_⟩
    obtain hq | hq := List.mem_append.mp hq
    · exact hopen q hq
    · rwa [List.mem_singleton.mp hq]

/-! ### The root announces a resume (R208) -/

/-- What an announcement leaves: reservations, and of the domain its picks; no request is new. -/
def OnlyAnnounced (d : Nat) (s u : State) : Prop :=
  u = { s with elands := u.elands, chams := u.chams, doms := u.doms } ∧
    (∀ c, ∃ a b, getE u c = withDecoded (getE s c) a b) ∧
    (getD u d).choice = (getD s d).choice ∧ (getD u d).reports = (getD s d).reports ∧ (getD u d).nth = (getD s d).nth ∧
    ∀ q ∈ (getD u d).reqs, q ∈ (getD s d).reqs

theorem announceResume_of_open {s : State} {d : Nat} (h : ∃ r ∈ (getD s d).reqs, dueReq (getD s d) r = true) :
    announceResume s d = s := by
  simp only [announceResume, List.any_eq_true.mpr h, if_true]

/-- The tick in which the freeze's stall begins. -/
def stallBegins (s : State) (d f : Nat) : Nat :=
  let dd := getD s d
  if dd.stalled then dd.stallCtc else if dd.started then s.ctc + (f - dd.dcc) else dd.startCtc + f

/-- The domain after the announcement of a resume, with the requests that stay open. -/
def announced (s : State) (d f : Nat) (left : List StallReq) : Domain :=
  let dd := { getD s d with reqs := left }
  let r := inPhase (phased s d) (s.ctc + 64) (stallBegins s d f)
  if !dd.stalled && decide (r ≤ stallBegins s d f) then { dd with freezeAt := nextFreeze dd, resumeOk := [] }
  else { dd with resumeAt := some r }

theorem announceResume_of_met {s : State} {d f : Nat} (h : (getD s d).reqs.any (dueReq (getD s d)) = false)
    (hf : (getD s d).freezeAt = some f) :
    announceResume s d = setD (meetAll s d (getD s d).reqs).1 d (announced s d f (meetAll s d (getD s d).reqs).2) := by
  unfold announceResume
  dsimp only
  rw [h, if_neg Bool.false_ne_true]
  split
  next hnone => exact absurd (hf.symm.trans hnone) nofun
  next g hg =>
    obtain rfl : f = g := Option.some.inj (hf.symm.trans hg)
    exact (apply_ite (setD _ d) _ _ _).symm

theorem announceResume_of_no_freeze {s : State} {d : Nat} (hf : (getD s d).freezeAt = none) : announceResume s d = s := by
  simp only [announceResume, hf]
  split <;> rfl

theorem onlyAnnounced_announceResume (s : State) (d : Nat) : OnlyAnnounced d s (announceResume s d) := by
  have hsame : OnlyAnnounced d s s := ⟨rfl, (onlyReserved_refl s).2, rfl, rfl, rfl, fun _ h => h⟩
  cases hdue : (getD s d).reqs.any (dueReq (getD s d)) with
  | true => rwa [announceResume_of_open (List.any_eq_true.mp hdue)]
  | false =>
    cases hf : (getD s d).freezeAt with
    | none => rwa [announceResume_of_no_freeze hf]
    | some f =>
      obtain ⟨⟨hs, helands⟩, hleft⟩ := meetAll_keeps s d (getD s d).reqs
      rw [announceResume_of_met hdue hf]
      refine ⟨?_, helands, ?_⟩
      · rw [hs]
        rfl
      · rw [getD_setD_same]
        unfold announced
        dsimp only
        split <;> exact ⟨rfl, rfl, rfl, hleft⟩

theorem elands_announceResume_of_no_request {s : State} {d : Nat} (h : (getD s d).reqs = []) :
    (announceResume s d).elands = s.elands := by
  cases hf : (getD s d).freezeAt with
  | none => rw [announceResume_of_no_freeze hf]
  | some f =>
    rw [announceResume_of_met (by rw [h]; rfl) hf, h]
    rfl

/-- The announced tick is the first in phase that is 64 or more ahead. -/
theorem inPhase_bounds (ph : Bool) (t b : Nat) :
    t ≤ inPhase ph t b ∧ inPhase ph t b < t + 8 ∧ (ph = true → inPhase ph t b % 8 = b % 8) ∧ (ph = false → inPhase ph t b = t) := by
  cases ph <;> simp only [inPhase, Bool.false_eq_true, if_false, if_true, false_implies, true_implies, and_true]
  · omega
  · refine ⟨by omega, by omega, by omega, nofun⟩

/-! ### Picks (R123, R124) -/

theorem pickSlot_congr {s s' : State} {c : Nat} (h : getE s' c = getE s c) : pickSlot s' c = pickSlot s c := by
  simp only [pickSlot, h]

theorem getE_choose_other (s : State) {c k : Nat} (n : Needle) (h : c ≠ k) : getE (choose s c n) k = getE s k := by
  unfold choose
  split
  · rfl
  · dsimp only
    split
    · rw [activate, getE_updN_other _ _ _ h, getE_setE_other _ _ h, getE_updN_other _ _ _ h]
    · rw [getE_setE_other _ _ h, getE_updN_other _ _ _ h]

theorem choose_eq (s : State) (c : Nat) (n : Needle) : choose s c n = { s with elands := (choose s c n).elands } := by
  unfold choose
  split
  · rfl
  · dsimp only
    split <;> rfl

/-- A core whose pick has issued makes the chosen needle active from the pick's slot on. -/
theorem choose_of_due {s : State} {c slot : Nat} (n : Needle) (h : (getE s c).pickDue = some slot) :
    (getN (getE (choose s c n) c) n).st = .active ∧ (getN (getE (choose s c n) c) n).nextSlot = slot ∧
      (getE (choose s c n) c).pickDue = none ∧ (getN (getE (choose s c n) c) n).decFrom = some s.ctc := by
  have hslot : pickSlot s c = some slot := by simp only [pickSlot, h]
  cases n <;> simp [choose, hslot, updN, setN, getN, h, activate]

/-- On a core whose pick has not issued the choice waits. -/
theorem choose_of_waiting {s : State} {c slot : Nat} (n : Needle) (h : (getE s c).pickDue = none)
    (hslot : pickSlot s c = some slot) :
    (getE (choose s c n) c).answers = (getE s c).answers ++ [n] ∧ (getN (getE (choose s c n) c) n).decFrom = some s.ctc := by
  cases n <;> simp [choose, hslot, updN, setN, getN, h]

/-- Each core of a list learns of the choice once, as it stood before. -/
theorem foldl_choose (n : Needle) (P : State → Prop) {c : Nat} {s : State}
    (hcore : ∀ t, getE t c = getE s c → t.ctc = s.ctc → P (choose t c n))
    (hother : ∀ t k, c ≠ k → P t → P (choose t k n)) (l : List Nat) (hnodup : l.Nodup) (hc : c ∈ l) (t : State)
    (hE : getE t c = getE s c) (hctc : t.ctc = s.ctc) : P (l.foldl (fun s c => choose s c n) t) := by
  induction l generalizing t with
  | nil => exact absurd hc List.not_mem_nil
  | cons k l ih =>
    obtain ⟨hk, hl⟩ := List.nodup_cons.mp hnodup
    rw [List.foldl_cons]
    obtain rfl | hc := List.mem_cons.mp hc
    · exact foldl_keeps_mem P _ l (fun t j hj h => hother t j (fun he => hk (by rwa [he])) h) _ (hcore t hE hctc)
    · have hne : k ≠ c := fun he => hk (by rwa [he])
      exact ih hl hc _ ((getE_choose_other t n hne).trans hE) (by rw [choose_eq]; exact hctc)

theorem foldl_choose_eq (n : Needle) (l : List Nat) (s : State) :
    l.foldl (fun s c => choose s c n) s = { s with elands := (l.foldl (fun s c => choose s c n) s).elands } :=
  foldl_keeps (fun t => t = { s with elands := t.elands }) (fun s c => choose s c n) (fun t c h => by
    rw [choose_eq, h]) l s rfl

theorem getE_foldl_choose_other (n : Needle) {l : List Nat} {c : Nat} (hc : c ∉ l) (s : State) :
    getE (l.foldl (fun s c => choose s c n) s) c = getE s c :=
  foldl_keeps_mem (fun t => getE t c = getE s c) _ l (fun t k hk h =>
    (getE_choose_other t n fun he => hc (by rwa [← he])).trans h) s rfl

theorem reporting_nodup (s : State) (d : Nat) : (reporting s d).Nodup := List.nodup_range.filter _

theorem mem_reqs_requestStall (s : State) (d : Nat) (r : StallReq) : r ∈ (getD (requestStall s d r) d).reqs := by
  unfold requestStall
  dsimp only
  split
  next h => exact List.contains_iff_mem.mp h
  next =>
    rw [getD_setD_same]
    exact List.mem_append_right _ (List.mem_singleton.mpr rfl)

/-! ### Increments (R134) -/

theorem setTok_eq (s : State) (u t v : Nat) :
    setTok s u t v = { s with elands := (setTok s u t v).elands, chams := (setTok s u t v).chams } := by
  unfold setTok
  split <;> rfl

theorem addTok_of_none_taken {s : State} (h : s.tokSubs = []) (u t n : Nat) :
    addTok s u t n = setTok s u t (min (getTok s u t + n) 0xFFFF) := by
  simp only [addTok, h, List.find?_nil]

/-- The state once an increment has passed the root node or gone round it. -/
def incrPassed (s : State) (src p : Nat) (rest : List Incr) : State :=
  if throughRoot src p then incP { s with incrs := rest } (pk 0x0930 3) 2 else { s with incrs := rest }

theorem incrPassed_eq (s : State) (src p : Nat) (rest : List Incr) :
    incrPassed s src p rest = { s with incrs := rest, par := (incrPassed s src p rest).par } := by
  unfold incrPassed
  split <;> rfl

theorem getP_incrPassed (s : State) (src p : Nat) (rest : List Incr) {k : Nat} (hk : k ∉ [pk 0x0930 3]) :
    getP (incrPassed s src p rest) k = getP s k := by
  have hk' := List.ne_of_not_mem_cons hk
  unfold incrPassed
  split
  · exact getP_incP_other _ _ (Ne.symm hk')
  · rfl

theorem exec_incr_ok {p k u : Nat} {s : State} {m : Incr} {rest : List Incr} (hu : unitAt p = some u)
    (htake : takeFirst (fun m : Incr => m.pos == p && m.tok == k &&
      (s.incrs.find? fun y => y.src == m.src && y.pos == p) == some m) s.incrs = some (m, rest)) :
    exec (.incr p k) s = .next (if coreKept s u then incrPassed s m.src p rest
      else addTok (incrPassed s m.src p rest) u k m.amt) := by
  have hkept : coreKept (incrPassed s m.src p rest) u = coreKept s u := by rw [incrPassed_eq]; rfl
  have harm : exec (.incr p k) s = execIncr p k s := rfl
  simp only [harm, execIncr, hu, htake]
  exact congrArg (fun b : Bool => Host.Outcome.next
    (if b then incrPassed s m.src p rest else addTok (incrPassed s m.src p rest) u k m.amt)) hkept

theorem incr_arrives {p k u : Nat} {s : State} {m : Incr} {rest : List Incr} (hu : unitAt p = some u)
    (htake : takeFirst (fun m : Incr => m.pos == p && m.tok == k &&
      (s.incrs.find? fun y => y.src == m.src && y.pos == p) == some m) s.incrs = some (m, rest)) (hsubs : s.tokSubs = []) :
    ∃ t, exec (.incr p k) s = .next t ∧ SameMemory s t ∧ SameParamsBut [pk 0x0930 3] s t ∧ t.doms = s.doms ∧ t.incrs = rest ∧
      getTok t u k = (if coreKept s u then getTok s u k else min (getTok s u k + m.amt) 0xFFFF) := by
  have htok : getTok (incrPassed s m.src p rest) u k = getTok s u k := by rw [incrPassed_eq]; rfl
  refine ⟨_, exec_incr_ok hu htake, ?_⟩
  cases coreKept s u with
  | true =>
    refine ⟨?_, fun j hj => getP_incrPassed s m.src p rest hj, ?_, ?_, htok⟩
    · rw [if_pos rfl, incrPassed_eq]
      exact sameMemory_of_eq rfl
    · rw [if_pos rfl, incrPassed_eq]
    · rw [if_pos rfl, incrPassed_eq]
  | false =>
    rw [if_neg Bool.false_ne_true, if_neg Bool.false_ne_true,
      addTok_of_none_taken (s := incrPassed s m.src p rest) (by rw [incrPassed_eq]; exact hsubs), htok]
    refine ⟨?_, fun j hj => ?_, ?_, ?_, getTok_setTok_same ..⟩
    · rw [setTok_eq, incrPassed_eq]
      exact sameMemory_of_eq rfl
    · rw [setTok_eq]
      exact getP_incrPassed s m.src p rest hj
    · rw [setTok_eq, incrPassed_eq]
    · rw [setTok_eq, incrPassed_eq]

/-! ### Stall requests, freezes and resumes (R208) -/

theorem sameParamsBut_incP (s : State) (key n : Nat) : SameParamsBut [key] s (incP s key n) := fun _ hk =>
  getP_incP_other s n (Ne.symm (List.ne_of_not_mem_cons hk))

theorem stall_request_arrives {d : Nat} {s : State} {r : StallReq} {rest : List StallReq} (hd : d < 8)
    (htake : takeFirst (fun r : StallReq => !r.seen) (getD s d).reqs = some (r, rest)) :
    ∃ t, exec (.stallReq d) s = .next t ∧ SameMemory s t ∧ SameParamsBut [pk 0x0930 3] s t ∧
      (getD t d).reqs = rest ++ [{ r with seen := true }] ∧
      ((getD s d).stalled = false →
        (getD t d).freezeAt = some (max (min r.slot ((getD s d).freezeAt.getD r.slot)) (getD s d).dcc)) ∧
      ((getD s d).stalled = true → (getD t d).freezeAt = (getD s d).freezeAt) ∧ (∀ e, e ≠ d → getD t e = getD s e) := by
  have harm : exec (.stallReq d) s = execStallReq d s := rfl
  rw [harm]
  simp only [execStallReq, if_neg (Nat.not_le.mpr hd), htake]
  refine ⟨_, rfl, sameMemory_of_eq rfl, sameParamsBut_incP s _ 2, ?_, fun hlive => ?_, fun hstall => ?_, fun e he => ?_⟩
  · rw [getD_setD_same]
  · rw [getD_setD_same, getD_incP]
    simp only [hlive, Bool.false_eq_true, if_false]
    cases (getD s d).freezeAt with
    | none => rw [Option.getD_none, Nat.min_self]
    | some f => rw [Option.getD_some, Nat.min_comm]
  · rw [getD_setD_same, getD_incP]
    simp only [hstall, if_true]
  · rw [getD_setD_other _ _ (Ne.symm he), getD_incP]

theorem exec_freeze_of_freeze {d f : Nat} {s : State} (hd : d < 8) (hf : (getD s d).freezeAt = some f) :
    exec (.freeze d) s = .next (incP (if (getD s d).stalled then s else advance (ticksTo s d f) s) (pk 0x0930 3) 2) := by
  have harm : exec (.freeze d) s = execFreeze d s := rfl
  rw [harm]
  simp only [execFreeze, if_neg (Nat.not_le.mpr hd), hf]

theorem domain_reaches_freeze {d f : Nat} {s : State} (hd : d < 8) (hf : (getD s d).freezeAt = some f)
    (hlive : (getD s d).stalled = false) (hruns : (getD s d).st.runs = true) (hstarted : (getD s d).started = true)
    (hresume : (getD s d).resumeAt = none) (hclk : s.clk.runs = true) (hquiet : quiet s = true) (hle : (getD s d).dcc ≤ f) :
    ∃ t, exec (.freeze d) s = .next t ∧ (getD t d).dcc = f ∧ t.ctc = s.ctc + (f - (getD s d).dcc) ∧
      issuing (getD t d) = false ∧ (f < (getD s d).dcc + 1 ∨ (getD t d).stalled = false) := by
  have hticks : ticksTo s d f = f - (getD s d).dcc := by simp only [ticksTo, hstarted, if_true]
  refine ⟨_, exec_freeze_of_freeze hd hf, ?_⟩
  rw [hlive, if_neg Bool.false_ne_true, hticks, getD_incP, incP_ctc]
  obtain heq | hlt := Nat.eq_or_lt_of_le hle
  · have hzero : f - (getD s d).dcc = 0 := by omega
    rw [hzero, advance_zero s hclk]
    refine ⟨heq, ?_, by simp [issuing, hf, heq], .inl (by omega)⟩
    rfl
  · have hpos : 0 < f - (getD s d).dcc := by omega
    rw [getD_advance_of_quiet hclk hquiet hpos, ctc_advance_of_quiet hclk hquiet hpos, tickDomain_started hruns hstarted]
    simp only [runTicks, hresume]
    obtain ⟨hdcc, hstall, hfreeze⟩ := countTicks_to_freeze hlive hf hle (ticksNs s (f - (getD s d).dcc))
    exact ⟨hdcc, trivial, by simp [issuing, hfreeze, hdcc], .inr hstall⟩

theorem exec_resume_of_announced {d r : Nat} {s : State} (hd : d < 8) (hr : (getD s d).resumeAt = some r) :
    exec (.resume d) s = .next (incP (toCtc r s) (pk 0x0930 3) 2) := by
  have harm : exec (.resume d) s = execResume d s := rfl
  rw [harm]
  simp only [execResume, if_neg (Nat.not_le.mpr hd), hr]

theorem domain_goes_on {d r : Nat} {s : State} (hd : d < 8) (hr : (getD s d).resumeAt = some r) (hlt : s.ctc < r)
    (hruns : (getD s d).st.runs = true) (hstarted : (getD s d).started = true) (hstall : (getD s d).stalled = true)
    (hclk : s.clk.runs = true) (hquiet : quiet s = true) :
    ∃ t, exec (.resume d) s = .next t ∧ t.ctc = r ∧ (getD t d).stalled = false ∧ (getD t d).resumeAt = none ∧
      (getD t d).dcc = (getD s d).dcc ∧ (getD t d).stallTicks = (getD s d).stallTicks + (r - s.ctc) ∧
      ((getD s d).reqs = [] → (getD t d).freezeAt = none) ∧
      (∀ q ∈ (getD s d).reqs, q.seen = true → ∃ f, (getD t d).freezeAt = some f) := by
  have hpos : 0 < r - s.ctc := by omega
  refine ⟨_, exec_resume_of_announced hd hr, ?_⟩
  rw [getD_incP, incP_ctc, toCtc, getD_advance_of_quiet hclk hquiet hpos, ctc_advance_of_quiet hclk hquiet hpos,
    tickDomain_started hruns hstarted]
  obtain ⟨hlive, hresume, hdcc, hticks, z, hreqs, hfreeze⟩ := runTicks_to_resume hstall hr hlt (ticksNs s (r - s.ctc))
  refine ⟨by omega, hlive, hresume, hdcc, hticks, fun hnone => ?_, fun q hq hseen => ?_⟩
  · rw [hfreeze, nextFreeze_of_no_request (hreqs.trans hnone)]
  · obtain ⟨f, hf⟩ := nextFreeze_of_seen (x := z) (by rwa [hreqs]) hseen
    exact ⟨f, hfreeze.trans hf⟩

theorem exec_resumeOk_of_met {d u : Nat} {s s1 : State} (hd : d < 8)
    (hmine : (getD s d).reqs.filter (fun r => r.unit == u && dueReq (getD s d) r) ≠ [])
    (hmet : meetAll s d ((getD s d).reqs.filter (fun r => r.unit == u && dueReq (getD s d) r)) = (s1, [])) :
    exec (.resumeOk d u) s = .next (announceResume (incP (setD s1 d { getD s d with
      reqs := (getD s d).reqs.filter (fun r => !(r.unit == u && dueReq (getD s d) r)),
      resumeOk := u :: (getD s d).resumeOk }) (pk 0x0930 3) 1) d) := by
  have hany : ((getD s d).reqs.any fun r => r.unit == u && dueReq (getD s d) r) = true := by
    obtain ⟨r, hr⟩ := List.exists_mem_of_ne_nil _ hmine
    obtain ⟨hmem, hp⟩ := List.mem_filter.mp hr
    exact List.any_eq_true.mpr ⟨r, hmem, hp⟩
  have harm : exec (.resumeOk d u) s = execResumeOk d u s := rfl
  rw [harm]
  simp only [execResumeOk, if_neg (Nat.not_le.mpr hd), hany, hmet, Bool.not_true, Bool.false_eq_true, if_false]

theorem stalled_domain_resumes {d : Nat} {s : State} (hnone : ∀ r ∈ (getD s d).reqs, dueReq (getD s d) r = false)
    (hstall : (getD s d).stalled = true) (hfreeze : (getD s d).freezeAt ≠ none) :
    ∃ r, (getD (announceResume s d) d).resumeAt = some r ∧ s.ctc + 64 ≤ r ∧ r < s.ctc + 72 ∧
      (phased s d = true → r % 8 = (getD s d).stallCtc % 8) ∧ (phased s d = false → r = s.ctc + 64) ∧
      SameMemory s (announceResume s d) ∧ (announceResume s d).par = s.par := by
  obtain ⟨f, hf⟩ := Option.ne_none_iff_exists'.mp hfreeze
  have hany : (getD s d).reqs.any (dueReq (getD s d)) = false :=
    List.any_eq_false.mpr fun r hr => by rw [hnone r hr]; exact Bool.false_ne_true
  obtain ⟨hlo, hhi, hphase, hfree⟩ := inPhase_bounds (phased s d) (s.ctc + 64) (getD s d).stallCtc
  obtain ⟨hframe, -⟩ := onlyAnnounced_announceResume s d
  refine ⟨inPhase (phased s d) (s.ctc + 64) (getD s d).stallCtc, ?_, hlo, by omega, hphase, hfree, ?_, ?_⟩
  · rw [announceResume_of_met hany hf, getD_setD_same]
    simp only [announced, stallBegins, hstall, Bool.not_true, Bool.false_and, Bool.false_eq_true, if_false, if_true]
  · rw [hframe]
    exact sameMemory_of_eq rfl
  · rw [hframe]

/-! ### Reports and choices of picks (R123, R124) -/

theorem reporting_congr {s t : State} {d : Nat} (helands : t.elands = s.elands) (hcores : (getD t d).cores = (getD s d).cores) :
    reporting t d = reporting s d := by
  simp only [reporting, getE, helands, hcores]

/-- The root with a pick's reports. -/
def pickReports (u : State) (d : Nat) (reps : List PickRep) : State :=
  incP (setD u d { getD u d with reports := reps }) (pk 0x0930 3) 1

theorem getD_pickReports (u : State) (d : Nat) (reps : List PickRep) :
    getD (pickReports u d reps) d = { getD u d with reports := reps } := by
  rw [pickReports, getD_incP, getD_setD_same]

/-- What the root makes of the reports: a choice, or a stall for the pick. -/
def pickDecided (v : State) (d slot : Nat) (all : Bool) (reps : List PickRep) (q : StallReq) : State :=
  if all && reps.all (·.fore) then setD v d { getD v d with choice := some .fore }
  else if all && reps.all (·.back) then setD v d { getD v d with choice := some .back }
  else if (getD v d).reqs.any fun r => r.cond == .pick && r.slot == slot then v else requestStall v d q

/-- The report of a core in place of an earlier one. -/
def withReport (u : State) (d c : Nat) : List PickRep :=
  (getD u d).reports.filter (fun r => decide (r.core ≠ c)) ++
    [⟨c, (getD u d).nth + 1, needleReady u c .fore, needleReady u c .back⟩]

/-- The stall for a pick, in the name of the first core that has reported. -/
def pickRequest (v : State) (d c slot : Nat) (reps : List PickRep) : StallReq :=
  let first := (reps.head?.map (·.core)).getD c
  let place := pickPlace (getE v first)
  { slot := slot, unit := first, needle := place.1.code,
    offset := imageOffset (getD v d) place.1.code (posOf first) (16 * place.2), cond := .pick }

theorem exec_pickReport_ok {d c slot : Nat} {s u : State} (hd : d < 8) (hc : c < 36) (hslot : pickSlot s c = some slot)
    (hpart : (reporting s d).contains c = true) (hchoice : (getD s d).choice = none)
    (hu : (if horizonMet s d slot then some s else toHorizon s d slot) = some u) :
    let reps := withReport u d c
    let v := pickReports u d reps
    exec (.pickReport d c) s = .next (pickDecided v d slot
        ((reporting u d).all fun k => reps.any fun r => r.core == k) reps (pickRequest v d c slot reps)) := by
  intro reps v
  have hguard : (decide (8 ≤ d) || decide (36 ≤ c)) = false := by simp [hd, hc]
  have hreporting : reporting v d = reporting u d := reporting_congr rfl (by rw [getD_pickReports])
  have harm : exec (.pickReport d c) s = execPickReport d c s := rfl
  rw [harm, ← hreporting]
  simp only [execPickReport, hguard, hslot, hpart, hchoice, hu, Option.isSome_none, Bool.not_true, Bool.or_self,
    Bool.false_eq_true, if_false, pickDecided, apply_ite Host.Outcome.next]
  rfl

/-- Only a domain. -/
def OnlyDomains (s u : State) : Prop := u = { s with doms := u.doms }

theorem onlyDomains_requestStall (s : State) (d : Nat) (r : StallReq) : OnlyDomains s (requestStall s d r) := by
  unfold requestStall
  dsimp only
  split <;> rfl

theorem onlyDomains_pickDecided (v : State) (d slot : Nat) (all : Bool) (reps : List PickRep) (q : StallReq) :
    OnlyDomains v (pickDecided v d slot all reps q) := by
  unfold pickDecided
  repeat' split
  · rfl
  · rfl
  · rfl
  · exact onlyDomains_requestStall v d q

theorem reports_requestStall (s : State) (d : Nat) (r : StallReq) :
    (getD (requestStall s d r) d).reports = (getD s d).reports ∧ (getD (requestStall s d r) d).choice = (getD s d).choice := by
  unfold requestStall
  dsimp only
  split
  · exact ⟨rfl, rfl⟩
  · rw [getD_setD_same]
    exact ⟨rfl, rfl⟩

theorem reports_pickDecided (v : State) (d slot : Nat) (all : Bool) (reps : List PickRep) (q : StallReq) :
    (getD (pickDecided v d slot all reps q) d).reports = (getD v d).reports := by
  unfold pickDecided
  repeat' split
  · rw [getD_setD_same]
  · rw [getD_setD_same]
  · rfl
  · exact (reports_requestStall v d q).1

/-- With every report in and the fore-needle ready everywhere, the root chooses it. -/
theorem pickDecided_fore {v : State} {d slot : Nat} {reps : List PickRep} {q : StallReq} (hfore : ∀ r ∈ reps, r.fore = true) :
    pickDecided v d slot true reps q = setD v d { getD v d with choice := some .fore } := by
  rw [pickDecided, List.all_eq_true.mpr hfore, Bool.and_self, if_pos rfl]

/-- Else it chooses the back-needle where that is ready everywhere. -/
theorem pickDecided_back {v : State} {d slot : Nat} {reps : List PickRep} {q : StallReq} (hfore : ∃ r ∈ reps, r.fore = false)
    (hback : ∀ r ∈ reps, r.back = true) :
    pickDecided v d slot true reps q = setD v d { getD v d with choice := some .back } := by
  have hnot : reps.all (·.fore) = false := by simpa using hfore
  rw [pickDecided, hnot, Bool.and_false, if_neg Bool.false_ne_true, List.all_eq_true.mpr hback, Bool.and_self, if_pos rfl]

/-- Else the domain stalls for the pick. -/
theorem pickDecided_open {v : State} {d slot : Nat} {all : Bool} {reps : List PickRep} {q : StallReq}
    (h : all = false ∨ (∃ r ∈ reps, r.fore = false) ∧ ∃ r ∈ reps, r.back = false) :
    pickDecided v d slot all reps q =
      if (getD v d).reqs.any fun r => r.cond == .pick && r.slot == slot then v else requestStall v d q := by
  have hnot : (all && reps.all (·.fore)) = false ∧ (all && reps.all (·.back)) = false := by
    obtain rfl | ⟨hfore, hback⟩ := h
    · exact ⟨rfl, rfl⟩
    · exact ⟨Bool.and_eq_false_iff.mpr (.inr (by simpa using hfore)), Bool.and_eq_false_iff.mpr (.inr (by simpa using hback))⟩
  rw [pickDecided, hnot.1, hnot.2, if_neg Bool.false_ne_true, if_neg Bool.false_ne_true]

theorem stalls_for_pick {v : State} {d slot : Nat} {q : StallReq} (hq : q.slot = slot ∧ q.cond = .pick) :
    let t := if (getD v d).reqs.any fun r => r.cond == .pick && r.slot == slot then v else requestStall v d q
    (getD t d).choice = (getD v d).choice ∧ ∃ q ∈ (getD t d).reqs, q.slot = slot ∧ q.cond = .pick := by
  intro t
  by_cases hany : ((getD v d).reqs.any fun r => r.cond == .pick && r.slot == slot) = true
  · have ht : t = v := if_pos hany
    obtain ⟨r, hr, hp⟩ := List.any_eq_true.mp hany
    obtain ⟨hcond, hslot⟩ := Bool.and_eq_true_iff.mp hp
    rw [ht]
    exact ⟨rfl, r, hr, by simpa using hslot, by simpa using hcond⟩
  · have ht : t = requestStall v d q := if_neg hany
    rw [ht]
    exact ⟨(reports_requestStall v d q).2, q, mem_reqs_requestStall v d q, hq⟩

theorem pick_report_arrives {d c slot : Nat} {s u : State} (hd : d < 8) (hc : c < 36) (hslot : pickSlot s c = some slot)
    (hpart : (reporting s d).contains c = true) (hchoice : (getD s d).choice = none)
    (hu : (if horizonMet s d slot then some s else toHorizon s d slot) = some u) (hopen : (getD u d).choice = none) :
    let reps := withReport u d c
    let all := (reporting u d).all fun k => reps.any fun r => r.core == k
    ∃ t, exec (.pickReport d c) s = .next t ∧ SameMemory u t ∧ t.elands = u.elands ∧ SameParamsBut [pk 0x0930 3] u t ∧
      (getD t d).reports = reps ∧
      (all = true → (∀ r ∈ reps, r.fore = true) → (getD t d).choice = some .fore ∧ (getD t d).reqs = (getD u d).reqs) ∧
      (all = true → (∃ r ∈ reps, r.fore = false) → (∀ r ∈ reps, r.back = true) →
        (getD t d).choice = some .back ∧ (getD t d).reqs = (getD u d).reqs) ∧
      (all = false ∨ ((∃ r ∈ reps, r.fore = false) ∧ (∃ r ∈ reps, r.back = false)) →
        (getD t d).choice = none ∧ ∃ q ∈ (getD t d).reqs, q.slot = slot ∧ q.cond = .pick) := by
  intro reps all
  have hv : getD (pickReports u d reps) d = { getD u d with reports := reps } := getD_pickReports u d reps
  have hexec : exec (.pickReport d c) s = .next (pickDecided (pickReports u d reps) d slot all reps
      (pickRequest (pickReports u d reps) d c slot reps)) := exec_pickReport_ok hd hc hslot hpart hchoice hu
  refine ⟨_, hexec, ?_, ?_, ?_, ?_, fun hall hfore => ?_, fun hall hfore hback => ?_, fun h => ?_⟩
  · rw [onlyDomains_pickDecided (pickReports u d reps)]
    exact sameMemory_of_eq rfl
  · rw [onlyDomains_pickDecided (pickReports u d reps)]
    rfl
  · rw [onlyDomains_pickDecided (pickReports u d reps)]
    exact sameParamsBut_incP u _ 1
  · rw [reports_pickDecided, hv]
  · rw [hall, pickDecided_fore hfore, getD_setD_same, hv]
    exact ⟨rfl, rfl⟩
  · rw [hall, pickDecided_back hfore hback, getD_setD_same, hv]
    exact ⟨rfl, rfl⟩
  · obtain ⟨hkept, hstall⟩ := stalls_for_pick (v := pickReports u d reps) (d := d)
      (q := pickRequest (pickReports u d reps) d c slot reps) ⟨rfl, rfl⟩
    rw [pickDecided_open h]
    exact ⟨hkept.trans (by rw [hv]; exact hopen), hstall⟩

/-! ### The choice reaches the cores -/

/-- The domain once its choice is on its way to every core. -/
def choiceTaken (s : State) (d : Nat) : State :=
  setD s d { getD s d with choice := none, reports := [], nth := (getD s d).nth + 1,
                           reqs := (getD s d).reqs.filter fun r => r.cond ≠ .pick }

/-- The state in which every reporting core has learned of the choice. -/
def choiceTold (s : State) (d : Nat) (n : Needle) : State :=
  incP ((reporting s d).foldl (fun s c => choose s c n) (choiceTaken s d)) (pk 0x0930 3) 1

theorem choiceTold_eq (s : State) (d : Nat) (n : Needle) : choiceTold s d n =
    { s with doms := (choiceTaken s d).doms, elands := (choiceTold s d n).elands, par := (choiceTold s d n).par } := by
  rw [choiceTold, foldl_choose_eq]
  rfl

theorem exec_pickChoice_ok {d : Nat} {n : Needle} {s : State} (hd : d < 8) (hn : (getD s d).choice = some n) :
    exec (.pickChoice d) s = .next (announceResume (choiceTold s d n) d) := by
  have harm : exec (.pickChoice d) s = execPickChoice d s := rfl
  rw [harm]
  simp only [execPickChoice, if_neg (Nat.not_le.mpr hd), hn]
  rfl

theorem getD_choiceTold (s : State) (d : Nat) (n : Needle) : getD (choiceTold s d n) d =
    { getD s d with choice := none, reports := [], nth := (getD s d).nth + 1,
                    reqs := (getD s d).reqs.filter fun r => r.cond ≠ .pick } := by
  rw [choiceTold_eq]
  exact getD_setD_same ..

theorem choice_arrives {d : Nat} {n : Needle} {s : State} (hd : d < 8) (hn : (getD s d).choice = some n) :
    ∃ t, exec (.pickChoice d) s = .next t ∧ SameMemory s t ∧ SameParamsBut [pk 0x0930 3] s t ∧
      (getD t d).choice = none ∧ (getD t d).reports = [] ∧ (getD t d).nth = (getD s d).nth + 1 ∧
      (∀ r ∈ (getD t d).reqs, r.cond ≠ .pick) ∧
      (∀ c slot, c ∈ reporting s d → (getE s c).pickDue = some slot →
        (getN (getE t c) n).st = .active ∧ (getN (getE t c) n).nextSlot = slot ∧ (getE t c).pickDue = none ∧
        (getN (getE t c) n).decFrom = some s.ctc) ∧
      (∀ c slot, c ∈ reporting s d → (getE s c).pickDue = none → pickSlot s c = some slot →
        (getE t c).answers = (getE s c).answers ++ [n] ∧ (getN (getE t c) n).decFrom = some s.ctc) ∧
      ((∀ r ∈ (getD s d).reqs, r.cond = .pick) → ∀ c, c ∉ reporting s d → getE t c = getE s c) := by
  obtain ⟨hframe, hcores, hchoice, hreports, hnth, hreqs⟩ := onlyAnnounced_announceResume (choiceTold s d n) d
  have hD := getD_choiceTold s d n
  have hneedle : ∀ e a b, (getN (withDecoded e a b) n).st = (getN e n).st ∧ (getN (withDecoded e a b) n).nextSlot =
      (getN e n).nextSlot ∧ (getN (withDecoded e a b) n).decFrom = (getN e n).decFrom := fun e a b => by
    cases n <;> exact ⟨rfl, rfl, rfl⟩
  have hone (P : Eland → Prop) (c : Nat) (hc : c ∈ reporting s d)
      (hcore : ∀ t, getE t c = getE s c → t.ctc = s.ctc → P (getE (choose t c n) c)) : P (getE (choiceTold s d n) c) :=
    foldl_choose n (fun t => P (getE t c)) hcore (fun t k hk h => by rwa [getE_choose_other t n (Ne.symm hk)]) _
      (reporting_nodup s d) hc (choiceTaken s d) rfl rfl
  refine ⟨_, exec_pickChoice_ok hd hn, ?_, ?_, ?_, ?_, ?_, fun r hr => ?_, fun c slot hc hdue => ?_, fun c slot hc hdue hslot => ?_,
    fun hpicks c hc => ?_⟩
  · rw [hframe, choiceTold_eq]
    exact sameMemory_of_eq rfl
  · rw [hframe, choiceTold, foldl_choose_eq]
    exact sameParamsBut_incP s _ 1
  · rw [hchoice, hD]
  · rw [hreports, hD]
  · rw [hnth, hD]
  · have hmem := hreqs r hr
    rw [hD] at hmem
    simpa using (List.mem_filter.mp hmem).2
  · obtain ⟨a, b, hE⟩ := hcores c
    obtain ⟨hst, hnext, hpick, hdec⟩ := hone (fun e => (getN e n).st = .active ∧ (getN e n).nextSlot = slot ∧
      e.pickDue = none ∧ (getN e n).decFrom = some s.ctc) c hc fun t ht hctc => by
        rw [← hctc]
        exact choose_of_due n (by rw [ht]; exact hdue)
    obtain ⟨h1, h2, h3⟩ := hneedle (getE (choiceTold s d n) c) a b
    rw [hE]
    exact ⟨h1.trans hst, h2.trans hnext, hpick, h3.trans hdec⟩
  · obtain ⟨a, b, hE⟩ := hcores c
    obtain ⟨hans, hdec⟩ := hone (fun e => e.answers = (getE s c).answers ++ [n] ∧ (getN e n).decFrom = some s.ctc) c hc
      fun t ht hctc => by
        rw [← hctc, ← ht]
        exact choose_of_waiting n (by rw [ht]; exact hdue) (by rw [pickSlot_congr ht]; exact hslot)
    obtain ⟨-, -, h3⟩ := hneedle (getE (choiceTold s d n) c) a b
    rw [hE]
    exact ⟨hans, h3.trans hdec⟩
  · have hnone : (getD (choiceTold s d n) d).reqs = [] := by
      rw [hD]
      exact List.filter_eq_nil_iff.mpr fun r hr => by simp [hpicks r hr]
    rw [getE, elands_announceResume_of_no_request hnone]
    exact getE_foldl_choose_other n hc (choiceTaken s d)

/-- Settles O40: each message is walked by its own lemma above; ticks of a quiet machine bring a domain to its freeze or resume,
and a choice reaches every reporting core once. -/
theorem syncNetworkCompletes : Obligations.SyncNetworkCompletes := by
  unfold Obligations.SyncNetworkCompletes
  refine ⟨?incr, ?request, ?freeze, ?resumeOk, ?announce, ?resume, ?report, ?choice⟩
  case incr => exact fun p k u s m rest hu htake hsubs => incr_arrives hu htake hsubs
  case request => exact fun d s r rest hd htake => stall_request_arrives hd htake
  case freeze =>
    intro d f s hd hf
    refine ⟨fun hstall => ?_, fun hlive => ?_, fun hlive hruns hstarted hresume hclk hquiet hle =>
      domain_reaches_freeze hd hf hlive hruns hstarted hresume hclk hquiet hle⟩
    · rw [exec_freeze_of_freeze hd hf, if_pos hstall]
    · rw [exec_freeze_of_freeze hd hf, hlive, if_neg Bool.false_ne_true]
  case resumeOk => exact fun d u s s1 hd hmine hmet => exec_resumeOk_of_met hd hmine hmet
  case announce => exact fun d s => ⟨announceResume_of_open, stalled_domain_resumes⟩
  case resume =>
    exact fun d r s hd hr => ⟨exec_resume_of_announced hd hr, fun hlt hruns hstarted hstall hclk hquiet =>
      domain_goes_on hd hr hlt hruns hstarted hstall hclk hquiet⟩
  case report =>
    exact fun d c slot s u hd hc hslot hpart hchoice hu hopen => pick_report_arrives hd hc hslot hpart hchoice hu hopen
  case choice => exact fun d n s hd hn => choice_arrives hd hn

end Sys2Proof.Machine
end

