-- ==== Sys2Proof/Proofs/StackService.lean ====
section
/-!
SUPPORT. "Memory, Access paths": what an access to memory through the stacks can change, with the accesses that it brings to
their end, whatever it finds (R269, R287 to R293, R304, R343).
-/
namespace Sys2Proof.Machine

/-- From `s` to `u` nothing has changed but what checks of codewords change, the accumulator's cells, managed pages, packets,
and the stacks' queues, buckets and caches. -/
def OnlyServed (s u : State) : Prop :=
  u = { s with mem := u.mem, poison := u.poison, errs := u.errs, par := u.par, draws := u.draws, unacked := u.unacked
               logSeq := u.logSeq, doms := u.doms, cells := u.cells, snap := u.snap, packets := u.packets, hbmq := u.hbmq
               buckets := u.buckets, cache := u.cache, tlb := u.tlb }

theorem onlyServed_refl (s : State) : OnlyServed s s := rfl

theorem onlyServed_trans {s t u : State} (h : OnlyServed s t) (k : OnlyServed t u) : OnlyServed s u := by
  rw [OnlyServed] at h k ⊢
  rw [k, h]

theorem onlyServed_of_onlyChecked {s u : State} (h : OnlyChecked s u) : OnlyServed s u := by
  rw [OnlyServed, h]

theorem onlyServed_foldl {α : Type} (f : State → α → State) (hf : ∀ t x, OnlyServed t (f t x)) (l : List α) (s : State) :
    OnlyServed s (l.foldl f s) :=
  foldl_keeps (OnlyServed s) f (fun t x h => onlyServed_trans h (hf t x)) l s (onlyServed_refl s)

theorem onlyServed_ite {s a b : State} (p : Prop) [Decidable p] (ha : OnlyServed s a) (hb : OnlyServed s b) :
    OnlyServed s (if p then a else b) := by
  split <;> assumption

theorem onlyServed_incP (s : State) (key n : Nat) : OnlyServed s (incP s key n) := rfl

theorem onlyServed_sendPacket (s : State) (p : Packet) : OnlyServed s (sendPacket s p) := rfl

theorem onlyServed_touchCache (s : State) (pa : Nat) : OnlyServed s (touchCache s pa) := rfl

theorem onlyServed_checkSector (s : State) (pa : Nat) (d : Option Nat) : OnlyServed s (checkSector s pa d) :=
  onlyServed_of_onlyChecked (onlyChecked_checkSector s pa d)

theorem onlyServed_checkRange (s : State) (pa n : Nat) (d : Option Nat) : OnlyServed s (checkRange s pa n d) :=
  onlyServed_of_onlyChecked (onlyChecked_checkRange s pa n d)

theorem onlyServed_checkEdges (s : State) (pa n : Nat) (d : Option Nat) : OnlyServed s (checkEdges s pa n d) := by
  unfold checkEdges
  extract_lets t
  have ht : OnlyServed s t := onlyServed_ite _ (onlyServed_refl s) (onlyServed_checkSector ..)
  exact onlyServed_ite _ (onlyServed_refl s) (onlyServed_ite _ ht (onlyServed_trans ht (onlyServed_checkSector ..)))

/-! ### Writes that are accepted -/

/-- From `s` to `u` nothing has changed but memory, the accumulator's cells and managed pages. -/
def OnlyAccepted (s u : State) : Prop :=
  u = { s with mem := u.mem, poison := u.poison, errs := u.errs, cells := u.cells, snap := u.snap }

theorem onlyAccepted_refl (s : State) : OnlyAccepted s s := rfl

theorem onlyAccepted_trans {s t u : State} (h : OnlyAccepted s t) (k : OnlyAccepted t u) : OnlyAccepted s u := by
  rw [OnlyAccepted] at h k ⊢
  rw [k, h]

theorem onlyAccepted_ite {s a b : State} (p : Prop) [Decidable p] (ha : OnlyAccepted s a) (hb : OnlyAccepted s b) :
    OnlyAccepted s (if p then a else b) := by
  split <;> assumption

theorem onlyServed_of_onlyAccepted {s u : State} (h : OnlyAccepted s u) : OnlyServed s u := by
  rw [OnlyServed, h]

theorem onlyAccepted_foldl {α : Type} (f : State → α → State) (hf : ∀ t x, OnlyAccepted t (f t x)) (l : List α) (s : State) :
    OnlyAccepted s (l.foldl f s) :=
  foldl_keeps (OnlyAccepted s) f (fun t x h => onlyAccepted_trans h (hf t x)) l s (onlyAccepted_refl s)

theorem onlyAccepted_writeP (s : State) (pa : Nat) (bs : List (Byte × Bool)) : OnlyAccepted s (writeP s pa bs) := rfl

theorem onlyAccepted_writeAccWord (s : State) (pa e off : Nat) (bs : List (Byte × Bool)) :
    OnlyAccepted s (writeAccWord s pa e off bs) := by
  unfold writeAccWord
  extract_lets t _ _ _ ts k c
  have ht : OnlyAccepted s t := onlyAccepted_writeP s pa bs
  exact onlyAccepted_ite _ ht (onlyAccepted_ite _ (onlyAccepted_trans ht rfl) ht)

theorem onlyAccepted_writePhys (s : State) (pa : Nat) (bs : List (Byte × Bool)) : OnlyAccepted s (writePhys s pa bs) := by
  unfold writePhys
  split
  · exact onlyAccepted_foldl _ (fun t w => onlyAccepted_ite _ (onlyAccepted_refl t) (onlyAccepted_writeAccWord ..)) _ s
  · exact onlyAccepted_writeP s pa bs

theorem onlyAccepted_acceptWrite (s : State) (d va pa pte born : Nat) (bs : List (Byte × Bool)) (pkt : Option Packet) :
    OnlyAccepted s (acceptWrite s d va pa pte born bs pkt).2 := by
  unfold acceptWrite
  split
  · exact onlyAccepted_writePhys s pa bs
  · split
    · exact onlyAccepted_writePhys s pa bs
    next e r _ =>
      extract_lets page sd after _ hold t w k
      have hw : OnlyAccepted s w := onlyAccepted_trans (show OnlyAccepted s t from rfl) (onlyAccepted_writePhys t pa bs)
      have hheld : ∀ m, OnlyAccepted s (hold m).2 := fun _ => rfl
      split
      · exact hheld false
      · split
        · exact hheld true
        · rw [apply_ite Prod.snd]
          exact onlyAccepted_ite _ (onlyAccepted_trans hw rfl) hw

/-! ### The service of a queue -/

theorem onlyServed_narrowRead (s : State) (pa : Nat) (d : Option Nat) : OnlyServed s (narrowRead s pa d) := by
  unfold narrowRead
  extract_lets hit t
  have ht : OnlyServed s t := onlyServed_incP ..
  exact onlyServed_trans (onlyServed_ite _ (onlyServed_trans ht (onlyServed_incP ..)) (onlyServed_trans ht
    (onlyServed_checkSector ..))) (onlyServed_touchCache ..)

theorem onlyServed_serveReq (s : State) (st : Nat) (r : HbmReq) : OnlyServed s (serveReq s st r) := by
  unfold serveReq
  extract_lets t p dom bs v w rd data
  have ht : OnlyServed s t := rfl
  have hv : OnlyServed s v := onlyServed_trans ht (onlyServed_checkEdges ..)
  have hw : OnlyServed s w := onlyServed_ite _ (onlyServed_trans hv (onlyServed_incP ..)) hv
  have ha := onlyServed_trans hw (onlyServed_of_onlyAccepted (onlyAccepted_acceptWrite w p.dom p.va p.pa p.pte p.born bs (some p)))
  have hrd : OnlyServed s rd := onlyServed_ite _ (onlyServed_trans ht (onlyServed_narrowRead ..))
    (onlyServed_trans ht (onlyServed_checkRange ..))
  exact onlyServed_ite _ (onlyServed_ite _ (onlyServed_trans ha (onlyServed_sendPacket ..)) ha)
    (onlyServed_trans hrd (onlyServed_sendPacket ..))

theorem onlyServed_deduct (s : State) (st q c : Nat) : OnlyServed s (deduct s st q c) := rfl

theorem onlyServed_chargeNow (s : State) (st q c : Nat) : OnlyServed s (chargeNow s st q c) :=
  onlyServed_ite _ (onlyServed_deduct ..) (onlyServed_ite _ (onlyServed_incP ..)
    (onlyServed_trans (onlyServed_incP ..) (onlyServed_deduct ..)))

theorem onlyServed_serveWhile (st : Nat) (test : State → HbmReq → Bool) (n : Nat) (s : State) :
    OnlyServed s (serveWhile st test n s) := by
  induction n generalizing s with
  | zero => exact onlyServed_refl s
  | succ n ih =>
    rw [serveWhile]
    split
    · exact onlyServed_refl s
    · exact onlyServed_trans (onlyServed_trans (onlyServed_chargeNow ..) (onlyServed_serveReq ..)) (ih _)

theorem onlyServed_serveAhead (s : State) (pa n dead : Nat) : OnlyServed s (serveAhead s pa n dead) :=
  onlyServed_ite _ (onlyServed_refl s) (onlyServed_trans (onlyServed_serveWhile ..) (onlyServed_serveWhile ..))

theorem onlyServed_chargeRange (s : State) (q pa n : Nat) (d : Option Nat) (write : Bool) (born : Nat) :
    OnlyServed s (chargeRange s q pa n d write born) := by
  unfold chargeRange
  extract_lets t
  have ht : OnlyServed s t := onlyServed_ite _ (onlyServed_refl s) (onlyServed_foldl _ (fun u i =>
    onlyServed_trans (onlyServed_serveAhead ..) (onlyServed_chargeNow ..)) _ s)
  exact onlyServed_ite _ (onlyServed_refl s) (onlyServed_ite _ (onlyServed_trans ht (onlyServed_checkEdges ..))
    (onlyServed_trans ht (onlyServed_checkRange ..)))

/-! ### Translation -/

theorem onlyServed_chargeWalk (s : State) (q pa : Nat) : OnlyServed s (chargeWalk s q pa) :=
  onlyServed_ite _ (onlyServed_refl s) (onlyServed_trans (onlyServed_trans (onlyServed_serveAhead ..) (onlyServed_chargeNow ..))
    (onlyServed_narrowRead ..))

theorem onlyServed_lookupPte (s : State) (d va : Nat) : OnlyServed s (lookupPte s d va).2 := by
  unfold lookupPte
  split
  · exact onlyServed_refl s
  · extract_lets t u
    have ht : OnlyServed s t := onlyServed_trans (onlyServed_incP ..) (onlyServed_chargeWalk ..)
    have hu : OnlyServed s u := by
      unfold u
      split
      · exact onlyServed_trans ht (onlyServed_chargeWalk ..)
      · exact ht
    split
    · exact hu
    · exact onlyServed_ite _ (onlyServed_trans hu rfl) hu

theorem onlyServed_translate (s : State) (d va : Nat) (write : Bool) : OnlyServed s (translate s d va write).2 := by
  have h := onlyServed_lookupPte s d va
  unfold translate
  split
  · exact onlyServed_refl s
  · split
    next he => rwa [he] at h
    next he =>
      rw [he] at h
      dsimp only
      repeat' split
      all_goals exact h

theorem onlyServed_vread (d born fuel : Nat) : ∀ (s : State) (va n : Nat), OnlyServed s (vread s d va born n fuel).2.2 := by
  induction fuel with
  | zero => exact fun s _ _ => onlyServed_refl s
  | succ fuel ih =>
    intro s va n
    have h := onlyServed_translate s d va false
    rw [vread]
    split
    · exact onlyServed_refl s
    · split
      next he => rwa [he] at h
      next he => rwa [he] at h
      next he =>
        rw [he] at h
        exact onlyServed_trans (onlyServed_trans h (onlyServed_chargeRange ..)) (ih ..)

theorem onlyServed_vwrite (d born fuel : Nat) : ∀ (s : State) (va : Nat) (bs : List (Byte × Bool)),
    OnlyServed s (vwrite s d va born bs fuel).2 := by
  induction fuel with
  | zero => exact fun s _ _ => onlyServed_refl s
  | succ fuel ih =>
    intro s va bs
    have h := onlyServed_translate s d va true
    rw [vwrite]
    split
    · exact onlyServed_refl s
    · split
      next he => rwa [he] at h
      next he => rwa [he] at h
      next he =>
        rw [he] at h
        exact onlyServed_trans (onlyServed_trans (onlyServed_trans h (onlyServed_chargeRange ..)) (onlyServed_of_onlyAccepted
          (onlyAccepted_acceptWrite ..)))
          (ih ..)

end Sys2Proof.Machine
end

