-- ==== Sys2Proof/Proofs/DomainEnds.lean ====
section
/-!
SUPPORT. How a domain ends: what a stop, an abort, a release and DONE leave of the machine (R97, R108, R217, R224, R336).
-/
namespace Sys2Proof.Machine

/-! ### Collectives of the domain -/

/-- Only collectives, what is sent, and parameters. -/
def OnlyColl (s u : State) : Prop := u = { s with herd := u.herd, par := u.par, outbox := u.outbox }

theorem onlyColl_refl (s : State) : OnlyColl s s := rfl

theorem onlyColl_trans {s t u : State} (h : OnlyColl s t) (k : OnlyColl t u) : OnlyColl s u := by
  rw [OnlyColl] at h k ⊢
  rw [k, h]

theorem onlyColl_ite {s a b : State} (p : Prop) [Decidable p] (ha : OnlyColl s a) (hb : OnlyColl s b) :
    OnlyColl s (if p then a else b) := by
  split <;> assumption

theorem onlyColl_incP (s : State) (key n : Nat) : OnlyColl s (incP s key n) := rfl

theorem onlyColl_setColl (s : State) (c : Nat) (v : Coll) : OnlyColl s (setColl s c v) := rfl

theorem onlyColl_takePn {s t : State} (h : takePn s = some t) : OnlyColl s t := by
  unfold takePn at h
  split at h
  · obtain rfl := Option.some.inj h
    rfl
  · dsimp only at h
    split at h
    · exact absurd h nofun
    · obtain rfl := Option.some.inj h
      exact onlyColl_ite _ rfl rfl

theorem onlyColl_emit (s : State) (port : Nat) (o : Out) : OnlyColl s (emit s port o) := by
  unfold emit
  extract_lets go
  have hgo (t : State) : OnlyColl t (go t) := rfl
  refine onlyColl_ite _ (onlyColl_incP ..) (onlyColl_ite _ ?_ (hgo s))
  split
  next ht => exact onlyColl_trans (onlyColl_takePn ht) (hgo _)
  next => exact onlyColl_incP ..

theorem onlyColl_sendPfc (s : State) (port prio quanta : Nat) : OnlyColl s (sendPfc s port prio quanta) :=
  onlyColl_trans (onlyColl_ite _ (onlyColl_incP ..) (onlyColl_refl s)) (onlyColl_emit ..)

theorem onlyColl_foldl {α : Type} (f : State → α → State) (hf : ∀ t x, OnlyColl t (f t x)) (l : List α) (s : State) :
    OnlyColl s (l.foldl f s) :=
  foldl_keeps (OnlyColl s) f (fun t x h => onlyColl_trans h (hf t x)) l s (onlyColl_refl s)

theorem onlyColl_releasePauses (s : State) (c : Nat) : OnlyColl s (releasePauses s c) :=
  onlyColl_trans (onlyColl_setColl s c _) (onlyColl_foldl _ (fun t (q : Nat × Nat) => onlyColl_sendPfc t q.1 q.2 0) _ _)

theorem onlyColl_abandonColl (s : State) (c : Nat) : OnlyColl s (abandonColl s c) :=
  onlyColl_trans (onlyColl_releasePauses s c) (onlyColl_setColl ..)

/-! ### The snapshot of the domain -/

/-- Only snapshots, flows, memory as held writes are stored, and packets. -/
def OnlySnap (s u : State) : Prop :=
  u = { s with snap := u.snap, ports := u.ports, packets := u.packets, mem := u.mem, poison := u.poison, errs := u.errs
               cells := u.cells }

theorem onlySnap_refl (s : State) : OnlySnap s s := rfl

theorem onlySnap_trans {s t u : State} (h : OnlySnap s t) (k : OnlySnap t u) : OnlySnap s u := by
  rw [OnlySnap] at h k ⊢
  rw [k, h]

theorem onlySnap_ite {s a b : State} (p : Prop) [Decidable p] (ha : OnlySnap s a) (hb : OnlySnap s b) :
    OnlySnap s (if p then a else b) := by
  split <;> assumption

theorem onlySnap_foldl {α : Type} (f : State → α → State) (hf : ∀ t x, OnlySnap t (f t x)) (l : List α) (s : State) :
    OnlySnap s (l.foldl f s) :=
  foldl_keeps (OnlySnap s) f (fun t x h => onlySnap_trans h (hf t x)) l s (onlySnap_refl s)

theorem onlySnap_of_onlyAccepted {s u : State} (h : OnlyAccepted s u) : OnlySnap s u := by
  rw [OnlySnap, h]

theorem onlySnap_ackWrite (s : State) (pkt : Option Packet) : OnlySnap s (ackWrite s pkt) := by
  cases pkt <;> rfl

theorem onlySnap_releaseHeld (s : State) (which : HeldWrite → Bool) (born : Nat) : OnlySnap s (releaseHeld s which born) := by
  unfold releaseHeld
  extract_lets go _ u
  refine onlySnap_trans (show OnlySnap s u from rfl) (onlySnap_foldl _ (fun t h => ?_) go u)
  have ha := onlySnap_of_onlyAccepted (onlyAccepted_acceptWrite t h.dom h.va h.pa 0x19 born h.data h.pkt)
  exact onlySnap_ite _ (onlySnap_trans ha (onlySnap_ackWrite ..)) ha

theorem onlySnap_endSnap (s : State) (d : Nat) : OnlySnap s (endSnap s d) := by
  unfold endSnap
  extract_lets x drop _ t pkts u v
  have hu : OnlySnap s u := rfl
  exact onlySnap_trans (onlySnap_trans hu (onlySnap_foldl _ onlySnap_ackWrite pkts u)) (onlySnap_releaseHeld ..)

/-- A snapshot that is abandoned changes the domain's snapshot state as its one parameter (R353). -/
theorem abandonSnap_cases (s : State) (d : Nat) :
    OnlySnap s (abandonSnap s d) ∨ ∃ t, OnlySnap s t ∧ abandonSnap s d = setP t (snapKey d 7) 5 := by
  unfold abandonSnap
  dsimp only
  split
  · exact .inl (onlySnap_refl s)
  · split
    · exact .inl (onlySnap_endSnap s d)
    · exact .inr ⟨_, onlySnap_endSnap s d, rfl⟩

theorem abandonSnap_doms (s : State) (d : Nat) : (abandonSnap s d).doms = s.doms := by
  obtain h | ⟨t, ht, h⟩ := abandonSnap_cases s d
  · rw [h]
  · rw [h, setP_doms, ht]

/-! ### Halt slots that come free -/

/-- Only halts, who waits for one, parameters and domains. -/
def OnlyHalts (s u : State) : Prop :=
  u = { s with halts := u.halts, haltSeq := u.haltSeq, haltWait := u.haltWait, streams := u.streams, xfers := u.xfers
               dmas := u.dmas, par := u.par, doms := u.doms }

theorem onlyHalts_refl (s : State) : OnlyHalts s s := rfl

theorem onlyHalts_trans {s t u : State} (h : OnlyHalts s t) (k : OnlyHalts t u) : OnlyHalts s u := by
  rw [OnlyHalts] at h k ⊢
  rw [k, h]

theorem onlyHalts_ite {s a b : State} (p : Prop) [Decidable p] (ha : OnlyHalts s a) (hb : OnlyHalts s b) :
    OnlyHalts s (if p then a else b) := by
  split <;> assumption

theorem onlyHalts_placeHalt (s : State) (i : Nat) (h : Halt) : OnlyHalts s (placeHalt s i h) := by
  unfold placeHalt
  exact onlyHalts_ite _ rfl rfl

theorem onlyHalts_holdSlot (s : State) (i : Nat) (who : Requester) : OnlyHalts s (holdSlot s i who) := by
  cases who <;> rfl

theorem onlyHalts_grantTo (l : List Halt) (s : State) : OnlyHalts s (grantTo l s) := by
  induction l generalizing s with
  | nil => rfl
  | cons h l ih =>
    rw [grantTo]
    split
    · exact ih s
    · split
      · rfl
      · exact onlyHalts_trans (onlyHalts_trans (onlyHalts_placeHalt ..) (onlyHalts_holdSlot ..)) (ih _)

theorem onlyHalts_grantHalts (s : State) : OnlyHalts s (grantHalts s) := onlyHalts_grantTo ..

/-- A domain that does not run has no halt that is placed for it. -/
theorem getD_placeHalt (s : State) (i : Nat) (h : Halt) {d : Nat} (hd : (getD s d).st ≠ .running) :
    getD (placeHalt s i h) d = getD s d := by
  unfold placeHalt
  extract_lets h' t u dd
  split
  next hrun =>
    by_cases he : h.dom = d
    · exact absurd (beq_iff_eq.mp hrun) (by rw [← he] at hd; exact hd)
    · exact getD_setD_other _ _ he
  next => rfl

theorem getD_holdSlot (s : State) (i : Nat) (who : Requester) (d : Nat) : getD (holdSlot s i who) d = getD s d := by
  cases who <;> rfl

theorem getD_grantTo (l : List Halt) (s : State) {d : Nat} (hd : (getD s d).st ≠ .running) : getD (grantTo l s) d = getD s d := by
  induction l generalizing s with
  | nil => rfl
  | cons h l ih =>
    rw [grantTo]
    split
    · exact ih s hd
    · split
      · rfl
      next i _ =>
        have hp : getD (holdSlot (placeHalt s i h) i h.who) d = getD s d :=
          (getD_holdSlot ..).trans (getD_placeHalt s i h hd)
        exact (ih _ (by rwa [hp])).trans hp

theorem getD_grantHalts (s : State) {d : Nat} (hd : (getD s d).st ≠ .running) : getD (grantHalts s) d = getD s d :=
  getD_grantTo _ s hd

/-! ### The units of the domain -/

/-- Only engines with their elements. -/
def OnlyEngineParts (s u : State) : Prop :=
  u = { s with mem := u.mem, poison := u.poison, cells := u.cells, tiles := u.tiles, engines := u.engines }

theorem onlyEngineParts_refl (s : State) : OnlyEngineParts s s := rfl

theorem onlyEngineParts_trans {s t u : State} (h : OnlyEngineParts s t) (k : OnlyEngineParts t u) : OnlyEngineParts s u := by
  rw [OnlyEngineParts] at h k ⊢
  rw [k, h]

theorem onlyEngineParts_foldl {α : Type} (f : State → α → State) (hf : ∀ t x, OnlyEngineParts t (f t x)) (l : List α)
    (s : State) : OnlyEngineParts s (l.foldl f s) :=
  foldl_keeps (OnlyEngineParts s) f (fun t x h => onlyEngineParts_trans h (hf t x)) l s (onlyEngineParts_refl s)

theorem onlyEngineParts_zeroAbsent (s : State) (split : Bool) (e h : Nat) : OnlyEngineParts s (zeroAbsent s split e h) := by
  unfold zeroAbsent
  refine onlyEngineParts_foldl _ (fun t x => ?_) _ s
  rfl

theorem onlyEngineParts_elements (s : State) (p : SMap Bool) (c : SMap Cell) :
    OnlyEngineParts s { s with poison := p, cells := c } := rfl

theorem onlyEngineParts_poisonCells (s : State) (split : Bool) (e h : Nat) : OnlyEngineParts s (poisonCells s split e h) := by
  unfold poisonCells
  extract_lets t
  exact onlyEngineParts_trans (onlyEngineParts_zeroAbsent s split e h) (onlyEngineParts_elements t _ _)

/-- The state words of an engine part's tiles, closed. -/
def closeTiles (s : State) (e h : Nat) : State :=
  (List.range 16).foldl (fun s t => setTile s (tileKey e h t)
    { getTile s (tileKey e h t) with isOpen := false, top := false, chunks := 0, newSat := 0 }) s

theorem onlyEngineParts_closeTiles (s : State) (e h : Nat) : OnlyEngineParts s (closeTiles s e h) := by
  refine onlyEngineParts_foldl _ (fun v x => ?_) _ s
  rfl

theorem poisonPart_eq (s : State) (e h : Nat) :
    ∃ y, poisonPart s e h = setEng (closeTiles (poisonCells s (bit (getEng s e).part 31) e h) e h) e y := ⟨_, rfl⟩

theorem onlyEngineParts_setEng (s : State) (e : Nat) (y : Engine) : OnlyEngineParts s (setEng s e y) := rfl

theorem onlyEngineParts_poisonPart (s : State) (e h : Nat) : OnlyEngineParts s (poisonPart s e h) := by
  obtain ⟨y, hy⟩ := poisonPart_eq s e h
  rw [hy]
  exact onlyEngineParts_trans (onlyEngineParts_trans (onlyEngineParts_poisonCells ..) (onlyEngineParts_closeTiles ..))
    (onlyEngineParts_setEng ..)

/-- Only engines and Stash lanes: what a fault or abort does beyond the end of a domain's work. -/
def OnlyLanesAndEngines (s u : State) : Prop :=
  u = { s with mem := u.mem, poison := u.poison, cells := u.cells, tiles := u.tiles, engines := u.engines, lanes := u.lanes
               depth := u.depth }

theorem onlyLanesAndEngines_of_parts {s u : State} (h : OnlyEngineParts s u) : OnlyLanesAndEngines s u := by
  rw [OnlyLanesAndEngines, h]

/-- The state in which the units of a stopped domain are poisoned and its lanes emptied. -/
def poisonUnits (s : State) (d : Nat) : State :=
  (strandsOf s d).foldl emptyStrand ((partsOf s d).foldl (fun s p => poisonPart s p.1 p.2) s)

theorem stopUnits_eq (s : State) (d : Nat) : stopUnits s d = clearUnits (poisonUnits s d) d := rfl

theorem onlyLanesAndEngines_poisonUnits (s : State) (d : Nat) : OnlyLanesAndEngines s (poisonUnits s d) := by
  have hparts : OnlyEngineParts s ((partsOf s d).foldl (fun s p => poisonPart s p.1 p.2) s) :=
    onlyEngineParts_foldl (fun s (p : Nat × Nat) => poisonPart s p.1 p.2) (fun t p => onlyEngineParts_poisonPart t p.1 p.2)
      (partsOf s d) s
  have hstart := onlyLanesAndEngines_of_parts hparts
  have hstrand (t : State) (x : Nat) : OnlyLanesAndEngines t (emptyStrand t x) := rfl
  refine foldl_keeps (OnlyLanesAndEngines s) emptyStrand (fun t x h => ?_) _ _ hstart
  have hx := hstrand t x
  rw [OnlyLanesAndEngines] at h hx ⊢
  rw [hx, h]

/-! ### The end of a domain's work -/

/-- Only what halts, collectives, snapshots and the domain itself hold. -/
def OnlyCleared (s u : State) : Prop :=
  u = { s with halts := u.halts, haltSeq := u.haltSeq, haltWait := u.haltWait, streams := u.streams, xfers := u.xfers
               dmas := u.dmas, par := u.par, doms := u.doms, herd := u.herd, outbox := u.outbox, snap := u.snap, ports := u.ports
               packets := u.packets, mem := u.mem, poison := u.poison, errs := u.errs, cells := u.cells }

theorem onlyCleared_trans {s t u : State} (h : OnlyCleared s t) (k : OnlyCleared t u) : OnlyCleared s u := by
  rw [OnlyCleared] at h k ⊢
  rw [k, h]

theorem onlyCleared_of_onlyHalts {s u : State} (h : OnlyHalts s u) : OnlyCleared s u := by
  rw [OnlyCleared, h]

theorem onlyCleared_of_onlyColl {s u : State} (h : OnlyColl s u) : OnlyCleared s u := by
  rw [OnlyCleared, h]

theorem onlyCleared_of_onlySnap {s u : State} (h : OnlySnap s u) : OnlyCleared s u := by
  rw [OnlyCleared, h]

theorem onlyCleared_abandonSnap (s : State) (d : Nat) : OnlyCleared s (abandonSnap s d) := by
  obtain h | ⟨t, ht, h⟩ := abandonSnap_cases s d
  · exact onlyCleared_of_onlySnap h
  · rw [h]
    exact onlyCleared_trans (onlyCleared_of_onlySnap ht) rfl

theorem onlyCleared_setD (s : State) (d : Nat) (x : Domain) : OnlyCleared s (setD s d x) := rfl

/-- The units of the domain as they stop, before what waited for them goes on. -/
def unitsStopped (s : State) (d : Nat) : State := stopService (stopRound (stopCores s d) d) d

/-- The state just before the domain's own requests are dropped. -/
def workDropped (s : State) (d : Nat) : State :=
  abandonSnap ((cvcsOf s d).foldl abandonColl (grantHalts (unitsStopped s d))) d

theorem clearUnits_eq (s : State) (d : Nat) : clearUnits s d = setD (workDropped s d) d { getD (workDropped s d) d with
    reqs := [], freezeAt := none, stalled := false, resumeOk := [], resumeAt := none, reports := [], choice := none,
    stopDue := false } := rfl

theorem onlyColl_abandonColls (l : List Nat) (s : State) : OnlyColl s (l.foldl abandonColl s) :=
  onlyColl_foldl abandonColl onlyColl_abandonColl l s

theorem onlyCleared_workDropped (s : State) (d : Nat) : OnlyCleared (unitsStopped s d) (workDropped s d) :=
  onlyCleared_trans (onlyCleared_trans (onlyCleared_of_onlyHalts (onlyHalts_grantHalts _))
    (onlyCleared_of_onlyColl (onlyColl_abandonColls _ _))) (onlyCleared_abandonSnap ..)

theorem onlyCleared_clearUnits (s : State) (d : Nat) : OnlyCleared (unitsStopped s d) (clearUnits s d) := by
  rw [clearUnits_eq]
  exact onlyCleared_trans (onlyCleared_workDropped s d) (onlyCleared_setD ..)

/-- A domain that does not run is as it was, but for what it waited for. -/
theorem getD_workDropped (s : State) {d : Nat} (hd : (getD s d).st ≠ .running) : getD (workDropped s d) d = getD s d := by
  have hsnap : (workDropped s d).doms = ((cvcsOf s d).foldl abandonColl (grantHalts (unitsStopped s d))).doms := by
    exact abandonSnap_doms ..
  have hcoll : ((cvcsOf s d).foldl abandonColl (grantHalts (unitsStopped s d))).doms = (grantHalts (unitsStopped s d)).doms := by
    rw [onlyColl_abandonColls]
  exact (getD_of_doms (hsnap.trans hcoll) d).trans (getD_grantHalts (unitsStopped s d) hd)

theorem getD_clearUnits (s : State) {d : Nat} (hd : (getD s d).st ≠ .running) : getD (clearUnits s d) d = { getD s d with
    reqs := [], freezeAt := none, stalled := false, resumeOk := [], resumeAt := none, reports := [], choice := none,
    stopDue := false } := by
  rw [clearUnits_eq, getD_setD_same, getD_workDropped s hd]

theorem getD_poisonUnits (s : State) (d e : Nat) : getD (poisonUnits s d) e = getD s e :=
  getD_of_doms (by rw [onlyLanesAndEngines_poisonUnits]) e

theorem getD_stopUnits (s : State) {d : Nat} (hd : (getD s d).st ≠ .running) : getD (stopUnits s d) d = { getD s d with
    reqs := [], freezeAt := none, stalled := false, resumeOk := [], resumeAt := none, reports := [], choice := none,
    stopDue := false } := by
  rw [stopUnits_eq, getD_clearUnits _ (by rwa [getD_poisonUnits]), getD_poisonUnits]

/-! ### The cores of a stopped domain -/

/-- An Eland core as a domain stops. -/
def stoppedEland (d : Nat) (e : Eland) : Eland :=
  let e := if e.domF == some d then { e with fore := haltNeedle e.fore } else e
  let e := if e.domB == some d then { e with back := haltNeedle e.back } else e
  let e := if e.domF == some d || e.domB == some d then { e with pickDue := none, answers := [] } else e
  { e with elems := e.elems.filter fun j => j.dom ≠ d }

/-- A Chamois core as a domain stops. -/
def stoppedCham (d : Nat) (c : Cham) : Cham :=
  if c.dom == some d then { c with halted := true, inFlight := [], jobs := [], decoded := [], held := none } else c

theorem getE_stopCores (s : State) (d c : Nat) : getE (stopCores s d) c = stoppedEland d (getE s c) :=
  SMap.get_mapValues _ (stoppedEland d) rfl _ _

theorem getC_stopCores (s : State) (d c : Nat) : getC (stopCores s d) c = stoppedCham d (getC s c) :=
  SMap.get_mapValues _ (stoppedCham d) rfl _ _

theorem elands_clearUnits (s : State) (d : Nat) : (clearUnits s d).elands = (stopCores s d).elands := by
  rw [onlyCleared_clearUnits]
  rfl

theorem chams_clearUnits (s : State) (d : Nat) : (clearUnits s d).chams = (stopCores s d).chams := by
  rw [onlyCleared_clearUnits]
  rfl

theorem getE_clearUnits (s : State) (d c : Nat) : getE (clearUnits s d) c = stoppedEland d (getE s c) := by
  rw [getE, elands_clearUnits]
  exact getE_stopCores s d c

theorem getC_clearUnits (s : State) (d c : Nat) : getC (clearUnits s d) c = stoppedCham d (getC s c) := by
  rw [getC, chams_clearUnits]
  exact getC_stopCores s d c

theorem getE_stopUnits (s : State) (d c : Nat) : getE (stopUnits s d) c = stoppedEland d (getE s c) := by
  rw [stopUnits_eq, getE_clearUnits, getE, onlyLanesAndEngines_poisonUnits]
  rfl

theorem getC_stopUnits (s : State) (d c : Nat) : getC (stopUnits s d) c = stoppedCham d (getC s c) := by
  rw [stopUnits_eq, getC_clearUnits, getC, onlyLanesAndEngines_poisonUnits]
  rfl

theorem stoppedEland_fore {d : Nat} {e : Eland} (h : e.domF = some d) : (stoppedEland d e).fore.st = .halted := by
  by_cases hb : e.domB = some d <;> simp [stoppedEland, h, hb, haltNeedle]

theorem stoppedEland_back {d : Nat} {e : Eland} (h : e.domB = some d) : (stoppedEland d e).back.st = .halted := by
  by_cases hf : e.domF = some d <;> simp [stoppedEland, h, hf, haltNeedle]

theorem stoppedCham_halted {d : Nat} {c : Cham} (h : c.dom = some d) : (stoppedCham d c).halted = true := by
  simp only [stoppedCham, h, beq_self_eq_true, if_true]

theorem beats_stopUnits (s : State) (d : Nat) : (stopUnits s d).beats = s.beats.filter fun b => b.dom ≠ d := by
  rw [stopUnits_eq, onlyCleared_clearUnits]
  show (poisonUnits s d).beats.filter _ = _
  rw [onlyLanesAndEngines_poisonUnits]

theorem raised_stopUnits (s : State) (d : Nat) : (stopUnits s d).raised = s.raised := by
  rw [stopUnits_eq, onlyCleared_clearUnits]
  show (poisonUnits s d).raised = _
  rw [onlyLanesAndEngines_poisonUnits]

end Sys2Proof.Machine
end

