-- ==== Sys2Proof/Proofs/DomainEvents.lean ====
section
/-!
SUPPORT. Fault records, and the events of a domain (R206 to R211, R217, R222 to R225).
-/
namespace Sys2Proof.Machine

/-! ### Fault records (R229) -/

theorem mem_of_minBy {α : Type} {lt : α → α → Bool} {l : List α} {x : α} (h : minBy lt l = some x) : x ∈ l := by
  induction l generalizing x with
  | nil => exact absurd h nofun
  | cons a l ih =>
    rw [minBy] at h
    split at h
    · exact Option.some.inj h ▸ List.mem_cons_self
    next y hy =>
      split at h
      · exact List.mem_cons_of_mem _ (Option.some.inj h ▸ ih hy)
      · exact Option.some.inj h ▸ List.mem_cons_self

/-- A slot of the log that is taken changes nothing else. -/
theorem slotTaken_frame (x : State) (a b : SMap Nat) :
    { x with unacked := a, logSeq := b }.doms = x.doms ∧ { x with unacked := a, logSeq := b }.mem = x.mem ∧
      { x with unacked := a, logSeq := b }.raised = x.raised ∧ ∀ k, getP { x with unacked := a, logSeq := b } k = getP x k :=
  ⟨rfl, rfl, rfl, fun _ => rfl⟩

/-- A record takes the next number and its slot of the log; the domain that it names remembers the number. -/
theorem writeRecord_of_dom {r : Raised} {d : Nat} (s : State) (kind : Nat) (hd : r.dom = some d) :
    ∃ v : State, writeRecord s r kind = setD v d { getD s d with faultSeq := getP s (pk 0x0E00 2) } ∧ v.doms = s.doms ∧
      v.mem = s.mem ∧ v.raised = s.raised ∧ getP v (pk 0x0E00 2) = (getP s (pk 0x0E00 2) + 1) % 0x10000 ∧
      getP v (pk 0x0E01 (getP s (pk 0x0E00 2) % 64 + 1)) = recordOf r kind (getP s (pk 0x0E00 2)) := by
  unfold writeRecord
  extract_lets seq slot lost s1 s2 s3 s4 s5
  have h2 : s2.doms = s.doms ∧ s2.mem = s.mem ∧ s2.raised = s.raised ∧ getP s2 (pk 0x0E00 2) = (seq + 1) % 0x10000 :=
    ⟨(setP_doms ..).trans (incP_doms ..), (setP_mem ..).trans (incP_mem ..), (setP_raised ..).trans (incP_raised ..),
      getP_setP_same ..⟩
  have h3 : s3.doms = s2.doms ∧ s3.mem = s2.mem ∧ s3.raised = s2.raised ∧ getP s3 (pk 0x0E00 2) = getP s2 (pk 0x0E00 2) := by
    unfold s3
    split
    · exact ⟨incP_doms .., incP_mem .., incP_raised .., getP_incP_other _ _ (by decide)⟩
    · exact ⟨rfl, rfl, rfl, rfl⟩
  have h4 : s4.doms = s3.doms ∧ s4.mem = s3.mem ∧ s4.raised = s3.raised ∧ getP s4 (pk 0x0E00 2) = getP s3 (pk 0x0E00 2) ∧
      getP s4 (pk 0x0E01 (slot + 1)) = recordOf r kind seq :=
    ⟨setP_doms .., setP_mem .., setP_raised .., getP_setP_other _ _ (by simp only [pk]; omega), getP_setP_same ..⟩
  have h5 : s5.doms = s4.doms ∧ s5.mem = s4.mem ∧ s5.raised = s4.raised ∧ ∀ k, getP s5 k = getP s4 k :=
    slotTaken_frame s4 _ _
  clear_value s5 s4 s3 s2
  obtain ⟨hd2, hm2, hr2, hp2⟩ := h2
  obtain ⟨hd3, hm3, hr3, hp3⟩ := h3
  obtain ⟨hd4, hm4, hr4, hp4, hrec⟩ := h4
  obtain ⟨hd5, hm5, hr5, hp5⟩ := h5
  have hdoms : s5.doms = s.doms := by rw [hd5, hd4, hd3, hd2]
  refine ⟨s5, ?_, hdoms, by rw [hm5, hm4, hm3, hm2], by rw [hr5, hr4, hr3, hr2], by rw [hp5, hp4, hp3, hp2], (hp5 _).trans hrec⟩
  simp only [hd, getD_of_doms hdoms d]
  rfl

/-! ### Faults of a domain (R222 to R225) -/

/-- What of the faults raised is not a domain's. -/
def raisedElse (s : State) (d : Nat) : State := { s with raised := s.raised.filter fun r => !(r.dom == some d) }

/-- The domain is FAULTED, and its STOP is on its way. -/
def markFaulted (v : State) (d : Nat) : State := setD v d { getD v d with st := .faulted, stopDue := true }

theorem recordFaults_eq (s : State) (d : Nat) : recordFaults s d =
    match minBy raisedBefore (s.raised.filter fun r => r.dom == some d) with
    | none => raisedElse s d
    | some r =>
      if !(getD s d).st.faultable then incP (raisedElse s d) (pk 0x0E10 4) (s.raised.filter fun r => r.dom == some d).length
      else markFaulted (incP (writeRecord (raisedElse s d) r 0) (pk 0x0E10 4)
        ((s.raised.filter fun r => r.dom == some d).length - 1)) d := by
  unfold recordFaults
  rw [List.partition_eq_filter_filter]
  rfl

theorem recordFaults_of_faultable {s : State} {d : Nat} {r : Raised}
    (hr : minBy raisedBefore (s.raised.filter fun r => r.dom == some d) = some r) (hf : (getD s d).st.faultable = true) :
    (recordFaults s d).mem = s.mem ∧ (recordFaults s d).raised = (raisedElse s d).raised ∧
      getD (recordFaults s d) d = { getD s d with faultSeq := getP s (pk 0x0E00 2), st := .faulted, stopDue := true } ∧
      getP (recordFaults s d) (pk 0x0E00 2) = (getP s (pk 0x0E00 2) + 1) % 0x10000 ∧
      getP (recordFaults s d) (pk 0x0E01 (getP s (pk 0x0E00 2) % 64 + 1)) = recordOf r 0 (getP s (pk 0x0E00 2)) := by
  have hd : r.dom = some d := beq_iff_eq.mp (List.mem_filter.mp (mem_of_minBy hr)).2
  obtain ⟨v, hv, -, hmem, hraised, hnext, hrec⟩ := writeRecord_of_dom (raisedElse s d) 0 hd
  have heq : recordFaults s d = markFaulted (incP (writeRecord (raisedElse s d) r 0) (pk 0x0E10 4)
      ((s.raised.filter fun r => r.dom == some d).length - 1)) d := by
    rw [recordFaults_eq, hr]
    exact if_neg (by rw [hf]; exact Bool.false_ne_true)
  rw [heq, hv, markFaulted]
  refine ⟨hmem, hraised, ?_, ?_, ?_⟩
  · rw [getD_setD_same, getD_incP, getD_setD_same]
    rfl
  · rw [getP_setD, getP_incP_other _ _ (by decide), getP_setD, hnext]
    rfl
  · rw [getP_setD, getP_incP_other _ _ (by simp only [pk]; omega), getP_setD]
    exact hrec

/-- Faults of a domain in which none can be raised are counted. -/
theorem recordFaults_of_not_faultable {s : State} {d : Nat} (hf : (getD s d).st.faultable = false) :
    (recordFaults s d).doms = s.doms ∧ (recordFaults s d).mem = s.mem ∧ (recordFaults s d).elands = s.elands ∧
      (recordFaults s d).chams = s.chams ∧ (recordFaults s d).beats = s.beats ∧
      (recordFaults s d).raised = s.raised.filter fun r => !(r.dom == some d) := by
  rw [recordFaults_eq]
  split
  · exact ⟨rfl, rfl, rfl, rfl, rfl, rfl⟩
  · rw [hf, Bool.not_false, if_pos rfl]
    exact ⟨rfl, rfl, rfl, rfl, rfl, rfl⟩

theorem exec_fault_of_first {d : Nat} {s : State} {r : Raised} (hd : d < 8)
    (hr : minBy raisedBefore (s.raised.filter fun r => r.dom == some d) = some r)
    (hfirst : ∀ k, k < d → firstRaised s k ≠ firstRaised s d) :
    exec (.fault d) s = .next (incP (recordFaults s d) (pk 0x0930 3) 1) := by
  have ht : firstRaised s d = some r.ctc := by simp only [firstRaised, hr, Option.map_some]
  have hnone : ((List.range d).filter fun k => firstRaised s k == some r.ctc) = [] :=
    List.filter_eq_nil_iff.mpr fun k hk h => hfirst k (List.mem_range.mp hk) ((beq_iff_eq.mp h).trans ht.symm)
  have harm : exec (.fault d) s = execFault d s := rfl
  rw [harm]
  simp only [execFault, if_neg (Nat.not_le.mpr hd), ht, hnone, List.foldl_nil]

theorem fault_is_recorded {d : Nat} {s : State} {r : Raised} (hd : d < 8)
    (hr : minBy raisedBefore (s.raised.filter fun r => r.dom == some d) = some r) (hf : (getD s d).st.faultable = true)
    (hfirst : ∀ k, k < d → firstRaised s k ≠ firstRaised s d) :
    let seq := getP s (pk 0x0E00 2)
    ∃ t, exec (.fault d) s = .next t ∧ SameMemory s t ∧ (getD t d).st = .faulted ∧ (getD t d).stopDue = true ∧
      (getD t d).faultSeq = seq ∧ getP t (pk 0x0E01 (seq % 64 + 1)) = recordOf r 0 seq ∧
      getP t (pk 0x0E00 2) = (seq + 1) % 0x10000 ∧ t.raised = s.raised.filter fun r => !(r.dom == some d) := by
  obtain ⟨hmem, hraised, hD, hnext, hrec⟩ := recordFaults_of_faultable hr hf
  refine ⟨_, exec_fault_of_first hd hr hfirst, sameMemory_of_eq ((incP_mem ..).trans hmem), ?_, ?_, ?_, ?_, ?_, ?_⟩
  · rw [getD_incP, hD]
  · rw [getD_incP, hD]
  · rw [getD_incP, hD]
  · rw [getP_incP_other _ _ (by simp only [pk]; omega), hrec]
  · rw [getP_incP_other _ _ (by decide), hnext]
  · rw [incP_raised, hraised]
    rfl

theorem recordFaults_mem (s : State) (d : Nat) : (recordFaults s d).mem = s.mem := by
  cases hf : (getD s d).st.faultable with
  | false => exact (recordFaults_of_not_faultable hf).2.1
  | true =>
    cases hr : minBy raisedBefore (s.raised.filter fun r => r.dom == some d) with
    | none =>
      rw [recordFaults_eq, hr]
      rfl
    | some r => exact (recordFaults_of_faultable hr hf).1

/-- A fault raised of a domain in which none can be leaves its state as it is. -/
theorem fault_is_suppressed {d : Nat} {s : State} {r : Raised} (hd : d < 8)
    (hr : minBy raisedBefore (s.raised.filter fun r => r.dom == some d) = some r) (hf : (getD s d).st.faultable = false) :
    ∃ t, exec (.fault d) s = .next t ∧ SameMemory s t ∧ (getD t d).st = (getD s d).st := by
  have ht : firstRaised s d = some r.ctc := by simp only [firstRaised, hr, Option.map_some]
  have hexec : exec (.fault d) s = .next (incP (recordFaults
      (((List.range d).filter fun k => firstRaised s k == some r.ctc).foldl recordFaults s) d) (pk 0x0930 3) 1) := by
    have harm : exec (.fault d) s = execFault d s := rfl
    rw [harm]
    simp only [execFault, if_neg (Nat.not_le.mpr hd), ht]
  have hfold : (((List.range d).filter fun k => firstRaised s k == some r.ctc).foldl recordFaults s).mem = s.mem :=
    foldl_keeps (fun t => t.mem = s.mem) recordFaults (fun t k h => (recordFaults_mem t k).trans h) _ s rfl
  refine ⟨_, hexec, sameMemory_of_eq ((incP_mem ..).trans ((recordFaults_mem ..).trans hfold)), ?_⟩
  exact (execFault_keptOrFaultable d hexec).resolve_right (by rw [hf]; exact Bool.false_ne_true)

/-! ### STOP, START and DONE -/

theorem exec_stop_of_due {d : Nat} {s : State} (hd : d < 8) (hdue : (getD s d).stopDue = true) :
    exec (.stop d) s = .next (incP (recordFaults (stopUnits s d) d) (pk 0x0930 3) 1) := by
  have harm : exec (.stop d) s = execStop d s := rfl
  rw [harm]
  simp only [execStop, if_neg (Nat.not_le.mpr hd), hdue, Bool.not_true, Bool.false_eq_true, if_false]

theorem domain_stops {d : Nat} {s : State} (hd : d < 8) (hdue : (getD s d).stopDue = true) (hst : (getD s d).st = .faulted) :
    ∃ t, exec (.stop d) s = .next t ∧ (getD t d).st = .faulted ∧ (getD t d).stopDue = false ∧ (getD t d).reqs = [] ∧
      (∀ c, ((getE s c).domF = some d → (getE t c).fore.st = .halted) ∧
        ((getE s c).domB = some d → (getE t c).back.st = .halted) ∧ ((getC s c).dom = some d → (getC t c).halted = true)) ∧
      (∀ b ∈ t.beats, b.dom ≠ d) ∧ (∀ k ∈ t.raised, k.dom ≠ some d) := by
  have hstop := getD_stopUnits s (d := d) (by rw [hst]; nofun)
  obtain ⟨hdoms, -, helands, hchams, hbeats, hraised⟩ :=
    recordFaults_of_not_faultable (s := stopUnits s d) (d := d) (by rw [hstop, hst]; rfl)
  have hD : getD (recordFaults (stopUnits s d) d) d = _ := (getD_of_doms hdoms d).trans hstop
  have hE (c : Nat) : getE (recordFaults (stopUnits s d) d) c = stoppedEland d (getE s c) := by
    rw [getE, helands]
    exact getE_stopUnits s d c
  have hC (c : Nat) : getC (recordFaults (stopUnits s d) d) c = stoppedCham d (getC s c) := by
    rw [getC, hchams]
    exact getC_stopUnits s d c
  refine ⟨_, exec_stop_of_due hd hdue, ?_, ?_, ?_, fun c => ⟨fun h => ?_, fun h => ?_, fun h => ?_⟩, fun b hb => ?_, fun k hk => ?_⟩
  · rw [getD_incP, hD]
    exact hst
  · rw [getD_incP, hD]
  · rw [getD_incP, hD]
  · rw [getE_incP, hE, stoppedEland_fore h]
  · rw [getE_incP, hE, stoppedEland_back h]
  · rw [getC_incP, hC, stoppedCham_halted h]
  · rw [incP_beats, hbeats, beats_stopUnits] at hb
    simpa using (List.mem_filter.mp hb).2
  · rw [incP_raised, hraised] at hk
    simpa using (List.mem_filter.mp hk).2

theorem domain_started {d t0 : Nat} {s : State} (hd : d < 8) (ht0 : (getD s d).t0 = some t0) (hruns : (getD s d).st.runs = true)
    (hle : s.ctc ≤ t0) :
    ∃ t, exec (.start d) s = .next t ∧ SameMemory s t ∧ SameParamsBut [pk 0x0930 3] s t ∧
      getD t d = { getD s d with t0 := none } ∧ ∀ e, e ≠ d → getD t e = getD s e := by
  have harm : exec (.start d) s = execStart d s := rfl
  rw [harm]
  simp only [execStart, if_neg (Nat.not_le.mpr hd), ht0, hruns, if_neg (Nat.not_lt.mpr hle), Bool.not_true, Bool.false_eq_true,
    if_false]
  refine ⟨_, rfl, sameMemory_of_eq rfl, sameParamsBut_incP (setD s d _) _ 2, ?_, fun e he => ?_⟩
  · rw [getD_incP, getD_setD_same]
  · rw [getD_incP, getD_setD_other _ _ (Ne.symm he)]

/-- The ticks up to a domain's slot 0 and `n` more. -/
theorem tickDomain_to_start {x : Domain} {ctc : Nat} (n t : Nat) (hruns : x.st.runs = true) (hstarted : x.started = false)
    (hlive : x.stalled = false) (hfreeze : x.freezeAt = none) (hresume : x.resumeAt = none) (hdcc : x.dcc = 0)
    (hlt : ctc < x.startCtc) :
    let y := tickDomain ctc (x.startCtc - ctc + n) t x
    y.started = true ∧ y.dcc = n ∧ y.startCtc = x.startCtc := by
  have hend : ctc + (x.startCtc - ctc + n) - x.startCtc = n := by omega
  have hge : ¬ ctc + (x.startCtc - ctc + n) < x.startCtc := by omega
  simp [tickDomain, hruns, hstarted, hge, hend, runTicks, hresume, countTicks, hlive, hfreeze, hdcc]

theorem slots_are_counted {d n : Nat} {s : State} (hruns : (getD s d).st.runs = true) (hstarted : (getD s d).started = false)
    (hlive : (getD s d).stalled = false) (hfreeze : (getD s d).freezeAt = none) (hresume : (getD s d).resumeAt = none)
    (hdcc : (getD s d).dcc = 0) (hlt : s.ctc < (getD s d).startCtc) (hclk : s.clk.runs = true) (hquiet : quiet s = true) :
    let t := advance ((getD s d).startCtc - s.ctc + n) s
    (getD t d).started = true ∧ (getD t d).dcc = n ∧ t.ctc = (getD t d).startCtc + (getD t d).dcc := by
  intro t
  have hpos : 0 < (getD s d).startCtc - s.ctc + n := by omega
  obtain ⟨h1, h2, h3⟩ := tickDomain_to_start n (ticksNs s ((getD s d).startCtc - s.ctc + n)) hruns hstarted hlive hfreeze
    hresume hdcc hlt
  rw [← getD_advance_of_quiet hclk hquiet hpos d] at h1 h2 h3
  exact ⟨h1, h2, (ctc_advance_of_quiet hclk hquiet hpos).trans (by rw [h2, h3]; omega)⟩

/-- A domain that stands counts no slots. -/
theorem runTicks_standing {x : Domain} (hstands : standing x = true) (hresume : x.resumeAt = none) (ctc k t : Nat) :
    (runTicks ctc k t x).dcc = x.dcc := by
  simp only [runTicks, hresume, countTicks]
  simp only [standing, Bool.or_eq_true, Bool.and_eq_true] at hstands
  obtain hstall | ⟨-, hfreeze⟩ := hstands
  · rw [if_pos hstall, Nat.add_zero]
  · cases hf : x.freezeAt with
    | none =>
      rw [hf] at hfreeze
      exact absurd hfreeze Bool.false_ne_true
    | some f =>
      rw [hf] at hfreeze
      have hle : f ≤ x.dcc := of_decide_eq_true hfreeze
      have hzero : min k (f - x.dcc) = 0 := by omega
      simp only [hzero, ite_self, Nat.add_zero]

/-- The state after the ticks that a stall may last. -/
def stallLimit (s : State) (d : Nat) : State :=
  advance (ceilDiv ((getP s (pk 0x0620 0) * 1000000 + 1 - (getD s d).stallNs) * freqMhz s) 1000) s

/-- The fault of a stall that lasts too long. -/
def stallFault (u : State) (d : Nat) (q : Option StallReq) (cause item : Nat) : Raised :=
  { mkRaised u 8 d 0x91 with
    needle := (match q with | some r => r.needle | none => 3)
    offset := (match q with | some r => r.offset | none => 0xFFFFFFFF)
    detail0 := cause, detail1 := item }

/-- The cause that a fault 08h names: that of the oldest unmet condition. -/
def stallCause (q : Option StallReq) : Nat := (q.map fun r => (condCause r.cond).1).getD 0

theorem exec_stallTimeout_ok {d : Nat} {s : State} (hd : d < 8) (hstands : standing (getD s d) = true)
    (hst : (getD s d).st = .running) (hstall : (getD (stallLimit s d) d).stalled = true) :
    let q := (getD s d).reqs.find? fun q => !condHolds s d q.cond
    ∃ v item, exec (.stallTimeout d) s = .next (raise v (stallFault v d q (stallCause q) item)) ∧
      (v = stallLimit s d ∨ v = (freeBits (stallLimit s d) 64).2) := by
  have harm : exec (.stallTimeout d) s = execStallTimeout d s := rfl
  have hguard : (!standing (getD s d) || decide ((getD s d).st ≠ .running)) = false := by simp [hstands, hst]
  have hstall' : (getD (advance (ceilDiv ((getP s (pk 0x0620 0) * 1000000 + 1 - (getD s d).stallNs) * freqMhz s) 1000) s)
    d).stalled = true := hstall
  rw [harm]
  simp only [execStallTimeout, if_neg (Nat.not_le.mpr hd), hguard, hstall', Bool.not_true, Bool.false_eq_true, if_false]
  cases hq : (getD s d).reqs.find? fun q => !condHolds s d q.cond with
  | none => exact ⟨stallLimit s d, _, rfl, .inl rfl⟩
  | some r =>
    by_cases hpick : r.cond = .pick
    · simp only [hpick, beq_self_eq_true, if_true]
      refine ⟨stallLimit s d, pickCore (stallLimit s d) d, ?_, .inl rfl⟩
      simp only [stallFault, stallCause, hpick, Option.map_some, Option.getD_some]
      rfl
    · have hne : (r.cond == Cond.pick) = false := beq_eq_false_iff_ne.mpr hpick
      simp only [hne, Bool.false_eq_true, if_false]
      by_cases h7 : ((condCause r.cond).1 == 7) = true
      · rw [if_pos h7]
        exact ⟨(freeBits (stallLimit s d) 64).2, (freeBits (stallLimit s d) 64).1, rfl, .inr rfl⟩
      · rw [if_neg h7]
        exact ⟨stallLimit s d, (condCause r.cond).2, rfl, .inl rfl⟩

theorem stall_times_out {d : Nat} {s : State} (hd : d < 8) (hstands : standing (getD s d) = true)
    (hst : (getD s d).st = .running) (hstall : (getD (stallLimit s d) d).stalled = true) :
    ∃ v r, exec (.stallTimeout d) s = .next (raise v r) ∧ SameMemory (stallLimit s d) v ∧ v.doms = (stallLimit s d).doms ∧
      r.code = 8 ∧ r.dom = some d ∧ r.unit = 0x91 ∧
      (∀ q, (getD s d).reqs.find? (fun q => !condHolds s d q.cond) = some q →
        r.detail0 = (condCause q.cond).1 ∧ r.needle = q.needle ∧ r.offset = q.offset) ∧
      ((getD s d).reqs.find? (fun q => !condHolds s d q.cond) = none → r.detail0 = 0) ∧
      (quiet s = true → s.clk.runs = true → (getD s d).started = true → (getD s d).resumeAt = none →
        (getD v d).stalled = true ∧ (getD v d).dcc = (getD s d).dcc) := by
  obtain ⟨v, item, hexec, hv⟩ := exec_stallTimeout_ok hd hstands hst hstall
  have hframe : SameMemory (stallLimit s d) v ∧ v.doms = (stallLimit s d).doms := by
    obtain rfl | rfl := hv
    · exact ⟨fun _ => rfl, rfl⟩
    · exact ⟨sameMemory_of_eq rfl, rfl⟩
  refine ⟨v, _, hexec, hframe.1, hframe.2, rfl, rfl, rfl, fun q hq => ?_, fun hq => ?_, fun hquiet hclk hstarted hresume => ?_⟩
  · rw [hq]
    exact ⟨rfl, rfl, rfl⟩
  · rw [hq]
    rfl
  · rw [getD_of_doms hframe.2]
    refine ⟨hstall, ?_⟩
    unfold stallLimit
    obtain hzero | hpos := Nat.eq_zero_or_pos (ceilDiv ((getP s (pk 0x0620 0) * 1000000 + 1 - (getD s d).stallNs) * freqMhz s) 1000)
    · rw [hzero, advance_zero s hclk]
    · rw [getD_advance_of_quiet hclk hquiet hpos, tickDomain_started (by rw [hst]; rfl) hstarted,
        runTicks_standing hstands hresume]

/-- A CVC of a domain that is DONE. -/
def closeColl (s : State) (c : Nat) : State :=
  if (getColl s c).st == 0 then s else setColl (releasePauses s c) c { getColl s c with st := 3, copies := [] }

theorem onlyColl_closeColl (s : State) (c : Nat) : OnlyColl s (closeColl s c) :=
  onlyColl_ite _ (onlyColl_refl s) (onlyColl_trans (onlyColl_releasePauses s c) (onlyColl_setColl ..))

theorem domain_done {d : Nat} {s : State} (hd : d < 8) (hst : (getD s d).st = .running) (hstarted : (getD s d).started = true)
    (hcores : coresDone s d = true) (hidle : ∀ c ∈ cvcsOf s d, (getColl s c).run = false) :
    ∃ t, exec (.domainDone d) s = .next t ∧ SameMemory s t ∧ (getD t d).st = .done ∧ (∀ e, e ≠ d → getD t e = getD s e) ∧
      (∀ x ∈ s.dmas, x.2.dom = d → x.2.st ≠ 0 → (x.1, { x.2 with st := 5, pend := 0 }) ∈ t.dmas) := by
  have hrun : (cvcsOf s d).any (fun c => (getColl s c).run) = false :=
    List.any_eq_false.mpr fun c hc => by rw [hidle c hc]; exact Bool.false_ne_true
  have hguard : (!((getD s d).st == .running && (getD s d).started)) = false := by rw [hst, hstarted]; rfl
  let u := (cvcsOf s d).foldl closeColl s
  have hu : OnlyColl s u := onlyColl_foldl closeColl onlyColl_closeColl _ s
  have hexec : exec (.domainDone d) s = .next (setD (stopChannels u d) d
      { getD (stopChannels u d) d with st := .done, reqs := [], freezeAt := none, stalled := false, resumeAt := none }) := by
    have harm : exec (.domainDone d) s = execDomainDone d s := rfl
    rw [harm]
    simp only [execDomainDone, if_neg (Nat.not_le.mpr hd), hguard, hcores, hrun, Bool.not_true, Bool.or_self, Bool.false_eq_true,
      if_false]
    rfl
  clear_value u
  have hdoms : u.doms = s.doms := by rw [hu]
  have hmem : u.mem = s.mem := by rw [hu]
  have hdmas : u.dmas = s.dmas := by rw [hu]
  refine ⟨_, hexec, sameMemory_of_eq hmem, ?_, fun e he => ?_, fun x hx hdom hx0 => ?_⟩
  · rw [getD_setD_same]
  · rw [getD_setD_other _ _ (Ne.symm he)]
    exact getD_of_doms hdoms e
  · show (x.1, { x.2 with st := 5, pend := 0 }) ∈ u.dmas.map _
    rw [hdmas]
    refine List.mem_map.mpr ⟨x, hx, ?_⟩
    rw [if_pos (by simp [hdom, hx0])]

/-- Settles O41: the first fault raised is the one recorded; a stop halts what the domain has on every core; ticks bring slot 0
and leave a stall where it is; DONE stops the domain's channels and no other domain. -/
theorem domainEventsComplete : Obligations.DomainEventsComplete := by
  unfold Obligations.DomainEventsComplete
  refine ⟨?fault, ?stop, ?start, ?slots, ?timeout, ?done⟩
  case fault =>
    intro d s r hd hr seq
    refine ⟨fun hf hfirst => fault_is_recorded hd hr hf hfirst, fun hf => ?_⟩
    exact fault_is_suppressed hd hr hf
  case stop => exact fun d s hd hdue hst => domain_stops hd hdue hst
  case start => exact fun d t0 s hd ht0 hruns hle => domain_started hd ht0 hruns hle
  case slots =>
    exact fun d n s hruns hstarted hlive hfreeze hresume hdcc _ hlt hclk hquiet =>
      slots_are_counted hruns hstarted hlive hfreeze hresume hdcc hlt hclk hquiet
  case timeout => exact fun d s hd hstands hst hstall => stall_times_out hd hstands hst hstall
  case done => exact fun d s hd hst hstarted hcores hidle => domain_done hd hst hstarted hcores hidle

end Sys2Proof.Machine
end

