-- ==== Sys2Proof/Proofs/DomainCommands.lean ====
section
/-!
SUPPORT. The commands of domain.start: LOAD, RUN, LOAD_RUN, ABORT and RELEASE (R203, R217, R218, R356).
-/
namespace Sys2Proof.Machine

/-! ### Writes whose function is ready (R387) -/

theorem gated_of_ok {s : State} {key : Nat} {f : State → Nat × State} (hgate : gateOk s key = true) :
    gated s key f = if (f s).1 == 0 then { (f s).2 with wstatus := 0 } else { s with wstatus := (f s).1 } := by
  unfold gated wrote
  simp only [hgate, Bool.not_true, Bool.and_false, Bool.false_eq_true, if_false]

/-- A write that passes its checks. -/
theorem gated_ok {s t : State} {key : Nat} {f : State → Nat × State} (hgate : gateOk s key = true) (h : f s = (0, t)) :
    gated s key f = { t with wstatus := 0 } := by
  rw [gated_of_ok hgate, h]
  rfl

/-- A write that is refused. -/
theorem gated_refused {s t : State} {key st : Nat} {f : State → Nat × State} (hgate : gateOk s key = true)
    (h : f s = (st, t)) (hst : st ≠ 0) : gated s key f = { s with wstatus := st } := by
  rw [gated_of_ok hgate, h]
  exact if_neg (by simpa using hst)

/-! ### LOAD -/

/-- The compute clocks run as before. -/
def KeepsClocks (s u : State) : Prop := u.clk = s.clk

theorem keepsClocks_foldl {α : Type} (f : State → α → State) (hf : ∀ t x, KeepsClocks t (f t x)) (l : List α) (s : State) :
    KeepsClocks s (l.foldl f s) :=
  foldl_keeps (KeepsClocks s) f (fun t x h => (hf t x).trans h) l s rfl

theorem keepsClocks_refuseLoad (s : State) (d : Nat) (f : LoadFault) : KeepsClocks s (refuseLoad s d f) := by
  unfold refuseLoad
  extract_lets _ r t
  have hrecord : KeepsClocks s (writeRecord s r 0) := by
    rw [KeepsClocks, onlyLogged_writeRecord]
  have ht : KeepsClocks s t := (keepsClocks_foldl emptyStrand (fun _ _ => rfl) _ _).trans hrecord
  exact ht

theorem keepsClocks_placeCore (s : State) (d u : Nat) : KeepsClocks s (placeCore s d u) := by
  unfold placeCore
  split
  · rfl
  · dsimp only
    split <;> rfl

theorem keepsClocks_setPresent (s : State) (u n : Nat) (v : Bool) : KeepsClocks s (setPresent s u n v) := by
  rw [KeepsClocks, setPresent_eq]

theorem keepsClocks_placeSection (lk : Image) (d : Nat) (s : State) (x : SecEntry) : KeepsClocks s (placeSection lk d s x) := by
  unfold placeSection
  extract_lets data
  split
  · split
    · rfl
    next u _ =>
      extract_lets t v
      have hv : KeepsClocks s v :=
        (keepsClocks_foldl (fun s i => setPresent s u (x.line + i) true) (fun t i => keepsClocks_setPresent t u _ true) _ t).trans rfl
      split
      · exact hv
      · split
        · exact hv
        · exact hv
  · split
    · refine keepsClocks_foldl _ (fun t y => ?_) _ s
      rfl
    · rfl

theorem keepsClocks_placeEngines (s : State) (d h : Nat) : KeepsClocks s (placeEngines s d h) :=
  keepsClocks_foldl _ (fun t e => by
    dsimp only
    split <;> rfl) _ s

theorem keepsClocks_placePhases (s : State) (d h : Nat) : KeepsClocks s (placePhases s d h) := by
  refine keepsClocks_foldl _ (fun t k => ?_) _ s
  rfl

theorem keepsClocks_placeImage (s : State) (d : Nat) (m lk : Image) : KeepsClocks s (placeImage s d m lk) := by
  unfold placeImage
  extract_lets h t u v dd
  have ht : KeepsClocks s t := (keepsClocks_placePhases ..).trans (keepsClocks_placeEngines ..)
  have hu : KeepsClocks t u := keepsClocks_foldl _ (fun v x => keepsClocks_placeCore v d x) _ t
  have hv : KeepsClocks u v := keepsClocks_foldl _ (fun v x => keepsClocks_placeSection lk d v x) _ u
  exact hv.trans (hu.trans ht)

theorem getD_refuseLoad (s : State) (d : Nat) (f : LoadFault) : (getD (refuseLoad s d f) d).st = .faulted := by
  unfold refuseLoad
  rw [getD_setD_same]

theorem getD_placeImage (s : State) (d : Nat) (m lk : Image) : (getD (placeImage s d m lk) d).st = .loaded ∧
    (getD (placeImage s d m lk) d).cores = hdCores (imgHeader m) ∧
    (getD (placeImage s d m lk) d).measure = sha512 (m.map (·.1)) := by
  unfold placeImage
  extract_lets h t u v dd
  clear_value v
  rw [getD_setD_same]
  exact ⟨rfl, rfl, rfl⟩

/-- A load ends in a refusal or in an image that is placed, with the clocks as they were. -/
theorem loadImage_cases (s : State) (d : Nat) :
    KeepsClocks s (loadImage s d) ∧ ((getD (loadImage s d) d).st = .loaded ∨ (getD (loadImage s d) d).st = .faulted) := by
  have hread (t : State) (va born n fuel : Nat) : KeepsClocks t (vread t d va born n fuel).2.2 := by
    rw [KeepsClocks, onlyServed_vread]
  have hrefuse {t : State} (ht : KeepsClocks s t) (f : LoadFault) : KeepsClocks s (refuseLoad t d f) ∧
      ((getD (refuseLoad t d f) d).st = .loaded ∨ (getD (refuseLoad t d f) d).st = .faulted) :=
    ⟨(keepsClocks_refuseLoad t d f).trans ht, .inr (getD_refuseLoad t d f)⟩
  have hplace {t : State} (ht : KeepsClocks s t) (m lk : Image) : KeepsClocks s (placeImage t d m lk) ∧
      ((getD (placeImage t d m lk) d).st = .loaded ∨ (getD (placeImage t d m lk) d).st = .faulted) :=
    ⟨(keepsClocks_placeImage t d m lk).trans ht, .inl (getD_placeImage t d m lk).1⟩
  unfold loadImage
  extract_lets at_ dd t0
  have h1 : KeepsClocks s (vread t0 d at_ t0.ctc 256 (vfuel 256)).2.2 := (hread t0 at_ t0.ctc 256 (vfuel 256)).trans rfl
  split
  next heq =>
    rw [heq] at h1
    exact hrefuse h1 _
  next heq =>
    rw [heq] at h1
    exact hrefuse h1 _
  next head t1 heq =>
    rw [heq] at h1
    extract_lets rest
    have h2 : KeepsClocks s (vread t1 d (at_ + 256) t1.ctc rest (vfuel rest)).2.2 := (hread t1 _ _ _ _).trans h1
    split
    next heq =>
      rw [heq] at h2
      exact hrefuse h2 _
    next heq =>
      rw [heq] at h2
      exact hrefuse h2 _
    next body t2 heq =>
      rw [heq] at h2
      extract_lets m lk
      split
      · exact hrefuse h2 _
      · exact hplace h2 m lk

theorem loadImage_of_checked {s s1 s2 : State} {d : Nat} {hd body : List (Byte × Bool)}
    (h1 : vread (setD s d { getD s d with st := .loading, image := getP s (pk (0x0600 + d) 1), faultSeq := 0xFFFF, dcc := 0 }) d
      (getP s (pk (0x0600 + d) 1)) s.ctc 256 (vfuel 256) = (.ok, hd, s1))
    (h2 : vread s1 d (getP s (pk (0x0600 + d) 1) + 256) s1.ctc (hdSize (imgHeader hd) - 256)
      (vfuel (hdSize (imgHeader hd) - 256)) = (.ok, body, s2))
    (hcheck : checkImage s2 d (hd ++ body) (linked s2 d (hd ++ body)) = none) :
    loadImage s d = placeImage s2 d (hd ++ body) (linked s2 d (hd ++ body)) := by
  unfold loadImage
  extract_lets at_ dd t0
  have h1' : vread t0 d at_ t0.ctc 256 (vfuel 256) = (.ok, hd, s1) := h1
  rw [h1']
  dsimp only
  rw [h2]
  dsimp only
  rw [hcheck]

theorem exec_load {d : Nat} {s : State} (hd : d < 8) :
    exec (.load d) s = .next (gated s (domainCmd d) fun s => loadDomain s d) := by
  have harm : exec (.load d) s = execLoad d s := rfl
  rw [harm, execLoad, if_neg (Nat.not_le.mpr hd)]

theorem loadDomain_refused {d : Nat} {s : State} (h : (getD s d).st ≠ .empty ∨ s.clk.runs = false) : loadDomain s d = (5, s) := by
  unfold loadDomain
  refine if_pos ?_
  obtain h | h := h <;> simp [h]

theorem loadDomain_ok {d : Nat} {s : State} (hst : (getD s d).st = .empty) (hclk : s.clk.runs = true) :
    loadDomain s d = (0, loadImage s d) := by
  unfold loadDomain
  exact if_neg (by simp [hst, hclk])

/-! ### RUN -/

theorem ceilDiv_bounds (a : Nat) : a ≤ ceilDiv a 64 * 64 ∧ ceilDiv a 64 * 64 < a + 64 := by
  unfold ceilDiv
  omega

/-- The parameters of the strands, their steps and their armed resume steps: all but the collectives' own. -/
def SameSteps (s u : State) : Prop := ∀ k, k < pk 0x0B20 0 ∨ pk 0x0B30 0 ≤ k → getP u k = getP s k

theorem resumeMismatch_congr {s u : State} (h : SameSteps s u) (d : Nat) : resumeMismatch u d = resumeMismatch s d := by
  have hstrands : strandsOf u d = strandsOf s d := List.filter_congr fun t ht => by
    have hlt := List.mem_range.mp ht
    rw [ownsStrand, ownsStrand, h _ (.inl (by simp only [pk]; omega))]
  have hstep (index t : Nat) (hi : 0x0B30 ≤ index) : getP u (pk index (t + 1)) = getP s (pk index (t + 1)) :=
    h _ (.inr (by simp only [pk]; omega))
  have hsteps (t : Nat) : getP u (pk 0x0C20 (t + 1)) = getP s (pk 0x0C20 (t + 1)) ∧ dataStep u t = dataStep s t ∧
      rngStep u t = rngStep s t := ⟨hstep _ t (by decide), hstep _ t (by decide), hstep _ t (by decide)⟩
  unfold resumeMismatch
  rw [hstrands]
  refine congrArg (fun f => List.find? f (strandsOf s d)) (funext fun t => ?_)
  obtain ⟨h1, h2, h3⟩ := hsteps t
  rw [h1, h2, h3]

theorem resumeCheck_of_match {s : State} {d : Nat} (h : resumeMismatch s d = none) : resumeCheck s d =
    (strandsOf s d).foldl (fun s t => setP s (pk 0x0C20 (t + 1)) 0xFFFFFFFFFFFFFFFF) s := by
  unfold resumeCheck
  simp only [h]

/-- Only the domain's own units start. -/
theorem noteFinished_cases (s : State) (d : Nat) : noteFinished s d = s ∨ ∃ f, noteFinished s d = setD s d { getD s d with finished := f } := by
  unfold noteFinished
  dsimp only
  split
  · exact .inr ⟨_, rfl⟩
  · exact .inl rfl

/-- A CVC as a run of its domain starts. -/
def collReady (s : State) (c : Nat) : State :=
  if getP s (pk (0x0B10 + c) 0x12) == 0 then s else setColl (setP s (pk (0x0B20 + c) 2) 0) c { st := 1 }

/-- Memory, domains and steps are as before. -/
def KeepsRun (s u : State) : Prop := u.mem = s.mem ∧ u.doms = s.doms ∧ SameSteps s u

theorem keepsRun_collReady {s u : State} {c : Nat} (hc : c < 16) (h : KeepsRun s u) : KeepsRun s (collReady u c) := by
  obtain ⟨hmem, hdoms, hsteps⟩ := h
  unfold collReady
  split
  · exact ⟨hmem, hdoms, hsteps⟩
  · exact ⟨hmem, hdoms, fun k hk => (getP_setP_other u _ (by simp only [pk] at hk ⊢; omega)).trans (hsteps k hk)⟩

theorem keepsRun_collsReady (s : State) (d : Nat) : KeepsRun s ((cvcsOf s d).foldl collReady s) :=
  foldl_keeps_mem (KeepsRun s) collReady _ (fun _ _ hc h => keepsRun_collReady (List.mem_range.mp (List.mem_filter.mp hc).1) h) s
    ⟨rfl, rfl, fun _ _ => rfl⟩

theorem runDomain_refused {d : Nat} {s : State} (h : (getD s d).st ≠ .loaded ∨ s.clk.runs = false) : runDomain s d = (5, s) := by
  unfold runDomain
  refine if_pos ?_
  obtain h | h := h <;> simp [h]

/-- A domain that is LOADED and resumes at its steps runs. -/
theorem runDomain_ok {d : Nat} {s : State} (hst : (getD s d).st = .loaded) (hclk : s.clk.runs = true)
    (hmatch : resumeMismatch s d = none) :
    ∃ t, runDomain s d = (0, t) ∧ t.mem = s.mem ∧ (getD t d).st = .running ∧ (getD t d).dcc = 0 ∧ (getD t d).started = false ∧
      (getD t d).t0 = some (ceilDiv (s.ctc + 256) 64 * 64) := by
  unfold runDomain
  rw [if_neg (by simp [hst, hclk])]
  extract_lets t0 dd s1 s2 s3 _ s4
  have h1 : s1.mem = s.mem ∧ (∀ k, getP s1 k = getP s k) ∧ (getD s1 d).st = .running ∧ (getD s1 d).dcc = 0 ∧
      (getD s1 d).started = false ∧ (getD s1 d).t0 = some t0 := by
    refine ⟨rfl, fun _ => rfl, ?_⟩
    unfold s1
    rw [getD_setD_same]
    exact ⟨rfl, rfl, rfl, rfl⟩
  clear_value s1
  have h2 : s2.mem = s1.mem ∧ (∀ k, getP s2 k = getP s1 k) ∧ ∃ f, getD s2 d = { getD s1 d with finished := f } := by
    unfold s2
    obtain h | ⟨f, h⟩ := noteFinished_cases (startCores s1 d) d
    · rw [h]
      exact ⟨rfl, fun _ => rfl, _, rfl⟩
    · rw [h]
      exact ⟨rfl, fun _ => rfl, f, getD_setD_same ..⟩
  clear_value s2
  have h3 : KeepsRun s2 s3 := keepsRun_collsReady s2 d
  clear_value s3
  have h4 : s4.mem = s3.mem ∧ s4.doms = s3.doms ∧ ∀ k, getP s4 k = getP s3 k := ⟨rfl, rfl, fun _ => rfl⟩
  clear_value s4
  obtain ⟨hm1, hp1, hst1, hdcc1, hstarted1, ht1⟩ := h1
  obtain ⟨hm2, hp2, f, hD2⟩ := h2
  obtain ⟨hm3, hd3, hp3⟩ := h3
  obtain ⟨hm4, hd4, hp4⟩ := h4
  have hsteps : SameSteps s s4 := fun k hk => by rw [hp4, hp3 k hk, hp2, hp1]
  have hcheck := resumeCheck_of_match (s := s4) (d := d) ((resumeMismatch_congr hsteps d).trans hmatch)
  have hfold : (resumeCheck s4 d).mem = s4.mem ∧ (resumeCheck s4 d).doms = s4.doms := by
    rw [hcheck]
    exact foldl_keeps (fun t => t.mem = s4.mem ∧ t.doms = s4.doms) (fun s t => setP s (pk 0x0C20 (t + 1)) 0xFFFFFFFFFFFFFFFF)
      (fun _ _ h => h) _ s4 ⟨rfl, rfl⟩
  have hD : getD (resumeCheck s4 d) d = { getD s1 d with finished := f } := by
    rw [getD_of_doms (hfold.2.trans (hd4.trans hd3)), hD2]
  refine ⟨_, rfl, by rw [hfold.1, hm4, hm3, hm2, hm1], ?_⟩
  rw [hD]
  exact ⟨hst1, hdcc1, hstarted1, ht1⟩

theorem exec_run {d : Nat} {s : State} (hd : d < 8) :
    exec (.run d) s = .next (gated s (domainCmd d) fun s => runDomain s d) := by
  have harm : exec (.run d) s = execRun d s := rfl
  rw [harm, execRun, if_neg (Nat.not_le.mpr hd)]

theorem exec_loadRun {d : Nat} {s : State} (hd : d < 8) :
    exec (.loadRun d) s = .next (gated s (domainCmd d) fun s => loadRunDomain s d) := by
  have harm : exec (.loadRun d) s = execLoadRun d s := rfl
  rw [harm, execLoadRun, if_neg (Nat.not_le.mpr hd)]

theorem loadRunDomain_refused {d : Nat} {s : State} (h : (getD s d).st ≠ .empty ∨ s.clk.runs = false) :
    loadRunDomain s d = (5, s) := by
  simp only [loadRunDomain, loadDomain_refused h]

theorem loadRunDomain_loaded {d : Nat} {s : State} (hst : (getD s d).st = .empty) (hclk : s.clk.runs = true)
    (hload : (getD (loadImage s d) d).st = .loaded) : loadRunDomain s d = (0, (runDomain (loadImage s d) d).2) := by
  simp only [loadRunDomain, loadDomain_ok hst hclk, hload, beq_self_eq_true, if_true]

/-! ### ABORT -/

/-- The log's next number is as before. -/
def KeepsLogNumber (s u : State) : Prop := getP u (pk 0x0E00 2) = getP s (pk 0x0E00 2)

theorem keepsLogNumber_foldl {α : Type} (f : State → α → State) (hf : ∀ t x, KeepsLogNumber t (f t x)) (l : List α) (s : State) :
    KeepsLogNumber s (l.foldl f s) :=
  foldl_keeps (KeepsLogNumber s) f (fun t x h => (hf t x).trans h) l s rfl

theorem keepsLogNumber_incP {s : State} {key : Nat} (n : Nat) (h : key ≠ pk 0x0E00 2) : KeepsLogNumber s (incP s key n) :=
  getP_incP_other s n h

theorem keepsLogNumber_setP {s : State} {key : Nat} (v : Nat) (h : key ≠ pk 0x0E00 2) : KeepsLogNumber s (setP s key v) :=
  getP_setP_other s v h

theorem keepsLogNumber_ite {s a b : State} (p : Prop) [Decidable p] (ha : KeepsLogNumber s a) (hb : KeepsLogNumber s b) :
    KeepsLogNumber s (if p then a else b) := by
  split <;> assumption

theorem portKey_ne_logNumber (port : Nat) {sub : Nat} (hsub : sub % 256 ≠ 2) : portKey port sub ≠ pk 0x0E00 2 := by
  unfold portKey pk
  split <;> omega

theorem keepsLogNumber_takePn {s t : State} (h : takePn s = some t) : KeepsLogNumber s t := by
  unfold takePn at h
  split at h
  · obtain rfl := Option.some.inj h
    rfl
  · dsimp only at h
    split at h
    · exact absurd h nofun
    · obtain rfl := Option.some.inj h
      have hn (v : Nat) : KeepsLogNumber s (setP s (pk 0x0530 8) v) := keepsLogNumber_setP _ (by decide)
      exact keepsLogNumber_ite _ ((keepsLogNumber_setP _ (by decide)).trans (hn _)) (hn _)

theorem keepsLogNumber_emit (s : State) (port : Nat) (o : Out) : KeepsLogNumber s (emit s port o) := by
  unfold emit
  extract_lets go
  have hgo (t : State) : KeepsLogNumber t (go t) := keepsLogNumber_incP 1 (portKey_ne_logNumber port (by decide))
  have hdrop : KeepsLogNumber s (incP s (portKey port 0x0F) 1) := keepsLogNumber_incP 1 (portKey_ne_logNumber port (by decide))
  refine keepsLogNumber_ite _ hdrop (keepsLogNumber_ite _ ?_ (hgo s))
  split
  next ht => exact (hgo _).trans (keepsLogNumber_takePn ht)
  next => exact hdrop

theorem keepsLogNumber_sendPfc (s : State) (port prio quanta : Nat) : KeepsLogNumber s (sendPfc s port prio quanta) :=
  (keepsLogNumber_emit ..).trans (keepsLogNumber_ite _ (keepsLogNumber_incP 1 (portKey_ne_logNumber port (by decide))) rfl)

theorem keepsLogNumber_abandonColl (s : State) (c : Nat) : KeepsLogNumber s (abandonColl s c) := by
  have hpause : KeepsLogNumber s (releasePauses s c) :=
    (keepsLogNumber_foldl (fun s (q : Nat × Nat) => sendPfc s q.1 q.2 0) (fun t q => keepsLogNumber_sendPfc t q.1 q.2 0) _ _).trans
      rfl
  exact hpause

theorem keepsLogNumber_placeHalt (s : State) (i : Nat) (h : Halt) : KeepsLogNumber s (placeHalt s i h) := by
  unfold placeHalt
  extract_lets h' t u dd
  have hu : KeepsLogNumber s u := (keepsLogNumber_incP (s := t) 1 (by decide)).trans rfl
  exact keepsLogNumber_ite _ hu hu

theorem keepsLogNumber_holdSlot (s : State) (i : Nat) (who : Requester) : KeepsLogNumber s (holdSlot s i who) := by
  cases who <;> rfl

theorem keepsLogNumber_grantTo (l : List Halt) (s : State) : KeepsLogNumber s (grantTo l s) := by
  induction l generalizing s with
  | nil => rfl
  | cons h l ih =>
    rw [grantTo]
    split
    · exact ih s
    · split
      · rfl
      · exact (ih _).trans ((keepsLogNumber_holdSlot ..).trans (keepsLogNumber_placeHalt ..))

theorem keepsLogNumber_abandonSnap (s : State) (d : Nat) : KeepsLogNumber s (abandonSnap s d) := by
  obtain h | ⟨t, ht, h⟩ := abandonSnap_cases s d
  · rw [KeepsLogNumber, h]
    rfl
  · have hpar : getP t (pk 0x0E00 2) = getP s (pk 0x0E00 2) := by
      rw [ht]
      rfl
    rw [h]
    exact (keepsLogNumber_setP _ (by simp only [snapKey, pk]; omega)).trans hpar

theorem keepsLogNumber_clearUnits (s : State) (d : Nat) : KeepsLogNumber s (clearUnits s d) := by
  have hunits : KeepsLogNumber s (grantHalts (unitsStopped s d)) := (keepsLogNumber_grantTo _ _).trans rfl
  have hcolls := (keepsLogNumber_foldl abandonColl keepsLogNumber_abandonColl (cvcsOf s d) _).trans hunits
  have hwork : KeepsLogNumber s (workDropped s d) := (keepsLogNumber_abandonSnap ..).trans hcolls
  rw [clearUnits_eq]
  exact hwork

theorem keepsLogNumber_stopUnits (s : State) (d : Nat) : KeepsLogNumber s (stopUnits s d) := by
  have hpoison : KeepsLogNumber s (poisonUnits s d) := by
    rw [KeepsLogNumber, onlyLanesAndEngines_poisonUnits]
    rfl
  exact (keepsLogNumber_clearUnits ..).trans hpoison

theorem exec_abort {d : Nat} {s : State} (hd : d < 8) :
    exec (.abort d) s = .next (gated s (domainCmd d) fun s => abortDomain s d) := by
  have harm : exec (.abort d) s = execAbort d s := rfl
  rw [harm, execAbort, if_neg (Nat.not_le.mpr hd)]

theorem loading_or_runs_iff (x : DState) : (x == .loading || x.runs) = true ↔ x = .loading ∨ x = .running ∨ x = .pageHalt := by
  cases x <;> simp [DState.runs]

/-- The domain once its abort is taken. -/
def abortTaken (s : State) (d : Nat) : State := setD s d { getD s d with st := .aborted }

theorem domain_aborts {d : Nat} {s : State} (hd : d < 8) (hgate : gateOk s (domainCmd d) = true)
    (hst : (getD s d).st = .loading ∨ (getD s d).st = .running ∨ (getD s d).st = .pageHalt) :
    ∃ t, exec (.abort d) s = .next t ∧ t.wstatus = 0 ∧ (getD t d).st = .aborted ∧
      getP t (pk 0x0E00 2) = getP s (pk 0x0E00 2) ∧ ∀ c, (getE s c).domF = some d → (getE t c).fore.st = .halted := by
  have habort : abortDomain s d = (0, stopUnits (abortTaken s d) d) :=
    if_neg (by rw [(loading_or_runs_iff _).mpr hst]; exact Bool.false_ne_true)
  have hD : getD (abortTaken s d) d = { getD s d with st := .aborted } := getD_setD_same ..
  have hstop := getD_stopUnits (abortTaken s d) (d := d) (by rw [hD]; nofun)
  have hseq := keepsLogNumber_stopUnits (abortTaken s d) d
  have hcores := getE_stopUnits (abortTaken s d) d
  refine ⟨_, (exec_abort hd).trans (congrArg _ (gated_ok hgate habort)), rfl, ?_⟩
  generalize stopUnits (abortTaken s d) d = t at hstop hseq hcores
  refine ⟨?_, hseq, fun c hc => ?_⟩
  · show (getD t d).st = _
    rw [hstop, hD]
  · show (getE t c).fore.st = _
    rw [hcores]
    exact stoppedEland_fore hc

theorem abort_refused {d : Nat} {s : State} (hd : d < 8) (hgate : gateOk s (domainCmd d) = true)
    (hst : ¬((getD s d).st = .loading ∨ (getD s d).st = .running ∨ (getD s d).st = .pageHalt)) :
    exec (.abort d) s = .next { s with wstatus := 5 } := by
  have habort : abortDomain s d = (5, s) :=
    if_pos (by rw [Bool.eq_false_iff.mpr (mt (loading_or_runs_iff _).mp hst), Bool.not_false])
  rw [exec_abort hd, gated_refused hgate habort (by decide)]

/-! ### RELEASE -/

theorem SMap.get_filter_in {V : Type} (d : V) (p : Nat × V → Bool) (m : SMap V) (k : Nat) (hp : ∀ v, p (k, v) = true) :
    SMap.get d (m.filter p) k = SMap.get d m k := by
  induction m with
  | nil => rfl
  | cons x m ih =>
    obtain ⟨j, v⟩ := x
    by_cases hj : j = k
    · subst hj
      rw [List.filter_cons_of_pos (hp v)]
      simp only [SMap.get, if_true]
    · cases hx : p (j, v) with
      | true =>
        rw [List.filter_cons_of_pos hx]
        simp only [SMap.get, if_neg hj, ih]
      | false =>
        rw [List.filter_cons_of_neg (by rw [hx]; exact Bool.false_ne_true)]
        simp only [SMap.get, if_neg hj, ih]

theorem SMap.get_filter_out {V : Type} (d : V) (p : Nat × V → Bool) (m : SMap V) (k : Nat) (hp : ∀ v, p (k, v) = false) :
    SMap.get d (m.filter p) k = d := by
  induction m with
  | nil => rfl
  | cons x m ih =>
    obtain ⟨j, v⟩ := x
    cases hx : p (j, v) with
    | true =>
      have hj : j ≠ k := by
        rintro rfl
        rw [hp v] at hx
        exact Bool.false_ne_true hx
      rw [List.filter_cons_of_pos hx]
      simp only [SMap.get, if_neg hj, ih]
    | false => rwa [List.filter_cons_of_neg (by rw [hx]; exact Bool.false_ne_true)]

theorem readByte_clearSpan (s : State) (lo hi a : Nat) :
    readByte (clearSpan s lo hi) a = if lo ≤ a ∧ a < hi then 0 else readByte s a := by
  unfold readByte clearSpan
  split
  next h => exact SMap.get_filter_out 0 _ s.mem a fun v => by simp; omega
  next h => exact SMap.get_filter_in 0 _ s.mem a fun v => by simp; omega

/-- A core is cleared: its registers and its whole memory. -/
def CoreCleared (u : Nat) (s : State) : Prop :=
  getE s u = {} ∧ ∀ a, corePa u 0 ≤ a → a < corePa u (64 * 0x30000) → readByte s a = 0

/-- What a core's release makes of the core's registers, whatever it clears in memory. -/
def releasedCore (d : Nat) (s : State) (u lo hi : Nat) : State :=
  if u < 0x40 then
    let e := getE s u
    if e.shared then
      let absent := e.absent.filter fun x => decide (x.1 < lo) || decide (hi ≤ x.1)
      if e.domF == some d then
        setE s u (if e.domB.isNone then {} else { e with fore := {}, domF := none, absent := absent })
      else setE s u (if e.domF.isNone then {} else { e with back := {}, domB := none, absent := absent })
    else setE s u {}
  else setC s (u - 0x40) {}

theorem releaseCore_eq (d : Nat) (s : State) (u : Nat) : releaseCore d s u =
    releasedCore d (clearSpan s (corePa u (64 * (ownLines s d u).1)) (corePa u (64 * (ownLines s d u).2))) u
      (ownLines s d u).1 (ownLines s d u).2 := rfl

theorem releasedCore_eland (d : Nat) (s : State) {u : Nat} (lo hi : Nat) (hu : u < 0x40) :
    ∃ e, releasedCore d s u lo hi = setE s u e ∧ ((getE s u).shared = false → e = {}) := by
  unfold releasedCore
  rw [if_pos hu]
  dsimp only
  split
  next hshared =>
    have hnot {e : Eland} (h : (getE s u).shared = false) : e = {} := absurd (hshared.symm.trans h) nofun
    split
    · exact ⟨_, rfl, hnot⟩
    · exact ⟨_, rfl, hnot⟩
  next => exact ⟨{}, rfl, fun _ => rfl⟩

theorem releasedCore_chamois (d : Nat) (s : State) {u : Nat} (lo hi : Nat) (hu : ¬ u < 0x40) :
    releasedCore d s u lo hi = setC s (u - 0x40) {} := if_neg hu

theorem releasedCore_mem (d : Nat) (s : State) (u lo hi : Nat) : (releasedCore d s u lo hi).mem = s.mem := by
  by_cases hu : u < 0x40
  · obtain ⟨e, he, -⟩ := releasedCore_eland d s lo hi hu
    rw [he, setE_mem]
  · rw [releasedCore_chamois d s lo hi hu, setC_mem]

theorem getE_releasedCore_other (d : Nat) (s : State) {u k : Nat} (lo hi : Nat) (h : u ≠ k) :
    getE (releasedCore d s u lo hi) k = getE s k := by
  by_cases hu : u < 0x40
  · obtain ⟨e, he, -⟩ := releasedCore_eland d s lo hi hu
    rw [he, getE_setE_other _ _ h]
  · rw [releasedCore_chamois d s lo hi hu, getE_setC]

/-- Releasing a core clears at most memory; what is zero stays zero. -/
theorem readByte_releaseCore (d : Nat) (s : State) (u a : Nat) (h : readByte s a = 0) : readByte (releaseCore d s u) a = 0 := by
  rw [releaseCore_eq, readByte_of_mem (releasedCore_mem ..), readByte_clearSpan]
  split
  · rfl
  · exact h

/-- An Eland core of the domain that it does not share is cleared by its release. -/
theorem coreCleared_releaseCore (d : Nat) {s : State} {u : Nat} (hu : u < 0x40) (hshared : (getE s u).shared = false) :
    CoreCleared u (releaseCore d s u) := by
  have hown : ownLines s d u = (0, 0x30000) := by
    simp only [ownLines, hu, hshared, coreLines, decide_true, Bool.and_false, Bool.false_eq_true, if_false, if_true]
  rw [releaseCore_eq, hown]
  obtain ⟨e, he, hclear⟩ := releasedCore_eland d (clearSpan s (corePa u (64 * 0)) (corePa u (64 * 0x30000))) 0 0x30000 hu
  refine ⟨?_, fun a hlo hhi => ?_⟩
  · rw [he, getE_setE_same]
    exact hclear hshared
  · rw [readByte_of_mem (releasedCore_mem ..), readByte_clearSpan, if_pos ⟨hlo, hhi⟩]

/-- A cleared core stays so while others are released. -/
theorem coreCleared_keeps (d : Nat) {s : State} {u : Nat} (k : Nat) (hu : u < 0x40) (h : CoreCleared u s) :
    CoreCleared u (releaseCore d s k) := by
  obtain ⟨hE, hmem⟩ := h
  by_cases hk : k = u
  · rw [hk]
    exact coreCleared_releaseCore d hu (by rw [hE])
  · refine ⟨?_, fun a hlo hhi => readByte_releaseCore d s k a (hmem a hlo hhi)⟩
    rw [releaseCore_eq, getE_releasedCore_other _ _ _ _ hk]
    exact hE

theorem shared_releaseCore (d : Nat) {s : State} {u : Nat} (k : Nat) (hu : u < 0x40) (h : (getE s u).shared = false) :
    (getE (releaseCore d s k) u).shared = false := by
  by_cases hk : k = u
  · rw [hk, (coreCleared_releaseCore d hu h).1]
  · rw [releaseCore_eq, getE_releasedCore_other _ _ _ _ hk]
    exact h

theorem coreCleared_foldl (d : Nat) {u : Nat} (hu : u < 0x40) (l : List Nat) (s : State) (hmem : u ∈ l)
    (hshared : (getE s u).shared = false) : CoreCleared u (l.foldl (releaseCore d) s) := by
  induction l generalizing s with
  | nil => exact absurd hmem List.not_mem_nil
  | cons k l ih =>
    rw [List.foldl_cons]
    obtain rfl | hmem := List.mem_cons.mp hmem
    · exact foldl_keeps (CoreCleared u) (releaseCore d) (fun t x h => coreCleared_keeps d x hu h) l _
        (coreCleared_releaseCore d hu hshared)
    · exact ih _ hmem (shared_releaseCore d k hu hshared)

/-- Only what a domain was granted beside its cores, and what it had on its way. -/
def OnlyFreed (s u : State) : Prop :=
  u = { s with engines := u.engines, phases := u.phases, streams := u.streams, dmas := u.dmas, xfers := u.xfers
               packets := u.packets, arrivals := u.arrivals, incrs := u.incrs, hbmq := u.hbmq, herd := u.herd, par := u.par
               outbox := u.outbox, snap := u.snap, doms := u.doms }

theorem onlyFreed_trans {s t u : State} (h : OnlyFreed s t) (k : OnlyFreed t u) : OnlyFreed s u := by
  rw [OnlyFreed] at h k ⊢
  rw [k, h]

theorem onlyFreed_foldl {α : Type} (f : State → α → State) (hf : ∀ t x, OnlyFreed t (f t x)) (l : List α) (s : State) :
    OnlyFreed s (l.foldl f s) :=
  foldl_keeps (OnlyFreed s) f (fun t x h => onlyFreed_trans h (hf t x)) l s rfl

theorem onlyFreed_freeTrees (s : State) (d : Nat) : OnlyFreed s (freeTrees s d) := by
  refine onlyFreed_foldl _ (fun t k => ?_) _ s
  rfl

theorem onlyFreed_freeGroups (s : State) (d : Nat) : OnlyFreed s (freeGroups s d) := by
  refine onlyFreed_foldl _ (fun t k => ?_) _ s
  rfl

theorem onlyFreed_abandonColls (l : List Nat) (s : State) : OnlyFreed s (l.foldl abandonColl s) := by
  rw [OnlyFreed, onlyColl_abandonColls]

/-- The cores of a domain. -/
def domainCores (s : State) (d : Nat) : List Nat := ((List.range 60).filter fun b => bit (getD s d).cores b).map bitUnit

theorem freeGrants_frame (s : State) (d : Nat) :
    OnlyFreed ((domainCores s d).foldl (releaseCore d) s) (freeGrants s d) ∧ (getD (freeGrants s d) d).st = .empty ∧
      (getD (freeGrants s d) d).cores = 0 := by
  unfold freeGrants
  extract_lets dd cores s1 s2 s3 s4 s5 s6
  have h2 : OnlyFreed s1 s2 := onlyFreed_foldl releasePart (fun _ _ => rfl) _ s1
  have h3 : OnlyFreed s2 s3 := rfl
  have h4 : OnlyFreed s3 s4 := onlyFreed_abandonColls _ s3
  have h5 : OnlyFreed s4 s5 := onlyFreed_trans (onlyFreed_freeTrees s4 d) (onlyFreed_freeGroups _ d)
  have h6 : OnlyFreed s5 s6 := onlyFreed_foldl (fun s e => setReg s e { getReg s e with valid := false }) (fun _ _ => rfl) _ s5
  have hend : OnlyFreed s1 s6 := onlyFreed_trans (onlyFreed_trans (onlyFreed_trans (onlyFreed_trans h2 h3) h4) h5) h6
  clear_value s6
  refine ⟨onlyFreed_trans hend rfl, ?_, ?_⟩
  · rw [getD_setD_same]
  · rw [getD_setD_same]

theorem releaseCore_lanes (d : Nat) (s : State) (u : Nat) : (releaseCore d s u).lanes = s.lanes := by
  rw [releaseCore_eq]
  by_cases hu : u < 0x40
  · obtain ⟨e, he, -⟩ := releasedCore_eland d (clearSpan s _ _) (ownLines s d u).1 (ownLines s d u).2 hu
    rw [he, setE_lanes]
    rfl
  · rw [releasedCore_chamois _ _ _ _ hu, setC_lanes]
    rfl

theorem stoppedEland_shared (d : Nat) (e : Eland) : (stoppedEland d e).shared = e.shared := by
  unfold stoppedEland
  dsimp only
  repeat' split
  all_goals rfl

/-- The domain's units as its release finds them: stopped, or cleared where no stop is on its way. -/
def releaseBegun (s : State) (d : Nat) : State := if (getD s d).stopDue then stopUnits s d else clearUnits s d

theorem releaseBegun_facts {s : State} {d : Nat} (hst : (getD s d).st ≠ .running) :
    (getD (releaseBegun s d) d).cores = (getD s d).cores ∧ (∀ u, (getE (releaseBegun s d) u).shared = (getE s u).shared) ∧
      ((getD s d).stopDue = false → (releaseBegun s d).lanes = s.lanes) := by
  unfold releaseBegun
  split
  next hdue =>
    refine ⟨?_, fun u => ?_, fun h => absurd (hdue.symm.trans h) nofun⟩
    · rw [getD_stopUnits s hst]
    · rw [getE_stopUnits, stoppedEland_shared]
  next =>
    refine ⟨?_, fun u => ?_, fun _ => ?_⟩
    · rw [getD_clearUnits s hst]
    · rw [getE_clearUnits, stoppedEland_shared]
    · rw [onlyCleared_clearUnits]
      rfl

/-- The states in which RELEASE frees a domain. -/
def releasable (x : DState) : Prop := x = .loaded ∨ x = .done ∨ x = .faulted ∨ x = .aborted

theorem releaseDomain_ok {s : State} {d : Nat} (h : releasable (getD s d).st) :
    releaseDomain s d = (0, freeGrants (releaseBegun s d) d) := by
  unfold releaseDomain
  obtain h | h | h | h := h <;> rw [h] <;> rfl

theorem releaseDomain_refused {s : State} {d : Nat} (h : ¬ releasable (getD s d).st) : releaseDomain s d = (5, s) := by
  unfold releaseDomain
  cases hst : (getD s d).st with
  | loaded => exact absurd (.inl hst) h
  | done => exact absurd (.inr (.inl hst)) h
  | faulted => exact absurd (.inr (.inr (.inl hst))) h
  | aborted => exact absurd (.inr (.inr (.inr hst))) h
  | _ => rfl

theorem exec_release {d : Nat} {s : State} (hd : d < 8) :
    exec (.release d) s = .next (gated s (domainCmd d) fun s => releaseDomain s d) := by
  have harm : exec (.release d) s = execRelease d s := rfl
  rw [harm, execRelease, if_neg (Nat.not_le.mpr hd)]

theorem mem_domainCores {s : State} {d u : Nat} (hu : u < 36) (h : bit (getD s d).cores u = true) : u ∈ domainCores s d :=
  List.mem_map.mpr ⟨u, List.mem_filter.mpr ⟨List.mem_range.mpr (by omega), h⟩, if_pos hu⟩

theorem domain_released {d : Nat} {s : State} (hd : d < 8) (hgate : gateOk s (domainCmd d) = true)
    (hst : releasable (getD s d).st) :
    ∃ t, exec (.release d) s = .next t ∧ t.wstatus = 0 ∧ (getD t d).st = .empty ∧ (getD t d).cores = 0 ∧
      ((getD s d).stopDue = false → t.lanes = s.lanes) ∧
      ∀ u, u < 36 → bit (getD s d).cores u = true → (getE s u).shared = false → getE t u = {} ∧
        ∀ a, corePa u 0 ≤ a → a < corePa u (64 * 0x30000) → readByte t a = 0 := by
  have hidle : (getD s d).st ≠ .running := by obtain h | h | h | h := hst <;> rw [h] <;> nofun
  obtain ⟨hcores, hshared, hlanes⟩ := releaseBegun_facts hidle
  obtain ⟨hframe, hempty, hnone⟩ := freeGrants_frame (releaseBegun s d) d
  refine ⟨_, (exec_release hd).trans (congrArg _ (gated_ok hgate (releaseDomain_ok hst))), rfl, ?_⟩
  generalize freeGrants (releaseBegun s d) d = t at hframe hempty hnone
  generalize releaseBegun s d = w at hcores hshared hlanes hframe
  refine ⟨hempty, hnone, fun hdue => ?_, fun u hu hbit hown => ?_⟩
  · have hfold : ((domainCores w d).foldl (releaseCore d) w).lanes = w.lanes :=
      foldl_keeps (fun t => t.lanes = w.lanes) (releaseCore d) (fun t x h => (releaseCore_lanes d t x).trans h) _ w rfl
    show t.lanes = s.lanes
    rw [hframe, ← hlanes hdue]
    exact hfold
  · obtain ⟨hE, hmem⟩ := coreCleared_foldl d (by omega) (domainCores w d) w
      (mem_domainCores hu (by rwa [hcores])) ((hshared u).trans hown)
    refine ⟨?_, fun a hlo hhi => ?_⟩
    · show getE t u = {}
      rw [hframe]
      exact hE
    · show readByte t a = 0
      rw [readByte_of_mem (s := (domainCores w d).foldl (releaseCore d) w) (by rw [hframe])]
      exact hmem a hlo hhi

theorem release_refused {d : Nat} {s : State} (hd : d < 8) (hgate : gateOk s (domainCmd d) = true)
    (hst : ¬ releasable (getD s d).st) : exec (.release d) s = .next { s with wstatus := 5 } := by
  rw [exec_release hd, gated_refused hgate (releaseDomain_refused hst) (by decide)]

/-! ### The five commands -/

theorem domain_loads {d : Nat} {s : State} (hd : d < 8) (hgate : gateOk s (domainCmd d) = true) (hst : (getD s d).st = .empty)
    (hclk : s.clk.runs = true) : exec (.load d) s = .next { loadImage s d with wstatus := 0 } := by
  rw [exec_load hd, gated_ok hgate (loadDomain_ok hst hclk)]

theorem domain_runs {d : Nat} {s : State} (hd : d < 8) (hgate : gateOk s (domainCmd d) = true) (hst : (getD s d).st = .loaded)
    (hclk : s.clk.runs = true) (hmatch : resumeMismatch s d = none) :
    ∃ t, exec (.run d) s = .next t ∧ SameMemory s t ∧ t.wstatus = 0 ∧ (getD t d).st = .running ∧ (getD t d).dcc = 0 ∧
      (getD t d).started = false ∧ ∃ t0, (getD t d).t0 = some t0 ∧ t0 % 64 = 0 ∧ s.ctc + 256 ≤ t0 ∧ t0 < s.ctc + 320 := by
  obtain ⟨t, hrun, hmem, hD, hdcc, hstarted, ht0⟩ := runDomain_ok hst hclk hmatch
  obtain ⟨hlo, hhi⟩ := ceilDiv_bounds (s.ctc + 256)
  exact ⟨_, (exec_run hd).trans (congrArg _ (gated_ok hgate hrun)), sameMemory_of_eq hmem, rfl, hD, hdcc, hstarted, _, ht0,
    by omega, hlo, by omega⟩

theorem domain_loads_and_runs {d : Nat} {s : State} (hd : d < 8) (hgate : gateOk s (domainCmd d) = true)
    (hst : (getD s d).st = .empty) (hclk : s.clk.runs = true) (hload : (getD (loadImage s d) d).st = .loaded)
    (hmatch : resumeMismatch (loadImage s d) d = none) :
    ∃ u, exec (.loadRun d) s = .next u ∧ u.wstatus = 0 ∧ (getD u d).st = .running := by
  obtain ⟨t, hrun, -, hD, -⟩ := runDomain_ok hload (by rw [(loadImage_cases s d).1]; exact hclk) hmatch
  refine ⟨_, (exec_loadRun hd).trans (congrArg _ (gated_ok hgate (loadRunDomain_loaded hst hclk hload))), rfl, ?_⟩
  rw [hrun]
  exact hD

/-- Settles O42: each command is gated, and then its own function's states are walked; a load ends LOADED or FAULTED, a run with
its T0, an abort with the units stopped, a release with the domain's own cores cleared. -/
theorem domainCommandsComplete : Obligations.DomainCommandsComplete := by
  unfold Obligations.DomainCommandsComplete
  intro d s hd hgate st
  refine ⟨fun h => ⟨?_, ?_⟩, fun hst hclk => ⟨domain_loads hd hgate hst hclk, (loadImage_cases s d).2,
      domain_loads_and_runs hd hgate hst hclk⟩, ?image, fun h => ?_, domain_runs hd hgate, domain_aborts hd hgate,
    abort_refused hd hgate, domain_released hd hgate, release_refused hd hgate⟩
  · rw [exec_load hd, gated_refused hgate (loadDomain_refused h) (by decide)]
  · rw [exec_loadRun hd, gated_refused hgate (loadRunDomain_refused h) (by decide)]
  case image =>
    intro s1 s2 head body hst hclk at_ s0 rest h1 h2 hcheck
    obtain ⟨hD, hcores, hmeasure⟩ := getD_placeImage s2 d (head ++ body) (linked s2 d (head ++ body))
    have himage := loadImage_of_checked h1 h2 hcheck
    refine ⟨_, domain_loads hd hgate hst hclk, rfl, ?_⟩
    rw [himage]
    exact ⟨hD, hcores, hmeasure⟩
  · rw [exec_run hd, gated_refused hgate (runDomain_refused h) (by decide)]

end Sys2Proof.Machine
end

