-- ==== Sys2Proof/Proofs/RefusedWrites.lean ====
section
/-!
SUPPORT. Writes that are refused, and writes before their function is ready (R387, R413, R425).
-/
namespace Sys2Proof.Machine

/-! ### A write is taken whole, or only its status is left -/

/-- The outcome of a write of a parameter: refused, it has changed nothing but its status; before its function is ready it is
refused. -/
def WriteHonest (s : State) (key : Nat) (t : State) : Prop :=
  (t.wstatus ≠ 0 → t = { s with wstatus := t.wstatus }) ∧ (gateOk s key = false → t.wstatus ≠ 0)

theorem writeHonest_status (s : State) (key : Nat) {st : Nat} (hst : st ≠ 0) : WriteHonest s key { s with wstatus := st } :=
  ⟨fun _ => rfl, fun _ => hst⟩

theorem writeHonest_noParam (s : State) (key : Nat) (readOnly : Bool) : WriteHonest s key (noParam s readOnly) :=
  writeHonest_status s key (by cases readOnly <;> decide)

/-- A write whose status is 00h only while its function is ready. -/
theorem writeHonest_wrote (s t : State) {key st : Nat} (hgate : gateOk s key = false → st ≠ 0) :
    WriteHonest s key (wrote s st t) := by
  unfold wrote
  by_cases hst : st = 0
  · rw [if_pos (beq_iff_eq.mpr hst)]
    exact ⟨fun h => absurd rfl h, fun h => absurd hst (hgate h)⟩
  · rw [if_neg (by simpa using hst)]
    exact writeHonest_status s key hst

theorem writeHonest_gated (s : State) (key : Nat) (f : State → Nat × State) : WriteHonest s key (gated s key f) := by
  refine writeHonest_wrote s (f s).2 (fun hgate => ?_)
  by_cases h0 : (f s).1 = 0 <;> simp [h0, hgate]

theorem writeHonest_ite {s a b : State} {key : Nat} (p : Prop) [Decidable p] (ha : WriteHonest s key a)
    (hb : WriteHonest s key b) : WriteHonest s key (if p then a else b) := by
  split <;> assumption

/-- Every state that an outcome passes to. -/
theorem writeHonest_of_next {s t u : State} {key : Nat} {o : Host.Outcome State Fault Refusal} (ho : o = .next t)
    (ht : WriteHonest s key t) (hu : o = .next u) : WriteHonest s key u := by
  obtain rfl : t = u := Host.Outcome.next.inj (ho.symm.trans hu)
  exact ht

theorem writeHonest_cvcConfig {s t : State} {c sub : Nat} {v : List Byte} (h : exec (.cvcConfigWrite c sub v) s = .next t) :
    WriteHonest s (cvcKey c sub) t := by
  refine writeHonest_of_next rfl ?_ h
  split
  · exact writeHonest_noParam ..
  · exact writeHonest_ite _ (writeHonest_status s _ (by decide)) (writeHonest_gated ..)

/-! ### The flush of page tables (R289) -/

theorem takeFirst_length {α : Type} {p : α → Bool} {l r : List α} {x : α} (h : takeFirst p l = some (x, r)) :
    l.length = r.length + 1 := by
  induction l generalizing r with
  | nil => exact absurd h nofun
  | cons a l ih =>
    rw [takeFirst] at h
    split at h
    · obtain ⟨rfl, rfl⟩ := Prod.mk.inj (Option.some.inj h)
      rfl
    · split at h
      · exact absurd h nofun
      next y r' hy =>
        obtain ⟨rfl, rfl⟩ := Prod.mk.inj (Option.some.inj h)
        rw [List.length_cons, List.length_cons, ih hy]

theorem flush_sendSession (s : State) (k : Nat) (m : SppMsg) : (sendSession s k m).spp.flush = s.spp.flush := by
  unfold sendSession
  extract_lets x m' t
  rw [onlyColl_emit]
  rfl

theorem flush_keepAnswer (s : State) (k : Nat) (m a : SppMsg) : (keepAnswer s k m a).spp.flush = s.spp.flush := by
  unfold keepAnswer
  dsimp only
  split <;> rfl

/-- A flush that begins, or is answered, changes the flushes that are due; any other write of the parameter is honest. -/
theorem writeHonest_ptFlush {s t : State} {v : Nat} (h : exec (.ptFlush v) s = .next t) (hkept : t.spp.flush = s.spp.flush) :
    WriteHonest s (pk 0x0812 0) t := by
  have harm : exec (.ptFlush v) s = execPtFlush v s := rfl
  rw [harm, execPtFlush] at h
  cases htake : takeFirst (fun f : FlushDue => f.arg == v) s.spp.flush with
  | none =>
    simp only [htake] at h
    by_cases hsame : (gated s (pk 0x0812 0) fun s => ptFlush s v).spp.flush = s.spp.flush
    · refine writeHonest_of_next rfl ?_ h
      rw [if_pos (beq_iff_eq.mpr hsame)]
      exact writeHonest_gated ..
    · rw [if_neg (mt beq_iff_eq.mp hsame)] at h
      obtain rfl := Host.Outcome.next.inj h
      exact absurd hkept hsame
  | some x =>
    obtain ⟨f, rest⟩ := x
    simp only [htake] at h
    split at h
    · exact absurd h nofun
    · obtain rfl := Host.Outcome.next.inj h
      have hshort : rest ≠ s.spp.flush := fun he => by
        have hlen := takeFirst_length htake
        rw [← he] at hlen
        omega
      refine absurd (Eq.trans (Eq.symm ?_) hkept) hshort
      split
      · rfl
      · split
        · rw [flush_keepAnswer, flush_sendSession]
        · rfl

/-! ### A write outside a message -/

theorem checkedWrite_gate {s : State} {key : Nat} (bs : List Byte) (hgate : gateOk s key = false) :
    (checkedWrite s key bs).1 ≠ 0 := by
  unfold checkedWrite
  dsimp only
  split
  next hst => exact hst
  next =>
    rw [hgate, Bool.not_false, if_pos rfl]
    exact Nat.succ_ne_zero 4

theorem writeHonest_registerWrite {s t : State} {key : Nat} {bs : List Byte} (h : exec (.registerWrite key bs) s = .next t) :
    WriteHonest s key t := by
  have harm : exec (.registerWrite key bs) s = execRegisterWrite key bs s := rfl
  rw [harm, execRegisterWrite] at h
  split at h
  · exact writeHonest_of_next rfl (writeHonest_status s key (by decide)) h
  · split at h
    · exact writeHonest_of_next rfl (writeHonest_status s key (by decide)) h
    · split at h
      · exact writeHonest_of_next rfl (writeHonest_status s key (by decide)) h
      · split at h
        · exact writeHonest_of_next rfl (writeHonest_status s key (by decide)) h
        · exact writeHonest_of_next rfl (writeHonest_wrote s _ (checkedWrite_gate bs)) h

/-! ### Every command that writes -/

theorem writeHonest_of_key {s t : State} {k key : Nat} (hkey : some k = some key) (h : WriteHonest s k t) : WriteHonest s key t :=
  Option.some.inj hkey ▸ h

theorem writeHonest_of_gated {s t : State} {k key : Nat} {f : State → Nat × State} (hkey : some k = some key)
    (h : (.next (gated s k f) : Host.Outcome State Fault Refusal) = .next t) : WriteHonest s key t :=
  writeHonest_of_key hkey (writeHonest_of_next rfl (writeHonest_gated ..) h)

/-- A write to an index that the table may not have. -/
theorem writeHonest_of_guarded {s t : State} {k key : Nat} {f : State → Nat × State} {readOnly : Bool} {p : Prop} [Decidable p]
    (hkey : some k = some key)
    (h : (.next (if p then noParam s readOnly else gated s k f) : Host.Outcome State Fault Refusal) = .next t) :
    WriteHonest s key t :=
  writeHonest_of_key hkey (writeHonest_of_next rfl (writeHonest_ite _ (writeHonest_noParam ..) (writeHonest_gated ..)) h)

/-- A write of bytes whose number may be wrong. -/
theorem writeHonest_of_sized {s t : State} {k key : Nat} {f : State → Nat × State} {p : Prop} [Decidable p]
    (hkey : some k = some key)
    (h : (if p then .next { s with wstatus := 3 } else .next (gated s k f) : Host.Outcome State Fault Refusal) = .next t) :
    WriteHonest s key t := by
  refine writeHonest_of_key hkey ?_
  split at h
  · exact writeHonest_of_next rfl (writeHonest_status s k (by decide)) h
  · exact writeHonest_of_next rfl (writeHonest_gated ..) h

theorem writeHonest_exec {i : Instr} {key : Nat} {s t : State} (hkey : gateKey i = some key) (h : exec i s = .next t)
    (hflush : ∀ v, i = .ptFlush v → t.spp.flush = s.spp.flush) : WriteHonest s key t := by
  cases i with
  | load d => exact writeHonest_of_guarded hkey h
  | run d => exact writeHonest_of_guarded hkey h
  | loadRun d => exact writeHonest_of_guarded hkey h
  | abort d => exact writeHonest_of_guarded hkey h
  | release d => exact writeHonest_of_guarded hkey h
  | rngStepWrite strand v => exact writeHonest_of_guarded hkey h
  | stashDomainWrite strand v => exact writeHonest_of_guarded hkey h
  | treeConfigWrite n sub v => exact writeHonest_of_guarded hkey h
  | mcastMembersWrite d g v => exact writeHonest_of_guarded hkey h
  | dataStepWrite strand v => exact writeHonest_of_guarded hkey h
  | resumeStepWrite strand v => exact writeHonest_of_guarded hkey h
  | portModeWrite port v => exact writeHonest_of_guarded hkey h
  | serviceClockWrite sub v => exact writeHonest_of_guarded hkey h
  | faultAck v => exact writeHonest_of_gated hkey h
  | haltResume slot => exact writeHonest_of_gated hkey h
  | haltFail slot => exact writeHonest_of_gated hkey h
  | dmaStart arg => exact writeHonest_of_gated hkey h
  | nanClear arg => exact writeHonest_of_gated hkey h
  | monClear arg => exact writeHonest_of_gated hkey h
  | monTensorWrite v => exact writeHonest_of_gated hkey h
  | nanPolicyWrite v => exact writeHonest_of_gated hkey h
  | gradFloorWrite v => exact writeHonest_of_gated hkey h
  | targetMhzWrite v => exact writeHonest_of_gated hkey h
  | startWarm arg => exact writeHonest_of_gated hkey h
  | testAck arg => exact writeHonest_of_gated hkey h
  | attestGenerate arg => exact writeHonest_of_gated hkey h
  | updateVerify arg => exact writeHonest_of_gated hkey h
  | recordGenerate arg => exact writeHonest_of_gated hkey h
  | sealExecute arg => exact writeHonest_of_gated hkey h
  | versionSelectedWrite v => exact writeHonest_of_gated hkey h
  | sessionClose arg => exact writeHonest_of_gated hkey h
  | registryEntryWrite v => exact writeHonest_of_sized hkey h
  | updateData v => exact writeHonest_of_sized hkey h
  | sealRequest v => exact writeHonest_of_sized hkey h
  | hostkeySlotWrite slot k =>
    refine writeHonest_of_key hkey (writeHonest_of_next rfl ?_ h)
    exact writeHonest_ite _ (writeHonest_noParam ..) (writeHonest_ite _ (writeHonest_status s _ (by decide)) (writeHonest_gated ..))
  | cvcConfigWrite c sub v => exact writeHonest_of_key hkey (writeHonest_cvcConfig h)
  | ptFlush v => exact writeHonest_of_key hkey (writeHonest_ptFlush h (hflush v rfl))
  | _ => exact absurd hkey nofun

/-- Settles O43: a refused write leaves its status alone, and is refused before its function is ready; PT_FLUSH through the
flushes that are due. -/
theorem refusedWritesChangeNothing : Obligations.RefusedWritesChangeNothing :=
  ⟨fun _ _ _ _ hkey h hflush => writeHonest_exec hkey h hflush, fun _ _ _ _ h => writeHonest_registerWrite h⟩

end Sys2Proof.Machine
end

