-- ==== Sys2Proof/Proofs/ParameterWrites.lean ====
section
/-!
SUPPORT. Writes of numeric controls, steps, Stash domains, trees, multicast groups, CVCs, registry entries and port modes.
-/
namespace Sys2Proof.Machine

/-! ### Reasoning rules of a stored parameter -/

theorem sameParamsBut_setP {s t : State} {keys : List Nat} {key v : Nat} (hkey : key ∈ keys) (hpar : t.par = s.par) :
    SameParamsBut keys s (setP t key v) := fun k hk => by
  rw [getP_setP_other _ _ (fun he : key = k => hk (he ▸ hkey))]
  exact congrArg (fun p => SMap.get (paramDefault k) p k) hpar

/-- A command whose effect is one parameter's value. -/
theorem write_stores {i : Instr} {s : State} {key v : Nat} (h : exec i s = .next { setP s key v with wstatus := 0 }) :
    ∃ t, exec i s = .next t ∧ t = { s with par := t.par, wstatus := 0 } ∧ getP t key = v ∧ SameParamsBut [key] s t :=
  ⟨_, h, rfl, getP_setP_same s key v, sameParamsBut_setP (t := s) (List.mem_singleton_self _) rfl⟩

/-- A guard that does not hold. -/
theorem write_ite {p : Prop} [Decidable p] {s a : State} (hp : ¬ p) :
    (.next (if p then s else a) : Host.Outcome State Fault Refusal) = .next a := by rw [if_neg hp]

/-- An unguarded parameter index. -/
theorem next_inRange {k n : Nat} {a b : State} (h : k < n) :
    (.next (if n ≤ k then a else b) : Host.Outcome State Fault Refusal) = .next b := by rw [if_neg (Nat.not_le.mpr h)]

/-! ### Numeric controls (R73, R74, R167, R168) -/

/-- Some parameters at their defaults. -/
def setDefaults (key : Nat → Nat) (l : List Nat) (s : State) : State :=
  l.foldl (fun s k => setP s (key k) (paramDefault (key k))) s

theorem setDefaults_cons (key : Nat → Nat) (k : Nat) (l : List Nat) (s : State) :
    setDefaults key (k :: l) s = setDefaults key l (setP s (key k) (paramDefault (key k))) := rfl

theorem getP_setDefaults (key : Nat → Nat) (l : List Nat) (s : State) (j : Nat) :
    getP (setDefaults key l s) j = if j ∈ l.map key then paramDefault j else getP s j := by
  induction l generalizing s with
  | nil => rfl
  | cons k l ih =>
    rw [setDefaults_cons, ih, List.map_cons]
    by_cases hl : j ∈ l.map key
    · rw [if_pos hl, if_pos (List.mem_cons_of_mem _ hl)]
    · rw [if_neg hl]
      by_cases hk : j = key k
      · rw [if_pos (List.mem_cons.mpr (.inl hk)), hk, getP_setP_same]
      · rw [if_neg (fun hm => (List.mem_cons.mp hm).elim hk hl), getP_setP_other _ _ (Ne.symm hk)]

theorem setDefaults_onlyPar (key : Nat → Nat) (l : List Nat) (s : State) :
    setDefaults key l s = { s with par := (setDefaults key l s).par } := by
  induction l generalizing s with
  | nil => rfl
  | cons k l ih => rw [setDefaults_cons, ih]; rfl

theorem nanClear_completes (s : State) (hgate : gateOk s (pk 0x0D30 7) = true) :
    ∃ t, exec (.nanClear 0) s = .next t ∧ t = { s with par := t.par, wstatus := 0 } ∧
      SameParamsBut ([1, 2, 3, 4, 5, 6].map (pk 0x0D30)) s t ∧
      ∀ k ∈ [1, 2, 3, 4, 5, 6], getP t (pk 0x0D30 k) = paramDefault (pk 0x0D30 k) := by
  have hclear : clearNans s 0 = (0, setDefaults (pk 0x0D30) [1, 2, 3, 4, 5, 6] s) := rfl
  have hget := getP_setDefaults (pk 0x0D30) [1, 2, 3, 4, 5, 6] s
  have honly := setDefaults_onlyPar (pk 0x0D30) [1, 2, 3, 4, 5, 6] s
  generalize setDefaults (pk 0x0D30) [1, 2, 3, 4, 5, 6] s = u at hclear hget honly
  refine ⟨_, congrArg Host.Outcome.next (gated_ok hgate hclear), ?_, fun j hj => (hget j).trans (if_neg hj),
    fun k hk => (hget _).trans (if_pos (List.mem_map_of_mem hk))⟩
  rw [honly]

theorem nextEpoch_bounds (s : State) : nextEpoch s % 4096 = 0 ∧ s.ctc < nextEpoch s ∧ nextEpoch s ≤ s.ctc + 4096 := by
  unfold nextEpoch
  omega

/-- The controls that wait for the next multiple of 4,096. -/
theorem nanPolicyWrite_completes (v : Nat) (s : State) (hgate : gateOk s (pk 0x0D20 0) = true) (hv : v < 2) :
    ∃ t e, exec (.nanPolicyWrite v) s = .next t ∧ SameMemory s t ∧ getP t (pk 0x0D20 0) = v ∧ nanPolicy t = nanPolicy s ∧
      t.nanPolAt = some e ∧ e % 4096 = 0 ∧ s.ctc < e ∧ e ≤ s.ctc + 4096 ∧ SameParamsBut [pk 0x0D20 0] s t := by
  obtain ⟨hmul, hlo, hhi⟩ := nextEpoch_bounds s
  have hwrite : writeNanPolicy s v = (0, setP { s with nanPol := nanPolicy s, nanPolAt := some (nextEpoch s) } (pk 0x0D20 0) v) :=
    if_neg (Nat.not_le.mpr hv)
  refine ⟨_, nextEpoch s, congrArg Host.Outcome.next (gated_ok hgate hwrite), fun _ => rfl, getP_setP_same _ _ v, ?_,
    rfl, hmul, hlo, hhi, sameParamsBut_setP (List.mem_singleton_self _) rfl⟩
  exact if_neg (Nat.not_le.mpr hlo)

theorem gradFloorWrite_completes (v : Nat) (s : State) (hgate : gateOk s (pk 0x0D10 0) = true) (hv : fmtValid v = true) :
    ∃ t e, exec (.gradFloorWrite v) s = .next t ∧ SameMemory s t ∧ getP t (pk 0x0D10 0) = v ∧ gradFloor t = gradFloor s ∧
      t.floorAt = some e ∧ e % 4096 = 0 ∧ s.ctc < e ∧ e ≤ s.ctc + 4096 ∧ SameParamsBut [pk 0x0D10 0] s t := by
  obtain ⟨hmul, hlo, hhi⟩ := nextEpoch_bounds s
  have hwrite : writeGradFloor s v = (0, setP { s with floor := gradFloor s, floorAt := some (nextEpoch s) } (pk 0x0D10 0) v) :=
    if_neg (by simp [hv])
  refine ⟨_, nextEpoch s, congrArg Host.Outcome.next (gated_ok hgate hwrite), fun _ => rfl, getP_setP_same _ _ v, ?_,
    rfl, hmul, hlo, hhi, sameParamsBut_setP (List.mem_singleton_self _) rfl⟩
  exact if_neg (Nat.not_le.mpr hlo)

/-! ### Steps and Stash domains (R79, R156, R355, R356) -/

theorem writeStep_ok {s : State} {strand v : Nat} (index : Nat) (hv : v < 2 ^ 48) (hrun : strandRuns s strand = false) :
    writeStep index s strand v = (0, setP s (pk index (strand + 1)) v) := by
  rw [writeStep, if_neg (Nat.not_le.mpr hv), hrun, if_neg Bool.false_ne_true]

theorem rngStepWrite_completes (strand v : Nat) (s : State) (hs : strand < 8) (hgate : gateOk s (pk 0x0D51 (strand + 1)) = true)
    (hv : v < 2 ^ 48) (hrun : strandRuns s strand = false) :
    ∃ t, exec (.rngStepWrite strand v) s = .next t ∧ t = { s with par := t.par, wstatus := 0 } ∧
      rngStep t strand = v ∧ SameParamsBut [pk 0x0D51 (strand + 1)] s t :=
  write_stores ((next_inRange hs).trans (congrArg _ (gated_ok hgate (writeStep_ok 0x0D51 hv hrun))))

theorem dataStepWrite_completes (strand v : Nat) (s : State) (hs : strand < 8) (hgate : gateOk s (pk 0x0C10 (strand + 1)) = true)
    (hv : v < 2 ^ 48) (hrun : strandRuns s strand = false) :
    ∃ t, exec (.dataStepWrite strand v) s = .next t ∧ t = { s with par := t.par, wstatus := 0 } ∧
      dataStep t strand = v ∧ SameParamsBut [pk 0x0C10 (strand + 1)] s t :=
  write_stores ((next_inRange hs).trans (congrArg _ (gated_ok hgate (writeStep_ok 0x0C10 hv hrun))))

theorem resumeStepWrite_completes (strand v : Nat) (s : State) (hs : strand < 8)
    (hgate : gateOk s (pk 0x0C20 (strand + 1)) = true) (hv : v < 2 ^ 48 ∨ v = 0xFFFFFFFFFFFFFFFF) :
    ∃ t, exec (.resumeStepWrite strand v) s = .next t ∧ t = { s with par := t.par, wstatus := 0 } ∧
      getP t (pk 0x0C20 (strand + 1)) = v ∧ SameParamsBut [pk 0x0C20 (strand + 1)] s t := by
  have hwrite : writeResume s strand v = (0, setP s (pk 0x0C20 (strand + 1)) v) :=
    if_neg (by simp; omega)
  exact write_stores ((next_inRange hs).trans (congrArg _ (gated_ok hgate hwrite)))

theorem getLane_emptyStrand_same (s : State) {strand p : Nat} (hp : p < 64) : getLane (emptyStrand s strand) strand p = [] :=
  SMap.get_filter_out [] _ s.lanes _ fun _ => decide_eq_false (not_not_intro (by omega))

theorem getLane_emptyStrand_other (s : State) {strand k p : Nat} (hk : k ≠ strand) (hp : p < 64) :
    getLane (emptyStrand s strand) k p = getLane s k p :=
  SMap.get_filter_in [] _ s.lanes _ fun _ => decide_eq_true (by omega)

theorem stashDomainWrite_completes (strand v : Nat) (s : State) (hs : strand < 8)
    (hgate : gateOk s (pk 0x0853 (strand + 1)) = true) (hv : v < 8 ∨ v = 0xFF) :
    ∃ t, exec (.stashDomainWrite strand v) s = .next t ∧ t.wstatus = 0 ∧ SameMemory s t ∧ getP t (pk 0x0853 (strand + 1)) = v ∧
      (∀ p, p < 64 → getLane t strand p = []) ∧ (∀ k p, k ≠ strand → p < 64 → getLane t k p = getLane s k p) ∧
      SameParamsBut [pk 0x0853 (strand + 1)] s t := by
  have hwrite : writeStashDomain s strand v = (0, setP (emptyStrand s strand) (pk 0x0853 (strand + 1)) v) :=
    if_neg (by simp only [Bool.and_eq_true, decide_eq_true_eq]; omega)
  exact ⟨_, (next_inRange hs).trans (congrArg _ (gated_ok hgate hwrite)), rfl, fun _ => rfl, getP_setP_same _ _ v,
    fun p hp => getLane_emptyStrand_same s hp, fun k p hk hp => getLane_emptyStrand_other s hk hp,
    sameParamsBut_setP (List.mem_singleton_self _) rfl⟩

/-! ### Trees and multicast groups (R242, R246) -/

/-- What a write to a tree leaves. -/
def treeWritten (s : State) (k sub v : Nat) : State :=
  let s' := setP s (pk (0x0910 + k) sub) v
  { setP s' (pk (0x0910 + k) 6) 0 with red := s'.red.filter (fun r => r.tree ≠ k), redSent := s'.redSent.filter fun x => x.1 / 64 ≠ k }

theorem writeTree_ok {s : State} {k sub v d : Nat} (hv : sub = 1 ∨ sub = 5 → v < 64 ∨ v = 0xFF) (hdom : treeDom s k = some d)
    (hfits : treeFits (setP s (pk (0x0910 + k) sub) v) d k = true) : writeTree s k sub v = (0, treeWritten s k sub v) := by
  have hrange : ((sub == 1 && 64 ≤ v && v ≠ 0xFF) || (sub == 5 && 64 ≤ v && v ≠ 0xFF)) = false := by
    by_cases hsub : sub = 1 ∨ sub = 5
    · rcases hv hsub with hlt | rfl
      · simp [Nat.not_le.mpr hlt]
      · simp
    · obtain ⟨h1, h5⟩ := not_or.mp hsub
      simp [h1, h5]
  simp only [writeTree, hrange, Bool.false_eq_true, if_false, hdom, hfits, Bool.not_true]
  rfl

theorem treeConfigWrite_completes (k sub v d : Nat) (s : State) (hk : k < 16) (hlo : 1 ≤ sub) (hhi : sub < 6)
    (hgate : gateOk s (pk (0x0910 + k) sub) = true) (hv : sub = 1 ∨ sub = 5 → v < 64 ∨ v = 0xFF) (hdom : treeDom s k = some d)
    (hfits : treeFits (setP s (pk (0x0910 + k) sub) v) d k = true) :
    ∃ t, exec (.treeConfigWrite k sub v) s = .next t ∧ t.wstatus = 0 ∧ SameMemory s t ∧ getP t (pk (0x0910 + k) sub) = v ∧
      getP t (pk (0x0910 + k) 6) = 0 ∧ SameParamsBut [pk (0x0910 + k) sub, pk (0x0910 + k) 6] s t ∧ ∀ r ∈ t.red, r.tree ≠ k := by
  have hguard : ¬ (16 ≤ k || sub == 0 || 6 ≤ sub) = true := by simp; omega
  have hkeys : pk (0x0910 + k) 6 ≠ pk (0x0910 + k) sub := by unfold pk; omega
  refine ⟨_, (write_ite hguard).trans (congrArg _ (gated_ok hgate (writeTree_ok hv hdom hfits))), rfl, fun _ => rfl,
    ?_, getP_setP_same _ _ 0, fun j hj => ?_, fun r hr => ?_⟩
  · exact (getP_setP_other _ 0 hkeys).trans (getP_setP_same s _ v)
  · obtain ⟨hsub, hsix⟩ := List.ne_and_not_mem_of_not_mem_cons hj
    exact (getP_setP_other _ 0 (Ne.symm (List.ne_of_not_mem_cons hsix))).trans (getP_setP_other s v (Ne.symm hsub))
  · exact of_decide_eq_true (List.mem_filter.mp hr).2

theorem mcastMembersWrite_completes (d g v : Nat) (s : State) (hd : d < 8) (hg : g < 4)
    (hgate : gateOk s (pk (0x0920 + d) (g + 1)) = true) (hst : (getD s d).st = .loaded)
    (hlive : ∀ p, p < 64 → bit v p = true → p ∈ livePositions s d) :
    ∃ t, exec (.mcastMembersWrite d g v) s = .next t ∧ t = { s with par := t.par, wstatus := 0 } ∧
      getP t (pk (0x0920 + d) (g + 1)) = v ∧ SameParamsBut [pk (0x0920 + d) (g + 1)] s t := by
  have hall : (setBits v).all (livePositions s d).contains = true := List.all_eq_true.mpr fun p hp => by
    obtain ⟨hp, hbit⟩ := List.mem_filter.mp hp
    exact List.contains_iff_mem.mpr (hlive p (List.mem_range.mp hp) hbit)
  have hwrite : writeMcast s d g v = (0, setP s (pk (0x0920 + d) (g + 1)) v) := if_neg (by simp [hst, hall])
  have hguard : ¬ (8 ≤ d || 4 ≤ g) = true := by simp; omega
  exact write_stores ((write_ite hguard).trans (congrArg _ (gated_ok hgate hwrite)))

/-! ### CVCs, the registry and ports (R312, R342, R459) -/

/-- A write to a CVC is refused, or its value stands. -/
theorem writeCvc_ok {s : State} {c sub x : Nat} (h : (writeCvc s c sub x).1 = 0) :
    writeCvc s c sub x = (0, setP s (cvcKey c sub) x) := by
  unfold writeCvc at h ⊢
  dsimp only at h ⊢
  split at h
  · exact absurd h (Nat.succ_ne_zero 3)
  next hrange =>
    rw [if_neg hrange]
    split at h
    · exact absurd h (Nat.succ_ne_zero 4)
    next hfits => rw [if_neg hfits]

theorem cvcConfigWrite_completes (c sub : Nat) (v : List Byte) (r : PRow) (s : State) (hc : c < 16) (hsub : sub ≤ 0x15)
    (hrow : paramRow (cvcKey c sub) = some r) (hlen : v.length = r.len) (hgate : gateOk s (cvcKey c sub) = true)
    (hok : (writeCvc s c sub (if sub == 8 then leNat v else beNat v)).1 = 0) :
    ∃ t, exec (.cvcConfigWrite c sub v) s = .next t ∧ t = { s with par := t.par, wstatus := 0 } ∧
      getP t (cvcKey c sub) = (if sub == 8 then leNat v else beNat v) ∧ SameParamsBut [cvcKey c sub] s t := by
  have harm : exec (.cvcConfigWrite c sub v) s = execCvcConfigWrite c sub v s := rfl
  have hguard : ¬ (16 ≤ c || 0x15 < sub) = true := by simp; omega
  refine write_stores (harm.trans ?_)
  simp only [execCvcConfigWrite, if_neg hguard, hrow]
  rw [if_neg (not_not_intro hlen), gated_ok hgate (writeCvc_ok hok)]

/-- What an entry of the registry holds after a write of it. -/
def regWritten (r : RegEntry) (v : Nat) : RegEntry :=
  let fresh := (bit v 0 && !r.valid) || decide (bits v 58 32 ≠ r.vpage) || decide (bits v 87 64 ≠ r.pages)
  { r with valid := bit v 0, dom := bits v 3 1, method := bits v 5 4, strand := bits v 10 8, tensor := bits v 31 12,
           vpage := bits v 58 32, pages := bits v 87 64, remote := bits v 111 88, full := r.full || fresh }

theorem writeRegistry_ok {s : State} {v : List Byte} (h : (writeRegistry s v).1 = 0) :
    writeRegistry s v = (0, setReg s (getP s (pk 0x0C30 1)) (regWritten (getReg s (getP s (pk 0x0C30 1))) (leNat v))) := by
  unfold writeRegistry at h ⊢
  dsimp only at h ⊢
  split at h
  · exact absurd h (Nat.succ_ne_zero 4)
  next hfree => rw [if_neg hfree]; rfl

theorem registryEntryWrite_completes (v : List Byte) (s : State) (hlen : v.length = 32) (hgate : gateOk s (pk 0x0C30 2) = true)
    (hok : (writeRegistry s v).1 = 0) :
    ∃ t, exec (.registryEntryWrite v) s = .next t ∧ t.wstatus = 0 ∧ SameMemory s t ∧ t.par = s.par ∧
      (getReg t (getP s (pk 0x0C30 1))).valid = bit (leNat v) 0 ∧ (getReg t (getP s (pk 0x0C30 1))).dom = bits (leNat v) 3 1 ∧
      (getReg t (getP s (pk 0x0C30 1))).vpage = bits (leNat v) 58 32 ∧
      (getReg t (getP s (pk 0x0C30 1))).pages = bits (leNat v) 87 64 ∧
      (getReg t (getP s (pk 0x0C30 1))).complete = (getReg s (getP s (pk 0x0C30 1))).complete ∧
      ∀ k, k ≠ getP s (pk 0x0C30 1) → getReg t k = getReg s k := by
  generalize he : getP s (pk 0x0C30 1) = e
  have hwrite := writeRegistry_ok hok
  rw [he] at hwrite
  have hentry : getReg { setReg s e (regWritten (getReg s e) (leNat v)) with wstatus := 0 } e = regWritten (getReg s e) (leNat v) :=
    getReg_setReg_same s e _
  have hexec : exec (.registryEntryWrite v) s =
      .next { setReg s e (regWritten (getReg s e) (leNat v)) with wstatus := 0 } := by
    have harm : exec (.registryEntryWrite v) s = execRegistryEntryWrite v s := rfl
    rw [harm, execRegistryEntryWrite, if_neg (not_not_intro hlen), gated_ok hgate hwrite]
  exact ⟨_, hexec, rfl, fun _ => rfl, rfl, congrArg RegEntry.valid hentry, congrArg RegEntry.dom hentry,
    congrArg RegEntry.vpage hentry, congrArg RegEntry.pages hentry, (congrArg RegEntry.complete hentry).trans rfl,
    fun k hk => getReg_setReg_other s _ (Ne.symm hk)⟩

/-- A port of which the mode is written: with another mode its link trains anew. -/
def portRetrained (s : State) (port v : Nat) : State :=
  setLink (setPort s port { getPort s port with attempts := 0, failed := false }) port (if v == 0 then 0 else 1)

theorem writePortMode_ok {s : State} {port v : Nat} (hv : v < 3) (hhost : v = 2 → port = hostPort)
    (hfree : port ≠ hostPort → ∀ d, d < 8 → usesPort s d port = false) :
    writePortMode s port v = (0, if v == getP s (portKey port 1) then setP s (portKey port 1) v
      else portRetrained (setP s (portKey port 1) v) port v) := by
  have hvalue : (decide (3 ≤ v) || (v == 2 && port ≠ hostPort)) = false := by
    simp only [Nat.not_le.mpr hv, decide_false, Bool.false_or, Bool.and_eq_false_iff, beq_eq_false_iff_ne]
    exact (Decidable.em (v = 2)).elim (fun h2 => .inr (decide_eq_false (not_not_intro (hhost h2)))) .inl
  have hused : ¬ (port ≠ hostPort ∧ ((List.range 8).any fun d => usesPort s d port) = true) := fun ⟨hport, hany⟩ => by
    obtain ⟨d, hd, huse⟩ := List.any_eq_true.mp hany
    exact Bool.false_ne_true ((hfree hport d (List.mem_range.mp hd)).symm.trans huse)
  unfold writePortMode
  rw [if_neg (by rw [hvalue]; exact Bool.false_ne_true), if_neg (by simpa using hused)]
  rfl

theorem portModeWrite_completes (port v : Nat) (s : State) (hport : port < 17) (hgate : gateOk s (portKey port 1) = true)
    (hv : v < 3) (hhost : v = 2 → port = hostPort) (hfree : port ≠ hostPort → ∀ d, d < 8 → usesPort s d port = false) :
    ∃ t, exec (.portModeWrite port v) s = .next t ∧ t.wstatus = 0 ∧ SameMemory s t ∧ getP t (portKey port 1) = v ∧
      (v ≠ getP s (portKey port 1) → linkOf t port = (if v = 0 then 0 else 1)) ∧
      SameParamsBut [portKey port 1, portKey port 0x0A] s t := by
  have hkeys : portKey port 0x0A ≠ portKey port 1 := by unfold portKey pk; split <;> omega
  have hwrite := writePortMode_ok hv hhost hfree
  by_cases hsame : v = getP s (portKey port 1)
  · rw [if_pos (beq_iff_eq.mpr hsame)] at hwrite
    exact ⟨_, (next_inRange hport).trans (congrArg _ (gated_ok hgate hwrite)), rfl, fun _ => rfl, getP_setP_same s _ v, fun hne => absurd hsame hne,
      sameParamsBut_setP (List.mem_cons_self ..) rfl⟩
  · rw [if_neg (by simpa using hsame)] at hwrite
    refine ⟨_, (next_inRange hport).trans (congrArg _ (gated_ok hgate hwrite)), rfl, fun _ => rfl, ?_, fun _ => ?_, fun j hj => ?_⟩
    · exact (getP_setP_other _ _ hkeys).trans (getP_setP_same s _ v)
    · refine (getP_setP_same _ _ _).trans ?_
      by_cases h0 : v = 0 <;> simp [h0]
    · obtain ⟨hmode, hlink⟩ := List.ne_and_not_mem_of_not_mem_cons hj
      exact (getP_setP_other _ _ (Ne.symm (List.ne_of_not_mem_cons hlink))).trans (getP_setP_other s v (Ne.symm hmode))

/-- Settles O45: each write passes its gate and its checks, and stores what it names. -/
theorem parameterWritesComplete : Obligations.ParameterWritesComplete :=
  ⟨nanClear_completes, nanPolicyWrite_completes, gradFloorWrite_completes, rngStepWrite_completes, dataStepWrite_completes,
    resumeStepWrite_completes, stashDomainWrite_completes,
    fun k sub v d s hk hlo hhi hgate hv hdom _ hfits => treeConfigWrite_completes k sub v d s hk hlo hhi hgate hv hdom hfits,
    mcastMembersWrite_completes,
    fun c sub v r s hc _ hsub hrow hlen hgate => cvcConfigWrite_completes c sub v r s hc hsub hrow hlen hgate,
    registryEntryWrite_completes, portModeWrite_completes⟩

end Sys2Proof.Machine
end

