-- ==== Sys2Proof/Proofs/RecordsAndHalts.lean ====
section
/-!
SUPPORT. Acknowledged records, dropped translations and their answers, and halts resumed or failed.
-/
namespace Sys2Proof.Machine

/-! ### Acknowledging records (R229) -/

theorem faultAck_completes (v : Nat) (s : State) (hgate : gateOk s (pk 0x0E00 4) = true) (hv : v < 0x10000) :
    ∃ t, exec (.faultAck v) s = .next t ∧ SameMemory s t ∧ t = { s with unacked := t.unacked, wstatus := 0 } ∧
      (∀ x, x ∈ t.unacked ↔ x ∈ s.unacked ∧ 64 ≤ (v + 0x10000 - SMap.get 0 s.logSeq x.1) % 0x10000) := by
  have hack : ackRecords s v = (0, { s with
      unacked := s.unacked.filter fun x => decide (64 ≤ (v + 0x10000 - SMap.get 0 s.logSeq x.1) % 0x10000) }) := if_neg (Nat.not_le.mpr hv)
  refine ⟨_, congrArg Host.Outcome.next (gated_ok hgate hack), fun _ => rfl, rfl, fun x => ?_⟩
  exact List.mem_filter.trans (and_congr_right fun _ => decide_eq_true_iff)

theorem faultAck_outOfRange (s : State) (hgate : gateOk s (pk 0x0E00 4) = true) (v : Nat) (hv : 0x10000 ≤ v) :
    exec (.faultAck v) s = .next { s with wstatus := 4 } := by
  have hack : ackRecords s v = (4, s) := if_pos hv
  exact congrArg Host.Outcome.next (gated_refused hgate hack (by decide))

/-! ### Dropped translations (R289) -/

theorem takeFirst_none {α : Type} {p : α → Bool} {l : List α} (h : ∀ x ∈ l, p x = false) : takeFirst p l = none := by
  induction l with
  | nil => rfl
  | cons x l ih =>
    have hx : p x = false := h x (List.mem_cons_self ..)
    have hl : takeFirst p l = none := ih fun y hy => h y (List.mem_cons_of_mem _ hy)
    simp only [takeFirst, hx, Bool.false_eq_true, if_false, hl]

/-- The entries that a flush drops. -/
def droppedKeys (s : State) (v : Nat) : List (Nat × Nat) :=
  (s.tlb.filter fun e => v == 0xFF || e.dom == v).map fun e => (e.dom, e.vpn)

/-- The flushes that are due after one. -/
def flushDue (s : State) (v : Nat) : Spp :=
  if keysBusy s (droppedKeys s v) then { s.spp with flush := s.spp.flush ++ [⟨v, droppedKeys s v, none⟩] } else s.spp

theorem ptFlush_ok {s : State} {v : Nat} (hv : v = 0xFF ∨ v < 8) :
    ptFlush s v = (0, { s with tlb := s.tlb.filter fun e => !(v == 0xFF || e.dom == v), spp := flushDue s v }) := by
  have hrange : ¬ (v ≠ 0xFF && decide (8 ≤ v)) = true := by simp; omega
  unfold ptFlush
  rw [if_neg hrange, List.partition_eq_filter_filter]
  rfl

/-- No flush of that argument is due: the write begins one. -/
theorem execPtFlush_new {s t : State} {v : Nat} (hnone : ∀ f ∈ s.spp.flush, f.arg ≠ v)
    (h : (gated s (pk 0x0812 0) fun s => ptFlush s v) = t) :
    exec (.ptFlush v) s = .next (if t.spp.flush == s.spp.flush then t else { t with wstatus := s.wstatus }) := by
  have harm : exec (.ptFlush v) s = execPtFlush v s := rfl
  have htake : takeFirst (fun f : FlushDue => f.arg == v) s.spp.flush = none :=
    takeFirst_none fun f hf => beq_eq_false_iff_ne.mpr (hnone f hf)
  rw [harm, execPtFlush, htake, ← h]

theorem ptFlush_completes (v : Nat) (s : State) (hgate : gateOk s (pk 0x0812 0) = true)
    (hnone : ∀ f ∈ s.spp.flush, f.arg ≠ v) (hv : v = 0xFF ∨ v < 8) :
    ∃ t, exec (.ptFlush v) s = .next t ∧ t = { s with tlb := t.tlb, spp := t.spp, wstatus := t.wstatus } ∧
      (∀ e, e ∈ t.tlb ↔ e ∈ s.tlb ∧ v ≠ 0xFF ∧ e.dom ≠ v) ∧
      (keysBusy s (droppedKeys s v) = false → t.spp = s.spp ∧ t.wstatus = 0) ∧
      (keysBusy s (droppedKeys s v) = true → t.wstatus = s.wstatus ∧
        t.spp = { s.spp with flush := s.spp.flush ++ [⟨v, droppedKeys s v, none⟩] }) := by
  have hexec := execPtFlush_new hnone (gated_ok hgate (ptFlush_ok hv))
  have hdrop : ∀ e, e ∈ s.tlb.filter (fun e => !(v == 0xFF || e.dom == v)) ↔ e ∈ s.tlb ∧ v ≠ 0xFF ∧ e.dom ≠ v := fun e => by
    simp [List.mem_filter]
  cases hbusy : keysBusy s (droppedKeys s v) with
  | false =>
    have hdue : flushDue s v = s.spp := if_neg (by rw [hbusy]; exact Bool.false_ne_true)
    simp only [hdue] at hexec
    rw [if_pos (beq_self_eq_true _)] at hexec
    exact ⟨_, hexec, rfl, hdrop, fun _ => ⟨rfl, rfl⟩, nofun⟩
  | true =>
    have hdue : flushDue s v = { s.spp with flush := s.spp.flush ++ [⟨v, droppedKeys s v, none⟩] } := if_pos hbusy
    have hmore : ¬ (s.spp.flush ++ [⟨v, droppedKeys s v, none⟩] == s.spp.flush) = true := by simp
    simp only [hdue] at hexec
    rw [if_neg hmore] at hexec
    exact ⟨_, hexec, rfl, hdrop, nofun, fun _ => ⟨rfl, rfl⟩⟩

theorem ptFlush_outOfRange (v : Nat) (s : State) (hgate : gateOk s (pk 0x0812 0) = true)
    (hnone : ∀ f ∈ s.spp.flush, f.arg ≠ v) (h8 : 8 ≤ v) (hall : v ≠ 0xFF) : exec (.ptFlush v) s = .next { s with wstatus := 4 } := by
  have hflush : ptFlush s v = (4, s) := if_pos (by simp [h8, hall])
  exact (execPtFlush_new hnone (gated_refused hgate hflush (by decide))).trans
    (congrArg Host.Outcome.next (if_pos (beq_self_eq_true s.spp.flush)))

theorem ptFlush_answers (v : Nat) (keys : List (Nat × Nat)) (rest : List FlushDue) (s : State)
    (hdue : s.spp.flush = ⟨v, keys, none⟩ :: rest) (hbusy : keysBusy s keys = false) :
    exec (.ptFlush v) s = .next { s with spp := { s.spp with flush := rest }, wstatus := 0 } := by
  have harm : exec (.ptFlush v) s = execPtFlush v s := rfl
  have htake : takeFirst (fun f : FlushDue => f.arg == v) s.spp.flush = some (⟨v, keys, none⟩, rest) := by
    rw [hdue]
    simp [takeFirst]
  simp only [harm, execPtFlush, htake, hbusy, Bool.false_eq_true, if_false]

/-! ### A failed halt (R273) -/

theorem haltFault_fields (s : State) (h : Halt) :
    (haltFault s h).code = 0x12 ∧ (haltFault s h).dom = some h.dom ∧ (haltFault s h).unit = h.unit ∧
      (haltFault s h).detail0 = h.va := by
  unfold haltFault
  cases h.who <;> exact ⟨rfl, rfl, rfl, rfl⟩

theorem haltFail_ok {s : State} {slot : Nat} {h : Halt} (hs : slot < 64) (hh : SMap.get none s.halts slot = some h) :
    haltFail s slot = (0, raise s (haltFault s h)) := by
  simp only [haltFail, if_neg (Nat.not_le.mpr hs), hh]

theorem haltFail_completes {slot : Nat} {s : State} {h : Halt} (hs : slot < 64) (hgate : gateOk s (pk 0x0710 4) = true)
    (hh : SMap.get none s.halts slot = some h) :
    ∃ t, exec (.haltFail slot) s = .next t ∧ SameMemory s t ∧ t.wstatus = 0 ∧ t.halts = s.halts ∧
      ((getD s h.dom).st.faultable = true → ∃ r, t.raised = s.raised ++ [r] ∧ r.code = 0x12 ∧ r.dom = some h.dom ∧
        r.unit = h.unit ∧ r.detail0 = h.va) := by
  obtain ⟨hcode, hdom, hunit, hva⟩ := haltFault_fields s h
  have hfail := haltFail_ok hs hh
  cases hst : (getD s h.dom).st.faultable with
  | true =>
    rw [raise_of_faultable hdom hst] at hfail
    exact ⟨_, congrArg Host.Outcome.next (gated_ok hgate hfail), fun _ => rfl, rfl, rfl,
      fun _ => ⟨_, rfl, hcode, hdom, hunit, hva⟩⟩
  | false =>
    rw [raise_of_not_faultable hdom hst] at hfail
    exact ⟨_, congrArg Host.Outcome.next (gated_ok hgate hfail), fun _ => rfl, rfl, rfl, nofun⟩

/-! ### Freed halt slots (R271, R273) -/

theorem haltResume_ok {s : State} {slot : Nat} {h : Halt} (hs : slot < 64) (hh : SMap.get none s.halts slot = some h) :
    haltResume s slot = (0, resumeWho (grantHalts (dropHalt s slot)) h.who) := by
  simp only [haltResume, if_neg (Nat.not_le.mpr hs), hh]

/-- What a freed slot leaves, but for the domain's state. -/
theorem dropHalt_fields {s : State} {slot : Nat} {h : Halt} (hh : SMap.get none s.halts slot = some h) :
    (dropHalt s slot).halts = SMap.set none s.halts slot none ∧ (dropHalt s slot).haltWait = s.haltWait ∧
      (dropHalt s slot).streams = s.streams ∧ (dropHalt s slot).dmas = s.dmas := by
  simp only [dropHalt, hh]
  split <;> exact ⟨rfl, rfl, rfl, rfl⟩

theorem dropHalt_frees {s : State} {slot : Nat} {h : Halt} (hh : SMap.get none s.halts slot = some h) :
    SMap.get none (dropHalt s slot).halts slot = none := by
  rw [(dropHalt_fields hh).1, SMap.get_set_same]

theorem grantHalts_none {s : State} (h : s.haltWait = []) : grantHalts s = s := by
  unfold grantHalts
  rw [h]
  show { s with haltWait := [] } = s
  rw [← h]

theorem freeHalt_some {s : State} {i : Nat} (h : freeHalt s = some i) : i < 64 ∧ SMap.get none s.halts i = none :=
  ⟨List.mem_range.mp (List.mem_of_find?_eq_some h), Option.isNone_iff_eq_none.mp (List.find?_some (p := fun i => (SMap.get none s.halts i).isNone) h)⟩

theorem freeHalt_none {s : State} (h : freeHalt s = none) {i : Nat} (hi : i < 64) : SMap.get none s.halts i ≠ none := fun hn =>
  absurd (Option.isNone_iff_eq_none.mpr hn) (List.find?_eq_none.mp h i (List.mem_range.mpr hi))

/-- With every slot taken, a freed slot is the one that is free. -/
theorem freeHalt_dropHalt {s : State} {slot : Nat} {h : Halt} (hs : slot < 64) (hh : SMap.get none s.halts slot = some h)
    (hfull : freeHalt s = none) : freeHalt (dropHalt s slot) = some slot := by
  cases hfree : freeHalt (dropHalt s slot) with
  | none => exact absurd (dropHalt_frees hh) (freeHalt_none hfree hs)
  | some i =>
    obtain ⟨hi, hnone⟩ := freeHalt_some hfree
    by_cases he : slot = i
    · rw [he]
    · rw [(dropHalt_fields hh).1, SMap.get_set_other _ _ _ _ _ he] at hnone
      exact absurd hnone (freeHalt_none hfull hi)

theorem placeHalt_halts (s : State) (i : Nat) (h : Halt) :
    (placeHalt s i h).halts = SMap.set none s.halts i (some { h with dcc := (getD s h.dom).dcc, seq := s.haltSeq }) := by
  unfold placeHalt
  extract_lets h' t u dd
  split <;> rfl

theorem placeHalt_streams (s : State) (i : Nat) (h : Halt) :
    (placeHalt s i h).streams = s.streams ∧ (placeHalt s i h).dmas = s.dmas := by
  unfold placeHalt
  extract_lets h' t u dd
  split <;> exact ⟨rfl, rfl⟩

theorem holdSlot_halts (s : State) (i : Nat) (who : Requester) : (holdSlot s i who).halts = s.halts := by
  cases who <;> rfl

/-- A slot that is taken stays with its halt. -/
theorem grantTo_keepsHalt {k : Halt} {slot : Nat} (l : List Halt) (s : State) (hk : SMap.get none s.halts slot = some k) :
    SMap.get none (grantTo l s).halts slot = some k := by
  induction l generalizing s with
  | nil => exact hk
  | cons h l ih =>
    rw [grantTo]
    split
    · exact ih s hk
    · split
      · exact hk
      next i hi =>
        have hne : i ≠ slot := by
          rintro rfl
          exact absurd ((freeHalt_some hi).2.symm.trans hk) nofun
        refine ih _ ?_
        rw [holdSlot_halts, placeHalt_halts, SMap.get_set_other _ _ _ _ _ hne]
        exact hk

/-- The first that waits takes the one slot that is free. -/
theorem grantTo_first {s : State} {w : Halt} {l : List Halt} {slot : Nat} (hfree : freeHalt s = some slot)
    (hwait : stillWaits s w.who = true) :
    ∃ k, SMap.get none (grantTo (w :: l) s).halts slot = some k ∧ k.who = w.who ∧ k.va = w.va := by
  refine ⟨{ w with dcc := (getD s w.dom).dcc, seq := s.haltSeq }, ?_, rfl, rfl⟩
  simp only [grantTo, hwait, Bool.not_true, Bool.false_eq_true, if_false, hfree]
  refine grantTo_keepsHalt l _ ?_
  rw [holdSlot_halts, placeHalt_halts, SMap.get_set_same]

/-! ### Requesters that go on (R273) -/

theorem holdSlot_states (s : State) (i : Nat) (who : Requester) :
    (∀ x, (getStream (holdSlot s i who) x).st = (getStream s x).st) ∧ ∀ c, (getDma (holdSlot s i who) c).st = (getDma s c).st := by
  cases who with
  | stream y =>
    refine ⟨fun x => ?_, fun c => rfl⟩
    by_cases hx : y = x
    · subst hx
      exact (congrArg Stream.st (getStream_setStream_same s y { getStream s y with halt := some i })).trans rfl
    · exact congrArg Stream.st (getStream_setStream_other _ _ hx)
  | op u tag => exact ⟨fun x => rfl, fun c => rfl⟩
  | dma k =>
    refine ⟨fun x => rfl, fun c => ?_⟩
    by_cases hc : k = c
    · subst hc
      exact (congrArg Dma.st (getDma_setDma_same s k { getDma s k with halt := some i })).trans rfl
    · exact congrArg Dma.st (getDma_setDma_other _ _ hc)

theorem grantTo_states (l : List Halt) (s : State) :
    (∀ x, (getStream (grantTo l s) x).st = (getStream s x).st) ∧ ∀ c, (getDma (grantTo l s) c).st = (getDma s c).st := by
  induction l generalizing s with
  | nil => exact ⟨fun x => rfl, fun c => rfl⟩
  | cons h l ih =>
    rw [grantTo]
    split
    · exact ih s
    · split
      · exact ⟨fun x => rfl, fun c => rfl⟩
      next i _ =>
        obtain ⟨hstreams, hdmas⟩ := placeHalt_streams s i h
        obtain ⟨hhold, hheld⟩ := holdSlot_states (placeHalt s i h) i h.who
        obtain ⟨hgrant, hgranted⟩ := ih (holdSlot (placeHalt s i h) i h.who)
        refine ⟨fun x => (hgrant x).trans ((hhold x).trans ?_), fun c => (hgranted c).trans ((hheld c).trans ?_)⟩
        · rw [getStream, hstreams]; rfl
        · rw [getDma, hdmas]; rfl

/-- The streams and channels as a freed slot leaves them. -/
theorem grantHalts_states {s : State} {slot : Nat} {h : Halt} (hh : SMap.get none s.halts slot = some h) :
    (∀ x, (getStream (grantHalts (dropHalt s slot)) x).st = (getStream s x).st) ∧
      ∀ c, (getDma (grantHalts (dropHalt s slot)) c).st = (getDma s c).st := by
  obtain ⟨-, -, hstreams, hdmas⟩ := dropHalt_fields hh
  obtain ⟨hgrant, hgranted⟩ := grantTo_states (dropHalt s slot).haltWait (dropHalt s slot)
  refine ⟨fun x => (hgrant x).trans ?_, fun c => (hgranted c).trans ?_⟩
  · rw [getStream, hstreams]; rfl
  · rw [getDma, hdmas]; rfl

theorem resumeWho_stream {t : State} {x : Nat} (h : (getStream t x).st = 2) :
    (getStream (resumeWho t (.stream x)) x).st = 1 ∧ (getStream (resumeWho t (.stream x)) x).halt = none := by
  have hgoes : resumeWho t (.stream x) = setStream t x { getStream t x with st := 1, halt := none } :=
    congrArg (setStream t x) (if_pos (beq_iff_eq.mpr h))
  rw [hgoes, getStream_setStream_same]
  exact ⟨rfl, rfl⟩

theorem resumeWho_dma {t : State} {c : Nat} (h : (getDma t c).st = 4) :
    (getDma (resumeWho t (.dma c)) c).st = 2 ∧ (getDma (resumeWho t (.dma c)) c).halt = none := by
  have hgoes : resumeWho t (.dma c) = setDma t c { getDma t c with st := 2, halt := none } :=
    congrArg (setDma t c) (if_pos (beq_iff_eq.mpr h))
  rw [hgoes, getDma_setDma_same]
  exact ⟨rfl, rfl⟩

theorem haltResume_completes {slot : Nat} {s : State} {h : Halt} (hs : slot < 64) (hgate : gateOk s (pk 0x0710 4) = true)
    (hh : SMap.get none s.halts slot = some h) :
    let t := grantHalts (dropHalt s slot)
    exec (.haltResume slot) s = .next { resumeWho t h.who with wstatus := 0 } ∧
    SMap.get none (dropHalt s slot).halts slot = none ∧
    (s.haltWait = [] → t = dropHalt s slot) ∧
    (∀ w r, freeHalt s = none → s.haltWait = w :: r → stillWaits (dropHalt s slot) w.who = true →
      ∃ k, SMap.get none t.halts slot = some k ∧ k.who = w.who ∧ k.va = w.va) ∧
    (∀ x, h.who = .stream x → (getStream s x).st = 2 →
      (getStream (resumeWho t h.who) x).st = 1 ∧ (getStream (resumeWho t h.who) x).halt = none) ∧
    (∀ ch, h.who = .dma ch → (getDma s ch).st = 4 →
      (getDma (resumeWho t h.who) ch).st = 2 ∧ (getDma (resumeWho t h.who) ch).halt = none) := by
  obtain ⟨-, hwait, -, -⟩ := dropHalt_fields hh
  obtain ⟨hstreams, hdmas⟩ := grantHalts_states hh
  refine ⟨congrArg Host.Outcome.next (gated_ok hgate (haltResume_ok hs hh)), dropHalt_frees hh,
    fun hnone => grantHalts_none (hwait.trans hnone), fun w r hfull hnext hstill => ?_, fun x hwho hst => ?_, fun ch hwho hst => ?_⟩
  · unfold grantHalts
    rw [hwait, hnext]
    exact grantTo_first (freeHalt_dropHalt hs hh hfull) hstill
  · rw [hwho]
    exact resumeWho_stream ((hstreams x).trans hst)
  · rw [hwho]
    exact resumeWho_dma ((hdmas ch).trans hst)

/-- A write that its checks refuse, whatever its gate. -/
theorem gated_conflict {s t : State} {key st : Nat} {f : State → Nat × State} (h : f s = (st, t)) (hst : st ≠ 0) :
    gated s key f = { s with wstatus := st } := by
  simp [gated, wrote, h, hst]

theorem freeSlot_conflicts (slot : Nat) (s : State) (hs : slot < 64) (hnone : SMap.get none s.halts slot = none) :
    exec (.haltResume slot) s = .next { s with wstatus := 5 } ∧ exec (.haltFail slot) s = .next { s with wstatus := 5 } := by
  have hresume : haltResume s slot = (5, s) := by simp only [haltResume, if_neg (Nat.not_le.mpr hs), hnone]
  have hfail : haltFail s slot = (5, s) := by simp only [haltFail, if_neg (Nat.not_le.mpr hs), hnone]
  exact ⟨congrArg Host.Outcome.next (gated_conflict hresume (by decide)),
    congrArg Host.Outcome.next (gated_conflict hfail (by decide))⟩

/-- Settles O46: acknowledges and flushes by their checks, a failed halt by its fault, a resumed one by the slot that it
frees and its requester. -/
theorem recordsHaltsComplete : Obligations.RecordsHaltsComplete :=
  ⟨faultAck_completes, faultAck_outOfRange,
    fun v s hgate hnone => ⟨ptFlush_completes v s hgate hnone, ptFlush_outOfRange v s hgate hnone⟩, ptFlush_answers,
    fun _ _ _ hs hgate hh => ⟨haltFail_completes hs hgate hh, haltResume_completes hs hgate hh⟩, freeSlot_conflicts⟩

end Sys2Proof.Machine
end

