-- ==== Sys2Proof/Proofs/DmaStarts.lean ====
section
/-!
SUPPORT. Starts, timers and completed transfers of DMA channels (R275 to R281).
-/
namespace Sys2Proof.Machine

/-! ### Starts (R276) -/

theorem startDma_idle {s : State} {ch : Nat} (hrun : (getD s (getDma s ch).dom).st.runs = true) (hst : (getDma s ch).st = 1) :
    startDma s ch = setDma s ch (freshRun (getDma s ch)) := by
  simp [startDma, hrun, hst]

theorem startDma_pending {s : State} {ch : Nat} (hrun : (getD s (getDma s ch).dom).st.runs = true)
    (hst : (getDma s ch).st = 2 ∨ (getDma s ch).st = 3 ∨ (getDma s ch).st = 4) :
    startDma s ch = setDma s ch { getDma s ch with pend := min ((getDma s ch).pend + 1) 255 } := by
  have hbusy : ((getDma s ch).st == 2 || (getDma s ch).st == 3 || (getDma s ch).st == 4) = true := by
    rcases hst with h | h | h <;> rw [h] <;> rfl
  have hidle : ((getDma s ch).st == 1) = false := by rcases hst with h | h | h <;> rw [h] <;> rfl
  simp only [startDma, hrun, Bool.not_true, hidle, hbusy, Bool.false_eq_true, if_false, if_true]

theorem sameMemory_startDma (s : State) (ch : Nat) : SameMemory s (startDma s ch) := by
  refine sameMemory_of_eq ?_
  unfold startDma
  dsimp only
  split
  · rfl
  · split
    · rfl
    · split <;> rfl

theorem startDma_effect (s : State) (ch : Nat) (hrun : (getD s (getDma s ch).dom).st.runs = true) :
    SameMemory s (startDma s ch) ∧
    ((getDma s ch).st = 1 → getDma (startDma s ch) ch = freshRun (getDma s ch) ∧ (getDma (startDma s ch) ch).pc = 0 ∧
      (getDma (startDma s ch) ch).st = 2 ∧ (getDma (startDma s ch) ch).prog = (getDma s ch).prog) ∧
    ((getDma s ch).st = 2 ∨ (getDma s ch).st = 3 ∨ (getDma s ch).st = 4 →
      getDma (startDma s ch) ch = { getDma s ch with pend := min ((getDma s ch).pend + 1) 255 }) := by
  refine ⟨sameMemory_startDma s ch, fun hst => ?_, fun hst => ?_⟩
  · rw [startDma_idle hrun hst, getDma_setDma_same]
    exact ⟨rfl, rfl, rfl, rfl⟩
  · rw [startDma_pending hrun hst, getDma_setDma_same]

theorem dmaStart_starts (s : State) (hgate : gateOk s (pk 0x0730 5) = true) :
    exec (.dmaStart 0) s = .next { startDma s (dmaSelect s) with wstatus := 0 } :=
  congrArg Host.Outcome.next (gated_ok hgate (if_neg (not_not_intro rfl)))

/-! ### Triggers (R276) -/

theorem isChannel {ch : Nat} (hch : ch < 256) : ¬ numDma ≤ ch := Nat.not_le.mpr hch

theorem dmaTriggerRun_starts (ch : Nat) (s : State) (hch : ch < 256) (htrig : (getDma s ch).trig = 1)
    (hhit : (getDma s ch).runHit = true) :
    exec (.dmaTriggerRun ch) s = .next (startDma (setDma s ch { getDma s ch with runHit := false }) ch) := by
  have harm : exec (.dmaTriggerRun ch) s = execDmaTriggerRun ch s := rfl
  rw [harm, execDmaTriggerRun, if_neg (isChannel hch), if_neg (by simp [htrig, hhit])]

theorem dmaTriggerTime_starts (ch : Nat) (s : State) (hch : ch < 256) (htrig : (getDma s ch).trig = 2)
    (hhit : (getDma s ch).trigHit = false) :
    exec (.dmaTriggerTime ch) s = .next (startDma (setDma (advance (ptpTicks s (getDma s ch).trigAt) s) ch
      { getDma s ch with trigHit := true }) ch) := by
  have harm : exec (.dmaTriggerTime ch) s = execDmaTriggerTime ch s := rfl
  rw [harm, execDmaTriggerTime, if_neg (isChannel hch), if_neg (by simp [htrig, hhit])]

theorem ctc_toCtc_of_quiet {s : State} (hclk : s.clk.runs = true) (hquiet : quiet s = true) (t : Nat) :
    (toCtc t s).ctc = max s.ctc t := by
  unfold toCtc
  by_cases h0 : t ≤ s.ctc
  · rw [Nat.sub_eq_zero_of_le h0, advance_zero s hclk, Nat.max_eq_left h0]
  · rw [ctc_advance_of_quiet hclk hquiet (Nat.sub_pos_of_lt (Nat.not_le.mp h0))]
    omega

theorem dmaTriggerCtc_starts (ch : Nat) (s : State) (hch : ch < 256) (htrig : (getDma s ch).trig = 3)
    (hhit : (getDma s ch).trigHit = false) :
    exec (.dmaTriggerCtc ch) s = .next (startDma (setDma (toCtc (getDma s ch).trigAt s) ch
      { getDma s ch with trigHit := true }) ch) := by
  have harm : exec (.dmaTriggerCtc ch) s = execDmaTriggerCtc ch s := rfl
  rw [harm, execDmaTriggerCtc, if_neg (isChannel hch), if_neg (by simp [htrig, hhit])]

theorem dmaTriggerChannel_starts (ch : Nat) (s : State) (hch : ch < 256) (htrig : (getDma s ch).trig = 4)
    (hhit : 0 < (getDma s ch).haltHit) :
    exec (.dmaTriggerChannel ch) s =
      .next (startDma (setDma s ch { getDma s ch with haltHit := (getDma s ch).haltHit - 1 }) ch) := by
  have harm : exec (.dmaTriggerChannel ch) s = execDmaTriggerChannel ch s := rfl
  rw [harm, execDmaTriggerChannel, if_neg (isChannel hch), if_neg (by simp [htrig]; omega)]

/-! ### The timer of a WAIT (R279) -/

/-- The time at which a channel's timer fires. -/
def timerFires (s : State) (x : Dma) : State := if x.tBase = 0 then advance (ptpTicks s x.timer) s else toCtc x.timer s

theorem dmaTimerExpiry_fires (ch : Nat) (s : State) (hch : ch < 256) (hst : (getDma s ch).st = 3)
    (hop : opcodeOf (SMap.get 0 (getDma s ch).prog (getDma s ch).pc) = 0x04)
    (hev : dmWaitEvent (SMap.get 0 (getDma s ch).prog (getDma s ch).pc) = false) (harmed : (getDma s ch).armed = false)
    (htiming : (getDma s ch).timing = true) :
    exec (.dmaTimerExpiry ch) s = .next (setDma (timerFires s (getDma s ch)) ch
      { getDma (timerFires s (getDma s ch)) ch with armed := true }) := by
  have harm : exec (.dmaTimerExpiry ch) s = execDmaTimerExpiry ch s := rfl
  rw [harm, execDmaTimerExpiry, if_neg (isChannel hch), if_neg (by simp [hst, hop, hev, harmed, htiming])]
  simp only [beq_iff_eq]
  rfl

theorem count_dmas (k : Nat) (s : State) : (count k s).dmas = s.dmas := by
  simp only [count]
  generalize hu : State.mk .. = u
  obtain ⟨_, _, _, _, h⟩ := addTime_eq (k * 1000) u
  rw [h, ← hu]

theorem getDma_advance_of_quiet {s : State} (hclk : s.clk.runs = true) (hquiet : quiet s = true) (k ch : Nat) :
    getDma (advance k s) ch = getDma s ch := by
  rcases Nat.eq_zero_or_pos k with rfl | hk
  · rw [advance_zero s hclk]
  · rw [advance_of_quiet hclk hquiet hk]
    exact congrArg (fun m => SMap.get {} m ch) (count_dmas k s)

theorem timerFires_of_quiet {s : State} (hclk : s.clk.runs = true) (hquiet : quiet s = true) (ch : Nat) :
    getDma (timerFires s (getDma s ch)) ch = getDma s ch ∧
      ((getDma s ch).tBase ≠ 0 → (timerFires s (getDma s ch)).ctc = max s.ctc (getDma s ch).timer) := by
  unfold timerFires
  by_cases hbase : (getDma s ch).tBase = 0
  · rw [if_pos hbase]
    exact ⟨getDma_advance_of_quiet hclk hquiet _ ch, fun hne => absurd hbase hne⟩
  · rw [if_neg hbase]
    exact ⟨getDma_advance_of_quiet hclk hquiet _ ch, fun _ => ctc_toCtc_of_quiet hclk hquiet _⟩

/-! ### The oldest transfer (R279) -/

section
variable {ch : Nat} {s : State} {x : DmaXfer} {rest : List DmaXfer}

/-- The oldest transfer of a channel that runs, with every answer there. -/
theorem dmaTransferComplete_of_head (hch : ch < 256) (hx : (getDma s ch).xfers = x :: rest)
    (hst : (getDma s ch).st = 2 ∨ (getDma s ch).st = 3) (hrun : (getD s (getDma s ch).dom).st.runs = true) (hwait : x.wait = 0) :
    exec (.dmaTransferComplete ch) s = if x.wrote then .next (headEdges (setDma s ch { getDma s ch with
        xfers := rest, bytes := satAdd 64 (getDma s ch).bytes (if x.src == crcSource then 0 else x.rows * x.bytes) }) ch)
      else .next (dmaMove s ch x) := by
  have harm : exec (.dmaTransferComplete ch) s = execDmaTransferComplete ch s := rfl
  have hlast : ((getDma s ch).st == 5 && (getD s (getDma s ch).dom).st == .done) = false := by
    rcases hst with h | h <;> rw [h] <;> rfl
  have hruns : ((getDma s ch).st == 2 || (getDma s ch).st == 3) = true := by rcases hst with h | h <;> rw [h] <;> rfl
  simp only [harm, execDmaTransferComplete, if_neg (isChannel hch), hx, hlast, hruns, hrun, hwait, Bool.not_true,
    Bool.not_false, Bool.or_false, Bool.and_false, Bool.false_eq_true, if_false, ne_eq, not_true_eq_false]

theorem dmaMove_toHost {data : List (Byte × Bool)} {u : State} (hsrc : dmaSource x (getDma s ch).dom s = (.ok data, u))
    (hspace : opSpace x.dst = 1) : dmaMove s ch x = dmaToHost u ch x data := by
  simp only [dmaMove, hsrc, hspace, beq_self_eq_true, if_true]

theorem dmaMove_toCore {data : List (Byte × Bool)} {u : State} (hsrc : dmaSource x (getDma s ch).dom s = (.ok data, u))
    (hspace : opSpace x.dst = 2) : dmaMove s ch x = dmaToCore u ch x (getDma s ch).dom data := by
  simp [dmaMove, hsrc, hspace]

/-- The channel once a transfer's data is in device memory. -/
def moved (y : Dma) (x : DmaXfer) (data : List (Byte × Bool)) : Dma :=
  let z := if x.crc then absorb y data else y
  { z with xfers := z.xfers.drop 1, bytes := satAdd 64 z.bytes (if x.src == crcSource then 0 else data.length) }

theorem moved_fields (y : Dma) (x : DmaXfer) (data : List (Byte × Bool)) :
    (moved y x data).xfers = y.xfers.drop 1 ∧
      (moved y x data).bytes = satAdd 64 y.bytes (if x.src == crcSource then 0 else data.length) := by
  unfold moved
  cases x.crc <;> exact ⟨rfl, rfl⟩

theorem dmaMove_toDevice {data : List (Byte × Bool)} {u v : State} (hsrc : dmaSource x (getDma s ch).dom s = (.ok data, u))
    (hhost : opSpace x.dst ≠ 1) (hcore : opSpace x.dst ≠ 2)
    (hstore : storeRows x (getDma s ch).dom data (List.range x.rows) u = (.ok data, v)) :
    dmaMove s ch x = headEdges (setDma v ch (moved (getDma v ch) x data)) ch := by
  have hhost' : (opSpace x.dst == 1) = false := beq_eq_false_iff_ne.mpr hhost
  have hcore' : (opSpace x.dst == 2) = false := beq_eq_false_iff_ne.mpr hcore
  simp only [dmaMove, hsrc, hhost', hcore', Bool.false_eq_true, if_false, hstore]
  rfl

theorem dmaTransferComplete_completes (hch : ch < 256) (hx : (getDma s ch).xfers = x :: rest)
    (hst : (getDma s ch).st = 2 ∨ (getDma s ch).st = 3) (hrun : (getD s (getDma s ch).dom).st.runs = true) (hwait : x.wait = 0) :
    (x.wrote = true → exec (.dmaTransferComplete ch) s = .next (headEdges (setDma s ch { getDma s ch with
      xfers := rest, bytes := satAdd 64 (getDma s ch).bytes (if x.src == crcSource then 0 else x.rows * x.bytes) }) ch)) ∧
    (x.wrote = false → ∀ data u, dmaSource x (getDma s ch).dom s = (.ok data, u) →
      (opSpace x.dst = 1 → exec (.dmaTransferComplete ch) s = .next (dmaToHost u ch x data)) ∧
      (opSpace x.dst = 2 → exec (.dmaTransferComplete ch) s = .next (dmaToCore u ch x (getDma s ch).dom data)) ∧
      (opSpace x.dst ≠ 1 → opSpace x.dst ≠ 2 → ∀ v,
        storeRows x (getDma s ch).dom data (List.range x.rows) u = (.ok data, v) →
        ∃ t, exec (.dmaTransferComplete ch) s = .next (headEdges t ch) ∧ SameMemory v t ∧
          (getDma t ch).xfers = (getDma v ch).xfers.drop 1 ∧
          (getDma t ch).bytes = satAdd 64 (getDma v ch).bytes (if x.src == crcSource then 0 else data.length))) := by
  have hexec := dmaTransferComplete_of_head hch hx hst hrun hwait
  refine ⟨fun hwrote => hexec.trans (if_pos hwrote), fun hwrote data u hsrc => ?_⟩
  have hmove := hexec.trans (if_neg (by rw [hwrote]; exact Bool.false_ne_true))
  refine ⟨fun hspace => hmove.trans (congrArg _ (dmaMove_toHost hsrc hspace)),
    fun hspace => hmove.trans (congrArg _ (dmaMove_toCore hsrc hspace)), fun hhost hcore v hstore => ?_⟩
  obtain ⟨hxfers, hbytes⟩ := moved_fields (getDma v ch) x data
  have hchannel := getDma_setDma_same v ch (moved (getDma v ch) x data)
  exact ⟨_, hmove.trans (congrArg _ (dmaMove_toDevice hsrc hhost hcore hstore)), fun _ => rfl,
    (congrArg Dma.xfers hchannel).trans hxfers, (congrArg Dma.bytes hchannel).trans hbytes⟩

end

/-- Settles O47: each start by its guard and `startDma`, the timer by the time that it lets pass, the oldest transfer by the
space that it goes to. -/
theorem dmaStartsComplete : Obligations.DmaStartsComplete :=
  ⟨startDma_effect, dmaStart_starts, dmaTriggerRun_starts, dmaTriggerTime_starts,
    fun ch s hch htrig hhit => ⟨dmaTriggerCtc_starts ch s hch htrig hhit, fun hclk hquiet => ctc_toCtc_of_quiet hclk hquiet _⟩,
    dmaTriggerChannel_starts,
    fun ch s hch hst hop hev harmed htiming => ⟨dmaTimerExpiry_fires ch s hch hst hop hev harmed htiming,
      fun hclk hquiet => timerFires_of_quiet hclk hquiet ch⟩,
    fun _ _ _ _ hch hx hst hrun hwait => dmaTransferComplete_completes hch hx hst hrun hwait⟩

end Sys2Proof.Machine
end

