-- ==== Sys2Proof/Proofs/DmaInstructions.lean ====
section
/-!
SUPPORT. The instructions of a DMA channel (R276 to R281), and what requests that are sent to a host leave alone.
-/
namespace Sys2Proof.Machine

/-! ### What sending requests leaves alone -/

/-- Only flows, what is sent, and parameters. -/
def OnlySent (s u : State) : Prop := u = { s with ports := u.ports, herd := u.herd, par := u.par, outbox := u.outbox }

theorem onlySent_refl (s : State) : OnlySent s s := rfl

theorem onlySent_trans {s t u : State} (h : OnlySent s t) (k : OnlySent t u) : OnlySent s u := by
  rw [OnlySent] at h k ⊢
  rw [k, h]

theorem onlySent_of_onlyColl {s u : State} (h : OnlyColl s u) : OnlySent s u := by
  rw [OnlyColl] at h
  rw [OnlySent, h]

theorem onlySent_setFlow (s : State) (fl : Nat) (f : HFlow) : OnlySent s (setFlow s fl f) := rfl

theorem onlySent_emitReq (s : State) (fl : Nat) (r : HReq) : OnlySent s (emitReq s fl r) :=
  onlySent_of_onlyColl (onlyColl_emit ..)

theorem onlySent_pumpFlow (fl n : Nat) (s : State) : OnlySent s (pumpFlow fl n s) := by
  induction n generalizing s with
  | zero => rfl
  | succ n ih =>
    rw [pumpFlow]
    dsimp only
    split
    · rfl
    · split
      · rfl
      · exact onlySent_trans (onlySent_trans (onlySent_setFlow ..) (onlySent_emitReq ..)) (ih _)

theorem onlySent_sendReqs (s : State) (fl : Nat) (rs : List HReq) : OnlySent s (sendReqs s fl rs) :=
  onlySent_trans (onlySent_setFlow ..) (onlySent_pumpFlow ..)

theorem sameMemory_of_onlySent {s u : State} (h : OnlySent s u) : SameMemory s u := by
  rw [h]
  exact fun _ => rfl

theorem getDma_of_onlySent {s u : State} (h : OnlySent s u) (ch : Nat) : getDma u ch = getDma s ch := by
  rw [h]
  rfl

/-! ### Which instruction is next (R277, R280) -/

/-- The word at a channel's place. -/
def dmaNextWord (s : State) (ch : Nat) : Nat := SMap.get 0 (getDma s ch).prog (getDma s ch).pc

/-- A channel that runs, at a word of its program. -/
structure DmaTurn (s : State) (ch : Nat) : Prop where
  isChannel : ch < 256
  runs : (getDma s ch).st = 2 ∨ (getDma s ch).st = 3
  domain : (getD s (getDma s ch).dom).st.runs = true
  inProgram : (getDma s ch).pc < 256

section
variable {s : State} {ch : Nat} (hturn : DmaTurn s ch)
include hturn

theorem issueDma_next (op : Nat) (fx : Nat → Dma → State → State) :
    issueDma op ch fx s =
      if opcodeOf (dmaNextWord s ch) ≠ op && dmaOps.contains (opcodeOf (dmaNextWord s ch)) then
        .refused (.notEnabled "another instruction is next")
      else if dmaReserved (dmaNextWord s ch) then .next (dmaProgFault s ch (getDma s ch).pc (dmaNextWord s ch))
      else .next (fx (dmaNextWord s ch) { getDma s ch with st := 2 } s) := by
  have hruns : ((getDma s ch).st == 2 || (getDma s ch).st == 3) = true := by
    rcases hturn.runs with h | h <;> rw [h] <;> rfl
  have hpc : ¬ 255 < (getDma s ch).pc := Nat.not_lt.mpr (Nat.le_of_lt_succ hturn.inProgram)
  simp only [issueDma, if_neg (isChannel hturn.isChannel), hruns, hturn.domain, Bool.not_true, Bool.or_self, Bool.false_eq_true,
    if_false, if_neg hpc]
  rfl

/-- A word that no instruction has. -/
theorem issueDma_unassigned (op : Nat) (fx : Nat → Dma → State → State)
    (hno : dmaOps.contains (opcodeOf (dmaNextWord s ch)) = false) :
    issueDma op ch fx s = .next (dmaProgFault s ch (getDma s ch).pc (dmaNextWord s ch)) := by
  have hreserved : dmaReserved (dmaNextWord s ch) = true := by
    unfold dmaReserved
    generalize opcodeOf (dmaNextWord s ch) = o at hno
    split <;> simp_all [dmaOps]
  rw [issueDma_next hturn, hno, hreserved, Bool.and_false, if_neg Bool.false_ne_true, if_pos rfl]

/-- The instruction whose turn it is. -/
theorem issueDma_takes {op : Nat} {fx : Nat → Dma → State → State} (hop : opcodeOf (dmaNextWord s ch) = op)
    (hfree : dmaReserved (dmaNextWord s ch) = false) :
    issueDma op ch fx s = .next (fx (dmaNextWord s ch) { getDma s ch with st := 2 } s) := by
  rw [issueDma_next hturn, hop, hfree]
  simp

/-- Another instruction is next. -/
theorem issueDma_other {op : Nat} {fx : Nat → Dma → State → State} (hop : opcodeOf (dmaNextWord s ch) ≠ op)
    (hknown : dmaOps.contains (opcodeOf (dmaNextWord s ch)) = true) :
    issueDma op ch fx s = .refused (.notEnabled "another instruction is next") := by
  rw [issueDma_next hturn, hknown, Bool.and_true, if_pos (decide_eq_true hop)]

theorem dmaInstructions_unassigned (hno : dmaOps.contains (opcodeOf (dmaNextWord s ch)) = false) :
    ∀ i ∈ [Instr.dmaNop ch, .dmaHalt ch, .dmaLoop ch, .endloop ch, .wait ch, .dmaSignal ch, .timer ch, .crcstore ch, .move ch,
      .move2d ch], exec i s = .next (dmaProgFault s ch (getDma s ch).pc (dmaNextWord s ch)) := by
  simp only [List.forall_mem_cons, List.not_mem_nil, false_implies, implies_true, and_true]
  exact ⟨(issueDma_unassigned hturn _ _ hno : execDmaNop ch s = _), (issueDma_unassigned hturn _ _ hno : execDmaHalt ch s = _),
    (issueDma_unassigned hturn _ _ hno : execDmaLoop ch s = _), (issueDma_unassigned hturn _ _ hno : execEndloop ch s = _),
    (issueDma_unassigned hturn _ _ hno : execWait ch s = _), (issueDma_unassigned hturn _ _ hno : execDmaSignal ch s = _),
    (issueDma_unassigned hturn _ _ hno : execTimer ch s = _), (issueDma_unassigned hturn _ _ hno : execCrcstore ch s = _),
    (issueDma_unassigned hturn _ _ hno : execMove ch s = _), (issueDma_unassigned hturn _ _ hno : execMove2d ch s = _)⟩

end

/-! ### NOP, LOOP, ENDLOOP and HALT (R279) -/

section
variable {s : State} {ch : Nat} (hturn : DmaTurn s ch) (hfree : dmaReserved (dmaNextWord s ch) = false)
include hturn hfree

theorem dmaNop_moves (hop : opcodeOf (dmaNextWord s ch) = 0x00) :
    exec (.dmaNop ch) s = .next (setDma s ch { getDma s ch with st := 2, pc := (getDma s ch).pc + 1 }) :=
  (issueDma_takes hturn hop hfree : execDmaNop ch s = _)

theorem dmaLoop_opens (hop : opcodeOf (dmaNextWord s ch) = 0x02) (hdepth : (getDma s ch).loops.length < 4) :
    exec (.dmaLoop ch) s = .next (setDma s ch { getDma s ch with
      st := 2, loops := ((getDma s ch).pc + 1, dmLoopCount (dmaNextWord s ch) - 1) :: (getDma s ch).loops
      pc := (getDma s ch).pc + 1 }) :=
  (issueDma_takes hturn hop hfree : execDmaLoop ch s = _).trans (congrArg _ (if_neg (Nat.not_le.mpr hdepth)))

/-- A channel at an ENDLOOP, its innermost loop having so many iterations left. -/
def loopEnds (x : Dma) (p left : Nat) (r : List (Nat × Nat)) : Dma :=
  if left = 0 then { x with loops := r, pc := x.pc + 1 } else { x with loops := (p, left - 1) :: r, pc := p }

theorem endloop_returns (hop : opcodeOf (dmaNextWord s ch) = 0x03) (p left : Nat) (r : List (Nat × Nat))
    (hloop : (getDma s ch).loops = (p, left) :: r) :
    exec (.endloop ch) s = .next (setDma s ch (loopEnds { getDma s ch with st := 2 } p left r)) := by
  have harm : exec (.endloop ch) s = execEndloop ch s := rfl
  rw [harm, execEndloop, issueDma_takes hturn hop hfree]
  simp only [hloop, beq_iff_eq, loopEnds]
  split <;> rfl

end

theorem getDma_mapDmas (s : State) (k : Nat) (f : Dma → Dma) (hd : f {} = {}) :
    getDma { s with dmas := s.dmas.map fun y => (y.1, f y.2) } k = f (getDma s k) := by
  unfold getDma
  exact SMap.get_mapValues {} f hd s.dmas k

/-- A channel that the HALT of another one starts. -/
def haltSeen (ch : Nat) (y : Dma) : Dma := if y.trig == 4 && y.trigCh == ch then { y with haltHit := y.haltHit + 1 } else y

theorem haltSeen_fields (ch : Nat) (y : Dma) : (haltSeen ch y).st = y.st ∧ (haltSeen ch y).pend = y.pend := by
  unfold haltSeen
  split <;> exact ⟨rfl, rfl⟩

/-- The channels after the end of a run. -/
def runEnded (s : State) (ch : Nat) (x : Dma) : State :=
  { setDma s ch { x with st := 1 } with dmas := (setDma s ch { x with st := 1 }).dmas.map fun y => (y.1, haltSeen ch y.2) }

theorem endRun_eq (s : State) (ch : Nat) (x : Dma) : endRun s ch x =
    if (getDma (runEnded s ch x) ch).pend == 0 then runEnded s ch x
    else setDma (runEnded s ch x) ch (freshRun { getDma (runEnded s ch x) ch with pend := (getDma (runEnded s ch x) ch).pend - 1 }) := by
  have hmap : (fun y : Nat × Dma => if y.2.trig == 4 && y.2.trigCh == ch then (y.1, { y.2 with haltHit := y.2.haltHit + 1 }) else y) =
      fun y => (y.1, haltSeen ch y.2) := by
    funext y
    unfold haltSeen
    split <;> rfl
  unfold endRun
  rw [hmap]
  rfl

theorem getDma_runEnded (s : State) (ch : Nat) (x : Dma) : getDma (runEnded s ch x) ch = haltSeen ch { x with st := 1 } :=
  (getDma_mapDmas (setDma s ch { x with st := 1 }) ch (haltSeen ch) rfl).trans (congrArg _ (getDma_setDma_same ..))

theorem endRun_effect (s : State) (ch : Nat) (x : Dma) : SameMemory s (endRun s ch x) ∧
    (x.pend = 0 → (getDma (endRun s ch x) ch).st = 1) ∧
    (0 < x.pend → (getDma (endRun s ch x) ch).st = 2 ∧ (getDma (endRun s ch x) ch).pc = 0 ∧
      (getDma (endRun s ch x) ch).pend = x.pend - 1) := by
  obtain ⟨hst, hpend⟩ := haltSeen_fields ch { x with st := 1 }
  rw [← getDma_runEnded s ch x] at hst hpend
  rw [endRun_eq]
  refine ⟨?_, fun h0 => ?_, fun hpos => ?_⟩
  · split <;> exact fun _ => rfl
  · rw [if_pos (beq_iff_eq.mpr (hpend.trans h0))]
    exact hst
  · rw [if_neg (by rw [beq_iff_eq, hpend]; exact Nat.ne_of_gt hpos), getDma_setDma_same]
    exact ⟨rfl, rfl, congrArg (· - 1) hpend⟩

theorem waitTimer_armed (s : State) (ch : Nat) {x : Dma} (harmed : x.armed = true) :
    waitTimer s ch x = setDma s ch { x with armed := false, timing := false, pc := x.pc + 1 } := if_pos harmed

theorem waitTimer_early {s : State} {x : Dma} (ch : Nat) (harmed : x.armed = false) (hearly : dmaNow s x < x.timer) :
    waitTimer s ch x = setDma s ch { x with timing := true, st := 3 } := by
  simp only [waitTimer, harmed, Bool.false_eq_true, if_false, if_pos hearly]
  rfl

theorem waitTimer_late {s : State} {x : Dma} (ch : Nat) (harmed : x.armed = false) (htiming : x.timing = false)
    (hlate : x.timer < dmaNow s x) : waitTimer s ch x =
      setDma s ch { x with armed := false, timing := false, late := satAdd 32 x.late 1, pc := x.pc + 1 } := by
  simp only [waitTimer, harmed, Bool.false_eq_true, if_false, if_neg (Nat.not_lt.mpr (Nat.le_of_lt hlate)), htiming, Bool.not_false,
    Bool.and_true, decide_eq_true hlate, if_true]

section
variable {s : State} {ch : Nat} (hturn : DmaTurn s ch) (hfree : dmaReserved (dmaNextWord s ch) = false)
include hturn hfree

theorem dmaHalt_ends (hop : opcodeOf (dmaNextWord s ch) = 0x01) (hnone : (getDma s ch).xfers = []) :
    ∃ t, exec (.dmaHalt ch) s = .next t ∧ SameMemory s t ∧ ((getDma s ch).pend = 0 → (getDma t ch).st = 1) ∧
      (0 < (getDma s ch).pend → (getDma t ch).st = 2 ∧ (getDma t ch).pc = 0 ∧ (getDma t ch).pend = (getDma s ch).pend - 1) :=
  ⟨_, (issueDma_takes hturn hop hfree : execDmaHalt ch s = _).trans (congrArg _ (if_pos (List.isEmpty_iff.mpr hnone))), endRun_effect s ch _⟩

/-- The instructions that wait for earlier transfers. -/
theorem issueDma_waits {op : Nat} {fx : Nat → Dma → State → State} (hknown : dmaOps.contains (opcodeOf (dmaNextWord s ch)) = true)
    (hwait : fx (dmaNextWord s ch) { getDma s ch with st := 2 } s = setDma s ch { getDma s ch with st := 3 }) :
    issueDma op ch fx s = .next (setDma s ch { getDma s ch with st := 3 }) ∨
      issueDma op ch fx s = .refused (.notEnabled "another instruction is next") := by
  by_cases hop : opcodeOf (dmaNextWord s ch) = op
  · exact .inl ((issueDma_takes hturn hop hfree).trans (congrArg _ hwait))
  · exact .inr (issueDma_other hturn hop hknown)

theorem dmaInstructions_wait
    (hop : opcodeOf (dmaNextWord s ch) = 0x01 ∨ opcodeOf (dmaNextWord s ch) = 0x04 ∨ opcodeOf (dmaNextWord s ch) = 0x05 ∨
      opcodeOf (dmaNextWord s ch) = 0x07) (hsome : (getDma s ch).xfers ≠ []) :
    ∀ i ∈ [Instr.dmaHalt ch, .wait ch, .dmaSignal ch, .crcstore ch],
      exec i s = .next (setDma s ch { getDma s ch with st := 3 }) ∨
        exec i s = .refused (.notEnabled "another instruction is next") := by
  have hknown : dmaOps.contains (opcodeOf (dmaNextWord s ch)) = true := by rcases hop with h | h | h | h <;> rw [h] <;> rfl
  have hbusy : (getDma s ch).xfers.isEmpty = false := by simpa using hsome
  have hcond : (!(getDma s ch).xfers.isEmpty) = true := by rw [hbusy]; rfl
  simp only [List.forall_mem_cons, List.not_mem_nil, false_implies, implies_true, and_true]
  exact ⟨(issueDma_waits hturn hfree hknown (if_neg (by rw [hbusy]; exact Bool.false_ne_true)) :
      execDmaHalt ch s = _ ∨ execDmaHalt ch s = _),
    (issueDma_waits hturn hfree hknown (if_pos hcond) : execWait ch s = _ ∨ execWait ch s = _),
    (issueDma_waits hturn hfree hknown (if_pos hcond) : execDmaSignal ch s = _ ∨ execDmaSignal ch s = _),
    (issueDma_waits hturn hfree hknown (if_pos hcond) : execCrcstore ch s = _ ∨ execCrcstore ch s = _)⟩

/-! ### WAIT, SIGNAL and TIMER (R279) -/

/-- A WAIT whose earlier transfers are complete. -/
theorem wait_takes (hop : opcodeOf (dmaNextWord s ch) = 0x04) (hnone : (getDma s ch).xfers = []) :
    exec (.wait ch) s = .next (if dmWaitEvent (dmaNextWord s ch) then
        (if dmWaitCount (dmaNextWord s ch) ≤ (getDma s ch).ev then setDma s ch { getDma s ch with
          st := 2, ev := (getDma s ch).ev - dmWaitCount (dmaNextWord s ch), pc := (getDma s ch).pc + 1 }
        else setDma s ch { getDma s ch with st := 3 })
      else waitTimer s ch { getDma s ch with st := 2 }) :=
  (issueDma_takes hturn hop hfree : execWait ch s = _).trans (congrArg _ (if_neg (by simp [hnone])))

theorem wait_completes (hop : opcodeOf (dmaNextWord s ch) = 0x04) (hnone : (getDma s ch).xfers = []) :
    (dmWaitEvent (dmaNextWord s ch) = true → dmWaitCount (dmaNextWord s ch) ≤ (getDma s ch).ev →
      exec (.wait ch) s = .next (setDma s ch { getDma s ch with
        st := 2, ev := (getDma s ch).ev - dmWaitCount (dmaNextWord s ch), pc := (getDma s ch).pc + 1 })) ∧
    (dmWaitEvent (dmaNextWord s ch) = false → (getDma s ch).armed = true → exec (.wait ch) s =
      .next (setDma s ch { getDma s ch with st := 2, armed := false, timing := false, pc := (getDma s ch).pc + 1 })) ∧
    (dmWaitEvent (dmaNextWord s ch) = false → (getDma s ch).armed = false → (getDma s ch).timing = false →
      (getDma s ch).timer < dmaNow s { getDma s ch with st := 2 } → exec (.wait ch) s = .next (setDma s ch { getDma s ch with
        st := 2, armed := false, timing := false, late := satAdd 32 (getDma s ch).late 1, pc := (getDma s ch).pc + 1 })) ∧
    (dmWaitEvent (dmaNextWord s ch) = false → (getDma s ch).armed = false →
      dmaNow s { getDma s ch with st := 2 } < (getDma s ch).timer →
      exec (.wait ch) s = .next (setDma s ch { getDma s ch with timing := true, st := 3 })) := by
  have hexec := wait_takes hturn hfree hop hnone
  refine ⟨fun hev hle => ?_, fun hev harmed => ?_, fun hev harmed htiming hlate => ?_, fun hev harmed hearly => ?_⟩
  · rw [hexec, if_pos hev, if_pos hle]
  all_goals rw [hexec, if_neg (by rw [hev]; exact Bool.false_ne_true)]
  · exact congrArg _ (waitTimer_armed s ch harmed)
  · exact congrArg _ (waitTimer_late ch harmed htiming hlate)
  · exact congrArg _ (waitTimer_early ch harmed hearly)

theorem dmaSignal_sends (hop : opcodeOf (dmaNextWord s ch) = 0x05) (hnone : (getDma s ch).xfers = [])
    (htgt : dmSigTgt (dmaNextWord s ch) = false)
    (hset : inCoreSet s (getDma s ch).dom (dmSigId (dmaNextWord s ch)) = true) :
    exec (.dmaSignal ch) s = .next (sendIncr (setDma s ch { getDma s ch with st := 2, pc := (getDma s ch).pc + 1 }) (dmaPos ch)
      (getDma s ch).dom (dmSigId (dmaNextWord s ch)) (dmSigToken (dmaNextWord s ch)) (dmSigIncr (dmaNextWord s ch))) := by
  have harm : exec (.dmaSignal ch) s = execDmaSignal ch s := rfl
  rw [harm, execDmaSignal, issueDma_takes hturn hop hfree]
  simp only [hnone, List.isEmpty_nil, Bool.not_true, Bool.false_eq_true, if_false, htgt, hset]

theorem timer_sets (hop : opcodeOf (dmaNextWord s ch) = 0x06) :
    ∃ t, exec (.timer ch) s = .next t ∧ SameMemory s t ∧
      (getDma t ch).timer = ((if dmTimerRel (dmaNextWord s ch) then (getDma s ch).timer else 0) +
        dmaOperand { getDma s ch with st := 2 } (dmOpidx (dmaNextWord s ch))) % 2 ^ 64 ∧
      (getDma t ch).pc = (getDma s ch).pc + 1 ∧ (getDma t ch).armed = false ∧ ∀ k, k ≠ ch → getDma t k = getDma s k := by
  refine ⟨_, (issueDma_takes hturn hop hfree : execTimer ch s = _), fun _ => rfl, ?_, ?_, ?_, fun k hk => getDma_setDma_other s _ (Ne.symm hk)⟩ <;>
    rw [getDma_setDma_same]

end

/-! ### CRCSTORE and MOVE (R278 to R281) -/

theorem headEdges_effect (s : State) (ch : Nat) :
    SameMemory s (headEdges s ch) ∧ (getDma (headEdges s ch) ch).pc = (getDma s ch).pc ∧
      (getDma (headEdges s ch) ch).xfers.length = (getDma s ch).xfers.length := by
  unfold headEdges
  dsimp only
  split
  next => exact ⟨fun _ => rfl, rfl, rfl⟩
  next t rest hx =>
    split
    · exact ⟨fun _ => rfl, rfl, rfl⟩
    · generalize hu : setDma s ch _ = u
      have hchannel := congrArg (getDma · ch) hu.symm
      simp only [getDma_setDma_same] at hchannel
      have hsent := onlySent_sendReqs u 0 (hostEdges ch t)
      rw [getDma_of_onlySent hsent, hchannel, hx]
      refine ⟨SameMemory.trans ?_ (sameMemory_of_onlySent hsent), rfl, rfl⟩
      rw [← hu]
      exact fun _ => rfl

/-- A transfer that is put in flight. -/
theorem dmaLaunch_effect (s : State) (ch : Nat) (x : Dma) (t : DmaXfer) :
    SameMemory s (dmaLaunch s ch x t) ∧ (getDma (dmaLaunch s ch x t) ch).pc = x.pc + 1 ∧
      (getDma (dmaLaunch s ch x t) ch).xfers.length = x.xfers.length + 1 := by
  unfold dmaLaunch
  extract_lets reads u
  have hchannel : getDma u ch = _ := getDma_setDma_same ..
  have hsent := onlySent_sendReqs u 0 reads
  obtain ⟨hmem, hpc, hlen⟩ := headEdges_effect (sendReqs u 0 reads) ch
  rw [getDma_of_onlySent hsent, hchannel] at hpc hlen
  refine ⟨SameMemory.trans (t := u) (fun _ => rfl) (SameMemory.trans (sameMemory_of_onlySent hsent) hmem), hpc, hlen.trans ?_⟩
  exact List.length_append

/-- What the checks of an operand read does not count the ids that have been given. -/
theorem operandOk_nextId (s : State) (n d o rows bytes : Nat) (stride : Int) (dest : Bool) :
    operandOk { s with nextId := n } d o rows bytes stride dest = operandOk s d o rows bytes stride dest := rfl

theorem rowsOverlap_apart {s : State} {d id src dst rows bytes pc word born : Nat} {sStr dStr : Int} {crc : Bool}
    (h : opSpace src ≠ opSpace dst) : rowsOverlap s d { id := id, src := src, dst := dst, rows := rows, bytes := bytes, sStr := sStr
                                                        dStr := dStr, crc := crc, pc := pc, word := word, born := born } = false := by
  simp [rowsOverlap, h]

/-- A move between two spaces whose operands pass. -/
theorem dmaTransfer_launches {s : State} {ch : Nat} {x : Dma} {w src dst rows bytes : Nat} {sStr dStr : Int} (incS incD crc : Bool)
    (addS addD : Int) (hroom : x.xfers.length < 8) (hpool : poolFree s = true)
    (hsrc : operandOk s x.dom (dmaOperand x src) rows bytes sStr false = true)
    (hdst : operandOk s x.dom (dmaOperand x dst) rows bytes dStr true = true)
    (hapart : opSpace (dmaOperand x src) ≠ opSpace (dmaOperand x dst)) :
    ∃ u y t, dmaTransfer ch x w src dst rows bytes sStr dStr incS incD crc addS addD false s = dmaLaunch u ch y t ∧
      SameMemory s u ∧ y.pc = x.pc ∧ y.xfers = x.xfers := by
  have hgo : (decide (8 ≤ x.xfers.length) || !poolFree s) = false := by simp [Nat.not_le.mpr hroom, hpool]
  unfold dmaTransfer
  rw [hgo, if_neg Bool.false_ne_true]
  dsimp only [freshId]
  have hkept := fun o stride dest => operandOk_nextId s (s.nextId + 1) x.dom o rows bytes stride dest
  rw [hkept, hkept, hsrc, hdst, rowsOverlap_apart hapart]
  simp only [Bool.not_true, Bool.or_self, Bool.false_eq_true, if_false]
  refine ⟨_, _, _, rfl, fun _ => rfl, ?_, ?_⟩ <;> cases incS <;> cases incD <;> rfl

section
variable {s : State} {ch : Nat} (hturn : DmaTurn s ch) (hfree : dmaReserved (dmaNextWord s ch) = false)
include hturn hfree

/-- A move of a channel that has a place in flight for it. -/
theorem dmaTransfer_effect (incS incD crc : Bool) (addS addD : Int) {src dst rows bytes : Nat} {sStr dStr : Int} {op : Nat}
    {fx : Nat → Dma → State → State} {idxBad : Bool} (hidx : idxBad = false) (hop : opcodeOf (dmaNextWord s ch) = op)
    (hfx : fx (dmaNextWord s ch) { getDma s ch with st := 2 } s = dmaTransfer ch { getDma s ch with st := 2 } (dmaNextWord s ch)
      src dst rows bytes sStr dStr incS incD crc addS addD idxBad s)
    (hroom : (getDma s ch).xfers.length < 8) (hpool : poolFree s = true)
    (hsrc : operandOk s (getDma s ch).dom (dmaOperand { getDma s ch with st := 2 } src) rows bytes sStr false = true)
    (hdst : operandOk s (getDma s ch).dom (dmaOperand { getDma s ch with st := 2 } dst) rows bytes dStr true = true)
    (hapart : opSpace (dmaOperand { getDma s ch with st := 2 } src) ≠ opSpace (dmaOperand { getDma s ch with st := 2 } dst)) :
    ∃ t, issueDma op ch fx s = .next t ∧ SameMemory s t ∧ (getDma t ch).pc = (getDma s ch).pc + 1 ∧
      (getDma t ch).xfers.length = (getDma s ch).xfers.length + 1 := by
  obtain ⟨u, y, t, htransfer, hmem, hpc, hxfers⟩ :=
    dmaTransfer_launches (w := dmaNextWord s ch) (x := { getDma s ch with st := 2 }) (ch := ch) incS incD crc addS addD hroom hpool
      hsrc hdst hapart
  obtain ⟨hsame, hpc', hlen⟩ := dmaLaunch_effect u ch y t
  refine ⟨_, issueDma_takes hturn hop hfree, ?_⟩
  rw [hfx, hidx, htransfer]
  exact ⟨SameMemory.trans hmem hsame, hpc'.trans (congrArg (· + 1) hpc), hlen.trans (congrArg (·.length + 1) hxfers)⟩

theorem move_launches (hop : opcodeOf (dmaNextWord s ch) = 0x10) (hroom : (getDma s ch).xfers.length < 8) (hpool : poolFree s = true)
    (hsrc : operandOk s (getDma s ch).dom (dmaOperand { getDma s ch with st := 2 } (dmMvSrc (dmaNextWord s ch))) 1
      (dmMvLen (dmaNextWord s ch)) 0 false = true)
    (hdst : operandOk s (getDma s ch).dom (dmaOperand { getDma s ch with st := 2 } (dmMvDst (dmaNextWord s ch))) 1
      (dmMvLen (dmaNextWord s ch)) 0 true = true)
    (hapart : opSpace (dmaOperand { getDma s ch with st := 2 } (dmMvSrc (dmaNextWord s ch))) ≠
      opSpace (dmaOperand { getDma s ch with st := 2 } (dmMvDst (dmaNextWord s ch)))) :
    ∃ t, exec (.move ch) s = .next t ∧ SameMemory s t ∧ (getDma t ch).pc = (getDma s ch).pc + 1 ∧
      (getDma t ch).xfers.length = (getDma s ch).xfers.length + 1 := by
  have harm : exec (.move ch) s = execMove ch s := rfl
  rw [harm, execMove]
  exact dmaTransfer_effect hturn hfree _ _ _ _ _ rfl hop rfl hroom hpool hsrc hdst hapart

theorem move2d_launches (hop : opcodeOf (dmaNextWord s ch) = 0x11) (hroom : (getDma s ch).xfers.length < 8) (hpool : poolFree s = true)
    (hsrcIdx : dmMvSrc (dmaNextWord s ch) + 1 < 256) (hdstIdx : dmMvDst (dmaNextWord s ch) + 1 < 256)
    (hsrc : operandOk s (getDma s ch).dom (dmaOperand { getDma s ch with st := 2 } (dmMvSrc (dmaNextWord s ch)))
      (dm2Rows (dmaNextWord s ch)) (dm2Bytes (dmaNextWord s ch))
      (sext 64 (dmaOperand { getDma s ch with st := 2 } (dmMvSrc (dmaNextWord s ch) + 1))) false = true)
    (hdst : operandOk s (getDma s ch).dom (dmaOperand { getDma s ch with st := 2 } (dmMvDst (dmaNextWord s ch)))
      (dm2Rows (dmaNextWord s ch)) (dm2Bytes (dmaNextWord s ch))
      (sext 64 (dmaOperand { getDma s ch with st := 2 } (dmMvDst (dmaNextWord s ch) + 1))) true = true)
    (hapart : opSpace (dmaOperand { getDma s ch with st := 2 } (dmMvSrc (dmaNextWord s ch))) ≠
      opSpace (dmaOperand { getDma s ch with st := 2 } (dmMvDst (dmaNextWord s ch)))) :
    ∃ t, exec (.move2d ch) s = .next t ∧ SameMemory s t ∧ (getDma t ch).pc = (getDma s ch).pc + 1 ∧
      (getDma t ch).xfers.length = (getDma s ch).xfers.length + 1 := by
  have harm : exec (.move2d ch) s = execMove2d ch s := rfl
  have hidx : (decide (255 < dmMvSrc (dmaNextWord s ch) + 1) || decide (255 < dmMvDst (dmaNextWord s ch) + 1)) = false := by
    simp; omega
  rw [harm, execMove2d]
  exact dmaTransfer_effect hturn hfree _ _ _ _ _ hidx hop rfl hroom hpool hsrc hdst hapart

/-- With no place in flight, or no tag, the channel waits. -/
theorem moves_wait (hfull : 8 ≤ (getDma s ch).xfers.length ∨ poolFree s = false) :
    (opcodeOf (dmaNextWord s ch) = 0x10 → exec (.move ch) s = .next (setDma s ch { getDma s ch with st := 3 })) ∧
    (opcodeOf (dmaNextWord s ch) = 0x11 → exec (.move2d ch) s = .next (setDma s ch { getDma s ch with st := 3 })) := by
  have hcond : (decide (8 ≤ (getDma s ch).xfers.length) || !poolFree s) = true := by
    rcases hfull with h | h
    · rw [decide_eq_true h, Bool.true_or]
    · rw [h, Bool.not_false, Bool.or_true]
  refine ⟨fun hop => ?_, fun hop => ?_⟩
  · exact (issueDma_takes hturn hop hfree : execMove ch s = _).trans (congrArg _ (if_pos hcond))
  · exact (issueDma_takes hturn hop hfree : execMove2d ch s = _).trans (congrArg _ (if_pos hcond))

theorem crcstore_launches (hop : opcodeOf (dmaNextWord s ch) = 0x07) (hnone : (getDma s ch).xfers = [])
    (hok : operandOk s (getDma s ch).dom (dmaOperand { getDma s ch with st := 2 } (dmOpidx (dmaNextWord s ch))) 1 8 0 true = true) :
    ∃ t, exec (.crcstore ch) s = .next t ∧ SameMemory s t ∧ (getDma t ch).pc = (getDma s ch).pc + 1 ∧
      (getDma t ch).xfers.length = 1 := by
  have harm : exec (.crcstore ch) s = execCrcstore ch s := rfl
  have hkept := fun o dest => operandOk_nextId s (s.nextId + 1) (getDma s ch).dom o 1 8 0 dest
  rw [harm, execCrcstore, issueDma_takes hturn hop hfree]
  dsimp only [freshId]
  dsimp only at hok
  rw [List.isEmpty_iff.mpr hnone, hkept, hok, Bool.not_true, if_neg Bool.false_ne_true, if_neg Bool.false_ne_true]
  generalize hy : (if dmCrcReset (dmaNextWord s ch) = true then _ else _ : Dma) = y
  obtain ⟨hsame, hpc, hlen⟩ := dmaLaunch_effect { s with nextId := s.nextId + 1 } ch y _
  have hkeep : y.pc = (getDma s ch).pc ∧ y.xfers = [] := by
    rw [← hy]
    cases dmCrcReset (dmaNextWord s ch) <;> cases dmCrcPoly (dmaNextWord s ch) <;> cases dmCrcInc (dmaNextWord s ch) <;>
      exact ⟨rfl, hnone⟩
  refine ⟨_, rfl, SameMemory.trans (fun _ => rfl) hsame, hpc.trans (congrArg (· + 1) hkeep.1), hlen.trans ?_⟩
  rw [hkeep.2]
  rfl

end

/-- Settles O48: each instruction by its turn, the transfers through what they put in flight. -/
theorem dmaInstructionsComplete : Obligations.DmaInstructionsComplete := by
  intro ch s hch hst hdom hpc
  have hturn : DmaTurn s ch := ⟨hch, hst, hdom, hpc⟩
  exact ⟨fun i hi hno => dmaInstructions_unassigned hturn hno i hi, fun hfree => ⟨dmaNop_moves hturn hfree, dmaHalt_ends hturn hfree,
    dmaInstructions_wait hturn hfree, dmaLoop_opens hturn hfree, endloop_returns hturn hfree, wait_completes hturn hfree,
    dmaSignal_sends hturn hfree, timer_sets hturn hfree, fun hop hnone hok _ => crcstore_launches hturn hfree hop hnone hok,
    fun _ => moves_wait hturn hfree,
    fun hop hroom hpool hsrc hdst hapart _ _ => move_launches hturn hfree hop hroom hpool hsrc hdst hapart,
    fun hop hroom hpool hsi hdi hsrc hdst hapart _ _ => move2d_launches hturn hfree hop hroom hpool hsi hdi hsrc hdst hapart⟩⟩

end Sys2Proof.Machine
end

