-- ==== Sys2Proof/Proofs/StreamEvents.lean ====
section
/-!
SUPPORT. The events of a stream (R259 to R269, R274): windows that become current, are checked, requested, filled and released,
and mutual waits.
-/
namespace Sys2Proof.Machine

/-! ### Folds that bring something about -/

/-- What one step of a fold brings about and every step keeps. -/
theorem foldl_establishes {α β : Type} (P : β → Prop) (f : β → α → β) (hkeep : ∀ s x, P s → P (f s x)) {l : List α} {x : α}
    (hx : x ∈ l) (hset : ∀ s, P (f s x)) (s : β) : P (l.foldl f s) := by
  induction l generalizing s with
  | nil => exact absurd hx List.not_mem_nil
  | cons y l ih =>
    rw [List.foldl_cons]
    rcases List.mem_cons.mp hx with rfl | hx
    · exact foldl_keeps P f hkeep l _ (hset s)
    · exact ih hx _

/-! ### PRESENT bits (R116, R266) -/

theorem absent_after_clear (s : State) {c : Nat} (l : Nat) (hc : c < 0x40) : present (setPresent s c l false) c l = false := by
  simp only [present, setPresent, if_pos hc, getE_setE_same, SMap.get_set_same, Bool.not_false, Bool.not_true]

/-- A line that is absent stays so when another one is cleared. -/
theorem absent_kept_by_clear {s : State} {c l : Nat} (u m : Nat) (h : present s c l = false) :
    present (setPresent s u m false) c l = false := by
  have hc : c < 0x40 := by
    refine Decidable.byContradiction fun hn => ?_
    simp [present, hn] at h
  by_cases hu : u < 0x40
  · by_cases hcu : u = c
    · subst hcu
      simp only [present, if_pos hu] at h
      simp only [present, setPresent, if_pos hu, getE_setE_same, SMap.get_set]
      split
      · rfl
      · exact h
    · simp only [present, if_pos hc] at h
      simp only [present, setPresent, if_pos hu, if_pos hc, getE_setE_other _ _ hcu]
      exact h
  · rw [setPresent, if_neg hu]
    exact h

theorem clearPresent_range (s : State) (c a n : Nat) :
    clearPresent s c [(a, n)] = (List.range n).foldl (fun s i => setPresent s c (a + i) false) s := rfl

theorem absent_kept_by_range {s : State} {c l : Nat} (u a n : Nat) (h : present s c l = false) :
    present (clearPresent s u [(a, n)]) c l = false :=
  foldl_keeps (fun s => present s c l = false) (fun s i => setPresent s u (a + i) false)
    (fun _ i hs => absent_kept_by_clear u (a + i) hs) (List.range n) s h

theorem absent_after_range (s : State) {c a n i : Nat} (hc : c < 0x40) (hi : i < n) :
    present (clearPresent s c [(a, n)]) c (a + i) = false :=
  foldl_establishes (fun s => present s c (a + i) = false) (fun s i => setPresent s c (a + i) false)
    (fun _ j hs => absent_kept_by_clear c (a + j) hs) (List.mem_range.mpr hi) (fun s => absent_after_clear s (a + i) hc) s

theorem ringLine_add (d n l : Nat) : ringLine d n l = ringLine d n 0 + l := rfl

/-- A ring slot that is cleared is absent at every position that the stream fills. -/
theorem absent_after_clearSlot {s : State} {x : Stream} {n p c l : Nat} (hkind : sdKind x.desc ≠ 1) (hp : p ∈ streamDests s x)
    (hu : unitAt p = some c) (hc : c < 0x40) (hl : l < sdWinLines x.desc) :
    present (clearSlot s x n) c (ringLine x.desc n l) = false := by
  rw [clearSlot, if_neg (by simpa using hkind), ringLine_add]
  refine foldl_establishes (fun s => present s c (ringLine x.desc n 0 + l) = false) _ (fun t q ht => ?_) hp (fun t => ?_) s
  · split
    · exact absent_kept_by_range _ _ _ ht
    · exact ht
  · simp only [hu]
    exact absent_after_range t hc hl

/-! ### Windows that become current and are released (R263, R266) -/

theorem isStream {i : Nat} (hi : i < numStreams) : ¬ numStreams ≤ i := Nat.not_le.mpr hi

section
variable {i : Nat} {s : State} (hi : i < numStreams)
include hi

theorem windowCurrent_completes {u : State} (hst : (getStream s i).st = 1 ∨ (getStream s i).st = 2 ∨ (getStream s i).st = 3)
    (hruns : (getD s (getStream s i).dom).st.runs = true) (hmode : sdMode (getStream s i).desc = 0)
    (hleft : (getStream s i).c < sdTotal (getStream s i).desc)
    (hu : toDcc (getStream s i).dom (windowNeed (getStream s i).desc (getStream s i).c) s = some u) :
    exec (.windowCurrent i) s = .next (setStream u i { getStream s i with
      c := (getStream s i).c + 1
      cur := (getStream s i).cur ++ [((getStream s i).c, (getD u (getStream s i).dom).dcc)]
      lastCur := some ((getStream s i).c, (getD u (getStream s i).dom).dcc) }) := by
  have harm : exec (.windowCurrent i) s = execWindowCurrent i s := rfl
  have hlive : ((getStream s i).st == 1 || (getStream s i).st == 2 || (getStream s i).st == 3) = true := by
    rcases hst with h | h | h <;> rw [h] <;> rfl
  have hguard : (decide (sdMode (getStream s i).desc ≠ 0) || decide (sdTotal (getStream s i).desc ≤ (getStream s i).c)) = false := by
    simp [hmode, Nat.not_le.mpr hleft]
  simp only [harm, execWindowCurrent, if_neg (isStream hi), hlive, hruns, Bool.not_true, Bool.or_self, hguard, Bool.false_eq_true,
    if_false, hu]

/-- A stream after the release of its next window. -/
def released (x : Stream) : Stream := { x with released := x.released + 1, cur := x.cur.filter fun w => w.1 ≠ x.released }

theorem windowRelease_done {u : State} (h0 : (getStream s i).st ≠ 0) (h4 : (getStream s i).st ≠ 4)
    (hleft : (getStream s i).released < sdTotal (getStream s i).desc)
    (hwhen : (sdRelEn (getStream s i).desc = true ∧
        (getStream s i).released < (getStream s (sdReleaser (getStream s i).desc)).moved ∧ u = s) ∨
      (sdRelEn (getStream s i).desc = false ∧ ∃ w, (getStream s i).cur.find? (fun w => w.1 == (getStream s i).released) = some w ∧
        toDcc (getStream s i).dom (w.2 + sdHold (getStream s i).desc) s = some u)) :
    exec (.windowRelease i) s =
      .next (changeStream (clearSlot u (getStream s i) (getStream s i).released) i (released (getStream s i))) := by
  have harm : exec (.windowRelease i) s = execWindowRelease i s := rfl
  have hguard : ((getStream s i).st == 0 || (getStream s i).st == 4 ||
      decide (sdTotal (getStream s i).desc ≤ (getStream s i).released)) = false := by
    simp [h0, h4, Nat.not_le.mpr hleft]
  obtain ⟨hen, hmoved, rfl⟩ | ⟨hen, w, hw, hu⟩ := hwhen
  · simp only [harm, execWindowRelease, if_neg (isStream hi), hguard, Bool.false_eq_true, if_false, hen, if_true, if_pos hmoved]
    rfl
  · simp only [harm, execWindowRelease, if_neg (isStream hi), hguard, Bool.false_eq_true, if_false, hen, hw, hu]
    rfl

theorem windowRelease_completes {u : State} (h0 : (getStream s i).st ≠ 0) (h4 : (getStream s i).st ≠ 4)
    (hleft : (getStream s i).released < sdTotal (getStream s i).desc)
    (hwhen : (sdRelEn (getStream s i).desc = true ∧
        (getStream s i).released < (getStream s (sdReleaser (getStream s i).desc)).moved ∧ u = s) ∨
      (sdRelEn (getStream s i).desc = false ∧ ∃ w, (getStream s i).cur.find? (fun w => w.1 == (getStream s i).released) = some w ∧
        toDcc (getStream s i).dom (w.2 + sdHold (getStream s i).desc) s = some u)) :
    ∃ t, exec (.windowRelease i) s = .next t ∧ (getStream t i).released = (getStream s i).released + 1 ∧
      (∀ w ∈ (getStream t i).cur, w.1 ≠ (getStream s i).released) ∧
      (sdKind (getStream s i).desc ≠ 1 → ∀ p ∈ streamDests u (getStream s i), ∀ c l, unitAt p = some c → c < 0x40 →
        l < sdWinLines (getStream s i).desc → present t c (ringLine (getStream s i).desc (getStream s i).released l) = false) := by
  refine ⟨_, windowRelease_done hi h0 h4 hleft hwhen, ?_⟩
  unfold changeStream
  rw [getStream_setStream_same]
  exact ⟨rfl, fun w hw => of_decide_eq_true (List.mem_filter.mp hw).2,
    fun hkind p hp c l hu hc hl => absent_after_clearSlot hkind hp hu hc hl⟩

end

/-! ### Checks (R265) -/

theorem requestStall_eq (s : State) (d : Nat) (r : StallReq) : requestStall s d r = { s with doms := (requestStall s d r).doms } := by
  unfold requestStall
  dsimp only
  split <;> rfl

theorem mem_requestStall (s : State) (d : Nat) (r : StallReq) : r ∈ (getD (requestStall s d r) d).reqs := by
  unfold requestStall
  dsimp only
  split
  next h => exact List.contains_iff_mem.mp h
  next =>
    rw [getD_setD_same]
    exact List.mem_append_right _ (List.mem_singleton_self r)

/-- The condition that a window's check asks for. -/
def checkCond (i n d : Nat) : Cond := if sdKind d = 1 then .drained i n else .window i n

/-- The stall that a failed check asks for. -/
def checkStall (x : Stream) (i : Nat) : StallReq :=
  { slot := checkNeed x.desc x.checked, unit := (unitAt (sdCore x.desc)).getD 0, needle := 3, offset := 0xFFFFFFFF
    cond := checkCond i x.checked x.desc }

section
variable {i : Nat} {s u : State} (hi : i < numStreams) (h0 : (getStream s i).st ≠ 0) (h4 : (getStream s i).st ≠ 4)
  (hruns : (getD s (getStream s i).dom).st.runs = true) (hmode : sdMode (getStream s i).desc = 0)
  (hleft : (getStream s i).checked < sdTotal (getStream s i).desc)
  (hu : toHorizon s (getStream s i).dom (checkNeed (getStream s i).desc (getStream s i).checked) = some u)
include hi h0 h4 hruns hmode hleft hu

theorem windowCheck_checks : exec (.windowCheck i) s =
    if condHolds u (getStream s i).dom (checkCond i (getStream s i).checked (getStream s i).desc) then
      .next (setStream u i { getStream s i with checked := (getStream s i).checked + 1 })
    else .next (requestStall (incP (setStream u i { getStream s i with checked := (getStream s i).checked + 1 }) (pk 0x0702 2) 1)
      (getStream s i).dom (checkStall (getStream s i) i)) := by
  have harm : exec (.windowCheck i) s = execWindowCheck i s := rfl
  have hlive : ((getStream s i).st == 0 || (getStream s i).st == 4) = false := by simp [h0, h4]
  have hguard : (decide (sdMode (getStream s i).desc ≠ 0) || decide (sdTotal (getStream s i).desc ≤ (getStream s i).checked)) = false := by
    simp [hmode, Nat.not_le.mpr hleft]
  simp only [harm, execWindowCheck, if_neg (isStream hi), hlive, hruns, Bool.not_true, Bool.or_self, hguard, Bool.false_eq_true,
    if_false, hu, beq_iff_eq]
  rfl

theorem windowCheck_completes :
    (condHolds u (getStream s i).dom (checkCond i (getStream s i).checked (getStream s i).desc) = true →
      exec (.windowCheck i) s = .next (setStream u i { getStream s i with checked := (getStream s i).checked + 1 })) ∧
    (condHolds u (getStream s i).dom (checkCond i (getStream s i).checked (getStream s i).desc) = false →
      ∃ t, exec (.windowCheck i) s = .next t ∧ (getStream t i).checked = (getStream s i).checked + 1 ∧
        getP t (pk 0x0702 2) = min (getP u (pk 0x0702 2) + 1) (counterMax (pk 0x0702 2)) ∧
        ∃ r ∈ (getD t (getStream s i).dom).reqs, r.slot = checkNeed (getStream s i).desc (getStream s i).checked ∧
          r.cond = checkCond i (getStream s i).checked (getStream s i).desc) := by
  have hexec := windowCheck_checks hi h0 h4 hruns hmode hleft hu
  refine ⟨fun hok => hexec.trans (if_pos hok), fun hbad => ?_⟩
  refine ⟨_, hexec.trans (if_neg (by rw [hbad]; exact Bool.false_ne_true)), ?_, ?_, _, mem_requestStall .., rfl, rfl⟩
  · rw [requestStall_eq]
    exact congrArg Stream.checked (getStream_setStream_same u i { getStream s i with checked := (getStream s i).checked + 1 })
  · rw [requestStall_eq]
    exact getP_incP_same ..

end

/-! ### Requests (R261, R266 to R268) -/

/-- A packet as it leaves. -/
def sentPacket (s : State) (p : Packet) : Packet := { p with leg := false, via := viaOf s p.src p.dst }

theorem sendRequest_effect (s : State) (i k : Nat) (p : Packet) :
    (sendRequest s i k p).packets = s.packets ++ [sentPacket s p] ∧
      getStream (sendRequest s i k p) i = { advanceRequest (getStream s i) k with since := s.ns } :=
  ⟨rfl, getStream_setStream_same (sendPacket s p) i { advanceRequest (getStream s i) k with since := s.ns }⟩

theorem getStream_of_onlyServed {s u : State} (h : OnlyServed s u) (i : Nat) : getStream u i = getStream s i := by
  rw [h]
  rfl

theorem getStream_of_translate {s u : State} {d va : Nat} {write : Bool} {r : Xl} (h : translate s d va write = (r, u)) (i : Nat) :
    getStream u i = getStream s i := by
  have hu : u = (translate s d va write).2 := by rw [h]
  rw [hu]
  exact getStream_of_onlyServed (onlyServed_translate ..) i

section
variable {s u : State} {i pa e : Nat}

/-- The next request of a LOAD in an accessible page. -/
theorem memoryRequest_load (hkind : sdKind (getStream s i).desc ≠ 1)
    (hxl : translate s (getStream s i).dom (64 * windowLine (getStream s i).desc (getStream s i).reqWin (getStream s i).reqOff) false =
      (.ok pa e, u)) :
    let k := runOk u (getStream s i).dom pa
      (64 * requestLines (getStream s i).desc (getStream s i).reqWin (getStream s i).reqOff) false / 64
    memoryRequest s i = sendRequest u i k (streamPacket u i k 1 (posAt u pa) pa
      (64 * windowLine (getStream s i).desc (getStream s i).reqWin (getStream s i).reqOff) e []) := by
  have hread : (sdKind (getStream s i).desc == 1) = false := beq_eq_false_iff_ne.mpr hkind
  simp only [memoryRequest, hread, hxl, Bool.false_eq_true, if_false]

/-- The next request of a STORE in an accessible page: the drained lines are checked as they are read. -/
theorem memoryRequest_store (hkind : sdKind (getStream s i).desc = 1)
    (hxl : translate s (getStream s i).dom (64 * windowLine (getStream s i).desc (getStream s i).reqWin (getStream s i).reqOff) true =
      (.ok pa e, u)) :
    let k := runOk u (getStream s i).dom pa
      (64 * requestLines (getStream s i).desc (getStream s i).reqWin (getStream s i).reqOff) true / 64
    let c := (unitAt (sdCore (getStream s i).desc)).getD 0
    let u' := checkLines u c (ringLine (getStream s i).desc (getStream s i).reqWin (getStream s i).reqOff) k (getStream s i).dom
    memoryRequest s i = sendRequest u' i k (streamPacket u' i k 0 (posAt u' pa) pa
      (64 * windowLine (getStream s i).desc (getStream s i).reqWin (getStream s i).reqOff) e
      (linesE u' c (ringLine (getStream s i).desc (getStream s i).reqWin (getStream s i).reqOff) k)) := by
  have hwrite : (sdKind (getStream s i).desc == 1) = true := beq_iff_eq.mpr hkind
  simp only [memoryRequest, hwrite, hxl, if_true]

end

section
variable {i : Nat} {s : State} (hi : i < numStreams) (hst : (getStream s i).st = 1)
  (hruns : (getD s (getStream s i).dom).st.runs = true) (hleft : (getStream s i).reqWin < sdTotal (getStream s i).desc)
  (hfree : engineFree s (sdCore (getStream s i).desc) = true)
include hi hst hruns hleft hfree

/-- A stream that has a request to issue and a tag for it. -/
theorem streamRequestIssue_next : exec (.streamRequestIssue i) s =
    if sdKind (getStream s i).desc == 1 then
      (toDcc (getStream s i).dom (windowNeed (getStream s i).desc (getStream s i).reqWin) s).elim
        (.refused (.notEnabled "the window is not eligible")) fun v => .next (memoryRequest v i)
    else if (getStream s i).released + sdNwin (getStream s i).desc ≤ (getStream s i).reqWin then
      .refused (.notEnabled "the ring slot is not free")
    else if sdKind (getStream s i).desc ≠ 2 then .next (memoryRequest s i)
    else if !windowPresent (getStream s (sdSrc (getStream s i).desc)) (getStream s i).reqWin
        (sdCore (getStream s (sdSrc (getStream s i).desc)).desc) then .refused (.notEnabled "the source window is absent")
    else .next (relayRequest s i) := by
  have harm : exec (.streamRequestIssue i) s = execStreamRequestIssue i s := rfl
  have hlive : streamRuns s (getStream s i) = true := by rw [streamRuns, hst, hruns]; rfl
  rw [harm, execStreamRequestIssue, if_neg (isStream hi)]
  simp only [hlive, hfree, Bool.not_true, Bool.false_eq_true, if_false, if_neg (Nat.not_le.mpr hleft)]
  cases toDcc (getStream s i).dom (windowNeed (getStream s i).desc (getStream s i).reqWin) s <;> rfl

theorem loadRequest_completes {pa e : Nat} {u : State} (hkind : sdKind (getStream s i).desc ≠ 1)
    (hrelay : sdKind (getStream s i).desc ≠ 2)
    (hslot : (getStream s i).reqWin < (getStream s i).released + sdNwin (getStream s i).desc)
    (hxl : translate s (getStream s i).dom (64 * windowLine (getStream s i).desc (getStream s i).reqWin (getStream s i).reqOff) false =
      (.ok pa e, u)) :
    let k := runOk u (getStream s i).dom pa
      (64 * requestLines (getStream s i).desc (getStream s i).reqWin (getStream s i).reqOff) false / 64
    ∃ t p, exec (.streamRequestIssue i) s = .next t ∧ t.packets = u.packets ++ [p] ∧ p.ty = 1 ∧ p.pa = pa ∧
      p.va = 64 * windowLine (getStream s i).desc (getStream s i).reqWin (getStream s i).reqOff ∧ p.n = k ∧
      p.dead = deadlineOf u (getStream u i) (getStream s i).reqWin ∧
      p.line = ringLine (getStream s i).desc (getStream s i).reqWin (getStream s i).reqOff ∧
      (getStream t i).reqWin = (advanceRequest (getStream s i) k).reqWin ∧
      (getStream t i).reqOff = (advanceRequest (getStream s i) k).reqOff := by
  intro k
  have hsame := getStream_of_translate hxl i
  have hexec := streamRequestIssue_next hi hst hruns hleft hfree
  rw [if_neg (by simpa using hkind), if_neg (Nat.not_le.mpr hslot), if_pos hrelay, memoryRequest_load hkind hxl] at hexec
  obtain ⟨hpackets, hstream⟩ := sendRequest_effect u i k (streamPacket u i k 1 (posAt u pa) pa
    (64 * windowLine (getStream s i).desc (getStream s i).reqWin (getStream s i).reqOff) e [])
  refine ⟨_, _, hexec, hpackets, rfl, rfl, rfl, rfl, ?_, ?_, ?_, ?_⟩
  · show deadlineOf u (getStream u i) (getStream u i).reqWin = _
    rw [hsame]
  · show ringLine (getStream u i).desc (getStream u i).reqWin (getStream u i).reqOff = _
    rw [hsame]
  · rw [hstream, hsame]
  · rw [hstream, hsame]

theorem storeRequest_completes {pa e : Nat} {u v : State} (hkind : sdKind (getStream s i).desc = 1)
    (hv : toDcc (getStream s i).dom (windowNeed (getStream s i).desc (getStream s i).reqWin) s = some v)
    (hkept : getStream v i = getStream s i)
    (hxl : translate v (getStream s i).dom (64 * windowLine (getStream s i).desc (getStream s i).reqWin (getStream s i).reqOff) true =
      (.ok pa e, u)) :
    let k := runOk u (getStream s i).dom pa
      (64 * requestLines (getStream s i).desc (getStream s i).reqWin (getStream s i).reqOff) true / 64
    let c := (unitAt (sdCore (getStream s i).desc)).getD 0
    let u' := checkLines u c (ringLine (getStream s i).desc (getStream s i).reqWin (getStream s i).reqOff) k (getStream s i).dom
    ∃ t p, exec (.streamRequestIssue i) s = .next t ∧ t.packets = u'.packets ++ [p] ∧ p.ty = 0 ∧ p.pa = pa ∧
      p.va = 64 * windowLine (getStream s i).desc (getStream s i).reqWin (getStream s i).reqOff ∧ p.n = k ∧
      p.dead = deadlineOf u' (getStream s i) (getStream s i).reqWin ∧
      p.data = linesE u' c (ringLine (getStream s i).desc (getStream s i).reqWin (getStream s i).reqOff) k ∧
      (getStream t i).reqWin = (advanceRequest (getStream s i) k).reqWin ∧
      (getStream t i).reqOff = (advanceRequest (getStream s i) k).reqOff := by
  intro k c u'
  have hchecked : getStream u' i = getStream u i := getStream_of_onlyServed (onlyServed_of_onlyChecked (onlyChecked_checkLines ..)) i
  have hsame : getStream u' i = getStream s i := hchecked.trans ((getStream_of_translate hxl i).trans hkept)
  have hexec := streamRequestIssue_next hi hst hruns hleft hfree
  have hrequest := memoryRequest_store (s := v) (i := i) (by rw [hkept]; exact hkind) (by rw [hkept]; exact hxl)
  simp only [hkept] at hrequest
  rw [if_pos (beq_iff_eq.mpr hkind), hv, Option.elim_some, hrequest] at hexec
  obtain ⟨hpackets, hstream⟩ := sendRequest_effect u' i k (streamPacket u' i k 0 (posAt u' pa) pa
    (64 * windowLine (getStream s i).desc (getStream s i).reqWin (getStream s i).reqOff) e
    (linesE u' c (ringLine (getStream s i).desc (getStream s i).reqWin (getStream s i).reqOff) k))
  refine ⟨_, _, hexec, hpackets, rfl, rfl, rfl, rfl, ?_, rfl, ?_, ?_⟩
  · show deadlineOf u' (getStream u' i) (getStream u' i).reqWin = _
    rw [hsame]
  · rw [hstream, hsame]
  · rw [hstream, hsame]

theorem relayRequest_completes (hkind : sdKind (getStream s i).desc = 2)
    (hslot : (getStream s i).reqWin < (getStream s i).released + sdNwin (getStream s i).desc)
    (hsrc : windowPresent (getStream s (sdSrc (getStream s i).desc)) (getStream s i).reqWin
      (sdCore (getStream s (sdSrc (getStream s i).desc)).desc) = true) :
    let src := getStream s (sdSrc (getStream s i).desc)
    let k := requestLines (getStream s i).desc (getStream s i).reqWin (getStream s i).reqOff
    ∃ t p, exec (.streamRequestIssue i) s = .next t ∧ t.packets = s.packets ++ [p] ∧ p.ty = 1 ∧ p.dst = sdCore src.desc ∧
      p.pa = coreBase (sdCore src.desc) + 64 * ringLine src.desc (getStream s i).reqWin (getStream s i).reqOff ∧ p.n = k ∧
      p.dead = deadlineOf s (getStream s i) (getStream s i).reqWin ∧
      getStream t i = { advanceRequest (getStream s i) k with since := s.ns } := by
  intro src k
  have hexec := streamRequestIssue_next hi hst hruns hleft hfree
  rw [if_neg (by rw [hkind]; decide), if_neg (Nat.not_le.mpr hslot), if_neg (not_not_intro hkind), hsrc, Bool.not_true,
    if_neg Bool.false_ne_true] at hexec
  obtain ⟨hpackets, hstream⟩ := sendRequest_effect s i k (streamPacket s i k 1 (sdCore src.desc)
    (coreBase (sdCore src.desc) + 64 * ringLine src.desc (getStream s i).reqWin (getStream s i).reqOff) 0 0 [])
  exact ⟨_, _, hexec, hpackets, rfl, rfl, rfl, rfl, rfl, hstream⟩

end

/-! ### Windows that are filled or drained (R264, R266) -/

theorem finishStream_fields (x : Stream) : (finishStream x).desc = x.desc ∧ (finishStream x).dom = x.dom ∧
    (finishStream x).filled = x.filled ∧ (finishStream x).moved = x.moved := by
  unfold finishStream
  split <;> exact ⟨rfl, rfl, rfl, rfl⟩

/-- The token of a window that has been moved. -/
def windowToken (s : State) (x : Stream) (p : Nat) : State := if sdTokenEn x.desc then sendIncr s p x.dom p (sdToken x.desc) 1 else s

theorem windowToken_effect (s : State) (x y : Stream) (i p : Nat) (hdesc : y.desc = x.desc) (hdom : y.dom = x.dom) :
    SameMemory s (windowToken (changeStream s i y) y p) ∧
      getStream (windowToken (changeStream s i y) y p) i = { y with since := s.ns } ∧
      (windowToken (changeStream s i y) y p).incrs =
        if sdTokenEn x.desc then (sendIncr s p x.dom p (sdToken x.desc) 1).incrs else s.incrs := by
  have hstream := getStream_setStream_same s i { y with since := s.ns }
  have htoken : windowToken (changeStream s i y) y p = windowToken (changeStream s i y) x p := by
    unfold windowToken
    rw [hdesc, hdom]
  rw [htoken]
  unfold windowToken
  cases sdTokenEn x.desc <;> exact ⟨fun _ => rfl, hstream, rfl⟩

section
variable {i : Nat} {s : State} (hi : i < numStreams) (hst : (getStream s i).st = 1 ∨ (getStream s i).st = 2)
include hi hst

theorem windowFilled_completes (p : Nat) (hp : p < 64) (hkind : sdKind (getStream s i).desc ≠ 1)
    (hdest : (streamDests s (getStream s i)).contains p = true)
    (hfull : windowPresent (getStream s i) (SMap.get 0 (getStream s i).filled p) p = true) :
    ∃ t, exec (.windowFilled i p) s = .next t ∧ SameMemory s t ∧
      SMap.get 0 (getStream t i).filled p = SMap.get 0 (getStream s i).filled p + 1 ∧
      t.incrs = (if sdTokenEn (getStream s i).desc then
        (sendIncr s p (getStream s i).dom p (sdToken (getStream s i).desc) 1).incrs else s.incrs) := by
  have harm : exec (.windowFilled i p) s = execWindowFilled i p s := rfl
  have hguard : (decide (numStreams ≤ i) || decide (64 ≤ p)) = false := by simp [isStream hi, Nat.not_le.mpr hp]
  have hlive : ((getStream s i).st == 1 || (getStream s i).st == 2) = true := by rcases hst with h | h <;> rw [h] <;> rfl
  have hload : (sdKind (getStream s i).desc == 1) = false := beq_eq_false_iff_ne.mpr hkind
  let x := { getStream s i with filled := SMap.set 0 (getStream s i).filled p (SMap.get 0 (getStream s i).filled p + 1) }
  obtain ⟨hdesc, hdom, hfilled, -⟩ := finishStream_fields { x with moved := movedOf s x }
  obtain ⟨hmem, hstream, hincrs⟩ := windowToken_effect s (getStream s i) _ i p hdesc hdom
  refine ⟨_, ?_, hmem, ?_, hincrs⟩
  · simp only [harm, execWindowFilled, hguard, hlive, hload, hdest, hfull, Bool.not_true, Bool.or_self, Bool.false_eq_true, if_false]
    rfl
  · rw [hstream]
    exact (congrArg (SMap.get 0 · p) hfilled).trans (SMap.get_set_same 0 (SMap.get 0 (getStream s i).filled p + 1) (getStream s i).filled p)

theorem storeWindowAcknowledged_completes (hkind : sdKind (getStream s i).desc = 1)
    (hall : SMap.get 0 (getStream s i).got ((getStream s i).moved * 64 + sdCore (getStream s i).desc) =
      sdWinLines (getStream s i).desc) :
    ∃ t, exec (.storeWindowAcknowledged i) s = .next t ∧ SameMemory s t ∧ (getStream t i).moved = (getStream s i).moved + 1 ∧
      t.incrs = (if sdTokenEn (getStream s i).desc then (sendIncr s (sdCore (getStream s i).desc) (getStream s i).dom
        (sdCore (getStream s i).desc) (sdToken (getStream s i).desc) 1).incrs else s.incrs) := by
  have harm : exec (.storeWindowAcknowledged i) s = execStoreWindowAcknowledged i s := rfl
  have hlive : ((getStream s i).st == 1 || (getStream s i).st == 2) = true := by rcases hst with h | h <;> rw [h] <;> rfl
  obtain ⟨hdesc, hdom, -, hmoved⟩ := finishStream_fields { getStream s i with moved := (getStream s i).moved + 1 }
  obtain ⟨hmem, hstream, hincrs⟩ := windowToken_effect s (getStream s i) _ i (sdCore (getStream s i).desc) hdesc hdom
  refine ⟨_, ?_, hmem, (congrArg Stream.moved hstream).trans hmoved, hincrs⟩
  simp only [harm, execStoreWindowAcknowledged, if_neg (isStream hi), hlive, hkind, hall, Bool.not_true, Bool.or_self,
    ne_eq, not_true_eq_false, decide_false, Bool.false_eq_true, if_false]
  simp only [windowToken, hdesc, hdom]

end

/-! ### Mutual waits (R274) -/

theorem foldl_min_mem (l : List Nat) (a : Nat) : l.foldl min a ≤ a ∧ (l.foldl min a = a ∨ l.foldl min a ∈ l) := by
  induction l generalizing a with
  | nil => exact ⟨Nat.le_refl a, .inl rfl⟩
  | cons b l ih =>
    obtain ⟨hle, hmem⟩ := ih (min a b)
    rw [List.foldl_cons]
    refine ⟨Nat.le_trans hle (Nat.min_le_left a b), ?_⟩
    rcases hmem with heq | hin
    · rw [heq]
      rcases Nat.le_total a b with hab | hab
      · exact .inl (Nat.min_eq_left hab)
      · exact .inr (by rw [Nat.min_eq_right hab]; exact List.mem_cons_self ..)
    · exact .inr (List.mem_cons_of_mem b hin)

theorem streamWait_completes {i : Nat} {s : State} (hi : i < numStreams) (hcycle : (reachesOf s i).contains i = true) :
    let cycle := (reachesOf s i).filter fun y => (reachesOf s y).contains i
    let low := cycle.foldl min i
    let left := cycleNs s cycle + getP s (pk 0x0702 3) * 1000000 - s.ns
    let u := advance (ceilDiv (left * freqMhz s) 1000) s
    ∃ r, exec (.streamWait i) s = .next (raise u r) ∧ r.code = 7 ∧ r.dom = some (getStream s low).dom ∧ r.detail0 = low ∧
      low ≤ i ∧ (low = i ∨ low ∈ reachesOf s i) := by
  intro cycle low left u
  have harm : exec (.streamWait i) s = execStreamWait i s := rfl
  obtain ⟨hle, hmem⟩ := foldl_min_mem cycle i
  refine ⟨{ mkRaised u 7 (getStream s low).dom ((unitAt (sdCore (getStream s low).desc)).getD 0) with
    detail0 := low, detail1 := ((waitsFor s low).filter fun y => cycle.contains y).headD 0 }, ?_, rfl, rfl, rfl, hle, hmem.imp_right fun h => (List.mem_filter.mp h).1⟩
  rw [harm, execStreamWait, if_neg (isStream hi)]
  exact if_neg (by rw [hcycle]; exact Bool.false_ne_true)

/-- Settles O49: each event by its guard; what a released slot clears through the PRESENT bits, what a request sends through the
translation that it makes. -/
theorem streamEventsComplete : Obligations.StreamEventsComplete := by
  intro i s hi
  exact ⟨fun u hst hruns hmode hleft hu => windowCurrent_completes hi hst hruns hmode hleft hu,
    fun u h0 h4 hleft hwhen => windowRelease_completes hi h0 h4 hleft hwhen,
    fun u h0 h4 hruns hmode hleft hu => windowCheck_completes hi h0 h4 hruns hmode hleft hu,
    fun hst hruns hleft hfree =>
      ⟨fun pa e u hkind hrelay hslot hxl => loadRequest_completes hi hst hruns hleft hfree hkind hrelay hslot hxl,
        fun pa e u v hkind hv hkept hxl => storeRequest_completes hi hst hruns hleft hfree hkind hv hkept hxl,
        fun hkind hslot hsrc => relayRequest_completes hi hst hruns hleft hfree hkind hslot hsrc⟩,
    fun p hp hst hkind hdest hfull => windowFilled_completes hi hst p hp hkind hdest hfull,
    fun hst hkind hall => storeWindowAcknowledged_completes hi hst hkind hall, fun hcycle => streamWait_completes hi hcycle⟩

end Sys2Proof.Machine
end

