-- ==== Sys2Proof/Proofs/StackEvents.lean ====
section
/-!
SUPPORT. The events of the HBM stacks (R269, R293, R300, R303, R304, R306).
-/
namespace Sys2Proof.Machine

/-! ### The service of a request (R269, R304) -/

/-- Requests that wait for tokens are counted, and nothing else. -/
theorem noteWaits_eq (s : State) (k : Nat) : ∃ t : State, t = { s with par := t.par } ∧
    noteWaits s k = { t with hbmq := SMap.set [] t.hbmq k ((queueAt s k).map fun r =>
      if !admissible s k r then { r with waited := true } else r) } := by
  refine ⟨_, ?_, rfl⟩
  refine foldl_keeps (fun t : State => t = { s with par := t.par }) _ (fun t r ht => ?_) (queueAt s k) s rfl
  split
  · exact congrArg (fun t => incP t (pk (0x0820 + r.part) 6) 1) ht
  · exact ht

theorem noteWaits_frame (s : State) (k : Nat) : SameMemory s (noteWaits s k) ∧ (noteWaits s k).packets = s.packets ∧
    queueAt (noteWaits s k) k = (queueAt s k).map fun r => if admissible s k r then r else { r with waited := true } := by
  obtain ⟨t, ht, hnote⟩ := noteWaits_eq s k
  rw [hnote]
  refine ⟨?_, ?_, ?_⟩
  · rw [ht]; exact fun _ => rfl
  · rw [ht]
  · refine (SMap.get_set_same ..).trans (List.map_congr_left fun r _ => ?_)
    cases admissible s k r <;> rfl

theorem isStack {k : Nat} (hk : k < 8) : ¬ 8 ≤ k := Nat.not_le.mpr hk

/-- What a stack does with its queue once the waits are noted. -/
theorem hbmRequestService_next {k : Nat} {s : State} (hk : k < 8) (hsome : SMap.get [] s.hbmq k ≠ []) :
    let u := noteWaits s k
    let q := unblocked [] (queueAt u k)
    exec (.hbmRequestService k) s = .next ((minBy reqBefore (q.filter (admissible u k))).elim
      ((minBy reqBefore (q.filter fun r => getP u (pk (0x0820 + r.part) 3) == 1)).elim u
        fun r => serveReq (incP u (pk (0x0820 + r.part) 5) (reqCharge u r)) k r)
      fun r => serveReq (deduct u k r.part (reqCharge u r)) k r) := by
  intro u q
  have harm : exec (.hbmRequestService k) s = execHbmRequestService k s := rfl
  have hq : (queueAt s k).isEmpty = false := List.isEmpty_eq_false_iff.mpr hsome
  rw [harm, execHbmRequestService, if_neg (isStack hk), hq, if_neg Bool.false_ne_true]
  dsimp only
  cases hfit : minBy reqBefore (q.filter (admissible u k)) with
  | some r => rfl
  | none => cases minBy reqBefore (q.filter fun r => getP u (pk (0x0820 + r.part) 3) == 1) <;> rfl

theorem hbmRequestService_completes {k : Nat} {s : State} (hk : k < 8) (hsome : SMap.get [] s.hbmq k ≠ []) :
    let u := noteWaits s k
    let q := SMap.get [] u.hbmq k
    let fit := (unblocked [] q).filter fun r => decide (8 * reqCharge u r ≤ tokens8 u k r.part)
    let lend := (unblocked [] q).filter fun r => getP u (pk (0x0820 + r.part) 3) == 1
    (∀ r, minBy reqBefore fit = some r →
      exec (.hbmRequestService k) s = .next (serveReq (deduct u k r.part (reqCharge u r)) k r)) ∧
    (∀ r, fit = [] → minBy reqBefore lend = some r →
      exec (.hbmRequestService k) s = .next (serveReq (incP u (pk (0x0820 + r.part) 5) (reqCharge u r)) k r)) ∧
    (fit = [] → lend = [] → exec (.hbmRequestService k) s = .next u) ∧
    SameMemory s u ∧ u.packets = s.packets ∧
    q = (SMap.get [] s.hbmq k).map fun r => if admissible s k r then r else { r with waited := true } := by
  intro u q fit lend
  have hexec : exec (.hbmRequestService k) s = .next ((minBy reqBefore fit).elim ((minBy reqBefore lend).elim u
      fun r => serveReq (incP u (pk (0x0820 + r.part) 5) (reqCharge u r)) k r)
      fun r => serveReq (deduct u k r.part (reqCharge u r)) k r) := hbmRequestService_next hk hsome
  refine ⟨fun r hr => ?_, fun r hfit hr => ?_, fun hfit hlend => ?_, noteWaits_frame s k⟩
  · rw [hexec, hr, Option.elim_some]
  · rw [hexec, hfit, hr]
    rfl
  · rw [hexec, hfit, hlend]
    rfl

theorem checkEdges_of_noErrs {s : State} (h : s.errs = []) (pa n : Nat) (d : Option Nat) : checkEdges s pa n d = s := by
  rw [checkEdges, h]
  rfl

theorem packets_checkEdges (s : State) (pa n : Nat) (d : Option Nat) : (checkEdges s pa n d).packets = s.packets := by
  have hsector (t : State) (a : Nat) : (checkSector t a d).packets = t.packets := by rw [onlyChecked_checkSector]
  unfold checkEdges
  dsimp only
  split
  · rfl
  · split
    · split
      · rfl
      · exact hsector ..
    · refine (hsector ..).trans ?_
      split
      · rfl
      · exact hsector ..

/-- The state once a request has left its stack's queue. -/
def dequeued (v : State) (k : Nat) (r : HbmReq) : State := { v with hbmq := SMap.set [] v.hbmq k (eraseFirst r (queueAt v k)) }

/-- The domain that an access of a partition is for. -/
def requestDom (q : Nat) : Option Nat := if q < 8 then some q else none

theorem serveReq_read {v : State} {r : HbmReq} (k : Nat) (hwide : r.narrow = false) (hty : r.pkt.ty ≠ 0) :
    let t := checkRange (dequeued v k r) r.pkt.pa (64 * r.pkt.n) (requestDom r.part)
    serveReq v k r = sendPacket t (replyTo r.pkt (replyVc r.pkt)
      ((List.range r.pkt.n).map fun j => plineOf (readPhys t (r.pkt.pa + 64 * j) 64))) := by
  intro t
  unfold serveReq
  dsimp only
  rw [if_neg (by simpa using hty), hwide, if_neg Bool.false_ne_true, if_neg Bool.false_ne_true]
  rfl

theorem serveReq_read_frame {v : State} {r : HbmReq} (k : Nat) (hwide : r.narrow = false) (hty : r.pkt.ty ≠ 0) (herrs : v.errs = []) :
    SameMemory v (serveReq v k r) := by
  rw [serveReq_read k hwide hty, checkRange_of_noErrs (s := dequeued v k r) herrs]
  exact fun _ => rfl

/-- The bytes of a write request. -/
def writeBytes (r : HbmReq) : List (Byte × Bool) := (r.pkt.data.flatMap plineBytes).take (64 * r.pkt.n)

theorem acceptWrite_unmanaged {s : State} {pte : Nat} (hshadow : pteShadow pte = false) (hmirror : pteMirror pte = false)
    (d va pa born : Nat) (bs : List (Byte × Bool)) (pkt : Option Packet) :
    acceptWrite s d va pa pte born bs pkt = (true, writePhys s pa bs) := by
  rw [acceptWrite, hshadow, hmirror]
  exact if_pos rfl

theorem serveReq_write {v : State} {r : HbmReq} (k : Nat) (hwide : r.narrow = false) (hty : r.pkt.ty = 0)
    (hshadow : pteShadow r.pkt.pte = false) (hmirror : pteMirror r.pkt.pte = false) :
    serveReq v k r = sendPacket (writePhys (checkEdges (dequeued v k r) r.pkt.pa (writeBytes r).length (requestDom r.part))
      r.pkt.pa (writeBytes r)) { r.pkt with ty := 3, src := r.pkt.dst, dst := r.pkt.src, vc := 1, data := [] } := by
  unfold serveReq
  dsimp only
  rw [if_pos (beq_iff_eq.mpr hty), hwide, if_neg Bool.false_ne_true, if_neg Bool.false_ne_true,
    acceptWrite_unmanaged hshadow hmirror]
  rfl

theorem writePhys_hbm {s : State} {pa : Nat} (hregion : regionOf s pa = .hbm) (bs : List (Byte × Bool)) :
    writePhys s pa bs = writeP s pa bs := by
  unfold writePhys
  rw [hregion]

theorem serveReq_write_effect {v : State} {r : HbmReq} (k : Nat) (hwide : r.narrow = false) (hty : r.pkt.ty = 0)
    (hshadow : pteShadow r.pkt.pte = false) (hmirror : pteMirror r.pkt.pte = false) :
    (∃ y, (serveReq v k r).packets = v.packets ++ [{ r.pkt with
      ty := 3, src := r.pkt.dst, dst := r.pkt.src, vc := 1, data := [], leg := false, via := y }]) ∧
    (v.errs = [] → regionOf v r.pkt.pa = .hbm → SameMemoryBut r.pkt.pa (64 * r.pkt.n) v (serveReq v k r)) := by
  rw [serveReq_write k hwide hty hshadow hmirror]
  refine ⟨⟨_, congrArg (· ++ _) ?_⟩, fun herrs hregion => ?_⟩
  · rw [onlyAccepted_writePhys]
    exact packets_checkEdges ..
  · rw [checkEdges_of_noErrs (s := dequeued v k r) herrs, writePhys_hbm (s := dequeued v k r) hregion]
    have hlen : (writeBytes r).length ≤ 64 * r.pkt.n := by rw [writeBytes, List.length_take]; exact Nat.min_le_left ..
    exact sameMemoryBut_writeP_within (dequeued v k r) (Nat.le_refl _) (Nat.add_le_add_left hlen _)

/-! ### Scrubbing (R300) -/

theorem scrub_completes {k : Nat} {s : State} (hk : k < 8) :
    (getP s (pk 0x0805 0) = 0 → exec (.scrub k) s = .next s) ∧
    (getP s (pk 0x0805 0) ≠ 0 → ∃ t, exec (.scrub k) s = .next t ∧
      t = { checkSector (chargeNow s k 8 (charge 128)) (sectorPa k (SMap.get 0 s.scrubAt k)) none with scrubAt := t.scrubAt } ∧
      SMap.get 0 t.scrubAt k = (SMap.get 0 s.scrubAt k + 1) % stackSectors) := by
  have harm : exec (.scrub k) s = execScrub k s := rfl
  rw [harm, execScrub, if_neg (isStack hk)]
  refine ⟨fun hoff => if_pos (beq_iff_eq.mpr hoff), fun hon => ?_⟩
  rw [if_neg (by simpa using hon)]
  exact ⟨_, rfl, rfl, SMap.get_set_same ..⟩

/-! ### Temperature (R303, R306) -/

/-- The buckets of a stack brought to the present. -/
def refilled (k : Nat) (s : State) : State :=
  (List.range 9).foldl (fun s q => { s with buckets := SMap.set {} s.buckets (9 * k + q) (refill s k q) }) s

theorem refilled_eq (k : Nat) (s : State) : refilled k s = { s with buckets := (refilled k s).buckets } := by
  unfold refilled
  generalize List.range 9 = qs
  induction qs generalizing s with
  | nil => rfl
  | cons q qs ih => rw [List.foldl_cons, ih]

/-- What a report publishes before the throttle level follows. -/
def reported (k : Nat) (e : Int) (s : State) : State :=
  setP (setP { s with thrAt := SMap.set (0, 0) s.thrAt k (throttledNs s k, s.ns) } (pk (0x0830 + k) 1) (wrap 32 e))
    (pk (0x0830 + k) 6) (if 8 * 85 < e then 1 else 0)

theorem stackTemperatureRead_publishes {k : Nat} (e : Int) {s : State} (hk : k < 8) :
    exec (.stackTemperatureRead k e) s = .next (setP (refilled k (reported k e s)) (pk (0x0830 + k) 2)
      (throttleLevel (getP s (pk 0x0838 1)) (getP s (pk 0x0838 2)) (getP s (pk 0x0838 3)) (getP s (pk (0x0830 + k) 2)) e)) := by
  have harm : exec (.stackTemperatureRead k e) s = execStackTemperatureRead k e s := rfl
  unfold refilled reported
  rw [harm, execStackTemperatureRead, if_neg (isStack hk)]

theorem refilled_frame (k : Nat) (s : State) : (refilled k s).par = s.par ∧ (refilled k s).mem = s.mem := by
  rw [refilled_eq]
  exact ⟨rfl, rfl⟩

theorem getP_refilled (k : Nat) (s : State) (key : Nat) : getP (refilled k s) key = getP s key :=
  congrArg (fun p => SMap.get (paramDefault key) p key) (refilled_frame k s).1

theorem stackTemperatureRead_completes (k : Nat) (e : Int) (s : State) (hk : k < 8) :
    ∃ t, exec (.stackTemperatureRead k e) s = .next t ∧ SameMemory s t ∧
    getP t (pk (0x0830 + k) 1) = wrap 32 e ∧ getP t (pk (0x0830 + k) 6) = (if 680 < e then 1 else 0) ∧
    getP t (pk (0x0830 + k) 2) = throttleLevel (getP s (pk 0x0838 1)) (getP s (pk 0x0838 2)) (getP s (pk 0x0838 3))
      (getP s (pk (0x0830 + k) 2)) e ∧
    SameParamsBut [pk (0x0830 + k) 1, pk (0x0830 + k) 2, pk (0x0830 + k) 3, pk (0x0830 + k) 6] s t := by
  have h21 : pk (0x0830 + k) 2 ≠ pk (0x0830 + k) 1 := by unfold pk; omega
  have h26 : pk (0x0830 + k) 2 ≠ pk (0x0830 + k) 6 := by unfold pk; omega
  have h61 : pk (0x0830 + k) 6 ≠ pk (0x0830 + k) 1 := by unfold pk; omega
  refine ⟨_, stackTemperatureRead_publishes e hk, ?_, ?_, ?_, getP_setP_same .., fun j hj => ?_⟩
  · exact sameMemory_of_eq (refilled_frame k (reported k e s)).2
  · rw [getP_setP_other _ _ h21, getP_refilled, reported, getP_setP_other _ _ h61, getP_setP_same]
  · rw [getP_setP_other _ _ h26, getP_refilled, reported, getP_setP_same]
    rfl
  · obtain ⟨h1, hj⟩ := List.ne_and_not_mem_of_not_mem_cons hj
    obtain ⟨h2, hj⟩ := List.ne_and_not_mem_of_not_mem_cons hj
    obtain ⟨-, hj⟩ := List.ne_and_not_mem_of_not_mem_cons hj
    have h6 := List.ne_of_not_mem_cons hj
    rw [getP_setP_other _ _ (Ne.symm h2), getP_refilled, reported, getP_setP_other _ _ (Ne.symm h6), getP_setP_other _ _ (Ne.symm h1)]
    rfl

/-- Settles O50: the service through the waits that it notes, reads and writes through `serveReq`, the rest by what they write. -/
theorem stackEventsComplete : Obligations.StackEventsComplete :=
  ⟨fun _ _ hk hsome => hbmRequestService_completes hk hsome,
    fun k _ _ hwide => ⟨fun hty => ⟨serveReq_read k hwide hty, serveReq_read_frame k hwide hty⟩,
      fun hty hshadow hmirror => serveReq_write_effect k hwide hty hshadow hmirror⟩,
    fun k bank s hk => (if_neg (isStack hk) : execHbmRefresh k bank s = .next s), fun _ _ hk => scrub_completes hk,
    stackTemperatureRead_completes⟩

end Sys2Proof.Machine
end

