-- ==== Sys2Proof/Proofs/ClockEvents.lean ====
section
/-!
SUPPORT. Clocks: frequency, regulators, stretches and crossings (R360 to R374).
-/
namespace Sys2Proof.Machine

/-! ### What the frequency control changes (R368, R369) -/

/-- The parameters that the frequency control writes. -/
def governKeys : List Nat := [pk 0x0311 1, pk 0x0311 2, pk 0x0311 5, pk 0x0930 3]

/-- From `s` to `u` nothing has changed but the switch in progress and parameters. -/
def OnlySwitch (s u : State) : Prop :=
  u = { s with par := u.par, clk := { s.clk with
    phase := u.clk.phase, newF := u.clk.newF, freqSeen := u.clk.freqSeen, srmMv := u.clk.srmMv } }

theorem onlySwitch_trans {s t u : State} (h : OnlySwitch s t) (k : OnlySwitch t u) : OnlySwitch s u := by
  rw [OnlySwitch] at h k ⊢
  rw [k, h]

/-- From `s` to `u` nothing has changed but the switch in progress and the control's parameters. -/
def OnlyGoverned (s u : State) : Prop := OnlySwitch s u ∧ SameParamsBut governKeys s u

theorem onlyGoverned_trans {s t u : State} (h : OnlyGoverned s t) (k : OnlyGoverned t u) : OnlyGoverned s u :=
  ⟨onlySwitch_trans h.1 k.1, fun key hkey => (k.2 key hkey).trans (h.2 key hkey)⟩

theorem onlyGoverned_setP (s : State) {key : Nat} (v : Nat) (hkey : key ∈ governKeys) : OnlyGoverned s (setP s key v) :=
  ⟨rfl, sameParamsBut_setP (t := s) hkey rfl⟩

theorem onlyGoverned_announce (s : State) (f : Nat) : OnlyGoverned s (announce s f) := by
  unfold announce
  extract_lets t
  have ht : OnlyGoverned s t := onlyGoverned_trans (onlyGoverned_setP s f (by decide)) (onlyGoverned_setP _ _ (by decide))
  clear_value t
  exact onlyGoverned_trans ht ⟨rfl, sameParamsBut_setP (.tail _ (.tail _ (.tail _ (.head _)))) rfl⟩

theorem onlyGoverned_govern (s : State) : OnlyGoverned s (govern s) := by
  have hstart : OnlyGoverned s (setP s (pk 0x0311 5) (limitOf s).2) := onlyGoverned_setP s _ (by decide)
  unfold govern
  dsimp only
  split
  · exact hstart
  · split
    · exact onlyGoverned_trans hstart ⟨rfl, fun _ _ => rfl⟩
    · exact onlyGoverned_trans hstart (onlyGoverned_announce ..)

theorem OnlyGoverned.frame {s u : State} (h : OnlyGoverned s u) :
    SameMemory s u ∧ freqMhz u = freqMhz s ∧ u.ctc = s.ctc ∧ u.clk.genB = s.clk.genB ∧ u.clk.alertAvs = s.clk.alertAvs := by
  obtain ⟨hu, hpar⟩ := h
  refine ⟨?_, hpar _ (by decide), ?_⟩ <;> rw [hu]
  · exact fun _ => rfl
  · exact ⟨rfl, rfl, rfl⟩

/-! ### Targets and service clocks (R360, R368) -/

theorem targetMhzWrite_completes (v : Nat) (s : State) (hgate : gateOk s (pk 0x0310 1) = true) (hlo : 900 ≤ v) (hhi : v ≤ 2000)
    (hstep : v % 25 = 0) :
    ∃ t, exec (.targetMhzWrite v) s = .next t ∧ SameMemory s t ∧ t.wstatus = 0 ∧ getP t (pk 0x0310 1) = v ∧ freqMhz t = freqMhz s := by
  have hrange : (decide (v < 900) || decide (2000 < v) || decide (v % 25 ≠ 0)) = false := by simp; omega
  have hwrite : writeTarget s v = (0, govern (setP s (pk 0x0310 1) v)) := if_neg (by rw [hrange]; exact Bool.false_ne_true)
  have hgov := onlyGoverned_govern (setP s (pk 0x0310 1) v)
  generalize govern (setP s (pk 0x0310 1) v) = u at hwrite hgov
  obtain ⟨hmem, hfreq, -⟩ := hgov.frame
  exact ⟨_, congrArg Host.Outcome.next (gated_ok hgate hwrite), hmem, rfl, (hgov.2 _ (by decide)).trans (getP_setP_same ..),
    hfreq.trans (getP_setP_other s v (by decide))⟩

theorem ceilDiv_mul_ge (a : Nat) {b : Nat} (hb : 0 < b) : a ≤ ceilDiv a b * b := by
  unfold ceilDiv
  have := Nat.lt_div_mul_add hb (a := a + b - 1)
  omega

/-- When a change of a service clock takes effect. -/
def serviceDue (s : State) (sub : Nat) : Nat :=
  max (ceilDiv (s.ns + 2000) 10 * 10) ((s.clk.service.filter fun w => w.1 == sub).foldl (fun a w => max a (w.2.2 + 10)) 0)

theorem writeService_ok {s : State} {sub v : Nat}
    (h : (sub = 1 ∧ 800 ≤ v ∧ v ≤ 1600 ∧ v % 100 = 0) ∨ (sub = 2 ∧ 800 ≤ v ∧ v ≤ 1600 ∧ v % 200 = 0) ∨
      (sub = 3 ∧ 1000 ≤ v ∧ v ≤ 1500 ∧ v % 100 = 0)) :
    writeService s sub v = (0, { setP s (pk 0x0312 sub) v with
      clk := { s.clk with service := s.clk.service ++ [(sub, v, serviceDue s sub)] } }) := by
  unfold writeService
  obtain ⟨rfl, hlo, hhi, hstep⟩ | ⟨rfl, hlo, hhi, hstep⟩ | ⟨rfl, hlo, hhi, hstep⟩ := h <;>
  · simp only [decide_eq_true hlo, decide_eq_true hhi, hstep, beq_self_eq_true, Bool.and_self, Bool.not_true, Bool.false_eq_true,
      if_false]
    rfl

theorem serviceClockWrite_completes (sub v : Nat) (s : State) (hgate : gateOk s (pk 0x0312 sub) = true)
    (h : (sub = 1 ∧ 800 ≤ v ∧ v ≤ 1600 ∧ v % 100 = 0) ∨ (sub = 2 ∧ 800 ≤ v ∧ v ≤ 1600 ∧ v % 200 = 0) ∨
      (sub = 3 ∧ 1000 ≤ v ∧ v ≤ 1500 ∧ v % 100 = 0)) :
    ∃ t due, exec (.serviceClockWrite sub v) s = .next t ∧ SameMemory s t ∧ t.wstatus = 0 ∧ getP t (pk 0x0312 sub) = v ∧
      t.clk.service = s.clk.service ++ [(sub, v, due)] ∧ s.ns + 2000 ≤ due ∧ SameParamsBut [pk 0x0312 sub] s t := by
  have hsub : ¬ (sub == 0 || decide (3 < sub)) = true := by simp; omega
  refine ⟨_, serviceDue s sub, (write_ite hsub).trans (congrArg _ (gated_ok hgate (writeService_ok h))), fun _ => rfl, rfl,
    getP_setP_same s _ v, rfl, ?_, sameParamsBut_setP (t := s) (List.mem_singleton_self _) rfl⟩
  exact Nat.le_trans (ceilDiv_mul_ge (s.ns + 2000) (by decide)) (Nat.le_max_left ..)

/-! ### Frequency switches (R365, R369) -/

theorem freq_reaches (z : Nat) (s : State) (hz : z < 16) (hphase : s.clk.phase = .announced) (hseen : bit s.clk.freqSeen z = false) :
    exec (.freq z) s = .next { s with clk := { s.clk with freqSeen := s.clk.freqSeen + 2 ^ z } } := by
  have harm : exec (.freq z) s = execFreq z s := rfl
  rw [harm, execFreq, if_neg (Nat.not_le.mpr hz), if_neg (by simp [hphase, hseen])]

theorem settleClocks_clk (s : State) : (settleClocks s).clk.newF = s.clk.newF ∧ (settleClocks s).clk.genB = s.clk.genB := by
  unfold settleClocks
  split <;> exact ⟨rfl, rfl⟩

theorem count_clk (k : Nat) (s : State) : (count k s).clk.newF = s.clk.newF ∧ (count k s).clk.genB = s.clk.genB := by
  unfold count addTime
  exact settleClocks_clk _

theorem toCtc_clk_of_quiet {s : State} (hruns : s.clk.runs = true) (hquiet : quiet s = true) (c : Nat) :
    (toCtc c s).clk.newF = s.clk.newF ∧ (toCtc c s).clk.genB = s.clk.genB := by
  unfold toCtc
  rcases Nat.eq_zero_or_pos (c - s.ctc) with h0 | hpos
  · rw [h0, advance_zero s hruns]
    exact ⟨rfl, rfl⟩
  · rw [advance_of_quiet hruns hquiet hpos]
    exact count_clk (c - s.ctc) s

/-- A zone's clock handed to the new generator: its frequency published, the next step of the regulators to come. -/
def switched (u : State) : State :=
  let v := incP (setP u (pk 0x0311 3) u.clk.newF) (pk 0x0311 4) 1
  { v with nsFrac := v.nsFrac * u.clk.newF / max 1 (freqMhz u)
           clk := { v.clk with genB := !v.clk.genB, phase := if u.clk.newF < freqMhz u then .lowerCmp else .none } }

theorem frequencySwitch_switches {s : State} (hphase : s.clk.phase = .announced) (hseen : s.clk.freqSeen = 0xFFFF)
    (hruns : s.clk.runs = true) :
    let u := toCtc (getP s (pk 0x0311 2)) s
    exec .frequencySwitch s =
      .next (if u.clk.newF < freqMhz u then requestCmp (switched u) u.clk.newF else govern (switched u)) := by
  intro u
  have harm : exec .frequencySwitch s = execFrequencySwitch s := rfl
  rw [harm, execFrequencySwitch, if_neg (by simp [hphase, hseen, hruns])]
  by_cases hfell : u.clk.newF < freqMhz u <;> simp only [u, switched] at hfell ⊢ <;>
    simp only [hfell, decide_true, decide_false, if_true, if_false, Bool.false_eq_true]

theorem frequencySwitch_completes (s : State) (hphase : s.clk.phase = .announced) (hseen : s.clk.freqSeen = 0xFFFF)
    (hruns : s.clk.runs = true) :
    let u := toCtc (getP s (pk 0x0311 2)) s
    ∃ t, exec .frequencySwitch s = .next t ∧ freqMhz t = u.clk.newF ∧ t.ctc = u.ctc ∧ t.clk.genB = !u.clk.genB ∧
      (quiet s = true → u.clk.newF = s.clk.newF ∧ u.clk.genB = s.clk.genB ∧ u.ctc = max s.ctc (getP s (pk 0x0311 2))) := by
  intro u
  have hquietly : quiet s = true → u.clk.newF = s.clk.newF ∧ u.clk.genB = s.clk.genB ∧ u.ctc = max s.ctc (getP s (pk 0x0311 2)) :=
    fun hquiet => by
      obtain ⟨hf, hb⟩ := toCtc_clk_of_quiet hruns hquiet (getP s (pk 0x0311 2))
      exact ⟨hf, hb, ctc_toCtc_of_quiet hruns hquiet _⟩
  have hfreq : freqMhz (switched u) = u.clk.newF := (getP_incP_other _ 1 (by decide)).trans (getP_setP_same u _ _)
  have hexec : exec .frequencySwitch s = .next (if u.clk.newF < freqMhz u then requestCmp (switched u) u.clk.newF
    else govern (switched u)) := frequencySwitch_switches hphase hseen hruns
  by_cases hfell : u.clk.newF < freqMhz u
  · rw [if_pos hfell] at hexec
    exact ⟨_, hexec, (getP_setP_other (switched u) _ (by decide)).trans hfreq, rfl, rfl, hquietly⟩
  · rw [if_neg hfell] at hexec
    obtain ⟨-, hsame, hctc, hgen, -⟩ := (onlyGoverned_govern (switched u)).frame
    exact ⟨_, hexec, hsame.trans hfreq, hctc, hgen, hquietly⟩

/-! ### Steps of the regulators (R369, R374) -/

/-- The regulators after a step that has settled, the switch in a phase. -/
def inPhaseOf (s : State) (ph : SwPhase) : State := { stepOk s with clk := { s.clk with phase := ph, alertAvs := false } }

/-- The step that follows a step of a switch. -/
def nextStep (s : State) : SwPhase → State
  | .raiseSrm => requestCmp (inPhaseOf s .raiseCmp) s.clk.newF
  | .raiseCmp => announce (stepOk s) s.clk.newF
  | .lowerCmp => requestSrm (inPhaseOf s .lowerSrm) s.clk.newF
  | _ => govern (inPhaseOf s .none)

theorem regulatorStepSettled_margin {s : State} (hmargin : s.clk.marginTo.isSome = true) :
    exec .regulatorStepSettled s = .next { stepOk s with clk := { s.clk with marginTo := none, alertAvs := false } } :=
  (if_pos hmargin : execRegulatorStepSettled s = _)

theorem regulatorStepSettled_phase {s : State} (hmargin : ¬ s.clk.marginTo.isSome = true)
    (hphase : s.clk.phase ≠ .none ∧ s.clk.phase ≠ .announced) :
    exec .regulatorStepSettled s = .next (nextStep s s.clk.phase) := by
  have harm : exec .regulatorStepSettled s = execRegulatorStepSettled s := rfl
  obtain ⟨hnone, hannounced⟩ := hphase
  rw [harm, execRegulatorStepSettled, if_neg hmargin]
  generalize s.clk.phase = ph at hnone hannounced
  cases ph with
  | none => exact absurd rfl hnone
  | announced => exact absurd rfl hannounced
  | _ => rfl

theorem requestSrm_frame (s : State) (f : Nat) :
    SameMemory s (requestSrm s f) ∧ (requestSrm s f).clk.alertAvs = s.clk.alertAvs ∧ freqMhz (requestSrm s f) = freqMhz s :=
  ⟨fun _ => rfl, rfl, rfl⟩

theorem stepOk_frame (s : State) : SameMemory s (stepOk s) ∧ (stepOk s).clk.alertAvs = false ∧ freqMhz (stepOk s) = freqMhz s :=
  ⟨fun _ => rfl, rfl, rfl⟩

theorem inPhaseOf_frame (s : State) (ph : SwPhase) :
    SameMemory s (inPhaseOf s ph) ∧ (inPhaseOf s ph).clk.alertAvs = false ∧ freqMhz (inPhaseOf s ph) = freqMhz s :=
  ⟨fun _ => rfl, rfl, rfl⟩

/-- What every step that follows leaves as it was. -/
theorem nextStep_frame (s : State) (ph : SwPhase) :
    SameMemory s (nextStep s ph) ∧ (nextStep s ph).clk.alertAvs = false ∧ freqMhz (nextStep s ph) = freqMhz s := by
  have hgov : SameMemory s (govern (inPhaseOf s .none)) ∧ (govern (inPhaseOf s .none)).clk.alertAvs = false ∧
      freqMhz (govern (inPhaseOf s .none)) = freqMhz s := by
    obtain ⟨hmem, hfreq, -, -, halert⟩ := (onlyGoverned_govern (inPhaseOf s .none)).frame
    obtain ⟨hpmem, hpalert, hpfreq⟩ := inPhaseOf_frame s .none
    exact ⟨fun a => (hmem a).trans (hpmem a), halert.trans hpalert, hfreq.trans hpfreq⟩
  cases ph with
  | raiseSrm =>
    obtain ⟨hpmem, hpalert, hpfreq⟩ := inPhaseOf_frame s .raiseCmp
    have hkept : ∀ (u : State) (v : Nat), freqMhz (setP u (pk 0x0320 1) v) = freqMhz u := fun u v => getP_setP_other u v (by decide)
    exact ⟨hpmem, hpalert, (hkept ..).trans hpfreq⟩
  | raiseCmp =>
    obtain ⟨hmem, hfreq, -, -, halert⟩ := (onlyGoverned_announce (stepOk s) s.clk.newF).frame
    obtain ⟨hpmem, hpalert, hpfreq⟩ := stepOk_frame s
    exact ⟨fun a => (hmem a).trans (hpmem a), halert.trans hpalert, hfreq.trans hpfreq⟩
  | lowerCmp =>
    obtain ⟨hmem, halert, hfreq⟩ := requestSrm_frame (inPhaseOf s .lowerSrm) s.clk.newF
    obtain ⟨hpmem, hpalert, hpfreq⟩ := inPhaseOf_frame s .lowerSrm
    exact ⟨fun a => (hmem a).trans (hpmem a), halert.trans hpalert, hfreq.trans hpfreq⟩
  | none => exact hgov
  | announced => exact hgov
  | lowerSrm => exact hgov

theorem getP_setP_twice (s : State) (f v : Nat) : getP (setP (setP s (pk 0x0311 1) f) (pk 0x0311 2) v) (pk 0x0311 1) = f :=
  (getP_setP_other _ _ (by decide)).trans (getP_setP_same s _ _)

theorem getP_announced {t : State} {f : Nat} (ht : getP t (pk 0x0311 1) = f) :
    getP (incP { t with clk := { t.clk with phase := .announced, newF := f, freqSeen := 0 } } (pk 0x0930 3) 2) (pk 0x0311 1) = f :=
  (getP_incP_other _ 2 (by decide)).trans ht

theorem announce_publishes (s : State) (f : Nat) : (announce s f).clk.phase = .announced ∧ getP (announce s f) (pk 0x0311 1) = f :=
  ⟨rfl, getP_announced (getP_setP_twice s f (ceilDiv (s.ctc + 8192) 4096 * 4096))⟩

theorem regulatorStepSettled_completes (s : State)
    (hstep : s.clk.marginTo.isSome = true ∨ (s.clk.phase ≠ .none ∧ s.clk.phase ≠ .announced)) :
    ∃ t, exec .regulatorStepSettled s = .next t ∧ SameMemory s t ∧ t.clk.alertAvs = false ∧ freqMhz t = freqMhz s ∧
      (s.clk.marginTo = none → s.clk.phase = .raiseSrm →
        t.clk.phase = .raiseCmp ∧ getP t (pk 0x0320 1) = tableMv s.clk.newF + marginMv s) ∧
      (s.clk.marginTo = none → s.clk.phase = .raiseCmp → t.clk.phase = .announced ∧ getP t (pk 0x0311 1) = s.clk.newF) ∧
      (s.clk.marginTo = none → s.clk.phase = .lowerCmp → t.clk.phase = .lowerSrm) := by
  by_cases hmargin : s.clk.marginTo.isSome = true
  · have hno : s.clk.marginTo ≠ none := fun h => by
      rw [h] at hmargin
      exact Bool.false_ne_true hmargin
    exact ⟨_, regulatorStepSettled_margin hmargin, fun _ => rfl, rfl, rfl, fun h => absurd h hno, fun h => absurd h hno,
      fun h => absurd h hno⟩
  · obtain ⟨hmem, halert, hfreq⟩ := nextStep_frame s s.clk.phase
    refine ⟨_, regulatorStepSettled_phase hmargin (hstep.resolve_left hmargin), hmem, halert, hfreq, fun _ hph => ?_,
      fun _ hph => ?_, fun _ hph => ?_⟩ <;> rw [hph]
    · exact ⟨rfl, getP_setP_same ..⟩
    · exact announce_publishes ..
    · rfl

theorem regulatorStepTimeout_completes (s : State)
    (hstep : s.clk.marginTo.isSome = true ∨ (s.clk.phase ≠ .none ∧ s.clk.phase ≠ .announced)) :
    ∃ t, exec .regulatorStepTimeout s = .next t ∧ SameMemory s t ∧ t.clk.alertAvs = true ∧ freqMhz t = freqMhz s ∧
      getP t (pk 0x0320 5) = min (getP s (pk 0x0320 5) + 1) (counterMax (pk 0x0320 5)) ∧
      (s.clk.marginTo = none → t.clk.phase = .none) ∧ (∀ m, s.clk.marginTo = some m → marginMv t = m) := by
  have harm : exec .regulatorStepTimeout s = execRegulatorStepTimeout s := rfl
  rw [harm, execRegulatorStepTimeout]
  dsimp only
  cases hmargin : s.clk.marginTo with
  | some m =>
    refine ⟨_, rfl, fun _ => rfl, rfl, ?_, ?_, nofun, fun n hn => ?_⟩
    · exact (getP_incP_other _ 1 (by decide)).trans (getP_setP_other s m (by decide))
    · refine (getP_incP_same ..).trans ?_
      exact congrArg (fun v => min (v + 1) (counterMax (pk 0x0320 5))) (getP_setP_other s m (by decide))
    · obtain rfl := Option.some.inj hn
      exact (getP_incP_other _ 1 (by decide)).trans (getP_setP_same s _ m)
  | none =>
    rw [hmargin] at hstep
    obtain ⟨hnone, hannounced⟩ := hstep.resolve_left Bool.false_ne_true
    exact ⟨_, if_neg (by simp [hnone, hannounced]), fun _ => rfl, rfl, getP_incP_other _ 1 (by decide), getP_incP_same ..,
      fun _ => rfl, nofun⟩

/-! ### Margins (R374) -/

theorem setMargin_effect (s : State) (m : Nat) :
    SameMemory s (setMargin s m) ∧ marginMv (setMargin s m) = m ∧ (setMargin s m).clk.quietMs = s.clk.quietMs := by
  unfold setMargin
  dsimp only
  split
  next h => exact ⟨fun _ => rfl, (beq_iff_eq.mp h).symm, rfl⟩
  next =>
    have hmargin (t : State) (v : Nat) (ht : t.par = (setP s (pk 0x0320 4) m).par) : getP (setP t (pk 0x0320 1) v) (pk 0x0320 4) = m := by
      rw [getP_setP_other _ _ (by decide), getP, ht]
      exact getP_setP_same s (pk 0x0320 4) m
    split
    · exact ⟨fun _ => rfl, hmargin _ _ rfl, rfl⟩
    · exact ⟨fun _ => rfl, hmargin _ _ rfl, rfl⟩

theorem stretchMarginUpdate_completes (s : State) :
    ((∃ z ∈ s.clk.inMs, getP s (pk 0x0320 3) < z.2) → ∃ t, exec (.stretchMarginUpdate false) s = .next t ∧ SameMemory s t ∧
      marginMv t = min 40 (marginMv s + 5) ∧ t.clk.quietMs = 0) ∧
    ((∀ z ∈ s.clk.inMs, z.2 ≤ getP s (pk 0x0320 3)) → exec (.stretchMarginUpdate false) s =
      .next { s with clk := { s.clk with inMs := [], quietMs := s.clk.quietMs + 1 } }) ∧
    (100 ≤ s.clk.quietMs → ∃ t, exec (.stretchMarginUpdate true) s = .next t ∧ SameMemory s t ∧ marginMv t = marginMv s - 5 ∧
      t.clk.quietMs = 0) := by
  have hfast : exec (.stretchMarginUpdate false) s = execStretchMarginUpdate false s := rfl
  have hslow : exec (.stretchMarginUpdate true) s = execStretchMarginUpdate true s := rfl
  rw [hfast, hslow]
  refine ⟨fun ⟨z, hz, hlt⟩ => ?_, fun hle => ?_, fun hquiet => ?_⟩
  · have hbusy : (s.clk.inMs.any fun z => decide (getP s (pk 0x0320 3) < z.2)) = true :=
      List.any_eq_true.mpr ⟨z, hz, decide_eq_true hlt⟩
    obtain ⟨hmem, hmargin, hms⟩ := setMargin_effect { s with clk := { s.clk with inMs := [], quietMs := 0 } } (min 40 (marginMv s + 5))
    refine ⟨_, ?_, hmem, hmargin, hms⟩
    simp only [execStretchMarginUpdate, Bool.false_eq_true, if_false, hbusy, if_true]
    rfl
  · have hidle : (s.clk.inMs.any fun z => decide (getP s (pk 0x0320 3) < z.2)) = false :=
      List.any_eq_false.mpr fun z hz => by simpa using hle z hz
    simp only [execStretchMarginUpdate, Bool.false_eq_true, if_false, hidle]
  · obtain ⟨hmem, hmargin, hms⟩ := setMargin_effect { s with clk := { s.clk with quietMs := 0 } } (marginMv s - 5)
    exact ⟨_, if_neg (Nat.not_lt.mpr hquiet), hmem, hmargin, hms⟩

/-! ### Stretches (R361 to R367) -/

/-- From `s` to `u` nothing has changed but the crossings in lock-step and what the domains are asked. -/
def OnlyLocked (s u : State) : Prop := u = { s with doms := u.doms, clk := { s.clk with lockstep := u.clk.lockstep } }

theorem onlyLocked_refl (s : State) : OnlyLocked s s := rfl

theorem onlyLocked_trans {s t u : State} (h : OnlyLocked s t) (k : OnlyLocked t u) : OnlyLocked s u := by
  rw [OnlyLocked] at h k ⊢
  rw [k, h]

theorem onlyLocked_requestStall (s : State) (d : Nat) (r : StallReq) : OnlyLocked s (requestStall s d r) := by
  rw [OnlyLocked, requestStall_eq]

theorem onlyLocked_foldl {α : Type} (f : State → α → State) (hf : ∀ t x, OnlyLocked t (f t x)) (l : List α) (s : State) :
    OnlyLocked s (l.foldl f s) :=
  foldl_keeps (OnlyLocked s) f (fun t x h => onlyLocked_trans h (hf t x)) l s (onlyLocked_refl s)

theorem onlyLocked_lockCross (s : State) (a b : Nat) : OnlyLocked s (lockCross s a b) := by
  unfold lockCross
  extract_lets x _ t
  have ht : OnlyLocked s t := rfl
  exact onlyLocked_trans ht (onlyLocked_foldl _ (fun u d => onlyLocked_requestStall ..) _ t)

theorem onlyLocked_checkSkew (s : State) (z : Nat) : OnlyLocked s (checkSkew s z) := by
  unfold checkSkew
  refine onlyLocked_foldl _ (fun t n => ?_) _ s
  split
  · exact onlyLocked_lockCross ..
  · exact onlyLocked_refl t

theorem OnlyLocked.frame {s u : State} (h : OnlyLocked s u) :
    SameMemory s u ∧ u.ctc = s.ctc ∧ u.ns = s.ns ∧ u.par = s.par ∧ u.clk.stretches = s.clk.stretches := by
  rw [h]
  exact ⟨fun _ => rfl, rfl, rfl, rfl, rfl⟩

/-- The quarters of a period that a stretch takes, in thousandths of a tick. -/
def stretchMilli (size : Nat) : Nat := if size == 3 then 1000 else 250 * size

/-- A shortfall of a zone, counted, before the stretch joins those on their way. -/
def shortfallCounted (s : State) (z size : Nat) : State :=
  incP (incP (addTime (stretchMilli size) s) (pk 0x0313 (z + 1)) 1) (pk 0x0314 size) 1

/-- The stretch of a zone joins those on their way. -/
def stretchBegun (u : State) (z size : Nat) : State :=
  { u with clk := { u.clk with
    inMs := SMap.upd 0 u.clk.inMs z (· + 1)
    lastShort := SMap.set 0 u.clk.lastShort z (u.ctc + 1)
    stretches := u.clk.stretches ++ [(⟨z, u.ctc, size⟩, applyIn u z 0)] } }

theorem marginShortfall_stretches {z size : Nat} {s : State} (hz : z < 16) (hlo : 1 ≤ size) (hhi : size ≤ 3)
    (hruns : s.clk.runs = true) (hlate : SMap.get 0 s.clk.lastShort z = 0 ∨ SMap.get 0 s.clk.lastShort z + 8 ≤ s.ctc + 1) :
    exec (.marginShortfall z size) s = .next (checkSkew (stretchBegun (shortfallCounted s z size) z size) z) := by
  have harm : exec (.marginShortfall z size) s = execMarginShortfall z size s := rfl
  have hunit : (decide (16 ≤ z) || size == 0 || decide (3 < size)) = false := by simp; omega
  have hsoon : (decide (SMap.get 0 s.clk.lastShort z ≠ 0) && decide (s.ctc + 1 < SMap.get 0 s.clk.lastShort z + 8)) = false := by
    simp; omega
  simp only [harm, execMarginShortfall, hunit, hruns, hsoon, Bool.not_true, Bool.false_eq_true, if_false]
  rfl

theorem addTime_ns (m : Nat) (s : State) : (addTime m s).ns = s.ns + (s.nsFrac + m) / max 1 (freqMhz s) := by
  unfold addTime
  dsimp only
  generalize hu : State.mk .. = u
  obtain ⟨k, hk⟩ := settleClocks_eq u
  rw [hk, ← hu]

theorem addTime_frame (m : Nat) (s : State) :
    SameMemory s (addTime m s) ∧ (addTime m s).ctc = s.ctc ∧ ∀ key, getP (addTime m s) key = getP s key := by
  obtain ⟨n, f, p, k, h⟩ := addTime_eq m s
  rw [h]
  exact ⟨fun _ => rfl, rfl, fun _ => rfl⟩

/-- A shortfall counts by its size and for its zone as time passes, and changes no other parameter. -/
theorem shortfallCounted_frame (s : State) {z size : Nat} (hz : z < 16) (hsize : size ≤ 3) :
    SameMemory s (shortfallCounted s z size) ∧ (shortfallCounted s z size).ctc = s.ctc ∧
      (shortfallCounted s z size).ns = (addTime (stretchMilli size) s).ns ∧
      getP (shortfallCounted s z size) (pk 0x0313 (z + 1)) = min (getP s (pk 0x0313 (z + 1)) + 1) (counterMax (pk 0x0313 (z + 1))) ∧
      getP (shortfallCounted s z size) (pk 0x0314 size) = min (getP s (pk 0x0314 size) + 1) (counterMax (pk 0x0314 size)) ∧
      SameParamsBut [pk 0x0313 (z + 1), pk 0x0314 size] s (shortfallCounted s z size) := by
  obtain ⟨htime, htick, hkept⟩ := addTime_frame (stretchMilli size) s
  have hkeys : pk 0x0314 size ≠ pk 0x0313 (z + 1) := by unfold pk; omega
  unfold shortfallCounted
  generalize addTime (stretchMilli size) s = v at htime htick hkept
  refine ⟨htime, htick, rfl, ?_, ?_, fun k hk => ?_⟩
  · rw [getP_incP_other _ _ hkeys, getP_incP_same, hkept]
  · rw [getP_incP_same, getP_incP_other _ _ (Ne.symm hkeys), hkept]
  · obtain ⟨hzone, hk⟩ := List.ne_and_not_mem_of_not_mem_cons hk
    rw [getP_incP_other _ _ (Ne.symm (List.ne_of_not_mem_cons hk)), getP_incP_other _ _ (Ne.symm hzone), hkept]

theorem marginShortfall_completes (z size : Nat) (s : State) (hz : z < 16) (hlo : 1 ≤ size) (hhi : size ≤ 3)
    (hruns : s.clk.runs = true) (hlate : SMap.get 0 s.clk.lastShort z = 0 ∨ SMap.get 0 s.clk.lastShort z + 8 ≤ s.ctc + 1) :
    ∃ t, exec (.marginShortfall z size) s = .next t ∧ SameMemory s t ∧ t.ctc = s.ctc ∧
      getP t (pk 0x0313 (z + 1)) = min (getP s (pk 0x0313 (z + 1)) + 1) (counterMax (pk 0x0313 (z + 1))) ∧
      getP t (pk 0x0314 size) = min (getP s (pk 0x0314 size) + 1) (counterMax (pk 0x0314 size)) ∧
      SameParamsBut [pk 0x0313 (z + 1), pk 0x0314 size] s t ∧
      t.ns = s.ns + (s.nsFrac + (if size = 3 then 1000 else 250 * size)) / max 1 (freqMhz s) := by
  obtain ⟨hmem, hctc, hns, hpar, -⟩ := (onlyLocked_checkSkew (stretchBegun (shortfallCounted s z size) z size) z).frame
  have hexec := marginShortfall_stretches hz hlo hhi hruns hlate
  generalize checkSkew (stretchBegun (shortfallCounted s z size) z size) z = t at hmem hctc hns hpar hexec
  obtain ⟨hcmem, hcctc, hcns, hzone, hcount, hother⟩ := shortfallCounted_frame s hz hhi
  have hkept : ∀ key, getP t key = getP (shortfallCounted s z size) key := fun key =>
    congrArg (fun p => SMap.get (paramDefault key) p key) hpar
  have hnow := addTime_ns (stretchMilli size) s
  generalize shortfallCounted s z size = u at hmem hctc hns hcmem hcctc hcns hzone hcount hother hkept
  refine ⟨t, hexec, fun a => (hmem a).trans (hcmem a), hctc.trans hcctc, (hkept _).trans hzone, (hkept _).trans hcount,
    fun k hk => (hkept k).trans (hother k hk), hns.trans (hcns.trans (hnow.trans ?_))⟩
  simp only [stretchMilli, beq_iff_eq]

theorem stretch_completes (z : Nat) (s : State) (m : StretchMsg × Nat) (rest : List (StretchMsg × Nat)) (hz : z < 16)
    (hm : takeFirst (fun m : StretchMsg × Nat => !bit m.2 z && (zoneNeighbours z).any (bit m.2)) s.clk.stretches = some (m, rest)) :
    ∃ t, exec (.stretch z) s = .next t ∧ SameMemory s t ∧ t.ctc = s.ctc ∧ SameParamsBut [pk 0x0930 3] s t ∧
      t.clk.stretches = (s.clk.stretches.map fun x => if x == m then (m.1, applyIn s z m.2) else x).filter fun x => x.2 ≠ 0xFFFF := by
  have harm : exec (.stretch z) s = execStretch z s := rfl
  rw [harm, execStretch, if_neg (Nat.not_le.mpr hz), hm]
  dsimp only
  generalize hu : (if z == 15 then _ else _ : State) = u
  have hframe : SameMemory s u ∧ u.ctc = s.ctc ∧ SameParamsBut [pk 0x0930 3] s u ∧ u.clk.stretches =
      (s.clk.stretches.map fun x => if x == m then (m.1, applyIn s z m.2) else x).filter fun x => x.2 ≠ 0xFFFF := by
    rw [← hu]
    split
    · exact ⟨fun _ => rfl, rfl, sameParamsBut_setP (List.mem_singleton_self _) rfl, rfl⟩
    · exact ⟨fun _ => rfl, rfl, fun _ _ => rfl, rfl⟩
  obtain ⟨hmem, hctc, hpar, hstretches⟩ := hframe
  obtain ⟨hmem', hctc', -, hpar', hstretches'⟩ := (onlyLocked_checkSkew u z).frame
  exact ⟨_, rfl, fun a => (hmem' a).trans (hmem a), hctc'.trans hctc,
    fun k hk => (congrArg (fun p => SMap.get (paramDefault k) p k) hpar').trans (hpar k hk), hstretches'.trans hstretches⟩

/-! ### Crossings (R366) -/

theorem getD_announceResume_other (s : State) {d k : Nat} (hk : d ≠ k) : getD (announceResume s d) k = getD s k := by
  cases hdue : (getD s d).reqs.any (dueReq (getD s d)) with
  | true => rw [announceResume_of_open (List.any_eq_true.mp hdue)]
  | false =>
    cases hf : (getD s d).freezeAt with
    | none => rw [announceResume_of_no_freeze hf]
    | some f =>
      rw [announceResume_of_met hdue hf, getD_setD_other _ _ hk, (meetAll_keeps s d (getD s d).reqs).1.1]
      rfl

/-- The stalls that a crossing asks for. -/
def isCrossing (x : Nat × Nat) (r : StallReq) : Bool := r.cond == .crossing x.1 x.2

theorem isCrossing_iff (x : Nat × Nat) (r : StallReq) : isCrossing x r = true ↔ r.cond = .crossing x.1 x.2 := beq_iff_eq

/-- A domain that a re-centred crossing sets free. -/
def setFree (x : Nat × Nat) (s : State) (d : Nat) : State :=
  announceResume (setD s d { getD s d with reqs := (getD s d).reqs.filter fun r => !isCrossing x r }) d

theorem setFree_effect (x : Nat × Nat) (s : State) (d : Nat) :
    SameMemory s (setFree x s d) ∧ (setFree x s d).par = s.par ∧ (setFree x s d).clk = s.clk := by
  have h := (onlyAnnounced_announceResume (setD s d { getD s d with reqs := (getD s d).reqs.filter fun r => !isCrossing x r }) d).1
  unfold setFree
  rw [h]
  exact ⟨fun _ => rfl, rfl, rfl⟩

/-- A request that stands after it stood before, and is none of the crossing's. -/
theorem mem_reqs_setFree {x : Nat × Nat} {s : State} {d : Nat} {q : StallReq} (hq : q ∈ (getD (setFree x s d) d).reqs) :
    q ∈ (getD s d).reqs ∧ isCrossing x q = false := by
  have hkept := (onlyAnnounced_announceResume (setD s d { getD s d with reqs := (getD s d).reqs.filter fun r => !isCrossing x r }) d).2
  obtain ⟨-, -, -, -, hreqs⟩ := hkept
  have hmem := hreqs q hq
  rw [getD_setD_same] at hmem
  obtain ⟨hin, hno⟩ := List.mem_filter.mp hmem
  exact ⟨hin, by simpa using hno⟩

theorem reqs_setFree_subset (x : Nat × Nat) (s : State) (d k : Nat) : ∀ q ∈ (getD (setFree x s d) k).reqs, q ∈ (getD s k).reqs := by
  intro q hq
  by_cases hk : d = k
  · subst hk
    exact (mem_reqs_setFree hq).1
  · rwa [setFree, getD_announceResume_other _ hk, getD_setD_other _ _ hk] at hq

/-- The domains that a crossing has asked to stall. -/
def askedBy (s : State) (x : Nat × Nat) : List Nat := (List.range 8).filter fun d => (getD s d).reqs.any (isCrossing x)

/-- Once every domain that a crossing has asked stands still, they are all set free. -/
theorem foldl_setFree_reqs (x : Nat × Nat) (ds : List Nat) (s : State) {d : Nat}
    (hd : d ∈ ds ∨ ∀ r ∈ (getD s d).reqs, isCrossing x r = false) :
    ∀ r ∈ (getD (ds.foldl (setFree x) s) d).reqs, isCrossing x r = false := by
  have hkeep : ∀ (t : State) (k : Nat), (∀ r ∈ (getD t d).reqs, isCrossing x r = false) →
      ∀ r ∈ (getD (setFree x t k) d).reqs, isCrossing x r = false := fun t k ht r hr => ht r (reqs_setFree_subset x t k d r hr)
  rcases hd with hd | hnone
  · exact foldl_establishes (fun t => ∀ r ∈ (getD t d).reqs, isCrossing x r = false) (setFree x) hkeep hd
      (fun t r hr => (mem_reqs_setFree hr).2) s
  · exact foldl_keeps (fun t => ∀ r ∈ (getD t d).reqs, isCrossing x r = false) (setFree x) hkeep ds s hnone

/-- What a crossing does once it is in lock-step. -/
def recentred (s : State) (x : Nat × Nat) : State :=
  if !((askedBy s x).all fun d => (getD s d).stalled) then s
  else (askedBy s x).foldl (setFree x)
    (incP { s with clk := { s.clk with lockstep := s.clk.lockstep.filter (· ≠ x) } } (pk 0x0314 4) 1)

theorem crossingRecentre_next {a b : Nat} {s : State} (hmeet : zonesMeet a b = true) :
    exec (.crossingRecentre a b) s =
      .next (recentred (if s.clk.lockstep.contains (crossOf a b) then s else lockCross s a b) (crossOf a b)) := by
  have harm : exec (.crossingRecentre a b) s = execCrossingRecentre a b s := rfl
  rw [harm, execCrossingRecentre, if_neg (by rw [hmeet]; exact Bool.false_ne_true)]
  exact (apply_ite Host.Outcome.next _ _ _).symm

theorem crossingRecentre_frees {a b : Nat} {s : State} (hmeet : zonesMeet a b = true) (hlock : crossOf a b ∈ s.clk.lockstep)
    (hstill : ∀ d, d < 8 →
      ((getD s d).reqs.any fun r => r.cond == .crossing (crossOf a b).1 (crossOf a b).2) = true → (getD s d).stalled = true) :
    ∃ t, exec (.crossingRecentre a b) s = .next t ∧ SameMemory s t ∧ crossOf a b ∉ t.clk.lockstep ∧
      SameParamsBut [pk 0x0314 4] s t ∧
      ∀ d, d < 8 → ∀ r ∈ (getD t d).reqs, r.cond ≠ .crossing (crossOf a b).1 (crossOf a b).2 := by
  have hexec := crossingRecentre_next (s := s) hmeet
  have hall : ((askedBy s (crossOf a b)).all fun d => (getD s d).stalled) = true := List.all_eq_true.mpr fun d hd => by
    obtain ⟨hrange, hany⟩ := List.mem_filter.mp hd
    exact hstill d (List.mem_range.mp hrange) hany
  rw [if_pos (List.contains_iff_mem.mpr hlock), recentred, hall, Bool.not_true, if_neg Bool.false_ne_true] at hexec
  generalize crossOf a b = x at hexec hlock hstill ⊢
  generalize hu : incP { s with clk := { s.clk with lockstep := s.clk.lockstep.filter (· ≠ x) } } (pk 0x0314 4) 1 = u at hexec
  have hframe := foldl_keeps (fun t => SameMemory u t ∧ t.par = u.par ∧ t.clk = u.clk) (setFree x) (fun t d ht => by
    obtain ⟨hmem, hpar, hclk⟩ := setFree_effect x t d
    exact ⟨fun p => (hmem p).trans (ht.1 p), hpar.trans ht.2.1, hclk.trans ht.2.2⟩) (askedBy s x) u ⟨fun _ => rfl, rfl, rfl⟩
  obtain ⟨hmem, hpar, hclk⟩ := hframe
  refine ⟨_, hexec, fun p => (hmem p).trans ?_, ?_, fun k hk => ?_, fun d hd r hr hcond => ?_⟩
  · rw [← hu]
    rfl
  · rw [hclk, ← hu]
    exact fun hin => of_decide_eq_true (List.mem_filter.mp hin).2 rfl
  · refine (congrArg (fun p => SMap.get (paramDefault k) p k) hpar).trans ?_
    rw [← hu]
    exact getP_incP_other _ 1 (Ne.symm (List.ne_of_not_mem_cons hk))
  · have hfree : isCrossing x r = false := by
      refine foldl_setFree_reqs x (askedBy s x) u ?_ r hr
      by_cases hask : d ∈ askedBy s x
      · exact .inl hask
      · refine .inr fun q hq => ?_
        rw [← hu] at hq
        refine Decidable.byContradiction fun hno => ?_
        exact hask (List.mem_filter.mpr ⟨List.mem_range.mpr hd, List.any_eq_true.mpr ⟨q, hq, by simpa using hno⟩⟩)
    exact Bool.false_ne_true (hfree.symm.trans ((isCrossing_iff x r).mpr hcond))

theorem stalled_requestStall (s : State) (d : Nat) (r : StallReq) (k : Nat) :
    (getD (requestStall s d r) k).stalled = (getD s k).stalled := by
  unfold requestStall
  dsimp only
  split
  · rfl
  · by_cases hk : d = k
    · subst hk
      rw [getD_setD_same]
    · rw [getD_setD_other _ _ hk]

theorem reqs_subset_requestStall (s : State) (d : Nat) (r : StallReq) (k : Nat) :
    ∀ q ∈ (getD s k).reqs, q ∈ (getD (requestStall s d r) k).reqs := by
  intro q hq
  unfold requestStall
  dsimp only
  split
  · exact hq
  · by_cases hk : d = k
    · subst hk
      rw [getD_setD_same]
      exact List.mem_append_left _ hq
    · rwa [getD_setD_other _ _ hk]

theorem lockCross_asks {s : State} {a b d : Nat} (hd : d ∈ crossDoms s a b) :
    crossOf a b ∈ (lockCross s a b).clk.lockstep ∧ (getD (lockCross s a b) d).stalled = (getD s d).stalled ∧
      ∃ r ∈ (getD (lockCross s a b) d).reqs, isCrossing (crossOf a b) r = true := by
  unfold lockCross
  extract_lets x _ t
  have hds : d ∈ crossDoms t a b := hd
  refine ⟨?_, ?_, ?_⟩
  · refine foldl_keeps (fun u : State => x ∈ u.clk.lockstep) _ (fun u k hu => ?_) (crossDoms t a b) t
      (List.mem_append_right _ (List.mem_singleton_self x))
    rw [requestStall_eq]
    exact hu
  · exact foldl_keeps (fun u => (getD u d).stalled = (getD s d).stalled) _
      (fun u k hu => (stalled_requestStall ..).trans hu) (crossDoms t a b) t rfl
  · refine foldl_establishes (fun u => ∃ r ∈ (getD u d).reqs, isCrossing x r = true) _ (fun u k hu => ?_) hds
      (fun u => ⟨_, mem_requestStall .., (isCrossing_iff x _).mpr rfl⟩) t
    obtain ⟨r, hr, hx⟩ := hu
    exact ⟨r, reqs_subset_requestStall _ _ _ _ r hr, hx⟩

theorem crossingRecentre_asks {a b d : Nat} {s : State} (hmeet : zonesMeet a b = true) (hd : d < 8)
    (hfree : crossOf a b ∉ s.clk.lockstep) (hdom : d ∈ crossDoms s a b) (hmoves : (getD s d).stalled = false) :
    ∃ t, exec (.crossingRecentre a b) s = .next t ∧ crossOf a b ∈ t.clk.lockstep ∧
      ∃ r ∈ (getD t d).reqs, r.cond = .crossing (crossOf a b).1 (crossOf a b).2 := by
  have hexec := crossingRecentre_next (s := s) hmeet
  obtain ⟨hlock, hstalled, r, hr, hx⟩ := lockCross_asks hdom
  have hall : ((askedBy (lockCross s a b) (crossOf a b)).all fun d => (getD (lockCross s a b) d).stalled) = false :=
    List.all_eq_false.mpr ⟨d, List.mem_filter.mpr ⟨List.mem_range.mpr hd, List.any_eq_true.mpr ⟨r, hr, hx⟩⟩, by
      rw [hstalled, hmoves]
      exact Bool.false_ne_true⟩
  rw [if_neg (mt List.contains_iff_mem.mp hfree), recentred, hall, Bool.not_false, if_pos rfl] at hexec
  exact ⟨_, hexec, hlock, r, hr, (isCrossing_iff _ r).mp hx⟩

/-- Settles O51: what the frequency control, the regulators, stretches and crossings change, each through its own frame. -/
theorem clockEventsComplete : Obligations.ClockEventsComplete :=
  ⟨targetMhzWrite_completes, serviceClockWrite_completes, freq_reaches, frequencySwitch_completes,
    fun s hstep => ⟨regulatorStepSettled_completes s hstep, regulatorStepTimeout_completes s hstep⟩, marginShortfall_completes,
    stretch_completes,
    fun _ _ _ hmeet => ⟨fun hlock hstill => crossingRecentre_frees hmeet hlock hstill,
      fun _ hd hfree hdom hmoves => crossingRecentre_asks hmeet hd hfree hdom hmoves⟩, stretchMarginUpdate_completes⟩

end Sys2Proof.Machine
end

