-- ==== Sys2Proof/Proofs/PowerEvents.lean ====
section
/-!
SUPPORT. Power caps and thermal control (R371, R375 to R378).
-/
namespace Sys2Proof.Machine

/-! ### Telemetry and the caps (R371, R375) -/

theorem regulatorTelemetryRead_completes (rs : List (Nat × Nat)) (s : State) (hlen : rs.length = 9) :
    ∃ t, exec (.regulatorTelemetryRead rs) s = .next t ∧ SameMemory s t ∧ t.clk.telemetry = rs ∧
      t.clk.samples = s.clk.samples + 1 ∧ t.clk.powerSum = s.clk.powerSum + sumNat (rs.map fun r => r.1 * r.2) ∧
      SameParamsBut [pk 0x0330 5] s t :=
  ⟨_, (if_neg (not_not_intro hlen) : execRegulatorTelemetryRead rs s = _), fun _ => rfl, rfl, rfl, rfl,
    sameParamsBut_setP (List.mem_singleton_self _) rfl⟩

theorem capAfter_over {cap sum n limit : Nat} (h : limit * n < sum) : capAfter cap sum n limit = max 900 (cap - 100) := if_pos h

theorem capAfter_under {cap sum n limit : Nat} (h : sum * 100 < limit * n * 95) :
    capAfter cap sum n limit = min 2000 (cap + 25) := by
  generalize hm : limit * n = m at h
  rw [capAfter, hm, if_neg (by omega), if_pos h]

theorem capAfter_between {cap sum n limit : Nat} (hle : sum ≤ limit * n) (hge : limit * n * 95 ≤ sum * 100) :
    capAfter cap sum n limit = cap := by
  rw [capAfter, if_neg (Nat.not_lt.mpr hle), if_neg (Nat.not_lt.mpr hge)]

/-- The state at the end of a window, before the frequency follows the caps. -/
def windowClosed (s : State) : State :=
  let c := s.clk
  let s := setP s (pk 0x0330 3) (min 0xFFFF (c.powerSum / (1000 * c.samples)))
  { s with clk := { c with
      powerCap := capAfter c.powerCap c.powerSum c.samples (1000 * getP s (pk 0x0330 1))
      currCap := capAfter c.currCap c.currSum c.samples (getP s (pk 0x0330 4))
      powerSum := 0, currSum := 0, samples := 0 } }

theorem windowClosed_cap (s : State) : (windowClosed s).clk.powerCap =
    capAfter s.clk.powerCap s.clk.powerSum s.clk.samples (1000 * getP s (pk 0x0330 1)) :=
  congrArg (fun l => capAfter s.clk.powerCap s.clk.powerSum s.clk.samples (1000 * l)) (getP_setP_other s _ (by decide))

theorem powerWindowEnd_completes (s : State) (hsome : s.clk.samples ≠ 0) :
    ∃ t, exec .powerWindowEnd s = .next t ∧ SameMemory s t ∧ t.clk.samples = 0 ∧
    getP t (pk 0x0330 3) = min 0xFFFF (s.clk.powerSum / (1000 * s.clk.samples)) ∧
    (1000 * getP s (pk 0x0330 1) * s.clk.samples < s.clk.powerSum → t.clk.powerCap = max 900 (s.clk.powerCap - 100)) ∧
    (s.clk.powerSum * 100 < 1000 * getP s (pk 0x0330 1) * s.clk.samples * 95 → t.clk.powerCap = min 2000 (s.clk.powerCap + 25)) ∧
    (s.clk.powerSum ≤ 1000 * getP s (pk 0x0330 1) * s.clk.samples →
      1000 * getP s (pk 0x0330 1) * s.clk.samples * 95 ≤ s.clk.powerSum * 100 → t.clk.powerCap = s.clk.powerCap) ∧
    freqMhz t = freqMhz s := by
  have hexec : exec .powerWindowEnd s = .next (govern (windowClosed s)) :=
    (if_neg (by simpa using hsome) : execPowerWindowEnd s = _)
  have hgov := onlyGoverned_govern (windowClosed s)
  generalize govern (windowClosed s) = t at hexec hgov
  obtain ⟨hmem, hfreq, -⟩ := hgov.frame
  obtain ⟨hclk, hpar⟩ := hgov
  have hcap : t.clk.powerCap = (windowClosed s).clk.powerCap := by rw [hclk]
  have hsamples : t.clk.samples = 0 := by rw [hclk]; rfl
  have havg : getP (windowClosed s) (pk 0x0330 3) = min 0xFFFF (s.clk.powerSum / (1000 * s.clk.samples)) := getP_setP_same s _ _
  have hkept : freqMhz (windowClosed s) = freqMhz s := getP_setP_other s _ (by decide)
  rw [windowClosed_cap] at hcap
  exact ⟨t, hexec, hmem, hsamples, (hpar _ (by decide)).trans havg, fun h => hcap.trans (capAfter_over h),
    fun h => hcap.trans (capAfter_under h), fun hle hge => hcap.trans (capAfter_between hle hge), hfreq.trans hkept⟩

/-! ### Readings of the sensors (R376, R377) -/

/-- From `s` to `u` nothing has changed but what the sensors have read. -/
def OnlySensors (s u : State) : Prop :=
  u = { s with clk := { s.clk with readings := u.clk.readings, invalid := u.clk.invalid } }

theorem onlySensors_readSensor (s : State) (r : Nat × Option Int) : OnlySensors s (readSensor s r) := by
  unfold readSensor
  dsimp only
  split <;> rfl

theorem onlySensors_foldl (rs : List (Nat × Option Int)) (s : State) : OnlySensors s (rs.foldl readSensor s) := by
  refine foldl_keeps (OnlySensors s) readSensor (fun t r ht => ?_) rs s rfl
  have h := onlySensors_readSensor t r
  rw [OnlySensors] at h ht ⊢
  rw [h, ht]

/-- The state once the readings are kept: what a throttled interval counts, and the sensors. -/
def sensed (s : State) (rs : List (Nat × Option Int)) : State :=
  rs.foldl readSensor (if s.clk.thermCap < 2000 then incP s (pk 0x0340 6) 100 else s)

theorem sensed_frame (s : State) (rs : List (Nat × Option Int)) :
    SameMemory s (sensed s rs) ∧ (sensed s rs).clk.thermCap = s.clk.thermCap ∧ (sensed s rs).clk.alertTherm = s.clk.alertTherm ∧
      ∀ key, key ≠ pk 0x0340 6 → getP (sensed s rs) key = getP s key := by
  unfold sensed
  generalize hu : (if s.clk.thermCap < 2000 then incP s (pk 0x0340 6) 100 else s) = u
  have h := onlySensors_foldl rs u
  generalize rs.foldl readSensor u = v at h
  have hs : SameMemory s u ∧ u.clk = s.clk ∧ ∀ key, key ≠ pk 0x0340 6 → getP u key = getP s key := by
    rw [← hu]
    split
    · exact ⟨fun _ => rfl, rfl, fun key hkey => getP_incP_other _ 100 (Ne.symm hkey)⟩
    · exact ⟨fun _ => rfl, rfl, fun _ _ => rfl⟩
  obtain ⟨hmem, hclk, hpar⟩ := hs
  have hcap : v.clk.thermCap = u.clk.thermCap := by rw [h]
  have halert : v.clk.alertTherm = u.clk.alertTherm := by rw [h]
  refine ⟨?_, hcap.trans (congrArg Clk.thermCap hclk), halert.trans (congrArg Clk.alertTherm hclk), ?_⟩
  · rw [h]
    exact hmem
  · rw [h]
    exact hpar

/-- The clocks after a highest junction reading. -/
def thermalClk (s : State) (hi : Int) : Clk :=
  let c := s.clk
  let alert : Int := 8 * getP s (pk 0x0340 1)
  let thr : Int := 8 * getP s (pk 0x0340 2)
  let c := { c with alertTherm := if alert ≤ hi then true else if hi ≤ alert - 24 then false else c.alertTherm }
  if thr ≤ hi then { c with thermCap := max 900 (c.thermCap - 100), cool := 0 }
  else if hi < thr - 24 then
    (if c.cool + 1 == 100 then { c with thermCap := min 2000 (c.thermCap + 25), cool := 0 } else { c with cool := c.cool + 1 })
  else { c with cool := 0 }

theorem thermalCap_eq (s : State) (hi : Int) : thermalCap s hi = govern { s with clk := thermalClk s hi } := rfl

theorem thermalClk_alert (s : State) (hi : Int) : (thermalClk s hi).alertTherm =
    if 8 * (getP s (pk 0x0340 1) : Int) ≤ hi then true
    else if hi ≤ 8 * (getP s (pk 0x0340 1) : Int) - 24 then false else s.clk.alertTherm := by
  unfold thermalClk
  dsimp only
  split
  · rfl
  · split
    · split <;> rfl
    · rfl

theorem thermalClk_throttles {s : State} {hi : Int} (h : 8 * (getP s (pk 0x0340 2) : Int) ≤ hi) :
    (thermalClk s hi).thermCap = max 900 (s.clk.thermCap - 100) :=
  congrArg Clk.thermCap (if_pos h)

theorem foldl_max_bounds (f : Nat → Int) (l : List Nat) (a : Int) :
    a ≤ l.foldl (fun a n => max a (f n)) a ∧ (∀ n ∈ l, f n ≤ l.foldl (fun a n => max a (f n)) a) ∧
      (l.foldl (fun a n => max a (f n)) a = a ∨ ∃ n ∈ l, f n = l.foldl (fun a n => max a (f n)) a) := by
  induction l generalizing a with
  | nil => exact ⟨Int.le_refl a, nofun, .inl rfl⟩
  | cons m l ih =>
    obtain ⟨hle, hall, hex⟩ := ih (max a (f m))
    rw [List.foldl_cons]
    refine ⟨Int.le_trans (Int.le_max_left ..) hle, fun n hn => ?_, ?_⟩
    · rcases List.mem_cons.mp hn with rfl | hn
      · exact Int.le_trans (Int.le_max_right ..) hle
      · exact hall n hn
    · rcases hex with heq | ⟨n, hn, heq⟩
      · rcases Int.le_total a (f m) with h | h
        · exact .inr ⟨m, List.mem_cons_self .., by rw [heq, Int.max_eq_right h]⟩
        · exact .inl (by rw [heq, Int.max_eq_left h])
      · exact .inr ⟨n, List.mem_cons_of_mem _ hn, heq⟩

/-- A reading of the junctions depends on the parameters that publish it. -/
theorem sensorOf_congr {s t : State} (h5 : getP t (pk 0x0340 5) = getP s (pk 0x0340 5))
    (hst : ∀ k, getP t (pk (0x0830 + k) 1) = getP s (pk (0x0830 + k) 1)) (n : Nat) : sensorOf t n = sensorOf s n := by
  rw [sensorOf, sensorOf, h5, hst]

/-- What a set of readings publishes, with the highest of the junctions. -/
def junctionMax (s : State) : Int := junctions.foldl (fun (a : Int) n => max a (sensorOf s n)) (sensorOf s 0)

theorem thermalReading_acts {rs : List (Nat × Option Int)} {s : State} (hrs : ∀ r ∈ rs, r.1 ∈ junctions) :
    ∃ v, exec (.thermalReading rs) s = .next (thermalCap (setP (setP (sensed s rs) (pk 0x0340 5) v) (pk 0x0340 4)
      (wrap 32 (junctionMax (setP (sensed s rs) (pk 0x0340 5) v)))) (junctionMax (setP (sensed s rs) (pk 0x0340 5) v))) := by
  have hall : (rs.all fun r => junctions.contains r.1) = true :=
    List.all_eq_true.mpr fun r hr => List.contains_iff_mem.mpr (hrs r hr)
  exact ⟨_, (if_neg (by rw [hall]; exact Bool.false_ne_true) : execThermalReading rs s = _)⟩

theorem thermalReading_completes (rs : List (Nat × Option Int)) (s : State) (hrs : ∀ r ∈ rs, r.1 ∈ junctions) :
    ∃ t hi, exec (.thermalReading rs) s = .next t ∧ SameMemory s t ∧ getP t (pk 0x0340 4) = wrap 32 hi ∧
      (∀ n ∈ junctions, sensorOf t n ≤ hi) ∧ (∃ n ∈ junctions, sensorOf t n = hi) ∧
      (8 * (getP s (pk 0x0340 1) : Int) ≤ hi → t.clk.alertTherm = true) ∧
      (hi ≤ 8 * (getP s (pk 0x0340 1) : Int) - 24 → t.clk.alertTherm = false) ∧
      (8 * (getP s (pk 0x0340 2) : Int) ≤ hi → t.clk.thermCap = max 900 (s.clk.thermCap - 100)) ∧ freqMhz t = freqMhz s := by
  obtain ⟨v, hexec⟩ := thermalReading_acts hrs
  obtain ⟨hmem, hcap, -, hpar⟩ := sensed_frame s rs
  generalize sensed s rs = u at hexec hmem hcap hpar
  generalize hhi : junctionMax (setP u (pk 0x0340 5) v) = hi at hexec
  generalize hw : setP (setP u (pk 0x0340 5) v) (pk 0x0340 4) (wrap 32 hi) = w at hexec
  have hwpar : ∀ key, key ≠ pk 0x0340 4 → key ≠ pk 0x0340 5 → key ≠ pk 0x0340 6 → getP w key = getP s key := fun key h4 h5 h6 => by
    rw [← hw, getP_setP_other _ _ (Ne.symm h4), getP_setP_other _ _ (Ne.symm h5), hpar key h6]
  have hwmem : SameMemory u w := by rw [← hw]; exact fun _ => rfl
  have hwcap : w.clk.thermCap = u.clk.thermCap := by rw [← hw]; rfl
  rw [thermalCap_eq] at hexec
  have hgov := onlyGoverned_govern { w with clk := thermalClk w hi }
  generalize govern { w with clk := thermalClk w hi } = t at hexec hgov
  obtain ⟨hgmem, hfreq, -⟩ := hgov.frame
  obtain ⟨hclk, hgpar⟩ := hgov
  have halert : t.clk.alertTherm = (thermalClk w hi).alertTherm := by rw [hclk]
  have hthrottle : t.clk.thermCap = (thermalClk w hi).thermCap := by rw [hclk]
  have hsensor : ∀ n, sensorOf t n = sensorOf (setP u (pk 0x0340 5) v) n := by
    refine sensorOf_congr ((hgpar _ (by decide)).trans ?_) fun k => (hgpar _ ?_).trans ?_
    · show getP w (pk 0x0340 5) = _
      rw [← hw, getP_setP_other _ _ (by decide)]
    · simp only [governKeys, List.mem_cons, List.not_mem_nil, or_false, not_or, pk]
      omega
    · show getP w _ = _
      rw [← hw, getP_setP_other _ _ (by unfold pk; omega)]
  obtain ⟨-, hall, hex⟩ := foldl_max_bounds (sensorOf (setP u (pk 0x0340 5) v)) junctions (sensorOf (setP u (pk 0x0340 5) v) 0)
  rw [thermalClk_alert, hwpar _ (by decide) (by decide) (by decide)] at halert
  refine ⟨t, hi, hexec, fun a => (hgmem a).trans ((hwmem a).trans (hmem a)), (hgpar _ (by decide)).trans ?_, fun n hn => ?_, ?_,
    fun h => halert.trans (if_pos h), fun h => halert.trans ?_, fun h => hthrottle.trans ?_,
    hfreq.trans (hwpar _ (by decide) (by decide) (by decide))⟩
  · show getP w _ = _
    rw [← hw, getP_setP_same]
  · rw [hsensor, ← hhi]
    exact hall n hn
  · rw [← hhi]
    rcases hex with heq | ⟨n, hn, heq⟩
    · exact ⟨0, by decide, (hsensor 0).trans heq.symm⟩
    · exact ⟨n, hn, (hsensor n).trans heq⟩
  · rw [if_neg (by omega), if_pos h]
  · rw [← hwpar _ (by decide) (by decide) (by decide)] at h
    rw [thermalClk_throttles h, hwcap, hcap]

/-! ### The thermal trip (R378) -/

theorem SMap.mem_of_get {V : Type} {d v : V} {m : SMap V} {k : Nat} (h : SMap.get d m k = v) (hv : v ≠ d) : (k, v) ∈ m := by
  induction m with
  | nil => exact absurd h.symm hv
  | cons x m ih =>
    rw [SMap.get] at h
    split at h
    next hk => exact List.mem_cons.mpr (.inl (Prod.ext hk.symm h.symm))
    next => exact List.mem_cons_of_mem _ (ih h)

/-- A record of a fault waits for its acknowledge. -/
def faultUnacked (s : State) : Prop := ∃ k, SMap.get 0 s.unacked k = 1

theorem faultLow_of_unacked {s : State} (h : faultUnacked s) : faultLow s = true := by
  obtain ⟨k, hk⟩ := h
  have hany : (s.unacked.any fun x => x.2 == 1) = true := List.any_eq_true.mpr ⟨_, SMap.mem_of_get hk (by decide), rfl⟩
  rw [faultLow, hany, Bool.or_true]

theorem faultUnacked_writeRecord (s : State) (r : Raised) : faultUnacked (writeRecord s r 0) := by
  unfold writeRecord
  extract_lets seq slot lost s1 s2 s3 s4 s5
  have h5 : faultUnacked s5 := ⟨slot, (SMap.get_set_same (0 : Nat) (0 + 1) s4.unacked slot : _)⟩
  clear_value s5
  split
  · exact h5
  · exact h5

theorem doms_writeRecord_of_none (s : State) {r : Raised} (kind : Nat) (hr : r.dom = none) : (writeRecord s r kind).doms = s.doms := by
  unfold writeRecord
  extract_lets seq slot lost s1 s2 s3 s4 s5
  have h2 : s2.doms = s.doms := (setP_doms ..).trans (incP_doms ..)
  have h3 : s3.doms = s2.doms := by
    unfold s3
    split
    · exact incP_doms ..
    · rfl
  have h5 : s5.doms = s3.doms := (slotTaken_frame s4 _ _).1.trans (setP_doms ..)
  clear_value s5 s3 s2
  rw [hr]
  exact h5.trans (h3.trans h2)

/-- A domain that the trip stops. -/
def tripDomain (sensor : Nat) (t : Int) (s : State) (d : Nat) : State :=
  let s := writeRecord s (tripRaised s (some d) sensor t) 0
  setD s d { getD s d with st := .faulted, stopDue := true }

/-- A domain is FAULTED and its stop is due. -/
def tripStops (d : Nat) (s : State) : Prop := (getD s d).st = .faulted ∧ (getD s d).stopDue = true

theorem getD_tripDomain_other (sensor : Nat) (t : Int) (s : State) {d e : Nat} (h : d ≠ e) :
    getD (tripDomain sensor t s d) e = getD s e := by
  obtain ⟨v, hv, hdoms, -⟩ := writeRecord_of_dom (r := tripRaised s (some d) sensor t) s 0 rfl
  unfold tripDomain
  rw [hv, getD_setD_other _ _ h, getD_setD_other _ _ h]
  exact getD_of_doms hdoms e

theorem tripStops_tripDomain (sensor : Nat) (t : Int) (s : State) (d : Nat) : tripStops d (tripDomain sensor t s d) := by
  unfold tripStops tripDomain
  rw [getD_setD_same]
  exact ⟨rfl, rfl⟩

theorem tripStops_kept (sensor : Nat) (t : Int) (d : Nat) (s : State) (e : Nat) (h : tripStops d s) :
    tripStops d (tripDomain sensor t s e) := by
  by_cases he : e = d
  · subst he
    exact tripStops_tripDomain ..
  · rwa [tripStops, getD_tripDomain_other sensor t s he]

/-- The domains that run. -/
def tripList (s : State) : List Nat := (List.range 8).filter (domRuns s)

/-- The domains and the log after a trip. -/
def tripLogged (s : State) (sensor : Nat) (t : Int) : State :=
  let u := (tripList s).foldl (tripDomain sensor t) s
  if (tripList s).isEmpty then writeRecord u (tripRaised u none sensor t) 0 else u

theorem thermalTrip_trips {n : Nat} {s : State}
    (hn : (junctions.contains n || (decide (0x18 ≤ n) && decide (n ≤ 0x1F))) = true) (hhot : 880 ≤ sensorOf s n)
    (hfirst : s.clk.tripped = false) :
    exec (.thermalTrip n) s = .next { tripLogged s n (sensorOf s n) with
      clk := { (tripLogged s n (sensorOf s n)).clk with runs := false, tripped := true, thermtrip := true } } := by
  have harm : exec (.thermalTrip n) s = execThermalTrip n s := rfl
  rw [harm, execThermalTrip, hn, Bool.not_true, if_neg Bool.false_ne_true]
  exact if_neg (by simp [hfirst, Int.not_lt.mpr hhot])

theorem tripLogged_effect (s : State) (sensor : Nat) (t : Int) :
    SameMemory s (tripLogged s sensor t) ∧ faultUnacked (tripLogged s sensor t) ∧
      (∀ d ∈ tripList s, tripStops d (tripLogged s sensor t)) ∧
      ∀ d, d ∉ tripList s → getD (tripLogged s sensor t) d = getD s d := by
  have hmemory : ∀ (u : State) (d : Nat), SameMemory u (tripDomain sensor t u d) := fun u d =>
    (sameMemory_of_onlyLogged (onlyLogged_trans (onlyLogged_writeRecord u (tripRaised u (some d) sensor t) 0) (onlyLogged_setD ..)))
  unfold tripLogged
  dsimp only
  cases hds : tripList s with
  | nil =>
    rw [List.foldl_nil, List.isEmpty_nil, if_pos rfl]
    have hdoms := doms_writeRecord_of_none s (r := tripRaised s none sensor t) 0 rfl
    exact ⟨sameMemory_of_onlyLogged (onlyLogged_writeRecord ..), faultUnacked_writeRecord .., nofun, fun d _ => getD_of_doms hdoms d⟩
  | cons e ds =>
    rw [List.isEmpty_cons, if_neg Bool.false_ne_true]
    refine ⟨foldl_keeps (SameMemory s) (tripDomain sensor t) (fun u d hu a => (hmemory u d a).trans (hu a)) (e :: ds) s (fun _ => rfl),
      ?_, fun d hd => ?_, fun d hd => ?_⟩
    · have hset : ∀ (u : State) (d : Nat), faultUnacked (tripDomain sensor t u d) := fun u d => faultUnacked_writeRecord u _
      exact foldl_establishes faultUnacked (tripDomain sensor t) (fun u d _ => hset u d) (List.mem_cons_self ..) (fun u => hset u e) s
    · exact foldl_establishes (tripStops d) (tripDomain sensor t) (fun u f hu => tripStops_kept sensor t d u f hu) hd
        (fun u => tripStops_tripDomain sensor t u d) s
    · refine foldl_keeps_mem (fun u => getD u d = getD s d) (tripDomain sensor t) (e :: ds) (fun u f hf hu => ?_) s rfl
      exact (getD_tripDomain_other sensor t u (fun he : f = d => hd (he ▸ hf))).trans hu

theorem thermalTrip_completes (n : Nat) (s : State)
    (hn : (junctions.contains n || (decide (0x18 ≤ n) && decide (n ≤ 0x1F))) = true) (hhot : 880 ≤ sensorOf s n)
    (hfirst : s.clk.tripped = false) :
    ∃ t, exec (.thermalTrip n) s = .next t ∧ SameMemory s t ∧ t.clk.runs = false ∧ thermtripLow t = true ∧
      (∀ d, d < 8 → (getD s d).st.runs = true → (getD t d).st = .faulted ∧ (getD t d).stopDue = true) ∧
      (∀ d, d < 8 → (getD s d).st.runs = false → getD t d = getD s d) ∧ faultLow t = true := by
  have hexec := thermalTrip_trips hn hhot hfirst
  obtain ⟨hmem, hlog, hstops, hkept⟩ := tripLogged_effect s n (sensorOf s n)
  generalize tripLogged s n (sensorOf s n) = u at hexec hmem hlog hstops hkept
  have hmember : ∀ d, d < 8 → (d ∈ tripList s ↔ (getD s d).st.runs = true) := fun d hd => by
    simp [tripList, domRuns, hd]
  refine ⟨_, hexec, hmem, rfl, rfl, fun d hd hruns => hstops d ((hmember d hd).mpr hruns), fun d hd hidle => hkept d fun hin => ?_,
    faultLow_of_unacked hlog⟩
  exact Bool.false_ne_true (hidle.symm.trans ((hmember d hd).mp hin))

/-- Settles O52: telemetry and windows by what they write, readings through the highest of the junctions, the trip through the
records that it writes. -/
theorem powerEventsComplete : Obligations.PowerEventsComplete :=
  ⟨regulatorTelemetryRead_completes, powerWindowEnd_completes, thermalReading_completes, thermalTrip_completes⟩

end Sys2Proof.Machine
end

