-- ==== Sys2Proof/Proofs/Starts.lean ====
section
/-!
SUPPORT. Power, reset, readiness and starts (R380 to R393).
-/
namespace Sys2Proof.Machine

/-! ### What a start leaves (R382, R384) -/

theorem releaseHeld_of_none {s : State} (hnone : s.snap.held = []) (which : HeldWrite → Bool) (born : Nat) :
    (releaseHeld s which born).mem = s.mem ∧ (releaseHeld s which born).snap.held = [] := by
  unfold releaseHeld
  rw [hnone]
  exact ⟨rfl, rfl⟩

/-- The memory and the held writes of a state. -/
def sameHeld (s t : State) : Prop := t.mem = s.mem ∧ t.snap.held = s.snap.held

theorem endSnap_of_none {s : State} (hnone : s.snap.held = []) (d : Nat) :
    (endSnap s d).mem = s.mem ∧ (endSnap s d).snap.held = [] := by
  unfold endSnap
  extract_lets x drop _ t pkts u v
  have hv : sameHeld s v := by
    refine foldl_keeps (sameHeld s) ackWrite (fun w p hw => ?_) pkts u ⟨rfl, rfl⟩
    cases p <;> exact hw
  obtain ⟨hmem, hheld⟩ := hv
  obtain ⟨hrel, hrest⟩ := releaseHeld_of_none (hheld.trans hnone) (fun h => h.dom == d) v.ctc
  exact ⟨hrel.trans hmem, hrest⟩

theorem abandonSnap_of_none {s : State} (hnone : s.snap.held = []) (d : Nat) :
    (abandonSnap s d).mem = s.mem ∧ (abandonSnap s d).snap.held = [] := by
  have hend := endSnap_of_none hnone d
  unfold abandonSnap
  dsimp only
  split
  · exact ⟨rfl, hnone⟩
  · split
    · exact hend
    · exact hend

/-- An abandoned snapshot keeps the start-up state, and of the parameters all but its own result. -/
theorem abandonSnap_boot (s : State) (d : Nat) :
    (abandonSnap s d).boot = s.boot ∧ ∀ sub, getP (abandonSnap s d) (pk 0x0400 sub) = getP s (pk 0x0400 sub) ∨ 256 ≤ sub := by
  obtain h | ⟨t, ht, h⟩ := abandonSnap_cases s d
  · rw [h]
    exact ⟨rfl, fun _ => .inl rfl⟩
  · have hboot : t.boot = s.boot := by rw [ht]
    have hpar : ∀ key, getP t key = getP s key := fun key => by rw [ht]; rfl
    rw [h]
    refine ⟨hboot, fun sub => ?_⟩
    rcases Nat.lt_or_ge sub 256 with hsub | hsub
    · exact .inl ((getP_setP_other _ _ (by simp only [snapKey, pk]; omega)).trans (hpar _))
    · exact .inr hsub

/-- The state once the snapshots are abandoned, from which a reset starts. -/
def abandoned (s : State) : State := (List.range 8).foldl abandonSnap s

theorem abandoned_boot (s : State) : (abandoned s).boot = s.boot ∧ getP (abandoned s) (pk 0x0400 1) = getP s (pk 0x0400 1) := by
  refine foldl_keeps (fun t => t.boot = s.boot ∧ getP t (pk 0x0400 1) = getP s (pk 0x0400 1)) abandonSnap (fun t d ht => ?_) _ s
    ⟨rfl, rfl⟩
  obtain ⟨hboot, hpar⟩ := abandonSnap_boot t d
  exact ⟨hboot.trans ht.1, ((hpar 1).resolve_right (by decide)).trans ht.2⟩

theorem abandoned_of_none {s : State} (hnone : s.snap.held = []) : (abandoned s).mem = s.mem := by
  refine (foldl_keeps (fun t => t.mem = s.mem ∧ t.snap.held = []) abandonSnap (fun t d ht => ?_) _ s ⟨rfl, hnone⟩).1
  obtain ⟨hmem, hheld⟩ := ht
  obtain ⟨hstep, hrest⟩ := abandonSnap_of_none hheld d
  exact ⟨hstep.trans hmem, hrest⟩

theorem quiesce_eq (s : State) : quiesce s = setP { startState false (abandoned s) with
    gauge := (abandoned s).gauge, clk := { (startState false (abandoned s)).clk with runs := false } } (pk 0x0400 1)
    (getP (abandoned s) (pk 0x0400 1) &&& 4) := rfl

/-- What a reset leaves: the clocks stopped, the functions but the Gauge die not ready, of the memory HBM alone. -/
theorem quiesce_frame (s : State) :
    (quiesce s).clk.runs = false ∧ (quiesce s).doms = [] ∧ (quiesce s).boot.pwrOk = s.boot.pwrOk ∧
      getP (quiesce s) (pk 0x0400 1) = getP s (pk 0x0400 1) &&& 4 ∧
      (quiesce s).mem = (abandoned s).mem.filter fun x => decide (x.1 < hbmEnd) := by
  obtain ⟨hboot, hpar⟩ := abandoned_boot s
  rw [quiesce_eq]
  generalize abandoned s = u at hboot hpar
  exact ⟨rfl, rfl, congrArg Boot.pwrOk hboot, by rw [getP_setP_same, hpar], rfl⟩

theorem readByte_filter_in {s t : State} (h : t.mem = s.mem.filter fun x => decide (x.1 < hbmEnd)) {a : Nat} (ha : a < hbmEnd) :
    readByte t a = readByte s a := by
  rw [readByte, readByte, h]
  exact SMap.get_filter_in _ _ _ _ fun _ => decide_eq_true ha

theorem readByte_filter_out {s t : State} (h : t.mem = s.mem.filter fun x => decide (x.1 < hbmEnd)) {a : Nat} (ha : hbmEnd ≤ a) :
    readByte t a = 0 := by
  rw [readByte, h]
  exact SMap.get_filter_out _ _ _ _ fun _ => decide_eq_false (Nat.not_lt.mpr ha)

/-! ### PWR_OK and RESET_L (R380 to R383) -/

theorem pwrOkRise_completes (s : State) (hlow : s.boot.pwrOk = false) : exec .pwrOkRise s = .next { s with boot := { s.boot with
    pwrOk := true, resetLow := true, released := 0, reached := false, byCmd := false } } :=
  (if_neg (by rw [hlow]; exact Bool.false_ne_true) : execPwrOkRise s = _)

theorem getD_of_none {s : State} (h : s.doms = []) (d : Nat) : (getD s d).st = .empty := by rw [getD, h]; rfl

theorem pwrOkFall_completes (s : State) (hhigh : s.boot.pwrOk = true) : ∃ t, exec .pwrOkFall s = .next t ∧ t.boot.pwrOk = false ∧
    t.clk.runs = false ∧ thermtripLow t = false ∧ t.boot.faultLow = false ∧ t.mem = [] ∧ t.poison = [] ∧ t.raised = [] ∧
    (∀ d, (getD t d).st = .empty) ∧ getP t (pk 0x0400 1) = getP s (pk 0x0400 1) &&& 4 := by
  have hpar := (quiesce_frame s).2.2.2.1
  refine ⟨_, (if_neg (by rw [hhigh]; exact Bool.false_ne_true) : execPwrOkFall s = _), ?_⟩
  generalize quiesce s = u at hpar
  exact ⟨rfl, rfl, rfl, rfl, rfl, rfl, rfl, fun d => getD_of_none rfl d, by rw [getP_setP_same, hpar]⟩

theorem resetLLow_ignored {us : Nat} {s : State} (h : us < 100 ∨ s.boot.pwrOk = false ∨ s.clk.thermtrip = true) :
    exec (.resetLLow us) s = .next s := by
  refine (if_pos ?_ : execResetLLow us s = _)
  simpa [or_assoc] using h

theorem resetLLow_resets {us : Nat} {s : State} (hlong : 100 ≤ us) (hpwr : s.boot.pwrOk = true) (htherm : s.clk.thermtrip = false) :
    ∃ t, exec (.resetLLow us) s = .next t ∧ t.boot.resetLow = true ∧ t.boot.pwrOk = true ∧ t.clk.runs = false ∧
      (∀ a, hbmEnd ≤ a → readByte t a = 0) ∧ (s.snap.held = [] → ∀ a, a < hbmEnd → readByte t a = readByte s a) ∧
      (∀ d, (getD t d).st = .empty) := by
  obtain ⟨hruns, hdoms, hkept, -, hmem⟩ := quiesce_frame s
  refine ⟨_, (if_neg (by simp [hpwr, htherm, hlong]) : execResetLLow us s = _), ?_⟩
  generalize quiesce s = u at hruns hdoms hkept hmem
  exact ⟨rfl, hkept.trans hpwr, hruns, fun a ha => readByte_filter_out (s := abandoned s) hmem ha,
    fun hnone a ha => (readByte_filter_in (s := abandoned s) hmem ha).trans (readByte_of_mem (abandoned_of_none hnone) a),
    fun d => getD_of_none hdoms d⟩

/-! ### A release of RESET_L (R383) -/

/-- The count of starts after a release. -/
def startCount (s : State) : Nat := if s.boot.released == 0 then 1 else min (getP s (pk 0x0400 5) + 1) 0xFFFFFFFF

/-- What every start shows: the pin released, the tests to run, no domain held, its kind, cause and count. -/
def Starts (cold : Bool) (cause : Nat) (f : SelfTest) (s t : State) : Prop :=
  t.boot.resetLow = false ∧ t.boot.released = s.boot.released + 1 ∧ t.boot.tests = f ∧ (∀ d, (getD t d).st = .empty) ∧
    getP t (pk 0x0400 3) = (if cold then 1 else 2) ∧ getP t (pk 0x0400 4) = cause ∧ getP t (pk 0x0400 5) = startCount s ∧
    t.mem = (if cold then [] else s.mem.filter fun x => decide (x.1 < hbmEnd))

theorem starts_beginStart (cold : Bool) (cause : Nat) (f : SelfTest) (s : State) : Starts cold cause f s (beginStart cold cause f s) := by
  unfold beginStart
  extract_lets count u v w
  have hu : u.boot.released = s.boot.released ∧ u.doms = [] ∧ u.mem = if cold then [] else s.mem.filter fun x => decide (x.1 < hbmEnd) :=
    ⟨rfl, rfl, rfl⟩
  have hv3 : getP v (pk 0x0400 3) = (if cold then 1 else 2) := by
    rw [getP_setP_other _ _ (by decide), getP_setP_other _ _ (by decide), getP_setP_same]
  have hv4 : getP v (pk 0x0400 4) = cause := by rw [getP_setP_other _ _ (by decide), getP_setP_same]
  have hv5 : getP v (pk 0x0400 5) = count := getP_setP_same ..
  have hv : v.boot = u.boot ∧ v.doms = u.doms ∧ v.mem = u.mem := ⟨rfl, rfl, rfl⟩
  have hw : w.boot = v.boot ∧ w.doms = v.doms ∧ w.mem = v.mem ∧ ∀ sub, sub < 256 → getP w (pk 0x0400 sub) = getP v (pk 0x0400 sub) := by
    unfold w
    split
    · exact ⟨rfl, rfl, rfl, fun _ _ => rfl⟩
    · exact ⟨rfl, rfl, rfl, fun sub hsub => getP_setP_other _ _ (by simp only [pk]; omega)⟩
  have hcount : count = startCount s := rfl
  clear_value w v u count
  obtain ⟨hurel, hudoms, humem⟩ := hu
  obtain ⟨hvboot, hvdoms, hvmem⟩ := hv
  obtain ⟨hwboot, hwdoms, hwmem, hwpar⟩ := hw
  refine ⟨rfl, congrArg (· + 1) ?_, rfl, fun d => getD_of_none (hwdoms.trans (hvdoms.trans hudoms)) d, (hwpar 3 (by decide)).trans hv3,
    (hwpar 4 (by decide)).trans hv4, (hwpar 5 (by decide)).trans (hv5.trans hcount), hwmem.trans (hvmem.trans humem)⟩
  rw [hwboot, hvboot, hurel]

/-- The start that a release begins: cold as the first, cold again while none has reached readiness, else warm. -/
theorem resetLRelease_acts {f : SelfTest} {s : State} (hpwr : s.boot.pwrOk = true) (hlow : s.boot.resetLow = true) :
    exec (.resetLRelease f) s = if s.boot.released == 0 then .next (beginStart true 1 f s)
      else if !s.boot.reached then .next (beginStart true 4 f s)
      else .next (beginStart false (if s.boot.byCmd then 3 else 2) f s) :=
  (if_neg (by simp [hpwr, hlow]) : execResetLRelease f s = _)

theorem resetLRelease_completes (f : SelfTest) (s : State) (hpwr : s.boot.pwrOk = true) (hlow : s.boot.resetLow = true) :
    ∃ t, exec (.resetLRelease f) s = .next t ∧ t.boot.resetLow = false ∧ t.boot.released = s.boot.released + 1 ∧
      t.boot.tests = f ∧ (∀ d, (getD t d).st = .empty) ∧
      (s.boot.released = 0 → getP t (pk 0x0400 3) = 1 ∧ getP t (pk 0x0400 4) = 1 ∧ getP t (pk 0x0400 5) = 1) ∧
      (s.boot.released ≠ 0 → getP t (pk 0x0400 5) = min (getP s (pk 0x0400 5) + 1) 0xFFFFFFFF ∧
        (s.boot.reached = false → getP t (pk 0x0400 3) = 1 ∧ getP t (pk 0x0400 4) = 4 ∧ t.mem = []) ∧
        (s.boot.reached = true → getP t (pk 0x0400 3) = 2 ∧ getP t (pk 0x0400 4) = (if s.boot.byCmd then 3 else 2) ∧
          ∀ a, a < hbmEnd → readByte t a = readByte s a)) := by
  have hexec := resetLRelease_acts (f := f) hpwr hlow
  by_cases hfirst : s.boot.released = 0
  · rw [if_pos (by rw [hfirst]; rfl)] at hexec
    obtain ⟨hreset, hrel, htests, hdoms, hkind, hcause, hcount, -⟩ := starts_beginStart true 1 f s
    have hone : startCount s = 1 := if_pos (by rw [hfirst]; rfl)
    exact ⟨_, hexec, hreset, hrel, htests, hdoms, fun _ => ⟨hkind, hcause, hcount.trans hone⟩, fun h => absurd hfirst h⟩
  · rw [if_neg (by simpa using hfirst)] at hexec
    have hnext : startCount s = min (getP s (pk 0x0400 5) + 1) 0xFFFFFFFF := if_neg (by simpa using hfirst)
    cases hreached : s.boot.reached with
    | false =>
      rw [hreached, Bool.not_false, if_pos rfl] at hexec
      obtain ⟨hreset, hrel, htests, hdoms, hkind, hcause, hcount, hmem⟩ := starts_beginStart true 4 f s
      exact ⟨_, hexec, hreset, hrel, htests, hdoms, fun h => absurd h hfirst,
        fun _ => ⟨hcount.trans hnext, fun _ => ⟨hkind, hcause, hmem⟩, nofun⟩⟩
    | true =>
      rw [hreached, Bool.not_true, if_neg Bool.false_ne_true] at hexec
      obtain ⟨hreset, hrel, htests, hdoms, hkind, hcause, hcount, hmem⟩ := starts_beginStart false (if s.boot.byCmd then 3 else 2) f s
      exact ⟨_, hexec, hreset, hrel, htests, hdoms, fun h => absurd h hfirst,
        fun _ => ⟨hcount.trans hnext, nofun, fun _ => ⟨hkind, hcause, fun a ha => readByte_filter_in hmem ha⟩⟩⟩

/-! ### Readiness (R385 to R388) -/

theorem testBit_add_two_pow {n b : Nat} (h : n.testBit b = false) : (n + 2 ^ b).testBit b = true := by
  rw [Nat.add_comm, Nat.testBit_two_pow_add_eq, h]
  rfl

theorem isReady_setP_other (s : State) {key : Nat} (v b : Nat) (h : key ≠ pk 0x0400 1) : isReady (setP s key v) b = isReady s b :=
  congrArg (bit · b) (getP_setP_other s v h)

theorem isFailed_setP_other (s : State) {key : Nat} (v b : Nat) (h : key ≠ pk 0x0400 2) : isFailed (setP s key v) b = isFailed s b :=
  congrArg (bit · b) (getP_setP_other s v h)

theorem isReady_makeRecord (s : State) (kind b : Nat) : isReady (makeRecord s kind) b = isReady s b := by
  unfold makeRecord
  split
  · rfl
  · exact isReady_setP_other _ _ _ (by decide)

theorem isReady_setReady {s : State} {b : Nat} (h : isReady s b = false) : isReady (setReady s b) b = true := by
  unfold setReady
  extract_lets u v _ w
  have hu : isReady u b = true := by
    have hsum : (getP s (pk 0x0400 1) + 2 ^ b).testBit b = true := testBit_add_two_pow h
    exact (congrArg (bit · b) (getP_setP_same s (pk 0x0400 1) (getP s (pk 0x0400 1) + 2 ^ b))).trans hsum
  have hv : isReady v b = isReady u b := isReady_setP_other _ _ _ (by simp only [pk]; omega)
  have hw : isReady w b = isReady v b := by
    unfold w
    split <;> rfl
  clear_value w v u
  split
  · rw [isReady_makeRecord, hw, hv, hu]
  · rw [hw, hv, hu]

theorem isFailed_testResult (s : State) (v b : Nat) : isFailed (testResult s v) b = isFailed s b := by
  have hset : isFailed (setP s (pk 0x0410 1) v) b = isFailed s b := isFailed_setP_other _ _ _ (by decide)
  unfold testResult
  dsimp only
  split
  · exact hset
  · exact hset

theorem faultLow_testResult {s : State} (h : s.boot.faultLow = true) (v : Nat) : (testResult s v).boot.faultLow = true := by
  unfold testResult
  dsimp only
  split
  · exact h
  · exact h

theorem faultLow_of_boot {s : State} (h : s.boot.faultLow = true) : faultLow s = true := by rw [faultLow, h, Bool.or_true, Bool.true_or]

theorem failBit_effect {s : State} {b : Nat} (h : isFailed s b = false) :
    isFailed (failBit s b) b = true ∧ (b = bBoot ∨ b = bHost → faultLow (failBit s b) = true) := by
  unfold failBit
  extract_lets u v _ w
  have hu : isFailed u b = true := by
    have hsum : (getP s (pk 0x0400 2) + 2 ^ b).testBit b = true := testBit_add_two_pow h
    exact (congrArg (bit · b) (getP_setP_same s (pk 0x0400 2) (getP s (pk 0x0400 2) + 2 ^ b))).trans hsum
  have hv : isFailed v b = isFailed u b := by
    unfold v
    split
    · exact isFailed_setP_other _ _ _ (by decide)
    · rfl
  have hw : isFailed w b = isFailed v b ∧ w.boot.faultLow = true := ⟨rfl, rfl⟩
  clear_value w v u
  obtain ⟨hwf, hlow⟩ := hw
  have hfail : isFailed w b = true := hwf.trans (hv.trans hu)
  split
  · split
    · exact ⟨(isFailed_testResult ..).trans hfail, fun _ => faultLow_of_boot (faultLow_testResult hlow 3)⟩
    · exact ⟨hfail, fun _ => faultLow_of_boot hlow⟩
  next hother =>
    have hno : ¬(b = bBoot ∨ b = bHost) := by simpa using hother
    split
    · exact ⟨(isFailed_testResult ..).trans (hv.trans hu), fun hb => absurd hb hno⟩
    · exact ⟨hv.trans hu, fun hb => absurd hb hno⟩

/-- What a report of readiness does, at its time. -/
theorem functionReady_acts {b ms : Nat} {ok : Bool} {s : State} (hbit : readyBit b = true) (hstart : s.boot.resetLow = false)
    (hready : isReady s b = false) (hfailed : isFailed s b = false) (hreq : ∀ r ∈ requires b, isReady s r = true ∨ isFailed s r = true) :
    exec (.functionReady b ok ms) s =
      if canReady (toNs (s.boot.startNs + ms * 1000000) s) b ok then
        .next (((onReady (toNs (s.boot.startNs + ms * 1000000) s) b).map fun v => setReady v b).getD
          (failBit (toNs (s.boot.startNs + ms * 1000000) s) b))
      else .next (failBit (toNs (s.boot.startNs + ms * 1000000) s) b) := by
  have hall : ((requires b).all fun r => isReady s r || isFailed s r) = true :=
    List.all_eq_true.mpr fun r hr => (Bool.or_eq_true ..).mpr (hreq r hr)
  have harm : exec (.functionReady b ok ms) s = execFunctionReady b ok ms s := rfl
  simp only [harm, execFunctionReady, hbit, hstart, hready, hfailed, hall, Bool.or_self, Bool.not_true, Bool.false_eq_true, if_false]
  cases onReady (toNs (s.boot.startNs + ms * 1000000) s) b <;> rfl

theorem functionReady_completes (b ms : Nat) (ok : Bool) (s : State) (hbit : readyBit b = true) (hstart : s.boot.resetLow = false)
    (hready : isReady s b = false) (hfailed : isFailed s b = false) (hreq : ∀ r ∈ requires b, isReady s r = true ∨ isFailed s r = true) :
    let u := toNs (s.boot.startNs + ms * 1000000) s
    ∃ t, exec (.functionReady b ok ms) s = .next t ∧
      (canReady u b ok = false → isFailed u b = false → isFailed t b = true ∧ (b = bBoot ∨ b = bHost → faultLow t = true)) ∧
      (canReady u b ok = true → ∀ v, onReady u b = some v → isReady v b = false → isReady t b = true) ∧
      (canReady u b ok = true → onReady u b = none → isFailed u b = false → isFailed t b = true) := by
  have hexec := functionReady_acts (ok := ok) (ms := ms) hbit hstart hready hfailed hreq
  intro u
  change exec (.functionReady b ok ms) s = if canReady u b ok then
    .next (((onReady u b).map fun v => setReady v b).getD (failBit u b)) else .next (failBit u b) at hexec
  clear_value u
  cases hcan : canReady u b ok with
  | false =>
    rw [hcan, if_neg Bool.false_ne_true] at hexec
    exact ⟨_, hexec, fun _ h => failBit_effect h, nofun, nofun⟩
  | true =>
    rw [hcan, if_pos rfl] at hexec
    cases hon : onReady u b with
    | none =>
      rw [hon] at hexec
      exact ⟨_, hexec, nofun, fun _ v hv => (nomatch hv), fun _ _ h => (failBit_effect h).1⟩
    | some v =>
      rw [hon] at hexec
      refine ⟨_, hexec, nofun, fun _ w hw hb => ?_, fun _ h => nomatch h⟩
      cases hw
      exact isReady_setReady hb

/-! ### Commanded starts and the acknowledge of the tests (R383, R392) -/

theorem warmStartCommand_completes (s : State) (hgate : gateOk s (pk 0x0402 0) = true)
    (htherm : (toNs (s.ns + 10000000) s).clk.thermtrip = false) : ∃ t, exec (.startWarm 1) s = .next t ∧
    t.wstatus = 0 ∧ t.boot.resetLow = true ∧ t.boot.byCmd = true ∧ t.clk.runs = false := by
  generalize hu : toNs (s.ns + 10000000) s = u at htherm
  have hwrite : startWarm s 1 = (0, { quiesce u with boot := { (quiesce u).boot with resetLow := true, byCmd := true } }) := by
    unfold startWarm
    rw [hu, if_neg (not_not_intro rfl)]
    exact if_neg (by rw [htherm]; exact Bool.false_ne_true)
  have hexec : exec (.startWarm 1) s = .next (gated s (pk 0x0402 0) fun s => startWarm s 1) := rfl
  rw [gated_ok hgate hwrite] at hexec
  have hruns := (quiesce_frame u).1
  generalize quiesce u = v at hexec hruns
  exact ⟨_, hexec, rfl, rfl, rfl, hruns⟩

theorem testAck_completes (s : State) (hgate : gateOk s (pk 0x0410 8) = true) :
    exec (.testAck 0) s = .next { s with boot := { s.boot with alertTest := false }, wstatus := 0 } := by
  have hexec : exec (.testAck 0) s = .next (gated s (pk 0x0410 8) fun s => testAck s 0) := rfl
  rw [hexec, gated_ok hgate (rfl : testAck s 0 = (0, { s with boot := { s.boot with alertTest := false } }))]

/-- Settles O53: power and reset by what a reset leaves, releases by what every start shows, readiness by the bit that it sets. -/
theorem startEventsComplete : Obligations.StartEventsComplete :=
  ⟨pwrOkRise_completes, pwrOkFall_completes,
    fun _ _ => ⟨resetLLow_ignored, resetLLow_resets⟩, resetLRelease_completes, functionReady_completes,
    warmStartCommand_completes, testAck_completes⟩

end Sys2Proof.Machine
end

