-- ==== Sys2Proof/Proofs/SecurityCommands.lean ====
section
/-!
SUPPORT. Attestation, host keys and flash update (R404, R406, R408).
-/
namespace Sys2Proof.Machine

/-! ### Attestation (R404) -/

theorem attestGenerate_completes (s : State) (hgate : gateOk s (pk 0x0510 2) = true) (hnone : s.sec.attest = none) :
    ∃ t, exec (.attestGenerate 0) s = .next t ∧ t.wstatus = 0 ∧ SameMemory s t ∧ t.sec.attest = some (attestBody s) ∧
      getP t (pk 0x0510 4) = 1 ∧ SameParamsBut [pk 0x0510 4] s t := by
  have hexec : exec (.attestGenerate 0) s = .next (gated s (pk 0x0510 2) fun s => attestGenerate s 0) := rfl
  generalize hbody : attestBody s = body
  have hwrite : attestGenerate s 0 = (0, setP { s with sec := { s.sec with attest := some body } } (pk 0x0510 4) 1) := by
    rw [attestGenerate, if_neg (not_not_intro rfl), hnone, Option.isSome_none, if_neg Bool.false_ne_true, hbody]
  rw [gated_ok hgate hwrite] at hexec
  have hpar : ∀ key, getP { setP { s with sec := { s.sec with attest := some body } } (pk 0x0510 4) 1 with wstatus := 0 } key =
      getP (setP s (pk 0x0510 4) 1) key := fun _ => rfl
  exact ⟨_, hexec, rfl, fun _ => rfl, rfl, (hpar _).trans (getP_setP_same ..),
    fun key hkey => (hpar key).trans (sameParamsBut_setP (List.mem_singleton_self _) rfl key hkey)⟩

theorem attestSigned_completes (s : State) (b : List Byte) (hsome : s.sec.attest = some b) :
    ∃ t, exec .attestSigned s = .next t ∧ SameMemory s t ∧ t.sec.attest = none ∧ getP t (pk 0x0510 4) = 0 ∧
      getP t (pk 0x0510 3) = leNat (b ++ signBytes deviceKey b ++ List.replicate 4 0#8) ∧
      SameParamsBut [pk 0x0510 3, pk 0x0510 4] s t := by
  generalize hv : leNat (b ++ signBytes deviceKey b ++ List.replicate 4 0#8) = v
  have hexec : exec .attestSigned s = .next (setP (setP { s with sec := { s.sec with attest := none } } (pk 0x0510 3) v) (pk 0x0510 4) 0) := by
    have harm : exec .attestSigned s = execAttestSigned s := rfl
    simp only [harm, execAttestSigned, hsome, hv]
  refine ⟨_, hexec, fun _ => rfl, rfl, getP_setP_same .., ?_, fun key hkey => ?_⟩
  · rw [getP_setP_other _ _ (by decide), getP_setP_same]
  · obtain ⟨h3, h4⟩ : key ≠ pk 0x0510 3 ∧ key ≠ pk 0x0510 4 := by simpa using hkey
    rw [getP_setP_other _ _ (Ne.symm h4), getP_setP_other _ _ (Ne.symm h3)]
    rfl

/-! ### Sessions end with their key (R406, R420) -/

@[simp] theorem getSession_setSession_same (s : State) (k : Nat) (x : Session) : getSession (setSession s k x) k = x := by
  simp [getSession, setSession]

theorem getSession_setSession_other (s : State) {k j : Nat} (x : Session) (h : k ≠ j) :
    getSession (setSession s k x) j = getSession s j := SMap.get_set_other _ _ _ _ _ h

/-- From `s` to `u` nothing has changed but the sessions of the server. -/
def OnlySpp (s u : State) : Prop := u = { s with spp := u.spp }

theorem onlySpp_closeSlot (s : State) (k : Nat) : OnlySpp s (closeSlot s k) := by
  unfold closeSlot
  dsimp only
  split <;> rfl

/-- Slots in use hold a session state; the slot closed is free, the others stay. -/
theorem getSession_closeSlot_other (s : State) {k j : Nat} (h : k ≠ j) : getSession (closeSlot s k) j = getSession s j := by
  unfold closeSlot
  dsimp only
  split
  · rfl
  · exact getSession_setSession_other s {} h

theorem getSession_closeSlot_same {s : State} {k : Nat} (h : (getSession s k).st ≠ 0) : getSession (closeSlot s k) k = {} := by
  unfold closeSlot
  dsimp only
  rw [if_neg (by simpa using h)]
  exact getSession_setSession_same s k {}

theorem st_closeSlot_same (s : State) (k : Nat) : (getSession (closeSlot s k) k).st = 0 := by
  by_cases h : (getSession s k).st = 0
  · unfold closeSlot
    dsimp only
    rw [if_pos (by rw [h]; rfl), h]
  · rw [getSession_closeSlot_same h]

theorem st_closeSlot_of_free {s : State} {j : Nat} (h : (getSession s j).st = 0) (k : Nat) :
    (getSession (closeSlot s k) j).st = 0 := by
  by_cases hk : k = j
  · subst hk
    exact st_closeSlot_same s k
  · rwa [getSession_closeSlot_other s hk]

/-- The slots whose sessions end as the key of a host slot changes. -/
def keyGone (s : State) (slot v : Nat) : List Nat :=
  slotsWhere (setP s (pk 0x0520 (slot + 1)) v) fun x => x.st == 3 && x.slot == slot && decide (getP s (pk 0x0520 (slot + 1)) ≠ 0) ||
    (((List.range 4).all fun k => getP s (pk 0x0520 (k + 1)) == 0) && decide (v ≠ 0) && x.st == 2)

theorem writeHostKey_eq (s : State) (slot : Nat) (key : List Byte) :
    writeHostKey s slot key = (0, (keyGone s slot (leNat key)).foldl closeSlot (setP s (pk 0x0520 (slot + 1)) (leNat key))) := by
  simp only [writeHostKey, keyGone]

theorem mem_keyGone {s : State} {slot k : Nat} (v : Nat) (hk : k < 8) (hst : (getSession s k).st = 3)
    (hslot : (getSession s k).slot = slot) (hold : getP s (pk 0x0520 (slot + 1)) ≠ 0) : k ∈ keyGone s slot v := by
  refine List.mem_filter.mpr ⟨List.mem_range.mpr hk, ?_⟩
  have hsame : getSession (setP s (pk 0x0520 (slot + 1)) v) k = getSession s k := rfl
  simp [hsame, hst, hslot, hold]

theorem hostkeySlotWrite_completes (slot : Nat) (key : List Byte) (s : State) (hslot : slot < 4) (hlen : key.length = 133)
    (hgate : gateOk s (pk 0x0520 (slot + 1)) = true) :
    ∃ t, exec (.hostkeySlotWrite slot key) s = .next t ∧ t.wstatus = 0 ∧ SameMemory s t ∧
      getP t (pk 0x0520 (slot + 1)) = leNat key ∧ SameParamsBut [pk 0x0520 (slot + 1)] s t ∧
      ∀ k, k < 8 → (getSession s k).st = 3 → (getSession s k).slot = slot → getP s (pk 0x0520 (slot + 1)) ≠ 0 →
        (getSession t k).st = 0 := by
  have hexec : exec (.hostkeySlotWrite slot key) s = .next (gated s (pk 0x0520 (slot + 1)) fun s => writeHostKey s slot key) := by
    have harm : exec (.hostkeySlotWrite slot key) s = execHostkeySlotWrite slot key s := rfl
    rw [harm, execHostkeySlotWrite, if_neg (Nat.not_le.mpr hslot), if_neg (not_not_intro hlen)]
  rw [gated_ok hgate (writeHostKey_eq s slot key)] at hexec
  generalize hu : setP s (pk 0x0520 (slot + 1)) (leNat key) = u at hexec
  have hframe : OnlySpp u ((keyGone s slot (leNat key)).foldl closeSlot u) := by
    refine foldl_keeps (OnlySpp u) closeSlot (fun t k ht => ?_) _ u rfl
    have h := onlySpp_closeSlot t k
    rw [OnlySpp] at h ht ⊢
    rw [h, ht]
  have hclosed : ∀ k, k ∈ keyGone s slot (leNat key) → (getSession ((keyGone s slot (leNat key)).foldl closeSlot u) k).st = 0 :=
    fun k hk => foldl_establishes (fun t => (getSession t k).st = 0) closeSlot (fun t j ht => st_closeSlot_of_free ht j) hk
      (fun t => st_closeSlot_same t k) u
  generalize (keyGone s slot (leNat key)).foldl closeSlot u = t at hexec hframe hclosed
  have hmem : SameMemory u t := by rw [hframe]; exact fun _ => rfl
  have hpar : ∀ k, getP t k = getP u k := fun k => by rw [hframe]; rfl
  refine ⟨_, hexec, rfl, fun a => (hmem a).trans ?_, (hpar _).trans ?_, fun k hk => (hpar k).trans ?_,
    fun k hk hst hs hold => hclosed k (mem_keyGone _ hk hst hs hold)⟩
  · rw [← hu]; rfl
  · rw [← hu, getP_setP_same]
  · rw [← hu, getP_setP_other _ _ fun h => hk (List.mem_singleton.mpr h.symm)]

/-! ### Flash update (R408) -/

theorem updateData_completes (v : List Byte) (s : State) (hgate : gateOk s (pk 0x0540 2) = true) (hmin : 4 ≤ v.length)
    (hmax : v.length ≤ 4100) (hfits : leNat (v.take 4) + (v.length - 4) ≤ bankSize (getP s (pk 0x0540 1) / 2))
    (hidle : s.sec.updating = 0) (huse : bankInUse s (getP s (pk 0x0540 1)) = false) :
    exec (.updateData v) s =
      .next { s with sec := { s.sec with updating := 1, updBuf := v, updBank := getP s (pk 0x0540 1) }, wstatus := 0 } := by
  have hexec : exec (.updateData v) s = .next (gated s (pk 0x0540 2) fun s => updateData s v) :=
    (if_neg (Nat.not_lt.mpr hmax) : execUpdateData v s = _)
  have hwrite : updateData s v = (0, { s with sec := { s.sec with updating := 1, updBuf := v, updBank := getP s (pk 0x0540 1) } }) := by
    unfold updateData
    dsimp only
    rw [if_neg (by simp [Nat.not_lt.mpr hmin, Nat.not_lt.mpr hfits]), if_neg (by simp [hidle, huse])]
  rw [hexec, gated_ok hgate hwrite]

theorem foldl_establishes_mem {α β : Type} (P : β → Prop) (f : β → α → β) {l : List α} (hkeep : ∀ s, ∀ x ∈ l, P s → P (f s x)) {x : α}
    (hx : x ∈ l) (hset : ∀ s, P (f s x)) (s : β) : P (l.foldl f s) := by
  induction l generalizing s with
  | nil => exact absurd hx List.not_mem_nil
  | cons y l ih =>
    have hrest : ∀ s, ∀ z ∈ l, P s → P (f s z) := fun s z hz => hkeep s z (List.mem_cons_of_mem _ hz)
    rw [List.foldl_cons]
    rcases List.mem_cons.mp hx with rfl | hx
    · exact foldl_keeps_mem P f l hrest _ (hset s)
    · exact ih hrest hx _

/-- The flash with bytes written from an address on. -/
def flashWritten (m : SMap Nat) (base : Nat) (bs : List Byte) : SMap Nat :=
  ((List.range bs.length).zip bs).foldl (fun m x => SMap.set 0 m (base + x.1) (x.2.toNat + 1)) m

theorem get_flashWritten_outside {m : SMap Nat} {base a : Nat} {bs : List Byte} (h : a < base ∨ base + bs.length ≤ a) :
    SMap.get 0 (flashWritten m base bs) a = SMap.get 0 m a := by
  refine foldl_keeps_mem (fun n => SMap.get 0 n a = SMap.get 0 m a) _ _ (fun n x hx hn => ?_) m rfl
  have hlt : x.1 < bs.length := List.mem_range.mp (List.of_mem_zip (a := x.1) (b := x.2) hx).1
  rwa [SMap.get_set_other _ _ _ _ _ (by omega)]

theorem get_flashWritten_inside {m : SMap Nat} {base i : Nat} {bs : List Byte} (h : i < bs.length) :
    SMap.get 0 (flashWritten m base bs) (base + i) = (bs.getD i 0).toNat + 1 := by
  have hin : (i, bs.getD i 0) ∈ (List.range bs.length).zip bs := by
    refine List.mem_iff_getElem.mpr ⟨i, by simpa using h, ?_⟩
    simp [h]
  refine foldl_establishes_mem (fun n : SMap Nat => SMap.get 0 n (base + i) = (bs.getD i 0).toNat + 1)
    (fun (n : SMap Nat) (x : Nat × Byte) => SMap.set 0 n (base + x.1) (x.2.toNat + 1)) (fun n x hx hn => ?_) hin
    (fun n => SMap.get_set_same ..) m
  by_cases hxi : x.1 = i
  · obtain ⟨j, hj, hx⟩ := List.mem_iff_getElem.mp hx
    subst hxi
    subst hx
    rw [SMap.get_set_same]
    simp at hj ⊢
    simp [hj]
  · rwa [SMap.get_set_other _ _ _ _ _ (by omega)]

theorem updateWriteComplete_completes (s : State) (hwrites : s.sec.updating = 1) :
    let bank := s.sec.updBank
    let base := bankBase (bank / 2) (bank % 2) + leNat (s.sec.updBuf.take 4)
    let bs := s.sec.updBuf.drop 4
    ∃ t, exec .updateWriteComplete s = .next t ∧ t = { s with sec := t.sec } ∧ t.sec.updating = 0 ∧
      (∀ i, i < bs.length → flashByte t (base + i) = bs.getD i 0) ∧
      (∀ a, a < base ∨ base + bs.length ≤ a → flashByte t a = flashByte s a) := by
  intro bank base bs
  have hexec : exec .updateWriteComplete s =
      .next { s with sec := { s.sec with updating := 0, updBuf := [], updBank := 0, flash := flashWritten s.sec.flash base bs } } :=
    (if_neg (not_not_intro hwrites) : execUpdateWriteComplete s = _)
  clear_value base bs
  refine ⟨_, hexec, rfl, rfl, fun i hi => ?_, fun a ha => ?_⟩
  · simp only [flashByte, get_flashWritten_inside hi]
    simp
  · simp only [flashByte, get_flashWritten_outside ha]

theorem updateVerify_completes (s : State) (hgate : gateOk s (pk 0x0540 3) = true) (hidle : s.sec.updating = 0)
    (huse : bankInUse s (getP s (pk 0x0540 1)) = false) : exec (.updateVerify 0) s =
      .next { s with sec := { s.sec with updating := 2, updBank := getP s (pk 0x0540 1) }, wstatus := 0 } := by
  have hexec : exec (.updateVerify 0) s = .next (gated s (pk 0x0540 3) fun s => updateVerify s 0) := rfl
  have hwrite : updateVerify s 0 = (0, { s with sec := { s.sec with updating := 2, updBank := getP s (pk 0x0540 1) } }) := by
    rw [updateVerify, if_neg (not_not_intro rfl), if_neg (by simp [hidle, huse])]
  rw [hexec, gated_ok hgate hwrite]

theorem updateVerifyComplete_completes (s : State) (hchecks : s.sec.updating = 2) :
    ∃ t, exec .updateVerifyComplete s = .next t ∧ SameMemory s t ∧ t.sec.updating = 0 ∧ SameParamsBut [pk 0x0540 4] s t ∧
      (verifyBank s (s.sec.updBank / 2) (s.sec.updBank % 2) = 0 → getP t (pk 0x0540 4) = 1) ∧
      (verifyBank s (s.sec.updBank / 2) (s.sec.updBank % 2) ≠ 0 → getP t (pk 0x0540 4) =
        0x10 + verifyBank s (s.sec.updBank / 2) (s.sec.updBank % 2)) := by
  generalize hr : verifyBank s (s.sec.updBank / 2) (s.sec.updBank % 2) = r
  have hexec : exec .updateVerifyComplete s = .next (setP { s with sec := { s.sec with updating := 0, updBank := 0 } } (pk 0x0540 4)
      (if r == 0 then 1 else 0x10 + r)) := by
    rw [← hr]
    exact (if_neg (not_not_intro hchecks) : execUpdateVerifyComplete s = _)
  refine ⟨_, hexec, fun _ => rfl, rfl, sameParamsBut_setP (List.mem_singleton_self _) rfl,
    fun h => ?_, fun h => ?_⟩
  · rw [getP_setP_same, h]
    rfl
  · rw [getP_setP_same, if_neg (by simpa using h)]

/-- Settles O54: reports and updates by what they write, a host key by the sessions that it closes. -/
theorem securityCommandsComplete : Obligations.SecurityCommandsComplete :=
  ⟨attestGenerate_completes, attestSigned_completes, hostkeySlotWrite_completes, fun s v => updateData_completes s v,
    updateWriteComplete_completes, updateVerify_completes, updateVerifyComplete_completes⟩

end Sys2Proof.Machine
end

