-- ==== Sys2Proof/Proofs/GaugeDie.lean ====
section
/-!
SUPPORT. The Gauge die: samples, commits, records and the seal (R433 to R443).
-/
namespace Sys2Proof.Machine

/-! ### Samples and commits (R433 to R436) -/

/-- What a rail's accumulator gains by a sample. -/
def sampleEnergy (s : State) (i : Nat) (raw : Option (W32 × W32)) : Int := 2 * (railPower s i raw).getD (SMap.get 0 s.gauge.lastP i)

theorem addEnergy_frame (s : State) (i : Nat) (raw : Option (W32 × W32)) :
    addEnergy s i raw = { s with gauge := (addEnergy s i raw).gauge } ∧ (addEnergy s i raw).gauge.us = s.gauge.us := ⟨rfl, rfl⟩

theorem addEnergy_same (s : State) {i : Nat} (raw : Option (W32 × W32)) (hi : i ≠ 9) :
    SMap.get 0 (addEnergy s i raw).gauge.acc i = SMap.get 0 s.gauge.acc i + sampleEnergy s i raw := by
  unfold addEnergy sampleEnergy
  dsimp only
  rw [SMap.get_set_other _ _ _ _ _ (Ne.symm hi), SMap.get_set_same]
  cases railPower s i raw <;> rfl

theorem addEnergy_other (s : State) {i j : Nat} (raw : Option (W32 × W32)) (hj : j ≠ 9) (h : i ≠ j) :
    SMap.get 0 (addEnergy s i raw).gauge.acc j = SMap.get 0 s.gauge.acc j ∧
      SMap.get 0 (addEnergy s i raw).gauge.lastP j = SMap.get 0 s.gauge.lastP j := by
  unfold addEnergy
  dsimp only
  exact ⟨by rw [SMap.get_set_other _ _ _ _ _ (Ne.symm hj), SMap.get_set_other _ _ _ _ _ h], SMap.get_set_other _ _ _ _ _ h⟩

/-- Every rail adds its energy. -/
def addEnergies (l : List (Nat × Option (W32 × W32))) (s : State) : State := l.foldl (fun s x => addEnergy s x.1 x.2) s

theorem addEnergies_frame (l : List (Nat × Option (W32 × W32))) (s : State) :
    addEnergies l s = { s with gauge := (addEnergies l s).gauge } ∧ (addEnergies l s).gauge.us = s.gauge.us := by
  refine foldl_keeps (fun t : State => t = { s with gauge := t.gauge } ∧ t.gauge.us = s.gauge.us) _ (fun t x ht => ?_) l s ⟨rfl, rfl⟩
  obtain ⟨hframe, hus⟩ := addEnergy_frame t x.1 x.2
  refine ⟨?_, hus.trans ht.2⟩
  rw [hframe, ht.1]

theorem addEnergies_other {l : List (Nat × Option (W32 × W32))} {i : Nat} (hi : i ≠ 9) (h : i ∉ l.map Prod.fst) (s : State) :
    SMap.get 0 (addEnergies l s).gauge.acc i = SMap.get 0 s.gauge.acc i := by
  refine foldl_keeps_mem (fun t => SMap.get 0 t.gauge.acc i = SMap.get 0 s.gauge.acc i) _ l (fun t x hx ht => ?_) s rfl
  exact (addEnergy_other t x.2 hi fun he : x.1 = i => h (he ▸ List.mem_map_of_mem hx)).1.trans ht

theorem sampleEnergy_addEnergy_other (s : State) {i j : Nat} (r raw : Option (W32 × W32)) (hj : j ≠ 9) (h : i ≠ j) :
    sampleEnergy (addEnergy s i r) j raw = sampleEnergy s j raw := by
  have hrail : railPower (addEnergy s i r) j raw = railPower s j raw := rfl
  rw [sampleEnergy, hrail, (addEnergy_other s r hj h).2]
  rfl

theorem addEnergies_mem {l : List (Nat × Option (W32 × W32))} (hnd : (l.map Prod.fst).Nodup) {i : Nat} {raw : Option (W32 × W32)}
    (hi : i ≠ 9) (hmem : (i, raw) ∈ l) (s : State) :
    SMap.get 0 (addEnergies l s).gauge.acc i = SMap.get 0 s.gauge.acc i + sampleEnergy s i raw := by
  induction l generalizing s with
  | nil => exact absurd hmem List.not_mem_nil
  | cons x l ih =>
    obtain ⟨hx, hnd⟩ := List.nodup_cons.mp hnd
    have hstep : addEnergies (x :: l) s = addEnergies l (addEnergy s x.1 x.2) := rfl
    rw [hstep]
    rcases List.mem_cons.mp hmem with rfl | hmem
    · rw [addEnergies_other hi hx, addEnergy_same s raw hi]
    · have hne : x.1 ≠ i := fun he : x.1 = i => hx (List.mem_map.mpr ⟨_, hmem, he.symm⟩)
      rw [ih hnd hmem, (addEnergy_other s x.2 hi hne).1, sampleEnergy_addEnergy_other s x.2 raw hi hne]

theorem gaugeSample_completes (raw : List (Option (W32 × W32))) (s : State) (hlen : raw.length = 9) (hruns : gaugeRuns s = true) :
    ∃ t, exec (.gaugeSample raw) s = .next t ∧ t = { s with gauge := t.gauge } ∧ t.gauge.us = s.gauge.us + 2 ∧
      ∀ i, i < 9 → SMap.get 0 t.gauge.acc i =
        SMap.get 0 s.gauge.acc i + 2 * (railPower s i (raw.getD i none)).getD (SMap.get 0 s.gauge.lastP i) := by
  have hexec : exec (.gaugeSample raw) s = .next { addEnergies ((List.range 9).zip raw) s with
      gauge := { (addEnergies ((List.range 9).zip raw) s).gauge with us := (addEnergies ((List.range 9).zip raw) s).gauge.us + 2 } } := by
    have harm : exec (.gaugeSample raw) s = execGaugeSample raw s := rfl
    rw [harm, execGaugeSample, if_neg (not_not_intro hlen), if_neg (by rw [hruns]; exact Bool.false_ne_true)]
    rfl
  have hfst : ((List.range 9).zip raw).map Prod.fst = List.range 9 := List.map_fst_zip (Nat.le_of_eq (List.length_range.trans hlen.symm))
  obtain ⟨hframe, hus⟩ := addEnergies_frame ((List.range 9).zip raw) s
  have hacc : ∀ i, i < 9 → SMap.get 0 (addEnergies ((List.range 9).zip raw) s).gauge.acc i =
      SMap.get 0 s.gauge.acc i + sampleEnergy s i (raw.getD i none) := fun i hi => by
    have hmem : (i, raw.getD i none) ∈ (List.range 9).zip raw :=
      List.mem_iff_getElem.mpr ⟨i, by simp [hlen, hi], by simp [hlen, hi]⟩
    exact addEnergies_mem (by rw [hfst]; exact List.nodup_range) (by omega) hmem s
  generalize addEnergies ((List.range 9).zip raw) s = u at hexec hframe hus hacc
  refine ⟨_, hexec, ?_, congrArg (· + 2) hus, hacc⟩
  rw [hframe]

theorem gaugeCommit_completes (s : State) (hruns : gaugeRuns s = true) :
    ∃ t, exec .gaugeCommit s = .next t ∧ SameMemory s t ∧ t.gauge.committed = s.gauge.acc ∧ t.gauge.acc = s.gauge.acc ∧
      SameParamsBut [pk 0x1010 2] s t :=
  ⟨_, (if_neg (by rw [hruns]; exact Bool.false_ne_true) : execGaugeCommit s = _), fun _ => rfl, rfl, rfl,
    sameParamsBut_setP (List.mem_singleton_self _) rfl⟩

theorem vddIodFall_completes (s : State) : exec .vddIodFall s = .next { s with gauge := { s.gauge with
    committed := s.gauge.acc, power := true, off := true, signing := none, after := [] } } := rfl

/-! ### Records (R437, R438) -/

/-- A record whose fields are taken now. -/
theorem makeRecord_effect {s : State} (hidle : s.gauge.signing = none) (kind : Nat) :
    SameMemory s (makeRecord s kind) ∧ (makeRecord s kind).gauge.signing = some ⟨kind, recordBody s kind⟩ ∧
      getP (makeRecord s kind) (pk 0x1020 4) = 1 ∧ (makeRecord s kind).gauge.us = s.gauge.us ∧
      SameParamsBut [pk 0x1020 4] s (makeRecord s kind) := by
  unfold makeRecord
  rw [hidle, Option.isSome_none, if_neg Bool.false_ne_true]
  generalize recordBody s kind = b
  exact ⟨fun _ => rfl, rfl, getP_setP_same .., rfl, sameParamsBut_setP (List.mem_singleton_self _) rfl⟩

theorem recordGenerate_completes (s : State) (hgate : gateOk s (pk 0x1020 2) = true) (hidle : s.gauge.signing = none) :
    ∃ t, exec (.recordGenerate 0) s = .next t ∧ t.wstatus = 0 ∧ SameMemory s t ∧ t.gauge.signing = some ⟨1, recordBody s 1⟩ ∧
      getP t (pk 0x1020 4) = 1 ∧ SameParamsBut [pk 0x1020 4] s t := by
  have hexec : exec (.recordGenerate 0) s = .next (gated s (pk 0x1020 2) fun s => recordGenerate s 0) := rfl
  have hwrite : recordGenerate s 0 = (0, makeRecord s 1) := by
    rw [recordGenerate, if_neg (not_not_intro rfl), hidle, Option.isSome_none, if_neg Bool.false_ne_true]
  rw [gated_ok hgate hwrite] at hexec
  obtain ⟨hmem, hsign, hbusy, -, hpar⟩ := makeRecord_effect hidle 1
  generalize makeRecord s 1 = u at hexec hmem hsign hbusy hpar
  exact ⟨_, hexec, rfl, hmem, hsign, hbusy, hpar⟩

theorem periodicRecord_completes (s : State) (hruns : gaugeRuns s = true) (hdue : getP s (pk 0x1020 5) ≠ 0)
    (hidle : s.gauge.signing = none) :
    ∃ t b, exec .periodicRecord s = .next t ∧ SameMemory s t ∧ t.gauge.signing = some ⟨2, b⟩ ∧ getP t (pk 0x1020 4) = 1 ∧
      t.gauge.us = max s.gauge.us s.gauge.periodNext ∧ SameParamsBut [pk 0x1020 4] s t := by
  have hexec : exec .periodicRecord s = .next (makeRecord { s with gauge := { s.gauge with
      us := max s.gauge.us s.gauge.periodNext, periodNext := s.gauge.periodNext + getP s (pk 0x1020 5) * 1000000 } } 2) :=
    (if_neg (by simp [hruns, hdue]) : execPeriodicRecord s = _)
  generalize hu : { s with gauge := { s.gauge with
    us := max s.gauge.us s.gauge.periodNext, periodNext := s.gauge.periodNext + getP s (pk 0x1020 5) * 1000000 } } = u at hexec
  have hframe : SameMemory s u ∧ u.gauge.signing = none ∧ u.gauge.us = max s.gauge.us s.gauge.periodNext ∧ SameParamsBut [] s u := by
    rw [← hu]
    exact ⟨fun _ => rfl, hidle, rfl, fun _ _ => rfl⟩
  obtain ⟨humem, husign, huus, hupar⟩ := hframe
  obtain ⟨hmem, hsign, hbusy, hus, hpar⟩ := makeRecord_effect husign 2
  exact ⟨_, _, hexec, fun a => (hmem a).trans (humem a), hsign, hbusy, hus.trans huus,
    fun key hkey => (hpar key hkey).trans (hupar key List.not_mem_nil)⟩

theorem recordSigned_completes (s : State) (kind : Nat) (b : List Byte) (hsign : s.gauge.signing = some ⟨kind, b⟩)
    (hafter : s.gauge.after = []) :
    let n := getP s (pk 0x1020 6) + 1
    let v := leNat (fitBytes 512 (b ++ signBytes (signKey s) b))
    ∃ t, exec .recordSigned s = .next t ∧ SameMemory s t ∧ t.gauge.signing = none ∧ getP t (pk 0x1021 (n % 64 + 1)) = v ∧
      getP t (pk 0x1020 3) = v ∧ getP t (pk 0x1020 6) = n ∧ getP t (pk 0x1020 4) = 0 := by
  intro n v
  generalize hu : setP (setP (setP (setP s (pk 0x1021 (n % 64 + 1)) v) (pk 0x1020 3) v) (pk 0x1020 6) n) (pk 0x1020 4) 0 = u
  have hexec : exec .recordSigned s = .next { u with gauge := { u.gauge with signing := none } } := by
    have harm : exec .recordSigned s = execRecordSigned s := rfl
    have hgauge : u.gauge = s.gauge := by rw [← hu]; rfl
    simp only [harm, execRecordSigned, hsign]
    change (match (setP (setP (setP (setP s (pk 0x1021 (n % 64 + 1)) v) (pk 0x1020 3) v) (pk 0x1020 6) n) (pk 0x1020 4) 0).gauge.after with
      | [] => _
      | _ :: _ => _) = _
    rw [hu]
    simp only [hgauge, hafter]
  clear_value n v
  refine ⟨_, hexec, ?_, rfl, ?_, ?_, ?_, ?_⟩
  · rw [← hu]
    exact sameMemory_of_eq (by simp only [setP_mem])
  · show getP u _ = v
    rw [← hu, getP_setP_other _ _ (by simp only [pk]; omega), getP_setP_other _ _ (by simp only [pk]; omega),
      getP_setP_other _ _ (by simp only [pk]; omega), getP_setP_same]
  · show getP u _ = v
    rw [← hu, getP_setP_other _ _ (by decide), getP_setP_other _ _ (by decide), getP_setP_same]
  · show getP u _ = n
    rw [← hu, getP_setP_other _ _ (by decide), getP_setP_same]
  · show getP u _ = 0
    rw [← hu, getP_setP_same]

/-! ### The seal (R439 to R443) -/

theorem sealRequest_completes (v : List Byte) (s : State) (hgate : gateOk s (pk 0x1030 2) = true) (hlen : v.length ≤ 65536) :
    exec (.sealRequest v) s = .next { s with gauge := { s.gauge with request := v }, wstatus := 0 } := by
  have hexec : exec (.sealRequest v) s = .next (gated s (pk 0x1030 2) fun s => writeSealRequest s v) :=
    (if_neg (Nat.not_lt.mpr hlen) : execSealRequest v s = _)
  rw [hexec, gated_ok hgate (rfl : writeSealRequest s v = (0, { s with gauge := { s.gauge with request := v } }))]

/-- A record of the log changes no parameter but those of the log. -/
theorem getP_writeRecord_other (s : State) (r : Raised) (kind : Nat) {key : Nat} (h : key < pk 0x0E00 0 ∨ pk 0x0E02 0 ≤ key) :
    getP (writeRecord s r kind) key = getP s key := by
  unfold writeRecord
  extract_lets seq slot lost s1 s2 s3 s4 s5
  have hslot : slot < 64 := Nat.mod_lt _ (by decide)
  have h2 : getP s2 key = getP s key := (getP_setP_other _ _ (by simp only [pk] at h ⊢; omega)).trans
    (getP_incP_other _ _ (by simp only [pk] at h ⊢; omega))
  have h3 : getP s3 key = getP s2 key := by
    unfold s3
    split
    · exact getP_incP_other _ _ (by simp only [pk] at h ⊢; omega)
    · rfl
  have h4 : getP s4 key = getP s3 key := getP_setP_other _ _ (by simp only [pk] at h ⊢; omega)
  have h5 : getP s5 key = getP s4 key := (slotTaken_frame s4 _ _).2.2.2 key
  have hall : getP s5 key = getP s key := h5.trans (h4.trans (h3.trans h2))
  clear_value s5
  cases r.dom <;> exact hall

theorem auditKept_frame (u : State) (a : SMap Nat) (v : Nat) :
    SameMemory u (setP { u with gauge := { u.gauge with audit := a } } (pk 0x1032 3) v) ∧
      (setP { u with gauge := { u.gauge with audit := a } } (pk 0x1032 3) v).gauge.signing = u.gauge.signing ∧
      getP (setP { u with gauge := { u.gauge with audit := a } } (pk 0x1032 3) v) (pk 0x1032 3) = v ∧
      getP (setP { u with gauge := { u.gauge with audit := a } } (pk 0x1032 3) v) (pk 0x1030 5) = getP u (pk 0x1030 5) :=
  ⟨fun _ => rfl, rfl, getP_setP_same .., getP_setP_other _ _ (by decide)⟩

/-- The audit trail gains an entry, and the seal break is counted. -/
theorem addAudit_effect (s : State) (kind outcome : Nat) (old new : List Byte) :
    SameMemory s (addAudit s kind outcome old new) ∧ (addAudit s kind outcome old new).gauge.signing = s.gauge.signing ∧
      getP (addAudit s kind outcome old new) (pk 0x1032 3) = getP s (pk 0x1032 3) + 1 ∧
      getP (addAudit s kind outcome old new) (pk 0x1030 5) = min (getP s (pk 0x1030 5) + 1) (counterMax (pk 0x1030 5)) := by
  unfold addAudit
  extract_lets n u e
  have hu : SameMemory s u ∧ u.gauge.signing = s.gauge.signing ∧ getP u (pk 0x1030 5) = min (getP s (pk 0x1030 5) + 1) (counterMax (pk 0x1030 5)) :=
    ⟨fun _ => rfl, rfl, getP_incP_same ..⟩
  clear_value u e
  obtain ⟨hmem, hsign, hcount⟩ := hu
  obtain ⟨hkept, hksign, hentries, hkcount⟩ := auditKept_frame u (SMap.set 0 u.gauge.audit n e) (n + 1)
  exact ⟨fun a => (hkept a).trans (hmem a), hksign.trans hsign, hentries, hkcount.trans hcount⟩

/-- What a command replaces is no counter of the seal. -/
theorem sealApply_frame (s : State) (cmd : Nat) (p : List Byte) :
    SameMemory s (sealApply s cmd p).2.1 ∧ (sealApply s cmd p).2.1.gauge.signing = s.gauge.signing ∧
      getP (sealApply s cmd p).2.1 (pk 0x1032 3) = getP s (pk 0x1032 3) ∧
      getP (sealApply s cmd p).2.1 (pk 0x1030 5) = getP s (pk 0x1030 5) := by
  unfold sealApply
  dsimp only
  split
  · exact ⟨fun _ => rfl, rfl, getP_setP_other _ _ (by decide), getP_setP_other _ _ (by decide)⟩
  · exact ⟨fun _ => rfl, rfl, getP_setP_other _ _ (by decide), getP_setP_other _ _ (by decide)⟩
  · generalize leNat (fitBytes 133 (Config.ecPublic s.draws)) = key
    exact ⟨fun _ => rfl, rfl, getP_setP_other _ _ (by decide), getP_setP_other _ _ (by decide)⟩
  · exact ⟨fun _ => rfl, rfl, rfl, rfl⟩

/-- A refused seal command is logged and counted. -/
def sealRefused (s : State) (r : Raised) : State := incP (logError s r (pk 0x0E10 3)) (pk 0x1030 6) 1

theorem sealRefused_effect (s : State) (r : Raised) :
    SameMemory s (sealRefused s r) ∧ (sealRefused s r).gauge = s.gauge ∧
      getP (sealRefused s r) (pk 0x1030 6) = min (getP s (pk 0x1030 6) + 1) (counterMax (pk 0x1030 6)) ∧
      ∀ key, key ≠ pk 0x1030 6 → pk 0x0E11 0 ≤ key → getP (sealRefused s r) key = getP s key := by
  have hlog : OnlyLogged s (writeRecord s r 1) := onlyLogged_writeRecord ..
  have hkept : ∀ key, pk 0x0E11 0 ≤ key → getP (logError s r (pk 0x0E10 3)) key = getP s key := fun key hkey =>
    (getP_incP_other _ _ (by simp only [pk] at hkey ⊢; omega)).trans
      (getP_writeRecord_other s r 1 (.inr (by simp only [pk] at hkey ⊢; omega)))
  have hgauge : (writeRecord s r 1).gauge = s.gauge := by rw [hlog]
  have hmem : SameMemory s (writeRecord s r 1) := sameMemory_of_onlyLogged hlog
  refine ⟨hmem, hgauge, ?_, fun key hne hkey => (getP_incP_other _ _ (Ne.symm hne)).trans (hkept key hkey)⟩
  rw [sealRefused, getP_incP_same, hkept _ (by decide)]

theorem sealExecute_refused {s : State} (hidle : s.gauge.signing = none) (h : sealCheck s s.gauge.request ≠ 0) :
    sealExecute s 0 = (0, sealRefused s (noDomain s 0x16 0x0400 (sealCmd s.gauge.request) (sealCheck s s.gauge.request))) := by
  unfold sealExecute
  dsimp only
  rw [if_neg (not_not_intro rfl), hidle, Option.isSome_none, if_neg Bool.false_ne_true, if_pos h]
  rfl

/-- The nonce of the next command is drawn. -/
def nonceDrawn (u : State) : State := setP { u with draws := u.draws + 1 } (pk 0x1030 1) (leNat (fitBytes 32 (Config.random u.draws 32)))

theorem nonceDrawn_frame (u : State) :
    SameMemory u (nonceDrawn u) ∧ (nonceDrawn u).gauge.signing = u.gauge.signing ∧
      ∀ key, key ≠ pk 0x1030 1 → getP (nonceDrawn u) key = getP u key := by
  unfold nonceDrawn
  generalize leNat (fitBytes 32 (Config.random u.draws 32)) = v
  exact ⟨fun _ => rfl, rfl, fun _ hkey => getP_setP_other _ _ (Ne.symm hkey)⟩

/-- A command applied and entered in the audit trail. -/
def sealEntered (cmd : Nat) (a : List Byte × State × List Byte) : State := addAudit a.2.1 cmd 1 a.1 a.2.2

/-- A command that passes: applied, entered, its nonce drawn anew. -/
def sealPassed (s : State) : State :=
  nonceDrawn (sealEntered (sealCmd s.gauge.request) (sealApply s (sealCmd s.gauge.request) (sealPayload s.gauge.request)))

theorem sealExecute_passed {s : State} (hidle : s.gauge.signing = none) (h : sealCheck s s.gauge.request = 0) :
    sealExecute s 0 = (0, makeRecord (sealPassed s) 3) := by
  unfold sealExecute
  dsimp only
  rw [if_neg (not_not_intro rfl), hidle, Option.isSome_none, if_neg Bool.false_ne_true, if_neg (not_not_intro h)]
  rfl

theorem sealEntered_effect {s : State} {cmd : Nat} {a : List Byte × State × List Byte} {p : List Byte} (ha : sealApply s cmd p = a) :
    SameMemory s (sealEntered cmd a) ∧ (sealEntered cmd a).gauge.signing = s.gauge.signing ∧
      getP (sealEntered cmd a) (pk 0x1032 3) = getP s (pk 0x1032 3) + 1 ∧
      getP (sealEntered cmd a) (pk 0x1030 5) = min (getP s (pk 0x1030 5) + 1) (counterMax (pk 0x1030 5)) := by
  obtain ⟨hmem, hsign, hentries, hcount⟩ := sealApply_frame s cmd p
  rw [ha] at hmem hsign hentries hcount
  obtain ⟨hamem, hasign, haentries, hacount⟩ := addAudit_effect a.2.1 cmd 1 a.1 a.2.2
  rw [hentries] at haentries
  rw [hcount] at hacount
  exact ⟨fun x => (hamem x).trans (hmem x), hasign.trans hsign, haentries, hacount⟩

theorem sealPassed_effect (s : State) :
    SameMemory s (sealPassed s) ∧ (sealPassed s).gauge.signing = s.gauge.signing ∧
      getP (sealPassed s) (pk 0x1032 3) = getP s (pk 0x1032 3) + 1 ∧
      getP (sealPassed s) (pk 0x1030 5) = min (getP s (pk 0x1030 5) + 1) (counterMax (pk 0x1030 5)) := by
  unfold sealPassed
  generalize ha : sealApply s (sealCmd s.gauge.request) (sealPayload s.gauge.request) = a
  obtain ⟨hmem, hsign, hentries, hcount⟩ := sealEntered_effect ha
  obtain ⟨hnmem, hnsign, hnpar⟩ := nonceDrawn_frame (sealEntered (sealCmd s.gauge.request) a)
  exact ⟨fun x => (hnmem x).trans (hmem x), hnsign.trans hsign, (hnpar _ (by decide)).trans hentries,
    (hnpar _ (by decide)).trans hcount⟩

theorem exec_sealExecute_of_ok {s t : State} (hgate : gateOk s (pk 0x1030 3) = true) (h : sealExecute s 0 = (0, t)) :
    exec (.sealExecute 0) s = .next { t with wstatus := 0 } := by
  have harm : exec (.sealExecute 0) s = execSealExecute 0 s := rfl
  rw [harm, execSealExecute, gated_ok hgate h]

/-- What a refused command leaves, as the state that the write reports. -/
theorem sealExecute_refuses_of_effect {s u : State} (hexec : exec (.sealExecute 0) s = .next { u with wstatus := 0 })
    (heffect : SameMemory s u ∧ u.gauge = s.gauge ∧
      getP u (pk 0x1030 6) = min (getP s (pk 0x1030 6) + 1) (counterMax (pk 0x1030 6)) ∧
      ∀ key, key ≠ pk 0x1030 6 → pk 0x0E11 0 ≤ key → getP u key = getP s key) :
    ∃ t, exec (.sealExecute 0) s = .next t ∧ t.wstatus = 0 ∧ SameMemory s t ∧
      getP t (pk 0x1030 6) = min (getP s (pk 0x1030 6) + 1) (counterMax (pk 0x1030 6)) ∧
      getP t (pk 0x1030 1) = getP s (pk 0x1030 1) ∧ getP t (pk 0x1031 1) = getP s (pk 0x1031 1) ∧
      getP t (pk 0x1030 4) = getP s (pk 0x1030 4) ∧ t.gauge = s.gauge := by
  obtain ⟨hmem, hgauge, hcount, hpar⟩ := heffect
  exact ⟨_, hexec, rfl, hmem, hcount, hpar _ (by decide) (by decide), hpar _ (by decide) (by decide),
    hpar _ (by decide) (by decide), hgauge⟩

theorem sealExecute_refuses {s : State} (hgate : gateOk s (pk 0x1030 3) = true) (hidle : s.gauge.signing = none)
    (hcheck : sealCheck s s.gauge.request ≠ 0) :
    ∃ t, exec (.sealExecute 0) s = .next t ∧ t.wstatus = 0 ∧ SameMemory s t ∧
      getP t (pk 0x1030 6) = min (getP s (pk 0x1030 6) + 1) (counterMax (pk 0x1030 6)) ∧
      getP t (pk 0x1030 1) = getP s (pk 0x1030 1) ∧ getP t (pk 0x1031 1) = getP s (pk 0x1031 1) ∧
      getP t (pk 0x1030 4) = getP s (pk 0x1030 4) ∧ t.gauge = s.gauge :=
  sealExecute_refuses_of_effect (exec_sealExecute_of_ok hgate (sealExecute_refused hidle hcheck)) (sealRefused_effect s _)

theorem sealExecute_passes {s : State} (hgate : gateOk s (pk 0x1030 3) = true) (hidle : s.gauge.signing = none)
    (hcheck : sealCheck s s.gauge.request = 0) :
    ∃ t, exec (.sealExecute 0) s = .next t ∧ t.wstatus = 0 ∧ SameMemory s t ∧
      getP t (pk 0x1032 3) = getP s (pk 0x1032 3) + 1 ∧
      getP t (pk 0x1030 5) = min (getP s (pk 0x1030 5) + 1) (counterMax (pk 0x1030 5)) ∧ ∃ b, t.gauge.signing = some ⟨3, b⟩ := by
  have hexec := exec_sealExecute_of_ok hgate (sealExecute_passed hidle hcheck)
  obtain ⟨hmem, hsign, hentries, hcount⟩ := sealPassed_effect s
  generalize sealPassed s = u at hexec hmem hsign hentries hcount
  obtain ⟨hrmem, hrsign, -, -, hrpar⟩ := makeRecord_effect (hsign.trans hidle) 3
  generalize recordBody u 3 = b at hrsign
  generalize makeRecord u 3 = v at hexec hrmem hrsign hrpar
  exact ⟨_, hexec, rfl, fun a => (hrmem a).trans (hmem a), (hrpar _ (by decide)).trans hentries,
    (hrpar _ (by decide)).trans hcount, b, hrsign⟩

theorem sealExecute_completes (s : State) (hgate : gateOk s (pk 0x1030 3) = true) (hidle : s.gauge.signing = none) :
    ∃ t, exec (.sealExecute 0) s = .next t ∧ t.wstatus = 0 ∧ SameMemory s t ∧
      (sealCheck s s.gauge.request ≠ 0 → getP t (pk 0x1030 6) = min (getP s (pk 0x1030 6) + 1) (counterMax (pk 0x1030 6)) ∧
        getP t (pk 0x1030 1) = getP s (pk 0x1030 1) ∧ getP t (pk 0x1031 1) = getP s (pk 0x1031 1) ∧
        getP t (pk 0x1030 4) = getP s (pk 0x1030 4) ∧ t.gauge = s.gauge) ∧
      (sealCheck s s.gauge.request = 0 → getP t (pk 0x1032 3) = getP s (pk 0x1032 3) + 1 ∧
        getP t (pk 0x1030 5) = min (getP s (pk 0x1030 5) + 1) (counterMax (pk 0x1030 5)) ∧
        ∃ b, t.gauge.signing = some ⟨3, b⟩) := by
  by_cases hcheck : sealCheck s s.gauge.request = 0
  · obtain ⟨t, hexec, hok, hmem, hpassed⟩ := sealExecute_passes hgate hidle hcheck
    exact ⟨t, hexec, hok, hmem, fun h => absurd hcheck h, fun _ => hpassed⟩
  · obtain ⟨t, hexec, hok, hmem, hrefused⟩ := sealExecute_refuses hgate hidle hcheck
    exact ⟨t, hexec, hok, hmem, fun _ => hrefused, fun h => absurd h hcheck⟩

/-- Settles O55: a sample rail by rail, records by what they take, a seal command by its checks and by what each part of it
changes. -/
theorem gaugeCommandsComplete : Obligations.GaugeCommandsComplete :=
  ⟨gaugeSample_completes, gaugeCommit_completes, vddIodFall_completes, recordGenerate_completes, periodicRecord_completes,
    recordSigned_completes, sealRequest_completes, sealExecute_completes⟩

end Sys2Proof.Machine
end

