-- ==== Sys2Proof/Proofs/CollectiveGrace.lean ====
section
/-!
SUPPORT. The end of a grace period (R331): a state in which the time up to it changes the configuration of its CVC.
-/
namespace Sys2Proof.Machine

/-- A line that the mesh unit of Chamois core 0 reads for operation 0. -/
def strayJob : CJob := { kind := .mesh, at_ := 0, count := 1, word := 0, offset := 0, addrs := [0] }

/-- Operation 0 of Chamois core 0, of a domain number that no domain has: the bucket counters of partition 2F0h are the
parameters of CVC 0. -/
def strayXfer : Xfer := ⟨0x40, 0, 0, 0x2F0, .tld, 1, 0, 0, 0, 0, 0, 0, none, [], [], none, 0, 0, 0⟩

/-- Domain 0 runs, CVC 0 is the first of a line of two whose one contribution comes at hop 1, the window of that hop has closed
and its grace has not, and the read of `strayJob` is due. -/
def strayS : State :=
  let s := setP (setP (setP (setP State.reset (cvcKey 0 1) 0) (cvcKey 0 3) 1) (cvcKey 0 4) 2) (pk 0x0B00 7) 1
  { s with
    doms := [(0, { st := .running, started := true })]
    chams := [(0, { dom := some 0, jobs := [strayJob] })]
    xfers := [strayXfer]
    herd := { coll := [(0, { run := true, closed := [1] })] } }

/-- The faults that wait after a command. -/
def raisedAfter : Host.Outcome State Fault Refusal → List Raised
  | .next t => t.raised
  | _ => []

theorem strayS_awaits : nextGrace strayS 0 = some 1 ∧ (getD strayS (cvcCfg strayS 0).dom).st.faultable = true ∧
    (∃ g ∈ takeLegs (cvcCfg strayS 0) (cdOp (getColl strayS 0).desc), g.hop = 1 ∧
      (getColl strayS 0).took.contains (g.hop, g.peer) = false) := by
  decide +kernel

/-- As time passes up to the end of the grace, the walk for `strayXfer` borrows 128 bytes: position 0 of the line becomes 128,
at which no contribution comes at hop 1. -/
theorem strayS_raises_nothing : (raisedAfter (execWindowGraceClose 0 strayS)).isEmpty = true := by decide +kernel

/-- Refutes O60: the end of a grace period raises nothing in `strayS`, where the time up to it changes the topology under the
missing contribution. -/
theorem not_collectivesAndPortsComplete : ¬ Obligations.CollectivesAndPortsComplete := by
  rintro ⟨-, -, -, -, hgrace, -⟩
  obtain ⟨hnext, hfaultable, g, hg, hhop, hmissing⟩ := strayS_awaits
  obtain ⟨t, hexec, -, hraises⟩ := hgrace 0 1 strayS (by decide) hnext
  obtain ⟨r, hr, -⟩ := hraises hfaultable g hg hhop hmissing
  have hraised : raisedAfter (execWindowGraceClose 0 strayS) = t.raised :=
    congrArg raisedAfter (hexec : execWindowGraceClose 0 strayS = .next t)
  have hnone := strayS_raises_nothing
  rw [hraised, List.isEmpty_iff] at hnone
  rw [hnone] at hr
  exact List.not_mem_nil hr

end Sys2Proof.Machine
end

