-- ==== Sys2Proof/Proofs/TimePasses.lean ====
section
/-!
SUPPORT. What the time that passes leaves alone in every state: sessions, ports, the state of snapshots but what waits to be
mirrored, and the parameters of ports, herds and snapshots. First the accesses to memory and translations that the units make.
-/
namespace Sys2Proof.Machine

/-- A parameter of ports, herds and snapshots; not at the subs of the counters that a regulator keeps per partition. -/
def serviceKey (key : Nat) : Bool :=
  decide (pk 0x0A00 0 ≤ key) && decide (key < pk 0x0D00 0) && !(decide (4 ≤ key % 256) && decide (key % 256 ≤ 6))

/-- The snapshot of a domain but for what waits to be mirrored. -/
def snapMark (s : State) (d : Nat) : SnapDom := { getSnapD s d with mirrors := [] }

/-- From `s` to `t` the units have done no more than what time brings. -/
structure Elapsed (s t : State) : Prop where
  spp : t.spp = s.spp
  ports : t.ports = s.ports
  snap : ∀ d, snapMark t d = snapMark s d
  par : ∀ key, serviceKey key = true → getP t key = getP s key

theorem Elapsed.refl (s : State) : Elapsed s s := ⟨rfl, rfl, fun _ => rfl, fun _ _ => rfl⟩

theorem Elapsed.trans {s t u : State} (h : Elapsed s t) (k : Elapsed t u) : Elapsed s u :=
  ⟨k.spp.trans h.spp, k.ports.trans h.ports, fun d => (k.snap d).trans (h.snap d), fun key hkey => (k.par key hkey).trans (h.par key hkey)⟩

/-- The parts of the state that `Elapsed` speaks of. -/
def keptParts (s : State) : Spp × Ports × Snap × SMap Nat := (s.spp, s.ports, s.snap, s.par)

theorem elapsed_of_kept {s t : State} (h : keptParts t = keptParts s) : Elapsed s t := by
  obtain ⟨hspp, hports, hsnap, hpar⟩ : t.spp = s.spp ∧ t.ports = s.ports ∧ t.snap = s.snap ∧ t.par = s.par := by
    simpa [keptParts] using h
  exact ⟨hspp, hports, fun d => by rw [snapMark, snapMark, getSnapD, getSnapD, hsnap], fun key _ => by rw [getP, getP, hpar]⟩

theorem elapsed_ite {s a b : State} (p : Prop) [Decidable p] (ha : Elapsed s a) (hb : Elapsed s b) : Elapsed s (if p then a else b) := by
  split <;> assumption

theorem elapsed_foldl {α : Type} (f : State → α → State) (hf : ∀ t x, Elapsed t (f t x)) (l : List α) (s : State) :
    Elapsed s (l.foldl f s) :=
  foldl_keeps (Elapsed s) f (fun t x h => h.trans (hf t x)) l s (.refl s)

/-! ### Counters and records -/

theorem elapsed_setP {s : State} {key : Nat} (v : Nat) (h : serviceKey key = false) : Elapsed s (setP s key v) :=
  ⟨rfl, rfl, fun _ => rfl, fun k hk => getP_setP_other s v fun he : key = k => Bool.false_ne_true (h.symm.trans (he ▸ hk))⟩

theorem elapsed_incP {s : State} {key : Nat} (n : Nat) (h : serviceKey key = false) : Elapsed s (incP s key n) := elapsed_setP _ h

theorem serviceKey_of_bucketSub (index : Nat) {sub : Nat} (hlo : 4 ≤ sub) (hhi : sub ≤ 6) : serviceKey (pk index sub) = false := by
  have hmod : pk index sub % 256 = sub := by unfold pk; omega
  rw [serviceKey, hmod, decide_eq_true hlo, decide_eq_true hhi]
  simp

theorem serviceKey_of_high {key : Nat} (h : pk 0x0D00 0 ≤ key) : serviceKey key = false := by
  simp only [serviceKey, decide_eq_false (Nat.not_lt.mpr h), Bool.and_false, Bool.false_and]

theorem elapsed_slotTaken (s : State) (a b : SMap Nat) : Elapsed s { s with unacked := a, logSeq := b } := elapsed_of_kept rfl

theorem elapsed_writeRecord (s : State) (r : Raised) (kind : Nat) : Elapsed s (writeRecord s r kind) := by
  unfold writeRecord
  extract_lets seq slot lost s1 s2 s3 s4 s5
  have h2 : Elapsed s s2 := (elapsed_incP (s := s) 1 (by decide)).trans (elapsed_setP _ (by decide))
  have h3 : Elapsed s2 s3 := elapsed_ite (lost = true) (elapsed_incP 1 (by decide)) (.refl s2)
  have h4 : Elapsed s3 s4 := elapsed_setP _ (serviceKey_of_high (by unfold pk; omega))
  have h5 : Elapsed s4 s5 := elapsed_slotTaken ..
  clear_value s5 s4 s3 s2
  have hall : Elapsed s s5 := ((h2.trans h3).trans h4).trans h5
  split
  · exact hall.trans (elapsed_of_kept rfl)
  · exact hall

theorem elapsed_raise (s : State) (r : Raised) : Elapsed s (raise s r) := by
  unfold raise
  split
  · exact elapsed_ite _ (elapsed_of_kept rfl) (elapsed_incP 1 (by decide))
  · exact elapsed_writeRecord ..

theorem elapsed_countNan (s : State) (sub n d unit : Nat) : Elapsed s (countNan s sub n d unit) := by
  have hcount : Elapsed s (incP s (pk 0x0D30 sub) n) := elapsed_incP n (serviceKey_of_high (by unfold pk; omega))
  exact elapsed_ite _ (.refl s) (elapsed_ite _ (((hcount.trans (elapsed_setP d (by decide))).trans (elapsed_setP _ (by decide))).trans
    (elapsed_setP unit (by decide))) hcount)

theorem elapsed_countSat (s : State) (tensor n : Nat) : Elapsed s (countSat s tensor n) := by
  unfold countSat
  refine elapsed_ite _ (.refl s) ?_
  split
  · exact elapsed_of_kept rfl
  · exact elapsed_incP n (by decide)

theorem elapsed_foldAmax (s : State) (tensor : Nat) (strand : Option Nat) (xs : List PV) : Elapsed s (foldAmax s tensor strand xs) := by
  unfold foldAmax
  split
  · exact .refl s
  · exact elapsed_ite _ (.refl s) (elapsed_of_kept rfl)

theorem elapsed_countConv (s : State) (tensor : Nat) (os : List RowOut) : Elapsed s (countConv s tensor os) :=
  ((elapsed_countSat s tensor _).trans (elapsed_incP _ (by decide))).trans (elapsed_incP _ (by decide))

/-! ### Checks of codewords -/

theorem elapsed_logUncorrectable (s : State) (unit code pa : Nat) (d : Option Nat) : Elapsed s (logUncorrectable s unit code pa d) :=
  (elapsed_writeRecord s _ 1).trans (elapsed_incP 1 (by decide))

theorem elapsed_countCorrected (s : State) (base : Nat) : Elapsed s (countCorrected s base) :=
  elapsed_ite _ ((elapsed_incP (s := s) 1 (by decide)).trans (elapsed_incP 1 (serviceKey_of_bucketSub _ (by decide) (by decide))))
    (elapsed_incP 1 (by decide))

theorem elapsed_drawn (s : State) (p : Prop) [Decidable p] : Elapsed s (if p then freeBits s 2 else (2, s)).2 := by
  split
  · exact elapsed_of_kept rfl
  · exact .refl s

theorem elapsed_checkSector (s : State) (base : Nat) (d : Option Nat) : Elapsed s (checkSector s base d) := by
  unfold checkSector
  extract_lets es g bs stored
  refine elapsed_ite _ (.refl s) ?_
  have h := elapsed_drawn s ((if base < hbmEnd then 6 else 2) < es.length)
  generalize (if (if base < hbmEnd then 6 else 2) < es.length then freeBits s 2 else (2, s)) = drawn at h
  obtain ⟨draw, t⟩ := drawn
  dsimp only at h ⊢
  split
  · exact h.trans (elapsed_of_kept rfl)
  · refine Elapsed.trans ?_ (elapsed_countCorrected ..)
    exact h.trans (elapsed_of_kept rfl)
  · refine Elapsed.trans ?_ (elapsed_countCorrected ..)
    exact h.trans (elapsed_of_kept rfl)
  · refine Elapsed.trans ?_ (elapsed_logUncorrectable ..)
    split
    · refine Elapsed.trans ?_ (elapsed_incP 1 (serviceKey_of_bucketSub _ (sub := 5) (by decide) (by decide)))
      exact h.trans (elapsed_of_kept rfl)
    · exact h.trans (elapsed_of_kept rfl)

theorem elapsed_checkRange (s : State) (pa n : Nat) (d : Option Nat) : Elapsed s (checkRange s pa n d) :=
  elapsed_ite _ (.refl s) (elapsed_foldl _ (fun t _ => elapsed_checkSector t _ d) _ s)

theorem elapsed_checkLines (s : State) (u line n d : Nat) : Elapsed s (checkLines s u line n d) := elapsed_checkRange ..

theorem elapsed_checkEdges (s : State) (pa n : Nat) (d : Option Nat) : Elapsed s (checkEdges s pa n d) := by
  unfold checkEdges
  extract_lets t
  have ht : Elapsed s t := elapsed_ite _ (.refl s) (elapsed_checkSector ..)
  exact elapsed_ite _ (.refl s) (elapsed_ite _ ht (ht.trans (elapsed_checkSector ..)))

/-! ### Writes that a stack accepts -/

theorem elapsed_writeP (s : State) (pa : Nat) (bs : List (Byte × Bool)) : Elapsed s (writeP s pa bs) := elapsed_of_kept rfl

theorem elapsed_writeAccWord (s : State) (pa e off : Nat) (bs : List (Byte × Bool)) : Elapsed s (writeAccWord s pa e off bs) := by
  unfold writeAccWord
  extract_lets t _ _ _ ts k c
  have ht : Elapsed s t := elapsed_writeP s pa bs
  exact elapsed_ite _ ht (elapsed_ite _ (ht.trans (elapsed_of_kept rfl)) ht)

theorem elapsed_writePhys (s : State) (pa : Nat) (bs : List (Byte × Bool)) : Elapsed s (writePhys s pa bs) := by
  unfold writePhys
  split
  · exact elapsed_foldl _ (fun t w => elapsed_ite _ (.refl t) (elapsed_writeAccWord ..)) _ s
  · exact elapsed_writeP s pa bs

theorem snapMark_setSnapD (s : State) (d : Nat) (x : SnapDom) (e : Nat) :
    snapMark (setSnapD s d x) e = if d = e then { x with mirrors := [] } else snapMark s e := by
  have hget : getSnapD (setSnapD s d x) e = if d = e then x else getSnapD s e := SMap.get_set ..
  rw [snapMark, hget]
  split <;> rfl

/-- A write that waits to be mirrored joins those of its domain. -/
theorem elapsed_mirrored {s t : State} (h : Elapsed s t) (d : Nat) (l : List MirrorWrite) :
    Elapsed s (setSnapD t d { getSnapD s d with mirrors := l }) :=
  ⟨h.spp, h.ports, fun e => by
    rw [snapMark_setSnapD]
    split
    next he => rw [← he]; rfl
    next => exact h.snap e, h.par⟩

theorem elapsed_acceptWrite (s : State) (d va pa pte born : Nat) (bs : List (Byte × Bool)) (pkt : Option Packet) :
    Elapsed s (acceptWrite s d va pa pte born bs pkt).2 := by
  unfold acceptWrite
  split
  · exact elapsed_writePhys s pa bs
  · split
    · exact elapsed_writePhys s pa bs
    next e r _ =>
      extract_lets page sd after _ hold t w k
      have ht : Elapsed s t := ⟨rfl, rfl, fun _ => rfl, fun _ _ => rfl⟩
      have hw : Elapsed s w := ht.trans (elapsed_writePhys t pa bs)
      have hheld : ∀ m, Elapsed s (hold m).2 := fun _ => ⟨rfl, rfl, fun _ => rfl, fun _ _ => rfl⟩
      split
      · exact hheld false
      · split
        · exact hheld true
        · rw [apply_ite Prod.snd]
          exact elapsed_ite _ (elapsed_mirrored hw d _) hw

/-! ### The service of a queue -/

theorem elapsed_narrowRead (s : State) (pa : Nat) (d : Option Nat) : Elapsed s (narrowRead s pa d) := by
  unfold narrowRead
  extract_lets hit t
  have ht : Elapsed s t := elapsed_incP 1 (by decide)
  exact (elapsed_ite _ (ht.trans (elapsed_incP 1 (by decide))) (ht.trans (elapsed_checkSector ..))).trans (elapsed_of_kept rfl)

theorem elapsed_serveReq (s : State) (st : Nat) (r : HbmReq) : Elapsed s (serveReq s st r) := by
  unfold serveReq
  extract_lets t p dom bs v w rd data
  have ht : Elapsed s t := elapsed_of_kept rfl
  have hv : Elapsed s v := ht.trans (elapsed_checkEdges ..)
  have hw : Elapsed s w := elapsed_ite _ (hv.trans (elapsed_incP 1 (by decide))) hv
  have ha := hw.trans (elapsed_acceptWrite w p.dom p.va p.pa p.pte p.born bs (some p))
  have hrd : Elapsed s rd := elapsed_ite _ (ht.trans (elapsed_narrowRead ..)) (ht.trans (elapsed_checkRange ..))
  exact elapsed_ite _ (elapsed_ite _ (ha.trans (elapsed_of_kept rfl)) ha) (hrd.trans (elapsed_of_kept rfl))

theorem elapsed_deduct (s : State) (st q c : Nat) : Elapsed s (deduct s st q c) := by
  unfold deduct
  extract_lets b
  refine Elapsed.trans ?_ (elapsed_incP c (serviceKey_of_bucketSub _ (sub := 4) (by decide) (by decide)))
  exact elapsed_of_kept rfl

theorem elapsed_chargeNow (s : State) (st q c : Nat) : Elapsed s (chargeNow s st q c) :=
  elapsed_ite _ (elapsed_deduct ..) (elapsed_ite _ (elapsed_incP c (serviceKey_of_bucketSub _ (by decide) (by decide)))
    ((elapsed_incP (s := s) 1 (serviceKey_of_bucketSub _ (by decide) (by decide))).trans (elapsed_deduct ..)))

theorem elapsed_serveWhile (st : Nat) (test : State → HbmReq → Bool) (n : Nat) (s : State) : Elapsed s (serveWhile st test n s) := by
  induction n generalizing s with
  | zero => exact .refl s
  | succ n ih =>
    rw [serveWhile]
    split
    · exact .refl s
    · exact ((elapsed_chargeNow s ..).trans (elapsed_serveReq ..)).trans (ih _)

theorem elapsed_serveAhead (s : State) (pa n dead : Nat) : Elapsed s (serveAhead s pa n dead) :=
  elapsed_ite _ (.refl s) ((elapsed_serveWhile _ _ _ s).trans (elapsed_serveWhile ..))

theorem elapsed_chargeWalk (s : State) (q pa : Nat) : Elapsed s (chargeWalk s q pa) :=
  elapsed_ite _ (.refl s) (((elapsed_serveAhead s ..).trans (elapsed_chargeNow ..)).trans (elapsed_narrowRead ..))

/-! ### Translation and halts -/

theorem elapsed_lookupPte (s : State) (d va : Nat) : Elapsed s (lookupPte s d va).2 := by
  unfold lookupPte
  split
  · exact .refl s
  · extract_lets t u
    have ht : Elapsed s t := (elapsed_incP (s := s) 1 (by decide)).trans (elapsed_chargeWalk ..)
    have hu : Elapsed s u := by
      unfold u
      split
      · exact ht.trans (elapsed_chargeWalk ..)
      · exact ht
    split
    · exact hu
    · exact elapsed_ite _ (hu.trans (elapsed_of_kept rfl)) hu

theorem elapsed_translate (s : State) (d va : Nat) (write : Bool) : Elapsed s (translate s d va write).2 := by
  have h := elapsed_lookupPte s d va
  unfold translate
  split
  · exact .refl s
  · split
    next he => rwa [he] at h
    next he =>
      rw [he] at h
      dsimp only
      repeat' split
      all_goals exact h

theorem elapsed_of_translate {s t : State} {d va : Nat} {write : Bool} {r : Xl} (h : translate s d va write = (r, t)) : Elapsed s t := by
  have ht := elapsed_translate s d va write
  rwa [h] at ht

theorem elapsed_takeHalt (s : State) (d : Nat) (who : Requester) (write : Bool) (ctx prog unit va word offset : Nat) :
    Elapsed s (takeHalt s d who write ctx prog unit va word offset).2 := by
  unfold takeHalt
  extract_lets h
  split
  · exact elapsed_of_kept rfl
  next i _ =>
    show Elapsed s (placeHalt s i h)
    unfold placeHalt
    extract_lets g t u dd
    have hu : Elapsed s u := (elapsed_of_kept (s := s) (t := t) rfl).trans (elapsed_incP 1 (by decide))
    exact elapsed_ite _ (hu.trans (elapsed_of_kept rfl)) hu

/-! ### Operations of the mesh unit -/

theorem elapsed_updXfer (s : State) (u tag : Nat) (f : Xfer → Xfer) : Elapsed s (updXfer s u tag f) := elapsed_of_kept rfl

theorem elapsed_sendPacket (s : State) (p : Packet) : Elapsed s (sendPacket s p) := elapsed_of_kept rfl

theorem elapsed_pump (u tag n : Nat) (s : State) : Elapsed s (pump u tag n s) := by
  induction n generalizing s with
  | zero => exact .refl s
  | succ n ih =>
    rw [pump]
    split
    · exact .refl s
    next x _ =>
      extract_lets va k wr
      refine elapsed_ite _ (.refl s) ?_
      split
      next t he => exact (elapsed_of_translate he).trans (elapsed_raise ..)
      next t he => exact ((elapsed_of_translate he).trans (elapsed_takeHalt ..)).trans (elapsed_updXfer ..)
      next pa pte t he =>
        exact (((elapsed_of_translate he).trans (elapsed_sendPacket ..)).trans (elapsed_updXfer ..)).trans (ih _)

theorem elapsed_pumpCore (u tag n : Nat) (s : State) : Elapsed s (pumpCore u tag n s) := by
  induction n generalizing s with
  | zero => exact .refl s
  | succ n ih =>
    rw [pumpCore]
    split
    · exact .refl s
    · exact elapsed_ite _ (.refl s) (((elapsed_sendPacket s _).trans (elapsed_updXfer ..)).trans (ih _))

theorem elapsed_pumpRed (u tag n : Nat) (s : State) : Elapsed s (pumpRed u tag n s) := by
  induction n generalizing s with
  | zero => exact .refl s
  | succ n ih =>
    rw [pumpRed]
    split
    · exact .refl s
    next x _ =>
      extract_lets k f
      refine elapsed_ite _ (.refl s) (Elapsed.trans ?_ (ih _))
      exact elapsed_of_kept rfl

theorem elapsed_pumpNarrow (u tag n : Nat) (s : State) : Elapsed s (pumpNarrow u tag n s) := by
  induction n generalizing s with
  | zero => exact .refl s
  | succ n ih =>
    rw [pumpNarrow]
    split
    · exact .refl s
    · split
      · exact .refl s
      next va byte rest _ =>
        extract_lets wr
        refine elapsed_ite _ (.refl s) ?_
        split
        next t he => exact (elapsed_of_translate he).trans (elapsed_raise ..)
        next t he => exact ((elapsed_of_translate he).trans (elapsed_takeHalt ..)).trans (elapsed_updXfer ..)
        next pa pte t he =>
          exact elapsed_ite _ ((elapsed_of_translate he).trans (elapsed_raise ..))
            ((((elapsed_of_translate he).trans (elapsed_sendPacket ..)).trans (elapsed_updXfer ..)).trans (ih _))

theorem elapsed_pumpXfer (u tag n : Nat) (s : State) : Elapsed s (pumpXfer u tag n s) := by
  unfold pumpXfer
  split
  · exact .refl s
  next x _ =>
    cases x.kind with
    | tld | tst => exact elapsed_pump ..
    | put | get => exact elapsed_pumpCore ..
    | rsend => exact elapsed_pumpRed ..
    | ngath | nscat => exact elapsed_pumpNarrow ..
    | spush | spop | accPush => exact .refl s

theorem elapsed_pumpPush (u tag size n : Nat) (s : State) : Elapsed s (pumpPush u tag size n s) := by
  induction n generalizing s with
  | zero => exact .refl s
  | succ n ih =>
    rw [pumpPush]
    split
    · exact .refl s
    · refine elapsed_ite _ (.refl s) (Elapsed.trans ?_ (ih _))
      exact elapsed_of_kept rfl

end Sys2Proof.Machine
end

