-- ==== Sys2Proof/Proofs/UnitsInTime.lean ====
section
/-!
SUPPORT. What the time that passes leaves alone in every state: the units of the cores, cycle by cycle, and time itself.
-/
namespace Sys2Proof.Machine

/-! ### Chamois cores -/

theorem elapsed_writeRuns (s : State) (u line : Nat) (rs : List (Nat × List PByte)) : Elapsed s (writeRuns s u line rs) :=
  elapsed_foldl _ (fun t _ => elapsed_writeP t _ _) rs s

theorem elapsed_writeOuts (s : State) (u : Nat) (os : List (Nat × RowOut)) : Elapsed s (writeOuts s u os) :=
  elapsed_foldl _ (fun t _ => elapsed_writeRuns t u _ _) os s

theorem elapsed_readLanes (s : State) (u : Nat) (j : CJob) : Elapsed s (readLanes s u j).1 :=
  (elapsed_incP (s := s) _ (by decide)).trans (elapsed_incP _ (by decide))

theorem elapsed_sfaccRead (s : State) (c d dcc : Nat) (j : CJob) : Elapsed s (sfaccRead s c d dcc j).1 := by
  unfold sfaccRead
  extract_lets u os old new made t v
  have hv : Elapsed s v := (elapsed_countNan s ..).trans (elapsed_countNan ..)
  split
  · dsimp only
    exact hv.trans (elapsed_raise ..)
  · exact hv.trans (elapsed_countConv ..)

theorem elapsed_meshRead (s : State) (c d dcc : Nat) (j : CJob) : Elapsed s (meshRead s c d dcc j).1 := by
  unfold meshRead
  extract_lets u line l op half
  have hpump : ∀ x n, Elapsed s (pumpXfer u j.tag n (updXfer s u j.tag fun y => { y with data := y.data ++ [x] })) :=
    fun x n => (elapsed_updXfer s ..).trans (elapsed_pumpXfer ..)
  split
  · exact hpump half _
  · split
    · split
      · dsimp only
        exact (elapsed_of_kept (s := s) (t := dropPush s u j.tag) rfl).trans (elapsed_raise ..)
      · exact (elapsed_updXfer s ..).trans (elapsed_pumpPush ..)
    · exact hpump l _

theorem elapsed_doJob (s : State) (c d dcc : Nat) (j : CJob) : Elapsed s (doJob s c d dcc j).1 := by
  unfold doJob
  extract_lets u t
  have ht : Elapsed s t := elapsed_ite _ (elapsed_foldl _ (fun v l => elapsed_checkLines v u l 1 d) _ s) (.refl s)
  clear_value t
  cases j.kind with
  | vld => exact ht.trans (elapsed_of_kept rfl)
  | lds => exact ht.trans (elapsed_of_kept rfl)
  | store => exact ht.trans (elapsed_foldl _ (fun v r => elapsed_writeP v _ _) _ t)
  | trd =>
    have hread := ht.trans (elapsed_readLanes t u j)
    dsimp only
    split
    · exact hread
    · exact hread.trans (elapsed_of_kept rfl)
  | twr => exact (ht.trans (elapsed_writeOuts t u _)).trans (elapsed_foldAmax ..)
  | sfacc =>
    have hread := ht.trans (elapsed_readLanes t u j)
    dsimp only
    split
    · split
      · exact hread.trans (elapsed_sfaccRead ..)
      · exact hread
    · exact (ht.trans (elapsed_writeOuts t u _)).trans (elapsed_foldAmax ..)
  | mesh => exact ht.trans (elapsed_meshRead ..)

theorem elapsed_serve {s : State} (c d dcc : Nat) (l : List (Nat × CJob)) (used : List Nat) (a : Served) (ha : Elapsed s a.s) :
    Elapsed s (serve c d dcc l used a).s := by
  induction l generalizing used a with
  | nil => exact ha
  | cons x l ih =>
    obtain ⟨i, j⟩ := x
    have hjob := ha.trans (elapsed_doJob a.s c d dcc j)
    rw [serve]
    generalize doJob a.s c d dcc j = r at hjob
    obtain ⟨t, k⟩ := r
    split
    · exact ih _ _ ha
    · exact ih _ _ hjob

theorem elapsed_jobsCycle (s : State) (c d dcc : Nat) : Elapsed s (jobsCycle s c d dcc) := by
  unfold jobsCycle
  extract_lets js rs a x y
  exact elapsed_ite _ (.refl s) ((elapsed_serve c d dcc rs [] { s := s } (.refl s)).trans (elapsed_of_kept rfl))

/-! ### Elements of the accumulators -/

theorem elapsed_setLevel (s : State) (x : El) (l : Nat) (v : PV) : Elapsed s (setLevel s x l v) := by
  unfold setLevel
  dsimp only
  split <;> exact elapsed_of_kept rfl

theorem elapsed_setTop (s : State) (x : El) (v : PV) : Elapsed s (setTop s x v) := elapsed_of_kept rfl

theorem elapsed_setTile (s : State) (k : Nat) (x : TileSt) : Elapsed s (setTile s k x) := elapsed_of_kept rfl

theorem elapsed_setCell (s : State) (k : Nat) (x : Cell) : Elapsed s (setCell s k x) := elapsed_of_kept rfl

theorem elapsed_putWord (s : State) (pa n : Nat) (p : Bool) : Elapsed s (putWord s pa n p) := elapsed_of_kept rfl

theorem elapsed_markWord (s : State) (pa : Nat) (p : Bool) : Elapsed s (markWord s pa p) := elapsed_of_kept rfl

theorem elapsed_freshen (s : State) (x : El) : Elapsed s (freshen s x) := by
  unfold freshen
  extract_lets c t
  have ht : Elapsed s t := (elapsed_markWord s x.top false).trans (elapsed_foldl _ (fun v _ => elapsed_markWord v _ false) _ _)
  exact elapsed_ite _ (ht.trans (elapsed_setCell ..)) (.refl s)

/-- Where a pushed value comes to rest: a level, or the top of the element. -/
theorem elapsed_pushEl (s : State) (x : El) (v : PV) : Elapsed s (pushEl s x v).1 := by
  have hfresh := elapsed_freshen s x
  unfold pushEl
  generalize freshen s x = u at hfresh
  dsimp only
  have hrest : ∀ r : State × Nat, Elapsed s r.1 → ∀ n m k,
      Elapsed s (setTile (setCell r.1 x.key n) k m) := fun r hr _ _ _ => hr.trans ((elapsed_setCell ..).trans (elapsed_setTile ..))
  refine hrest _ ?_ _ _ _
  split
  · split
    · exact hfresh.trans (elapsed_setLevel ..)
    · exact hfresh.trans (elapsed_setTop ..)
  · exact hfresh.trans ((elapsed_setTop ..).trans (elapsed_setTile ..))

theorem elapsed_pushInt (s : State) (x : El) (v : Int) (p : Bool) : Elapsed s (pushInt s x v p) := by
  have hfresh := elapsed_freshen s x
  unfold pushInt
  generalize freshen s x = u at hfresh
  extract_lets f c t ts w y pz a b ts'
  have hw : Elapsed s w := hfresh.trans ((elapsed_setCell ..).trans (elapsed_setTile ..))
  refine elapsed_ite _ (elapsed_ite _ (hw.trans (elapsed_markWord ..)) hw) (elapsed_ite _ ?_ (hw.trans (elapsed_putWord ..)))
  exact hw.trans ((elapsed_putWord ..).trans ((elapsed_setCell ..).trans (elapsed_setTile ..)))

theorem elapsed_openEl (s : State) (x : El) (cont fromV isInt : Bool) : Elapsed s (openEl s x cont fromV isInt) := by
  unfold openEl
  dsimp only
  exact elapsed_ite _ (.refl s) (elapsed_ite _ (elapsed_of_kept rfl) (elapsed_ite _ (elapsed_of_kept rfl) (elapsed_of_kept rfl)))

theorem elapsed_closeEl (s : State) (x : El) (isInt : Bool) (d unit : Nat) : Elapsed s (closeEl s x isInt d unit) := by
  have hfresh := elapsed_freshen s x
  unfold closeEl
  generalize freshen s x = u at hfresh
  extract_lets c t v
  refine Elapsed.trans ?_ (elapsed_setCell ..)
  unfold v
  split
  · exact elapsed_ite _ hfresh (hfresh.trans (elapsed_putWord ..))
  · dsimp only
    refine Elapsed.trans ?_ (elapsed_countNan ..)
    refine Elapsed.trans ?_ (elapsed_countNan ..)
    exact elapsed_ite _ hfresh (hfresh.trans (elapsed_putWord ..))

theorem elapsed_closeFlags (s : State) (k : Nat) : Elapsed s (closeFlags s k) := by
  unfold closeFlags
  extract_lets ts t u
  have ht : Elapsed s t := elapsed_ite _ (elapsed_incP 1 (by decide)) (.refl s)
  have hu : Elapsed s u := elapsed_ite _ (ht.trans (elapsed_incP _ (by decide))) ht
  exact hu.trans (elapsed_setTile ..)

theorem elapsed_openTile (s : State) (k : Nat) (op : Mma) : Elapsed s (openTile s k op) :=
  elapsed_ite _ (elapsed_ite _ (.refl s) (elapsed_setTile ..)) (elapsed_setTile ..)

theorem elapsed_pushChunk (s : State) (op : Mma) (u : Nat) (x : El) (ps : List (PV × PV)) : Elapsed s (pushChunk s op u x ps) :=
  elapsed_ite _ (elapsed_pushInt ..) ((elapsed_pushEl s x _).trans (elapsed_countNan ..))

/-! ### Engine parts -/

theorem elapsed_stagePart (u m : Nat) (split : Bool) (dcc : Nat) (used : List Nat) (p : EngPart) (s : State) :
    Elapsed s (stagePart u m split dcc used p s).1 := by
  refine foldl_keeps (fun a : State × EngPart × List Nat => Elapsed s a.1) (stageLine u m) (fun a x h => ?_) _ (s, p, used) (.refl s)
  obtain ⟨t, q, banks⟩ := a
  unfold stageLine
  dsimp only
  split
  · exact h.trans (elapsed_checkLines ..)
  · exact h

theorem elapsed_checkLatch (u dcc : Nat) (s : State) (o : Mma) : Elapsed s (checkLatch u dcc s o) :=
  elapsed_ite _ (elapsed_foldl _ (fun t _ => elapsed_checkLines t u _ 1 o.dom) _ s) (.refl s)

theorem elapsed_enterRow (s : State) (u : Nat) (stage : List Span) (w : Wave) : Elapsed s (enterRow s u stage w).1 := by
  unfold enterRow
  extract_lets op i t rd pz row v x
  have ht : Elapsed s t := elapsed_ite _ (.refl s) (elapsed_checkLines ..)
  have hv : Elapsed s v := elapsed_ite _ (ht.trans (elapsed_countNan ..)) ht
  exact elapsed_ite _ (hv.trans ((elapsed_incP _ (by decide)).trans (elapsed_incP _ (by decide)))) hv

theorem elapsed_enterRows (u dcc : Nat) (stage : List Span) (ws : List Wave) (s : State) :
    Elapsed s (enterRows u dcc stage ws s).1 := by
  induction ws generalizing s with
  | nil => exact .refl s
  | cons w ws ih =>
    rw [enterRows]
    have h : Elapsed s (if rowDue w dcc then enterRow s u stage w else (s, w)).1 := by
      split
      · exact elapsed_enterRow ..
      · exact .refl s
    exact h.trans (ih _)

theorem elapsed_waveCell (u : Nat) (w : Wave) (s : State) (x : El) : Elapsed s (waveCell u w s x) := by
  unfold waveCell
  extract_lets ts t
  split
  · exact elapsed_openEl ..
  · have ht : Elapsed s t := elapsed_ite _ (elapsed_openEl ..) (.refl s)
    split
    · exact ht
    · exact ht.trans (elapsed_pushChunk ..)
  · exact elapsed_ite _ (elapsed_closeEl ..) (.refl s)

theorem elapsed_waveDiag (u e h c0 : Nat) (w : Wave) (s : State) : Elapsed s (waveDiag u e h c0 w s) := by
  unfold waveDiag
  extract_lets k t v
  have ht : Elapsed s t := elapsed_ite _ (elapsed_openTile ..) (.refl s)
  have hv : Elapsed s v := ht.trans (elapsed_foldl _ (fun t x => elapsed_waveCell u w t x) _ t)
  exact elapsed_ite _ (hv.trans (elapsed_closeFlags ..)) hv

theorem elapsed_stepWave (u e h c0 dcc : Nat) (reads : List AccRead) (before : List Wave) (n : Nat) (w : Wave) (s : State) :
    Elapsed s (stepWave u e h c0 dcc reads before n w s).1 := by
  induction n generalizing w s with
  | zero => exact .refl s
  | succ n ih =>
    rw [stepWave]
    split
    · exact .refl s
    · exact (elapsed_waveDiag u e h c0 w s).trans (ih _ _)

theorem elapsed_stepWaves (u e h c0 dcc : Nat) (reads : List AccRead) (before ws : List Wave) (s : State) :
    Elapsed s (stepWaves u e h c0 dcc reads before ws s).1 := by
  induction ws generalizing before s with
  | nil => exact .refl s
  | cons w ws ih => exact (elapsed_stepWave u e h c0 dcc reads before 128 w s).trans (ih _ _)

theorem elapsed_setEng (s : State) (e : Nat) (x : Engine) : Elapsed s (setEng s e x) := elapsed_of_kept rfl

theorem elapsed_cyclePart (u m h dcc : Nat) (used : List Nat) (s : State) : Elapsed s (cyclePart u m h dcc used s).1 := by
  unfold cyclePart
  extract_lets e x split p
  have hstage := elapsed_stagePart u m split dcc used p s
  generalize stagePart u m split dcc used p s = a at hstage
  obtain ⟨t, q, banks⟩ := a
  dsimp only at hstage ⊢
  refine Elapsed.trans ?_ (elapsed_setEng ..)
  refine Elapsed.trans ?_ (elapsed_stepWaves ..)
  refine Elapsed.trans ?_ (elapsed_enterRows ..)
  exact hstage.trans (elapsed_foldl _ (elapsed_checkLatch u dcc) _ t)

/-! ### Accumulator reads -/

theorem elapsed_checkAux (s : State) (u : Nat) (r : AccRead) : Elapsed s (checkAux s u r) := by
  unfold checkAux
  extract_lets f
  have hf : ∀ on k t, Elapsed t (f on k t) := fun on k t => elapsed_ite _ (elapsed_checkLines ..) (.refl t)
  exact ((hf _ _ s).trans (hf _ _ _)).trans (hf _ _ _)

theorem elapsed_takeRow (s : State) (u e dcc : Nat) (r : AccRead) : Elapsed s (takeRow s u e dcc r).1 := by
  unfold takeRow
  extract_lets h k i r' t v els w x st y z
  have hv : Elapsed s v := (elapsed_checkAux s u r').trans (elapsed_checkRange ..)
  have hw : Elapsed s w := elapsed_ite _ (hv.trans (elapsed_foldl _ (fun t x => elapsed_ite _ (elapsed_closeEl ..) (.refl t)) _ v)) hv
  have hx : Elapsed s x := elapsed_ite _ (hw.trans (elapsed_closeFlags ..)) hw
  exact hx.trans ((elapsed_countNan ..).trans (elapsed_countNan ..))

theorem elapsed_failRead (s : State) (u m : Nat) (r : AccRead) (code d0 d1 : Nat) : Elapsed s (failRead s u m r code d0 d1).1 := by
  unfold failRead
  extract_lets t
  have ht : Elapsed s t := elapsed_ite _ (elapsed_of_kept rfl) (.refl s)
  dsimp only
  exact ht.trans (elapsed_raise ..)

theorem elapsed_writeRows (s : State) (u m : Nat) (r : AccRead) (rows rest : List UnitRow) :
    Elapsed s (writeRows s u m r rows rest).1 := by
  unfold writeRows
  extract_lets w c0 i ys pushed draw o
  generalize (if accPush w then pushRows r rows else (r, [])) = q
  obtain ⟨r', ps⟩ := q
  dsimp only
  split
  · exact elapsed_failRead ..
  · split
    · exact elapsed_failRead ..
    · split
      · exact elapsed_failRead ..
      · have hrows : Elapsed s (countConv (foldAmax (countConv (writeRuns s u r.dst o.runs) (accTensor w) [o]) (accTensor w)
            (some (accStrand w)) ys) (accTensor w) ps) :=
          (((elapsed_writeRuns s ..).trans (elapsed_countConv ..)).trans (elapsed_foldAmax ..)).trans (elapsed_countConv ..)
        generalize countConv (foldAmax (countConv (writeRuns s u r.dst o.runs) (accTensor w) [o]) (accTensor w)
            (some (accStrand w)) ys) (accTensor w) ps = t at hrows
        split
        · dsimp only
          exact elapsed_ite _ (hrows.trans (elapsed_of_kept rfl)) hrows
        · exact hrows

theorem elapsed_cycleRead (u m dcc : Nat) (r : AccRead) (s : State) : Elapsed s (cycleRead u m dcc r s).1 := by
  unfold cycleRead
  extract_lets e
  have h : Elapsed s (if takesRow (getPart (getEng s e) (halfIdx r.half)) dcc r then takeRow s u e dcc r else (s, r)).1 := by
    split
    · exact elapsed_takeRow ..
    · exact .refl s
  generalize (if takesRow (getPart (getEng s e) (halfIdx r.half)) dcc r then takeRow s u e dcc r else (s, r)) = a at h
  obtain ⟨t, q⟩ := a
  dsimp only at h ⊢
  split
  · exact h.trans (elapsed_writeRows ..)
  · exact h

theorem elapsed_cycleReads (u m d dcc : Nat) (done rs : List AccRead) (s : State) : Elapsed s (cycleReads u m d dcc done rs s).1 := by
  induction rs generalizing done s with
  | nil => exact .refl s
  | cons r rs ih =>
    rw [cycleReads]
    split
    · exact ih _ _
    · split
      · exact ih _ _
      · exact (elapsed_cycleRead u m dcc r s).trans (ih _ _)

theorem elapsed_readsCycle (u m d dcc : Nat) (s : State) : Elapsed s (readsCycle u m d dcc s) :=
  (elapsed_cycleReads u m d dcc [] _ s).trans (elapsed_setEng ..)

/-! ### The element unit -/

theorem elapsed_decodeRow (s : State) (u d line f i : Nat) : Elapsed s (decodeRow s u d line f i).1 := by
  have hrow : Elapsed s (checkRow s u d line f i) :=
    elapsed_ite _ (.refl s) (elapsed_foldl _ (fun t k => elapsed_checkLines t u k 1 d) _ s)
  unfold decodeRow
  generalize checkRow s u d line f i = t at hrow
  exact ((hrow.trans (elapsed_incP _ (by decide))).trans (elapsed_incP _ (by decide))).trans (elapsed_countNan ..)

theorem elapsed_readElem (s : State) (u dcc : Nat) (j : ElemJob) : Elapsed s (readElem s u dcc j).1 := by
  unfold readElem
  extract_lets w n i next
  split
  · exact elapsed_decodeRow ..
  · have hg := elapsed_decodeRow s u j.dom (j.src + n * imageLines (daFmtG w)) (daFmtG w) i
    generalize decodeRow s u j.dom (j.src + n * imageLines (daFmtG w)) (daFmtG w) i = a at hg
    obtain ⟨t, gs⟩ := a
    dsimp only at hg ⊢
    refine Elapsed.trans ?_ (elapsed_countNan ..)
    split
    · exact hg
    · exact hg.trans (elapsed_decodeRow ..)
  · exact elapsed_decodeRow ..

theorem elapsed_writeElem (s : State) (u : Nat) (j : ElemJob) (rows rest : List UnitRow) : Elapsed s (writeElem s u j rows rest).1 := by
  unfold writeElem
  extract_lets w at_ n i ys pos draw line o
  split
  · dsimp only
    exact elapsed_raise ..
  · exact ((elapsed_writeRuns s ..).trans (elapsed_countConv ..)).trans (elapsed_foldAmax ..)

theorem elapsed_writeAmax (s : State) (u : Nat) (j : ElemJob) : Elapsed s (writeAmax s u j) := by
  unfold writeAmax
  extract_lets t
  have ht : Elapsed s t := elapsed_writeP ..
  exact elapsed_ite _ (ht.trans (elapsed_foldAmax ..)) ht

theorem elapsed_cycleElem (u dcc : Nat) (j : ElemJob) (s : State) : Elapsed s (cycleElem u dcc j s).1 := by
  unfold cycleElem
  split
  · exact .refl s
  next at_ _ =>
    have h : Elapsed s (if decide (j.next < elemRows j) && decide (at_ + 2 + j.next ≤ dcc) then readElem s u dcc j else (s, j)).1 := by
      split
      · exact elapsed_readElem ..
      · exact .refl s
    generalize (if decide (j.next < elemRows j) && decide (at_ + 2 + j.next ≤ dcc) then readElem s u dcc j else (s, j)) = a at h
    obtain ⟨t, q⟩ := a
    dsimp only at h ⊢
    split
    · split
      · exact h.trans (elapsed_writeAmax ..)
      · exact h
    · split
      · exact h.trans (elapsed_writeElem ..)
      · exact h

theorem elapsed_cycleElems (u d dcc : Nat) (done js : List ElemJob) (s : State) : Elapsed s (cycleElems u d dcc done js s).1 := by
  induction js generalizing done s with
  | nil => exact .refl s
  | cons j js ih =>
    rw [cycleElems]
    split
    · exact ih _ _
    · split
      · exact ih _ _
      · exact (elapsed_cycleElem u dcc j s).trans (ih _ _)

theorem elapsed_elemsCycle (u d dcc : Nat) (s : State) : Elapsed s (elemsCycle u d dcc s) :=
  (elapsed_cycleElems u d dcc [] _ s).trans (elapsed_of_kept rfl)

/-! ### Time -/

theorem elapsed_addTime (m : Nat) (s : State) : Elapsed s (addTime m s) := by
  obtain ⟨n, f, p, k, h⟩ := addTime_eq m s
  rw [h]
  exact elapsed_of_kept rfl

theorem elapsed_count (k : Nat) (s : State) : Elapsed s (count k s) := by
  unfold count
  extract_lets f
  refine Elapsed.trans ?_ (elapsed_addTime ..)
  exact elapsed_of_kept rfl

theorem elapsed_engineCycle (moved : List Nat) (s : State) (e : Nat) : Elapsed s (engineCycle moved s e) := by
  unfold engineCycle
  extract_lets go
  have hgo : ∀ h a, Elapsed a.1 (go h a).1 := fun h a => by
    show Elapsed a.1 (go h a).1
    unfold go
    split
    · split
      · exact elapsed_cyclePart ..
      · exact .refl a.1
    · exact .refl a.1
  exact (hgo 0 (s, [])).trans (hgo 1 _)

theorem elapsed_engineReads (moved : List Nat) (s : State) (e : Nat) : Elapsed s (engineReads moved s e) :=
  elapsed_foldl _ (fun t _ => elapsed_ite _ (elapsed_readsCycle ..) (.refl t)) _ s

theorem elapsed_elementCycle (moved : List Nat) (s : State) (c : Nat) : Elapsed s (elementCycle moved s c) :=
  elapsed_foldl _ (fun t _ => elapsed_ite _ (elapsed_elemsCycle ..) (.refl t)) _ s

theorem elapsed_setC (s : State) (c : Nat) (x : Cham) : Elapsed s (setC s c x) := elapsed_of_kept rfl

theorem elapsed_chamCycle (moved : List Nat) (s : State) (c : Nat) : Elapsed s (chamCycle moved s c) := by
  unfold chamCycle
  split
  · exact elapsed_ite _ ((elapsed_setC ..).trans (elapsed_jobsCycle ..)) (.refl s)
  · exact .refl s

theorem elapsed_tick (s : State) : Elapsed s (tick s) := by
  unfold tick
  extract_lets t moved t1 t2 t3
  have ht : Elapsed s t := elapsed_count 1 s
  have h1 : Elapsed t t1 := elapsed_foldl _ (fun v e => elapsed_engineCycle moved v e) _ t
  have h2 : Elapsed t1 t2 := elapsed_foldl _ (fun v e => elapsed_engineReads moved v e) _ t1
  have h3 : Elapsed t2 t3 := elapsed_foldl _ (fun v c => elapsed_elementCycle moved v c) _ t2
  exact elapsed_ite _ ht ((((ht.trans h1).trans h2).trans h3).trans (elapsed_foldl _ (fun v c => elapsed_chamCycle moved v c) _ t3))

theorem elapsed_advanceTicks (k : Nat) (s : State) : Elapsed s (advanceTicks k s) := by
  induction k generalizing s with
  | zero => exact .refl s
  | succ k ih =>
    rw [advanceTicks]
    exact elapsed_ite _ ((elapsed_count (k + 1) s).trans (elapsed_of_kept rfl)) ((elapsed_tick s).trans (ih _))

/-- Time that passes leaves sessions, ports and what else `Elapsed` names alone. -/
theorem elapsed_advance (k : Nat) (s : State) : Elapsed s (advance k s) := elapsed_ite _ (elapsed_advanceTicks k s) (elapsed_addTime ..)

theorem elapsed_toNs (t : Nat) (s : State) : Elapsed s (toNs t s) := elapsed_advance ..

theorem elapsed_toDcc {d t : Nat} {s u : State} (h : toDcc d t s = some u) : Elapsed s u := by
  unfold toDcc at h
  dsimp only at h
  split at h
  · cases h
    exact elapsed_advance ..
  · exact nomatch h

end Sys2Proof.Machine
end

