-- ==== Sys2Proof/Proofs/Sessions.lean ====
section
/-!
SUPPORT. The dictionary server: its sessions open and close (R405, R419, R420).
-/
namespace Sys2Proof.Machine

/-! ### What is sent leaves the server as it is -/

theorem spp_emit (s : State) (port : Nat) (o : Out) : (emit s port o).spp = s.spp := by rw [onlyColl_emit]

theorem sameMemory_emit (s : State) (port : Nat) (o : Out) : SameMemory s (emit s port o) := by
  rw [onlyColl_emit]
  exact sameMemory_of_eq rfl

theorem portKey_ne_low (port sub : Nat) {key : Nat} (h : key < pk 0x0530 0) : portKey port sub ≠ key := by
  unfold portKey
  unfold pk at h ⊢
  split <;> omega

theorem getP_takePn_other {s t : State} (h : takePn s = some t) {key : Nat} (hnumber : pk 0x0530 8 ≠ key)
    (halarm : pk 0x0530 0x0A ≠ key) : getP t key = getP s key := by
  unfold takePn at h
  split at h
  · rw [Option.some.inj h]
  · dsimp only at h
    split at h
    · exact absurd h nofun
    · obtain rfl := Option.some.inj h
      split
      · rw [getP_setP_other _ _ halarm, getP_setP_other _ _ hnumber]
      · exact getP_setP_other _ _ hnumber

/-- A frame sent counts at its port and under MACsec alone. -/
theorem getP_emit_other (s : State) {port : Nat} (o : Out) {key : Nat} (hsent : portKey port 0x0E ≠ key) (hdropped : portKey port 0x0F ≠ key)
    (hnumber : pk 0x0530 8 ≠ key) (halarm : pk 0x0530 0x0A ≠ key) : getP (emit s port o) key = getP s key := by
  unfold emit
  extract_lets go
  have hgo : ∀ t, getP (go t) key = getP t key := fun t => getP_incP_other _ 1 hsent
  have hdrop : getP (incP s (portKey port 0x0F) 1) key = getP s key := getP_incP_other _ 1 hdropped
  split
  · exact hdrop
  · split
    · split
      next ht => exact (hgo _).trans (getP_takePn_other ht hnumber halarm)
      next => exact hdrop
    · exact hgo s

theorem getP_emit_low (s : State) (port : Nat) (o : Out) {key : Nat} (hkey : key < pk 0x0530 0) : getP (emit s port o) key = getP s key :=
  getP_emit_other s o (portKey_ne_low port 0x0E hkey) (portKey_ne_low port 0x0F hkey) (by unfold pk at hkey ⊢; omega)
    (by unfold pk at hkey ⊢; omega)

theorem getSession_of_spp {s t : State} (h : t.spp = s.spp) (j : Nat) : getSession t j = getSession s j := by
  rw [getSession, getSession, h]

theorem freshSn_of_spp {s t : State} (h : t.spp = s.spp) : freshSn t = freshSn s := by
  unfold freshSn slotsWhere getSession
  rw [h]

theorem slotsWhere_of_spp {s t : State} (h : t.spp = s.spp) (p : Session → Bool) : slotsWhere t p = slotsWhere s p := by
  unfold slotsWhere getSession
  rw [h]

theorem getSub_of_spp {s t : State} (h : t.spp = s.spp) (n : Nat) : getSub t n = getSub s n := by rw [getSub, getSub, h]

/-! ### OPEN1 (R405, R419) -/

theorem open1_opens {src : SppSrc} {m : SppMsg} {s : State} (htype : m.type = 1) (hserving : serving s = true) (hudp : src.udpOk = true) :
    exec (.open1 src m) s = .next (openSession (rxOk s hostPort) src m) := by
  have harm : exec (.open1 src m) s = execOpen1 src m s := rfl
  rw [harm, execOpen1, if_neg (not_not_intro htype), if_neg (by rw [hserving]; exact Bool.false_ne_true),
    if_neg (by rw [hudp]; exact Bool.false_ne_true)]

/-- The form of an OPEN1 (R419). -/
def OpenForm (s : State) (m : SppMsg) : Prop :=
  m.version = 1 ∧ malformed s m = false ∧ m.body.length = 168 ∧ m.count = 0 ∧ m.session = 0 ∧ m.seq = 0 ∧
    (m.body.drop 165).any (· ≠ 0#8) = false

/-- An OPEN1 in its form, counted: what happens by the free slots and the host's point. -/
theorem openSession_of_form {s : State} {src : SppSrc} {m : SppMsg} (h : OpenForm s m) :
    ((slotsWhere s fun x => x.st == 0).head? = none → ∃ o, openSession s src m =
      emit (incP (incP s (pk 0x0100 6) 1) (pk 0x0100 7) 1) hostPort o) ∧
    ∀ k, (slotsWhere s fun x => x.st == 0).head? = some k →
      (Config.ecPoint (m.body.take 133) = false → ∃ o, openSession s src m = emit (incP s (pk 0x0100 6) 1) hostPort o) ∧
      (Config.ecPoint (m.body.take 133) = true → ∃ x n o, x.st = 1 ∧ x.sn = freshSn s ∧ x.ip = src.ip ∧ x.port = src.port ∧
        x.lastNs = s.ns ∧ openSession s src m = emit (setSession { incP s (pk 0x0100 6) 1 with draws := n } k x) hostPort o) := by
  obtain ⟨hversion, hform, hlen, hcount, hsession, hseq, hpad⟩ := h
  have hguard : (malformed (incP s (pk 0x0100 6) 1) m || decide (m.body.length ≠ 168) || decide (m.count ≠ 0) ||
      decide (m.session ≠ 0) || decide (m.seq ≠ 0) || (m.body.drop 165).any (· ≠ 0#8)) = false := by
    have hkept : malformed (incP s (pk 0x0100 6) 1) m = malformed s m := rfl
    rw [hkept, hform, hpad, hlen, hcount, hsession, hseq]
    rfl
  have hslots : slotsWhere (incP s (pk 0x0100 6) 1) (fun x => x.st == 0) = slotsWhere s fun x => x.st == 0 := slotsWhere_of_spp rfl _
  unfold openSession
  dsimp only
  rw [if_neg (not_not_intro hversion), hguard, if_neg Bool.false_ne_true, hslots]
  refine ⟨fun hnone => ?_, fun k hk => ⟨fun hpoint => ?_, fun hpoint => ?_⟩⟩
  · rw [hnone]
    exact ⟨_, rfl⟩
  · rw [hk]
    dsimp only
    rw [hpoint]
    exact ⟨_, rfl⟩
  · rw [hk]
    dsimp only
    rw [hpoint]
    exact ⟨_, _, _, rfl, rfl, rfl, rfl, rfl, rfl⟩

theorem openSession_effect {u : State} {src : SppSrc} {m : SppMsg} (h : OpenForm u m) :
    (∀ k, (slotsWhere u fun x => x.st == 0).head? = some k → SameMemory u (openSession u src m) ∧
      (∀ j, j ≠ k → getSession (openSession u src m) j = getSession u j) ∧
      (Config.ecPoint (m.body.take 133) = true → (getSession (openSession u src m) k).st = 1 ∧
        (getSession (openSession u src m) k).sn = freshSn u ∧ (getSession (openSession u src m) k).ip = src.ip ∧
        (getSession (openSession u src m) k).port = src.port ∧ (getSession (openSession u src m) k).lastNs = u.ns) ∧
      (Config.ecPoint (m.body.take 133) = false → getSession (openSession u src m) k = getSession u k)) ∧
    ((∀ k, k < 8 → (getSession u k).st ≠ 0) → SameMemory u (openSession u src m) ∧ (openSession u src m).spp.slots = u.spp.slots ∧
      getP (openSession u src m) (pk 0x0100 7) = min (getP u (pk 0x0100 7) + 1) (counterMax (pk 0x0100 7))) := by
  obtain ⟨hfull, htakes⟩ := openSession_of_form (src := src) h
  refine ⟨fun k hk => ?_, fun hall => ?_⟩
  · obtain ⟨hbad, hgood⟩ := htakes k hk
    cases hpoint : Config.ecPoint (m.body.take 133) with
    | false =>
      obtain ⟨o, ho⟩ := hbad hpoint
      have hsame : (openSession u src m).spp = u.spp := by rw [ho, spp_emit, incP_spp]
      refine ⟨?_, fun j _ => getSession_of_spp hsame j, nofun, fun _ => getSession_of_spp hsame k⟩
      rw [ho]
      exact fun a => sameMemory_emit (incP u (pk 0x0100 6) 1) hostPort o a
    | true =>
      obtain ⟨x, n, o, hst, hsn, hip, hport, hlast, ho⟩ := hgood hpoint
      have hget : ∀ j, getSession (openSession u src m) j = getSession (setSession { incP u (pk 0x0100 6) 1 with draws := n } k x) j :=
        getSession_of_spp (by rw [ho, spp_emit])
      refine ⟨?_, fun j hj => ?_, fun _ => ?_, nofun⟩
      · rw [ho]
        exact fun a => sameMemory_emit (setSession { incP u (pk 0x0100 6) 1 with draws := n } k x) hostPort o a
      · rw [hget, getSession_setSession_other _ _ (Ne.symm hj)]
        exact getSession_of_spp rfl j
      · rw [hget, getSession_setSession_same]
        exact ⟨hst, hsn, hip, hport, hlast⟩
  · have hnone : (slotsWhere u fun x => x.st == 0).head? = none := by
      rw [List.head?_eq_none_iff, slotsWhere, List.filter_eq_nil_iff]
      intro k hk
      simpa using hall k (List.mem_range.mp hk)
    obtain ⟨o, ho⟩ := hfull hnone
    rw [ho]
    refine ⟨fun a => sameMemory_emit (incP (incP u (pk 0x0100 6) 1) (pk 0x0100 7) 1) hostPort o a, ?_, ?_⟩
    · rw [spp_emit, incP_spp, incP_spp]
    · rw [getP_emit_low _ _ _ (by decide), getP_incP_same, getP_incP_other _ _ (by decide)]

theorem open1_completes (src : SppSrc) (m : SppMsg) (s : State) (htype : m.type = 1) (hserving : serving s = true)
    (hudp : src.udpOk = true) (hversion : m.version = 1) (hform : malformed s m = false) (hlen : m.body.length = 168)
    (hcount : m.count = 0) (hsession : m.session = 0) (hseq : m.seq = 0) (hpad : (m.body.drop 165).any (· ≠ 0#8) = false) :
    (∀ k, (slotsWhere s fun x => x.st == 0).head? = some k → ∃ t, exec (.open1 src m) s = .next t ∧ SameMemory s t ∧
      (∀ j, j ≠ k → getSession t j = getSession s j) ∧
      (Config.ecPoint (m.body.take 133) = true → (getSession t k).st = 1 ∧ (getSession t k).sn = freshSn s ∧
        (getSession t k).ip = src.ip ∧ (getSession t k).port = src.port ∧ (getSession t k).lastNs = s.ns) ∧
      (Config.ecPoint (m.body.take 133) = false → getSession t k = getSession s k)) ∧
    ((∀ k, k < 8 → (getSession s k).st ≠ 0) → ∃ t, exec (.open1 src m) s = .next t ∧ SameMemory s t ∧
      t.spp.slots = s.spp.slots ∧ getP t (pk 0x0100 7) = min (getP s (pk 0x0100 7) + 1) (counterMax (pk 0x0100 7))) := by
  have hexec := open1_opens htype hserving hudp
  obtain ⟨htakes, hfull⟩ := openSession_effect (u := rxOk s hostPort) (src := src) (m := m)
    ⟨hversion, hform, hlen, hcount, hsession, hseq, hpad⟩
  have hspp : (rxOk s hostPort).spp = s.spp := incP_spp ..
  have hns : (rxOk s hostPort).ns = s.ns := incP_ns ..
  have hmem : SameMemory s (rxOk s hostPort) := sameMemory_of_eq (incP_mem ..)
  have hrx : getP (rxOk s hostPort) (pk 0x0100 7) = getP s (pk 0x0100 7) :=
    getP_incP_other s 1 (portKey_ne_low hostPort 0x0D (by decide))
  generalize rxOk s hostPort = u at hexec htakes hfull hspp hns hmem hrx
  have hget := getSession_of_spp hspp
  refine ⟨fun k hk => ?_, fun hall => ?_⟩
  · obtain ⟨humem, hothers, hgood, hbad⟩ := htakes k (by rw [slotsWhere_of_spp hspp]; exact hk)
    rw [freshSn_of_spp hspp, hns] at hgood
    exact ⟨_, hexec, fun a => (humem a).trans (hmem a), fun j hj => (hothers j hj).trans (hget j), hgood,
      fun hpoint => (hbad hpoint).trans (hget k)⟩
  · obtain ⟨humem, hslots, hcounted⟩ := hfull fun k hk => by rw [hget]; exact hall k hk
    rw [hrx] at hcounted
    exact ⟨_, hexec, fun a => (humem a).trans (hmem a), hslots.trans (congrArg Spp.slots hspp), hcounted⟩

/-! ### Slots are freed (R419, R420) -/

theorem getSub_closeSlot {s : State} {k n : Nat} {u : Subscr} (hopen : (getSession s k).st ≠ 0)
    (h : getSub (closeSlot s k) n = some u) : u.slot ≠ k := by
  unfold closeSlot at h
  dsimp only at h
  rw [if_neg (by simpa using hopen)] at h
  have hmem := SMap.mem_of_get h nofun
  simpa using (List.mem_filter.mp hmem).2

/-- A slot freed once time has passed. -/
theorem closeSlot_later {s u : State} (helapsed : Elapsed s u) {k : Nat} (hopen : (getSession s k).st ≠ 0) :
    getSession (closeSlot u k) k = {} ∧ (∀ j, j ≠ k → getSession (closeSlot u k) j = getSession s j) ∧
      ∀ n v, getSub (closeSlot u k) n = some v → v.slot ≠ k := by
  have hsame := getSession_of_spp helapsed.spp
  have hstill : (getSession u k).st ≠ 0 := by rwa [hsame]
  exact ⟨getSession_closeSlot_same hstill, fun j hj => (getSession_closeSlot_other u (Ne.symm hj)).trans (hsame j),
    fun n v hv => getSub_closeSlot hstill hv⟩

theorem open3Timeout_completes (k : Nat) (s : State) (hk : k < 8) (hst : (getSession s k).st = 1) :
    ∃ t, exec (.open3Timeout k) s = .next t ∧ getSession t k = {} ∧ (∀ j, j ≠ k → getSession t j = getSession s j) := by
  have hexec : exec (.open3Timeout k) s = .next (closeSlot (toNs ((getSession s k).lastNs + 5000000000) s) k) := by
    have harm : exec (.open3Timeout k) s = execOpen3Timeout k s := rfl
    rw [harm, execOpen3Timeout, if_neg (Nat.not_le.mpr hk), if_neg (not_not_intro hst)]
  obtain ⟨hfree, hothers, -⟩ := closeSlot_later (elapsed_toNs ((getSession s k).lastNs + 5000000000) s) (k := k) (by omega)
  exact ⟨_, hexec, hfree, hothers⟩

theorem sessionIdleTimeout_completes (k : Nat) (s : State) (hk : k < 8) (hst : 2 ≤ (getSession s k).st) :
    ∃ t, exec (.sessionIdleTimeout k) s = .next t ∧ getSession t k = {} ∧ (∀ j, j ≠ k → getSession t j = getSession s j) ∧
      ∀ n u, getSub t n = some u → u.slot ≠ k := by
  have hexec : exec (.sessionIdleTimeout k) s =
      .next (closeSlot (toNs ((getSession s k).lastNs + getP s (pk 0x0100 4) * 1000000000) s) k) := by
    have harm : exec (.sessionIdleTimeout k) s = execSessionIdleTimeout k s := rfl
    rw [harm, execSessionIdleTimeout, if_neg (Nat.not_le.mpr hk), if_neg (Nat.not_lt.mpr hst)]
  obtain ⟨hfree, hothers, hsubs⟩ :=
    closeSlot_later (elapsed_toNs ((getSession s k).lastNs + getP s (pk 0x0100 4) * 1000000000) s) (k := k) (by omega)
  exact ⟨_, hexec, hfree, hothers, hsubs⟩

theorem after_closeSlot (s : State) (k : Nat) : (closeSlot s k).spp.after = s.spp.after := by
  unfold closeSlot
  dsimp only
  split <;> rfl

theorem openSlot_open {s : State} {sn k : Nat} (h : openSlot s sn = some k) : (getSession s k).st ≠ 0 := by
  have hmem := List.mem_of_head? h
  have hopen := (List.mem_filter.mp hmem).2
  simp only [Bool.and_eq_true, decide_eq_true_eq] at hopen
  omega

theorem sameMemory_closeSlot (s : State) (k : Nat) : SameMemory s (closeSlot s k) := by
  rw [onlySpp_closeSlot s k]
  exact fun _ => rfl

theorem sessionClose_completes (sn k : Nat) (s : State) (hgate : gateOk s (pk 0x0102 1) = true) (hslot : openSlot s sn = some k) :
    ∃ t, exec (.sessionClose sn) s = .next t ∧ SameMemory s t ∧ t.wstatus = 0 ∧ getSession t k = {} ∧
      (∀ j, j ≠ k → getSession t j = getSession s j) ∧ ∀ n u, getSub t n = some u → u.slot ≠ k := by
  have hexec : exec (.sessionClose sn) s = .next (gated s (pk 0x0102 1) fun s => sessionClose s sn) := rfl
  have hwrite : sessionClose s sn = (0, closeSlot s k) := by rw [sessionClose, hslot]
  rw [gated_ok hgate hwrite] at hexec
  obtain ⟨hfree, hothers, hsubs⟩ := closeSlot_later (.refl s) (openSlot_open hslot)
  have hmem := sameMemory_closeSlot s k
  generalize closeSlot s k = u at hexec hfree hothers hsubs hmem
  exact ⟨_, hexec, hmem, rfl, hfree, hothers, hsubs⟩

/-! ### Messages of sessions (R405, R413, R420) -/

/-- The state in which a message of a session is handled: its number, source and time noted. -/
def handling (s : State) (src : SppSrc) (m : SppMsg) (k : Nat) : State :=
  let u := setSession (rxOk s hostPort) k { getSession s k with rx := m.seq, lastNs := s.ns, eth := src.eth }
  { u with spp := { u.spp with own := (getSession s k).sn, unauth := (getSession s k).st == 2 } }

/-- What follows the handling of a message after which nothing waits. -/
def handled (v : State) : State := { v with spp := { v.spp with own := 0, unauth := false, after := [], maxBody := getP v (pk 0x0100 5) } }

theorem sessionMsg_handled {s : State} {src : SppSrc} {m : SppMsg} {k : Nat} {f : State → Nat → State} {v : State}
    (hserving : serving s = true) (hudp : src.udpOk = true) (hslot : acceptedSlot s src m = some k)
    (hv : f (handling s src m k) k = v) (hafter : v.spp.after = [])
    (hworn : (getSession v k).rx < 2 ^ 64 - 1 ∧ (getSession v k).tx < 2 ^ 64 - 1) : sessionMsg s src m f = handled v := by
  have hmsg : sessionMsg s src m f =
      closeWorn (afterResponse { f (handling s src m k) k with spp := { (f (handling s src m k) k).spp with own := 0, unauth := false } }) k := by
    have hslot' : acceptedSlot (rxOk s hostPort) src m = some k := hslot
    unfold sessionMsg
    rw [if_neg (by rw [hserving]; exact Bool.false_ne_true), if_neg (by rw [hudp]; exact Bool.false_ne_true)]
    dsimp only
    rw [hslot']
    rfl
  have hdone : afterResponse { v with spp := { v.spp with own := 0, unauth := false } } = handled v := by
    unfold afterResponse
    dsimp only
    rw [hafter]
    rfl
  rw [hmsg, hv, hdone]
  obtain ⟨hrx, htx⟩ := hworn
  have hsame : getSession (handled v) k = getSession v k := rfl
  unfold closeWorn
  dsimp only
  rw [hsame]
  rw [decide_eq_false (Nat.not_le.mpr hrx), decide_eq_false (Nat.not_le.mpr htx), Bool.or_self, Bool.and_false]
  exact if_neg Bool.false_ne_true

theorem handled_frame (v : State) : SameMemory v (handled v) ∧ (∀ j, getSession (handled v) j = getSession v j) ∧
    (∀ n, getSub (handled v) n = getSub v n) ∧ (handled v).doms = v.doms ∧ (handled v).streams = v.streams :=
  ⟨fun _ => rfl, fun _ => rfl, fun _ => rfl, rfl, rfl⟩

theorem handling_same (s : State) (src : SppSrc) (m : SppMsg) (k : Nat) :
    getSession (handling s src m k) k = { getSession s k with rx := m.seq, lastNs := s.ns, eth := src.eth } :=
  getSession_setSession_same (rxOk s hostPort) k _

theorem handling_other (s : State) (src : SppSrc) (m : SppMsg) {k j : Nat} (h : k ≠ j) :
    getSession (handling s src m k) j = getSession s j :=
  getSession_setSession_other (rxOk s hostPort) _ h

theorem handling_frame (s : State) (src : SppSrc) (m : SppMsg) (k : Nat) :
    SameMemory s (handling s src m k) ∧ (handling s src m k).spp.after = s.spp.after ∧ malformed (handling s src m k) m = malformed s m ∧
      (∀ n, getSub (handling s src m k) n = getSub s n) ∧ (handling s src m k).doms = s.doms ∧
      (handling s src m k).streams = s.streams := ⟨fun _ => rfl, rfl, rfl, fun _ => rfl, rfl, rfl⟩

/-- A message sent under a session's next number. -/
theorem spp_sendSession (s : State) (k : Nat) (m : SppMsg) :
    (sendSession s k m).spp = (setSession s k { getSession s k with tx := (getSession s k).tx + 1 }).spp := spp_emit ..

theorem sameMemory_sendSession (s : State) (k : Nat) (m : SppMsg) : SameMemory s (sendSession s k m) :=
  fun a => sameMemory_emit (setSession s k _) hostPort _ a

theorem getSession_sendSession_same (s : State) (k : Nat) (m : SppMsg) :
    getSession (sendSession s k m) k = { getSession s k with tx := (getSession s k).tx + 1 } := by
  rw [getSession_of_spp (spp_sendSession s k m), getSession_setSession_same]

theorem getSession_sendSession_other (s : State) {k j : Nat} (m : SppMsg) (h : k ≠ j) :
    getSession (sendSession s k m) j = getSession s j := by
  rw [getSession_of_spp (spp_sendSession s k m), getSession_setSession_other _ _ h]

theorem after_sendSession (s : State) (k : Nat) (m : SppMsg) : (sendSession s k m).spp.after = s.spp.after := by
  rw [spp_sendSession]
  rfl

/-! ### OPEN3 (R405, R419) -/

theorem openProof_congr {s t : State} (h : ∀ n, n < 4 → getP t (pk 0x0520 (n + 1)) = getP s (pk 0x0520 (n + 1))) {x y : Session}
    (htrans : x.trans = y.trans) (body : List Byte) : openProof t x body = openProof s y body := by
  have hnone : ((List.range 4).all fun n => getP t (pk 0x0520 (n + 1)) == 0) = (List.range 4).all fun n => getP s (pk 0x0520 (n + 1)) == 0 := by
    rw [Bool.eq_iff_iff, List.all_eq_true, List.all_eq_true]
    exact forall₂_congr fun n hn => by rw [h n (List.mem_range.mp hn)]
  unfold openProof
  dsimp only
  rw [hnone, htrans]
  by_cases hslot : beNat (body.take 1) < 4
  · simp only [h _ hslot]
  · rw [decide_eq_false hslot]
    rfl

theorem openProof_handling (s : State) (src : SppSrc) (m : SppMsg) (k : Nat) :
    openProof (handling s src m k) (getSession (handling s src m k) k) m.body = openProof s (getSession s k) m.body := by
  refine openProof_congr (fun n hn => ?_) ?_ m.body
  · have hpar : (handling s src m k).par = (rxOk s hostPort).par := rfl
    rw [getP, hpar]
    exact getP_incP_other s 1 (portKey_ne_low hostPort 0x0D (by unfold pk; omega))
  · rw [handling_same]

/-- The session that an OPEN3 with a proof opens. -/
def opened (u : State) (k : Nat) (m : SppMsg) : State :=
  setSession u k { getSession u k with
    st := if beNat (m.body.take 1) == 0xFF then 2 else 3, slot := beNat (m.body.take 1) }

/-- An OPEN3 in its form opens its session on a proof, or is refused and frees it. -/
theorem openDone_of_form {u : State} {k : Nat} {m : SppMsg} (hversion : m.version = 1) (hform : malformed u m = false)
    (hcount : m.count = 0) (hlen : m.body.length = 136) (hrsv : beNat ((m.body.drop 1).take 1) = 0)
    (hpad : (m.body.drop 134).any (· ≠ 0#8) = false) :
    (openProof u (getSession u k) m.body = true → openDone u k m = sendSession (opened u k m) k (sppAnswer 4 0 m.reqId 0 0 [])) ∧
    (openProof u (getSession u k) m.body = false → openDone u k m =
      closeSlot (sendSession (incP u (pk 0x0100 7) 1) k (sppAnswer 4 0 m.reqId 0x21 0 [])) k) := by
  have hguard : (malformed u m || decide (m.count ≠ 0) || decide (m.body.length ≠ 136) ||
      decide (beNat ((m.body.drop 1).take 1) ≠ 0) || (m.body.drop 134).any (· ≠ 0#8)) = false := by
    rw [hform, hpad, hcount, hlen, hrsv]
    rfl
  unfold openDone
  dsimp only
  rw [if_neg (not_not_intro hversion), hguard, if_neg Bool.false_ne_true]
  exact ⟨fun hproof => if_pos hproof, fun hproof => if_neg (by rw [hproof]; exact Bool.false_ne_true)⟩

theorem acceptedSlot_open {s : State} {src : SppSrc} {m : SppMsg} {k : Nat} (h : acceptedSlot s src m = some k) :
    (getSession s k).st ≠ 0 := by
  unfold acceptedSlot at h
  split at h
  · exact nomatch h
  next j hj =>
    dsimp only at h
    split at h
    · obtain rfl := Option.some.inj h
      have hst := (List.mem_filter.mp (List.mem_of_head? hj)).2
      simp only [Bool.and_eq_true, decide_eq_true_eq] at hst
      exact hst.1
    · exact nomatch h

/-- What an OPEN3 leaves, by its proof. -/
theorem openDone_effect {u : State} {k : Nat} {m : SppMsg} (hversion : m.version = 1) (hform : malformed u m = false)
    (hcount : m.count = 0) (hlen : m.body.length = 136) (hrsv : beNat ((m.body.drop 1).take 1) = 0)
    (hpad : (m.body.drop 134).any (· ≠ 0#8) = false) (hopen : (getSession u k).st ≠ 0) :
    SameMemory u (openDone u k m) ∧ (openDone u k m).spp.after = u.spp.after ∧
      (∀ j, j ≠ k → getSession (openDone u k m) j = getSession u j) ∧
      (openProof u (getSession u k) m.body = true → (getSession (openDone u k m) k).slot = beNat (m.body.take 1) ∧
        (getSession (openDone u k m) k).rx = (getSession u k).rx ∧ (getSession (openDone u k m) k).tx = (getSession u k).tx + 1 ∧
        (getSession (openDone u k m) k).st = (if beNat (m.body.take 1) = 0xFF then 2 else 3)) ∧
      (openProof u (getSession u k) m.body = false → getSession (openDone u k m) k = {}) := by
  obtain ⟨hproved, hrefused⟩ := openDone_of_form (u := u) (k := k) hversion hform hcount hlen hrsv hpad
  cases hproof : openProof u (getSession u k) m.body with
  | true =>
    rw [hproved hproof]
    have hopened : getSession (opened u k m) k = { getSession u k with
        st := if beNat (m.body.take 1) == 0xFF then 2 else 3, slot := beNat (m.body.take 1) } := getSession_setSession_same ..
    refine ⟨fun a => sameMemory_sendSession (opened u k m) k _ a, after_sendSession .., fun j hj => ?_, fun _ => ?_, nofun⟩
    · rw [getSession_sendSession_other _ _ (Ne.symm hj)]
      exact getSession_setSession_other _ _ (Ne.symm hj)
    · rw [getSession_sendSession_same, hopened]
      exact ⟨rfl, rfl, rfl, by simp only [beq_iff_eq]⟩
  | false =>
    rw [hrefused hproof]
    have hsent : ∀ j, (getSession (sendSession (incP u (pk 0x0100 7) 1) k (sppAnswer 4 0 m.reqId 0x21 0 [])) j).st = (getSession u j).st ∧
        (j ≠ k → getSession (sendSession (incP u (pk 0x0100 7) 1) k (sppAnswer 4 0 m.reqId 0x21 0 [])) j = getSession u j) := fun j => by
      have hu := getSession_of_spp (incP_spp u (pk 0x0100 7) 1) j
      by_cases hj : j = k
      · subst hj
        rw [getSession_sendSession_same, hu]
        exact ⟨rfl, fun h => absurd rfl h⟩
      · rw [getSession_sendSession_other _ _ (Ne.symm hj), hu]
        exact ⟨rfl, fun _ => rfl⟩
    refine ⟨fun a => (sameMemory_closeSlot _ k a).trans (sameMemory_sendSession (incP u (pk 0x0100 7) 1) k _ a), ?_, fun j hj => ?_, nofun,
      fun _ => getSession_closeSlot_same (by rw [(hsent k).1]; exact hopen)⟩
    · rw [after_closeSlot, after_sendSession, incP_spp]
    · rw [getSession_closeSlot_other _ (Ne.symm hj), (hsent j).2 hj]

theorem open3_completes (src : SppSrc) (m : SppMsg) (s : State) (k : Nat) (htype : m.type = 3) (hfresh : FreshRequest s src m k)
    (hcount : m.count = 0) (hlen : m.body.length = 136) (hrsv : beNat ((m.body.drop 1).take 1) = 0)
    (hpad : (m.body.drop 134).any (· ≠ 0#8) = false) :
    ∃ t, exec (.open3 src m) s = .next t ∧ SameMemory s t ∧ (∀ j, j ≠ k → getSession t j = getSession s j) ∧
      (openProof s (getSession s k) m.body = true → (getSession t k).slot = beNat (m.body.take 1) ∧ (getSession t k).rx = m.seq ∧
        (getSession t k).st = (if beNat (m.body.take 1) = 0xFF then 2 else 3)) ∧
      (openProof s (getSession s k) m.body = false → (getSession t k).st = 0) := by
  obtain ⟨hserving, hudp, hslot, hversion, hform, -, -, hafter, hseq, htx⟩ := hfresh
  have hexec : exec (.open3 src m) s = .next (sessionMsg s src m fun s k => openDone s k m) :=
    (if_neg (not_not_intro htype) : execOpen3 src m s = _)
  obtain ⟨humem, huafter, huform, -⟩ := handling_frame s src m k
  have husame := handling_same s src m k
  have huother : ∀ j, j ≠ k → getSession (handling s src m k) j = getSession s j := fun j hj => handling_other s src m (Ne.symm hj)
  have huopen : (getSession (handling s src m k) k).st ≠ 0 := by rw [husame]; exact acceptedSlot_open hslot
  have heffect := openDone_effect (u := handling s src m k) hversion (huform.trans hform) hcount hlen hrsv hpad huopen
  have hmsg := fun v => sessionMsg_handled (f := fun s k => openDone s k m) (v := v) hserving hudp hslot
  rw [openProof_handling, husame] at heffect
  generalize handling s src m k = u at humem huafter huother heffect hmsg
  generalize openDone u k m = v at heffect hmsg
  obtain ⟨hmem, hvafter, hothers, hproved, hrefused⟩ := heffect
  obtain ⟨htmem, htsess, -⟩ := handled_frame v
  have hworn : (getSession v k).rx < 2 ^ 64 - 1 ∧ (getSession v k).tx < 2 ^ 64 - 1 := by
    cases hproof : openProof s (getSession s k) m.body with
    | true =>
      obtain ⟨-, hrx, htx', -⟩ := hproved hproof
      rw [hrx, htx']
      exact ⟨hseq, htx⟩
    | false =>
      rw [hrefused hproof]
      decide
  rw [hmsg v rfl (hvafter.trans (huafter.trans hafter)) hworn] at hexec
  refine ⟨_, hexec, fun a => (htmem a).trans ((hmem a).trans (humem a)), fun j hj => ?_, fun hproof => ?_, fun hproof => ?_⟩
  · rw [htsess, hothers j hj, huother j hj]
  · obtain ⟨hslots, hrx, -, hst⟩ := hproved hproof
    rw [htsess]
    exact ⟨hslots, hrx, hst⟩
  · rw [htsess, hrefused hproof]

/-! ### What draws no answer (R405, R420) -/

theorem sessionMsg_unserved {s : State} (src : SppSrc) (m : SppMsg) (f : State → Nat → State) (h : serving s = false) :
    sessionMsg s src m f = s :=
  if_pos (by rw [h]; rfl)

theorem sessionMsg_rejected {s : State} {src : SppSrc} {m : SppMsg} (f : State → Nat → State) (hserving : serving s = true)
    (hudp : src.udpOk = true) (hslot : acceptedSlot s src m = none) : sessionMsg s src m f = rejectMsg (rxOk s hostPort) := by
  have hslot' : acceptedSlot (rxOk s hostPort) src m = none := hslot
  unfold sessionMsg
  rw [if_neg (by rw [hserving]; exact Bool.false_ne_true), if_neg (by rw [hudp]; exact Bool.false_ne_true)]
  dsimp only
  rw [hslot']

/-- The commands that carry a session message, each as its handling. -/
theorem exec_sessionMsg {src : SppSrc} {m : SppMsg} (s : State) {i : Instr}
    (hi : (m.type = 3 ∧ i = .open3 src m) ∨ (m.type = 0x10 ∧ i = .access src m) ∨ (m.type = 0x13 ∧ i = .subscribe src m) ∨
      (m.type = 0x14 ∧ i = .unsubscribe src m) ∨ (m.type = 0x15 ∧ i = .close src m) ∨ (m.type = 0x16 ∧ i = .keepalive src m)) :
    ∃ f, exec i s = .next (sessionMsg s src m f) := by
  rcases hi with ⟨ht, rfl⟩ | ⟨ht, rfl⟩ | ⟨ht, rfl⟩ | ⟨ht, rfl⟩ | ⟨ht, rfl⟩ | ⟨ht, rfl⟩
  · exact ⟨_, (if_neg (not_not_intro ht) : execOpen3 src m s = _)⟩
  · exact ⟨_, (if_neg (by rw [ht]; decide) : execAccess src m s = _)⟩
  · exact ⟨_, (if_neg (not_not_intro ht) : execSubscribe src m s = _)⟩
  · exact ⟨_, (if_neg (not_not_intro ht) : execUnsubscribe src m s = _)⟩
  · exact ⟨_, (if_neg (not_not_intro ht) : execClose src m s = _)⟩
  · exact ⟨_, (if_neg (not_not_intro ht) : execKeepalive src m s = _)⟩

theorem sessionMessages_discarded (src : SppSrc) (m : SppMsg) (s : State) (i : Instr)
    (hi : (m.type = 3 ∧ i = .open3 src m) ∨ (m.type = 0x10 ∧ i = .access src m) ∨ (m.type = 0x13 ∧ i = .subscribe src m) ∨
      (m.type = 0x14 ∧ i = .unsubscribe src m) ∨ (m.type = 0x15 ∧ i = .close src m) ∨ (m.type = 0x16 ∧ i = .keepalive src m)) :
    (serving s = false → exec i s = .next s) ∧
    (serving s = true → src.udpOk = true → acceptedSlot s src m = none → exec i s = .next (rejectMsg (rxOk s hostPort))) := by
  obtain ⟨f, hf⟩ := exec_sessionMsg s hi
  rw [hf]
  exact ⟨fun h => by rw [sessionMsg_unserved src m f h], fun hserving hudp hslot => by rw [sessionMsg_rejected f hserving hudp hslot]⟩

/-- Settles O56: an OPEN1 by the free slots and the host's point, an OPEN3 by its proof, slots freed after the time that leaves
sessions alone. -/
theorem sessionsOpenAndClose : Obligations.SessionsOpenAndClose :=
  ⟨open1_completes, open3_completes, open3Timeout_completes, sessionIdleTimeout_completes, sessionClose_completes,
    sessionMessages_discarded⟩

end Sys2Proof.Machine
end

