-- ==== Sys2Proof/Proofs/SessionSource.lean ====
section
/-!
SUPPORT. A request that a session answers: the session also notes the Ethernet side of the request's source (R449).
-/
namespace Sys2Proof.Machine

/-- A request handled anew draws its answer, which the session keeps. -/
theorem request_anew {u v : State} {k : Nat} {m : SppMsg} {f : State → Nat × Nat × List Byte × State} {n : Nat} {body : List Byte}
    (hwait : unanswered u k m = false) (hkept : ∀ y ∈ (getSession u k).kept, y.req ≠ m.reqId) (hversion : m.version = 1)
    (hform : malformed u m = false) (hf : f u = (0, n, body, v)) (hflush : v.spp.flush.length ≤ u.spp.flush.length) :
    request u k m true f =
      keepAnswer (sendSession v k (sppAnswer 0x80 0 m.reqId 0 n body)) k m (sppAnswer 0x80 0 m.reqId 0 n body) := by
  have hnone : (getSession u k).kept.find? (fun y => y.req == m.reqId) = none :=
    List.find?_eq_none.mpr fun y hy => by simpa using hkept y hy
  unfold request
  rw [if_neg (by rw [hwait]; exact Bool.false_ne_true), hnone]
  dsimp only
  rw [if_neg (not_not_intro hversion), if_neg (by decide), if_neg (by rw [hform]; exact Bool.false_ne_true), hf]
  exact if_pos hflush

/-- The session after an answer sent and kept. -/
theorem getSession_keepAnswer_sendSession {v : State} {k : Nat} (m a : SppMsg) (hopen : (getSession v k).st ≠ 0) :
    getSession (keepAnswer (sendSession v k a) k m a) k =
      { getSession v k with
        tx := (getSession v k).tx + 1
        kept := (⟨m.reqId, m.type, m.body, a⟩ :: (getSession v k).kept).take 64 } := by
  have hsent := getSession_sendSession_same v k a
  unfold keepAnswer
  dsimp only
  rw [hsent]
  rw [if_neg (by simpa using hopen), getSession_setSession_same]

theorem after_keepAnswer (s : State) (k : Nat) (m a : SppMsg) : (keepAnswer s k m a).spp.after = s.spp.after := by
  unfold keepAnswer
  dsimp only
  split <;> rfl

/-- A KEEPALIVE leaves its source's Ethernet side in the session. -/
theorem keepalive_notes_source {src : SppSrc} {m : SppMsg} {s : State} {k : Nat} (hfresh : FreshRequest s src m k)
    (htype : m.type = 0x16) (hbody : m.body = []) (hcount : m.count = 0) :
    ∃ t, exec (.keepalive src m) s = .next t ∧ (getSession t k).eth = src.eth := by
  obtain ⟨hserving, hudp, hslot, hversion, hform, hkept, hwait, hafter, hseq, htx⟩ := hfresh
  have hexec : exec (.keepalive src m) s = .next (sessionMsg s src m fun s k => request s k m true fun s =>
      if m.body ≠ [] || m.count ≠ 0 then (0x10, 0, [], s) else (0, 0, [], s)) :=
    (if_neg (not_not_intro htype) : execKeepalive src m s = _)
  have husame := handling_same s src m k
  obtain ⟨-, huafter, huform, -⟩ := handling_frame s src m k
  have huwait : unanswered (handling s src m k) k m = unanswered s k m := rfl
  have hmsg := fun v => sessionMsg_handled (f := fun s k => request s k m true fun s =>
      if m.body ≠ [] || m.count ≠ 0 then (0x10, 0, [], s) else (0, 0, [], s)) (v := v) hserving hudp hslot
  generalize handling s src m k = u at husame huafter huform huwait hmsg
  have hopen : (getSession u k).st ≠ 0 := by rw [husame]; exact acceptedSlot_open hslot
  have hanew := request_anew (u := u) (v := u) (n := 0) (body := [])
    (f := fun s => if m.body ≠ [] || m.count ≠ 0 then (0x10, 0, [], s) else (0, 0, [], s))
    (huwait.trans hwait) (by rw [husame]; exact hkept) hversion (huform.trans hform) (by rw [hbody, hcount]; rfl) (Nat.le_refl _)
  have hsession := getSession_keepAnswer_sendSession m (sppAnswer 0x80 0 m.reqId 0 0 []) hopen
  have hnothing := (after_keepAnswer _ k m (sppAnswer 0x80 0 m.reqId 0 0 [])).trans (after_sendSession u k (sppAnswer 0x80 0 m.reqId 0 0 []))
  generalize keepAnswer _ k m _ = v at hanew hsession hnothing
  rw [husame] at hsession
  refine ⟨_, hexec, ?_⟩
  rw [hmsg v hanew (hnothing.trans (huafter.trans hafter)) (by rw [hsession]; exact ⟨hseq, htx⟩)]
  obtain ⟨-, hsame, -⟩ := handled_frame v
  rw [hsame, hsession]

/-- The server serves, and slot 0 holds open session 1 of one host, its last message from the Ethernet address 1. -/
def movedS : State :=
  { setP (setP State.reset (pk 0x0400 1) (2 ^ 64 - 1)) (portKey hostPort 0xA) 2 with
    spp := { slots := [(0, { st := 2, sn := 1, ip := 7, port := 0x5A49, eth := { mac := 1 } })] } }

/-- The same host behind the Ethernet address 2. -/
def movedSrc : SppSrc := { ip := 7, port := 0x5A49, udpOk := true, eth := { mac := 2 } }

/-- A KEEPALIVE of session 1 under a tag. -/
def aliveMsg (tag : List Byte) : SppMsg := ⟨1, 0x16, 1, 1, 0, 0, 0, 0, 0, [], tag⟩

theorem sppTag_aliveMsg (key tag : List Byte) : sppTag key (aliveMsg tag) = sppTag key (aliveMsg []) := rfl

theorem movedS_accepts : acceptedSlot movedS movedSrc (aliveMsg (sppTag [] (aliveMsg []))) = some 0 := by
  have hslot : (slotsWhere movedS fun x => x.st ≠ 0 && x.sn == 1).head? = some 0 := by decide +kernel
  have hsession : getSession movedS 0 = { st := 2, sn := 1, ip := 7, port := 0x5A49, eth := { mac := 1 } } := rfl
  generalize htag : sppTag [] (aliveMsg []) = tag
  have hnumber : (aliveMsg tag).session = 1 := rfl
  unfold acceptedSlot
  rw [hnumber, hslot]
  dsimp only
  rw [hsession, sppTag_aliveMsg, htag]
  simp [movedSrc, aliveMsg]

theorem movedS_serves : serving movedS = true ∧ malformed movedS (aliveMsg []) = false ∧ (getSession movedS 0).kept = [] ∧
    movedS.spp.flush = [] ∧ movedS.spp.after = [] ∧ (getSession movedS 0).tx + 1 < 2 ^ 64 - 1 := by decide +kernel

theorem movedS_fresh : FreshRequest movedS movedSrc (aliveMsg (sppTag [] (aliveMsg []))) 0 := by
  have haccepts := movedS_accepts
  obtain ⟨hserving, hform, hkept, hflush, hafter, htx⟩ := movedS_serves
  generalize sppTag [] (aliveMsg []) = tag at haccepts
  have hwait : unanswered movedS 0 (aliveMsg tag) = false := by rw [unanswered, hflush]; rfl
  exact ⟨hserving, rfl, haccepts, rfl, hform, fun y hy => absurd (hkept ▸ hy) List.not_mem_nil, hwait, hafter, (by decide : (1 : Nat) < 2 ^ 64 - 1), htx⟩

/-- Refutes O57: after the KEEPALIVE of a host whose Ethernet address has changed, its session holds the new address, which the
session that the statement describes does not. -/
theorem not_sessionRequestsComplete : ¬ Obligations.SessionRequestsComplete := by
  rintro ⟨hrequests, -⟩
  have hfresh := movedS_fresh
  generalize sppTag [] (aliveMsg []) = tag at hfresh
  obtain ⟨hkeepalive, -⟩ := hrequests movedSrc (aliveMsg tag) movedS 0 hfresh
  obtain ⟨t, hexec, -, hsession, -⟩ := hkeepalive rfl rfl rfl
  obtain ⟨t', hexec', heth⟩ := keepalive_notes_source hfresh rfl rfl rfl
  obtain rfl : t = t' := Host.Outcome.next.inj (hexec.symm.trans hexec')
  have hkeeps : (answered movedS (aliveMsg tag) (sppAnswer 0x80 0 (aliveMsg tag).reqId 0 0 []) 0).eth = { mac := 1 } := rfl
  rw [hsession, hkeeps] at heth
  exact absurd (congrArg Eth.mac heth) (by decide)

end Sys2Proof.Machine
end

