-- ==== Sys2Proof/Proofs/MirroredWrite.lean ====
section
/-!
SUPPORT. A mirrored write whose peer entry names a port that no package has (R313, R349): the counters of that port are the
parameters of a domain's snapshots.
-/
namespace Sys2Proof.Machine

/-- One byte that waits for its mirror. -/
def aliasMirror : MirrorWrite := { entry := 0, k := 0, off := 0, pa := 0, data := [(0, false)], pkt := none }

/-- Domain 0 has one write to mirror by peer entry 0, whose port is 1F8h: 0A10h + 1F8h is 0C08h, so that the link of that port
is parameter 0C08h.0A of domain 0, here 2, and its count of frames sent is 0C08h.0E, the count of mirrored bytes. -/
def aliasS : State :=
  let s := setP (setP (setP State.reset (snapKey 0 3) 0) (snapKey 0 0xA) 2) (pk 0x0B40 2) 0x1F8
  { s with snap := { s.snap with doms := [(0, { mirrors := [aliasMirror] })] } }

/-- A parameter after a command. -/
def paramAfter (key : Nat) : Host.Outcome State Fault Refusal → Nat
  | .next t => getP t key
  | _ => 0

/-- The mirrored byte and the frame that carries it are both counted. -/
theorem aliasS_counts_twice : paramAfter (snapKey 0 0xE) (execSnapshotMirrorWrite 0 aliasS) = 2 := by decide +kernel

theorem aliasS_expects : (getSnapD aliasS 0).mirrors = [aliasMirror] ∧
    min (getP aliasS (snapKey 0 0xE) + aliasMirror.data.length) (counterMax (snapKey 0 0xE)) = 1 := by decide +kernel

/-- Refutes O58: in `aliasS` a mirrored write of one byte raises the count of mirrored bytes by two. -/
theorem not_snapshotEventsComplete : ¬ Obligations.SnapshotEventsComplete := by
  rintro ⟨-, -, -, hmirror, -⟩
  obtain ⟨hmirrors, hcount⟩ := aliasS_expects
  obtain ⟨t, hexec, -, -, hcounted⟩ := hmirror 0 aliasS aliasMirror [] (by decide) hmirrors (by simp [aliasMirror])
  have hafter : paramAfter (snapKey 0 0xE) (execSnapshotMirrorWrite 0 aliasS) = getP t (snapKey 0 0xE) :=
    congrArg (paramAfter _) (hexec : execSnapshotMirrorWrite 0 aliasS = .next t)
  have htwo := aliasS_counts_twice
  rw [hafter, hcounted, hcount] at htwo
  exact absurd htwo (by decide)

end Sys2Proof.Machine
end

