-- ==== Sys2Proof/Proofs/HostMemoryServer.lean ====
section
/-!
SUPPORT. The host memory service as server: a request that comes in order, applied in its region (R350, R456, R457).
-/
namespace Sys2Proof.Machine

/-! ### Accesses where nothing waits and nothing is in error -/

/-- No stored byte is in error and no access waits at a stack. -/
def Undisturbed (s : State) : Prop := s.errs = [] ∧ ∀ k, queueAt s k = []

/-- Only parameters and the buckets of the regulators. -/
def OnlyCharged (s u : State) : Prop := u = { s with par := u.par, buckets := u.buckets }

theorem onlyCharged_refl (s : State) : OnlyCharged s s := rfl

theorem onlyCharged_trans {s t u : State} (h : OnlyCharged s t) (k : OnlyCharged t u) : OnlyCharged s u := by
  rw [OnlyCharged] at h k ⊢
  rw [k, h]

theorem onlyCharged_ite {s a b : State} (p : Prop) [Decidable p] (ha : OnlyCharged s a) (hb : OnlyCharged s b) :
    OnlyCharged s (if p then a else b) := by
  split <;> assumption

theorem OnlyCharged.undisturbed {s u : State} (h : OnlyCharged s u) (hs : Undisturbed s) : Undisturbed u := by
  rw [h]
  exact hs

theorem OnlyCharged.mem {s u : State} (h : OnlyCharged s u) : u.mem = s.mem := by rw [h]

theorem OnlyCharged.ports {s u : State} (h : OnlyCharged s u) : u.ports = s.ports := by rw [h]

theorem onlyCharged_chargeNow (s : State) (st q c : Nat) : OnlyCharged s (chargeNow s st q c) :=
  onlyCharged_ite _ rfl (onlyCharged_ite _ rfl rfl)

theorem serveAhead_of_undisturbed {s : State} (h : Undisturbed s) (pa n dead : Nat) : serveAhead s pa n dead = s := by
  obtain ⟨-, hqueue⟩ := h
  unfold serveAhead
  dsimp only
  rw [hqueue]
  rfl

/-- An access charges its partition and does nothing else. -/
theorem onlyCharged_chargeRange {s : State} (h : Undisturbed s) (q pa n : Nat) (d : Option Nat) (write : Bool) (born : Nat) :
    OnlyCharged s (chargeRange s q pa n d write born) := by
  unfold chargeRange
  extract_lets t
  have ht : OnlyCharged s t := onlyCharged_ite _ rfl
    (foldl_keeps (OnlyCharged s) _ (fun v i hv => by
      dsimp only
      rw [serveAhead_of_undisturbed (hv.undisturbed h)]
      exact onlyCharged_trans hv (onlyCharged_chargeNow ..)) _ s rfl)
  obtain ⟨herrs, -⟩ := ht.undisturbed h
  rw [checkEdges_of_noErrs herrs, checkRange_of_noErrs herrs]
  exact onlyCharged_ite _ rfl (onlyCharged_ite _ ht ht)

/-! ### A request applied or refused (R350) -/

theorem length_of_hmsRefuse {s : State} {f : HmsFrame} (h : hmsRefuse s f = 0) : f.length = f.payload.length := by
  refine Decidable.byContradiction fun hne => ?_
  have hbad : hmsMalformed f = true := by
    unfold hmsMalformed
    simp [hne]
  rw [hmsRefuse, if_pos hbad] at h
  exact absurd h (by decide)

/-- The first byte of a region that a request names. -/
def hmsFrom (s : State) (f : HmsFrame) : Nat := getP s (rxKey f.region 2) + f.offset

/-- Where a REFRESH copies to. -/
def hmsTo (s : State) (f : HmsFrame) : Nat := getP s (rxKey f.region 2) + f.offset2

/-- A request other than a REFRESH stores its payload. -/
theorem hmsApply_stores {s : State} {f : HmsFrame} (h : Undisturbed s) (hop : f.op ≠ 5) :
    (hmsApply s f).ports = s.ports ∧ SameMemoryBut (hmsFrom s f) f.payload.length s (hmsApply s f) ∧
      ∀ k, k < f.payload.length → readByte (hmsApply s f) (hmsFrom s f + k) = f.payload.getD k 0 := by
  have happly : hmsApply s f = incP (writeP (chargeRange s 8 (hmsFrom s f) f.length none true s.ctc) (hmsFrom s f)
      (f.payload.map fun b => (b, false))) (rxKey f.region 4) 1 := by
    unfold hmsApply
    dsimp only
    rw [if_neg (by simpa using hop)]
    rfl
  have hcharged := onlyCharged_chargeRange h 8 (hmsFrom s f) f.length none true s.ctc
  rw [happly]
  generalize chargeRange s 8 (hmsFrom s f) f.length none true s.ctc = u at hcharged
  have hlen : (f.payload.map fun b => (b, false)).length = f.payload.length := List.length_map ..
  have hbytes : (f.payload.map fun b => (b, false)).map (·.1) = f.payload := by rw [List.map_map]; exact List.map_id _
  refine ⟨hcharged.ports, fun a ha => ?_, fun k hk => ?_⟩
  · rw [readByte_incP, sameMemoryBut_writeP u _ _ a (by rwa [hlen])]
    exact sameMemory_of_eq hcharged.mem a
  · rw [readByte_incP, readByte_writeP_inside u _ _ _ (by rwa [hlen]), hbytes]

/-- Bytes as they are read in `u`, written in `v`. -/
theorem writeP_readP (u v : State) (src dst n : Nat) : SameMemoryBut dst n v (writeP v dst (readP u src n)) ∧
    ∀ k, k < n → readByte (writeP v dst (readP u src n)) (dst + k) = readByte u (src + k) := by
  have hlen : (readP u src n).length = n := by simp [readP]
  refine ⟨fun a ha => sameMemoryBut_writeP v dst _ a (by rwa [hlen]), fun k hk => ?_⟩
  have hbyte : ((readP u src n).map (·.1)).getD k 0 = readByte u (src + k) := by simp [readP, List.getD, hk]
  rw [readByte_writeP_inside v dst k _ (by rwa [hlen]), hbyte]

theorem hmsApply_refresh {s : State} {f : HmsFrame} (hop : f.op = 5) :
    hmsApply s f = incP (writeP (chargeRange (chargeRange s 8 (hmsFrom s f) (f.count * 2 ^ 21) none false s.ctc) 8 (hmsTo s f)
        (f.count * 2 ^ 21) none true (chargeRange s 8 (hmsFrom s f) (f.count * 2 ^ 21) none false s.ctc).ctc) (hmsTo s f)
      (readP (chargeRange s 8 (hmsFrom s f) (f.count * 2 ^ 21) none false s.ctc) (hmsFrom s f) (f.count * 2 ^ 21)))
        (rxKey f.region 4) 1 := by
  have hrefresh : (f.op == 5) = true := by simpa using hop
  unfold hmsApply hmsFrom hmsTo
  dsimp only
  rw [hrefresh, if_pos rfl]

theorem copies_of_charged {s u v : State} (hread : OnlyCharged s u) (hwrite : OnlyCharged u v) (src dst n key : Nat) :
    (incP (writeP v dst (readP u src n)) key 1).ports = s.ports ∧ SameMemoryBut dst n s (incP (writeP v dst (readP u src n)) key 1) ∧
      ∀ k, k < n → readByte (incP (writeP v dst (readP u src n)) key 1) (dst + k) = readByte s (src + k) := by
  have hports : (writeP v dst (readP u src n)).ports = v.ports := rfl
  obtain ⟨hbut, hcopied⟩ := writeP_readP u v src dst n
  generalize writeP v dst (readP u src n) = w at hports hbut hcopied ⊢
  refine ⟨(incP_ports ..).trans (hports.trans (hwrite.ports.trans hread.ports)), fun a ha => ?_, fun k hk => ?_⟩
  · rw [readByte_incP, hbut a ha]
    exact sameMemory_of_eq (hwrite.mem.trans hread.mem) a
  · rw [readByte_incP, hcopied k hk]
    exact sameMemory_of_eq hread.mem _

/-- A REFRESH copies its pages. -/
theorem hmsApply_copies {s : State} {f : HmsFrame} (h : Undisturbed s) (hop : f.op = 5) :
    (hmsApply s f).ports = s.ports ∧ SameMemoryBut (hmsTo s f) (f.count * 2 ^ 21) s (hmsApply s f) ∧
      ∀ k, k < f.count * 2 ^ 21 → readByte (hmsApply s f) (hmsTo s f + k) = readByte s (hmsFrom s f + k) := by
  have hread := onlyCharged_chargeRange h 8 (hmsFrom s f) (f.count * 2 ^ 21) none false s.ctc
  have hwrite := onlyCharged_chargeRange (hread.undisturbed h) 8 (hmsTo s f) (f.count * 2 ^ 21) none true
  rw [hmsApply_refresh hop]
  exact copies_of_charged hread (hwrite _) _ _ _ _

theorem ports_emit (s : State) (port : Nat) (o : Out) : (emit s port o).ports = s.ports := by rw [onlyColl_emit]

theorem hmsTake_applied {s : State} {port : Nat} {f : HmsFrame} (h : hmsRefuse s f = 0) : hmsTake s port f = hmsApply s f := by
  unfold hmsTake
  split
  · rfl
  next hne => exact absurd h hne

/-- A refused request is counted and answered. -/
theorem hmsTake_refused {s : State} {port : Nat} {f : HmsFrame} (h : hmsRefuse s f ≠ 0) :
    (hmsTake s port f).ports = s.ports ∧ SameMemory s (hmsTake s port f) := by
  unfold hmsTake
  split
  next hzero => exact absurd hzero h
  next =>
    extract_lets u
    have hu : u.ports = s.ports ∧ SameMemory s u := by
      unfold u
      split
      · exact ⟨rfl, fun _ => rfl⟩
      · exact ⟨rfl, fun _ => rfl⟩
    obtain ⟨hports, hmem⟩ := hu
    exact ⟨(ports_emit ..).trans hports, fun a => (sameMemory_emit u port _ a).trans (hmem a)⟩

theorem hmsRefuse_congr {s t : State} (h : ∀ sub, sub < 4 → getP t (rxKey r sub) = getP s (rxKey r sub)) {f : HmsFrame}
    (hr : f.region = r) : hmsRefuse t f = hmsRefuse s f := by
  subst hr
  unfold hmsRefuse
  rw [h 1 (by decide), h 3 (by decide)]

/-- A READ or WRITE is the driver's side's (R456). -/
theorem hmsRefuse_of_read_write {s : State} {f : HmsFrame} (h : f.op = 1 ∨ f.op = 2) : hmsRefuse s f ≠ 0 := by
  have hop : (f.op == 1 || f.op == 2) = true := by simpa using h
  unfold hmsRefuse
  rw [if_pos hop]
  split <;> decide

/-! ### A request in order (R457) -/

theorem findRecv_names (s : State) (port ip udp : Nat) :
    (findRecv s port ip udp).port = port ∧ (findRecv s port ip udp).ip = ip ∧ (findRecv s port ip udp).udp = udp := by
  unfold findRecv
  cases hfind : s.ports.recv.find? fun r => r.port == port && r.ip == ip && r.udp == udp with
  | none => exact ⟨rfl, rfl, rfl⟩
  | some r => simpa [and_assoc] using List.find?_some hfind

theorem findRecv_setRecv (s : State) (r : HRecv) : findRecv (setRecv s r) r.port r.ip r.udp = r := by
  have hnone : (s.ports.recv.filter fun x => !(x.port == r.port && x.ip == r.ip && x.udp == r.udp)).find?
      (fun x => x.port == r.port && x.ip == r.ip && x.udp == r.udp) = none := by
    rw [List.find?_eq_none]
    intro x hx
    exact Bool.not_eq_true _ ▸ (Bool.not_eq_true' _ ▸ (List.mem_filter.mp hx).2)
  unfold findRecv setRecv
  dsimp only
  rw [List.find?_append, hnone]
  simp

theorem findRecv_of_ports {s t : State} (h : t.ports = s.ports) (port ip udp : Nat) : findRecv t port ip udp = findRecv s port ip udp := by
  rw [findRecv, findRecv, h]

/-- The state in which a request that comes in order is taken: it is counted, and the next number is expected. -/
def taking (s : State) (port : Nat) (f : HmsFrame) : State :=
  setRecv (incP s (portKey port 0x0D) 1) { findRecv s port f.srcIp f.srcPort with expect := (f.seq + 1) % 2 ^ 32 }

theorem portKey_ne_rxKey (port r : Nat) {sub : Nat} (h : sub < 4) : portKey port 0x0D ≠ rxKey r sub := by
  unfold portKey rxKey pk
  split <;> omega

theorem taking_frame (s : State) (port : Nat) (f : HmsFrame) :
    SameMemory s (taking s port f) ∧ (Undisturbed s → Undisturbed (taking s port f)) ∧
      (∀ sub, sub < 4 → getP (taking s port f) (rxKey f.region sub) = getP s (rxKey f.region sub)) ∧
      findRecv (taking s port f) port f.srcIp f.srcPort =
        { findRecv s port f.srcIp f.srcPort with expect := (f.seq + 1) % 2 ^ 32 } := by
  refine ⟨fun _ => rfl, fun h => h, fun sub hsub => getP_incP_other s 1 (portKey_ne_rxKey port f.region hsub), ?_⟩
  obtain ⟨hport, hip, hudp⟩ := findRecv_names s port f.srcIp f.srcPort
  have hset := findRecv_setRecv (incP s (portKey port 0x0D) 1)
    { findRecv s port f.srcIp f.srcPort with expect := (f.seq + 1) % 2 ^ 32 }
  rw [hport, hip, hudp] at hset
  exact hset

/-- A request in order behind which none is held is taken and acknowledged. -/
theorem hmsReceive_in_order {s v : State} {port : Nat} {f : HmsFrame} (hrestart : f.restart ≠ 1)
    (hexpect : (findRecv s port f.srcIp f.srcPort).expect = f.seq) (hheld : (findRecv s port f.srcIp f.srcPort).held = [])
    (hv : hmsTake (taking s port f) port f = v) (hports : v.ports = (taking s port f).ports) :
    ∃ o, hmsReceive (incP s (portKey port 0x0D) 1) port f = emit v port o := by
  obtain ⟨-, -, -, hfind⟩ := taking_frame s port f
  have hsame : findRecv (incP s (portKey port 0x0D) 1) port f.srcIp f.srcPort = findRecv s port f.srcIp f.srcPort := rfl
  have hdrain : hmsDrain port f.srcIp f.srcPort 1 v = v := by
    rw [hmsDrain, findRecv_of_ports hports, hfind]
    dsimp only
    rw [hheld]
    rfl
  have hahead : (wrap 32 ((f.seq : Int) - f.seq) == 0) = true := by rw [Int.sub_self]; rfl
  have htaking : setRecv (incP s (portKey port 0x0D) 1)
      { findRecv s port f.srcIp f.srcPort with expect := (f.seq + 1) % 2 ^ 32 } = taking s port f := rfl
  unfold hmsReceive
  dsimp only
  rw [hsame, if_neg (c := (f.restart == 1) = true) (by simpa using hrestart), hexpect, if_pos hahead, htaking, hheld, hv]
  exact ⟨_, congrArg (fun u => hmsAnswer u port f 0x82 (findRecv u port f.srcIp f.srcPort).expect 0) hdrain⟩

/-- The commands that carry a request of the service, each as its receipt. -/
theorem exec_hmsRequest {port : Nat} {f : HmsFrame} (s : State) {i : Instr}
    (hi : (f.op = 3 ∧ i = .page port f) ∨ (f.op = 4 ∧ i = .mirror port f) ∨ (f.op = 5 ∧ i = .refresh port f) ∨
      (f.op = 6 ∧ i = .record port f) ∨ (f.op = 1 ∧ i = .read port f) ∨ (f.op = 2 ∧ i = .write port f)) :
    exec i s = hmsFrameIn f.op port f s := by
  rcases hi with ⟨h, rfl⟩ | ⟨h, rfl⟩ | ⟨h, rfl⟩ | ⟨h, rfl⟩ | ⟨h, rfl⟩ | ⟨h, rfl⟩ <;> rw [h] <;> rfl

theorem hmsFrameIn_eq {port : Nat} {f : HmsFrame} (s : State) (hport : port < 17) :
    hmsFrameIn f.op port f s =
      if hmsCrc f ≠ f.crc then .next (incP (incP s (portKey port 0x0D) 1) (pk 0x0A40 0x0A) 1)
      else .next (hmsReceive (incP s (portKey port 0x0D) 1) port f) := by
  unfold hmsFrameIn
  rw [if_neg (Nat.not_le.mpr hport), if_neg (not_not_intro rfl)]

/-- What a request in order leaves behind, by its refusal and its type. -/
theorem hmsReceive_effect {s : State} {port : Nat} {f : HmsFrame} (hrestart : f.restart ≠ 1)
    (hexpect : (findRecv s port f.srcIp f.srcPort).expect = f.seq) (hheld : (findRecv s port f.srcIp f.srcPort).held = [])
    (hstill : Undisturbed s) :
    ∃ t, hmsReceive (incP s (portKey port 0x0D) 1) port f = t ∧
      (findRecv t port f.srcIp f.srcPort).expect = (f.seq + 1) % 2 ^ 32 ∧ (hmsRefuse s f ≠ 0 → SameMemory s t) ∧
      (f.op ≠ 5 → hmsRefuse s f = 0 → SameMemoryBut (hmsFrom s f) f.payload.length s t ∧
        ∀ k, k < f.payload.length → readByte t (hmsFrom s f + k) = f.payload.getD k 0) ∧
      (f.op = 5 → hmsRefuse s f = 0 → SameMemoryBut (hmsTo s f) (f.count * 2 ^ 21) s t ∧
        ∀ k, k < f.count * 2 ^ 21 → readByte t (hmsTo s f + k) = readByte s (hmsFrom s f + k)) := by
  obtain ⟨hmem, hkeeps, hpar, hfind⟩ := taking_frame s port f
  have hrefuse := hmsRefuse_congr hpar rfl
  have hfrom : hmsFrom (taking s port f) f = hmsFrom s f := by rw [hmsFrom, hmsFrom, hpar 2 (by decide)]
  have hto : hmsTo (taking s port f) f = hmsTo s f := by rw [hmsTo, hmsTo, hpar 2 (by decide)]
  have hanswer := fun v => hmsReceive_in_order (v := v) hrestart hexpect hheld
  have hquiet := hkeeps hstill
  generalize taking s port f = u at hmem hfind hrefuse hfrom hto hanswer hquiet
  by_cases hzero : hmsRefuse s f = 0
  · have htake := hmsTake_applied (port := port) (hrefuse.trans hzero)
    by_cases hop : f.op = 5
    · obtain ⟨hports, hbut, hcopied⟩ := hmsApply_copies hquiet hop
      rw [hfrom] at hcopied
      rw [hto] at hbut hcopied
      obtain ⟨o, ho⟩ := hanswer _ htake hports
      generalize hmsApply u f = v at hports hbut hcopied ho
      have hsent := sameMemory_emit v port o
      refine ⟨_, ho, ?_, fun h => absurd hzero h, fun h => absurd hop h, fun _ _ => ⟨fun a ha => ?_, fun k hk => ?_⟩⟩
      · rw [findRecv_of_ports ((ports_emit v port o).trans hports), hfind]
      · rw [hsent a, hbut a ha, hmem a]
      · rw [hsent, hcopied k hk, hmem]
    · obtain ⟨hports, hbut, hstored⟩ := hmsApply_stores hquiet hop
      rw [hfrom] at hbut hstored
      obtain ⟨o, ho⟩ := hanswer _ htake hports
      generalize hmsApply u f = v at hports hbut hstored ho
      have hsent := sameMemory_emit v port o
      refine ⟨_, ho, ?_, fun h => absurd hzero h, fun _ _ => ⟨fun a ha => ?_, fun k hk => ?_⟩, fun h => absurd h hop⟩
      · rw [findRecv_of_ports ((ports_emit v port o).trans hports), hfind]
      · rw [hsent a, hbut a ha, hmem a]
      · rw [hsent, hstored k hk]
  · obtain ⟨hports, hsame⟩ := hmsTake_refused (port := port) (fun h => hzero (hrefuse.symm.trans h))
    obtain ⟨o, ho⟩ := hanswer _ rfl hports
    generalize hmsTake u port f = v at hports hsame ho
    refine ⟨_, ho, ?_, fun _ a => ?_, fun _ h => absurd h hzero, fun _ h => absurd h hzero⟩
    · rw [findRecv_of_ports ((ports_emit v port o).trans hports), hfind]
    · rw [sameMemory_emit v port o a, hsame a, hmem a]

theorem hmsRequest_completes (port : Nat) (f : HmsFrame) (s : State) (i : Instr) (hport : port < 17)
    (hi : (f.op = 3 ∧ i = .page port f) ∨ (f.op = 4 ∧ i = .mirror port f) ∨ (f.op = 5 ∧ i = .refresh port f) ∨
      (f.op = 6 ∧ i = .record port f) ∨ (f.op = 1 ∧ i = .read port f) ∨ (f.op = 2 ∧ i = .write port f)) :
    (hmsCrc f ≠ f.crc → ∃ t, exec i s = .next t ∧ SameMemory s t ∧ t.ports = s.ports ∧
      SameParamsBut [portKey port 0x0D, pk 0x0A40 0x0A] s t) ∧
    (hmsCrc f = f.crc → f.restart ≠ 1 → (findRecv s port f.srcIp f.srcPort).expect = f.seq → f.seq < 2 ^ 32 →
      (findRecv s port f.srcIp f.srcPort).held = [] → s.errs = [] → (∀ k, queueAt s k = []) →
      ∃ t, exec i s = .next t ∧ (findRecv t port f.srcIp f.srcPort).expect = (f.seq + 1) % 2 ^ 32 ∧
        (hmsRefuse s f ≠ 0 → SameMemory s t) ∧ (f.op = 1 ∨ f.op = 2 → SameMemory s t) ∧
        (f.op = 3 ∨ f.op = 4 ∨ f.op = 6 → hmsRefuse s f = 0 →
          let at_ := getP s (rxKey f.region 2) + f.offset
          SameMemoryBut at_ f.payload.length s t ∧ ∀ k, k < f.payload.length → readByte t (at_ + k) = f.payload.getD k 0) ∧
        (f.op = 5 → hmsRefuse s f = 0 →
          let from_ := getP s (rxKey f.region 2) + f.offset
          let to_ := getP s (rxKey f.region 2) + f.offset2
          SameMemoryBut to_ (f.count * 2 ^ 21) s t ∧
            ∀ k, k < f.count * 2 ^ 21 → readByte t (to_ + k) = readByte s (from_ + k))) := by
  have hexec := (exec_hmsRequest s hi).trans (hmsFrameIn_eq s hport)
  refine ⟨fun hcrc => ?_, fun hcrc hrestart hexpect _ hheld herrs hqueue => ?_⟩
  · rw [if_pos hcrc] at hexec
    refine ⟨_, hexec, fun _ => rfl, rfl, fun k hk => ?_⟩
    simp only [List.mem_cons, List.not_mem_nil, or_false, not_or] at hk
    obtain ⟨hcounted, hbad⟩ := hk
    rw [getP_incP_other _ _ (Ne.symm hbad), getP_incP_other _ _ (Ne.symm hcounted)]
  · rw [if_neg (not_not_intro hcrc)] at hexec
    obtain ⟨t, ht, hnext, hrefused, hstored, hcopied⟩ := hmsReceive_effect hrestart hexpect hheld ⟨herrs, hqueue⟩
    rw [ht] at hexec
    exact ⟨t, hexec, hnext, hrefused, fun hop => hrefused (hmsRefuse_of_read_write hop),
      fun hop => hstored (by omega), hcopied⟩

end Sys2Proof.Machine
end

