-- ==== Sys2Proof/Proofs/HostMemoryClient.lean ====
section
/-!
SUPPORT. The host memory service as client: answers to its requests, resends and giving up (R456 to R458).
-/
namespace Sys2Proof.Machine

/-! ### An answer of a flow (R457, R458) -/

/-- An answer frame in its form. -/
def AnswerForm (f : HmsFrame) : Prop :=
  hmsCrc f = f.crc ∧ f.version = 1 ∧ f.rsv0 = 0 ∧ f.rsv1 = 0 ∧ f.length = f.payload.length

theorem flowOf_counted {s : State} (port p : Nat) (f : HmsFrame) : flowOf (incP s (portKey p 0x0D) 1) port f = flowOf s port f := by
  have hkept : ∀ index sub, sub < 13 → getP (incP s (portKey p 0x0D) 1) (pk index sub) = getP s (pk index sub) :=
    fun index sub hsub => getP_incP_other s 1 (by unfold portKey pk; split <;> omega)
  unfold flowOf peerOnPort
  simp only [hkept _ 2 (by decide), hkept _ 4 (by decide)]

theorem answerIn_of_form {op port fl : Nat} {f : HmsFrame} {s : State} (fx : Nat → State → State) (hport : port < 17) (hop : f.op = op)
    (hform : AnswerForm f) (hflow : flowOf s port f = some fl) :
    answerIn op port f fx s = .next (fx fl (incP s (portKey port 0x0D) 1)) := by
  obtain ⟨hcrc, hversion, hrsv0, hrsv1, hlen⟩ := hform
  have hguard : (decide (f.version ≠ 1) || decide (f.rsv0 ≠ 0) || decide (f.rsv1 ≠ 0) || decide (f.length ≠ f.payload.length)) = false := by
    rw [hversion, hrsv0, hrsv1, hlen]
    simp
  unfold answerIn
  dsimp only
  rw [if_neg (Nat.not_le.mpr hport), if_neg (not_not_intro hop), if_neg (not_not_intro hcrc), hguard, if_neg Bool.false_ne_true,
    flowOf_counted, hflow]

/-- A flow whose one request is `r`, with none behind it. -/
def OneRequest (s : State) (fl : Nat) (r : HReq) : Prop := (getFlow s fl).unacked = [r] ∧ (getFlow s fl).waiting = []

/-- The flow once its one request is done. -/
def flowDone (s : State) (fl : Nat) : State :=
  setFlow s fl { getFlow s fl with unacked := [], waiting := [], rounds := 0, sentNs := s.ns }

theorem flowAdvance_done {s : State} {fl : Nat} {r : HReq} {keep : HReq → Bool} (h : OneRequest s fl r) (hkeep : keep r = false) :
    flowAdvance s fl keep = flowDone s fl := by
  obtain ⟨hunacked, hwaiting⟩ := h
  have hnone : (getFlow s fl).unacked.filter keep = [] := by simp [hunacked, hkeep]
  unfold flowAdvance
  dsimp only
  rw [hnone, hwaiting]
  rfl

theorem flowDone_frame (s : State) (fl : Nat) :
    SameMemory s (flowDone s fl) ∧ (getFlow (flowDone s fl) fl).unacked = [] ∧ (∀ ch, getDma (flowDone s fl) ch = getDma s ch) ∧
      (flowDone s fl).doms = s.doms ∧ (flowDone s fl).raised = s.raised :=
  ⟨fun _ => rfl, congrArg HFlow.unacked (getFlow_setFlow_same s fl _), fun _ => rfl, rfl, rfl⟩

theorem dmaAnswered_frame (s : State) (ch id part : Nat) (bs : Option (List Byte)) :
    SameMemory s (dmaAnswered s ch id part bs) ∧ (∀ fl, getFlow (dmaAnswered s ch id part bs) fl = getFlow s fl) ∧
      (getDma (dmaAnswered s ch id part bs) ch).xfers = (getDma s ch).xfers.map fun t =>
        if t.id == id then { t with wait := t.wait - 1, parts := bs.elim t.parts (SMap.set [] t.parts part) } else t := by
  refine ⟨fun _ => rfl, fun _ => rfl, ?_⟩
  cases bs with
  | none => exact congrArg Dma.xfers (getDma_setDma_same s ch _)
  | some b => exact congrArg Dma.xfers (getDma_setDma_same s ch _)

section
variable {port fl ch id part : Nat} {f : HmsFrame} {s : State} {r : HReq} (hport : port < 17) (hform : AnswerForm f)
  (hflow : flowOf s port f = some fl) (hone : OneRequest s fl r) (hwho : r.who = .dma ch id part)
include hport hform hflow hone hwho

theorem data_answers (hop : f.op = 0x81) (hread : r.frame.op = 1) (hseq : r.frame.seq = f.seq) (hcount : r.frame.count = f.length) :
    ∃ t, exec (.data port f) s = .next t ∧ SameMemory s t ∧ (getFlow t fl).unacked = [] ∧
      ∀ x ∈ (getDma t ch).xfers, x.id = id → SMap.get [] x.parts part = f.payload := by
  have hexec : exec (.data port f) s = execData port f s := rfl
  rw [execData, answerIn_of_form _ hport hop hform hflow] at hexec
  have hcounted : OneRequest (incP s (portKey port 0x0D) 1) fl r := hone
  have hmem : SameMemory s (incP s (portKey port 0x0D) 1) := fun _ => rfl
  generalize incP s (portKey port 0x0D) 1 = u at hexec hcounted hmem
  have hfind : (getFlow u fl).unacked.find? (fun r => r.frame.op == 1 && r.frame.seq == f.seq && r.frame.count == f.length) = some r := by
    obtain ⟨hunacked, -⟩ := hcounted
    rw [hunacked]
    simp [hread, hseq, hcount]
  have hdone := flowAdvance_done (keep := fun q => !(q.frame.op == 1 && q.frame.seq == f.seq)) hcounted (by simp [hread, hseq])
  rw [hfind] at hexec
  dsimp only at hexec
  rw [hdone, reqDone, hwho] at hexec
  obtain ⟨hdmem, hdflow, -⟩ := flowDone_frame u fl
  generalize flowDone u fl = v at hexec hdmem hdflow
  obtain ⟨hamem, haflow, haxfers⟩ := dmaAnswered_frame v ch id part (some f.payload)
  refine ⟨_, hexec, fun a => (hamem a).trans ((hdmem a).trans (hmem a)), (congrArg HFlow.unacked (haflow fl)).trans hdflow, ?_⟩
  rw [haxfers]
  intro x hx hid
  obtain ⟨y, -, rfl⟩ := List.mem_map.mp hx
  by_cases hy : y.id = id
  · rw [if_pos (beq_iff_eq.mpr hy)]
    exact SMap.get_set_same ..
  · rw [if_neg (by simpa using hy)] at hid
    exact absurd hid hy

theorem ack_answers (hop : f.op = 0x82) (hwrite : r.frame.op ≠ 1) (hbelow : seqBelow r.frame.seq f.seq = true) :
    ∃ t, exec (.ack port f) s = .next t ∧ SameMemory s t ∧ (getFlow t fl).unacked = [] ∧
      (getDma t ch).xfers = (getDma s ch).xfers.map fun x => if x.id == id then { x with wait := x.wait - 1 } else x := by
  have hexec : exec (.ack port f) s = execAck port f s := rfl
  rw [execAck, answerIn_of_form _ hport hop hform hflow] at hexec
  have hcounted : OneRequest (incP s (portKey port 0x0D) 1) fl r := hone
  have hmem : SameMemory s (incP s (portKey port 0x0D) 1) := fun _ => rfl
  have hdma : getDma (incP s (portKey port 0x0D) 1) ch = getDma s ch := rfl
  generalize incP s (portKey port 0x0D) 1 = u at hexec hcounted hmem hdma
  have hacked : (decide (r.frame.op ≠ 1) && seqBelow r.frame.seq f.seq) = true := by simp [hwrite, hbelow]
  have hfilter : (getFlow u fl).unacked.filter (fun r => decide (r.frame.op ≠ 1) && seqBelow r.frame.seq f.seq) = [r] := by
    obtain ⟨hunacked, -⟩ := hcounted
    simp [hunacked, hwrite, hbelow]
  have hdone := flowAdvance_done (keep := fun r => !(decide (r.frame.op ≠ 1) && seqBelow r.frame.seq f.seq)) hcounted
    (by rw [hacked]; rfl)
  dsimp only at hexec
  rw [hfilter, hdone, if_neg (c := [r].isEmpty = true) Bool.false_ne_true, List.foldl_cons, List.foldl_nil, reqDone, hwho] at hexec
  obtain ⟨hdmem, hdflow, hddma, -⟩ := flowDone_frame u fl
  generalize flowDone u fl = v at hexec hdmem hdflow hddma
  obtain ⟨hamem, haflow, haxfers⟩ := dmaAnswered_frame v ch id part none
  refine ⟨_, hexec, fun a => (hamem a).trans ((hdmem a).trans (hmem a)), (congrArg HFlow.unacked (haflow fl)).trans hdflow, ?_⟩
  rw [haxfers, hddma, hdma]
  rfl

theorem nak_faults (hop : f.op = 0x83) (hseq : r.frame.seq = f.seq) (x : DmaXfer)
    (hx : (getDma s ch).xfers.find? (fun x => x.id == id) = some x) (hdom : (getD s (getDma s ch).dom).st.faultable = true) :
    ∃ t, exec (.nak port f) s = .next t ∧ SameMemory s t ∧ (getFlow t fl).unacked = [] ∧
      ∃ q, t.raised = s.raised ++ [q] ∧ q.code = 0x0F ∧ q.dom = some (getDma s ch).dom := by
  have hexec : exec (.nak port f) s = execNak port f s := rfl
  rw [execNak, answerIn_of_form _ hport hop hform hflow] at hexec
  have hcounted : OneRequest (incP (incP s (portKey port 0x0D) 1) (pk 0x0A40 9) 1) fl r := hone
  have hmem : SameMemory s (incP (incP s (portKey port 0x0D) 1) (pk 0x0A40 9) 1) := fun _ => rfl
  have hdma : getDma (incP (incP s (portKey port 0x0D) 1) (pk 0x0A40 9) 1) ch = getDma s ch := rfl
  have hdoms : (incP (incP s (portKey port 0x0D) 1) (pk 0x0A40 9) 1).doms = s.doms := rfl
  have hraised : (incP (incP s (portKey port 0x0D) 1) (pk 0x0A40 9) 1).raised = s.raised := rfl
  dsimp only at hexec
  generalize incP (incP s (portKey port 0x0D) 1) (pk 0x0A40 9) 1 = u at hexec hcounted hmem hdma hdoms hraised
  have hfind : (getFlow u fl).unacked.find? (fun r => r.frame.seq == f.seq) = some r := by
    obtain ⟨hunacked, -⟩ := hcounted
    rw [hunacked]
    simp [hseq]
  have hdone := flowAdvance_done (keep := fun q => decide (q.frame.seq ≠ f.seq)) hcounted (by simp [hseq])
  rw [hfind] at hexec
  dsimp only at hexec
  rw [hdone, hwho] at hexec
  obtain ⟨hdmem, hdflow, hddma, hddoms, hdraised⟩ := flowDone_frame u fl
  generalize flowDone u fl = v at hexec hdmem hdflow hddma hddoms hdraised
  have hchannel : getDma v ch = getDma s ch := (hddma ch).trans hdma
  dsimp only at hexec
  rw [hchannel, hx] at hexec
  dsimp only at hexec
  have hfaultable : (getD v (getDma v ch).dom).st.faultable = true := by
    rw [hchannel, getD_of_doms (hddoms.trans hdoms)]
    exact hdom
  rw [dmaProgFault, dmaFault, raise_of_faultable rfl hfaultable] at hexec
  refine ⟨_, hexec, fun a => (hdmem a).trans (hmem a), hdflow, _, congrArg (· ++ _) (hdraised.trans hraised), rfl, ?_⟩
  · exact congrArg (fun y : Dma => some y.dom) hchannel

end

theorem hmsAnswers_complete (port fl ch id part : Nat) (f : HmsFrame) (s : State) (r : HReq) (hport : port < 17)
    (hcrc : hmsCrc f = f.crc) (hversion : f.version = 1) (hrsv0 : f.rsv0 = 0) (hrsv1 : f.rsv1 = 0) (hlen : f.length = f.payload.length)
    (hflow : flowOf s port f = some fl) (hunacked : (getFlow s fl).unacked = [r]) (hwaiting : (getFlow s fl).waiting = [])
    (hwho : r.who = .dma ch id part) :
    (f.op = 0x81 → r.frame.op = 1 → r.frame.seq = f.seq → r.frame.count = f.length →
      ∃ t, exec (.data port f) s = .next t ∧ SameMemory s t ∧ (getFlow t fl).unacked = [] ∧
        ∀ x ∈ (getDma t ch).xfers, x.id = id → SMap.get [] x.parts part = f.payload) ∧
    (f.op = 0x82 → r.frame.op ≠ 1 → seqBelow r.frame.seq f.seq = true →
      ∃ t, exec (.ack port f) s = .next t ∧ SameMemory s t ∧ (getFlow t fl).unacked = [] ∧
        (getDma t ch).xfers = (getDma s ch).xfers.map fun x => if x.id == id then { x with wait := x.wait - 1 } else x) ∧
    (f.op = 0x83 → r.frame.seq = f.seq → ∀ x, (getDma s ch).xfers.find? (fun x => x.id == id) = some x →
      (getD s (getDma s ch).dom).st.faultable = true →
      ∃ t, exec (.nak port f) s = .next t ∧ SameMemory s t ∧ (getFlow t fl).unacked = [] ∧
        ∃ q, t.raised = s.raised ++ [q] ∧ q.code = 0x0F ∧ q.dom = some (getDma s ch).dom) := by
  have hform : AnswerForm f := ⟨hcrc, hversion, hrsv0, hrsv1, hlen⟩
  have hone : OneRequest s fl r := ⟨hunacked, hwaiting⟩
  exact ⟨data_answers hport hform hflow hone hwho, ack_answers hport hform hflow hone hwho, nak_faults hport hform hflow hone hwho⟩

/-! ### Resends (R457, R458) -/

theorem getP_emitReq (s : State) (fl : Nat) (r : HReq) {sub : Nat} (hsub : sub < 10) :
    getP (emitReq s fl r) (pk 0x0A40 sub) = getP s (pk 0x0A40 sub) := by
  have hport : ∀ port k, k = 0x0E ∨ k = 0x0F → portKey port k ≠ pk 0x0A40 sub := fun port k hk => by
    unfold portKey pk
    split <;> omega
  exact getP_emit_other s _ (hport _ _ (.inl rfl)) (hport _ _ (.inr rfl)) (by unfold pk; omega) (by unfold pk; omega)

theorem getP_foldl_emitReq (l : List HReq) (s : State) (fl : Nat) {sub : Nat} (hsub : sub < 10) :
    getP (l.foldl (fun s r => emitReq s fl r) s) (pk 0x0A40 sub) = getP s (pk 0x0A40 sub) :=
  foldl_keeps (fun t => getP t (pk 0x0A40 sub) = getP s (pk 0x0A40 sub)) _ (fun t r h => (getP_emitReq t fl r hsub).trans h) l s rfl

theorem hmsResendTimeout_next {fl : Nat} {s : State} (hfl : fl < 129) (hunacked : (getFlow s fl).unacked ≠ []) :
    exec (.hmsResendTimeout fl) s =
      let u := toNs ((getFlow s fl).sentNs + getP s (pk 0x0A40 6) * 1000) s
      if getP u (pk 0x0A40 7) ≤ (getFlow s fl).rounds then .next (giveUp u fl (getFlow s fl).rounds)
      else
        let v := incP ((getFlow s fl).unacked.foldl (fun s r => emitReq s fl r) u) (pk 0x0A40 8) (getFlow s fl).unacked.length
        .next (setFlow v fl { getFlow s fl with rounds := (getFlow s fl).rounds + 1, sentNs := v.ns }) := by
  have harm : exec (.hmsResendTimeout fl) s = execHmsResendTimeout fl s := rfl
  rw [harm, execHmsResendTimeout, if_neg (Nat.not_le.mpr hfl)]
  dsimp only
  rw [if_neg (by simpa using hunacked)]

/-- A flow that is given up has nothing to send and restarts. -/
theorem getFlow_giveUp (s : State) (fl rounds : Nat) :
    (getFlow (giveUp s fl rounds) fl).unacked = [] ∧ (getFlow (giveUp s fl rounds) fl).waiting = [] ∧
      (getFlow (giveUp s fl rounds) fl).restart = true := by
  unfold giveUp
  extract_lets f all port dma a b f'
  rw [getFlow_setFlow_same]
  exact ⟨rfl, rfl, rfl⟩

theorem hmsResendTimeout_completes (fl : Nat) (s : State) (hfl : fl < 129) (hunacked : (getFlow s fl).unacked ≠ []) :
    ∃ t, exec (.hmsResendTimeout fl) s = .next t ∧
      ((getFlow s fl).rounds < getP s (pk 0x0A40 7) → (getFlow t fl).rounds = (getFlow s fl).rounds + 1 ∧
        (getFlow t fl).unacked = (getFlow s fl).unacked ∧
        getP t (pk 0x0A40 8) = min (getP s (pk 0x0A40 8) + (getFlow s fl).unacked.length) (counterMax (pk 0x0A40 8))) ∧
      (getP s (pk 0x0A40 7) ≤ (getFlow s fl).rounds → (getFlow t fl).unacked = [] ∧ (getFlow t fl).waiting = [] ∧
        (getFlow t fl).restart = true) := by
  have hexec := hmsResendTimeout_next hfl hunacked
  have helapsed := elapsed_toNs ((getFlow s fl).sentNs + getP s (pk 0x0A40 6) * 1000) s
  generalize toNs ((getFlow s fl).sentNs + getP s (pk 0x0A40 6) * 1000) s = u at hexec helapsed
  dsimp only at hexec
  have hlimit : getP u (pk 0x0A40 7) = getP s (pk 0x0A40 7) := helapsed.par _ (by decide)
  have hresent : getP u (pk 0x0A40 8) = getP s (pk 0x0A40 8) := helapsed.par _ (by decide)
  rw [hlimit] at hexec
  by_cases hlast : getP s (pk 0x0A40 7) ≤ (getFlow s fl).rounds
  · rw [if_pos hlast] at hexec
    exact ⟨_, hexec, fun h => absurd h (Nat.not_lt.mpr hlast), fun _ => getFlow_giveUp u fl _⟩
  · rw [if_neg hlast] at hexec
    have hsent := getP_foldl_emitReq (getFlow s fl).unacked u fl (sub := 8) (by decide)
    generalize (getFlow s fl).unacked.foldl (fun s r => emitReq s fl r) u = v at hexec hsent
    refine ⟨_, hexec, fun _ => ⟨?_, ?_, ?_⟩, fun h => absurd h hlast⟩
    · rw [getFlow_setFlow_same]
    · rw [getFlow_setFlow_same]
    · have hcounted := getP_incP_same v (pk 0x0A40 8) (getFlow s fl).unacked.length
      rw [hsent, hresent] at hcounted
      exact hcounted

/-- Settles O59: a request in order is applied at its region's bytes alone, an answer reaches the transfer of its one request, and
a flow without answers is resent or given up. -/
theorem hostMemoryServiceComplete : Obligations.HostMemoryServiceComplete :=
  ⟨hmsRequest_completes, hmsAnswers_complete, hmsResendTimeout_completes⟩

end Sys2Proof.Machine
end
